-- ==== Sys2Proof/Word.lean ====
section
/-! DEFINITION. The word types and the sparse-table type the model is written over. -/

namespace Sys2Proof

/-- One byte of any on-chip memory. -/
abbrev Byte := BitVec 8

/-- A 32-bit word. -/
abbrev Word32 := BitVec 32

/-- A 64-bit word, the unit of a scratchpad's check code (R264). -/
abbrev Word64 := BitVec 64

/-- A device or context address: 48 bits (R11). Memory keys are the plain naturals it denotes. -/
abbrev Addr := Nat

/-- A sparse table: keys strictly rising. -/
abbrev Tab (α : Type) := List (Nat × α)

/-- A finite set of naturals: strictly rising. -/
abbrev NatSet := List Nat

end Sys2Proof
end

