-- ==== Sys2Proof/Syntax.lean ====
section
/-! DEFINITION. The commands: one constructor per row of spec/opcode_table.json, with the operands the row's rule names. -/

namespace Sys2Proof

/-- The four paths that reach the dictionary (chapter 17). -/
inductive Path where
  | port0 | port1 | sideband | firmware
  deriving DecidableEq, Repr

/-- Who makes a dictionary access: the path, and whether the frame was authenticated under an ADMIN slot (R361). -/
structure Who where
  path  : Path
  admin : Bool
  deriving DecidableEq, Repr

/-- The issue queues of a core (R213: class GATE has two). -/
inductive QueueId where
  | poly | courier | gateArray | gateLane | mm | vec | msg | move
  deriving DecidableEq, Repr

/-- Where an instruction waits on a seal: at the head of an issue queue, or at dispatch for a CTRL instruction (R215). -/
inductive WaitPlace where
  | queue (q : QueueId)
  | ctrl (ctx : Fin 4096)
  deriving DecidableEq, Repr

/-- Why a received frame is dropped (R323, R324, R372). -/
inductive DropCause where
  | notAdmitted | badFcs | badIcv | replayed
  deriving DecidableEq, Repr

/-- What a pager or requester read returned (R300, R302). -/
inductive FetchResult where
  | data (bytes : List Byte)
  | transportError
  deriving DecidableEq, Repr

/-- The identity a peer port sends in the CONTROL exchange (R347). -/
structure PeerIdentity where
  module    : Fin 8
  board     : Fin 64
  pod       : Fin 64
  role      : Fin 4
  port      : Fin 24
  spareMode : Fin 3
  deriving DecidableEq, Repr

/-- A job header of the port engines (R313). -/
structure JobHeader where
  jobTag  : BitVec 32
  nParams : Nat
  members : BitVec 8
  source  : Bool
  gradFmt : Bool
  mode    : Bool
  step    : BitVec 32
  deriving DecidableEq, Repr

/-- A peer's verdict of pass A (R317). -/
inductive Verdict where
  | ok | nonfinite | poisoned
  deriving DecidableEq, Repr

/-- The commands. Rows that are internal steps of the device name only where they happen; what they act on stands in
`State`. Rows that come from outside carry what arrives. -/
inductive Instr where
  -- modulus table and chain slots (R44-R49)
  | mtLoad (w : Who) (v : BitVec 16)
  | mtLoadEnd
  | mtEvict (w : Who) (v : BitVec 16)
  | mtEvictEnd
  | activate (w : Who) (slot : Fin 16)
  | activateDone (slot : Fin 16)
  | drain (w : Who) (slot : Fin 16)
  | drainComplete (slot : Fin 16)
  -- polynomial engine (R50-R74)
  | nttFwd (core : Fin 128)
  | nttInv (core : Fin 128)
  | auto (core : Fin 128)
  | pwAdd (core : Fin 128)
  | pwSub (core : Fin 128)
  | pwNeg (core : Fin 128)
  | pwMul (core : Fin 128)
  | pwMac (core : Fin 128)
  | pwMulc (core : Fin 128)
  | pwMacc (core : Fin 128)
  | tensor (core : Fin 128)
  | keyMac (core : Fin 128)
  | bconv (core : Fin 128)
  | rescale (core : Fin 128)
  | transpose (core : Fin 128)
  | openObj (core : Fin 128)
  | commit (core : Fin 128)
  -- gate class (R110-R125)
  | gLin (core : Fin 128)
  | gKsw (core : Fin 128)
  | gRefresh (core : Fin 128)
  | gCombine (core : Fin 128)
  | gExtract (core : Fin 128)
  | gPack (core : Fin 128)
  -- matrix array (R126-R161)
  | mm (core : Fin 128)
  | tilePush (core : Fin 128)
  | arrivalChunkMet (core : Fin 128)
  -- vector engine (R162-R180)
  | vadd (core : Fin 128)
  | vsub (core : Fin 128)
  | vmul (core : Fin 128)
  | vfma (core : Fin 128)
  | vmax (core : Fin 128)
  | vmin (core : Fin 128)
  | vneg (core : Fin 128)
  | vabs (core : Fin 128)
  | vcvt (core : Fin 128)
  | vcmp (core : Fin 128)
  | vsel (core : Fin 128)
  | vexp (core : Fin 128)
  | vlog (core : Fin 128)
  | vrsqrt (core : Fin 128)
  | vrecip (core : Fin 128)
  | vsqrt (core : Fin 128)
  | vtanh (core : Fin 128)
  | vsigm (core : Fin 128)
  | vrelu (core : Fin 128)
  | vsilu (core : Fin 128)
  | vgelu (core : Fin 128)
  | viadd (core : Fin 128)
  | visub (core : Fin 128)
  | vimul (core : Fin 128)
  | vshr (core : Fin 128)
  | vand (core : Fin 128)
  | vor (core : Fin 128)
  | vxor (core : Fin 128)
  | vimax (core : Fin 128)
  | vimin (core : Fin 128)
  | vrsum (core : Fin 128)
  | vrmax (core : Fin 128)
  | vrmin (core : Fin 128)
  | vrssq (core : Fin 128)
  | vrisum (core : Fin 128)
  | vrowfin (core : Fin 128)
  | vldr (core : Fin 128)
  | vstr (core : Fin 128)
  | tilePop (core : Fin 128)
  -- courier and relay rounds (R75-R99)
  | keyStream (core : Fin 128)
  | streamStart (round : Fin 8)
  | parcelForm (round : Fin 8)
  | parcelArrival (core : Fin 128) (crcOk : Bool)
  | relayStall (core : Fin 128) (slot : Fin 2)
  -- command processor (R205-R232)
  | doorbell (ctx : Fin 4096) (gen : BitVec 16) (core : Fin 128) (head : Word32)
  | blockLoad (core : Fin 128) (ctx : Fin 4096)
  | dispatch (core : Fin 128)
  | waitMet (core : Fin 128) (place : WaitPlace)
  | instructionRetire (core : Fin 128)
  | nop (core : Fin 128) (ctx : Fin 4096)
  | agSet (core : Fin 128) (ctx : Fin 4096)
  | agReset (core : Fin 128) (ctx : Fin 4096)
  | sealBind (core : Fin 128) (ctx : Fin 4096)
  | loop (core : Fin 128) (ctx : Fin 4096)
  | loopPin (core : Fin 128)
  | fence (core : Fin 128) (ctx : Fin 4096)
  | mark (core : Fin 128) (ctx : Fin 4096)
  | endStream (core : Fin 128) (ctx : Fin 4096)
  | halt (core : Fin 128) (ctx : Fin 4096)
  | streamFinish (core : Fin 128) (ctx : Fin 4096)
  | cpResume (w : Who) (core : Fin 128)
  | cpSkip (w : Who) (core : Fin 128)
  | debugHalt (w : Who) (core : Fin 128)
  | imemReload (w : Who) (core : Fin 128) (ctx : Fin 4096) (ringBlock : BitVec 24)
  | imemReloadForce (w : Who) (core : Fin 128) (ctx : Fin 4096) (ringBlock : BitVec 24)
  | imemReloadHeldDone (core : Fin 128)
  -- mailboxes, stamps and seals (R233-R260)
  | send (core : Fin 128)
  | recv (core : Fin 128)
  | poll (core : Fin 128)
  | mbOpen (core : Fin 128)
  | mbClose (core : Fin 128)
  | soOpen (core : Fin 128)
  | soClose (core : Fin 128)
  | stampGet (core : Fin 128)
  | stampPut (core : Fin 128)
  | sealCreate (core : Fin 128)
  | sealFree (core : Fin 128)
  | sealImport (core : Fin 128)
  | sealImportResponse (core : Fin 128) (answer : Option (Fin 4096 × BitVec 8))
  | sealAdd (core : Fin 128)
  | envelopeArrival (n : Nat) (received : BitVec 256)
  | officeRoundComplete (core : Fin 128) (office : Fin 4)
  | receiptArrival (n : Nat)
  | sendStallEvent (core : Fin 128)
  | stampGrant (core : Fin 128)
  | remoteBurstWrite (n : Nat)
  | stampReturn (n : Nat)
  | sealUpdate (n : Nat)
  | sealDbgSet (w : Who) (v : Word32)
  -- data mover and memory system (R261-R287)
  | copy (core : Fin 128)
  | prefetch (core : Fin 128)
  | zero (core : Fin 128)
  | relayW (core : Fin 128)
  | scrubRead (core : Fin 128) (bank : Fin 16)
  | hbmRefresh (stack : Fin 8) (targeted : Bool)
  | retiredListCopy
  | pinWaysWrite (w : Who) (v : BitVec 8)
  | bwSplitWrite (w : Who) (v : BitVec 16)
  | spreadWrite (w : Who) (group : Fin 48) (v : BitVec 8)
  | tgStart (w : Who) (stack : Fin 8) (v : Word64)
  | tgStop (w : Who) (stack : Fin 8) (v : Word64)
  | tgEnterTest (w : Who) (stack : Fin 8) (v : Word64)
  | tgLeaveTest (w : Who) (stack : Fin 8) (v : Word64)
  -- contexts, paging and scheduling (R288-R308)
  | contextOpen (p : Path)
  | contextSet (p : Path)
  | reopen (p : Path)
  | close (p : Path)
  | closeComplete (ctx : Fin 4096)
  | map (p : Path)
  | mapComplete (ctx : Fin 4096)
  | unmap (p : Path)
  | mapHosted (p : Path)
  | suspend (ctx : Fin 4096)
  | contextResume (ctx : Fin 4096)
  | kill (ctx : Fin 4096)
  | contextHalt (ctx : Fin 4096)
  | priority (ctx : Fin 4096)
  | expressTakeEffect (core : Fin 128) (ctx : Fin 4096)
  | contextSaveDone (core : Fin 128) (ctx : Fin 4096)
  | pageFetchStart
  | pageFetchComplete (n : Fin 16) (r : FetchResult)
  | pageFetchTimeout (n : Fin 16)
  | pageAgeTick
  | residencyChange
  | sliceExpiry (ctx : Fin 4096)
  -- the parameter update (R309-R321)
  | updHeadWrite (w : Who) (v : Word32)
  | updJobStart
  | jobHeaderReceive (die : Fin 2) (member : Fin 8) (h : Option JobHeader)
  | updPeerTimeout (die : Fin 2)
  | chunkReceive (die : Fin 2) (k : Nat) (data : List Word32) (poisoned crcOk : Bool)
  | verdictReceive (die : Fin 2) (member : Fin 8) (v : Verdict) (sw su : Word64)
  | updJobEnd (die : Fin 2)
  | abortNoticeReceive (die : Fin 2) (member : Fin 8)
  -- host ports and results (R322-R340)
  | ethFrameDrop (port : Fin 2) (cause : DropCause)
  | ethSpeedWrite (w : Who) (port : Fin 2) (v : BitVec 8)
  | ethTrainingDone (port : Fin 2)
  | macsecSakLoad (w : Who) (port : Fin 2) (v : Word64)
  | roceRdmaWrite (port : Fin 2) (qpn : BitVec 24) (psn : BitVec 24) (rkey : Word32) (addr : Word64) (data : List Byte)
  | roceRdmaRead (port : Fin 2) (qpn : BitVec 24) (psn : BitVec 24) (rkey : Word32) (addr : Word64) (len : Nat)
  | roceNakReceive (port : Fin 2) (qpn : BitVec 24) (psn : BitVec 24)
  | roceTimeout (port : Fin 2) (qpn : BitVec 24)
  | roceCnpReceive (port : Fin 2) (qpn : BitVec 24)
  | roceRateRaise (port : Fin 2) (qpn : BitVec 24)
  | qpCreate (p : Path)
  | qpDestroy (p : Path)
  | watch (p : Path)
  | watchReady (slot : Fin 65536)
  | commandPayload (p : Path) (bytes : List Byte)
  | doorbellPayload (p : Path) (bytes : List Byte)
  | resultRead (p : Path) (handle : Word32)
  | resultRelease (p : Path) (handle : Word32)
  | resultTtlExpiry (slot : Fin 65536)
  | semAcquire (p : Path)
  | semRenew (p : Path)
  | semRelease (p : Path)
  | semLeaseExpiry
  | semBreak (w : Who) (v : BitVec 8)
  -- links and the manager hierarchy (R341-R358)
  | linkPacketReceive (port : Fin 24) (bytes : List Byte)
  | linkNakReceive (port : Fin 24) (seq : BitVec 16)
  | linkAckTimeout (port : Fin 24)
  | linkRetrainEnd (port : Fin 24) (ok : Bool)
  | linkTrainDone (port : Fin 24) (peer : Option PeerIdentity)
  | linkCommandTrain (w : Who) (port : Fin 24)
  | linkCommandDown (w : Who) (port : Fin 24)
  | spareModeWrite (w : Who) (v : BitVec 8)
  | relayCmd (bytes : List Byte)
  | managerJoin (confirmed : Bool) (peerTable : List (Nat × BitVec 48))
  | relayedPage (ctx : Fin 4096) (page : Nat) (data : List Byte) (further : List (Fin 8))
  | relayFrame (bytes : List Byte)
  -- the dictionary and the sideband (R359-R380)
  | dictFrame (p : Path) (bytes : List Byte)
  | dictRead (w : Who) (index : BitVec 16) (sub : BitVec 8)
  | dictWrite (w : Who) (index : BitVec 16) (sub : BitVec 8) (type : BitVec 4) (value : List Byte)
  | describe (w : Who) (index : BitVec 16) (sub : BitVec 8)
  | rawRead (w : Who) (addr : BitVec 48)
  | rawWrite (w : Who) (addr : BitVec 48) (v : Word32)
  | ackWrite (w : Who) (index : BitVec 16) (sub : BitVec 8) (v : Word64)
  | unlock (w : Who) (v : Word32)
  | unlockExpiry (p : Path)
  | notifySend (p : Path)
  | mctpMessage (whole : Bool) (bytes : List Byte)
  | setEndpointId (eid : BitVec 8)
  | getEndpointId
  | getEndpointUuid
  | getMctpVersionSupport
  | getMessageTypeSupport
  | getVendorDefinedMsgSupport
  | entdaa (addr : BitVec 7)
  | setdasa (addr : BitVec 7)
  | rstdaa
  | enec (mask : BitVec 8)
  | disec (mask : BitVec 8)
  | getpid
  | getbcr
  | getdcr
  | getstatus
  | getmxds
  | setmrl (v : BitVec 16)
  | getmrl
  | setmwl (v : BitVec 16)
  | getmwl
  -- the security island (R381-R401)
  | boot
  | fwStage (w : Who) (v : Word64)
  | fwStageDone
  | fwActivate (w : Who) (v : BitVec 8)
  | fwSvnCommit (w : Who) (v : BitVec 8)
  | rootRevoke (w : Who) (v : BitVec 8)
  | attestNonce (w : Who) (nonce : List Byte)
  | attestDone (p : Path)
  | kexCommand (w : Who) (v : BitVec 8)
  | kexDone (p : Path)
  | slotErase (w : Who) (v : BitVec 8)
  | bnJob (w : Who) (v : Word64)
  | bnJobStart
  | bnYieldPoint
  | bnJobEnd
  -- power, clocks and reset (R402-R418)
  | powerOn (straps : BitVec 17)
  | pwrEnAssert
  | pwrEnDeassert
  | inputFault
  | pllLock
  | pllLoss
  | throttleUpdate (die0 die1 : Fin 65)
  | thermalAlert (die : Fin 2)
  | thermalTrip (die : Fin 2)
  | rstN (straps : BitVec 17)
  | resetCtrlCold (w : Who)
  | resetCtrlShared (w : Who)
  | sharedResetEnd
  | coreClk (w : Who) (core : Fin 128) (v : BitVec 8)
  | clkAll (w : Who) (v : BitVec 8)
  | clkSwitchDone (core : Fin 128)
  | pwrStateReq (w : Who) (v : BitVec 8)
  | pwrEntryDone
  | wakeEvent (pin : Bool)
  | pwrExitDone
  -- integrity, faults and debug (R419-R437)
  | faultLogAccept (die : Fin 2)
  | traceRecordWrite (die : Fin 2)
  | syncMarkSend (die : Fin 2)
  | syncMarkReceive (die : Fin 2) (link : BitVec 5) (peer : BitVec 16) (syncId : Word32) (sent : Word64)
  | dbgMemRead (w : Who)
  | dbgMemWrite (w : Who) (data : List Byte)
  | dbgMbEnvelope (w : Who)
  | retireWindowExpiry (stack : Fin 8) (frame : Nat)
  | registerWrite (w : Who) (index : BitVec 16) (sub : BitVec 8) (v : Word64)
  | contextRestoreDone (core : Fin 128) (ctx : Fin 4096)
  | linkPeerSeen (port : Fin 24)
  | pwrGoodAssert
  | inputInRange
  | standbyRailLoss
  | fwActivateDone
  deriving DecidableEq, Repr

end Sys2Proof
end

