-- ==== Sys2Proof/Decode.lean ====
section
/-! DEFINITION. The words of the opcode table: the table gives bits to no row, so no word spells a command. -/

namespace Sys2Proof

/-- The command that a word spells by the table's bits. spec/opcode_table.json gives bits for no row. (DESIGN CHOICE, log 9) -/
def decodeTableWord (_nbits _w : Nat) : Option Instr := none

end Sys2Proof
end

