-- ==== Sys2Proof/Config.lean ====
section
/-! DEFINITION. What an implementation fixes, and the free values: constants without a body, so that no proof can rest on a value of them. -/

namespace Sys2Proof.Config

/-- A fresh unconstrained natural for each value of the counter `State.fresh`: the free value of the model. (DESIGN CHOICE, log 5) -/
opaque freeValue : Nat → Nat

/-- The bits of the special functions of Table 8.3 (function code, operand), where the spec bounds the error and
does not give the bits (R171). (DESIGN CHOICE, log 14) -/
opaque special : Nat → BitVec 32 → BitVec 32

/-- The bits of the prologue and epilogue forms of SILU, GELU and SWIGLU, which may differ from the vector engine's
(R149, R152, R171). (DESIGN CHOICE, log 14) -/
opaque fusedSpecial : Nat → BitVec 32 → BitVec 32

/-- The result of a conversion that the spec does not state, by element format and 32-bit operand: NaN to INT8, a float
result to UINT8 or INT32, an integer result to a float format (Table 6.4 and R168 give no rule). (DESIGN CHOICE, log 15) -/
opaque convert : Nat → BitVec 32 → BitVec 32

/-- The hash that names the set of a shared-cache line within its slice (R268 gives no formula). (DESIGN CHOICE, log 30) -/
opaque cacheSet : Nat → Nat

/-- The random source of the security island: fresh bytes for nonces and ephemeral keys (R393). (DESIGN CHOICE, log 98) -/
opaque randomBytes : Nat → Nat → List (BitVec 8)

/-- Bus characteristics register of the I3C target (R377 names GETBCR and gives no value). (DESIGN CHOICE, log 94) -/
opaque i3cBcr : BitVec 8

/-- Device characteristics register of the I3C target (R377 names GETDCR and gives no value). -/
opaque i3cDcr : BitVec 8

/-- Maximum data speed answered to GETMXDS (R377 bounds SDR at 12.5 MHz and gives no encoding). -/
opaque i3cMxds : BitVec 16

/-- How the provisional ID is formed from the serial number (R377). -/
opaque provisionalId : BitVec 64 → BitVec 48

/-- The identity the endpoint gives for Get Endpoint UUID (R378). (DESIGN CHOICE, log 94) -/
opaque endpointUuid : List (BitVec 8)

/-- The versions and types the endpoint lists in MCTP control answers (R378 names the messages and gives no contents). -/
opaque mctpAnswer : Nat → List (BitVec 8)

/-- The measured environment: a sensor's reading for each sample (R404, R406, R418). (DESIGN CHOICE, log 94) -/
opaque sensor : Nat → Nat → Nat

/-- The device address of a level-2 page table of a context, by the number of its level-1 entry: where the device puts it in the
system area is its own affair (R288, R296). (DESIGN CHOICE, log 32) -/
opaque levelTwoTable : Nat → Nat → Nat

/-- VENDOR: Bolnaent's IANA enterprise number, which the spec does not print (Table 17.10). (DESIGN CHOICE, log 94) -/
opaque vendor : BitVec 32

/-- The core's own oscillator frequency in MHz, an offset of 0 to 40 above 400 (R18, Table 19.5). -/
opaque fioTrim : Nat → Fin 41

end Sys2Proof.Config
end

