-- ==== Sys2Proof/Machine/Bits.lean ====
section
/-! DEFINITION. Bit fields, byte orders, CRC-32C and the small integer helpers that every format uses. -/

namespace Sys2Proof.Machine

/-- Bits hi:lo of a word, as a number (R5). -/
def bits (w hi lo : Nat) : Nat := (w >>> lo) % 2 ^ (hi + 1 - lo)

/-- Bit i of a word. -/
def bit (w i : Nat) : Bool := w.testBit i

/-- One field of a format being built: its lowest bit, its width, its value. -/
abbrev Field := Nat × Nat × Nat

/-- A word from its fields, highest or lowest first alike: each value is cut to its width. -/
def packFields (fs : List Field) : Nat :=
  fs.foldl (fun acc f => acc + (f.2.2 % 2 ^ f.2.1) * 2 ^ f.1) 0

/-- A word with bits hi:lo replaced. -/
def setBits (w hi lo v : Nat) : Nat :=
  w - bits w hi lo * 2 ^ lo + (v % 2 ^ (hi + 1 - lo)) * 2 ^ lo

/-- A truth value as a bit. -/
def b2n (b : Bool) : Nat := if b then 1 else 0

/-- The number that little-endian bytes spell (R6). -/
def ofLe : List Byte → Nat
  | [] => 0
  | b :: r => b.toNat + 256 * ofLe r

/-- n little-endian bytes of a number. -/
def toLe : Nat → Nat → List Byte
  | 0, _ => []
  | n + 1, w => BitVec.ofNat 8 w :: toLe n (w / 256)

/-- n bytes in network order, the most significant first (R6). -/
def toBe (n w : Nat) : List Byte := (toLe n w).reverse

/-- The number that bytes in network order spell. -/
def ofBe (bs : List Byte) : Nat := ofLe bs.reverse

/-- A two's complement reading of the low w bits. -/
def toSigned (w v : Nat) : Int :=
  let u := v % 2 ^ w
  if u < 2 ^ (w - 1) then (u : Int) else (u : Int) - (2 ^ w : Nat)

/-- The low w bits of an integer in two's complement. -/
def ofSigned (w : Nat) (v : Int) : Nat := (v % ((2 ^ w : Nat) : Int)).toNat

/-- The signed difference of two 32-bit indices (R205, R215). -/
def sdiff32 (a b : Nat) : Int := toSigned 32 ((a % 2 ^ 32) + (2 ^ 32 - b % 2 ^ 32))

/-- Division rounded up. -/
def cdiv (a b : Nat) : Nat := (a + b - 1) / b

/-- One bit step of the reflected Castagnoli remainder. -/
def crcBit (c : Nat) : Nat := if c % 2 = 1 then (c / 2) ^^^ 0x82F63B78 else c / 2

/-- One byte step of the remainder. -/
def crcByte (c : Nat) (b : Byte) : Nat :=
  crcBit (crcBit (crcBit (crcBit (crcBit (crcBit (crcBit (crcBit (c ^^^ b.toNat))))))))

/-- CRC-32C with initial value and final exclusive-or of all ones (R30). -/
def crc32c (bs : List Byte) : Nat := (bs.foldl crcByte 0xFFFFFFFF) ^^^ 0xFFFFFFFF

/-- The check of a format word of n bytes whose top four bytes hold it. -/
def formatCheck (n w : Nat) : Nat := crc32c (toLe (n - 4) w)

/-- A format word with its check field, the top 32 bits of n bytes, computed. -/
def withCheck (n w : Nat) : Nat := setBits w (8 * n - 1) (8 * n - 32) (formatCheck n w)

/-- The check field of an n-byte format matches the rest. -/
def checkOk (n w : Nat) : Bool := bits w (8 * n - 1) (8 * n - 32) == formatCheck n w

/-- The first n bits of x in reverse order. -/
def brv : Nat → Nat → Nat
  | 0, _ => 0
  | n + 1, x => (x % 2) * 2 ^ n + brv n (x / 2)

/-- Power modulo m by squaring; the fuel is the bit length of the exponent. -/
def powModAux (m : Nat) : Nat → Nat → Nat → Nat
  | 0, _, _ => 1 % m
  | f + 1, b, e => (if e % 2 = 1 then b else 1) * powModAux m f (b * b % m) (e / 2) % m

/-- b to the power e modulo m. -/
def powMod (b e m : Nat) : Nat := powModAux m (Nat.log2 e + 1) (b % m) e

/-- Cut a list into pieces of n elements; fuel bounds the number of pieces. -/
def chunksAux {α : Type} (n : Nat) : Nat → List α → List (List α)
  | 0, _ => []
  | f + 1, l => if l.isEmpty then [] else l.take n :: chunksAux n f (l.drop n)

/-- Cut a list into pieces of n elements. -/
def chunks {α : Type} (n : Nat) (l : List α) : List (List α) := chunksAux n l.length l

end Sys2Proof.Machine
end

