-- ==== Sys2Proof/Machine/Float.lean ====
section
/-! DEFINITION. Number formats (Table 6.2), exact dyadic values, and the binary32 operations rounded to nearest even (R132, R168). Bit patterns are naturals. -/

namespace Sys2Proof.Machine

/-! ## Values -/

/-- What a floating bit pattern denotes: NaN, an infinity, or (-1)^neg × m × 2^e. -/
inductive Fl where
  | nan
  | inf (neg : Bool)
  | fin (neg : Bool) (m : Nat) (e : Int)
  deriving DecidableEq, Repr

/-- m ÷ 2^k rounded to nearest, ties to even. -/
def rne (m k : Nat) : Nat :=
  let q := m >>> k
  let r := m % 2 ^ k
  if 2 * r > 2 ^ k then q + 1 else if 2 * r = 2 ^ k then q + q % 2 else q

/-- The magnitude bits of m × 2^e in a format with fb fraction bits whose smallest quantum is 2^qmin, without a bound
above: round to nearest even, subnormals kept (R132). -/
def roundBits (fb : Nat) (qmin : Int) (m : Nat) (e : Int) : Nat :=
  if m = 0 then 0
  else
    let q := max ((Nat.log2 m : Int) + e - fb) qmin
    let n := if q ≤ e then m <<< (e - q).toNat else rne m (q - e).toNat
    (q - qmin).toNat * 2 ^ fb + n

/-- Canonical NaN of binary32. -/
def nan32 : Nat := 0x7FC0_0000

/-- The binary32 pattern of a value, rounded to nearest even; every NaN is the canonical one. -/
def enc32 : Fl → Nat
  | .nan => nan32
  | .inf n => b2n n * 2 ^ 31 + 0x7F80_0000
  | .fin n m e => b2n n * 2 ^ 31 + min (roundBits 23 (-149) m e) 0x7F80_0000

/-- The value of a pattern with fb fraction bits, eb exponent bits and a quantum 2^qmin, in a format with infinities. -/
def decIeee (eb fb : Nat) (qmin : Int) (w : Nat) : Fl :=
  let n := bit w (eb + fb)
  let ex := bits w (eb + fb - 1) fb
  let f := w % 2 ^ fb
  if ex = 2 ^ eb - 1 then (if f = 0 then .inf n else .nan)
  else if ex = 0 then .fin n f qmin
  else .fin n (2 ^ fb + f) (qmin + ((ex - 1 : Nat) : Int))

/-- The value of a binary32 pattern. -/
def dec32 (w : Nat) : Fl := decIeee 8 23 (-149) (w % 2 ^ 32)

/-- The binary64 pattern of a value, rounded to nearest even; every NaN is the canonical one (R316). -/
def enc64 : Fl → Nat
  | .nan => 0x7FF8_0000_0000_0000
  | .inf n => b2n n * 2 ^ 63 + 0x7FF0_0000_0000_0000
  | .fin n m e => b2n n * 2 ^ 63 + min (roundBits 52 (-1074) m e) 0x7FF0_0000_0000_0000

/-- The value of a binary64 pattern. -/
def dec64 (w : Nat) : Fl := decIeee 11 52 (-1074) (w % 2 ^ 64)

/-- The value of a BF16 pattern. -/
def decBf16 (w : Nat) : Fl := decIeee 8 7 (-133) w

/-- The value of an FP8 E5M2 pattern. -/
def decE5m2 (w : Nat) : Fl := decIeee 5 2 (-16) w

/-- The value of an FP8 E4M3 pattern: no infinity, NaN is S.1111.111. -/
def decE4m3 (w : Nat) : Fl :=
  let n := bit w 7
  let ex := bits w 6 3
  let f := w % 8
  if ex = 15 ∧ f = 7 then .nan
  else if ex = 0 then .fin n f (-9)
  else .fin n (8 + f) (-9 + ((ex - 1 : Nat) : Int))

/-- The value of an MXFP4 E2M1 pattern. -/
def decE2m1 (w : Nat) : Fl :=
  let n := bit w 3
  let ex := bits w 2 1
  let f := w % 2
  if ex = 0 then .fin n f (-1) else .fin n (2 + f) (-1 + ((ex - 1 : Nat) : Int))

/-- A value is finite. -/
def Fl.isFin : Fl → Bool
  | .fin _ _ _ => true
  | _ => false

/-- The value of an integer. -/
def flOfInt (v : Int) : Fl := .fin (decide (v < 0)) v.natAbs 0

/-- A value is NaN. -/
def Fl.isNan : Fl → Bool
  | .nan => true
  | _ => false

/-- A pattern is NaN. -/
def isNan32 (w : Nat) : Bool := (dec32 w).isNan

/-- Sign of a value. -/
def Fl.neg : Fl → Bool
  | .nan => false
  | .inf n => n
  | .fin n _ _ => n

/-! ## Element formats (Tables 6.2 and 9.3) -/

/-- Width in bits of an element format; 0 for a reserved code. -/
def elemWidth (f : Nat) : Nat := [8, 8, 4, 4, 8, 8, 4, 16, 8, 8, 32, 32, 16, 8, 2304].getD f 0

/-- Integer formats of operands. -/
def isIntFmt (f : Nat) : Bool := decide (f < 4) || f == 0xB

/-- MX formats. -/
def isMx (f : Nat) : Bool := f == 6 || f == 8 || f == 9

/-- The integer an element of an integer format denotes. -/
def elemInt (f w : Nat) : Int :=
  match f with
  | 0 => toSigned 8 w
  | 1 => ((w % 256 : Nat) : Int)
  | 2 => toSigned 4 w
  | 3 => ((w % 16 : Nat) : Int)
  | 0xC => toSigned 16 w
  | _ => toSigned 32 w

/-- The value of an element. -/
def elemFl (f w : Nat) : Fl :=
  match f with
  | 4 => decE4m3 w
  | 5 => decE5m2 w
  | 6 => decE2m1 w
  | 7 => decBf16 w
  | 8 => decE4m3 w
  | 9 => decE5m2 w
  | 0xA => dec32 w
  | _ => flOfInt (elemInt f w)

/-! ## Exact dyadic arithmetic -/

/-- A signed dyadic number m × 2^e. -/
structure Dy where
  m : Int
  e : Int
  deriving DecidableEq, Repr

/-- Exact sum. -/
def Dy.add (a b : Dy) : Dy :=
  let e := min a.e b.e
  { m := a.m * ((2 ^ (a.e - e).toNat : Nat) : Int) + b.m * ((2 ^ (b.e - e).toNat : Nat) : Int), e := e }

/-- Signed mantissa of a finite value. -/
def signedMant (n : Bool) (m : Nat) : Int := if n then -(m : Int) else (m : Int)

/-- The value of a dyadic number, with the sign given to an exact zero. -/
def Dy.fl (z : Bool) (a : Dy) : Fl := if a.m = 0 then .fin z 0 a.e else .fin (decide (a.m < 0)) a.m.natAbs a.e

/-! ## Operations before rounding -/

/-- Exact product. -/
def flMul (a b : Fl) : Fl :=
  match a, b with
  | .nan, _ => .nan
  | _, .nan => .nan
  | .inf n, .inf k => .inf (n != k)
  | .inf n, .fin k m _ => if m = 0 then .nan else .inf (n != k)
  | .fin n m _, .inf k => if m = 0 then .nan else .inf (n != k)
  | .fin n m e, .fin k m' e' => .fin (n != k) (m * m') (e + e')

/-- Exact sum: an exact zero is -0 only when both are -0. -/
def flAdd (a b : Fl) : Fl :=
  match a, b with
  | .nan, _ => .nan
  | _, .nan => .nan
  | .inf n, .inf k => if n = k then .inf n else .nan
  | .inf n, _ => .inf n
  | _, .inf k => .inf k
  | .fin n m e, .fin k m' e' =>
    (Dy.add ⟨signedMant n m, e⟩ ⟨signedMant k m', e'⟩).fl (n && k && m == 0 && m' == 0)

/-- Sign changed. -/
def flNeg : Fl → Fl
  | .nan => .nan
  | .inf n => .inf (!n)
  | .fin n m e => .fin (!n) m e

/-- Order of two values that are no NaN: -1, 0 or 1, the zeros equal. -/
def flCmp (a b : Fl) : Int :=
  match a, b with
  | .inf n, .inf k => if n = k then 0 else if n then -1 else 1
  | .inf n, _ => if n then -1 else 1
  | _, .inf k => if k then 1 else -1
  | .fin n m e, .fin k m' e' => (Dy.add ⟨signedMant n m, e⟩ ⟨-(signedMant k m'), e'⟩).m.sign
  | _, _ => 0

/-- A quotient with enough bits and a sticky bit for any rounding. -/
def flDiv (a b : Fl) : Fl :=
  match a, b with
  | .nan, _ => .nan
  | _, .nan => .nan
  | .inf _, .inf _ => .nan
  | .inf n, .fin k _ _ => .inf (n != k)
  | .fin n _ e, .inf k => .fin (n != k) 0 e
  | .fin n m e, .fin k m' e' =>
    if m' = 0 then (if m = 0 then .nan else .inf (n != k))
    else .fin (n != k) (2 * (m * 2 ^ 192 / m') + b2n (m * 2 ^ 192 % m' != 0)) (e - e' - 193)

/-- A square root with enough bits and a sticky bit. -/
def flSqrt : Fl → Fl
  | .nan => .nan
  | .inf n => if n then .nan else .inf false
  | .fin n m e =>
    if m = 0 then .fin n 0 e
    else if n then .nan
    else
      let k := if e % 2 = 0 then m * 2 ^ 192 else m * 2 ^ 193
      let e' := if e % 2 = 0 then e - 192 else e - 193
      let r := Nat.sqrt k
      .fin false (2 * r + b2n (r * r != k)) (e' / 2 - 1)

/-! ## Binary32 operations on patterns -/

/-- Sum, rounded. -/
def fadd (a b : Nat) : Nat := enc32 (flAdd (dec32 a) (dec32 b))
/-- Difference, rounded. -/
def fsub (a b : Nat) : Nat := enc32 (flAdd (dec32 a) (flNeg (dec32 b)))
/-- Product, rounded. -/
def fmul (a b : Nat) : Nat := enc32 (flMul (dec32 a) (dec32 b))
/-- Product and sum, rounded once. -/
def ffma (a b c : Nat) : Nat := enc32 (flAdd (flMul (dec32 a) (dec32 b)) (dec32 c))
/-- Quotient, rounded. -/
def fdiv (a b : Nat) : Nat := enc32 (flDiv (dec32 a) (dec32 b))
/-- Square root, rounded. -/
def fsqrt (a : Nat) : Nat := enc32 (flSqrt (dec32 a))

/-- The greater of two patterns; NaN if either is NaN; -0 below +0 (R168). -/
def fmax (a b : Nat) : Nat :=
  if isNan32 a || isNan32 b then nan32
  else
    let c := flCmp (dec32 a) (dec32 b)
    if 0 < c then a else if c < 0 then b else if (dec32 a).neg then b else a

/-- The lesser of two patterns; NaN if either is NaN; -0 below +0. -/
def fmin (a b : Nat) : Nat :=
  if isNan32 a || isNan32 b then nan32
  else
    let c := flCmp (dec32 a) (dec32 b)
    if c < 0 then a else if 0 < c then b else if (dec32 a).neg then a else b

/-- An integer as binary32, rounded to nearest even. -/
def fofInt (v : Int) : Nat := enc32 (flOfInt v)

/-- A pattern is zero of either sign. -/
def isZero32 (a : Nat) : Bool := a % 2 ^ 31 == 0

/-- relu: x if x > 0, otherwise +0; NaN stays NaN. -/
def frelu (x : Nat) : Nat :=
  match dec32 x with
  | .nan => nan32
  | .inf n => if n then 0 else x
  | .fin n m _ => if n || m == 0 then 0 else x

end Sys2Proof.Machine
end

