-- ==== Sys2Proof/Machine/Special.lean ====
section
/-! DEFINITION. The special functions of Table 8.3: their special values, and free values that keep the table's error bounds. -/

namespace Sys2Proof.Machine

/-- Functions whose bits the spec bounds only. -/
inductive Special where
  | exp | log | rsqrt | tanh | sigm | silu | gelu
  deriving DecidableEq, Repr

/-- The number by which a free value is asked for. -/
def Special.num : Special → Nat
  | .exp => 0 | .log => 1 | .rsqrt => 2 | .tanh => 3 | .sigm => 4 | .silu => 5 | .gelu => 6

/-- The error bound in ulp (Table 8.3; Tables 7.2 and 7.3 give the same 4 for the fused forms of SILU and GELU). -/
def Special.ulps : Special → Nat
  | .exp => 1 | .log => 1 | .rsqrt => 1 | .tanh => 2 | .sigm => 2 | .silu => 4 | .gelu => 4

/-! ## The exact value, to far more bits than a bound needs

Fixed-point numbers are integers in units of 2^-400. (DESIGN CHOICE, log 14) -/

/-- The unit of the fixed-point numbers. -/
def fxOne : Int := ((2 ^ 400 : Nat) : Int)

/-- Product of two fixed-point numbers. -/
def fxMul (a b : Int) : Int := a * b / fxOne

/-- Natural logarithm of 2. -/
def fxLn2 : Int := ((List.range 420).map fun k => fxOne / (((k + 1) * 2 ^ (k + 1) : Nat) : Int)).sum

/-- A dyadic number in fixed point. -/
def fxOf (a : Dy) : Int :=
  if 0 ≤ a.e + 400 then a.m * ((2 ^ (a.e + 400).toNat : Nat) : Int) else a.m / ((2 ^ (-(a.e + 400)).toNat : Nat) : Int)

/-- exp of a fixed-point number of at most ln 2, by its power series. -/
def fxExp (r : Int) : Int :=
  ((List.range 100).foldl (fun (acc : Int × Int) k =>
    let t := fxMul acc.1 r / ((k + 1 : Nat) : Int)
    (t, acc.2 + t)) (fxOne, fxOne)).2

/-- exp of a fixed-point number. -/
def expDy (x : Int) : Dy :=
  let n := x / fxLn2
  { m := fxExp (x - n * fxLn2), e := n - 400 }

/-- Quotient of two dyadic numbers, to at least 450 bits. -/
def Dy.div (a b : Dy) : Dy :=
  let k := 450 + Nat.log2 b.m.natAbs
  { m := a.m * ((2 ^ k : Nat) : Int) / b.m, e := a.e - b.e - (k : Int) }

/-- Product of two dyadic numbers. -/
def Dy.mul (a b : Dy) : Dy := { m := a.m * b.m, e := a.e + b.e }

/-- One. -/
def dyOne : Dy := { m := 1, e := 0 }

/-- Beyond this, σ and tanh stand at their limits, and exp outside binary32. -/
def fxFar : Int := 4096 * fxOne

/-- σ of a fixed-point number. -/
def sigmDy (x : Int) : Dy :=
  if fxFar ≤ x then dyOne
  else if x ≤ -fxFar then { m := 0, e := 0 }
  else
    let y := expDy (if 0 ≤ x then -x else x)
    (if 0 ≤ x then dyOne else y).div (dyOne.add y)

/-- tanh of a fixed-point number. -/
def tanhDy (x : Int) : Dy :=
  if fxFar ≤ x then dyOne
  else if x ≤ -fxFar then { m := -1, e := 0 }
  else
    let y := expDy (2 * (if 0 ≤ x then -x else x))
    let d := (dyOne.add { y with m := -y.m }).div (dyOne.add y)
    if 0 ≤ x then d else { d with m := -d.m }

/-- Natural logarithm of m × 2^e, m positive. -/
def logDy (m : Nat) (e : Int) : Dy :=
  let k := Nat.log2 m
  let z : Int := ((m - 2 ^ k : Nat) : Int) * fxOne / ((m + 2 ^ k : Nat) : Int)
  let z2 := fxMul z z
  let t := ((List.range 140).foldl (fun (acc : Int × Int) j =>
    (fxMul acc.1 z2, acc.2 + acc.1 / ((2 * j + 1 : Nat) : Int))) (z, 0)).2
  { m := 2 * t + ((k : Int) + e) * fxLn2, e := -400 }

/-- The argument of the tanh form of gelu, doubled: 2 × 0.79788456 (x + 0.044715 x³), in fixed point (Table 7.2). -/
def geluArg (x : Dy) : Int :=
  let a := x.mul (x.mul x)
  fxOf { m := (Dy.add { x with m := x.m * 1000000 } { a with m := a.m * 44715 }).m * 159576912,
         e := (Dy.add { x with m := x.m * 1000000 } { a with m := a.m * 44715 }).e } / ((10 ^ 14 : Nat) : Int)

/-- The exact result at an ordinary operand, as a dyadic number. -/
def exactDy (f : Special) (x : Dy) : Dy :=
  match f with
  | .exp =>
    let v := fxOf x
    if fxFar ≤ v then { m := 1, e := 4096 } else if v ≤ -fxFar then { m := 0, e := 0 } else expDy v
  | .log => logDy x.m.toNat x.e
  | .rsqrt =>
    match flDiv (.fin false 1 0) (flSqrt (.fin false x.m.toNat x.e)) with
    | .fin _ m e => { m := m, e := e }
    | _ => { m := 0, e := 0 }
  | .tanh => tanhDy (fxOf x)
  | .sigm => sigmDy (fxOf x)
  | .silu => x.mul (sigmDy (fxOf x))
  | .gelu => x.mul (sigmDy (geluArg x))

/-! ## Results within the bound -/

/-- The bound on the error of a result: so many units in the last place of a normal result, 2^-148 of a smaller one. -/
def errorBound (k : Nat) (v : Dy) : Dy :=
  let p := (Nat.log2 v.m.natAbs : Int) + v.e
  if v.m ≠ 0 ∧ -126 ≤ p then { m := k, e := p - 23 } else { m := 1, e := -148 }

/-- A finite pattern lies within a bound of a value. -/
def withinBound (k w : Nat) (v : Dy) : Bool :=
  match dec32 w with
  | .fin n m e =>
    let d := Dy.add ⟨signedMant n m, e⟩ { v with m := -v.m }
    decide (0 ≤ (Dy.add (errorBound k v) { d with m := -((d.m.natAbs : Nat) : Int) }).m)
  | _ => false

/-- The bits of a result: a free pattern where it keeps the bound, else the value rounded to nearest; a value that overflows gives an
infinity. (DESIGN CHOICE, log 14) -/
def boundedBits (k : Nat) (z : Bool) (v : Dy) (free : Nat) : Nat :=
  let near := enc32 (v.fl z)
  if near % 2 ^ 31 ≠ 0x7F80_0000 ∧ withinBound k free v = true then free else near

/-- A special function on a pattern, over a source of bits for the ordinary operands: the special values are those of Table 8.3 and
those the formulas give at zeros and infinities; a NaN operand gives the canonical NaN. (DESIGN CHOICE, log 14) -/
def specialWith (g : Nat → BitVec 32 → BitVec 32) (f : Special) (x : Nat) : Nat :=
  let free := fun (n : Bool) (m : Nat) (e : Int) =>
    boundedBits f.ulps (n && f != .exp && f != .sigm) (exactDy f ⟨signedMant n m, e⟩) (g f.num (BitVec.ofNat 32 x)).toNat
  match f, dec32 x with
  | _, .nan => nan32
  | .exp, .inf n => if n then 0 else 0x7F80_0000
  | .exp, .fin n m e => free n m e
  | .log, .inf n => if n then nan32 else 0x7F80_0000
  | .log, .fin n m e => if m = 0 then 0xFF80_0000 else if n then nan32 else free n m e
  | .rsqrt, .inf n => if n then nan32 else 0
  | .rsqrt, .fin n m e => if m = 0 then (if n then 0xFF80_0000 else 0x7F80_0000) else if n then nan32 else free n m e
  | .tanh, .inf n => if n then 0xBF80_0000 else 0x3F80_0000
  | .tanh, .fin n m e => if m = 0 then x else free n m e
  | .sigm, .inf n => if n then 0 else 0x3F80_0000
  | .sigm, .fin n m e => free n m e
  | .silu, .inf n => if n then 0x8000_0000 else 0x7F80_0000
  | .silu, .fin n m e => if m = 0 then x else free n m e
  | .gelu, .inf n => if n then 0x8000_0000 else 0x7F80_0000
  | .gelu, .fin n m e => if m = 0 then x else free n m e

/-- A special function of the vector engine. (DESIGN CHOICE, log 14) -/
def fspecial (f : Special) (x : Nat) : Nat := specialWith Config.special f x

end Sys2Proof.Machine
end

