-- ==== Sys2Proof/Machine/Flags.lean ====
section
/-! DEFINITION. The flags a result raises: saturation and NaN marks of narrowing conversions (Table 6.4), integer saturation, and the comparison predicates of VCMP. -/

namespace Sys2Proof.Machine

/-- A converted result with its flags. -/
structure Flagged where
  val : Nat
  sat : Bool := false
  nan : Bool := false
  deriving DecidableEq, Repr

/-- Saturate an integer into w signed bits; the flag says that it did. -/
def satInt (w : Nat) (v : Int) : Int × Bool :=
  let hi : Int := ((2 ^ (w - 1) : Nat) : Int) - 1
  let lo : Int := -((2 ^ (w - 1) : Nat) : Int)
  if hi < v then (hi, true) else if v < lo then (lo, true) else (v, false)

/-- An integer into 32 bits: saturated when asked, else its low 32 bits (R131, Table 8.2). -/
def narrow32 (sat : Bool) (v : Int) : Flagged :=
  if sat then { val := ofSigned 32 (satInt 32 v).1, sat := (satInt 32 v).2 } else { val := ofSigned 32 v }

/-- FP32 to BF16: overflow gives an infinity, NaN gives 0x7FC0 (OUT_FMT 1). -/
def toBf16 (x : Nat) : Nat :=
  match dec32 x with
  | .nan => 0x7FC0
  | .inf n => b2n n * 2 ^ 15 + 0x7F80
  | .fin n m e => b2n n * 2 ^ 15 + min (roundBits 7 (-133) m e) 0x7F80

/-- FP32 to FP8 E4M3: magnitudes above 448 give 448, NaN gives 0x7F with the sign kept (OUT_FMT 2). -/
def toE4m3 (x : Nat) : Nat :=
  match dec32 x with
  | .nan => x / 2 ^ 31 % 2 * 128 + 0x7F
  | .inf n => b2n n * 128 + 0x7E
  | .fin n m e => b2n n * 128 + min (roundBits 3 (-9) m e) 0x7E

/-- A conversion to FP8 E4M3 saturates: the magnitude is above 448. -/
def satE4m3 (x : Nat) : Bool :=
  match dec32 x with
  | .nan => false
  | .inf _ => true
  | .fin _ m e => flCmp (.fin false 448 0) (.fin false m e) == -1

/-- A conversion to FP8 E5M2 overflows. -/
def overE5m2 (x : Nat) : Bool :=
  match dec32 x with
  | .nan => false
  | .inf _ => true
  | .fin _ m e => decide (0x7B < roundBits 2 (-16) m e)

/-- FP32 to FP8 E5M2: overflow gives an infinity, or 57,344 under SATFIN (OUT_FMT 3). -/
def toE5m2 (satfin : Bool) (x : Nat) : Nat :=
  match dec32 x with
  | .nan => x / 2 ^ 31 % 2 * 128 + 0x7F
  | .inf n => b2n n * 128 + (if satfin then 0x7B else 0x7C)
  | .fin n m e => b2n n * 128 + min (roundBits 2 (-16) m e) (if satfin then 0x7B else 0x7C)

/-- The nearest integer of a pattern, ties to even; NaN and infinities have none. -/
def nearInt (x : Nat) : Option Int :=
  match dec32 x with
  | .fin n m e => some (signedMant n (if 0 ≤ e then m <<< e.toNat else rne m (-e).toNat))
  | _ => none

/-- FP32 to INT8: nearest even, then saturated. The spec states no result for NaN: a free value of the operand. -/
def toInt8 (x : Nat) : Flagged :=
  match dec32 x with
  | .nan => { val := (Config.convert 0 (BitVec.ofNat 32 x)).toNat % 256 }
  | .inf n => { val := if n then 0x80 else 0x7F, sat := true }
  | .fin _ _ _ =>
    let v := satInt 8 ((nearInt x).getD 0)
    { val := ofSigned 8 v.1, sat := v.2 }

/-- An FP32 result in an element format (Table 6.4, R168). A format for which the spec states no conversion from FP32 takes
a free value of the operand. (DESIGN CHOICE, log 15) -/
def convOut (f : Nat) (satfin : Bool) (x : Nat) : Flagged :=
  match f with
  | 4 => { val := toE4m3 x, sat := false }
  | 5 => { val := toE5m2 satfin x, sat := false }
  | 7 => { val := toBf16 x }
  | 0 => toInt8 x
  | 0xA => { val := x }
  | _ => { val := (Config.convert f (BitVec.ofNat 32 x)).toNat % 2 ^ elemWidth f }

/-- An INT32 result in an element format: INT8 saturates (OUT_FMT 4), INT32 keeps it. -/
def convIntOut (f : Nat) (v : Int) : Flagged :=
  match f with
  | 0 => { val := ofSigned 8 (satInt 8 v).1, sat := (satInt 8 v).2 }
  | 0xB => { val := ofSigned 32 v }
  | _ => { val := (Config.convert f (BitVec.ofInt 32 v)).toNat % 2 ^ elemWidth f }

/-- The VCMP predicates: a comparison with NaN holds only for predicate 1 (R166). -/
def fpred (p a b : Nat) : Bool :=
  if isNan32 a || isNan32 b then p == 1
  else
    let c := flCmp (dec32 a) (dec32 b)
    match p with
    | 0 => c == 0
    | 1 => c != 0
    | 2 => decide (c < 0)
    | 3 => decide (c ≤ 0)
    | 4 => decide (0 < c)
    | _ => decide (0 ≤ c)

end Sys2Proof.Machine
end

