-- ==== Sys2Proof/Machine/Tab.lean ====
section
/-! DEFINITION. Sparse tables and finite sets as lists: look-up, update, membership. Every table of the state goes through these. -/

namespace Sys2Proof.Machine

/-- The value of a key, or the table's default. -/
def tget {α : Type} (d : α) : Tab α → Nat → α
  | [], _ => d
  | (k, v) :: r, j => if j = k then v else tget d r j

/-- The value of a key, if the table lists it. -/
def tfind {α : Type} : Tab α → Nat → Option α
  | [], _ => none
  | (k, v) :: r, j => if j = k then some v else tfind r j

/-- Set a key: replace its entry, or insert it before the first greater key. -/
def tset {α : Type} : Tab α → Nat → α → Tab α
  | [], j, v => [(j, v)]
  | (k, w) :: r, j, v =>
    if j = k then (j, v) :: r
    else if j < k then (j, v) :: (k, w) :: r
    else (k, w) :: tset r j v

/-- Remove a key. -/
def terase {α : Type} : Tab α → Nat → Tab α
  | [], _ => []
  | (k, w) :: r, j => if j = k then terase r j else (k, w) :: terase r j

/-- Membership of a finite set. -/
def nmem (t : NatSet) (j : Nat) : Bool := t.contains j

/-- Insert into a finite set, kept rising. -/
def nins : NatSet → Nat → NatSet
  | [], j => [j]
  | k :: r, j => if j = k then k :: r else if j < k then j :: k :: r else k :: nins r j

/-- Remove from a finite set. -/
def ndel (t : NatSet) (j : Nat) : NatSet := t.filter (fun k => k != j)

/-- Replace one element of a list by a function of it. -/
def lmod {α : Type} (l : List α) (i : Nat) (f : α → α) : List α := l.modify i f

/-- Replace the first element that satisfies `p`. -/
def lreplace {α : Type} (p : α → Bool) (f : α → α) : List α → List α
  | [] => []
  | x :: r => if p x then f x :: r else x :: lreplace p f r

/-- The list without the element at a position. -/
def ldrop {α : Type} (l : List α) (i : Nat) : List α := l.eraseIdx i

end Sys2Proof.Machine
end

