-- ==== Sys2Proof/Machine/Entries.lean ====
section
/-! DEFINITION. The Wenius dictionary's entries: index, subindex, type, access code, default and marks, as the tables of chapters 2 to 20 list them. -/

namespace Sys2Proof.Machine

/-- The types of Table 17.1 that entries have. -/
inductive EntryType where
  | u8 | u16 | u32 | u64 | i16
  | octets (n : Nat)
  deriving DecidableEq, Repr

/-- The access codes of Table 0.2. -/
inductive AccessCode where
  | ro | rw | wo | rwl | ack
  deriving DecidableEq, Repr

/-- A row of a dictionary table: `count` indices from `index` carry `subs` subindices from `sub` with one type, access code
and default; AON (R364), OPEN (R361) and RESTRICTED (R360) are the marks that DESCRIBE shows. -/
structure Entry where
  index      : Nat
  count      : Nat
  sub        : Nat
  subs       : Nat
  type       : EntryType
  access     : AccessCode
  default    : Nat
  aon        : Bool
  isOpen     : Bool
  restricted : Bool
  deriving DecidableEq, Repr

/-- Entries 0x1000–0x10FF (Table 17.10). -/
def entries10 : List Entry := [
  ⟨0x1000, 1, 0x01, 1, .u32, .ro, 0, true, true, false⟩,  -- VENDOR
  ⟨0x1000, 1, 0x02, 1, .octets 16, .ro, 0, true, true, false⟩,  -- PART_NUMBER
  ⟨0x1000, 1, 0x03, 1, .u16, .ro, 0, true, true, false⟩,  -- STEPPING
  ⟨0x1000, 1, 0x04, 1, .u64, .ro, 0, true, true, false⟩,  -- SERIAL
  ⟨0x1000, 1, 0x05, 1, .u32, .ro, 0, true, true, false⟩,  -- FW_VERSION
  ⟨0x1000, 1, 0x06, 1, .u16, .ro, 256, true, true, false⟩,  -- DICT_VERSION
  ⟨0x1000, 1, 0x07, 1, .u16, .rw, 34997, true, false, true⟩,  -- WENIUS_ETYPE
  ⟨0x1000, 1, 0x08, 1, .u16, .rw, 47312, true, false, true⟩,  -- WENIUS_UDP
  ⟨0x1000, 1, 0x10, 1, .u32, .wo, 0, true, false, false⟩,  -- UNLOCK
  ⟨0x1000, 1, 0x11, 1, .u16, .ro, 0, true, false, false⟩,  -- LOCK_NONCE
  ⟨0x1000, 1, 0x12, 1, .u32, .ack, 0, true, false, false⟩,  -- LOCK_FAILS
  ⟨0x1000, 1, 0x13, 1, .u32, .ack, 0, true, false, false⟩,  -- SHADOW_MISSES
  ⟨0x1000, 1, 0x14, 1, .u32, .ack, 0, true, false, false⟩,  -- EVENTS_LOST
  ⟨0x1000, 1, 0x15, 1, .u32, .ack, 0, true, false, false⟩,  -- SIDEBAND_DROPPED
  ⟨0x1000, 1, 0x16, 1, .u64, .ro, 0, true, false, false⟩  -- DICT_ACCESSES
  ]

/-- Entries 0x1100–0x11FF (Table 17.10). -/
def entries11 : List Entry := [
  ⟨0x1100, 1, 0x01, 1, .u16, .ro, 0, true, false, false⟩,  -- ATTN_COUNT
  ⟨0x1100, 1, 0x02, 1, .u32, .rw, 0, true, false, false⟩,  -- ATTN_AFTER
  ⟨0x1100, 1, 0x03, 1, .u32, .ro, 0, true, false, false⟩,  -- ATTN_NEXT
  ⟨0x1100, 1, 0x04, 1, .u32, .rw, 100, true, false, false⟩,  -- NOTIFY_INTERVAL
  ⟨0x1100, 1, 0x05, 1, .u32, .rw, 100, true, false, false⟩,  -- NOTIFY_HOLDOFF
  ⟨0x1100, 1, 0x06, 1, .u8, .rw, 1, true, false, false⟩,  -- IBI_ENABLE
  ⟨0x1110, 2, 0x01, 1, .u8, .rw, 0, true, false, false⟩,  -- NOTIFY_MODE
  ⟨0x1110, 2, 0x02, 1, .u64, .rw, 0, true, false, false⟩,  -- NOTIFY_MAC
  ⟨0x1110, 2, 0x03, 1, .u32, .rw, 0, true, false, false⟩,  -- NOTIFY_IPV4
  ⟨0x1110, 2, 0x04, 2, .u64, .rw, 0, true, false, false⟩,  -- NOTIFY_IPV6_HI, _LO
  ⟨0x1110, 2, 0x06, 1, .u16, .rw, 47312, true, false, false⟩,  -- NOTIFY_UDP
  ⟨0x1110, 2, 0x07, 1, .u8, .rw, 255, true, false, false⟩  -- NOTIFY_SLOT
  ]

/-- Entries 0x3100–0x31FF (Tables 2.9, 2.11, 5.3). -/
def entries31 : List Entry := [
  ⟨0x3100, 1, 0x01, 1, .u64, .rw, 0, false, false, false⟩,  -- MT_IMAGE
  ⟨0x3100, 1, 0x02, 1, .u16, .wo, 0, false, false, false⟩,  -- MT_LOAD
  ⟨0x3100, 1, 0x03, 1, .u16, .wo, 0, false, false, false⟩,  -- MT_EVICT
  ⟨0x3100, 1, 0x04, 1, .u32, .ack, 0, false, false, false⟩,  -- MT_DONE
  ⟨0x3100, 1, 0x05, 1, .u16, .ro, 0, false, false, false⟩,  -- MT_RESULT
  ⟨0x3100, 1, 0x06, 1, .u64, .ro, 0, false, false, false⟩,  -- MT_OCCUPIED_LO
  ⟨0x3100, 1, 0x07, 1, .u32, .ro, 0, false, false, false⟩,  -- MT_OCCUPIED_HI
  ⟨0x3100, 1, 0x08, 1, .u64, .ro, 0, false, false, false⟩,  -- MT_PINNED_LO
  ⟨0x3100, 1, 0x09, 1, .u32, .ro, 0, false, false, false⟩,  -- MT_PINNED_HI
  ⟨0x3110, 16, 0x01, 1, .u8, .ro, 0, false, false, false⟩,  -- CH_STATE
  ⟨0x3110, 16, 0x02, 1, .u8, .wo, 0, false, false, false⟩,  -- CH_COMMAND
  ⟨0x3110, 16, 0x03, 1, .u8, .rw, 0, false, false, false⟩,  -- CH_PSET
  ⟨0x3110, 16, 0x04, 1, .u8, .rw, 0, false, false, false⟩,  -- CH_LOG2N
  ⟨0x3110, 16, 0x05, 1, .u8, .rw, 0, false, false, false⟩,  -- CH_DATA
  ⟨0x3110, 16, 0x06, 1, .u8, .rw, 0, false, false, false⟩,  -- CH_KS
  ⟨0x3110, 16, 0x07, 1, .u8, .rw, 0, false, false, false⟩,  -- CH_DIGITS
  ⟨0x3110, 16, 0x08, 1, .u32, .ro, 0, false, false, false⟩,  -- CH_FP
  ⟨0x3110, 16, 0x09, 1, .u32, .ack, 0, false, false, false⟩,  -- CH_DRAINED
  ⟨0x3110, 16, 0x0A, 1, .u32, .ro, 0, false, false, false⟩,  -- CH_INFLIGHT
  ⟨0x3110, 16, 0x10, 64, .u8, .rw, 0, false, false, false⟩,  -- CH_POS0 … CH_POS63
  ⟨0x3120, 16, 0x01, 1, .u16, .rw, 0, false, false, false⟩,  -- COST_ADD
  ⟨0x3120, 16, 0x02, 1, .u16, .rw, 0, false, false, false⟩,  -- COST_MULC
  ⟨0x3120, 16, 0x03, 1, .u16, .rw, 0, false, false, false⟩,  -- COST_MUL
  ⟨0x3120, 16, 0x04, 1, .u16, .rw, 0, false, false, false⟩,  -- COST_TENSOR
  ⟨0x3120, 16, 0x05, 1, .u16, .rw, 0, false, false, false⟩,  -- COST_RESCALE
  ⟨0x3120, 16, 0x06, 1, .u16, .rw, 0, false, false, false⟩  -- COST_AUTO
  ]

/-- Entries 0x3200–0x32FF (Tables 4.9, 4.10). -/
def entries32 : List Entry := [
  ⟨0x3200, 1, 0x01, 1, .u32, .rw, 2100000, false, false, false⟩,  -- RELAY_STALL_LIMIT
  ⟨0x3200, 1, 0x02, 1, .u32, .ack, 0, false, false, false⟩,  -- COURIER_FAULTS
  ⟨0x3210, 8, 0x01, 1, .u8, .ro, 0, false, false, false⟩,  -- ENG_STATE
  ⟨0x3210, 8, 0x02, 1, .u32, .ro, 0, false, false, false⟩,  -- ENG_STREAM
  ⟨0x3210, 8, 0x03, 1, .u8, .ro, 0, false, false, false⟩,  -- ENG_QUEUE
  ⟨0x3210, 8, 0x04, 1, .u64, .ro, 0, false, false, false⟩,  -- ENG_PARCELS
  ⟨0x3210, 8, 0x05, 1, .u64, .ro, 0, false, false, false⟩,  -- ENG_KEY_BYTES
  ⟨0x3210, 8, 0x06, 1, .u64, .ro, 0, false, false, false⟩,  -- ENG_NEXT_LABEL
  ⟨0x3210, 8, 0x07, 1, .u32, .ack, 0, false, false, false⟩  -- RELAY_STALLS
  ]

/-- Entries 0x3300–0x33FF (Table 6.9). -/
def entries33 : List Entry := [
  ⟨0x3300, 1, 0x01, 1, .u32, .ack, 0, false, false, false⟩,  -- ARRAY_SAT_EVENTS
  ⟨0x3300, 1, 0x02, 1, .u32, .ack, 0, false, false, false⟩,  -- ARRAY_NAN_EVENTS
  ⟨0x3300, 1, 0x03, 1, .u64, .ro, 0, false, false, false⟩,  -- ARRAY_TILES
  ⟨0x3300, 1, 0x04, 1, .u64, .ro, 0, false, false, false⟩  -- ARRAY_BUSY
  ]

/-- Entries 0x3400–0x34FF (Table 8.5). -/
def entries34 : List Entry := [
  ⟨0x3400, 1, 0x01, 1, .u32, .ack, 0, false, false, false⟩,  -- VEC_NAN_EVENTS
  ⟨0x3400, 1, 0x02, 1, .u32, .ack, 0, false, false, false⟩,  -- VEC_SAT_EVENTS
  ⟨0x3400, 1, 0x03, 1, .u64, .ro, 0, false, false, false⟩,  -- VEC_TILES
  ⟨0x3400, 1, 0x04, 1, .u64, .ro, 0, false, false, false⟩  -- VEC_BUSY
  ]

/-- Entries 0x3500–0x35FF (Table 9.7). -/
def entries35 : List Entry := [
  ⟨0x3500, 1, 0x01, 1, .u32, .ack, 0, false, false, false⟩,  -- INDEX_OOR_EVENTS
  ⟨0x3500, 1, 0x02, 1, .u64, .ro, 0, false, false, false⟩  -- PAD_WRITES
  ]

/-- Entries 0x3600–0x36FF (Tables 10.10, 10.11). -/
def entries36 : List Entry := [
  ⟨0x3600, 1, 0x01, 1, .u8, .rw, 4, false, false, false⟩,  -- IMEM_BLOCKS
  ⟨0x3600, 1, 0x02, 1, .u32, .ack, 0, false, false, false⟩,  -- CP_HALT_EVENTS
  ⟨0x3600, 1, 0x03, 1, .u32, .ack, 0, false, false, false⟩,  -- DOORBELL_REJECTS
  ⟨0x3600, 1, 0x04, 1, .u32, .ack, 0, false, false, false⟩,  -- IMEM_ECC_RELOADS
  ⟨0x3600, 1, 0x05, 1, .u32, .ack, 0, false, false, false⟩,  -- STREAMS_FINISHED
  ⟨0x3680, 128, 0x01, 1, .u16, .rw, 0, false, false, false⟩,  -- CP_SELECT
  ⟨0x3680, 128, 0x02, 1, .u8, .ro, 0, false, false, false⟩,  -- CP_STATE
  ⟨0x3680, 128, 0x03, 1, .u64, .ro, 0, false, false, false⟩,  -- CP_INDICES
  ⟨0x3680, 128, 0x04, 1, .u32, .ro, 0, false, false, false⟩,  -- CP_HEAD
  ⟨0x3680, 128, 0x05, 1, .u64, .ro, 0, false, false, false⟩,  -- CP_HALT
  ⟨0x3680, 128, 0x06, 1, .u64, .ro, 0, false, false, false⟩,  -- CP_HALT_PM
  ⟨0x3680, 128, 0x07, 1, .u8, .wo, 0, false, false, false⟩,  -- CP_COMMAND
  ⟨0x3680, 128, 0x08, 1, .u64, .wo, 0, false, false, false⟩,  -- IMEM_RELOAD
  ⟨0x3680, 128, 0x09, 1, .u8, .ro, 0, false, false, false⟩,  -- IMEM_RELOAD_STATE
  ⟨0x3680, 128, 0x0A, 1, .u16, .ro, 0, false, false, false⟩,  -- IMEM_GEN
  ⟨0x3680, 128, 0x0B, 1, .u32, .ack, 0, false, false, false⟩  -- CP_HALTS
  ]

/-- Entries 0x3700–0x37FF (Tables 11.8, 11.9). -/
def entries37 : List Entry := [
  ⟨0x3700, 1, 0x01, 1, .u32, .rw, 2100000, false, false, false⟩,  -- SEND_STALL_LIMIT
  ⟨0x3700, 1, 0x02, 1, .u32, .ack, 0, false, false, false⟩,  -- SEND_STALL_EVENTS
  ⟨0x3700, 1, 0x03, 1, .u32, .ack, 0, false, false, false⟩,  -- DEAD_LETTERS
  ⟨0x3700, 1, 0x04, 1, .u32, .ack, 0, false, false, false⟩,  -- DL_LOST_EVENTS
  ⟨0x3700, 1, 0x05, 1, .u32, .ack, 0, false, false, false⟩,  -- ENV_CHECK_FAILS
  ⟨0x3700, 1, 0x06, 1, .u32, .ack, 0, false, false, false⟩,  -- SEAL_STALE_SIGNALS
  ⟨0x3700, 1, 0x07, 1, .u16, .ro, 4096, false, false, false⟩,  -- SEALS_FREE
  ⟨0x3700, 1, 0x08, 1, .u32, .rw, 0, false, false, false⟩,  -- SEAL_DBG_SELECT
  ⟨0x3700, 1, 0x09, 1, .u32, .ro, 0, false, false, false⟩,  -- SEAL_DBG_COUNT
  ⟨0x3700, 1, 0x0A, 1, .u32, .rwl, 0, false, false, false⟩,  -- SEAL_DBG_SET
  ⟨0x3700, 1, 0x0B, 1, .u64, .ro, 0, false, false, false⟩,  -- SEAL_DBG_INFO
  ⟨0x3780, 128, 0x01, 1, .u16, .ro, 0, false, false, false⟩,  -- MB_OPEN_MAP
  ⟨0x3780, 128, 0x02, 1, .u8, .rw, 0, false, false, false⟩,  -- MB_SELECT
  ⟨0x3780, 128, 0x03, 1, .u32, .ro, 0, false, false, false⟩,  -- MB_INFO
  ⟨0x3780, 128, 0x04, 1, .u64, .ro, 0, false, false, false⟩,  -- SEND_STALL
  ⟨0x3780, 128, 0x05, 1, .u64, .ro, 0, false, false, false⟩,  -- SEND_STALL_PM
  ⟨0x3780, 128, 0x06, 1, .u16, .ro, 4096, false, false, false⟩,  -- STAMP_POOL
  ⟨0x3780, 128, 0x07, 1, .u32, .ro, 0, false, false, false⟩,  -- SO_STATE
  ⟨0x3780, 128, 0x08, 1, .u32, .ack, 0, false, false, false⟩  -- SEND_STALLS
  ]

/-- Entries 0x3800–0x38FF (Tables 12.9, 12.10, 12.11, 12.12). -/
def entries38 : List Entry := [
  ⟨0x3800, 1, 0x01, 1, .u16, .rw, 3244, false, false, true⟩,  -- BW_SPLIT
  ⟨0x3800, 1, 0x02, 1, .u8, .rw, 0, false, false, false⟩,  -- PIN_WAYS
  ⟨0x3800, 1, 0x03, 1, .u32, .ack, 0, false, false, false⟩,  -- CACHE_CE
  ⟨0x3800, 1, 0x04, 1, .u32, .ack, 0, false, false, false⟩,  -- CACHE_UE
  ⟨0x3800, 1, 0x05, 1, .u32, .ack, 0, false, false, false⟩,  -- CACHE_REFETCH
  ⟨0x3800, 1, 0x06, 1, .u16, .ro, 0, false, false, false⟩,  -- RETIRE_PENDING
  ⟨0x3800, 1, 0x07, 1, .u64, .ro, 0, false, false, false⟩,  -- ATOMIC_OPS
  ⟨0x3800, 1, 0x08, 1, .u64, .ro, 0, false, false, false⟩,  -- BW_BYTES_READ
  ⟨0x3800, 1, 0x09, 1, .u64, .ro, 0, false, false, false⟩,  -- BW_BYTES_WRITE
  ⟨0x3800, 1, 0x0A, 1, .u64, .ro, 0, false, false, false⟩,  -- BW_BYTES_REMOTE
  ⟨0x3810, 1, 0x01, 48, .u8, .rw, 1, false, false, false⟩,  -- SPREAD_G0 … SPREAD_G47
  ⟨0x3840, 8, 0x01, 1, .u8, .ro, 0, false, false, false⟩,  -- HBM_STATE
  ⟨0x3840, 8, 0x02, 1, .i16, .ro, 0, false, false, false⟩,  -- HBM_TEMP
  ⟨0x3840, 8, 0x03, 1, .u32, .ack, 0, false, false, false⟩,  -- HBM_CE_COUNT
  ⟨0x3840, 8, 0x04, 1, .u32, .ack, 0, false, false, false⟩,  -- HBM_UE_COUNT
  ⟨0x3840, 8, 0x05, 1, .u16, .ro, 0, false, false, false⟩,  -- RETIRED_FRAMES
  ⟨0x3840, 8, 0x06, 1, .u8, .rw, 0, false, false, false⟩,  -- RETIRE_SELECT
  ⟨0x3840, 8, 0x07, 1, .u64, .ro, 0, false, false, false⟩,  -- RETIRE_ENTRY
  ⟨0x3840, 8, 0x08, 1, .u64, .rwl, 0, false, false, false⟩,  -- TG_CONTROL
  ⟨0x3840, 8, 0x09, 1, .u32, .rw, 0, false, false, false⟩,  -- TG_PATTERN
  ⟨0x3840, 8, 0x0A, 1, .u64, .ro, 0, false, false, false⟩,  -- TG_RESULT
  ⟨0x3840, 8, 0x0B, 1, .u64, .ro, 0, false, false, false⟩,  -- TG_FIRST_FAIL
  ⟨0x3840, 8, 0x0C, 1, .u32, .ro, 0, false, false, false⟩,  -- HOT_ROW_REFRESHES
  ⟨0x3880, 128, 0x01, 1, .u32, .ack, 0, false, false, false⟩,  -- SP_CE
  ⟨0x3880, 128, 0x02, 1, .u32, .ack, 0, false, false, false⟩,  -- SP_UE
  ⟨0x3880, 128, 0x03, 1, .u16, .ro, 0, false, false, false⟩,  -- SP_TORN_LINES
  ⟨0x3880, 128, 0x04, 1, .u32, .ack, 0, false, false, false⟩,  -- SP_TORN_READS
  ⟨0x3880, 128, 0x05, 1, .u32, .ro, 0, false, false, false⟩  -- SP_SCRUB_PASSES
  ]

/-- Entries 0x3900–0x39FF (Table 13.7). -/
def entries39 : List Entry := [
  ⟨0x3900, 1, 0x01, 1, .u16, .ro, 0, false, false, false⟩,  -- CTX_OPEN
  ⟨0x3900, 1, 0x02, 1, .u16, .ro, 0, false, false, false⟩,  -- CTX_RESIDENT
  ⟨0x3900, 1, 0x03, 1, .u32, .rw, 21000000, false, false, false⟩,  -- SCHED_SLICE
  ⟨0x3900, 1, 0x04, 1, .u8, .rw, 4, false, false, false⟩,  -- PAGER_DEPTH
  ⟨0x3900, 1, 0x05, 1, .u8, .rw, 3, false, false, false⟩,  -- PAGER_RETRIES
  ⟨0x3900, 1, 0x06, 1, .u32, .rw, 210000000, false, false, false⟩,  -- PAGER_TIMEOUT
  ⟨0x3900, 1, 0x07, 1, .u64, .ro, 0, false, false, false⟩,  -- PAGE_FETCHES
  ⟨0x3900, 1, 0x08, 1, .u32, .ack, 0, false, false, false⟩,  -- PAGE_FETCH_FAULTS
  ⟨0x3900, 1, 0x09, 1, .u32, .ack, 0, false, false, false⟩,  -- EXPRESS_REFUSED
  ⟨0x3900, 1, 0x0A, 1, .u32, .ro, 0, false, false, false⟩,  -- EXPRESS_WORST
  ⟨0x3900, 1, 0x0B, 1, .u32, .ro, 196096, false, false, false⟩,  -- FRAMES_FREE
  ⟨0x3900, 1, 0x0C, 1, .u16, .rw, 0, false, false, false⟩,  -- CTX_SELECT
  ⟨0x3910, 1, 0x01, 32, .u64, .ro, 0, false, false, false⟩  -- CTX_ENTRY_W0 … W31
  ]

/-- Entries 0x3A00–0x3AFF (Table 14.5). -/
def entries3A : List Entry := [
  ⟨0x3A00, 1, 0x01, 1, .u32, .rw, 0, false, false, false⟩,  -- UPD_OWNER
  ⟨0x3A00, 1, 0x02, 1, .u64, .rw, 0, false, false, false⟩,  -- UPD_RING
  ⟨0x3A00, 1, 0x03, 1, .u32, .rw, 0, false, false, false⟩,  -- UPD_HEAD
  ⟨0x3A00, 1, 0x04, 1, .u32, .ro, 0, false, false, false⟩,  -- UPD_NEXT
  ⟨0x3A00, 1, 0x05, 1, .u32, .ack, 0, false, false, false⟩,  -- UPD_DONE
  ⟨0x3A00, 1, 0x06, 1, .u32, .ack, 0, false, false, false⟩,  -- UPD_FAILS
  ⟨0x3A00, 1, 0x07, 1, .u64, .ro, 0, false, false, false⟩,  -- UPD_PARAMS
  ⟨0x3A00, 1, 0x08, 1, .u32, .rw, 2100000, false, false, false⟩,  -- UPD_PEER_TIMEOUT
  ⟨0x3A00, 1, 0x09, 1, .u64, .ro, 0, false, false, false⟩  -- UPD_SPILLED
  ]

/-- Entries 0x3B00–0x3BFF (Tables 15.9, 15.10). -/
def entries3B : List Entry := [
  ⟨0x3B00, 1, 0x01, 1, .u8, .wo, 0, false, false, false⟩,  -- SEM_REQUEST
  ⟨0x3B00, 1, 0x02, 1, .u32, .ro, 0, false, false, false⟩,  -- SEM_STATE
  ⟨0x3B00, 1, 0x03, 1, .u32, .rw, 2000, false, false, false⟩,  -- SEM_LEASE
  ⟨0x3B00, 1, 0x04, 1, .u8, .rwl, 0, false, false, true⟩,  -- SEM_BREAK
  ⟨0x3B00, 1, 0x05, 1, .u32, .ack, 0, false, false, false⟩,  -- SEM_EXPIRIES
  ⟨0x3B00, 1, 0x06, 1, .u32, .rw, 10000, false, false, false⟩,  -- RESULT_TTL
  ⟨0x3B00, 1, 0x07, 1, .u32, .ro, 65536, false, false, false⟩,  -- RESULTS_FREE
  ⟨0x3B00, 1, 0x08, 1, .u32, .ack, 0, false, false, false⟩,  -- AUTH_FAILS
  ⟨0x3B10, 2, 0x01, 1, .u8, .rw, 0, false, false, true⟩,  -- ETH_SPEED
  ⟨0x3B10, 2, 0x02, 1, .u8, .ro, 0, false, false, false⟩,  -- ETH_STATE
  ⟨0x3B10, 2, 0x03, 1, .u64, .rw, 0, false, false, true⟩,  -- ETH_MAC
  ⟨0x3B10, 2, 0x04, 1, .u32, .rw, 0, false, false, true⟩,  -- ETH_IPV4
  ⟨0x3B10, 2, 0x05, 2, .u64, .rw, 0, false, false, true⟩,  -- ETH_IPV6_HI, _LO
  ⟨0x3B10, 2, 0x07, 1, .u8, .rw, 0, false, false, true⟩,  -- MACSEC_MODE
  ⟨0x3B10, 2, 0x08, 1, .u32, .rw, 0, false, false, true⟩,  -- MACSEC_WINDOW
  ⟨0x3B10, 2, 0x09, 1, .u64, .wo, 0, false, false, true⟩,  -- MACSEC_SAK_LOAD
  ⟨0x3B10, 2, 0x0A, 1, .u16, .ro, 0, false, false, false⟩,  -- MACSEC_STATE
  ⟨0x3B10, 2, 0x0B, 1, .u32, .ack, 0, false, false, false⟩,  -- ETH_DROPPED
  ⟨0x3B10, 2, 0x0C, 1, .u32, .ack, 0, false, false, false⟩  -- PN_EVENTS
  ]

/-- Entries 0x3C00–0x3CFF (Tables 16.5, 16.6). -/
def entries3C : List Entry := [
  ⟨0x3C00, 1, 0x01, 1, .u8, .ro, 0, false, false, false⟩,  -- HIER_ROLE
  ⟨0x3C00, 1, 0x02, 1, .u16, .ro, 0, false, false, false⟩,  -- HIER_IDENTITY
  ⟨0x3C00, 1, 0x03, 1, .u8, .rw, 0, false, false, true⟩,  -- SPARE_MODE
  ⟨0x3C00, 1, 0x04, 1, .u64, .rw, 0, false, false, true⟩,  -- HIER_PARENT
  ⟨0x3C00, 1, 0x05, 1, .u8, .ro, 0, false, false, false⟩,  -- HIER_STATE
  ⟨0x3C00, 1, 0x06, 1, .u8, .rw, 8, false, false, false⟩,  -- LINK_REPLAY_LIMIT
  ⟨0x3C00, 1, 0x07, 1, .u8, .ro, 0, false, false, false⟩,  -- PEERS_UP
  ⟨0x3C00, 1, 0x08, 1, .u32, .ack, 0, false, false, false⟩,  -- LINK_FAULTS
  ⟨0x3C10, 24, 0x01, 1, .u8, .ro, 0, false, false, false⟩,  -- LINK_STATE
  ⟨0x3C10, 24, 0x02, 1, .u32, .ro, 0, false, false, false⟩,  -- LINK_PEER
  ⟨0x3C10, 24, 0x03, 1, .u32, .ack, 0, false, false, false⟩,  -- LINK_CRC_ERRORS
  ⟨0x3C10, 24, 0x04, 1, .u32, .ack, 0, false, false, false⟩,  -- LINK_REPLAYS
  ⟨0x3C10, 24, 0x05, 1, .u32, .ack, 0, false, false, false⟩,  -- LINK_RETRAINS
  ⟨0x3C10, 24, 0x06, 1, .u64, .ro, 0, false, false, false⟩,  -- LINK_TX_BYTES
  ⟨0x3C10, 24, 0x07, 1, .u64, .ro, 0, false, false, false⟩,  -- LINK_RX_BYTES
  ⟨0x3C10, 24, 0x08, 1, .u8, .wo, 0, false, false, true⟩  -- LINK_COMMAND
  ]

/-- Entries 0x4000–0x40FF (Table 18.10). -/
def entries40 : List Entry := [
  ⟨0x4000, 1, 0x01, 1, .u8, .ro, 0, true, true, false⟩,  -- ISLAND_STATE
  ⟨0x4000, 1, 0x02, 1, .u32, .ro, 0, true, true, false⟩,  -- BOOT_STATUS
  ⟨0x4000, 1, 0x03, 1, .u8, .ro, 0, true, true, false⟩,  -- SVN_FUSE
  ⟨0x4000, 1, 0x04, 1, .u8, .rwl, 0, false, false, true⟩,  -- ROOT_REVOKE
  ⟨0x4000, 1, 0x05, 1, .octets 1024, .ro, 0, true, true, false⟩,  -- IDENTITY_CERT
  ⟨0x4000, 1, 0x06, 1, .octets 48, .rwl, 0, false, false, true⟩,  -- OWNER_HASH
  ⟨0x4000, 1, 0x07, 1, .octets 48, .rw, 0, false, false, false⟩,  -- SESSION_AUTH_HASH
  ⟨0x4000, 1, 0x08, 1, .u32, .ack, 0, false, false, false⟩,  -- KEX_FAILS
  ⟨0x4010, 1, 0x01, 1, .u64, .wo, 0, false, false, true⟩,  -- FW_STAGE
  ⟨0x4010, 1, 0x02, 1, .u16, .ro, 0, true, false, false⟩,  -- FW_STATE
  ⟨0x4010, 1, 0x03, 1, .u8, .wo, 0, false, false, true⟩,  -- FW_ACTIVATE
  ⟨0x4010, 1, 0x04, 1, .u8, .rwl, 0, false, false, true⟩,  -- FW_SVN_COMMIT
  ⟨0x4010, 1, 0x05, 1, .u32, .ro, 0, false, false, false⟩,  -- FW_STAGED_VERSION
  ⟨0x4020, 1, 0x01, 1, .u8, .rw, 0, false, false, false⟩,  -- SLOT_SELECT
  ⟨0x4020, 1, 0x02, 1, .u32, .ro, 0, false, false, false⟩,  -- SLOT_INFO
  ⟨0x4020, 1, 0x03, 1, .u8, .wo, 0, false, false, false⟩,  -- SLOT_ERASE
  ⟨0x4020, 1, 0x04, 1, .u8, .ro, 240, false, false, false⟩,  -- SLOTS_FREE
  ⟨0x4030, 1, 0x01, 1, .u64, .wo, 0, false, false, false⟩,  -- BN_JOB
  ⟨0x4030, 1, 0x02, 1, .u8, .ro, 0, false, false, false⟩,  -- BN_QUEUE
  ⟨0x4030, 1, 0x03, 1, .u32, .ack, 0, false, false, false⟩,  -- BN_DONE
  ⟨0x4030, 1, 0x04, 1, .u32, .ack, 0, false, false, false⟩,  -- BN_REFUSED
  ⟨0x4030, 1, 0x05, 1, .u64, .ro, 0, false, false, false⟩  -- BN_BUSY
  ]

/-- Entries 0x4200–0x42FF (Table 18.10). -/
def entries42 : List Entry := [
  ⟨0x4200, 4, 0x01, 4, .octets 1024, .rw, 0, false, true, false⟩,  -- KEX_BUF0 … KEX_BUF3
  ⟨0x4200, 4, 0x05, 1, .u8, .wo, 0, false, true, false⟩,  -- KEX_COMMAND
  ⟨0x4200, 4, 0x06, 1, .u16, .ro, 0, false, true, false⟩,  -- KEX_STATE
  ⟨0x4200, 4, 0x07, 1, .octets 32, .wo, 0, false, true, false⟩,  -- ATTEST_NONCE
  ⟨0x4200, 4, 0x08, 1, .octets 640, .ro, 0, false, true, false⟩,  -- ATTEST_REPORT
  ⟨0x4200, 4, 0x09, 1, .u8, .ro, 0, false, true, false⟩  -- ATTEST_STATE
  ]

/-- Entries 0x5000–0x50FF (Tables 19.9, 19.10). -/
def entries50 : List Entry := [
  ⟨0x5000, 1, 0x01, 1, .u8, .ro, 0, true, false, false⟩,  -- PWR_STATE
  ⟨0x5000, 1, 0x02, 1, .u8, .wo, 0, true, false, true⟩,  -- PWR_STATE_REQ
  ⟨0x5000, 1, 0x03, 1, .u16, .rw, 0, false, false, false⟩,  -- RETAIN_MASK
  ⟨0x5000, 1, 0x04, 1, .u8, .rw, 1, true, false, false⟩,  -- WAKE_MASK
  ⟨0x5000, 1, 0x05, 1, .u32, .ack, 0, true, false, false⟩,  -- WAKE_EVENTS
  ⟨0x5000, 1, 0x06, 1, .u8, .ro, 0, true, false, false⟩,  -- WAKE_LATCHED
  ⟨0x5000, 1, 0x07, 1, .u16, .rw, 1800, false, false, false⟩,  -- PWR_CAP
  ⟨0x5000, 1, 0x08, 1, .u16, .ro, 0, true, false, false⟩,  -- PWR_INPUT
  ⟨0x5000, 1, 0x09, 1, .u16, .ro, 0, true, false, false⟩,  -- VIN
  ⟨0x5000, 1, 0x0A, 1, .u16, .ro, 16448, false, false, false⟩,  -- THROTTLE
  ⟨0x5000, 1, 0x0B, 1, .u32, .ack, 0, false, false, false⟩,  -- THROTTLE_EVENTS
  ⟨0x5000, 1, 0x0C, 1, .i16, .ro, 0, true, false, false⟩,  -- TEMP_DIE0
  ⟨0x5000, 1, 0x0D, 1, .i16, .ro, 0, true, false, false⟩,  -- TEMP_DIE1
  ⟨0x5000, 1, 0x0E, 1, .i16, .ro, 0, true, false, false⟩,  -- TEMP_PLATE
  ⟨0x5000, 1, 0x0F, 1, .u32, .ack, 0, false, false, false⟩,  -- BANK_ASLEEP_EVENTS
  ⟨0x5000, 1, 0x10, 1, .u8, .rwl, 0, false, false, true⟩,  -- RESET_CTRL
  ⟨0x5000, 1, 0x11, 1, .u8, .ro, 0, true, false, false⟩,  -- RESET_CAUSE
  ⟨0x5000, 1, 0x12, 1, .u8, .ro, 0, false, false, false⟩,  -- PLL_STATE
  ⟨0x5000, 1, 0x13, 1, .u32, .ro, 0, true, false, false⟩,  -- STRAPS
  ⟨0x5000, 1, 0x14, 1, .u32, .ack, 0, false, false, false⟩,  -- SHARED_RESET_DONE
  ⟨0x5001, 1, 0x01, 1, .u8, .wo, 0, false, false, false⟩,  -- CLK_ALL
  ⟨0x5080, 128, 0x01, 1, .u8, .rw, 0, false, false, false⟩,  -- CORE_CLK
  ⟨0x5080, 128, 0x02, 1, .u8, .ro, 0, false, false, false⟩,  -- CORE_CLK_STATE
  ⟨0x5080, 128, 0x03, 1, .u16, .ro, 0, false, false, false⟩  -- FIO_FREQ
  ]

/-- Entries 0x6000–0x60FF (Table 20.8). -/
def entries60 : List Entry := [
  ⟨0x6000, 1, 0x01, 1, .u32, .ack, 0, false, false, false⟩,  -- FAULT_RECORDS
  ⟨0x6000, 1, 0x02, 1, .u32, .ro, 0, false, false, false⟩,  -- FLOG_NEXT_SEQ
  ⟨0x6000, 1, 0x03, 1, .u32, .rw, 0, false, false, false⟩,  -- FLOG_SELECT
  ⟨0x6000, 1, 0x04, 1, .octets 128, .ro, 0, false, false, false⟩,  -- FLOG_RECORD
  ⟨0x6000, 1, 0x05, 1, .u32, .ack, 0, false, false, false⟩,  -- FLOG_DROPPED
  ⟨0x6000, 1, 0x06, 1, .u32, .ack, 0, false, false, false⟩,  -- FLOG_OVERWRITTEN
  ⟨0x6000, 1, 0x07, 1, .u32, .ack, 0, false, false, false⟩,  -- FABRIC_CRC_ERRORS
  ⟨0x6000, 1, 0x08, 1, .u32, .ack, 0, false, false, false⟩,  -- PARCEL_CRC_ERRORS
  ⟨0x6000, 1, 0x09, 1, .u32, .ack, 0, false, false, false⟩,  -- CHUNK_CRC_ERRORS
  ⟨0x6010, 1, 0x01, 1, .u32, .rw, 0, false, false, false⟩,  -- TRACE_OWNER
  ⟨0x6010, 1, 0x02, 1, .u64, .rw, 0, false, false, false⟩,  -- TRACE_RING
  ⟨0x6010, 1, 0x03, 1, .u8, .rw, 0, false, false, false⟩,  -- TRACE_MASK
  ⟨0x6010, 1, 0x04, 1, .u8, .rw, 0, false, false, false⟩,  -- TRACE_MODE
  ⟨0x6010, 1, 0x05, 1, .u32, .rw, 1000, false, false, false⟩,  -- SYNC_INTERVAL
  ⟨0x6010, 1, 0x06, 1, .u32, .ack, 0, false, false, false⟩,  -- TRACE_LOST
  ⟨0x6010, 1, 0x07, 1, .u64, .ro, 0, false, false, false⟩,  -- DIE_TIME0
  ⟨0x6010, 1, 0x08, 1, .u64, .ro, 0, false, false, false⟩,  -- DIE_TIME1
  ⟨0x6020, 1, 0x01, 1, .u64, .rw, 0, false, false, false⟩,  -- DBG_MEM_ADDR
  ⟨0x6020, 1, 0x02, 1, .octets 256, .rwl, 0, false, false, false⟩,  -- DBG_MEM_DATA
  ⟨0x6020, 1, 0x03, 1, .u16, .ro, 0, false, false, false⟩,  -- DBG_MEM_STATUS
  ⟨0x6020, 1, 0x04, 1, .u32, .rw, 0, false, false, false⟩,  -- DBG_MB_SELECT
  ⟨0x6020, 1, 0x05, 1, .octets 32, .ro, 0, false, false, false⟩,  -- DBG_MB_ENVELOPE
  ⟨0x6030, 1, 0x01, 1, .u8, .rw, 2, false, false, false⟩,  -- RETIRE_REPEAT
  ⟨0x6030, 1, 0x02, 1, .u16, .rw, 32, false, false, false⟩,  -- RETIRE_CE
  ⟨0x6030, 1, 0x03, 1, .u32, .rw, 86400, false, false, false⟩,  -- RETIRE_WINDOW
  ⟨0x6030, 1, 0x04, 1, .u32, .ack, 0, false, false, false⟩  -- RETIRE_EVENTS
  ]

/-- The tables by the high byte of the index. -/
def entriesOf : Nat → List Entry
  | 0x10 => entries10
  | 0x11 => entries11
  | 0x31 => entries31
  | 0x32 => entries32
  | 0x33 => entries33
  | 0x34 => entries34
  | 0x35 => entries35
  | 0x36 => entries36
  | 0x37 => entries37
  | 0x38 => entries38
  | 0x39 => entries39
  | 0x3A => entries3A
  | 0x3B => entries3B
  | 0x3C => entries3C
  | 0x40 => entries40
  | 0x42 => entries42
  | 0x50 => entries50
  | 0x60 => entries60
  | _ => []

/-- The entry of an index and subindex, if a table lists it (R361). -/
def entryOf (index sub : Nat) : Option Entry :=
  (entriesOf (index / 256)).find? fun e =>
    decide (e.index ≤ index ∧ index < e.index + e.count ∧ e.sub ≤ sub ∧ sub < e.sub + e.subs)

/-- The key of an entry in the state's tables. -/
def ekey (index sub : Nat) : Nat := index * 256 + sub

/-- The reset value of an entry. -/
def entryDefault (index sub : Nat) : Nat :=
  match entryOf index sub with
  | some e => e.default
  | none => 0

/-- Bytes of a value of a type (Table 17.1). -/
def EntryType.bytes : EntryType → Nat
  | .u8 => 1
  | .u16 => 2
  | .u32 => 4
  | .u64 => 8
  | .i16 => 2
  | .octets n => n

/-- Type codes of Table 17.1. -/
def EntryType.code : EntryType → Nat
  | .u8 => 1
  | .u16 => 2
  | .u32 => 3
  | .u64 => 4
  | .i16 => 6
  | .octets _ => 10

/-- Access codes of Table 17.4. -/
def AccessCode.code : AccessCode → Nat
  | .ro => 1
  | .rw => 2
  | .wo => 3
  | .rwl => 4
  | .ack => 5

end Sys2Proof.Machine
end

