-- ==== Sys2Proof/Machine/Reasons.lean ====
section
/-! DEFINITION. The reason codes of Table 20.4 and Table 10.9. -/

namespace Sys2Proof.Machine

/-- The reasons a unit reports. `recordFailure` is 0x0B of Table 10.9, which carries an underlying code. -/
inductive Reason where
  | illegalClass | reservedField | repeatRange | agUnset | slotUnbound | loopRange | blockReplaced | poisonControl
  | haltInstruction | debugHalt | recordFailure | headerCheck | invalidOperand | chainAbsent | chainMismatch
  | contextMismatch | limbMap | formMismatch | keyMismatch | levelExhausted | budgetExhausted | residueRange
  | alignment | kindMismatch | layoutMismatch | badGalois | tableMismatch | inPlace | notOpen | keyFormat | keyRole
  | keyStreamFault | streamOrder | streamLeft | formatPair | shapeMismatch | tileAborted | fusionBlock
  | fuseNotAdmitted | rowTooWide | fuseOverlap | descNotAdmitted | distRange | addressRange | indexRange
  | translationFault | protectionFault | moveTarget | ringRange | envelopeCheck | mailboxBusy | mailboxNotOpen
  | officeBusy | officeNotOpen | stampDenied | stampAccounts | noStamps | sealExists | sealQuota | sealExhausted
  | sealUnknown | sealBusy | sealRemote | quotaExceeded | pageFetchFault | linkDown | bankAsleep | relayStall
  | sendStall | sealForced | sealStale | deadLetterLost | envCheckFail | fabricCrc | ctxEntryCheck | saveFault
  | updateJob | linkRetrainFail | miswired | retireListFull | spUe | cacheUe | hbmUe | frameRetired
  deriving DecidableEq, Repr

/-- The code of a reason (Tables 10.9 and 20.4). -/
def Reason.code : Reason → Nat
  | .illegalClass => 0x01
  | .reservedField => 0x02
  | .repeatRange => 0x03
  | .agUnset => 0x04
  | .slotUnbound => 0x05
  | .loopRange => 0x06
  | .blockReplaced => 0x07
  | .poisonControl => 0x08
  | .haltInstruction => 0x09
  | .debugHalt => 0x0A
  | .recordFailure => 0x0B
  | .headerCheck => 0x10
  | .invalidOperand => 0x11
  | .chainAbsent => 0x12
  | .chainMismatch => 0x13
  | .contextMismatch => 0x14
  | .limbMap => 0x15
  | .formMismatch => 0x16
  | .keyMismatch => 0x17
  | .levelExhausted => 0x18
  | .budgetExhausted => 0x19
  | .residueRange => 0x1A
  | .alignment => 0x1B
  | .kindMismatch => 0x20
  | .layoutMismatch => 0x21
  | .badGalois => 0x22
  | .tableMismatch => 0x23
  | .inPlace => 0x24
  | .notOpen => 0x25
  | .keyFormat => 0x28
  | .keyRole => 0x29
  | .keyStreamFault => 0x2A
  | .streamOrder => 0x2B
  | .streamLeft => 0x2C
  | .formatPair => 0x30
  | .shapeMismatch => 0x31
  | .tileAborted => 0x32
  | .fusionBlock => 0x33
  | .fuseNotAdmitted => 0x34
  | .rowTooWide => 0x35
  | .fuseOverlap => 0x36
  | .descNotAdmitted => 0x38
  | .distRange => 0x39
  | .addressRange => 0x3A
  | .indexRange => 0x3B
  | .translationFault => 0x3C
  | .protectionFault => 0x3D
  | .moveTarget => 0x3E
  | .ringRange => 0x40
  | .envelopeCheck => 0x48
  | .mailboxBusy => 0x49
  | .mailboxNotOpen => 0x4A
  | .officeBusy => 0x4B
  | .officeNotOpen => 0x4C
  | .stampDenied => 0x4D
  | .stampAccounts => 0x4E
  | .noStamps => 0x4F
  | .sealExists => 0x50
  | .sealQuota => 0x51
  | .sealExhausted => 0x52
  | .sealUnknown => 0x53
  | .sealBusy => 0x54
  | .sealRemote => 0x55
  | .quotaExceeded => 0x58
  | .pageFetchFault => 0x59
  | .linkDown => 0x5A
  | .bankAsleep => 0x5B
  | .relayStall => 0x60
  | .sendStall => 0x61
  | .sealForced => 0x62
  | .sealStale => 0x63
  | .deadLetterLost => 0x64
  | .envCheckFail => 0x65
  | .fabricCrc => 0x66
  | .ctxEntryCheck => 0x67
  | .saveFault => 0x68
  | .updateJob => 0x69
  | .linkRetrainFail => 0x6A
  | .miswired => 0x6B
  | .retireListFull => 0x6C
  | .spUe => 0x70
  | .cacheUe => 0x71
  | .hbmUe => 0x72
  | .frameRetired => 0x73

/-- KIND of a record outside a halt: 1 FAULT, 3 EVENT, 4 MEMORY, 5 DEBUG (Table 20.4). -/
def Reason.kind (r : Reason) : Nat :=
  if r.code ≤ 0x5B then 1 else if r = .sealForced then 5 else if r.code ≤ 0x6C then 3 else 4

/-- Every reason, in ascending code order. -/
def allReasons : List Reason := [
  .illegalClass, .reservedField, .repeatRange, .agUnset, .slotUnbound, .loopRange, .blockReplaced, .poisonControl, 
  .haltInstruction, .debugHalt, .recordFailure, .headerCheck, .invalidOperand, .chainAbsent, .chainMismatch, 
  .contextMismatch, .limbMap, .formMismatch, .keyMismatch, .levelExhausted, .budgetExhausted, .residueRange, 
  .alignment, .kindMismatch, .layoutMismatch, .badGalois, .tableMismatch, .inPlace, .notOpen, .keyFormat, .keyRole, 
  .keyStreamFault, .streamOrder, .streamLeft, .formatPair, .shapeMismatch, .tileAborted, .fusionBlock, 
  .fuseNotAdmitted, .rowTooWide, .fuseOverlap, .descNotAdmitted, .distRange, .addressRange, .indexRange, 
  .translationFault, .protectionFault, .moveTarget, .ringRange, .envelopeCheck, .mailboxBusy, .mailboxNotOpen, 
  .officeBusy, .officeNotOpen, .stampDenied, .stampAccounts, .noStamps, .sealExists, .sealQuota, .sealExhausted, 
  .sealUnknown, .sealBusy, .sealRemote, .quotaExceeded, .pageFetchFault, .linkDown, .bankAsleep, .relayStall, 
  .sendStall, .sealForced, .sealStale, .deadLetterLost, .envCheckFail, .fabricCrc, .ctxEntryCheck, .saveFault, 
  .updateJob, .linkRetrainFail, .miswired, .retireListFull, .spUe, .cacheUe, .hbmUe, .frameRetired]

/-- The reason of a code, if the code is not reserved. -/
def reasonOf (n : Nat) : Option Reason := allReasons.find? fun r => r.code == n

end Sys2Proof.Machine
end

