-- ==== Sys2Proof/Machine/State.lean ====
section
/-! DEFINITION. The state of one module: every register, queue, buffer, table and counter the spec names, as plain data, and the state after a cold reset. -/

namespace Sys2Proof.Machine

/-! ## Reasons a step can stop -/

/-- Faults that stop the block. -/
inductive Fault where
  /-- Raised by no command of this model: every fault of the spec is a record, a refusal status or a NAK, which are next
  states. Safe: a machine that never stops hides nothing. -/
  | unreachable
  deriving DecidableEq, Repr

/-- Refusals. -/
inductive Refusal where
  /-- Raised by `exec` alone, for a command whose meaning is not written. Safe: no claim can be made about it. -/
  | notModelled (mnemonic : String)
  deriving DecidableEq, Repr

/-! ## Command streams (chapter 10) -/

/-- One address generator of a stream (R220-R222): its record, the counters j_l, and the address register A. -/
structure Gen where
  isSet    : Bool := false
  record   : BitVec 512 := 0
  counters : List Nat := [0, 0, 0, 0, 0, 0]
  reg      : BitVec 48 := 0
  deriving DecidableEq, Repr

/-- What a binding of a seal names: the physical seal, the generation at the binding, whether it is an import, and the virtual ID
it was bound by (R253, R255, Table 20.5). -/
structure SealRef where
  phys    : Nat
  gen     : BitVec 8
  proxy   : Bool
  sealId  : BitVec 16
  deriving DecidableEq, Repr

/-- One of a stream's 16 seal slots (Table 10.7, R214). -/
structure SealSlot where
  sealId  : BitVec 16 := 0
  bound   : Option SealRef := none
  target  : Word32 := 0
  deriving DecidableEq, Repr

/-- An active loop (R224): its LOOP's index, its body's last index, iterations still to start, iterations started. (DEDUCED, log 17) -/
structure LoopState where
  start     : Word32
  last      : Word32
  remaining : Nat
  count     : Nat
  pinned    : List Nat
  deriving DecidableEq, Repr

/-- A descriptor with the ones it names, as copied at issue (R181), and its index buffer (R190): the entries as read, or
none where the index tensor is streamed. -/
structure Tens where
  addr    : Nat
  w       : Nat
  scale   : Option Nat := none
  index   : Option Nat := none
  entries : Option (List Int) := none
  deriving DecidableEq, Repr

/-- A fusion block and its tensors, as copied at issue (R147). -/
structure FuseTens where
  w     : Nat
  pvec  : Option Tens := none
  pstat : Option Tens := none
  evec  : Option Tens := none
  estat : Option Tens := none
  resid : Option Tens := none
  deriving DecidableEq, Repr

/-- An element as read: bits, scale byte (127 where unscaled), poison. -/
structure Elem where
  bits   : Nat
  scale  : Nat := 127
  poison : Bool := false
  deriving DecidableEq, Repr

/-- A bank of accumulators (R126, R142): the context and the instruction word, the result's rows and columns, the
tile, the blocks of 32 inner steps that have entered,
the two halves' accumulators (48-bit sums, or FP32 patterns; the second half is empty but for a paired shape), the vectors as read at
the tile's start (R148), POISON and SAT_HIT so far, and whether it is the last of its instruction, or stands for what a stopped one
leaves. -/
structure Bank where
  ctx   : Nat
  word  : Nat
  m     : Nat
  n     : Nat
  mt    : Nat
  nt    : Nat
  block : Nat := 0
  half0 : List (List Int) := []
  half1 : List (List Int) := []
  vecs  : List (List (Nat × Bool)) := []
  poison : Bool := false
  sat    : Bool := false
  last    : Bool := false
  aborted : Bool := false
  deriving DecidableEq, Repr

/-- An MM under way: what it copied at issue (R141), whether this is its last repeat and whether its data overlaps (R160, R188), the
chunks of an arriving operand met (R158), the tiles finished and the bank that accumulates; of a row entry the partials of the group's
tiles, their γ and β, and poison met in the group (R155, R161); and what it keeps of A's and B's elements where the destination is the
same tensor (R188). -/
structure MmOps where
  word : Nat
  a    : Tens
  b    : Option Tens
  c    : Option Tens
  d    : Option Tens
  fuse : Option FuseTens
  m    : Nat
  n    : Nat
  k    : Nat
  final : Bool := true
  lap   : Bool := false
  chunks  : Nat := 0
  tile    : Nat := 0
  bank    : Option Bank := none
  parts   : List (List (Nat × Nat)) := []
  gvecs   : List (Nat × Nat) := []
  groupBad : Bool := false
  aHeld   : List (List (List Elem)) := []
  bHeld   : List (List (List Elem)) := []
  deriving DecidableEq, Repr

/-- A vector instruction under way: what it copied at issue (R177), whether its data overlaps (R188), and for one that pops the
finished-tile queue the rows of elements taken so far and what they gave for a reduction or a register, as row, column, word and poison
(R172). -/
structure VecOps where
  a    : Option Tens
  b    : Option Tens
  c    : Option Tens
  d    : Option Tens
  fuse : Option FuseTens
  shape : List Nat
  lap  : Bool := false
  rows : Nat := 0
  got  : List (Nat × Nat × Nat × Bool) := []
  deriving DecidableEq, Repr

/-- A ciphertext object as an instruction holds it: its header's address, the header, and for LAYOUT 2 its placement
descriptor (R30, R35). -/
structure Obj where
  addr  : Nat
  h     : Nat
  place : Option Nat := none
  deriving DecidableEq, Repr

/-- A KEY_MAC under way: source and destination of every repeat and whether POISON stands in its destination's header, the parcels applied so far, the key and digit of the
position under way, and whether the checks of Table 4.7 are made (R92, R93). -/
structure KmOps where
  reps    : List (Obj × Obj × Bool)
  done    : Nat := 0
  key     : Nat := 0
  beta    : Nat := 0
  checked : Bool := false
  deriving DecidableEq, Repr

/-- One repeat of a G_REFRESH of mode 0 under way: source, destination and the address of its switched sample, the LUT and N_LWE of
its block as copied at issue (R113), whether its data overlaps (R40), the exponents at[k], acc0 and acc1 (limbs q0 and q1 of each,
coefficients), the digits d[c][β] of the step, new0 and new1 (evaluation form), and whether poison was met before the step under way,
and in it (R117, R121). -/
structure GateRep where
  a      : Obj
  d      : Obj
  sw     : Nat
  lut    : List Nat
  nLwe   : Nat
  lap    : Bool
  ats    : List Nat := []
  acc    : List (List Nat) := []
  digits : List (List Nat) := []
  new    : List (List Nat) := []
  bad    : Bool
  stepBad : Bool := false
  deriving DecidableEq, Repr

/-- A G_REFRESH of mode 0 under way: its repeats, the parcels taken, and whether check 19 is made. -/
structure GateOps where
  reps    : List GateRep
  done    : Nat := 0
  checked : Bool := false
  deriving DecidableEq, Repr

/-- An update on its way to a seal (R254, R255). -/
structure SealMsg where
  phys   : Nat
  gen    : BitVec 8
  amount : Word32
  ctx    : Nat
  sealId : BitVec 16
  fromImport : Bool := false
  deriving DecidableEq, Repr

/-- One access that a repeat under way has made: data read, with the offsets that are poisoned, a streamed index entry counted as
mapped (its operand and position), a checkpoint, a 256-byte boundary of a MOVE (R280), or anything else done. -/
inductive Ev where
  | data (bytes : List Byte) (marks : List Nat)
  | entry (operand p : Nat)
  | mark
  | edge
  | done
  deriving DecidableEq, Repr

/-- An instruction as dispatched (R214, R219, R228): with its resolved addresses, wait target and seal bindings, and the
progress an engine has made in it; the absent page it waits for, the page and code of a fetch given up for it (R302), the
accesses that the repeat under way has made, latest first, and the updates of seals that its repeats have gathered. -/
structure Issued where
  ctx      : Nat
  index    : Word32
  word     : BitVec 128
  postmark : BitVec 64
  addrs    : List (List Nat)
  wait     : Option (Nat × Word32)
  sig      : Option SealRef
  imemSlot : Nat
  loops    : List Nat
  serial   : Nat
  started  : Bool := false
  progress : Nat := 0
  work     : List Nat := []
  mm       : Option MmOps := none
  vec      : Option VecOps := none
  km       : Option KmOps := none
  gate     : Option GateOps := none
  waitPage  : Option Nat := none
  pageFault : Option (Nat × Nat) := none
  journal   : List Ev := []
  posts     : List SealMsg := []
  deriving DecidableEq, Repr

/-- An instruction that has ended in its engine and not yet retired (R216, R218). -/
structure Ended where
  instr      : Issued
  faulted    : Bool
  repeatsOk  : Nat
  dests      : List (Nat × Nat) := []
  posts      : List SealMsg := []
  deriving DecidableEq, Repr

/-- A signal of a repeat that waits for the repeat's writes to another module (R216): the instruction's core and serial number, the
accounts whose stamps are out. -/
structure Owed where
  core   : Nat
  serial : Nat
  dests  : List (Nat × Nat)
  msg    : SealMsg
  deriving DecidableEq, Repr

/-- An instruction of a stream between dispatch and retirement, with the first index RETIRED may not pass while it lives. -/
structure InFlight where
  serial : Nat
  floor  : Word32
  done   : Bool
  deriving DecidableEq, Repr

/-- A finished tile: its tag (Table 6.6), its elements in row order (R139), whether BF16 operands halve the columns of its
MM's tiles (Table 6.1), and the rows and columns of its MM's result (0 of an aborted entry). -/
structure Tile where
  tag  : BitVec 128
  bf16 : Bool := false
  m    : Nat := 0
  n    : Nat := 0
  data : List Word32
  ctx  : Nat
  deriving DecidableEq, Repr

/-- The state of a stream (Table 10.1). -/
inductive StreamMode where
  | idle | running | halted | finished
  deriving DecidableEq, Repr

/-- One context's stream on one core (R205-R231): its block allowance, the first doorbells that wait for the page of its record, a SKIP
that waits for a page of its ring. While its core state is saved: where the free values of the save area's
unstated parts begin, the instructions, tiles and discard mark taken out of the core (R173, R178, R228, R292). -/
structure Stream where
  mode       : StreamMode := .idle
  known      : Bool := false
  ringBase   : Nat := 0
  ringLog2   : Nat := 0
  head       : Word32 := 0
  next       : Word32 := 0
  retired    : Word32 := 0
  haltReason : BitVec 8 := 0
  haltOldGen : BitVec 16 := 0
  haltNewGen : BitVec 16 := 0
  haltBlock  : BitVec 24 := 0
  haltPm     : BitVec 64 := 0
  lastPm     : Option (BitVec 64) := none
  ended      : Bool := false
  gens       : List Gen := List.replicate 8 {}
  slots      : List SealSlot := List.replicate 16 {}
  loops      : List LoopState := []
  blockGens  : List (Nat × BitVec 16) := []
  blockPms   : List (Nat × BitVec 64) := []
  inflight   : List InFlight := []
  fetched    : Option (Nat × BitVec 128) := none
  held       : Option Issued := none
  saved      : List (QueueId × Issued) := []
  allow      : Nat := 4
  doors      : List Word32 := []
  skipping   : Bool := false
  fetchFault : Option (Word32 × BitVec 8) := none
  savedAt    : Option Nat := none
  savedFinished : List Bank := []
  savedQueue : List Tile := []
  savedDiscard : Bool := false
  deriving DecidableEq, Repr

/-- One 4 KiB block of instruction memory (R209): its tags and the instructions it holds with their poison marks. -/
structure ImemBlock where
  ctx       : Option Nat := none
  ringBlock : Nat := 0
  fill      : Nat := 0
  gen       : BitVec 16 := 0
  words     : Tab (BitVec 128) := []
  poisoned  : NatSet := []
  eccBad    : NatSet := []
  deriving DecidableEq, Repr

/-- A reload that waits: without FORCE for its block to be free, and for the page of its ring slots (R211). -/
structure HeldReload where
  ctx       : Nat
  ringBlock : Nat
  force     : Bool := false
  deriving DecidableEq, Repr

/-! ## Messaging (chapter 11) -/

/-- A mailbox of a core (R236, R237). -/
structure Mailbox where
  owner    : Option Nat := none
  queue    : List (BitVec 256) := []
  reserved : Nat := 0
  closed   : BitVec 8 := 0
  deriving DecidableEq, Repr

/-- A sorting office of a core (R245-R248): its record and its target's descriptor as read, its slots keyed by RANK; of the round under
way whether the target is zeroed, of each contribution dealt with whether it was added and whether poison was met, and the accesses
made for the next. -/
structure Office where
  owner   : Option Nat := none
  record  : BitVec 512 := 0
  target  : BitVec 1024 := 0
  slots   : Tab (Option (BitVec 256)) := []
  rounds  : Nat := 0
  adding  : Bool := false
  closing : Bool := false
  zeroed  : Bool := false
  outcomes : List (Bool × Bool) := []
  journal : List Ev := []
  waitPage  : Option Nat := none
  pageFault : Option (Nat × Nat) := none
  deriving DecidableEq, Repr

/-- A stamp account of a core, for one context and one destination (R250-R252). -/
structure Account where
  ctx       : Nat
  module    : Nat
  dest      : Nat
  inHand    : Nat
  inFlight  : Nat
  returning : Nat
  deriving DecidableEq, Repr

/-- A STAMP_GET that waits at a destination's pool (R250). -/
structure StampWait where
  core   : Nat
  ctx    : Nat
  count  : Nat
  deriving DecidableEq, Repr

/-- An envelope between the sending core and its acceptance (R237, R240): the sender keeps this copy. -/
structure EnvFlight where
  env      : BitVec 256
  srcCore  : Nat
  serial   : Nat
  attempts : Nat := 0
  stalled  : Bool := false
  remote   : Bool := false
  deriving DecidableEq, Repr

/-- A receipt on its way to its reply mailbox (R242). -/
structure Receipt where
  env  : BitVec 256
  core : Nat
  deriving DecidableEq, Repr

/-- A write from another module on its way into this one's memory (R251, R351): its operation (0 a write, 2 the mark of a torn line,
16 and more an addition) and the serial number of its instruction there. -/
structure RemoteBurst where
  ctx      : Nat
  addr     : Nat
  data     : List Byte
  poison   : Bool
  srcMod   : Nat
  srcCore  : Nat
  op       : Nat := 0
  serial   : Nat := 0
  deriving DecidableEq, Repr

/-- A stamp on its way back to the account it came from (R251). -/
structure StampBack where
  core   : Nat
  ctx    : Nat
  module : Nat
  dest   : Nat
  count  : Nat
  deriving DecidableEq, Repr

/-- A physical seal (R253). -/
structure Seal where
  owner    : Option Nat := none
  sealId   : BitVec 16 := 0
  count    : Word32 := 0
  gen      : BitVec 8 := 0
  remote   : Option (BitVec 32 × Nat × BitVec 8) := none
  deriving DecidableEq, Repr

/-- A SEAL_IMPORT that waits for the remote device (R253). -/
structure ImportWait where
  core   : Nat
  ctx    : Nat
  sealId : BitVec 16
  value  : Word32
  phys   : Nat
  deriving DecidableEq, Repr

/-! ## Matrix array and vector engine (chapters 6-8) -/

/-- The array of a core: banks whose tile is finished and not yet drained, at most two, and the finished-tile queue (R126, R138). -/
structure MatArray where
  finished : List Bank := []
  queue    : List Tile := []
  deriving DecidableEq, Repr

/-- The vector engine of a core: V0-V31 of every context by lane, and each lane's poison bit (R162), keyed
(context × 32 + register) × 64 + lane; the context of which the tiles of an MM are still to be discarded after a faulted
consumer (R173). -/
structure VecEngine where
  regs     : Tab Word32 := []
  poison   : NatSet := []
  discard  : Option Nat := none
  deriving DecidableEq, Repr

/-! ## Courier (chapter 4, R281) -/

/-- A request at a stream engine: KEY_STREAM or RELAY_W as issued (R81, R281). -/
structure StreamReq where
  weight : Bool
  core   : Nat
  instr  : Issued
  deriving DecidableEq, Repr

/-- A parcel (R84, R281): label fields, payload bytes, POISON and INIT marks. -/
structure Parcel where
  stream : BitVec 16
  key    : Nat
  beta   : Nat
  pos    : Nat
  block  : Nat
  init   : Bool
  poison : Bool
  k0     : List Byte
  k1     : List Byte
  deriving DecidableEq, Repr

/-- The descriptor of a stream as it goes down the round (R86, R92): a void carries the reason. -/
structure StreamDesc where
  weight  : Bool
  ctx     : Nat
  stream  : BitVec 16
  void    : Option (BitVec 8)
  header  : BitVec 512
  params  : List Nat
  mask    : BitVec 16
  order   : Bool
  parcels : Nat := 0
  deriving DecidableEq, Repr

/-- A limb of a key that an engine has read ahead (R87): its key, digit and position, whether it is the k1 half, and its blocks with
their poison. -/
structure LimbBuf where
  key    : Nat
  beta   : Nat
  pos    : Nat
  half   : Nat
  blocks : List (List Byte × Bool)
  deriving DecidableEq, Repr

/-- The stream engine of a round (R81, Table 4.10): paused for paging, the requests queued, the request and descriptor of the current
stream, the parcels to be formed (labels only), those formed and not yet at the first core, the limbs read ahead, what the checks read
of the keys or of B, and the accesses made where it waits for a page. -/
structure StreamEngine where
  paused  : Bool := false
  queue   : List StreamReq := []
  serving : Option StreamReq := none
  current : Option StreamDesc := none
  todo    : List Parcel := []
  out     : List Parcel := []
  serial  : BitVec 16 := 0
  parcels : Word64 := 0
  bytes   : Word64 := 0
  limbs   : List LimbBuf := []
  listing : List Nat := []
  waitPage  : Option Nat := none
  pageFault : Option (Nat × Nat) := none
  journal : List Ev := []
  deriving DecidableEq, Repr

/-- A parcel in a relay slot of a core: forwarded to the next core, and applied to every repeat here (R90); whether its stall has
been reported, and when it came (R97). -/
structure RelaySlot where
  parcel    : Parcel
  forwarded : Bool
  applied   : Bool
  stallSeen : Bool
  since     : Nat
  deriving DecidableEq, Repr

/-- The relay port of a core (R90-R97): the stream current there, its two slots, whether this core has left the stream, how many
of its parcels have come, and up to which parcel it skips those of steps it has completed (R121). (DEDUCED, log 112) -/
structure RelayPort where
  current : Option StreamDesc := none
  slots   : List RelaySlot := []
  left    : Bool := false
  got     : Nat := 0
  skip    : Nat := 0
  deriving DecidableEq, Repr

/-! ## One core -/

/-- One core. While a SEND stalls: since when, whether its event has been raised, and the envelope as prepared (R240). -/
structure Core where
  clkState   : BitVec 8 := 0
  imem       : List ImemBlock := List.replicate 64 {}
  reload     : List HeldReload := []
  reloadState : BitVec 8 := 0
  pinWaits   : List Nat := []
  slots      : List (Option Nat) := List.replicate 8 none
  lastSlot   : Nat := 0
  serial     : Nat := 0
  qPoly      : List Issued := []
  qCourier   : List Issued := []
  qGateArray : List Issued := []
  qGateLane  : List Issued := []
  qMm        : List Issued := []
  qVec       : List Issued := []
  qMsg       : List Issued := []
  qMove      : List Issued := []
  retiring   : List Ended := []
  array      : MatArray := {}
  vec        : VecEngine := {}
  relay      : RelayPort := {}
  mailboxes  : List Mailbox := List.replicate 16 {}
  offices    : List Office := List.replicate 4 {}
  pool       : Nat := 4096
  poolWaits  : List StampWait := []
  accounts   : List Account := []
  stalled    : Bool := false
  stallStart : Nat := 0
  stallSeen  : Bool := false
  stallEnv   : BitVec 256 := 0
  scrubLine  : List Nat := List.replicate 16 0
  scrubPasses : Word32 := 0
  stopping   : List Nat := []
  saving     : List Nat := []
  restoring  : List Nat := []
  deriving DecidableEq, Repr

/-! ## Modulus table and chain slots (chapter 2) -/

/-- A load or evict under way (R45, R46): the entries of the image taken so far, each as it was read, and the page and code of a fetch
given up for it (R302). -/
structure TableJob where
  evict : Bool
  first : Nat
  count : Nat
  image : Word64
  taken : List (BitVec 13824) := []
  failed : Option (Nat × Nat) := none
  deriving DecidableEq, Repr

/-- State of a chain slot (R47). -/
inductive ChainState where
  | empty | active | draining | activating
  deriving DecidableEq, Repr

/-- What a chain slot holds beside its RW entries (Table 2.11): state, fingerprint, instructions in flight. -/
structure ChainSlot where
  state    : ChainState := .empty
  fp       : Word32 := 0
  inflight : Nat := 0
  deriving DecidableEq, Repr

/-! ## Contexts, paging and scheduling (chapter 13) -/

/-- A mapping of the page tables of one context (Table 13.4), keyed by its context page number (2 MiB units). -/
structure Mapping where
  huge     : Bool
  present  : Bool
  hosted   : Bool
  write    : Bool
  read     : Bool
  pinned   : Bool
  retiring : Bool
  frame    : Nat
  backing  : Nat
  age      : BitVec 4
  poisoned : Bool := false
  deriving DecidableEq, Repr

/-- An express command that a context holds pending (R306), and when it was accepted. -/
structure Express where
  code    : BitVec 8
  operand : Nat
  result  : Option Nat
  path    : Path
  since   : Nat := 0
  deriving DecidableEq, Repr

/-- One context (Table 13.1) and what the device keeps for it: page tables, commands under way, the modules it is placed on
(on a manager, as pod × 512 + board × 8 + module), and whether a manager placed it here (R354). (DEDUCED, log 24) -/
structure Context where
  entry     : BitVec 2048 := 0x17
  pages     : List (Nat × Mapping) := []
  express   : Option Express := none
  normal    : Option Nat := none
  waitSince : Nat := 0
  residentAt : Nat := 0
  entryBad  : Bool := false
  leaving   : Bool := false
  killing   : Option (List Nat) := none
  placement : List Nat := []
  placed    : Bool := false
  deriving DecidableEq, Repr

/-- A normal command accepted and waiting in a port's queue (R332). -/
structure NormalCmd where
  code     : BitVec 8
  ctx      : Nat
  operands : List Byte
  result   : Nat
  path     : Path
  reqTag   : Word32
  deriving DecidableEq, Repr

/-- A MAP whose frames are being zeroed (R297). -/
structure MapJob where
  ctx    : Nat
  result : Nat
  pages  : List (Nat × Mapping)
  deriving DecidableEq, Repr

/-- A page miss waiting for a fetch slot (R300). -/
structure Miss where
  ctx      : Nat
  page     : Nat
  prefetch : Bool
  deriving DecidableEq, Repr

/-- A fetch in flight (R300, R302); a stale one was sent for a mapping that is gone (R295). -/
structure Fetch where
  ctx     : Nat
  page    : Nat
  frame   : Nat
  tries   : Nat
  stale   : Bool := false
  psn     : BitVec 24 := 0
  deriving DecidableEq, Repr

/-! ## Results, paths and host ports (chapters 15, 17) -/

/-- State of a result object (R336). -/
inductive ResultState where
  | released | pending | ready
  deriving DecidableEq, Repr

/-- A command of a placed context (R354): its result object; on the manager the modules that have not reported, and what has been
reported as identity, status and value, its own part included; on a worker, the manager's identity and result slot. -/
structure RelayJob where
  result   : Nat
  code     : BitVec 8
  ctx      : Nat
  await    : List Nat
  reported : List (Nat × Nat × Nat)
  up       : Option (Nat × Nat) := none
  deriving DecidableEq, Repr

/-- A watch's operands (R339). -/
structure WatchReq where
  target : Word32
  phys   : Nat
  gen    : BitVec 8
  addr   : Nat
  len    : Nat
  deriving DecidableEq, Repr

/-- A result object (R336-R339). -/
structure ResultObj where
  state   : ResultState := .released
  gen     : BitVec 16 := 1
  code    : BitVec 8 := 0
  ctx     : Nat := 0
  cgen    : BitVec 16 := 0
  ports   : BitVec 2 := 0
  status  : BitVec 8 := 0
  value   : Word64 := 0
  data    : List Byte := []
  reqTag  : Word32 := 0
  watch   : Option WatchReq := none
  dropped : Bool := false
  deriving DecidableEq, Repr

/-- One dictionary path (R361, R370, R380). -/
structure PathState where
  unlocked : Bool := false
  readShadow  : Option (Nat × Word32) := none
  writeShadow : Option (Nat × Word32) := none
  notifyCount : Word64 := 0
  kexBuf   : List Byte := []
  kexState : BitVec 16 := 0
  kexSlot  : Option (BitVec 8) := none
  nonce    : List Byte := []
  report   : List Byte := []
  attest   : BitVec 8 := 0
  deriving DecidableEq, Repr

/-- A MACsec association (R325, R326). -/
structure Assoc where
  an   : BitVec 2
  sak  : List Byte
  salt : List Byte
  sci  : BitVec 64
  ssci : Word32
  pn   : BitVec 64
  deriving DecidableEq, Repr

/-- An Ethernet port (Table 15.10), and the time until which its express parse stage is busy (R306). -/
structure EthPort where
  state     : BitVec 8 := 0
  rx        : List Assoc := []
  tx        : List Assoc := []
  txStopped : Bool := false
  expressUntil : Nat := 0
  deriving DecidableEq, Repr

/-- A RoCE queue pair (R327, R328): its rate in units of 2^-32 of the line rate, and reads that wait for the pager as PSN,
address and length. -/
structure QueuePair where
  ctx      : Nat
  mac      : BitVec 48
  ipHi     : Word64
  ipLo     : Word64
  remote   : BitVec 24
  mtu      : Nat
  dscp     : BitVec 6
  epsn     : BitVec 24
  spsn     : BitVec 24
  unacked  : List (BitVec 24)
  retries  : Nat
  rate     : Nat
  error    : Bool
  held     : List (BitVec 24 × Nat × Nat) := []
  deriving DecidableEq, Repr

/-- Holder of the hardware semaphore (R334). -/
structure Semaphore where
  holder    : Option Path := none
  deadline  : Nat := 0
  committed : Bool := false
  deferred  : Bool := false
  deriving DecidableEq, Repr

/-! ## Security island (chapter 18) -/

/-- Role of a key slot (R390). -/
inductive SlotRole where
  | empty | admin | session
  deriving DecidableEq, Repr

/-- A key slot (R390, R394). -/
structure KeySlot where
  role     : SlotRole := .empty
  key      : List Byte := []
  claimed  : Bool := false
  installs : BitVec 16 := 0
  deriving DecidableEq, Repr

/-- A big-number job (R395-R400): the context and address of its record, the record as read at its start, its class, and the
status, cycles and output that its check phase and execution leave to be written; a job of the island names the path it
serves and its stage: 0 an attestation's signature (R389), 1 to 4 an exchange's jobs (R393). A job may wait for a page, which the pager
may give up. -/
structure BnJob where
  ctx    : Nat
  addr   : Nat
  record : BitVec 512 := 0
  cls    : Nat := 0
  status : BitVec 8 := 0
  cycles : Word32 := 0
  output : List Byte := []
  island : Option Path := none
  stage  : Nat := 0
  wait   : Option Nat := none
  failed : Bool := false
  seq    : Nat
  deriving DecidableEq, Repr

/-- A firmware slot of the module flash (R382). -/
structure FlashSlot where
  header   : List Byte := []
  body     : List Byte := []
  readable : Bool := true
  deriving DecidableEq, Repr

/-- The fuse bank (Table 18.1). (DESIGN CHOICE, log 12) -/
structure Fuses where
  uds      : BitVec 256 := 0
  svn      : BitVec 64 := 0
  stepping : BitVec 16 := 0
  serial   : BitVec 64 := 0
  revoke   : BitVec 4 := 0
  rootHash : List (BitVec 256) := [0, 0, 0, 0]
  deriving DecidableEq, Repr

/-- The module flash (R283, R382, R387, R388, Tables 15.10 and 18.10). (DESIGN CHOICE, log 12) -/
structure Flash where
  slotA     : FlashSlot := {}
  slotB     : FlashSlot := {}
  bootPref  : Bool := false
  identity  : List Byte := []
  idKey     : List Nat := []
  ownerHash : List Byte := List.replicate 48 0
  sessHash  : List Byte := List.replicate 48 0
  retired   : List (Nat × Nat) := []
  mac0      : BitVec 48 := 0
  mac1      : BitVec 48 := 0
  deriving DecidableEq, Repr

/-- The security island (Table 18.10). -/
structure Island where
  state      : BitVec 8 := 0
  bootStatus : Word32 := 0
  runningB   : Bool := false
  fwVersion  : Word32 := 0
  imgSvn     : BitVec 8 := 0
  rootIndex  : Nat := 0
  measFw     : List Byte := List.replicate 48 0
  measCfg    : List Byte := List.replicate 48 0
  reports    : Word32 := 0
  fwState    : BitVec 8 := 0
  fwReason   : BitVec 8 := 0
  fwCtx      : Nat := 0
  fwAddr     : Nat := 0
  fwVersionStaged : Word32 := 0
  fwOwner    : Option Path := none
  fwWait     : Option Nat := none
  fwFailed   : Bool := false
  activating : Bool := false
  keys       : Tab KeySlot := []
  bnQueue    : List BnJob := []
  bnRunning  : Option BnJob := none
  bnParked   : List BnJob := []
  bnSeq      : Nat := 0
  bnBusy     : Word64 := 0
  deriving DecidableEq, Repr

/-! ## Links (chapter 16) -/

/-- A read of another module's memory (R198, R351): asked, the parts that have come, and the answer once it is whole, as
data, poison mark and fault code. -/
structure RemoteRead where
  ctx    : Nat
  core   : Nat
  module : Nat
  addr   : Nat
  len    : Nat
  tag    : Nat
  parts  : List (Nat × List Byte × Bool) := []
  answer : Option (List Byte × Bool × Nat) := none
  serial : Nat := 0
  deriving DecidableEq, Repr

/-- A packet for a peer, before a port gives it a sequence number (Table 16.2); of a write, the serial number of its instruction.
(DESIGN CHOICE, log 73) -/
structure Packet where
  type    : Nat
  poison  : Bool := false
  express : Bool := false
  dst     : Nat
  srcCore : Nat := 0
  dstCore : Nat := 0
  ctx     : Nat := 0
  addr    : Nat := 0
  tag     : Nat := 0
  label   : Nat := 0
  data    : List Byte := []
  serial  : Nat := 0
  deriving DecidableEq, Repr

/-- A link port (Table 16.6): its replay buffer, the replays since the acknowledgement last moved, and whether a retrain failed
(R347). -/
structure LinkPort where
  state    : BitVec 8 := 0
  peer     : Option PeerIdentity := none
  txSeq    : BitVec 16 := 0
  rxSeq    : BitVec 16 := 0
  replay   : List (Nat × Packet) := []
  replays  : Nat := 0
  lost     : Bool := false
  txBytes  : Word64 := 0
  rxBytes  : Word64 := 0
  deriving DecidableEq, Repr

/-- The module's place in the hierarchy (Table 16.5): the peer table by pod × 64 + board, and packets for boards that it does not
list, with the identity they go to (R357). -/
structure Hier where
  conflict  : Bool := false
  confirmed : Bool := false
  state     : BitVec 8 := 0
  peerTable : List (Nat × BitVec 48) := []
  held      : List (Nat × Packet) := []
  deriving DecidableEq, Repr

/-! ## The parameter update (chapter 14) -/

/-- An active update job (R309-R319): its owner, its block and the block's context address, STATUS, whether a kill ended it,
the code of a failed check, the members whose header has come, the chunks that have arrived and wait, the chunks this member has
reduced and those whose reduced value stands in GRAD_BUF, the norms of each chunk passed, what pass A met, the verdicts, and pass B's
progress. -/
structure UpdJob where
  owner       : Nat
  addr        : Nat
  block       : BitVec 1024
  status      : BitVec 8 := 2
  killed      : Bool := false
  reason      : Option Nat := none
  headers     : NatSet := []
  arrived     : List (Nat × List Word32 × Bool) := []
  reduced     : NatSet := []
  gathered    : NatSet := []
  sums        : Tab (Nat × Nat) := []
  nonfinite   : Bool := false
  poisonBlock : Option Nat := none
  verdict     : Option Verdict := none
  sw          : Word64 := 0
  su          : Word64 := 0
  ratio       : Word32 := 0
  verdicts    : List (Nat × Verdict × Word64 × Word64) := []
  progress    : Nat := 0
  overflow    : Bool := false
  diverger    : Option Nat := none
  deriving DecidableEq, Repr

/-- A message of a peer of an update job: its header or refusal, its verdict with its norms, its abort notice (R313, R317, R319). -/
inductive PeerMsg where
  | header (h : Option JobHeader)
  | verdict (v : Verdict) (sw su : Word64)
  | abort
  deriving DecidableEq, Repr

/-! ## Memory system and debug (chapters 12, 20) -/

/-- A stack (Table 12.11) and its tracker of frames with errors (R433). -/
structure Stack where
  state    : BitVec 8 := 0
  retired  : List Nat := []
  pending  : NatSet := []
  tgOn     : Bool := false
  tgResult : Word64 := 0
  tgFail   : Word64 := 0
  hotRow   : Word32 := 0
  refresh  : Nat := 0
  tracker  : List (Nat × Nat × List (Nat × Nat)) := []
  deriving DecidableEq, Repr

/-- Traffic classes of Table 12.6. -/
inductive Class where
  | read | write | remote
  deriving DecidableEq, Repr

/-- A line held by the shared cache, least recently used first (R268, R269): the sectors of 32 bytes it holds and those changed
since they came from HBM, one bit each, and the class of the traffic that changed it last. -/
structure CacheLine where
  line  : Nat
  valid : Nat := 0
  dirty : Nat := 0
  cls   : Class := .write
  deriving DecidableEq, Repr

/-- A die: DIE_TIME (R427), staged fault and trace records, drop marks, trace records dropped and not yet counted in the ring's
header (R428), cache. -/
structure Die where
  time       : Word64 := 0
  flogStage  : List (BitVec 1024) := []
  flogDrops  : Bool := false
  trace      : List (BitVec 256) := []
  traceLost  : Bool := false
  traceMiss  : Nat := 0
  cache      : List CacheLine := []
  pinnedJob  : Bool := false
  throttle   : Nat := 64
  temp       : BitVec 16 := 0
  recCount   : Word32 := 0
  deriving DecidableEq, Repr

/-- Power and the always-on island (chapter 19): the power state, an entry or exit under way and its goal, a latched wake, the
input and output pins, the cause of the last reset, clocks, straps, sensors, and for how many 10 µs intervals in succession the
throttle has acted. (DESIGN CHOICE, log 8) -/
structure Power where
  state       : BitVec 2 := 0
  entering    : Bool := false
  exiting     : Bool := false
  goal        : BitVec 2 := 0
  latched     : Bool := false
  pwrEn       : Bool := true
  pwrGood     : Bool := true
  inRange     : Bool := true
  standby     : Bool := true
  mainOn      : Bool := true
  alert       : Bool := false
  tripped     : Bool := false
  resetCause  : BitVec 8 := 1
  pll         : BitVec 8 := 0
  straps      : BitVec 17 := 0
  sharedReset : Bool := false
  input       : BitVec 16 := 0
  vin         : BitVec 16 := 0
  plate       : BitVec 16 := 0
  throttled   : Nat := 0
  deriving DecidableEq, Repr

/-- The I3C target and MCTP endpoint (R377, R378). -/
structure Sideband where
  dynAddr   : Option (BitVec 7) := none
  ibiOn     : Bool := true
  eid       : BitVec 8 := 0
  mrl       : BitVec 16 := 69
  mwl       : BitVec 16 := 69
  deriving DecidableEq, Repr

/-! ## What leaves the block -/

/-- Something the block has sent or driven, oldest first in `State.outbox`. -/
inductive Output where
  | access (p : Path) (status : BitVec 8) (value : List Byte)
  | frame (p : Path) (bytes : List Byte)
  | cmdAck (p : Path) (bytes : List Byte)
  | result (p : Path) (bytes : List Byte)
  | notify (p : Path) (bytes : List Byte)
  | ibi (data : BitVec 8)
  | i3c (bytes : List Byte)
  | mctp (bytes : List Byte)
  | rdmaAck (port : Fin 2) (qpn psn : BitVec 24)
  | rdmaNak (port : Fin 2) (qpn psn : BitVec 24) (code : BitVec 8)
  | rdmaData (port : Fin 2) (qpn psn : BitVec 24) (data : List Byte) (whole : Bool)
  | rdmaReadReq (port : Fin 2) (qpn : BitVec 24) (rkey : Word32) (addr : Word64) (len : Nat)
  | rdmaResend (port : Fin 2) (qpn psn : BitVec 24)
  | rdmaCnp (port : Fin 2) (qpn : BitVec 24)
  | link (port : Fin 24) (bytes : List Byte)
  | relay (manager : BitVec 48) (bytes : List Byte)
  | chunk (die member : Nat) (k : Nat) (gather : Bool) (data : List Word32) (poisoned : Bool)
  | jobHeader (die member : Nat) (h : Option JobHeader)
  | verdict (die member : Nat) (v : Verdict) (sw su : Word64)
  | abort (die member : Nat)
  | refresh (stack : Nat) (targeted : Bool)
  deriving DecidableEq, Repr

/-! ## The whole module -/

/-- The state of one EVN-Z128. -/
structure State where
  /-- Commands waiting, first in first out. -/
  pending    : List Instr := []
  /-- The model's own counter of free values drawn. -/
  fresh      : Nat := 0
  /-- FCLK cycles since cold reset: the model's clock behind deadlines. -/
  time       : Nat := 0
  /-- Frames, replies and notices sent (the model's own field). -/
  outbox     : List Output := []
  /-- RW and RWL dictionary values that differ from their defaults, keyed index × 256 + subindex. -/
  regs       : Tab Nat := []
  /-- RW and RWL entries hold what `regs` gives; counts of the ACK counters. -/
  counts     : Tab Nat := []
  /-- Acknowledged values of the ACK counters (R367). -/
  acked      : Tab Nat := []
  /-- RO totals that count since reset (ARRAY_TILES, DICT_ACCESSES, BW_BYTES_READ, …), by the same key. -/
  totals     : Tab Nat := []
  paths      : List PathState := List.replicate 4 { kexBuf := List.replicate 4096 0, report := List.replicate 640 0 }
  lockNonce  : BitVec 16 := 0
  /-- Highest accepted COUNTER per key slot and port: key slot × 2 + port (R331). -/
  kept       : Tab Nat := []
  /-- Stored DICT request and reply per key slot and port (R375). -/
  replies    : List (Nat × (List Byte × List Byte)) := []
  tableJob   : Option TableJob := none
  modTable   : Tab (BitVec 13824) := []
  occupied   : NatSet := []
  mtResult   : BitVec 16 := 0
  chains     : List ChainSlot := List.replicate 16 {}
  cores      : Tab Core := []
  /-- Streams, keyed context × 128 + core. -/
  streams    : Tab Stream := []
  engines    : List StreamEngine := List.replicate 8 {}
  seals      : Tab Seal := []
  sealFlight : List SealMsg := []
  owed       : List Owed := []
  imports    : List ImportWait := []
  envFlight  : List EnvFlight := []
  receipts   : List Receipt := []
  bursts     : List RemoteBurst := []
  stampsBack : List StampBack := []
  contexts   : Tab Context := []
  opened     : Bool := false
  normalQ    : List (List NormalCmd) := List.replicate 4 []
  mapJobs    : List MapJob := []
  relayJobs  : List RelayJob := []
  misses     : List Miss := []
  fetches    : List (Option Fetch) := List.replicate 16 none
  /-- Allocated 2 MiB frames. -/
  frames     : NatSet := []
  /-- Device memory: HBM and scratchpads by device address; an unlisted byte reads zero. -/
  mem        : List Host.Cell := []
  /-- Poisoned granules: 8-byte words of scratchpads and 32-byte bursts of HBM, by first address. -/
  poison     : NatSet := []
  /-- Torn scratchpad lines, by first address (R266). -/
  torn       : NatSet := []
  /-- Bad bits of a scratchpad word not yet found by a read (R264), by word address. -/
  spLatent   : Tab Nat := []
  /-- Bad symbols of an HBM burst not yet found by a read (R274), by burst address. -/
  hbmLatent  : Tab Nat := []
  /-- Bad bits of a shared-cache word not yet found (R272), by word address. -/
  cacheLatent : Tab Nat := []
  /-- Scratchpad lines that the instruction under way has written since its last checkpoint, here and on other modules (R266);
  empty between steps. -/
  wrote      : NatSet := []
  wroteFar   : List (Nat × Nat) := []
  /-- Accesses that the work under way made before it last waited and now passes again, and those it has made, latest first;
  empty between steps (the model's own fields). -/
  replay     : List Ev := []
  journal    : List Ev := []
  /-- The work under way stops at its next checkpoint (R227); false between steps (the model's own field). -/
  stretch    : Bool := false
  /-- Coming CRC failures of a fabric burst (R421). -/
  fabricBad  : Tab Nat := []
  hbm        : List Stack := List.replicate 8 {}
  dies       : List Die := List.replicate 2 {}
  /-- Records the fault log has accepted since cold reset (R426): modulo 2^32 the REC_SEQ of the next. The records stand in
  memory. -/
  flogSeq    : Nat := 0
  syncId     : Word32 := 0
  dbgStatus  : BitVec 16 := 0
  results    : Tab ResultObj := []
  sem        : Semaphore := {}
  eths       : List EthPort := List.replicate 2 {}
  qps        : List (Nat × QueuePair) := []
  links      : List LinkPort := List.replicate 24 {}
  hier       : Hier := {}
  /-- Reads of other modules under way, and the next read tag. -/
  reads      : List RemoteRead := []
  readTag    : BitVec 16 := 0
  /-- READ_REQ packets of other modules that wait for an absent page here, with their senders (R351, R356). -/
  asks       : List (Nat × Packet) := []
  /-- Packets for peers that no port reaches, or whose channel waits on its port (R350, R352). -/
  linkHeld   : List Packet := []
  updRing    : List (Option UpdJob) := [none, none]
  updNext    : Word32 := 0
  updEarly   : List (Nat × Nat × PeerMsg) := []
  updPages   : List (Nat × Option Nat) := []
  island     : Island := {}
  fuses      : Fuses := {}
  flash      : Flash := {}
  power      : Power := {}
  sideband   : Sideband := {}
  deriving DecidableEq, Repr

/-- The machine right after a cold reset at power-on (Table 19.6, the Reset columns of the dictionary tables). -/
def State.reset : State := {}

end Sys2Proof.Machine
end

