-- ==== Sys2Proof/Machine/Regs.lean ====
section
/-! DEFINITION. Named access to dictionary values, event counters, cores, streams and dies; fault and trace records. -/

namespace Sys2Proof.Machine

/-! ## Dictionary values and counters -/

/-- The value a RW or RWL entry holds. -/
def reg (s : State) (index sub : Nat) : Nat := tget (entryDefault index sub) s.regs (ekey index sub)

/-- Set the value a RW or RWL entry holds. -/
def setReg (index sub v : Nat) (s : State) : State := { s with regs := tset s.regs (ekey index sub) v }

/-- The count c of an event counter (R367). -/
def count (s : State) (k : Nat) : Nat := tget 0 s.counts k

/-- The acknowledged value a of an event counter (R367). -/
def ackedValue (s : State) (k : Nat) : Nat := tget 0 s.acked k

/-- A counter is pending while c differs from a (R367). -/
def pendingCounter (s : State) (k : Nat) : Bool := count s k != ackedValue s k

/-- The increment of a count would reach the held distance from the acknowledged value (R368). -/
def counterHeld (s : State) (k : Nat) : Bool :=
  ((count s k + 1) % 2 ^ 32 + 2 ^ 32 - ackedValue s k) % 2 ^ 32 == 2 ^ 32 - 1

/-- The key of EVENTS_LOST. -/
def kEventsLost : Nat := ekey 0x1000 0x14

/-- Move a count on, or hold it and count EVENTS_LOST, which is held in the same way (R368). -/
def bump (k : Nat) (s : State) : State :=
  if counterHeld s k then
    if counterHeld s kEventsLost then s
    else { s with counts := tset s.counts kEventsLost ((count s kEventsLost + 1) % 2 ^ 32) }
  else { s with counts := tset s.counts k ((count s k + 1) % 2 ^ 32) }

/-- Move the counter of an entry. -/
def bumpE (index sub : Nat) (s : State) : State := bump (ekey index sub) s

/-- Move a counter n times. -/
def bumpN (index sub : Nat) : Nat → State → State
  | 0, s => s
  | n + 1, s => bumpN index sub n (bumpE index sub s)

/-- A running total (RO since reset), modulo 2^64. -/
def total (s : State) (index sub : Nat) : Nat := tget 0 s.totals (ekey index sub)

/-- Add to a running total. -/
def addTotal (index sub n : Nat) (s : State) : State :=
  { s with totals := tset s.totals (ekey index sub) ((total s index sub + n) % 2 ^ 64) }

/-- The next free value of the model, and the state with the draw counted. (DESIGN CHOICE, log 5) -/
def draw (s : State) : Nat × State := (Config.freeValue s.fresh, { s with fresh := s.fresh + 1 })

/-- The allocator, the pager or the scheduler makes CAS64 operations, which ATOMIC_OPS counts (R271); how many, the spec does not say.
(DESIGN CHOICE, log 134) -/
def casSome (s : State) : State :=
  let d := draw s
  addTotal 0x3800 7 d.1 d.2

/-! ## Cores, streams, contexts, dies -/

/-- A core. -/
def core (s : State) (c : Nat) : Core := tget {} s.cores c

/-- Change a core. -/
def setCore (c : Nat) (f : Core → Core) (s : State) : State :=
  { s with cores := tset s.cores c (f (core s c)) }

/-- The key of the stream of a context on a core. -/
def skey (ctx c : Nat) : Nat := ctx * 128 + c

/-- The stream of a context on a core. -/
def stream (s : State) (ctx c : Nat) : Stream := tget {} s.streams (skey ctx c)

/-- Change a stream. -/
def setStream (ctx c : Nat) (f : Stream → Stream) (s : State) : State :=
  { s with streams := tset s.streams (skey ctx c) (f (stream s ctx c)) }

/-- A context. -/
def context (s : State) (ctx : Nat) : Context := tget {} s.contexts ctx

/-- Change a context. -/
def setContext (ctx : Nat) (f : Context → Context) (s : State) : State :=
  { s with contexts := tset s.contexts ctx (f (context s ctx)) }

/-- The die of a core (Table 0.4). -/
def dieOf (c : Nat) : Nat := if c < 64 then 0 else 1

/-- A die. -/
def die (s : State) (d : Nat) : Die := s.dies.getD d {}

/-- Change a die. -/
def setDie (d : Nat) (f : Die → Die) (s : State) : State := { s with dies := lmod s.dies d f }

/-- Change a stack. -/
def setStack (k : Nat) (f : Stack → Stack) (s : State) : State := { s with hbm := lmod s.hbm k f }

/-- A stack. -/
def stack (s : State) (k : Nat) : Stack := s.hbm.getD k {}

/-- A seal. -/
def sealAt (s : State) (p : Nat) : Seal := tget {} s.seals p

/-- Change a seal. -/
def setSeal (p : Nat) (f : Seal → Seal) (s : State) : State := { s with seals := tset s.seals p (f (sealAt s p)) }

/-- Change what the island holds. -/
def setIsland (f : Island → Island) (s : State) : State := { s with island := f s.island }

/-- Change what the power unit holds. -/
def setPower (f : Power → Power) (s : State) : State := { s with power := f s.power }

/-- Index of a path in the path lists (R401). -/
def pathIdx : Path → Nat
  | .port0 => 0
  | .port1 => 1
  | .sideband => 2
  | .firmware => 3

/-- What a path holds. -/
def pathState (s : State) (p : Path) : PathState := s.paths.getD (pathIdx p) {}

/-- Change what a path holds. -/
def setPath (p : Path) (f : PathState → PathState) (s : State) : State :=
  { s with paths := lmod s.paths (pathIdx p) f }

/-- An Ethernet port. -/
def eth (s : State) (p : Nat) : EthPort := s.eths.getD p {}

/-- Change an Ethernet port. -/
def setEth (p : Nat) (f : EthPort → EthPort) (s : State) : State := { s with eths := lmod s.eths p f }

/-- The Ethernet port that an output leaves by. -/
def portOfOutput : Output → Option Nat
  | .access _ _ _ => none
  | .frame p _ => if p = .port0 then some 0 else if p = .port1 then some 1 else none
  | .cmdAck p _ => if p = .port0 then some 0 else if p = .port1 then some 1 else none
  | .result p _ => if p = .port0 then some 0 else if p = .port1 then some 1 else none
  | .notify p _ => if p = .port0 then some 0 else if p = .port1 then some 1 else none
  | .rdmaAck port _ _ => some port.val
  | .rdmaNak port _ _ _ => some port.val
  | .rdmaData port _ _ _ _ => some port.val
  | .rdmaReadReq port _ _ _ _ => some port.val
  | .rdmaResend port _ _ => some port.val
  | .rdmaCnp port _ => some port.val
  | _ => none

/-- A frame leaves under the transmit association of its port: the PN moves on; at 2^62 PN_EVENTS counts, at 2^64 − 1 the port
stops sending (R326). (DEDUCED, log 78) -/
def txCount (port : Nat) (s : State) : State :=
  match (eth s port).tx.getLast? with
  | some a =>
    if reg s (0x3B10 + port) 7 = 1 then
      let pn := a.pn + 1
      let s := setEth port (fun e => { e with
        tx := e.tx.dropLast ++ [{ a with pn := pn }], txStopped := decide (pn.toNat = 2 ^ 64 - 1) }) s
      if pn.toNat = 2 ^ 62 then bumpE (0x3B10 + port) 0xC s else s
    else s
  | none => s

/-- Say something to the outside; a port whose transmit PN is used up sends nothing (R326). (DESIGN CHOICE, log 6) -/
def emit (o : Output) (s : State) : State :=
  match portOfOutput o with
  | some port =>
    if (eth s port).txStopped then s else txCount port { s with outbox := s.outbox ++ [o] }
  | none => { s with outbox := s.outbox ++ [o] }

/-- A link port. -/
def link (s : State) (p : Nat) : LinkPort := s.links.getD p {}

/-- Change a link port. -/
def setLink (p : Nat) (f : LinkPort → LinkPort) (s : State) : State := { s with links := lmod s.links p f }

/-- A chain slot. -/
def chain (s : State) (k : Nat) : ChainSlot := s.chains.getD k {}

/-- Change a chain slot. -/
def setChain (k : Nat) (f : ChainSlot → ChainSlot) (s : State) : State := { s with chains := lmod s.chains k f }

/-- A stream engine. -/
def engine (s : State) (r : Nat) : StreamEngine := s.engines.getD r {}

/-- Change a stream engine. -/
def setEngine (r : Nat) (f : StreamEngine → StreamEngine) (s : State) : State :=
  { s with engines := lmod s.engines r f }

/-! ## Power state -/

/-- A core's stop or save for an entry is still under way. -/
def savesUnderWay (s : State) : Bool := s.cores.any fun e => !e.2.stopping.isEmpty || !e.2.saving.isEmpty

/-- The write ports of the scratchpad banks are closed (R415): outside RUN, and during an entry once every state is saved. (DEDUCED, log 104) -/
def banksClosed (s : State) : Bool :=
  s.power.state != 0 || s.power.exiting || (s.power.entering && (s.power.goal == 1 || !savesUnderWay s))

/-! ## Straps and identity (Table 19.9, R358) -/

/-- Module number on the board. -/
def moduleOf (s : State) : Nat := bits s.power.straps.toNat 2 0

/-- Board number. -/
def boardOf (s : State) : Nat := bits s.power.straps.toNat 8 3

/-- Pod number. -/
def podOf (s : State) : Nat := bits s.power.straps.toNat 14 9

/-- ROLE strap. -/
def roleOf (s : State) : Nat := bits s.power.straps.toNat 16 15

/-- The role in effect: a manager that lost the conflict of R353 works as a worker. -/
def effRole (s : State) : Nat := if s.hier.conflict then 0 else roleOf s

/-- HIER_IDENTITY (Table 16.5). -/
def identityOf (s : State) : Nat :=
  moduleOf s + boardOf s * 8 + podOf s * 512 + b2n s.hier.confirmed * 32768

/-! ## Fault records (R425, Table 20.3) -/

/-- Units of Table 20.3 that write records. -/
inductive FaultUnit where
  | cp | poly | courier | relay | gate | array | vec | msg | seals | mover | scratchpad | cache | hbm | pager | ctx | port
  | link | eth | island | power
  deriving DecidableEq, Repr

/-- Unit codes of Table 20.3. -/
def FaultUnit.code : FaultUnit → Nat
  | .cp => 0 | .poly => 1 | .courier => 2 | .relay => 3 | .gate => 4 | .array => 5 | .vec => 6 | .msg => 7 | .seals => 8
  | .mover => 9 | .scratchpad => 10 | .cache => 11 | .hbm => 12 | .pager => 13 | .ctx => 14 | .port => 15 | .link => 16
  | .eth => 17 | .island => 18 | .power => 19

/-- Where an instruction stood: ring index, instruction-memory slot and loop counters (Table 20.3). -/
structure RingInfo where
  index : Nat
  slot  : Nat
  loops : List Nat
  deriving DecidableEq, Repr

/-- What a unit puts into a record. -/
structure Rec where
  unit     : FaultUnit
  reason   : Reason
  halt     : Bool := false
  cause    : Nat := 0
  core     : Nat := 0
  ctx      : Nat := 0
  addr     : Option (Nat × Bool) := none
  postmark : Option Nat := none
  ring     : Option RingInfo := none
  detail   : Nat := 0
  deriving DecidableEq, Repr

/-- The LOOPS field: innermost first. (DEDUCED, log 17) -/
def loopsField (l : List Nat) : Nat := packFields ((List.range 4).map fun i => (24 * i, 24, l.getD i 0))

/-- The 128 bytes of a record as staged: REC_SEQ, DROPS and REC_CHECK are filled in when the log accepts it (R426). (DEDUCED, log 110) -/
def recWord (s : State) (d : Nat) (r : Rec) : Nat :=
  packFields [
    (736, 256, r.detail),
    (640, 96, match r.ring with | some i => loopsField i.loops | none => 0),
    (608, 32, match r.ring with | some i => i.index | none => 0),
    (594, 14, match r.ring with | some i => i.slot | none => 0),
    (512, 64, r.postmark.getD 0),
    (464, 48, match r.addr with | some a => a.1 | none => 0),
    (384, 64, (die s d).time.toNat),
    (340, 12, r.ctx), (333, 7, r.core), (330, 3, moduleOf s), (329, 1, d), (324, 5, r.unit.code),
    (312, 8, r.reason.code), (304, 8, r.cause),
    (303, 1, b2n r.addr.isSome),
    (302, 1, match r.addr with | some a => b2n a.2 | none => 0),
    (301, 1, b2n r.postmark.isSome), (300, 1, b2n r.ring.isSome),
    (297, 3, match r.ring with | some i => min i.loops.length 4 | none => 0),
    (4, 4, 1), (0, 4, if r.halt then 2 else r.reason.kind)]

/-- Stage a record on a die: at most 64 stand staged, a further one is counted in FLOG_DROPPED (R426). -/
def stageRec (d : Nat) (r : Rec) (s : State) : State :=
  if (die s d).flogStage.length < 64 then
    setDie d (fun x => { x with flogStage := x.flogStage ++ [BitVec.ofNat 1024 (recWord s d r)] }) s
  else bumpE 0x6000 0x05 (setDie d (fun x => { x with flogDrops := true }) s)

/-! ## Trace records (R428, Table 20.6) -/

/-- What a traced event carries. -/
structure TraceRec where
  tkind    : Nat
  postmark : Nat := 0
  value    : Nat := 0
  ctx      : Nat := 0
  core     : Nat := 0
  sealId   : Nat := 0
  aux      : Nat := 0
  deriving DecidableEq, Repr

/-- Trace is enabled (bit 31 of TRACE_OWNER). -/
def traceOn (s : State) : Bool := bit (reg s 0x6010 1) 31

/-- The 32 bytes of a trace record, LOST aside. -/
def traceWord (s : State) (d : Nat) (t : TraceRec) : Nat :=
  packFields [(192, 64, (die s d).time.toNat), (128, 64, t.postmark), (96, 32, t.value), (84, 12, t.ctx), (77, 7, t.core),
    (74, 3, moduleOf s), (73, 1, d), (48, 16, t.sealId), (16, 32, t.aux), (4, 4, 1), (0, 4, t.tkind)]

/-- Stage a trace record of a die when its kind is selected; a full staging of 256 drops it (R428). TR_LOST in the ring's
header is counted by the write that follows. -/
def trace (d : Nat) (t : TraceRec) (s : State) : State :=
  if traceOn s && bit (reg s 0x6010 3) t.tkind then
    if (die s d).trace.length < 256 then
      setDie d (fun x => { x with trace := x.trace ++ [BitVec.ofNat 256 (traceWord s d t)] }) s
    else bumpE 0x6010 0x06 (setDie d (fun x => { x with traceLost := true, traceMiss := x.traceMiss + 1 }) s)
  else s

end Sys2Proof.Machine
end

