-- ==== Sys2Proof/Machine/Mem.lean ====
section
/-! DEFINITION. Device memory: the list of bytes, the poison and torn marks, the error codes of scratchpad, cache and HBM, the shared cache's lines, and frame retirement. Every byte of memory is read and written here. -/

namespace Sys2Proof.Machine

/-! ## The bytes -/

/-- What an unlisted byte reads as. (DESIGN CHOICE, log 10) -/
def memDefault : Byte := 0

/-- One byte of a memory. -/
def memGet : List Host.Cell → Nat → Byte
  | [], _ => memDefault
  | (k, v) :: r, a => if a = k then v else memGet r a

/-- Write one byte, keeping addresses rising and listing no default. -/
def memSet : List Host.Cell → Nat → Byte → List Host.Cell
  | [], a, v => if v = memDefault then [] else [(a, v)]
  | (k, w) :: r, a, v =>
    if a = k then (if v = memDefault then r else (a, v) :: r)
    else if a < k then (if v = memDefault then (k, w) :: r else (a, v) :: (k, w) :: r)
    else (k, w) :: memSet r a v

/-- The canonical form: addresses strictly rising from a bound, no default listed. -/
def memWfFrom : Nat → List Host.Cell → Bool
  | _, [] => true
  | lo, (k, v) :: r => decide (lo ≤ k) && (v != memDefault) && memWfFrom (k + 1) r

/-- The canonical form of a memory. -/
def Memory.wf (m : List Host.Cell) : Bool := memWfFrom 0 m

/-- Consecutive bytes. -/
def memRead (m : List Host.Cell) (a : Nat) : Nat → List Byte
  | 0 => []
  | n + 1 => memGet m a :: memRead m (a + 1) n

/-- Write consecutive bytes. -/
def memWrite (m : List Host.Cell) (a : Nat) : List Byte → List Host.Cell
  | [] => m
  | b :: r => memWrite (memSet m a b) (a + 1) r

/-! ## The device address map (R11) -/

/-- End of HBM: 384 GiB. -/
def hbmEnd : Nat := 0x60_0000_0000

/-- Start of the scratchpad windows. -/
def spBase : Nat := 0x0100_0000_0000

/-- End of the scratchpad windows: 128 of 4 MiB. -/
def spEnd : Nat := 0x0100_2000_0000

/-- The register windows (R379). -/
def winBase : Nat := 0x0200_0000_0000

/-- End of the system area (R288). -/
def systemEnd : Nat := 0x4000_0000

/-- A device address lies in a scratchpad. -/
def isSp (a : Nat) : Bool := decide (spBase ≤ a ∧ a < spEnd)

/-- A device address lies in HBM. -/
def isHbm (a : Nat) : Bool := decide (a < hbmEnd)

/-- The core whose scratchpad holds an address. -/
def spCore (a : Nat) : Nat := (a - spBase) / 0x40_0000

/-- Bank of a scratchpad address (R261). -/
def spBank (a : Nat) : Nat :=
  let n := (a - spBase) % 0x40_0000 / 128
  (n ^^^ (n >>> 4) ^^^ (n >>> 8) ^^^ (n >>> 12)) % 16

/-- Size of the granule that carries one poison mark: an HBM burst or a scratchpad word (Table 20.2). -/
def granSize (a : Nat) : Nat := if a < hbmEnd then 32 else 8

/-- First addresses of the units of `g` bytes that meet [a, a + n). -/
def unitsOf (g a n : Nat) : List Nat :=
  if n = 0 then [] else (List.range ((a + n - 1) / g - a / g + 1)).map fun i => (a / g + i) * g

/-! ## Where an HBM address lies (R275) -/

/-- The place of an HBM byte. -/
structure HbmLoc where
  pc   : Nat
  bank : Nat
  row  : Nat
  col  : Nat
  deriving DecidableEq, Repr

/-- The location of a device address under a spreading mode: 0 DEVICE, 1 DIE, 2 STACK. -/
def hbmLocMode (mode a : Nat) : HbmLoc :=
  let g := a >>> 33
  let off := a % 2 ^ 33
  let n := if mode = 0 then 512 else if mode = 1 then 256 else 64
  let base := if mode = 0 then 0 else if mode = 1 then 256 * (off >>> 32) else 64 * (off >>> 30)
  let o := if mode = 0 then off else if mode = 1 then off % 2 ^ 32 else off % 2 ^ 30
  let blk := o >>> 10
  let r := blk / n
  { pc := base + ((blk % n) ^^^ ((blk / n) % n)), bank := r % 16, row := g * 1024 + (r >>> 4), col := off % 1024 }

/-- Spreading mode of an address's region group. -/
def spreadOf (s : State) (a : Nat) : Nat := reg s 0x3810 (a / 2 ^ 33 + 1)

/-- The location of a device address. -/
def hbmLoc (s : State) (a : Nat) : HbmLoc := hbmLocMode (spreadOf s a) a

/-- The stack of an HBM address. -/
def stackOf (s : State) (a : Nat) : Nat := (hbmLoc s a).pc >>> 6

/-- The location as TG_FIRST_FAIL bits 63:33 lay it out (Table 20.5). -/
def locField (l : HbmLoc) : Nat :=
  packFields [(25, 6, l.pc % 64), (21, 4, l.bank), (5, 16, l.row), (0, 5, l.col / 32)]

/-- The die of a device address: of its stack, or of its core. -/
def dieOfAddr (s : State) (a : Nat) : Nat :=
  if isHbm a then stackOf s a / 4 else dieOf (spCore a)

/-! ## Poison and torn marks (R264, R267, R272, R274, Table 20.2) -/

/-- A byte reads as poisoned: its granule carries the mark, or its scratchpad line is torn. -/
def poisonedAt (s : State) (a : Nat) : Bool :=
  nmem s.poison (a / granSize a * granSize a) || (isSp a && nmem s.torn (a / 128 * 128))

/-- Some byte of a range reads as poisoned. -/
def poisonedRange (s : State) (a n : Nat) : Bool :=
  (unitsOf (granSize a) a n).any fun g => poisonedAt s g

/-- Set the torn bit of a scratchpad line (R266). -/
def tearLine (l : Nat) (s : State) : State := { s with torn := nins s.torn l }

/-- Torn lines of a core's scratchpad (SP_TORN_LINES). -/
def tornLines (s : State) (c : Nat) : Nat := (s.torn.filter fun l => isSp l && spCore l == c).length

/-! ## Frame retirement (R283-R285, R433) -/

/-- The frame of an HBM address. -/
def frameOf (a : Nat) : Nat := a / 2 ^ 21

/-- A frame stands in some retired list. -/
def isRetired (s : State) (f : Nat) : Bool := s.hbm.any fun k => k.retired.contains f

/-- Retire a frame in the list of a stack; a full list writes a record instead (R285). An allocated frame is pending (R284). -/
def retireFrame (k f : Nat) (s : State) : State :=
  if isRetired s f then s
  else
    let d := k / 4
    let r : Rec := { unit := .hbm, reason := .frameRetired, addr := some (f * 2 ^ 21, true),
                     detail := locField (hbmLoc s (f * 2 ^ 21)) }
    if (stack s k).retired.length < 64 then
      let s := setStack k (fun x => { x with
        retired := x.retired ++ [f],
        pending := if nmem s.frames f then nins x.pending f else x.pending }) s
      let s := { s with contexts := s.contexts.map fun e => (e.1, { e.2 with
        pages := e.2.pages.map fun p => if p.2.present && !p.2.huge && p.2.frame == f then (p.1, { p.2 with retiring := true }) else p }) }
      stageRec d r (bumpE 0x6030 4 s)
    else stageRec d { r with reason := .retireListFull } s

/-- An entry of a stack's tracker: frame, corrections counted, and per burst the times it was corrected. -/
abbrev Track := Nat × Nat × List (Nat × Nat)

/-- The tracker after a correction of a burst: the entry moves to the back, and a full tracker of 256 loses the entry whose
last error is oldest (R433). -/
def trackCorrection (t : List Track) (f b : Nat) : List Track :=
  let old := (t.find? fun e => e.1 == f).getD (f, 0, [])
  let bs := if old.2.2.any (fun x => x.1 == b) then lreplace (fun x => x.1 == b) (fun x => (x.1, x.2 + 1)) old.2.2
            else old.2.2 ++ [(b, 1)]
  let rest := t.filter fun e => e.1 != f
  let rest := if rest.length ≥ 256 then rest.drop 1 else rest
  rest ++ [(f, old.2.1 + 1, bs)]

/-- A correction crosses a threshold of R433: the burst was found in error again RETIRE_REPEAT times, or the frame's
corrections reach RETIRE_CE. -/
def trackCrossed (s : State) (t : List Track) (f b : Nat) : Bool :=
  match t.find? fun e => e.1 == f with
  | none => false
  | some e =>
    decide (reg s 0x6030 2 ≤ e.2.1) ||
      (match e.2.2.find? fun x => x.1 == b with
       | none => false
       | some x => decide (reg s 0x6030 1 ≤ x.2 - 1))

/-- Count a correction of a burst towards retirement, unless the stack is in TEST (R433). -/
def noteCorrection (k b : Nat) (s : State) : State :=
  if (stack s k).state = 1 then s
  else
    let t := trackCorrection (stack s k).tracker (frameOf b) b
    let s := setStack k (fun x => { x with tracker := t }) s
    if trackCrossed s t (frameOf b) b then retireFrame k (frameOf b) s else s

/-! ## Reads and their checks -/

/-- A read of an HBM burst by its base die: one bad symbol is corrected and counted, more poison the burst, write a record
and retire the frame (R274, R433). -/
def hbmCheck (b : Nat) (s : State) : State :=
  match tget 0 s.hbmLatent b with
  | 0 => s
  | 1 =>
    let k := stackOf s b
    noteCorrection k b (bumpE (0x3840 + k) 3 { s with hbmLatent := terase s.hbmLatent b })
  | _ =>
    let k := stackOf s b
    let s := bumpE (0x3840 + k) 4 { s with hbmLatent := terase s.hbmLatent b, poison := nins s.poison b }
    let s := stageRec (k / 4) { unit := .hbm, reason := .hbmUe, addr := some (b, true),
                                detail := locField (hbmLoc s b) } s
    if (stack s k).state = 1 then s else retireFrame k (frameOf b) s

/-- A read of a scratchpad word: one bad bit is corrected, more store the poison syndrome and write a record (R264). -/
def spCheck (w : Nat) (s : State) : State :=
  let c := spCore w
  match tget 0 s.spLatent w with
  | 0 => s
  | 1 => bumpE (0x3880 + c) 1 { s with spLatent := terase s.spLatent w }
  | _ =>
    stageRec (dieOf c) { unit := .scratchpad, reason := .spUe, core := c, addr := some (w, true),
                         detail := spBank w + (w / 8 % 16) * 256 }
      (bumpE (0x3880 + c) 2 { s with spLatent := terase s.spLatent w, poison := nins s.poison w })

/-! ## The shared cache's lines (R268-R270) -/

/-- Count bytes moved to or from HBM in a class. (DEDUCED, log 29) -/
def bwCount (c : Class) (n : Nat) (s : State) : State :=
  match c with
  | .read => addTotal 0x3800 8 n s
  | .write => addTotal 0x3800 9 n s
  | .remote => addTotal 0x3800 0xA n s

/-- Ways of a die that its pinned window reserves (PIN_WAYS). -/
def pinWays (s : State) (d : Nat) : Nat := bits (reg s 0x3800 2) (4 * d + 3) (4 * d)

/-- The cached line of an address. -/
def cachedLine (s : State) (a : Nat) : Option CacheLine :=
  (die s (dieOfAddr s a)).cache.find? fun l => l.line == a / 128 * 128

/-- The sector of its line that an address lies in. -/
def sectorOf (a : Nat) : Nat := a % 128 / 32

/-- The line of an address holds its sector. -/
def sectorHeld (s : State) (a : Nat) : Bool :=
  match cachedLine s a with
  | some l => bit l.valid (sectorOf a)
  | none => false

/-- Change a cached line in place: its place in the replacement order stays. -/
def setCached (a : Nat) (f : CacheLine → CacheLine) (s : State) : State :=
  setDie (dieOfAddr s a) (fun x => { x with cache := lreplace (fun l => l.line == a / 128 * 128) f x.cache }) s

/-- Bursts come from HBM: each is checked by its base die and counted in the class of the access (R274, R276). -/
def fetchBursts (cls : Class) (bs : List Nat) (s : State) : State :=
  bs.foldl (fun s b => bwCount cls 32 (hbmCheck b s)) s

/-- First addresses of the bursts of a line whose sector bits are set in a mask. -/
def lineBursts (line mask : Nat) : List Nat := ((List.range 4).filter fun k => bit mask k).map fun k => line + 32 * k

/-- A read of a cached word: one bad bit is corrected; more poison a sector of a dirty line, and refetch a clean one (R272). -/
def cacheCheck (cls : Class) (w : Nat) (s : State) : State :=
  match tget 0 s.cacheLatent w with
  | 0 => s
  | 1 => bumpE 0x3800 3 { s with cacheLatent := terase s.cacheLatent w }
  | _ =>
    match (cachedLine s w).filter fun l => l.dirty == 0 with
    | some l =>
      bumpE 0x3800 5 (fetchBursts cls (lineBursts l.line l.valid)
        { s with cacheLatent := s.cacheLatent.filter fun e => e.1 / 128 * 128 != l.line })
    | none =>
      stageRec (dieOfAddr s w) { unit := .cache, reason := .cacheUe, addr := some (w, true) }
        (bumpE 0x3800 4 { s with cacheLatent := terase s.cacheLatent w, poison := nins s.poison (w / 32 * 32) })

/-- A line leaves the cache: its changed sectors are read, checked and written back over what HBM holds. (DEDUCED, log 29) -/
def evictLine (d : Nat) (l : CacheLine) (s : State) : State :=
  let bs := lineBursts l.line l.dirty
  let s := (bs.flatMap fun b => unitsOf 8 b 32).foldl (fun s w => cacheCheck l.cls w s) s
  let s := setDie d (fun x => { x with cache := x.cache.filter fun y => y.line != l.line }) s
  bwCount l.cls (32 * bs.length) { s with
    hbmLatent := s.hbmLatent.filter (fun e => !(bs.contains e.1)),
    cacheLatent := s.cacheLatent.filter fun e => e.1 / 128 * 128 != l.line }

/-- Lines of a set, least recently used first. (DESIGN CHOICE, log 30) -/
def setLines (s : State) (d line : Nat) : List CacheLine :=
  (die s d).cache.filter fun l => Config.cacheSet l.line == Config.cacheSet line

/-- An access that allocates makes its line the most recently used; a line that was not there takes the place of the least recently
used one of a full set, and holds no sector yet (R269). -/
def cacheTouch (line : Nat) (s : State) : State :=
  let d := dieOfAddr s line
  match (die s d).cache.find? fun l => l.line == line with
  | some l => setDie d (fun x => { x with cache := (x.cache.filter fun y => y.line != line) ++ [l] }) s
  | none =>
    let ls := setLines s d line
    let s := if ls.length ≥ 16 - pinWays s d then
        match ls with
        | l :: _ => evictLine d l s
        | [] => s
      else s
    setDie d (fun x => { x with cache := x.cache ++ [{ line := line }] }) s

/-- The sectors a line does not hold come from HBM. (DEDUCED, log 29) -/
def fillLine (cls : Class) (line : Nat) (s : State) : State :=
  match cachedLine s line with
  | some l => setCached line (fun l => { l with valid := 15 }) (fetchBursts cls (lineBursts line (15 ^^^ l.valid)) s)
  | none => s

/-- The checks of one HBM burst read through its home slice: of the cache's words where it holds the burst, else of HBM's. -/
def burstRead (cls : Class) (b : Nat) (s : State) : State :=
  if sectorHeld s b then (unitsOf 8 b 32).foldl (fun s w => cacheCheck cls w s) s else fetchBursts cls [b] s

/-- What a read of a range does beside delivering bytes: checks, counts, cache allocation (R264-R274). -/
def noteRead (cls : Class) (alloc : Bool) (a n : Nat) (s : State) : State :=
  if isHbm a then
    let s := if alloc then (unitsOf 128 a n).foldl (fun s l => fillLine cls l (cacheTouch l s)) s else s
    (unitsOf 32 a n).foldl (fun s b => burstRead cls b s) s
  else
    let s := (unitsOf 8 a n).foldl (fun s w => spCheck w s) s
    (unitsOf 128 a n).foldl (fun s l => if nmem s.torn l then bumpE (0x3880 + spCore l) 4 s else s) s

/-! ## Writes -/

/-- A granule [g, g + z) lies wholly inside [a, a + n). -/
def covers (a n g z : Nat) : Bool := decide (a ≤ g ∧ g + z ≤ a + n)

/-- The poison mark of a granule after a write: a whole write replaces it, a partial one can only set it (R264, R272, R274, R423). -/
def setMark (a n : Nat) (p : Bool) (g : Nat) (s : State) : State :=
  if covers a n g (granSize g) then { s with poison := if p then nins s.poison g else ndel s.poison g }
  else if p then { s with poison := nins s.poison g } else s

/-- A write of a scratchpad word: a whole write replaces its code, a partial one reads and checks it first (R264). -/
def spWrite (a n : Nat) (w : Nat) (s : State) : State :=
  if covers a n w 8 then { s with spLatent := terase s.spLatent w } else spCheck w s

/-- A write of a burst that its line holds or takes up: what it does not replace is checked, in the cache or as it comes from HBM. -/
def sectorWrite (cls : Class) (a n : Nat) (b : Nat) (s : State) : State :=
  let s := if sectorHeld s b || covers a n b 32 then s else fetchBursts cls [b] s
  let s := (unitsOf 8 b 32).foldl (fun s w =>
    if covers a n w 8 then { s with cacheLatent := terase s.cacheLatent w } else cacheCheck cls w s) s
  setCached b (fun l => { l with valid := l.valid ||| 2 ^ sectorOf b, dirty := l.dirty ||| 2 ^ sectorOf b, cls := cls }) s

/-- A write of a burst that bypasses the cache: the base die merges a partial one into what it reads and checks (R274). -/
def burstWrite (cls : Class) (a n : Nat) (b : Nat) (s : State) : State :=
  bwCount cls 32 (if covers a n b 32 then { s with hbmLatent := terase s.hbmLatent b } else hbmCheck b s)

/-- What a write does before its bytes stand: allocation, checks and counts (R264-R274). A write that does not allocate changes a line
that is there, without disturbing the replacement order. -/
def noteWrite (cls : Class) (alloc : Bool) (a n : Nat) (s : State) : State :=
  if isHbm a then
    let s := if alloc then (unitsOf 128 a n).foldl (fun s l => cacheTouch l s) s else s
    (unitsOf 32 a n).foldl (fun s b => if (cachedLine s b).isSome then sectorWrite cls a n b s else burstWrite cls a n b s) s
  else (unitsOf 8 a n).foldl (fun s w => spWrite a n w s) s

/-- Write bytes to a device address range, with a poison mark. Torn lines wholly covered are whole again (R267). -/
def devWrite (cls : Class) (alloc : Bool) (a : Nat) (bs : List Byte) (p : Bool) (s : State) : State :=
  let n := bs.length
  let s := noteWrite cls alloc a n s
  let s := (unitsOf (granSize a) a n).foldl (fun s g => setMark a n p g s) s
  let s := { s with mem := memWrite s.mem a bs }
  if isHbm a then s else { s with torn := s.torn.filter fun l => !(covers a n l 128) }

/-- Bytes of a device address range as they stand. -/
def devBytes (s : State) (a n : Nat) : List Byte := memRead s.mem a n

/-- Number of free frames outside the system area, retired frames excluded (FRAMES_FREE, R297). -/
def framesFree (s : State) : Nat :=
  196096 - (s.frames.filter fun f => !(isRetired s f)).length
    - ((s.hbm.flatMap fun k => k.retired).filter fun f => decide (512 ≤ f)).length

end Sys2Proof.Machine
end

