-- ==== Sys2Proof/Machine/Ops.lean ====
section
/-! DEFINITION. The named operations over registers and memory: context-table fields, translation and protection, loads and stores of the engines with stamps, atomics, seals, link packets. -/

namespace Sys2Proof.Machine

/-! ## Context-table entries (Table 13.1) -/

/-- Bits hi:lo of a context's entry. -/
def ctxF (s : State) (c hi lo : Nat) : Nat := bits (context s c).entry.toNat hi lo

/-- The device writes a context's entry back whole, with its check: what HBM held there is gone (R289). -/
def entryWritten (c : Nat) (s : State) : State :=
  let out := fun (a : Nat) => !(decide (256 * c ≤ a ∧ a < 256 * c + 256))
  setContext c (fun x => { x with entryBad := false })
    { s with poison := s.poison.filter out, hbmLatent := s.hbmLatent.filter fun e => out e.1 }

/-- Write bits hi:lo of a context's entry. -/
def setCtxF (c hi lo v : Nat) (s : State) : State :=
  entryWritten c (setContext c (fun x => { x with entry := BitVec.ofNat 2048 (setBits x.entry.toNat hi lo v) }) s)

/-- STATE: 0 FREE, 1 OPEN, 2 SUSPENDED, 3 CLOSING. -/
def ctxState (s : State) (c : Nat) : Nat := ctxF s c 10 8
/-- RESIDENT. -/
def ctxResident (s : State) (c : Nat) : Bool := ctxF s c 11 11 == 1
/-- PRIORITY. -/
def ctxPriority (s : State) (c : Nat) : Nat := ctxF s c 14 12
/-- BUDGET_ENFORCE. -/
def ctxEnforce (s : State) (c : Nat) : Bool := ctxF s c 15 15 == 1
/-- CHAIN. -/
def ctxChain (s : State) (c : Nat) : Nat := ctxF s c 19 16
/-- CHAINED. -/
def ctxChained (s : State) (c : Nat) : Bool := ctxF s c 20 20 == 1
/-- OWNER_PORTS. -/
def ctxOwners (s : State) (c : Nat) : Nat := ctxF s c 22 21
/-- SESSION_KEY. -/
def ctxSessionKey (s : State) (c : Nat) : Nat := ctxF s c 31 24
/-- GENERATION. -/
def ctxGen (s : State) (c : Nat) : Nat := ctxF s c 47 32
/-- SEAL_QUOTA. -/
def ctxSealQuota (s : State) (c : Nat) : Nat := ctxF s c 76 64
/-- SEALS_USED. -/
def ctxSealsUsed (s : State) (c : Nat) : Nat := ctxF s c 92 80
/-- HBM_QUOTA. -/
def ctxQuota (s : State) (c : Nat) : Nat := ctxF s c 113 96
/-- HBM_USED. -/
def ctxUsed (s : State) (c : Nat) : Nat := ctxF s c 145 128
/-- STREAM_BASE. -/
def ctxStreamBase (s : State) (c : Nat) : Nat := ctxF s c 239 192
/-- DL_LOG2. -/
def ctxDlLog2 (s : State) (c : Nat) : Nat := ctxF s c 243 240
/-- DL_BASE. -/
def ctxDlBase (s : State) (c : Nat) : Nat := ctxF s c 303 256
/-- PT_ROOT. -/
def ctxPtRoot (s : State) (c : Nat) : Nat := ctxF s c 431 384
/-- SAVE_BASE. -/
def ctxSaveBase (s : State) (c : Nat) : Nat := ctxF s c 367 320
/-- PAGER_QPN. -/
def ctxPagerQpn (s : State) (c : Nat) : Nat := ctxF s c 567 544
/-- PAGER_PORT. -/
def ctxPagerPort (s : State) (c : Nat) : Nat := ctxF s c 568 568
/-- SP_FIRST. -/
def ctxSpFirst (s : State) (c : Nat) : Nat := ctxF s c 581 576
/-- SP_COUNT. -/
def ctxSpCount (s : State) (c : Nat) : Nat := ctxF s c 588 582
/-- SP_MASK. -/
def ctxSpMask (s : State) (c : Nat) : Nat := ctxF s c 767 640

/-- The 256 bytes of an entry as memory shows them: CTX_CHECK recomputed (R289), or spoiled where it fails. -/
def ctxEntryWord (s : State) (c : Nat) : Nat :=
  let w := withCheck 256 (context s c).entry.toNat
  if (context s c).entryBad then w ^^^ 2 ^ 2016 else w

/-- A scratchpad address lies in the context's grant (R296). -/
def granted (s : State) (c a : Nat) : Bool :=
  isSp a && bit (ctxSpMask s c) (spCore a) &&
    (let off := (a - spBase) % 0x40_0000 / 0x1_0000
     decide (ctxSpFirst s c ≤ off ∧ off < ctxSpFirst s c + ctxSpCount s c))

/-- The mapping that covers a 2 MiB page number: its own entry, or the 1 GiB entry that holds it. -/
def mappingOf (s : State) (c page : Nat) : Option (Nat × Mapping) :=
  (context s c).pages.find? fun e =>
    e.1 == page || (e.2.huge && decide (e.1 ≤ page ∧ page < e.1 + 512))

/-- The device address of the page-table entry of a context address: the level-1 entry of a 1 GiB page, else the level-2 entry of its
2 MiB page (R296). (DESIGN CHOICE, log 32) -/
def pteAddr (s : State) (c a : Nat) : Nat :=
  match mappingOf s c (a / 2 ^ 21) with
  | some (p, m) => if m.huge then ctxPtRoot s c + 8 * (p / 512) else Config.levelTwoTable c (a / 2 ^ 30) + 8 * (a / 2 ^ 21 % 512)
  | none => Config.levelTwoTable c (a / 2 ^ 30) + 8 * (a / 2 ^ 21 % 512)

/-- Change a mapping of a context. -/
def setMapping (c page : Nat) (f : Mapping → Mapping) (s : State) : State :=
  setContext c (fun x => { x with pages := lreplace (fun e => e.1 == page) (fun e => (e.1, f e.2)) x.pages }) s

/-! ## Why an engine stops -/

/-- A fault of an engine: its reason, the address it names (true: a device address), its DETAIL. -/
structure FaultInfo where
  reason : Reason
  cause  : Nat := 0
  addr   : Option (Nat × Bool) := none
  detail : Nat := 0
  deriving DecidableEq, Repr

/-- Why an engine's work on an instruction stops: a fault; a checkpoint where an express command waits to take effect (R227); an absent
hosted page (R300); a wait for something that has not come yet; a read of another module to be asked for. -/
inductive Stop where
  | fault (f : FaultInfo)
  | yield
  | page (ctx page : Nat)
  | stall
  | remote (module addr len : Nat)
  deriving DecidableEq, Repr

/-- The work of an engine: over the state, stopping with a reason. -/
abbrev Eng (α : Type) := EStateM Stop State α

/-- Stop with a fault. -/
def failE {α : Type} (r : Reason) (addr : Option (Nat × Bool) := none) (detail : Nat := 0) : Eng α :=
  throw (.fault { reason := r, addr := addr, detail := detail })

/-- Stop with a fault unless a condition holds. Work that waited and goes on passes again what it has already passed: a check before
an access that is already made was met then, and is not made again. -/
def needE (c : Bool) (r : Reason) (addr : Option (Nat × Bool) := none) : Eng Unit := fun s =>
  if c || !s.replay.isEmpty then .ok () s else (failE r addr : Eng Unit) s

/-- Who makes an access: core, context, unit, the page whose fetch was given up for it, with its code (R302), the serial number of the
instruction, whether its reads allocate lines of the shared cache (R269), and the indexed dimensions whose entries the
walk has met before, so that none counts again (R189). -/
structure Env where
  core : Nat
  ctx  : Nat
  unit : FaultUnit
  failed : Option (Nat × Nat) := none
  serial : Nat := 0
  alloc : Bool := true
  again : List Nat := []
  deriving DecidableEq, Repr

/-! ## Work that waits and goes on (R227, R228)

An engine's work on a repeat makes its accesses one by one. Where one has to wait, the work stops there: what it has done stands, and
what it has read is kept with the instruction. When it goes on, it passes the accesses already made with the data they gave then, and
continues with the one that had to wait. (DESIGN CHOICE, log 116) -/

/-- An access that reads, made once: a wait leaves the state as before it. -/
def noted (x : Eng (List Byte × List Nat)) : Eng (List Byte × List Nat) := fun s =>
  match s.replay with
  | .data b m :: r => .ok (b, m) { s with replay := r }
  | _ :: r => .ok ([], []) { s with replay := r }
  | [] =>
    match x s with
    | .ok (b, m) t => .ok (b, m) { t with journal := .data b m :: s.journal }
    | .error (.fault f) t => .error (.fault f) t
    | .error w _ => .error w s

/-- Any other effect, made once: a wait leaves the state as before it. -/
def once (x : Eng Unit) : Eng Unit := fun s =>
  match s.replay with
  | _ :: r => .ok () { s with replay := r }
  | [] =>
    match x s with
    | .ok _ t => .ok () { t with journal := .done :: s.journal }
    | .error (.fault f) t => .error (.fault f) t
    | .error w _ => .error w s

/-- A change of the state, made once. -/
def act (f : State → State) : Eng Unit := once (modify f)

/-- A value the spec leaves open, drawn once. -/
def drawE : Eng Nat := do
  let (b, _) ← noted (do
    let s ← get
    let d := draw s
    set d.2
    pure (toLe 8 d.1, []))
  pure (ofLe b)

/-- Count once in a repeat that an entry of a streamed index is mapped (R189). (DEDUCED, log 68) -/
def onceEntry (operand p : Nat) (f : State → State) : Eng Unit := fun s =>
  match s.replay with
  | _ :: r => .ok () { s with replay := r }
  | [] => .ok () (if s.journal.contains (.entry operand p) then { s with journal := .done :: s.journal }
                  else { f s with journal := .entry operand p :: s.journal })

/-- A checkpoint (R227): lines written before it keep their data if a later fault stops the instruction (R266), and the work stops here
where it may be stopped. -/
def checkpoint : Eng Unit := fun s =>
  match s.replay with
  | _ :: r => .ok () { s with replay := r }
  | [] =>
    let t := { s with wrote := [], wroteFar := [], journal := .mark :: s.journal }
    if s.stretch then .error .yield t else .ok () t

/-- A boundary to which a suspended MOVE goes back (R280). -/
def edge : Eng Unit := fun s =>
  match s.replay with
  | _ :: r => .ok () { s with replay := r }
  | [] => .ok () { s with journal := .edge :: s.journal }

/-- A state while no instruction's work is under way. -/
def settled (s : State) : State := { s with replay := [], journal := [], stretch := false }

/-- Run work from where it stopped, to its end or, for one stretch alone, to its next checkpoint; answers with the accesses it has made
where it stops again. -/
def runFrom {α : Type} (j : List Ev) (one : Bool) (x : Eng α) (s : State) : EStateM.Result (Stop × List Ev) State α :=
  match x { s with replay := j.reverse, journal := j, stretch := one } with
  | .ok v t => .ok v (settled t)
  | .error stop t => .error (stop, t.journal) (settled t)

/-- What is kept of the accesses of an instruction that is suspended (R73, R228): where nothing has been written since the last
checkpoint, what has been read since then is read again from memory. -/
def keptWork (j : List Ev) : List Ev :=
  let since := j.takeWhile fun x => x != .mark
  if since.all fun x => match x with
    | .data _ _ => true
    | _ => false
  then j.drop since.length else j

/-- What is kept of the accesses of a MOVE that is suspended: those before its last 256-byte boundary (R280). -/
def keptMove (j : List Ev) : List Ev := j.dropWhile fun x => x != .mark && x != .edge

/-! ## Translation and protection (R200, R296) -/

/-- The outcome of a translation. -/
inductive Xlat where
  | dev (a : Nat)
  | fault (r : Reason) (pte : Bool)
  | absent (page : Nat)
  deriving DecidableEq, Repr

/-- Translate one context address for a read or a write. A poisoned page-table entry stops the access (R424). -/
def xlat (s : State) (c : Nat) (write : Bool) (a : Nat) : Xlat :=
  if a < 2 ^ 40 then
    match mappingOf s c (a / 2 ^ 21) with
    | none => .fault .translationFault false
    | some (p, m) =>
      if m.poisoned then .fault .poisonControl true
      else if (if write then m.write else m.read) then
        if m.present then .dev (m.frame * 2 ^ 21 + (a - p * 2 ^ 21)) else .absent p
      else .fault .protectionFault false
  else if isSp a then (if granted s c a then .dev a else .fault .translationFault false)
  else .fault .translationFault false

/-- Size of the unit in which a context address is mapped or granted: a 2 MiB page, or 64 KiB of a scratchpad (R296). -/
def pageSize (a : Nat) : Nat := if a < 2 ^ 40 then 2 ^ 21 else 2 ^ 16

/-- More pieces than a range of n bytes has. -/
def pieceFuel (n : Nat) : Nat := n / 2 ^ 16 + 2

/-- Pieces of a range that stay inside one page each; fuel counts pages. -/
def pagePieces : Nat → Nat → Nat → List (Nat × Nat)
  | 0, _, _ => []
  | f + 1, a, n =>
    if n = 0 then []
    else
      let k := min n (pageSize a - a % pageSize a)
      (a, k) :: pagePieces f (a + k) (n - k)

/-- Use clears the AGE of a page (Table 13.4). -/
def useAge (c a : Nat) (s : State) : State :=
  if a < 2 ^ 40 then
    match mappingOf s c (a / 2 ^ 21) with
    | some (p, _) => setMapping c p (fun m => { m with age := 0 }) s
    | none => s
  else s

/-- Translate a range page by page, before any of it is accessed (R202). -/
def xlatRange (e : Env) (write : Bool) : List (Nat × Nat) → Eng (List (Nat × Nat))
  | [] => pure []
  | (a, n) :: r => do
    let s ← get
    match xlat s e.ctx write a with
    | .fault f pte => failE f (some (if pte then (pteAddr s e.ctx a, true) else (a, false)))
    | .absent p =>
      match e.failed with
      | some (q, code) =>
        if p = q then failE ((reasonOf code).getD .pageFetchFault) (some (a, false)) else throw (.page e.ctx p)
      | none => throw (.page e.ctx p)
    | .dev d => do
      modify (useAge e.ctx a)
      let t ← xlatRange e write r
      pure ((d, n) :: t)

/-- Device pieces of a context range. -/
def pieces (e : Env) (write : Bool) (a n : Nat) : Eng (List (Nat × Nat)) :=
  xlatRange e write (pagePieces (pieceFuel n) a n)

/-! ## The fabric (R421) -/

/-- Bursts of a range whose CRC fails on the fabric: each failure is counted, a second one delivers poison and writes a
record. Answers whether the data is poisoned. (DEDUCED, log 31) -/
def fabricCheck (e : Env) (a n : Nat) (s : State) : Bool × State :=
  (unitsOf 32 a n).foldl (fun (acc : Bool × State) b =>
    match tget 0 acc.2.fabricBad b with
    | 0 => acc
    | 1 => (acc.1, bumpE 0x6000 7 { acc.2 with fabricBad := terase acc.2.fabricBad b })
    | _ =>
      (true, stageRec (dieOf e.core) { unit := e.unit, reason := .fabricCrc, core := e.core, ctx := e.ctx,
                                       addr := some (b, true) }
        (bumpE 0x6000 7 (bumpE 0x6000 7 { acc.2 with fabricBad := terase acc.2.fabricBad b })))) (false, s)

/-- The access crosses the fabric: it is not to the core's own scratchpad. -/
def crosses (e : Env) (a : Nat) : Bool := !(isSp a && spCore a == e.core)

/-! ## Link packets: the part that senders share (R350, R352) -/

/-- The peer of a port is a module of this board. -/
def peerIs (s : State) (m p : Nat) : Bool :=
  match (link s p).peer with
  | some i => i.module.val == m && i.board.val == boardOf s && i.pod.val == podOf s
  | none => false

/-- A port in state UP leads to a module of this board. -/
def portLeadsTo (s : State) (m p : Nat) : Bool := (link s p).state == 3 && peerIs s m p

/-- UP ports towards a module, ascending. -/
def portsTo (s : State) (m : Nat) : List Nat := (List.range 24).filter fun p => portLeadsTo s m p

/-- Ports towards a module that are UP or RETRAINING: a retrain keeps its channels (R346). (DEDUCED, log 87) -/
def pinPorts (s : State) (m : Nat) : List Nat :=
  (List.range 24).filter fun p => ((link s p).state == 3 || (link s p).state == 5) && peerIs s m p

/-- A module of the board is reachable (R352). -/
def reachable (s : State) (m : Nat) : Bool := !(portsTo s m).isEmpty

/-- Bytes waiting for acknowledgement on a port. -/
def queuedBytes (s : State) (p : Nat) : Nat := ((link s p).replay.map fun r => 32 + r.2.data.length).sum

/-- The port with the fewest bytes queued, the lowest among equals. -/
def leastLoaded (s : State) : List Nat → Nat
  | [] => 0
  | p :: r => r.foldl (fun b q => if queuedBytes s q < queuedBytes s b then q else b) p

/-- The channel, seal or address range that pins a packet to a port (R350). -/
def chanKey (k : Packet) : Option (Nat × Nat) :=
  if k.type = 4 then some (4, k.srcCore * 2 ^ 20 + k.dstCore * 32 + k.label % 32)
  else if k.type = 5 then some (5, k.addr)
  else if k.type = 1 then some (1, k.addr / 4096)
  else none

/-- The number whose remainder picks the port of a pinned packet (R350). -/
def pinNumber (k : Packet) : Nat :=
  if k.type = 4 then k.srcCore + k.dstCore + k.label % 32 else if k.type = 5 then k.addr else k.addr / 4096

/-- A packet of the same channel to the same module. -/
def sameChan (k l : Packet) : Bool := l.dst == k.dst && chanKey l == chanKey k

/-- The port of R350 for a packet, none while it must wait: a channel stays on the port that holds an unacknowledged packet of
it, and waits while that port retrains or an earlier packet of it waits. (DEDUCED, log 87) -/
def portFor (s : State) (k : Packet) : Option Nat :=
  match chanKey k with
  | none =>
    let ps := portsTo s k.dst
    if ps.isEmpty then none else some (leastLoaded s ps)
  | some _ =>
    if s.linkHeld.any (sameChan k) then none
    else
      let ps := pinPorts s k.dst
      let pick := match ps.find? (fun p => (link s p).replay.any fun r => sameChan k r.2) with
        | some p => some p
        | none => ps[pinNumber k % ps.length]?
      pick.filter fun p => (link s p).state == 3

/-- LABEL of a packet; that of a WRITE carries the serial number of its instruction above bit 15. (DESIGN CHOICE, log 73) -/
def wireLabel (k : Packet) : Nat := if k.type = 1 then k.label + k.serial * 2 ^ 16 else k.label

/-- The header of a packet on a port, without its CRC (Table 16.2). -/
def packetHeader (s : State) (k : Packet) (seq ack : Nat) : Nat :=
  packFields [(252, 4, k.type), (248, 4, 1), (232, 16, seq), (216, 16, ack), (215, 1, b2n k.poison), (214, 1, b2n k.express),
    (206, 8, cdiv k.data.length 32), (203, 3, moduleOf s), (200, 3, k.dst), (193, 7, k.srcCore), (186, 7, k.dstCore),
    (174, 12, k.ctx), (112, 48, k.addr), (96, 16, k.tag), (32, 64, wireLabel k)]

/-- The bytes of a packet on the wire: header in network order, then the payload (R342). -/
def packetBytes (s : State) (k : Packet) (seq ack : Nat) : List Byte :=
  let h := packetHeader s k seq ack
  let hb := toBe 32 h
  let crc := crc32c (hb.take 28 ++ k.data)
  hb.take 28 ++ toBe 4 crc ++ k.data

/-- Put a packet on the wire of a port under a sequence number. -/
def wire (p seq : Nat) (k : Packet) (s : State) : State :=
  emit (.link (Fin.ofNat 24 p) (packetBytes s k seq (link s p).rxSeq.toNat)) s

/-- Send a packet on a port: it is numbered, kept for replay and counted (R344). -/
def sendOn (p : Nat) (k : Packet) (s : State) : State :=
  let l := link s p
  setLink p (fun l => { l with txSeq := l.txSeq + 1, replay := l.replay ++ [(l.txSeq.toNat, k)],
                               txBytes := l.txBytes + BitVec.ofNat 64 k.data.length }) (wire p l.txSeq.toNat k s)

/-- Send a packet to a module of the board, or hold it while it must wait (R350, R352). -/
def sendPacket (k : Packet) (s : State) : State :=
  match portFor s k with
  | some p => sendOn p k s
  | none => { s with linkHeld := s.linkHeld ++ [k] }

/-- Packets that waited are tried again in order. -/
def flushHeld (s : State) : State := s.linkHeld.foldl (fun s k => sendPacket k s) { s with linkHeld := [] }

/-! ## Beyond the board (R357) -/

/-- The module that manages this board: the lowest with a manager's strap that is seen, itself included (R353). -/
def managerOf (s : State) : Nat :=
  let seen := (List.range 24).filterMap fun p =>
    if (link s p).state == 3 then
      (link s p).peer.bind fun i => if i.role.val != 0 && i.board.val == boardOf s then some i.module.val else none
    else none
  (seen ++ if roleOf s = 0 then [] else [moduleOf s]).foldl min 8

/-- Module, board and pod of an identity. -/
def identParts (i : Nat) : Nat × Nat × Nat := (bits i 2 0, bits i 8 3, bits i 14 9)

/-- An identity on this board. -/
def onBoard (s : State) (i : Nat) : Bool := bits i 8 3 == boardOf s && bits i 14 9 == podOf s

/-- A packet for another board goes to the board manager that the peer table names; without an entry it waits (R357). -/
def relayOut (i : Nat) (k : Packet) (s : State) : State :=
  match s.hier.peerTable.find? fun e => e.1 == i / 8 with
  | some e => emit (.relay e.2 (packetBytes s { k with dst := i % 8 } 0 0)) s
  | none => { s with hier := { s.hier with held := s.hier.held ++ [(i, k)] } }

/-- Send a packet towards an identity: over the links on this board; else by way of this board's manager. -/
def routeTo (i : Nat) (k : Packet) (s : State) : State :=
  if onBoard s i then sendPacket { k with dst := i % 8 } s
  else if managerOf s = moduleOf s ∨ managerOf s = 8 then relayOut i k s
  else sendPacket { k with dst := managerOf s } s

/-! ## Stamps (R249-R252) -/

/-- Lists of work done in order. -/
def eachE {α : Type} (f : α → Eng Unit) : List α → Eng Unit
  | [] => pure ()
  | x :: r => do
    f x
    eachE f r

/-- Work in order that carries what it has found so far. -/
def foldE {α β : Type} (f : β → α → Eng β) : β → List α → Eng β
  | b, [] => pure b
  | b, x :: r => do
    let c ← f b x
    foldE f c r

/-- A number of the state as the work first saw it. -/
def seeE (f : State → Nat) : Eng Nat := do
  let (b, _) ← noted (do
    let s ← get
    pure (toLe 16 (f s), []))
  pure (ofLe b)

/-- The account of a core for a context and a destination. -/
def accountOf (s : State) (c ctx m d : Nat) : Option Account :=
  (core s c).accounts.find? fun a => a.ctx == ctx && a.module == m && a.dest == d

/-- Change an account. -/
def setAccount (c ctx m d : Nat) (f : Account → Account) (s : State) : State :=
  setCore c (fun x => { x with accounts := lreplace (fun a => a.ctx == ctx && a.module == m && a.dest == d) f x.accounts }) s

/-- Take a stamp for a burst into a scratchpad of another core. No account faults, one with no stamp in hand waits (R251). The stamp
of a burst on this module comes back once the burst is written. -/
def takeStamp (e : Env) (m d addr : Nat) : Eng Unit := do
  let s ← get
  match accountOf s e.core e.ctx m d with
  | none => failE .noStamps (some (addr, false))
  | some a =>
    if a.inHand = 0 then throw .stall
    else
      let s := setAccount e.core e.ctx m d (fun a => { a with inHand := a.inHand - 1, inFlight := a.inFlight + 1 }) s
      set (if m = moduleOf s then
             { s with stampsBack := s.stampsBack ++ [{ core := e.core, ctx := e.ctx, module := m, dest := d, count := 1 }] }
           else s)

/-! ## Loads and stores of the engines -/

/-- Read device bytes with every check on the way; answers the bytes and whether any is poisoned. -/
def devLoad (e : Env) (cls : Class) (alloc : Bool) (a n : Nat) : Eng (List Byte × Bool) := do
  let s ← get
  let s := noteRead cls alloc a n s
  let (fp, s) := if crosses e a then fabricCheck e a n s else (false, s)
  set s
  pure (devBytes s a n, fp || poisonedRange s a n)

/-- Read device pieces in order. -/
def devLoads (e : Env) (cls : Class) (alloc : Bool) : List (Nat × Nat) → Eng (List Byte × Bool)
  | [] => pure ([], false)
  | (a, n) :: r => do
    let (b, p) ← devLoad e cls alloc a n
    let (b', p') ← devLoads e cls alloc r
    pure (b ++ b', p || p')

/-- The DETAIL that names a peer module of the board (Table 20.5). -/
def peerDetail (s : State) (m : Nat) : Nat := (m + boardOf s * 8 + podOf s * 512) * 2 ^ 16

/-- A wait on another module of the board: LINK_DOWN once it is unreachable and no port to it still holds packets (R352). -/
def awaitPeer {α : Type} (s : State) (m a : Nat) (stop : Stop) : Eng α :=
  if reachable s m then throw stop
  else if (pinPorts s m).isEmpty then failE .linkDown (some (a, false)) (peerDetail s m)
  else throw .stall

/-- A read of another module: answered from what has arrived, each answer once, or asked for (R191, R198, R351, R352). -/
def remoteLoad (e : Env) (m a n : Nat) : Eng (List Byte × Bool) := do
  let s ← get
  let isIt := fun (r : RemoteRead) => r.ctx == e.ctx && r.core == e.core && r.module == m && r.addr == a && r.len == n && r.serial == e.serial
  match s.reads.findIdx? isIt with
  | some k =>
    match (s.reads[k]?).bind fun r => r.answer with
    | some (b, p, f) =>
      set { s with reads := ldrop s.reads k }
      match reasonOf f with
      | some x => failE x (some (a, false)) (if x = .linkDown then peerDetail s m else 0)
      | none => pure (b, p)
    | none => awaitPeer s m a .stall
  | none => awaitPeer s m a (.remote m a n)

/-- A poison mark over a whole access. -/
def wholeMark (p : Bool) : List Nat := if p then [0] else []

/-- Read context memory on a module. -/
def loadOn (e : Env) (alloc : Bool) (m a n : Nat) : Eng (List Byte × Bool) := do
  let (b, marks) ← noted (do
    let s ← get
    let (b, p) ← if m = moduleOf s then do
        let ps ← pieces e false a n
        devLoads e .read alloc ps
      else remoteLoad e m a n
    pure (b, wholeMark p))
  pure (b, !marks.isEmpty)

/-- Read context memory of this module. -/
def load (e : Env) (a n : Nat) : Eng (List Byte × Bool) := do
  loadOn e e.alloc (moduleOf (← get)) a n

/-- Write one device piece for an engine; a burst into another core's scratchpad takes a stamp and meets a closed bank (R251, R415).
Lines written are remembered for the torn mark (R266). -/
def devStore (e : Env) (alloc : Bool) (p : Bool) (a : Nat) (ctxAddr : Nat) (bs : List Byte) : Eng Unit := do
  let s ← get
  if isSp a && spCore a != e.core then
    takeStamp e (moduleOf s) (spCore a) ctxAddr
    let s ← get
    if banksClosed s then
      set (stageRec (dieOf (spCore a)) { unit := .scratchpad, reason := .bankAsleep, core := spCore a, ctx := e.ctx,
                                         addr := some (a, true) } (bumpE 0x5000 0xF s))
      failE .bankAsleep (some (ctxAddr, false))
  let s ← get
  let (fp, s) := if crosses e a then fabricCheck e a bs.length s else (false, s)
  let s := devWrite .write alloc a bs (p || fp) s
  set (if isSp a then { s with wrote := (unitsOf 128 a bs.length).foldl nins s.wrote } else s)

/-- Cut a piece that goes into another core's scratchpad into bursts of 32 B, each of which takes a stamp of its own (R251); any other
stays whole. -/
def burstPieces (e : Env) (a n : Nat) : List (Nat × Nat) :=
  if isSp a && spCore a != e.core then
    (unitsOf 32 a n).map fun u => (max u a, min (u + 32) (a + n) - max u a)
  else [(a, n)]

/-- Write pieces of a context range in order, each inside one page: every one is translated again, and made once. -/
def storePieces (e : Env) (alloc : Bool) (p : Bool) : List (Nat × Nat) → List Byte → Eng Unit
  | [], _ => pure ()
  | (a, n) :: r, bs => do
    once (do
      let ps ← xlatRange e true [(a, n)]
      match ps with
      | (d, _) :: _ => devStore e alloc p d a (bs.take n)
      | [] => pure ())
    storePieces e alloc p r (bs.drop n)

/-- Packets that carry a write to another module: into HBM cut at 4,096 B, into a scratchpad one for each burst; a poisoned unit
travels apart (R342, R343). -/
def writePackets (e : Env) (m a : Nat) (p : Bool) (bs : List Byte) : List Packet :=
  let z := if p || isSp a then 32 else 4096
  let parts := if isSp a then (unitsOf 32 a bs.length).map fun u => ((bs.drop (u - a)).take (min (u + 32) (a + bs.length) - max u a))
    else chunks z bs
  (List.range parts.length).map fun i =>
    { type := 1, poison := p, dst := m, srcCore := e.core, dstCore := if isSp a then spCore a else 0, ctx := e.ctx,
      addr := if i = 0 ∨ !(isSp a) then a + z * i else a / 32 * 32 + 32 * i, data := parts.getD i [], serial := e.serial }

/-- Send a packet of a write to a module: a burst into a scratchpad takes a stamp (R251), and its line is remembered (R266). -/
def sendWrite (e : Env) (a : Nat) (k : Packet) : Eng Unit := once (do
  let s ← get
  if reachable s k.dst then do
    if isSp k.addr then takeStamp e k.dst (spCore k.addr) a
    modify (sendPacket k)
    if isSp k.addr then modify fun s => { s with wroteFar := s.wroteFar ++ [(k.dst, k.addr / 128 * 128)] }
  else awaitPeer s k.dst a .stall)

/-- Write context memory on a module. -/
def storeOn (e : Env) (alloc : Bool) (m a : Nat) (bs : List Byte) (p : Bool) : Eng Unit := do
  let s ← get
  if m = moduleOf s then
    once (do
      let _ ← pieces e true a bs.length)
    storePieces e alloc p ((pagePieces (pieceFuel bs.length) a bs.length).flatMap fun x => burstPieces e x.1 x.2) bs
  else
    eachE (sendWrite e a) (writePackets e m a p bs)

/-- Write context memory of this module. -/
def store (e : Env) (a : Nat) (bs : List Byte) (p : Bool) : Eng Unit := do
  storeOn e e.alloc (moduleOf (← get)) a bs p

/-- One atomic operation has been applied (R271): ATOMIC_OPS counts it. -/
def atomicDone : Eng Unit := act (addTotal 0x3800 7 1)

/-- Read control data: poison in it stops the unit (R203, R424). -/
def loadControl (e : Env) (a n : Nat) : Eng (List Byte) := do
  let (b, p) ← load e a n
  if p then failE .poisonControl (some (a, false)) else pure b

/-- Read control data as a little-endian word. -/
def loadWord (e : Env) (a n : Nat) : Eng Nat := do
  let b ← loadControl e a n
  pure (ofLe b)

/-- The notice that tears a line of another module's scratchpad: a WRITE of nothing, which the writes before it to that line go ahead
of (R266). (DESIGN CHOICE, log 73) -/
def tearNotice (c ctx serial : Nat) (x : Nat × Nat) : Packet :=
  { type := 1, dst := x.1, srcCore := c, dstCore := spCore x.2, ctx := ctx, addr := x.2, label := 2, serial := serial }

/-- After a fault of an instruction: the lines it has written since its last checkpoint are torn, here and on other modules, and
forgotten (R266). -/
def tearAll (c ctx serial : Nat) (s : State) : State :=
  let far := s.wroteFar.eraseDups
  let s := { s.wrote.foldl (fun s l => tearLine l s) s with wrote := [], wroteFar := [] }
  far.foldl (fun s x => sendPacket (tearNotice c ctx serial x) s) s

/-! ## Reads and writes of units that are no engine of a core -/

/-- Translate for a unit, without waiting: none where the range faults or a page is absent. (DEDUCED, log 33) -/
def unitPieces (s : State) (c : Nat) (write : Bool) (a n : Nat) : Option (List (Nat × Nat)) :=
  (pagePieces (pieceFuel n) a n).foldr (fun x acc =>
    match acc, xlat s c write x.1 with
    | some l, .dev d => some ((d, x.2) :: l)
    | _, _ => none) (some [])

/-- The first outcome that is not a device address, for a unit's report. (DEDUCED, log 33) -/
def unitFault (s : State) (c : Nat) (write : Bool) (a n : Nat) : Option Xlat :=
  ((pagePieces (pieceFuel n) a n).map fun x => xlat s c write x.1).find? fun x =>
    match x with
    | .dev _ => false
    | _ => true

/-- A miss on an absent hosted page: it joins the misses in arrival order, once (R300). -/
def noteMiss (ctx page : Nat) (pre : Bool) (s : State) : State :=
  if s.misses.any (fun m => m.ctx == ctx && m.page == page) then s
  else { s with misses := s.misses ++ [{ ctx := ctx, page := page, prefetch := pre }] }

/-- A unit uses a range: its pages' AGE is cleared (Table 13.4). -/
def unitUse (c a n : Nat) (s : State) : State := (pagePieces (pieceFuel n) a n).foldl (fun s x => useAge c x.1 s) s

/-- Read translated pieces of a unit. -/
def unitRead (cls : Class) (alloc : Bool) (ps : List (Nat × Nat)) (s : State) : List Byte × Bool × State :=
  ps.foldl (fun acc x =>
    let s := noteRead cls alloc x.1 x.2 acc.2.2
    (acc.1 ++ devBytes s x.1 x.2, acc.2.1 || poisonedRange s x.1 x.2, s)) ([], false, s)

/-- Write translated pieces of a unit. -/
def unitWrite (cls : Class) (alloc : Bool) (p : Bool) : List (Nat × Nat) → List Byte → State → State
  | [], _, s => s
  | (a, n) :: r, bs, s => unitWrite cls alloc p r (bs.drop n) (devWrite cls alloc a (bs.take n) p s)

/-! ## Seals (R253-R255) -/

/-- The physical seal a virtual ID of a context is bound to. -/
def sealOf (s : State) (ctx : Nat) (id : Nat) : Option Nat :=
  (s.seals.find? fun e => e.2.owner == some ctx && e.2.sealId.toNat == id).map (·.1)

/-- Apply an update of a seal, and trace it with the new COUNT (R254, R428). -/
def sealApply (p amount : Nat) (s : State) : State :=
  let x := sealAt s p
  let n := (x.count.toNat + amount) % 2 ^ 32
  let s := setSeal p (fun x => { x with count := BitVec.ofNat 32 n }) s
  trace (p / 2048) { tkind := 2, value := n, ctx := x.owner.getD 0, sealId := x.sealId.toNat, aux := p + x.gen.toNat * 4096 } s

/-- Seals not bound (SEALS_FREE). -/
def sealsFree (s : State) : Nat := 4096 - (s.seals.filter fun e => e.2.owner.isSome).length

/-- A wait is met: the count less the target is at least zero as a signed difference (R215). -/
def waitMet (s : State) (w : Nat × Word32) : Bool := decide (0 ≤ sdiff32 (sealAt s w.1).count.toNat w.2.toNat)

/-! ## A chain slot's entries (Table 2.11) -/

/-- D of a chain slot. -/
def chD (s : State) (k : Nat) : Nat := reg s (0x3110 + k) 5
/-- K of a chain slot. -/
def chK (s : State) (k : Nat) : Nat := reg s (0x3110 + k) 6
/-- log2 N of a chain slot. -/
def chLog2N (s : State) (k : Nat) : Nat := reg s (0x3110 + k) 4
/-- Number of digits of a chain slot. -/
def chDigits (s : State) (k : Nat) : Nat := reg s (0x3110 + k) 7
/-- PSET of a chain slot. -/
def chPset (s : State) (k : Nat) : Nat := reg s (0x3110 + k) 3
/-- Postcode of a chain position. -/
def chPost (s : State) (k i : Nat) : Nat := reg s (0x3110 + k) (0x10 + i)

/-- The modulus of a postcode (Table 2.8). -/
def modulus (s : State) (post : Nat) : Nat := bits (tget 0 s.modTable post).toNat 35 0

/-- The modulus of a chain position. -/
def chQ (s : State) (k i : Nat) : Nat := modulus s (chPost s k i)

end Sys2Proof.Machine
end

