-- ==== Sys2Proof/Machine/Operands.lean ====
section
/-! DEFINITION. Operand forms of the instruction word: control-word fields, operation-word fields, and the address generators each opcode uses. -/

namespace Sys2Proof.Machine

/-! ## Control word (Table 10.2) -/

/-- CLASS. -/
def iClass (w : Nat) : Nat := bits w 127 124
/-- REPEAT_M1. -/
def iRepM1 (w : Nat) : Nat := bits w 123 116
/-- WAIT_EN. -/
def iWaitEn (w : Nat) : Bool := bit w 115
/-- WAIT_SLOT. -/
def iWaitSlot (w : Nat) : Nat := bits w 114 111
/-- WAIT_STEP. -/
def iWaitStep (w : Nat) : Nat := bits w 110 107
/-- SIG_EN. -/
def iSigEn (w : Nat) : Bool := bit w 106
/-- SIG_SLOT. -/
def iSigSlot (w : Nat) : Nat := bits w 105 102
/-- SIG_WHEN. -/
def iSigWhen (w : Nat) : Nat := bits w 101 100
/-- Reserved bits of the control word. -/
def iRsv (w : Nat) : Nat := bits w 99 96
/-- PM_SEQ. -/
def iPmSeq (w : Nat) : Nat := bits w 95 64
/-- OPCODE of every class. -/
def iOpcode (w : Nat) : Nat := bits w 63 56

/-! ## Address-generator fields -/

/-- First generator field (bits 55:53). -/
def ag0 (w : Nat) : Nat := bits w 55 53
/-- Second generator field (bits 52:50). -/
def ag1 (w : Nat) : Nat := bits w 52 50
/-- Third generator field (bits 49:47). -/
def ag2 (w : Nat) : Nat := bits w 49 47
/-- Fourth generator field (bits 46:44). -/
def ag3 (w : Nat) : Nat := bits w 46 44

/-- A generator field where a condition says it is used. -/
def useIf (b : Bool) (g : Nat) : Option Nat := if b then some g else none

/-- Opcodes of POLY with a source B, or the scratch of RESCALE (Tables 3.7, 3.8). -/
def polyUsesB (op : Nat) : Bool := [0x20, 0x21, 0x24, 0x25, 0x28, 0x31].contains op
/-- Opcodes of POLY with a conversion table (R63). -/
def polyUsesAux (op : Nat) : Bool := [0x26, 0x27, 0x30, 0x31].contains op
/-- Opcodes of POLY with a source A. -/
def polyUsesA (op : Nat) : Bool := op != 0x3D

/-- Opcodes of VEC with an operand B (Table 8.2). -/
def vecUsesB (op : Nat) : Bool :=
  [0x01, 0x02, 0x03, 0x04, 0x05, 0x06, 0x0A, 0x0B, 0x20, 0x21, 0x22, 0x24, 0x25, 0x26, 0x27, 0x28, 0x38].contains op
/-- Opcodes of VEC with an operand C. -/
def vecUsesC (op : Nat) : Bool := [0x04, 0x0B, 0x38].contains op

/-- The generators the fields of an instruction use, in field order: DST, A, B, C or AUX; LIST, REF; ENV; DST, SRC.
A field that the opcode ignores reads none (R222). -/
def agUse (w : Nat) : List (Option Nat) :=
  let op := iOpcode w
  match iClass w with
  | 2 => [some (ag0 w), useIf (polyUsesA op) (ag1 w), useIf (polyUsesB op) (ag2 w), useIf (polyUsesAux op) (ag3 w)]
  | 3 => [some (ag0 w), some (ag1 w)]
  | 4 => [some (ag0 w), some (ag1 w), useIf ([1, 3, 4].contains op) (ag2 w), useIf (op != 1) (ag3 w)]
  | 5 => [useIf (bits w 25 24 != 0) (ag0 w), some (ag1 w), useIf (!(bit w 26)) (ag2 w), useIf (bit w 29) (ag3 w)]
  | 6 =>
    if op = 0x3C then [none, some (ag1 w), none, none]
    else if op = 0x3D then [some (ag0 w), none, none, none]
    else [useIf (!(bit w 37)) (ag0 w), useIf (bits w 43 42 == 0) (ag1 w),
          useIf (vecUsesB op && bits w 41 40 == 0) (ag2 w), useIf (vecUsesC op && bits w 39 38 == 0) (ag3 w)]
  | 7 => [useIf ([1, 2, 3, 8].contains op) (ag0 w)]
  | 8 => [useIf ([1, 3].contains op) (ag0 w), useIf ([1, 2, 8].contains op) (ag1 w)]
  | _ => []

/-- The issue queue of an instruction (R213). -/
def queueOf (w : Nat) : Option QueueId :=
  match iClass w with
  | 2 => some .poly
  | 3 => some .courier
  | 4 => some (if iOpcode w = 2 then .gateArray else .gateLane)
  | 5 => some .mm
  | 6 => some .vec
  | 7 => some .msg
  | 8 => some .move
  | _ => none

/-- The unit that executes a queue (Table 20.3). -/
def unitOf : QueueId → FaultUnit
  | .poly => .poly
  | .courier => .courier
  | .gateArray => .gate
  | .gateLane => .gate
  | .mm => .array
  | .vec => .vec
  | .msg => .msg
  | .move => .mover

/-- Opcodes that a class lists; any other is reserved (R9). -/
def opcodeListed (w : Nat) : Bool :=
  let op := iOpcode w
  match iClass w with
  | 2 => [0x10, 0x11, 0x14, 0x20, 0x21, 0x22, 0x24, 0x25, 0x26, 0x27, 0x28, 0x2C, 0x30, 0x31, 0x38, 0x3C, 0x3D].contains op
  | 3 => op == 1
  | 4 => [1, 2, 3, 4, 8, 9].contains op
  | 5 => op == 1
  | 6 => decide (1 ≤ op ∧ op ≤ 0x0B) || decide (0x10 ≤ op ∧ op ≤ 0x19) || decide (0x20 ≤ op ∧ op ≤ 0x28) ||
         decide (0x30 ≤ op ∧ op ≤ 0x34) || op == 0x38 || op == 0x3C || op == 0x3D
  | 7 => [1, 2, 3, 4, 5, 8, 9, 0x10, 0x11, 0x18, 0x19, 0x1A, 0x1B].contains op
  | 8 => [1, 2, 3, 8].contains op
  | _ => false

/-- Repeats of an instruction: G_REFRESH carries its own field (R217). -/
def repCount (w : Nat) : Nat := if iClass w = 4 ∧ iOpcode w = 3 then bits w 39 38 + 1 else iRepM1 w + 1

/-! ## Operation word of MM (Table 6.7) -/

/-- FMT_A. -/
def mmFmtA (w : Nat) : Nat := bits w 43 40
/-- FMT_B. -/
def mmFmtB (w : Nat) : Nat := bits w 39 36
/-- OUT_FMT. -/
def mmOut (w : Nat) : Nat := bits w 35 32
/-- SHAPE. -/
def mmShape (w : Nat) : Nat := bits w 31 30
/-- ACC_IN. -/
def mmAccIn (w : Nat) : Bool := bit w 29
/-- SAT. -/
def mmSat (w : Nat) : Bool := bit w 28
/-- SATFIN. -/
def mmSatfin (w : Nat) : Bool := bit w 27
/-- B_RELAY. -/
def mmRelay (w : Nat) : Bool := bit w 26
/-- ROUTE. -/
def mmRoute (w : Nat) : Nat := bits w 25 24
/-- PROLOGUE. -/
def mmPro (w : Nat) : Nat := bits w 23 18
/-- EPILOGUE. -/
def mmEpi (w : Nat) : Nat := bits w 17 12

/-- Both formats are integers, so the accumulation is INT32. -/
def mmInt (w : Nat) : Bool := decide (mmFmtA w < 4)

/-- Rows of a tile (Table 6.1). -/
def tileRows (shape : Nat) : Nat := if shape = 1 then 64 else 128

/-- Columns of a tile. -/
def tileCols (shape : Nat) (bf16 : Bool) : Nat :=
  let c := if shape = 2 then 64 else 128
  if bf16 then c / 2 else c

/-! ## Queues of a core -/

/-- The entries of an issue queue. -/
def queue (x : Core) : QueueId → List Issued
  | .poly => x.qPoly
  | .courier => x.qCourier
  | .gateArray => x.qGateArray
  | .gateLane => x.qGateLane
  | .mm => x.qMm
  | .vec => x.qVec
  | .msg => x.qMsg
  | .move => x.qMove

/-- Replace an issue queue. -/
def setQueue (x : Core) (q : QueueId) (l : List Issued) : Core :=
  match q with
  | .poly => { x with qPoly := l }
  | .courier => { x with qCourier := l }
  | .gateArray => { x with qGateArray := l }
  | .gateLane => { x with qGateLane := l }
  | .mm => { x with qMm := l }
  | .vec => { x with qVec := l }
  | .msg => { x with qMsg := l }
  | .move => { x with qMove := l }

/-- Every queue of a core. -/
def allQueues : List QueueId := [.poly, .courier, .gateArray, .gateLane, .mm, .vec, .msg, .move]

/-- Address of a field of an instruction at a repeat: field order as `agUse`. -/
def addrOf (i : Issued) (r field : Nat) : Nat := (i.addrs.getD r []).getD field 0

end Sys2Proof.Machine
end

