-- ==== Sys2Proof/Machine/Issue.lean ====
section
/-! DEFINITION. What every engine shares: taking the head of an issue queue, running its repeats, ending an instruction with or without a fault, retirement, signals, waits; the write-back and halt of a stream. -/

namespace Sys2Proof.Machine

/-! ## Power and dispatch conditions -/

/-- The device is in RUN, no entry or exit is under way (R414), and the cores are not held in reset by RECOVERY (R384). (DEDUCED, log 99) -/
def running (s : State) : Bool := s.power.state == 0 && !s.power.entering && !s.power.exiting && s.island.state != 2

/-- A context's work is out of a core: its save or its restore is under way there (R228, R304). -/
def stopped (s : State) (c ctx : Nat) : Bool := nmem (core s c).saving ctx || nmem (core s c).restoring ctx

/-- A context is to stop on a core, and has not stopped yet: its engines go on to their next checkpoint (R227, R228). -/
def stopping (s : State) (c ctx : Nat) : Bool := nmem (core s c).stopping ctx || (context s ctx).express.isSome

/-- The chain slot of a context admits dispatch: none is needed, or it is ACTIVE (R47). -/
def chainReady (s : State) (ctx : Nat) : Bool :=
  !ctxChained s ctx || (chain s (ctxChain s ctx)).state = .active

/-! ## Postmarks and records of an instruction -/

/-- The postmark of an instruction (R219, Table 10.4). -/
def postmarkOf (s : State) (c ctx w : Nat) : Nat :=
  packFields [(61, 3, moduleOf s), (57, 4, iClass w), (50, 7, c), (32, 12, ctx), (0, 32, iPmSeq w)]

/-- Where an instruction stood, for its record. -/
def ringInfo (i : Issued) : RingInfo := { index := i.index.toNat, slot := i.imemSlot, loops := i.loops }

/-- The record of an engine's fault on an instruction (R36, R425). (DEDUCED, log 110) -/
def faultRec (c : Nat) (q : QueueId) (i : Issued) (f : FaultInfo) : Rec :=
  { unit := unitOf q, reason := f.reason, cause := f.cause, core := c, ctx := i.ctx, addr := f.addr,
    postmark := some i.postmark.toNat, ring := some (ringInfo i), detail := f.detail }

/-! ## Retirement (R205, R216, R224) -/

/-- The lowest index a stream's RETIRED may not pass yet. -/
def retireBound (t : Stream) : Word32 :=
  let top : Word32 := match t.loops.getLast? with
    | some l => l.start + 1
    | none => t.next
  t.inflight.foldl (fun b f =>
    if f.done = true then b else if sdiff32 f.floor.toNat b.toNat < 0 then f.floor else b) top

/-- Blocks of instruction memory that a stream pins by its loops. -/
def pinnedBlocks (t : Stream) : List Nat := t.loops.flatMap fun l => l.pinned

/-- A block of instruction memory handed back: its generation stays (R209). -/
def freeBlock (b : ImemBlock) : ImemBlock := { b with ctx := none, fill := 0, words := [], poisoned := [], eccBad := [] }

/-- RETIRED moves to its bound; blocks it has passed and no loop pins are freed (R210). -/
def advanceRetired (c ctx : Nat) (s : State) : State :=
  let t := stream s ctx c
  let r := retireBound t
  let r := if sdiff32 r.toNat t.retired.toNat < 0 then t.retired else r
  let s := setStream ctx c (fun t => { t with retired := r, inflight := t.inflight.filter fun f => !f.done }) s
  let pins := pinnedBlocks t
  let free := fun (b : ImemBlock) =>
    b.ctx == some ctx && decide (0 ≤ sdiff32 r.toNat ((b.ringBlock + 1) * 256)) && !(pins.contains b.ringBlock)
  setCore c (fun x => { x with imem := x.imem.map fun b => if free b then freeBlock b else b }) s

/-- The instruction with a serial number has retired or faulted. -/
def markDone (c ctx serial : Nat) (s : State) : State :=
  advanceRetired c ctx (setStream ctx c (fun t => { t with
    inflight := lreplace (fun f => f.serial == serial) (fun f => { f with done := true }) t.inflight }) s)

/-- A signal of +1 to a bound seal (R216), on its way. -/
def signalMsg (ctx : Nat) (r : SealRef) : SealMsg :=
  { phys := r.phys, gen := r.gen, amount := 1, ctx := ctx, sealId := r.sealId, fromImport := r.proxy }

/-- Put seal updates on their way. -/
def sendSeals (l : List SealMsg) (s : State) : State := { s with sealFlight := s.sealFlight ++ l }

/-- The signals an instruction makes when it retires: once after the last repeat, unless it faulted (R216). -/
def retireSignals (e : Ended) : List SealMsg :=
  let w := e.instr.word.toNat
  (match e.instr.sig with
   | some r => if iSigEn w && iSigWhen w == 0 && !e.faulted then [signalMsg e.instr.ctx r] else []
   | none => []) ++ (if e.faulted then [] else e.posts)

/-- Writes of an instruction are still on their way to another module: packets that no acknowledgement covers (R344), or stamps out
in the accounts named (R251). -/
def writesOut (s : State) (c ctx serial : Nat) (dests : List (Nat × Nat)) : Bool :=
  let is := fun (k : Packet) => k.type == 1 && k.srcCore == c && k.ctx == ctx && k.serial == serial
  s.linkHeld.any is || (s.links.any fun l => l.replay.any fun r => is r.2) ||
    dests.any fun d => match accountOf s c ctx d.1 d.2 with
      | some a => a.inFlight != 0
      | none => false

/-- Every write of an ended instruction is complete at its destination (R216). -/
def burstsDone (s : State) (c : Nat) (e : Ended) : Bool := !(writesOut s c e.instr.ctx e.instr.serial e.dests)

/-- Signals whose writes have become complete leave (R216). -/
def flushOwed (s : State) : State :=
  let out := fun (o : Owed) => writesOut s o.core o.msg.ctx o.serial o.dests
  sendSeals ((s.owed.filter fun o => !(out o)).map fun o => o.msg) { s with owed := s.owed.filter out }

/-- The chain slot loses one instruction in flight (CH_INFLIGHT). -/
def chainLess (ctx : Nat) (s : State) : State :=
  if ctxChained s ctx then setChain (ctxChain s ctx) (fun k => { k with inflight := k.inflight - 1 }) s else s

/-- An ended instruction retires: RETIRED moves, the slot's count drops, its signals leave (R205, R216). -/
def retireOne (c : Nat) (e : Ended) (s : State) : State :=
  sendSeals (retireSignals e) (markDone c e.instr.ctx e.instr.serial (chainLess e.instr.ctx s))

/-! ## Running the head of a queue -/

/-- The head of an issue queue. -/
def headOf (s : State) (c : Nat) (q : QueueId) : Option Issued := (queue (core s c) q).head?

/-- Replace the head of an issue queue. -/
def setHead (c : Nat) (q : QueueId) (f : Issued → Issued) (s : State) : State :=
  setCore c (fun x => setQueue x q (match queue x q with
    | [] => []
    | i :: r => f i :: r)) s

/-- Take the head off an issue queue. -/
def popHead (c : Nat) (q : QueueId) (s : State) : State :=
  setCore c (fun x => setQueue x q ((queue x q).drop 1)) s

/-- An instruction may run: the device runs, its context does not stop here, and its wait is over (R215, R227). -/
def ready (s : State) (c : Nat) (i : Issued) : Bool :=
  running s && !stopped s c i.ctx && (i.wait.isNone || i.started)

/-- The instruction before the head has ended and not retired: its engine starts no other until it has (R50). -/
def unretired (s : State) (c : Nat) (q : QueueId) : Bool :=
  (core s c).retiring.any fun e => !e.faulted && queueOf e.instr.word.toNat == some q

/-- The head of a queue when it is ready and its opcode is the row's. (DESIGN CHOICE, log 3) -/
def readyHead (s : State) (c : Nat) (q : QueueId) (op : Nat) : Option Issued :=
  match headOf s c q with
  | some i => if ready s c i && !(unretired s c q) && iOpcode i.word.toNat == op then some i else none
  | none => none

/-- End an instruction: it leaves its queue and waits to retire; reads that it still had out come to nothing. -/
def endInstr (c : Nat) (q : QueueId) (e : Ended) (s : State) : State :=
  setCore c (fun x => { x with retiring := x.retiring ++ [e] })
    (popHead c q { s with reads := s.reads.filter fun r => !(r.core == c && r.ctx == e.instr.ctx && r.serial == e.instr.serial) })

/-- End an instruction with a fault: lines written since its last checkpoint are torn, the record is written after that
(R266, R425). -/
def endFault (c : Nat) (q : QueueId) (i : Issued) (r : Nat) (f : FaultInfo) (s : State) : State :=
  stageRec (dieOf c) (faultRec c q i f) (endInstr c q { instr := i, faulted := true, repeatsOk := r } (tearAll c i.ctx i.serial s))

/-- The accounts of other modules that an instruction's context holds with stamps in flight. -/
def openDests (s : State) (c ctx : Nat) : List (Nat × Nat) :=
  ((core s c).accounts.filter fun a => a.ctx == ctx && a.inFlight != 0 && a.module != moduleOf s).map fun a => (a.module, a.dest)

/-- End an instruction without a fault. -/
def endOk (c : Nat) (q : QueueId) (i : Issued) (posts : List SealMsg) (s : State) : State :=
  endInstr c q { instr := i, faulted := false, repeatsOk := iRepM1 i.word.toNat + 1, dests := openDests s c i.ctx,
                 posts := posts } { s with wrote := [], wroteFar := [] }

/-- Ask another module for bytes: a READ_REQ with a fresh tag (Table 16.2). -/
def askRemote (c ctx serial m a n : Nat) (s : State) : State :=
  let tag := s.readTag.toNat
  sendPacket { type := 2, dst := m, srcCore := c, ctx := ctx, addr := a, tag := tag, label := n }
    { s with readTag := s.readTag + 1,
             reads := s.reads ++ [{ ctx := ctx, core := c, module := m, addr := a, len := n, tag := tag, serial := serial }] }

/-- What a stop that is no fault does: a miss is noted, a remote read is asked for, the instruction keeps its place with
the repeats done so far and the accesses of the repeat under way. Waiting reaches a checkpoint (R227). -/
def holdHead (c : Nat) (q : QueueId) (i : Issued) (r : Nat) (j : List Ev) (stop : Stop) (s : State) : State :=
  let s := setHead c q (fun x => { x with progress := r, journal := j }) { s with wrote := [], wroteFar := [] }
  match stop with
  | .page ctx p => noteMiss ctx p false (setHead c q (fun x => { x with waitPage := some p }) s)
  | .remote m a n => askRemote c i.ctx i.serial m a n s
  | _ => s

/-- Signals of a repeat under SIG_WHEN 1: once every write made so far is complete (R216). -/
def repeatSignal (c : Nat) (i : Issued) (s : State) : State :=
  match i.sig with
  | some r =>
    if iSigEn i.word.toNat && iSigWhen i.word.toNat == 1 then
      flushOwed { s with owed := s.owed ++ [{
        core := c, serial := i.serial, dests := openDests s c i.ctx, msg := signalMsg i.ctx r }] }
    else s
  | none => s

/-- Run repeats r, r + 1, … of an instruction in order (R217): each takes its own addresses; a fault ends the instruction with the
earlier repeats standing; a wait, or a checkpoint where its context is to stop, leaves it at the head of its queue with what it has
done. -/
def runRepeats (c : Nat) (q : QueueId) (i : Issued) (run : Nat → Eng (List SealMsg)) :
    Nat → Nat → List Ev → List SealMsg → State → State
  | 0, _, _, posts, s => endOk c q i posts s
  | n + 1, r, j, posts, s =>
    match runFrom j (stopping s c i.ctx) (run r) s with
    | .ok p s' =>
      let s' := repeatSignal c i { s' with wrote := [], wroteFar := [] }
      if stopping s c i.ctx && n != 0 then
        holdHead c q i (r + 1) [] .yield (setHead c q (fun x => { x with posts := posts ++ p }) s')
      else runRepeats c q i run n (r + 1) [] (posts ++ p) s'
    | .error (.fault f, _) s' => endFault c q i r f s'
    | .error (stop, j) s' => holdHead c q i r j stop (setHead c q (fun x => { x with posts := posts }) s')

/-- An engine's row: the ready head with the row's opcode runs all its repeats; otherwise nothing happens. (DESIGN CHOICE, log 3) -/
def runEngine (c : Nat) (q : QueueId) (op : Nat) (run : Issued → Nat → Eng (List SealMsg)) (s : State) : State :=
  match readyHead s c q op with
  | none => s
  | some i => runRepeats c q i (run i) (iRepM1 i.word.toNat + 1 - i.progress) i.progress i.journal i.posts s

/-- Work on an instruction has begun. -/
def begun (i : Issued) : Bool :=
  !i.journal.isEmpty || i.progress != 0 || !i.work.isEmpty || i.mm.isSome || i.vec.isSome || i.km.isSome || i.gate.isSome

/-- The instructions of a core that stand in a queue or have ended without a fault and not retired. -/
def unretiredOf (x : Core) : List Issued :=
  (allQueues.flatMap fun q => queue x q) ++ (x.retiring.filter fun e => !e.faulted).map fun e => e.instr

/-- An instruction of the matrix array: MM, or G_KSW (R65, R137, R175). -/
def arrayInstr (i : Issued) : Bool :=
  iClass i.word.toNat == 5 || (iClass i.word.toNat == 4 && iOpcode i.word.toNat == 2)

/-- BCONV, which claims the array while it runs (R65). -/
def isBconv (i : Issued) : Bool := iClass i.word.toNat == 2 && iOpcode i.word.toNat == 0x30

/-- A BCONV of the core holds the array: it has begun, or has ended and not retired (R65, R137). -/
def bconvHolds (s : State) (c : Nat) : Bool :=
  ((core s c).qPoly.take 1).any (fun i => isBconv i && begun i) ||
    (core s c).retiring.any fun e => !e.faulted && isBconv e.instr

/-- A G_KSW of the core holds the array: it has begun, or has ended and not retired (R137, R175). -/
def kswHolds (s : State) (c : Nat) : Bool :=
  ((core s c).qGateArray.take 1).any begun ||
    (core s c).retiring.any fun e => !e.faulted && queueOf e.instr.word.toNat == some .gateArray

/-- The array is closed to a BCONV: an instruction of the array before it has not retired, or one has begun. (DEDUCED, log 118) -/
def arrayClosed (s : State) (c serial : Nat) : Bool :=
  (unretiredOf (core s c)).any fun i => arrayInstr i && (decide (i.serial < serial) || begun i)

/-- The environment of an instruction's accesses. -/
def envOf (c : Nat) (q : QueueId) (i : Issued) : Env :=
  { core := c, ctx := i.ctx, unit := unitOf q, failed := i.pageFault, serial := i.serial }

/-! ## Killing a context (R289, R292, R295, R305) -/

/-- A stream of a killed context becomes a void with KEY_STREAM_FAULT (R96). -/
def voidDesc (d : StreamDesc) : StreamDesc :=
  { d with void := some (BitVec.ofNat 8 (Reason.code .keyStreamFault)), parcels := 0 }

/-- The relay port of a core when a context dies. -/
def voidRelay (ctx : Nat) (p : RelayPort) : RelayPort :=
  match p.current with
  | some d => if d.ctx = ctx ∧ d.void = none then { p with current := some (voidDesc d), slots := [] } else p
  | none => p

/-- The context that an engine works for: that of the stream whose parcels it still holds, else that of its next request. -/
def engCtx (e : StreamEngine) : Option Nat :=
  if e.todo.isEmpty && e.out.isEmpty then e.queue.head?.map fun r => r.instr.ctx else e.current.map fun d => d.ctx

/-- An engine forgets a wait for a page and what it has read meanwhile. -/
def forgetWait (e : StreamEngine) : StreamEngine := { e with paused := false, waitPage := none, pageFault := none, journal := [] }

/-- A stream engine when a context dies: its queued requests go, its current stream becomes a void (R96). -/
def voidEngine (ctx : Nat) (e : StreamEngine) : StreamEngine :=
  let e := if engCtx e = some ctx then forgetWait e else e
  let e := { e with queue := e.queue.filter fun r => r.instr.ctx != ctx }
  match e.current with
  | some d => if d.ctx = ctx ∧ d.void = none then { e with current := some (voidDesc d), todo := [], out := [], limbs := [] } else e
  | none => e

/-- A stream engine when a context is suspended (R96): it goes back to the next parcel to leave it, whose data is read again on
resumption. -/
def yieldEngine (ctx : Nat) (e : StreamEngine) : StreamEngine :=
  if engCtx e = some ctx then
    { forgetWait e with
      todo := e.out.map (fun p => { p with poison := false, k0 := [], k1 := [] }) ++ e.todo, out := [], limbs := [] }
  else e

/-- A context's streams go on: it is resident and is not being stopped (R96). -/
def streamLive (s : State) (ctx : Nat) : Bool :=
  ctxResident s ctx && ctxState s ctx == 1 && !(context s ctx).leaving &&
    !(s.cores.any fun e => nmem e.2.stopping ctx || nmem e.2.saving ctx)

/-- The tile under computation of an MM: its row and column. -/
def tileAt (o : MmOps) : Nat × Nat :=
  let nts := cdiv o.n (tileCols (mmShape o.word) (mmFmtA o.word == 7))
  (o.tile / nts, o.tile % nts)

/-- The entry that a stopped ROUTE 0 instruction leaves in the array, to be pushed (R143): it names the tile under computation.
(DESIGN CHOICE, log 128) -/
def abortBank (i : Issued) : Bank :=
  let t := (i.mm.map tileAt).getD (0, 0)
  { ctx := i.ctx, word := i.word.toNat, m := 0, n := 0, mt := t.1, nt := t.2, last := true, aborted := true }

/-- What the array leaves when a context dies: tiles not yet pushed go, and a ROUTE 0 MM under way leaves its aborted entry (R143). -/
def abortArray (ctx : Nat) (x : Core) : MatArray :=
  let dead := (x.qMm.take 1).filter fun i => i.ctx == ctx && (i.mm.isSome || i.progress != 0) && mmRoute i.word.toNat == 0
  { x.array with finished := x.array.finished.filter (fun t => t.ctx != ctx || t.aborted) ++ dead.map abortBank }

/-- Drop what an engine queue, the retiring list and the slots of a core hold of a context: discarded instructions write
nothing (R228). -/
def dropFromCore (ctx : Nat) (x : Core) : Core :=
  let x := { x with array := abortArray ctx x }
  let x := allQueues.foldl (fun x q => setQueue x q ((queue x q).filter fun i => i.ctx != ctx)) x
  { x with
    retiring := x.retiring.filter fun e => e.instr.ctx != ctx,
    slots := x.slots.map fun o => if o = some ctx then none else o,
    imem := x.imem.map fun b => if b.ctx = some ctx then freeBlock b else b,
    pinWaits := x.pinWaits.filter fun k => k != ctx,
    vec := { x.vec with discard := if x.vec.discard = some ctx then none else x.vec.discard },
    relay := voidRelay ctx x.relay,
    poolWaits := x.poolWaits.filter fun w => !(w.ctx == ctx && decide (w.core < 128)),
    stopping := ndel x.stopping ctx, saving := ndel x.saving ctx, restoring := ndel x.restoring ctx }

/-- Instructions of a context that stand in a core, dispatched and not yet retired. -/
def inCore (ctx : Nat) (x : Core) : Nat :=
  (allQueues.map fun q => ((queue x q).filter fun i => i.ctx == ctx).length).sum +
    (x.retiring.filter fun e => e.instr.ctx == ctx).length

/-- Members of an update block. -/
def jobMembers (b : Nat) : List Nat := (List.range 8).filter fun k => bit b (208 + k)

/-- The other members of a job. -/
def jobPeers (s : State) (j : UpdJob) : List Nat := (jobMembers j.block.toNat).filter fun m => m != moduleOf s

/-- Change the job of a die. -/
def setJob (d : Nat) (f : UpdJob → UpdJob) (s : State) : State :=
  { s with updRing := lmod s.updRing d fun o => o.map f }

/-- The job of a die. -/
def jobOf (s : State) (d : Nat) : Option UpdJob := (s.updRing.getD d none)

/-- A job that still runs ends ABORTED; before pass B its peers get an abort notice (R319). -/
def abortJob (d : Nat) (killed : Bool) (s : State) : State :=
  match jobOf s d with
  | none => s
  | some j =>
    if j.status = 2 ∨ j.status = 3 then
      let s := setJob d (fun j => { j with status := 0x15, killed := killed }) s
      if j.status = 2 then (jobPeers s j).foldl (fun s m => emit (.abort d m) s) s else s
    else s

/-- The jobs whose owner is killed end ABORTED. -/
def abortOwned (ctx : Nat) (s : State) : State :=
  (List.range 2).foldl (fun s d =>
    if (jobOf s d).any (fun j => j.owner == ctx) then abortJob d true s else s) s

/-- Bytes of a big-number operation's output (Table 18.9). -/
def bnOutLen (op : Nat) : Nat := if op = 1 ∨ op = 2 then 384 else if op = 3 then 48 else if op = 4 then 1 else 0

/-- A big-number job of a killed context, running or parked, ends ABORTED with zeros for output (R400). -/
def abortBn (ctx : Nat) (j : BnJob) : BnJob :=
  if j.ctx = ctx ∧ j.island = none then { j with status := 0x47, output := List.replicate (bnOutLen (bits j.record.toNat 15 8)) 0 } else j

/-- The big-number jobs of a killed context. -/
def abortBnJobs (ctx : Nat) (s : State) : State :=
  setIsland (fun i => { i with bnRunning := i.bnRunning.map (abortBn ctx), bnParked := i.bnParked.map (abortBn ctx) }) s

/-- Stalls of a dying context on its cores end: a SEND that has an envelope not yet on its way leaves it to be abandoned (R258). -/
def dropStalls (ctx : Nat) (s : State) : State :=
  let mine := fun (x : Core) => x.stalled && bits x.stallEnv.toNat 63 52 == ctx
  let left := s.cores.filter fun e => mine e.2 && bits e.2.stallEnv.toNat 3 0 == 9 && !(s.envFlight.any fun f => f.env == e.2.stallEnv)
  { s with
    envFlight := s.envFlight ++ left.map fun e => { env := e.2.stallEnv, srcCore := e.1, serial := 0, stalled := true },
    cores := s.cores.map fun e => (e.1, if mine e.2 then { e.2 with stalled := false, stallSeen := false } else e.2) }

/-- A context dies: KILL_REASON, CLOSING, its instructions discarded, its slot's count lowered (R228, R289). A context
already FREE or CLOSING is left as it is (R295). (DESIGN CHOICE, log 25) -/
def killContext (ctx reason : Nat) (s : State) : State :=
  if ctxState s ctx = 0 ∨ ctxState s ctx = 3 then s
  else
    let n := (s.cores.map fun e => inCore ctx e.2).sum +
      ((s.streams.filter fun e => e.1 / 128 == ctx).map fun e => e.2.saved.length).sum
    let s := if ctxChained s ctx then setChain (ctxChain s ctx) (fun k => { k with inflight := k.inflight - n }) s else s
    let s := dropStalls ctx s
    let s := { s with cores := s.cores.map fun e => (e.1, dropFromCore ctx e.2),
                      streams := s.streams.filter fun e => e.1 / 128 != ctx,
                      imports := s.imports.filter (fun w => w.ctx != ctx),
                      owed := s.owed.filter (fun o => o.msg.ctx != ctx),
                      reads := s.reads.filter (fun r => r.ctx != ctx),
                      engines := s.engines.map fun e => voidEngine ctx e }
    setCtxF ctx 10 8 3 (setCtxF ctx 55 48 reason (abortBnJobs ctx (abortOwned ctx s)))

/-- A context's entry, read from HBM, fails its check or is poisoned. While the context is resident the entry is on chip (R289). -/
def entryFails (s : State) (ctx : Nat) : Bool :=
  !(ctxResident s ctx || ctxState s ctx == 0 || ctxState s ctx == 3) &&
    ((context s ctx).entryBad || poisonedRange (noteRead .read true (256 * ctx) 256 s) (256 * ctx) 256)

/-- A context's entry is read: on chip while the context is resident, else from HBM. One that fails its check or is poisoned is not
used: its context is killed with KILL_REASON 3, and a record is written (R289). -/
def readEntry (ctx : Nat) (s : State) : State :=
  if ctxResident s ctx || ctxState s ctx == 0 || ctxState s ctx == 3 then s
  else
    let t := noteRead .read true (256 * ctx) 256 s
    if entryFails s ctx then
      stageRec 0 { unit := .ctx, reason := .ctxEntryCheck, ctx := ctx, addr := some (256 * ctx, true) } (killContext ctx 3 t)
    else t

/-! ## Stream records and halts (R206, R229, R230) -/

/-- STATE codes of Table 10.1. -/
def modeCode : StreamMode → Nat
  | .idle => 0
  | .running => 1
  | .halted => 2
  | .finished => 3

/-- The stream record of a stream as it stands (Table 10.1). -/
def streamRecord (t : Stream) : Nat :=
  withCheck 64 (packFields [(224, 8, t.haltReason.toNat), (192, 32, t.next.toNat), (160, 32, t.retired.toNat),
    (128, 32, t.head.toNat), (32, 48, t.ringBase), (16, 5, t.ringLog2), (8, 8, modeCode t.mode), (4, 4, 1), (0, 4, 0xE)])

/-- Write the record back at STREAM_BASE + 64 × core; a failing write kills the context (R206, R292). -/
def writeBack (c ctx : Nat) (s : State) : State :=
  let a := ctxStreamBase s ctx + 64 * c
  match unitPieces s ctx true a 64 with
  | some ps => unitWrite .write true false ps (toLe 64 (streamRecord (stream s ctx c))) (unitUse ctx a 64 s)
  | none =>
    stageRec (dieOf c) { unit := .cp, reason := .saveFault, core := c, ctx := ctx, addr := some (a, false) }
      (killContext ctx 2 s)

/-- What a halt reports (R230). -/
structure HaltInfo where
  reason   : Reason
  cause    : Nat := 0
  index    : Word32
  slot     : Nat := 0
  postmark : Option Nat
  oldGen   : Nat := 0
  newGen   : Nat := 0
  addr     : Option (Nat × Bool) := none
  deriving DecidableEq, Repr

/-- Halt a stream (R229): STATE HALTED, reason and halt entries set, a pin it waits for given up, the record written back, the counters
moved and the halt record written. (DEDUCED, log 18) -/
def haltStream (c ctx : Nat) (h : HaltInfo) (s : State) : State :=
  let t := stream s ctx c
  let loops := t.loops.map fun l => l.count
  let blk := h.index.toNat / 256
  let s := setStream ctx c (fun t => { t with
    mode := .halted, haltReason := BitVec.ofNat 8 h.reason.code, haltOldGen := BitVec.ofNat 16 h.oldGen,
    haltNewGen := BitVec.ofNat 16 h.newGen, haltBlock := BitVec.ofNat 24 blk,
    haltPm := BitVec.ofNat 64 (h.postmark.getD 0), held := none, fetched := none, fetchFault := none }) s
  let s := setCore c (fun x => { x with pinWaits := x.pinWaits.filter fun k => k != ctx }) s
  let s := writeBack c ctx s
  let s := bumpE (0x3680 + c) 0x0B (bumpE 0x3600 2 s)
  stageRec (dieOf c) {
    unit := .cp, reason := h.reason, halt := true, cause := h.cause, core := c, ctx := ctx, addr := h.addr,
    postmark := h.postmark, ring := some { index := h.index.toNat, slot := h.slot, loops := loops },
    detail := h.oldGen + h.newGen * 65536 + (blk % 2 ^ 24) * 2 ^ 32 } s

end Sys2Proof.Machine
end

