-- ==== Sys2Proof/Machine/Tensor.lean ====
section
/-! DEFINITION. Tensor descriptors (chapter 9): fields, checks of Table 9.6, positions and addresses, gather and scatter, padding, distribution, element reads and writes. -/

namespace Sys2Proof.Machine

/-! ## Fields (Tables 9.1, 9.2) -/

/-- PAD_VALUE. -/
def dPadValue (w : Nat) : Nat := bits w 991 960
/-- SHARD_STRIDE. -/
def dShardStride (w : Nat) : Nat := bits w 959 912
/-- INDEX_DESC. -/
def dIndexDesc (w : Nat) : Nat := bits w 911 864
/-- SCALE_DESC. -/
def dScaleDesc (w : Nat) : Nat := bits w 863 816
/-- FUSE_ADDR. -/
def dFuse (w : Nat) : Nat := bits w 815 768
/-- PAD_HI of a dimension. -/
def dPadHi (w d : Nat) : Nat := bits w (16 * d + 687) (16 * d + 680)
/-- PAD_LO of a dimension. -/
def dPadLo (w d : Nat) : Nat := bits w (16 * d + 679) (16 * d + 672)
/-- SPLIT of a dimension. -/
def dSplit (w d : Nat) : Nat := bits w (4 * d + 651) (4 * d + 648)
/-- MOD_BASE. -/
def dModBase (w : Nat) : Nat := bits w 498 496
/-- BASE. -/
def dBase (w : Nat) : Nat := bits w 495 448
/-- EXTENT of a dimension. -/
def dExtent (w d : Nat) : Nat := bits w (64 * d + 87) (64 * d + 64)
/-- STRIDE of a dimension. -/
def dStride (w d : Nat) : Int := toSigned 40 (bits w (64 * d + 127) (64 * d + 88))
/-- INDEX_RANGE. -/
def dIndexRange (w : Nat) : Nat := bits w 63 40
/-- TILE_R. -/
def dTileR (w : Nat) : Nat := bits w 39 36
/-- TILE_C. -/
def dTileC (w : Nat) : Nat := bits w 35 32
/-- SPM_LOG2. -/
def dSpm (w : Nat) : Nat := bits w 31 28
/-- DIST. -/
def dDist (w : Nat) : Bool := bit w 27
/-- PAD_MODE: true is SKIP. -/
def dSkip (w : Nat) : Bool := bit w 26
/-- DUP_MODE: true is ADD. -/
def dAdd (w : Nat) : Bool := bit w 25
/-- OOR_MODE. -/
def dOor (w : Nat) : Nat := bits w 24 23
/-- INDEX_DIM. -/
def dIndexDim (w : Nat) : Nat := bits w 22 20
/-- INDEX_MODE: 0 none, 1 GATHER, 2 SCATTER. -/
def dIndexMode (w : Nat) : Nat := bits w 19 18
/-- LAYOUT: true is TILED. -/
def dTiled (w : Nat) : Bool := bits w 17 16 == 1
/-- Rank. -/
def dRank (w : Nat) : Nat := bits w 15 13 + 1
/-- ELEM. -/
def dElem (w : Nat) : Nat := bits w 12 8

/-- The dimensions of a descriptor. -/
def dDims (w : Nat) : List Nat := List.range (dRank w)

/-- Logical extent along a dimension. -/
def dLogical (w d : Nat) : Nat := dPadLo w d + dExtent w d + dPadHi w d

/-- The logical shape, dimension 0 first. -/
def dShape (w : Nat) : List Nat := (dDims w).map fun d => dLogical w d

/-- Some dimension is padded. -/
def dPadded (w : Nat) : Bool := (dDims w).any fun d => dPadLo w d + dPadHi w d != 0

/-! ## Positions and addresses (R184, R197) -/

/-- Shards along a dimension. -/
def shards (w d : Nat) : Nat := if dDist w then 2 ^ dSplit w d else 1

/-- Positions of one shard along a dimension. -/
def shardExt (w d : Nat) : Nat := max 1 (cdiv (dExtent w d) (shards w d))

/-- Shard coordinate of a stored position. -/
def shardCoord (w d : Nat) (p : Int) : Nat := min (p / (shardExt w d : Int)).toNat (shards w d - 1)

/-- Contribution of a local position to the element offset. -/
def offDim (w d : Nat) (p : Int) : Int :=
  if dTiled w then
    if d = 0 then
      let t : Int := ((2 ^ dTileC w : Nat) : Int)
      p / t * dStride w 0 + p % t
    else if d = 1 then
      let t : Int := ((2 ^ dTileR w : Nat) : Int)
      p / t * dStride w 1 + p % t * ((2 ^ dTileC w : Nat) : Int)
    else p * dStride w d
  else p * dStride w d

/-- Where an element lies: its module, the byte address as an integer before the 48-bit check, and for a 4-bit element
whether it is the high half of the byte. -/
structure ElemAt where
  module : Nat
  byte   : Int
  high   : Bool
  deriving DecidableEq, Repr

/-- Number of the shard with given coordinates: dimension 0 counts fastest. -/
def shardNumber (w : Nat) (cs : List Nat) : Nat :=
  ((dDims w).foldl (fun (acc : Nat × Nat) d => (acc.1 + cs.getD d 0 * acc.2, acc.2 * shards w d)) (0, 1)).1

/-- Base of a shard, as a context address, and its module. -/
def shardBase (w own s : Nat) : Int × Nat :=
  if dDist w then
    (((dBase w + (s % 2 ^ dSpm w) * dShardStride w : Nat) : Int), dModBase w + s / 2 ^ dSpm w)
  else ((dBase w : Nat), own)

/-- The place of the element at stored positions. -/
def elemPlace (w own : Nat) (ps : List Int) : ElemAt :=
  let cs := (dDims w).map fun d => shardCoord w d (ps.getD d 0)
  let b := shardBase w own (shardNumber w cs)
  let off : Int := ((dDims w).map fun d => offDim w d (ps.getD d 0 - ((cs.getD d 0 * shardExt w d : Nat) : Int))).sum
  { module := b.2, byte := b.1 + off * ((elemWidth (dElem w) : Nat) : Int) / 8, high := off % 2 == 1 }

/-! ## The extremes of a walk (check 9) -/

/-- Local positions at which a dimension's contribution can be extreme: ends, and the edges of the tiles next to them. -/
def extremes (w d : Nat) (lo hi : Int) : List Int :=
  let t : Int := if dTiled w then (if d = 0 then ((2 ^ dTileC w : Nat) : Int) else if d = 1 then ((2 ^ dTileR w : Nat) : Int) else 1) else 1
  let a := lo / t * t
  let b := hi / t * t
  [lo, a + t - 1, a + t, a + 2 * t - 1, b - t, b - 1, b, hi].filter fun p => decide (lo ≤ p ∧ p ≤ hi)

/-- The stored positions a walk reaches along a dimension: indexed positions range over INDEX_RANGE, padded ones count where
they are written. -/
def reach (w : Nat) (write : Bool) (d : Nat) : Int × Int :=
  if dIndexMode w ≠ 0 ∧ d = dIndexDim w then (0, (dIndexRange w : Int) - 1)
  else if write && !(dSkip w) then (-(dPadLo w d : Int), ((dExtent w d + dPadHi w d : Nat) : Int) - 1)
  else (0, (dExtent w d : Int) - 1)

/-- Every combination of shard coordinates. -/
def shardCoords (w : Nat) : List (List Nat) :=
  (dDims w).foldr (fun d acc => (List.range (shards w d)).flatMap fun c => acc.map fun r => c :: r) [[]]

/-- Local bounds of a dimension inside a shard. -/
def localBounds (w : Nat) (write : Bool) (d c : Nat) : Int × Int :=
  let r := reach w write d
  let e : Int := (shardExt w d : Int)
  let lo : Int := if c = 0 then r.1 else c * e
  let hi : Int := if c + 1 = shards w d then r.2 else min r.2 (((c + 1 : Nat) : Int) * e - 1)
  (lo - c * e, hi - c * e)

/-- Every byte that the walk can reach lies in the 48-bit context space. -/
def reachOk (w own : Nat) (write : Bool) : Bool :=
  (shardCoords w).all fun cs =>
    let bs := (dDims w).map fun d => localBounds w write d (cs.getD d 0)
    if bs.any fun b => decide (b.2 < b.1) then true
    else
      let offs := (dDims w).map fun d =>
        (extremes w d (bs.getD d (0, 0)).1 (bs.getD d (0, 0)).2).map fun p => offDim w d p
      let lo : Int := (offs.map fun l => l.foldl min (l.headD 0)).sum
      let hi : Int := (offs.map fun l => l.foldl max (l.headD 0)).sum
      let b := (shardBase w own (shardNumber w cs)).1
      let wd : Int := (elemWidth (dElem w) : Int)
      decide (0 ≤ b + lo * wd / 8 ∧ b + hi * wd / 8 + (wd + 7) / 8 ≤ ((2 ^ 48 : Nat) : Int))

/-! ## Checks (Tables 9.5, 9.6) -/

/-- What a use admits: index modes, the only indexed dimension if there is one, padding, distribution, TILED, formats,
whether it writes, and the inner dimension along which an MX operand may not be padded. -/
structure Use where
  gather  : Bool := false
  scatter : Bool := false
  onlyDim : Option Nat := none
  pad     : Bool := false
  dist    : Bool := false
  tiled   : Bool := false
  elems   : List Nat
  write   : Bool := false
  inner   : Option Nat := none
  deriving DecidableEq, Repr

/-- Check 5: encodings. (DEDUCED, log 62) -/
def descEncOk (w : Nat) : Bool :=
  bits w 3 0 == 0xD && bits w 7 4 == 1 && decide (dElem w ≤ 0xE) && decide (bits w 17 16 < 2) && decide (dRank w ≤ 6) &&
    decide (dIndexMode w < 3) && decide (dIndexDim w < 6) && bits w 647 499 == 0 &&
    (List.range 6).all (fun d =>
      decide (dSplit w d < 8) &&
        (if d < dRank w then decide (1 ≤ dExtent w d) else bits w (64 * d + 127) (64 * d + 64) == 0)) &&
    decide (dSpm w ≤ 10) &&
    (if dTiled w then decide (dTileR w ≤ 7 ∧ dTileC w ≤ 8 ∧ 2 ≤ dRank w) else dTileR w == 0 && dTileC w == 0) &&
    (if dIndexMode w = 0 then dIndexRange w == 0 else decide (1 ≤ dIndexRange w ∧ dIndexDim w < dRank w)) &&
    decide (dPadValue w < 2 ^ min 32 (elemWidth (dElem w)))

/-- Check 6: the use admits the descriptor. -/
def useOk (u : Use) (w : Nat) : Bool :=
  let k := dIndexDim w
  (match dIndexMode w with
   | 0 => true
   | 1 => u.gather
   | _ => u.scatter) &&
    (dIndexMode w == 0 ||
      ((match u.onlyDim with | some d => k == d | none => true) && dPadLo w k + dPadHi w k == 0 &&
        (!(dDist w) || dSplit w k == 0))) &&
    (u.pad || !(dPadded w)) && (u.dist || !(dDist w)) && (u.tiled || !(dTiled w)) && u.elems.contains (dElem w) &&
    (!(isMx (dElem w)) || (match u.inner with | some d => dPadLo w d + dPadHi w d == 0 | none => true)) &&
    (!(dIndexMode w == 2 && dAdd w) || ([0xA, 7, 0xB].contains (dElem w) && decide (dBase w < 2 ^ 40)))

/-- Check 7: alignment of BASE, and of a placement's strides (R185). -/
def descAligned (w : Nat) : Bool :=
  let m := if dElem w = 0xE then (if isSp (dBase w) then 8 else 32) else if elemWidth (dElem w) = 32 then 4
    else if elemWidth (dElem w) = 16 then 2 else 1
  dBase w % m == 0 && (dElem w != 0xE || !(dDist w) || dShardStride w % m == 0)

/-- Check 8: sharding (R198). (DEDUCED, log 62) -/
def distOk (w : Nat) : Bool :=
  !(dDist w) ||
    (let t := ((dDims w).map fun d => dSplit w d).sum
     decide (t ≤ 10) && decide (dModBase w + (2 ^ t - 1) / 2 ^ dSpm w ≤ 7))

/-- Checks 1 to 9 on one descriptor. -/
def openPlain (e : Env) (u : Use) (a : Nat) : Eng Nat := do
  let ad := some (a, false)
  needE (a % 128 == 0) .alignment ad
  let w ← loadWord e a 128
  needE (checkOk 128 w) .headerCheck ad
  needE (descEncOk w) .reservedField ad
  needE (useOk u w) .descNotAdmitted ad
  needE (descAligned w) .alignment ad
  needE (distOk w) .distRange ad
  needE (reachOk w (moduleOf (← get)) u.write) .addressRange ad
  pure w

/-- The scale descriptor agrees with its operand (R187). -/
def scaleOk (inner w v : Nat) : Bool :=
  dRank v == dRank w && dIndexMode v == 0 && dDist v == dDist w && bits v 671 648 == bits w 671 648 && dFuse v == 0 &&
    (dDims w).all fun d => dExtent v d == (if d = inner then cdiv (dExtent w d) 32 else dExtent w d)

/-- The index descriptor agrees with its operand (R189). -/
def indexOk (w v : Nat) : Bool := dRank v == 1 && dIndexMode v == 0 && dExtent v 0 == dExtent w (dIndexDim w)

/-- Read one element of a tensor without index and padding: bits and poison. -/
def readPlain (e : Env) (w : Nat) (ps : List Int) : Eng (Nat × Bool) := do
  let p := elemPlace w (moduleOf (← get)) ps
  let (bs, poison) ← loadOn e e.alloc p.module (p.byte.toNat) ((elemWidth (dElem w) + 7) / 8)
  let v := ofLe bs
  pure (if elemWidth (dElem w) = 4 then (if p.high then v / 16 else v % 16) else v, poison)

/-- Read index entries from a position on. -/
def readEntries (e : Env) (w : Nat) : Nat → Nat → Eng (List Int)
  | 0, _ => pure []
  | n + 1, i => do
    let (v, p) ← readPlain e w [(i : Int)]
    if p then failE .poisonControl (some ((elemPlace w 0 [(i : Int)]).byte.toNat, false))
    let r ← readEntries e w n (i + 1)
    pure (elemInt (dElem w) v :: r)

/-- An index entry is outside the range. -/
def oor (w : Nat) (v : Int) : Bool := decide (v < 0 ∨ (dIndexRange w : Int) ≤ v)

/-- Count INDEX_OOR_EVENTS. -/
def oorEvents (n : Nat) : Eng Unit := act (bumpN 0x3500 1 n)

/-- Open a descriptor with all checks of Table 9.6. -/
def openTensor (e : Env) (u : Use) (a : Nat) : Eng Tens := do
  let w ← openPlain e u a
  let scale ← if isMx (dElem w) then do
      let v ← openPlain e { dist := true, elems := [0xD] } (dScaleDesc w)
      needE (scaleOk (u.inner.getD 0) w v) .descNotAdmitted (some (dScaleDesc w, false))
      pure (some v)
    else pure none
  if dIndexMode w = 0 then pure { addr := a, w := w, scale := scale }
  else do
    let v ← openPlain e { elems := [0xB, 0xC] } (dIndexDesc w)
    needE (indexOk w v) .descNotAdmitted (some (dIndexDesc w, false))
    if dExtent v 0 * (elemWidth (dElem v) / 8) ≤ 32768 then do
      let es ← readEntries e v (dExtent v 0) 0
      needE (dOor w != 0 || !(es.any fun x => oor w x)) .indexRange (some (dIndexDesc w, false))
      oorEvents ((es.filter fun x => oor w x).length)
      pure { addr := a, w := w, scale := scale, index := some v, entries := some es }
    else pure { addr := a, w := w, scale := scale, index := some v }

/-! ## Element access -/

/-- Stored positions of logical indices. -/
def storedPos (w : Nat) (ix : List Nat) : List Int := (dDims w).map fun d => ((ix.getD d 0 : Nat) : Int) - (dPadLo w d : Int)

/-- A position is valid: inside the extents. -/
def validPos (w : Nat) (ps : List Int) : Bool :=
  (dDims w).all fun d => decide (0 ≤ ps.getD d 0 ∧ ps.getD d 0 < (dExtent w d : Int))

/-- The stored position along the indexed dimension, or none where ZERO discards the element (R189). A streamed entry is read as the
walk reaches it, and counts at its first visit. (DEDUCED, log 68) -/
def indexed (e : Env) (t : Tens) (ps : List Int) : Eng (Option (List Int)) := do
  match t.index with
  | none => pure (some ps)
  | some v =>
    let k := dIndexDim t.w
    let p := (ps.getD k 0).toNat
    let x ← match t.entries with
      | some es => pure (es.getD p 0)
      | none => do
        let r ← readEntries e v 1 p
        let x := r.getD 0 0
        if oor t.w x then
          if dOor t.w = 0 then failE .indexRange (some (t.addr, false))
          if !(e.again.contains k) then onceEntry t.addr p (bumpN 0x3500 1 1)
        pure x
    if !(oor t.w x) then pure (some (ps.set k x))
    else if dOor t.w = 1 then pure (some (ps.set k (x % (dIndexRange t.w : Int))))
    else if dOor t.w = 2 then pure (some (ps.set k (if x < 0 then 0 else (dIndexRange t.w : Int) - 1)))
    else pure none

/-- The scale byte of an MX element (R129, R187): the byte of its block along the inner dimension, at the operand's own stored position,
since the scale tensor has the operand's extents and no index. (DEDUCED, log 129) -/
def readScale (e : Env) (t : Tens) (inner : Nat) (ps : List Int) : Eng (Nat × Bool) := do
  match t.scale with
  | none => pure (127, false)
  | some v => readPlain e v (ps.set inner (ps.getD inner 0 / 32))

/-- Read the element at logical indices (R184, R187, R189, R194). -/
def readElem (e : Env) (t : Tens) (inner : Nat) (ix : List Nat) : Eng Elem := do
  let ps := storedPos t.w ix
  if validPos t.w ps then do
    match ← indexed e t ps with
    | none => pure { bits := 0 }
    | some qs =>
      let (v, p) ← readPlain e t.w qs
      let (sc, sp) ← readScale e t inner ps
      pure { bits := v, scale := sc, poison := p || sp }
  else pure { bits := dPadValue t.w }

/-- Write the bits of one element at stored positions. -/
def writePlain (e : Env) (w : Nat) (ps : List Int) (v : Nat) (poison : Bool) : Eng Unit := do
  let p := elemPlace w (moduleOf (← get)) ps
  storeOn e e.alloc p.module p.byte.toNat (toLe (elemWidth (dElem w) / 8) v) poison

/-- One contribution of SCATTER under ADD: the stored element becomes old plus the contribution (R192). -/
def addInto (f : Nat) (sat : Bool) (old v : Nat) : Nat :=
  match f with
  | 7 => toBf16 (fadd (old * 2 ^ 16) (v * 2 ^ 16))
  | 0xA => fadd old v
  | _ => (narrow32 sat (toSigned 32 old + toSigned 32 v)).val

/-- The number of an addition in a WRITE packet's label, by format and saturation. (DESIGN CHOICE, log 73) -/
def addCode (f : Nat) (sat : Bool) : Nat := 16 + f + (if sat then 32 else 0)

/-- One contribution of SCATTER under ADD, applied at the element's home slice: here, or sent to the module that holds the shard
(R192, R197, R271). -/
def addElem (e : Env) (t : Tens) (sat : Bool) (qs : List Int) (v : Nat) (poison : Bool) : Eng Unit := do
  let own := moduleOf (← get)
  let p := elemPlace t.w own qs
  if p.module = own then do
    let (old, bad) ← readPlain e t.w qs
    writePlain e t.w qs (addInto (dElem t.w) sat old v) (poison || bad)
    atomicDone
  else
    sendWrite e p.byte.toNat { type := 1, poison := poison, dst := p.module, srcCore := e.core, ctx := e.ctx, addr := p.byte.toNat,
                               label := addCode (dElem t.w) sat, data := toLe (elemWidth (dElem t.w) / 8) v, serial := e.serial }

/-- Write a result element at logical indices: padded ones follow PAD_MODE, scattered ones their index (R189, R192, R195). -/
def writeElem (e : Env) (t : Tens) (sat : Bool) (ix : List Nat) (v : Nat) (poison : Bool) : Eng Unit := do
  let ps := storedPos t.w ix
  if validPos t.w ps then do
    match ← indexed e t ps with
    | none => pure ()
    | some qs =>
      if dIndexMode t.w = 2 ∧ dAdd t.w = true then addElem e t sat qs v poison
      else writePlain e t.w qs v poison
  else if dSkip t.w then pure ()
  else do
    match ← indexed e t ps with
    | none => pure ()
    | some qs =>
      writePlain e t.w qs (dPadValue t.w) false
      act (addTotal 0x3500 2 1)

/-! ## Overlap of a destination with a source (R188) -/

/-- The descriptors agree in every field but DESC_CHECK and FUSE_ADDR, without index and padding: the case R188 permits. -/
def sameTensor (v w : Nat) : Bool :=
  setBits (v % 2 ^ 992) 815 768 0 == setBits (w % 2 ^ 992) 815 768 0 && dIndexMode w == 0 && !(dPadded w)

/-- Stored positions that a walk may reach: those of the logical shape, an indexed dimension over the range in memory. -/
def reachPositions (w : Nat) (write : Bool) : List (List Int) :=
  (dDims w).foldr (fun d acc =>
    let b := reach w write d
    (List.range (b.2 + 1 - b.1).toNat).flatMap fun (i : Nat) => acc.map fun r => (b.1 + (i : Int)) :: r) [[]]

/-- Module and bytes of the elements that a walk may reach. -/
def reachBytes (w own : Nat) (write : Bool) : List (Nat × Int) :=
  (reachPositions w write).flatMap fun ps =>
    let p := elemPlace w own ps
    (List.range ((elemWidth (dElem w) + 7) / 8)).map fun k => (p.module, p.byte + (k : Int))

/-- A destination shares a byte with a source, other than by the same descriptor: the data then is unspecified (R188).
(DESIGN CHOICE, log 117) -/
def tensOverlap (own : Nat) (d : Tens) (a : Tens) : Bool :=
  !(sameTensor d.w a.w) && (reachBytes d.w own true).any fun x => (reachBytes a.w own false).contains x

/-- A result as stored: free where the destination overlaps a source (R188). -/
def storedBits (lap : Bool) (v : Nat) : Eng Nat := if lap then drawE else pure v

/-! ## Walks (R167) -/

/-- Every index vector of a shape, dimension 0 innermost. -/
def walk : List Nat → List (List Nat)
  | [] => [[]]
  | n :: r => (walk r).flatMap fun t => (List.range n).map fun i => i :: t

/-- Results of work done in order. -/
def mapE {α β : Type} (f : α → Eng β) : List α → Eng (List β)
  | [] => pure []
  | x :: r => do
    let y ← f x
    let ys ← mapE f r
    pure (y :: ys)

end Sys2Proof.Machine
end

