-- ==== Sys2Proof/Machine/Fusion.lean ====
section
/-! DEFINITION. The fusion menu (chapter 7): the fusion block, prologues, epilogues, requantisation, row statistics and row stages. -/

namespace Sys2Proof.Machine

/-! ## The fusion block (Table 7.1) -/

/-- RESID_DESC. -/
def fuResid (w : Nat) : Nat := bits w 479 432
/-- GROUP_ADDR. -/
def fuGroup (w : Nat) : Nat := bits w 431 384
/-- ESTAT_DESC. -/
def fuEstat (w : Nat) : Nat := bits w 383 336
/-- EVEC_DESC. -/
def fuEvec (w : Nat) : Nat := bits w 335 288
/-- PSTAT_DESC. -/
def fuPstat (w : Nat) : Nat := bits w 287 240
/-- PVEC_DESC. -/
def fuPvec (w : Nat) : Nat := bits w 239 192
/-- ARR_BASE. -/
def fuArrBase (w : Nat) : Nat := bits w 191 160
/-- ARR_SEAL. -/
def fuArrSeal (w : Nat) : Nat := bits w 159 144
/-- ARR_CHUNK. -/
def fuArrChunk (w : Nat) : Nat := bits w 143 128
/-- EPS. -/
def fuEps (w : Nat) : Nat := bits w 127 96
/-- OSCALE. -/
def fuOscale (w : Nat) : Nat := bits w 95 64
/-- PSCALE. -/
def fuPscale (w : Nat) : Nat := bits w 63 32
/-- REQ_SHIFT. -/
def fuShift (w : Nat) : Nat := bits w 23 18
/-- ARR_MODE. -/
def fuArrMode (w : Nat) : Nat := bits w 9 8

/-! ## The menus -/

/-- PROLOGUE codes of Table 7.2. -/
def prologueListed (p : Nat) : Bool := decide (1 ≤ p ∧ p ≤ 8)
/-- The prologue reads PSTAT. -/
def prologueStat (p : Nat) : Bool := p == 3 || p == 4
/-- The prologue reads PVEC. -/
def prologueVec (p : Nat) : Bool := p == 2 || p == 3 || p == 4
/-- EPILOGUE codes of Tables 7.3 and 7.4. -/
def epilogueListed (e : Nat) : Bool := decide (1 ≤ e ∧ e ≤ 9) || decide (0x10 ≤ e ∧ e ≤ 0x12) || decide (0x18 ≤ e ∧ e ≤ 0x1A)
/-- Row entries proper. -/
def rowEntry (e : Nat) : Bool := decide (0x10 ≤ e ∧ e ≤ 0x12)
/-- PART entries. -/
def partEntry (e : Nat) : Bool := decide (0x18 ≤ e ∧ e ≤ 0x1A)
/-- Entries over an INT32 accumulation. -/
def epilogueInt (e : Nat) : Bool := e == 2 || e == 3 || e == 9
/-- Entries with a bias stage of their own. -/
def epilogueBias (e : Nat) : Bool := e == 1 || e == 3 || e == 4 || e == 5 || e == 6 || e == 8
/-- Entries with a residual stage of their own. -/
def epilogueResid (e : Nat) : Bool := e == 7 || e == 8
/-- EVEC rows an entry needs beside a bias it may carry: t, m, γ, β. -/
def epilogueVecs (e : Nat) : Nat := if e = 2 ∨ e = 3 ∨ e = 9 ∨ e = 0x10 then 1 else if e = 0x11 then 2 else 0

/-- Check 5 of Table 6.8, test 1: the block's own fields (R159). -/
def fusionBlockOk (w pro epi : Nat) : Bool :=
  checkOk 64 w && bits w 3 0 == 0xC && bits w 7 4 == 1 && bits w 31 24 == 0 && bits w 17 10 == 0 &&
    (if fuArrMode w = 3 then decide (1 ≤ fuArrChunk w)
     else fuArrMode w == 0 || (fuArrChunk w % 32 == 0 && decide (0 < fuArrChunk w))) &&
    decide (fuShift w ≤ 62) &&
    (match dec32 (fuPscale w) with | .fin _ m _ => m != 0 | _ => false) &&
    (match dec32 (fuOscale w) with | .fin _ m _ => m != 0 | _ => false) &&
    (!(prologueStat pro) || fuPstat w != 0) && (!(prologueVec pro) || fuPvec w != 0) &&
    ((!(epilogueBias epi) && epilogueVecs epi == 0) || fuEvec w != 0) &&
    (!(epilogueResid epi) || fuResid w != 0) &&
    (!(epi == 2 || epi == 3 || rowEntry epi || partEntry epi) || fuEstat w != 0)

/-! ## Element functions -/

/-- SILU, GELU and SWIGLU of the prologue and the epilogue (R149, R152, R171): free bits of the operand. -/
def fusedFn (f : Special) (x : Nat) : Nat := specialWith Config.fusedSpecial f x

/-- A prologue on one element (Table 7.2): x, the SWIGLU partner, μ_i, r_i, g_k, β_k, all FP32. -/
def prologueFn (p x x2 mu r g b : Nat) : Nat :=
  match p with
  | 2 => fmul x g
  | 3 => fmul (fmul x r) g
  | 4 => fadd (fmul (fmul (fsub x mu) r) g) b
  | 5 => frelu x
  | 6 => fusedFn .silu x
  | 7 => fusedFn .gelu x
  | 8 => fmul (fusedFn .silu x) x2
  | _ => x

/-- The prologue's conversion to FMT_A (R150), with its saturation. -/
def prologueConv (fmt : Nat) (satfin : Bool) (pscale y : Nat) : Flagged :=
  let v := fmul y pscale
  let o := convOut fmt satfin v
  if fmt = 4 then { o with sat := satE4m3 v }
  else if fmt = 5 then { o with sat := satfin && overE5m2 v }
  else o

/-- Epilogue activations. -/
def epilogueAct (e v : Nat) : Nat :=
  if e = 4 then frelu v else if e = 5 then fusedFn .silu v else if e = 6 then fusedFn .gelu v else v

/-- The element stages of R152 up to act: acc as FP32 or, for DEQ entries, as INT32 scaled by s_i and t_j. REQUANT takes acc as
it is. -/
def epilogueElem (e : Nat) (accFp : Bool) (acc : Nat) (s t : Nat) (bias resid : Option Nat) : Nat :=
  if e = 9 then acc else
  let v := if accFp then acc else fmul (fmul (fofInt (toSigned 32 acc)) s) t
  let v := match bias with | some b => fadd v b | none => v
  let v := match resid with | some r => fadd v r | none => v
  epilogueAct e v

/-- REQUANT (R153). -/
def requant (acc m : Int) (sh : Nat) : Flagged :=
  let h : Int := if sh = 0 then 0 else ((2 ^ (sh - 1) : Nat) : Int)
  let v := satInt 8 ((acc * m + h) / ((2 ^ sh : Nat) : Int))
  { val := ofSigned 8 v.1, sat := v.2 }

/-! ## Row statistics (Table 7.4) -/

/-- Where word k of the statistics of row i and tile t stands: a tensor of rank 3, or of rank 2 with a row's pairs side by side. -/
def statAt (x : Tens) (k t i : Nat) : List Nat := if dRank x.w = 3 then [k, t, i] else [2 * t + k, i]

/-- Pairs per row that a statistics tensor holds. -/
def statTiles (x : Tens) : Nat := if dRank x.w = 3 then dExtent x.w 1 else dExtent x.w 0 / 2

/-- Rows that a statistics tensor holds. -/
def statRows (x : Tens) : Nat := dExtent x.w (if dRank x.w = 3 then 2 else 1)

/-- A statistics tensor has n pairs per row. (DEDUCED, log 64) -/
def statOk (x : Tens) (n : Nat) : Bool :=
  (if dRank x.w = 3 then dExtent x.w 0 == 2 && dExtent x.w 1 == n else dRank x.w == 2 && dExtent x.w 0 == 2 * n)

/-- Sequential binary32 sum, from the first term. -/
def fsum : List Nat → Nat
  | [] => 0
  | x :: r => r.foldl fadd x

/-- Sequential maximum. -/
def fmaxAll : List Nat → Nat
  | [] => 0
  | x :: r => r.foldl fmax x

/-- The partials of one tile's row, columns ascending: a pair of words. Kinds: 0 RMSN, 1 LN, 2 SOFTMAX. (DEDUCED, log 65) -/
def rowPartial (kind : Nat) (h : List Nat) : Nat × Nat :=
  match kind with
  | 0 => (fsum (h.map fun x => fmul x x), 0)
  | 1 => (fsum h, fsum (h.map fun x => fmul x x))
  | _ =>
    let m := fmaxAll h
    (m, fsum (h.map fun x => fspecial .exp (fsub x m)))

/-- The combined statistics of a row, tiles ascending. -/
def rowCombine (kind n eps : Nat) (ps : List (Nat × Nat)) : Nat × Nat :=
  let nf := fofInt (n : Int)
  match kind with
  | 0 => (fspecial .rsqrt (fadd (fdiv (fsum (ps.map (·.1))) nf) eps), 0)
  | 1 =>
    let mu := fdiv (fsum (ps.map (·.1))) nf
    let var := fmax (fsub (fdiv (fsum (ps.map (·.2))) nf) (fmul mu mu)) 0
    (mu, fspecial .rsqrt (fadd var eps))
  | _ =>
    let m := fmaxAll (ps.map (·.1))
    (m, fsum (ps.map fun p => fmul p.2 (fspecial .exp (fsub p.1 m))))

/-- The row stage on one element, and the scaling by OSCALE that SOFTMAX leaves out (R152). -/
def rowStage (kind oscale : Nat) (st : Nat × Nat) (h gamma beta : Nat) : Nat :=
  match kind with
  | 0 => fmul (fmul (fmul h st.1) gamma) oscale
  | 1 => fmul (fadd (fmul (fmul (fsub h st.1) st.2) gamma) beta) oscale
  | _ => fmul (fspecial .exp (fsub h st.1)) (fdiv 0x3F80_0000 st.2)

/-! ## The block's tensors -/

/-- Open a tensor of the fusion block, when its field is not zero. -/
def openFuse (e : Env) (elems : List Nat) (write : Bool) (a : Nat) : Eng (Option Tens) := do
  if a = 0 then pure none
  else do
    let t ← openTensor e { elems := elems, write := write } a
    pure (some t)

/-- Read the block and make test 1 of R159. -/
def readFusion (e : Env) (a pro epi : Nat) : Eng Nat := do
  needE (a % 64 == 0) .fusionBlock (some (a, false))
  let w ← loadWord e a 64
  needE (fusionBlockOk w pro epi) .fusionBlock (some (a, false))
  pure w

/-- Open every tensor that the codes use. -/
def openFusion (e : Env) (w pro epi : Nat) : Eng FuseTens := do
  let pvec ← if prologueVec pro then openFuse e [0xA] false (fuPvec w) else pure none
  let pstat ← if prologueStat pro then openFuse e [0xA] false (fuPstat w) else pure none
  let evec ← if epi != 0 then openFuse e [if epi = 9 then 0xB else 0xA] false (fuEvec w) else pure none
  let estat ← if epi == 2 || epi == 3 then openFuse e [0xA] false (fuEstat w)
    else if rowEntry epi || partEntry epi then openFuse e [0xA] true (fuEstat w) else pure none
  let resid ← if epilogueResid epi || rowEntry epi || partEntry epi then openFuse e [7] false (fuResid w) else pure none
  pure { w := w, pvec := pvec, pstat := pstat, evec := evec, estat := estat, resid := resid }

/-- Rows of EVEC: extent of dimension 1, or 1 for a vector of rank 1. (DEDUCED, log 65) -/
def evecRows (t : Option Tens) : Nat :=
  match t with
  | some t => if dRank t.w = 1 then 1 else dExtent t.w 1
  | none => 0

/-- The fusion block supplies a bias: an element entry has one, a row or PART entry has one when EVEC holds a row more than
it needs. (DEDUCED, log 65) -/
def hasBias (epi : Nat) (f : FuseTens) : Bool :=
  epilogueBias epi || ((rowEntry epi || partEntry epi) && decide (epilogueVecs epi < evecRows f.evec))

/-- A word of a fusion-block tensor, with its poison; an absent tensor gives zero. -/
def fuseWord (e : Env) (t : Option Tens) (row col : Nat) : Eng (Nat × Bool) := do
  match t with
  | none => pure (0, false)
  | some t =>
    let x ← readElem e t 0 [col, row]
    pure (x.bits, x.poison)

end Sys2Proof.Machine
end

