-- ==== Sys2Proof/Machine/Relay.lean ====
section
/-! DEFINITION. The relay port of a core as its consumers see it (R90-R94, R282): the current stream, taking the next parcel, leaving a stream. -/

namespace Sys2Proof.Machine

/-- The round of a core (R80). -/
def roundOf (c : Nat) : Nat := c / 16

/-- The last core of its round forwards nothing (R90). -/
def lastOfRound (c : Nat) : Bool := c % 16 == 15

/-- A core's bit of ROUND_MASK is set. -/
def consumes (d : StreamDesc) (c : Nat) : Bool := d.mask.toNat.testBit (c % 16)

/-- Change a relay port. -/
def setRelay (c : Nat) (f : RelayPort → RelayPort) (s : State) : State := setCore c (fun x => { x with relay := f x.relay }) s

/-- Slots whose parcel is forwarded and applied are free (R90). -/
def freeSlots (p : RelayPort) : RelayPort := { p with slots := p.slots.filter fun x => !(x.forwarded && x.applied) }

/-- Every parcel of the current stream has come and been applied. (DEDUCED, log 70) -/
def exhausted (p : RelayPort) : Bool :=
  match p.current with
  | some d => d.void.isNone && decide (d.parcels ≤ max p.got p.skip) && p.slots.all (fun x => x.applied)
  | none => true

/-- The current stream for a consumer of a context, of the kind it wants (Tables 4.7 check 17, R94, R282): a core that left the stream
faults; a void faults with its code; a stream all consumed is waited past. A KEY_MAC or G_REFRESH that meets a weight stream faults
with STREAM_ORDER, as R282 has it the other way round. (DEDUCED, log 124) -/
def streamFor (e : Env) (weight : Bool) : Eng StreamDesc := do
  let p := (core (← get) e.core).relay
  if p.left then failE .streamLeft
  match p.current with
  | none => throw .stall
  | some d =>
    match d.void with
    | some v => match reasonOf v.toNat with
      | some r => failE r
      | none => failE .keyStreamFault
    | none =>
      if exhausted p then throw .stall
      needE (d.ctx == e.ctx) .contextMismatch
      if d.weight != weight then failE .streamOrder
      pure d

/-- The parcel that a consumer takes next; none has come yet: wait. (DEDUCED, log 70) -/
def nextParcel (e : Env) : Eng Parcel := do
  match (core (← get) e.core).relay.slots.find? fun x => !x.applied with
  | some x => pure x.parcel
  | none => throw .stall

/-- The parcel taken is applied: its slot is free once it is forwarded too. -/
def parcelApplied (c : Nat) (s : State) : State :=
  setRelay c (fun p => freeSlots { p with slots := lreplace (fun x => !x.applied) (fun x => { x with applied := true }) p.slots }) s

/-- A void is current at a core: what faults there leaves no stream (R86). -/
def voidCurrent (p : RelayPort) : Bool :=
  match p.current with
  | some d => d.void.isSome
  | none => false

/-- A consumer that faults against a stream leaves it: the rest passes through (R94). (DEDUCED, log 49) -/
def leaveStream (c : Nat) (s : State) : State :=
  setRelay c (fun p => freeSlots { p with left := true, slots := p.slots.map fun x => { x with applied := true } }) s

end Sys2Proof.Machine
end

