-- ==== Sys2Proof/Machine/MatArray.lean ====
section
/-! DEFINITION. The matrix array (chapter 6): MM with its checks, exact integer and block-wise floating accumulation, prologue and epilogue, the finished-tile queue, arriving operands. -/

namespace Sys2Proof.Machine

/-! ## Encodings -/

/-- The format pairs of Table 6.3. -/
def pairOk (a b : Nat) : Bool :=
  (decide (a < 4) && decide (b < 4)) || ([4, 5, 6, 8, 9].contains a && [4, 5, 6, 8, 9].contains b) || (a == 7 && b == 7)

/-- The result of the whole path is FP32: of the accumulation, or of an epilogue entry, REQUANT apart (R152). -/
def mmOutFp (w : Nat) : Bool := !(mmInt w) || (epilogueListed (mmEpi w) && mmEpi w != 9)

/-- OUT_FMT matches what it converts (R134, R152). -/
def outFmtOk (w : Nat) : Bool := if mmOutFp w then decide (mmOut w ≤ 3) else mmOut w == 0 || mmOut w == 4

/-- Element format of an OUT_FMT. -/
def outElem (w : Nat) : Nat :=
  match mmOut w with
  | 1 => 7
  | 2 => 4
  | 3 => 5
  | 4 => 0
  | _ => if mmOutFp w then 0xA else 0xB

/-- Check 1 of Table 6.8. (DEDUCED, log 61) -/
def mmEncOk (w : Nat) : Bool :=
  bits w 11 0 == 0 && mmShape w != 3 && decide (mmRoute w < 2) && decide (mmFmtA w ≤ 9) && decide (mmFmtB w ≤ 9) &&
    decide (mmOut w ≤ 4) && (mmRoute w != 0 || mmOut w == 0)

/-! ## Operands -/

/-- The ELEM field of a descriptor as it stands, nothing but the value kept of the read: check 2 precedes check 3. -/
def peekElem (e : Env) (a : Nat) : Eng (Option Nat) := do
  let (b, _) ← noted fun s =>
    if a % 128 = 0 then
      match loadWord e a 128 { s with replay := [] } with
      | .ok w _ => .ok ([BitVec.ofNat 8 (dElem w)], []) s
      | .error _ _ => .ok ([], []) s
    else .ok ([], []) s
  pure (b.head?.map fun x => x.toNat)

/-- Check 2: an operand's descriptor gives the format that the instruction names (the prologue takes BF16 by R149). (DEDUCED, log 61) -/
def elemAgrees (fmt : Nat) : Option Nat → Bool
  | some f => f == fmt
  | none => true

/-- P rows of a weight parcel (R281). -/
def weightRows (rowbytes sc : Nat) : Nat := 32 * (36864 / (32 * rowbytes + sc))

/-- Bytes of one packed row of a weight tile, and scale bytes of one block of 32 rows. -/
def weightRow (shape elem : Nat) : Nat × Nat :=
  let c := tileCols shape (elem == 7)
  (c * elemWidth elem / 8, if isMx elem then c else 0)

/-- The parcels of one n-tile: first row and number of rows of each. -/
def weightParcels (k rowbytes sc : Nat) : List (Nat × Nat) :=
  let p := weightRows rowbytes sc
  (List.range (cdiv k p)).map fun i => (i * p, min p (k - i * p))

/-- Byte at which row r of a parcel of n rows begins, and the scale byte of its block for column 0. -/
def weightAt (rowbytes sc n r : Nat) : Nat × Nat := (r * rowbytes, n * rowbytes + r / 32 * sc)

/-! ## Checks at issue (Table 6.8, R159, R160) -/

/-- Check 5, test 2 of R159. (DEDUCED, log 61) -/
def fuseAdmitted (w arrMode elemA : Nat) : Bool :=
  let pro := mmPro w
  let epi := mmEpi w
  (pro == 0 || (prologueListed pro && decide (mmShape w ≤ 1) && elemA == 7 && [0, 4, 5, 7].contains (mmFmtA w))) &&
    (epi == 0 || (epilogueListed epi && mmRoute w == 1 && epilogueInt epi == mmInt w &&
      (!(partEntry epi) || mmOut w == 0) && (epi != 9 || mmOut w == 4) && (epi == 9 || decide (mmOut w ≤ 3)))) &&
    (!(mmRelay w) || decide (arrMode < 2))

/-- The bytes of its own module that a walk over a tensor accesses, as a bounding range: padding that is only read is no access
(R160, R194). -/
def boundRange (own : Nat) (write : Bool) (t : Tens) : Int × Int :=
  let w := t.w
  let all := ((shardCoords w).filter fun cs => (shardBase w own (shardNumber w cs)).2 == own).flatMap fun cs =>
    let bs := (dDims w).map fun d => localBounds w write d (cs.getD d 0)
    if bs.any fun b => decide (b.2 < b.1) then []
    else
      let offs := (dDims w).map fun d =>
        (extremes w d (bs.getD d (0, 0)).1 (bs.getD d (0, 0)).2).map fun p => offDim w d p
      let lo : Int := (offs.map fun l => l.foldl min (l.headD 0)).sum
      let hi : Int := (offs.map fun l => l.foldl max (l.headD 0)).sum
      let b := (shardBase w own (shardNumber w cs)).1
      let wd : Int := (elemWidth (dElem w) : Int)
      [b + lo * wd / 8, b + hi * wd / 8 + (wd + 7) / 8]
  (all.foldl min (all.headD 0), all.foldl max (all.headD 0))

/-- A byte range of this module meets a tensor's bounding range. -/
def meets (own lo n : Nat) (write : Bool) (t : Option Tens) : Bool :=
  match t with
  | none => false
  | some t => let r := boundRange own write t
              decide (r.1 < ((lo + n : Nat) : Int) ∧ (lo : Int) < r.2)

/-- A tensor of rank 2 with given extents of dimensions 0 and 1. -/
def shape2 (t : Option Tens) (d0 d1 : Nat) : Bool :=
  match t with
  | none => true
  | some t => dRank t.w == 2 && dLogical t.w 0 == d0 && dLogical t.w 1 == d1

/-- A fusion-block tensor covers at least the rows and columns used. (DEDUCED, log 64) -/
def fuseShape (t : Option Tens) (cols rows : Nat) : Bool :=
  match t with
  | none => true
  | some t => dExtent t.w 0 == cols && decide (rows ≤ (if dRank t.w = 1 then 1 else dExtent t.w 1))

/-- The shapes of the fusion block's tensors (Table 7.1). (DEDUCED, log 64) -/
def fuseShapes (o : MmOps) (f : FuseTens) : Bool :=
  let epi := mmEpi o.word
  let nts := cdiv o.n (tileCols (mmShape o.word) (mmFmtA o.word == 7))
  fuseShape f.pvec o.k (if mmPro o.word = 4 then 2 else 1) && fuseShape f.pstat 2 o.m &&
    fuseShape f.evec o.n (epilogueVecs epi + b2n (epilogueBias epi)) &&
    (match f.estat with
     | none => true
     | some t =>
        if partEntry epi then statOk t nts && decide (o.m ≤ statRows t)
        else decide (o.m ≤ dExtent t.w 1) && (if rowEntry epi then dExtent t.w 0 == 2 else decide (1 ≤ dExtent t.w 0))) &&
    shape2 f.resid o.n o.m

/-- A row entry's N is at most 4,096, and the whole group buffer lies in the core's own scratchpad (R155, Table 7.1). -/
def groupOk (c : Nat) (o : MmOps) (f : FuseTens) : Bool :=
  let g := fuGroup f.w
  let n := tileRows (mmShape o.word) * o.n * 4
  decide (o.n ≤ 4096) && g % 256 == 0 && isSp g && isSp (g + n - 1) && spCore g == c && spCore (g + n - 1) == c

/-- Check 5 of Table 6.8: the fusion block, the menus, the group buffer (R159, R160). -/
def mmFuse (c : Nat) (e : Env) (w : Nat) (o : MmOps) : Eng MmOps := do
  let fa := dFuse o.a.w
  let fw ← readFusion e fa (mmPro w) (mmEpi w)
  needE (fuseAdmitted w (fuArrMode fw) (dElem o.a.w)) .fuseNotAdmitted (some (fa, false))
  let f ← openFusion e fw (mmPro w) (mmEpi w)
  let o := { o with fuse := some f }
  needE (fuseShapes o f) .shapeMismatch (some (fa, false))
  if rowEntry (mmEpi w) then do
    needE (groupOk c o f) .rowTooWide (some (fa, false))
    let g := fuGroup fw
    let z := tileRows (mmShape w) * o.n * 4
    let own := moduleOf (← get)
    needE (!([some o.a, o.b, o.c, f.resid].any (meets own g z false) || [o.d, f.estat].any (meets own g z true)))
      .fuseOverlap (some (g, false))
  pure o

/-- The tensors of the fusion block that an MM reads, and the statistics it writes. -/
def fuseReads (epi : Nat) (f : FuseTens) : List (Option Tens) :=
  [f.pvec, f.pstat, f.evec] ++ if epi == 2 || epi == 3 then [f.estat] else []

/-- A store of an MM goes where another operand lies, R by DST's descriptor apart: the data then is unspecified (R160, R188). -/
def mmLap (own : Nat) (o : MmOps) : Bool :=
  let epi := mmEpi o.word
  let reads := ([some o.a, o.b, o.c] ++ match o.fuse with
    | some f => f.resid :: fuseReads epi f
    | none => []).filterMap id
  let stat := if rowEntry epi || partEntry epi then o.fuse.bind fun f => f.estat else none
  ([o.d, stat].filterMap id).any (fun d => reads.any fun a => tensOverlap own d a) ||
    (match o.d, stat with
     | some d, some t => tensOverlap own d t
     | _, _ => false)

/-- Everything an MM checks and opens at issue, in the order of Table 6.8. Check 2 looks at the formats before check 3 opens the
descriptors; a descriptor that could not be read then is looked at when it is open. (DEDUCED, log 61) -/
def mmIssue (c : Nat) (i : Issued) (r : Nat) : Eng MmOps := do
  let w := i.word.toNat
  let e := envOf c .mm i
  let aAddr := addrOf i r 1
  let bAddr := addrOf i r 2
  let pro := mmPro w
  needE (mmEncOk w) .reservedField
  needE (pairOk (mmFmtA w) (mmFmtB w)) .formatPair
  needE (outFmtOk w) .formatPair
  let pa ← peekElem e aAddr
  if pro = 0 then needE (elemAgrees (mmFmtA w) pa) .formatPair (some (aAddr, false))
  if !(mmRelay w) then do
    let pb ← peekElem e bAddr
    needE (elemAgrees (mmFmtB w) pb) .formatPair (some (bAddr, false))
  let opnd : Use := { pad := true, dist := true, tiled := true, elems := [0, 1, 2, 3, 4, 5, 6, 7, 8, 9] }
  let a ← openTensor e { opnd with gather := true, onlyDim := some 1, inner := some 0 } aAddr
  if pro = 0 then needE (elemAgrees (mmFmtA w) (some (dElem a.w))) .formatPair (some (aAddr, false))
  let b ← if mmRelay w then pure none else do
    let t ← openTensor e { opnd with inner := some 1 } bAddr
    needE (elemAgrees (mmFmtB w) (some (dElem t.w))) .formatPair (some (bAddr, false))
    pure (some t)
  let cT ← if mmAccIn w then do
      let t ← openTensor e { dist := true, tiled := true, elems := [if mmInt w then 0xB else 0xA] } (addrOf i r 3)
      pure (some t)
    else pure none
  let d ← if mmRoute w = 1 then do
      let t ← openTensor e { opnd with elems := [outElem w], write := true } (addrOf i r 0)
      pure (some t)
    else pure none
  let m := dLogical a.w 1
  let k := if pro = 8 then dLogical a.w 0 / 2 else dLogical a.w 0
  let desc ← if mmRelay w then do
      let x ← streamFor e true
      pure (some x)
    else pure none
  let n := match b, desc with
    | some t, _ => dLogical t.w 0
    | none, some x => x.params.getD 2 0
    | _, _ => 0
  needE (dRank a.w == 2 && dLogical a.w 0 == (if pro = 8 then 2 * k else k) && shape2 b n k && shape2 cT n m && shape2 d n m &&
    decide (1 ≤ k ∧ k ≤ 1048576 ∧ m ≤ 8388608 ∧ n ≤ 8388608)) .shapeMismatch (some (aAddr, false))
  match desc with
  | some x => needE (x.params == [mmShape w, k, n, mmFmtB w] && decide (m ≤ tileRows (mmShape w))) .shapeMismatch
  | none => pure ()
  let o : MmOps := { word := w, a := a, b := b, c := cT, d := d, fuse := none, m := m, n := n, k := k,
                     final := decide (iRepM1 w ≤ r) }
  let o ← if pro = 0 ∧ mmEpi w = 0 then pure o else mmFuse c e w o
  pure { o with lap := mmLap (moduleOf (← get)) o }


end Sys2Proof.Machine
end

