-- ==== Sys2Proof/Machine/MatWork.lean ====
section
/-! DEFINITION. The work of the matrix array (chapter 6): tiles by blocks of 32 inner steps, exact integer and block-wise floating accumulation, the finished-tile queue, epilogues, row groups, arriving operands, and the rows of MM. -/

namespace Sys2Proof.Machine

/-! ## Tiles -/

/-- Rows and columns of tiles of an MM. -/
def tilesOf (o : MmOps) : Nat × Nat :=
  (cdiv o.m (tileRows (mmShape o.word)), cdiv o.n (tileCols (mmShape o.word) (mmFmtA o.word == 7)))

/-- Number of tiles of an MM: m-tiles ascending, within each the n-tiles ascending (R138). -/
def tileCount (o : MmOps) : Nat := (tilesOf o).1 * (tilesOf o).2

/-- Valid rows of an m-tile. -/
def tileRowsAt (o : MmOps) (mt : Nat) : List Nat :=
  let tr := tileRows (mmShape o.word)
  (List.range (min tr (o.m - mt * tr))).map fun i => mt * tr + i

/-- Valid columns of an n-tile. -/
def tileColsAt (o : MmOps) (nt : Nat) : List Nat :=
  let tc := tileCols (mmShape o.word) (mmFmtA o.word == 7)
  (List.range (min tc (o.n - nt * tc))).map fun j => nt * tc + j

/-- Blocks of 32 inner steps. -/
def blockCount (o : MmOps) : Nat := cdiv o.k 32

/-- Inner steps of a block. -/
def blockSteps (o : MmOps) (b : Nat) : List Nat := (List.range (min 32 (o.k - 32 * b))).map fun t => 32 * b + t

/-- Name the tile under computation in a fault's DETAIL (R143, Table 20.5). -/
def nameTile (o : MmOps) (f : FaultInfo) : FaultInfo := { f with detail := (tileAt o).1 + (tileAt o).2 * 2 ^ 18 }

/-- Count a completed tile; its events count when it is pushed or stored (Table 6.9). -/
def tileDone (sat nan : Bool) (s : State) : State :=
  let s := if sat then bumpE 0x3300 1 s else s
  if nan then bumpE 0x3300 2 s else s

/-! ## The start of a tile -/

/-- OSCALE of the fusion block. -/
def oscaleOf (o : MmOps) : Nat := match o.fuse with | some f => fuOscale f.w | none => 0x3F80_0000

/-- The vectors and row tensors of a tile, read at its start (R148): μ and r by row, g and β by inner step, s by row, t (or m), bias, γ
and β by column; those that the entry does not use are empty. -/
def tileVecs (e : Env) (o : MmOps) (mt nt : Nat) : Eng (List (List (Nat × Bool))) := do
  let pro := mmPro o.word
  let epi := mmEpi o.word
  match o.fuse with
  | none => pure []
  | some f => do
    let along := fun (use : Bool) (t : Option Tens) (l : List Nat) (at_ : Nat → Nat × Nat) =>
      if use then mapE (fun x => fuseWord e t (at_ x).1 (at_ x).2) l else pure []
    let rows := tileRowsAt o mt
    let cols := tileColsAt o nt
    let first := b2n (hasBias epi f)
    let mu ← along (pro == 4) f.pstat rows fun i => (i, 0)
    let r ← along (prologueStat pro) f.pstat rows fun i => (i, 1)
    let g ← along (prologueVec pro) f.pvec (List.range o.k) fun k => (0, k)
    let b ← along (pro == 4) f.pvec (List.range o.k) fun k => (1, k)
    let s ← along (epi == 2 || epi == 3) f.estat rows fun i => (i, 0)
    let t ← along (epi == 2 || epi == 3 || epi == 9) f.evec cols fun j => (0, j)
    let bias ← along (hasBias epi f) f.evec cols fun j => (if epi = 3 then 1 else 0, j)
    let ga ← along (epi == 0x10 || epi == 0x11) f.evec cols fun j => (first, j)
    let be ← along (epi == 0x11) f.evec cols fun j => (first + 1, j)
    pure [mu, r, g, b, s, t, bias, ga, be]

/-- A word of a tile's vectors; one that is not used reads zero. -/
def vecAt (b : Bank) (v i : Nat) : Nat × Bool := (b.vecs.getD v []).getD i (0, false)

/-- An accumulator's start from an element of C. -/
def cellStart (w : Nat) (x : Elem) : Int := if mmInt w then toSigned 32 x.bits else (x.bits : Int)

/-- A tile starts in a free bank: its vectors are read, and its accumulators take C's elements, or zero (R132, R148). -/
def tileStart (e : Env) (o : MmOps) : Eng MmOps := do
  let (mt, nt) := tileAt o
  let vs ← tileVecs e o mt nt
  let cs ← mapE (fun i => mapE (fun j => match o.c with
    | some t => readElem e t 0 [j, i]
    | none => pure { bits := 0 }) (tileColsAt o nt)) (tileRowsAt o mt)
  let halves := mmShape o.word != 0
  pure { o with bank := some {
    ctx := e.ctx, word := o.word, m := o.m, n := o.n, mt := mt, nt := nt, vecs := vs,
    half0 := cs.map fun l => l.map (cellStart o.word),
    half1 := if halves then cs.map fun l => l.map fun _ => 0 else [],
    poison := (cs.flatten.any fun x => x.poison) || vs.flatten.any fun x => x.2,
    last := o.final && tileCount o ≤ o.tile + 1 } }

/-! ## Operands of a block -/

/-- An operand element on its way into the array. -/
structure Opd where
  int    : Int := 0
  fl     : Fl := .nan
  poison : Bool := false
  sat    : Bool := false
  deriving DecidableEq, Repr

/-- A value times 2^(e - 127) for its scale byte e; 0xFF is NaN (Table 6.2). -/
def scaled (sc : Nat) (x : Fl) : Fl :=
  if sc = 0xFF then .nan
  else match x with
    | .fin n m e => .fin n m (e + (sc : Int) - 127)
    | y => y

/-- An operand from its bits. -/
def opdOf (fmt : Nat) (x : Elem) : Opd :=
  { int := elemInt fmt x.bits, fl := scaled x.scale (elemFl fmt x.bits), poison := x.poison }

/-- Elements of A for a block: by row the inner steps, after them SWIGLU's partners (R149). -/
def rawA (e : Env) (o : MmOps) (mt b : Nat) : Eng (List (List Elem)) :=
  mapE (fun i => do
    let xs ← mapE (fun k => readElem e o.a 0 [k, i]) (blockSteps o b)
    let ys ← if mmPro o.word = 8 then mapE (fun k => readElem e o.a 0 [o.k + k, i]) (blockSteps o b) else pure []
    pure (xs ++ ys)) (tileRowsAt o mt)

/-- Elements of B for a block, by column. -/
def rawB (e : Env) (o : MmOps) (t : Tens) (nt b : Nat) : Eng (List (List Elem)) :=
  mapE (fun j => mapE (fun k => readElem e t 1 [j, k]) (blockSteps o b)) (tileColsAt o nt)

/-- The destination is an operand's own tensor (R188). -/
def inPlace (o : MmOps) (t : Option Tens) : Bool :=
  match o.d, t with
  | some d, some t => sameTensor d.w t.w
  | _, _ => false

/-- A's block; where the destination is A, what the first n-tile read before any store serves the others (R188). -/
def blockA (e : Env) (o : MmOps) (mt nt b : Nat) : Eng (MmOps × List (List Elem)) := do
  if inPlace o (some o.a) then
    if nt = 0 then do
      let l ← rawA e o mt b
      pure ({ o with aHeld := (if b = 0 then [] else o.aHeld) ++ [l] }, l)
    else pure (o, o.aHeld.getD b [])
  else do
    let l ← rawA e o mt b
    pure (o, l)

/-- B's block from its descriptor; where the destination is B, what the first m-tile read before any store serves the others (R188). -/
def blockB (e : Env) (o : MmOps) (t : Tens) (mt nt b : Nat) : Eng (MmOps × List (List Elem)) := do
  if inPlace o (some t) then
    if mt = 0 then do
      let l ← rawB e o t nt b
      pure ({ o with bHeld := o.bHeld ++ [l] }, l)
    else pure (o, o.bHeld.getD (nt * blockCount o + b) [])
  else do
    let l ← rawB e o t nt b
    pure (o, l)

/-- An element of a packed row of weights. -/
def weightElem (f : Nat) (pl : List Byte) (at_ j : Nat) : Nat :=
  match elemWidth f with
  | 4 =>
    let b := (pl.getD (at_ + j / 2) 0).toNat
    if j % 2 = 1 then b / 16 else b % 16
  | 16 => ofLe ((pl.drop (at_ + 2 * j)).take 2)
  | _ => (pl.getD (at_ + j) 0).toNat

/-- B's block out of the weight parcel that holds it, by column (R281). -/
def weightB (o : MmOps) (x : Parcel) (first rows nt b : Nat) : List (List Elem) :=
  let f := mmFmtB o.word
  let (rb, sc) := weightRow (mmShape o.word) f
  (List.range (tileColsAt o nt).length).map fun j => (blockSteps o b).map fun k =>
    let (at_, sat_) := weightAt rb sc rows (k - first)
    { bits := weightElem f x.k0 at_ j, scale := if sc = 0 then 127 else (x.k0.getD (sat_ + j) 127).toNat, poison := x.poison }

/-- B's block from the relay port: the parcel of its rows stands there, or the array waits; answers whether the block is the parcel's
last. A parcel out of its place fails. (DEDUCED, log 124) -/
def blockRelay (e : Env) (o : MmOps) (nt b : Nat) : Eng (List (List Elem) × Bool) := do
  let _ ← streamFor e true
  let x ← nextParcel e
  let (rb, sc) := weightRow (mmShape o.word) (mmFmtB o.word)
  let p := weightRows rb sc
  let (first, rows) := (weightParcels o.k rb sc).getD (32 * b / p) (0, 0)
  needE (x.pos == nt && x.block == 32 * b / p) .streamOrder
  pure (weightB o x first rows nt b, decide (first + rows ≤ 32 * (b + 1)))

/-- Element (i, k) of a block of A, through the prologue (R149, R150): row i of the tile, inner step k, its partner of SWIGLU. -/
def opdA (o : MmOps) (bk : Bank) (i k : Nat) (x x2 : Elem) : Opd :=
  let pro := mmPro o.word
  if pro = 0 then opdOf (mmFmtA o.word) x
  else
    let y := prologueFn pro (x.bits * 2 ^ 16) (x2.bits * 2 ^ 16) (vecAt bk 0 i).1 (vecAt bk 1 i).1 (vecAt bk 2 k).1 (vecAt bk 3 k).1
    let v := prologueConv (mmFmtA o.word) (mmSatfin o.word) (match o.fuse with | some f => fuPscale f.w | none => 0x3F80_0000) y
    { opdOf (mmFmtA o.word) { bits := v.val, poison := x.poison || x2.poison } with sat := v.sat }

/-! ## Accumulation (R127, R131, R132) -/

/-- Exact sum of the products of one block: no rounding inside (R132). -/
def blockSum : List (Fl × Fl) → Fl
  | [] => .fin false 0 0
  | x :: r => r.foldl (fun a y => flAdd a (flMul y.1 y.2)) (flMul x.1 x.2)

/-- One cell takes a block: integers exactly, the even steps in half 0 and the odd ones in half 1 of a paired shape; floating blocks
whole, even-numbered ones in half 0. -/
def accCell (w b : Nat) (ps : List (Opd × Opd)) (h0 h1 : Int) : Int × Int :=
  let paired := mmShape w != 0
  if mmInt w then
    let part := fun (odd : Nat) => ((ps.zipIdx.filter fun x => !paired || x.2 % 2 == odd).map fun x => x.1.1.int * x.1.2.int).sum
    (h0 + part 0, if paired then h1 + part 1 else h1)
  else
    let v := enc32 (blockSum (ps.map fun x => (x.1.fl, x.2.fl)))
    if paired && b % 2 == 1 then (h0, (fadd h1.toNat v : Nat)) else ((fadd h0.toNat v : Nat), h1)

/-- A bank takes a block: A's elements by row, B's by column. -/
def accBlock (bk : Bank) (la lb : List (List Opd)) : Bank :=
  let cells := (la.zipIdx).map fun x => (lb.zipIdx).map fun y =>
    accCell bk.word bk.block (x.1.zip y.1) ((bk.half0.getD x.2 []).getD y.2 0) ((bk.half1.getD x.2 []).getD y.2 0)
  { bk with
    block := bk.block + 1
    half0 := cells.map fun l => l.map (·.1)
    half1 := if mmShape bk.word != 0 then cells.map fun l => l.map (·.2) else []
    poison := bk.poison || (la ++ lb).flatten.any fun x => x.poison
    sat := bk.sat || la.flatten.any fun x => x.sat }

/-- The next block of a tile enters the array (R126, R142). A streamed index entry counts when the walk first meets it (R189). -/
def tileBlock (e : Env) (o : MmOps) (bk : Bank) : Eng MmOps := do
  let b := bk.block
  let (bs, lastOf) ← if mmRelay o.word then blockRelay e o bk.nt b else pure ([], false)
  let (o, as) ← blockA { e with again := if bk.nt = 0 ∧ b = 0 then [] else [1] } o bk.mt bk.nt b
  let (o, bs) ← match o.b with
    | some t => blockB e o t bk.mt bk.nt b
    | none => pure (o, bs)
  let n := (blockSteps o b).length
  let la := as.zipIdx.map fun x => (List.range n).map fun t => opdA o bk x.2 (32 * b + t) (x.1.getD t { bits := 0 }) (x.1.getD (n + t) { bits := 0 })
  if lastOf then act (parcelApplied e.core)
  pure { o with bank := some (accBlock bk la (bs.map fun l => l.map (opdOf (mmFmtB o.word)))) }

/-! ## The drain (R131, R132, R138, R139) -/

/-- One accumulator as drained: the halves of a paired shape are added. -/
def drainCell (w : Nat) (h0 h1 : Int) : Flagged :=
  if mmInt w then narrow32 (mmSat w) (h0 + h1)
  else
    let v := if mmShape w != 0 then fadd h0.toNat h1.toNat else h0.toNat
    { val := v, nan := isNan32 v }

/-- A tile as drained: rows of words, and its flags. -/
structure Acc where
  rows   : List (List Nat)
  poison : Bool
  sat    : Bool
  nan    : Bool
  deriving DecidableEq, Repr

/-- Drain a bank. -/
def drainBank (b : Bank) : Acc :=
  let cells := b.half0.zipIdx.map fun x => x.1.zipIdx.map fun y => drainCell b.word y.1 ((b.half1.getD x.2 []).getD y.2 0)
  { rows := cells.map fun l => l.map fun x => x.val, poison := b.poison,
    sat := b.sat || cells.any (fun l => l.any fun x => x.sat), nan := cells.any fun l => l.any fun x => x.nan }

/-- The tag of a queue entry (Table 6.6). -/
def tileTag (w mt nt rows cols : Nat) (accFp aborted poison nan sat last : Bool) : Nat :=
  packFields [(96, 32, iPmSeq w), (78, 18, mt), (60, 18, nt), (53, 7, rows - 1), (46, 7, cols - 1), (44, 2, mmShape w),
    (39, 1, b2n accFp), (38, 1, b2n aborted), (37, 1, b2n poison), (36, 1, b2n nan), (35, 1, b2n sat), (34, 1, b2n last)]

/-- The queue entry that a finished bank becomes when it is pushed. -/
def tileOf (b : Bank) : Tile :=
  let a := drainBank b
  { tag := BitVec.ofNat 128 (tileTag b.word b.mt b.nt a.rows.length (a.rows.headD []).length (!(mmInt b.word)) b.aborted a.poison
      a.nan a.sat b.last)
    bf16 := mmFmtA b.word == 7
    m := b.m
    n := b.n
    data := a.rows.flatMap fun r => r.map fun v => BitVec.ofNat 32 v
    ctx := b.ctx }

/-- A bank waits to be drained into the queue. -/
def finishTile (c : Nat) (b : Bank) (s : State) : State :=
  setCore c (fun x => { x with array := { x.array with finished := x.array.finished ++ [b] } }) s

/-! ## ROUTE 1: epilogue and store (R152-R157) -/

/-- R's element, with its poison. -/
def residAt (e : Env) (o : MmOps) (i j : Nat) : Eng (Option (Nat × Bool)) := do
  match o.fuse.bind fun f => f.resid with
  | some rt => do
    let x ← readElem e rt 0 [j, i]
    pure (some (x.bits * 2 ^ 16, x.poison))
  | none => pure none

/-- The element stages of an epilogue on element (i, j) of a tile, with R's element: none without an epilogue. -/
def epilogueAt (o : MmOps) (bk : Bank) (acc i j : Nat) (resid : Option (Nat × Bool)) : Nat :=
  let epi := mmEpi o.word
  match o.fuse with
  | none => acc
  | some f =>
    if epi = 0 then acc
    else epilogueElem epi (!(mmInt o.word)) acc (vecAt bk 4 i).1 (vecAt bk 5 j).1
      (if hasBias epi f then some (vecAt bk 6 j).1 else none) (resid.map (·.1))

/-- The final conversion of an element without a row stage. -/
def finalConv (o : MmOps) (bk : Bank) (v j : Nat) : Flagged :=
  let epi := mmEpi o.word
  if epi = 9 then
    requant (toSigned 32 v) (toSigned 32 (vecAt bk 5 j).1) (match o.fuse with | some f => fuShift f.w | none => 0)
  else if epi = 0 then
    if mmInt o.word then convIntOut (outElem o.word) (toSigned 32 v) else convOut (outElem o.word) (mmSatfin o.word) v
  else convOut (outElem o.word) (mmSatfin o.word) (fmul v (oscaleOf o))

/-- Kind of row statistics of an entry: 0 RMSN, 1 LN, 2 SOFTMAX. -/
def rowKind (epi : Nat) : Nat := epi % 8

/-- Store one converted element to DST; what overlaps is left open (R160, R188). -/
def storeOut (e : Env) (o : MmOps) (i j v : Nat) (poison : Bool) : Eng Unit := do
  match o.d with
  | some t => do
    let v ← storedBits o.lap v
    writeElem e t false [j, i] v poison
  | none => pure ()

/-- Where a row entry's group buffer holds row i (inside the tile) and column j: row by row, FP32. (DEDUCED, log 66) -/
def groupAddr (o : MmOps) (i j : Nat) : Nat :=
  (match o.fuse with | some f => fuGroup f.w | none => 0) + 4 * (i * o.n + j)

/-- Write one pair of statistics to ESTAT: row i, pair number t. (DEDUCED, log 65) -/
def storeStat (e : Env) (o : MmOps) (i t : Nat) (st : Nat × Nat) (poison : Bool) : Eng Unit := do
  match o.fuse.bind fun f => f.estat with
  | some x => do
    let a ← storedBits o.lap st.1
    writeElem e x false (statAt x 0 t i) a poison
    let b ← storedBits o.lap st.2
    writeElem e x false (statAt x 1 t i) b poison
  | none => pure ()

/-- The elements of a drained tile after the element stages, R read before any store (R160), and whether R was poisoned. -/
def tileElems (e : Env) (o : MmOps) (bk : Bank) (a : Acc) : Eng (List (List Nat) × Bool) := do
  let tr := tileRows (mmShape o.word)
  let tc := tileCols (mmShape o.word) (mmFmtA o.word == 7)
  let l ← mapE (fun (x : List Nat × Nat) => mapE (fun (y : Nat × Nat) => do
    let r ← residAt e o (bk.mt * tr + x.2) (bk.nt * tc + y.2)
    pure (epilogueAt o bk y.1 x.2 y.2 r, (r.map (·.2)).getD false)) x.1.zipIdx) a.rows.zipIdx
  pure (l.map fun r => r.map (·.1), l.any fun r => r.any (·.2))

/-- The h or x of a row or PART entry: SOFTMAX scales before its statistics (Table 7.4). -/
def rowElem (o : MmOps) (h : Nat) : Nat := if rowKind (mmEpi o.word) = 2 then fmul h (oscaleOf o) else h

/-- Work on every element of a tile's rows in row order (R188). -/
def eachCell (f : Nat → Nat → Nat → Eng Unit) (rows : List (List Nat)) : Eng Unit :=
  eachE (fun (x : List Nat × Nat) => eachE (fun (y : Nat × Nat) => f x.2 y.2 y.1) x.1.zipIdx) rows.zipIdx

/-- One tile of an element entry, or of no epilogue, is stored. -/
def elemTile (e : Env) (o : MmOps) (bk : Bank) : Eng MmOps := do
  let tr := tileRows (mmShape o.word)
  let tc := tileCols (mmShape o.word) (mmFmtA o.word == 7)
  let a := drainBank bk
  let (hs, bad) ← tileElems e o bk a
  let fs := hs.map fun r => r.zipIdx.map fun y => finalConv o bk y.1 y.2
  eachCell (fun i j v => storeOut e o (bk.mt * tr + i) (bk.nt * tc + j) v (a.poison || bad)) (fs.map fun r => r.map fun x => x.val)
  act (fun s => tileDone (a.sat || fs.any fun r => r.any fun x => x.sat) a.nan s)
  pure o

/-- One tile of a PART entry: h or x stored raw, the partials to ESTAT. -/
def partTile (e : Env) (o : MmOps) (bk : Bank) : Eng MmOps := do
  let tr := tileRows (mmShape o.word)
  let tc := tileCols (mmShape o.word) (mmFmtA o.word == 7)
  let a := drainBank bk
  let (hs, bad) ← tileElems e o bk a
  let vs := hs.map fun r => r.map (rowElem o)
  let poison := a.poison || bad
  eachCell (fun i j v => storeOut e o (bk.mt * tr + i) (bk.nt * tc + j) v poison) vs
  eachE (fun (x : List Nat × Nat) =>
    storeStat e o (bk.mt * tr + x.2) bk.nt (rowPartial (rowKind (mmEpi o.word)) x.1) poison) vs.zipIdx
  act (fun s => tileDone a.sat a.nan s)
  pure o

/-- One tile of a row entry: h or x to the group buffer, the partials, γ and β kept for the finishing pass (R156); poison in it poisons
the group (R161). -/
def groupTile (e : Env) (o : MmOps) (bk : Bank) : Eng MmOps := do
  let tc := tileCols (mmShape o.word) (mmFmtA o.word == 7)
  let a := drainBank bk
  let (hs, bad) ← tileElems e o bk a
  let vs := hs.map fun r => r.map (rowElem o)
  let poison := a.poison || bad
  eachCell (fun i j v => store e (groupAddr o i (bk.nt * tc + j)) (toLe 4 v) poison) vs
  act (fun s => tileDone a.sat a.nan s)
  pure { o with
    parts := o.parts ++ [vs.map fun r => rowPartial (rowKind (mmEpi o.word)) r]
    gvecs := o.gvecs ++ (List.range (tileColsAt o bk.nt).length).map fun j => ((vecAt bk 7 j).1, (vecAt bk 8 j).1)
    groupBad := o.groupBad || poison }

/-- The finishing pass of a row group (R155, R156): the partials are combined, and the row stage's results of what the group buffer
holds are stored, tile by tile, row by row. -/
def finishGroup (e : Env) (o : MmOps) : Eng MmOps := do
  let kind := rowKind (mmEpi o.word)
  let tr := tileRows (mmShape o.word)
  let mt := o.tile / (tilesOf o).2 - 1
  let rows := (tileRowsAt o mt).length
  let sts := (List.range rows).map fun i =>
    rowCombine kind o.n (match o.fuse with | some f => fuEps f.w | none => 0) (o.parts.map fun t => t.getD i (0, 0))
  eachE (fun (x : (Nat × Nat) × Nat) => storeStat e o (mt * tr + x.2) 0 x.1 o.groupBad) sts.zipIdx
  eachE (fun nt => do
    eachE (fun i => eachE (fun j => do
      let (h, p) ← load e (groupAddr o i j) 4
      let g := o.gvecs.getD j (0, 0)
      let v := rowStage kind (oscaleOf o) (sts.getD i (0, 0)) (ofLe h) g.1 g.2
      storeOut e o (mt * tr + i) j (convOut (outElem o.word) (mmSatfin o.word) v).val (o.groupBad || p)) (tileColsAt o nt))
      (List.range rows)
    checkpoint) (List.range (tilesOf o).2)
  pure { o with parts := [], gvecs := [], groupBad := false }

/-- The end of a tile: into the queue's way, or through the epilogue to DST. -/
def tileEnd (e : Env) (o : MmOps) (bk : Bank) : Eng MmOps := do
  let o ← if mmRoute o.word = 0 then do
      act (finishTile e.core bk)
      pure o
    else if rowEntry (mmEpi o.word) then groupTile e o bk
    else if partEntry (mmEpi o.word) then partTile e o bk
    else elemTile e o bk
  act (addTotal 0x3300 3 1)
  pure { o with tile := o.tile + 1, bank := none }

/-! ## Arriving operands (R158) -/

/-- Chunks an instruction waits for in all. -/
def arrChunks (o : MmOps) : Nat :=
  match o.fuse with
  | none => 0
  | some f =>
    if fuArrMode f.w = 0 then 0
    else if fuArrMode f.w = 3 then cdiv (tilesOf o).2 (fuArrChunk f.w)
    else cdiv o.k (fuArrChunk f.w)

/-- The chunks that must have arrived before the next block enters. -/
def chunksNeeded (o : MmOps) (bk : Bank) : Nat :=
  match o.fuse with
  | none => 0
  | some f =>
    if fuArrMode f.w = 0 then 0
    else if fuArrMode f.w = 3 then bk.nt / fuArrChunk f.w + 1
    else 32 * bk.block / fuArrChunk f.w + 1

/-- ARRIVAL_CHUNK_MET (R158): the count of the arrival seal has reached the next chunk of the MM under way. -/
def arrivalChunkMet (c : Nat) (s : State) : State :=
  match readyHead s c .mm 1 with
  | none => s
  | some i =>
    match i.mm with
    | none => s
    | some o =>
      match o.fuse with
      | none => s
      | some f =>
        match sealOf s i.ctx (fuArrSeal f.w) with
        | none => s
        | some p =>
          if decide (o.chunks < arrChunks o) && waitMet s (p, BitVec.ofNat 32 (fuArrBase f.w + o.chunks + 1)) then
            setHead c .mm (fun i => { i with mm := some { o with chunks := o.chunks + 1 } }) s
          else s

/-- The arrival seal of an instruction is bound (R158). -/
def arrSealBound (e : Env) (o : MmOps) : Eng Unit := do
  let s ← get
  match o.fuse with
  | some f =>
    if fuArrMode f.w != 0 then
      match sealOf s e.ctx (fuArrSeal f.w) with
      | none => failE .sealUnknown
      | some p => if (sealAt s p).remote.isSome then failE .sealRemote
  | none => pure ()

/-! ## The row -/

/-- Every tile of a repeat is finished. -/
def mmDone (o : MmOps) : Bool := decide (tileCount o ≤ o.tile) && o.parts.isEmpty

/-- The weights of the repeat still have to come. -/
def weightsOpen (o : MmOps) : Bool := mmRelay o.word && !(mmDone o)

/-- The array waits: for a bank to be drained (R126, R138), or for an arriving chunk (R158). -/
def mmWaits (s : State) (c : Nat) (o : MmOps) : Bool :=
  match o.bank with
  | none => mmRoute o.word == 0 && decide (2 ≤ (core s c).array.finished.length)
  | some bk => decide (bk.block < blockCount o) && decide (o.chunks < chunksNeeded o bk)

/-- The next part of an MM's work, from one checkpoint to the next (R142). -/
def mmPart (e : Env) (o : MmOps) : Eng MmOps :=
  match o.bank with
  | none => if o.parts.length = (tilesOf o).2 && !o.parts.isEmpty then finishGroup e o else tileStart e o
  | some bk => if bk.block < blockCount o then tileBlock e o bk else tileEnd e o bk

/-- A repeat of an MM is complete (R216, R217). -/
def mmRepeatDone (c : Nat) (i : Issued) (s : State) : State :=
  let s := repeatSignal c i { s with wrote := [], wroteFar := [] }
  if iRepM1 i.word.toNat ≤ i.progress then endOk c .mm i [] s
  else setHead c .mm (fun x => { x with progress := x.progress + 1, mm := none, journal := [] }) s

/-- A relay MM that faults while its stream is current leaves the stream (R94, R282); against a void it leaves nothing (R86). -/
def mmLeave (c : Nat) (i : Issued) (s : State) : State :=
  let p := (core s c).relay
  if mmRelay i.word.toNat && !(exhausted p) && !(voidCurrent p) then leaveStream c s else s

/-- An MM that stops on a fault: a ROUTE 0 one that streams, or has streamed an earlier repeat, pushes its aborted entry (R143). (DEDUCED, log 49) -/
def mmFault (c : Nat) (i : Issued) (f : FaultInfo) (s : State) : State :=
  let s := if mmRoute i.word.toNat == 0 && (i.mm.isSome || i.progress != 0) then finishTile c (abortBank i) s else s
  endFault c .mm i i.progress f (mmLeave c i s)

/-- Keep what an MM has done. -/
def mmKeep (c : Nat) (o : MmOps) (j : List Ev) (s : State) : State :=
  setHead c .mm (fun x => { x with mm := some o, journal := j }) { s with wrote := [], wroteFar := [] }

/-- An issued MM works part by part until it is done, waits or is to stop. -/
def mmLoop (c : Nat) (i : Issued) : Nat → MmOps → List Ev → State → State
  | 0, o, j, s => mmKeep c o j s
  | n + 1, o, j, s =>
    if mmDone o then (if mmRoute o.word = 0 then mmKeep c o [] s else mmRepeatDone c i s)
    else if j.isEmpty && mmWaits s c o then mmKeep c o [] s
    else
      match runFrom j (stopping s c i.ctx) (mmPart (envOf c .mm i) o) s with
      | .ok o s' => if stopping s c i.ctx then mmKeep c o [] s' else mmLoop c i n o [] { s' with wrote := [], wroteFar := [] }
      | .error (.fault f, _) s' => mmFault c { i with mm := some o } (nameTile o f) s'
      | .error (stop, j) s' => holdHead c .mm i i.progress j stop (mmKeep c o j s')

/-- More parts than an MM has left: per tile its start, its blocks, its end and the finishing pass of a group. -/
def mmFuel (o : MmOps) : Nat := tileCount o * (blockCount o + 3) + 1

/-- Run an MM that has been issued. -/
def mmRun (c : Nat) (i : Issued) (o : MmOps) (s : State) : State := mmLoop c i (mmFuel o) o i.journal s

/-- The array is taken by a BCONV or a G_KSW (R65, R137, R175). -/
def arrayTaken (s : State) (c : Nat) : Bool := bconvHolds s c || kswHolds s c

/-- MM: the head of the queue is issued and works. While a tile of an earlier repeat waits to be pushed, the next does not start. -/
def mmRow (c : Nat) (s : State) : State :=
  match readyHead s c .mm 1 with
  | none => s
  | some i =>
    match i.mm with
    | some o => if mmDone o then s else mmRun c i o s
    | none =>
      if arrayTaken s c && !(begun i) then s
      else
        match runFrom i.journal false (do
            let o ← mmIssue c i i.progress
            arrSealBound (envOf c .mm i) o
            pure o) s with
        | .ok o s => mmRun c { i with journal := [] } o s
        | .error (.fault f, _) s => mmFault c i f s
        | .error (stop, j) s => holdHead c .mm i i.progress j stop s

/-- Entries of the finished-tile queue of a core. -/
def queueUsed (x : Core) : Nat := x.array.queue.length

/-- TILE_PUSH (R138, R139): the oldest finished tile is drained into the queue when it has room; with the last one of a repeat the
instruction goes on. -/
def tilePush (c : Nat) (s : State) : State :=
  match (core s c).array.finished with
  | [] => s
  | b :: r =>
    if 4 ≤ queueUsed (core s c) then s
    else
      let t := tileOf b
      let s := setCore c (fun x => { x with array := { x.array with finished := r, queue := x.array.queue ++ [t] } }) s
      let s := tileDone (bit t.tag.toNat 35) (bit t.tag.toNat 36) s
      if r.isEmpty then
        match headOf s c .mm with
        | some i => if mmRoute i.word.toNat == 0 && i.ctx == b.ctx && i.mm.any mmDone then mmRepeatDone c i s else s
        | none => s
      else s

end Sys2Proof.Machine
end

