-- ==== Sys2Proof/Machine/Results.lean ====
section
/-! DEFINITION. Result objects: creation, outcome, reading and release (R336-R338). -/

namespace Sys2Proof.Machine

/-- The first number from a start, going round n numbers, that is not used. A start with no stated value makes the choice
free. -/
def firstFree (start n : Nat) (used : Nat → Bool) : Option Nat :=
  ((List.range n).map fun i => (start + i) % n).find? fun k => !(used k)

/-- A result object. -/
def result (s : State) (k : Nat) : ResultObj := tget {} s.results k

/-- Change a result object. -/
def setResult (k : Nat) (f : ResultObj → ResultObj) (s : State) : State :=
  { s with results := tset s.results k (f (result s k)) }

/-- RESULTS_FREE. -/
def resultsFree (s : State) : Nat := 65536 - (s.results.filter fun e => e.2.state ≠ .released).length

/-- A handle: slot and generation (R336). -/
def handleOf (s : State) (k : Nat) : Nat := k * 65536 + (result s k).gen.toNat

/-- Create a PENDING object in some free slot: which one is not stated (R336). (DESIGN CHOICE, log 37) -/
def createResult (code ctx ports : Nat) (tag : Word32) (s : State) : Option Nat × State :=
  let d := draw s
  match firstFree d.1 65536 fun k => (result s k).state ≠ .released with
  | none => (none, s)
  | some k =>
    (some k, setResult k (fun o => { o with
      state := .pending, code := BitVec.ofNat 8 code, ctx := ctx, cgen := BitVec.ofNat 16 (ctxGen s ctx),
      ports := BitVec.ofNat 2 ports, status := 0, value := 0, data := [], reqTag := tag, watch := none, dropped := false }) d.2)

/-- Free a slot: its generation is incremented (R336). -/
def freeResult (k : Nat) (s : State) : State :=
  setResult k (fun o => { gen := o.gen + 1 }) s

/-! ### Commands that a manager relays (R354) -/

/-- A message of a relayed command: the command, or a report of its outcome. -/
structure RelayMsg where
  report : Bool
  code   : Nat
  ctx    : Nat
  gen    : Nat := 0
  dst    : Nat
  src    : Nat
  slot   : Nat
  status : Nat := 0
  value  : Nat := 0
  ops    : List Byte := []
  deriving DecidableEq, Repr

/-- The bytes of a message. -/
def relayBytes (m : RelayMsg) : List Byte :=
  toLe 8 (packFields [(0, 1, b2n m.report), (8, 8, m.code), (16, 12, m.ctx), (28, 16, m.gen)]) ++
  toLe 8 (packFields [(0, 15, m.dst), (15, 15, m.src), (30, 16, m.slot)]) ++
  toLe 8 (packFields [(0, 8, m.status), (16, 16, m.ops.length)]) ++ toLe 8 m.value ++ m.ops

/-- The message that bytes spell. -/
def relayMsgOf (bs : List Byte) : RelayMsg :=
  let w := fun (n : Nat) => ofLe ((bs.drop (8 * n)).take 8)
  { report := bit (w 0) 0, code := bits (w 0) 15 8, ctx := bits (w 0) 27 16, gen := bits (w 0) 43 28,
    dst := bits (w 1) 14 0, src := bits (w 1) 29 15, slot := bits (w 1) 45 30,
    status := bits (w 2) 7 0, value := w 3, ops := (bs.drop 32).take (bits (w 2) 31 16) }

/-- Send a message as a RELAY_CMD packet; express commands go express. -/
def sendRelay (m : RelayMsg) (s : State) : State :=
  routeTo m.dst { type := 0xA, express := decide (0x10 ≤ m.code ∧ m.code ≤ 0x14), dst := 0, ctx := m.ctx, data := relayBytes m } s

/-- Record the outcome of a command: with the context's GENERATION after it, or discarded when the object was released meanwhile
(R337). -/
def finishOne (k status value : Nat) (data : List Byte) (s : State) : State :=
  let o := result s k
  if o.state ≠ .pending then s
  else if o.dropped then freeResult k s
  else setResult k (fun o => { o with
    state := .ready, status := BitVec.ofNat 8 status, value := BitVec.ofNat 64 value, data := data,
    cgen := BitVec.ofNat 16 (ctxGen s o.ctx), watch := none }) s

/-- The relayed command of a result. -/
def relayJobOf (s : State) (k : Nat) : Option RelayJob := s.relayJobs.find? fun j => j.result == k

/-- Forget the relayed command of a result. -/
def dropJob (k : Nat) (s : State) : State := { s with relayJobs := s.relayJobs.filter fun j => j.result != k }

/-- The status of a relayed command: the first refusal in order of pod, board and module, or DONE. -/
def jobStatus (l : List (Nat × Nat × Nat)) : Nat :=
  match (l.filter fun r => r.2.1 != 0).foldl (fun (b : Option (Nat × Nat × Nat)) r => match b with
    | some x => if r.1 < x.1 then some r else some x
    | none => some r) none with
  | some r => r.2.1
  | none => 0

/-- A relayed command whose modules have all reported ends. -/
def completeJob (k : Nat) (s : State) : State :=
  match relayJobOf s k with
  | none => s
  | some j =>
    if j.await.isEmpty ∧ (j.reported.any fun r => r.1 == identityOf s % 2 ^ 15) = true then
      let own := (j.reported.find? fun r => r.1 == identityOf s % 2 ^ 15).map fun r => r.2.2
      finishOne k (jobStatus j.reported) (own.getD 0) (result s k).data (dropJob k s)
    else s

/-- Note a module's report. -/
def noteReport (k ident status value : Nat) (s : State) : State :=
  { s with relayJobs := s.relayJobs.map fun j =>
      if j.result == k then { j with await := j.await.filter (fun m => m != ident), reported := j.reported ++ [(ident, status, value)] }
      else j }

/-- A command ends (R337). A relayed one reports to its manager, or waits on the manager for the other modules (R354). -/
def finishResult (k status value : Nat) (data : List Byte) (s : State) : State :=
  match relayJobOf s k with
  | none => finishOne k status value data s
  | some j =>
    match j.up with
    | some (mgr, slot) =>
      sendRelay { report := true, code := j.code.toNat, ctx := j.ctx, dst := mgr, src := identityOf s % 2 ^ 15, slot := slot,
                  status := status, value := value } (freeResult k (dropJob k s))
    | none =>
      completeJob k (noteReport k (identityOf s % 2 ^ 15) status value (setResult k (fun o => { o with data := data }) s))

/-- A command ends with a status alone. -/
def endResult (k status : Nat) (s : State) : State := finishResult k status 0 [] s

/-- A path may read an object: a port by its bit, the sideband and the firmware always (R291, R336). (DEDUCED, log 113) -/
def resultAllowed (o : ResultObj) (p : Path) : Bool :=
  match p with
  | .port0 => bit o.ports.toNat 0
  | .port1 => bit o.ports.toNat 1
  | _ => true

/-- A result header on the wire (Table 15.7). -/
def resultHeader (state status code ctx gen handle value len : Nat) (tag : Nat) : List Byte :=
  let w := packFields [(252, 4, 1), (248, 4, state), (240, 8, status), (232, 8, code), (220, 12, ctx), (192, 16, gen),
    (160, 32, handle), (96, 64, value), (80, 16, len), (32, 32, tag)]
  let h := (toBe 32 w).take 28
  h ++ toBe 4 (crc32c h)

/-- The answer for an object that is gone, stale or not permitted. -/
def goneHeader (handle : Nat) : List Byte := resultHeader 3 0x31 0 0 0 handle 0 0 0

/-- The object a handle names for a path. -/
def namedResult (s : State) (p : Path) (handle : Nat) : Option Nat :=
  let k := handle / 65536 % 65536
  let o := result s k
  if o.state ≠ .released && !o.dropped && o.gen.toNat == handle % 65536 && resultAllowed o p then some k else none

/-- RESULT_READ (R337). -/
def resultRead (p : Path) (handle : Nat) (s : State) : State :=
  match namedResult s p handle with
  | none => emit (.result p (goneHeader handle)) s
  | some k =>
    let o := result s k
    if o.state = .pending then
      emit (.result p (resultHeader 1 0x30 o.code.toNat o.ctx o.cgen.toNat handle 0 0 o.reqTag.toNat)) s
    else
      emit (.result p (resultHeader 2 o.status.toNat o.code.toNat o.ctx o.cgen.toNat handle o.value.toNat o.data.length
        o.reqTag.toNat ++ o.data)) s

/-- RESULT_RELEASE (R337): the slot is freed, at once or when the command ends. -/
def resultRelease (p : Path) (handle : Nat) (s : State) : State :=
  match namedResult s p handle with
  | none => emit (.result p (goneHeader handle)) s
  | some k =>
    let o := result s k
    let s := if o.state = .pending then setResult k (fun o => { o with dropped := true }) s else freeResult k s
    emit (.result p (resultHeader 3 0 o.code.toNat o.ctx o.cgen.toNat handle 0 0 o.reqTag.toNat)) s

/-- RESULT_TTL has passed for a READY object: it is released; with RESULT_TTL 0, never (R337). (DESIGN CHOICE, log 4) -/
def resultTtlExpiry (k : Nat) (s : State) : State :=
  if (result s k).state = .ready ∧ reg s 0x3B00 6 ≠ 0 then freeResult k s else s

end Sys2Proof.Machine
end

