-- ==== Sys2Proof/Machine/Messaging.lean ====
section
/-! DEFINITION. Envelopes, mailboxes, receipts, dead letters, sorting offices, stamps and seals (chapter 11): the MSG class and the events of its hardware. -/

namespace Sys2Proof.Machine

/-! ## Envelopes (Table 11.1) -/

/-- CONTEXT of an envelope. -/
def envCtx (e : Nat) : Nat := bits e 63 52
/-- DST_BOX. -/
def envBox (e : Nat) : Nat := bits e 29 25
/-- DST_CORE. -/
def envCore (e : Nat) : Nat := bits e 36 30
/-- DST_MODULE. -/
def envModule (e : Nat) : Nat := bits e 39 37
/-- DST_BOARD. -/
def envBoard (e : Nat) : Nat := bits e 45 40
/-- DST_POD. -/
def envPod (e : Nat) : Nat := bits e 51 46
/-- KIND: 0 DATA, 1 DELIVERED, 2 RETURNED. -/
def envKind (e : Nat) : Nat := bits e 73 72
/-- RCPT. -/
def envRcpt (e : Nat) : Bool := bit e 71
/-- DESC. -/
def envDesc (e : Nat) : Bool := bit e 70
/-- POISON. -/
def envPoison (e : Nat) : Bool := bit e 69
/-- REPLY_BOX. -/
def envReply (e : Nat) : Nat := bits e 12 8
/-- RANK. -/
def envRank (e : Nat) : Nat := bits e 79 74
/-- POSTMARK. -/
def envPm (e : Nat) : Nat := bits e 223 160
/-- DATA_ADDR. -/
def envAddr (e : Nat) : Nat := bits e 159 112
/-- The core that sent an envelope, by its postmark. -/
def envSrcCore (e : Nat) : Nat := bits (envPm e) 56 50

/-- The destination lies on this module. -/
def envHere (s : State) (e : Nat) : Bool :=
  envModule e == moduleOf s && envBoard e == boardOf s && envPod e == podOf s

/-- The checks of R234 on an envelope as prepared. -/
def envFieldsOk (e : Nat) : Bool :=
  bits e 3 0 == 9 && bits e 7 4 == 1 && envKind e == 0 && decide (envBox e ≤ 19) && bits e 68 64 == 0 && decide (envReply e ≤ 15)

/-- The envelope as SEND completes it: HW fields overwritten, ENV_CHECK computed (R234). -/
def envSeal (s : State) (ctx pm e : Nat) : Nat :=
  let e := setBits e 223 160 pm
  let e := setBits e 73 72 0
  let e := setBits e 63 52 ctx
  let e := setBits e 24 19 (podOf s)
  let e := setBits e 18 13 (boardOf s)
  withCheck 32 e

/-- A receipt for an envelope (R242): the original POSTMARK, DATA_ADDR, LENGTH and TAG, RCPT 0, towards the reply mailbox. -/
def receiptOf (s : State) (e kind : Nat) : Nat :=
  withCheck 32 (packFields [(160, 64, envPm e), (112, 48, envAddr e), (88, 24, bits e 111 88), (80, 8, bits e 87 80),
    (74, 6, envRank e), (72, 2, kind), (70, 1, b2n (envDesc e)), (69, 1, b2n (envPoison e)), (52, 12, envCtx e),
    (46, 6, bits e 24 19), (40, 6, bits e 18 13), (37, 3, bits (envPm e) 63 61), (30, 7, envSrcCore e),
    (25, 5, envReply e), (19, 6, podOf s), (13, 6, boardOf s), (4, 4, 1), (0, 4, 9)])

/-- Send a receipt of an envelope that asked for one (R242). -/
def sendReceipt (e kind : Nat) (s : State) : State :=
  if envRcpt e then
    { s with receipts := s.receipts ++ [{ env := BitVec.ofNat 256 (receiptOf s e kind), core := envSrcCore e }] }
  else s

/-! ## Mailboxes (R236) -/

/-- A mailbox of a core. -/
def mailbox (s : State) (c b : Nat) : Mailbox := (core s c).mailboxes.getD b {}

/-- Change a mailbox. -/
def setMailbox (c b : Nat) (f : Mailbox → Mailbox) (s : State) : State :=
  setCore c (fun x => { x with mailboxes := lmod x.mailboxes b f }) s

/-- An office of a core. -/
def office (s : State) (c o : Nat) : Office := (core s c).offices.getD o {}

/-- Change an office. -/
def setOffice (c o : Nat) (f : Office → Office) (s : State) : State :=
  setCore c (fun x => { x with offices := lmod x.offices o f }) s

/-- Free slots of a mailbox: 64, less those queued and those reserved for receipts (R237, R242). -/
def mbFree (m : Mailbox) : Nat := 64 - m.queue.length - m.reserved

/-! ## The dead-letter mailbox (R243, R244) -/

/-- A dead-letter entry (Table 11.2). -/
def dlEntry (s : State) (c reason seq e : Nat) : Nat :=
  withCheck 64 (packFields [(448, 32, seq), (416, 32, (die s (dieOf c)).time.toNat), (408, 8, reason), (405, 3, moduleOf s),
    (398, 7, c), (0, 256, e)])

/-- What happens when an envelope cannot be stored: DL_LOST_EVENTS moves and a record carries the envelope (R244), unless a
kill releases it (R436). -/
def dlLost (quiet : Bool) (c ctx e : Nat) (s : State) : State :=
  if quiet then bumpE 0x3700 4 s
  else stageRec (dieOf c) { unit := .msg, reason := .deadLetterLost, core := c, ctx := ctx, detail := e, postmark := some (envPm e) }
    (bumpE 0x3700 4 s)

/-- An envelope goes to the dead-letter mailbox of its context (R243, R244): stored when the ring has room, else lost; a
sender that asked receives RETURNED, unless it is a receipt. -/
def deadLetterQ (quiet : Bool) (c reason e : Nat) (s : State) : State :=
  let ctx := envCtx e
  let s := if envKind e = 0 then sendReceipt e 2 s else s
  if ctxState s ctx = 0 then dlLost quiet c ctx e s
  else
    let s := bumpE 0x3700 3 s
    let base := ctxDlBase s ctx
    match (if base = 0 then none else unitPieces s ctx true base 64) with
    | none => dlLost quiet c ctx e s
    | some ps =>
      let (h, _, s) := unitRead .read true ps (unitUse ctx base 64 s)
      let w := ofLe (h.take 4)
      let r := ofLe ((h.drop 4).take 4)
      let l := ofLe ((h.drop 8).take 4)
      let size := 2 ^ ctxDlLog2 s ctx
      let at_ := base + 64 + 64 * (w % size)
      match (if (w + 2 ^ 32 - r) % 2 ^ 32 < size then unitPieces s ctx true at_ 64 else none) with
      | some es =>
        let s := unitWrite .write true false es (toLe 64 (dlEntry s c reason w e)) (unitUse ctx at_ 64 s)
        unitWrite .write true false ps (toLe 4 (w + 1) ++ h.drop 4) s
      | none => dlLost quiet c ctx e (unitWrite .write true false ps (h.take 8 ++ toLe 4 (l + 1) ++ h.drop 12) s)

/-- An envelope goes to the dead-letter mailbox of its context. -/
def deadLetter (c reason e : Nat) (s : State) : State := deadLetterQ false c reason e s

/-- Close a mailbox: every envelope then queued, a receipt too, goes to the dead-letter ring in queue order, and the reason of the close
is kept for later ones (R236, R243). Reason 0 keeps none. -/
def closeMailbox (quiet : Bool) (c b queued later : Nat) (s : State) : State :=
  let m := mailbox s c b
  let s := setMailbox c b (fun m => { m with owner := none, queue := [], reserved := 0, closed := BitVec.ofNat 8 later }) s
  m.queue.foldl (fun s e => deadLetterQ quiet c queued e.toNat s) s

/-- Close every mailbox of a core that a context holds. -/
def closeMailboxes (quiet : Bool) (c ctx reason : Nat) (s : State) : State :=
  (List.range 16).foldl (fun s b => if (mailbox s c b).owner = some ctx then closeMailbox quiet c b reason reason s else s) s

/-! ## Sorting offices (R245-R248) -/

/-- EXPECT of an office. -/
def officeExpect (o : Office) : Nat := bits o.record.toNat 23 17

/-- Contributions held, by ascending rank. -/
def officeHeld (o : Office) : List (Nat × Nat) :=
  o.slots.filterMap fun e => e.2.map fun v => (e.1, v.toNat)

/-- Close an office: every held envelope is dead-lettered as OFFICE_CLOSED (R248, R258). -/
def closeOffice (quiet : Bool) (c o : Nat) (s : State) : State :=
  let held := officeHeld (office s c o)
  let s := setOffice c o (fun _ => {}) s
  held.foldl (fun s e => deadLetterQ quiet c 6 e.2 s) s

/-! ## Acceptance (R237, R238, R246) -/

/-- What becomes of an envelope that reaches its destination. -/
inductive Arrival where
  | accepted | waits | dead (reason : Nat)
  deriving DecidableEq, Repr

/-- The judgement of R237, R243 and R246 on a whole envelope at this module. -/
def arrivalOf (s : State) (e : Nat) : Arrival :=
  let c := envCore e
  let b := envBox e
  if b < 16 then
    let m := mailbox s c b
    if m.owner = some (envCtx e) then (if 0 < mbFree m then .accepted else .waits)
    else if m.owner = none ∧ (m.closed = 1 ∨ m.closed = 2) then .dead m.closed.toNat
    else .dead 3
  else
    let o := office s c (b - 16)
    if o.owner = some (envCtx e) then
      if envDesc e && decide (envRank e < officeExpect o) then
        (if o.adding || o.closing || (tget none o.slots (envRank e)).isSome then .waits else .accepted)
      else .dead 5
    else .dead 5

/-- Accept an envelope: into its mailbox, or into its office's slot, where a full set of ranks starts the round (R237,
R246, R247). The trace carries it (R428). -/
def acceptEnv (e : Nat) (s : State) : State :=
  let c := envCore e
  let b := envBox e
  let s := trace (dieOf c) { tkind := 3, postmark := envPm e, ctx := envCtx e, core := c, aux := bits e 51 25 } s
  if b < 16 then
    sendReceipt e 1 (setMailbox c b (fun m => { m with queue := m.queue ++ [BitVec.ofNat 256 e] }) s)
  else
    setOffice c (b - 16) (fun o =>
      let slots := tset o.slots (envRank e) (some (BitVec.ofNat 256 e))
      let n := (slots.filter fun x => x.2.isSome).length
      { o with slots := slots, adding := n == officeExpect o }) s

/-- The instruction of an envelope in flight, at the head of its core's MSG queue, if it is still there. -/
def flightHead (s : State) (f : EnvFlight) : Option Issued :=
  match headOf s f.srcCore .msg with
  | some i => if i.serial == f.serial && i.ctx == envCtx f.env.toNat then some i else none
  | none => none

/-- Change the MSG instructions of a context that satisfy a test, in the queue of a core or saved out of it (R228). -/
def setWaiting (c ctx : Nat) (p : Issued → Bool) (f : Issued → Issued) (s : State) : State :=
  let g := fun (i : Issued) => if i.ctx == ctx && p i then f i else i
  let s := if c < 128 then setCore c (fun x => { x with qMsg := x.qMsg.map g }) s else s
  if c < 128 ∧ (tfind s.streams (skey ctx c)).isSome = true then
    setStream ctx c (fun t => { t with saved := t.saved.map fun e => (e.1, if e.1 = .msg then g e.2 else e.2) }) s
  else s

/-- Mark a core of this module as stalled in its MSG queue, from now, or as going on (R240). A sender that is no core has number
128 or more here. -/
def setStalled (c : Nat) (b : Bool) (s : State) : State :=
  if c < 128 ∧ (core s c).stalled ≠ b then setCore c (fun x => { x with stalled := b, stallStart := s.time, stallSeen := false }) s else s

/-- A SEND stalls with an envelope, or a STAMP_GET with what names its destination (R240, R250). (DEDUCED, log 72) -/
def stallWith (c e : Nat) (s : State) : State :=
  if c < 128 then setCore c (fun x => { x with stallEnv := BitVec.ofNat 256 e }) (setStalled c true s) else s

/-- The stall of a context on a core is over. -/
def endStall (c ctx : Nat) (s : State) : State :=
  if c < 128 ∧ envCtx (core s c).stallEnv.toNat = ctx then setStalled c false s else s

/-- A repeat of an MSG instruction that waited for an answer is complete (R216, R217). -/
def msgRepeatDone (c : Nat) (i : Issued) (s : State) : State :=
  let s := repeatSignal c i s
  if iRepM1 i.word.toNat ≤ i.progress then endOk c .msg i [] s
  else setHead c .msg (fun x => { x with progress := x.progress + 1, work := [], journal := [] }) s

/-! ### Envelopes between modules (R237, R240, R357)

The module of the destination tells the sender what becomes of an envelope: the sender keeps its copy until then. An ENVELOPE packet
carries it, with a code above bit 4 of LABEL: 0 the envelope itself, 1 it is accepted or dead-lettered, 2 it waits, 3 its check failed,
5 its sender gives it up. (DESIGN CHOICE, log 73) -/

/-- The packet of an envelope, or of what is said about it. -/
def envPacket (code e : Nat) : Packet :=
  { type := 4, dst := 0, srcCore := envSrcCore e, dstCore := envCore e, ctx := envCtx e, label := envBox e + 32 * code, data := toLe 32 e }

/-- The identity of an envelope's destination module. -/
def envIdent (e : Nat) : Nat := bits e 51 37

/-- The identity of the module that sent an envelope. -/
def envSource (e : Nat) : Nat := bits (envPm e) 63 61 + bits e 18 13 * 8 + bits e 24 19 * 512

/-- Send an envelope on its way to another module (R350, R357). -/
def routeEnv (e : Nat) (s : State) : State := routeTo (envIdent e) (envPacket 0 e) s

/-- Tell the sender of an envelope what becomes of it. -/
def answerEnv (code e : Nat) (s : State) : State := routeTo (envSource e) (envPacket code e) s

/-- An envelope waits here for a port, or for an entry of the peer table (R352, R357). -/
def envWaits (s : State) (e : Nat) : Bool :=
  let is := fun (k : Packet) => k.type == 4 && k.data == toLe 32 e
  s.linkHeld.any is || s.hier.held.any fun x => is x.2

/-- The envelope has left its sender's hands: the SEND goes on to its next repeat, at once or when it runs again; a sender on
another module is told (R237, R240). -/
def envGone (f : EnvFlight) (s : State) : State :=
  let e := f.env.toNat
  if 512 ≤ f.srcCore then answerEnv 1 e s
  else
    let s := endStall f.srcCore (envCtx e) s
    match flightHead s f with
    | some i => msgRepeatDone f.srcCore i s
    | none => setWaiting f.srcCore (envCtx e) (fun i => i.serial == f.serial) (fun i => { i with work := [2] }) s

/-- A reply slot that no receipt will fill is free again. (DEDUCED, log 72) -/
def releaseReply (c e : Nat) (s : State) : State :=
  if envRcpt e then setMailbox c (envReply e) (fun m => { m with reserved := m.reserved - 1 }) s else s

/-- An envelope has failed its check twice: its SEND faults, at once or when it runs again (R237). -/
def sendFails (f : EnvFlight) (s : State) : State :=
  let e := f.env.toNat
  let s := releaseReply f.srcCore e (endStall f.srcCore (envCtx e) s)
  match flightHead s f with
  | some i => endFault f.srcCore .msg i i.progress { reason := .envelopeCheck } s
  | none => setWaiting f.srcCore (envCtx e) (fun i => i.serial == f.serial) (fun i => { i with work := [9] }) s

/-- Remove the n-th envelope in flight. -/
def dropFlight (n : Nat) (s : State) : State := { s with envFlight := ldrop s.envFlight n }

/-- Change the n-th envelope in flight. -/
def setFlight (n : Nat) (f : EnvFlight → EnvFlight) (s : State) : State := { s with envFlight := lmod s.envFlight n f }

/-- An earlier envelope of the same channel is still in flight (R238). -/
def channelBehind (s : State) (n : Nat) (f : EnvFlight) : Bool :=
  (s.envFlight.take n).any fun g =>
    g.srcCore == f.srcCore && bits g.env.toNat 63 25 == bits f.env.toNat 63 25 && g.remote == f.remote

/-- A failing ENV_CHECK is counted and recorded with the bytes received (R237). -/
def noteCheckFail (own e : Nat) (s : State) : State :=
  let c := envCore own
  stageRec (dieOf c) { unit := .msg, reason := .envCheckFail, core := c, ctx := envCtx own,
                       postmark := some (envPm own), detail := e } (bumpE 0x3700 5 s)

/-- ENVELOPE_ARRIVAL (R237, R240, R243, R246): the n-th envelope in flight reaches its destination on this module as the bytes
received. One whose check fails is sent again once; a second failure faults the SEND. One that cannot be accepted yet stalls its
sender; one that has stalled is left to the steps of R258 once its context is closing. -/
def envelopeArrival (n : Nat) (received : BitVec 256) (s : State) : State :=
  match s.envFlight[n]? with
  | none => s
  | some f =>
    if f.remote || channelBehind s n f || (f.stalled && ctxState s (envCtx f.env.toNat) == 3) then s
    else
      let own := f.env.toNat
      let e := received.toNat
      if checkOk 32 e = false then
        let s := noteCheckFail own e s
        if 512 ≤ f.srcCore then answerEnv 3 own (dropFlight n s)
        else if f.attempts = 0 then setFlight n (fun f => { f with attempts := 1 }) s
        else sendFails f (dropFlight n s)
      else
        match arrivalOf s e with
        | .accepted => envGone f (acceptEnv e (dropFlight n s))
        | .dead r => envGone f (deadLetter (envCore own) r e (dropFlight n s))
        | .waits =>
          if f.stalled then s
          else
            let s := setFlight n (fun f => { f with stalled := true }) s
            if 512 ≤ f.srcCore then answerEnv 2 own s else stallWith f.srcCore own s

/-- What the module of the destination says of an envelope that this module sent. -/
def envelopeAnswer (code e : Nat) (s : State) : State :=
  match s.envFlight.findIdx? fun f => f.remote && f.env.toNat == e with
  | none => s
  | some n =>
    match s.envFlight[n]? with
    | none => s
    | some f =>
      if code = 1 then envGone f (dropFlight n s)
      else if code = 2 then
        let s := setFlight n (fun f => { f with stalled := true }) s
        if (flightHead s f).isSome then stallWith f.srcCore e s else s
      else if f.attempts = 0 then routeEnv e (setFlight n (fun f => { f with attempts := 1 }) s)
      else sendFails f (dropFlight n s)

/-- A sender gives up an envelope that waits here. -/
def envelopeCancel (e : Nat) (s : State) : State :=
  { s with envFlight := s.envFlight.filter fun f => !(decide (512 ≤ f.srcCore) && f.env.toNat == e) }

/-! ## SEND, RECV, POLL (R234-R242) -/

/-- Fields that an MSG opcode must leave zero (Table 11.6). -/
def msgFieldsOk (w : Nat) : Bool :=
  let op := iOpcode w
  let box := bits w 52 48
  let sid := bits w 47 32
  let v := bits w 31 0
  let boxOk := if [2, 3, 4, 5].contains op then decide (box < 16) else if [8, 9].contains op then decide (box < 4) else box == 0
  let sealOk := [0x18, 0x19, 0x1A, 0x1B].contains op || sid == 0
  let valOk :=
    if op = 0x10 ∨ op = 0x11 then bits v 21 13 == 0 && (op == 0x11 || decide (1 ≤ bits v 12 0 ∧ bits v 12 0 ≤ 4096))
    else if op = 0x18 then true
    else if op = 0x1B then decide (1 ≤ v ∧ v ≤ 0x7FFFFFFF)
    else if op = 0x1A then !(bit v 16)
    else v == 0
  boxOk && sealOk && valOk

/-- The checks MSG makes at issue (R259). -/
def msgIssue (i : Issued) : Eng Unit := needE (msgFieldsOk i.word.toNat) .reservedField

/-- An address in the executing core's scratchpad, 32-byte aligned (R233, R239). -/
def ownAligned (e : Env) (a : Nat) : Eng Unit :=
  needE (a % 32 == 0 && isSp a && spCore a == e.core) .alignment (some (a, false))

/-- A SEND may have to wait for a slot of its reply mailbox; it reserves one before it sends (R242). -/
def reserveReply (e : Env) (v : Nat) : Eng Unit := do
  let s ← get
  if envRcpt v then
    let m := mailbox s e.core (envReply v)
    needE (m.owner == some e.ctx) .mailboxNotOpen
    if mbFree m = 0 then throw .stall
    set (setMailbox e.core (envReply v) (fun m => { m with reserved := m.reserved + 1 }) s)

/-- SEND of one envelope (R234): read, checked, completed and on its way; then the instruction waits for its acceptance. -/
def sendOne (c : Nat) (i : Issued) (r : Nat) : Eng (List SealMsg) := do
  msgIssue i
  let e := envOf c .msg i
  let a := addrOf i r 0
  ownAligned e a
  let v ← loadWord e a 32
  needE (envFieldsOk v) .reservedField (some (a, false))
  once (do
    reserveReply e v
    modify fun s => { s with envFlight := s.envFlight ++ [{
      env := BitVec.ofNat 256 (envSeal s i.ctx i.postmark.toNat v), srcCore := c, serial := i.serial, remote := !(envHere s v) }] })
  pure []

/-- The envelope that a SEND holds while it waits for a reply slot: what it has read, completed (R234, R242). -/
def heldEnv (s : State) (i : Issued) (j : List Ev) : Nat :=
  match j.getLast? with
  | some (.data b _) => envSeal s i.ctx i.postmark.toNat (ofLe b)
  | _ => 0

/-- A SEND's envelope leaves the core; one that a port or the peer table holds back stalls it at once (R352, R357). -/
def sendOff (c : Nat) (s : State) : State :=
  match s.envFlight.getLast? with
  | none => s
  | some f =>
    let e := f.env.toNat
    let s := endStall c (envCtx e) s
    if f.remote then
      let s := routeEnv e s
      if envWaits s e then stallWith c e (setFlight (s.envFlight.length - 1) (fun f => { f with stalled := true }) s) else s
    else s

/-- The SEND row: the head SEND with no envelope in flight sends its next one and keeps the head until that is accepted. -/
def sendRow (c : Nat) (s : State) : State :=
  match readyHead s c .msg 1 with
  | none => s
  | some i =>
    match s.envFlight.find? fun f => f.srcCore == c && f.serial == i.serial && envCtx f.env.toNat == i.ctx with
    | some f => if f.stalled then stallWith c f.env.toNat s else s
    | none =>
      if i.work = [2] then msgRepeatDone c i s
      else if i.work = [9] then endFault c .msg i i.progress { reason := .envelopeCheck } s
      else
        match runFrom i.journal false (sendOne c i i.progress) s with
        | .ok _ s' => sendOff c (setHead c .msg (fun x => { x with journal := [] }) s')
        | .error (.fault f, _) s' => endFault c .msg i i.progress f (endStall c i.ctx s')
        | .error (.stall, j) s' => stallWith c (heldEnv s i j) (holdHead c .msg i i.progress j .stall s')
        | .error (stop, j) s' => holdHead c .msg i i.progress j stop s'

/-- A suspended context's envelopes in flight inside the module come back to their senders, who send them again on
resumption; their reserved reply slots are given up (R240, R242). -/
def recallFlights (c ctx : Nat) (s : State) : State :=
  let mine := fun (f : EnvFlight) => f.srcCore == c && envCtx f.env.toNat == ctx && !f.remote
  let s := (s.envFlight.filter mine).foldl (fun s f => releaseReply c f.env.toNat s) s
  endStall c ctx { s with envFlight := s.envFlight.filter fun f => !(mine f) }

/-- RECV and POLL of one envelope (R239). -/
def recvOne (poll : Bool) (c : Nat) (i : Issued) (r : Nat) : Eng (List SealMsg) := do
  msgIssue i
  let e := envOf c .msg i
  let b := bits i.word.toNat 52 48
  needE ((mailbox (← get) c b).owner == some i.ctx) .mailboxNotOpen
  let a := addrOf i r 0
  ownAligned e a
  match (mailbox (← get) c b).queue with
  | [] => if poll then store e a (List.replicate 32 0) false else throw .stall
  | v :: _ => do
    store e a (toLe 32 v.toNat) false
    act (setMailbox c b fun m => { m with queue := m.queue.drop 1 })
  pure []

/-- MB_OPEN (R236). -/
def mbOpenOne (c : Nat) (i : Issued) (_r : Nat) : Eng (List SealMsg) := do
  msgIssue i
  let b := bits i.word.toNat 52 48
  match (mailbox (← get) c b).owner with
  | some o => needE (o == i.ctx) .mailboxBusy
  | none => act (setMailbox c b (fun _ => { owner := some i.ctx }))
  pure []

/-- MB_CLOSE (R236, Table 11.3). -/
def mbCloseOne (c : Nat) (i : Issued) (_r : Nat) : Eng (List SealMsg) := do
  msgIssue i
  let b := bits i.word.toNat 52 48
  needE ((mailbox (← get) c b).owner == some i.ctx) .mailboxNotOpen
  act (closeMailbox false c b 4 0)
  pure []

/-- RECEIPT_ARRIVAL (R242): the receipt fills its reserved slot, or is dead-lettered. -/
def receiptArrival (n : Nat) (s : State) : State :=
  match s.receipts[n]? with
  | none => s
  | some r =>
    let s := { s with receipts := ldrop s.receipts n }
    let e := r.env.toNat
    if envHere s e then
      let b := envBox e
      let m := mailbox s r.core b
      if m.owner = some (envCtx e) ∧ 0 < m.reserved then
        setMailbox r.core b (fun m => { m with queue := m.queue ++ [r.env], reserved := m.reserved - 1 }) s
      else deadLetter r.core 8 e s
    else routeEnv e s

/-- SEND_STALL_EVENT (R240): once per stall, when SEND_STALL_LIMIT is not 0. (DESIGN CHOICE, log 4) -/
def sendStallEvent (c : Nat) (s : State) : State :=
  let x := core s c
  if x.stalled = true ∧ x.stallSeen = false ∧ reg s 0x3700 1 ≠ 0 then
    let e := x.stallEnv.toNat
    stageRec (dieOf c) { unit := .msg, reason := .sendStall, core := c, ctx := envCtx e, postmark := some (envPm e), detail := e }
      (bumpE (0x3780 + c) 8 (bumpE 0x3700 2 (setCore c (fun x => { x with stallSeen := true }) s)))
  else s

/-! ## Stamps (R249-R252) -/

/-- The destination of a stamp instruction: module and core. -/
def stampDest (w : Nat) : Nat × Nat := (bits w 31 29, bits w 28 22)

/-- What names the destination of a waiting STAMP_GET as an envelope would: its context, postmark, module and core. -/
def stampEnv (s : State) (i : Issued) : Nat :=
  let d := stampDest i.word.toNat
  packFields [(160, 64, i.postmark.toNat), (52, 12, i.ctx), (46, 6, podOf s), (40, 6, boardOf s), (37, 3, d.1), (30, 7, d.2)]

/-- The request of a STAMP_GET is made: the wait for its answer counts as a stall (R250). -/
def stampAsked (c : Nat) (i : Issued) (s : State) : State :=
  stallWith c (stampEnv s i) (setHead c .msg (fun x => { x with work := [1] }) s)

/-- STAMP_GET faults. -/
def stampFault (c : Nat) (i : Issued) (f : FaultInfo) (s : State) : State := endFault c .msg i i.progress f (endStall c i.ctx s)

/-- STAMP_GET (R250): each repeat is refused at once, or waits at the destination's pool. The instruction keeps the head of
the MSG queue until it is answered; `work` holds 1 once the request is made, then 2 granted, 3 denied, 4 no account free. -/
def stampGetRow (c : Nat) (s : State) : State :=
  match readyHead s c .msg 0x10 with
  | none => s
  | some i =>
    let w := i.word.toNat
    let (m, d) := stampDest w
    let n := bits w 12 0
    if i.work = [2] then msgRepeatDone c i s
    else if i.work = [3] then stampFault c i { reason := .stampDenied } s
    else if i.work = [4] then stampFault c i { reason := .stampAccounts } s
    else if i.work ≠ [] then stallWith c (stampEnv s i) s
    else if msgFieldsOk w = false then stampFault c i { reason := .reservedField } s
    else if (accountOf s c i.ctx m d).isNone ∧ 64 ≤ (core s c).accounts.length then stampFault c i { reason := .stampAccounts } s
    else if m = moduleOf s then
      if bit (ctxSpMask s i.ctx) d && decide (0 < ctxSpCount s i.ctx) then
        stampAsked c i (setCore d (fun x => { x with poolWaits := x.poolWaits ++ [{ core := c, ctx := i.ctx, count := n }] }) s)
      else stampFault c i { reason := .stampDenied } s
    else if reachable s m then
      stampAsked c i (sendPacket { type := 5, dst := m, srcCore := c, dstCore := d, ctx := i.ctx, addr := 4096, tag := n, label := 1 } s)
    else if (pinPorts s m).isEmpty then stampFault c i { reason := .linkDown, detail := peerDetail s m } s
    else s

/-- Return stamps to a destination's pool: of this module at once, of another by packet. -/
def returnToPool (c ctx m d n : Nat) (s : State) : State :=
  if n = 0 then s
  else if m = moduleOf s then setCore d (fun x => { x with pool := x.pool + n }) s
  else sendPacket { type := 5, dst := m, srcCore := c, dstCore := d, ctx := ctx, addr := 4096, tag := n, label := 3 } s

/-- Enter stamps into an account of a core, opening it at need; stamps beyond the 4,096 that an account holds go back to the pool
(R250). (DEDUCED, log 131) -/
def grantTo (c ctx m d n : Nat) (s : State) : State :=
  match accountOf s c ctx m d with
  | some a =>
    let k := min n (4096 - a.inHand - a.inFlight)
    returnToPool c ctx m d (n - k) (setAccount c ctx m d (fun a => { a with inHand := a.inHand + k }) s)
  | none => setCore c (fun x => { x with accounts := x.accounts ++
      [{ ctx := ctx, module := m, dest := d, inHand := n, inFlight := 0, returning := 0 }] }) s

/-- The head of a core's MSG queue is the given opcode of a context, its request made. -/
def waitingHead (s : State) (c ctx op : Nat) : Option Issued :=
  match headOf s c .msg with
  | some i => if i.ctx == ctx && iOpcode i.word.toNat == op && i.work == [1] then some i else none
  | none => none

/-- Mark an answered request of an instruction that is not at the head, for when it runs again. -/
def markAnswered (c ctx op v : Nat) (s : State) : State :=
  setWaiting c ctx (fun i => iOpcode i.word.toNat == op && i.work == [1]) (fun i => { i with work := [v] }) s

/-- The waiting STAMP_GET of a core is refused. -/
def stampRefused (c ctx : Nat) (r : Reason) (v : Nat) (s : State) : State :=
  match waitingHead s c ctx 0x10 with
  | some i => stampFault c i { reason := r } s
  | none => markAnswered c ctx 0x10 v s

/-- The waiting STAMP_GET of a core gets its stamps; where the core has come to hold 64 other accounts they go back. -/
def finishGrant (c ctx m d n : Nat) (s : State) : State :=
  if (accountOf s c ctx m d).isNone && decide (64 ≤ (core s c).accounts.length) then
    stampRefused c ctx .stampAccounts 4 (returnToPool c ctx m d n s)
  else
    let s := endStall c ctx (grantTo c ctx m d n s)
    match waitingHead s c ctx 0x10 with
    | some i => msgRepeatDone c i s
    | none => markAnswered c ctx 0x10 2 s

/-- STAMP_GRANT (R250): the pool of a destination core serves its oldest request when it holds all the stamps asked. -/
def stampGrant (d : Nat) (s : State) : State :=
  match (core s d).poolWaits with
  | [] => s
  | w :: _ =>
    if w.count ≤ (core s d).pool then
      let s := setCore d (fun x => { x with pool := x.pool - w.count, poolWaits := x.poolWaits.drop 1 }) s
      if w.core < 128 then finishGrant w.core w.ctx (moduleOf s) d w.count s
      else sendPacket { type := 5, dst := (w.core - 128) / 128, dstCore := (w.core - 128) % 128, srcCore := d, ctx := w.ctx,
                        addr := 4096, tag := w.count, label := 2 } s
    else s

/-- Close an account. -/
def closeAccount (c ctx m d : Nat) (s : State) : State :=
  setCore c (fun x => { x with accounts := x.accounts.filter fun b => !(b.ctx == ctx && b.module == m && b.dest == d) }) s

/-- Give an account's stamps back: those in hand at once, the rest as they come back; n = 0, or as many as it holds, is all of them,
and the emptied account closes with its last stamp (R252). -/
def giveBack (c : Nat) (a : Account) (n : Nat) (s : State) : State :=
  let all := n = 0 ∨ a.inHand + a.inFlight - a.returning ≤ n
  let now := if all then a.inHand else min n a.inHand
  let later := if all then a.inFlight - a.returning else n - now
  let s := returnToPool c a.ctx a.module a.dest now s
  let s := setAccount c a.ctx a.module a.dest (fun a => { a with inHand := a.inHand - now, returning := a.returning + later }) s
  if all ∧ a.inFlight = 0 then closeAccount c a.ctx a.module a.dest s else s

/-- STAMP_PUT (R252). -/
def stampPutOne (c : Nat) (i : Issued) (_r : Nat) : Eng (List SealMsg) := do
  msgIssue i
  let w := i.word.toNat
  let (m, d) := stampDest w
  match accountOf (← get) c i.ctx m d with
  | none => failE .noStamps
  | some a => act (giveBack c a (bits w 12 0))
  pure []

/-- Stamps come back to an account: to its pool where they are owed to it, else in hand (R251, R252). -/
def stampsHome (c ctx m d n : Nat) (s : State) : State :=
  match accountOf s c ctx m d with
  | none => s
  | some a =>
    let n := min n a.inFlight
    let back := min n a.returning
    let s := returnToPool c ctx m d back s
    let s := setAccount c ctx m d (fun a => { a with
      inFlight := a.inFlight - n, returning := a.returning - back, inHand := a.inHand + (n - back) }) s
    if a.inHand + (n - back) = 0 ∧ a.inFlight ≤ n ∧ 0 < back then closeAccount c ctx m d s else s

/-- STAMP_RETURN (R251): the n-th stamps on their way come home; signals that waited for the writes leave (R216). -/
def stampReturn (n : Nat) (s : State) : State :=
  match s.stampsBack[n]? with
  | none => s
  | some b => flushOwed (stampsHome b.core b.ctx b.module b.dest b.count { s with stampsBack := ldrop s.stampsBack n })

/-! ### Writes of other modules (R192, R251, R266, R351) -/

/-- An earlier write of the same core of another module meets the n-th one's lines: it goes first. -/
def burstBehind (s : State) (n : Nat) (b : RemoteBurst) : Bool :=
  let last := fun (x : RemoteBurst) => (x.addr + x.data.length - 1) / 128
  (s.bursts.take n).any fun x =>
    x.srcMod == b.srcMod && x.srcCore == b.srcCore && decide (x.addr / 128 ≤ last b ∧ b.addr / 128 ≤ last x)

/-- A write from another module takes effect at translated pieces: it is stored, or added as the number of its operation says (R192). -/
def burstApply (ps : List (Nat × Nat)) (b : RemoteBurst) (s : State) : State :=
  let s := unitUse b.ctx b.addr b.data.length s
  if 16 ≤ b.op then
    let (old, bad, s) := unitRead .remote true ps s
    let v := addInto ((b.op - 16) % 32) (decide (32 ≤ b.op - 16)) (ofLe old) (ofLe b.data)
    addTotal 0x3800 7 1 (unitWrite .remote true (b.poison || bad) ps (toLe b.data.length v) s)
  else unitWrite .remote true b.poison ps b.data s

/-- The stamp of a burst goes back whatever became of it (R251); a refusal is told to the issuing core (R351). -/
def burstAnswer (b : RemoteBurst) (f : Nat) (s : State) : State :=
  let s := if isSp b.addr then
      sendPacket {
        type := 1, dst := b.srcMod, srcCore := spCore b.addr, dstCore := b.srcCore, ctx := b.ctx,
        tag := (unitsOf 32 b.addr b.data.length).length, label := 1 } s
    else s
  if f = 0 then s
  else sendPacket { type := 3, dst := b.srcMod, dstCore := b.srcCore, ctx := b.ctx, addr := b.addr,
                    label := f + b.serial * 2 ^ 16 + 2 ^ 63 } s

/-- REMOTE_BURST_WRITE (R251, R351, R415): the n-th write from another module reaches its memory: done under the context's own page
tables and grant, or refused. -/
def remoteBurstWrite (n : Nat) (s : State) : State :=
  match s.bursts[n]? with
  | none => s
  | some b =>
    if burstBehind s n b then s
    else
      let t := { s with bursts := ldrop s.bursts n }
      if b.op = 2 then (if granted s b.ctx b.addr then tearLine b.addr t else t)
      else
        match unitPieces s b.ctx true b.addr b.data.length with
        | some ps =>
          if banksClosed s && isSp b.addr then
            burstAnswer b (Reason.code .bankAsleep)
              (stageRec (dieOf (spCore b.addr)) { unit := .scratchpad, reason := .bankAsleep, core := spCore b.addr, ctx := b.ctx,
                                                  addr := some (b.addr, true) } (bumpE 0x5000 0xF t))
          else burstAnswer b 0 (burstApply ps b t)
        | none =>
          match unitFault s b.ctx true b.addr b.data.length with
          | some (.absent page) => noteMiss b.ctx page false s
          | some (.fault r _) => burstAnswer b r.code t
          | _ => burstAnswer b (Reason.code .translationFault) t

/-! ## Seals (R253-R255) -/

/-- A physical seal can be bound: it has no owner and no import holds it as its proxy. -/
def sealFree (s : State) (p : Nat) : Bool := (sealAt s p).owner.isNone && !(s.imports.any fun w => w.phys == p)

/-- The lowest free physical seal of a die, or of the other die (R253). -/
def freeSeal (s : State) (d : Nat) : Option Nat :=
  let first := fun d => ((List.range 2048).find? fun k => sealFree s (d * 2048 + k)).map fun k => d * 2048 + k
  match first d with
  | some p => some p
  | none => first (1 - d)

/-- Seals of a context that are bound, or held for an import under way. -/
def sealsTaken (s : State) (ctx : Nat) : Nat := ctxSealsUsed s ctx + (s.imports.filter fun w => w.ctx == ctx).length

/-- SEAL_CREATE (R253). -/
def sealCreateOne (c : Nat) (i : Issued) (_r : Nat) : Eng (List SealMsg) := do
  msgIssue i
  let w := i.word.toNat
  let id := bits w 47 32
  let s ← get
  needE (sealOf s i.ctx id).isNone .sealExists
  needE (decide (sealsTaken s i.ctx < ctxSealQuota s i.ctx)) .sealQuota
  match freeSeal s (dieOf c) with
  | none => failE .sealExhausted
  | some p =>
    act fun s => setCtxF i.ctx 92 80 (ctxSealsUsed s i.ctx + 1)
      (setSeal p (fun x => { x with owner := some i.ctx, sealId := BitVec.ofNat 16 id, count := BitVec.ofNat 32 (bits w 31 0),
                                    remote := none }) s)
  pure []

/-- An MM under way waits for chunks on a physical seal (R158). -/
def arrivalWaits (s : State) (p : Nat) (i : Issued) : Bool :=
  match i.mm with
  | none => false
  | some o =>
    match o.fuse with
    | none => false
    | some f => decide (o.chunks < arrChunks o) && sealOf s i.ctx (fuArrSeal f.w) == some p

/-- Instructions of the device that wait on a physical seal: for their WAIT, or for an arriving operand (R158, R253, SEAL_DBG_INFO). -/
def sealWaiters (s : State) (p : Nat) : Nat :=
  let w := fun (i : Issued) => (match i.wait with | some x => x.1 == p && !i.started | none => false) || arrivalWaits s p i
  (s.cores.map fun e => (allQueues.map fun q => ((queue e.2 q).filter w).length).sum).sum +
    (s.streams.map fun e => (match e.2.held with | some i => if w i then 1 else 0 | none => 0) +
      (e.2.saved.filter fun x => w x.2).length).sum

/-- Seal slots bound to a physical seal. -/
def sealSlots (s : State) (p : Nat) : Nat :=
  (s.streams.map fun e => (e.2.slots.filter fun x => match x.bound with | some r => r.phys == p && r.gen == (sealAt s p).gen | none => false).length).sum

/-- Unbind a seal: its generation moves, a watch on it ends with SEAL_GONE (R253, R339). -/
def unbindSeal (p : Nat) (s : State) : State :=
  let x := sealAt s p
  let s := setSeal p (fun x => { gen := x.gen + 1 }) s
  let s := match x.owner with
    | some ctx => setCtxF ctx 92 80 (ctxSealsUsed s ctx - 1) s
    | none => s
  (s.results.filter fun e => match e.2.watch with
    | some w => w.phys == p
    | none => false).foldl (fun s e => endResult e.1 0x21 s) s

/-- SEAL_FREE (R253). -/
def sealFreeOne (_c : Nat) (i : Issued) (_r : Nat) : Eng (List SealMsg) := do
  msgIssue i
  let s ← get
  match sealOf s i.ctx (bits i.word.toNat 47 32) with
  | none => failE .sealUnknown
  | some p =>
    needE (sealWaiters s p == 0 && sealSlots s p == 0) .sealBusy
    act (unbindSeal p)
  pure []

/-- The packet that asks a home device for a seal (SEAL_IMPORT): its value as given, and who asks. (DESIGN CHOICE, log 73) -/
def importPacket (s : State) (c ctx v : Nat) : Packet :=
  { type := 5, dst := 0, srcCore := c, ctx := ctx, addr := 4097, label := v + identityOf s % 2 ^ 15 * 2 ^ 32 }

/-- The packet that answers an import: the physical seal and its generation, or none. (DESIGN CHOICE, log 73) -/
def importAnswer (c ctx : Nat) (a : Option (Nat × Nat)) (ident : Nat) : Packet :=
  { type := 5, dst := 0, dstCore := c, ctx := ctx, addr := 4098,
    label := (match a with
      | some x => x.1 + x.2 * 2 ^ 12 + 2 ^ 20
      | none => 0) + ident * 2 ^ 32 }

/-- SEAL_IMPORT faults. -/
def importFault (c : Nat) (i : Issued) (r : Reason) (s : State) : State := endFault c .msg i i.progress { reason := r } s

/-- SEAL_IMPORT (R253): a proxy is taken and the home device asked; this device itself is no other one and resolves nothing. `work`
holds 1 once that is asked, then 2 bound, 3 unknown, 4 bound meanwhile. (DEDUCED, log 132) -/
def sealImportRow (c : Nat) (s : State) : State :=
  match readyHead s c .msg 0x1A with
  | none => s
  | some i =>
    let w := i.word.toNat
    let id := bits w 47 32
    let v := bits w 31 0
    if i.work = [2] then msgRepeatDone c i s
    else if i.work = [3] then importFault c i .sealUnknown s
    else if i.work = [4] then importFault c i .sealExists s
    else if i.work ≠ [] then s
    else if msgFieldsOk w = false then importFault c i .reservedField s
    else if (sealOf s i.ctx id).isSome then importFault c i .sealExists s
    else if ctxSealQuota s i.ctx ≤ sealsTaken s i.ctx then importFault c i .sealQuota s
    else
      match freeSeal s (dieOf c) with
      | none => importFault c i .sealExhausted s
      | some p =>
        if bits v 31 17 = identityOf s % 2 ^ 15 then importFault c i .sealUnknown s
        else
          let s := setHead c .msg (fun x => { x with work := [1] }) s
          let s := { s with imports := s.imports ++
            [{ core := c, ctx := i.ctx, sealId := BitVec.ofNat 16 id, value := BitVec.ofNat 32 v, phys := p }] }
          routeTo (bits v 31 17) (importPacket s c i.ctx v) s

/-- A waiting SEAL_IMPORT is refused. -/
def importRefused (w : ImportWait) (r : Reason) (v : Nat) (s : State) : State :=
  match waitingHead s w.core w.ctx 0x1A with
  | some i => importFault w.core i r s
  | none => markAnswered w.core w.ctx 0x1A v s

/-- The home device's answer to the oldest import that a test names binds its proxy, or faults the import with SEAL_UNKNOWN (R253);
a virtual ID bound meanwhile is SEAL_EXISTS. -/
def importResponse (is : ImportWait → Bool) (answer : Option (Nat × Nat)) (s : State) : State :=
  match s.imports.find? is with
  | none => s
  | some w =>
    let s := { s with imports := s.imports.filter fun x => x != w }
    match answer with
    | none => importRefused w .sealUnknown 3 s
    | some (rp, rg) =>
      if (sealOf s w.ctx w.sealId.toNat).isSome then importRefused w .sealExists 4 s
      else
        let s := setSeal w.phys (fun x => { x with owner := some w.ctx, sealId := w.sealId, count := 0,
                                                   remote := some (w.value, rp, BitVec.ofNat 8 rg) }) s
        let s := setCtxF w.ctx 92 80 (ctxSealsUsed s w.ctx + 1) s
        match waitingHead s w.core w.ctx 0x1A with
        | some i => msgRepeatDone w.core i s
        | none => markAnswered w.core w.ctx 0x1A 2 s

/-- SEAL_IMPORT_RESPONSE (R253): the answer to the oldest import of a core. -/
def sealImportResponse (c : Nat) (answer : Option (Nat × Nat)) (s : State) : State := importResponse (fun w => w.core == c) answer s

/-- SEAL_ADD (R254): the addition is applied when the instruction retires. -/
def sealAddOne (_c : Nat) (i : Issued) (_r : Nat) : Eng (List SealMsg) := do
  msgIssue i
  let w := i.word.toNat
  let s ← get
  match sealOf s i.ctx (bits w 47 32) with
  | none => failE .sealUnknown
  | some p =>
    let x := sealAt s p
    pure [{ phys := p, gen := x.gen, amount := BitVec.ofNat 32 (bits w 31 0), ctx := i.ctx, sealId := x.sealId,
            fromImport := x.remote.isSome }]

/-- The DETAIL of a seal record (Table 20.5). -/
def sealDetail (id p gen : Nat) (imp : Bool) (path : Nat) : Nat :=
  packFields [(0, 16, id), (16, 12, p), (28, 8, gen), (36, 1, b2n imp), (37, 2, path)]

/-- A signal whose generation no longer matches is counted and recorded, not applied (R255). -/
def sealStale (m : SealMsg) (s : State) : State :=
  stageRec (m.phys / 2048 % 2) {
      unit := .seals, reason := .sealStale, ctx := m.ctx,
      detail := sealDetail m.sealId.toNat m.phys m.gen.toNat m.fromImport 0 } (bumpE 0x3700 6 s)

/-- SEAL_UPDATE (R254, R255): the n-th update on its way is applied; one on an import leaves for its home device with the
generation the import recorded. -/
def sealUpdate (n : Nat) (s : State) : State :=
  match s.sealFlight[n]? with
  | none => s
  | some m =>
    let s := { s with sealFlight := ldrop s.sealFlight n }
    let x := sealAt s m.phys
    if x.owner.isNone ∨ x.gen ≠ m.gen then sealStale m s
    else
      match x.remote with
      | some (v, rp, rg) =>
        routeTo (bits v.toNat 31 17) {
          type := 5, dst := 0, ctx := m.ctx, addr := rp,
          label := m.amount.toNat + rg.toNat * 2 ^ 32 + bits v.toNat 31 17 * 2 ^ 40 } s
      | none => sealApply m.phys m.amount.toNat s

/-- A debugger's set of a seal (R257): the selected seal's COUNT is replaced and a SEAL_FORCED record names the path. -/
def sealDbgSet (path : Path) (v : Nat) (s : State) : Nat × State :=
  let sel := reg s 0x3700 8
  match sealOf s (bits sel 27 16) (bits sel 15 0) with
  | none => (0x1A, s)
  | some p =>
    let x := sealAt s p
    if x.remote.isSome then (0x1A, s)
    else
      let s := setReg 0x3700 0xA v s
      let s := sealApply p 0 (setSeal p (fun x => { x with count := BitVec.ofNat 32 v }) s)
      (0, stageRec (p / 2048) {
            unit := .seals, reason := .sealForced, ctx := bits sel 27 16,
            detail := sealDetail x.sealId.toNat p x.gen.toNat false (pathIdx path) } s)

end Sys2Proof.Machine
end

