-- ==== Sys2Proof/Machine/CmdProc.lean ====
section
/-! DEFINITION. The command processor (chapter 10): doorbells, stream records, instruction memory, fetch and dispatch, address generators, control instructions, loops, halts and the debugger's commands. -/

namespace Sys2Proof.Machine

/-! ## Stream records and doorbells (R206, R207) -/

/-- The first failure of a stream record at its first read, as halt reason and cause (R206, Table 10.9). -/
def recordFault (w : Nat) : Option (Reason × Nat) :=
  if checkOk 64 w = false then some (.recordFailure, Reason.code .headerCheck)
  else if bits w 3 0 ≠ 0xE ∨ bits w 7 4 ≠ 1 ∨ bits w 15 8 ≠ 0 ∨ bits w 479 232 ≠ 0 ∨ bits w 127 80 ≠ 0 ∨ bits w 31 21 ≠ 0 ∨
      bits w 20 16 < 8 ∨ 26 < bits w 20 16 then some (.reservedField, 0)
  else if bits w 79 32 % 4096 ≠ 0 then some (.recordFailure, Reason.code .alignment)
  else none

/-- Take a stream's state from its record (R206). -/
def takeRecord (w : Nat) (t : Stream) : Stream :=
  { t with known := true, ringBase := bits w 79 32, ringLog2 := bits w 20 16, retired := BitVec.ofNat 32 (bits w 191 160),
           next := BitVec.ofNat 32 (bits w 191 160), head := BitVec.ofNat 32 (bits w 159 128) }

/-- HEAD passes the two tests of R207. -/
def headOk (t : Stream) (head : Word32) : Bool :=
  decide (0 ≤ sdiff32 head.toNat t.head.toNat) &&
    decide (sdiff32 head.toNat t.retired.toNat ≤ ((2 ^ t.ringLog2 : Nat) : Int)) && (t.mode != .finished)

/-- A refused doorbell is counted and recorded (R207). (DEDUCED, log 20) -/
def doorbellReject (c ctx : Nat) (s : State) : State :=
  stageRec (dieOf c) { unit := .cp, reason := .ringRange, core := c, ctx := ctx } (bumpE 0x3600 3 s)

/-- Apply HEAD to a known stream. -/
def applyHead (c ctx : Nat) (head : Word32) (s : State) : Bool × State :=
  if headOk (stream s ctx c) head then (true, setStream ctx c (fun t => { t with head := head }) s)
  else (false, doorbellReject c ctx s)

/-- First doorbells are applied in order; the answer is that of the last. -/
def applyHeads (c ctx : Nat) (heads : List Word32) (s : State) : Bool × State :=
  heads.foldl (fun acc h => applyHead c ctx h acc.2) (true, s)

/-- A stream whose record cannot be read halts: it is known, with the HEAD of the doorbell (R206, Table 10.9). -/
def recordUnread (c ctx : Nat) (heads : List Word32) (r : Reason) (s : State) : State :=
  let s := setStream ctx c (fun t => { t with known := true, head := heads.getLast?.getD 0, doors := [] }) s
  haltStream c ctx { reason := .recordFailure, cause := r.code, index := 0, postmark := none,
                     addr := some (ctxStreamBase s ctx + 64 * c, false) } s

/-- The first doorbells of a stream: its record is read, they are applied, and the stream runs or halts (R206). While the record's page
is absent they wait for the pager (R200). -/
def firstDoorbells (c ctx : Nat) (heads : List Word32) (s : State) : Bool × State :=
  let a := ctxStreamBase s ctx + 64 * c
  match unitFault s ctx false a 64 with
  | some (.absent p) => (true, noteMiss ctx p false (setStream ctx c (fun t => { t with doors := heads }) s))
  | some (.fault r _) => (true, recordUnread c ctx heads r s)
  | _ =>
    let (bs, p, s) := unitRead .read true ((unitPieces s ctx false a 64).getD []) (unitUse ctx a 64 s)
    let w := ofLe bs
    let fault := if p then some (Reason.poisonControl, 0) else recordFault w
    let s := setStream ctx c (fun t => { takeRecord w t with doors := [] }) s
    let (ok, s) := applyHeads c ctx heads s
    match fault with
    | none => (ok, setStream ctx c (fun t => { t with mode := .running }) s)
    | some (r, cause) =>
      (ok, haltStream c ctx { reason := r, cause := cause, index := (stream s ctx c).next, postmark := none,
                              addr := some (a, false) } s)

/-- A doorbell entry (R207, R291): stale generations and contexts without a session are refused. -/
def doorbell (ctx gen c : Nat) (head : Word32) (s : State) : Bool × State :=
  let s := readEntry ctx s
  if ctxState s ctx = 0 ∨ ctxState s ctx = 3 ∨ ctxGen s ctx ≠ gen then (false, doorbellReject c ctx s)
  else if (stream s ctx c).known then applyHead c ctx head s
  else firstDoorbells c ctx ((stream s ctx c).doors ++ [head]) s

/-! ## Instruction memory (R209-R211, R225) -/

/-- Position of the block that holds a ring block of a context. -/
def blockOf (x : Core) (ctx rb : Nat) : Option Nat :=
  x.imem.findIdx? fun b => b.ctx == some ctx && b.ringBlock == rb

/-- Blocks a context holds on a core. -/
def blocksHeld (x : Core) (ctx : Nat) : Nat := (x.imem.filter fun b => b.ctx == some ctx).length

/-- Blocks that nobody holds. -/
def blocksFree (x : Core) : Nat := (x.imem.filter fun b => b.ctx.isNone).length

/-- Blocks still owed to the reservation of two for every stream in a slot (R225). -/
def blocksOwed (x : Core) (but : Option Nat) : Nat :=
  (x.slots.map fun o => match o with
    | some k => if but = some k then 0 else 2 - blocksHeld x k
    | none => 0).sum

/-- Ring blocks from index i up to index j (exclusive), in ring order. -/
def ringBlocks (i j : Nat) : List Nat :=
  let n := (sdiff32 j i).toNat
  if n = 0 then [] else (List.range ((i % 256 + n + 255) / 256)).map fun k => (i / 256 + k) % 2 ^ 24

/-- Instructions of a ring block that lie below HEAD: the fill it can have. -/
def fillOf (t : Stream) (rb : Nat) : Nat :=
  let d := sdiff32 t.head.toNat (rb * 256)
  if d ≤ 0 then 0 else min 256 d.toNat

/-- The next block the loader should fill: not loaded, or loaded short of HEAD (R210). -/
def wantedBlock (s : State) (c ctx : Nat) : Option Nat :=
  let t := stream s ctx c
  (ringBlocks t.next.toNat t.head.toNat).find? fun rb =>
    match blockOf (core s c) ctx rb with
    | none => true
    | some k => decide (((core s c).imem.getD k {}).fill < fillOf t rb)

/-- The loader may take a new block for a stream (R209, R225). -/
def mayTake (s : State) (c ctx : Nat) : Bool :=
  let x := core s c
  let held := blocksHeld x ctx
  let pins := (pinnedBlocks (stream s ctx c)).length
  if held < 2 then decide (0 < blocksFree x)
  else x.pinWaits.isEmpty && decide (held < (stream s ctx c).allow + pins) && decide (blocksOwed x (some ctx) < blocksFree x)

/-- The context address of a ring slot. -/
def ringAddr (t : Stream) (i : Nat) : Nat := t.ringBase + 16 * (i % 2 ^ t.ringLog2)

/-- The words of a ring block below HEAD from a position on, with their poison marks; none where the read faults. -/
def ringWords (c ctx rb from_ : Nat) (s : State) : Option (List Nat × List Bool) × State :=
  let t := stream s ctx c
  let n := fillOf t rb - from_
  let a := ringAddr t (rb * 256 + from_)
  match unitPieces s ctx false a (16 * n) with
  | none => (none, s)
  | some ps =>
    let (bs, _, s) := unitRead .read true ps (unitUse ctx a (16 * n) s)
    let ds := ps.flatMap fun p => (List.range p.2).map fun k => p.1 + k
    let words := (chunks 16 bs).map ofLe
    let marks := (List.range n).map fun k => poisonedRange s (ds.getD (16 * k) 0) 16
    (some (words, marks), s)

/-- Put words into a block from a position on. -/
def fillBlock (from_ : Nat) (ws : List Nat) (marks : List Bool) (b : ImemBlock) : ImemBlock :=
  let ks := List.range ws.length
  { b with
    fill := from_ + ws.length,
    words := ks.foldl (fun t k => tset t (from_ + k) (BitVec.ofNat 128 (ws.getD k 0))) b.words,
    poisoned := ks.foldl (fun t k => if marks.getD k false then nins t (from_ + k) else t) b.poisoned }

/-- Change a block of instruction memory. -/
def setBlock (c k : Nat) (f : ImemBlock → ImemBlock) (s : State) : State :=
  setCore c (fun x => { x with imem := lmod x.imem k f }) s

/-- Take a free block for a ring block of a stream, empty, its generation moved on (R209). -/
def takeBlock (c ctx rb : Nat) (s : State) : State :=
  match (core s c).imem.findIdx? fun b => b.ctx.isNone with
  | some k => setBlock c k (fun b => { ctx := some ctx, ringBlock := rb, gen := b.gen + 1 }) s
  | none => s

/-- Why a ring read from a position on cannot be made now. -/
def ringFault (s : State) (c ctx rb from_ : Nat) : Option Xlat :=
  let t := stream s ctx c
  unitFault s ctx false (ringAddr t (rb * 256 + from_)) (16 * (fillOf t rb - from_))

/-- A ring read that faults: the stream will halt at the fetch of the first instruction it should have supplied; an absent
page is left to the pager (R210). -/
def ringReadFails (c ctx rb from_ : Nat) (s : State) : State :=
  match ringFault s c ctx rb from_ with
  | some (.absent p) => noteMiss ctx p false s
  | some (.fault r _) => setStream ctx c (fun t => { t with
      fetchFault := some (BitVec.ofNat 32 (rb * 256 + from_), BitVec.ofNat 8 r.code) }) s
  | _ => s

/-- A read that has failed is not made again (R298): its stream halts at the fetch. -/
def readFailed (t : Stream) (rb : Nat) : Bool := t.fetchFault.any fun f => f.1.toNat / 256 == rb

/-- Where the loader's next read of a ring block begins: at the fill of the block that holds it. -/
def loadFrom (s : State) (c ctx rb : Nat) : Nat :=
  match blockOf (core s c) ctx rb with
  | some k => ((core s c).imem.getD k {}).fill
  | none => 0

/-- The stream of a context stands in a slot of a core. -/
def inSlot (s : State) (c ctx : Nat) : Bool := (core s c).slots.contains (some ctx)

/-- BLOCK_LOAD (R210, R225): the loader's next read for a stream completes. A block short of HEAD is extended in place
without a new generation. -/
def blockLoad (c ctx : Nat) (s : State) : State :=
  if inSlot s c ctx && running s && !stopped s c ctx && (stream s ctx c).mode = .running then
    match wantedBlock s c ctx with
    | none => s
    | some rb =>
      let k := blockOf (core s c) ctx rb
      let from_ := loadFrom s c ctx rb
      if !(readFailed (stream s ctx c) rb) && (k.isSome || mayTake s c ctx) then
        match ringWords c ctx rb from_ s with
        | (none, s) => ringReadFails c ctx rb from_ s
        | (some (ws, ms), s) =>
          let s := if k.isSome then s else takeBlock c ctx rb s
          match blockOf (core s c) ctx rb with
          | some k => setBlock c k (fillBlock from_ ws ms) s
          | none => s
      else s
  else s

/-- Load a block again from the ring, under a new generation (R209, R211). Where the ring cannot be read the block holds nothing until
the loader fills it, or the stream halts at the fetch (R210). -/
def reloadBlock (c ctx rb : Nat) (s : State) : State :=
  match blockOf (core s c) ctx rb with
  | none => s
  | some k =>
    let empty := fun (b : ImemBlock) => ({ ctx := some ctx, ringBlock := rb, gen := b.gen + 1 } : ImemBlock)
    match ringWords c ctx rb 0 s with
    | (none, s) => ringReadFails c ctx rb 0 (setBlock c k empty s)
    | (some (ws, ms), s) => setBlock c k (fun b => fillBlock 0 ws ms (empty b)) s

/-- A block that is loaded is occupied while it holds NEXT or a loop pins it (R211). -/
def occupied (s : State) (c ctx rb : Nat) : Bool :=
  let t := stream s ctx c
  (blockOf (core s c) ctx rb).isSome && (t.next.toNat / 256 == rb || (pinnedBlocks t).contains rb)

/-- A loaded block's ring slots lie on an absent page. -/
def reloadAbsent (s : State) (c : Nat) (r : HeldReload) : Option Nat :=
  if (blockOf (core s c) r.ctx r.ringBlock).isNone then none
  else match ringFault s c r.ctx r.ringBlock 0 with
    | some (.absent p) => some p
    | _ => none

/-- A reload may be carried out now. -/
def reloadReady (s : State) (c : Nat) (r : HeldReload) : Bool :=
  (r.force || !(occupied s c r.ctx r.ringBlock)) && (reloadAbsent s c r).isNone

/-- Set IMEM_RELOAD_STATE. -/
def setReloadState (c v : Nat) (s : State) : State := setCore c (fun x => { x with reloadState := BitVec.ofNat 8 v }) s

/-- A reload is carried out, and the request is done; one of a block that is not loaded does nothing (R211). -/
def carryReload (c : Nat) (r : HeldReload) (s : State) : State :=
  setReloadState c 2 (reloadBlock c r.ctx r.ringBlock
    (setCore c (fun x => { x with reload := x.reload.filter fun y => !(y.ctx == r.ctx && y.ringBlock == r.ringBlock) }) s))

/-- A write of IMEM_RELOAD (R211). -/
def imemReloadW (c v : Nat) (s : State) : Nat × State :=
  let r : HeldReload := { ctx := bits v 59 48, ringBlock := bits v 23 0, force := bit v 40 }
  if reloadReady s c r then (0, carryReload c r s)
  else
    let s := match reloadAbsent s c r with
      | some p => noteMiss r.ctx p false s
      | none => s
    (0, setReloadState c 1 (setCore c (fun x => { x with reload := x.reload ++ [r] }) s))

/-- IMEM_RELOAD_HELD_DONE (R211): the first held reload that waits no longer is carried out. -/
def reloadHeldDone (c : Nat) (s : State) : State :=
  match (core s c).reload.find? fun r => reloadReady s c r with
  | none => s
  | some r => carryReload c r s

/-! ## Address generators (R220-R222) -/

/-- MODE of a generator record: AUTOINC. -/
def genAuto (g : Gen) : Bool := bit g.record.toNat 8
/-- BASE. -/
def genBase (g : Gen) : Nat := bits g.record.toNat 63 16
/-- LEVELS_M1. -/
def genLevels (g : Gen) : Nat := bits g.record.toNat 11 9
/-- STRIDE of a level, signed. -/
def genStride (g : Gen) (l : Nat) : Int := toSigned 40 (bits g.record.toNat (56 * l + 119) (56 * l + 80))
/-- EXTENT_M1 of a level. -/
def genExtent (g : Gen) (l : Nat) : Nat := bits g.record.toNat (56 * l + 79) (56 * l + 64)

/-- The checks of a generator record (R220): the first failing code. -/
def genFault (w : Nat) : Option Reason :=
  let lv := fun l => bits w (56 * l + 119) (56 * l + 64)
  let auto := bit w 8
  if checkOk 64 w = false then some .headerCheck
  else if bits w 3 0 ≠ 0xF ∨ bits w 7 4 ≠ 1 ∨ bits w 479 400 ≠ 0 ∨ bits w 15 12 ≠ 0 ∨ 5 < bits w 11 9 ∨
      (auto = true ∧ (bits w 11 9 ≠ 0 ∨ bits w 79 64 ≠ 0 ∨ bits w 135 120 ≠ 0 ∨
        ((List.range 4).any fun l => lv (l + 2) != 0) = true)) ∨
      (auto = false ∧ ((List.range 6).any fun l => decide (bits w 11 9 < l) && lv l != 0) = true) then some .reservedField
  else none

/-- A generator at its starting values. -/
def genReset (g : Gen) : Gen := { g with counters := [0, 0, 0, 0, 0, 0], reg := BitVec.ofNat 48 (genBase g) }

/-- The address a generator supplies. -/
def genAddr (g : Gen) : Nat :=
  if genAuto g then g.reg.toNat
  else
    let off : Int := ((List.range (genLevels g + 1)).map fun l => ((g.counters.getD l 0 : Nat) : Int) * genStride g l).sum
    ofSigned 48 (((genBase g : Nat) : Int) + off)

/-- Counters after one advance, from level l: a counter past its extent returns to 0 and carries. -/
def carry (g : Gen) : Nat → List Nat → List Nat
  | _, [] => []
  | l, j :: r => if genExtent g l < j + 1 then 0 :: carry g (l + 1) r else (j + 1) :: r

/-- One advance of a generator (R221). -/
def genStep (g : Gen) : Gen :=
  if genAuto g then
    let wrap := bits g.record.toNat 175 136
    let step := genStride g 0
    let a := g.reg.toNat
    let next : Nat :=
      if wrap = 0 then ofSigned 48 ((a : Int) + step)
      else
        let d : Nat := (a + 2 ^ 48 - genBase g) % 2 ^ 48
        let m : Int := ((d : Int) + step) % (wrap : Int)
        (genBase g + m.toNat) % 2 ^ 48
    { g with reg := BitVec.ofNat 48 next }
  else
    let n := genLevels g + 1
    let js := carry g 0 (g.counters.take n)
    { g with counters := js ++ g.counters.drop n }

/-- A generator after k advances. -/
def genSteps : Nat → Gen → Gen
  | 0, g => g
  | k + 1, g => genSteps k (genStep g)

/-- The addresses of an instruction for every repeat: a generator named by several fields supplies each the same address
and advances once per repeat (R222). -/
def resolveAddrs (t : Stream) (uses : List (Option Nat)) (reps : Nat) : List (List Nat) :=
  (List.range reps).map fun r => uses.map fun u => match u with
    | some g => genAddr (genSteps r (t.gens.getD g {}))
    | none => 0

/-- The generators of a stream after an instruction has used some for all its repeats. -/
def advanceGens (uses : List (Option Nat)) (reps : Nat) (t : Stream) : Stream :=
  { t with gens := (List.range t.gens.length).map fun k =>
      if uses.contains (some k) then genSteps reps (t.gens.getD k {}) else t.gens.getD k {} }

/-! ## Fetch (R210, R211) -/

/-- What a fetch at NEXT gives. -/
inductive Fetched where
  | wait
  | halt (h : HaltInfo)
  | word (w : Nat) (slot : Nat)
  deriving DecidableEq, Repr

/-- The recorded generation of a ring block. -/
def genOf (t : Stream) (rb : Nat) : Option (BitVec 16) := (t.blockGens.find? fun e => e.1 == rb).map (·.2)

/-- Record a generation. -/
def recordGen (rb : Nat) (g : BitVec 16) (t : Stream) : Stream :=
  { t with blockGens := (t.blockGens.filter fun e => e.1 != rb) ++ [(rb, g)] }

/-- Note the postmark of the last instruction dispatched from a block. -/
def recordPm (rb : Nat) (pm : BitVec 64) (t : Stream) : Stream :=
  { t with blockPms := (t.blockPms.filter fun e => e.1 != rb) ++ [(rb, pm)], lastPm := some pm }

/-- An uncorrectable error of the block at NEXT: it is loaded again, under the stream's own new generation (R210). -/
def eccReload (c ctx : Nat) (s : State) : State :=
  let t := stream s ctx c
  let rb := t.next.toNat / 256
  match blockOf (core s c) ctx rb with
  | none => s
  | some k =>
    if nmem ((core s c).imem.getD k {}).eccBad (t.next.toNat % 256) then
      let s := bumpE 0x3600 4 (reloadBlock c ctx rb s)
      setStream ctx c (recordGen rb ((core s c).imem.getD k {}).gen) s
    else s

/-- A read that should have supplied the instruction at NEXT has failed. -/
def fetchFailed (t : Stream) : Option (BitVec 8) :=
  t.fetchFault.bind fun f => if f.1.toNat / 256 = t.next.toNat / 256 ∧ f.1.toNat ≤ t.next.toNat then some f.2 else none

/-- A fetch finds nothing loaded: it waits, or halts where the loader's read has failed (R210). -/
def fetchNone (t : Stream) (slot gen : Nat) : Fetched :=
  match fetchFailed t with
  | some code => .halt { reason := .recordFailure, cause := code.toNat, index := t.next, slot := slot, postmark := none, oldGen := gen, newGen := gen }
  | none => .wait

/-- Fetch the instruction at NEXT: the block's generation is compared before anything is read (R211). (DEDUCED, log 18) -/
def fetchAt (s : State) (c ctx : Nat) : Fetched :=
  let t := stream s ctx c
  let i := t.next.toNat
  let rb := i / 256
  match blockOf (core s c) ctx rb with
  | none => fetchNone t 0 0
  | some k =>
    let b := (core s c).imem.getD k {}
    let slot := k * 256 + i % 256
    let g := (genOf t rb).getD b.gen
    if g ≠ b.gen then
      .halt { reason := .blockReplaced, index := t.next, slot := slot, oldGen := g.toNat, newGen := b.gen.toNat,
              postmark := ((t.blockPms.find? fun e => e.1 == rb).map fun e => e.2.toNat) }
    else if b.fill ≤ i % 256 then fetchNone t slot b.gen.toNat
    else if nmem b.poisoned (i % 256) then
      .halt { reason := .poisonControl, index := t.next, slot := slot, oldGen := g.toNat, newGen := g.toNat,
              postmark := some (postmarkOf s c ctx (tget 0 b.words (i % 256)).toNat) }
    else .word (tget 0 b.words (i % 256)).toNat slot

/-! ## Dispatch (R213-R219) -/

/-- The reserved encodings of a CTRL operation word (Tables 10.6, 10.7). -/
def ctrlReserved (w : Nat) : Bool :=
  let op := iOpcode w
  let slot := bits w 55 52
  let ag := bits w 51 49
  let opd := bits w 47 0
  let listed := [0, 1, 2, 4, 8, 0xC, 0xD, 0xE, 0xF].contains op
  let slotOk := op == 4 || slot == 0
  let agOk := op == 1 || op == 2 || ag == 0
  let opdOk :=
    if op = 1 ∨ op = 4 then true
    else if op = 8 then bits w 47 44 == 0 && bits w 31 24 == 0
    else if op = 0xD then bits w 47 32 == 0
    else opd == 0
  !(listed && slotOk && agOk && opdOk && bits w 48 48 == 0)

/-- The first reason that stops an instruction at dispatch, in ascending code order, with its cause (R217, R218, R222,
R255, Table 10.9). (DEDUCED, log 16) -/
def dispatchFault (s : State) (t : Stream) (w : Nat) : Option (Reason × Nat) :=
  let cls := iClass w
  if cls = 0 ∨ 9 ≤ cls then some (.illegalClass, 0)
  else if iRsv w ≠ 0 ∨ 2 ≤ iSigWhen w ∨ (cls = 1 ∧ ctrlReserved w = true) then some (.reservedField, 0)
  else if (cls = 1 ∨ (cls = 4 ∧ iOpcode w = 3)) ∧ iRepM1 w ≠ 0 then some (.repeatRange, 0)
  else if (agUse w).any fun u => match u with | some g => !(t.gens.getD g {}).isSet | none => false then some (.agUnset, 0)
  else if (iWaitEn w && (t.slots.getD (iWaitSlot w) {}).bound.isNone) || (iSigEn w && (t.slots.getD (iSigSlot w) {}).bound.isNone) then
    some (.slotUnbound, 0)
  else if iWaitEn w && (match (t.slots.getD (iWaitSlot w) {}).bound with | some r => r.proxy | none => false) then
    some (.recordFailure, Reason.code .sealRemote)
  else
    match (if iWaitEn w then (t.slots.getD (iWaitSlot w) {}).bound else none) with
    | some r => if (sealAt s r.phys).gen ≠ r.gen then some (.recordFailure, Reason.code .sealUnknown) else none
    | none => none

/-- The instruction as it will wait or be queued (R214). -/
def issuedOf (s : State) (c ctx : Nat) (t : Stream) (w slot : Nat) : Issued :=
  let ws := t.slots.getD (iWaitSlot w) {}
  { ctx := ctx, index := t.next, word := BitVec.ofNat 128 w, postmark := BitVec.ofNat 64 (postmarkOf s c ctx w),
    addrs := resolveAddrs t (agUse w) (repCount w),
    wait := if iWaitEn w then ws.bound.map fun r => (r.phys, ws.target) else none,
    sig := if iSigEn w then (t.slots.getD (iSigSlot w) {}).bound else none,
    imemSlot := slot, loops := t.loops.map fun l => l.count, serial := (core s c).serial }

/-- The wait target moves on by WAIT_STEP (R214). -/
def stepTarget (w : Nat) (t : Stream) : Stream :=
  if iWaitEn w then { t with slots := lmod t.slots (iWaitSlot w) fun x => { x with target := x.target + BitVec.ofNat 32 (iWaitStep w) } }
  else t

/-- NEXT after the instruction at an index, through the loops it ends (R224): the innermost loop goes round again, or is
left, which may end the next one out. -/
def loopNext (i : Word32) : List LoopState → Word32 × List LoopState
  | [] => (i + 1, [])
  | l :: r =>
    if i = l.last then
      if 0 < l.remaining then (l.start + 1, { l with remaining := l.remaining - 1, count := l.count + 1 } :: r)
      else loopNext i r
    else (i + 1, l :: r)

/-- The stream moves past the instruction at NEXT. -/
def passNext (t : Stream) : Stream :=
  let (n, ls) := loopNext t.next t.loops
  { t with next := n, loops := ls }

/-- Everything a dispatch of a queued instruction changes (R213, R214, R216, R222). (DESIGN CHOICE, log 19) -/
def dispatchTo (c ctx : Nat) (q : QueueId) (i : Issued) (s : State) : State :=
  let w := i.word.toNat
  let t := stream s ctx c
  let floor : Word32 := match t.loops.getLast? with
    | some l => l.start + 1
    | none => t.next
  let s := setStream ctx c (fun t =>
    let t := { t with inflight := t.inflight ++ [{ serial := i.serial, floor := floor, done := false }], fetched := none }
    passNext (recordPm (t.next.toNat / 256) i.postmark (stepTarget w (advanceGens (agUse w) (repCount w) t)))) s
  let s := if ctxChained s ctx then setChain (ctxChain s ctx) (fun k => { k with inflight := k.inflight + 1 }) s else s
  setCore c (fun x => { setQueue x q (queue x q ++ [i]) with serial := x.serial + 1 }) s

/-- Halt at the instruction under dispatch. (DEDUCED, log 18) -/
def haltAt (c ctx w slot : Nat) (r : Reason) (cause : Nat) (s : State) : State :=
  let t := stream s ctx c
  let g := match blockOf (core s c) ctx (t.next.toNat / 256) with
    | some k => ((core s c).imem.getD k {}).gen.toNat
    | none => 0
  haltStream c ctx { reason := r, cause := cause, index := t.next, slot := slot, postmark := some (postmarkOf s c ctx w),
                     oldGen := g, newGen := g } s

/-- Dispatch of a fetched word: a fault halts; a CTRL instruction is held for its own step; another enters its queue, or
is held as read while the queue is full. None where nothing can be done. -/
def dispatchWord (c ctx w slot : Nat) (s : State) : Option State :=
  let t := stream s ctx c
  match dispatchFault s t w with
  | some (r, cause) => some (haltAt c ctx w slot r cause s)
  | none =>
    let i := issuedOf s c ctx t w slot
    match queueOf w with
    | none => some (setCore c (fun x => { x with serial := x.serial + 1 })
        (setStream ctx c (fun t => { t with held := some i, fetched := none }) s))
    | some q =>
      if (queue (core s c) q).length < 8 then some (dispatchTo c ctx q i s)
      else if t.fetched.isSome then none
      else some (setStream ctx c (fun t => { t with fetched := some (slot, BitVec.ofNat 128 w) }) s)

/-- The dispatcher may take up an instruction of a stream. -/
def mayDispatch (s : State) (c ctx : Nat) : Bool :=
  let t := stream s ctx c
  running s && !stopped s c ctx && ctxState s ctx == 1 && ctxResident s ctx && chainReady s ctx &&
    (t.mode == .running) && !t.ended && t.held.isNone && decide (0 < sdiff32 t.head.toNat t.next.toNat)

/-- One attempt at a stream in a slot: what DISPATCH does with it, if it can do anything. -/
def attempt (c ctx : Nat) (s : State) : Option State :=
  if mayDispatch s c ctx then
    match (stream s ctx c).fetched with
    | some (slot, w) => dispatchWord c ctx w.toNat slot s
    | none =>
      let s := eccReload c ctx s
      match fetchAt s c ctx with
      | .wait => none
      | .halt h => some (haltStream c ctx h s)
      | .word w slot =>
        let rb := (stream s ctx c).next.toNat / 256
        let s := match blockOf (core s c) ctx rb with
          | some k => setStream ctx c (recordGen rb ((core s c).imem.getD k {}).gen) s
          | none => s
        dispatchWord c ctx w slot s
  else none

/-- Slots in the order in which the dispatcher tries them: highest PRIORITY first, equal ones taking turns (R304). -/
def slotOrder (s : State) (c : Nat) : List Nat :=
  let x := core s c
  let turn := (List.range 8).map fun k => (x.lastSlot + 1 + k) % 8
  ((List.range 8).reverse).flatMap fun p => turn.filter fun k => match x.slots.getD k none with
    | some ctx => ctxPriority s ctx == p
    | none => false

/-- The first slot that can dispatch. -/
def firstAttempt (c : Nat) (s : State) : List Nat → Option State
  | [] => none
  | k :: r =>
    match (match (core s c).slots.getD k none with | some ctx => attempt c ctx s | none => none) with
    | some s' => some (setCore c (fun x => { x with lastSlot := k }) s')
    | none => firstAttempt c s r

/-- DISPATCH (R213): one instruction of the core, or one halt at fetch or dispatch. -/
def dispatch (c : Nat) (s : State) : State := (firstAttempt c s (slotOrder s c)).getD s

/-- WAIT_MET (R215): the instruction at the head of a queue, or held at dispatch, starts once its seal meets its target. -/
def waitMetAt (c : Nat) (q : QueueId) (s : State) : State :=
  match headOf s c q with
  | some i =>
    match i.wait with
    | some w => if waitMet s w && running s && !stopped s c i.ctx then setHead c q (fun i => { i with started := true }) s else s
    | none => s
  | none => s

/-- WAIT_MET of a CTRL instruction. -/
def waitMetCtrl (c ctx : Nat) (s : State) : State :=
  match (stream s ctx c).held with
  | some i =>
    match i.wait with
    | some w => if waitMet s w && running s && !stopped s c ctx then
        setStream ctx c (fun t => { t with held := some { i with started := true } }) s else s
    | none => s
  | none => s

/-- A head whose opcode its class does not list: the engine refuses it with RESERVED_FIELD before it does anything (R9). -/
def reservedHead (s : State) (c : Nat) : Option (QueueId × Issued) :=
  (allQueues.filterMap fun q => match headOf s c q with
    | some i => if ready s c i && !(opcodeListed i.word.toNat) then some (q, i) else none
    | none => none).head?

/-- INSTRUCTION_RETIRE (R216): the first ended instruction whose writes are all at their destinations retires. A head with
a reserved opcode ends first, with its fault. -/
def instructionRetire (c : Nat) (s : State) : State :=
  match (core s c).retiring.findIdx? fun e => burstsDone s c e with
  | some k =>
    match (core s c).retiring[k]? with
    | some e => retireOne c e (setCore c (fun x => { x with retiring := ldrop x.retiring k }) s)
    | none => s
  | none =>
    match reservedHead s c with
    | some (q, i) => endFault c q i 0 { reason := .reservedField } s
    | none => s

/-! ## Control instructions (R223-R226) -/

/-- The held CTRL instruction of a stream when its opcode is the row's, its wait is over and its context's chain admits dispatch (R47). -/
def heldCtrl (s : State) (c ctx op : Nat) : Option Issued :=
  match (stream s ctx c).held with
  | some i => if iOpcode i.word.toNat == op && (i.wait.isNone || i.started) && running s && !stopped s c ctx &&
      chainReady s ctx && (stream s ctx c).mode == .running then some i else none
  | none => none

/-- A CTRL instruction is done: the stream moves past it, its wait target steps, it retires and signals (R214, R216). -/
def ctrlDone (c ctx : Nat) (i : Issued) (s : State) : State :=
  let w := i.word.toNat
  let s := setStream ctx c (fun t =>
    passNext { recordPm (t.next.toNat / 256) i.postmark (stepTarget w t) with held := none }) s
  let s := match i.sig with
    | some r => if iSigEn w then sendSeals [signalMsg ctx r] s else s
    | none => s
  advanceRetired c ctx s

/-- A CTRL instruction halts its stream: nothing of it has happened (R229). -/
def ctrlHalt (c ctx : Nat) (i : Issued) (r : Reason) (cause : Nat) (addr : Option (Nat × Bool)) (s : State) : State :=
  let g := match blockOf (core s c) ctx (i.index.toNat / 256) with
    | some k => ((core s c).imem.getD k {}).gen.toNat
    | none => 0
  haltStream c ctx { reason := r, cause := cause, index := i.index, slot := i.imemSlot, postmark := some i.postmark.toNat,
                     oldGen := g, newGen := g, addr := addr } s

/-- Run a CTRL row on the held instruction. (DESIGN CHOICE, log 19) -/
def ctrlRow (c ctx op : Nat) (f : Issued → State → State) (s : State) : State :=
  match heldCtrl s c ctx op with
  | some i => f i s
  | none => s

/-- NOP. -/
def ctrlNop (c ctx : Nat) (s : State) : State := ctrlRow c ctx 0 (fun i s => ctrlDone c ctx i s) s

/-- The halt reason of a code met while a record is read: RESERVED_FIELD and POISON_CONTROL stand by themselves, the others
are carried by 0x0B (Table 10.9). -/
def recordHalt (r : Reason) : Reason × Nat :=
  if r = .reservedField then (.reservedField, 0) else if r = .poisonControl then (.poisonControl, 0) else (.recordFailure, r.code)

/-- AG_SET (R220). -/
def ctrlAgSet (c ctx : Nat) (s : State) : State :=
  ctrlRow c ctx 1 (fun i s =>
    let w := i.word.toNat
    let a := bits w 47 0
    let halt := fun (r : Reason) (s : State) => ctrlHalt c ctx i (recordHalt r).1 (recordHalt r).2 (some (a, false)) s
    if a % 64 ≠ 0 then halt .alignment s
    else
      match runFrom [] false (loadWord { core := c, ctx := ctx, unit := .cp, failed := i.pageFault } a 64) s with
      | .ok v s =>
        match genFault v with
        | some r => halt r s
        | none => setStream ctx c (fun t => { t with
            gens := lmod t.gens (bits w 51 49) fun _ => genReset { isSet := true, record := BitVec.ofNat 512 v } }) (ctrlDone c ctx i s)
      | .error (.fault f, _) s => halt f.reason s
      | .error (.page x p, _) s => noteMiss x p false (setStream ctx c (fun t => { t with
          held := t.held.map fun j => { j with waitPage := some p } }) s)
      | .error _ s => s) s

/-- AG_RESET (R222). -/
def ctrlAgReset (c ctx : Nat) (s : State) : State :=
  ctrlRow c ctx 2 (fun i s =>
    setStream ctx c (fun t => { t with gens := lmod t.gens (bits i.word.toNat 51 49) fun g => if g.isSet then genReset g else g })
      (ctrlDone c ctx i s)) s

/-- SEAL_BIND: the slot is bound with its TARGET; an unknown ID halts with SEAL_UNKNOWN (R253). -/
def ctrlSealBind (c ctx : Nat) (s : State) : State :=
  ctrlRow c ctx 4 (fun i s =>
    let w := i.word.toNat
    let id := bits w 47 32
    match sealOf s ctx id with
    | none => ctrlHalt c ctx i .recordFailure (Reason.code .sealUnknown) none s
    | some p =>
      let x := sealAt s p
      setStream ctx c (fun t => { t with slots := lmod t.slots (bits w 55 52) fun _ =>
        { sealId := BitVec.ofNat 16 id, bound := some { phys := p, gen := x.gen, proxy := x.remote.isSome, sealId := BitVec.ofNat 16 id },
          target := BitVec.ofNat 32 (bits w 31 0) } }) (ctrlDone c ctx i s)) s

/-- Body of a LOOP: its last index. -/
def loopLast (i : Issued) : Word32 := i.index + 1 + BitVec.ofNat 32 (bits i.word.toNat 43 32)

/-- Ring blocks of a LOOP's body. -/
def loopBlocks (i : Issued) : List Nat := ringBlocks (i.index + 1).toNat (loopLast i + 1).toNat

/-- A LOOP that may not stand where it does (R224). -/
def loopBad (t : Stream) (i : Issued) : Bool :=
  decide (4 ≤ t.loops.length) || (match t.loops with
    | l :: _ => decide (0 < sdiff32 (loopLast i).toNat l.last.toNat)
    | [] => false)

/-- Blocks a LOOP's pin needs beyond those its stream holds. -/
def pinNeeds (s : State) (c ctx : Nat) (i : Issued) : List Nat :=
  (loopBlocks i).filter fun rb => (blockOf (core s c) ctx rb).isNone

/-- The pin of a LOOP can be served: enough blocks that no other stream has reserved or pinned (R225). -/
def pinFits (s : State) (c ctx : Nat) (i : Issued) : Bool :=
  decide ((pinNeeds s c ctx i).length + blocksOwed (core s c) (some ctx) ≤ blocksFree (core s c))

/-- Start a LOOP: its body's blocks are pinned and it becomes the innermost loop. -/
def startLoop (c ctx : Nat) (i : Issued) (s : State) : State :=
  let w := i.word.toNat
  let s := (pinNeeds s c ctx i).foldl (fun s rb => takeBlock c ctx rb s) s
  let enclosing := pinnedBlocks (stream s ctx c)
  let s := ctrlDone c ctx i s
  setStream ctx c (fun t => { t with
    next := i.index + 1,
    loops := { start := i.index, last := loopLast i, remaining := bits w 23 0, count := 0,
               pinned := (loopBlocks i).filter fun rb => !(enclosing.contains rb) } :: t.loops }) s

/-- LOOP (R224, R225): a bad place halts; it waits until HEAD covers the body; it pins at once or asks for its pins. -/
def ctrlLoop (c ctx : Nat) (s : State) : State :=
  ctrlRow c ctx 8 (fun i s =>
    let t := stream s ctx c
    if loopBad t i then ctrlHalt c ctx i .loopRange 0 none s
    else if sdiff32 t.head.toNat (loopLast i).toNat ≤ 0 then s
    else if (core s c).pinWaits.contains ctx then s
    else if (core s c).pinWaits.isEmpty && pinFits s c ctx i then startLoop c ctx i s
    else setCore c (fun x => { x with pinWaits := x.pinWaits ++ [ctx] }) s) s

/-- LOOP_PIN (R225): the oldest waiting pin request of a core is served once its whole body fits. -/
def loopPin (c : Nat) (s : State) : State :=
  match (core s c).pinWaits with
  | [] => s
  | ctx :: _ =>
    match heldCtrl s c ctx 8 with
    | some i =>
      if pinFits s c ctx i then startLoop c ctx i (setCore c (fun x => { x with pinWaits := x.pinWaits.drop 1 }) s) else s
    | none => s

/-- FENCE: dispatch goes on once every earlier instruction has retired or faulted. -/
def ctrlFence (c ctx : Nat) (s : State) : State :=
  ctrlRow c ctx 0xC (fun i s => if (stream s ctx c).inflight.isEmpty then ctrlDone c ctx i s else s) s

/-- MARK: a trace record with the value and the postmark. -/
def ctrlMark (c ctx : Nat) (s : State) : State :=
  ctrlRow c ctx 0xD (fun i s =>
    trace (dieOf c) { tkind := 1, postmark := i.postmark.toNat, value := bits i.word.toNat 31 0, ctx := ctx, core := c }
      (ctrlDone c ctx i s)) s

/-- END: dispatch stops; inside a loop body it halts (R224, R226). -/
def ctrlEnd (c ctx : Nat) (s : State) : State :=
  ctrlRow c ctx 0xE (fun i s =>
    if (stream s ctx c).loops.isEmpty then setStream ctx c (fun t => { t with ended := true }) (ctrlDone c ctx i s)
    else ctrlHalt c ctx i .loopRange 0 none s) s

/-- HALT: the stream halts with NEXT past the HALT, its loop counters as before it (R229, Table 10.7). -/
def ctrlHaltInstr (c ctx : Nat) (s : State) : State :=
  ctrlRow c ctx 0xF (fun i s =>
    ctrlHalt c ctx i .haltInstruction 0 none (setStream ctx c (fun t => { t with next := i.index + 1 }) s)) s

/-- STREAM_FINISH (R226, R236): an ended stream with nothing left in flight becomes FINISHED; its record is written back,
the mailboxes it opened close. -/
def streamFinish (c ctx : Nat) (s : State) : State :=
  let t := stream s ctx c
  if t.ended && t.inflight.isEmpty && (t.mode == .running) then
    let s := setStream ctx c (fun t => { t with mode := .finished }) s
    let s := bumpE 0x3600 5 (writeBack c ctx s)
    closeMailboxes false c ctx 1 s
  else s

/-! ## The debugger's commands (R231) -/

/-- A stream halted by HALT at the last index of a loop's body goes on through the loops that it ends (R224, R229). (DEDUCED, log 133) -/
def pastHalt (t : Stream) : Stream :=
  if t.haltReason.toNat = Reason.code .haltInstruction && t.loops.head?.any fun l => l.last + 1 == t.next then
    let (n, ls) := loopNext (t.next - 1) t.loops
    { t with next := n, loops := ls }
  else t

/-- A stream forgets the recorded generation of a ring block. -/
def forgetGen (rb : Nat) (t : Stream) : Stream := { t with blockGens := t.blockGens.filter fun e => e.1 != rb }

/-- RESUME: dispatch restarts at NEXT; the instruction is fetched afresh, whatever generation its block has by now. -/
def resumeStream (c ctx : Nat) (s : State) : State :=
  setStream ctx c (fun t =>
    let t := pastHalt t
    { forgetGen (t.next.toNat / 256) t with mode := .running, fetched := none, held := none, fetchFault := none, skipping := false }) s

/-- What SKIP finds at NEXT. -/
inductive Skipped where
  | word (w : Nat)
  | unread
  | absent (page : Nat)
  deriving DecidableEq, Repr

/-- The instruction SKIP reads at NEXT, from its block or, where that does not hold it, from the ring (R231). -/
def skipRead (c ctx : Nat) (s : State) : Skipped × State :=
  let t := stream s ctx c
  let i := t.next.toNat
  match ((blockOf (core s c) ctx (i / 256)).map fun k => (core s c).imem.getD k {}).filter
      (fun b => decide (i % 256 < b.fill) && !(nmem b.eccBad (i % 256))) with
  | some b => (if nmem b.poisoned (i % 256) then .unread else .word (tget 0 b.words (i % 256)).toNat, s)
  | none =>
    match ringFault s c ctx (i / 256) (i % 256) with
    | some (.absent p) => (.absent p, s)
    | _ =>
      match ringWords c ctx (i / 256) (i % 256) s with
      | (some (w :: _, false :: _), s) => (.word w, s)
      | (_, s) => (.unread, s)

/-- NEXT moves past n instructions, without dispatch, and the stream resumes. -/
def skipBy (c ctx n : Nat) (s : State) : State :=
  resumeStream c ctx (setStream ctx c (fun t =>
    passNext { forgetGen (t.next.toNat / 256) t with next := t.next + BitVec.ofNat 32 (n - 1) }) s)

/-- SKIP: NEXT moves past the instruction, and past the body of a LOOP; while the page of its ring slot is absent it waits.
(DEDUCED, log 140) -/
def skipStream (c ctx : Nat) (s : State) : State :=
  match skipRead c ctx (setStream ctx c pastHalt s) with
  | (.word w, s) => skipBy c ctx (if iClass w == 1 && iOpcode w == 8 then bits w 43 32 + 2 else 1) s
  | (.unread, s) => skipBy c ctx 1 s
  | (.absent p, s) => noteMiss ctx p false (setStream ctx c (fun t => { t with skipping := true }) s)

/-- DEBUG_HALT of a running stream, before its next instruction is taken up (R230). -/
def debugHalt (c ctx : Nat) (s : State) : State :=
  let t := stream s ctx c
  let rb := t.next.toNat / 256
  let (slot, g) := match blockOf (core s c) ctx rb with
    | some k => (k * 256 + t.next.toNat % 256, ((core s c).imem.getD k {}).gen.toNat)
    | none => (0, 0)
  haltStream c ctx { reason := .debugHalt, index := t.next, slot := slot, postmark := t.lastPm.map (·.toNat), oldGen := g, newGen := g } s

/-- A write of CP_COMMAND: 1 RESUME, 2 SKIP, 3 HALT, on the stream CP_SELECT names (R231); BUSY while its SKIP waits. (DEDUCED, log 140) -/
def cpCommandW (c v : Nat) (s : State) : Nat × State :=
  let ctx := bits (reg s (0x3680 + c) 1) 11 0
  let t := stream s ctx c
  if v = 0 ∨ 3 < v then (0x1A, s)
  else if t.skipping then (0x16, s)
  else if v = 1 then (if t.mode = .halted then (0, resumeStream c ctx s) else (0x16, s))
  else if v = 2 then (if t.mode = .halted then (0, skipStream c ctx s) else (0x16, s))
  else if t.mode = .running then (0, debugHalt c ctx s)
  else (0x16, s)

/-! ## Pages that come, or do not (R206, R210, R231, R302) -/

/-- Cores on which a context has a stream that satisfies a test. -/
def coresWith (s : State) (ctx : Nat) (p : Stream → Bool) : List Nat :=
  (s.streams.filter fun e => e.1 / 128 == ctx && p e.2).map fun e => e.1 % 128

/-- A page of a context has come: first doorbells and SKIPs that wait are tried again. -/
def wakeStreams (ctx : Nat) (s : State) : State :=
  let s := (coresWith s ctx fun t => !t.doors.isEmpty).foldl (fun s c => (firstDoorbells c ctx (stream s ctx c).doors s).2) s
  (coresWith s ctx fun t => t.skipping).foldl (fun s c => skipStream c ctx s) s

/-- The loader's next read of a stream is of a page. -/
def loadsPage (s : State) (c ctx page : Nat) : Bool :=
  (stream s ctx c).mode == .running && (stream s ctx c).fetchFault.isNone &&
    match wantedBlock s c ctx with
    | some rb => ringFault s c ctx rb (loadFrom s c ctx rb) == some (.absent page)
    | none => false

/-- A page of a context is given up: first doorbells that wait for it halt their stream, SKIPs pass the instruction, and the loader's
read of it has failed. -/
def failStreams (ctx page : Nat) (r : Reason) (s : State) : State :=
  let s := ((coresWith s ctx fun t => !t.doors.isEmpty).filter fun c => (ctxStreamBase s ctx + 64 * c) / 2 ^ 21 == page).foldl
    (fun s c => recordUnread c ctx (stream s ctx c).doors r s) s
  let s := (coresWith s ctx fun t => t.skipping && ringAddr t t.next.toNat / 2 ^ 21 == page).foldl (fun s c => skipBy c ctx 1 s) s
  ((coresWith s ctx fun _ => true).filter fun c => loadsPage s c ctx page).foldl (fun s c =>
    setStream ctx c (fun t => { t with fetchFault := (wantedBlock s c ctx).map fun rb =>
      (BitVec.ofNat 32 (rb * 256 + loadFrom s c ctx rb), BitVec.ofNat 8 r.code) }) s) s

end Sys2Proof.Machine
end

