-- ==== Sys2Proof/Machine/Contexts.lean ====
section
/-! DEFINITION. Normal context commands (Tables 13.3 and 15.6): opening, setting, mapping, unmapping and closing contexts, frames and quotas, the end of a context, watches and queue pairs. -/

namespace Sys2Proof.Machine

/-! ## Images of Table 13.1 -/

/-- Reserved bits of an entry, highest and lowest. -/
def ctxReserved : List (Nat × Nat) :=
  [(2015, 768), (639, 589), (575, 569), (447, 432), (383, 368), (319, 304), (255, 244), (159, 146), (127, 114), (95, 93),
   (79, 77), (63, 56), (23, 23)]

/-- The reserved bits of an image are zero. (DEDUCED, log 42) -/
def ctxReservedOk (w : Nat) : Bool := ctxReserved.all fun r => bits w r.1 r.2 == 0

/-- Fields that OPEN sets: SP_MASK to PRIORITY, the fields marked RW. -/
def ctxRwFields : List (Nat × Nat) :=
  [(767, 640), (588, 582), (581, 576), (568, 568), (567, 544), (543, 512), (511, 448), (367, 320), (303, 256), (243, 240),
   (239, 192), (113, 96), (76, 64), (31, 24), (22, 21), (20, 20), (19, 16), (15, 15), (14, 12)]

/-- Fields that SET may change: the RW fields except SP_* and SESSION_KEY (Table 13.3). (DEDUCED, log 42) -/
def ctxSettable : List (Nat × Nat) :=
  [(568, 568), (567, 544), (543, 512), (511, 448), (367, 320), (303, 256), (243, 240), (239, 192), (113, 96), (76, 64),
   (22, 21), (20, 20), (19, 16), (15, 15), (14, 12)]

/-- The fields of a list taken from one image into another. -/
def copyFields (fs : List (Nat × Nat)) (src dst : Nat) : Nat := fs.foldl (fun d f => setBits d f.1 f.2 (bits src f.1 f.2)) dst

/-- Ranges and alignments of Table 13.1. (DEDUCED, log 42) -/
def ctxValuesOk (w : Nat) : Bool :=
  decide (bits w 588 582 ≤ 64) && decide (bits w 581 576 + bits w 588 582 ≤ 64)
    && (decide (4 ≤ bits w 243 240) || (bits w 303 256 == 0 && bits w 243 240 == 0))
    && decide (bits w 113 96 ≤ 196096) && decide (bits w 76 64 ≤ 4096)
    && bits w 367 320 % 2 ^ 20 == 0 && bits w 239 192 % 8192 == 0 && bits w 511 448 % 2 ^ 21 == 0
    && !(decide (0xF0 ≤ bits w 31 24 ∧ bits w 31 24 ≤ 0xFE))

/-- The grant of an image meets the grant of a context that is not FREE, on a core of both masks (R293). -/
def grantTaken (s : State) (w : Nat) : Bool :=
  s.contexts.any fun e =>
    let v := e.2.entry.toNat
    bits v 10 8 != 0 && decide (0 < bits v 588 582) && decide (0 < bits w 588 582)
      && (bits v 767 640 &&& bits w 767 640) != 0
      && decide (bits v 581 576 < bits w 581 576 + bits w 588 582 ∧ bits w 581 576 < bits v 581 576 + bits v 588 582)

/-! ## Execution of a normal command (R291, R295) -/

/-- The command is over: its result is READY and its context may take the next. -/
def endCmd (q : NormalCmd) (status value : Nat) (s : State) : State :=
  let s := finishResult q.result status value [] s
  setContext q.ctx (fun x => if x.normal = some q.result then { x with normal := none } else x) s

/-- The context of a command closed before the command came to execute, or is closing. -/
def cmdGone (s : State) (q : NormalCmd) : Bool :=
  ctxState s q.ctx == 0 || ctxState s q.ctx == 3 || (result s q.result).cgen.toNat != ctxGen s q.ctx

/-- The command at the front of a path's queue when its code is the row's (R332). -/
def frontCmd (s : State) (p : Path) (code : Nat) : Option NormalCmd :=
  match s.normalQ.getD (pathIdx p) [] with
  | q :: _ => if q.code.toNat = code then some q else none
  | [] => none

/-- Take the command at the front of a path's queue. -/
def popCmd (p : Path) (s : State) : State := { s with normalQ := lmod s.normalQ (pathIdx p) fun l => l.drop 1 }

/-- Execute the front command of a path with the row's code: in CLOSING, or after its context closed, it ends with
CONTEXT_GONE. -/
def runCmd (p : Path) (code : Nat) (f : NormalCmd → State → State) (s : State) : State :=
  match frontCmd s p code with
  | none => s
  | some q =>
    if !(running s) then s
    else
      let s := readEntry q.ctx (popCmd p s)
      if cmdGone s q then endCmd q 0x23 0 s else f q s

/-- An operand word. -/
def opWord (q : NormalCmd) (n : Nat) : Nat := ofLe ((q.operands.drop (8 * n)).take 8)

/-- A stream of a context runs. -/
def anyRunning (s : State) (ctx : Nat) : Bool := s.streams.any fun e => e.1 / 128 == ctx && e.2.mode == .running

/-- Instructions of a context in flight. -/
def anyInFlight (s : State) (ctx : Nat) : Bool :=
  s.streams.any (fun e => e.1 / 128 == ctx && (!e.2.inflight.isEmpty || e.2.held.isSome)) || s.cores.any fun e => inCore ctx e.2 != 0

/-! ## OPEN, SET, REOPEN (R293, R294) -/

/-- The generation after one more OPEN: modulo 2^16, skipping 0. -/
def nextGen (g : Nat) : Nat := g % 0xFFFF + 1

/-- The entry of a freshly opened context (R293): HW fields at their starts, the page table's root somewhere in the system
area. -/
def openEntry (w gen root : Nat) : Nat :=
  setBits (setBits (setBits (copyFields ctxRwFields w 0x17) 431 384 root) 47 32 gen) 10 8 1

/-- The ID an OPEN takes: the lowest FREE one for ANY, the named one while FREE; else a refusal. -/
def openId (s : State) (w0 : Nat) : Nat ⊕ Nat :=
  if bit w0 63 then
    match (List.range 4096).find? fun k => ctxState s k == 0 with
    | some k => .inl k
    | none => .inr 0x18
  else if ctxState s (bits w0 11 0) = 0 then .inl (bits w0 11 0) else .inr 0x16

/-- Open a context with an image: the entry, and no mapping. Where the level-1 table stands in the system area the spec does not say.
(DESIGN CHOICE, log 32) -/
def openContext (id w : Nat) (s : State) : State :=
  let d := draw s
  let gen := nextGen (ctxGen s id)
  let root := (128 + d.1 % (2 ^ 17 - 128)) * 8192
  entryWritten id (setContext id (fun _ => { entry := BitVec.ofNat 2048 (openEntry w gen root), waitSince := s.time })
    { d.2 with opened := true })

/-! ### Placement (R354) -/

/-- Numbers of the bits of a mask. -/
def maskBits (n w : Nat) : List Nat := (List.range n).filter fun k => bit w k

/-- The rank of a module for the manager's own choice: its chain and its contexts for this module; the spec does not say how a
manager comes to know them of another, so there they are free values. -/
def moduleRank (w m : Nat) (s : State) : Nat × State :=
  if m = moduleOf s then
    let k := bits w 19 16
    let ok := bits w 20 20 == 0 || (chain s k).state == .active
    ((if ok then 0 else 2 ^ 20) + (s.contexts.filter fun e => bits e.2.entry.toNat 10 8 != 0).length, s)
  else
    let d := draw s
    ((d.1 % 2) * 2 ^ 20 + d.1 / 2 % 4097, d.2)

/-- Modules with their ranks. (DESIGN CHOICE, log 37; DESIGN CHOICE, log 81) -/
def rankAll (w : Nat) : List Nat → State → List (Nat × Nat) × State
  | [], s => ([], s)
  | m :: r, s =>
    let x := moduleRank w m s
    let y := rankAll w r x.2
    ((x.1, m) :: y.1, y.2)

/-- The n modules of lowest rank, the lowest number among equals. -/
def lowest : Nat → List (Nat × Nat) → List Nat
  | 0, _ => []
  | n + 1, l =>
    match l.foldl (fun (b : Option (Nat × Nat)) x => match b with
      | some y => if x.1 < y.1 then some x else some y
      | none => some x) none with
    | some x => x.2 :: lowest n (l.filter fun y => y.2 != x.2)
    | none => []

/-- Modules of one board that an OPEN names or lets the manager choose. -/
def boardModules (wa w pod board : Nat) (s : State) : List Nat × State :=
  if bit wa 63 then
    let all := if pod = podOf s ∧ board = boardOf s then
        (List.range 8).filter fun m => m == moduleOf s || reachable s m
      else List.range 8
    let r := rankAll w all s
    (lowest (bits wa 11 8 + 1) r.1, r.2)
  else (maskBits 8 wa, s)

/-- The placement of an OPEN on a manager, as identities. -/
def placementOf (q : NormalCmd) (w : Nat) (s : State) : List Nat × State :=
  if effRole s = 0 ∨ q.operands.length ≤ 264 then ([], s)
  else
    let pods := if effRole s = 3 ∧ 280 < q.operands.length then maskBits 64 (opWord q 35) else [podOf s]
    let boards := if 2 ≤ effRole s ∧ 272 < q.operands.length then maskBits 64 (opWord q 34) else [boardOf s]
    (pods.flatMap fun p => boards.map fun b => (p, b)).foldl (fun acc pb =>
      let r := boardModules (opWord q 33) w pb.1 pb.2 acc.2
      (acc.1 ++ r.1.map fun m => pb.1 * 512 + pb.2 * 8 + m, r.2)) ([], s)

/-- The other modules of a placement open the same ID with the same GENERATION. (DESIGN CHOICE, log 81) -/
def relayOpen (q : NormalCmd) (id : Nat) (others : List Nat) (s : State) : State :=
  let own := identityOf s % 2 ^ 15
  let gen := ctxGen s id
  let w0 := id + gen * 2 ^ 16 + 2 ^ 62
  let s := { s with relayJobs := s.relayJobs ++
    [{ result := q.result, code := 1, ctx := id, await := others, reported := [(own, 0, id * 65536 + gen)] }] }
  others.foldl (fun s m => sendRelay { report := false, code := 1, ctx := id, gen := gen, dst := m, src := own, slot := q.result,
                                       ops := toLe 8 w0 ++ (q.operands.drop 8).take 256 } s) s

/-- An OPEN that a manager relays (bit 62 of the first operand word) takes the manager's GENERATION and is placed. -/
def takePlaced (id w0 : Nat) (s : State) : State :=
  if bit w0 62 then setContext id (fun x => { x with placed := true }) (setCtxF id 47 32 (bits w0 31 16) s) else s

/-- CONTEXT_OPEN. -/
def contextOpen (p : Path) (s : State) : State :=
  match frontCmd s p 1 with
  | none => s
  | some q =>
    if !(running s) then s
    else
      let s := popCmd p s
      let w := ofLe ((q.operands.drop 8).take 256)
      match openId s (opWord q 0) with
      | .inr st => finishResult q.result st 0 [] s
      | .inl id =>
        let s := if bit (opWord q 0) 63 then addTotal 0x3800 7 1 s else s
        if !(ctxValuesOk w) then finishResult q.result 0x1A 0 [] s
        else if grantTaken s w then finishResult q.result 0x19 0 [] s
        else
          let s := takePlaced id (opWord q 0) (openContext id w s)
          let s := setResult q.result (fun o => { o with ctx := id }) s
          let (pl, s) := placementOf q w s
          let others := pl.filter fun m => m != identityOf s % 2 ^ 15
          if others.isEmpty then finishResult q.result 0 (id * 65536 + ctxGen s id) [] s
          else relayOpen q id others (setContext id (fun x => { x with placement := pl }) s)

/-- The image SET writes: the selected bytes over the entry. -/
def setImage (old mask new : Nat) : Nat :=
  (List.range 256).foldl (fun w b => if bit mask b then setBits w (8 * b + 7) (8 * b) (bits new (8 * b + 7) (8 * b)) else w) old

/-- CONTEXT_SET (Table 13.3): a change outside the settable fields or a value out of range is refused, as is a change of the
chain binding unless SUSPENDED. -/
def contextSet (p : Path) (s : State) : State :=
  runCmd p 2 (fun q s =>
    let old := ctxEntryWord s q.ctx
    let w := setImage old (ofLe (q.operands.take 32)) (ofLe ((q.operands.drop 32).take 256))
    if copyFields ctxSettable w old ≠ w then endCmd q 0x1A 0 s
    else if bits w 20 16 ≠ bits old 20 16 ∧ ctxState s q.ctx ≠ 2 then endCmd q 0x16 0 s
    else if bits w 113 96 < ctxUsed s q.ctx ∨ bits w 76 64 < ctxSealsUsed s q.ctx ∨ ctxValuesOk w = false then endCmd q 0x1A 0 s
    else endCmd q 0 0 (entryWritten q.ctx (setContext q.ctx (fun x => { x with
      entry := BitVec.ofNat 2048 (copyFields ctxSettable w x.entry.toNat) }) s))) s

/-- One stream of a reopened context: its record says IDLE, and the device holds it no more (R206). (DEDUCED, log 43) -/
def reopenStream (ctx c : Nat) (s : State) : State :=
  let s := setStream ctx c (fun t => { t with mode := .idle, haltReason := 0 }) s
  let s := writeBack c ctx s
  let s := { s with streams := terase s.streams (skey ctx c) }
  setCore c (fun x => { x with
    slots := x.slots.map (fun o => if o = some ctx then none else o),
    imem := x.imem.map (fun b => if b.ctx = some ctx then freeBlock b else b),
    pinWaits := x.pinWaits.filter (fun k => k != ctx) }) s

/-- REOPEN. (DEDUCED, log 43) -/
def reopen (p : Path) (s : State) : State :=
  runCmd p 3 (fun q s =>
    if anyRunning s q.ctx then endCmd q 0x16 0 s
    else
      let cs := (s.streams.filter fun e => e.1 / 128 == q.ctx && e.2.known).map fun e => e.1 % 128
      endCmd q 0 0 (cs.foldl (fun s c => reopenStream q.ctx c s) s)) s

/-! ## Frames (R283, R284, R297) -/

/-- A frame outside the system area, free and not retired. -/
def frameFree (s : State) (f : Nat) : Bool := decide (512 ≤ f ∧ f < 196608) && !(nmem s.frames f) && !(isRetired s f)

/-- The frames of a page starting at a frame are free. -/
def pageFree (s : State) (huge : Bool) (f : Nat) : Bool :=
  if huge then f % 512 == 0 && (List.range 512).all fun k => frameFree s (f + k) else frameFree s f

/-- Spreading mode of a frame's group. -/
def frameMode (s : State) (f : Nat) : Nat := spreadOf s (f * 2 ^ 21)

/-- A frame suits DIE d, DEVICE, or STACK k. -/
def suits (s : State) (place unit f : Nat) : Bool :=
  if place = 1 then frameMode s f == 1 && f / 2048 % 2 == unit
  else if place = 2 then frameMode s f == 0
  else frameMode s f == 2 && f / 512 % 8 == unit

/-- Some free page that satisfies a test: which one is not stated. -/
def pickPage (huge : Bool) (p : Nat → Bool) (s : State) : Option Nat × State :=
  let d := draw s
  let z := if huge then 512 else 1
  ((firstFree d.1 (196608 / z) fun k => !(p (z * k) && pageFree s huge (z * k))).map fun k => z * k, d.2)

/-- The first test that some free page satisfies. (DESIGN CHOICE, log 37) -/
def pickFirst (huge : Bool) : List (Nat → Bool) → State → Option Nat × State
  | [], s => (none, s)
  | p :: r, s =>
    match pickPage huge p s with
    | (some f, s) => (some f, s)
    | (none, s) => pickFirst huge r s

/-- The tests a placement tries for its i-th page: ANY takes DIE-mode frames of one die, then of the other, then any
frame (R297). (DEDUCED, log 38) -/
def placeTests (s : State) (place unit i : Nat) : List (Nat → Bool) :=
  if place = 0 then [suits s 1 (i % 2), suits s 1 (1 - i % 2), fun _ => true] else [suits s place unit]

/-- Mark the frames of a page allocated. (DEDUCED, log 38) -/
def takeFrames (f z : Nat) (s : State) : State := { s with frames := (List.range z).foldl (fun l k => nins l (f + k)) s.frames }

/-- Frames for n pages, all or none. ANY alternates between the dies page by page from the first. -/
def allocate (huge : Bool) (place unit first : Nat) : Nat → State → Option (List Nat × State)
  | 0, s => some ([], s)
  | n + 1, s =>
    match pickFirst huge (placeTests s place unit first) s with
    | (none, _) => none
    | (some f, s) =>
      (allocate huge place unit (first + 1) n (takeFrames f (if huge then 512 else 1) s)).map fun r => (f :: r.1, r.2)

/-- Free frames: a pending one is retired without a copy (R284). -/
def freeFrames (f z : Nat) (s : State) : State :=
  { s with
    frames := s.frames.filter fun k => !(decide (f ≤ k ∧ k < f + z)),
    hbm := s.hbm.map fun h => { h with pending := h.pending.filter fun k => !(decide (f ≤ k ∧ k < f + z)) } }

/-- Zeros over the frames of a page, in class WRITE: poison and latent errors go with the old data. -/
def zeroFrames (f z : Nat) (s : State) : State :=
  let lo := f * 2 ^ 21
  let hi := (f + z) * 2 ^ 21
  let out := fun (a : Nat) => !(decide (lo ≤ a ∧ a < hi))
  bwCount .write (hi - lo) { s with
    mem := s.mem.filter fun c => out c.1,
    poison := s.poison.filter out,
    hbmLatent := s.hbmLatent.filter fun e => out e.1,
    cacheLatent := s.cacheLatent.filter fun e => out e.1 }

/-! ## MAP, UNMAP, MAP_HOSTED (R297-R299) -/

/-- 2 MiB units of a mapping. -/
def mapUnits (m : Mapping) : Nat := if m.huge then 512 else 1

/-- Mappings of a context that meet a range of 2 MiB units. -/
def mapsIn (s : State) (ctx lo n : Nat) : List (Nat × Mapping) :=
  (context s ctx).pages.filter fun e => decide (e.1 < lo + n ∧ lo < e.1 + mapUnits e.2)

/-- Change HBM_USED by the frames taken or given back. -/
def chargeFrames (ctx used : Nat) (s : State) : State := setCtxF ctx 145 128 used s

/-- MAP: the refusals of R297, then the frames are taken and zeroed. (DEDUCED, log 39) -/
def mapCmd (p : Path) (s : State) : State :=
  runCmd p 8 (fun q s =>
    let a := opWord q 0
    let w := opWord q 1
    let n := bits w 31 0
    let huge := bit w 32
    let z := if huge then 512 else 1
    let unit := bits w 38 36
    let place := bits w 35 34
    if n = 0 ∨ a % (z * 2 ^ 21) ≠ 0 ∨ 2 ^ 40 < a + n * z * 2 ^ 21 ∨ (place = 1 ∧ 1 < unit) then endCmd q 0x1A 0 s
    else if !(mapsIn s q.ctx (a / 2 ^ 21) (n * z)).isEmpty then endCmd q 0x16 0 s
    else if ctxQuota s q.ctx < ctxUsed s q.ctx + n * z then endCmd q 0x1B 0 s
    else
      match (if framesFree s < n * z then none else allocate huge place unit 0 n s) with
      | none => endCmd q 0x1C 0 s
      | some (fs, s') =>
        let page := fun (i f : Nat) => (a / 2 ^ 21 + i * z,
          ({ huge := huge, present := true, hosted := false, write := bit w 41, read := bit w 40, pinned := false,
             retiring := false, frame := f, backing := 0, age := 0 } : Mapping))
        chargeFrames q.ctx (ctxUsed s' q.ctx + n * z)
          { casSome s' with mapJobs := s'.mapJobs ++ [{ ctx := q.ctx, result := q.result, pages := fs.mapIdx page }] }) s

/-- MAP_COMPLETE (R297): the frames of the context's MAP are zero and every page is mapped. -/
def mapComplete (ctx : Nat) (s : State) : State :=
  match s.mapJobs.find? fun j => j.ctx == ctx with
  | none => s
  | some j =>
    if ctxState s ctx = 3 then s
    else
      let s := { s with mapJobs := s.mapJobs.filter fun x => !(x == j) }
      let s := j.pages.foldl (fun s e => zeroFrames e.2.frame (mapUnits e.2) s) s
      let s := setContext ctx (fun x => { x with
        pages := x.pages ++ j.pages, normal := if x.normal = some j.result then none else x.normal }) s
      finishResult j.result 0 0 [] s

/-- A fetch of a mapping that goes is stale: its frame is freed when it completes (R295). -/
def staleFetches (ctx : Nat) (ms : List (Nat × Mapping)) (s : State) : State :=
  { s with fetches := s.fetches.map fun o => o.map fun f =>
      if f.ctx == ctx && ms.any (fun e => e.1 == f.page) then { f with stale := true } else f }

/-- Remove mappings of a context and free their frames. (DEDUCED, log 40) -/
def dropMaps (ctx : Nat) (ms : List (Nat × Mapping)) (s : State) : State :=
  let s := setContext ctx (fun x => { x with pages := x.pages.filter fun e => !(ms.contains e) }) (staleFetches ctx ms s)
  ms.foldl (fun s e =>
    if e.2.present then chargeFrames ctx (ctxUsed s ctx - mapUnits e.2) (freeFrames e.2.frame (mapUnits e.2) s) else s) s

/-- UNMAP (R298): pages count in units of 2 MiB; a 1 GiB page that the range meets goes whole. (DEDUCED, log 39; DEDUCED, log 40) -/
def unmap (p : Path) (s : State) : State :=
  runCmd p 9 (fun q s =>
    let a := opWord q 0
    let n := opWord q 1
    if n = 0 ∨ a % 2 ^ 21 ≠ 0 ∨ 2 ^ 40 < a + n * 2 ^ 21 then endCmd q 0x1A 0 s
    else if ctxState s q.ctx ≠ 2 ∧ (anyRunning s q.ctx || anyInFlight s q.ctx) = true then endCmd q 0x16 0 s
    else endCmd q 0 0 (dropMaps q.ctx (mapsIn s q.ctx (a / 2 ^ 21) n) (casSome s))) s

/-- MAP_HOSTED (R299). (DEDUCED, log 39) -/
def mapHosted (p : Path) (s : State) : State :=
  runCmd p 0xA (fun q s =>
    let a := opWord q 0
    let w := opWord q 1
    let n := bits w 31 0
    let o := opWord q 2
    if ctxPagerQpn s q.ctx = 0 ∨ n = 0 ∨ a % 2 ^ 21 ≠ 0 ∨ 2 ^ 40 < a + n * 2 ^ 21 ∨ 2 ^ 27 < o + n then endCmd q 0x1A 0 s
    else if !(mapsIn s q.ctx (a / 2 ^ 21) n).isEmpty then endCmd q 0x16 0 s
    else
      let page := fun (i : Nat) => (a / 2 ^ 21 + i,
        ({ huge := false, present := false, hosted := true, write := false, read := true, pinned := bit w 32,
           retiring := false, frame := 0, backing := o + i, age := 0 } : Mapping))
      endCmd q 0 0 (setContext q.ctx (fun x => { x with pages := x.pages ++ (List.range n).map page }) s)) s

/-! ## CLOSE and the end of a context (R258, R295) -/

/-- CLOSE: refused while a stream runs; of a context CLOSING it reports DONE; else the context goes to CLOSING and the
result waits for FREE. -/
def close (p : Path) (s : State) : State :=
  match frontCmd s p 4 with
  | none => s
  | some q =>
    if !(running s) then s
    else
      let s := popCmd p s
      if ctxState s q.ctx = 0 ∨ (result s q.result).cgen.toNat ≠ ctxGen s q.ctx then endCmd q 0x23 0 s
      else if ctxState s q.ctx = 3 then endCmd q 0 0 s
      else if anyRunning s q.ctx then endCmd q 0x16 0 s
      else
        setContext q.ctx (fun x => { x with killing := some (x.killing.getD [] ++ [q.result]) }) (killContext q.ctx 0 s)

/-- Step 1 of R258: stalled SENDs go to the dead-letter mailbox as SENDER_RESET; another module that holds the envelope drops it. -/
def endSends (ctx : Nat) (s : State) : State :=
  let mine := fun (f : EnvFlight) => f.stalled && decide (f.srcCore < 512) && envCtx f.env.toNat == ctx
  let l := s.envFlight.filter mine
  l.foldl (fun s f =>
    let e := f.env.toNat
    let s := if f.remote then routeTo (envIdent e) (envPacket 5 e) s else s
    deadLetterQ true (f.srcCore % 128) 7 e s) { s with envFlight := s.envFlight.filter fun f => !(mine f) }

/-- A step of R258 on every core in turn. -/
def onCores (f : Nat → State → State) (s : State) : State := (s.cores.map fun e => e.1).foldl (fun s c => f c s) s

/-- Step 3 of R258 on a core: its offices close. -/
def endOffices (ctx c : Nat) (s : State) : State :=
  (List.range 4).foldl (fun s o => if (office s c o).owner = some ctx then closeOffice true c o s else s) s

/-- Step 4 of R258 on a core: its stamp accounts are returned. -/
def endAccounts (ctx c : Nat) (s : State) : State :=
  ((core s c).accounts.filter fun a => a.ctx == ctx).foldl (fun s a => giveBack c a 0 s) s

/-- The watches of a context that closes end with CONTEXT_GONE, before its seals are freed (R339). (DEDUCED, log 27) -/
def endWatches (ctx : Nat) (s : State) : State :=
  ((s.results.filter fun e => e.2.watch.isSome && e.2.ctx == ctx).map fun e => e.1).foldl (fun s k => endResult k 0x23 s) s

/-- Step 5 of R258: seals and imports are freed. (DEDUCED, log 27) -/
def endSeals (ctx : Nat) (s : State) : State :=
  let s := endWatches ctx s
  (s.seals.filter fun e => e.2.owner == some ctx).foldl (fun s e => unbindSeal e.1 s) s

/-- The commands of a context that is FREE now: a MAP under way and an express command end with CONTEXT_GONE, the commands that
closed it with DONE. (DEDUCED, log 26) -/
def endCommands (ctx : Nat) (s : State) : State :=
  let x := context s ctx
  let gone := ((s.mapJobs.filter fun j => j.ctx == ctx).map fun j => j.result)
    ++ (match x.express with
        | some e => e.result.toList
        | none => [])
  let s := gone.foldl (fun s k => endResult k 0x23 s) s
  let s := (x.killing.getD []).foldl (fun s k => endResult k 0 s) s
  setContext ctx (fun x => { x with express := none, normal := none, killing := none })
    { s with mapJobs := s.mapJobs.filter fun j => j.ctx != ctx }

/-- The release of R295: frames, page tables, grant, residency; queue pairs (R328); what the vector engines hold. A
fetch in flight belongs to no context (number 4096) from then on. -/
def releaseContext (ctx : Nat) (s : State) : State :=
  let jobs := s.mapJobs.filter fun j => j.ctx == ctx
  let s := ((context s ctx).pages ++ jobs.flatMap (fun j => j.pages)).foldl (fun s e =>
    if e.2.present then freeFrames e.2.frame (mapUnits e.2) s else s) s
  let s := setContext ctx (fun x => { x with pages := [], placement := [], placed := false }) s
  let s := { s with
    qps := s.qps.filter fun q => q.2.ctx != ctx,
    misses := s.misses.filter fun m => m.ctx != ctx,
    fetches := s.fetches.map fun o => o.map fun f => if f.ctx = ctx then { f with ctx := 4096 } else f,
    cores := s.cores.map fun e => (e.1, { e.2 with vec := { e.2.vec with
      regs := e.2.vec.regs.filter (fun r => r.1 / 2048 != ctx), poison := e.2.vec.poison.filter (fun k => k / 2048 != ctx) } }) }
  setCtxF ctx 767 640 0 (setCtxF ctx 588 576 0 (setCtxF ctx 145 128 0 (setCtxF ctx 11 11 0 s)))

/-- A core still holds tiles of a context, finished or in its queue, which their consumer discards (R143, R173). -/
def tilesLeft (s : State) (ctx : Nat) : Bool :=
  s.cores.any fun e => e.2.array.finished.any (fun b => b.ctx == ctx) || e.2.array.queue.any fun t => t.ctx == ctx

/-- CLOSE_COMPLETE: once no core holds tiles of the context, the steps of R258 in their order, each on every core, the release, and FREE
with GENERATION kept. (DEDUCED, log 26) -/
def closeComplete (ctx : Nat) (s : State) : State :=
  if ctxState s ctx ≠ 3 || tilesLeft s ctx then s
  else
    let s := endSends ctx s
    let s := onCores (fun c s => closeMailboxes true c ctx 2 s) s
    let s := onCores (endOffices ctx) s
    let s := onCores (endAccounts ctx) s
    let s := endSeals ctx s
    let s := releaseContext ctx s
    endCommands ctx (setCtxF ctx 10 8 0 s)

/-! ## WATCH (R339) -/

/-- WATCH: installed on its seal, it waits; the context may take its next command. (DEDUCED, log 41) -/
def watch (p : Path) (s : State) : State :=
  runCmd p 0x20 (fun q s =>
    let w := opWord q 0
    let n := opWord q 2
    match (if n % 8 ≠ 0 ∨ 4096 < n then none else sealOf s q.ctx (bits w 15 0)) with
    | none => endCmd q 0x1A 0 s
    | some k =>
      let s := setContext q.ctx (fun x => if x.normal = some q.result then { x with normal := none } else x) s
      setResult q.result (fun o => { o with
        watch := some { target := BitVec.ofNat 32 (bits w 63 32), phys := k, gen := (sealAt s k).gen, addr := opWord q 1, len := n } }) s) s

/-- WATCH_READY: the seal meets its target, and the region is copied into the result. -/
def watchReady (k : Nat) (s : State) : State :=
  let o := result s k
  match o.watch with
  | none => s
  | some w =>
    let x := sealAt s w.phys
    if 0 ≤ sdiff32 x.count.toNat w.target.toNat then
      match unitPieces s o.ctx false w.addr w.len with
      | none =>
        match unitFault s o.ctx false w.addr w.len with
        | some (.absent page) => noteMiss o.ctx page false s
        | _ => endResult k 0x1A s
      | some ps =>
        let r := unitRead .read true ps (unitUse o.ctx w.addr w.len s)
        finishResult k (if r.2.1 then 0x22 else 0) x.count.toNat r.1 r.2.2
    else s

end Sys2Proof.Machine
end

