-- ==== Sys2Proof/Machine/Roce.lean ====
section
/-! DEFINITION. RoCE v2 queue pairs: creation and removal, requests of hosts, recovery and congestion (R327-R329). -/

namespace Sys2Proof.Machine

/-! ## Queue pairs (R328, Tables 15.3 and 15.6) -/

/-- The key of a queue pair: its port and number. -/
def qpKey (port qpn : Nat) : Nat := port * 2 ^ 24 + qpn

/-- A queue pair. -/
def qpOf (s : State) (port qpn : Nat) : Option QueuePair := (s.qps.find? fun e => e.1 == qpKey port qpn).map fun e => e.2

/-- Change a queue pair. -/
def setQp (port qpn : Nat) (f : QueuePair → QueuePair) (s : State) : State :=
  { s with qps := lreplace (fun e => e.1 == qpKey port qpn) (fun e => (e.1, f e.2)) s.qps }

/-- Bytes of a path MTU code. -/
def mtuOf (code : Nat) : Option Nat := if code = 3 then some 1024 else if code = 4 then some 2048 else if code = 5 then some 4096 else none

/-- The port a queue-pair command means: the one it came by; port 0 for the sideband. (PRESUMED, log 74) -/
def qpPort (p : Path) : Nat := if p = .port1 then 1 else 0

/-- A number that no queue pair of the port has: which one is not stated. Numbers 0, 1 and 0xFFFFFF mean other things. (DESIGN CHOICE, log 37) -/
def freeQpn (s : State) (port start : Nat) : Nat :=
  let bad := fun (n : Nat) => n == 0 || n == 1 || n == 0xFFFFFF || (qpOf s port n).isSome
  (((List.range (s.qps.length + 4)).map fun i => (start + i) % 2 ^ 24).find? fun n => !(bad n)).getD 2

/-- QP_CREATE. -/
def qpCreate (p : Path) (s : State) : State :=
  runCmd p 0x21 (fun q s =>
    let port := qpPort p
    let hi := opWord q 1
    let lo := opWord q 2
    let w3 := opWord q 3
    let w4 := opWord q 4
    match (if hi = 0 ∧ 2 ^ 32 ≤ lo then none else mtuOf (bits w4 2 0)) with
    | none => endCmd q 0x1A 0 s
    | some mtu =>
      if 16 ≤ (s.qps.filter fun e => e.2.ctx == q.ctx).length ∨ 256 ≤ (s.qps.filter fun e => e.1 / 2 ^ 24 == port).length then
        endCmd q 0x1D 0 s
      else
        let d := draw s
        let n := freeQpn d.2 port d.1
        let x : QueuePair := {
          ctx := q.ctx, mac := BitVec.ofNat 48 (opWord q 0), ipHi := BitVec.ofNat 64 hi, ipLo := BitVec.ofNat 64 lo,
          remote := BitVec.ofNat 24 (bits w3 55 32), mtu := mtu, dscp := BitVec.ofNat 6 (bits w4 13 8),
          epsn := BitVec.ofNat 24 w3, spsn := BitVec.ofNat 24 w3, unacked := [], retries := 0, rate := 2 ^ 32, error := false }
        endCmd q 0 n { d.2 with qps := d.2.qps ++ [(qpKey port n, x)] }) s

/-- QP_DESTROY. -/
def qpDestroy (p : Path) (s : State) : State :=
  runCmd p 0x22 (fun q s =>
    let n := bits (opWord q 0) 23 0
    match qpOf s (qpPort p) n with
    | some x =>
      if x.ctx = q.ctx then endCmd q 0 0 { s with qps := s.qps.filter fun e => e.1 != qpKey (qpPort p) n }
      else endCmd q 0x1A 0 s
    | none => endCmd q 0x1A 0 s) s

/-! ## Requests of hosts -/

/-- PSNs that an operation of n bytes takes. -/
def psnCount (x : QueuePair) (n : Nat) : Nat := max 1 (cdiv n x.mtu)

/-- The R_KEY names the queue pair's context with its current GENERATION, and the range lies in HBM (R328). -/
def requestOk (s : State) (x : QueuePair) (rkey addr n : Nat) : Bool :=
  rkey == ctxGen s x.ctx * 65536 + x.ctx && decide (addr + n ≤ 2 ^ 40) && decide (x.ctx < 4096)

/-- NAK codes of the RoCE v2 annex. -/
def nakSequence : Nat := 0
/-- Invalid request. -/
def nakInvalid : Nat := 1
/-- Remote access error. -/
def nakAccess : Nat := 2
/-- Remote operational error. -/
def nakOperational : Nat := 3

/-- Answer with a NAK. (PRESUMED, log 74) -/
def sendNak (port qpn psn code : Nat) (s : State) : State :=
  emit (.rdmaNak (Fin.ofNat 2 port) (BitVec.ofNat 24 qpn) (BitVec.ofNat 24 psn) (BitVec.ofNat 8 code)) s

/-- The next request expected on a queue pair. -/
def expectNext (port qpn n : Nat) (s : State) : State :=
  setQp port qpn (fun x => { x with epsn := x.epsn + BitVec.ofNat 24 (psnCount x n) }) s

/-- How a request's PSN stands to the expected one: the same, behind it, or ahead. (PRESUMED, log 74) -/
def psnOrder (x : QueuePair) (psn : BitVec 24) : Int := toSigned 24 (psn - x.epsn).toNat

/-- ROCE_RDMA_WRITE (R328, R329): translated and protected, written in class REMOTE, acknowledged when complete. A repeated
request is acknowledged again; one that leaves a gap gets a sequence error. -/
def roceWrite (port qpn : Nat) (psn : BitVec 24) (rkey addr : Nat) (data : List Byte) (s : State) : State :=
  match qpOf s port qpn with
  | none => s
  | some x =>
    let ack := fun (s : State) => emit (.rdmaAck (Fin.ofNat 2 port) (BitVec.ofNat 24 qpn) psn) s
    if psnOrder x psn < 0 then ack s
    else if 0 < psnOrder x psn then sendNak port qpn x.epsn.toNat nakSequence s
    else if entryFails s x.ctx then sendNak port qpn psn.toNat nakAccess (readEntry x.ctx s)
    else if requestOk s x rkey addr data.length then
      match unitPieces s x.ctx true addr data.length with
      | some ps => ack (expectNext port qpn data.length (unitWrite .remote true false ps data (unitUse x.ctx addr data.length s)))
      | none => sendNak port qpn psn.toNat nakAccess s
    else sendNak port qpn psn.toNat nakAccess s

/-- Packets of a read up to the first that holds poison: the data, whether all of it is whole, the address where it stops. Reads of hosts
allocate no lines (R269). -/
def readPackets (ctx mtu : Nat) : Nat → Nat → Nat → State → List Byte × Option Nat × State
  | 0, _, _, s => ([], none, s)
  | f + 1, a, n, s =>
    if n = 0 then ([], none, s)
    else
      let k := min n mtu
      let r := unitRead .remote false ((unitPieces s ctx false a k).getD []) s
      if r.2.1 then ([], some a, r.2.2)
      else
        let t := readPackets ctx mtu f (a + k) (n - k) r.2.2
        (r.1 ++ t.1, t.2.1, t.2.2)

/-- Answer a read whose range is translated: poison ends it after the last good packet, with a record (R329). (DEDUCED, log 75) -/
def answerRead (port qpn : Nat) (psn : BitVec 24) (x : QueuePair) (addr n : Nat) (s : State) : State :=
  let r := readPackets x.ctx x.mtu (n / x.mtu + 1) addr n (unitUse x.ctx addr n s)
  let s := emit (.rdmaData (Fin.ofNat 2 port) (BitVec.ofNat 24 qpn) psn r.1 r.2.1.isNone) r.2.2
  match r.2.1 with
  | none => s
  | some a =>
    sendNak port qpn (psn.toNat + r.1.length / x.mtu) nakOperational
      (stageRec 0 { unit := .eth, reason := .poisonControl, ctx := x.ctx, addr := some (a, false) } s)

/-- ROCE_RDMA_READ (R328, R329): answered, refused, or held until the pager has the page. (PRESUMED, log 74) -/
def roceRead (port qpn : Nat) (psn : BitVec 24) (rkey addr n : Nat) (s : State) : State :=
  match qpOf s port qpn with
  | none => s
  | some x =>
    if 0 < psnOrder x psn then sendNak port qpn x.epsn.toNat nakSequence s
    else if entryFails s x.ctx then sendNak port qpn psn.toNat nakAccess (readEntry x.ctx s)
    else if requestOk s x rkey addr n then
      let next := fun (s : State) => if psnOrder x psn = 0 then expectNext port qpn n s else s
      match unitFault s x.ctx false addr n with
      | none => answerRead port qpn psn x addr n (next s)
      | some (.absent page) =>
        if 16 ≤ x.held.length then sendNak port qpn psn.toNat nakInvalid s
        else noteMiss x.ctx page false (setQp port qpn (fun x => { x with held := x.held ++ [(psn, addr, n)] }) (next s))
      | some _ => sendNak port qpn psn.toNat nakAccess s
    else sendNak port qpn psn.toNat nakAccess s

/-- A held read again: answered, still held, or refused. -/
def retryRead (port qpn : Nat) (h : BitVec 24 × Nat × Nat) (s : State) : State :=
  match qpOf s port qpn with
  | none => s
  | some x =>
    match unitFault s x.ctx false h.2.1 h.2.2 with
    | some (.absent page) => noteMiss x.ctx page false s
    | r =>
      let s := setQp port qpn (fun x => { x with held := x.held.filter fun y => y != h }) s
      if r.isNone then answerRead port qpn h.1 x h.2.1 h.2.2 s else sendNak port qpn h.1.toNat nakAccess s

/-- Reads that waited for a page of a context run again. -/
def releaseReads (ctx : Nat) (s : State) : State :=
  (s.qps.filter fun e => e.2.ctx == ctx).foldl (fun s e =>
    e.2.held.foldl (fun s h => retryRead (e.1 / 2 ^ 24) (e.1 % 2 ^ 24) h s) s) s

/-- Reads that wait for a page that is given up are refused (R302). -/
def failReads (ctx page : Nat) (s : State) : State :=
  (s.qps.filter fun e => e.2.ctx == ctx).foldl (fun s e =>
    let hit := fun (h : BitVec 24 × Nat × Nat) => decide (h.2.1 / 2 ^ 21 ≤ page ∧ page * 2 ^ 21 < h.2.1 + h.2.2)
    (e.2.held.filter hit).foldl (fun s h =>
      sendNak (e.1 / 2 ^ 24) (e.1 % 2 ^ 24) h.1.toNat nakAccess
        (setQp (e.1 / 2 ^ 24) (e.1 % 2 ^ 24) (fun x => { x with held := x.held.filter fun y => y != h }) s)) s) s

/-! ## The requester: recovery and rate (Table 15.3) -/

/-- Send again every request from a PSN on: go-back-N. (PRESUMED, log 74) -/
def resendFrom (port qpn : Nat) (l : List (BitVec 24)) (s : State) : State :=
  l.foldl (fun s psn => emit (.rdmaResend (Fin.ofNat 2 port) (BitVec.ofNat 24 qpn) psn) s) s

/-- ROCE_NAK_RECEIVE: a sequence error makes the requester go back to the named request. -/
def roceNak (port qpn : Nat) (psn : BitVec 24) (s : State) : State :=
  match qpOf s port qpn with
  | none => s
  | some x => resendFrom port qpn (x.unacked.filter fun p => decide (0 ≤ toSigned 24 (p - psn).toNat)) s

/-- ROCE_CNP_RECEIVE: the rate halves, down to 1/64 of the line rate. -/
def roceCnp (port qpn : Nat) (s : State) : State := setQp port qpn (fun x => { x with rate := max (x.rate / 2) (2 ^ 26) }) s

/-- ROCE_RATE_RAISE: 50 µs without a CNP raise the rate by 1/32 of the line rate. -/
def roceRaise (port qpn : Nat) (s : State) : State := setQp port qpn (fun x => { x with rate := min (x.rate + 2 ^ 27) (2 ^ 32) }) s

end Sys2Proof.Machine
end

