-- ==== Sys2Proof/Machine/Update.lean ====
section
/-! DEFINITION. The parameter update in the port engines: the update queue, the checks of a block, the reduction ring, pass A, the verdict, pass B and the end of a job (chapter 14). -/

namespace Sys2Proof.Machine

/-! ## Fields of an update block (Table 14.1) -/

/-- N_PARAMS. -/
def uN (b : Nat) : Nat := bits b 262 232
/-- GRAD_DIE. -/
def uDie (b : Nat) : Nat := bits b 207 207
/-- SOURCE: GRAD_BUF already holds the reduced gradient. -/
def uSource (b : Nat) : Bool := bit b 206
/-- GRAD_FMT: 1 is FP32. -/
def uFmt (b : Nat) : Bool := bit b 205
/-- MODE: 1 is masked. -/
def uMasked (b : Nat) : Bool := bit b 204
/-- Groups of the group table. -/
def uGroups (b : Nat) : Nat := bits b 223 216 + 1
/-- RECORD_ADDR. -/
def uRecords (b : Nat) : Nat := bits b 463 416
/-- LOCAL_GRAD. -/
def uLocal (b : Nat) : Nat := bits b 511 464
/-- GRAD_BUF. -/
def uGrad (b : Nat) : Nat := bits b 559 512
/-- AUX_ADDR. -/
def uAux (b : Nat) : Nat := bits b 607 560
/-- STEP. -/
def uStep (b : Nat) : Nat := bits b 319 288

/-- Record blocks of a layer (R312). -/
def uBlocks (b : Nat) : Nat := cdiv (uN b) 64

/-- Chunks of a gradient (R314). -/
def uChunks (b : Nat) : Nat := cdiv (uN b) 16384

/-- Elements of a chunk. -/
def chunkLen (b k : Nat) : Nat := min 16384 (uN b - 16384 * k)

/-- Bytes of a local-gradient element. -/
def gradBytes (b : Nat) : Nat := if uFmt b then 4 else 2

/-- The job header a member sends (R313). -/
def headerOf (b : Nat) : JobHeader :=
  { jobTag := BitVec.ofNat 32 (bits b 351 320), nParams := uN b, members := BitVec.ofNat 8 (bits b 215 208),
    source := uSource b, gradFmt := uFmt b, mode := uMasked b, step := BitVec.ofNat 32 (uStep b) }

/-- The frozen bit of an element in a mask. -/
def frozenBit (mask : List Byte) (e : Nat) : Bool := bit (mask.getD (e / 8) 0).toNat (e % 8)

/-! ## The update queue (R309, Table 14.5) -/

/-- The owner context of the queue. -/
def updOwner (s : State) : Nat := bits (reg s 0x3A00 1) 27 16

/-- The queue is enabled and its owner lives under the generation named. -/
def updEnabled (s : State) : Bool :=
  bit (reg s 0x3A00 1) 31 && bits (reg s 0x3A00 1) 15 0 == ctxGen s (updOwner s) &&
    (ctxState s (updOwner s) == 1 || ctxState s (updOwner s) == 2)

/-- The context address of a ring index's block. -/
def updSlot (s : State) (i : Nat) : Nat :=
  bits (reg s 0x3A00 2) 47 0 + 128 * (i % 2 ^ bits (reg s 0x3A00 2) 52 48)

/-- UPD_OWNER and UPD_RING may not be written: a job is active, or UPD_NEXT is behind UPD_HEAD. -/
def updBusy (s : State) : Bool :=
  s.updRing.any (fun o => o.isSome) || decide (s.updNext.toNat ≠ reg s 0x3A00 3)

/-- A write to UPD_HEAD: backwards, or more than a ring ahead of UPD_NEXT, is refused with BAD_VALUE. -/
def updHeadW (v : Nat) (s : State) : Nat × State :=
  let ahead := (v + 2 ^ 32 - s.updNext.toNat) % 2 ^ 32
  let moved := sdiff32 v (reg s 0x3A00 3)
  if moved < 0 ∨ 2 ^ bits (reg s 0x3A00 2) 52 48 < ahead then (0x1A, s)
  else (0, setReg 0x3A00 3 v s)

/-! ## Accesses of a port engine -/

/-- The first absent hosted page that a range meets: it is asked for, and the engine waits. One whose fetch was given up is waited for
no more (R302). -/
def jobAbsent (s : State) (ctx : Nat) (write : Bool) (a n : Nat) : Option Nat :=
  ((pagePieces (pieceFuel n) a n).map fun x => xlat s ctx write x.1).findSome? fun x =>
    match x with
    | .absent p => if s.updPages.any (fun e => e.1 == p && e.2.isSome) then none else some p
    | _ => none

/-- The update engine misses a page: it waits for it (R300). -/
def updMiss (ctx page : Nat) (s : State) : State :=
  noteMiss ctx page false (if s.updPages.any (fun e => e.1 == page) then s else { s with updPages := s.updPages ++ [(page, none)] })

/-- A page that the update engine waits for is given up with a code (R302). -/
def failJobs (ctx page : Nat) (r : Reason) (s : State) : State :=
  if ctx = updOwner s then { s with updPages := s.updPages.map fun e => if e.1 = page then (page, some r.code) else e } else s

/-- Read context memory in class REMOTE; what is no longer mapped, or given up by the pager, reads as poison. (DEDUCED, log 85) -/
def jobRead (ctx a n : Nat) (s : State) : List Byte × Bool × State :=
  match unitPieces s ctx false a n with
  | some ps => unitRead .remote true ps (unitUse ctx a n s)
  | none => (List.replicate n 0, true, s)

/-- Write context memory in class WRITE. -/
def jobWrite (ctx a : Nat) (bs : List Byte) (p : Bool) (s : State) : State :=
  match unitPieces s ctx true a bs.length with
  | some ps => unitWrite .write true p ps bs (unitUse ctx a bs.length s)
  | none => s

/-- Bytes of the pinned window of a die (R315). (DEDUCED, log 114) -/
def windowBytes (s : State) (d : Nat) : Nat := pinWays s d * 2 ^ 22

/-- Write device pieces into the pinned window: no line is allocated and nothing travels to HBM. (DEDUCED, log 114) -/
def pinStore (p : Bool) : List (Nat × Nat) → List Byte → State → State
  | [], _, s => s
  | (a, n) :: r, bs, s =>
    let s := (unitsOf (granSize a) a n).foldl (fun s g => setMark a n p g s) s
    pinStore p r (bs.drop n) { s with mem := memWrite s.mem a (bs.take n) }

/-- Write the reduced value of a chunk to GRAD_BUF: the part inside the window's capacity stays there, the rest spills and is
counted in UPD_SPILLED (R315). (DEDUCED, log 85) -/
def gradStore (d : Nat) (j : UpdJob) (k : Nat) (data : List Word32) (p : Bool) (s : State) : State :=
  let b := j.block.toNat
  let bs := data.flatMap fun w => toLe 4 w.toNat
  let off := 65536 * k
  let inside := min bs.length (windowBytes s d - off)
  let a := uGrad b + off
  let s := match unitPieces s j.owner true a inside with
    | some ps => pinStore p ps (bs.take inside) s
    | none => s
  let out := bs.length - inside
  if out = 0 then s else addTotal 0x3A00 9 (out / 4) (jobWrite j.owner (a + inside) (bs.drop inside) p s)

/-- Read the reduced value of a chunk from GRAD_BUF: cache hits inside the window. -/
def gradLoad (d : Nat) (j : UpdJob) (k : Nat) (s : State) : List Byte × Bool × State :=
  let b := j.block.toNat
  let off := 65536 * k
  let n := 4 * chunkLen b k
  let inside := min n (windowBytes s d - off)
  let a := uGrad b + off
  let (x, p) := match unitPieces s j.owner false a inside with
    | some ps => (ps.flatMap fun q => devBytes s q.1 q.2, ps.any fun q => poisonedRange s q.1 q.2)
    | none => (List.replicate inside 0, true)
  let (y, p', s) := jobRead j.owner (a + inside) (n - inside) s
  (x ++ y, p || p', s)

/-- This module's gradient of a chunk, widened exactly to FP32 (R314). -/
def localChunk (j : UpdJob) (k : Nat) (s : State) : List Word32 × Bool × State :=
  let b := j.block.toNat
  let z := gradBytes b
  let (bs, p, s) := jobRead j.owner (uLocal b + z * 16384 * k) (z * chunkLen b k) s
  ((chunks z bs).map fun x => BitVec.ofNat 32 (if z = 4 then ofLe x else ofLe x * 65536), p, s)

/-! ## The checks of a block (R313) -/

/-- A binary32 pattern is finite. -/
def finite32 (x : Nat) : Bool := (dec32 x).isFin

/-- A finite pattern above zero. -/
def positive32 (x : Nat) : Bool := finite32 x && !bit x 31 && x % 2 ^ 31 != 0

/-- A pattern in [0.5, 1). -/
def betaOk (x : Nat) : Bool := decide (0x3F00_0000 ≤ x ∧ x < 0x3F80_0000)

/-- Fields of the block in their ranges. -/
def updRanges (s : State) (b : Nat) : Bool :=
  positive32 (bits b 831 800) && finite32 (bits b 799 768) && !(isZero32 (bits b 799 768)) && positive32 (bits b 767 736) &&
    betaOk (bits b 735 704) && betaOk (bits b 703 672) && decide (1 ≤ uN b ∧ uN b ≤ 2 ^ 30) &&
    (!(uMasked b) || uGroups b == 1) && bit b (208 + moduleOf s)

/-- The group table's entries, as step size, decay, reserved bits and first block. -/
def groupEntries (bs : List Byte) : List (Nat × Nat × Nat × Nat) :=
  (chunks 16 bs).map fun x =>
    let w := ofLe x
    (bits w 127 96, bits w 95 64, bits w 63 24, bits w 23 0)

/-- First blocks rise strictly. -/
def risingBlocks : List (Nat × Nat × Nat × Nat) → Bool
  | [] => true
  | e :: r => (match r with
    | f :: _ => decide (e.2.2.2 < f.2.2.2)
    | [] => true) && risingBlocks r

/-- The group table is well formed (R311). -/
def groupsOk (es : List (Nat × Nat × Nat × Nat)) : Bool :=
  (es.headD (0, 0, 0, 0)).2.2.2 == 0 && risingBlocks es &&
    es.all fun e => finite32 e.1 && finite32 e.2.1 && e.2.2.1 == 0

/-- Bytes of the group table or mask. -/
def auxBytes (b : Nat) : Nat := if uMasked b then cdiv (uN b) 8 else 16 * uGroups b

/-- The reason for which a range is not accessible to the owner, absent hosted pages aside. -/
def rangeReason (s : State) (ctx : Nat) (write : Bool) (a n : Nat) : Option Reason :=
  ((pagePieces (pieceFuel n) a n).map fun x => xlat s ctx write x.1).findSome? fun x =>
    match x with
    | .fault r _ => some r
    | .absent p => (s.updPages.find? fun e => e.1 == p).bind fun e => e.2.bind reasonOf
    | _ => none

/-- Every byte of GRAD_BUF lies in frames of a die: a frame whose addresses the spreading mode keeps on one die (R275). -/
def inDieFrames (s : State) (ctx d a n : Nat) : Bool :=
  (pagePieces (pieceFuel n) a n).all fun x =>
    match xlat s ctx true x.1 with
    | .dev p => isHbm p && spreadOf s p != 0 && dieOfAddr s p == d
    | _ => false

/-- What the checks of a block find. -/
inductive UpdCheck where
  | ok
  | bad (r : Reason)
  | absent (page : Nat)
  deriving DecidableEq, Repr

/-- A check of the block: its reason when it fails. -/
def firstFailed : List (Bool × Reason) → Option Reason
  | [] => none
  | (ok, r) :: l => if ok then firstFailed l else some r

/-- The group table or the mask: present, permitted, clean and, for a group table, ordered. -/
def auxCheck (ctx b : Nat) (s : State) : UpdCheck × State :=
  match unitPieces s ctx false (uAux b) (auxBytes b) with
  | none =>
    (match jobAbsent s ctx false (uAux b) (auxBytes b) with
     | some p => .absent p
     | none => .bad ((rangeReason s ctx false (uAux b) (auxBytes b)).getD .translationFault), s)
  | some ps =>
    let (bs, p, s) := unitRead .remote true ps (unitUse ctx (uAux b) (auxBytes b) s)
    (if p then .bad .poisonControl
     else if !(uMasked b) && !(groupsOk (groupEntries bs)) then .bad .invalidOperand
     else .ok, s)

/-- The addresses of a block under the owner's page tables. -/
def addrCheck (s : State) (ctx b : Nat) : Option Reason :=
  let n := uN b
  (rangeReason s ctx true (uRecords b) (896 * uBlocks b)).or
    ((rangeReason s ctx false (uRecords b) (896 * uBlocks b)).or
      ((rangeReason s ctx true (uGrad b) (4 * n)).or
        (if uSource b then none else rangeReason s ctx false (uLocal b) (gradBytes b * n))))

/-- The checks of R313 in order. (DEDUCED, log 82) -/
def updCheck (ctx b : Nat) (s : State) : UpdCheck × State :=
  let first := firstFailed [
    (checkOk 128 b, .headerCheck),
    (bits b 3 0 == 6 && bits b 7 4 == 1 && bits b 203 8 == 0, .reservedField),
    (uAux b % 128 == 0 && uGrad b % 128 == 0 && uRecords b % 128 == 0 && (uSource b || uLocal b % 128 == 0), .alignment),
    (updRanges s b, .invalidOperand)]
  match first with
  | some r => (.bad r, s)
  | none =>
    let (aux, s) := auxCheck ctx b s
    match aux with
    | .bad r => (.bad r, s)
    | .absent p => (.absent p, s)
    | .ok =>
      match (((jobMembers b).filter fun m => m != moduleOf s).filter fun m => !(reachable s m)).head? with
      | some _ => (.bad .linkDown, s)
      | none =>
        match addrCheck s ctx b with
        | some r => (.bad r, s)
        | none =>
          match jobAbsent s ctx true (uGrad b) (4 * uN b) with
          | some p => (.absent p, s)
          | none => (if inDieFrames s ctx (uDie b) (uGrad b) (4 * uN b) then .ok else .bad .addressRange, s)

/-! ## The ring (R314) -/

/-- Rank of a module among the members. -/
def rankOf (b m : Nat) : Nat := ((jobMembers b).filter fun x => decide (x < m)).length

/-- The rank after another on the ring of a chunk: ascending for even chunks, descending for odd ones. -/
def ringNext (n k r : Nat) : Nat := if k % 2 = 0 then (r + 1) % n else (r + n - 1) % n

/-- The module of a rank. -/
def memberAt (b r : Nat) : Nat := (jobMembers b).getD r 0

/-- Send a chunk to the next member of its ring. -/
def sendChunk (d : Nat) (j : UpdJob) (k : Nat) (gather : Bool) (data : List Word32) (p : Bool) (s : State) : State :=
  let b := j.block.toNat
  emit (.chunk d (memberAt b (ringNext (jobMembers b).length k (rankOf b (moduleOf s)))) k gather data p) s

/-- The reduced value of a chunk stands here: it is written to GRAD_BUF and sent on unless the ring is closed. -/
def gatherHere (d k : Nat) (data : List Word32) (p : Bool) (s : State) : State :=
  match jobOf s d with
  | none => s
  | some j =>
    let b := j.block.toNat
    let n := (jobMembers b).length
    let s := gradStore d j k data p s
    let s := setJob d (fun j => { j with gathered := nins j.gathered k }) s
    if ringNext n k (rankOf b (moduleOf s)) = k % n then s else sendChunk d j k true data p s

/-- A partial sum reaches this member: its own element is added, one binary32 addition each; the home gathers. -/
def reduceHere (d k : Nat) (came : Option (List Word32 × Bool)) (s : State) : State :=
  match jobOf s d with
  | none => s
  | some j =>
    let b := j.block.toNat
    match jobAbsent s j.owner false (uLocal b + gradBytes b * 16384 * k) (gradBytes b * chunkLen b k) with
    | some p => updMiss j.owner p s
    | none =>
      let (own, p, s) := localChunk j k s
      let data := match came with
        | none => own
        | some c => (c.1.zip own).map fun x => BitVec.ofNat 32 (fadd x.1.toNat x.2.toNat)
      let p := p || came.any fun c => c.2
      let s := setJob d (fun j => { j with reduced := nins j.reduced k }) s
      if rankOf b (moduleOf s) = k % (jobMembers b).length then gatherHere d k data p s
      else sendChunk d j k false data p s

/-! ## The rule (R316) -/

/-- A binary64 sum, rounded. -/
def add64 (a b : Nat) : Nat := enc64 (flAdd (dec64 a) (dec64 b))

/-- The power of a value, exactly. (DESIGN CHOICE, log 84) -/
def flPow (t : Nat) : Fl → Fl
  | .fin n m e => .fin (n && t % 2 == 1) (m ^ t) (e * t)
  | x => x

/-- fp32(1 / (1 - beta^t)): power, difference and quotient each rounded to binary64, then once to binary32. (DESIGN CHOICE, log 84) -/
def biasFix (beta t : Nat) : Nat :=
  let p := enc64 (flPow t (dec32 beta))
  let d := enc64 (flAdd (.fin false 1 0) (flNeg (dec64 p)))
  enc32 (dec64 (enc64 (flDiv (.fin false 1 0) (dec64 d))))

/-- The constants of a job: β1, β2, c1, c2, 1 − β1, 1 − β2, ε, GSCALE. -/
structure UpdConst where
  b1  : Nat
  b2  : Nat
  c1  : Nat
  c2  : Nat
  ob1 : Nat
  ob2 : Nat
  eps : Nat
  gs  : Nat
  deriving DecidableEq, Repr

/-- The constants of a block. -/
def updConst (b : Nat) : UpdConst :=
  let b1 := bits b 703 672
  let b2 := bits b 735 704
  let t := uStep b + 1
  { b1 := b1, b2 := b2, c1 := biasFix b1 t, c2 := biasFix b2 t, ob1 := fsub 0x3F80_0000 b1, ob2 := fsub 0x3F80_0000 b2,
    eps := bits b 767 736, gs := bits b 799 768 }

/-- moments(e): g, mn, vn, u from the reduced gradient, m, v, w and λ of the element's group. -/
def moments (k : UpdConst) (grad m v w lam : Nat) : Nat × Nat × Nat × Nat :=
  let g := fmul grad k.gs
  let mn := fadd (fmul k.b1 m) (fmul k.ob1 g)
  let vn := fadd (fmul k.b2 v) (fmul k.ob2 (fmul g g))
  let u := fadd (fdiv (fmul mn k.c1) (fadd (fsqrt (fmul vn k.c2)) k.eps)) (fmul lam w)
  (g, mn, vn, u)

/-- Word i of a part of a record block (Table 14.3). -/
def recField (bs : List Byte) (off i : Nat) : Nat := ofLe ((bs.drop (off + 4 * i)).take 4)

/-- The step size and decay of a record block: of its group, or of the block in masked mode (R311). -/
def rateOf (b : Nat) (groups : List (Nat × Nat × Nat × Nat)) (blk : Nat) : Nat × Nat :=
  if uMasked b then (bits b 671 640, bits b 639 608)
  else
    let e := ((groups.filter fun e => decide (e.2.2.2 ≤ blk)).getLast?).getD (0, 0, 0, 0)
    (e.1, e.2.1)

/-- The auxiliary data of a job: the group table, or the eight mask bytes of a record block; and whether it is poisoned. -/
def auxOf (j : UpdJob) (blk : Nat) (s : State) : List (Nat × Nat × Nat × Nat) × List Byte × Bool × State :=
  let b := j.block.toNat
  if uMasked b then
    let (bs, p, s) := jobRead j.owner (uAux b + 8 * blk) (min 8 (auxBytes b - 8 * blk)) s
    ([], bs, p, s)
  else
    let (bs, p, s) := jobRead j.owner (uAux b) (auxBytes b) s
    (groupEntries bs, [], p, s)

/-- Trainable positions of a record block, ascending. -/
def trainable (b blk : Nat) (mask : List Byte) : List Nat :=
  (List.range (min 64 (uN b - 64 * blk))).filter fun i => !(uMasked b && frozenBit mask i)

/-- A record block whose 64 mask bits are all 1 is neither read nor written. -/
def wholeFrozen (b : Nat) (mask : List Byte) : Bool :=
  uMasked b && mask.length == 8 && mask.all fun x => x == 0xFF

/-- What pass A finds in a chunk: the norms, a value that is not finite, the first poisoned block. -/
structure PassSum where
  sw  : Nat := 0
  su  : Nat := 0
  bad : Bool := false
  poi : Option Nat := none
  deriving DecidableEq, Repr

/-- Pass A over one record block. -/
def passBlock (j : UpdJob) (k : UpdConst) (grads : List Byte) (gp : Bool) (blk0 blk : Nat) (acc : PassSum × State) :
    PassSum × State :=
  let b := j.block.toNat
  let (groups, mask, ap, s) := auxOf j blk acc.2
  let gb := (grads.drop (256 * (blk - blk0))).take 256
  let acc1 := if (gp || ap) && acc.1.poi.isNone then { acc.1 with poi := some blk } else acc.1
  if wholeFrozen b mask then (acc1, s)
  else
    let (rec, p, s) := jobRead j.owner (uRecords b + 896 * blk) 896 s
    let lam := (rateOf b groups blk).2
    let acc1 := if p && acc1.poi.isNone then { acc1 with poi := some blk } else acc1
    ((trainable b blk mask).foldl (fun (a : PassSum) i =>
      let w := recField rec 128 i
      let x := moments k (recField gb 0 i) (recField rec 384 i) (recField rec 640 i) w lam
      { a with
        sw := add64 a.sw (enc64 (flMul (dec32 w) (dec32 w)))
        su := add64 a.su (enc64 (flMul (dec32 x.2.2.2) (dec32 x.2.2.2)))
        bad := a.bad || !(finite32 x.1 && finite32 x.2.1 && finite32 x.2.2.1 && finite32 x.2.2.2) }) acc1, s)

/-- Pages of a chunk's records, and of its spilled gradient, that are absent. -/
def chunkAbsent (s : State) (j : UpdJob) (k : Nat) : Option Nat :=
  let b := j.block.toNat
  (jobAbsent s j.owner true (uRecords b + 896 * 256 * k) (896 * cdiv (chunkLen b k) 64)).or
    ((jobAbsent s j.owner false (uGrad b + 65536 * k) (4 * chunkLen b k)).or
      (jobAbsent s j.owner false (uAux b) (auxBytes b)))

/-- Pass A of a chunk whose reduced value stands in GRAD_BUF. -/
def passChunk (d k : Nat) (s : State) : State :=
  match jobOf s d with
  | none => s
  | some j =>
    match chunkAbsent s j k with
    | some p => updMiss j.owner p s
    | none =>
      let b := j.block.toNat
      let (grads, gp, s) := gradLoad d j k s
      let blks := (List.range (cdiv (chunkLen b k) 64)).map fun i => 256 * k + i
      let (a, s) := blks.foldl (fun acc blk => passBlock j (updConst b) grads gp (256 * k) blk acc) (({} : PassSum), s)
      setJob d (fun j => { j with
        sums := tset j.sums k (a.sw, a.su)
        nonfinite := j.nonfinite || a.bad
        poisonBlock := match j.poisonBlock, a.poi with
          | some x, some y => some (min x y)
          | some x, none => some x
          | none, y => y }) s

/-! ## The verdict (R317) -/

/-- Every chunk has passed through pass A: the norms are summed, the verdict found and sent. -/
def verdictHere (d : Nat) (s : State) : State :=
  match jobOf s d with
  | none => s
  | some j =>
    if j.verdict.isNone && j.sums.length == uChunks j.block.toNat then
      let sw := j.sums.foldl (fun a e => add64 a e.2.1) 0
      let su := j.sums.foldl (fun a e => add64 a e.2.2) 0
      let v : Verdict :=
        if j.poisonBlock.isSome then .poisoned
        else if j.nonfinite || !((dec64 sw).isFin) || !((dec64 su).isFin) then .nonfinite
        else .ok
      let s := setJob d (fun j => { j with
        verdict := some v, sw := BitVec.ofNat 64 sw, su := BitVec.ofNat 64 su }) s
      (jobPeers s j).foldl (fun s m => emit (.verdict d m v (BitVec.ofNat 64 sw) (BitVec.ofNat 64 su)) s) s
    else s

/-- The trust ratio r. -/
def trustRatio (sw su tmax : Nat) : Nat :=
  if (dec64 sw == .fin false 0 (-1074)) || (dec64 su == .fin false 0 (-1074)) then 0x3F80_0000
  else
    let q := enc64 (flDiv (dec64 (enc64 (flSqrt (dec64 sw)))) (dec64 (enc64 (flSqrt (dec64 su)))))
    let t := dec32 tmax
    enc32 (if flCmp (dec64 q) t ≤ 0 then dec64 q else t)

/-- All verdicts of the members, by module. -/
def allVerdicts (s : State) (j : UpdJob) : List (Nat × Verdict × Word64 × Word64) :=
  (jobMembers j.block.toNat).filterMap fun m =>
    if m = moduleOf s then j.verdict.map fun v => (m, v, j.sw, j.su)
    else j.verdicts.find? fun x => x.1 == m

/-- How many members hold a pair of norms. -/
def holders (l : List (Nat × Verdict × Word64 × Word64)) (n : Word64 × Word64) : Nat :=
  (l.filter fun x => x.2.2 == n).length

/-- The norms that most members hold, the lowest module's among equals. -/
def commonNorms (l : List (Nat × Verdict × Word64 × Word64)) : Word64 × Word64 :=
  l.foldl (fun b x => if holders l b < holders l x.2.2 then x.2.2 else b) ((l.headD (0, .ok, 0, 0)).2.2)

/-- The diverging module: the lowest whose norms are not those that most members hold. (DEDUCED, log 83) -/
def diverging (l : List (Nat × Verdict × Word64 × Word64)) : Option Nat :=
  (l.find? fun x => x.2.2 != commonNorms l).map fun x => x.1

/-- Every verdict is in: pass B, or a failing status. (DEDUCED, log 83) -/
def decideJob (d : Nat) (s : State) : State :=
  match jobOf s d with
  | none => s
  | some j =>
    let l := allVerdicts s j
    if j.status = 2 ∧ l.length = (jobMembers j.block.toNat).length then
      match diverging l with
      | some m => setJob d (fun j => { j with status := 0x12, diverger := some m }) s
      | none =>
        if l.any (fun x => x.2.1 == .poisoned) then setJob d (fun j => { j with status := 0x11 }) s
        else if l.any (fun x => x.2.1 == .nonfinite) then setJob d (fun j => { j with status := 0x10 }) s
        else setJob d (fun j => { j with
          status := 3
          ratio := BitVec.ofNat 32 (trustRatio j.sw.toNat j.su.toNat (bits j.block.toNat 831 800)) }) s
    else s

/-! ## Pass B (R316, R318) -/

/-- The bytes of a record block after the update of its trainable elements, and whether a weight overflowed. -/
def updRecord (k : UpdConst) (eta lam r : Nat) (gb rec : List Byte) (ps : List Nat) : List Byte × Bool :=
  let new := (List.range 64).map fun i =>
    let w := recField rec 128 i
    let m := recField rec 384 i
    let v := recField rec 640 i
    if ps.contains i then
      let x := moments k (recField gb 0 i) m v w lam
      let wn := fsub w (fmul (fmul eta r) x.2.2.2)
      (toBf16 wn, wn, x.2.1, x.2.2.1)
    else (ofLe ((rec.drop (2 * i)).take 2), w, m, v)
  ((new.flatMap fun x => toLe 2 x.1) ++ (new.flatMap fun x => toLe 4 x.2.1) ++ (new.flatMap fun x => toLe 4 x.2.2.1) ++
    (new.flatMap fun x => toLe 4 x.2.2.2), ps.any fun i => !(finite32 (new.getD i (0, 0, 0, 0)).2.1))

/-- An absent page that pass B meets at its next record block. -/
def blockAbsent (s : State) (j : UpdJob) : Option Nat :=
  (jobAbsent s j.owner true (uRecords j.block.toNat + 896 * j.progress) 896).or (chunkAbsent s j (j.progress / 256))

/-- Pass B over one record block; what it forms from poisoned words is poisoned (R423). -/
def updBlock (d : Nat) (j : UpdJob) (s : State) : State :=
    let b := j.block.toNat
    let blk := j.progress
    let a := uRecords b + 896 * blk
    let (groups, mask, ap, s) := auxOf j blk s
    let s := setJob d (fun j => { j with progress := blk + 1 }) s
    if wholeFrozen b mask then s
    else
      let (rec, rp, s) := jobRead j.owner a 896 s
      let ga := uGrad b + 256 * blk
      let (gb, gp, s) :=
        if 256 * (blk + 1) ≤ windowBytes s d then
          (match unitPieces s j.owner false ga (min 256 (4 * uN b - 256 * blk)) with
           | some ps => (ps.flatMap fun q => devBytes s q.1 q.2, ps.any fun q => poisonedRange s q.1 q.2, s)
           | none => ([], true, s))
        else jobRead j.owner ga (min 256 (4 * uN b - 256 * blk)) s
      let ps := trainable b blk mask
      let rate := rateOf b groups blk
      let (out, ovf) := updRecord (updConst b) rate.1 rate.2 j.ratio.toNat gb rec ps
      let s := addTotal 0x3A00 7 ps.length (jobWrite j.owner a out (ap || rp || gp) s)
      setJob d (fun j => { j with overflow := j.overflow || ovf }) s

/-- An express command of a context with a code waits to take effect. -/
def expressPending (s : State) (ctx code : Nat) : Bool :=
  match (context s ctx).express with
  | some e => e.code.toNat == code
  | none => false

/-- Pass B from the block under PROGRESS on; the fuel counts blocks. Where a KILL of the owner waits to take effect, it stops after each
block (R319). -/
def passB (d : Nat) : Nat → State → State
  | 0, s => s
  | f + 1, s =>
    match jobOf s d with
    | none => s
    | some j =>
      if j.status = 3 then
        if j.progress < uBlocks j.block.toNat then
          match blockAbsent s j with
          | some p => updMiss j.owner p s
          | none => if expressPending s j.owner 0x12 then updBlock d j s else passB d f (updBlock d j s)
        else setJob d (fun j => { j with status := if j.overflow then 5 else 4 }) s
      else s

/-! ## What a job can do by itself -/

/-- Every peer's header has come and equals this module's. -/
def headersIn (s : State) (j : UpdJob) : Bool :=
  uSource j.block.toNat || (jobPeers s j).all fun m => nmem j.headers m

/-- The chunks that start at this module: those whose home comes before it on their ring. -/
def startsHere (s : State) (j : UpdJob) (k : Nat) : Bool :=
  let b := j.block.toNat
  let n := (jobMembers b).length
  ringNext n k (k % n) == rankOf b (moduleOf s)

/-- The chunks of a job. -/
def chunkList (j : UpdJob) : List Nat := List.range (uChunks j.block.toNat)

/-- A chunk that has arrived is taken up: a partial sum is reduced here, a reduced value is gathered; one that does not belong where it
stands is dropped, one whose local gradient waits for a page stays. -/
def takeArrived (d : Nat) (x : Nat × List Word32 × Bool) (s : State) : State :=
  match jobOf s d with
  | none => s
  | some j =>
    let b := j.block.toNat
    let out := fun (s : State) => setJob d (fun j => { j with arrived := j.arrived.filter fun y => y != x }) s
    if nmem j.gathered x.1 then out s
    else if nmem j.reduced x.1 then gatherHere d x.1 x.2.1 x.2.2 (out s)
    else if startsHere s j x.1 then out s
    else match jobAbsent s j.owner false (uLocal b + gradBytes b * 16384 * x.1) (gradBytes b * chunkLen b x.1) with
      | some q => updMiss j.owner q s
      | none => reduceHere d x.1 (some x.2) (out s)

/-- A job advances: once the headers are in it starts its own chunks, takes those that have arrived, passes what is gathered through pass
A and finds its verdict; it runs pass B once every verdict is OK. -/
def advanceJob (d : Nat) (s : State) : State :=
  match jobOf s d with
  | none => s
  | some j =>
    let s :=
      if j.status = 2 && headersIn s j then
        let s := if uSource j.block.toNat then
            setJob d (fun j => { j with gathered := chunkList j }) s
          else ((chunkList j).filter fun k => startsHere s j k && !(nmem j.reduced k)).foldl (fun s k => reduceHere d k none s) s
        let s := j.arrived.foldl (fun s x => takeArrived d x s) s
        let todo := match jobOf s d with
          | some j => (chunkList j).filter fun k => nmem j.gathered k && (tfind j.sums k).isNone
          | none => []
        verdictHere d (todo.foldl (fun s k => passChunk d k s) s)
      else s
    passB d (uBlocks j.block.toNat + 1) (decideJob d s)

/-! ## Messages of peers (R313, R317, R319)

A message names a die and comes from a member; it is for the job that is active there, or for one that has not started yet, and then it is
kept until that one starts. (DEDUCED, log 82) -/

/-- The active job of a die has had a member's message of a kind, or can have none: a header comes before what else its member sends. -/
def hadMessage (s : State) (j : UpdJob) (m : Nat) (x : PeerMsg) : Bool :=
  !((jobPeers s j).contains m) ||
    match x with
    | .header _ => uSource j.block.toNat || nmem j.headers m
    | _ => j.verdicts.any (fun y => y.1 == m) || (!(uSource j.block.toNat) && !(nmem j.headers m))

/-- A message for the active job: a refusal or a header that differs ends it MISMATCH, an abort notice before the verdict ABORTED; a job
that has ended takes no notice. -/
def applyMessage (d m : Nat) (j : UpdJob) (x : PeerMsg) (s : State) : State :=
  match x with
  | .header h =>
    let s := setJob d (fun j => { j with headers := nins j.headers m }) s
    if j.status = 2 ∧ h ≠ some (headerOf j.block.toNat) then setJob d (fun j => { j with status := 0x13 }) s else s
  | .verdict v sw su => setJob d (fun j => { j with verdicts := j.verdicts ++ [(m, v, sw, su)] }) s
  | .abort => if j.status = 2 then setJob d (fun j => { j with status := 0x15 }) s else s

/-- A message of a peer. -/
def peerMessage (d m : Nat) (x : PeerMsg) (s : State) : State :=
  match jobOf s d with
  | some j => if hadMessage s j m x then { s with updEarly := s.updEarly ++ [(d, m, x)] } else applyMessage d m j x s
  | none => { s with updEarly := s.updEarly ++ [(d, m, x)] }

/-- Messages kept for a die are looked at again, in order. -/
def earlyMessages (d : Nat) (s : State) : State :=
  s.updEarly.foldl (fun s e => if e.1 = d then peerMessage d e.2.1 e.2.2 s else { s with updEarly := s.updEarly ++ [e] }) { s with updEarly := [] }

/-! ## The rows -/

/-- A job takes its die: the window is held, headers or a refusal go to the other members, and what they have sent is taken up.
(DEDUCED, log 82) -/
def beginJob (a b : Nat) (bad : Option Reason) (s : State) : State :=
  let j : UpdJob := { owner := updOwner s, addr := a, block := BitVec.ofNat 1024 b, status := if bad.isSome then 0x16 else 2,
                      reason := bad.map fun r => r.code }
  let s := { s with updRing := s.updRing.set (uDie b) (some j), updNext := s.updNext + 1, updPages := [] }
  let s := setDie (uDie b) (fun x => { x with pinnedJob := true }) s
  let s := if uSource b then s
    else (jobPeers s j).foldl (fun s m =>
      emit (.jobHeader (uDie b) m (if bad.isSome then none else some (headerOf b))) s) s
  earlyMessages (uDie b) s

/-- The start wait of a block is met. (DEDUCED, log 82) -/
def startMet (s : State) (b : Nat) : Bool :=
  match sealOf s (updOwner s) (bits b 383 368) with
  | some p => waitMet s (p, BitVec.ofNat 32 (bits b 415 384))
  | none => false

/-- UPD_JOB_START (R309, R313). -/
def updJobStart (s : State) : State :=
  let s := readEntry (updOwner s) s
  let a := updSlot s s.updNext.toNat
  if updEnabled s && decide (s.updNext.toNat ≠ reg s 0x3A00 3) then
    match unitPieces s (updOwner s) false a 128 with
    | none =>
      (match jobAbsent s (updOwner s) false a 128 with
       | some p => updMiss (updOwner s) p s
       | none =>
         if (jobOf s 0).isNone then
           beginJob a 0 (some ((rangeReason s (updOwner s) false a 128).getD .translationFault)) s
         else s)
    | some ps =>
      let (bs, p, s1) := unitRead .remote true ps (unitUse (updOwner s) a 128 s)
      let b := ofLe bs
      if (jobOf s (uDie b)).isSome || !(startMet s b || p) then s
      else if p then beginJob a b (some .poisonControl) s1
      else
        match updCheck (updOwner s) b s1 with
        | (.absent q, s2) => updMiss (updOwner s) q s2
        | (.bad r, s2) => beginJob a b (some r) s2
        | (.ok, s2) => advanceJob (uDie b) (beginJob a b none s2)
  else s

/-- JOB_HEADER_RECEIVE (R313). -/
def jobHeaderReceive (d m : Nat) (h : Option JobHeader) (s : State) : State := advanceJob d (peerMessage d m (.header h) s)

/-- UPD_PEER_TIMEOUT (R313). (DESIGN CHOICE, log 4) -/
def updPeerTimeout (d : Nat) (s : State) : State :=
  match jobOf s d with
  | none => s
  | some j => if j.status = 2 ∧ headersIn s j = false then setJob d (fun j => { j with status := 0x14 }) s else s

/-- CHUNK_RECEIVE (R314, R422): a chunk of the active job arrives; one whose CRC fails is used with every element poisoned. It waits
until the headers are in. -/
def chunkReceive (d k : Nat) (data : List Word32) (poisoned crcOk : Bool) (s : State) : State :=
  match jobOf s d with
  | none => s
  | some j =>
    let b := j.block.toNat
    if j.status = 2 && !(uSource b) && decide (1 < (jobMembers b).length) && decide (k < uChunks b) &&
        data.length == chunkLen b k && !(nmem j.gathered k) then
      let s := if crcOk then s else bumpE 0x6000 9 s
      advanceJob d (setJob d (fun j => { j with arrived := j.arrived ++ [(k, data, poisoned || !crcOk)] }) s)
    else s

/-- VERDICT_RECEIVE (R317). -/
def verdictReceive (d m : Nat) (v : Verdict) (sw su : Word64) (s : State) : State := advanceJob d (peerMessage d m (.verdict v sw su) s)

/-- The block as it is written back: HW fields and STEP, UPD_CHECK recomputed (R310, R318). -/
def blockBack (j : UpdJob) : Nat :=
  let b := j.block.toNat
  let done := j.status = 4 ∨ j.status = 5
  let b := setBits b 231 224 j.status.toNat
  let b := setBits b 287 263 j.progress
  let b := setBits b 991 960 j.ratio.toNat
  let b := setBits b 959 896 j.su.toNat
  let b := setBits b 895 832 j.sw.toNat
  withCheck 128 (if done then setBits b 319 288 (bits b 319 288 + 1) else b)

/-- The fault record of a job that failed: none for a kill (R317, R436). (DEDUCED, log 85) -/
def jobRecord (d : Nat) (j : UpdJob) (s : State) : State :=
  if j.status = 4 ∨ j.status = 5 ∨ j.killed = true then s
  else
    let r : Rec := { unit := .port, reason := .updateJob, cause := j.status.toNat, ctx := j.owner, addr := some (j.addr, false),
                     detail := j.poisonBlock.getD 0 + j.diverger.getD 0 * 2 ^ 32 + b2n j.diverger.isSome * 2 ^ 35 }
    match j.reason with
    | some c => stageRec d { r with reason := (reasonOf c).getD .updateJob, cause := 0, detail := 0 } s
    | none => stageRec d r s

/-- UPD_JOB_END (R318): write-back, counters, record, DONE_SEAL, window. A job in pass B that met an absent page goes on. (DEDUCED, log 82) -/
def updJobEnd (d : Nat) (s : State) : State :=
  let s := advanceJob d s
  match jobOf s d with
  | none => s
  | some j =>
    if j.status = 2 ∨ j.status = 3 then s
    else
      let s := jobWrite j.owner j.addr (toLe 128 (blockBack j)) (j.reason == some (Reason.code .poisonControl)) s
      let s := bumpE 0x3A00 5 s
      let s := if j.status = 4 ∨ j.status = 5 then s else bumpE 0x3A00 6 s
      let s := jobRecord d j s
      let s := match sealOf s j.owner (bits j.block.toNat 367 352) with
        | some p => sendSeals [{ phys := p, gen := (sealAt s p).gen, amount := 1, ctx := j.owner,
                                 sealId := BitVec.ofNat 16 (bits j.block.toNat 367 352) }] s
        | none => s
      setDie d (fun x => { x with pinnedJob := false }) { s with updRing := s.updRing.set d none, updPages := [] }

/-- ABORT_NOTICE_RECEIVE (R319): before pass B the job ends ABORTED. -/
def abortNotice (d m : Nat) (s : State) : State := peerMessage d m .abort s

/-- A link loss that its links cannot replay: a job before pass B that now lacks a way to a member ends ABORTED, and the
members that can be reached are told (R319). -/
def updLinkLoss (s : State) : State :=
  (List.range 2).foldl (fun s d =>
    match jobOf s d with
    | some j => if j.status = 2 ∧ ((jobPeers s j).all fun m => reachable s m) = false then abortJob d false s else s
    | none => s) s

end Sys2Proof.Machine
end

