-- ==== Sys2Proof/Machine/Pager.lean ====
section
/-! DEFINITION. The pager (R299-R302): fetches of absent hosted pages, eviction, retries, ages. -/

namespace Sys2Proof.Machine

/-- The mapping of a hosted page that is not present. -/
def absentPage (s : State) (ctx page : Nat) : Option Mapping :=
  match (context s ctx).pages.find? fun e => e.1 == page with
  | some (_, m) => if m.hosted && !m.present then some m else none
  | none => none

/-- Fetches in flight of a context. -/
def fetchesOf (s : State) (ctx : Nat) : Nat := (s.fetches.filterMap id).filter (fun f => f.ctx == ctx) |>.length

/-- A fetch of a page is in flight. -/
def fetching (s : State) (ctx page : Nat) : Bool :=
  (s.fetches.filterMap id).any fun f => f.ctx == ctx && f.page == page && !f.stale

/-- Frames that fetches in flight would add to a context's charge (R299, R301). -/
def fetchCharge (s : State) (ctx : Nat) : Nat := ((s.fetches.filterMap id).filter fun f => f.ctx == ctx && !f.stale).length

/-- A miss can be taken up now: its page is still absent, and its context has fewer than 4 fetches in flight (R300). -/
def missReady (s : State) (m : Miss) : Bool := decide (fetchesOf s m.ctx < 4)

/-- The page that gives way to a fetch over the quota: hosted, not PINNED, the highest AGE (R301). No access is in flight
between two steps. -/
def evictee (s : State) (ctx : Nat) : Option (Nat × Mapping) :=
  let l := (context s ctx).pages.filter fun e => e.2.hosted && e.2.present && !e.2.pinned
  l.find? fun e => l.all fun f => decide (f.2.age ≤ e.2.age)

/-- Evict a page: not present, its frame free; nothing is written back. -/
def evictPage (ctx : Nat) (e : Nat × Mapping) (s : State) : State :=
  let s := setMapping ctx e.1 (fun m => { m with present := false, frame := 0 }) s
  chargeFrames ctx (ctxUsed s ctx - 1) (freeFrames e.2.frame 1 s)

/-- Give a page up for every access that waits on it: the waiters fault with a code when they run again (R301, R302). -/
def failWaiters (ctx page : Nat) (r : Reason) (s : State) : State :=
  let hit := fun (i : Issued) => i.ctx == ctx && i.waitPage == some page
  let f := fun (i : Issued) => if hit i then { i with waitPage := none, pageFault := some (page, r.code) } else i
  let onCore := fun (x : Core) =>
    let x := allQueues.foldl (fun x q => setQueue x q ((queue x q).map f)) x
    { x with offices := x.offices.map fun o =>
        if o.owner == some ctx && o.waitPage == some page then { o with waitPage := none, pageFault := some (page, r.code) } else o }
  { s with
    cores := s.cores.map fun e => (e.1, onCore e.2),
    streams := s.streams.map fun e =>
      if e.1 / 128 = ctx then (e.1, { e.2 with held := e.2.held.map f, saved := e.2.saved.map fun x => (x.1, f x.2) }) else e,
    engines := s.engines.map fun g =>
      if engCtx g == some ctx && g.waitPage == some page then { g with waitPage := none, pageFault := some (page, r.code) } else g,
    tableJob := s.tableJob.map fun j => if bits j.image.toNat 59 48 = ctx then { j with failed := some (page, r.code) } else j }

/-- Watches of a context whose copy waits on a page end with BAD_VALUE (R339). (DEDUCED, log 41) -/
def failWatches (ctx page : Nat) (s : State) : State :=
  (s.results.filter fun e => match e.2.watch with
    | some w => e.2.ctx == ctx && decide (0 ≤ sdiff32 (sealAt s w.phys).count.toNat w.target.toNat) &&
        decide (w.addr / 2 ^ 21 ≤ page ∧ page ≤ (w.addr + w.len) / 2 ^ 21)
    | none => false).foldl (fun s e => endResult e.1 0x1A s) s

/-! ## Reads of other modules (R343, R351, R356) -/

/-- Bytes with their poison, cut where packets end: before and after every poisoned 32-byte unit, and at 4,096 bytes. -/
def packetRuns : List (Nat × List Byte × Bool) → List (Nat × List Byte × Bool)
  | [] => []
  | u :: r =>
    match packetRuns r with
    | [] => [u]
    | v :: t => if !u.2.2 && !v.2.2 && decide (u.2.1.length + v.2.1.length ≤ 4096) then (u.1, u.2.1 ++ v.2.1, false) :: t
                else u :: v :: t

/-- The 32-byte units of a context range on its device pieces. -/
def rangeUnits (s : State) (a : Nat) (ps : List (Nat × Nat)) : List (Nat × List Byte × Bool) :=
  (ps.foldl (fun (acc : Nat × List (Nat × List Byte × Bool)) x =>
    (acc.1 + x.2, acc.2 ++ (unitsOf 32 x.1 x.2).map fun u =>
      let lo := max u x.1
      let hi := min (u + 32) (x.1 + x.2)
      (acc.1 + (lo - x.1), devBytes s lo (hi - lo), poisonedRange s lo (hi - lo)))) (a, [])).2

/-- A READ_REQ asks for a page of a context (R356). -/
def asksPage (k : Packet) : Bool := bit k.label 63

/-- Relay a page along the modules that ask for it, in ascending order: the first gets it with the list of the others. -/
def relayPage (ctx page : Nat) (mods : List Nat) (bs : List Byte) (s : State) : State :=
  match mods with
  | [] => s
  | m :: r =>
    let parts := chunks 4096 bs
    let mask := (r.map fun x => 2 ^ x).sum
    (List.range parts.length).foldl (fun s i => sendPacket {
      type := 6, dst := m, ctx := ctx, label := page + i * 2 ^ 20 + mask * 2 ^ 32, data := parts.getD i [] } s) s

/-- Answer a READ_REQ of another module under the page tables of the same context ID; none while a page is absent. -/
def answerReq (src : Nat) (k : Packet) (s : State) : Option State :=
  let n := k.label % 2 ^ 40
  let resp := fun (a : Nat) (bs : List Byte) (p : Bool) (f : Nat) =>
    ({ type := 3, poison := p, dst := src, dstCore := k.srcCore, ctx := k.ctx, addr := a, tag := k.tag, label := f, data := bs } : Packet)
  match unitPieces s k.ctx false k.addr n with
  | some ps =>
    let (_, _, s) := unitRead .remote true ps (unitUse k.ctx k.addr n s)
    some ((packetRuns (rangeUnits s k.addr ps)).foldl (fun s u => sendPacket (resp u.1 u.2.1 u.2.2 0) s) s)
  | none =>
    match unitFault s k.ctx false k.addr n with
    | some (.absent _) => none
    | some (.fault r _) => some (sendPacket (resp k.addr [] false r.code) s)
    | _ => some (sendPacket (resp k.addr [] false (Reason.code .translationFault)) s)

/-- Every request for a page that is present now is served by one relay of it. -/
def servePage (ctx page : Nat) (s : State) : State :=
  let mine := fun (e : Nat × Packet) => asksPage e.2 && e.2.ctx == ctx && e.2.addr / 2 ^ 21 == page
  match unitPieces s ctx false (page * 2 ^ 21) (2 ^ 21) with
  | some ps =>
    let mods := (List.range 8).filter fun m => s.asks.any fun e => mine e && e.1 == m
    if mods.isEmpty then s
    else
      let (bs, _, s) := unitRead .remote true ps (unitUse ctx (page * 2 ^ 21) (2 ^ 21) s)
      relayPage ctx page mods bs { s with asks := s.asks.filter fun e => !(mine e) }
  | none => s

/-- Requests of other modules for a context are tried again. -/
def serveAsks (ctx : Nat) (s : State) : State :=
  let s := ((s.asks.filter fun e => asksPage e.2 && e.2.ctx == ctx).map fun e => e.2.addr / 2 ^ 21).foldl (fun s p => servePage ctx p s) s
  let l := s.asks
  l.foldl (fun s e =>
    if e.2.ctx = ctx ∧ asksPage e.2 = false then (answerReq e.1 e.2 s).getD { s with asks := s.asks ++ [e] }
    else { s with asks := s.asks ++ [e] }) { s with asks := [] }

/-- Requests of other modules that wait for a page that is given up: a read is refused, a request for the page is not served. -/
def failAsks (ctx page : Nat) (r : Reason) (s : State) : State :=
  let hit := fun (e : Nat × Packet) => e.2.ctx == ctx && decide (e.2.addr / 2 ^ 21 ≤ page ∧ page ≤ (e.2.addr + e.2.label % 2 ^ 40) / 2 ^ 21)
  ((s.asks.filter fun e => hit e && !(asksPage e.2)).foldl (fun s e => sendPacket {
      type := 3, dst := e.1, dstCore := e.2.srcCore, ctx := ctx, addr := e.2.addr, tag := e.2.tag, label := r.code } s)
    { s with asks := s.asks.filter fun e => !(hit e) })

/-- A READ_REQ of another module: answered, or kept while an absent page is fetched. -/
def takeAsk (src : Nat) (k : Packet) (s : State) : State :=
  if asksPage k then
    match unitFault s k.ctx false k.addr (2 ^ 21) with
    | some (.absent p) => noteMiss k.ctx p false { s with asks := s.asks ++ [(src, k)] }
    | some _ => s
    | none => servePage k.ctx (k.addr / 2 ^ 21) { s with asks := s.asks ++ [(src, k)] }
  else
    match answerReq src k s with
    | some s => s
    | none =>
      match unitFault s k.ctx false k.addr (k.label % 2 ^ 40) with
      | some (.absent p) => noteMiss k.ctx p false { s with asks := s.asks ++ [(src, k)] }
      | _ => s

/-- A page that the security island waits for is given up: the staging under way, or the job, has a fault (R386, R395). -/
def failIsland (ctx page : Nat) (s : State) : State :=
  let fail := fun (j : BnJob) => if j.ctx = ctx ∧ j.wait = some page then { j with failed := true } else j
  setIsland (fun i => { i with
    fwFailed := i.fwFailed || (i.fwState == 1 && i.fwCtx == ctx && i.fwWait == some page),
    bnQueue := i.bnQueue.map fail, bnRunning := i.bnRunning.map fail }) s

/-- A fetch whose wait is over without a page. -/
def giveUp (ctx page : Nat) (r : Reason) (s : State) : State :=
  failIsland ctx page (failJobs ctx page r (failStreams ctx page r (failAsks ctx page r (failReads ctx page (failWatches ctx page (failWaiters ctx page r s))))))

/-- The RDMA READ of a fetch goes out on the context's pager queue pair (R300), under the queue pair's next PSN. Without a
usable queue pair of the context nothing is sent, and the fetch times out. -/
def sendFetch (n : Nat) (f : Fetch) (s : State) : State :=
  let m := (mappingOf s f.ctx f.page).map fun e => e.2.backing
  let host := ctxF s f.ctx 511 448 + m.getD 0 * 2 ^ 21
  let port := ctxPagerPort s f.ctx
  let qpn := ctxPagerQpn s f.ctx
  match qpOf s port qpn with
  | none => s
  | some x =>
    if x.ctx ≠ f.ctx ∨ x.error = true then s
    else
      let s := { s with fetches := s.fetches.set n (some { f with psn := x.spsn }) }
      let s := setQp port qpn (fun x => { x with
        spsn := x.spsn + BitVec.ofNat 24 (psnCount x (2 ^ 21)), unacked := x.unacked ++ [x.spsn] }) s
      emit (.rdmaReadReq (Fin.ofNat 2 port) (BitVec.ofNat 24 qpn) (BitVec.ofNat 32 (ctxF s f.ctx 543 512)) (BitVec.ofNat 64 host) (2 ^ 21)) s

/-- The requests of a fetch are answered: its queue pair waits for them no more. -/
def fetchAnswered (f : Fetch) (s : State) : State :=
  setQp (ctxPagerPort s f.ctx) (ctxPagerQpn s f.ctx) (fun x => { x with unacked := x.unacked.filter (fun p => p != f.psn), retries := 0 }) s

/-- A worker's miss goes to its board manager instead (R356). -/
def pagerRelays (s : State) (ctx : Nat) : Bool := ctxPagerQpn s ctx == 0xFFFFFF

/-- The packet that asks the manager for a page. -/
def pageAsk (s : State) (f : Fetch) : Packet := { type := 2, dst := managerOf s, ctx := f.ctx, addr := f.page * 2 ^ 21, label := 2 ^ 21 + 2 ^ 63 }

/-- Start a fetch into a frame of placement ANY (R297, R300). The frame is charged once its page is present (R299). With no frame at
all the waiting accesses fault as over the quota. (DEDUCED, log 137) -/
def startFetch (n : Nat) (m : Miss) (s : State) : State :=
  match pickFirst false (placeTests s 0 0 0) s with
  | (none, s) => if m.prefetch then s else giveUp m.ctx m.page .quotaExceeded s
  | (some f, s) =>
    let s := casSome (takeFrames f 1 s)
    let s := setCtxF m.ctx 191 160 (min (ctxF s m.ctx 191 160 + 1) 0xFFFFFFFF) s
    let x : Fetch := { ctx := m.ctx, page := m.page, frame := f, tries := 0 }
    let s := { s with fetches := s.fetches.set n (some x) }
    if pagerRelays s m.ctx then sendPacket (pageAsk s x) s else sendFetch n x s

/-- Pages of a context backed at the offsets after a miss, hosted and not present, that no fetch or miss names yet (R300). -/
def prefetchPages (s : State) (ctx backing : Nat) : List Miss :=
  let want := fun (o : Nat) => ((context s ctx).pages.find? fun e =>
    e.2.hosted && !e.2.present && e.2.backing == o && !(fetching s ctx e.1) && !(s.misses.any fun m => m.ctx == ctx && m.page == e.1))
  (List.range (reg s 0x3900 4)).filterMap fun i => (want (backing + 1 + i)).map fun e => { ctx := ctx, page := e.1, prefetch := true }

/-- Take up one miss: over the quota a page is evicted first, or the waiters fault; a prefetch never evicts. -/
def takeMiss (n : Nat) (m : Miss) (s : State) : State :=
  match absentPage s m.ctx m.page with
  | none => s
  | some a =>
    if fetching s m.ctx m.page then s
    else
      let s := if m.prefetch then s else { s with misses := s.misses ++ prefetchPages s m.ctx a.backing }
      if ctxUsed s m.ctx + fetchCharge s m.ctx < ctxQuota s m.ctx then startFetch n m s
      else if m.prefetch then s
      else match evictee s m.ctx with
        | some e => startFetch n m (evictPage m.ctx e s)
        | none => giveUp m.ctx m.page .quotaExceeded s

/-- PAGE_FETCH_START (R300): with a fetch slot free, the oldest miss whose context may fetch is taken up. -/
def pageFetchStart (s : State) : State :=
  if !(running s) then s
  else match s.fetches.findIdx? (fun f => f.isNone), s.misses.find? (missReady s) with
    | some n, some m => takeMiss n m { s with misses := s.misses.filter fun x => !(x == m) }
    | _, _ => s

/-- A fetch ends without its page: the frame is free again. -/
def dropFetch (n : Nat) (f : Fetch) (s : State) : State := freeFrames f.frame 1 { s with fetches := s.fetches.set n none }

/-- The frame becomes the page, charged from now on (R299); accesses that waited go on. -/
def pageIn (f : Fetch) (bytes : List Byte) (s : State) : State :=
  let s := devWrite .remote true (f.frame * 2 ^ 21) bytes false s
  let s := setMapping f.ctx f.page (fun m => { m with present := true, frame := f.frame, age := 0 }) (casSome s)
  let s := chargeFrames f.ctx (ctxUsed s f.ctx + 1) s
  wakeStreams f.ctx (serveAsks f.ctx (releaseReads f.ctx s))

/-- Put fetched data into the frame and install the page; with the context or mapping gone the frame is freed at once (R295). A charge
that would pass the quota by now evicts first (R301). -/
def installPage (n : Nat) (f : Fetch) (bytes : List Byte) (s : State) : State :=
  let s := addTotal 0x3900 7 1 s
  if f.stale || (absentPage s f.ctx f.page).isNone then dropFetch n f s
  else if ctxUsed s f.ctx < ctxQuota s f.ctx then pageIn f bytes { s with fetches := s.fetches.set n none }
  else match evictee s f.ctx with
    | some e => pageIn f bytes (evictPage f.ctx e { s with fetches := s.fetches.set n none })
    | none => giveUp f.ctx f.page .quotaExceeded (dropFetch n f s)

/-- A fetch that failed: sent again while PAGER_RETRIES allows, else given up with PAGE_FETCH_FAULT (R302). -/
def retryFetch (n : Nat) (f : Fetch) (s : State) : State :=
  if f.stale || (absentPage s f.ctx f.page).isNone then dropFetch n f s
  else if f.tries < reg s 0x3900 5 then
    let f := { f with tries := f.tries + 1 }
    let s := { s with fetches := s.fetches.set n (some f) }
    if pagerRelays s f.ctx then sendPacket (pageAsk s f) s else sendFetch n f s
  else giveUp f.ctx f.page .pageFetchFault (bumpE 0x3900 8 (dropFetch n f s))

/-- PAGE_FETCH_COMPLETE (R300, R302): whole data installs the page; a transport error or short data is a failure. -/
def pageFetchComplete (n : Nat) (r : FetchResult) (s : State) : State :=
  match s.fetches.getD n none with
  | none => s
  | some f =>
    let s := fetchAnswered f s
    match r with
    | .data b => if b.length = 2 ^ 21 then installPage n f b s else retryFetch n f s
    | .transportError => retryFetch n f s

/-- PAGE_FETCH_TIMEOUT (R302). (DESIGN CHOICE, log 4) -/
def pageFetchTimeout (n : Nat) (s : State) : State :=
  match s.fetches.getD n none with
  | none => s
  | some f => retryFetch n f s

/-- ROCE_TIMEOUT (Table 15.3): unanswered requests are sent again up to 7 times; then the queue pair is in error and every
fetch on it fails (R302). -/
def roceTimeout (port qpn : Nat) (s : State) : State :=
  match qpOf s port qpn with
  | none => s
  | some x =>
    if x.unacked.isEmpty then s
    else if x.retries < 7 then resendFrom port qpn x.unacked (setQp port qpn (fun x => { x with retries := x.retries + 1 }) s)
    else
      let s := setQp port qpn (fun x => { x with error := true, unacked := [] }) s
      (List.range 16).foldl (fun s n => match s.fetches.getD n none with
        | some f => if f.ctx = x.ctx ∧ ctxPagerPort s f.ctx = port ∧ ctxPagerQpn s f.ctx = qpn then retryFetch n f s else s
        | none => s) s

/-- PAGE_AGE_TICK (R301, Table 13.4): every AGE moves on by one, up to its largest value. -/
def pageAgeTick (s : State) : State :=
  { s with contexts := s.contexts.map fun e => (e.1, { e.2 with
      pages := e.2.pages.map fun p => (p.1, { p.2 with age := if p.2.age = 15 then 15 else p.2.age + 1 }) }) }

end Sys2Proof.Machine
end

