-- ==== Sys2Proof/Machine/Keccak.lean ====
section
/-! DEFINITION. Keccak-f[1600] and its sponges (SHAKE-128 and SHAKE-256, SHA3-256 and SHA3-512), the hash of R80 and of the key exchange. -/

namespace Sys2Proof.Machine

/-- Turn a 64-bit lane left by n places. -/
def turn (n x : Nat) : Nat := x * 2 ^ n % 2 ^ 64 + x / 2 ^ (64 - n)

/-- One step of the rotation walk over the lanes: from column and row (x, y) to (y, 2x + 3y). -/
def walkStep (p : Nat × Nat) : Nat × Nat := (p.2, (2 * p.1 + 3 * p.2) % 5)

/-- The lane that the walk has reached after t steps from (1, 0). -/
def walkLane (t : Nat) : Nat × Nat := (List.range t).foldl (fun p _ => walkStep p) (1, 0)

/-- Rotation of a lane: the triangular number of its step in the walk; the lane that the walk leaves out is not turned. -/
def turnOf (lane : Nat) : Nat :=
  match (List.range 24).find? fun t => (walkLane t).1 + 5 * (walkLane t).2 == lane with
  | some t => (t + 1) * (t + 2) / 2 % 64
  | none => 0

/-- One step of the shift register x⁸ + x⁶ + x⁵ + x⁴ + 1. -/
def shiftStep (x : Nat) : Nat := if x < 128 then 2 * x else (2 * x) ^^^ 0x171

/-- The shift register after t steps from 1. -/
def shiftReg (t : Nat) : Nat := (List.range t).foldl (fun x _ => shiftStep x) 1

/-- What round r adds to lane 0: seven bits of the shift register, at places 2^j - 1. -/
def roundWord (r : Nat) : Nat := ((List.range 7).map fun j => shiftReg (7 * r + j) % 2 * 2 ^ (2 ^ j - 1)).sum

/-- The 24 words that the rounds add. -/
def roundWords : List Nat := (List.range 24).map roundWord

/-- The rotations of the 25 lanes. -/
def laneTurns : List Nat := (List.range 25).map turnOf

/-- Every lane takes the parity of the column before it, and that of the column after it turned by one place. -/
def mixColumns (a : List Nat) : List Nat :=
  let parity := (List.range 5).map fun x => (List.range 5).foldl (fun p y => p ^^^ a.getD (x + 5 * y) 0) 0
  (List.range 25).map fun i => a.getD i 0 ^^^ parity.getD ((i + 4) % 5) 0 ^^^ turn 1 (parity.getD ((i + 1) % 5) 0)

/-- Every lane is turned, and lane (x, y) moves to (y, 2x + 3y): what stands at (x, y) afterwards came from (x + 3y, x). -/
def moveLanes (a : List Nat) : List Nat :=
  (List.range 25).map fun i =>
    let k := (i % 5 + 3 * (i / 5)) % 5 + 5 * (i % 5)
    turn (laneTurns.getD k 0) (a.getD k 0)

/-- Every lane takes the next one of its row where the one between them holds zeros. -/
def mixRows (a : List Nat) : List Nat :=
  (List.range 25).map fun i =>
    let at_ := fun (k : Nat) => a.getD (i / 5 * 5 + (i + k) % 5) 0
    at_ 0 ^^^ (at_ 2 ^^^ (at_ 1 &&& at_ 2))

/-- Keccak-f[1600] over 25 lanes: 24 rounds. -/
def keccakF (a : List Nat) : List Nat :=
  roundWords.foldl (fun a w => match mixRows (moveLanes (mixColumns a)) with
    | [] => []
    | l :: r => (l ^^^ w) :: r) a

/-- Exclusive-or of a block of bytes into the state. -/
def xorBlock (a : List Nat) (blk : List Byte) : List Nat :=
  (List.range 25).map fun i => a.getD i 0 ^^^ ofLe ((blk.drop (8 * i)).take 8)

/-- Padding of a message to whole blocks of a rate, with a domain suffix. -/
def keccakPad (rate suffix : Nat) (m : List Byte) : List Byte :=
  let k := rate - m.length % rate
  if k = 1 then m ++ [BitVec.ofNat 8 (suffix ||| 0x80)]
  else m ++ [BitVec.ofNat 8 suffix] ++ List.replicate (k - 2) 0 ++ [0x80]

/-- The state after a message has been absorbed. -/
def absorb (rate suffix : Nat) (m : List Byte) : List Nat :=
  (chunks rate (keccakPad rate suffix m)).foldl (fun a blk => keccakF (xorBlock a blk)) (List.replicate 25 0)

/-- The first bytes of a state. -/
def stateBytes (n : Nat) (a : List Nat) : List Byte := (a.flatMap fun x => toLe 8 x).take n

/-- n blocks of output. -/
def squeeze (rate : Nat) : Nat → List Nat → List Byte
  | 0, _ => []
  | n + 1, a => stateBytes rate a ++ squeeze rate n (keccakF a)

/-- A sponge's output of n bytes. -/
def sponge (rate suffix n : Nat) (m : List Byte) : List Byte := (squeeze rate (cdiv n rate) (absorb rate suffix m)).take n

/-- SHAKE-128. (PRESUMED, log 13) -/
def shake128 (m : List Byte) (n : Nat) : List Byte := sponge 168 0x1F n m
/-- SHAKE-256. -/
def shake256 (m : List Byte) (n : Nat) : List Byte := sponge 136 0x1F n m
/-- SHA3-256. -/
def sha3_256 (m : List Byte) : List Byte := sponge 136 0x06 32 m
/-- SHA3-512. -/
def sha3_512 (m : List Byte) : List Byte := sponge 72 0x06 64 m

/-- Rejection sampling of R80: `fuel` bounds candidates and squeezes, `need` residues are still to come. (DESIGN CHOICE, log 55) -/
def regenLoop (q : Nat) : Nat → List Nat → List Byte → Nat → List Nat
  | 0, _, _, need => List.replicate need 0
  | f + 1, st, buf, need =>
    if need = 0 then []
    else if buf.length < 5 then
      let st := keccakF st
      regenLoop q f st (buf ++ stateBytes 168 st) need
    else
      let x := ofLe (buf.take 5)
      if x < 2 ^ 40 / q * q then x % q :: regenLoop q f st (buf.drop 5) (need - 1)
      else regenLoop q f st (buf.drop 5) need

/-- The residues of block b of digit β at position p of a seeded key (R80). (DESIGN CHOICE, log 55) -/
def regenBlock (seed : List Byte) (β p b q n : Nat) : List Nat :=
  let st := absorb 168 0x1F (seed ++ [0x4B, BitVec.ofNat 8 β, BitVec.ofNat 8 p, BitVec.ofNat 8 b])
  regenLoop q (2 ^ 32) st (stateBytes 168 st) n

end Sys2Proof.Machine
end

