-- ==== Sys2Proof/Machine/PolyArith.lean ====
section
/-! DEFINITION. Residue arithmetic (chapters 2 and 3): packing, the modular lanes, the transforms, the automorphism, basis conversion and the lift of a rescale. -/

namespace Sys2Proof.Machine

/-! ## Packing (R25) -/

/-- The 64 residues of a granule's 288 bytes: residue j occupies bits 36j+35:36j of its four packs. -/
def unpackGran (bs : List Byte) : List Nat :=
  let w := ofLe bs
  (List.range 64).map fun j => bits w (36 * j + 35) (36 * j)

/-- The word of residues laid side by side, the first lowest. -/
def packWord : List Nat → Nat
  | [] => 0
  | r :: t => r % 2 ^ 36 + 2 ^ 36 * packWord t

/-- The 288 bytes of a granule. -/
def packGran (rs : List Nat) : List Byte := toLe 288 (packWord rs)

/-- Cut a limb into granules. -/
def granules (rs : List Nat) : List (List Nat) := chunks 64 rs

/-! ## The modular lanes (R52) -/

/-- What a lane reads of an entry of the lane constant file (Table 2.8). -/
structure Prime where
  q      : Nat
  mu     : Nat
  psi    : Nat
  psiInv : Nat
  deriving DecidableEq, Repr

/-- The constants of a modulus-table entry. -/
def primeOf (w : Nat) : Prime := { q := bits w 35 0, mu := bits w 100 64, psi := bits w 163 128, psiInv := bits w 227 192 }

/-- One conditional subtraction of a lane. -/
def condSub (q r : Nat) : Nat := if q ≤ r then r - q else r

/-- Barrett reduction in one lane (R52). -/
def reduce (p : Prime) (x : Nat) : Nat :=
  let t := x >>> 35
  let qh := (t * p.mu) >>> 37
  let r := (x - qh * p.q) % 2 ^ 38
  condSub p.q (condSub p.q r)

/-- mulmod. -/
def mulmod (p : Prime) (a b : Nat) : Nat := reduce p (a * b)
/-- addmod. -/
def addmod (p : Prime) (a b : Nat) : Nat := condSub p.q (a + b)
/-- submod. -/
def submod (p : Prime) (a b : Nat) : Nat := if b ≤ a then a - b else a + p.q - b
/-- negmod. -/
def negmod (p : Prime) (a : Nat) : Nat := if a = 0 then 0 else p.q - a

/-- A value is a residue of a modulus (R23). -/
def canonical (q : Nat) (l : List Nat) : Bool := l.all fun r => decide (r < q)

/-- Position of the first value that is no residue. -/
def firstBad (q : Nat) (l : List Nat) : Nat := (l.takeWhile fun r => decide (r < q)).length

/-! ## Number-theoretic transforms (R54) -/

/-- ψ_N of a ring of 2^n coefficients, for a direction's root. -/
def rootN (p : Prime) (root n : Nat) : Nat := powMod root (2 ^ (16 - n)) p.q

/-- Value of a polynomial, lowest coefficient first, modulo q. -/
def evalPoly (q x : Nat) (a : List Nat) : Nat := a.foldr (fun c acc => (c + acc * x) % q) 0

/-- The exponent 2·brv(t) + 1 of position t. -/
def evalExp (n t : Nat) : Nat := 2 * brv n t + 1

/-- NTT_FWD of one limb: position t holds a(ψ_N^(2·brv_n(t)+1)). -/
def nttFwdLimb (p : Prime) (n : Nat) (a : List Nat) : List Nat :=
  let r := rootN p p.psi n
  (List.range (2 ^ n)).map fun t => evalPoly p.q (powMod r (evalExp n t) p.q) a

/-- N^(-1) modulo q, as the lanes form it. -/
def nInv (p : Prime) (n : Nat) : Nat := p.q - (p.q - 1) / 2 ^ n

/-- NTT_INV of one limb, with or without the final product by N^(-1). -/
def nttInvLimb (p : Prime) (n : Nat) (noscale : Bool) (a : List Nat) : List Nat :=
  let r := rootN p p.psiInv n
  (List.range (2 ^ n)).map fun j =>
    let v := ((List.range (2 ^ n)).zip a).foldl
      (fun acc x => (acc + x.2 * powMod r (evalExp n x.1 * j % 2 ^ (n + 1)) p.q) % p.q) 0
    if noscale then v else mulmod p v (nInv p n)

/-! ## The automorphism permuter (R57) -/

/-- AUTO of a limb in coefficient form. -/
def autoCoeff (p : Prime) (n g : Nat) (a : List Nat) : List Nat :=
  (List.range (2 ^ n)).foldl (fun acc j =>
    let e := j * g % 2 ^ (n + 1)
    if e < 2 ^ n then acc.set e (a.getD j 0) else acc.set (e - 2 ^ n) (negmod p (a.getD j 0))) a

/-- AUTO of a limb in evaluation form. -/
def autoEval (n g : Nat) (a : List Nat) : List Nat :=
  (List.range (2 ^ n)).map fun t => a.getD (brv n (g * evalExp n t % 2 ^ (n + 1) / 2)) 0

/-! ## Basis conversion and rescale (R60, R66) -/

/-- y_i of R60, for the residues x_i of one coefficient and section A. -/
def bconvY (src : List Prime) (ta xs : List Nat) : List Nat :=
  (src.zip (xs.zip ta)).map fun x => mulmod x.1 x.2.1 x.2.2

/-- z_j of R60, for one target and its row of section B. -/
def bconvZ (p : Prime) (row ys : List Nat) : Nat := (row.zip ys).foldl (fun acc x => (acc + x.1 * x.2) % p.q) 0

/-- One granule row of BCONV: granules of the sources to granules of the targets. -/
def bconvRow (src dst : List Prime) (ta tb : List Nat) (xs : List (List Nat)) : List (List Nat) :=
  let ns := src.length
  let ys := (List.range 64).map fun k => bconvY src ta (xs.map fun g => g.getD k 0)
  (List.range dst.length).map fun j => ys.map fun y => bconvZ (dst.getD j ⟨1, 0, 0, 0⟩) ((tb.drop (j * ns)).take ns) y

/-- Step 2 of R66: the centred lift of v modulo ql, modulo qi. -/
def centredLift (ql qi v : Nat) : Nat :=
  if (ql - 1) / 2 < v then (v % qi + qi - ql % qi) % qi else v % qi

/-- drop(q) of R102. -/
def dropBits (q : Nat) : Nat := if 2 ^ 71 ≤ q * q then 36 else 35

end Sys2Proof.Machine
end

