-- ==== Sys2Proof/Machine/Header.lean ====
section
/-! DEFINITION. The ciphertext header (Table 2.4): fields, checks 1 to 9 of Table 2.5, limb maps, layouts, reads and writes of granules, header writes of R37 and R70. -/

namespace Sys2Proof.Machine

/-! ## Fields (Table 2.4) -/

/-- DATA_ADDR. -/
def hData (h : Nat) : Nat := bits h 303 256
/-- LIMB_MAP. -/
def hMap (h : Nat) : Nat := bits h 255 192
/-- CHAIN_FP. -/
def hFp (h : Nat) : Nat := bits h 191 160
/-- SHARED. -/
def hShared (h : Nat) : Bool := bit h 151
/-- LAYOUT. -/
def hLayout (h : Nat) : Nat := bits h 150 149
/-- NTT flag of a component. -/
def hNtt (h c : Nat) : Bool := bit h (146 + c)
/-- The three NTT flags, component 0 lowest. -/
def hNtts (h : Nat) : Nat := bits h 148 146
/-- POISON. -/
def hPoison (h : Nat) : Bool := bit h 145
/-- VALID. -/
def hValid (h : Nat) : Bool := bit h 144
/-- CONTEXT. -/
def hCtx (h : Nat) : Nat := bits h 139 128
/-- KEY_TAG. -/
def hTag (h : Nat) : Nat := bits h 127 64
/-- BUDGET. -/
def hBudget (h : Nat) : Nat := bits h 63 48
/-- SLOTS. -/
def hSlots (h : Nat) : Nat := bits h 44 40
/-- SCALE_EXP. -/
def hScale (h : Nat) : Nat := bits h 39 32
/-- LEVEL. -/
def hLevel (h : Nat) : Nat := bits h 29 24
/-- CHAIN. -/
def hChain (h : Nat) : Nat := bits h 23 16
/-- PSET. -/
def hPset (h : Nat) : Nat := bits h 15 8
/-- KIND. -/
def hKind (h : Nat) : Nat := bits h 3 0

/-- Components of a kind (Table 2.3). -/
def nComp (k : Nat) : Nat := [0, 2, 3, 1, 1, 1, 2].getD k 0

/-- LEV2, LEV3 or PT. -/
def levelled (k : Nat) : Bool := decide (1 ≤ k ∧ k ≤ 3)

/-- GATE_BIT or GATE_INT. -/
def gateKind (k : Nat) : Bool := k == 4 || k == 5

/-- Check 2 of Table 2.5: permitted encodings. -/
def hdrEncOk (h : Nat) : Bool :=
  bits h 7 4 == 1 && decide (1 ≤ hKind h ∧ hKind h ≤ 6) && decide (hChain h < 16) && decide (hLayout h < 3) &&
    (!(hNtt h 2) || hKind h == 2) && bits h 479 304 == 0 && bits h 159 152 == 0 && bits h 143 140 == 0 &&
    bits h 47 45 == 0 && bits h 31 30 == 0

/-- HDR_CHECK matches. -/
def hdrCheckOk (h : Nat) : Bool := checkOk 64 h

/-! ## Limb maps (R28, R31) -/

/-- Chain positions of a map, ascending. -/
def posOf (m : Nat) : List Nat := (List.range 64).filter fun p => bit m p

/-- The map of a list of positions. -/
def mapOf (l : List Nat) : Nat := l.foldl (fun m p => m ||| 2 ^ p) 0

/-- Normal form of a level. -/
def normalMap (l : Nat) : Nat := 2 ^ (l + 1) - 1

/-- Extended form of a level on a chain. -/
def extendedMap (d k l : Nat) : Nat := normalMap l ||| ((2 ^ k - 1) * 2 ^ d)

/-- LEVEL and LIMB_MAP agree (R31), for a chain with d data and k key-switching positions. -/
def limbMapOk (d k h : Nat) : Bool :=
  if gateKind (hKind h) then hMap h == 1
  else if hKind h = 6 then hMap h == 3
  else decide (hLevel h < d) && (hMap h == normalMap (hLevel h) || (decide (0 < k) && hMap h == extendedMap d k (hLevel h)))

/-- Granules per limb of a chain slot. -/
def chG (s : State) (k : Nat) : Nat := 2 ^ chLog2N s k / 64

/-- Granules of each component-limb of an object: a GATE_BIT or GATE_INT has 33 (R29). (DEDUCED, log 119) -/
def objG (gr : Nat) (o : Obj) : Nat := if gateKind (hKind o.h) then 33 else gr

/-- The lane constants of a chain position. -/
def primeAt (s : State) (k p : Nat) : Prime := primeOf (tget 0 s.modTable (chPost s k p)).toNat

/-! ## Reading headers -/

/-- A header as read at issue: whether its bytes carry a poison mark, and whether it is a source. -/
structure Operand where
  obj    : Obj
  poison : Bool
  source : Bool
  deriving DecidableEq, Repr

/-- Read a header. -/
def readHdr (e : Env) (a : Nat) (source : Bool) : Eng Operand := do
  let (bs, p) ← load e a 64
  pure { obj := { addr := a, h := ofLe bs }, poison := p, source := source }

/-- A destination header holds an object (R435). (DEDUCED, log 45) -/
def holdsObject (o : Operand) : Bool := !o.poison && hdrCheckOk o.obj.h

/-- Stop at the first operand, in operand order, that fails a check (R36). -/
def checkOps (l : List Operand) (r : Reason) (bad : Operand → Bool) : Eng Unit :=
  needE (l.find? bad).isNone r ((l.find? bad).map fun o => (o.obj.addr, false))

/-- Stop at the first object that fails a check. -/
def checkObjs (l : List Obj) (r : Reason) (bad : Obj → Bool) : Eng Unit :=
  needE (l.find? bad).isNone r ((l.find? bad).map fun o => (o.addr, false))

/-- Check 1: the header's bytes. -/
def checkBytes : List Operand → Eng Unit
  | [] => pure ()
  | o :: r => do
    needE (!o.poison) .poisonControl (some (o.obj.addr, false))
    needE (hdrCheckOk o.obj.h) .headerCheck (some (o.obj.addr, false))
    checkBytes r

/-- A chain slot admits an instruction that has been dispatched (check 4). (DEDUCED, log 46) -/
def slotUsable (s : State) (k : Nat) : Bool := (chain s k).state = .active || (chain s k).state = .draining

/-- Check 6: the context may read a source, and owns a destination (R34). -/
def accessOk (s : State) (ctx : Nat) (o : Operand) : Bool :=
  hCtx o.obj.h == ctx ||
    (o.source && hShared o.obj.h && ctxChained s ctx && hChain o.obj.h == ctxChain s ctx &&
      hFp o.obj.h == (chain s (ctxChain s ctx)).fp.toNat)

/-- PSET and CHAIN_FP equal those of a slot (check 5). -/
def fpOk (s : State) (h : Nat) : Bool := hPset h == chPset s (hChain h) && hFp h == (chain s (hChain h)).fp.toNat

/-- Checks 1 to 6 of Table 2.5 over sources and, where R435 applies them to it, the destination; `exempt` names a destination
address whose source copy is free of check 3 (R70). -/
def hdrChecks (e : Env) (ops : List Operand) (exempt : Option Nat) : Eng Unit := do
  checkBytes ops
  let s ← get
  checkOps ops .reservedField fun o => o.source && !(hdrEncOk o.obj.h)
  checkOps ops .invalidOperand fun o => o.source && !(hValid o.obj.h) && exempt != some o.obj.addr
  checkOps ops .chainAbsent fun o => o.source && !(slotUsable s (hChain o.obj.h))
  checkOps ops .chainMismatch fun o => o.source && !(fpOk s o.obj.h)
  checkOps ops .contextMismatch fun o => !(accessOk s e.ctx o)

/-- The operands that checks 1 to 6 see: the sources, and a destination that must hold or does hold an object. -/
def checkedOps (sources : List Operand) (d : Operand) (uses : Bool) : List Operand :=
  if uses || holdsObject d then sources ++ [d] else sources

/-- Check 9: two or more encrypted operands carry one non-zero KEY_TAG (R33). -/
def tagChecks (l : List Obj) : Eng Unit :=
  match l.filter fun o => hKind o.h != 3 with
  | a :: b :: r => checkObjs (a :: b :: r) .keyMismatch fun o => hTag o.h == 0 || hTag o.h != hTag a.h
  | _ => pure ()

/-! ## Placement of granules (R28, R35) -/

/-- Open the placement descriptor of an object of LAYOUT 2: three dimensions that hold every granule. (DEDUCED, log 44) -/
def openPlace (e : Env) (write : Bool) (gr : Nat) (o : Obj) : Eng Obj := do
  if hLayout o.h = 2 then do
    let w ← openPlain e { dist := true, elems := [0xE], write := write } (hData o.h)
    needE (dRank w == 3 && decide (objG gr o ≤ dExtent w 0 ∧ (posOf (hMap o.h)).length ≤ dExtent w 1 ∧ nComp (hKind o.h) ≤ dExtent w 2))
      .descNotAdmitted (some (hData o.h, false))
    pure { o with place := some w }
  else pure o

/-- Limb index of a position: the limbs present below it. -/
def limbIndex (m p : Nat) : Nat := ((posOf m).filter fun i => decide (i < p)).length

/-- Module and address of a granule of an object: component, position, granule index. (DEDUCED, log 48) -/
def granPlace (own gr : Nat) (o : Obj) (c p g : Nat) : Nat × Nat :=
  let gr := objG gr o
  let k := limbIndex (hMap o.h) p
  let l := (posOf (hMap o.h)).length
  match o.place with
  | some w =>
    let x := elemPlace w own [(g : Int), (k : Int), (c : Int)]
    (x.module, x.byte.toNat)
  | none => (own, hData o.h + (c * l * gr + (if hLayout o.h = 1 then g * l + k else k * gr + g)) * 288)

/-- Where an instruction's data work stands, for the DETAIL of its record (Table 20.5): repeat, position, granule. -/
def atGran {α : Type} (r p g : Nat) (x : Eng α) : Eng α := fun s =>
  match x s with
  | .error (.fault f) s' => .error (.fault { f with detail := packFields [(0, 8, p), (16, 16, g), (32, 32, r)] }) s'
  | y => y

/-- A granule address keeps R26; the record names the object's header (R73). -/
def granAligned (hdr a : Nat) : Eng Unit := needE (a % (if isSp a then 8 else 32) == 0) .alignment (some (hdr, false))

/-- Read a granule's values as they stand, and its poison (R26). -/
def readRaw (e : Env) (gr : Nat) (o : Obj) (c p g : Nat) : Eng (List Nat × Bool) := do
  let (m, a) := granPlace (moduleOf (← get)) gr o c p g
  granAligned o.addr a
  let (bs, bad) ← loadOn e e.alloc m a 288
  pure (unpackGran bs, bad)

/-- Read a granule: its residues, each below its modulus, and its poison (R24); in granule 32 of a sample all but the first are zero
(R29). (DEDUCED, log 119) -/
def readGran (e : Env) (gr q : Nat) (o : Obj) (c p g : Nat) : Eng (List Nat × Bool) := do
  let (rs, bad) ← readRaw e gr o c p g
  needE (canonical q rs) .residueRange (some (o.addr, false))
  needE (!(gateKind (hKind o.h) && g == 32) || (rs.drop 1).all fun x => x == 0) .reservedField (some (o.addr, false))
  pure (rs, bad)

/-- Write a granule. -/
def writeGran (e : Env) (gr : Nat) (o : Obj) (c p g : Nat) (rs : List Nat) (bad : Bool) : Eng Unit := do
  let (m, a) := granPlace (moduleOf (← get)) gr o c p g
  granAligned o.addr a
  storeOn e e.alloc m a (packGran rs) bad

/-- Sixty-four values below 2^36 that the spec leaves open. -/
def freeGran : Eng (List Nat) := mapE (fun _ => do
  let d ← drawE
  pure (d % 2 ^ 36)) (List.range 64)

/-- Two granules share a byte. -/
def granMeets (x y : Nat × Nat) : Bool := x.1 == y.1 && decide (x.2 < y.2 + 288 ∧ y.2 < x.2 + 288)

/-! ## Header writes (R37, R70) -/

/-- Write a whole header, its check computed. -/
def writeHdr (e : Env) (a h : Nat) : Eng Unit := store e a (toLe 64 (withCheck 64 h)) false

/-- HDR_POISON: set POISON in a header in one update, unless its bytes carry a poison mark (R70, R423). -/
def hdrPoison (e : Env) (a : Nat) : Eng Unit := do
  let (bs, bad) ← load e a 64
  if bad then pure () else writeHdr e a (setBits (ofLe bs) 145 145 1)
  atomicDone

/-- What a header being written carries (Table 2.4). -/
structure NewHdr where
  kind   : Nat
  chain  : Nat
  level  : Nat
  map    : Nat
  scale  : Nat
  slots  : Nat
  budget : Nat
  tag    : Nat
  ntts   : Nat
  deriving DecidableEq, Repr

/-- The header that an operation writes at a destination: VALID and POISON apart, DATA_ADDR and LAYOUT as found there. -/
def newHdr (s : State) (ctx old : Nat) (n : NewHdr) : Nat :=
  packFields [(256, 48, hData old), (192, 64, n.map), (160, 32, (chain s n.chain).fp.toNat), (149, 2, hLayout old),
    (146, 3, n.ntts), (128, 12, ctx), (64, 64, n.tag), (48, 16, n.budget), (40, 5, n.slots), (32, 8, n.scale),
    (24, 6, n.level), (16, 8, n.chain), (8, 8, chPset s n.chain), (4, 4, 1), (0, 4, n.kind)]

/-- Step 1 of R37: the header with VALID = 0, and POISON as known. -/
def startHdr (e : Env) (a h : Nat) (poison : Bool) : Eng Unit :=
  writeHdr e a (setBits (setBits h 144 144 0) 145 145 (b2n poison))

/-- Step 3 of R37: the header with VALID = 1. -/
def commitHdr (e : Env) (a h : Nat) (poison : Bool) : Eng Unit :=
  writeHdr e a (setBits (setBits h 144 144 1) 145 145 (b2n poison))

/-- The destination of an instruction that uses the header it finds keeps R70: not yet valid, identical in kind, chain, set,
fingerprint and owner, and holding every position written. -/
def partOk (s : State) (ctx kind ch : Nat) (written : List Nat) (d : Nat) : Bool :=
  !(hValid d) && hKind d == kind && hChain d == ch && hPset d == chPset s ch && hFp d == (chain s ch).fp.toNat &&
    hCtx d == ctx && written.all fun p => bit (hMap d) p

end Sys2Proof.Machine
end

