-- ==== Sys2Proof/Machine/Poly.lean ====
section
/-! DEFINITION. The polynomial engine (chapter 3): the checks of Tables 2.5 and 3.9, conversion tables, transforms, pointwise work, basis conversion, rescale, transposition, OPEN and COMMIT. -/

namespace Sys2Proof.Machine

/-! ## Operation word (Tables 3.7, 3.8) -/

/-- POS_FIRST. -/
def pFirst (w : Nat) : Nat := bits w 43 38
/-- POS_LAST. -/
def pLast (w : Nat) : Nat := bits w 37 32
/-- The positions processed. -/
def pPos (w : Nat) : List Nat := (List.range 64).filter fun p => decide (pFirst w ≤ p ∧ p ≤ pLast w)
/-- COMP_MASK. -/
def pComps (w : Nat) : List Nat := (List.range 3).filter fun c => bit w (28 + c)
/-- PART. -/
def pPart (w : Nat) : Bool := bit w 27
/-- MODE0. -/
def pMode (w : Nat) : Bool := bit w 24
/-- GALOIS of AUTO. -/
def pGalois (w : Nat) : Nat := bits w 16 0
/-- GRAN_COUNT. -/
def pGranCount (w : Nat) : Nat := bits w 21 11
/-- GRAN_FIRST. -/
def pGranFirst (w : Nat) : Nat := bits w 10 0

/-- Opcodes that MODE0 means something for. -/
def usesMode0 (op : Nat) : Bool := [0x11, 0x25, 0x27, 0x2C].contains op
/-- BCONV and TRANSPOSE work on granule rows. -/
def usesRows (op : Nat) : Bool := op == 0x30 || op == 0x38
/-- The old destination is also a source: PW_MAC, PW_MACC (R435). -/
def readsOld (op : Nat) : Bool := op == 0x25 || op == 0x27
/-- Source B is an object. -/
def hasB (op : Nat) : Bool := [0x20, 0x21, 0x24, 0x25, 0x28].contains op
/-- Opcodes for which PART is required. -/
def needsPart (op : Nat) : Bool := [0x2C, 0x30, 0x38].contains op
/-- Opcodes that R437 and the NTT-flag rules treat limb by limb: NTT, AUTO, the pointwise ones but TENSOR and KEY_MAC, RESCALE. -/
def limbwise (op : Nat) : Bool := [0x10, 0x11, 0x14, 0x20, 0x21, 0x22, 0x24, 0x25, 0x26, 0x27, 0x31].contains op
/-- PW_MUL, PW_MAC and TENSOR: the multiplications of Table 5.1. -/
def multiplies (op : Nat) : Bool := [0x24, 0x25, 0x28].contains op

/-- Reserved bits and immediate limits (R9, R67). -/
def polyEncOk (w : Nat) : Bool :=
  let op := iOpcode w
  bits w 31 31 == 0 && bits w 26 25 == 0 && (!(pMode w) || usesMode0 op) &&
    (if op = 0x14 then bits w 23 17 == 0 else if usesRows op then bits w 23 22 == 0 else bits w 23 0 == 0)

/-! ## Check 7: limb maps, positions, levels (R31, R67, R100) -/

/-- An operand breaks check 7; D, K and G are those of the chain slot that it names itself. TRANSPOSE takes G of a GATE_BIT or GATE_INT
as its 33 granules. (DEDUCED, logs 47, 119) -/
def mapBreach (s : State) (w : Nat) (isA ruled : Bool) (o : Obj) : Bool :=
  let op := iOpcode w
  let ch := hChain o.h
  let lev := levelled (hKind o.h)
  let exempt := lev && hLevel o.h == 0 && ruled
  !(limbMapOk (chD s ch) (chK s ch) o.h) ||
    (op != 0x30 &&
      (decide (pLast w < pFirst w) || (!exempt && (pPos w).any fun p => !(bit (hMap o.h) p)) ||
        (lev && !(pPart w) && (pFirst w != 0 || (!exempt && decide (hLevel o.h < pLast w)))) ||
        (op == 0x31 && decide (0 < hLevel o.h ∧ hLevel o.h < pLast w + 1)) ||
        (hKind o.h == 6 && (pFirst w != 0 || pLast w != 1)))) ||
    (usesRows op && isA && (pGranCount w == 0 || decide (objG (chG s ch) o < pGranFirst w + pGranCount w)))

/-! ## Check 8: forms (R32, Table 3.8) -/

/-- Components of an operand whose form an opcode requires. -/
def formComps (w : Nat) (o : Obj) : List Nat :=
  let cs := if iOpcode w = 0x28 then [0, 1] else if iOpcode w = 0x2C ∨ hKind o.h = 3 then [0] else pComps w
  cs.filter fun c => decide (c < nComp (hKind o.h))

/-- An operand is not in the form required: 0 coefficient, 1 evaluation, 2 equal to source A's, 3 either. (DEDUCED, log 47) -/
def formBreach (w : Nat) (a o : Obj) : Bool :=
  let op := iOpcode w
  if op = 0x10 ∨ op = 0x30 then (formComps w o).any fun c => hNtt o.h c
  else if [0x11, 0x24, 0x25, 0x28, 0x2C, 0x31].contains op then (formComps w o).any fun c => !(hNtt o.h c)
  else if [0x20, 0x21, 0x27].contains op then
    (pComps w).any fun c => hNtt o.h (if hKind o.h = 3 then 0 else c) != hNtt a.h (if hKind a.h = 3 then 0 else c)
  else false

/-! ## Check 10: level and budget (R101-R106) -/

/-- Cost class of an opcode, as a subindex of Table 5.3; 0 for those never charged. -/
def costClass (op : Nat) : Nat :=
  if [0x20, 0x21, 0x22].contains op then 1
  else if [0x26, 0x27].contains op then 2
  else if [0x24, 0x25].contains op then 3
  else if op = 0x28 then 4
  else if op = 0x31 then 5
  else if op = 0x14 then 6
  else 0

/-- The cost that a slot charges for an opcode. -/
def costOf (s : State) (ch op : Nat) : Nat := if costClass op = 0 then 0 else reg s (0x3120 + ch) (costClass op)

/-- LEV2 or LEV3. -/
def budgeted (k : Nat) : Bool := k == 1 || k == 2

/-- The smallest BUDGET of the sources that carry one. -/
def minBudget (l : List Obj) : Nat := (l.filter fun o => budgeted (hKind o.h)).foldl (fun m o => min m (hBudget o.h)) 0xFFFF

/-- The kind an opcode writes, from source A's and, for BCONV, whose destination is of any levelled kind, the one found there
(Table 3.8). -/
def destKind (op ka kd : Nat) : Nat :=
  if op = 0x28 then 2 else if op = 0x2C then 1 else if op = 0x30 ∧ levelled kd = true then kd else ka

/-- Check 10, its level part (Table 5.1): the rules name sources A and B. -/
def levelChecks (w : Nat) (a : Obj) (b : List Obj) : Eng Unit := do
  let op := iOpcode w
  if multiplies op then
    checkObjs ((a :: b).filter fun o => levelled (hKind o.h)) .levelExhausted fun o => pLast w == 0 || hLevel o.h == 0
  if op = 0x31 then checkObjs ([a].filter fun o => levelled (hKind o.h)) .levelExhausted fun o => hLevel o.h == 0

/-- Check 10, its budget part (R105, R106): answers the BUDGET to write. The cost and BUDGET_ENFORCE are those read at issue. -/
def budgetCheck (ctx ch op kind : Nat) (part : Bool) (l : List Obj) : Eng Nat := do
  if budgeted kind then do
    let c ← seeE fun s => costOf s ch op
    let on ← seeE fun s => b2n (ctxEnforce s ctx)
    if !part && on == 1 then
      checkObjs (l.filter fun o => budgeted (hKind o.h)) .budgetExhausted fun o => hBudget o.h == 0 || decide (hBudget o.h < c)
    pure (minBudget l - c)
  else pure 0xFFFF

/-- SCALE_EXP written (Table 5.1). -/
def scaleOf (s : State) (op ch : Nat) (a : Obj) (b : List Obj) (old : Obj) : Nat :=
  if !(levelled (hKind a.h)) then 0
  else if readsOld op then hScale old.h
  else if op = 0x24 ∨ op = 0x28 then min 255 (hScale a.h + (b.map fun o => hScale o.h).sum)
  else if op = 0x31 then hScale a.h - dropBits (chQ s ch (hLevel a.h))
  else hScale a.h

/-- NTT flags written: those of the work done; an unselected component keeps the form it has in the object that is both source
and destination, else source A's (R437). -/
def nttsOf (w kind : Nat) (a : Obj) (reads : List Obj) (d : Nat) : Nat :=
  let op := iOpcode w
  let own := ((reads.filter fun o => o.addr == d).getLast?).getD a
  packFields ((List.range (nComp kind)).map fun c =>
    let sel := (pComps w).contains c
    (c, 1, b2n (
      if op = 0x28 then true
      else if op = 0x10 ∧ sel then true
      else if op = 0x11 ∧ sel then false
      else if sel then hNtt a.h c
      else hNtt own.h c)))

/-! ## Check 11: kinds (Table 3.8) -/

/-- Source A's kind is admitted. -/
def kindAOk (op k : Nat) : Bool :=
  if op = 0x10 ∨ op = 0x11 ∨ op = 0x14 then levelled k || k == 6
  else if op = 0x28 then k == 1
  else if op = 0x2C then k == 3
  else if op = 0x38 then true
  else levelled k

/-- COMP_MASK selects components that the kinds have; between a PT and another kind, a PT's one component stands for the selected one.
COMP_MASK = 0 selects none. (DESIGN CHOICE, log 120) -/
def compsOk (w ka kd : Nat) : Bool :=
  if iOpcode w = 0x2C then true
  else if iOpcode w = 0x30 ∧ (ka == 3) != (kd == 3) then
    decide ((pComps w).length ≤ 1) && (pComps w).all fun c => decide (c < max (nComp ka) (nComp kd))
  else (pComps w).all fun c => decide (c < nComp kd)

/-- Source B's kind is admitted beside source A's (R59). -/
def kindBOk (op ka k : Nat) : Bool := if op = 0x28 then k == 1 else k == ka || k == 3

/-! ## Check 14: conversion tables (R63, R64) -/

/-- A conversion table as copied into the constant store. -/
structure CvtTable where
  src : List Nat := []
  dst : List Nat := []
  ta  : List Nat := []
  tb  : List Nat := []
  deriving DecidableEq, Repr

/-- CVT_KIND that an opcode needs. -/
def cvtKind (op : Nat) : Nat := if op = 0x30 then 1 else if op = 0x31 then 2 else 3

/-- Fields of a table header agree with the instruction (R64); a VERSION other than 1 fails as a mismatch too. (DEDUCED, log 121) -/
def cvtOk (s : State) (w ch : Nat) (a : Obj) (t : Nat) : Bool :=
  let op := iOpcode w
  let src := bits t 127 64
  let dst := bits t 191 128
  bits t 479 224 == 0 && bits t 63 40 == 0 && bits t 7 4 == 1 && bits t 3 0 == cvtKind op && bits t 23 16 == ch &&
    bits t 15 8 == chPset s ch && bits t 223 192 == (chain s ch).fp.toNat &&
    bits t 39 32 == (posOf dst).length && dst != 0 && bits t 31 24 == (posOf src).length &&
    (src != 0) == (op == 0x30 || op == 0x31) &&
    (op == 0x30 || (dst == mapOf (pPos w) && src == (if op = 0x31 then 2 ^ hLevel a.h else 0)))

/-- Residues of whole granules. -/
def unpackGrans (bs : List Byte) : List Nat := (chunks 288 bs).flatMap unpackGran

/-- Read a conversion table whole and check it. -/
def readTable (e : Env) (w ch : Nat) (a : Obj) (at_ : Nat) : Eng CvtTable := do
  let op := iOpcode w
  let ad := some (at_, false)
  let hb ← loadControl e at_ 64
  let t := ofLe hb
  let nd := bits t 39 32
  let ns := bits t 31 24
  needE (decide (nd ≤ 64 ∧ ns ≤ 64)) .tableMismatch ad
  granAligned at_ (at_ + 64)
  let body ← loadControl e (at_ + 64) (288 * (1 + cdiv (nd * max ns 1) 64))
  let s ← get
  needE (bits t 511 480 == crc32c (hb.take 60 ++ body) && cvtOk s w ch a t) .tableMismatch ad
  let ta := unpackGran (body.take 288)
  let tb := unpackGrans (body.drop 288)
  let src := posOf (bits t 127 64)
  let dst := posOf (bits t 191 128)
  let n := max src.length 1
  let len := chD s ch + chK s ch
  let badB := (List.range dst.length).any fun j =>
    decide (dst.getD j 0 < len) && !(canonical (chQ s ch (dst.getD j 0)) ((tb.drop (j * n)).take n))
  let badA := op == 0x30 && (List.range src.length).any fun i =>
    decide (src.getD i 0 < len) && decide (chQ s ch (src.getD i 0) ≤ ta.getD i 0)
  needE (!(badA || badB)) .residueRange ad
  needE (src.all fun p => bit (hMap a.h) p) .limbMap (some (a.addr, false))
  pure { src := src, dst := dst, ta := ta, tb := tb }

/-! ## Issue: every check, and step 1 of R37 -/

/-- One repeat of an instruction after its checks. -/
structure PolyJob where
  e      : Env
  r      : Nat
  w      : Nat
  op     : Nat
  ch     : Nat
  gr     : Nat
  n      : Nat
  a      : Obj
  b      : Option Obj
  old    : Obj
  d      : Obj
  kind   : Nat
  tab    : CvtTable
  scratch : Nat
  copy   : Bool
  lap    : Bool
  poison : Bool
  deriving DecidableEq, Repr

/-- The component of an operand that stands for a component of the result: a PT has only one (R59). -/
def compOf (o : Obj) (c : Nat) : Nat := if hKind o.h = 3 then 0 else c

/-- Granule rows of BCONV and TRANSPOSE. -/
def pRows (w : Nat) : List Nat := (List.range (pGranCount w)).map fun k => pGranFirst w + k

/-- Places of the granules that a repeat reads of its sources. -/
def sourcePlaces (own gr w : Nat) (tab : CvtTable) (copy : Bool) (l : List Obj) : List (Obj × Nat × Nat) :=
  let op := iOpcode w
  let gs := if usesRows op then pRows w else List.range gr
  l.flatMap fun o =>
    let cs := if op = 0x28 then [0, 1] else if copy then List.range (nComp (hKind o.h)) else pComps w
    let ps := if op = 0x30 then tab.src else if op = 0x31 then pPos w ++ [hLevel o.h] else pPos w
    cs.flatMap fun c => ps.flatMap fun p => gs.map fun g => (o, granPlace own gr o (compOf o c) p g)

/-- Places of the granules that a repeat writes. -/
def destPlaces (own gr w : Nat) (tab : CvtTable) (copy : Bool) (d : Obj) : List (Nat × Nat) :=
  let op := iOpcode w
  let gs := if usesRows op then pRows w else List.range gr
  let cs := if copy then List.range (nComp (hKind d.h)) else pComps w
  let ps := if op = 0x30 then tab.dst else pPos w
  cs.flatMap fun c => ps.flatMap fun p => gs.map fun g => granPlace own gr d (compOf d c) p g

/-- The destination's data overlaps that of a source with another header: R40 leaves the data open. (DESIGN CHOICE, log 117) -/
def dataOverlap (own gr w : Nat) (tab : CvtTable) (copy : Bool) (l : List Obj) (d : Obj) : Bool :=
  (sourcePlaces own gr w tab copy (l.filter fun o => o.addr != d.addr)).any fun x =>
    (destPlaces own gr w tab copy d).any fun y => granMeets x.2 y

/-- Check 12 (R61, R62, Table 3.9): the first operand whose layout is not admitted. -/
def layoutChecks (op : Nat) (reads : List Obj) (a d : Obj) : Eng Unit :=
  if op = 0x30 then checkObjs (reads ++ [d]) .layoutMismatch fun o => !([1, 2].contains (hLayout o.h))
  else if op = 0x38 then checkObjs [d] .layoutMismatch fun o => hLayout o.h == hLayout a.h || hLayout o.h == 3
  else checkObjs (reads ++ [d]) .layoutMismatch fun o => !([0, 2].contains (hLayout o.h))

/-- Read the headers and the table of one repeat, and make every check up to check 16. Sources may name different chain slots: the
arithmetic is that of source A's. (DEDUCED, logs 47, 122) -/
def polyChecks (e : Env) (i : Issued) (r : Nat) : Eng PolyJob := do
  let w := i.word.toNat
  let op := iOpcode w
  let part := pPart w
  needE (polyEncOk w) .reservedField
  let da := addrOf i r 0
  let ra ← readHdr e (addrOf i r 1) true
  let rb ← if hasB op then do
      let x ← readHdr e (addrOf i r 2) true
      pure [x]
    else pure []
  let rd ← readHdr e da false
  let sources := ra :: rb ++ (if readsOld op then [{ rd with source := true }] else [])
  hdrChecks e (checkedOps sources rd part) (if part then some da else none)
  let s ← get
  let reads := sources.map (·.obj)
  let a := ra.obj
  let bs := rb.map (·.obj)
  let ch := hChain a.h
  let ruled := fun (o : Obj) => (multiplies op && (o == a || bs.contains o)) || (op == 0x31 && o == a)
  checkObjs ([a].filter fun o => mapBreach s w true (ruled o) o) .limbMap fun _ => true
  checkObjs bs .limbMap fun o => mapBreach s w false (ruled o) o
  if readsOld op then checkObjs [rd.obj] .limbMap fun o => mapBreach s w false false o
  checkObjs reads .formMismatch fun o => formBreach w a o
  tagChecks reads
  levelChecks w a bs
  let kind := destKind op (hKind a.h) (hKind rd.obj.h)
  let budget ← budgetCheck e.ctx ch op kind part reads
  needE (kindAOk op (hKind a.h) && compsOk w (hKind a.h) kind) .kindMismatch (some (a.addr, false))
  checkObjs bs .kindMismatch fun o => !(kindBOk op (hKind a.h) (hKind o.h))
  if readsOld op then checkObjs [rd.obj] .kindMismatch fun o => hKind o.h != kind
  let gr := chG s ch
  let dh := if part then rd.obj.h else
    newHdr s e.ctx rd.obj.h {
      kind := kind, chain := ch, level := if levelled kind then pLast w else 0, map := normalMap (pLast w),
      scale := scaleOf s op ch a bs rd.obj, slots := hSlots a.h, budget := budget, tag := hTag a.h,
      ntts := nttsOf w kind a reads da }
  let d : Obj := { addr := da, h := dh }
  layoutChecks op reads a d
  let a ← openPlace e false gr a
  let bs ← mapE (openPlace e false gr) bs
  let old ← if readsOld op then openPlace e false gr rd.obj else pure rd.obj
  let d ← openPlace e true gr d
  if op = 0x14 then
    needE (pGalois w % 2 == 1 && decide (pGalois w < 2 ^ (chLog2N s ch + 1))) .badGalois (some (a.addr, false))
  let tab ← if polyUsesAux op then readTable e w ch a (addrOf i r 3) else pure {}
  let same := da == a.addr || bs.any fun o => o.addr == da
  let inPlaceOk := if op = 0x30 then tab.src.all fun p => !(tab.dst.contains p) else !([0x25, 0x27, 0x28, 0x2C, 0x38].contains op)
  needE (!same || inPlaceOk) .inPlace (some (da, false))
  needE (part || !(needsPart op)) .notOpen (some (da, false))
  if part then
    needE (partOk s e.ctx kind ch (if op = 0x30 then tab.dst else pPos w) rd.obj.h) .notOpen (some (da, false))
  let copy := !part && limbwise op && !(readsOld op) && !same
  pure { e := e, r := r, w := w, op := op, ch := ch, gr := gr, n := chLog2N s ch, a := a, b := bs.head?, old := old, d := d,
         kind := kind, tab := tab, scratch := if op = 0x31 then addrOf i r 2 else 0, copy := copy,
         lap := dataOverlap (moduleOf s) gr w tab copy (a :: bs) d, poison := reads.any fun o => hPoison o.h }

/-- What follows the checks: step 1 of R37, or the poison of a PART instruction's sources (R70). -/
def polyStart (j : PolyJob) : Eng Unit :=
  if pPart j.w then (if j.poison then hdrPoison j.e j.d.addr else pure ()) else startHdr j.e j.d.addr j.d.h j.poison

/-- Step 3 of R37, with POISON where a source or a granule read carries it. -/
def polyCommit (j : PolyJob) (bad : Bool) : Eng Unit :=
  if pPart j.w then pure () else commitHdr j.e j.d.addr j.d.h bad

/-! ## Granules and limbs of a job -/

/-- Lane constants of a position for a job. -/
def jPrime (j : PolyJob) (p : Nat) : Eng Prime := do pure (primeAt (← get) j.ch p)

/-- Read one granule of an operand, its residues below the moduli of the chain slot that the operand names. -/
def jRead (j : PolyJob) (o : Obj) (c p g : Nat) : Eng (List Nat × Bool) := do
  let q := (primeAt (← get) (hChain o.h) p).q
  atGran j.r p g (readGran j.e j.gr q o c p g)

/-- Write one granule of the destination; where source data overlaps it, its values are open (R40). -/
def jWrite (j : PolyJob) (c p g : Nat) (v : List Nat) (bad : Bool) : Eng Unit := do
  let v ← if j.lap then freeGran else pure v
  atGran j.r p g (writeGran j.e j.gr j.d (compOf j.d c) p g v bad)

/-- With PART, the first poison met goes into the destination's header, in one update (R70). -/
def jMark (j : PolyJob) (was bad : Bool) : Eng Unit := if pPart j.w && bad && !was then hdrPoison j.e j.d.addr else pure ()

/-- Granule positions of a limb in runs of at most 256, between which checkpoints stand (R73). -/
def runsOf (l : List Nat) : List (List Nat) := chunks 256 l

/-- Each selected component-limb of a list of components, in runs of granules. -/
def limbRuns (cs ps gs : List Nat) : List (Nat × Nat × List Nat) :=
  cs.flatMap fun c => ps.flatMap fun p => (runsOf gs).map fun r => (c, p, r)

/-- One run of granules: every operand of it is read, then every result of it is written, then a checkpoint stands (R73). `read` answers
the results for a granule position with the component each belongs to. -/
def runWork (j : PolyJob) (p : Nat) (gs : List Nat) (read : Nat → Eng (List (Nat × List Nat) × Bool)) (was : Bool) : Eng Bool := do
  let l ← mapE read gs
  let bad := l.any (·.2)
  jMark j was bad
  eachE (fun (x : Nat × List (Nat × List Nat) × Bool) =>
    eachE (fun (y : Nat × List Nat) => jWrite j y.1 p x.1 y.2 x.2.2) x.2.1) (gs.zip l)
  checkpoint
  pure (was || bad)

/-- Copy the unselected components of source A (R437). -/
def jCopy (j : PolyJob) (was : Bool) : Eng Bool :=
  if j.copy then
    foldE (fun was (x : Nat × Nat × List Nat) => runWork j x.2.1 x.2.2 (fun g => do
        let (v, bad) ← jRead j j.a x.1 x.2.1 g
        pure ([(x.1, v)], bad)) was) was
      (limbRuns ((List.range (nComp (hKind j.a.h))).filter fun c => !((pComps j.w).contains c)) (pPos j.w) (List.range j.gr))
  else pure was

/-! ## Passes (Table 3.1) -/

/-- The size takes two passes. -/
def twoPass (n : Nat) : Bool := decide (14 < n)

/-- The blocks of a pass: the whole limb; else the strided blocks, of granules equal modulo 4, or the local ones, of consecutive
granules. -/
def passBlocks (n gr : Nat) (strided : Bool) : List (List Nat) :=
  if twoPass n then
    (List.range 4).map fun b => (List.range (gr / 4)).map fun m => if strided then 4 * m + b else b * (gr / 4) + m
  else [List.range gr]

/-- Granules of a limb in their order, from granules with their index. -/
def inOrder (gr : Nat) (l : List (Nat × List Nat)) : List Nat :=
  (List.range gr).flatMap fun g => ((l.find? fun x => x.1 == g).map fun x => x.2).getD []

/-- The first of two passes over a limb: block by block it is read, and partly transformed values stand at the destination (R73), which
are free below 2^36. Answers the limb as read. (DESIGN CHOICE, log 123) -/
def firstPass (j : PolyJob) (strided : Bool) (c p : Nat) (was : Bool) : Eng (List Nat × Bool) := do
  let r ← foldE (fun (st : List (Nat × List Nat) × Bool) gs => do
    let l ← mapE (fun g => jRead j j.a c p g) gs
    let bad := l.any (·.2)
    jMark j st.2 bad
    eachE (fun g => do
      let v ← freeGran
      jWrite j c p g v bad) gs
    checkpoint
    pure (st.1 ++ gs.zip (l.map (·.1)), st.2 || bad)) ([], was) (passBlocks j.n j.gr strided)
  pure (inOrder j.gr r.1, r.2)

/-- The second pass: block by block the destination is read again, for its poison, and the transformed limb written. -/
def secondPass (j : PolyJob) (strided : Bool) (c p : Nat) (v : List Nat) (was : Bool) : Eng Bool :=
  foldE (fun was gs => do
    let l ← mapE (fun g => atGran j.r p g (readRaw j.e j.gr j.d c p g)) gs
    let bad := l.any (·.2)
    jMark j was bad
    eachE (fun g => jWrite j c p g ((granules v).getD g []) (was || bad)) gs
    checkpoint
    pure (was || bad)) was (passBlocks j.n j.gr strided)

/-- The passes of limbs in the order of R56: the first pass of each limb goes before the second of the limb ahead of it. -/
def passesAfter {α : Type} (x : α) : List α → List (Bool × α)
  | [] => [(true, x)]
  | y :: r => (false, y) :: (true, x) :: passesAfter y r

/-- Every pass of a list of limbs: false for a first pass, true for a second. -/
def passOrder {α : Type} : List α → List (Bool × α)
  | [] => []
  | x :: r => (false, x) :: passesAfter x r

/-- Work on every selected limb as a whole: NTT_FWD, NTT_INV, AUTO. A limb's results carry one poison mark (R423). `strided` says that
the strided pass comes first. (DESIGN CHOICE, log 123) -/
def limbWork (strided : Bool) (f : PolyJob → Prime → Nat → List Nat → List Nat) (j : PolyJob) : Eng Bool := do
  let limbs := (pComps j.w).flatMap fun c => (pPos j.w).map fun p => (c, p)
  if twoPass j.n then do
    let r ← foldE (fun (st : List (List Nat × Bool) × Bool) (x : Bool × Nat × Nat) => do
      let (second, c, p) := x
      if second then do
        let v := st.1.headD ([], false)
        let m ← jPrime j p
        let bad ← secondPass j (!strided) c p (f j m c v.1) v.2
        pure (st.1.drop 1, st.2 || bad)
      else do
        let v ← firstPass j strided c p st.2
        pure (st.1 ++ [v], st.2 || v.2)) ([], j.poison) (passOrder limbs)
    pure r.2
  else
    foldE (fun was (x : Nat × Nat) => do
      let m ← jPrime j x.2
      let l ← mapE (fun g => jRead j j.a x.1 x.2 g) (List.range j.gr)
      let bad := l.any (·.2)
      jMark j was bad
      eachE (fun (y : Nat × List Nat) => jWrite j x.1 x.2 y.1 y.2 bad)
        ((List.range j.gr).zip (granules (f j m x.1 (l.flatMap (·.1)))))
      checkpoint
      pure (was || bad)) j.poison limbs

/-- Work on every selected granule by position, from source A, source B and the old destination as read. (DEDUCED, log 48) -/
def pointWork (f : PolyJob → Prime → Nat → List Nat → List Nat → List Nat → List Nat) (j : PolyJob) : Eng Bool :=
  foldE (fun was (x : Nat × Nat × List Nat) => do
    let (c, p, gs) := x
    let m ← jPrime j p
    runWork j p gs (fun g => do
      let (a, pa) ← jRead j j.a c p g
      let (b, pb) ← match j.b with
        | some o => jRead j o (compOf o c) p g
        | none => pure ([], false)
      let (d, pd) ← if readsOld j.op then jRead j j.old c p g else pure ([], false)
      pure ([(c, f j m p a b d)], pa || pb || pd)) was) j.poison
    (limbRuns (pComps j.w) (pPos j.w) (List.range j.gr))

/-- The scalar c_p of a CVT_KIND 2 or 3 table. -/
def constOf (j : PolyJob) (p : Nat) : Nat := j.tab.tb.getD (limbIndex (mapOf j.tab.dst) p) 0

/-- Add or subtract, by MODE bit 0. -/
def addSub (j : PolyJob) (m : Prime) (d x : Nat) : Nat := if pMode j.w then submod m d x else addmod m d x

/-! ## What each opcode computes (R54, R57, R59, R60, R62, R66) -/

/-- A whole instruction of the engine: every check, step 1, the data, the copy of R437, the commit. -/
def polyRun (data : PolyJob → Eng Bool) (c : Nat) (i : Issued) (r : Nat) : Eng (List SealMsg) := do
  let j ← polyChecks (envOf c .poly i) i r
  polyStart j
  let p ← data j
  let q ← jCopy j p
  polyCommit j q
  pure []

/-- NTT_FWD. -/
def dataNttFwd : PolyJob → Eng Bool := limbWork true fun j m _ v => nttFwdLimb m j.n v
/-- NTT_INV. -/
def dataNttInv : PolyJob → Eng Bool := limbWork false fun j m _ v => nttInvLimb m j.n (pMode j.w) v
/-- AUTO. -/
def dataAuto : PolyJob → Eng Bool :=
  limbWork true fun j m c v => if hNtt j.a.h c then autoEval j.n (pGalois j.w) v else autoCoeff m j.n (pGalois j.w) v
/-- PW_ADD. -/
def dataPwAdd : PolyJob → Eng Bool := pointWork fun _ m _ a b _ => (a.zip b).map fun x => addmod m x.1 x.2
/-- PW_SUB. -/
def dataPwSub : PolyJob → Eng Bool := pointWork fun _ m _ a b _ => (a.zip b).map fun x => submod m x.1 x.2
/-- PW_NEG. -/
def dataPwNeg : PolyJob → Eng Bool := pointWork fun _ m _ a _ _ => a.map fun x => negmod m x
/-- PW_MUL. -/
def dataPwMul : PolyJob → Eng Bool := pointWork fun _ m _ a b _ => (a.zip b).map fun x => mulmod m x.1 x.2
/-- PW_MAC. -/
def dataPwMac : PolyJob → Eng Bool :=
  pointWork fun j m _ a b d => (d.zip (a.zip b)).map fun x => addSub j m x.1 (mulmod m x.2.1 x.2.2)
/-- PW_MULC. -/
def dataPwMulc : PolyJob → Eng Bool := pointWork fun j m p a _ _ => a.map fun x => mulmod m x (constOf j p)
/-- PW_MACC. -/
def dataPwMacc : PolyJob → Eng Bool :=
  pointWork fun j m p a _ d => (d.zip a).map fun x => addSub j m x.1 (mulmod m x.2 (constOf j p))

/-- The three outputs of TENSOR. -/
def tensorOut (m : Prime) (a0 a1 b0 b1 : List Nat) (c : Nat) : List Nat :=
  let mul := fun (x y : List Nat) => (x.zip y).map fun z => mulmod m z.1 z.2
  if c = 0 then mul a0 b0
  else if c = 1 then ((mul a0 b1).zip (mul a1 b0)).map fun z => addmod m z.1 z.2
  else mul a1 b1

/-- TENSOR: the outputs that COMP_MASK selects are written. (DESIGN CHOICE, log 120) -/
def dataTensor (j : PolyJob) : Eng Bool :=
  foldE (fun was (x : Nat × List Nat) => do
    let (p, gs) := x
    let m ← jPrime j p
    let b := j.b.getD j.a
    runWork j p gs (fun g => do
      let (a0, q0) ← jRead j j.a 0 p g
      let (a1, q1) ← jRead j j.a 1 p g
      let (b0, q2) ← jRead j b 0 p g
      let (b1, q3) ← jRead j b 1 p g
      pure ((pComps j.w).map fun c => (c, tensorOut m a0 a1 b0 b1 c), q0 || q1 || q2 || q3)) was) j.poison
    ((pPos j.w).flatMap fun p => (runsOf (List.range j.gr)).map fun r => (p, r))

/-- Tiles that the array forms for one granule row of a basis conversion to `t` positions: 64 rows of coefficients by seven columns a
position, in tiles of 128 columns (R65, R137). -/
def bconvTiles (t : Nat) : Nat := cdiv (7 * t) 128

/-- BCONV: one granule row after another (R60, R61). -/
def dataBconv (j : PolyJob) : Eng Bool := do
  let src ← mapE (jPrime j) j.tab.src
  let dst ← mapE (jPrime j) j.tab.dst
  foldE (fun was (x : Nat × Nat) => do
    let (c, g) := x
    let l ← mapE (fun p => jRead j j.a (compOf j.a c) p g) j.tab.src
    let bad := l.any (·.2)
    jMark j was bad
    let out := bconvRow src dst j.tab.ta j.tab.tb (l.map (·.1))
    act (addTotal 0x3300 3 (bconvTiles j.tab.dst.length))
    eachE (fun (y : Nat × List Nat) => jWrite j c y.1 g y.2 bad) (j.tab.dst.zip out)
    checkpoint
    pure (was || bad)) j.poison ((pComps j.w).flatMap fun c => (pRows j.w).map fun g => (c, g))

/-- TRANSPOSE (R62). -/
def dataTranspose (j : PolyJob) : Eng Bool :=
  foldE (fun was (x : Nat × Nat × List Nat) => runWork j x.2.1 x.2.2 (fun g => do
      let (v, bad) ← jRead j j.a x.1 x.2.1 g
      pure ([(x.1, v)], bad)) was) j.poison (limbRuns (pComps j.w) (pPos j.w) (pRows j.w))

/-- Write a granule of the scratch area: its contents are left open (R66). (DESIGN CHOICE, log 123) -/
def scratchPut (j : PolyJob) (k g : Nat) (bad : Bool) : Eng Unit := do
  let v ← freeGran
  atGran j.r (hLevel j.a.h) g (do
    let a := j.scratch + (k * j.gr + g) * 288
    granAligned j.a.addr a
    store j.e a (packGran v) bad)

/-- Step 1 of R66: the dropped limb's coefficients, by way of the scratch area. -/
def rescaleScratch (j : PolyJob) (k c : Nat) (was : Bool) : Eng (List Nat × Bool) := do
  let l := hLevel j.a.h
  let m ← jPrime j l
  let r ← foldE (fun (st : List (Nat × List Nat) × Bool) gs => do
    let x ← mapE (fun g => jRead j j.a c l g) gs
    let bad := x.any (·.2)
    jMark j (was || st.2) bad
    eachE (fun g => scratchPut j k g (st.2 || bad)) gs
    checkpoint
    pure (st.1 ++ gs.zip (x.map (·.1)), st.2 || bad)) ([], false) (passBlocks j.n j.gr false)
  if twoPass j.n then
    eachE (fun gs => do
      eachE (fun g => scratchPut j k g r.2) gs
      checkpoint) (passBlocks j.n j.gr true)
  pure (nttInvLimb m j.n false (inOrder j.gr r.1), r.2)

/-- The checkpoints of steps 2 and 3 of R66, whose values stay inside the engine (R73). -/
def rescaleYields (j : PolyJob) : Eng Unit :=
  eachE (fun (_ : List Nat) => checkpoint) (runsOf (List.range j.gr) ++ passBlocks j.n j.gr true ++
    (if twoPass j.n then passBlocks j.n j.gr false else []))

/-- RESCALE (R66). -/
def dataRescale (j : PolyJob) : Eng Bool := do
  let ql := (← jPrime j (hLevel j.a.h)).q
  let cs := pComps j.w
  foldE (fun was (kc : Nat × Nat) => do
    let (k, c) := kc
    let (v, bad0) ← rescaleScratch j k c was
    foldE (fun was p => do
      let m ← jPrime j p
      let t := granules (nttFwdLimb m j.n (v.map fun y => centredLift ql m.q y))
      rescaleYields j
      foldE (fun was gs => runWork j p gs (fun g => do
          let (x, bad) ← jRead j j.a c p g
          pure ([(c, (x.zip (t.getD g [])).map fun y => mulmod m (submod m y.1 y.2) (constOf j p))], bad0 || bad)) was)
        was (runsOf (List.range j.gr))) (was || bad0) (pPos j.w)) j.poison ((List.range cs.length).zip cs)

/-! ## OPEN and COMMIT (R71) -/

/-- The checks of OPEN; answers the header to write. (DEDUCED, log 44) -/
def openChecks (c : Nat) (i : Issued) (r : Nat) : Eng (Option (Nat × Nat)) := do
  let e := envOf c .poly i
  needE (polyEncOk i.word.toNat) .reservedField
  let im ← readHdr e (addrOf i r 1) true
  let d ← readHdr e (addrOf i r 0) false
  let h := im.obj.h
  let ad := some (im.obj.addr, false)
  needE (!im.poison) .poisonControl ad
  needE (hdrEncOk h) .reservedField ad
  let s ← get
  needE (slotUsable s (hChain h)) .chainAbsent ad
  needE (fpOk s h) .chainMismatch ad
  needE (!(holdsObject d) || hCtx d.obj.h == e.ctx) .contextMismatch (some (d.obj.addr, false))
  needE (limbMapOk (chD s (hChain h)) (chK s (hChain h)) h) .limbMap ad
  let h := setBits (setBits h 144 144 0) 139 128 e.ctx
  pure (some (d.obj.addr, if budgeted (hKind h) then h else setBits h 63 48 0xFFFF))

/-- The checks of COMMIT: the header found must hold an object of the context (R435); one already valid is not written again.
(DEDUCED, log 45) -/
def commitChecks (c : Nat) (i : Issued) (r : Nat) : Eng (Option (Nat × Nat)) := do
  let e := envOf c .poly i
  needE (polyEncOk i.word.toNat) .reservedField
  let d ← readHdr e (addrOf i r 0) false
  hdrChecks e [d] none
  pure (if hValid d.obj.h then none else some (d.obj.addr, setBits d.obj.h 144 144 1))

/-- An instruction that writes a header alone. -/
def headerRun (c : Nat) (i : Issued) (checks : Eng (Option (Nat × Nat))) : Eng (List SealMsg) := do
  match ← checks with
  | some (a, h) => writeHdr (envOf c .poly i) a h
  | none => pure ()
  pure []

/-- OPEN. -/
def polyOpen (c : Nat) (i : Issued) (r : Nat) : Eng (List SealMsg) := headerRun c i (openChecks c i r)

/-- COMMIT. -/
def polyCommitObj (c : Nat) (i : Issued) (r : Nat) : Eng (List SealMsg) := headerRun c i (commitChecks c i r)

/-- A row of the polynomial engine. -/
def polyRow (c op : Nat) (run : Nat → Issued → Nat → Eng (List SealMsg)) (s : State) : State :=
  runEngine c .poly op (run c) s

/-- BCONV as a row: it waits for its claim on the array (R65). -/
def bconvRowCmd (c : Nat) (s : State) : State :=
  match readyHead s c .poly 0x30 with
  | some i => if !(begun i) && arrayClosed s c i.serial then s else polyRow c 0x30 (polyRun dataBconv) s
  | none => s

end Sys2Proof.Machine
end

