-- ==== Sys2Proof/Machine/KeyMac.lean ====
section
/-! DEFINITION. KEY_MAC (R92 to R95): its checks against the stream, and the application of one parcel to every repeat. -/

namespace Sys2Proof.Machine

/-- Granules of a block (R80). -/
def blockGr (gr : Nat) : Nat := min 64 gr

/-- The parcels a KEY_MAC consumes, as position and block (R93). -/
def kmPlan (w gr : Nat) : List (Nat × Nat) :=
  (pPos w).flatMap fun p => (List.range (gr / blockGr gr)).map fun b => (p, b)

/-- Checks 1 to 16 of every repeat. -/
def kmIssue (c : Nat) (i : Issued) : Eng KmOps := do
  let e := envOf c .poly i
  needE (!(core (← get) c).relay.left) .streamLeft
  let js ← mapE (polyChecks e i) (List.range (iRepM1 i.word.toNat + 1))
  pure { reps := js.map fun j => (j.a, j.d, false) }

/-- Checks 17 to 22 (Table 4.7), each over every repeat. -/
def kmStream (c : Nat) (i : Issued) (k : KmOps) : Eng Unit := do
  let e := envOf c .poly i
  let w := i.word.toNat
  let x ← streamFor e false
  let h := x.header.toNat
  let s ← get
  let ds := k.reps.map (·.2.1)
  checkObjs ds .chainMismatch fun d => hPset d.h != hPset h || hFp d.h != hFp h
  checkObjs ds .keyMismatch fun d => hTag d.h != hTag h
  let ext := extendedMap (chD s (hChain h)) (chK s (hChain h)) (hLevel h)
  checkObjs (k.reps.flatMap fun r => [r.2.1, r.1]) .limbMap fun o => hMap o.h != ext
  needE (decide (k.reps.length ≤ 4)) .kindMismatch
  needE (x.order || pFirst w == pLast w) .streamOrder

/-- A poison met for a destination goes into its header, once (R70, R95). -/
def kmMark (e : Env) (was bad : Bool) (d : Obj) : Eng Unit := if bad && !was then hdrPoison e d.addr else pure ()

/-- The checks against the stream, then the poison of the digits' own headers (R70, R92). -/
def kmStart (c : Nat) (i : Issued) (k : KmOps) : Eng KmOps := do
  kmStream c i k
  let e := envOf c .poly i
  eachE (fun (r : Obj × Obj × Bool) => kmMark e false (hPoison r.1.h) r.2.1) k.reps
  pure { k with checked := true, reps := k.reps.map fun r => (r.1, r.2.1, hPoison r.1.h) }

/-- Apply one block of a parcel to one repeat: what it needs of the digit and of the accumulator is read, then d0 ± a·k0 and d1 ± a·k1
are written (Table 3.4, R93). Data that overlaps is left open (R40). -/
def kmApply (e : Env) (w r gr ch p g0 : Nat) (x : Parcel) (a d : Obj) (was : Bool) : Eng Bool := do
  let s ← get
  let m := primeAt s ch p
  let f := fun (old k : Nat) => if pMode w then submod m old k else addmod m old k
  let ks := [(chunks 288 x.k0).map unpackGran, (chunks 288 x.k1).map unpackGran]
  let lap := dataOverlap (moduleOf s) gr (setBits w 30 28 3) {} false [a] d
  let l ← mapE (fun t => do
    let g := g0 + t
    let (va, pa) ← atGran r p g (readGran e gr (primeAt s (hChain a.h) p).q a 0 p g)
    mapE (fun c => do
      let pr := (va.zip ((ks.getD c []).getD t [])).map fun y => mulmod m y.1 y.2
      let (vd, pd) ← if x.init then pure (List.replicate 64 0, false)
        else atGran r p g (readGran e gr (primeAt s (hChain d.h) p).q d c p g)
      pure (c, g, (vd.zip pr).map fun y => f y.1 y.2, pa || pd || x.poison)) [0, 1]) (List.range (blockGr gr))
  let bad := x.poison || l.flatten.any fun y => y.2.2.2
  kmMark e was bad d
  eachE (fun (y : Nat × Nat × List Nat × Bool) => do
    let v ← if lap then freeGran else pure y.2.2.1
    atGran r p y.2.1 (writeGran e gr d y.1 p y.2.1 v y.2.2.2)) l.flatten
  pure (was || bad)

/-- Take the next parcel and apply it to every repeat; answers the progress, and whether it was the last. A parcel out of its place by
position, block, key or digit fails. (DEDUCED, log 124) -/
def kmParcel (c : Nat) (i : Issued) (k : KmOps) : Eng (KmOps × Bool) := do
  let e := envOf c .poly i
  let w := i.word.toNat
  let _ ← streamFor e false
  let x ← nextParcel e
  let s ← get
  let d0 := (k.reps.head?.map fun r => r.2.1).getD { addr := 0, h := 0 }
  let ch := hChain ((k.reps.head?.map (·.1.h)).getD 0)
  let gr := chG s ch
  let plan := kmPlan w gr
  let (p, b) := plan.getD k.done (0, 0)
  let g0 := b * blockGr gr
  let ad := some (d0.addr, false)
  atGran 0 p g0 (needE (x.pos == p && x.block == b && (b == 0 || (x.key == k.key && x.beta == k.beta))) .streamOrder ad)
  let q := (primeAt s ch p).q
  let oks := (((chunks 288 x.k0).map unpackGran).zip ((chunks 288 x.k1).map unpackGran)).map fun y => canonical q y.1 && canonical q y.2
  let t := (oks.takeWhile fun ok => ok).length
  atGran 0 p (g0 + t) (needE (oks.all fun ok => ok) .residueRange ad)
  let was ← mapE (fun (r : Nat × (Obj × Obj × Bool)) => kmApply e w r.1 gr ch p g0 x r.2.1 r.2.2.1 r.2.2.2)
    ((List.range k.reps.length).zip k.reps)
  act (parcelApplied c)
  pure ({ k with done := k.done + 1, key := x.key, beta := x.beta, reps := (k.reps.zip was).map fun y => (y.1.1, y.1.2.1, y.2) },
    decide (plan.length ≤ k.done + 1))

/-- A KEY_MAC that faults while its stream runs leaves the stream (R94); against a void it leaves nothing (R86). (DEDUCED, log 49) -/
def kmFault (c : Nat) (i : Issued) (f : FaultInfo) (s : State) : State :=
  let p := (core s c).relay
  endFault c .poly i 0 f (if exhausted p || voidCurrent p then s else leaveStream c s)

/-- Hold a KEY_MAC with its progress, at a checkpoint (R73). -/
def kmHold (c : Nat) (k : KmOps) (s : State) : State :=
  setHead c .poly (fun i => { i with km := some k, journal := [] }) { s with wrote := [], wroteFar := [] }

/-- One part of a KEY_MAC's work: it goes on with what follows, faults, or waits. -/
def kmStep {α : Type} (c : Nat) (i : Issued) (x : Eng α) (next : α → State → State) (s : State) : State :=
  match runFrom i.journal false x s with
  | .ok v s => next v s
  | .error (.fault f, _) s => kmFault c i f s
  | .error (stop, j) s => holdHead c .poly i 0 j stop s

/-- One step of a KEY_MAC whose operands are checked: the checks against the stream, or one parcel. -/
def kmAdvance (c : Nat) (i : Issued) (k : KmOps) (s : State) : State :=
  if k.checked then
    kmStep c i (kmParcel c i k) (fun r s =>
      if r.2 then endOk c .poly i [] ((List.range (iRepM1 i.word.toNat + 1)).foldl (fun s _ => repeatSignal c i s) s)
      else kmHold c r.1 s) s
  else kmStep c i (kmStart c i k) (fun k s => kmHold c k s) s

/-- KEY_MAC: the head of the queue is checked, and advances by one step. -/
def keyMacRow (c : Nat) (s : State) : State :=
  match readyHead s c .poly 0x2C with
  | none => s
  | some i =>
    match i.km with
    | some k => kmAdvance c i k s
    | none => kmStep c i (kmIssue c i) (fun k s => kmHold c k s) s

end Sys2Proof.Machine
end

