-- ==== Sys2Proof/Machine/Courier.lean ====
section
/-! DEFINITION. The courier (chapter 4) and weight streams (R281): requests, the checks of Table 4.6, parcels, the relay rounds, stalls. -/

namespace Sys2Proof.Machine

/-! ## Requests (R81, R82, R281) -/

/-- Requests an engine holds, the one being streamed included (ENG_QUEUE). (DEDUCED, log 52) -/
def engHeld (e : StreamEngine) : Nat := e.queue.length + b2n (!(e.todo.isEmpty) || !(e.out.isEmpty))

/-- Reserved bits of a KEY_STREAM, and its mask (Table 4.4). -/
def keyStreamEncOk (w : Nat) : Bool :=
  bits w 49 48 == 0 && bits w 42 32 == 0 && bits w 15 0 == 0 && bits w 31 16 != 0

/-- Check 1 of R279 for a RELAY_W. -/
def relayWEncOk (w : Nat) : Bool := bits w 31 24 == 0 && bits w 23 0 == 0 && bits w 49 48 != 3

/-- Hand a request to the round's engine, or wait for room. -/
def submit (weight : Bool) (ok : Nat → Bool) (c : Nat) (i : Issued) (r : Nat) : Eng (List SealMsg) := do
  needE (ok i.word.toNat) .reservedField
  let s ← get
  if s.replay.isEmpty && decide (4 ≤ engHeld (engine s (roundOf c))) then throw .stall
  act (setEngine (roundOf c) (fun e => { e with queue := e.queue ++ [{ weight := weight, core := c, instr := { i with progress := r } }] }))
  pure []

/-- KEY_STREAM. -/
def keyStreamRow (c : Nat) (s : State) : State := runEngine c .courier 1 (submit false keyStreamEncOk c) s

/-- RELAY_W. -/
def relayWRow (c : Nat) (s : State) : State := runEngine c .move 8 (submit true relayWEncOk c) s

/-! ## The key list and the key-digit headers (Tables 4.2, 4.5) -/

/-- A key-list entry: its address, KEY_ADDR, ROLE and GALOIS. -/
structure KeyEntry where
  at_    : Nat
  key    : Nat
  role   : Nat
  galois : Nat
  deriving DecidableEq, Repr

/-- ROLE of a digit header. -/
def kdRole (w : Nat) : Nat := bits w 25 24
/-- SEEDED of a digit header. -/
def kdSeeded (w : Nat) : Bool := bit w 26
/-- POS_MAP of a digit header. -/
def kdMap (w : Nat) : Nat := bits w 191 128
/-- GALOIS of a digit header. -/
def kdGalois (w : Nat) : Nat := bits w 48 32

/-- A record as read: its key, digit, address and header. -/
structure KeyRec where
  entry : KeyEntry
  beta  : Nat
  at_   : Nat
  w     : Nat
  first : Nat
  deriving DecidableEq, Repr

/-- Stop at the first element of a list that fails, naming an address. -/
def firstFail {α : Type} (l : List α) (r : Reason) (at_ : α → Nat) (bad : α → Bool) : Eng Unit :=
  needE (l.find? bad).isNone r ((l.find? bad).map fun x => (at_ x, false))

/-- Check 1: the key list. -/
def readKeyList (e : Env) (a n : Nat) : Eng (List KeyEntry) := do
  needE (a % 16 == 0) .alignment (some (a, false))
  let bs ← loadControl e a (16 * n)
  let ws := (List.range n).map fun k => (a + 16 * k, ofLe ((bs.drop (16 * k)).take 16))
  firstFail ws .reservedField (·.1) fun x =>
    bits x.2 127 68 != 0 || bits x.2 50 50 != 0 || (bits x.2 67 51 != 0 && bits x.2 49 48 != 1)
  firstFail ws .alignment (·.1) fun x => bits x.2 47 0 % 64 != 0
  firstFail ws .badGalois (·.1) fun x => bits x.2 49 48 == 1 && bits x.2 67 51 % 2 == 0
  pure (ws.map fun x => { at_ := x.1, key := bits x.2 47 0, role := bits x.2 49 48, galois := bits x.2 67 51 })

/-- Check 2: the reference header. -/
def readReference (e : Env) (a : Nat) (ks : List KeyEntry) : Eng Nat := do
  let o ← readHdr e a true
  let h := o.obj.h
  let ad := some (a, false)
  needE (!o.poison) .poisonControl ad
  needE (hdrCheckOk h) .headerCheck ad
  needE (hdrEncOk h) .reservedField ad
  needE (hKind h == 1) .kindMismatch ad
  let s ← get
  needE (slotUsable s (hChain h)) .chainAbsent ad
  needE (hCtx h == e.ctx) .contextMismatch ad
  needE (decide (hLevel h < chD s (hChain h)) && hMap h == extendedMap (chD s (hChain h)) (chK s (hChain h)) (hLevel h)) .limbMap ad
  firstFail ks .badGalois (·.at_) fun k => k.role == 1 && decide (2 ^ (chLog2N s (hChain h) + 1) ≤ k.galois)
  pure h

/-- α of R75. -/
def alphaOf (s : State) (ch : Nat) : Nat := cdiv (chD s ch) (chDigits s ch)

/-- Active digits at a level (R75). -/
def activeDigits (s : State) (ch l : Nat) : List Nat :=
  (List.range (chDigits s ch)).filter fun b => decide (alphaOf s ch * b ≤ l)

/-- The stride of a key's records (R77). -/
def keyStride (gr w : Nat) : Nat := 64 + (posOf (kdMap w)).length * (if kdSeeded w then 1 else 2) * 288 * gr

/-- The last digit of which a key holds a record (R77). -/
def lastRecord (s : State) (ch w : Nat) : Option Nat :=
  ((List.range (chDigits s ch)).filter fun b =>
    decide (alphaOf s ch * b < chD s ch) && bit (kdMap w) (alphaOf s ch * b)).getLast?

/-- Count n key bytes as read from HBM, where their address lies there (ENG_KEY_BYTES). -/
def keyBytes (r a n : Nat) : Eng Unit :=
  act (setEngine r (fun e => { e with bytes := e.bytes + BitVec.ofNat 64 (if a < 2 ^ 40 then n else 0) }))

/-- Check 3 on one record: its header as read. -/
def readRecord (e : Env) (r a : Nat) : Eng Nat := do
  let w ← loadWord e a 64
  keyBytes r a 64
  needE (checkOk 64 w) .headerCheck (some (a, false))
  pure w

/-- The records of one key that the checks read: record 0, then those of the other active digits it holds. A record that POS_MAP says is
absent is not read: the key fails at check 9. (DEDUCED, log 125) -/
def readKeyRecs (e : Env) (r gr ch : Nat) (act : List Nat) (k : KeyEntry) : Eng (List KeyRec) := do
  let w ← readRecord e r k.key
  let s ← get
  let stride := keyStride gr w
  let last := (lastRecord s ch w).getD 0
  let more ← mapE (fun b => do
    let a := k.key + b * stride
    let v ← readRecord e r a
    pure ({ entry := k, beta := b, at_ := a, w := v, first := w } : KeyRec)) ((act.drop 1).filter fun b => decide (b ≤ last))
  pure ({ entry := k, beta := 0, at_ := k.key, w := w, first := w } :: more)

/-- Check 4 on a header's own fields. (DEDUCED, log 54) -/
def recEncOk (w : Nat) : Bool :=
  bits w 3 0 == 0xA && bits w 7 4 == 1 && bits w 63 49 == 0 && bits w 31 27 == 0 && bits w 19 19 == 0 &&
    (kdSeeded w || bits w 479 224 == 0) && (kdRole w == 1 || kdGalois w == 0)

/-- Body descriptor encodings (Table 5.11). -/
def bodyEncOk (w : Nat) : Bool :=
  let n := bits w 111 96
  bits w 479 144 == 0 && bits w 63 48 == 0 && bits w 143 128 == 3 && n % 2 == 0 && decide (2 ≤ n ∧ n ≤ 512) &&
    bits w 127 112 == n / 2 && bits w 95 64 == n / 2 * 221184 && bits w 47 0 % 64 == 0

/-- Check 4 on one record: header fields, and for ROLE 3 the body descriptor, which is answered. (DEDUCED, log 54) -/
def checkRecord (e : Env) (r : Nat) (k : KeyRec) : Eng Nat := do
  needE (recEncOk k.w) .reservedField (some (k.at_, false))
  if kdRole k.w = 3 then do
    let a := k.at_ + 64
    let b ← loadWord e a 64
    keyBytes r a 64
    needE (checkOk 64 b) .headerCheck (some (a, false))
    needE (bodyEncOk b) .reservedField (some (a, false))
    pure b
  else pure 0

/-- Check 7 on one record. -/
def recFormatOk (s : State) (ch : Nat) (k : KeyRec) : Bool :=
  bits k.w 18 16 == k.beta && bits k.w 23 20 == chDigits s ch &&
    setBits (setBits k.w 18 16 0) 511 480 0 == setBits (setBits k.first 18 16 0) 511 480 0 &&
    !(kdSeeded k.w && decide (2 ≤ kdRole k.w)) && (kdRole k.w != 3 || (bits k.w 23 20 == 2 && kdMap k.w == 3))

/-! ## Parcel sequences (R84, R119) -/

/-- A parcel as a label, its payload to come. -/
def label (stream : BitVec 16) (key β p b : Nat) (init : Bool) : Parcel :=
  { stream := stream, key := key, beta := β, pos := p, block := b, init := init, poison := false, k0 := [], k1 := [] }

/-- The labels of one key of ROLE 0 to 2. -/
def keyLabels (n : BitVec 16) (w key gr map : Nat) (act : List Nat) : List Parcel :=
  let order := bit w 44
  let blocks := List.range (gr / blockGr gr)
  let low := act.headD 0
  let one := fun (β p : Nat) => blocks.map fun b => label n key β p b (bit w 43 && β == (if order then 0 else low))
  if order then act.flatMap fun β => (posOf map).flatMap fun p => one β p
  else (posOf map).flatMap fun p => act.flatMap fun β => one β p

/-- The labels of one key of ROLE 3. -/
def gateLabels (n : BitVec 16) (key steps : Nat) : List Parcel :=
  (List.range (24 * steps)).map fun k =>
    label n key (k % 24 / 12) (k % 2) ((6 * (k / 24) + 2 * (k % 12 / 4) + k % 4 / 2) % 256) false

/-- The labels of a KEY_STREAM in order, from its word, the header of its accumulator and what its checks listed of each key: address,
header, two body addresses, steps. -/
def streamLabels (s : State) (n : BitVec 16) (w h : Nat) (listing : List Nat) : List Parcel :=
  let ch := hChain h
  (List.range (listing.length / 5)).flatMap fun k =>
    let kw := listing.getD (5 * k + 1) 0
    if kdRole kw = 3 then gateLabels n k (listing.getD (5 * k + 4) 0)
    else keyLabels n w k (chG s ch) (hMap h) (activeDigits s ch (hLevel h))

/-- Everything a KEY_STREAM's checks give: descriptor, labels, and per key its address, header and two bodies. -/
structure StreamPlan where
  desc    : StreamDesc
  todo    : List Parcel
  listing : List Nat
  deriving DecidableEq, Repr

/-- The checks of Table 4.6. -/
def keyChecks (e : Env) (r : Nat) (n : BitVec 16) (i : Issued) : Eng StreamPlan := do
  let w := i.word.toNat
  let ks ← readKeyList e (addrOf i i.progress 0) (bits w 47 45 + 1)
  let ref := addrOf i i.progress 1
  let h ← readReference e ref ks
  let s ← get
  let ch := hChain h
  let gr := chG s ch
  let act := activeDigits s ch (hLevel h)
  let groups ← mapE (readKeyRecs e r gr ch act) ks
  let recs := groups.flatten
  let bodies ← mapE (checkRecord e r) recs
  let s ← get
  firstFail recs .chainMismatch (·.at_) fun k =>
    bits k.w 15 8 != hPset h || bits k.w 223 192 != hFp h || !(fpOk s h)
  firstFail recs .keyMismatch (·.at_) fun k => bits k.w 127 64 == 0 || bits k.w 127 64 != hTag h
  firstFail recs .keyFormat (·.at_) fun k => !(recFormatOk s ch k)
  firstFail recs .keyRole (·.at_) fun k => kdRole k.w != k.entry.role || kdGalois k.w != k.entry.galois
  let firsts := recs.filter fun k => k.beta == 0
  firstFail firsts .limbMap (·.at_) fun k =>
    (posOf (hMap h)).any (fun p => !(bit (kdMap k.w) p)) ||
      (match lastRecord s ch k.w with
       | none => true
       | some b => act.any fun x => decide (b < x))
  let body := fun (k : KeyRec) (β : Nat) =>
    ((recs.zip bodies).find? fun x => x.1.entry == k.entry && x.1.beta == β).elim 0 (·.2)
  let listing := firsts.flatMap fun k => [k.at_, k.w, bits (body k 0) 47 0, bits (body k 1) 47 0, bits (body k 0) 127 112]
  let todo := streamLabels s n w h listing
  let b0 := (firsts.head?.map fun k => body k 0).getD 0
  pure {
    desc := { weight := false, ctx := e.ctx, stream := n, void := none, header := BitVec.ofNat 512 h,
              params := [(firsts.head?.map fun k => kdRole k.w).getD 0, bits b0 111 96],
              mask := BitVec.ofNat 16 (bits w 31 16), order := bit w 44, parcels := todo.length }
    todo := todo
    listing := listing }

/-- The checks of a weight stream: B's descriptor (R281). (DEDUCED, log 53) -/
def weightChecks (e : Env) (n : BitVec 16) (i : Issued) : Eng StreamPlan := do
  let w := i.word.toNat
  let a := addrOf i i.progress 1
  let t ← openTensor e { elems := [0, 1, 2, 3, 4, 5, 6, 7, 8, 9], inner := some 1 } a
  let rg := boundRange (moduleOf (← get)) false t
  needE (dRank t.w == 2 && decide (0 ≤ rg.1 ∧ rg.2 ≤ (2 ^ 40 : Nat))) .descNotAdmitted (some (a, false))
  let shape := bits w 49 48
  let k := dExtent t.w 1
  let nn := dExtent t.w 0
  let (rb, sc) := weightRow shape (dElem t.w)
  let tiles := cdiv nn (tileCols shape (dElem t.w == 7))
  let per := (weightParcels k rb sc).length
  let todo := (List.range tiles).flatMap fun nt => (List.range per).map fun x => label n 0 0 nt x false
  pure {
    desc := { weight := true, ctx := e.ctx, stream := n, void := none, header := 0, params := [shape, k, nn, dElem t.w],
              mask := BitVec.ofNat 16 (bits w 47 32), order := false, parcels := todo.length }
    todo := todo
    listing := [t.w, b2n t.scale.isSome, t.scale.getD 0] }

/-! ## STREAM_START -/

/-- The core at the head of a round. -/
def firstCore (r : Nat) : Nat := 16 * r

/-- An engine may take its next request: all parcels of the last stream have left it, and its descriptor has reached the
first core. -/
def mayStart (s : State) (r : Nat) : Bool :=
  let e := engine s r
  e.todo.isEmpty && e.out.isEmpty && (e.current.isNone || (core s (firstCore r)).relay.current.map (·.stream) == e.current.map (·.stream))

/-- A record of the courier for a request: counted in COURIER_FAULTS. -/
def courierRec (r : Nat) (q : StreamReq) (f : FaultInfo) (detail : Nat) (s : State) : State :=
  stageRec (r / 4) { unit := .courier, reason := f.reason, core := q.core, ctx := q.instr.ctx, addr := f.addr,
                     postmark := some q.instr.postmark.toNat, ring := some (ringInfo q.instr), detail := detail }
    (bumpE 0x3200 2 s)

/-- The round number in a DETAIL (Table 20.5). -/
def roundField (r : Nat) : Nat := r * 2 ^ 64

/-- An engine waits: for a page it pauses, with what it has read (R88). -/
def enginePause (r : Nat) (stop : Stop) (j : List Ev) (s : State) : State :=
  match stop with
  | .page ctx p => noteMiss ctx p false (setEngine r (fun x => { x with paused := true, waitPage := some p, journal := j }) s)
  | _ => setEngine r (fun x => { x with journal := j }) s

/-- STREAM_START (R81, R85, R86): the next request is checked; its stream or a void stands at the engine. Streams of an engine are
numbered from 1 as their checks end, voids among them. (DESIGN CHOICE, log 126) -/
def streamStart (r : Nat) (s : State) : State :=
  if running s && mayStart s r then
    match (engine s r).queue with
    | [] => s
    | q :: rest =>
      if streamLive s q.instr.ctx then
        let x := engine s r
        let n := x.serial + 1
        let e : Env := { core := q.core, ctx := q.instr.ctx, unit := .courier, failed := x.pageFault, alloc := false }
        match runFrom x.journal false (if q.weight then weightChecks e n q.instr else keyChecks e r n q.instr) s with
        | .ok p s =>
          setEngine r (fun x => { forgetWait x with queue := rest, serving := some q, serial := n, current := some p.desc,
                                                    todo := p.todo, limbs := [], listing := p.listing }) s
        | .error (.fault f, _) s =>
          let d : StreamDesc := { weight := q.weight, ctx := q.instr.ctx, stream := n, void := some (BitVec.ofNat 8 f.reason.code),
                                  header := 0, params := [], mask := 0, order := false }
          courierRec r q f (roundField r)
            (setEngine r (fun x => { forgetWait x with queue := rest, serving := some q, serial := n, current := some d,
                                                       todo := [], limbs := [], listing := [] }) s)
        | .error (stop, j) s => enginePause r stop j s
      else s
  else s

/-! ## PARCEL_FORM (R80, R84, R87, R88) -/

/-- A label as ENG_NEXT_LABEL lays it out. -/
def labelWord (p : Parcel) : Nat :=
  packFields [(40, 8, p.key), (32, 8, p.beta), (24, 8, p.pos), (16, 8, p.block), (0, 16, p.stream.toNat)]

/-- The limbs that a key parcel draws on, as halves: k0, and in full form k1. -/
def keyHalves (w : Nat) : List Nat := if kdSeeded w then [0] else [0, 1]

/-- A buffered limb is that of a label's position, for a half. -/
def isLimb (p : Parcel) (half : Nat) (l : LimbBuf) : Bool := l.key == p.key && l.beta == p.beta && l.pos == p.pos && l.half == half

/-- Read a limb of a key whole, block by block (R77, R87). -/
def fetchLimb (e : Env) (r : Nat) (x : StreamEngine) (p : Parcel) (half : Nat) : Eng LimbBuf := do
  let s ← get
  let gr := chG s (hChain (x.current.elim 0 fun d => d.header.toNat))
  let w := x.listing.getD (5 * p.key + 1) 0
  let n := blockGr gr * 288
  let f := (keyHalves w).length
  let a := x.listing.getD (5 * p.key) 0 + p.beta * keyStride gr w + 64 + (limbIndex (kdMap w) p.pos * f + half) * gr * 288
  let bs ← mapE (fun b => do
    let d ← loadOn e false (moduleOf s) (a + b * n) n
    keyBytes r (a + b * n) n
    pure d) (List.range (gr / blockGr gr))
  pure { key := p.key, beta := p.beta, pos := p.pos, half := half, blocks := bs }

/-- The limbs held, with those of a label added where they are missing. -/
def wantLimbs (e : Env) (r : Nat) (x : StreamEngine) (p : Parcel) (l : List LimbBuf) : Eng (List LimbBuf) :=
  foldE (fun l half =>
    if l.any (isLimb p half) then pure l
    else do
      let b ← fetchLimb e r x p half
      pure (l ++ [b])) l (keyHalves (x.listing.getD (5 * p.key + 1) 0))

/-- The block of a label in the limbs held. -/
def limbBlock (l : List LimbBuf) (p : Parcel) (half : Nat) : List Byte × Bool :=
  (((l.find? (isLimb p half)).map fun b => b.blocks).getD []).getD p.block ([], false)

/-- Payload of a key parcel, and the limbs then held. -/
def formKey (e : Env) (r : Nat) (x : StreamEngine) (p : Parcel) : Eng (Parcel × List LimbBuf) := do
  let s ← get
  let ch := hChain (x.current.elim 0 fun d => d.header.toNat)
  let w := x.listing.getD (5 * p.key + 1) 0
  if kdRole w = 3 then do
    let idx := 24 * x.listing.getD (5 * p.key + 4) 0 - (x.todo.filter fun y => y.key == p.key).length
    let a := x.listing.getD (5 * p.key + 2 + p.beta) 0 + (idx / 24 * 12 + idx % 12) * 18432
    let (b0, p0) ← loadOn e false (moduleOf s) a 9216
    let (b1, p1) ← loadOn e false (moduleOf s) (a + 9216) 9216
    keyBytes r a 18432
    pure ({ p with k0 := b0, k1 := b1, poison := p0 || p1 }, [])
  else do
    let l ← wantLimbs e r x p x.limbs
    let (b0, p0) := limbBlock l p 0
    if kdSeeded w then do
      let seed := toLe 32 (bits w 479 224)
      let k1 := regenBlock seed p.beta p.pos p.block (primeAt s ch p.pos).q (64 * blockGr (chG s ch))
      pure ({ p with k0 := b0, k1 := (granules k1).flatMap packGran, poison := p0 }, l)
    else do
      let (b1, p1) := limbBlock l p 1
      pure ({ p with k0 := b0, k1 := b1, poison := p0 || p1 }, l)

/-- The first label still to come whose limbs are not all held. -/
def nextLimb (x : StreamEngine) : Option Parcel :=
  x.todo.find? fun p => (keyHalves (x.listing.getD (5 * p.key + 1) 0)).any fun h => !(x.limbs.any (isLimb p h))

/-- Limbs no label to come draws on are given up. -/
def dropLimbs (x : StreamEngine) : StreamEngine :=
  { x with limbs := x.limbs.filter fun l => x.todo.any fun p => isLimb p l.half l }

/-- Limbs are read ahead while fewer than four are held; one that cannot be read yet is left for its turn (R87). The fuel bounds their
number. -/
def readAhead (e : Env) (r : Nat) : Nat → State → State
  | 0, s => s
  | n + 1, s =>
    let x := engine s r
    match x.current, nextLimb x with
    | some d, some p =>
      let need := (keyHalves (x.listing.getD (5 * p.key + 1) 0)).length
      if d.weight || d.params.headD 0 == 3 || decide (4 < x.limbs.length + need) then s
      else
        match runFrom [] false (wantLimbs e r x p x.limbs) s with
        | .ok l t => readAhead e r n (setEngine r (fun x => { x with limbs := l }) t)
        | .error _ _ => s
    | _, _ => s

/-- Pack values of w bits, the first lowest, into bytes. -/
def packBits (w : Nat) (l : List Nat) : List Byte := toLe (l.length * w / 8) (packFields ((List.range l.length).map fun i => (w * i, w, l.getD i 0)))

/-- Payload of a weight parcel: rows packed with zeros past N, then the scale bytes of each block of 32 rows (R281). (DEDUCED, log 53) -/
def formWeight (e : Env) (x : StreamEngine) (p : Parcel) : Eng Parcel := do
  let ps : List Nat := x.current.elim [] fun d => d.params
  let shape := ps.getD 0 0
  let k := ps.getD 1 0
  let n := ps.getD 2 0
  let f := ps.getD 3 0
  let t : Tens := { addr := 0, w := x.listing.getD 0 0, scale := if x.listing.getD 1 0 = 1 then some (x.listing.getD 2 0) else none }
  let (rb, sc) := weightRow shape f
  let c := tileCols shape (f == 7)
  let (r0, nr) := (weightParcels k rb sc).getD p.block (0, 0)
  let rows ← mapE (fun i => mapE (fun j =>
    if p.pos * c + j < n then do
      let v ← readElem e { t with scale := none } 1 [p.pos * c + j, r0 + i]
      pure (v.bits, v.poison)
    else pure (0, false)) (List.range c)) (List.range nr)
  let scales ← if sc = 0 then pure [] else
    mapE (fun b => mapE (fun j =>
      if p.pos * c + j < n then readScale e t 1 [((p.pos * c + j : Nat) : Int), ((r0 + 32 * b : Nat) : Int)] else pure (0, false))
      (List.range c)) (List.range (cdiv nr 32))
  pure { p with k0 := (rows.flatMap fun row => packBits (elemWidth f) (row.map (·.1))) ++
                  (scales.flatMap fun row => row.map fun v => BitVec.ofNat 8 v.1),
                poison := (rows ++ scales).any fun row => row.any (·.2) }

/-- Void what stands of a stream at every relay port of its round (R88). -/
def voidPorts (r : Nat) (n : BitVec 16) (s : State) : State :=
  ((List.range 16).map fun k => 16 * r + k).foldl (fun s c =>
    setRelay c (fun p => match p.current with
      | some d => if d.stream = n then { p with current := some (voidDesc d), slots := [] } else p
      | none => p) s) s

/-- A fault after the checks voids the rest of the stream; the engine's record has reason KEY_STREAM_FAULT and names the parcel's label
(R88). (DEDUCED, log 127) -/
def voidRest (r : Nat) (p : Parcel) (f : FaultInfo) (s : State) : State :=
  let e := engine s r
  let s := match e.serving with
    | some q => courierRec r q { f with reason := .keyStreamFault } (labelWord p + roundField r) s
    | none => s
  let s := voidPorts r p.stream s
  setEngine r (fun x => { forgetWait x with current := x.current.map voidDesc, todo := [], out := [], limbs := [] }) s

/-- PARCEL_FORM: the next parcel is read, regenerated where seeded, and stands ready for the first core. (DESIGN CHOICE, log 50) -/
def parcelForm (r : Nat) (s : State) : State :=
  let x := engine s r
  match x.todo, x.current with
  | p :: rest, some d =>
    if running s && streamLive s d.ctx && decide (x.out.length < 4) then
      let e : Env := { core := (x.serving.map (·.core)).getD (firstCore r), ctx := d.ctx, unit := .courier, failed := x.pageFault,
                       alloc := false }
      match runFrom x.journal false (if d.weight then do
          let q ← formWeight e x p
          pure (q, [])
        else formKey e r x p) s with
      | .ok (q, l) s =>
        readAhead { e with failed := none } r 4
          (setEngine r (fun x => dropLimbs { forgetWait x with todo := rest, out := x.out ++ [q], limbs := l }) s)
      | .error (.fault f, _) s => voidRest r p f s
      | .error (stop, j) s => enginePause r stop j s
    else s
  | _, _ => s

/-! ## PARCEL_ARRIVAL (R86, R90, R91) -/

/-- What stands before a core: the descriptor current there. -/
def upstream (s : State) (c : Nat) : Option StreamDesc :=
  if c % 16 = 0 then (engine s (roundOf c)).current else (core s (c - 1)).relay.current

/-- The next parcel that a core's neighbour holds for it. -/
def offered (s : State) (c : Nat) : Option Parcel :=
  if c % 16 = 0 then (engine s (roundOf c)).out.head?
  else ((core s (c - 1)).relay.slots.find? fun x => !x.forwarded).map (·.parcel)

/-- The neighbour has handed its parcel on. (DESIGN CHOICE, log 51) -/
def handOn (c : Nat) (s : State) : State :=
  if c % 16 = 0 then setEngine (roundOf c) (fun e => { e with out := e.out.drop 1, parcels := e.parcels + 1 }) s
  else setRelay (c - 1) (fun p => freeSlots { p with
    slots := lreplace (fun x => !x.forwarded) (fun x => { x with forwarded := true }) p.slots }) s

/-- A core may take the descriptor of the next stream: it holds no parcel and the next core has its current one. -/
def mayAdvance (s : State) (c : Nat) : Bool :=
  (core s c).relay.slots.isEmpty &&
    (lastOfRound c || (core s (c + 1)).relay.current.map (·.stream) == (core s c).relay.current.map (·.stream))

/-- PARCEL_ARRIVAL: the descriptor of the next stream, or the next parcel, arrives at a core; a parcel whose CRC fails gets the POISON
mark and is counted (R90, R422). The engine of a context that is stopped hands nothing on (R96). (DESIGN CHOICE, log 51) -/
def parcelArrival (c : Nat) (crcOk : Bool) (s : State) : State :=
  match upstream s c with
  | none => s
  | some d =>
    let p := (core s c).relay
    if p.current.map (·.stream) != some d.stream then
      if mayAdvance s c then setRelay c (fun _ => { current := some d }) s else s
    else
      match offered s c with
      | none => s
      | some x =>
        if decide (p.slots.length < 2) && (c % 16 != 0 || streamLive s d.ctx) then
          let s := handOn c s
          let s := if crcOk then s else bumpE 0x6000 8 s
          let slot : RelaySlot := { parcel := { x with poison := x.poison || !crcOk }, forwarded := lastOfRound c,
                                    applied := !(consumes d c) || p.left || decide (p.got < p.skip), stallSeen := false, since := s.time }
          setRelay c (fun p => freeSlots { p with slots := p.slots ++ [slot], got := p.got + 1 }) s
        else s

/-! ## RELAY_STALL (R97) -/

/-- RELAY_STALL: a parcel has waited in a slot longer than RELAY_STALL_LIMIT; it is reported once. (DESIGN CHOICE, log 4) -/
def relayStall (c k : Nat) (s : State) : State :=
  let lim := reg s 0x3200 1
  let r := roundOf c
  match (core s c).relay.slots[k]? with
  | none => s
  | some x =>
    if lim ≠ 0 ∧ !x.stallSeen ∧ lim < s.time - x.since then
      let s := setRelay c (fun p => { p with slots := lmod p.slots k fun x => { x with stallSeen := true } }) s
      stageRec (dieOf c) { unit := .relay, reason := .relayStall, core := c, ctx := ((core s c).relay.current.map (·.ctx)).getD 0,
                           detail := labelWord x.parcel + roundField r }
        (bumpE 0x3200 2 (bumpE (0x3210 + r) 7 s))
    else s

/-! ## What the engine's entries read (Table 4.10) -/

/-- ENG_STATE: paused for paging; streaming, or suspended with its context; checking where a request waits or is under check; idle. -/
def engState (s : State) (r : Nat) : Nat :=
  let e := engine s r
  match engCtx e with
  | none => 0
  | some ctx =>
    if !(streamLive s ctx) then 3
    else if e.paused then 4
    else if e.todo.isEmpty && e.out.isEmpty then 1
    else 2

/-- ENG_NEXT_LABEL: the label of the next parcel to leave the engine. -/
def engNext (s : State) (r : Nat) : Nat :=
  match (engine s r).out ++ (engine s r).todo with
  | p :: _ => labelWord p
  | [] => 0

/-- ENG_STREAM. -/
def engStream (s : State) (r : Nat) : Nat :=
  match (engine s r).current with
  | some d => d.ctx * 2 ^ 16 + d.stream.toNat
  | none => 0

end Sys2Proof.Machine
end

