-- ==== Sys2Proof/Machine/Gate.lean ====
section
/-! DEFINITION. The gate class (chapter 5): samples, the gate parameter block, the checks of Table 5.10, and G_LIN, G_KSW, G_REFRESH, G_COMBINE, G_EXTRACT and G_PACK. -/

namespace Sys2Proof.Machine

/-! ## Operation word (Table 5.7) -/

/-- GCHAIN. -/
def gChain (w : Nat) : Nat := bits w 43 40
/-- MODE. -/
def gMode (w : Nat) : Nat := bits w 37 36
/-- WIDTH. -/
def gWidth (w : Nat) : Nat := bits w 35 32
/-- OUT_WIDTH. -/
def gOutWidth (w : Nat) : Nat := bits w 31 28
/-- SEG. -/
def gSeg (w : Nat) : Nat := bits w 27 22
/-- SEGS_M1. -/
def gSegsM1 (w : Nat) : Nat := bits w 21 16
/-- COUNT_M1. -/
def gCountM1 (w : Nat) : Nat := bits w 5 0

/-- Opcodes whose sources are GATE samples of width WIDTH (Table 5.8). -/
def usesWidth (op : Nat) : Bool := [1, 2, 3, 9].contains op

/-- Fields that an opcode gives no use are zero, and WIDTH is 1 to 8 where the sources are samples (R9, Table 5.7). -/
def gateEncOk (w : Nat) : Bool :=
  let op := iOpcode w
  (op == 8 || gChain w == 0) && decide (gWidth w ≤ 8) && (!(usesWidth op) || gWidth w != 0) && (op == 3 || bits w 39 38 == 0) && (op == 3 || op == 4 || gMode w == 0) &&
    (op == 1 || (if op = 2 ∨ op = 8 ∨ op = 9 then bits w 15 6 == 0 else bits w 15 0 == 0)) &&
    (op != 9 || decide (gCountM1 w < 32))

/-- OUT_WIDTH is used (R111, R115, R120). -/
def usesOut (w : Nat) : Bool :=
  let op := iOpcode w
  op == 8 || ((op == 3) && gMode w == 0) || (op == 4 && gMode w == 1)

/-- Header address of sample r of an instruction with several samples: headers of 64 bytes one after another. (DESIGN CHOICE, log 59) -/
def sampleAddr (a r : Nat) : Nat := a + 64 * r

/-! ## Checks 1 to 12 -/

/-- A slot is a gate chain (R110). -/
def isGateChain (s : State) (k : Nat) : Bool :=
  slotUsable s k && chLog2N s k == 11 && chD s k == 2 && chK s k == 0

/-- Check 11 on one object: first its kind, then, for a GATE kind, its chain. -/
def kindCheck (want : Nat → Bool) (o : Obj) : Eng Unit := do
  needE (want (hKind o.h)) .kindMismatch (some (o.addr, false))
  needE (decide (hKind o.h ≤ 3) || isGateChain (← get) (hChain o.h)) .chainMismatch (some (o.addr, false))

/-- Checks 1 to 12 over the sources of an instruction and its destinations, which are written whole unless it uses the header
it finds (G_PACK); answers sources and destinations as read. -/
def gateHeaders (e : Env) (w : Nat) (srcs dsts : List Nat) (want : Nat → Bool) (pack : Bool) : Eng (List Obj × List Obj) := do
  needE (gateEncOk w) .reservedField
  let rs ← mapE (fun a => readHdr e a true) srcs
  let ds ← mapE (fun a => readHdr e a false) dsts
  hdrChecks e (rs ++ ds.filter fun d => pack || holdsObject d) none
  let s ← get
  let os := rs.map (·.obj)
  checkObjs os .limbMap fun o =>
    !(limbMapOk (chD s (hChain o.h)) (chK s (hChain o.h)) o.h) || (iOpcode w == 8 && hLevel o.h != 0)
  checkObjs os .formMismatch fun o =>
    if iOpcode w = 8 then hNtt o.h 0 || hNtt o.h 1 else if iOpcode w = 4 then !(hNtt o.h 0) || !(hNtt o.h 1) else false
  tagChecks os
  eachE (kindCheck want) os
  if iOpcode w = 8 then needE (isGateChain s (gChain w)) .chainMismatch (dsts.head?.map fun a => (a, false))
  checkObjs (os.filter fun o => gateKind (hKind o.h)) .kindMismatch fun o => gWidth w != hSlots o.h
  needE (!(usesOut w) || decide (1 ≤ gOutWidth w ∧ gOutWidth w ≤ 8)) .kindMismatch (os.head?.map fun o => (o.addr, false))
  pure (os, ds.map (·.obj))

/-! ## The gate parameter block (R113, checks 13 to 15) -/

/-- The block as copied at issue. -/
structure Gpb where
  relin : Nat
  br    : Nat
  ksw   : Nat
  nLwe  : Nat
  lut   : List Nat
  deriving DecidableEq, Repr

/-- Granules of one row of N_LWE + 1 columns. -/
def rowGr (nLwe : Nat) : Nat := cdiv (nLwe + 1) 64

/-- Checks 13 to 15 over the objects an instruction reads; a tag of 0 fails, as in every key check (R33). (DEDUCED, log 56) -/
def readGpb (e : Env) (w a : Nat) (os : List Obj) : Eng Gpb := do
  let ad := some (a, false)
  let hb ← loadControl e a 64
  granAligned a (a + 64)
  let lb ← loadControl e (a + 64) (4 * 288)
  let h := ofLe hb
  let n := bits h 207 192
  needE (bits h 511 480 == crc32c (hb.take 60 ++ lb) && bits h 3 0 == 0xB && bits h 7 4 == 1 && bits h 335 320 == 0 &&
    bits h 223 208 == 0 && bits h 191 24 == 0 && n % 2 == 0 && decide (2 ≤ n ∧ n ≤ 512)) .tableMismatch ad
  let s ← get
  needE (os.all fun o => bits h 23 16 == hChain o.h && bits h 15 8 == chPset s (hChain o.h) &&
    bits h 255 224 == (chain s (hChain o.h)).fp.toNat) .tableMismatch ad
  checkObjs os .keyMismatch fun o => hTag o.h == 0 || hTag o.h != bits h 319 256
  let l := unpackGrans lb
  let q0 := (primeAt s (bits h 23 16) 0).q
  needE (canonical q0 (l.take (2 ^ gWidth w))) .residueRange ad
  pure { relin := bits h 479 432, br := bits h 431 384, ksw := bits h 383 336, nLwe := n, lut := l }

/-! ## Samples and accumulators -/

/-- Read the sample of a GATE object: mask and body, with its poison (R29). -/
def readSample (e : Env) (r : Nat) (o : Obj) : Eng (List Nat × Bool) := do
  let q := (primeAt (← get) (hChain o.h) 0).q
  let l ← mapE (fun g => atGran r 0 g (readGran e 33 q o 0 0 g)) (List.range 33)
  pure ((l.flatMap (·.1)).take 2049, l.any (·.2))

/-- Write granules of a limb of a destination; where source data overlaps them, their values are open (R40). -/
def writeLimb (e : Env) (r gr : Nat) (o : Obj) (lap : Bool) (c p : Nat) (v : List Nat) (bad : Bool) : Eng Unit := do
  eachE (fun (x : Nat × List Nat) => do
    let l ← if lap then freeGran else pure x.2
    atGran r p x.1 (writeGran e gr o c p x.1 l bad)) ((List.range gr).zip (granules v))
  checkpoint

/-- Write a sample. -/
def writeSample (e : Env) (r : Nat) (o : Obj) (lap : Bool) (v : List Nat) (bad : Bool) : Eng Unit :=
  writeLimb e r 33 o lap 0 0 (v ++ List.replicate 63 0) bad

/-- Read a limb of 32 granules of an accumulator or of rows that lie one after another. -/
def readAccLimb (e : Env) (r : Nat) (o : Obj) (c p : Nat) : Eng (List Nat × Bool) := do
  let q := (primeAt (← get) (hChain o.h) p).q
  let l ← mapE (fun g => atGran r p g (readGran e 32 q o c p g)) (List.range 32)
  pure (l.flatMap (·.1), l.any (·.2))

/-- Read residues that lie in granules one after another from an address. -/
def readRun (e : Env) (r p q a n : Nat) : Eng (List Nat × Bool) := do
  let l ← mapE (fun g => atGran r p g (do
    granAligned a (a + 288 * g)
    let (bs, bad) ← load e (a + 288 * g) 288
    let rs := unpackGran bs
    needE (canonical q rs) .residueRange (some (a, false))
    pure (rs, bad))) (List.range n)
  pure (l.flatMap (·.1), l.any (·.2))

/-- Places of every granule of an object. -/
def objGrans (s : State) (o : Obj) : List (Nat × Nat) :=
  let gr := chG s (hChain o.h)
  (List.range (nComp (hKind o.h))).flatMap fun c => (posOf (hMap o.h)).flatMap fun p =>
    (List.range (objG gr o)).map fun g => granPlace (moduleOf s) gr o c p g

/-- Granules one after another from an address of this module. -/
def runGrans (s : State) (a n : Nat) : List (Nat × Nat) := (List.range n).map fun g => (moduleOf s, a + 288 * g)

/-- Granules written share bytes with granules read (R40). (DESIGN CHOICE, log 117) -/
def gransMeet (read write : List (Nat × Nat)) : Bool := read.any fun x => write.any fun y => granMeets x y

/-- Data of a destination overlaps that of a source with another header (R40). -/
def objLap (s : State) (os : List Obj) (d : Obj) : Bool :=
  gransMeet ((os.filter fun o => o.addr != d.addr).flatMap (objGrans s)) (objGrans s d)

/-- The header of an output sample of a width. -/
def sampleHdr (s : State) (ctx old ch width tag : Nat) : Nat :=
  newHdr s ctx old { kind := if width = 1 then 4 else 5, chain := ch, level := 0, map := 1, scale := 0, slots := width,
                     budget := 0xFFFF, tag := tag, ntts := 0 }

/-- The header of an output accumulator, in evaluation form (R120). -/
def accHdr (s : State) (ctx old ch tag : Nat) : Nat :=
  newHdr s ctx old { kind := 6, chain := ch, level := 0, map := 3, scale := 0, slots := 0, budget := 0xFFFF, tag := tag, ntts := 3 }

/-- A destination with its new header and placement, after step 1 of R37. -/
def startDest (e : Env) (d : Obj) (h : Nat) (poison : Bool) : Eng Obj := do
  startHdr e d.addr h poison
  pure { d with h := h }

/-! ## Arithmetic (R115 to R117, R120, R123) -/

/-- A signed factor as a residue. -/
def signedRes (p : Prime) (f : Int) : Nat := if f < 0 then negmod p f.natAbs else f.natAbs

/-- The value of one residue of G_LIN. -/
def linVal (p : Prime) (wa wb x y : Nat) : Nat := addmod p (mulmod p wa x) (mulmod p wb y)

/-- Product of a ring element with X^e, ring modulo X^n + 1, n = 2,048. -/
def monoMul (p : Prime) (e : Nat) (a : List Nat) : List Nat :=
  (List.range 2048).map fun k =>
    let j := (k + 4096 - e % 4096) % 4096
    if j < 2048 then a.getD j 0 else negmod p (a.getD (j - 2048) 0)

/-- Sum of two limbs. -/
def addLimb (p : Prime) (a b : List Nat) : List Nat := (a.zip b).map fun x => addmod p x.1 x.2

/-- Product of two limbs in evaluation form. -/
def mulLimb (p : Prime) (a b : List Nat) : List Nat := (a.zip b).map fun x => mulmod p x.1 x.2

/-- msw of R117: the modulus switch to 4,096. -/
def modSwitch (q0 x : Nat) : Nat := (x * 4096 + q0 / 2) / q0 % 4096

/-- The test vector of R117, limb 0. -/
def testVector (p0 : Prime) (q1 w : Nat) (lut : List Nat) : List Nat :=
  (List.range 2048).map fun k =>
    let i := (k + 2 ^ (10 - w)) / 2 ^ (11 - w)
    let v := if i < 2 ^ w then lut.getD i 0 else negmod p0 (lut.getD 0 0)
    mulmod p0 v (q1 % p0.q)

/-- The limb lists of an accumulator: acc0 and acc1, limbs q0 and q1 of each. -/
def accStart (p0 p1 : Prime) (first : Bool) (bt w : Nat) (lut : List Nat) : List (List Nat) :=
  let zero := List.replicate 2048 0
  if first then [monoMul p0 (4096 - bt) (testVector p0 p1.q w lut), zero, zero, zero]
  else [1 :: zero.drop 1, 1 :: zero.drop 1, zero, zero]

/-- Limb p of component c of an accumulator. -/
def accLimb (acc : List (List Nat)) (c p : Nat) : List Nat := acc.getD (2 * c + p) []

/-- The digits d[c][β] of R117: coefficients of acc_c modulo q_β. -/
def digitsOf (acc : List (List Nat)) : List (List Nat) := acc

/-- Exponent j of step t. -/
def stepExp (ats : List Nat) (t j : Nat) : Nat :=
  let x := ats.getD (2 * t) 0
  let y := ats.getD (2 * t + 1) 0
  if j = 0 then x else if j = 1 then y else (x + y) % 4096

/-- The factor of a row limb: (X^(-e) - 1) · d[c][β], lifted into a prime, in evaluation form. -/
def rowFactor (p : Prime) (e : Nat) (d : List Nat) : List Nat :=
  let v := d.map fun x => x % p.q
  nttFwdLimb p 11 (((monoMul p (4096 - e) v).zip v).map fun x => submod p x.1 x.2)

/-- Add factor times row limb into new0 and new1 at prime index p. -/
def addRow (p : Prime) (pi : Nat) (m k0 k1 : List Nat) (new : List (List Nat)) : List (List Nat) :=
  let new := new.set pi (addLimb p (new.getD pi []) (mulLimb p m k0))
  new.set (2 + pi) (addLimb p (new.getD (2 + pi) []) (mulLimb p m k1))

/-- Accumulators of zeros. -/
def zeroAcc : List (List Nat) := List.replicate 4 (List.replicate 2048 0)

/-- The end of a step: new0 and new1 come back to coefficients and join acc0 and acc1. -/
def stepEnd (p0 p1 : Prime) (acc new : List (List Nat)) : List (List Nat) :=
  (List.range 4).map fun k =>
    let p := if k % 2 = 0 then p0 else p1
    addLimb p (acc.getD k []) (nttInvLimb p 11 false (new.getD k []))

/-- Parcel n of the sequence of R119: step, β, j, c, p. -/
def rowIndex (n : Nat) : Nat × Nat × Nat × Nat × Nat := (n / 24, n % 24 / 12, n % 12 / 4, n % 4 / 2, n % 2)

/-- The label b of a parcel of a gate stream. -/
def rowLabel (n : Nat) : Nat := (6 * (n / 24) + 2 * (n % 12 / 4) + n % 4 / 2) % 256

/-- Division by q1 with the rounding of R66 step 2, giving a residue modulo q0. -/
def divRound (p0 p1 : Prime) (x0 x1 : Nat) : Nat :=
  mulmod p0 (submod p0 x0 (centredLift p1.q p0.q x1)) (powMod p1.q (p0.q - 2) p0.q)

/-- The sample of an accumulator: the last two lines of R117. -/
def extractSample (p0 p1 : Prime) (acc : List (List Nat)) : List Nat :=
  let a := fun (k : Nat) =>
    let x0 := (accLimb acc 1 0).getD (if k = 0 then 0 else 2048 - k) 0
    let x1 := (accLimb acc 1 1).getD (if k = 0 then 0 else 2048 - k) 0
    if k = 0 then divRound p0 p1 x0 x1 else divRound p0 p1 (negmod p0 x0) (negmod p1 x1)
  (List.range 2048).map a ++ [divRound p0 p1 ((accLimb acc 0 0).getD 0 0) ((accLimb acc 0 1).getD 0 0)]

/-- The mapping of R123 from one modulus to another. -/
def mapModulus (qf qt x : Nat) : Nat := (x * qt + qf / 2) / qf % qt

/-! ## G_LIN (R115) -/

/-- One repeat of a gate instruction after its checks: sources as placed, destinations with the header to write, the chain slot,
the gate parameter block, the indices, and whether a source is poisoned. -/
structure GateJob where
  e      : Env
  r      : Nat
  w      : Nat
  os     : List Obj
  ds     : List Obj
  ch     : Nat
  gp     : Gpb := { relin := 0, br := 0, ksw := 0, nLwe := 0, lut := [] }
  idx    : List Nat := []
  lap    : Bool
  poison : Bool
  deriving DecidableEq, Repr

/-- The first source of a job. -/
def GateJob.src (j : GateJob) : Obj := j.os.headD { addr := 0, h := 0 }

/-- The first destination of a job. -/
def GateJob.dst (j : GateJob) : Obj := j.ds.headD { addr := 0, h := 0 }

/-- Check 16, the part that every gate-class instruction makes: SEG is at most SEGS_M1. -/
def segOk (w : Nat) : Bool := decide (gSeg w ≤ gSegsM1 w)

/-- Checks of G_LIN. -/
def linChecks (c : Nat) (i : Issued) (r : Nat) : Eng GateJob := do
  let e := envOf c .gateLane i
  let w := i.word.toNat
  let da := addrOf i r 0
  let (os, ds) ← gateHeaders e w (addrOf i r 1 :: (if toSigned 4 (bits w 11 8) = 0 then [] else [addrOf i r 2])) [da] gateKind false
  let s ← get
  let a := os.headD { addr := 0, h := 0 }
  let ch := hChain a.h
  needE (segOk w) .reservedField
  let os ← mapE (openPlace e false 33) os
  let d ← openPlace e true 33 { addr := da, h := sampleHdr s e.ctx ((ds.map (·.h)).headD 0) ch (gWidth w) (hTag a.h) }
  pure { e := e, r := r, w := w, os := os, ds := [d], ch := ch, lap := objLap s os d, poison := os.any fun o => hPoison o.h }

/-- What G_LIN does once checked. -/
def linWork (j : GateJob) : Eng Unit := do
  let p := primeAt (← get) j.ch 0
  let d ← startDest j.e j.dst j.dst.h j.poison
  let ls ← mapE (readSample j.e j.r) j.os
  let x := ((ls.map (·.1)).headD [])
  let y := (ls.map (·.1)).getD 1 (List.replicate 2049 0)
  let bad := ls.any (·.2)
  let f := linVal p (signedRes p (toSigned 4 (bits j.w 15 12))) (signedRes p (toSigned 4 (bits j.w 11 8)))
  let v := (x.zip y).map fun z => f z.1 z.2
  let add := bits j.w 7 0 * (p.q / 2 ^ (gWidth j.w + 1)) % p.q
  writeSample j.e j.r d j.lap (v.set 2048 (addmod p (v.getD 2048 0) add)) bad
  commitHdr j.e d.addr d.h (j.poison || bad)

/-- A gate instruction: its checks, then its work. -/
def gateRun (checks : Eng GateJob) (work : GateJob → Eng Unit) : Eng (List SealMsg) := do
  let j ← checks
  work j
  pure []

/-- G_LIN. -/
def gateLin (c : Nat) (i : Issued) (r : Nat) : Eng (List SealMsg) := gateRun (linChecks c i r) linWork

/-! ## G_KSW (R116) -/

/-- Columns of a slice. -/
def sliceCols (w nLwe : Nat) : Nat × Nat :=
  let n := gSegsM1 w + 1
  (gSeg w * (nLwe + 1) / n, (gSeg w + 1) * (nLwe + 1) / n)

/-- One column of one sample. -/
def kswColumn (q nLwe k : Nat) (a : List Nat) (col : List Nat) : Nat :=
  ((List.range 8192).zip col).foldl (fun acc x => (acc + (bits (a.getD (x.1 / 4) 0) (9 * (x.1 % 4) + 8) (9 * (x.1 % 4))) * x.2) % q)
    (if k = nLwe then a.getD 2048 0 else 0)

/-- Granules of a row that a slice of columns meets. -/
def sliceGrans (w nLwe : Nat) : List Nat :=
  (List.range (rowGr nLwe)).filter fun g => decide (g * 64 < (sliceCols w nLwe).2 ∧ (sliceCols w nLwe).1 < (g + 1) * 64)

/-- Tiles that the array forms for a slice: seven columns of digits each, in tiles of 128 columns (Table 5.8, R137). -/
def sliceTiles (w nLwe : Nat) : Nat := cdiv (7 * ((sliceCols w nLwe).2 - (sliceCols w nLwe).1)) 128

/-- Checks of G_KSW. -/
def kswChecks (c : Nat) (i : Issued) (r : Nat) : Eng GateJob := do
  let e := envOf c .gateArray i
  let w := i.word.toNat
  let (os, _) ← gateHeaders e w ((List.range (gCountM1 w + 1)).map fun k => sampleAddr (addrOf i r 1) k) [] gateKind false
  let gp ← readGpb e w (addrOf i r 3) os
  needE (segOk w && decide (gSegsM1 w + 1 ≤ gp.nLwe + 1)) .reservedField
  let s ← get
  let ch := hChain ((os.map (·.h)).headD 0)
  let os ← mapE (openPlace e false 33) os
  let out := (List.range os.length).flatMap fun k => (sliceGrans w gp.nLwe).flatMap fun g =>
    runGrans s (addrOf i r 0 + (k * rowGr gp.nLwe + g) * 288) 1
  pure { e := e, r := r, w := w, os := os, ds := [{ addr := addrOf i r 0, h := 0 }], ch := ch, gp := gp,
         lap := gransMeet (os.flatMap (objGrans s)) out, poison := false }

/-- Address of a granule of the table of G_KSW. -/
def kswRowAddr (j : GateJob) (g row : Nat) : Nat := j.gp.ksw + (row * rowGr j.gp.nLwe + g) * 288

/-- Address of a granule of the sums that G_KSW writes for a sample. -/
def kswOutAddr (j : GateJob) (k g : Nat) : Nat := j.dst.addr + (k * rowGr j.gp.nLwe + g) * 288

/-- Read the columns that a slice needs of the matrix, granule column by granule column; a checkpoint stands after every 1,024 rows
(R121). -/
def kswMatrix (j : GateJob) (q : Nat) : Eng (List (Nat × List (List Nat) × Bool)) :=
  mapE (fun g => do
    let l ← mapE (fun (b : Nat) => do
      let x ← mapE (fun row => readRun j.e j.r 0 q (kswRowAddr j g row) 1) ((List.range 1024).map fun k => 1024 * b + k)
      checkpoint
      pure x) (List.range 8)
    pure (g, l.flatten.map (·.1), l.flatten.any (·.2))) (sliceGrans j.w j.gp.nLwe)

/-- One granule of the block of a sample: the slice's columns are replaced; other residues of a granule stay as they are. (DEDUCED, log 60) -/
def kswGranule (j : GateJob) (p : Prime) (k : Nat) (v : List Nat) (bad : Bool) (x : Nat × List (List Nat) × Bool) : Eng Unit :=
  atGran j.r 0 x.1 (do
    let (lo, hi) := sliceCols j.w j.gp.nLwe
    let a := kswOutAddr j k x.1
    granAligned j.dst.addr a
    let (bs, old) ← load j.e a 288
    let rs := unpackGran bs
    let free ← if j.lap then freeGran else pure []
    let out := (List.range 64).map fun t =>
      let col := x.1 * 64 + t
      if lo ≤ col ∧ col < hi then
        if j.lap then free.getD t 0 else kswColumn p.q j.gp.nLwe col v (x.2.1.map fun row => row.getD t 0)
      else rs.getD t 0
    store j.e a (packGran out) (bad || old || x.2.2))

/-- What G_KSW does once checked: every sample, the columns of its slice (R116). -/
def kswWork (j : GateJob) : Eng Unit := do
  let p := primeAt (← get) j.ch 0
  let ms ← kswMatrix j p.q
  eachE (fun (x : Nat × Obj) => do
    let (v, pv) ← readSample j.e j.r x.2
    eachE (kswGranule j p x.1 v (pv || hPoison x.2.h)) ms
    checkpoint) ((List.range j.os.length).zip j.os)
  act (addTotal 0x3300 3 (sliceTiles j.w j.gp.nLwe))

/-- G_KSW. -/
def gateKsw (c : Nat) (i : Issued) (r : Nat) : Eng (List SealMsg) := gateRun (kswChecks c i r) kswWork

/-! ## G_REFRESH (R117, R119, R120) -/

/-- Check 16 of a G_REFRESH or G_COMBINE. -/
def modeOk (w nLwe : Nat) : Bool :=
  decide (gMode w < 2) && segOk w && (iOpcode w == 4 || gMode w == 0 || nLwe / 2 % (gSegsM1 w + 1) == 0)

/-- A G_REFRESH repeat after checks 1 to 18: source, destination, block, the address of the switched sample, whether data overlaps, and
the poison known at issue. -/
structure RefreshJob where
  a   : Obj
  d   : Obj
  gp  : Gpb
  sw  : Nat
  lap : Bool
  bad : Bool
  deriving DecidableEq, Repr

/-- Checks 1 to 18 of one repeat. -/
def refreshChecks (c : Nat) (i : Issued) (r : Nat) : Eng RefreshJob := do
  let e := envOf c .gateLane i
  let w := i.word.toNat
  let da := addrOf i r 0
  let (os, ds) ← gateHeaders e w [addrOf i r 1] [da] gateKind false
  let gp ← readGpb e w (addrOf i r 3) os
  needE (modeOk w gp.nLwe) .reservedField
  let a := os.headD { addr := 0, h := 0 }
  needE (a.addr != da) .inPlace (some (da, false))
  let s ← get
  let ch := hChain a.h
  let old := (ds.map (·.h)).headD 0
  let h := if gMode w = 0 then sampleHdr s e.ctx old ch (gOutWidth w) (hTag a.h) else accHdr s e.ctx old ch (hTag a.h)
  let d ← openPlace e true (if gMode w = 0 then 33 else 32) { addr := da, h := h }
  pure { a := a, d := d, gp := gp, sw := addrOf i r 2,
         lap := gransMeet (runGrans s (addrOf i r 2) (rowGr gp.nLwe)) (objGrans s d), bad := hPoison a.h }

/-- The switched sample of a repeat: the exponents at[k], then bt, and its poison. -/
def readSwitched (e : Env) (r ch a nLwe : Nat) : Eng (List Nat × Nat × Bool) := do
  let q0 := (primeAt (← get) ch 0).q
  let (sw, bad) ← readRun e r 0 q0 a (rowGr nLwe)
  pure ((sw.take nLwe).map fun x => modSwitch q0 x, modSwitch q0 (sw.getD nLwe 0), bad)

/-- Steps of a segment from resident rows, parcel by parcel, with a checkpoint at each (R121). -/
def refreshRows (e : Env) (r base ch : Nat) (ats : List Nat) (first : Nat) :
    Nat → Nat → List (List Nat) → List (List Nat) → Bool → Eng (List (List Nat) × Bool)
  | 0, _, acc, _, bad => pure (acc, bad)
  | n + 1, k, acc, new, bad => do
    let s ← get
    let p0 := primeAt s ch 0
    let p1 := primeAt s ch 1
    let (t, β, j, cc, p) := rowIndex k
    let pr := if p = 0 then p0 else p1
    let (k0, q0) ← readRun e r p pr.q (base + k * 18432) 32
    let (k1, q1) ← readRun e r p pr.q (base + k * 18432 + 9216) 32
    checkpoint
    let new := addRow pr p (rowFactor pr (stepExp ats (first + t) j) (accLimb acc cc β)) k0 k1 new
    if k % 24 = 23 then refreshRows e r base ch ats first n (k + 1) (stepEnd p0 p1 acc new) zeroAcc (bad || q0 || q1)
    else refreshRows e r base ch ats first n (k + 1) acc new (bad || q0 || q1)

/-- Steps of a segment. -/
def segSteps (w nLwe : Nat) : Nat := nLwe / 2 / (gSegsM1 w + 1)

/-- The data of one segment: its switched sample, its steps, its accumulator; answers the poison met. -/
def segmentWork (e : Env) (w r : Nat) (j : RefreshJob) : Eng Bool := do
  let s ← get
  let ch := hChain j.a.h
  let p0 := primeAt s ch 0
  let p1 := primeAt s ch 1
  let n := segSteps w j.gp.nLwe
  let (ats, bt, bad0) ← readSwitched e r ch j.sw j.gp.nLwe
  let (acc, bad) ← refreshRows e r j.gp.br ch ats (gSeg w * n) (24 * n) 0
    (accStart p0 p1 (gSeg w == 0) bt (gWidth w) j.gp.lut) zeroAcc (j.bad || bad0)
  eachE (fun (x : Nat × Nat) =>
    writeLimb e r 32 j.d j.lap x.1 x.2 (nttFwdLimb (if x.2 = 0 then p0 else p1) 11 (accLimb acc x.1 x.2)) bad)
    [(0, 0), (0, 1), (1, 0), (1, 1)]
  pure bad

/-- G_REFRESH of mode 1: a segment of every repeat from resident rows. Every destination header is written before the first data, and
committed after the last in repeat order (R120, R125). -/
def refreshSegments (c : Nat) (i : Issued) : Eng Unit := do
  let e := envOf c .gateLane i
  let w := i.word.toNat
  let js ← mapE (refreshChecks c i) (List.range (repCount w))
  eachE (fun (j : RefreshJob) => startHdr e j.d.addr j.d.h j.bad) js
  let bads ← mapE (fun (x : Nat × RefreshJob) => segmentWork e w x.1 x.2) ((List.range js.length).zip js)
  eachE (fun (x : RefreshJob × Bool) => commitHdr e x.1.d.addr x.1.d.h x.2) (js.zip bads)

/-- Checks 1 to 18 of every repeat of a streamed G_REFRESH. -/
def refreshIssue (c : Nat) (i : Issued) : Eng GateOps := do
  needE (!(core (← get) c).relay.left) .streamLeft
  let js ← mapE (refreshChecks c i) (List.range (repCount i.word.toNat))
  pure { reps := js.map fun j =>
    { a := j.a, d := j.d, sw := j.sw, lut := j.gp.lut, nLwe := j.gp.nLwe, lap := j.lap, bad := j.bad } }

/-- Check 19 over every repeat. -/
def refreshStream (e : Env) (k : GateOps) : Eng Unit := do
  let x ← streamFor e false
  let h := x.header.toNat
  needE (x.params.getD 0 0 == 3) .keyRole
  let as := k.reps.map (·.a)
  checkObjs as .keyMismatch fun a => hTag a.h == 0 || hTag a.h != hTag h
  checkObjs as .chainMismatch fun a => hFp a.h != hFp h
  needE (k.reps.all fun g => x.params.getD 1 0 == g.nLwe) .tableMismatch

/-- A repeat with its accumulator before the first step, from its switched sample. -/
def refreshBegin (e : Env) (w : Nat) (x : Nat × GateRep) : Eng GateRep := do
  let g := x.2
  let s ← get
  let ch := hChain g.a.h
  let (ats, bt, bad) ← readSwitched e x.1 ch g.sw g.nLwe
  let acc := accStart (primeAt s ch 0) (primeAt s ch 1) true bt (gWidth w) g.lut
  pure { g with ats := ats, acc := acc, digits := digitsOf acc, new := zeroAcc, bad := g.bad || bad }

/-- Check 19, step 1 of R37 for every destination (R125), then the switched samples. -/
def refreshStart (c : Nat) (i : Issued) (k : GateOps) : Eng GateOps := do
  let e := envOf c .gateLane i
  refreshStream e k
  eachE (fun (g : GateRep) => startHdr e g.d.addr g.d.h g.bad) k.reps
  let reps ← mapE (refreshBegin e i.word.toNat) ((List.range k.reps.length).zip k.reps)
  pure { k with reps := reps, checked := true }

/-- Apply a parcel to one repeat. -/
def refreshApply (s : State) (n : Nat) (k0 k1 : List Nat) (poison : Bool) (g : GateRep) : GateRep :=
  let ch := hChain g.a.h
  let p0 := primeAt s ch 0
  let p1 := primeAt s ch 1
  let (t, β, j, c, p) := rowIndex n
  let pr := if p = 0 then p0 else p1
  let new := addRow pr p (rowFactor pr (stepExp g.ats t j) (accLimb g.digits c β)) k0 k1 g.new
  if n % 24 = 23 then
    let acc := stepEnd p0 p1 g.acc new
    { g with acc := acc, digits := digitsOf acc, new := zeroAcc, bad := g.bad || g.stepBad || poison, stepBad := false }
  else { g with new := new, stepBad := g.stepBad || poison }

/-- A repeat goes back to the end of its last whole step (R121). -/
def dropStep (g : GateRep) : GateRep := { g with digits := digitsOf g.acc, new := zeroAcc, stepBad := false }

/-- A G_REFRESH that is suspended keeps its last completed step and discards the partial one (R121). -/
def dropPartial (k : GateOps) : GateOps :=
  if k.done % 24 = 0 then k else { k with done := k.done / 24 * 24, reps := k.reps.map dropStep }

/-- Write the samples of a finished G_REFRESH and commit them in repeat order (R117, R125). -/
def refreshFinish (c : Nat) (i : Issued) (k : GateOps) : Eng Unit := do
  let e := envOf c .gateLane i
  let s ← get
  eachE (fun (x : Nat × GateRep) =>
    let ch := hChain x.2.a.h
    writeSample e x.1 x.2.d x.2.lap (extractSample (primeAt s ch 0) (primeAt s ch 1) x.2.acc) x.2.bad)
    ((List.range k.reps.length).zip k.reps)
  eachE (fun (g : GateRep) => commitHdr e g.d.addr g.d.h g.bad) k.reps

/-- Take the next parcel and apply it to every repeat. -/
def refreshParcel (c : Nat) (i : Issued) (k : GateOps) : Eng GateOps := do
  let e := envOf c .gateLane i
  let _ ← streamFor e false
  let x ← nextParcel e
  let s ← get
  let (_, β, _, _, p) := rowIndex k.done
  let ad := (k.reps.head?).map fun g => (g.d.addr, false)
  atGran 0 p 0 (needE (x.pos == p && x.beta == β && x.block == rowLabel k.done) .streamOrder ad)
  let ch := (k.reps.head?.map fun g => hChain g.a.h).getD 0
  let k0 := unpackGrans x.k0
  let k1 := unpackGrans x.k1
  let q := (primeAt s ch p).q
  let at_ := min (firstBad q k0) (firstBad q k1) / 64
  atGran 0 p at_ (needE (canonical q k0 && canonical q k1) .residueRange ad)
  act (parcelApplied c)
  pure { k with done := k.done + 1, reps := k.reps.map fun g => refreshApply s k.done k0 k1 x.poison g }

/-- Every parcel of the key is taken. -/
def allParcels (k : GateOps) : Bool := decide (12 * ((k.reps.map (·.nLwe)).headD 0) ≤ k.done)

/-- A streamed G_REFRESH that faults while its stream runs leaves the stream (R94, R119); against a void it leaves nothing (R86).
(DEDUCED, log 49) -/
def refreshFault (c : Nat) (i : Issued) (f : FaultInfo) (s : State) : State :=
  let p := (core s c).relay
  endFault c .gateLane i 0 f (if exhausted p || voidCurrent p then s else leaveStream c s)

/-- Hold a G_REFRESH with its progress, at a checkpoint (R121). -/
def gateHold (c : Nat) (k : GateOps) (s : State) : State :=
  setHead c .gateLane (fun i => { i with gate := some k, journal := [] }) { s with wrote := [], wroteFar := [] }

/-- One part of a G_REFRESH's work: it goes on with what follows, faults as told, waits, or stops at a checkpoint. -/
def gateStep {α : Type} (c : Nat) (i : Issued) (x : Eng α) (fault : FaultInfo → State → State) (next : α → State → State) (s : State) : State :=
  match runFrom i.journal (stopping s c i.ctx) x s with
  | .ok v s => next v s
  | .error (.fault f, _) s => fault f s
  | .error (stop, j) s => holdHead c .gateLane i 0 j stop s

/-- A G_REFRESH ends: every repeat retires with it (R216). -/
def refreshEnd (c : Nat) (i : Issued) (s : State) : State :=
  endOk c .gateLane i [] ((List.range (repCount i.word.toNat)).foldl (fun s _ => repeatSignal c i s) s)

/-- One step of a streamed G_REFRESH: the checks against the stream, one parcel, or the samples at the end. -/
def refreshAdvance (c : Nat) (i : Issued) (k : GateOps) (s : State) : State :=
  if !k.checked then gateStep c i (refreshStart c i k) (refreshFault c i) (fun k s => gateHold c k s) s
  else if allParcels k then gateStep c i (refreshFinish c i k) (endFault c .gateLane i 0) (fun _ s => refreshEnd c i s) s
  else gateStep c i (refreshParcel c i k) (refreshFault c i) (fun k s => gateHold c k s) s

/-! ## G_COMBINE (R120) -/

/-- Read the four limbs of an accumulator. -/
def readAcc (e : Env) (r : Nat) (o : Obj) : Eng (List (List Nat) × Bool) := do
  let l ← mapE (fun (x : Nat × Nat) => readAccLimb e r o x.1 x.2) [(0, 0), (0, 1), (1, 0), (1, 1)]
  pure (l.map (·.1), l.any (·.2))

/-- The product of two accumulators in evaluation form: three components of two limbs. -/
def accProduct (p0 p1 : Prime) (a b : List (List Nat)) : List (List Nat) :=
  (List.range 6).map fun k =>
    let p := k % 2
    let pr := if p = 0 then p0 else p1
    let m := fun (x y : Nat) => mulLimb pr (accLimb a x p) (accLimb b y p)
    if k / 2 = 0 then m 0 0 else if k / 2 = 1 then addLimb pr (m 0 1) (m 1 0) else m 1 1

/-- Checks of G_COMBINE. -/
def combineChecks (c : Nat) (i : Issued) (r : Nat) : Eng GateJob := do
  let e := envOf c .gateLane i
  let w := i.word.toNat
  let da := addrOf i r 0
  let (os, ds) ← gateHeaders e w [addrOf i r 1, addrOf i r 2] [da] (fun k => k == 6) false
  let gp ← readGpb e w (addrOf i r 3) os
  needE (modeOk w gp.nLwe) .reservedField
  needE (!(os.any fun o => o.addr == da)) .inPlace (some (da, false))
  let s ← get
  let a := os.headD { addr := 0, h := 0 }
  let ch := hChain a.h
  let old := (ds.map (·.h)).headD 0
  let os ← mapE (openPlace e false 32) os
  let h := if gMode w = 1 then sampleHdr s e.ctx old ch (gOutWidth w) (hTag a.h) else accHdr s e.ctx old ch (hTag a.h)
  let d ← openPlace e true (if gMode w = 1 then 33 else 32) { addr := da, h := h }
  pure { e := e, r := r, w := w, os := os, ds := [d], ch := ch, gp := gp, lap := objLap s os d,
         poison := os.any fun o => hPoison o.h }

/-- Address of half h of the relinearisation row for digit β and limb p. -/
def relinAddr (j : GateJob) (β p h : Nat) : Nat := j.gp.relin + (2 * β + p) * 18432 + 9216 * h

/-- What G_COMBINE does once checked. (DEDUCED, log 57; DESIGN CHOICE, log 58) -/
def combineWork (j : GateJob) : Eng Unit := do
  let s ← get
  let p0 := primeAt s j.ch 0
  let p1 := primeAt s j.ch 1
  let d ← startDest j.e j.dst j.dst.h j.poison
  let ls ← mapE (readAcc j.e j.r) j.os
  let pr := accProduct p0 p1 ((ls.map (·.1)).headD []) ((ls.map (·.1)).getD 1 [])
  let ks ← mapE (fun (x : Nat × Nat) => do
    let q := if x.2 = 0 then p0.q else p1.q
    let (k0, b0) ← readRun j.e j.r x.2 q (relinAddr j x.1 x.2 0) 32
    let (k1, b1) ← readRun j.e j.r x.2 q (relinAddr j x.1 x.2 1) 32
    pure (k0, k1, b0 || b1)) [(0, 0), (0, 1), (1, 0), (1, 1)]
  let bad := j.poison || ls.any (·.2) || ks.any (·.2.2)
  let digit := fun (β : Nat) => nttInvLimb (if β = 0 then p0 else p1) 11 false (pr.getD (4 + β) [])
  let res := [(0, 0), (0, 1), (1, 0), (1, 1)].foldl (fun (acc : List (List Nat)) (x : Nat × Nat) =>
    let q := if x.2 = 0 then p0 else p1
    let k := ks.getD (2 * x.1 + x.2) ([], [], false)
    addRow q x.2 (nttFwdLimb q 11 ((digit x.1).map fun v => v % q.q)) k.1 k.2.1 acc) (pr.take 4)
  if gMode j.w = 1 then
    writeSample j.e j.r d j.lap (extractSample p0 p1 ((List.range 4).map fun k => nttInvLimb (if k % 2 = 0 then p0 else p1) 11 false (res.getD k []))) bad
  else
    eachE (fun (x : Nat × Nat) => writeLimb j.e j.r 32 d j.lap x.1 x.2 (accLimb res x.1 x.2) bad) [(0, 0), (0, 1), (1, 0), (1, 1)]
  commitHdr j.e d.addr d.h bad

/-- G_COMBINE. -/
def gateCombine (c : Nat) (i : Issued) (r : Nat) : Eng (List SealMsg) := gateRun (combineChecks c i r) combineWork

/-! ## G_EXTRACT and G_PACK (R123, R124) -/

/-- Read the index table (check 17). -/
def readIndices (e : Env) (a n nRing : Nat) (distinct : Bool) : Eng (List Nat) := do
  let bs ← loadControl e a (2 * n)
  let l := (List.range n).map fun k => ofLe ((bs.drop (2 * k)).take 2)
  let t := nRing / 2048
  needE (l.all (fun j => decide (j < nRing)) && (!distinct || decide (l.map fun j => j % t).Nodup)) .tableMismatch (some (a, false))
  pure l

/-- The residues of sample j of R123, before the mapping. -/
def extractRaw (p : Prime) (n : Nat) (c0 c1 : List Nat) (j : Nat) : List Nat :=
  let t := n / 2048
  ((List.range 2048).map fun k => if t * k ≤ j then c1.getD (j - t * k) 0 else negmod p (c1.getD (j + n - t * k) 0)) ++
    [c0.getD j 0]

/-- Checks of G_EXTRACT. -/
def extractChecks (c : Nat) (i : Issued) (r : Nat) : Eng GateJob := do
  let e := envOf c .gateLane i
  let w := i.word.toNat
  let n := gCountM1 w + 1
  let das := (List.range n).map fun k => sampleAddr (addrOf i r 0) k
  let (os, ds) ← gateHeaders e w [addrOf i r 1] das (fun k => k == 1) false
  let s ← get
  let a := os.headD { addr := 0, h := 0 }
  let ch := hChain a.h
  let nr := 2 ^ chLog2N s ch
  needE (segOk w) .reservedField
  let idx ← readIndices e (addrOf i r 3) n nr false
  needE (!(das.contains a.addr)) .inPlace (some (a.addr, false))
  let a ← openPlace e false (nr / 64) a
  let dd ← mapE (fun (d : Obj) => openPlace e true 33
    { addr := d.addr, h := sampleHdr s e.ctx d.h (gChain w) (gOutWidth w) (hTag a.h) }) ds
  pure { e := e, r := r, w := w, os := [a], ds := dd, ch := ch, idx := idx, lap := false, poison := hPoison a.h }

/-- What G_EXTRACT does once checked. -/
def extractWork (j : GateJob) : Eng Unit := do
  eachE (fun (d : Obj) => startHdr j.e d.addr d.h j.poison) j.ds
  let s ← get
  let nr := 2 ^ chLog2N s j.ch
  let p := primeAt s j.ch 0
  let qG := (primeAt s (gChain j.w) 0).q
  let l0 ← mapE (fun g => atGran j.r 0 g (readGran j.e (nr / 64) p.q j.src 0 0 g)) (List.range (nr / 64))
  let l1 ← mapE (fun g => atGran j.r 0 g (readGran j.e (nr / 64) p.q j.src 1 0 g)) (List.range (nr / 64))
  let bad := l0.any (·.2) || l1.any (·.2)
  eachE (fun (x : Nat × Obj) =>
    writeSample j.e j.r x.2 (objLap s j.os x.2)
      ((extractRaw p nr (l0.flatMap (·.1)) (l1.flatMap (·.1)) (j.idx.getD x.1 0)).map fun v => mapModulus p.q qG v) bad)
    ((List.range j.ds.length).zip j.ds)
  eachE (fun (d : Obj) => commitHdr j.e d.addr d.h (j.poison || bad)) j.ds

/-- G_EXTRACT. -/
def gateExtract (c : Nat) (i : Issued) (r : Nat) : Eng (List SealMsg) := gateRun (extractChecks c i r) extractWork

/-- Put a sample's values at index j into the two limbs of R124. -/
def packInto (p : Prime) (n j : Nat) (v : List Nat) (l : List Nat × List Nat) : List Nat × List Nat :=
  let t := n / 2048
  ((l.1.set j (v.getD 2048 0)),
    (List.range 2048).foldl (fun acc k =>
      if t * k ≤ j then acc.set (j - t * k) (v.getD k 0) else acc.set (j + n - t * k) (negmod p (v.getD k 0))) l.2)

/-- The destination of a G_PACK is opened as R124 asks. -/
def packDestOk (s : State) (ctx h : Nat) : Bool :=
  partOk s ctx 1 (hChain h) [0] h && decide (hChain h < 16) && slotUsable s (hChain h) && hLevel h == 0 && hMap h == 1 &&
    !(hNtt h 0) && !(hNtt h 1) && hLayout h == 0

/-- Checks of G_PACK. -/
def packChecks (c : Nat) (i : Issued) (r : Nat) : Eng GateJob := do
  let e := envOf c .gateLane i
  let w := i.word.toNat
  let n := gCountM1 w + 1
  let da := addrOf i r 0
  let sa := (List.range n).map fun k => sampleAddr (addrOf i r 1) k
  let (os, ds) ← gateHeaders e w sa [da] gateKind true
  let s ← get
  let d := ds.headD { addr := 0, h := 0 }
  let ch := hChain d.h
  let nr := 2 ^ chLog2N s ch
  needE (segOk w) .reservedField
  let idx ← readIndices e (addrOf i r 3) n nr true
  needE (!(sa.contains da)) .inPlace (some (da, false))
  needE (packDestOk s e.ctx d.h) .notOpen (some (da, false))
  let os ← mapE (openPlace e false 33) os
  let d ← openPlace e true (nr / 64) d
  pure { e := e, r := r, w := w, os := os, ds := [d], ch := ch, idx := idx, lap := objLap s os d, poison := false }

/-- What G_PACK does once checked. -/
def packWork (j : GateJob) : Eng Unit := do
  let s ← get
  let nr := 2 ^ chLog2N s j.ch
  let p := primeAt s j.ch 0
  let ls ← mapE (fun (o : Obj) => do
    let (v, bad) ← readSample j.e j.r o
    pure (v.map fun x => mapModulus (primeAt s (hChain o.h) 0).q p.q x, bad || hPoison o.h)) j.os
  let bad := ls.any (·.2)
  if bad then hdrPoison j.e j.dst.addr
  let zero := List.replicate nr 0
  let out := (j.idx.zip (ls.map (·.1))).foldl (fun acc x => packInto p nr x.1 x.2 acc) (zero, zero)
  eachE (fun (x : Nat × List Nat) => writeLimb j.e j.r (nr / 64) j.dst j.lap x.1 0 x.2 bad) [(0, out.1), (1, out.2)]

/-- G_PACK. -/
def gatePack (c : Nat) (i : Issued) (r : Nat) : Eng (List SealMsg) := gateRun (packChecks c i r) packWork

/-! ## Claims (R65, R175) -/

/-- The vector engine of a core is closed to a gate instruction: a vector instruction before it has not retired, or one has begun. -/
def vecClosed (s : State) (c serial : Nat) : Bool :=
  (unretiredOf (core s c)).any fun i => iClass i.word.toNat == 6 && (decide (i.serial < serial) || begun i)

/-- The head of the lanes' gate queue with the row's opcode, once its claim on the vector engine is granted (R175). -/
def gateHead (s : State) (c op : Nat) : Option Issued :=
  (readyHead s c .gateLane op).filter fun i => begun i || !(vecClosed s c i.serial)

/-- A gate instruction of the lanes' queue: it waits for its claim on the vector engine. -/
def gateRow (c op : Nat) (run : Nat → Issued → Nat → Eng (List SealMsg)) (s : State) : State :=
  match gateHead s c op with
  | some _ => runEngine c .gateLane op (run c) s
  | none => s

/-- G_KSW: it waits for its claim on the array, which a BCONV may hold too (R65, R137). -/
def gKswRow (c : Nat) (s : State) : State :=
  match readyHead s c .gateArray 2 with
  | some i => if !(begun i) && (arrayClosed s c i.serial || bconvHolds s c) then s else runEngine c .gateArray 2 (gateKsw c) s
  | none => s

/-- G_REFRESH: a streamed one is checked and advances by one step; the segments of mode 1 run to their end or a wait. -/
def gRefreshRow (c : Nat) (s : State) : State :=
  match gateHead s c 3 with
  | none => s
  | some i =>
    match i.gate with
    | some k => refreshAdvance c i k s
    | none =>
      if gMode i.word.toNat = 0 then gateStep c i (refreshIssue c i) (refreshFault c i) (fun k s => gateHold c k s) s
      else gateStep c i (refreshSegments c i) (endFault c .gateLane i 0) (fun _ s => refreshEnd c i s) s

end Sys2Proof.Machine
end

