-- ==== Sys2Proof/Machine/Sched.lean ====
section
/-! DEFINITION. Express commands, suspension with its save area, restoration, residency and slots (R292, R303-R307, R431). -/

namespace Sys2Proof.Machine

/-! ## Eligibility and rank (R303) -/

/-- A context is eligible: OPEN, its chain ACTIVE where it has one, a stream with work. -/
def eligible (s : State) (ctx : Nat) : Bool :=
  ctxState s ctx == 1 && chainReady s ctx &&
    s.streams.any fun e => e.1 / 128 == ctx && e.2.known &&
      (e.2.mode == .running || decide (0 < sdiff32 e.2.head.toNat e.2.next.toNat))

/-- Resident contexts. -/
def residents (s : State) : List Nat := (s.contexts.filter fun e => ctxResident s e.1).map fun e => e.1

/-- A context has chain affinity: it needs no chain, or its slot has a resident context. -/
def affinity (s : State) (ctx : Nat) : Bool :=
  !ctxChained s ctx || (residents s).any fun k => k != ctx && ctxChained s k && ctxChain s k == ctxChain s ctx

/-- A context comes before another: PRIORITY, affinity, time waiting. (DEDUCED, log 24) -/
def ranksBefore (s : State) (a b : Nat) : Bool :=
  if ctxPriority s a ≠ ctxPriority s b then decide (ctxPriority s b < ctxPriority s a)
  else if affinity s a ≠ affinity s b then affinity s a
  else decide ((context s a).waitSince < (context s b).waitSince)

/-- The best ranked of a list, the earliest in the list among equals. -/
def bestRanked (s : State) : List Nat → Option Nat
  | [] => none
  | a :: r => some (r.foldl (fun b k => if ranksBefore s k b then k else b) a)

/-! ## Stopping a context on its cores (R228, R304) -/

/-- A core holds work or a slot of a context. -/
def liveOn (s : State) (ctx c : Nat) : Bool :=
  inSlot s c ctx || inCore ctx (core s c) != 0 || nmem (core s c).stopping ctx || nmem (core s c).saving ctx ||
    nmem (core s c).restoring ctx

/-- Cores that hold work or a slot of a context. -/
def liveCores (s : State) (ctx : Nat) : List Nat := (List.range 128).filter fun c => liveOn s ctx c

/-- Begin the stop of a context on a core. A restore under way is saved again as it stands. -/
def stopOn (ctx c : Nat) (s : State) : State :=
  if nmem (core s c).saving ctx then s else setCore c (fun x => { x with stopping := nins x.stopping ctx }) s

/-- Begin the stop of a context on every core that holds it. -/
def stopAll (ctx : Nat) (s : State) : State := (liveCores s ctx).foldl (fun s c => stopOn ctx c s) s

/-- Parcels of its current stream that a core has done with (R94, R121). -/
def parcelsDone (p : RelayPort) : Nat :=
  match p.current with
  | some d => if p.left then d.parcels else max p.skip (p.got - (p.slots.filter fun x => !x.applied).length)
  | none => 0

/-- The parcels of a stream of gate keys that a core of its round keeps: what it has applied, and on the core that stops the whole steps
alone (R121). -/
def parcelsKept (s : State) (d : StreamDesc) (stop k : Nat) : Nat :=
  let p := (core s k).relay
  if (p.current.map fun x => x.stream) = some d.stream then
    if k = stop then parcelsDone p / 24 * 24 else parcelsDone p
  else 0

/-- A stream of gate keys that a suspended core draws on goes back to the first parcel of the earliest step that some consuming core of
the round has not completed; each core skips the parcels it has applied (R121). -/
def rewindGate (c ctx : Nat) (s : State) : State :=
  let r := roundOf c
  let e := engine s r
  match e.current, e.serving with
  | some d, some q =>
    if d.ctx = ctx ∧ d.void = none ∧ d.weight = false ∧ d.params.headD 0 = 3 then
      let cs := (List.range 16).map fun k => 16 * r + k
      let from_ := ((cs.filter fun k => consumes d k).map fun k => parcelsKept s d c k).foldl min d.parcels / 24 * 24
      let todo := (streamLabels s d.stream q.instr.word.toNat d.header.toNat e.listing).drop from_
      let s' := cs.foldl (fun t k => setRelay k (fun p =>
        if (p.current.map fun x => x.stream) = some d.stream then
          { p with slots := [], got := from_, skip := if consumes d k then parcelsKept s d c k else 0 }
        else p) t) s
      setEngine r (fun x => { x with todo := todo, out := [], limbs := [] })
        (setCore c (fun x => setQueue x .gateLane ((queue x .gateLane).map fun i =>
          if i.ctx = ctx then { i with gate := i.gate.map dropPartial } else i)) s')
    else s
  | _, _ => s

/-- An instruction as it is saved: where it stopped between two checkpoints, what it goes back to is kept (R73, R228, R280). -/
def savedInstr (q : QueueId) (i : Issued) : Issued :=
  { i with journal := if q = .move then keptMove i.journal else keptWork i.journal }

/-- Take what a core holds of a context out of it: queued instructions keep their order and progress, finished tiles and the
discard mark go with them; its blocks of instruction memory and what waits at dispatch are not saved (R228, R142, R173). -/
def takeOut (ctx c : Nat) (s : State) : State :=
  let s := rewindGate c ctx s
  let x := core s c
  let q := allQueues.flatMap fun k => ((queue x k).filter fun i => i.ctx == ctx).map fun i => (k, savedInstr k i)
  let s := setStream ctx c (fun t => { t with
    saved := t.saved ++ q, fetched := none, held := none, fetchFault := none, blockGens := [],
    savedFinished := t.savedFinished ++ x.array.finished.filter (fun b => b.ctx == ctx),
    savedQueue := t.savedQueue ++ x.array.queue.filter (fun b => b.ctx == ctx),
    savedDiscard := t.savedDiscard || decide (x.vec.discard = some ctx) }) s
  setEngine (roundOf c) (yieldEngine ctx) (setCore c (fun x =>
    let x := allQueues.foldl (fun x k => setQueue x k ((queue x k).filter fun i => i.ctx != ctx)) x
    { x with
      imem := x.imem.map fun b => if b.ctx = some ctx then freeBlock b else b,
      pinWaits := x.pinWaits.filter fun k => k != ctx,
      array := { x.array with finished := x.array.finished.filter (fun t => t.ctx != ctx),
                              queue := x.array.queue.filter (fun t => t.ctx != ctx) },
      vec := { x.vec with discard := if x.vec.discard = some ctx then none else x.vec.discard } }) s)

/-- A KEY_MAC or a relay MM that has begun has parcels at its core to complete before it yields (R96, R282); one that waits for a page
yields. (DEDUCED, log 112) -/
def completesParcels (s : State) (c ctx : Nat) : Bool :=
  let x := core s c
  (match x.relay.current with
   | some d => d.ctx == ctx && d.void.isNone
   | none => false) && !x.relay.left && x.relay.slots.any (fun y => !y.applied) &&
    ((x.qPoly.take 1).any (fun i => i.ctx == ctx && i.km.isSome && i.waitPage.isNone) ||
     (x.qMm.take 1).any (fun i => i.ctx == ctx && i.mm.isSome && i.waitPage.isNone && mmRelay i.word.toNat))

/-- EXPRESS_WORST: the longest time from acceptance to effect. -/
def noteEffect (ctx : Nat) (s : State) : State :=
  match (context s ctx).express with
  | some e =>
    let d := s.time - e.since
    if total s 0x3900 0xA < d then { s with totals := tset s.totals (ekey 0x3900 0xA) d } else s
  | none => s

/-- EXPRESS_TAKE_EFFECT (R228, R305): dispatch of the context has stopped on the core and every engine is at a checkpoint, as
it is between two steps, with the parcels it holds completed; envelopes in flight come back (R240) and the save begins. -/
def expressTakeEffect (c ctx : Nat) (s : State) : State :=
  if nmem (core s c).stopping ctx && !(completesParcels s c ctx) then
    let s := noteEffect ctx s
    let s := takeOut ctx c (recallFlights c ctx s)
    setCore c (fun x => { x with stopping := ndel x.stopping ctx, restoring := ndel x.restoring ctx, saving := nins x.saving ctx }) s
  else s

/-! ## The save area (R292, Table 20.7) -/

/-- Bytes of an area whose layout the spec does not state: free values from a start. (DESIGN CHOICE, log 23) -/
def freeArea (base off n : Nat) : List Byte := (List.range n).map fun k => BitVec.ofNat 8 (Config.freeValue (base + off + k))

/-- V0 to V31 of a context on a core as bytes. -/
def vregBytes (s : State) (ctx c : Nat) : List Byte :=
  (List.range 2048).flatMap fun k => toLe 4 (tget 0 (core s c).vec.regs (ctx * 2048 + k)).toNat

/-- The lane poison bits. -/
def vpoisonBytes (s : State) (ctx c : Nat) : List Byte :=
  (List.range 256).map fun j => BitVec.ofNat 8 (((List.range 8).map fun l =>
    if nmem (core s c).vec.poison (ctx * 2048 + 8 * j + l) then 2 ^ l else 0).sum)

/-- An area of n bytes: what is known of it, then free values. -/
def padArea (base off n : Nat) (known : List Byte) : List Byte := known ++ freeArea base (off + known.length) (n - known.length)

/-- The accumulators of a G_REFRESH that is saved: 128 granules per repeat. -/
def accBytes (t : Stream) : List Byte :=
  ((t.saved.filterMap fun e => e.2.gate).flatMap fun g => g.reps.flatMap fun r => r.acc.flatMap fun l =>
    (granules l).flatMap packGran)

/-- Finished tiles of the queue: each in 64 KiB. -/
def tileBytes (base : Nat) (t : Stream) : List Byte :=
  ((List.range 4).flatMap fun e => padArea base (0x1_0000 + 0x1_0000 * e) 0x1_0000
    (((t.savedQueue[e]?).map fun x => (x.data.flatMap fun w => toLe 4 w.toNat).take 0x1_0000).getD []))
  ++ (List.range 4).flatMap fun e => padArea base (0x5_0000 + 16 * e) 16
    (((t.savedQueue[e]?).map fun x => toLe 16 x.tag.toNat).getD [])

/-- Cells of an accumulator bank, 8 bytes each: its halves, row by row (R142). -/
def bankBytes (b : Bank) : List Byte :=
  (b.half0 ++ b.half1).flatMap fun row => row.flatMap fun v => toLe 8 (v % (2 ^ 64 : Int)).toNat

/-- Live accumulator banks of a saved context: those finished and not pushed, and the one of an MM under way, in 128 KiB each. -/
def banksBytes (base : Nat) (t : Stream) : List Byte :=
  let l := t.savedFinished.filter (fun b => !b.aborted) ++ t.saved.filterMap fun e => e.2.mm.bind fun o => o.bank
  (List.range 2).flatMap fun k => padArea base (0x6_0000 + 0x2_0000 * k) 0x2_0000
    (((l[k]?).map fun b => (bankBytes b).take 0x2_0000).getD [])

/-- Partials of the row groups under way, 8 bytes per row (R161). -/
def partBytes (t : Stream) : List Byte :=
  ((t.saved.filterMap fun e => e.2.mm).flatMap fun o => o.parts.flatMap fun l => l.flatMap fun v =>
    toLe 4 v.1 ++ toLe 4 v.2).take 0x3_C000

/-- The areas of a core's save area apart from the vector registers, as offset and bytes. (DESIGN CHOICE, log 23) -/
def saveAreas (base : Nat) (t : Stream) : List (Nat × List Byte) :=
  [(0, freeArea base 0 0x1000), (0x4000, freeArea base 0x4000 0xC000), (0x1_0000, tileBytes base t),
   (0x6_0000, banksBytes base t), (0xA_0000, padArea base 0xA_0000 0x2_4000 (accBytes t)),
   (0xC_4000, padArea base 0xC_4000 0x3_C000 (partBytes t))]

/-- The vector-register area with its check. (DEDUCED, log 67) -/
def vregArea (s : State) (ctx c : Nat) : List Byte :=
  let b := vregBytes s ctx c ++ vpoisonBytes s ctx c
  b ++ toLe 4 (crc32c b)

/-- Where a core's save area starts. -/
def saveBase (s : State) (ctx c : Nat) : Nat := ctxSaveBase s ctx + c * 0x10_0000

/-- A save area that cannot be used, or fails a check: SAVE_FAULT, and the context is killed with KILL_REASON 2 (R292, R431). -/
def saveFault (ctx c : Nat) (s : State) : State :=
  stageRec (dieOf c) { unit := .ctx, reason := .saveFault, core := c, ctx := ctx, addr := some (saveBase s ctx c, false) }
    (killContext ctx 2 s)

/-- Write areas of a save area. (DESIGN CHOICE, log 23) -/
def writeAreas (ctx base : Nat) (l : List (Nat × List Byte)) (s : State) : State :=
  l.foldl (fun s a => unitWrite .write true false ((unitPieces s ctx true (base + a.1) a.2.length).getD []) a.2 s) s

/-! ## Migration of pending frames (R284) -/

/-- Copy the bytes of a frame to another, poison marks with them. -/
def moveFrame (f g : Nat) (s : State) : State :=
  let lo := f * 2 ^ 21
  let dst := g * 2 ^ 21
  let s := noteRead .read false lo (2 ^ 21) s
  let s := zeroFrames g 1 s
  let mine := fun (a : Nat) => decide (lo ≤ a ∧ a < lo + 2 ^ 21)
  { s with
    mem := (s.mem.filter fun c => mine c.1).foldl (fun m c => memSet m (dst + (c.1 - lo)) c.2) s.mem,
    poison := (s.poison.filter mine).foldl (fun l a => nins l (dst + (a - lo))) s.poison }

/-- Migrate one page of a suspended context when its frame is pending: which free frame it takes is not stated. -/
def migratePage (ctx : Nat) (s : State) (e : Nat × Mapping) : State :=
  if e.2.present && !e.2.huge && s.hbm.any (fun h => nmem h.pending e.2.frame) then
    match pickPage false (fun _ => true) s with
    | (none, _) => s
    | (some g, s) =>
      let s := freeFrames e.2.frame 1 (takeFrames g 1 (moveFrame e.2.frame g s))
      setMapping ctx e.1 (fun m => { m with frame := g, retiring := false }) s
  else s

/-- Every pending 2 MiB page of a context moves. -/
def migratePending (ctx : Nat) (s : State) : State := (context s ctx).pages.foldl (migratePage ctx) s

/-! ## The end of a save, and restoration -/

/-- An express command ends. -/
def endExpress (ctx status : Nat) (s : State) : State :=
  match (context s ctx).express with
  | some e =>
    let s := match e.result with
      | some k => endResult k status s
      | none => s
    setContext ctx (fun x => { x with express := none }) s
  | none => s

/-- The pending express command of a context has a code. -/
def expressIs (s : State) (ctx code : Nat) : Bool :=
  match (context s ctx).express with
  | some e => e.code.toNat == code
  | none => false

/-- Cores on which a stream of a context is known. -/
def knownCores (s : State) (ctx : Nat) : List Nat :=
  (s.streams.filter fun e => e.1 / 128 == ctx && e.2.known).map fun e => e.1 % 128

/-- A context has left its last core: every stream record is written back (R206), and unless that kills the context it is no longer
resident, and SUSPENDED where a SUSPEND waits (R290). -/
def leftAll (ctx : Nat) (s : State) : State :=
  let s := (knownCores s ctx).foldl (fun s c => if ctxState s ctx = 1 then writeBack c ctx s else s) s
  if ctxState s ctx = 1 then
    let s := setContext ctx (fun x => { x with leaving := false, waitSince := s.time }) (setCtxF ctx 11 11 0 (casSome s))
    if expressIs s ctx 0x10 then endExpress ctx 0 (migratePending ctx (setCtxF ctx 10 8 2 s)) else s
  else s

/-- The context leaves residency altogether: SUSPEND waits, or the scheduler moves it out. (DEDUCED, log 22) -/
def leavesAll (s : State) (ctx : Nat) : Bool := (context s ctx).leaving || expressIs s ctx 0x10

/-- CONTEXT_SAVE_DONE (R292, R206): once no ended instruction of the context waits to retire on the core, the save area is
written; with the last core the context is saved. A stream that only gives its slot up has its record written too. -/
def contextSaveDone (c ctx : Nat) (s : State) : State :=
  let x := core s c
  if nmem x.saving ctx && !(x.retiring.any fun e => e.instr.ctx == ctx) then
    match unitPieces s ctx true (saveBase s ctx c) 0x10_0000 with
    | none => saveFault ctx c s
    | some _ =>
      let base := s.fresh
      let s := { s with fresh := s.fresh + 0x10_0000 }
      let s := setStream ctx c (fun t => { t with savedAt := some base }) s
      let s := writeAreas ctx (saveBase s ctx c) (saveAreas base (stream s ctx c) ++ [(0x1000, vregArea s ctx c)])
        (unitUse ctx (saveBase s ctx c) 0x10_0000 s)
      let s := setCore c (fun x => { x with
        saving := ndel x.saving ctx, slots := x.slots.map fun o => if o = some ctx then none else o }) s
      if !(leavesAll s ctx) then writeBack c ctx s
      else if (liveCores s ctx).isEmpty then leftAll ctx s else s
  else s

/-- What a save area holds at an offset. -/
def readArea (ctx base off n : Nat) (s : State) : List Byte × Bool × State :=
  unitRead .read true ((unitPieces s ctx false (base + off) n).getD []) s

/-- Every other area stands as it was saved. (DESIGN CHOICE, log 23) -/
def areasOk (ctx base : Nat) (l : List (Nat × List Byte)) (s : State) : Bool × State :=
  l.foldl (fun acc a =>
    let r := readArea ctx base a.1 a.2.length acc.2
    (acc.1 && !r.2.1 && r.1 == a.2, r.2.2)) (true, s)

/-- Put bytes of the vector-register area into the engine. (DEDUCED, log 67) -/
def loadVregs (ctx c : Nat) (b : List Byte) (s : State) : State :=
  setCore c (fun x => { x with vec := { x.vec with
    regs := (List.range 2048).foldl (fun t k => tset t (ctx * 2048 + k) (BitVec.ofNat 32 (ofLe ((b.drop (4 * k)).take 4)))) x.vec.regs,
    poison := (List.range 2048).foldl (fun p k =>
      if bit (ofLe [b.getD (8192 + k / 8) 0]) (k % 8) then nins p (ctx * 2048 + k) else ndel p (ctx * 2048 + k)) x.vec.poison } }) s

/-- A saved context fits back into a core: its instructions into the issue queues, its tiles into the finished-tile queue, its banks into
the array (R138, R142, R213). -/
def fitsBack (s : State) (ctx c : Nat) : Bool :=
  let t := stream s ctx c
  let x := core s c
  allQueues.all (fun q => decide ((queue x q).length + (t.saved.filter fun e => e.1 == q).length ≤ 8)) &&
    decide (x.array.queue.length + t.savedQueue.length ≤ 4 ∧ x.array.finished.length + t.savedFinished.length ≤ 2)

/-- Put a saved context back into a core: its instructions stay queued, and are not dispatched again (R228). -/
def putBack (ctx c : Nat) (s : State) : State :=
  let t := stream s ctx c
  let s := setCore c (fun x =>
    let x := t.saved.foldl (fun x e => setQueue x e.1 (queue x e.1 ++ [e.2])) x
    { x with
      array := { x.array with finished := x.array.finished ++ t.savedFinished, queue := x.array.queue ++ t.savedQueue },
      vec := { x.vec with discard := if t.savedDiscard then some ctx else x.vec.discard },
      restoring := ndel x.restoring ctx }) s
  setStream ctx c (fun t => { t with saved := [], savedFinished := [], savedQueue := [], savedDiscard := false, savedAt := none }) s

/-- CONTEXT_RESTORE_DONE (R304, R431): once there is room, the save area is read and checked; dispatch goes on, or the context is
killed. -/
def contextRestoreDone (c ctx : Nat) (s : State) : State :=
  if nmem (core s c).restoring ctx && fitsBack s ctx c then
    let s := unitUse ctx (saveBase s ctx c) 0x10_0000 s
    match (stream s ctx c).savedAt, unitPieces s ctx false (saveBase s ctx c) 0x10_0000 with
    | some base, some _ =>
      let b := saveBase s ctx c
      let r := readArea ctx b 0x1000 0x2104 s
      let a := areasOk ctx b (saveAreas base (stream s ctx c)) r.2.2
      if !r.2.1 && a.1 && ofLe (r.1.drop 0x2100) == crc32c (r.1.take 0x2100) then
        putBack ctx c (loadVregs ctx c r.1 a.2)
      else saveFault ctx c a.2
    | some _, none => saveFault ctx c s
    | none, _ => putBack ctx c s
  else s

/-! ## Express commands (R305, R306) -/

/-- An express row: it runs on the pending command with its code; a context that is FREE or CLOSING answers CONTEXT_GONE. -/
def expressRow (ctx code : Nat) (f : Express → State → State) (s : State) : State :=
  match (context s ctx).express with
  | some e =>
    if e.code.toNat = code ∧ running s = true then
      let s := readEntry ctx s
      if ctxState s ctx = 0 ∨ ctxState s ctx = 3 then endExpress ctx 0x23 s else f e s
    else s
  | none => s

/-- SUSPEND: dispatch stops on every core that holds the context; one that no core holds is SUSPENDED at once. -/
def suspend (ctx : Nat) (s : State) : State :=
  expressRow ctx 0x10 (fun _ s =>
    if ctxState s ctx = 2 then endExpress ctx 0 s
    else if (liveCores s ctx).isEmpty then leftAll ctx (noteEffect ctx s)
    else stopAll ctx s) s

/-- RESUME: a SUSPENDED context is OPEN and eligible again. -/
def contextResume (ctx : Nat) (s : State) : State :=
  expressRow ctx 0x11 (fun _ s =>
    if ctxState s ctx = 2 then
      endExpress ctx 0 (noteEffect ctx (setContext ctx (fun x => { x with waitSince := s.time }) (setCtxF ctx 10 8 1 s)))
    else endExpress ctx 0x16 s) s

/-- KILL: the context goes to CLOSING with KILL_REASON 1; the result waits for FREE. Of a context CLOSING it changes nothing. (DESIGN CHOICE, log 25) -/
def kill (ctx : Nat) (s : State) : State :=
  match (context s ctx).express with
  | some e =>
    if e.code.toNat = 0x12 ∧ running s = true then
      let s := readEntry ctx s
      if ctxState s ctx = 0 ∨ ctxState s ctx = 3 then endExpress ctx 0 s
      else
        let s := killContext ctx 1 (noteEffect ctx s)
        setContext ctx (fun x => { x with express := none, killing := some (x.killing.getD [] ++ e.result.toList) }) s
    else s
  | none => s

/-- HALT: every RUNNING stream of the context halts with DEBUG_HALT (R229). -/
def contextHalt (ctx : Nat) (s : State) : State :=
  expressRow ctx 0x13 (fun _ s =>
    let cs := (s.streams.filter fun e => e.1 / 128 == ctx && e.2.mode == .running).map fun e => e.1 % 128
    endExpress ctx 0 (cs.foldl (fun s c => debugHalt c ctx s) (noteEffect ctx s))) s

/-- PRIORITY: the new priority is in use. -/
def priority (ctx : Nat) (s : State) : State :=
  expressRow ctx 0x14 (fun e s => endExpress ctx 0 (setCtxF ctx 14 12 e.operand (noteEffect ctx s))) s

/-! ## Residency and slots (R303, R304) -/

/-- A resident context begins to leave. -/
def beginLeave (ctx : Nat) (s : State) : State :=
  let s := setContext ctx (fun x => { x with leaving := true }) s
  if (liveCores s ctx).isEmpty then leftAll ctx s else stopAll ctx s

/-- A resident context that is parked or ineligible, and not leaving yet; work already dispatched into a DRAINING slot runs to its end
first (R47). (DEDUCED, log 22) -/
def mustLeave (s : State) : Option Nat :=
  (residents s).find? fun k => ctxState s k == 1 && !(eligible s k) && !(context s k).leaving && !(expressIs s k 0x10) &&
    !(ctxChained s k && (chain s (ctxChain s k)).state == .draining && anyInFlight s k)

/-- A stream of a resident context that wants a slot of a core. -/
def wantsSlot (s : State) (c ctx : Nat) : Bool :=
  ctxResident s ctx && !(context s ctx).leaving && ctxState s ctx == 1 && !(inSlot s c ctx) &&
    !(nmem (core s c).saving ctx) && (tfind s.streams (skey ctx c)).isSome && (stream s ctx c).known &&
    ((stream s ctx c).mode == .running || !(stream s ctx c).saved.isEmpty)

/-- Two blocks of instruction memory are free on a core beyond those owed to the streams it holds (R225). -/
def blocksForOne (x : Core) : Bool := decide (blocksOwed x none + 2 ≤ blocksFree x)

/-- Put a stream into a free slot, with the allowance of blocks as IMEM_BLOCKS has it now (Table 10.10); a saved one begins its
restore. -/
def giveSlot (c k ctx : Nat) (s : State) : State :=
  let back := (stream s ctx c).savedAt.isSome
  setCore c (fun x => { x with
    slots := x.slots.set k (some ctx), restoring := if back then nins x.restoring ctx else x.restoring })
    (setStream ctx c (fun t => { t with allow := reg s 0x3600 1 }) s)

/-- The first core with a free slot, two free blocks and a stream that wants them, best ranked. -/
def slotToGive (s : State) : Option (Nat × Nat × Nat) :=
  ((List.range 128).filterMap fun c =>
    if blocksForOne (core s c) then
      match (core s c).slots.findIdx? (fun o => o.isNone), bestRanked s ((residents s).filter fun k => wantsSlot s c k) with
      | some k, some ctx => some (c, k, ctx)
      | _, _ => none
    else none).head?

/-- A slotted context has nothing to do on a core: its stream does not run and nothing of it is in flight there. (DEDUCED, log 21) -/
def idleOn (s : State) (c ctx : Nat) : Bool := (stream s ctx c).mode != .running && inCore ctx (core s c) == 0

/-- The slotted context of a core that gives way to another: an idle one, else the lowest one that it outranks by PRIORITY. (DEDUCED, log 21) -/
def givesWay (s : State) (c ctx : Nat) : Option Nat :=
  let l := ((core s c).slots.filterMap id).filter fun k => !(nmem (core s c).stopping k) && !(nmem (core s c).saving k)
  match l.find? fun k => idleOn s c k with
  | some k => some k
  | none => l.find? fun k => decide (ctxPriority s k < ctxPriority s ctx) && l.all fun j => decide (ctxPriority s k ≤ ctxPriority s j)

/-- The first core on which a stream wants a slot that another holds and gives up. (DEDUCED, log 21) -/
def slotToTake (s : State) : Option (Nat × Nat) :=
  ((List.range 128).filterMap fun c =>
    match bestRanked s ((residents s).filter fun k => wantsSlot s c k) with
    | some ctx => (givesWay s c ctx).map fun k => (c, k)
    | none => none).head?

/-- An eligible context becomes resident: its entry is read, and one that fails its check or is poisoned kills it (R289). -/
def makeResident (ctx : Nat) (s : State) : State :=
  let s := readEntry ctx s
  if ctxState s ctx = 1 then setContext ctx (fun x => { x with residentAt := s.time }) (setCtxF ctx 11 11 1 (casSome s)) else s

/-- Eligible contexts that are not resident. -/
def waiting (s : State) : List Nat :=
  (s.contexts.filter fun e => eligible s e.1 && !(ctxResident s e.1)).map fun e => e.1

/-- The lowest resident by PRIORITY that a waiting context outranks. -/
def toDisplace (s : State) : Option Nat :=
  match bestRanked s (waiting s) with
  | none => none
  | some w => (residents s).find? fun k => ctxState s k == 1 && !(context s k).leaving && decide (ctxPriority s k < ctxPriority s w) &&
      ((residents s).filter fun j => ctxState s j == 1).all fun j => decide (ctxPriority s k ≤ ctxPriority s j)

/-- RESIDENCY_CHANGE: one change of the resident set or of a core's slots. (DEDUCED, log 22) -/
def residencyChange (s : State) : State :=
  if !(running s) then s
  else match mustLeave s with
  | some k => beginLeave k s
  | none =>
    match slotToGive s with
    | some (c, k, ctx) => giveSlot c k ctx s
    | none =>
      match slotToTake s with
      | some (c, ctx) => stopOn ctx c s
      | none =>
        match bestRanked s (waiting s) with
        | none => s
        | some w =>
          if (residents s).length < 256 then makeResident w s
          else match toDisplace s with
            | some k => beginLeave k s
            | none => s

/-- SLICE_EXPIRY (R303): among equal PRIORITY the longest resident gives way while an equal waits; SCHED_SLICE 0 never. (DESIGN CHOICE, log 4) -/
def sliceExpiry (ctx : Nat) (s : State) : State :=
  let longest := (residents s).all fun k => ctxPriority s k != ctxPriority s ctx ||
    decide ((context s ctx).residentAt ≤ (context s k).residentAt)
  if running s && reg s 0x3900 3 != 0 && ctxResident s ctx && ctxState s ctx == 1 && !(context s ctx).leaving && longest &&
      (waiting s).any (fun k => ctxPriority s k == ctxPriority s ctx) then beginLeave ctx s
  else s

end Sys2Proof.Machine
end

