-- ==== Sys2Proof/Machine/ExecContext.lean ====
section
/-! DEFINITION. The meanings of the commands of contexts, paging and scheduling, one definition each. -/

namespace Sys2Proof.Machine

/-- CONTEXT_OPEN (R293). -/
def execContextOpen (p : Path) (s : State) : Host.Outcome State Fault Refusal :=
  .next (Sys2Proof.Machine.contextOpen p s)

/-- CONTEXT_SET (R290). -/
def execContextSet (p : Path) (s : State) : Host.Outcome State Fault Refusal :=
  .next (Sys2Proof.Machine.contextSet p s)

/-- REOPEN (R290). -/
def execReopen (p : Path) (s : State) : Host.Outcome State Fault Refusal :=
  .next (Sys2Proof.Machine.reopen p s)

/-- CLOSE (R295). -/
def execClose (p : Path) (s : State) : Host.Outcome State Fault Refusal :=
  .next (Sys2Proof.Machine.close p s)

/-- CLOSE_COMPLETE (R295). -/
def execCloseComplete (ctx : Fin 4096) (s : State) : Host.Outcome State Fault Refusal :=
  .next (Sys2Proof.Machine.closeComplete ctx.val s)

/-- MAP (R297). -/
def execMap (p : Path) (s : State) : Host.Outcome State Fault Refusal :=
  .next (mapCmd p s)

/-- MAP_COMPLETE (R297). -/
def execMapComplete (ctx : Fin 4096) (s : State) : Host.Outcome State Fault Refusal :=
  .next (Sys2Proof.Machine.mapComplete ctx.val s)

/-- UNMAP (R298). -/
def execUnmap (p : Path) (s : State) : Host.Outcome State Fault Refusal :=
  .next (Sys2Proof.Machine.unmap p s)

/-- MAP_HOSTED (R299). -/
def execMapHosted (p : Path) (s : State) : Host.Outcome State Fault Refusal :=
  .next (Sys2Proof.Machine.mapHosted p s)

/-- SUSPEND (R305). -/
def execSuspend (ctx : Fin 4096) (s : State) : Host.Outcome State Fault Refusal :=
  .next (Sys2Proof.Machine.suspend ctx.val s)

/-- CONTEXT_RESUME (R305). -/
def execContextResume (ctx : Fin 4096) (s : State) : Host.Outcome State Fault Refusal :=
  .next (Sys2Proof.Machine.contextResume ctx.val s)

/-- KILL (R305). -/
def execKill (ctx : Fin 4096) (s : State) : Host.Outcome State Fault Refusal :=
  .next (Sys2Proof.Machine.kill ctx.val s)

/-- CONTEXT_HALT (R305). -/
def execContextHalt (ctx : Fin 4096) (s : State) : Host.Outcome State Fault Refusal :=
  .next (Sys2Proof.Machine.contextHalt ctx.val s)

/-- PRIORITY (R305). -/
def execPriority (ctx : Fin 4096) (s : State) : Host.Outcome State Fault Refusal :=
  .next (Sys2Proof.Machine.priority ctx.val s)

/-- EXPRESS_TAKE_EFFECT (R228). -/
def execExpressTakeEffect (core : Fin 128) (ctx : Fin 4096) (s : State) : Host.Outcome State Fault Refusal :=
  .next (Sys2Proof.Machine.expressTakeEffect core.val ctx.val s)

/-- CONTEXT_SAVE_DONE (R292). -/
def execContextSaveDone (core : Fin 128) (ctx : Fin 4096) (s : State) : Host.Outcome State Fault Refusal :=
  .next (Sys2Proof.Machine.contextSaveDone core.val ctx.val s)

/-- PAGE_FETCH_START (R300). -/
def execPageFetchStart (s : State) : Host.Outcome State Fault Refusal :=
  .next (Sys2Proof.Machine.pageFetchStart s)

/-- PAGE_FETCH_COMPLETE (R300). -/
def execPageFetchComplete (n : Fin 16) (r : FetchResult) (s : State) : Host.Outcome State Fault Refusal :=
  .next (Sys2Proof.Machine.pageFetchComplete n.val r s)

/-- PAGE_FETCH_TIMEOUT (R302). -/
def execPageFetchTimeout (n : Fin 16) (s : State) : Host.Outcome State Fault Refusal :=
  .next (Sys2Proof.Machine.pageFetchTimeout n.val s)

/-- PAGE_AGE_TICK (R301). -/
def execPageAgeTick (s : State) : Host.Outcome State Fault Refusal :=
  .next (Sys2Proof.Machine.pageAgeTick s)

/-- RESIDENCY_CHANGE (R303). -/
def execResidencyChange (s : State) : Host.Outcome State Fault Refusal :=
  .next (Sys2Proof.Machine.residencyChange s)

/-- SLICE_EXPIRY (R303). -/
def execSliceExpiry (ctx : Fin 4096) (s : State) : Host.Outcome State Fault Refusal :=
  .next (Sys2Proof.Machine.sliceExpiry ctx.val s)

end Sys2Proof.Machine
end

