-- ==== Sys2Proof/Machine/ExecCourier.lean ====
section
/-! DEFINITION. The meanings of the commands of the couriers and relay rounds, one definition each. -/

namespace Sys2Proof.Machine

/-- KEY_STREAM (R81). -/
def execKeyStream (core : Fin 128) (s : State) : Host.Outcome State Fault Refusal :=
  .next (keyStreamRow core.val s)

/-- STREAM_START (R85). -/
def execStreamStart (round : Fin 8) (s : State) : Host.Outcome State Fault Refusal :=
  .next (Sys2Proof.Machine.streamStart round.val s)

/-- PARCEL_FORM (R87). -/
def execParcelForm (round : Fin 8) (s : State) : Host.Outcome State Fault Refusal :=
  .next (Sys2Proof.Machine.parcelForm round.val s)

/-- PARCEL_ARRIVAL (R90). -/
def execParcelArrival (core : Fin 128) (crcOk : Bool) (s : State) : Host.Outcome State Fault Refusal :=
  .next (Sys2Proof.Machine.parcelArrival core.val crcOk s)

/-- RELAY_STALL (R97). -/
def execRelayStall (core : Fin 128) (slot : Fin 2) (s : State) : Host.Outcome State Fault Refusal :=
  .next (Sys2Proof.Machine.relayStall core.val slot.val s)

end Sys2Proof.Machine
end

