-- ==== Sys2Proof/Machine/Crypto.lean ====
section
/-! DEFINITION. The published algorithms the spec names and does not restate: SHA-256 and SHA-384, AES-256-GCM, RSA with PSS, P-384, and the encapsulation of ML-KEM-1024 (chapters 15 and 18). -/

namespace Sys2Proof.Machine

/-! ## SHA-2 -/

/-- Integer square root by bisection: the fuel bounds the bits of the answer. -/
def isqrtBits (n : Nat) : Nat → Nat → Nat
  | 0, r => r
  | k + 1, r => if (r + 2 ^ k) * (r + 2 ^ k) ≤ n then isqrtBits n k (r + 2 ^ k) else isqrtBits n k r

/-- Integer cube root by bisection. -/
def icbrtBits (n : Nat) : Nat → Nat → Nat
  | 0, r => r
  | k + 1, r => if (r + 2 ^ k) ^ 3 ≤ n then icbrtBits n k (r + 2 ^ k) else icbrtBits n k r

/-- A number below 420 is prime. -/
def smallPrime (n : Nat) : Bool := decide (2 ≤ n) && (List.range 19).all fun d => n % (d + 2) != 0 || n == d + 2

/-- The first eighty primes. -/
def primes80 : List Nat := (List.range 410).filter smallPrime

/-- Round constants: the first 64 bits of the fractional parts of the cube roots of the primes. -/
def sha512K : List Nat := primes80.map fun p => icbrtBits (p * 2 ^ 192) 68 0 % 2 ^ 64

/-- Initial values: the first 64 bits of the fractional parts of the square roots of some primes. -/
def sha2Init (l : List Nat) : List Nat := l.map fun p => isqrtBits (p * 2 ^ 128) 70 0 % 2 ^ 64

/-- The widths and rotation amounts in which SHA-256 and SHA-512 differ. -/
structure Sha2 where
  w   : Nat
  bs0 : Nat × Nat × Nat
  bs1 : Nat × Nat × Nat
  ss0 : Nat × Nat × Nat
  ss1 : Nat × Nat × Nat
  rounds : Nat
  k   : List Nat

/-- SHA-256. -/
def sha256Par : Sha2 :=
  { w := 32, bs0 := (2, 13, 22), bs1 := (6, 11, 25), ss0 := (7, 18, 3), ss1 := (17, 19, 10), rounds := 64,
    k := (sha512K.take 64).map fun x => x >>> 32 }

/-- SHA-512, whose truncation is SHA-384. -/
def sha512Par : Sha2 :=
  { w := 64, bs0 := (28, 34, 39), bs1 := (14, 18, 41), ss0 := (1, 8, 7), ss1 := (19, 61, 6), rounds := 80, k := sha512K }

/-- Rotate right. -/
def rotr (w x n : Nat) : Nat := (x >>> n) ||| (x <<< (w - n) % 2 ^ w)

/-- A function of two rotations and a third rotation. -/
def bigSigma (w : Nat) (r : Nat × Nat × Nat) (x : Nat) : Nat := rotr w x r.1 ^^^ rotr w x r.2.1 ^^^ rotr w x r.2.2

/-- A function of two rotations and a shift. -/
def smallSigma (w : Nat) (r : Nat × Nat × Nat) (x : Nat) : Nat := rotr w x r.1 ^^^ rotr w x r.2.1 ^^^ (x >>> r.2.2)

/-- The message schedule, last word first: n further words. -/
def shaSchedule (p : Sha2) : Nat → List Nat → List Nat
  | 0, l => l
  | n + 1, l =>
    let x := smallSigma p.w p.ss1 (l.getD 1 0) + l.getD 6 0 + smallSigma p.w p.ss0 (l.getD 14 0) + l.getD 15 0
    shaSchedule p n (x % 2 ^ p.w :: l)

/-- One round: the eight working values, and a schedule word with its constant. -/
def shaRound (p : Sha2) (v : List Nat) (kw : Nat × Nat) : List Nat :=
  let g := fun (i : Nat) => v.getD i 0
  let ch := (g 4 &&& g 5) ^^^ ((2 ^ p.w - 1 - g 4) &&& g 6)
  let t1 := g 7 + bigSigma p.w p.bs1 (g 4) + ch + kw.1 + kw.2
  let maj := (g 0 &&& g 1) ^^^ (g 0 &&& g 2) ^^^ (g 1 &&& g 2)
  let t2 := bigSigma p.w p.bs0 (g 0) + maj
  [(t1 + t2) % 2 ^ p.w, g 0, g 1, g 2, (g 3 + t1) % 2 ^ p.w, g 4, g 5, g 6]

/-- Compress one block. -/
def shaBlock (p : Sha2) (h : List Nat) (blk : List Byte) : List Nat :=
  let ws := (chunks (p.w / 8) blk).map ofBe
  let sched := (shaSchedule p (p.rounds - 16) ws.reverse).reverse
  (h.zip ((p.k.zip sched).foldl (shaRound p) h)).map fun x => (x.1 + x.2) % 2 ^ p.w

/-- Pad to whole blocks of 16 words: a one bit, zeros, the bit length. -/
def shaPad (w : Nat) (m : List Byte) : List Byte :=
  let b := 2 * w
  let z := (b - (m.length + 1 + w / 4) % b) % b
  m ++ [0x80] ++ List.replicate z 0 ++ toBe (w / 4) (8 * m.length)

/-- A SHA-2 hash: every word of the final state. -/
def sha2 (p : Sha2) (init : List Nat) (m : List Byte) : List Byte :=
  ((chunks (2 * p.w) (shaPad p.w m)).foldl (shaBlock p) init).flatMap fun x => toBe (p.w / 8) x

/-- SHA-256. -/
def sha256 (m : List Byte) : List Byte := sha2 sha256Par ((sha2Init (primes80.take 8)).map fun x => x >>> 32) m

/-- SHA-384. (PRESUMED, log 13) -/
def sha384 (m : List Byte) : List Byte := (sha2 sha512Par (sha2Init ((primes80.drop 8).take 8)) m).take 48

/-! ## AES-256-GCM -/

/-- Double an element of the byte field. -/
def gfDouble (a : Nat) : Nat := if a < 128 then 2 * a else (2 * a) ^^^ 0x11B

/-- Product in the byte field; the fuel counts bits of the second factor. -/
def gfMul : Nat → Nat → Nat → Nat
  | 0, _, _ => 0
  | n + 1, a, b => (if b % 2 = 1 then a else 0) ^^^ gfMul n (gfDouble a) (b / 2)

/-- Square in the byte field. -/
def gfSq (a : Nat) : Nat := gfMul 8 a a

/-- The inverse in the byte field, a^254. -/
def gfInv (a : Nat) : Nat :=
  let a2 := gfSq a
  let a4 := gfSq a2
  let a8 := gfSq a4
  let a16 := gfSq a8
  let a32 := gfSq a16
  let a64 := gfSq a32
  [a4, a8, a16, a32, a64, gfSq a64].foldl (gfMul 8) a2

/-- Rotate a byte left. -/
def rotl8 (x n : Nat) : Nat := (x <<< n % 256) ||| (x >>> (8 - n))

/-- The S-box as its definition gives it. -/
def aesSubByte (a : Nat) : Nat :=
  let i := gfInv a
  i ^^^ rotl8 i 1 ^^^ rotl8 i 2 ^^^ rotl8 i 3 ^^^ rotl8 i 4 ^^^ 0x63

/-- The S-box as a table. -/
def aesBox : List Nat := (List.range 256).map aesSubByte

/-- One byte through the S-box. -/
def aesSub (a : Nat) : Nat := aesBox.getD a 0

/-- Key schedule of a 32-byte key, last word first: n further words from word i. -/
def aesKeyWords : Nat → Nat → List (List Nat) → List (List Nat)
  | 0, _, l => l
  | n + 1, i, l =>
    let t := l.getD 0 []
    let t := if i % 8 = 0 then
        let u := (t.drop 1 ++ t.take 1).map aesSub
        u.set 0 (u.getD 0 0 ^^^ 2 ^ (i / 8 - 1))
      else if i % 8 = 4 then t.map aesSub
      else t
    aesKeyWords n (i + 1) (((l.getD 7 []).zip t).map (fun x => x.1 ^^^ x.2) :: l)

/-- The fifteen round keys. -/
def aesRoundKeys (key : List Byte) : List (List Nat) :=
  chunks 16 ((aesKeyWords 52 8 (chunks 4 (key.map fun b => b.toNat)).reverse).reverse.flatMap id)

/-- Exclusive-or of byte lists. -/
def xorNats (a b : List Nat) : List Nat := (a.zip b).map fun x => x.1 ^^^ x.2

/-- Shift the rows of a state held by columns. -/
def aesShiftRows (s : List Nat) : List Nat := (List.range 16).map fun i => s.getD ((i + 4 * (i % 4)) % 16) 0

/-- Mix one column. -/
def aesMixCol (c : List Nat) : List Nat :=
  (List.range 4).map fun i =>
    gfDouble (c.getD i 0) ^^^ gfDouble (c.getD ((i + 1) % 4) 0) ^^^ c.getD ((i + 1) % 4) 0 ^^^ c.getD ((i + 2) % 4) 0
      ^^^ c.getD ((i + 3) % 4) 0

/-- One full round. -/
def aesRound (s k : List Nat) : List Nat := xorNats ((chunks 4 (aesShiftRows (s.map aesSub))).flatMap aesMixCol) k

/-- Encrypt one block of 16 bytes. -/
def aesEncrypt (keys : List (List Nat)) (blk : List Nat) : List Nat :=
  let s := ((keys.drop 1).take 13).foldl aesRound (xorNats blk (keys.getD 0 []))
  xorNats (aesShiftRows (s.map aesSub)) (keys.getD 14 [])

/-- Product of GHASH: bit 127 of a number is the first bit of a block. -/
def ghashMul (x : Nat) : Nat → Nat → Nat → Nat
  | 0, _, z => z
  | n + 1, v, z =>
    ghashMul x n (if v % 2 = 1 then (v / 2) ^^^ (0xE1 * 2 ^ 120) else v / 2) (if x.testBit n then z ^^^ v else z)

/-- Zero-pad to whole blocks. -/
def gcmPad (m : List Byte) : List Byte := m ++ List.replicate ((16 - m.length % 16) % 16) 0

/-- GHASH of additional data and ciphertext. -/
def ghash (h : Nat) (a c : List Byte) : Nat :=
  let d := gcmPad a ++ gcmPad c ++ toBe 8 (8 * a.length) ++ toBe 8 (8 * c.length)
  (chunks 16 d).foldl (fun y b => ghashMul (y ^^^ ofBe b) 128 h 0) 0

/-- Bytes of a 128-bit number as naturals, first byte most significant. -/
def blockNats (x : Nat) : List Nat := (toBe 16 x).map fun b => b.toNat

/-- Number of a list of byte values, first most significant. -/
def natsBlock (l : List Nat) : Nat := l.foldl (fun n b => n * 256 + b) 0

/-- The key stream of counter mode, from the block after the first. -/
def gcmStream (keys : List (List Nat)) (iv : List Byte) (n : Nat) : List Byte :=
  (List.range n).flatMap fun i => toBe 16 (natsBlock (aesEncrypt keys (blockNats (ofBe iv * 2 ^ 32 + 2 + i))))

/-- AES-256-GCM with a 12-byte IV: the text enciphered or deciphered. -/
def gcmCrypt (key iv text : List Byte) : List Byte :=
  (text.zip (gcmStream (aesRoundKeys key) iv (cdiv text.length 16))).map fun x => x.1 ^^^ x.2

/-- The 16-byte tag over additional data and ciphertext. (PRESUMED, log 13) -/
def gcmTag (key iv aad cipher : List Byte) : List Byte :=
  let keys := aesRoundKeys key
  let h := natsBlock (aesEncrypt keys (blockNats 0))
  toBe 16 (ghash h aad cipher ^^^ natsBlock (aesEncrypt keys (blockNats (ofBe iv * 2 ^ 32 + 1))))

/-- The 8-byte tag of command payloads and dictionary frames (R331, R373): IV byte 0 names the port, bytes 4 to 11 carry
COUNTER. (DEDUCED, log 78) -/
def frameTag (key : List Byte) (port counter : Nat) (aad : List Byte) : List Byte :=
  (gcmTag key (BitVec.ofNat 8 port :: [0, 0, 0] ++ toBe 8 counter) aad []).take 8

/-! ## RSASSA-PSS with SHA-256, salt of 32 bytes, 3,072-bit modulus (Table 18.2) -/

/-- MGF1 with SHA-256. -/
def mgf1 (seed : List Byte) (n : Nat) : List Byte :=
  ((List.range (cdiv n 32)).flatMap fun i => sha256 (seed ++ toBe 4 i)).take n

/-- The data block masked or unmasked. -/
def pssMask (h db : List Byte) : List Byte :=
  let x := (db.zip (mgf1 h db.length)).map fun y => y.1 ^^^ y.2
  (x.headD 0 &&& 0x7F) :: x.drop 1

/-- Hash of the message hash and the salt. -/
def pssHash (msg salt : List Byte) : List Byte := sha256 (List.replicate 8 0 ++ sha256 msg ++ salt)

/-- The encoded message, as a number. -/
def pssEncode (msg salt : List Byte) : Nat :=
  let h := pssHash msg salt
  ofBe (pssMask h (List.replicate 318 0 ++ [0x01] ++ salt) ++ h ++ [0xBC])

/-- A signature verifies. (PRESUMED, log 13) -/
def pssVerify (n e : Nat) (msg sig : List Byte) : Bool :=
  let s := ofBe sig
  let em := toBe 384 (powMod s e n)
  let db := pssMask ((em.drop 351).take 32) (em.take 351)
  decide (s < n) && em.drop 383 == [0xBC] && decide ((em.headD 0).toNat < 128)
    && db.take 319 == List.replicate 318 0 ++ [0x01] && pssHash msg (db.drop 319) == (em.drop 351).take 32

/-- The private operation by CRT, of p, q, dp, dq, qinv. -/
def rsaCrt (p q dp dq qinv x : Nat) : Nat :=
  let m1 := powMod x dp p
  let m2 := powMod x dq q
  let h := qinv * ((m1 + p - m2 % p) % p) % p
  m2 + h * q

/-! ## P-384 -/

/-- The field's prime. -/
def p384 : Nat := 2 ^ 384 - 2 ^ 128 - 2 ^ 96 + 2 ^ 32 - 1
/-- Order of the group. -/
def n384 : Nat := 0xFFFFFFFFFFFFFFFFFFFFFFFFFFFFFFFFFFFFFFFFFFFFFFFFC7634D81F4372DDF581A0DB248B0A77AECEC196ACCC52973
/-- The curve's b. -/
def b384 : Nat := 0xB3312FA7E23EE7E4988E056BE3F82D19181D9C6EFE8141120314088F5013875AC656398D8A2ED19D2A85C8EDD3EC2AEF
/-- The base point. -/
def g384 : Nat × Nat :=
  (0xAA87CA22BE8B05378EB1C71EF320AD746E1D3B628BA79B9859F741E082542A385502F25DBF55296C3A545E3872760AB7,
   0x3617DE4A96262C6F5D9E98BF9292DC29F8F41DBD289A147CE9DA3113B5F0B8C00A60B1CE1D7E819D7A431D7C90EA0E5F)

/-- Inverse modulo a prime. -/
def invMod (a m : Nat) : Nat := powMod a (m - 2) m

/-- A point is on the curve (R397). -/
def onCurve (q : Nat × Nat) : Bool :=
  decide (q.1 < p384 ∧ q.2 < p384) &&
    q.2 * q.2 % p384 == (q.1 * q.1 % p384 * q.1 + (p384 - 3) * q.1 + b384) % p384

/-- The sum of two points; none is the point at infinity. -/
def ecAdd : Option (Nat × Nat) → Option (Nat × Nat) → Option (Nat × Nat)
  | none, q => q
  | p, none => p
  | some (x1, y1), some (x2, y2) =>
    if x1 = x2 ∧ (y1 + y2) % p384 = 0 then none
    else
      let m := if x1 = x2 then (3 * x1 * x1 + (p384 - 3)) * invMod (2 * y1 % p384) p384 % p384
               else (y2 + p384 - y1) * invMod ((x2 + p384 - x1) % p384) p384 % p384
      let x := (m * m + 2 * p384 - x1 - x2) % p384
      some (x, (m * (x1 + p384 - x) + p384 - y1) % p384)

/-- A multiple of a point: the fuel bounds the bits of the factor. -/
def ecMul : Nat → Nat → Option (Nat × Nat) → Option (Nat × Nat)
  | 0, _, _ => none
  | f + 1, k, p =>
    if k = 0 then none
    else
      let r := ecMul f (k / 2) (ecAdd p p)
      if k % 2 = 1 then ecAdd r p else r

/-- ECDSA verification, of Q, h, r, s with r and s in range. (PRESUMED, log 13) -/
def ecdsaVerify (q : Nat × Nat) (h r s : Nat) : Bool :=
  let w := invMod s n384
  match ecAdd (ecMul 384 (h * w % n384) (some g384)) (ecMul 384 (r * w % n384) (some q)) with
  | some (x, _) => x % n384 == r
  | none => false

/-- An uncompressed point's 97 bytes. -/
def pointBytes (p : Nat × Nat) : List Byte := 0x04 :: toBe 48 p.1 ++ toBe 48 p.2

/-- The coordinates in 97 bytes. -/
def pointOf (bs : List Byte) : Nat × Nat := (ofBe ((bs.drop 1).take 48), ofBe ((bs.drop 49).take 48))

/-- A valid encoding of a point of the curve. -/
def pointOk (bs : List Byte) : Bool := bs.headD 0 == 0x04 && onCurve (pointOf bs)

/-! ## ML-KEM-1024 encapsulation (FIPS 203) -/

/-- The modulus. -/
def kq : Nat := 3329

/-- The root of factor i of the ring. -/
def kGamma (i : Nat) : Nat := powMod 17 (2 * brv 7 i + 1) kq

/-- Elements at even or odd places. -/
def kHalf (odd : Nat) (f : List Nat) : List Nat := (List.range 128).map fun j => f.getD (2 * j + odd) 0

/-- Value of a polynomial in one variable. -/
def kEval (x : Nat) (f : List Nat) : Nat := f.foldr (fun c acc => (c + acc * x) % kq) 0

/-- Interleave two halves. -/
def kJoin (a b : List Nat) : List Nat := (a.zip b).flatMap fun x => [x.1, x.2]

/-- The transform: values of the even and the odd half at each root. -/
def kNtt (f : List Nat) : List Nat :=
  kJoin ((List.range 128).map fun i => kEval (kGamma i) (kHalf 0 f)) ((List.range 128).map fun i => kEval (kGamma i) (kHalf 1 f))

/-- One half of the inverse transform. -/
def kInvHalf (v : List Nat) : List Nat :=
  (List.range 128).map fun j =>
    3303 * (((List.range 128).map fun i => v.getD i 0 * powMod (kGamma i) (256 - j) kq).sum % kq) % kq

/-- The inverse transform. -/
def kNttInv (f : List Nat) : List Nat := kJoin (kInvHalf (kHalf 0 f)) (kInvHalf (kHalf 1 f))

/-- Product of two transformed polynomials. -/
def kMul (a b : List Nat) : List Nat :=
  (List.range 128).flatMap fun i =>
    let a0 := a.getD (2 * i) 0
    let a1 := a.getD (2 * i + 1) 0
    let b0 := b.getD (2 * i) 0
    let b1 := b.getD (2 * i + 1) 0
    [(a0 * b0 + a1 * b1 % kq * kGamma i) % kq, (a0 * b1 + a1 * b0) % kq]

/-- Sum of two polynomials. -/
def kAdd (a b : List Nat) : List Nat := (a.zip b).map fun x => (x.1 + x.2) % kq

/-- Sum of products. -/
def kDot (a b : List (List Nat)) : List Nat := (a.zip b).foldl (fun acc x => kAdd acc (kMul x.1 x.2)) (List.replicate 256 0)

/-- Candidates of three bytes each, those below the modulus kept. -/
def kCandidates : List Byte → List Nat
  | b0 :: b1 :: b2 :: r =>
    let d1 := b0.toNat + 256 * (b1.toNat % 16)
    let d2 := b1.toNat / 16 + 16 * b2.toNat
    (if d1 < kq then [d1] else []) ++ (if d2 < kq then [d2] else []) ++ kCandidates r
  | _ => []

/-- Sample a transformed polynomial: the output is lengthened until 256 candidates are kept. -/
def kSample (seed : List Byte) : Nat → Nat → List Nat
  | 0, _ => List.replicate 256 0
  | f + 1, blocks =>
    let l := kCandidates (shake128 seed (168 * blocks))
    if 256 ≤ l.length then l.take 256 else kSample seed f (blocks + 3)

/-- A centred binomial polynomial with η = 2 from 128 bytes. -/
def kCbd (bs : List Byte) : List Nat :=
  bs.flatMap fun b =>
    let v := b.toNat
    let f := fun (n : Nat) => (bits n 0 0 + bits n 1 1 + kq - bits n 2 2 - bits n 3 3) % kq
    [f (v % 16), f (v / 16)]

/-- Compress a coefficient to d bits. -/
def kCompress (d x : Nat) : Nat := (2 ^ (d + 1) * x + kq) / (2 * kq) % 2 ^ d

/-- Bytes of coefficients of d bits. -/
def kEncode (d : Nat) (f : List Nat) : List Byte :=
  toLe (32 * d) (packFields ((List.range 256).map fun i => (d * i, d, f.getD i 0)))

/-- Coefficients of 12 bits. -/
def kDecode12 (bs : List Byte) : List Nat :=
  let w := ofLe bs
  (List.range 256).map fun i => bits w (12 * i + 11) (12 * i)

/-- The four polynomials of an encapsulation key. -/
def kKeyPolys (ek : List Byte) : List (List Nat) := (List.range 4).map fun i => kDecode12 ((ek.drop (384 * i)).take 384)

/-- The input check of FIPS 203. -/
def kemKeyOk (ek : List Byte) : Bool := ek.length == 1568 && (kKeyPolys ek).all fun f => f.all fun c => decide (c < kq)

/-- Noise polynomial number n of a seed. -/
def kNoise (r : List Byte) (n : Nat) : List Nat := kCbd (shake256 (r ++ [BitVec.ofNat 8 n]) 128)

/-- Encapsulate 32 random bytes to a key: the shared secret and the ciphertext. (PRESUMED, log 13) -/
def kemEncaps (ek m : List Byte) : List Byte × List Byte :=
  let g := sha3_512 (m ++ sha3_256 ek)
  let r := g.drop 32
  let rho := ek.drop 1536
  let y := (List.range 4).map fun i => kNtt (kNoise r i)
  let u := (List.range 4).map fun i =>
    let col := (List.range 4).map fun j => kSample (rho ++ [BitVec.ofNat 8 i, BitVec.ofNat 8 j]) 100 4
    kAdd (kNttInv (kDot col y)) (kNoise r (4 + i))
  let mu := m.flatMap fun b => (List.range 8).map fun k => 1665 * bits b.toNat k k
  let v := kAdd (kAdd (kNttInv (kDot (kKeyPolys ek) y)) (kNoise r 8)) mu
  (g.take 32, (u.flatMap fun f => kEncode 11 (f.map (kCompress 11))) ++ kEncode 5 (v.map (kCompress 5)))

end Sys2Proof.Machine
end

