-- ==== Sys2Proof/Machine/Mover.lean ====
section
/-! DEFINITION. The data mover, scrubbing, refresh, and the memory system's own entries: the pinned window, the bandwidth split, address spreading, the traffic generator (R261-R287). -/

namespace Sys2Proof.Machine

/-! ## MOVE instructions (R278-R280) -/

/-- LEN8 in bytes. -/
def mvLen (w : Nat) : Nat := 8 * bits w 23 0

/-- Check 1 of R279 for COPY, ZERO and PREFETCH: SHAPE, ROUND_MASK and the reserved bits are zero, LEN8 is not. -/
def moveEncOk (w : Nat) : Bool := bits w 49 32 == 0 && bits w 31 24 == 0 && bits w 23 0 != 0

/-- Checks 1 to 4 of R279 on the addresses a repeat uses; `hbmOnly` for PREFETCH. (DEDUCED, log 35) -/
def moveChecks (i : Issued) (hbmOnly : Bool) (as : List Nat) : Eng Unit := do
  let w := i.word.toNat
  needE (moveEncOk w) .reservedField
  needE (as.all fun a => a % 8 == 0) .alignment ((as.find? fun a => a % 8 != 0).map fun a => (a, false))
  needE (as.all fun a => decide (a + mvLen w ≤ 2 ^ 48)) .addressRange
    ((as.find? fun a => decide (2 ^ 48 < a + mvLen w)).map fun a => (a, false))
  needE (!hbmOnly || as.all fun a => decide (a + mvLen w ≤ 2 ^ 40)) .moveTarget (as.head?.map fun a => (a, false))

/-- Bytes with no stated value, and the state with the draws counted. (DESIGN CHOICE, log 34) -/
def freeBytes : Nat → State → List Byte × State
  | 0, s => ([], s)
  | n + 1, s =>
    let d := draw s
    let r := freeBytes n d.2
    (BitVec.ofNat 8 d.1 :: r.1, r.2)

/-- Read device bytes word by word: the data, and for each 8-byte word whether it is poisoned (R264, R274, R421). -/
def loadMarks (e : Env) (alloc : Bool) (a n : Nat) : Eng (List Byte × List Nat) := do
  let s ← get
  let s := noteRead .read alloc a n s
  let (bad, s) := (unitsOf 32 a n).foldl (fun (acc : List Nat × State) b =>
    if crosses e a then
      let r := fabricCheck e b 32 acc.2
      (if r.1 then b :: acc.1 else acc.1, r.2)
    else acc) (([] : List Nat), s)
  set s
  let marks := (List.range (n / 8)).filter fun k =>
    poisonedAt s (a + 8 * k) || bad.contains ((a + 8 * k) / 32 * 32)
  pure (devBytes s a n, marks)

/-- Mark the granules of a written range that hold a poisoned word. -/
def markWords (a : Nat) (marks : List Nat) (s : State) : State :=
  { s with poison := marks.foldl (fun p k => nins p ((a + 8 * k) / granSize (a + 8 * k) * granSize (a + 8 * k))) s.poison }

/-- Read the source of one piece, inside one page. The data of overlapping ranges is unspecified (R279): a free value. -/
def copyRead (e : Env) (overlap : Bool) (src n : Nat) : Eng (List Byte × List Nat) := noted (do
  let ps ← pieces e false src n
  match ps with
  | (d, _) :: _ => do
    let (b, marks) ← loadMarks e e.alloc d n
    if overlap then do
      let s ← get
      let r := freeBytes n s
      set r.2
      pure (r.1, marks)
    else pure (b, marks)
  | [] => pure ([], []))

/-- Write a burst or a piece of a COPY; its poisoned words stay poisoned. -/
def copyWrite (e : Env) (dst : Nat) (bs : List Byte) (marks : List Nat) (x : Nat × Nat) : Eng Unit := once (do
  let ps ← xlatRange e true [x]
  match ps with
  | (d, _) :: _ => do
    let o := x.1 - dst
    devStore e e.alloc false d x.1 ((bs.drop o).take x.2)
    modify (markWords d ((marks.filter fun k => decide (o ≤ 8 * k ∧ 8 * k < o + x.2)).map fun k => k - o / 8))
  | [] => pure ())

/-- One piece of a COPY, inside one page of either side; a suspended one goes back to its start (R280). -/
def copyPiece (e : Env) (overlap : Bool) (src dst n : Nat) : Eng Unit := do
  edge
  let (b, marks) ← copyRead e overlap src n
  eachE (copyWrite e dst b marks) (burstPieces e dst n)

/-- Bytes of the next piece: up to 256, to a 256-byte boundary of the destination, inside the page of each address. -/
def pieceLen (dst : Nat) (as : List Nat) (n : Nat) : Nat :=
  as.foldl (fun k a => min k (pageSize a - a % pageSize a)) (min n (256 - dst % 256))

/-- A checkpoint where the bytes moved pass a multiple of 32 KiB (R280). -/
def moveCheckpoint (done k : Nat) : Eng Unit := if (done + k) / 32768 = done / 32768 then pure () else checkpoint

/-- The pieces of a COPY in ascending order. -/
def copyLoop (e : Env) (overlap : Bool) : Nat → Nat → Nat → Nat → Nat → Eng Unit
  | 0, _, _, _, _ => pure ()
  | f + 1, src, dst, done, n =>
    if n = 0 then pure ()
    else do
      let k := pieceLen dst [src, dst] n
      copyPiece e overlap src dst k
      moveCheckpoint done k
      copyLoop e overlap f (src + k) (dst + k) (done + k) (n - k)

/-- COPY, one repeat: a destination in HBM neither allocates lines nor disturbs the replacement order (R269). (DESIGN CHOICE, log 34) -/
def copyOne (c : Nat) (i : Issued) (r : Nat) : Eng (List SealMsg) := do
  let dst := addrOf i r 0
  let src := addrOf i r 1
  let n := mvLen i.word.toNat
  moveChecks i false [dst, src]
  copyLoop { envOf c .move i with alloc := decide (2 ^ 40 ≤ dst) } (decide (src < dst + n ∧ dst < src + n)) n src dst 0 n
  pure []

/-- The pieces of a ZERO in ascending order. -/
def zeroLoop (e : Env) : Nat → Nat → Nat → Nat → Eng Unit
  | 0, _, _, _ => pure ()
  | f + 1, dst, done, n =>
    if n = 0 then pure ()
    else do
      let k := pieceLen dst [dst] n
      edge
      store e dst (List.replicate k 0) false
      moveCheckpoint done k
      zeroLoop e f (dst + k) (done + k) (n - k)

/-- ZERO, one repeat. -/
def zeroOne (c : Nat) (i : Issued) (r : Nat) : Eng (List SealMsg) := do
  let dst := addrOf i r 0
  let n := mvLen i.word.toNat
  moveChecks i false [dst]
  zeroLoop (envOf c .move i) n dst 0 n
  pure []

/-- Bring the line of an address into the shared cache; an absent page is left to the pager and not prefetched (R280). (DEDUCED, log 135) -/
def prefetchLine (e : Env) (a : Nat) : Eng Unit := once (do
  let s ← get
  match xlat s e.ctx false a with
  | .absent _ => pure ()
  | .fault f pte => failE f (some (if pte then (pteAddr s e.ctx a, true) else (a, false)))
  | .dev d => set (noteRead .read true (d / 128 * 128) 128 (useAge e.ctx a s)))

/-- PREFETCH, one repeat. -/
def prefetchOne (c : Nat) (i : Issued) (r : Nat) : Eng (List SealMsg) := do
  let src := addrOf i r 1
  moveChecks i true [src]
  eachE (fun l => do
    prefetchLine (envOf c .move i) (max l src)
    moveCheckpoint (l - src) 128) (unitsOf 128 src (mvLen i.word.toNat))
  pure []

/-- COPY. -/
def copyRow (c : Nat) (s : State) : State := runEngine c .move 1 (copyOne c) s

/-- PREFETCH. -/
def prefetchRow (c : Nat) (s : State) : State := runEngine c .move 2 (prefetchOne c) s

/-- ZERO. -/
def zeroRow (c : Nat) (s : State) : State := runEngine c .move 3 (zeroOne c) s

/-! ## Scrubbing and refresh (R265, R273) -/

/-- First address of the line at a row of a bank of a core's window (R261). -/
def scrubAddr (c b r : Nat) : Nat :=
  spBase + c * 0x40_0000 + 128 * (r * 16 + (b ^^^ r ^^^ (r >>> 4) ^^^ (r >>> 8)) % 16)

/-- The scrubber of a bank reads and checks its next line (R264, R265). A pass of the core is complete when every bank has
made it. A bank asleep is not scrubbed. -/
def scrubRead (c b : Nat) (s : State) : State :=
  if banksClosed s || !running s then s
  else
    let n := (core s c).scrubLine.getD b 0
    let s := (unitsOf 8 (scrubAddr c b (n % 2048)) 128).foldl (fun s w => spCheck w s) s
    setCore c (fun x =>
      let l := x.scrubLine.set b (n + 1)
      { x with scrubLine := l, scrubPasses := BitVec.ofNat 32 (l.foldl (fun m k => min m (k / 2048)) (l.headD 0 / 2048)) }) s

/-- A refresh of a stack; a targeted one refreshes the neighbours of a hot row and is counted (R273, Table 12.4). -/
def hbmRefresh (k : Nat) (targeted : Bool) (s : State) : State :=
  emit (.refresh k targeted) (setStack k (fun x => { x with
    refresh := x.refresh + 1, hotRow := if targeted then x.hotRow + 1 else x.hotRow }) s)

/-- The security island copies the retired lists to the module flash (R283). -/
def retiredListCopy (s : State) : State :=
  { s with flash := { s.flash with
      retired := (List.range 8).flatMap fun k => (stack s k).retired.map fun f => (k, f) } }

/-! ## Memory entries (Tables 12.9 to 12.11): access statuses 0x00 DONE, 0x16 BUSY, 0x1A BAD_VALUE -/

/-- Evict lines until every set of a die holds at most n, least recently used first (R270). (DEDUCED, log 114) -/
def trimSets (d n : Nat) : Nat → State → State
  | 0, s => s
  | f + 1, s =>
    match (die s d).cache.find? fun l => decide (n < (setLines s d l.line).length) with
    | some l => trimSets d n f (evictLine d l s)
    | none => s

/-- PIN_WAYS: more pinned ways evict what the taken ways hold (R270). A window that shrinks writes its lines back; in the model
the window holds no line between jobs. -/
def pinWaysW (v : Nat) (s : State) : Nat × State :=
  if 12 < bits v 3 0 ∨ 12 < bits v 7 4 then (0x1A, s)
  else if s.dies.any fun d => d.pinnedJob then (0x16, s)
  else
    let s := setReg 0x3800 2 v s
    (0, [0, 1].foldl (fun s d => trimSets d (16 - pinWays s d) (die s d).cache.length s) s)

/-- The holder of the hardware semaphore is this path (R334). -/
def holdsSem (s : State) (p : Path) : Bool := s.sem.holder == some p

/-- BW_SPLIT: weights of at least 1 that sum to 20, before the first context and by the semaphore's holder (R277). -/
def bwSplitW (p : Path) (v : Nat) (s : State) : Nat × State :=
  let r := bits v 4 0
  let w := bits v 9 5
  let m := bits v 14 10
  if bits v 15 15 != 0 || r == 0 || w == 0 || m == 0 || r + w + m != 20 then (0x1A, s)
  else if s.opened || !holdsSem s p then (0x16, s)
  else (0, setReg 0x3800 1 v s)

/-- SPREAD_Gg: 0 to 2, while no frame of the group is allocated (R275). Group 0 holds the frames of the system area, which are never
free: it stays DIE (R288). (DEDUCED, log 135) -/
def spreadW (g v : Nat) (s : State) : Nat × State :=
  if 2 < v then (0x1A, s)
  else if g = 0 ∨ s.frames.any fun f => f / 4096 == g then (0x16, s)
  else (0, setReg 0x3810 (g + 1) v s)

/-! ## Traffic generator (R286) -/

/-- An allocated frame has a location on a stack (R286): under STACK spreading by its GiB, otherwise as any frame of its group has. The
system area, which the base die goes on serving, does not count. -/
def frameOnStack (s : State) (k f : Nat) : Bool :=
  match spreadOf s (f * 2 ^ 21) with
  | 2 => f / 512 % 8 == k
  | _ => true

/-- Reserved encodings of TG_CONTROL: a command outside 1 to 4, a mode above 3, an unlisted bit. -/
def tgOk (v : Nat) : Bool :=
  decide (1 ≤ bits v 3 0 ∧ bits v 3 0 ≤ 4) && decide (bits v 7 4 ≤ 3) && bits v 31 9 == 0

/-- Rows 0 to 255 of stacks 0 to 3, which TEST leaves unchanged. (DESIGN CHOICE, log 36) -/
def testKeeps (k : Nat) (l : HbmLoc) : Bool := decide (k < 4 ∧ l.row < 256)

/-- Bytes of chosen channels of a stack, outside the kept rows, become unspecified: a free value of the address, and a free poison mark for
each burst (R286). (DESIGN CHOICE, log 36) -/
def scrambleStack (k mask : Nat) (s : State) : State :=
  let hit := fun a =>
    let l := hbmLoc s a
    l.pc / 64 == k && bit mask (l.pc % 64 / 2) && !(testKeeps k l)
  { s with
    mem := ((List.range hbmEnd).filter hit).foldl (fun m a => memSet m a (BitVec.ofNat 8 (Config.freeValue (s.fresh + a)))) s.mem,
    poison := (((List.range (hbmEnd / 32)).map fun b => 32 * b).filter hit).foldl (fun p b =>
      if Config.freeValue (s.fresh + hbmEnd + b) % 2 = 1 then nins p b else ndel p b) s.poison,
    hbmLatent := s.hbmLatent.filter fun e => !(hit e.1),
    fresh := s.fresh + 2 * hbmEnd }

/-- The generators of a stack start (R286): unless they only check, they write their patterns over the channels of the mask. What the
patterns are is not stated: free bytes. -/
def tgStart (k v : Nat) (s : State) : State :=
  setStack k (fun x => { x with tgOn := true }) (if bits v 7 4 = 1 then s else scrambleStack k (bits v 63 32) s)

/-- The generators of a stack stop (R286). What the checkers found is free, unless they only wrote: bursts checked and mismatched, the
first failure, and the corrections, which HBM_CE_COUNT counts unless RAW is set. -/
def tgStop (k : Nat) (s : State) : State :=
  let v := reg s (0x3840 + k) 8
  if (stack s k).tgOn then
    let d := draw s
    let d' := draw d.2
    let c := draw d'.2
    let s := setStack k (fun x => { x with tgOn := false }) c.2
    if bits v 7 4 = 2 then s
    else
      let s := setStack k (fun x => { x with tgResult := BitVec.ofNat 64 d.1, tgFail := BitVec.ofNat 64 d'.1 }) s
      if bits v 8 8 = 1 then s else bumpN (0x3840 + k) 3 (c.1 % 2 ^ 32) s
  else s

/-- TG_CONTROL of a stack: start and stop run in TEST alone; enter is refused while an allocated frame lies on the stack;
leave ends the generator, and the contents of the stack are unspecified then. (DESIGN CHOICE, log 36) -/
def tgControlW (k v : Nat) (s : State) : Nat × State :=
  let inTest := (stack s k).state == 1
  let put := fun (s : State) => setReg (0x3840 + k) 8 v s
  if !(tgOk v) then (0x1A, s)
  else match bits v 3 0 with
    | 1 => if inTest then (0, put (tgStart k v s)) else (0x16, s)
    | 2 => if inTest then (0, put (tgStop k s)) else (0x16, s)
    | 3 =>
      if s.frames.any (frameOnStack s k) then (0x16, s)
      else (0, put (setStack k (fun x => { x with state := 1 }) s))
    | _ =>
      if inTest then (0, put (setStack k (fun x => { x with state := 0, tgOn := false }) (scrambleStack k (2 ^ 32 - 1) s)))
      else (0, put s)

/-- RETIRE_WINDOW has elapsed for a frame of a stack's tracker: its counts restart (R433). -/
def retireWindowExpiry (k f : Nat) (s : State) : State :=
  setStack k (fun x => { x with tracker := x.tracker.filter fun e => e.1 != f }) s

end Sys2Proof.Machine
end

