-- ==== Sys2Proof/Machine/HostPort.lean ====
section
/-! DEFINITION. Command payloads and doorbells, the hardware semaphore, Ethernet ports and MACsec keys (chapter 15). -/

namespace Sys2Proof.Machine

/-! ## Tags and counters (R331) -/

/-- A key slot. -/
def keySlot (s : State) (k : Nat) : KeySlot := tget {} s.island.keys k

/-- Key of a path's counter. -/
def keptKey (slot port : Nat) : Nat := slot * 2 + port

/-- The port number of a path; none for the sideband and the firmware. -/
def portOf : Path → Option Nat
  | .port0 => some 0
  | .port1 => some 1
  | _ => none

/-- Check 1 of Table 15.5: 0, or AUTH_FAIL 0x10, or REPLAYED 0x11. The sideband is not checked. -/
def authCheck (s : State) (p : Path) (slot counter : Nat) (aad tag : List Byte) : Nat :=
  match portOf p with
  | none => 0
  | some port =>
    let k := keySlot s slot
    if k.role = .empty then 0x10
    else if frameTag k.key port counter aad ≠ tag then 0x10
    else if counter ≤ tget 0 s.kept (keptKey slot port) then 0x11
    else 0

/-- A payload that passed check 1 moves the kept counter. -/
def keepCounter (p : Path) (slot counter : Nat) (s : State) : State :=
  match portOf p with
  | none => s
  | some port => { s with kept := tset s.kept (keptKey slot port) counter }

/-! ## Command payloads (Tables 15.4 to 15.6) -/

/-- A command payload taken apart: header word, operands, tag. -/
structure Payload where
  h    : Nat
  ops  : List Byte
  tag  : List Byte
  deriving DecidableEq, Repr

/-- Cut a payload. -/
def payloadOf (bs : List Byte) : Payload :=
  { h := ofBe (bs.take 24), ops := (bs.drop 24).take (bs.length - 32), tag := bs.drop (bs.length - 8) }

/-- TYPE. -/
def plType (p : Payload) : Nat := bits p.h 187 184
/-- CODE. -/
def plCode (p : Payload) : Nat := bits p.h 183 176
/-- CONTEXT. -/
def plCtx (p : Payload) : Nat := bits p.h 171 160
/-- GENERATION. -/
def plGen (p : Payload) : Nat := bits p.h 159 144
/-- KEY_SLOT. -/
def plKey (p : Payload) : Nat := bits p.h 143 136
/-- COUNTER. -/
def plCounter (p : Payload) : Nat := bits p.h 127 64
/-- REQ_TAG. -/
def plTag (p : Payload) : Nat := bits p.h 31 0

/-- Command codes of the express class. -/
def isExpress (code : Nat) : Bool := decide (0x10 ≤ code ∧ code ≤ 0x14)

/-- Operand word n. -/
def plWord (p : Payload) (n : Nat) : Nat := ofLe ((p.ops.drop (8 * n)).take 8)

/-- The bits of a word that Table 15.6 names. -/
def onlyBits (w : Nat) (fs : List (Nat × Nat)) : Bool := fs.foldl (fun v f => setBits v f.1 f.2 0) w == 0

/-- Operand bytes of a command; OPEN on a manager takes up to three words more (R354). -/
def opLenOk (s : State) (code n : Nat) : Bool :=
  if code = 1 then n == 264 || (effRole s != 0 && (n == 272 || n == 280 || n == 288))
  else if code = 2 then n == 288
  else if code = 8 ∨ code = 9 then n == 16
  else if code = 0xA ∨ code = 0x20 then n == 24
  else if code = 0x14 ∨ code = 0x22 then n == 8
  else if code = 0x21 then n == 40
  else [3, 4, 0x10, 0x11, 0x12, 0x13].contains code && n == 0

/-- Operand encodings of a command: bits that Table 15.6 does not name and reserved bits of an image are zero. -/
def operandsOk (p : Payload) : Bool :=
  match plCode p with
  | 1 => onlyBits (plWord p 0) [(63, 63), (11, 0)] && ctxReservedOk (ofLe ((p.ops.drop 8).take 256)) &&
      onlyBits (plWord p 33) [(63, 63), (11, 8), (7, 0)]
  | 2 => ctxReservedOk (setImage 0 (ofLe (p.ops.take 32)) (ofLe ((p.ops.drop 32).take 256)))
  | 8 => onlyBits (plWord p 1) [(41, 40), (38, 36), (35, 34), (32, 32), (31, 0)]
  | 0xA => onlyBits (plWord p 1) [(32, 32), (31, 0)]
  | 0x14 => onlyBits (plWord p 0) [(2, 0)]
  | 0x20 => onlyBits (plWord p 0) [(63, 32), (15, 0)]
  | 0x21 => onlyBits (plWord p 0) [(47, 0)] && onlyBits (plWord p 3) [(55, 32), (23, 0)] && onlyBits (plWord p 4) [(13, 8), (2, 0)]
  | 0x22 => onlyBits (plWord p 0) [(23, 0)]
  | _ => true

/-- Check 2 of Table 15.5. -/
def encodingsOk (s : State) (p : Payload) : Bool :=
  let n := bits p.h 63 48
  bits p.h 191 188 == 1 && bits p.h 174 172 == 0 && bits p.h 135 128 == 0 && bits p.h 47 32 == 0 && n % 8 == 0
    && decide (n ≤ 1024) && n == p.ops.length && !(decide (0xF0 ≤ plKey p ∧ plKey p ≤ 0xFE))
    && (match plType p with
        | 1 => bit p.h 175 == isExpress (plCode p) && opLenOk s (plCode p) n && operandsOk p
        | 2 => plCode p == 0 && !(bit p.h 175) && decide (8 ≤ n ∧ n ≤ 256) &&
            (List.range (n / 8)).all fun i => plWord p i / 2 ^ 39 == 0
        | 3 => plCode p == 0 && !(bit p.h 175) && n == 8 && plWord p 0 / 2 ^ 32 == 0
        | 4 => plCode p == 0 && !(bit p.h 175) && n == 8 && plWord p 0 / 2 ^ 32 == 0
        | _ => false)

/-- Check 4: STALE_CONTEXT 0x14 or NOT_PERMITTED 0x15 (R291, Table 15.4, R354). (DEDUCED, log 28) -/
def contextCheck (s : State) (p : Path) (x : Payload) : Nat :=
  let c := plCtx x
  if ctxState s c = 0 ∨ ctxGen s c ≠ plGen x then 0x14
  else
    match portOf p with
    | none => 0
    | some port =>
      if bit (ctxOwners s c) port = false ∨ ctxSessionKey s c ≠ plKey x ∨ (plType x = 1 ∧ (context s c).placed = true) then 0x15 else 0

/-- The acknowledgement body (Table 17.8). -/
def ackBody (tag status handle : Nat) : List Byte :=
  let h := toBe 4 tag ++ toBe 4 (status * 2 ^ 24) ++ toBe 4 handle
  h ++ toBe 4 (crc32c h)

/-- Send the acknowledgement of a payload. -/
def sendAck (p : Path) (x : Payload) (status handle : Nat) (s : State) : State := emit (.cmdAck p (ackBody (plTag x) status handle)) s

/-- The parse stage of a port is taken for 40 ns, 84 FCLK cycles (R306). (DESIGN CHOICE, log 77) -/
def takeParse (port : Nat) (s : State) : State := setEth port (fun e => { e with expressUntil := s.time + 84 }) s

/-- A command of a placed context goes to the other modules of its placement (R354). (DESIGN CHOICE, log 80) -/
def relayCommand (x : Payload) (k : Nat) (s : State) : State :=
  let own := identityOf s % 2 ^ 15
  let others := (context s (plCtx x)).placement.filter fun m => m != own
  if plCode x = 1 ∨ others.isEmpty then s
  else
    others.foldl (fun s m => sendRelay { report := false, code := plCode x, ctx := plCtx x, gen := plGen x, dst := m, src := own,
                                         slot := k, ops := x.ops } s)
      { s with relayJobs := s.relayJobs ++ [{ result := k, code := BitVec.ofNat 8 (plCode x), ctx := plCtx x, await := others, reported := [] }] }

/-- Put an accepted command where it waits: an express one at its context, a normal one in its port's queue. -/
def enqueueCmd (p : Path) (x : Payload) (k : Nat) (s : State) : State :=
  let c := plCtx x
  let s := relayCommand x k s
  if isExpress (plCode x) then
    if plCode x = 0x12 ∧ ctxState s c = 3 then endResult k 0 s
    else
      let s := match (context s c).express with
        | some e => match e.result with
          | some r => endResult r 0x20 s
          | none => s
        | none => s
      setContext c (fun y => { y with express := some {
        code := BitVec.ofNat 8 (plCode x), operand := bits (plWord x 0) 2 0, result := some k, path := p, since := s.time } }) s
  else
    let s := { s with normalQ := lmod s.normalQ (pathIdx p) fun l => l ++ [{
      code := BitVec.ofNat 8 (plCode x), ctx := c, operands := x.ops, result := k, path := p, reqTag := BitVec.ofNat 32 (plTag x) }] }
    if plCode x = 1 then s else setContext c (fun y => { y with normal := some k }) s

/-- Check 5: the pending slot of the context, or the port's queue and the context's normal command. -/
def slotBusy (s : State) (p : Path) (x : Payload) : Bool :=
  let y := context s (plCtx x)
  if isExpress (plCode x) then y.express.isSome && plCode x != 0x12
  else decide (256 ≤ (s.normalQ.getD (pathIdx p) []).length) || (plCode x != 1 && y.normal.isSome)

/-- Checks 5 and 6, and acceptance. -/
def acceptCommand (p : Path) (x : Payload) (s : State) : State :=
  if slotBusy s p x then sendAck p x 0x16 0 s
  else
    let opening := plCode x == 1
    let ports := if opening then (match portOf p with
      | some n => 2 ^ n
      | none => 0) else ctxOwners s (plCtx x)
    match createResult (plCode x) (if opening then 0 else plCtx x) ports (BitVec.ofNat 32 (plTag x)) s with
    | (none, s) => sendAck p x 0x17 0 s
    | (some k, s) => sendAck p x 1 (handleOf s k) (enqueueCmd p x k s)

/-- Checks 3 to 6 of a COMMAND; the entry of the context that it names is read (R289). -/
def commandChecks (p : Path) (x : Payload) (s : State) : State :=
  let rest := fun (s : State) =>
    let s := if plCode x = 1 then s else readEntry (plCtx x) s
    let st := if plCode x = 1 then 0 else contextCheck s p x
    if st ≠ 0 then sendAck p x st 0 s else acceptCommand p x s
  match (if isExpress (plCode x) then portOf p else none) with
  | some port =>
    if s.time < (eth s port).expressUntil then sendAck p x 0x13 0 (bumpE 0x3900 9 s) else rest (takeParse port s)
  | none => rest s

/-- A DOORBELL payload (R333): its entries in order; the acknowledgement carries the map of those refused. -/
def doorbellEntries (x : Payload) (s : State) : Nat × State :=
  (List.range (x.ops.length / 8)).foldl (fun acc i =>
    let r := doorbell (plCtx x) (plGen x) (bits (plWord x i) 38 32) (BitVec.ofNat 32 (plWord x i)) acc.2
    (if r.1 then acc.1 else acc.1 + 2 ^ i, r.2)) (0, s)

/-- The execution of a DOORBELL payload that passed checks 1 and 2. A stale one is refused under R207. (DEDUCED, log 20) -/
def doorbellChecks (p : Path) (x : Payload) (s : State) : State :=
  let s := readEntry (plCtx x) s
  let st := contextCheck s p x
  if st = 0x14 then sendAck p x st 0 (doorbellReject (bits (plWord x 0) 38 32) (plCtx x) s)
  else if st ≠ 0 then sendAck p x st 0 s
  else
    let r := doorbellEntries x s
    sendAck p x 1 r.1 r.2

/-- A payload from its first check on (R331, R332). -/
def payload (p : Path) (bs : List Byte) (s : State) : State :=
  let x := payloadOf bs
  let st := authCheck s p (plKey x) (plCounter x) (bs.take (bs.length - 8)) x.tag
  if bs.length < 32 then s
  else if st ≠ 0 then sendAck p x st 0 (bumpE 0x3B00 8 s)
  else
    let s := keepCounter p (plKey x) (plCounter x) s
    if !(encodingsOk s x) then sendAck p x 0x12 0 s
    else if plType x = 1 then commandChecks p x s
    else if plType x = 2 then doorbellChecks p x s
    else if plType x = 3 then resultRead p (plWord x 0) s
    else resultRelease p (plWord x 0) s

/-- COMMAND_PAYLOAD. -/
def commandPayload (p : Path) (bs : List Byte) (s : State) : State := payload p bs s

/-- DOORBELL_PAYLOAD. -/
def doorbellPayload (p : Path) (bs : List Byte) (s : State) : State := payload p bs s

/-! ## The hardware semaphore (R334, R335) -/

/-- FCLK cycles of a millisecond. -/
def msTicks : Nat := 2100000

/-- Firmware staging of a path is abandoned when its holding ends (R335, R386): FAILED with reason 9. -/
def abandonStaging (p : Path) (s : State) : State :=
  if s.island.fwOwner = some p ∧ s.island.fwState = 1 then
    let slot : FlashSlot := {}
    let s := if s.island.runningB then { s with flash := { s.flash with slotA := slot } } else { s with flash := { s.flash with slotB := slot } }
    setIsland (fun i => { i with fwState := 3, fwReason := 9, fwOwner := none }) s
  else s

/-- The holding ends, now or when the committed operation does. -/
def semEnd (s : State) : State :=
  if s.sem.committed then { s with sem := { s.sem with deferred := true } }
  else
    let s := match s.sem.holder with
      | some p => abandonStaging p s
      | none => s
    { s with sem := {} }

/-- A committed operation ends: a release or expiry that waited takes effect. -/
def semUncommit (s : State) : State :=
  let d := s.sem.deferred
  let s := { s with sem := { s.sem with committed := false, deferred := false } }
  if d then semEnd s else s

/-- A committed operation begins. -/
def semCommit (s : State) : State := { s with sem := { s.sem with committed := true } }

/-- Paths that can hold the semaphore. -/
def canHold (p : Path) : Bool := p != .firmware

/-- SEM_STATE's deadline for a path: the sideband holds without one. -/
def semDeadline (s : State) : Nat := s.time + reg s 0x3B00 3 * msTicks

/-- ACQUIRE. -/
def semAcquireW (p : Path) (s : State) : Nat × State :=
  if canHold p && (s.sem.holder.isNone || s.sem.holder == some p) then
    (0, { s with sem := { s.sem with holder := some p, deadline := semDeadline s } })
  else (0x16, s)

/-- RENEW. -/
def semRenewW (p : Path) (s : State) : Nat × State :=
  if canHold p && s.sem.holder == some p then (0, { s with sem := { s.sem with deadline := semDeadline s } }) else (0x16, s)

/-- RELEASE. -/
def semReleaseW (p : Path) (s : State) : Nat × State :=
  if canHold p && s.sem.holder == some p then (0, semEnd s) else (0x16, s)

/-- A write of SEM_REQUEST. -/
def semRequestW (p : Path) (v : Nat) (s : State) : Nat × State :=
  if v = 1 then semAcquireW p s else if v = 2 then semRenewW p s else if v = 3 then semReleaseW p s else (0x1A, s)

/-- The lease of a port runs out (R334): it is counted when the holding ends. (DESIGN CHOICE, log 4) -/
def semLeaseExpiry (s : State) : State :=
  match s.sem.holder with
  | some .port0 => if s.sem.deferred then s else semEnd (bumpE 0x3B00 5 s)
  | some .port1 => if s.sem.deferred then s else semEnd (bumpE 0x3B00 5 s)
  | _ => s

/-- SEM_BREAK: 1 from the sideband ends any holding; another value or a port is refused (Table 15.9). -/
def semBreakW (p : Path) (v : Nat) (s : State) : Nat × State :=
  if p = .sideband ∧ v = 1 then (0, semEnd s) else (0x1A, s)

/-- SEM_STATE (Table 15.9). (DESIGN CHOICE, log 76) -/
def semState (s : State) : Nat :=
  match s.sem.holder with
  | none => 0
  | some .sideband => 0xFFFFFF * 256 + 3
  | some p => min ((s.sem.deadline - s.time) / msTicks) 0xFFFFFF * 256 + (pathIdx p + 1)

/-- A path may write the port entries: the sideband, or the semaphore's holder (R340). -/
def portWriter (s : State) (p : Path) : Bool := p == .sideband || holdsSem s p

/-! ## Ethernet ports (R322-R324) -/

/-- A received frame is dropped and counted (R323, R324, R372). -/
def ethFrameDrop (port : Nat) (s : State) : State := bumpE (0x3B10 + port) 0xB s

/-- ETH_SPEED: the port goes down and trains again (R322). -/
def ethSpeedW (port v : Nat) (s : State) : Nat × State :=
  if 2 < v then (0x1A, s) else (0, setEth port (fun e => { e with state := 1 }) (setReg (0x3B10 + port) 1 v s))

/-- Training ends: the port is up. -/
def ethTrainingDone (port : Nat) (s : State) : State :=
  if (eth s port).state = 1 then setEth port (fun e => { e with state := 2 }) s else s

/-! ## MACsec keys (R325, R326) -/

/-- Read the SAK record of a context; none where it cannot be read. -/
def sakRecord (ctx a : Nat) (s : State) : Option (List Byte) × State :=
  match unitPieces s ctx false a 128 with
  | none => (none, s)
  | some ps =>
    let r := unitRead .read true ps (unitUse ctx a 128 s)
    (if r.2.1 then none else some r.1, r.2.2)

/-- The reserved fields of a SAK record are zero and its FORMAT is 5. -/
def sakFieldsOk (w : Nat) : Bool :=
  bits w 3 0 == 5 && bits w 5 4 == 0 && bit w 8 == false && bits w 15 10 == 0 && bits w 351 24 == 0

/-- The association a record carries, its key decrypted under the session key of KEY_SLOT. -/
def sakAssoc (key : List Byte) (bs : List Byte) : Assoc :=
  let w := ofLe bs
  { an := BitVec.ofNat 2 (bits w 7 6), sak := gcmCrypt key ((bs.drop 68).take 12) ((bs.drop 80).take 32),
    salt := (bs.drop 56).take 12, sci := BitVec.ofNat 64 (bits w 447 384), ssci := BitVec.ofNat 32 (bits w 383 352), pn := 1 }

/-- Install an association: the older one of its direction is erased, a transmit key starts at PN 1. -/
def installAssoc (port : Nat) (tx : Bool) (a : Assoc) (s : State) : State :=
  let put := fun (l : List Assoc) =>
    let l := l.filter fun x => x.an != a.an
    (if 2 ≤ l.length then l.drop 1 else l) ++ [a]
  setEth port (fun e => if tx then { e with tx := put e.tx, txStopped := false } else { e with rx := put e.rx }) s

/-- MACSEC_SAK_LOAD (R325, R326): a record that cannot be read, a reserved field, an empty slot or a failing tag refuses the
load and leaves the keys. -/
def macsecLoadW (port v : Nat) (s : State) : Nat × State :=
  let a := bits v 47 0
  if bits v 63 60 ≠ 0 ∨ a % 128 ≠ 0 then (0x1A, s)
  else
    match sakRecord (bits v 59 48) a s with
    | (none, s) => (0x1A, s)
    | (some bs, s) =>
      let w := ofLe bs
      let k := keySlot s (bits w 23 16)
      let ok := sakFieldsOk w && k.role == .session &&
        gcmTag k.key ((bs.drop 68).take 12) (bs.take 80) ((bs.drop 80).take 32) == bs.drop 112
      if ok then (0, installAssoc port (bit w 9) (sakAssoc k.key bs) s) else (0x1A, s)

/-- MACSEC_STATE. -/
def macsecState (e : EthPort) : Nat :=
  b2n e.txStopped + (e.rx.foldl (fun m a => m ||| 2 ^ (2 + a.an.toNat)) 0) +
    (match e.tx.getLast? with
     | some a => a.an.toNat * 64
     | none => 0)

end Sys2Proof.Machine
end

