-- ==== Sys2Proof/Machine/Vector.lean ====
section
/-! DEFINITION. The vector engine (chapter 8): operation word, checks, element operations, reductions, registers, the finished-tile queue as a source, row finishing. -/

namespace Sys2Proof.Machine

/-! ## Operation word (Table 8.1) -/

/-- A_SRC. -/
def vASrc (w : Nat) : Nat := bits w 43 42
/-- B_SRC. -/
def vBSrc (w : Nat) : Nat := bits w 41 40
/-- C_SRC. -/
def vCSrc (w : Nat) : Nat := bits w 39 38
/-- D_REG. -/
def vDReg (w : Nat) : Bool := bit w 37
/-- VA. -/
def vVA (w : Nat) : Nat := bits w 36 32
/-- VB. -/
def vVB (w : Nat) : Nat := bits w 31 27
/-- VC. -/
def vVC (w : Nat) : Nat := bits w 26 22
/-- VD. -/
def vVD (w : Nat) : Nat := bits w 21 17
/-- SAT. -/
def vSat (w : Nat) : Bool := bit w 16
/-- SATFIN. -/
def vSatfin (w : Nat) : Bool := bit w 15
/-- AXIS. -/
def vAxis (w : Nat) : Nat := bits w 14 12
/-- IMM. -/
def vImm (w : Nat) : Nat := bits w 11 0

/-- Reductions. -/
def vReduces (op : Nat) : Bool := decide (0x30 ≤ op ∧ op ≤ 0x34)
/-- Integer-type opcodes. -/
def vIntOp (op : Nat) : Bool := decide (0x20 ≤ op ∧ op ≤ 0x28) || op == 0x34

/-- Check 1 of Table 8.4. -/
def vecEncOk (w : Nat) : Bool :=
  let op := iOpcode w
  let imm := vImm w
  vASrc w != 3 && decide (vAxis w < 6) &&
    (if op = 0xA then decide (imm ≤ 5) else if op = 0x23 then decide (imm < 32)
     else if op = 0x38 then decide (0x10 ≤ imm ∧ imm ≤ 0x12) else imm == 0)

/-! ## Registers (R162) -/

/-- Key of a lane of a register of a context. (DEDUCED, log 67) -/
def vKey (ctx r l : Nat) : Nat := (ctx * 32 + r) * 64 + l

/-- A lane and its poison bit. -/
def vLane (s : State) (c ctx r l : Nat) : Nat × Bool :=
  ((tget 0 (core s c).vec.regs (vKey ctx r l)).toNat, nmem (core s c).vec.poison (vKey ctx r l))

/-- Write a register: lanes past the last value become zero (R167). -/
def setVReg (c ctx r : Nat) (vs : List (Nat × Bool)) (s : State) : State :=
  setCore c (fun x => { x with vec := (List.range 64).foldl (fun v l =>
    let k := vKey ctx r l
    let y := vs.getD l (0, false)
    { v with regs := tset v.regs k (BitVec.ofNat 32 y.1), poison := if y.2 then nins v.poison k else ndel v.poison k }) x.vec }) s

/-! ## Element operations (Table 8.2) -/

/-- The result of an element opcode on 32-bit patterns: binary32 for float types, two's complement for integer types. -/
def vecFn (w a b c : Nat) : Flagged :=
  let sa := toSigned 32 a
  let sb := toSigned 32 b
  let fl := fun (v : Nat) => ({ val := v, nan := isNan32 v } : Flagged)
  match iOpcode w with
  | 0x01 => fl (fadd a b)
  | 0x02 => fl (fsub a b)
  | 0x03 => fl (fmul a b)
  | 0x04 => fl (ffma a b c)
  | 0x05 => fl (fmax a b)
  | 0x06 => fl (fmin a b)
  | 0x07 => fl (enc32 (flNeg (dec32 a)))
  | 0x08 => fl (if isNan32 a then nan32 else a % 2 ^ 31)
  | 0x09 => fl (enc32 (dec32 a))
  | 0x0A => { val := if fpred (vImm w) a b then 0x3F80_0000 else 0 }
  | 0x10 => fl (fspecial .exp a)
  | 0x11 => fl (fspecial .log a)
  | 0x12 => fl (fspecial .rsqrt a)
  | 0x13 => fl (fdiv 0x3F80_0000 a)
  | 0x14 => fl (fsqrt a)
  | 0x15 => fl (fspecial .tanh a)
  | 0x16 => fl (fspecial .sigm a)
  | 0x17 => fl (frelu a)
  | 0x18 => fl (fspecial .silu a)
  | 0x19 => fl (fspecial .gelu a)
  | 0x20 => narrow32 (vSat w) (sa + sb)
  | 0x21 => narrow32 (vSat w) (sa - sb)
  | 0x22 => narrow32 (vSat w) (sa * sb)
  | 0x23 => { val := ofSigned 32 (sa / ((2 ^ (vImm w % 32) : Nat) : Int)) }
  | 0x24 => { val := a &&& b }
  | 0x25 => { val := a ||| b }
  | 0x26 => { val := a ^^^ b }
  | 0x27 => { val := if sa < sb then b else a }
  | 0x28 => { val := if sb < sa then b else a }
  | _ => { val := a }

/-- VSEL: a if c is not zero, otherwise b; among floating operands a NaN comes out canonical and counts (R168). -/
def vselFn (isInt cNonZero : Bool) (a b : Nat) : Flagged :=
  let v := if cNonZero then a else b
  if !isInt && isNan32 v then { val := nan32, nan := true } else { val := v }

/-! ## Reductions (R169) -/

/-- Combine two partials; an absent one skips. -/
def combineP (op : Nat → Nat → Nat) : Option Nat → Option Nat → Option Nat
  | some a, some b => some (op a b)
  | some a, none => some a
  | none, y => y

/-- One level of the tree over the lanes. -/
def treeStep (op : Nat → Nat → Nat) : List (Option Nat) → List (Option Nat)
  | a :: b :: r => combineP op a b :: treeStep op r
  | l => l

/-- Partials of 64 lanes: element k goes to lane k mod 64. -/
def lanePartials (op : Nat → Nat → Nat) (es : List Nat) : List (Option Nat) :=
  (List.range 64).map fun l =>
    (((List.range es.length).filter fun k => k % 64 == l).map fun k => es.getD k 0).foldl
      (fun acc x => combineP op acc (some x)) none

/-- A line along AXIS 0: lane partials and a tree of six levels. -/
def reduceTree (op : Nat → Nat → Nat) (es : List Nat) : Nat :=
  let p := lanePartials op es
  ((treeStep op (treeStep op (treeStep op (treeStep op (treeStep op (treeStep op p)))))).headD none).getD 0

/-- A line along another axis: one lane, index ascending. -/
def reduceSeq (op : Nat → Nat → Nat) : List Nat → Nat
  | [] => 0
  | x :: r => r.foldl op x

/-- The reduction of one line. -/
def reduceLine (w : Nat) (es : List Nat) : Flagged :=
  let red := fun (op : Nat → Nat → Nat) (l : List Nat) => if vAxis w = 0 then reduceTree op l else reduceSeq op l
  match iOpcode w with
  | 0x30 => let v := red fadd es
            { val := v, nan := isNan32 v }
  | 0x31 => let v := red fmax es
            { val := v, nan := isNan32 v }
  | 0x32 => let v := red fmin es
            { val := v, nan := isNan32 v }
  | 0x33 => let v := red fadd (es.map fun x => fmul x x)
            { val := v, nan := isNan32 v }
  | _ => narrow32 (vSat w) ((es.map fun x => toSigned 32 x).sum)

/-! ## Checks at issue (Table 8.4) -/

/-- Formats that float-type opcodes take (R168). -/
def floatFmts : List Nat := [0, 1, 4, 5, 7, 0xA, 0xB]
/-- Formats that integer-type opcodes take. -/
def intFmts : List Nat := [0, 1, 0xB]

/-- Formats that Table 9.5 admits for the vector engine. (DEDUCED, log 63) -/
def vecElems : List Nat := [0, 1, 4, 5, 7, 8, 9, 0xA, 0xB]

/-- Every descriptor that is there has a format of a list. (DEDUCED, log 63) -/
def fmtsIn (l : List Nat) (ts : List (Option Tens)) : Bool :=
  ts.all fun t => match t with | some t => l.contains (dElem t.w) | none => true

/-- The instruction works on integers: an integer opcode, or VSEL among integers only. (DEDUCED, log 69) -/
def vecIsInt (w : Nat) (o : VecOps) : Bool := vIntOp (iOpcode w) || (iOpcode w == 0x0B && fmtsIn intFmts [o.a, o.b, o.d])

/-- Extent of a shape along a dimension, 1 beyond its rank. -/
def extAt (l : List Nat) (d : Nat) : Nat := l.getD d 1

/-- A source's shape fits A's: equal, or 1 where it broadcasts. -/
def fits (shape : List Nat) (t : Option Tens) : Bool :=
  match t with
  | none => true
  | some t => (List.range 6).all fun d => extAt (dShape t.w) d == extAt shape d || extAt (dShape t.w) d == 1

/-- A destination has exactly a shape. -/
def same (shape : List Nat) (t : Option Tens) : Bool :=
  match t with
  | none => true
  | some t => (List.range 6).all fun d => extAt (dShape t.w) d == extAt shape d

/-- A shape with extent 1 on an axis. -/
def reduced (shape : List Nat) (axis : Nat) : List Nat :=
  (List.range (max shape.length (axis + 1))).map fun d => if d = axis then 1 else extAt shape d

/-- Shape of the results of an instruction. -/
def resultShape (w : Nat) (shape : List Nat) : List Nat := if vReduces (iOpcode w) then reduced shape (vAxis w) else shape

/-- Number of elements of a shape. -/
def volume (l : List Nat) : Nat := l.foldl (· * ·) 1

/-- Open an operand descriptor when its source says so. -/
def openIf (b : Bool) (e : Env) (u : Use) (a : Nat) : Eng (Option Tens) := do
  if b then do
    let t ← openTensor e u a
    pure (some t)
  else pure none

/-- The uses of a vector instruction's descriptors (Table 9.5). -/
def vecSrcUse : Use := { gather := true, pad := true, dist := true, tiled := true, elems := vecElems }

/-- The use of a vector instruction's destination. -/
def vecDstUse : Use := { scatter := true, pad := true, dist := true, tiled := true, elems := vecElems, write := true }

/-- The fusion block of VROWFIN (check 6): the stored tensor and the partials are FP32, γ and β are there. (DEDUCED, log 65) -/
def rowfinFuse (e : Env) (w : Nat) (o : VecOps) : Eng VecOps := do
  match o.a with
  | some t => do
    let fa := dFuse t.w
    needE (fa % 64 == 0) .fusionBlock (some (fa, false))
    let fw ← loadWord e fa 64
    let need := if vImm w = 0x10 then 1 else if vImm w = 0x11 then 2 else 0
    needE (fusionBlockOk fw 0 0 && (need == 0 || fuEvec fw != 0)) .fusionBlock (some (fa, false))
    needE (fmtsIn [0xA] [o.a, o.b]) .fuseNotAdmitted (some (fa, false))
    let ev ← if need = 0 then pure none else openFuse e [0xA] false (fuEvec fw)
    needE (fuseShape ev (extAt o.shape 0) need) .shapeMismatch (some (fa, false))
    pure { o with fuse := some { w := fw, evec := ev } }
  | none => pure o

/-- The shapes of an instruction (check 4, R167, R174). -/
def vecShapesOk (w : Nat) (o : VecOps) : Bool :=
  (!(vDReg w) || decide (volume (resultShape w o.shape) ≤ 64)) &&
    if iOpcode w = 0x38 then
      match o.a, o.b with
      | some ta, some tb => dRank ta.w == 2 && statOk tb (statTiles tb) && statRows tb == extAt o.shape 1 &&
          same o.shape o.d && same [2, extAt o.shape 1] o.c
      | _, _ => false
    else fits o.shape o.b && fits o.shape o.c && same (resultShape w o.shape) o.d

/-- A destination shares bytes with a source, or with the statistics that VROWFIN writes (R188). -/
def vecLap (own : Nat) (w : Nat) (o : VecOps) : Bool :=
  let rowfin := iOpcode w == 0x38
  let reads := [o.a, o.b, o.fuse.bind fun f => f.evec] ++ if rowfin then [] else [o.c]
  let writes := o.d :: if rowfin then [o.c] else []
  (writes.filterMap id).any (fun d => (reads.filterMap id).any fun a => tensOverlap own d a) ||
    (match rowfin, o.d, o.c with
     | true, some d, some t => tensOverlap own d t
     | _, _, _ => false)

/-- The first entry of a context in a core's finished-tile queue. -/
def firstTile (x : Core) (ctx : Nat) : Option Tile := x.array.queue.find? fun t => t.ctx == ctx

/-- The shape that an instruction walks: A's descriptor's, a register's 64 lanes, or the result of the MM whose entries it pops: the
checks on it wait for the first entry, and an aborted one takes the destination's. (DEDUCED, log 130) -/
def vecShape (e : Env) (w : Nat) (a d : Option Tens) : Eng (List Nat) := do
  match a with
  | some t => pure (dShape t.w)
  | none =>
    if vASrc w = 1 then pure [64]
    else
      match firstTile (core (← get) e.core) e.ctx with
      | none => throw .stall
      | some t =>
        if bit t.tag.toNat 38 then pure ((d.map fun t => dShape t.w).getD []) else pure [t.n, t.m]

/-- The popping instruction's first entry is an aborted one: it faults when it pops it, whatever its shapes. -/
def firstAborted (e : Env) (w : Nat) : Eng Bool := do
  if vASrc w = 2 then pure ((firstTile (core (← get) e.core) e.ctx).any fun t => bit t.tag.toNat 38) else pure false

/-- Checks of Table 8.4 for an instruction that walks tensors. -/
def vecIssue (c : Nat) (i : Issued) (r : Nat) : Eng VecOps := do
  let w := i.word.toNat
  let op := iOpcode w
  let e := envOf c .vec i
  needE (vecEncOk w) .reservedField
  let a ← openIf (vASrc w == 0) e vecSrcUse (addrOf i r 1)
  let b ← openIf (vecUsesB op && vBSrc w == 0) e vecSrcUse (addrOf i r 2)
  let cT ← openIf (vecUsesC op && vCSrc w == 0) e { vecSrcUse with write := op == 0x38 } (addrOf i r 3)
  let d ← openIf (!(vDReg w)) e vecDstUse (addrOf i r 0)
  let fmts := if vIntOp op then intFmts else floatFmts
  needE (fmtsIn fmts [a, b, d] && (fmtsIn (if op = 0x0B then floatFmts else fmts) [cT]) &&
    (!(vecUsesB op) || vBSrc w != 3) && (!(vecUsesC op) || op == 0x38 || vCSrc w != 3) &&
    (op != 0x38 || (vASrc w == 0 && vBSrc w == 0))) .formatPair
  let shape ← vecShape e w a d
  let o : VecOps := { a := a, b := b, c := cT, d := d, fuse := none, shape := shape }
  needE ((← firstAborted e w) || vecShapesOk w o) .shapeMismatch
  let o ← if op = 0x38 then rowfinFuse e w o else pure o
  pure { o with lap := vecLap (moduleOf (← get)) w o }

/-! ## Operands of one element -/

/-- A 32-bit pattern from an element of a format, as the opcode type takes it (R168). -/
def vecWiden (isInt : Bool) (f b : Nat) : Nat :=
  if isInt then ofSigned 32 (elemInt f b)
  else if isIntFmt f then fofInt (elemInt f b) else enc32 (elemFl f b)

/-- The index vector of a source that broadcasts along extents of 1. -/
def broadcast (t : Tens) (ix : List Nat) : List Nat :=
  (List.range (dRank t.w)).map fun d => if extAt (dShape t.w) d = 1 then 0 else ix.getD d 0

/-- One operand at an index vector: from its descriptor, from a register as a row, or from lane 0 of it. -/
def vecOperand (e : Env) (isInt : Bool) (src reg : Nat) (t : Option Tens) (ix : List Nat) : Eng (Nat × Bool) := do
  match src with
  | 0 => match t with
    | some t => do
      let x ← readElem e t 0 (broadcast t ix)
      pure (vecWiden isInt (dElem t.w) x.bits, x.poison)
    | none => pure (0, false)
  | 1 => pure (vLane (← get) e.core e.ctx reg (ix.getD 0 0 % 64))
  | 2 => pure (vLane (← get) e.core e.ctx reg 0)
  | _ => pure (0, false)

/-- The condition of VSEL at an index vector: a register's is taken as the instruction's kind. -/
def vecCond (e : Env) (w : Nat) (o : VecOps) (isInt : Bool) (ix : List Nat) : Eng (Bool × Bool) := do
  match vCSrc w, o.c with
  | 0, some t => do
    let x ← readElem e t 0 (broadcast t ix)
    pure (if isIntFmt (dElem t.w) then elemInt (dElem t.w) x.bits != 0 else !(isZero32 (enc32 (elemFl (dElem t.w) x.bits))), x.poison)
  | _, _ => do
    let v ← vecOperand e isInt (vCSrc w) (vVC w) none ix
    pure (if isInt then v.1 != 0 else !(isZero32 v.1), v.2)

/-- One element: operand A given, the rest read. -/
def vecElem (e : Env) (w : Nat) (o : VecOps) (isInt : Bool) (a : Nat × Bool) (ix : List Nat) : Eng (Flagged × Bool) := do
  let op := iOpcode w
  let b ← if vecUsesB op then vecOperand e isInt (vBSrc w) (vVB w) o.b ix else pure (0, false)
  if op = 0x0B then do
    let c ← vecCond e w o isInt ix
    pure (vselFn isInt c.1 a.1 b.1, a.2 || b.2 || c.2)
  else do
    let c ← if vecUsesC op then vecOperand e isInt (vCSrc w) (vVC w) o.c ix else pure (0, false)
    pure (vecFn w a.1 b.1 c.1, a.2 || b.2 || c.2)

/-- Convert a result for its destination (R168). -/
def vecConv (w : Nat) (o : VecOps) (d : Option Tens) (v : Flagged) : Flagged :=
  match d with
  | none => v
  | some t =>
    let x := if vecIsInt w o then convIntOut (dElem t.w) (toSigned 32 v.val) else convOut (dElem t.w) (vSatfin w) v.val
    { x with sat := x.sat || v.sat, nan := v.nan }

/-! ## Rows -/

/-- Rows of a shape in walk order: index vectors in runs of at most 64 along dimension 0. -/
def vecRows (shape : List Nat) : List (List (List Nat)) :=
  (walk (shape.drop 1)).flatMap fun t => chunks 64 ((List.range (extAt shape 0)).map fun i => i :: t)

/-- Name the row under way in a fault's DETAIL (R179, Table 20.5). -/
def inRow {α : Type} (n : Nat) (x : Eng α) : Eng α := fun s =>
  match x s with
  | .error (.fault f) s' => .error (.fault { f with detail := n % 2 ^ 48 }) s'
  | r => r

/-- Count the events of one row (Table 8.5). (DEDUCED, log 68) -/
def rowEvents (vs : List Flagged) (s : State) : State :=
  let s := if vs.any fun v => v.nan then bumpE 0x3400 1 s else s
  if vs.any fun v => v.sat then bumpE 0x3400 2 s else s

/-- Write a row of results: all read before any is written, and left open where they overlap (R188). -/
def putRow (e : Env) (w : Nat) (o : VecOps) (ixs : List (List Nat)) (vs : List (Flagged × Bool)) : Eng Unit := do
  match o.d with
  | none => pure ()
  | some t => eachE (fun (x : List Nat × (Flagged × Bool)) => do
      let v ← storedBits o.lap x.2.1.val
      writeElem e t (vSat w) x.1 v x.2.2) (ixs.zip vs)

/-- Count and store a row of results, up to the checkpoint at its end (R178). -/
def storeRow (e : Env) (w : Nat) (o : VecOps) (ixs : List (List Nat)) (vs : List (Flagged × Bool)) : Eng Unit := do
  act (rowEvents (vs.map (·.1)))
  putRow e w o ixs vs
  checkpoint

/-- Operand A at an index vector. -/
def vecA (e : Env) (w : Nat) (o : VecOps) (ix : List Nat) : Eng (Nat × Bool) :=
  vecOperand e (vecIsInt w o) (vASrc w) (vVA w) o.a ix

/-- An element-wise instruction over its whole shape; answers the results in walk order for a register destination. -/
def runElems (e : Env) (w : Nat) (o : VecOps) : Eng (List (Nat × Bool)) := do
  let rows ← mapE (fun (x : List (List Nat) × Nat) => inRow x.2 (do
      let vs ← mapE (fun ix => do
        let a ← vecA e w o ix
        let v ← vecElem e w o (vecIsInt w o) a ix
        pure (vecConv w o o.d v.1, v.2)) x.1
      storeRow e w o x.1 vs
      pure (vs.map fun v => (v.1.val, v.2)))) (vecRows o.shape).zipIdx
  pure rows.flatten

/-- Index vectors of the lines of a reduction, with AXIS at 0. -/
def lines (w : Nat) (shape : List Nat) : List (List Nat) := walk (reduced shape (vAxis w))

/-- The number of an index vector in the walk of a shape. -/
def walkIndex (shape ix : List Nat) : Nat :=
  ((List.range (max shape.length ix.length)).foldr (fun d acc => acc * extAt shape d + ix.getD d 0) 0)

/-- Store the results of a reduction, one event row for each line (R180), 64 of them in a row; answers the results. (DEDUCED, log 68) -/
def storeLines (e : Env) (w : Nat) (o : VecOps) (row : Nat) (ls : List (List Nat × (List Nat × Bool))) : Eng (List (Nat × Bool)) := do
  let vs := ls.map fun l => (vecConv w o o.d (reduceLine w l.2.1), l.2.2)
  eachE (fun (x : (Flagged × Bool)) => act (rowEvents [x.1])) vs
  eachE (fun (x : List ((List Nat × (List Nat × Bool)) × (Flagged × Bool))) => inRow row (do
    putRow e w o (x.map fun y => y.1.1) (x.map fun y => y.2)
    checkpoint)) (chunks 64 (ls.zip vs))
  pure (vs.map fun v => (v.1.val, v.2))

/-- The lines of a reduction from the elements in walk order. -/
def linesOf (w : Nat) (shape : List Nat) (es : List (Nat × Bool)) : List (List Nat × (List Nat × Bool)) :=
  (lines w shape).map fun ix =>
    let l := (List.range (extAt shape (vAxis w))).map fun k => es.getD (walkIndex shape (ix.set (vAxis w) k)) (0, false)
    (ix, (l.map (·.1), l.any (·.2)))

/-- A reduction over a tensor or a register: A is walked row by row, the results are written at the end (R169, R179). -/
def runReduce (e : Env) (w : Nat) (o : VecOps) : Eng (List (Nat × Bool)) := do
  let rows := vecRows o.shape
  let es ← mapE (fun (x : List (List Nat) × Nat) => inRow x.2 (do
    let r ← mapE (fun ix => vecA e w o ix) x.1
    checkpoint
    pure r)) rows.zipIdx
  storeLines e w o (rows.length - 1) (linesOf w o.shape es.flatten)

/-- Phase 1 of VROWFIN for one row (R174): its partials combined; answers the statistics and their poison. (DEDUCED, log 65) -/
def rowfinStat (e : Env) (w : Nat) (o : VecOps) (tb : Tens) (eps i : Nat) : Eng ((Nat × Nat) × Bool) := do
  let ps ← mapE (fun t => do
    let x ← readElem e tb 0 (statAt tb 0 t i)
    let y ← readElem e tb 0 (statAt tb 1 t i)
    pure ((vecWiden false (dElem tb.w) x.bits, vecWiden false (dElem tb.w) y.bits), x.poison || y.poison)) (List.range (statTiles tb))
  let st := rowCombine (vImm w - 0x10) (extAt o.shape 0) eps (ps.map (·.1))
  let sp := ps.any fun p => p.2
  match o.c with
  | some t => do
    let a ← storedBits o.lap (convOut (dElem t.w) (vSatfin w) st.1).val
    writeElem e t false [0, i] a sp
    let b ← storedBits o.lap (convOut (dElem t.w) (vSatfin w) st.2).val
    writeElem e t false [1, i] b sp
  | none => pure ()
  checkpoint
  pure (st, sp)

/-- VROWFIN (R174): phase 1 combines the partials of every row and stores the statistics where C is a descriptor; phase 2 applies the
row stage. (DEDUCED, log 65) -/
def runRowfin (e : Env) (w : Nat) (o : VecOps) : Eng (List (Nat × Bool)) := do
  let kind := vImm w - 0x10
  match o.b, o.fuse with
  | some tb, some f => do
    let first := evecRows f.evec - (if kind = 0 then 1 else if kind = 1 then 2 else 0)
    let sts ← mapE (fun i => inRow i (rowfinStat e w o tb (fuEps f.w) i)) (List.range (extAt o.shape 1))
    let rows ← mapE (fun (x : List (List Nat) × Nat) => inRow x.2 (do
      let vs ← mapE (fun ix => do
        let j := ix.getD 0 0
        let st := sts.getD (ix.getD 1 0) ((0, 0), false)
        let a ← vecA e w o ix
        let g ← if kind = 2 then pure (0, false) else fuseWord e f.evec first j
        let b ← if kind = 1 then fuseWord e f.evec (first + 1) j else pure (0, false)
        let v := rowStage kind (fuOscale f.w) st.1 a.1 g.1 b.1
        pure (vecConv w o o.d { val := v, nan := isNan32 v }, a.2 || st.2 || g.2 || b.2)) x.1
      storeRow e w o x.1 vs
      pure (vs.map fun v => (v.1.val, v.2)))) (vecRows o.shape).zipIdx
    pure rows.flatten
  | _, _ => pure []

/-! ## VLDR and VSTR -/

/-- The encoding and alignment checks of the two row moves. -/
def rowMoveIssue (w a : Nat) : Eng Unit := do
  needE (vecEncOk w) .reservedField
  needE (a % 256 == 0) .alignment (some (a, false))

/-- VLDR: VD from a row of 256 bytes. -/
def vldrOne (c : Nat) (i : Issued) (r : Nat) : Eng (List SealMsg) := do
  let e := envOf c .vec i
  let w := i.word.toNat
  let a := addrOf i r 1
  rowMoveIssue w a
  let vs ← mapE (fun l => do
    let (bs, p) ← load e (a + 4 * l) 4
    pure (ofLe bs, p)) (List.range 64)
  act (setVReg c i.ctx (vVD w) vs)
  pure []

/-- VSTR: VA to a row of 256 bytes, each word with its lane's poison. -/
def vstrOne (c : Nat) (i : Issued) (r : Nat) : Eng (List SealMsg) := do
  let e := envOf c .vec i
  let w := i.word.toNat
  let a := addrOf i r 0
  rowMoveIssue w a
  eachE (fun l => do
    let v := vLane (← get) c i.ctx (vVA w) l
    store e (a + 4 * l) (toLe 4 v.1) v.2) (List.range 64)
  pure []

/-! ## The rows -/

/-- One repeat of an instruction that does not pop the queue. Its register destination is written as the repeat retires (R179, R216). -/
def vecOne (c : Nat) (i : Issued) (r : Nat) : Eng (List SealMsg) := do
  let w := i.word.toNat
  let e := envOf c .vec i
  let o ← vecIssue c i r
  let vs ← if iOpcode w = 0x38 then runRowfin e w o else if vReduces (iOpcode w) then runReduce e w o else runElems e w o
  if vDReg w then act (setVReg c i.ctx (vVD w) vs)
  pure []

/-- The consumer of an MM's entries faults: those that remain of the MM are to be discarded, up to the one with LAST (R173). (DEDUCED, log 130) -/
def popFault (c : Nat) (i : Issued) (last : Bool) (f : FaultInfo) (s : State) : State :=
  endFault c .vec i i.progress f
    (if last then s else setCore c (fun x => { x with vec := { x.vec with discard := some i.ctx } }) s)

/-- The start of an instruction that pops the queue: issued once, its copies kept (R172, R177). -/
def vecStart (c : Nat) (i : Issued) (s : State) : State :=
  if i.vec.isSome || (core s c).vec.discard == some i.ctx then s
  else
    match runFrom i.journal false (vecIssue c i i.progress) s with
    | .ok o s => setHead c .vec (fun x => { x with vec := some o, journal := [] }) s
    | .error (.fault f, _) s => popFault c i false f s
    | .error (stop, j) s => holdHead c .vec i i.progress j stop s

/-- A gate instruction of the lane side that has begun, or has ended and not retired, claims the vector engine of a core (R175). -/
def vecClaimed (s : State) (c : Nat) : Bool :=
  ((core s c).qGateLane.take 1).any begun ||
    (core s c).retiring.any fun e => !e.faulted && queueOf e.instr.word.toNat == some .gateLane

/-- An instruction of the engine pops the finished-tile queue. -/
def vecPops (w : Nat) : Bool := vASrc w == 2 && iOpcode w != 0x38 && iOpcode w != 0x3C && iOpcode w != 0x3D

/-- A vector row: an instruction over tensors and registers runs; one that pops the queue starts. -/
def vecRow (c op : Nat) (s : State) : State :=
  match readyHead s c .vec op with
  | none => s
  | some i =>
    if vecClaimed s c && !(begun i) then s
    else if vecPops i.word.toNat then vecStart c i s
    else runEngine c .vec op (fun i r => if op = 0x3C then vldrOne c i r else if op = 0x3D then vstrOne c i r else vecOne c i r) s

/-! ## TILE_POP (R172, R173) -/

/-- Remove the first queue entry that satisfies a test, counted in VEC_TILES. -/
def popTile (c : Nat) (p : Tile → Bool) (s : State) : State :=
  setCore c (fun x => { x with array := { x.array with
    queue := match x.array.queue.findIdx? p with
      | some k => ldrop x.array.queue k
      | none => x.array.queue } }) (addTotal 0x3400 3 1 s)

/-- The instruction takes an entry's words as integers: VSEL with no descriptor to say follows the entry. (DEDUCED, log 69) -/
def popIsInt (w : Nat) (o : VecOps) (fp : Bool) : Bool :=
  if iOpcode w = 0x0B ∧ o.b = none ∧ o.d = none then !fp else vecIsInt w o

/-- Elements of one popped tile: computed and stored at once, or kept for a reduction or a register (R172). -/
def popElems (e : Env) (w : Nat) (o : VecOps) (t : Tile) : Eng VecOps := do
  let g := t.tag.toNat
  let (mt, nt) := (bits g 95 78, bits g 77 60)
  let e := { e with again := (if nt = 0 then [] else [1]) ++ (if mt = 0 then [] else [0]) ++
                             (if mt = 0 ∧ nt = 0 then [] else [2, 3, 4, 5]) }
  let fp := bit g 39
  let poison := bit g 37
  let isInt := popIsInt w o fp
  if bit g 38 then failE .tileAborted
  needE (!(fp && isInt)) .formatPair
  let cols := bits g 52 46 + 1
  let place := fun (k : Nat) => (nt * tileCols (bits g 45 44) t.bf16 + k % cols, mt * tileRows (bits g 45 44) + k / cols)
  let word := fun (k : Nat) =>
    let v := (t.data.getD k 0).toNat
    if isInt then v else if fp then enc32 (dec32 v) else fofInt (toSigned 32 v)
  let rows := (chunks cols (List.range t.data.length)).flatMap fun r => chunks 64 r
  if vReduces (iOpcode w) then
    pure { o with rows := o.rows + rows.length,
                  got := o.got ++ (List.range t.data.length).map fun k => ((place k).2, (place k).1, word k, poison) }
  else do
    let vs ← mapE (fun (x : List Nat × Nat) => inRow (o.rows + x.2) (do
      let vs ← mapE (fun k => do
        let p := place k
        let v ← vecElem e w o isInt (word k, poison) [p.1, p.2]
        pure (vecConv w o o.d v.1, v.2)) x.1
      storeRow e w o (x.1.map fun k => [(place k).1, (place k).2]) vs
      pure ((x.1.zip vs).map fun y => ((place y.1).2, (place y.1).1, y.2.1.val, y.2.2)))) rows.zipIdx
    pure { o with rows := o.rows + rows.length, got := if vDReg w then o.got ++ vs.flatten else [] }

/-- What was taken from the queue, in the walk order of its shape. -/
def gotElems (o : VecOps) : List (Nat × Bool) :=
  (walk o.shape).map fun ix =>
    match o.got.find? fun x => x.1 == ix.getD 1 0 && x.2.1 == ix.getD 0 0 with
    | some x => x.2.2
    | none => (0, false)

/-- The end of an instruction that has taken its last entry: reductions and register destinations are written (R167, R179). -/
def popFinish (e : Env) (w : Nat) (o : VecOps) : Eng Unit := do
  let vs ← if vReduces (iOpcode w) then storeLines e w o (o.rows - 1) (linesOf w o.shape (gotElems o)) else pure (gotElems o)
  if vDReg w then act (setVReg e.core e.ctx (vVD w) vs)

/-- Tiles of a context are still to be discarded until one with LAST has gone by (R173). -/
def discardTile (c ctx : Nat) (t : Tile) (s : State) : State :=
  let s := popTile c (fun t => t.ctx == ctx) s
  if bit t.tag.toNat 34 then setCore c (fun x => { x with vec := { x.vec with discard := none } }) s else s

/-- A repeat of a popping instruction is complete. -/
def popDone (c : Nat) (i : Issued) (s : State) : State :=
  let s := repeatSignal c i { s with wrote := [], wroteFar := [] }
  if iRepM1 i.word.toNat ≤ i.progress then endOk c .vec i [] s
  else setHead c .vec (fun x => { x with progress := x.progress + 1, vec := none, journal := [] }) s

/-- A waiting instruction takes one entry: the entry leaves the queue when its elements are through, or with the fault. -/
def popOne (c : Nat) (i : Issued) (o : VecOps) (t : Tile) (s : State) : State :=
  let e := envOf c .vec i
  let w := i.word.toNat
  let last := bit t.tag.toNat 34
  let mine := fun (t : Tile) => t.ctx == i.ctx
  match runFrom i.journal (stopping s c i.ctx) (do
      let o ← popElems e w o t
      if last then popFinish e w o
      pure o) s with
  | .ok o s =>
    let s := popTile c mine { s with wrote := [], wroteFar := [] }
    if last then popDone c i s else setHead c .vec (fun x => { x with vec := some o, journal := [] }) s
  | .error (.fault f, _) s => popFault c i last f (popTile c mine s)
  | .error (stop, j) s => holdHead c .vec i i.progress j stop s

/-- An entry belongs to a context that has died: it is discarded (R173). -/
def deadTile (s : State) (t : Tile) : Bool := ctxState s t.ctx == 3

/-- TILE_POP (R172, R173): entries of a killed context, and those of an MM whose consumer faulted, are discarded; else the waiting
instruction at the head takes the next entry of its context. -/
def tilePop (c : Nat) (s : State) : State :=
  if (core s c).array.queue.any (deadTile s) then popTile c (deadTile s) s
  else
    match (core s c).vec.discard with
    | some ctx =>
      match firstTile (core s c) ctx with
      | some t => discardTile c ctx t s
      | none => s
    | none =>
      match headOf s c .vec with
      | some i =>
        if ready s c i then
          match i.vec, firstTile (core s c) i.ctx with
          | some o, some t => popOne c i o t s
          | _, _ => s
        else s
      | none => s

end Sys2Proof.Machine
end

