-- ==== Sys2Proof/Machine/Links.lean ====
section
/-! DEFINITION. Link ports: reception, acknowledgement and replay, retraining, training and identity, and the hierarchy of managers (chapter 16). -/

namespace Sys2Proof.Machine

/-! ## Records and identities (R346-R349, Table 20.5) -/

/-- An identity as HIER_IDENTITY lays it out. -/
def peerIdent (i : PeerIdentity) : Nat := i.module.val + i.board.val * 8 + i.pod.val * 512

/-- LINK_PEER (Table 16.6). (DEDUCED, log 86) -/
def linkPeer (l : LinkPort) : Nat :=
  match l.peer with
  | some i => peerIdent i + i.port.val * 2 ^ 16
  | none => 0

/-- A record of a link port, which names both ends. (DEDUCED, log 86) -/
def linkRecord (p : Nat) (r : Reason) (i : Option PeerIdentity) (s : State) : State :=
  let peer := match i with
    | some x => x.port.val * 32 + peerIdent x * 2 ^ 16
    | none => 0
  stageRec 0 { unit := .link, reason := r, detail := p + peer } (bumpE 0x3C00 8 s)

/-- The port that the wiring rule joins to port p of this module, and its module (R348). -/
def wired (s : State) (p : Nat) : Nat × Nat :=
  let d := p / 3 + 1
  ((moduleOf s + d) % 8, 3 * (7 - d) + p % 3)

/-- SPARE_MODE. -/
def spareMode (s : State) : Nat := reg s 0x3C00 3

/-- A port takes part in training: every port of the board, and the spare ports that SPARE_MODE uses (R349). -/
def portUsed (s : State) (p : Nat) : Bool :=
  decide (p < 21) || spareMode s == 2 || (spareMode s == 1 && decide (p < 23))

/-- The peer matches the wiring rule, or the spare-port rule (R347-R349). -/
def identityOk (s : State) (p : Nat) (i : PeerIdentity) : Bool :=
  let here := i.board.val == boardOf s && i.pod.val == podOf s
  if p < 21 then here && i.module.val == (wired s p).1 && i.port.val == (wired s p).2
  else if spareMode s = 1 then
    here && i.spareMode.val == 1 &&
      (if p = 21 then i.module.val == (moduleOf s + 1) % 8 && i.port.val == 22
       else p == 22 && i.module.val == (moduleOf s + 7) % 8 && i.port.val == 21)
  else
    spareMode s == 2 && i.spareMode.val == 2 && i.module.val == moduleOf s && i.pod.val == podOf s && i.board.val != boardOf s &&
      decide (21 ≤ i.port.val)

/-- PEERS_UP. -/
def peersUp (s : State) : Nat := ((List.range 8).map fun m => if reachable s m then 2 ^ m else 0).sum

/-! ## Acknowledgement and replay (R344, R346) -/

/-- Send a packet that advances no sequence: ACK 7 or NAK 8, with the SEQ this side expects. -/
def sendControl (p type : Nat) (s : State) : State :=
  let dst := match (link s p).peer with
    | some i => i.module.val
    | none => 0
  wire p (link s p).txSeq.toNat { type := type, dst := dst } s

/-- Packets of a replay buffer that an acknowledgement covers. -/
def covered (ack seq : Nat) : Bool := decide (toSigned 16 (seq + 2 ^ 16 - ack) < 0)

/-- An ACK_SEQ: covered packets leave the replay buffer, and held packets may go (R344, R350). (DEDUCED, log 86) -/
def ackTo (p ack : Nat) (s : State) : State :=
  let l := link s p
  let keep := l.replay.filter fun r => !(covered ack r.1)
  if (l.txSeq.toNat + 2 ^ 16 - ack) % 2 ^ 16 ≤ l.replay.length ∧ keep.length < l.replay.length then
    flushOwed (flushHeld (setLink p (fun l => { l with replay := keep, replays := 0 }) s))
  else s

/-- Send every unacknowledged packet again in order. -/
def resendAll (p : Nat) (s : State) : State := (link s p).replay.foldl (fun s r => wire p r.1 r.2 s) s

/-- A replay: counted, or, after LINK_REPLAY_LIMIT in succession, a retrain (R344, R346). (DEDUCED, log 86) -/
def replay (p : Nat) (s : State) : State :=
  if reg s 0x3C00 6 ≤ (link s p).replays then setLink p (fun l => { l with state := 5 }) s
  else resendAll p (setLink p (fun l => { l with replays := l.replays + 1 }) (bumpE (0x3C10 + p) 4 s))

/-- LINK_NAK_RECEIVE: everything before the SEQ is good, the rest is sent again. -/
def linkNak (p seq : Nat) (s : State) : State := if (link s p).state = 3 then replay p (ackTo p seq s) else s

/-- LINK_ACK_TIMEOUT. -/
def linkAckTimeout (p : Nat) (s : State) : State :=
  if (link s p).state = 3 ∧ (link s p).replay ≠ [] then replay p s else s

/-- Unacknowledged packets go on in order on the lowest port to the same peer that is UP, before any newer packet; with none they
wait (R346, R352). -/
def moveOn (l : List Packet) (s : State) : State :=
  let r := l.foldl (fun (acc : List Packet × State) k => match (portsTo acc.2 k.dst).head? with
    | some q => (acc.1, sendOn q k acc.2)
    | none => (acc.1 ++ [k], acc.2)) ([], s)
  { r.2 with linkHeld := r.1 ++ r.2.linkHeld }

/-- A fault that reaches the instruction at the head of a queue from outside its work. -/
def headFault (c : Nat) (q : QueueId) (i : Issued) (f : FaultInfo) (s : State) : State :=
  match q with
  | .mm => mmFault c i f s
  | .vec => if vecPops i.word.toNat then popFault c i false f s else endFault c q i i.progress f s
  | .poly => if i.km.isSome then kmFault c i f s else endFault c q i i.progress f s
  | .gateLane => if i.gate.isSome then refreshFault c i f s else endFault c q i i.progress f s
  | _ => endFault c q i i.progress f s

/-- An instruction that is not at the head of its queue, or is saved with its context, ends with a fault. -/
def restFault (c : Nat) (q : QueueId) (i : Issued) (f : FaultInfo) (s : State) : State :=
  let s := setCore c (fun x => setQueue x q ((queue x q).filter fun y => y.serial != i.serial || y.ctx != i.ctx)) s
  let s := setStream i.ctx c (fun t => { t with saved := t.saved.filter fun y => y.2.serial != i.serial }) s
  stageRec (dieOf c) (faultRec c q i f) (retireOne c { instr := i, faulted := true, repeatsOk := i.progress } s)

/-- A write of an instruction is refused, or lost with its peer (R202, R351, R352): the instruction that waits for its bursts, is
still at work, or is saved ends with the fault; one that has retired leaves a record alone. -/
def writeFault (c ctx serial : Nat) (f : FaultInfo) (s : State) : State :=
  let mine := fun (i : Issued) => i.ctx == ctx && i.serial == serial
  let held := fun (e : Ended) => mine e.instr && !e.faulted
  match (core s c).retiring.find? held with
  | some e =>
    stageRec (dieOf c) (faultRec c ((queueOf e.instr.word.toNat).getD .msg) e.instr f)
      (setCore c (fun x => { x with retiring := lreplace held (fun e => { e with faulted := true }) x.retiring }) s)
  | none =>
    match allQueues.findSome? (fun q => ((queue (core s c) q).find? mine).map fun i => (q, i)) with
    | some (q, i) => if (headOf s c q).any mine then headFault c q i f s else restFault c q i f s
    | none =>
      match (stream s ctx c).saved.find? fun x => mine x.2 with
      | some (q, i) => restFault c q i f s
      | none => stageRec (dieOf c) { unit := .link, reason := f.reason, core := c, ctx := ctx, addr := f.addr, detail := f.detail } s

/-- A packet of an instruction's access to another module. -/
def accessPacket (k : Packet) : Bool := (k.type == 1 && k.label != 1 && k.label != 2) || (k.type == 2 && !(bit k.label 63))

/-- A write that no port can carry any more: its instruction faults with LINK_DOWN, and the stamp it took is in hand again (R352).
(DEDUCED, log 87) -/
def writeLost (k : Packet) (s : State) : State :=
  if k.type ≠ 1 then s
  else
    let s := if isSp k.addr then stampsHome k.srcCore k.ctx k.dst (spCore k.addr) 1 s else s
    writeFault k.srcCore k.ctx k.serial { reason := .linkDown, addr := some (k.addr, false), detail := peerDetail s k.dst } s

/-- A module to which no port leads that is UP, or may come back from a retrain: reads and writes towards it fault their
instructions with LINK_DOWN (R352); envelopes, seals and stamps are held. -/
def peerLost (m : Nat) (s : State) : State :=
  if m = moduleOf s ∨ (pinPorts s m).isEmpty = false then s
  else
    let lost := fun (k : Packet) => k.dst == m && accessPacket k
    let gone := fun (r : RemoteRead) =>
      if r.module == m && r.answer.isNone then { r with answer := some ([], false, Reason.code .linkDown) } else r
    (s.linkHeld.filter lost).foldl (fun s k => writeLost k s)
      { s with linkHeld := s.linkHeld.filter fun k => !(lost k), reads := s.reads.map gone }

/-- A port leaves UP or RETRAINING for another state: its packets move on, accesses to a module that is lost with it fault, and jobs
that lose a member end (R319, R352). -/
def portLeaves (p : Nat) (st : BitVec 8) (s : State) : State :=
  let l := (link s p).replay.map fun r => r.2
  let s := setLink p (fun l => { l with state := st, replay := [], replays := 0 }) s
  updLinkLoss ((List.range 8).foldl (fun s m => peerLost m s) (flushHeld (moveOn l s)))

/-- LINK_RETRAIN_END (R346). -/
def linkRetrainEnd (p : Nat) (ok : Bool) (s : State) : State :=
  if (link s p).state ≠ 5 then s
  else if ok then flushHeld (resendAll p (setLink p (fun l => { l with state := 3, replays := 0 }) s))
  else
    let s := linkRecord p .linkRetrainFail (link s p).peer (bumpE (0x3C10 + p) 5 s)
    portLeaves p 0 (setLink p (fun l => { l with lost := true }) s)

/-! ## Training (R347, R353) -/

/-- A port begins to train. -/
def startTraining (p : Nat) (s : State) : State :=
  if portUsed s p then portLeaves p 1 (setLink p (fun l => { l with lost := false }) s)
  else portLeaves p 0 (setLink p (fun l => { l with lost := false }) s)

/-- Another manager of this board with a lower module number is seen on a port: this module works (R353). -/
def outranked (s : State) : Bool :=
  roleOf s != 0 && (List.range 24).any fun p => match (link s p).peer with
    | some i => i.role.val != 0 && i.board.val == boardOf s && i.pod.val == podOf s && decide (i.module.val < moduleOf s)
    | none => false

/-- ROLE_CONFLICT holds while the other manager is seen (R10, R353). -/
def roleConflict (s : State) : State := { s with hier := { s.hier with conflict := outranked s } }

/-- LINK_TRAIN_DONE (R347): UP with a peer that the wiring admits, MISWIRED with another, DOWN without one. (DEDUCED, log 86) -/
def linkTrainDone (p : Nat) (peer : Option PeerIdentity) (s : State) : State :=
  if (link s p).state ≠ 1 ∧ (link s p).state ≠ 2 then s
  else
    let s := roleConflict (setLink p (fun l => { l with peer := peer }) s)
    match peer with
    | none => setLink p (fun l => { l with state := 0 }) s
    | some i =>
      if identityOk s p i then
        flushHeld (setLink p (fun l => { l with state := 3, txSeq := 0, rxSeq := 0, replay := [], replays := 0 }) s)
      else linkRecord p .miswired (some i) (setLink p (fun l => { l with state := 4 }) s)

/-- LINK_PEER_SEEN (R347): a port whose retrain failed sees its peer again. -/
def linkPeerSeen (p : Nat) (s : State) : State :=
  if (link s p).state = 0 ∧ (link s p).lost = true then startTraining p s else s

/-- LINK_COMMAND 1: train. -/
def linkTrainW (p : Nat) (s : State) : State := startTraining p s

/-- LINK_COMMAND 2: take down. -/
def linkDownW (p : Nat) (s : State) : State := portLeaves p 0 (setLink p (fun l => { l with lost := false }) s)

/-- SPARE_MODE (R349): the spare ports go down and train in the new mode. -/
def spareModeW (v : Nat) (s : State) : Nat × State :=
  if 2 < v then (0x1A, s)
  else (0, [21, 22, 23].foldl (fun s p => startTraining p (portLeaves p 0 s)) (setReg 0x3C00 3 v s))

/-! ## Packets that arrive (R342-R344, R351) -/

/-- The parts of an answered read in address order. -/
def joinParts (l : List (Nat × List Byte × Bool)) : List Byte :=
  (l.foldl (fun (t : Tab (List Byte)) x => tset t x.1 x.2.1) []).flatMap fun x => x.2

/-- A READ_RESP: data or a refusal of a read under way, or the refusal of a write. -/
def readResponse (src : Nat) (k : Packet) (s : State) : State :=
  if bit k.label 63 then
    writeFault k.dstCore k.ctx (bits k.label 62 16) { reason := (reasonOf (k.label % 256)).getD .translationFault, addr := some (k.addr, false) } s
  else
    let f := fun (r : RemoteRead) =>
      if r.module == src && r.tag == k.tag && r.ctx == k.ctx && r.core == k.dstCore && r.answer.isNone then
        if k.label ≠ 0 then { r with answer := some ([], false, k.label) }
        else
          let l := r.parts ++ [(k.addr, k.data, k.poison)]
          let n := (l.map fun x => x.2.1.length).sum
          { r with parts := l, answer := if r.len ≤ n then some (joinParts l, l.any (fun x => x.2.2), 0) else none }
      else r
    { s with reads := s.reads.map f }

/-- A WRITE (R351): stamps that it carries back; else its data, at once for HBM, through the destination's grant for a scratchpad; or a
notice that tears a line (R266). (DESIGN CHOICE, log 73; log 111) -/
def writePacket (src : Nat) (k : Packet) (s : State) : State :=
  if k.label = 1 then
    if k.tag = 0 then s
    else { s with stampsBack := s.stampsBack ++
      [{ core := k.dstCore, ctx := k.ctx, module := src, dest := k.srcCore, count := k.tag }] }
  else if k.data.isEmpty && k.label != 2 then s
  else
    let n := s.bursts.length
    let s := { s with bursts := s.bursts ++ [{
      ctx := k.ctx, addr := k.addr, data := k.data, poison := k.poison, srcMod := src, srcCore := k.srcCore, op := k.label,
      serial := k.serial }] }
    if isSp k.addr then s else remoteBurstWrite n s

/-- An envelope, or what is said of one, from a link: for this module, for another of this board, or for another board (R240, R357).
The sender of an envelope that waits here for a way on is told so. (DESIGN CHOICE, log 73) -/
def envelopePacket (k : Packet) (s : State) : State :=
  let e := ofLe k.data
  let mine := onBoard s (envSource e) && envSource e % 8 == moduleOf s
  match k.label / 32 with
  | 0 =>
    if envHere s e then
      if envKind e = 0 then
        { s with envFlight := s.envFlight ++
          [{ env := BitVec.ofNat 256 e, srcCore := 512 + envSource e * 128 + envSrcCore e, serial := 0 }] }
      else { s with receipts := s.receipts ++ [{ env := BitVec.ofNat 256 e, core := envCore e }] }
    else
      let s := routeEnv e s
      if envWaits s e && envKind e == 0 then answerEnv 2 e s else s
  | 5 => if envHere s e then envelopeCancel e s else routeTo (envIdent e) k s
  | code => if mine then envelopeAnswer code e s else routeTo (envSource e) k s

/-- Stamps that other modules ask for, get, return or are refused (R250, R252). (DESIGN CHOICE, log 73) -/
def stampPacket (src : Nat) (k : Packet) (s : State) : State :=
  match k.label with
  | 1 =>
    if bit (ctxSpMask s k.ctx) k.dstCore && decide (0 < ctxSpCount s k.ctx) then
      setCore k.dstCore (fun x => { x with poolWaits := x.poolWaits ++
        [{ core := 128 + src * 128 + k.srcCore, ctx := k.ctx, count := k.tag }] }) s
    else sendPacket { type := 5, dst := src, srcCore := k.dstCore, dstCore := k.srcCore, ctx := k.ctx, addr := 4096, tag := k.tag, label := 4 } s
  | 2 => finishGrant k.dstCore k.ctx src k.srcCore k.tag s
  | 3 => setCore k.dstCore (fun x => { x with pool := x.pool + k.tag }) s
  | _ => stampRefused k.dstCore k.ctx .stampDenied 3 s

/-- The seal that an import asks for, if this device is its home (R253). -/
def importedSeal (s : State) (k : Packet) : Option (Nat × Nat) :=
  (sealOf s k.ctx (bits k.label 15 0)).bind fun p =>
    if (sealAt s p).remote.isNone then some (p, (sealAt s p).gen.toNat) else none

/-- A SEAL packet: an update for a seal here or on another board, stamps, or an import (R253, R255, R357). -/
def sealPacket (src : Nat) (k : Packet) (s : State) : State :=
  if k.addr < 4096 then
    let i := bits k.label 54 40
    if onBoard s i && i % 8 == moduleOf s then
      { s with sealFlight := s.sealFlight ++
        [{ phys := k.addr, gen := BitVec.ofNat 8 (bits k.label 39 32), amount := BitVec.ofNat 32 k.label, ctx := k.ctx,
           sealId := (sealAt s k.addr).sealId, fromImport := true }] }
    else routeTo i k s
  else if k.addr = 4096 then stampPacket src k s
  else if k.addr = 4097 then
    let i := bits k.label 31 17
    if onBoard s i && i % 8 == moduleOf s then
      routeTo (bits k.label 46 32) (importAnswer k.srcCore k.ctx (importedSeal s k) (bits k.label 46 32)) s
    else routeTo i k s
  else
    let i := bits k.label 46 32
    if onBoard s i && i % 8 == moduleOf s then
      importResponse (fun w => w.core == k.dstCore && w.ctx == k.ctx) (if bit k.label 20 then some (bits k.label 11 0, bits k.label 19 12) else none) s
    else routeTo i k s

/-! ## Relayed commands (R354, R355) -/

/-- Report the refusal of a relayed command to the manager. (DESIGN CHOICE, log 73) -/
def refuseRelay (m : RelayMsg) (status : Nat) (s : State) : State :=
  sendRelay { m with report := true, dst := m.src, src := identityOf s % 2 ^ 15, status := status, value := 0, ops := [] } s

/-- A command that a manager relays: permitted as from the sideband (R291), it takes its place as any command and reports when it
ends. -/
def relayedCommand (m : RelayMsg) (s : State) : State :=
  let h := packFields [(188, 4, 1), (184, 4, 1), (176, 8, m.code), (175, 1, b2n (isExpress m.code)), (160, 12, m.ctx), (144, 16, m.gen)]
  let x : Payload := { h := h, ops := m.ops, tag := [] }
  if m.code ≠ 1 ∧ (ctxState s m.ctx = 0 ∨ ctxGen s m.ctx ≠ m.gen) then refuseRelay m 0x14 s
  else if slotBusy s .sideband x then refuseRelay m 0x16 s
  else
    match createResult m.code m.ctx 0 0 s with
    | (none, s) => refuseRelay m 0x17 s
    | (some k, s) =>
      enqueueCmd .sideband x k { s with relayJobs := s.relayJobs ++
        [{ result := k, code := BitVec.ofNat 8 m.code, ctx := m.ctx, await := [], reported := [], up := some (m.src, m.slot) }] }

/-- An OPEN that some module refused: the modules that have opened close again (R354). -/
def undoOpen (j : RelayJob) (s : State) : State :=
  if j.code = 1 ∧ j.await = [] ∧ jobStatus j.reported ≠ 0 then
    j.reported.foldl (fun s r =>
      if r.2.1 ≠ 0 then s
      else if r.1 = identityOf s % 2 ^ 15 then killContext j.ctx 0 s
      else sendRelay { report := false, code := 4, ctx := j.ctx, gen := ctxGen s j.ctx, dst := r.1, src := identityOf s % 2 ^ 15,
                       slot := 0xFFFF } s) s
  else s

/-- A report of a relayed command on its manager. (DESIGN CHOICE, log 80; DEDUCED, log 88) -/
def relayReport (m : RelayMsg) (s : State) : State :=
  let s := noteReport m.slot m.src m.status m.value s
  match relayJobOf s m.slot with
  | some j => completeJob m.slot (undoOpen j s)
  | none => s

/-- A RELAY_CMD packet: for this module, for another of this board, or for another board. -/
def relayPacketIn (k : Packet) (s : State) : State :=
  let m := relayMsgOf k.data
  if onBoard s m.dst && m.dst % 8 == moduleOf s then
    if m.report then relayReport m s else relayedCommand m s
  else routeTo m.dst k s

/-- RELAY_CMD: what a manager relays arrives. (DESIGN CHOICE, log 80) -/
def relayCmd (bs : List Byte) (s : State) : State :=
  relayPacketIn { type := 0xA, dst := moduleOf s, ctx := (relayMsgOf bs).ctx, data := bs } s

/-! ## Reception -/

/-- A packet taken in sequence is acted on. STREAM packets are chunks and pages, whose arrival is the step of their own rows; a
packet for another module of the board is not forwarded (R348). -/
def deliver (src : Nat) (k : Packet) (s : State) : State :=
  match k.type with
  | 1 => writePacket src k s
  | 2 => takeAsk src k s
  | 3 => readResponse src k s
  | 4 => envelopePacket k s
  | 5 => sealPacket src k s
  | 0xA => relayPacketIn k s
  | _ => s

/-- The packet that header and payload spell; LABEL of a WRITE carries its instruction's serial number above bit 15. -/
def packetOf (h : Nat) (data : List Byte) : Packet :=
  let w := bits h 255 252 == 1
  { type := bits h 255 252, poison := bit h 215, express := bit h 214, dst := bits h 202 200, srcCore := bits h 199 193,
    dstCore := bits h 192 186, ctx := bits h 185 174, addr := bits h 159 112, tag := bits h 111 96,
    label := if w then bits h 47 32 else bits h 95 32, data := data, serial := if w then bits h 95 48 else 0 }

/-- A packet is whole: its length is that of LEN32 and PKT_CRC matches (R342). -/
def packetWhole (bs : List Byte) : Bool :=
  let h := ofBe (bs.take 32)
  decide (32 ≤ bs.length) && cdiv (bs.length - 32) 32 == bits h 213 206 && bits h 31 0 == crc32c (bs.take 28 ++ bs.drop 32)

/-- A header with a reserved TYPE, VERSION, LEN32 or reserved bits (R9, Table 16.2). -/
def headerReserved (h : Nat) : Bool :=
  bits h 255 252 == 0 || decide (0xA < bits h 255 252) || bits h 251 248 != 1 || bits h 173 160 != 0 || decide (128 < bits h 213 206)

/-- Stamps that an ACK brings back (R351). -/
def ackStamps (src : Nat) (k : Packet) (s : State) : State :=
  if 0 < k.tag then
    { s with stampsBack := s.stampsBack ++ [{ core := k.dstCore, ctx := k.ctx, module := src, dest := k.srcCore, count := k.tag }] }
  else s

/-- LINK_PACKET_RECEIVE (R344): accepted in SEQ order and acknowledged, or discarded with a NAK of the expected SEQ. A whole packet with
a reserved encoding takes its place in the sequence, leaves a RESERVED_FIELD record and has no other effect. (DEDUCED, log 138) -/
def linkPacket (p : Nat) (bs : List Byte) (s : State) : State :=
  if (link s p).state ≠ 3 then s
  else if packetWhole bs = false then sendControl p 8 (bumpE (0x3C10 + p) 3 s)
  else
    let h := ofBe (bs.take 32)
    let k := packetOf h (bs.drop 32)
    let src := bits h 205 203
    let bad := headerReserved h
    let s := ackTo p (bits h 231 216) (if bad then linkRecord p .reservedField (link s p).peer s else s)
    if k.type = 8 ∧ bad = false then linkNak p (bits h 231 216) s
    else if k.type = 7 ∧ bad = false then ackStamps src k s
    else if k.type = 9 ∧ bad = false then s
    else if bits h 247 232 ≠ (link s p).rxSeq.toNat then sendControl p 8 s
    else
      let s := setLink p (fun l => { l with rxSeq := l.rxSeq + 1, rxBytes := l.rxBytes + BitVec.ofNat 64 k.data.length }) s
      let s := sendControl p 7 s
      if bad = false ∧ k.dst = moduleOf s then deliver src k s else s

/-! ## The hierarchy (R353, R356, R357) -/

/-- HIER_PARENT: a board or pod manager with a parent joins it; without one it stands alone. (DEDUCED, log 88) -/
def hierParentW (v : Nat) (s : State) : State :=
  let s := setReg 0x3C00 4 v s
  let st : BitVec 8 := if v ≠ 0 ∧ (effRole s = 1 ∨ effRole s = 2) then 1 else 0
  { s with hier := { s.hier with state := st, confirmed := false } }

/-- MANAGER_JOIN (R353): confirmed with the peer table, or refused and isolated. -/
def managerJoin (confirmed : Bool) (table : List (Nat × BitVec 48)) (s : State) : State :=
  if s.hier.state ≠ 1 then s
  else if confirmed then
    let held := s.hier.held
    held.foldl (fun s e => routeTo e.1 e.2 s)
      { s with hier := { s.hier with state := 2, confirmed := true, peerTable := table, held := [] } }
  else { s with hier := { s.hier with state := 3, confirmed := false, peerTable := [] } }

/-- Link packets of a RELAY frame, one after another; the fuel bounds their number. -/
def framePackets : Nat → List Byte → List (List Byte)
  | 0, _ => []
  | f + 1, bs =>
    if bs.length < 32 then []
    else
      let n := 32 + 32 * bits (ofBe (bs.take 32)) 213 206
      bs.take n :: framePackets f (bs.drop n)

/-- RELAY_FRAME (R357): a manager delivers what another board's manager sends over its own links. (DESIGN CHOICE, log 80) -/
def relayFrame (bs : List Byte) (s : State) : State :=
  if effRole s = 0 then s
  else
    (framePackets (bs.length / 32) bs).foldl (fun s b =>
      if packetWhole b then
        let h := ofBe (b.take 32)
        let k := packetOf h (b.drop 32)
        if headerReserved h then stageRec 0 { unit := .link, reason := .reservedField } (bumpE 0x3C00 8 s)
        else if k.type = 4 ∨ k.type = 5 ∨ k.type = 0xA then deliver (bits h 205 203) k s else s
      else s) s

/-- RELAYED_PAGE (R356): the page is written to this module's own frame and forwarded to the next module that asks. (DESIGN CHOICE, log 111) -/
def relayedPage (ctx page : Nat) (data : List Byte) (further : List Nat) (s : State) : State :=
  let s := match s.fetches.findIdx? (fun f => f.any fun x => x.ctx == ctx && x.page == page && !x.stale) with
    | some n => (match s.fetches.getD n none with
      | some f => if data.length = 2 ^ 21 then installPage n f data s else s
      | none => s)
    | none => s
  relayPage ctx page further data s

end Sys2Proof.Machine
end

