-- ==== Sys2Proof/Machine/Island.lean ====
section
/-! DEFINITION. The security island: secure boot, firmware update, attestation, key exchange, key slots and the big-number engine (chapter 18). -/

namespace Sys2Proof.Machine

/-! ## Fuses and images (R381, R382) -/

/-- The security version of the fuses: the number of ones. -/
def fuseSvn (s : State) : Nat := ((List.range 64).filter fun i => bit s.fuses.svn.toNat i).length

/-- Fuse bits 1183:0 as bytes. -/
def fuseBytes (f : Fuses) : List Byte :=
  toLe 148 (packFields [(1120, 64, f.svn.toNat), (1104, 16, f.stepping.toNat), (1040, 64, f.serial.toNat), (1024, 4, f.revoke.toNat),
    (768, 256, (f.rootHash.getD 3 0).toNat), (512, 256, (f.rootHash.getD 2 0).toNat), (256, 256, (f.rootHash.getD 1 0).toNat),
    (0, 256, (f.rootHash.getD 0 0).toNat)])

/-- ROOT_INDEX of a header. -/
def imgRoot (h : Nat) : Nat := bits h 49 48
/-- IMG_SVN. -/
def imgSvn (h : Nat) : Nat := bits h 63 56
/-- BODY_LEN. -/
def imgLen (h : Nat) : Nat := bits h 127 96

/-- Checks 2 to 5 of Table 18.3 on a header: 0, or the result code. -/
def headerCheck (s : State) (hb : List Byte) : Nat :=
  let h := ofLe hb
  let n := (hb.drop 256).take 384
  if !(bits h 3 0 == 1 && bits h 7 4 == 1 && bits h 47 8 == 0 && bits h 55 50 == 0 && bits h 1791 160 == 0 &&
      imgLen h % 4096 == 0 && decide (4096 ≤ imgLen h ∧ imgLen h ≤ 33554432) && decide (imgSvn h ≤ 64) && bits h 159 128 == 65537) then 2
  else if (s.fuses.rootHash.getD (imgRoot h) 0).toNat ≠ ofLe (sha256 (n ++ toBe 4 (bits h 159 128))) ∨
      bit s.fuses.revoke.toNat (imgRoot h) = true then 3
  else if !(pssVerify (ofBe n) 65537 (hb.take 640) (hb.drop 640)) then 4
  else if imgSvn h < fuseSvn s then 5
  else 0

/-- The body of an image has the hash of its header. -/
def bodyOk (hb body : List Byte) : Bool := sha256 body == (hb.drop 224).take 32

/-- The checks of Table 18.3 on a slot: 1 is good. -/
def slotCheck (s : State) (f : FlashSlot) : Nat :=
  if !f.readable then 7
  else
    let r := headerCheck s f.header
    if r ≠ 0 then r
    else if f.body.length = imgLen (ofLe f.header) ∧ bodyOk f.header f.body = true then 1 else 6

/-! ## Secure boot (R383, R384) -/

/-- Start the firmware of a slot: its measurements and version. -/
def runImage (b : Bool) (s : State) : State :=
  let f := if b then s.flash.slotB else s.flash.slotA
  let h := ofLe f.header
  setIsland (fun i => { i with
    state := 1, runningB := b, fwVersion := BitVec.ofNat 32 (bits h 95 64), imgSvn := BitVec.ofNat 8 (imgSvn h), rootIndex := imgRoot h,
    measFw := sha384 (f.header ++ f.body), measCfg := sha384 (fuseBytes s.fuses) }) s

/-- The ports begin to train (Table 19.7). -/
def portsTrain (s : State) : State :=
  let s := (List.range 2).foldl (fun s p => setEth p (fun e => { e with state := 1 }) s) s
  (List.range 24).foldl (fun s p => startTraining p s) s

/-- BOOT: the preferred slot is checked, then the other; the first good one runs, or RECOVERY. A slot that was not checked reads
result 0. (DEDUCED, log 99) -/
def boot (s : State) : State :=
  if s.island.state ≠ 0 ∨ s.power.pwrGood = false ∨ s.power.pll ≠ 2 then s
  else
    let pref := s.flash.bootPref
    let check := fun (b : Bool) => slotCheck s (if b then s.flash.slotB else s.flash.slotA)
    let r1 := check pref
    let r2 := if r1 = 1 then 0 else check (!pref)
    let a := if pref then r2 else r1
    let b := if pref then r1 else r2
    let good := r1 == 1 || r2 == 1
    let run := if r1 = 1 then pref else !pref
    let word := a * 2 ^ 24 + b * 2 ^ 16 + (if good then b2n run else 2)
    let s := setIsland (fun i => { i with bootStatus := BitVec.ofNat 32 word }) s
    if good then portsTrain (setPower (fun p => { p with state := 0, exiting := false }) (runImage run s))
    else setIsland (fun i => { i with state := 2, measFw := List.replicate 48 0, measCfg := sha384 (fuseBytes s.fuses) }) s

/-! ## Firmware update (R385-R387) -/

/-- The semaphore's holder or the sideband. -/
def holderOrSideband (s : State) (p : Path) : Bool := p == .sideband || holdsSem s p

/-- A value of a context and an aligned address: bits 59:48 and 47:0. -/
def ctxAddrOk (align v : Nat) : Bool := bits v 63 60 == 0 && bits v 47 0 % align == 0

/-- FW_STAGE. -/
def fwStageW (p : Path) (v : Nat) (s : State) : Nat × State :=
  if !(ctxAddrOk 4096 v) then (0x1A, s)
  else if !(holderOrSideband s p) || s.island.fwState == 1 || s.island.fwState == 4 then (0x16, s)
  else (0, setIsland (fun i => { i with
    fwState := 1, fwReason := 0, fwCtx := bits v 59 48, fwAddr := bits v 47 0, fwOwner := some p,
    fwWait := none, fwFailed := false }) s)

/-- Write the slot that is not running. -/
def setStaged (f : FlashSlot) (s : State) : State :=
  { s with flash := if s.island.runningB then { s.flash with slotA := f } else { s.flash with slotB := f } }

/-- Staging fails: the slot is left erased. -/
def stageFails (reason : Nat) (s : State) : State :=
  setIsland (fun i => { i with fwState := 3, fwReason := BitVec.ofNat 8 reason, fwOwner := none }) (setStaged {} s)

/-- What a DMA of the island finds: bytes, a fault, poison, or an absent page. -/
inductive DmaRead where
  | bytes (b : List Byte)
  | fault
  | poison
  | absent (page : Nat)
  deriving DecidableEq, Repr

/-- A DMA read of the island under a context's page tables (R200), in class READ. -/
def islandRead (ctx a n : Nat) (s : State) : DmaRead × State :=
  let s := readEntry ctx s
  match unitPieces s ctx false a n with
  | some ps =>
    let (b, p, s) := unitRead .read true ps (unitUse ctx a n s)
    (if p then .poison else .bytes b, s)
  | none =>
    match unitFault s ctx false a n with
    | some (.absent q) => (.absent q, s)
    | _ => (.fault, s)

/-- Staging waits for an absent page of the image (R300). -/
def stageWaits (ctx q : Nat) (s : State) : State := noteMiss ctx q false (setIsland (fun i => { i with fwWait := some q }) s)

/-- The body of a staged image is read and stands in the erased slot: its hash is checked there. -/
def stageBody (ctx a : Nat) (hb : List Byte) (s : State) : State :=
  match islandRead ctx a (imgLen (ofLe hb)) s with
  | (.absent q, s) => stageWaits ctx q s
  | (.fault, s) => stageFails 8 s
  | (.poison, s) => stageFails 10 s
  | (.bytes body, s) =>
    if bodyOk hb body then
      setIsland (fun i => { i with
        fwState := 2, fwReason := 0, fwOwner := none, fwVersionStaged := BitVec.ofNat 32 (bits (ofLe hb) 95 64) })
        (setStaged { header := hb, body := body, readable := true } s)
    else stageFails 6 s

/-- FW_STAGE_DONE: header, checks 2 to 5, body into the erased slot, and the hash of what stands there. -/
def fwStageDone (s : State) : State :=
  let ctx := s.island.fwCtx
  let a := s.island.fwAddr
  if s.island.fwState ≠ 1 then s
  else if s.island.fwFailed then stageFails 8 s
  else
    match islandRead ctx a 1024 s with
    | (.absent q, s) => stageWaits ctx q s
    | (.fault, s) => stageFails 8 s
    | (.poison, s) => stageFails 10 s
    | (.bytes hb, s) =>
      let r := headerCheck s hb
      if r ≠ 0 then stageFails r s else stageBody ctx (a + 1024) hb s

/-- FW_ACTIVATE: the committed step (R335). -/
def fwActivateW (p : Path) (v : Nat) (s : State) : Nat × State :=
  if v ≠ 1 then (0x1A, s)
  else if !(holderOrSideband s p) || s.island.fwState != 2 || s.island.activating then (0x16, s)
  else (0, semCommit (setIsland (fun i => { i with activating := true }) s))

/-- FW_ACTIVATE_DONE: BOOT_PREF names the staged slot. -/
def fwActivateDone (s : State) : State :=
  if s.island.activating then
    semUncommit (setIsland (fun i => { i with activating := false, fwState := 4 })
      { s with flash := { s.flash with bootPref := !s.island.runningB } })
  else s

/-- FW_SVN_COMMIT: the fuse SVN rises to the running image's. -/
def fwSvnCommitW (p : Path) (v : Nat) (s : State) : Nat × State :=
  if v ≠ 1 then (0x1A, s)
  else if !(holderOrSideband s p) then (0x16, s)
  else
    let n := s.island.imgSvn.toNat
    let s := setReg 0x4010 4 v s
    (0, if fuseSvn s < n then { s with fuses := { s.fuses with svn := BitVec.ofNat 64 (2 ^ n - 1) ||| s.fuses.svn } } else s)

/-- ROOT_REVOKE: never the root of the running image, never all. -/
def rootRevokeW (p : Path) (v : Nat) (s : State) : Nat × State :=
  if 15 < v then (0x1A, s)
  else if !(holderOrSideband s p) then (0x16, s)
  else
    let w := s.fuses.revoke.toNat ||| v
    if (s.island.state = 1 ∧ bit v s.island.rootIndex = true) ∨ w = 15 then (0x1A, s)
    else (0, { s with fuses := { s.fuses with revoke := BitVec.ofNat 4 w } })

/-! ## Random bytes and signatures -/

/-- n fresh bytes of the random source. (DESIGN CHOICE, log 98) -/
def randomBytes (n : Nat) (s : State) : List Byte × State :=
  ((List.range n).map fun i => (Config.randomBytes s.fresh n).getD i 0, { s with fresh := s.fresh + 1 })

/-- A signature by the identity key: RSASSA-PSS with a fresh salt (R389). -/
def identitySign (msg : List Byte) (s : State) : List Byte × State :=
  let (salt, s) := randomBytes 32 s
  let k := fun (i : Nat) => s.flash.idKey.getD i 0
  (toBe 384 (rsaCrt (k 0) (k 1) (k 2) (k 3) (k 4) (pssEncode msg salt)), s)

/-! ## The big-number engine (R395-R400) -/

/-- Class of an operation. -/
def bnClass (op : Nat) : Nat := if op = 1 then 0 else if op = 2 then 2 else 1

/-- Bytes of the operands. -/
def bnInLen (op : Nat) : Nat := if op = 1 then 772 else if op = 2 then 1344 else if op = 3 then 145 else 241

/-- Check phase in SCLK cycles. -/
def bnCheckLen (op : Nat) : Nat := if op = 1 then 200 else if op = 2 then 600 else if op = 3 then 1400 else 1500

/-- Ones of a number below 2^32. -/
def ones32 (e : Nat) : Nat := ((List.range 32).filter fun i => bit e i).length

/-- CYCLES. -/
def bnCycles (op e : Nat) : Nat :=
  if op = 1 then 250 + 150 * (Nat.log2 e + 1 + ones32 e - 2) else if op = 2 then 87500 else if op = 3 then 21000 else 42000

/-- The operation of a job of the island by its stage: the signature of an attestation, or the verification, key generation, key
agreement and signature of an exchange (R389, R393). -/
def stageOp (k : Nat) : Nat := if k = 1 then 4 else if k = 2 ∨ k = 3 then 3 else 2

/-- The class of a queued job: the engine looks at OP before it chooses. (DEDUCED, log 97) -/
def queuedClass (s : State) (j : BnJob) : Nat :=
  if j.island.isSome then bnClass (stageOp j.stage)
  else
    match unitPieces s j.ctx false j.addr 64 with
    | some ps => bnClass (bits (ofLe (ps.flatMap fun p => devBytes s p.1 p.2)) 15 8)
    | none => 0

/-- Reserved bits and encodings of a job record. -/
def bnRecordOk (w : Nat) : Bool :=
  checkOk 64 w && bits w 3 0 == 2 && bits w 7 4 == 1 && bits w 351 336 == 0 && bits w 327 16 == 0 &&
    decide (1 ≤ bits w 15 8 ∧ bits w 15 8 ≤ 4)

/-- An operand of a job: n bytes at an offset, big-endian. -/
def bnArg (b : List Byte) (off n : Nat) : Nat := ofBe ((b.drop off).take n)

/-- Odd, with the top bit of its n bytes set. -/
def bnModulusOk (n v : Nat) : Bool := v % 2 == 1 && bit v (8 * n - 1)

/-- A scalar in [1, order - 1]. -/
def bnScalarOk (v : Nat) : Bool := decide (1 ≤ v ∧ v < n384)

/-- The check phase: 0, OPERAND_RANGE 0x45 or POINT_INVALID 0x44 (R397). (DEDUCED, log 96) -/
def bnCheck (op : Nat) (b : List Byte) : Nat :=
  match op with
  | 1 =>
    let n := bnArg b 0 384
    let e := bnArg b 384 4
    if bnModulusOk 384 n && decide (bnArg b 388 384 < n) && e % 2 == 1 && decide (3 ≤ e) then 0 else 0x45
  | 2 =>
    let p := bnArg b 0 192
    let q := bnArg b 192 192
    if bnModulusOk 192 p && bnModulusOk 192 q && decide (bnArg b 384 192 < p - 1) && decide (bnArg b 576 192 < q - 1) &&
        decide (bnArg b 768 192 < p) && decide (bnArg b 960 384 < p * q) then 0 else 0x45
  | 3 => if !(bnScalarOk (bnArg b 0 48)) then 0x45 else if pointOk ((b.drop 48).take 97) then 0 else 0x44
  | _ =>
    if !(bnScalarOk (bnArg b 145 48) && bnScalarOk (bnArg b 193 48)) then 0x45 else if pointOk (b.take 97) then 0 else 0x44

/-- The result of an operation whose operands passed (Table 18.9, R398). -/
def bnResult (op : Nat) (b : List Byte) : List Byte :=
  match op with
  | 1 => toBe 384 (powMod (bnArg b 388 384) (bnArg b 384 4) (bnArg b 0 384))
  | 2 => toBe 384 (rsaCrt (bnArg b 0 192) (bnArg b 192 192) (bnArg b 384 192) (bnArg b 576 192) (bnArg b 768 192) (bnArg b 960 384))
  | 3 =>
    match ecMul 384 (bnArg b 0 48) (some (pointOf ((b.drop 48).take 97))) with
    | some r => toBe 48 r.1
    | none => List.replicate 48 0
  | _ => [if ecdsaVerify (pointOf (b.take 97)) (bnArg b 97 48) (bnArg b 145 48) (bnArg b 193 48) then 1 else 0]

/-- BN_JOB queues a job. (DEDUCED, log 97) -/
def bnJobW (v : Nat) (s : State) : Nat × State :=
  if !(ctxAddrOk 64 v) then (0x1A, s)
  else if 16 ≤ s.island.bnQueue.length then (0x16, s)
  else (0, setIsland (fun i => { i with
    bnQueue := i.bnQueue ++ [{ ctx := bits v 59 48, addr := bits v 47 0, seq := i.bnSeq }], bnSeq := i.bnSeq + 1 }) s)

/-- The outcome of a job as its start finds it. -/
def bnOutcome (j : BnJob) (w : Nat) (status cycles : Nat) (out : List Byte) : BnJob :=
  { j with record := BitVec.ofNat 512 w, cls := bnClass (bits w 15 8), status := BitVec.ofNat 8 status,
           cycles := BitVec.ofNat 32 cycles, output := out }

/-- A job waits for an absent page. -/
def bnWaits (j : BnJob) (q : Nat) (s : State) : Option BnJob × State :=
  (none, noteMiss j.ctx q false (setIsland (fun i => { i with
    bnQueue := i.bnQueue.map fun y => if y.seq = j.seq then { y with wait := some q } else y }) s))

/-- The operands that an exchange gives to ECDSA_VERIFY_P384: the authorising key, the hash, r and s (R392). -/
def kexVerifyArgs (b : List Byte) : List Byte :=
  (b.drop 1728).take 97 ++ sha384 (b.take 1840) ++ (b.drop 1840).take 48 ++ (b.drop 1888).take 48

/-- A job of the island runs on what its path's exchange holds: its check phase and CYCLES (R392, R396). -/
def islandRun (j : BnJob) (p : Path) (s : State) : BnJob :=
  let b := (pathState s p).kexBuf
  let op := stageOp j.stage
  let c := if j.stage = 1 then bnCheck 4 (kexVerifyArgs b)
    else if j.stage = 3 then (if pointOk ((b.drop 48).take 97) then 0 else 0x44) else 0
  { j with cls := bnClass op, status := BitVec.ofNat 8 c, cycles := BitVec.ofNat 32 (if c ≠ 0 then bnCheckLen op else bnCycles op 0) }

/-- The bytes of a job's record as they stand. -/
def recordNow (s : State) (j : BnJob) : BitVec 512 :=
  match unitPieces s j.ctx false j.addr 64 with
  | some ps => BitVec.ofNat 512 (ofLe (ps.flatMap fun p => devBytes s p.1 p.2))
  | none => 0

/-- A job runs: its record and operands are read, its check phase and execution fix what its end writes. None while a page is
absent, which is then asked for. -/
def bnRun (j : BnJob) (s : State) : Option BnJob × State :=
  match j.island with
  | some p => (some (islandRun j p s), s)
  | none =>
    if j.failed then (some { j with status := 0x46 }, s)
    else
      match islandRead j.ctx j.addr 64 s with
      | (.absent q, s) => bnWaits j q s
      | (.fault, s) => (some { j with status := 0x46 }, s)
      | (.poison, s) => (some { j with record := recordNow s j, status := 0x46 }, s)
      | (.bytes rb, s) =>
        let w := ofLe rb
        let op := bits w 15 8
        let zeros := List.replicate (bnOutLen op) (0 : Byte)
        if !(bnRecordOk w) then (some { j with record := BitVec.ofNat 512 w, status := 0x12 }, s)
        else
          match islandRead j.ctx (bits w 431 384) (bnInLen op) s with
          | (.absent q, s) => bnWaits j q s
          | (.fault, s) => (some (bnOutcome j w 0x46 0 zeros), s)
          | (.poison, s) => (some (bnOutcome j w 0x46 0 zeros), s)
          | (.bytes b, s) =>
            let c := bnCheck op b
            (some (if c ≠ 0 then bnOutcome j w c (bnCheckLen op) zeros
              else bnOutcome j w 0 (bnCycles op (bnArg b 384 4)) (bnResult op b)), s)

/-- The lowest class of a list. -/
def lowestClass (f : BnJob → Nat) (l : List BnJob) : Option Nat :=
  match l.map f with
  | [] => none
  | a :: r => some (r.foldl min a)

/-- Start the oldest queued job of the lowest class; one whose pages are absent stays queued. -/
def bnStartQueued (s : State) : State :=
  match lowestClass (queuedClass s) s.island.bnQueue with
  | none => s
  | some c =>
    match s.island.bnQueue.find? fun j => queuedClass s j == c with
    | none => s
    | some j =>
      match bnRun j s with
      | (none, s) => s
      | (some x, s) => setIsland (fun i => { i with bnRunning := some x, bnQueue := i.bnQueue.filter fun y => y.seq != j.seq }) s

/-- BN_JOB_START: with no job running, a parked job resumes unless a job of a lower class is queued; else the oldest queued job of
the lowest class starts (R399). -/
def bnJobStart (s : State) : State :=
  if s.island.bnRunning.isSome then s
  else
    match lowestClass (fun j => j.cls) s.island.bnParked with
    | some p =>
      if (lowestClass (queuedClass s) s.island.bnQueue).any (fun q => decide (q < p)) then bnStartQueued s
      else
        setIsland (fun i => { i with
          bnRunning := i.bnParked.find? (fun j => j.cls == p), bnParked := i.bnParked.filter fun j => j.cls != p }) s
    | none => bnStartQueued s

/-- BN_YIELD_POINT: a running job gives way to a queued one of a lower class. -/
def bnYieldPoint (s : State) : State :=
  match s.island.bnRunning with
  | none => s
  | some j =>
    if s.island.bnQueue.any fun k => decide (queuedClass s k < j.cls) then
      let t := bnStartQueued (setIsland (fun i => { i with bnRunning := none, bnParked := i.bnParked ++ [j] }) s)
      if t.island.bnRunning.isSome then t else setIsland (fun i => { i with bnRunning := some j, bnParked := s.island.bnParked }) t
    else s

/-- Write a job's bytes where a context still maps them. -/
def writeMapped (ctx a : Nat) (bs : List Byte) (s : State) : State :=
  (pagePieces (pieceFuel bs.length) a bs.length).foldl (fun s x =>
    match unitPieces s ctx true x.1 x.2 with
    | some ps => unitWrite .write true false ps ((bs.drop (x.1 - a)).take x.2) (unitUse ctx x.1 x.2 s)
    | none => s) s

/-- Write the output and the record's HW fields of a job that has ended (R395). An output that cannot be written whole is ADDRESS: its
bytes are written as zero where they are mapped (R400). -/
def bnWrite (j : BnJob) (s : State) : State :=
  if j.island.isSome then s
  else
    let w := j.record.toNat
    let whole := (unitPieces s j.ctx true (bits w 479 432) j.output.length).isSome
    let status := if !whole && j.status == 0 then 0x46 else j.status.toNat
    let s := writeMapped j.ctx (bits w 479 432) (if whole then j.output else List.replicate j.output.length 0) s
    match unitPieces s j.ctx true j.addr 64 with
    | some ps =>
      unitWrite .write true false ps (toLe 64 (withCheck 64 (setBits (setBits w 335 328 status) 383 352 j.cycles.toNat))) (unitUse j.ctx j.addr 64 s)
    | none => s

/-- Count the end of a job. -/
def bnCount (j : BnJob) (s : State) : State :=
  let s := bumpE 0x4030 3 (bnWrite j s)
  let s := setIsland (fun i => { i with bnBusy := i.bnBusy + BitVec.ofNat 64 j.cycles.toNat }) s
  if j.status = 0x44 ∨ j.status = 0x45 then bumpE 0x4030 4 s else s

/-- The page of a hosted range that a job waits for before it can write. -/
def bnAbsent (s : State) (j : BnJob) : Option Nat :=
  if j.island.isSome || j.failed then none
  else
    [(bits j.record.toNat 479 432, j.output.length), (j.addr, 64)].findSome? fun x =>
      match unitFault s j.ctx true x.1 x.2 with
      | some (.absent q) => some q
      | _ => none

/-- Queue a job of the island for a path. (DEDUCED, log 97) -/
def queueIsland (p : Path) (stage : Nat) (s : State) : State :=
  setIsland (fun i => { i with
    bnQueue := i.bnQueue ++ [{ ctx := 0, addr := 0, island := some p, stage := stage, seq := i.bnSeq }], bnSeq := i.bnSeq + 1 }) s

/-- The stage of an exchange that follows a job which has ended: none after the last, or after a check that fails (R392, R393). -/
def nextStage (s : State) (j : BnJob) (p : Path) : Option Nat :=
  let b := (pathState s p).kexBuf
  if j.status ≠ 0 then none
  else
    match j.stage with
    | 1 => if bnResult 4 (kexVerifyArgs b) = [1] then some 2 else none
    | 2 => some 3
    | 3 => if kemKeyOk ((b.drop 160).take 1568) then some 4 else none
    | _ => none

/-- A job has ended: it is counted, and an exchange goes on to its next job. -/
def bnEnds (j : BnJob) (s : State) : State :=
  let s := bnCount j s
  match j.island with
  | some p => match nextStage s j p with
    | some k => queueIsland p k s
    | none => s
  | none => s

/-- BN_JOB_END: the running job ends, and with it any parked job that a kill ended; the engine's memories are wiped (R400). A job whose
output or record stands on an absent page waits for it (R300). -/
def bnJobEnd (s : State) : State :=
  let waits := s.island.bnRunning.bind fun j => (bnAbsent s j).map fun q => (j.ctx, q)
  let dead := s.island.bnParked.filter fun j => j.status == 0x47
  let s := setIsland (fun i => { i with bnParked := i.bnParked.filter fun j => j.status != 0x47 }) s
  let s := dead.foldl (fun s j => bnEnds j s) s
  match waits with
  | some (ctx, q) => noteMiss ctx q false (setIsland (fun i => { i with bnRunning := i.bnRunning.map fun j => { j with wait := some q } }) s)
  | none => s.island.bnRunning.toList.foldl (fun s j => bnEnds j s) (setIsland (fun i => { i with bnRunning := none }) s)

/-- BN_QUEUE: jobs queued, parked or running. -/
def bnJobs (s : State) : Nat := s.island.bnQueue.length + s.island.bnParked.length + s.island.bnRunning.toList.length

/-- A job of the island for a path is under way: its attestation's, or its exchange's. -/
def islandJob (s : State) (p : Path) (kex : Bool) : Bool :=
  (s.island.bnQueue ++ s.island.bnParked ++ s.island.bnRunning.toList).any fun j => j.island == some p && (j.stage != 0) == kex

/-! ## Attestation (R388, R389) -/

/-- ATTEST_NONCE: one attestation starts. -/
def attestNonceW (p : Path) (nonce : List Byte) (s : State) : Nat × State :=
  if (pathState s p).attest = 1 then (0x16, s)
  else (0, queueIsland p 0 (setPath p (fun x => { x with nonce := nonce, attest := 1 }) s))

/-- Bytes 0 to 255 of a report (Table 18.5). -/
def reportBody (s : State) (p : Path) : List Byte :=
  let i := s.island
  let recov := i.state == 2
  toLe 32 (packFields [(192, 64, s.fuses.serial.toNat), (160, 32, i.fwVersion.toNat), (144, 16, s.fuses.stepping.toNat),
    (136, 8, fuseSvn s), (128, 8, i.imgSvn.toNat), (96, 32, i.reports.toNat),
    (16, 2, reg s 0x3B10 7 % 2 + reg s 0x3B11 7 % 2 * 2), (9, 1, b2n recov), (8, 1, b2n i.runningB), (4, 4, 1), (0, 4, 3)]) ++
  s.flash.sessHash ++ s.flash.ownerHash ++ i.measCfg ++ (if recov then List.replicate 48 0 else i.measFw) ++ (pathState s p).nonce

/-- ATTEST_DONE: the signing job has ended and the report is complete. -/
def attestDone (p : Path) (s : State) : State :=
  if (pathState s p).attest = 1 ∧ islandJob s p false = false then
    let s := setIsland (fun i => { i with reports := i.reports + 1 }) s
    let body := reportBody s p
    let (sig, s) := identitySign body s
    setPath p (fun x => { x with report := body ++ sig, attest := 2 }) s
  else s

/-! ## Key slots and exchanges (R390-R394) -/

/-- Change a key slot. -/
def setKeySlot (k : Nat) (f : KeySlot → KeySlot) (s : State) : State :=
  setIsland (fun i => { i with keys := tset i.keys k (f (keySlot s k)) }) s

/-- SLOTS_FREE. -/
def slotsFree (s : State) : Nat := 240 - (s.island.keys.filter fun e => e.2.role != .empty).length

/-- SLOT_INFO. (DEDUCED, log 79) -/
def slotInfo (k : KeySlot) : Nat :=
  (match k.role with
   | .empty => 0
   | .admin => 1
   | .session => 2) + b2n k.claimed * 4 + k.installs.toNat * 65536

/-- SLOT_ERASE. -/
def slotEraseW (v : Nat) (s : State) : Nat × State :=
  if 0xF0 ≤ v then (0x1A, s)
  else if (keySlot s v).claimed then (0x16, s)
  else (0, setKeySlot v (fun k => { k with role := .empty, key := [] }) s)

/-- Bytes of an exchange buffer. -/
def kexBytes (b : List Byte) (off n : Nat) : List Byte := (b.drop off).take n

/-- Bytes that must be zero in a request. -/
def zeroBytes (b : List Byte) : Bool := b.all fun x => x == 0

/-- Checks 1 to 3 of Table 18.7: 0, or the status. (DEDUCED, log 96) -/
def kexEarly (s : State) (b : List Byte) : Nat :=
  let role := (b.getD 1 0).toNat
  let k := keySlot s (b.getD 2 0).toNat
  let h := sha384 (kexBytes b 1728 97)
  let own := h == s.flash.ownerHash && !(zeroBytes s.flash.ownerHash)
  let ses := role == 2 && h == s.flash.sessHash && !(zeroBytes s.flash.sessHash)
  if !(b.getD 0 0 == 0x12 && (role == 1 || role == 2) && decide ((b.getD 2 0).toNat < 0xF0) && zeroBytes (kexBytes b 3 13) &&
      zeroBytes (kexBytes b 145 15) && zeroBytes (kexBytes b 1825 15) && zeroBytes (kexBytes b 1936 16)) then 0x12
  else if !(own || ses) then 0x15
  else if k.claimed || (role == 2 && k.role == .admin) then 0x16
  else 0

/-- Checks 4 to 6: the authorising signature, the host's ephemeral key, its encapsulation key. -/
def kexLate (b : List Byte) : Nat :=
  let q := kexBytes b 1728 97
  let r := bnArg b 1840 48
  let t := bnArg b 1888 48
  if !(bnScalarOk r && bnScalarOk t) then 0x1A
  else if !(pointOk q) then 0x44
  else if !(ecdsaVerify (pointOf q) (ofBe (sha384 (b.take 1840))) r t) then 0x10
  else if !(pointOk (kexBytes b 48 97)) then 0x44
  else if !(kemKeyOk (kexBytes b 160 1568)) then 0x1A
  else 0

/-- An exchange fails: nothing is installed, the response is zeros after STATUS, the slot is released (R392). -/
def kexFails (p : Path) (status : Nat) (s : State) : State :=
  let s := match (pathState s p).kexSlot with
    | some k => setKeySlot k.toNat (fun x => { x with claimed := false }) s
    | none => s
  setPath p (fun x => { x with
    kexBuf := x.kexBuf.take 1952 ++ [BitVec.ofNat 8 status] ++ List.replicate 2143 0,
    kexState := BitVec.ofNat 16 (status * 256 + 3), kexSlot := none }) (bumpE 0x4000 8 s)

/-- KEX_COMMAND (R391, R392): the first three checks, the claim of the slot, and the first of the exchange's jobs. (DEDUCED, log 96) -/
def kexCommandW (p : Path) (v : Nat) (s : State) : Nat × State :=
  if v ≠ 1 then (0x1A, s)
  else if (pathState s p).kexState.toNat % 256 = 1 then (0x16, s)
  else
    let b := (pathState s p).kexBuf
    let st := kexEarly s b
    if st ≠ 0 then (0, kexFails p st s)
    else
      (0, queueIsland p 1 (setKeySlot (b.getD 2 0).toNat (fun x => { x with claimed := true })
        (setPath p (fun x => { x with kexState := 1, kexSlot := some (b.getD 2 0) }) s)))

/-- A scalar of the ephemeral key from random bytes. -/
def ephemeral (bs : List Byte) : Nat := ofBe bs % (n384 - 1) + 1

/-- Install a slot's key and role: kept counters and stored replies of the slot start anew (R394). -/
def installKey (k : Nat) (role : SlotRole) (key : List Byte) (s : State) : State :=
  let s := setKeySlot k (fun x => { role := role, key := key, claimed := false, installs := x.installs + 1 }) s
  { s with
    kept := terase (terase s.kept (keptKey k 0)) (keptKey k 1),
    replies := s.replies.filter fun e => e.1 / 2 != k }

/-- KEX_DONE (R392, R393): once its jobs have ended, the exchange fails the rest of the checks, or does the device's part and installs
the key. (DEDUCED, log 96) -/
def kexDone (p : Path) (s : State) : State :=
  match (pathState s p).kexSlot with
  | none => s
  | some k =>
    let b := (pathState s p).kexBuf
    let st := kexLate b
    if islandJob s p true then s
    else if st ≠ 0 then kexFails p st s
    else
      let (nonce, s) := randomBytes 32 s
      let (dev, s) := randomBytes 48 s
      let (m, s) := randomBytes 32 s
      let d := ephemeral dev
      let pub := (ecMul 384 d (some g384)).map pointBytes
      let sse := match ecMul 384 d (some (pointOf (kexBytes b 48 97))) with
        | some r => toBe 48 r.1
        | none => List.replicate 48 0
      let (ssk, ct) := kemEncaps (kexBytes b 160 1568) m
      let head := b.take 1952 ++ [0, k, b.getD 1 0] ++ List.replicate 13 0 ++ nonce ++ pub.getD (List.replicate 97 0) ++
        List.replicate 15 0 ++ ct
      let (sig, s) := identitySign head s
      let label : List Byte := [0x45, 0x56, 0x4E, 0x45, 0x4C, 0x2D, 0x4B, 0x45, 0x58, 0x2D, 0x31]
      let key := (sha384 (label ++ sse ++ ssk ++ sha384 head)).take 32
      let s := installKey k.toNat (if (b.getD 1 0) = 1 then .admin else .session) key s
      setPath p (fun x => { x with kexBuf := head ++ sig ++ List.replicate 32 0, kexState := 2, kexSlot := none }) s

end Sys2Proof.Machine
end

