-- ==== Sys2Proof/Machine/Power.lean ====
section
/-! DEFINITION. Power, clocks and reset: the input and its pins, the PLL, the throttle, cold and shared resets, clock switches, power states and wakes (chapter 19). -/

namespace Sys2Proof.Machine

/-! ## Cold reset (R412, Table 19.6) -/

/-- The retired lists that the flash holds, for a stack. -/
def flashRetired (s : State) (k : Nat) : List Nat := (s.flash.retired.filter fun e => e.1 == k).map fun e => e.2

/-- Main conversion may run (R402, R406). -/
def mayConvert (p : Power) : Bool := p.pwrEn && p.inRange && p.standby && !p.tripped

/-- The state of Table 19.6: fuses, flash and pins stay, the retired lists and the MAC addresses come from flash, the cause is
recorded. What the sideband's controller has set, and the model's queue and records, stay. (DESIGN CHOICE, log 11; DEDUCED, log 103) -/
def coldReset (cause : Nat) (straps : BitVec 17) (s : State) : State :=
  let p := s.power
  let good := p.pwrGood && mayConvert p
  let r : State := {
    pending := s.pending, fresh := s.fresh, outbox := s.outbox, fuses := s.fuses, flash := s.flash, sideband := s.sideband,
    hbm := (List.range 8).map fun k => { retired := flashRetired s k },
    power := {
      resetCause := BitVec.ofNat 8 cause, straps := straps, pwrEn := p.pwrEn, inRange := p.inRange, standby := p.standby,
      tripped := p.tripped, mainOn := mayConvert p, pwrGood := good, state := if good then 0 else 3 } }
  setReg 0x3B11 3 s.flash.mac1.toNat (setReg 0x3B10 3 s.flash.mac0.toNat r)

/-- Main conversion is off: only the always-on island runs. -/
def mainsOff (s : State) : State :=
  setPower (fun p => { p with state := 3, mainOn := false, pwrGood := false, pll := 0 }) s

/-- An uncontrolled loss (R403): every core, scratchpad, cache line, stack and key slot loses its contents. -/
def lossOfMains (cause : Nat) (s : State) : State := mainsOff (coldReset cause s.power.straps s)

/-! ## The input and its pins (R402, R403, R408) -/

/-- POWER_ON: the standby rail rises and the straps are sampled. -/
def powerOn (straps : BitVec 17) (s : State) : State :=
  let s := setPower (fun p => { p with inRange := false, tripped := false, standby := true }) { s with sideband := {} }
  mainsOff (coldReset 1 straps s)

/-- Main conversion starts where it may. -/
def startMains (s : State) : State := setPower (fun p => { p with mainOn := mayConvert p }) s

/-- PWR_EN_ASSERT. -/
def pwrEnAssert (s : State) : State :=
  if s.power.pwrEn then s else startMains (setPower (fun p => { p with pwrEn := true }) s)

/-- INPUT_IN_RANGE. -/
def inputInRange (s : State) : State :=
  if s.power.inRange ∨ s.power.standby = false then s else startMains (setPower (fun p => { p with inRange := true }) s)

/-- PWR_GOOD_ASSERT: the rails are in regulation and the PLL starts to lock. -/
def pwrGoodAssert (s : State) : State :=
  if s.power.mainOn ∧ s.power.pwrGood = false then setPower (fun p => { p with pwrGood := true, pll := 1 }) s else s

/-- PWR_EN_DEASSERT: the same loss as an input fault, and nothing recorded; THERMTRIP_N is released. (DEDUCED, log 103) -/
def pwrEnDeassert (s : State) : State :=
  let s := setPower (fun p => { p with pwrEn := false, tripped := false }) s
  if s.power.mainOn then lossOfMains s.power.resetCause.toNat s else s

/-- INPUT_FAULT: cause 4. -/
def inputFault (s : State) : State := lossOfMains 4 (setPower (fun p => { p with inRange := false }) s)

/-- STANDBY_RAIL_LOSS: the always-on island stops too. -/
def standbyRailLoss (s : State) : State :=
  lossOfMains s.power.resetCause.toNat
    (setPower (fun p => { p with inRange := false, standby := false, tripped := false }) { s with sideband := {} })

/-! ## Heat and the throttle (R404-R406) -/

/-- A measured value: what the environment gives is free. -/
def sample (kind : Nat) (s : State) : Nat × State := (Config.sensor kind s.fresh, { s with fresh := s.fresh + 1 })

/-- Bits 1 and 0 of ALERT_N's causes: a die at 105 °C or more, the input outside 50 to 58 V, the throttle below 64/64 for more
than 10 ms (Table 19.4). -/
def alertNow (s : State) : Bool :=
  (s.dies.any fun d => decide (105 ≤ toSigned 16 d.temp.toNat)) ||
    decide (s.power.vin.toNat < 50000 ∨ 58000 < s.power.vin.toNat) || decide (1000 < s.power.throttled)

/-- The most that the throttle may allow a die (R404): below 64/64 a fraction that holds the input at PWR_CAP, and a hot die at 100 °C;
those fractions are free. (DESIGN CHOICE, log 105) -/
def throttleLimit (power hot : Bool) (a b : Nat) : Nat := min (if power then a % 64 else 64) (if hot then b % 64 else 64)

/-- THROTTLE_UPDATE (R404): every 10 µs the measurements, and the fractions that the throttle chooses. The 1 ms average of the input
stays at or below PWR_CAP. -/
def throttleUpdate (d0 d1 : Nat) (s : State) : State :=
  let (demand, s) := sample 0 s
  let (vin, s) := sample 1 s
  let (plate, s) := sample 2 s
  let (t0, s) := sample 3 s
  let (t1, s) := sample 4 s
  let (a, s) := sample 5 s
  let (b, s) := sample 6 s
  let cap := reg s 0x5000 7
  let hot := fun (t : Nat) => decide (100 ≤ toSigned 16 (t % 2 ^ 16))
  let d0 := min d0 (throttleLimit (cap < demand) (hot t0) a b)
  let d1 := min d1 (throttleLimit (cap < demand) (hot t1) a b)
  let on := decide (d0 < 64 ∨ d1 < 64)
  let s := setDie 0 (fun d => { d with throttle := d0, temp := BitVec.ofNat 16 t0 }) s
  let s := setDie 1 (fun d => { d with throttle := d1, temp := BitVec.ofNat 16 t1 }) s
  let s := setPower (fun p => { p with
    input := BitVec.ofNat 16 (min demand cap), vin := BitVec.ofNat 16 vin, plate := BitVec.ofNat 16 plate,
    throttled := if on then p.throttled + 1 else 0 }) s
  let s := setPower (fun p => { p with alert := alertNow s }) s
  if on then bumpE 0x5000 0xB s else s

/-- THERMAL_ALERT: a die reads 105 °C. (DESIGN CHOICE, log 105) -/
def thermalAlert (d : Nat) (s : State) : State :=
  setPower (fun p => { p with alert := true }) (setDie d (fun x => { x with temp := 105 }) s)

/-- THERMAL_TRIP: THERMTRIP_N is asserted, main conversion goes off, cause 5. (DESIGN CHOICE, log 105) -/
def thermalTrip (d : Nat) (s : State) : State :=
  let s := lossOfMains 5 (setPower (fun p => { p with tripped := true }) s)
  setPower (fun p => { p with alert := true }) (setDie d (fun x => { x with temp := 115 }) s)

/-! ## The PLL and cold resets (R409, R411, R412) -/

/-- PLL_LOCK. -/
def pllLock (s : State) : State :=
  if s.power.pwrGood then setPower (fun p => { p with pll := 2 }) s else s

/-- PLL_LOSS: a cold reset with cause 6; the PLL tries to lock again. -/
def pllLoss (s : State) : State :=
  if s.power.pwrGood then setPower (fun p => { p with pll := 1 }) (coldReset 6 s.power.straps s) else s

/-- RST_N. (DEDUCED, log 103) -/
def rstN (straps : BitVec 17) (s : State) : State :=
  if s.power.standby then coldReset 2 straps s else s

/-! ## RESET_CTRL (R412, R413) -/

/-- RESET_CTRL 2: every context is killed with KILL_REASON 1; the reset is committed. (DEDUCED, log 102) -/
def sharedReset (s : State) : State :=
  let s := (s.contexts.map fun e => e.1).foldl (fun s c => killContext c 1 s) s
  setPower (fun p => { p with sharedReset := true }) (semCommit { s with normalQ := List.replicate 4 [] })

/-- A write of RESET_CTRL. -/
def resetCtrlW (p : Path) (v : Nat) (s : State) : Nat × State :=
  if v ≠ 1 ∧ v ≠ 2 then (0x1A, s)
  else if !(holdsSem s p) then (0x16, s)
  else if v = 1 then (0, coldReset 3 s.power.straps s)
  else (0, sharedReset (setReg 0x5000 0x10 v s))

/-- Drain and empty a chain slot. (DEDUCED, log 102) -/
def emptyChain (k : Nat) (s : State) : State :=
  if (chain s k).state = .empty then s
  else bumpE (0x3110 + k) 9 (setChain k (fun x => { x with state := .empty, inflight := 0 }) s)

/-- SHARED_RESET_END: every context is FREE; the shared resources are emptied. (DEDUCED, log 102) -/
def sharedResetEnd (s : State) : State :=
  if s.power.sharedReset && s.contexts.all (fun e => ctxState s e.1 == 0) then
    let s := (List.range 16).foldl (fun s k => emptyChain k s) s
    let s := (s.results.map fun e => e.1).foldl (fun s k => if (result s k).state ≠ .released then freeResult k s else s) s
    let s := setIsland (fun i => { i with bnQueue := i.bnQueue.filter fun j => j.island.isSome }) {
      s with
      tableJob := none, modTable := [], occupied := [], relayJobs := [],
      dies := s.dies.map fun d => { d with pinnedJob := false },
      updRing := [none, none], updEarly := [], updPages := [], updNext := BitVec.ofNat 32 (reg s 0x3A00 3) }
    semUncommit (bumpE 0x5000 0x14 (setPower (fun p => { p with sharedReset := false }) s))
  else s

/-! ## Core clocks (R410) -/

/-- CORE_CLK of one core: the switch begins. -/
def coreClkTo (c v : Nat) (s : State) : State :=
  let s := setReg (0x5080 + c) 1 v s
  if (core s c).clkState.toNat = 2 * v then s else setCore c (fun x => { x with clkState := 1 }) s

/-- A write of CORE_CLK. (DEDUCED, log 115) -/
def coreClkW (c v : Nat) (s : State) : Nat × State :=
  if 1 < v then (0x1A, s) else if v = 1 ∧ s.power.pll ≠ 2 then (0x16, s) else (0, coreClkTo c v s)

/-- A write of CLK_ALL. -/
def clkAllW (v : Nat) (s : State) : Nat × State :=
  if 1 < v then (0x1A, s) else if v = 1 ∧ s.power.pll ≠ 2 then (0x16, s)
  else (0, (List.range 128).foldl (fun s c => coreClkTo c v s) s)

/-- CLK_SWITCH_DONE. (DEDUCED, log 115) -/
def clkSwitchDone (c : Nat) (s : State) : State :=
  if (core s c).clkState = 1 then setCore c (fun x => { x with clkState := BitVec.ofNat 8 (2 * reg s (0x5080 + c) 1) }) s else s

/-- Every core starts on FIO (R417). -/
def coresToFio (s : State) : State :=
  let s := { s with cores := s.cores.map fun e => (e.1, { e.2 with clkState := 0 }) }
  (List.range 128).foldl (fun s c => if reg s (0x5080 + c) 1 = 0 then s else setReg (0x5080 + c) 1 0 s) s

/-! ## Leaving RUN (R414) -/

/-- PWR_STATE (Table 19.9). (DEDUCED, log 100) -/
def pwrState (s : State) : Nat :=
  (if s.power.entering then s.power.goal.toNat else s.power.state.toNat) + b2n s.power.exiting * 64 + b2n s.power.entering * 128

/-- A trace record of kind POWER. -/
def tracePower (s : State) : State :=
  (List.range 2).foldl (fun s d => trace d { tkind := 7, value := pwrState s } s) s

/-- Begin the exit to RUN: out of Standby it is a cold reset with cause 7 (R416, R417). -/
def beginExit (s : State) : State :=
  let s := bumpE 0x5000 5 s
  if s.power.state = 3 then setPower (fun p => { p with state := 3, exiting := true }) (coldReset 7 s.power.straps s)
  else tracePower (setPower (fun p => { p with exiting := true, latched := false }) s)

/-- A wake event: latched during an entry, acted on in a low-power state. (DEDUCED, log 101) -/
def wake (s : State) : State :=
  if s.power.entering then setPower (fun p => { p with latched := true }) s
  else if s.power.state ≠ 0 ∧ s.power.exiting = false ∧ (s.power.state ≠ 3 ∨ mayConvert s.power = true) then beginExit s
  else s

/-- CTX_OPEN: contexts not FREE. -/
def ctxOpen (s : State) : Nat := (s.contexts.filter fun e => ctxState s e.1 != 0).length

/-- An entry is accepted: dispatch stops; for RETAIN every resident context begins its save. -/
def beginEntry (goal : Nat) (s : State) : State :=
  let s := setPower (fun p => { p with entering := true, goal := BitVec.ofNat 2 goal }) (semCommit s)
  let s := if goal = 1 then s else (residents s).foldl (fun s k => if (context s k).leaving then s else beginLeave k s) s
  tracePower s

/-- PWR_STATE_REQ. (DEDUCED, log 100) -/
def pwrStateReqW (p : Path) (v : Nat) (s : State) : Nat × State :=
  if 3 < v then (0x1A, s)
  else if !(holdsSem s p || (v == 0 && p == .sideband)) then (0x16, s)
  else if s.power.entering || s.power.exiting then (0x16, s)
  else if (v = 0) = (s.power.state = 0) then (0x1A, s)
  else if v = 0 then (0, wake s)
  else if v = 3 ∧ ctxOpen s ≠ 0 then (0x16, s)
  else (0, beginEntry v s)

/-- Every dirty line of the shared cache is written back, and the cache is empty. -/
def flushCaches (s : State) : State :=
  (List.range 2).foldl (fun s d => (die s d).cache.foldl (fun s l => evictLine d l s) s) s

/-- What RETAIN loses at once: links go down, instruction memory is off. -/
def enterRetain (s : State) : State :=
  let s := (List.range 24).foldl (fun s p => portLeaves p 0 (setLink p (fun l => { l with lost := false }) s)) s
  { s with cores := s.cores.map fun e => (e.1, { e.2 with imem := e.2.imem.map freeBlock, pinWaits := [] }) }

/-- Entries of a table that the always-on island keeps. -/
def aonOnly {α : Type} (t : Tab α) : Tab α :=
  t.filter fun e => (entryOf (e.1 / 256) (e.1 % 256)).any fun x => x.aon

/-- What STANDBY keeps: the always-on island with its entries, straps, fuses and flash (Table 19.8). -/
def enterStandby (s : State) : State :=
  let r := mainsOff (coldReset s.power.resetCause.toNat s.power.straps s)
  let sem : Semaphore := if s.sem.holder = some .sideband then s.sem else { committed := s.sem.committed }
  { r with
    regs := aonOnly s.regs, counts := aonOnly s.counts, acked := aonOnly s.acked, totals := aonOnly s.totals,
    lockNonce := s.lockNonce, sem := sem,
    paths := r.paths.zipWith (fun (x y : PathState) => { x with unlocked := y.unlocked, notifyCount := y.notifyCount }) s.paths,
    island := { s.island with keys := [], bnQueue := [], bnRunning := none, bnParked := [], activating := false },
    power := { r.power with latched := s.power.latched, input := s.power.input, vin := s.power.vin, plate := s.power.plate,
                            alert := s.power.alert } }

/-- The steps of R414 are over: nothing of a context is left in a core, and nothing resident except in DOZE. -/
def entryReady (s : State) : Bool :=
  s.power.entering && (s.power.goal == 1 || (!savesUnderWay s && (residents s).isEmpty))

/-- PWR_ENTRY_DONE (R283, R414): caches written back except in DOZE, the retired list copied, the state entered; a latched wake is
replayed. -/
def pwrEntryDone (s : State) : State :=
  if entryReady s then
    let g := s.power.goal
    let s := retiredListCopy (if g = 1 then s else flushCaches s)
    let s := if g = 2 then enterRetain s else s
    let s := tracePower s
    let s := if g = 3 then enterStandby s else s
    let s := semUncommit (setPower (fun p => { p with state := g, entering := false }) s)
    if s.power.latched then wake (setPower (fun p => { p with latched := false }) s) else s
  else s

/-- WAKE_EVENT (R416): a falling edge of WAKE_N, or port traffic in DOZE, where WAKE_MASK admits it. -/
def wakeEvent (pin : Bool) (s : State) : State :=
  let m := reg s 0x5000 4
  let doze := if s.power.entering then s.power.goal == 1 else s.power.state == 1
  if (pin && bit m 0) || (!pin && bit m 1 && doze) then wake s else s

/-- A doorbell or an express command has come to a port (R416). (DEDUCED, log 101) -/
def trafficWake (p : Path) (bs : List Byte) (s : State) : State :=
  let x := payloadOf bs
  if (portOf p).isSome && (plType x == 2 || (plType x == 1 && isExpress (plCode x))) then wakeEvent false s else s

/-! ## Coming back to RUN (R417) -/

/-- A bank of every core was kept in RETAIN. -/
def retained (s : State) (a : Nat) : Bool := bit (reg s 0x5000 3) (spBank a)

/-- Unretained banks come back as zero with every line torn. -/
def loseBanks (s : State) : State :=
  let gone := fun (a : Nat) => isSp a && !(retained s a)
  let lines := (List.range 0x40_0000).map fun i => spBase + 128 * i
  { s with
    mem := s.mem.filter fun c => !(gone c.1),
    poison := s.poison.filter fun a => !(gone a),
    spLatent := s.spLatent.filter fun e => !(gone e.1),
    torn := lines.filter fun l => gone l || nmem s.torn l }

/-- PWR_EXIT_DONE (R417): the cores start on FIO. The exit from Standby ends with BOOT instead. (DEDUCED, log 101) -/
def pwrExitDone (s : State) : State :=
  if s.power.exiting && (s.power.state == 1 || s.power.state == 2) then
    let was := s.power.state
    let s := coresToFio s
    let s := if was = 2 then loseBanks s else s
    let s := tracePower (setPower (fun p => { p with state := 0, exiting := false }) s)
    if was = 2 then (List.range 24).foldl (fun s p => startTraining p s) s else flushHeld s
  else s

/-! ## The clock -/

/-- One FCLK cycle: the module's clock, and DIE_TIME of both dies while the PLL is locked (R404, R427). (DESIGN CHOICE, log 2) -/
def tick (s : State) : State :=
  { s with
    time := s.time + 1
    dies := if s.power.pll = 2 then s.dies.map fun d => { d with time := d.time + 1 } else s.dies }

end Sys2Proof.Machine
end

