-- ==== Sys2Proof/Machine/Debug.lean ====
section
/-! DEFINITION. The fault log, the trace units, sync marks, and what a debugger reads and writes (chapter 20). -/

namespace Sys2Proof.Machine

/-! ## The fault log (R426) -/

/-- Device address of the log. -/
def flogBase : Nat := 0x10_0000

/-- Device address of a record by its number. -/
def flogAddr (n : Nat) : Nat := flogBase + 128 * (n % 4096)

/-- A staged record with REC_SEQ, DROPS and REC_CHECK filled in. -/
def flogFinish (w seq : Nat) (drops : Bool) : Nat := withCheck 128 (setBits (setBits w 383 352 seq) 296 296 (b2n drops))

/-- FAULT_LOG_ACCEPT: the log takes the oldest staged record of a die. -/
def faultLogAccept (d : Nat) (s : State) : State :=
  match (die s d).flogStage with
  | [] => s
  | w :: rest =>
    let n := s.flogSeq
    let v := flogFinish w.toNat n (die s d).flogDrops
    let s := setDie d (fun x => { x with flogStage := rest, flogDrops := false }) s
    let s := devWrite .write true (flogAddr n) (toLe 128 v) false s
    let s := bumpE 0x6000 1 { s with flogSeq := n + 1 }
    let s := if 4096 ≤ n then bumpE 0x6000 6 s else s
    trace d { tkind := 4, value := n % 2 ^ 32, ctx := bits v 351 340, core := bits v 339 333 } s

/-- FLOG_RECORD: the record that FLOG_SELECT names, or zeros when it is overwritten, not yet written or poisoned. -/
def flogRecord (s : State) : List Byte × State :=
  let back := (s.flogSeq + 2 ^ 32 - 1 - reg s 0x6000 3) % 2 ^ 32
  if back < min 4096 s.flogSeq then
    let a := flogAddr (s.flogSeq - 1 - back)
    let s := noteRead .read false a 128 s
    (if poisonedRange s a 128 then List.replicate 128 0 else devBytes s a 128, s)
  else (List.replicate 128 0, s)

/-! ## Trace rings (R428, Table 20.6) -/

/-- RING_LOG2. -/
def traceLog2 (s : State) : Nat := bits (reg s 0x6010 2) 52 48

/-- Base of the ring. -/
def traceBase (s : State) : Nat := bits (reg s 0x6010 2) 47 0

/-- The context that TRACE_OWNER names, while it has that GENERATION. (DEDUCED, log 106) -/
def traceOwner (s : State) : Option Nat :=
  let v := reg s 0x6010 1
  let c := bits v 27 16
  if traceOn s && ctxState s c != 0 && ctxGen s c == bits v 15 0 then some c else none

/-- The header bytes of a ring. -/
def traceHeader (wr rd lost : Nat) : List Byte := toLe 4 wr ++ toLe 4 rd ++ toLe 4 lost ++ List.replicate 52 0

/-- A trace record of a die is dropped after its staging (R428). -/
def traceDrop (d : Nat) (s : State) : State :=
  bumpE 0x6010 6 (setDie d (fun x => { x with traceLost := true, traceMiss := x.traceMiss + 1 }) s)

/-- TRACE_RECORD_WRITE: the oldest staged record of a die goes to the ring; a full ring drops it in mode 0. Records without a
ring to go to are dropped; one whose ring stands on an absent page waits for it (R300). (DEDUCED, log 106) -/
def traceRecordWrite (d : Nat) (s : State) : State :=
  match (die s d).trace with
  | [] => s
  | w :: rest =>
    let t := s
    let s := setDie d (fun x => { x with trace := rest }) s
    match traceOwner s with
    | none => traceDrop d s
    | some c =>
      let n := 64 + 32 * 2 ^ traceLog2 s
      match unitPieces s c true (traceBase s) 64, unitPieces s c true (traceBase s) n with
      | some hp, some _ =>
        let (hb, _, s) := unitRead .write true hp (unitUse c (traceBase s) n s)
        let wr := ofLe (hb.take 4)
        let rd := ofLe ((hb.drop 4).take 4)
        let lost := ofLe ((hb.drop 8).take 4) + (die s d).traceMiss
        let full := reg s 0x6010 4 == 0 && decide (2 ^ traceLog2 s ≤ (wr + 2 ^ 32 - rd) % 2 ^ 32)
        if full then
          let s := setDie d (fun x => { x with traceLost := true, traceMiss := 0 }) s
          bumpE 0x6010 6 (unitWrite .write true false hp (traceHeader wr rd (lost + 1)) s)
        else
          let v := setBits w.toNat 72 72 (b2n (die s d).traceLost)
          let a := traceBase s + 64 + 32 * (wr % 2 ^ traceLog2 s)
          let s := setDie d (fun x => { x with traceLost := false, traceMiss := 0 }) s
          let s := unitWrite .write true false ((unitPieces s c true a 32).getD []) (toLe 32 v) s
          unitWrite .write true false hp (traceHeader (wr + 1) rd lost) s
      | _, _ =>
        match unitFault s c true (traceBase s) n with
        | some (.absent q) => noteMiss c q false t
        | _ => traceDrop d s

/-! ## Sync marks (R429) -/

/-- A sync mark as a CONTROL packet: SYNC_ID and the sender's DIE_TIME. (DEDUCED, log 107) -/
def syncPacket (id time : Nat) : Packet := { type := 9, express := true, dst := 0, tag := id % 2 ^ 16, addr := id, label := time }

/-- The SYNC_SEND record of one mark. -/
def syncSent (d peer link : Nat) (s : State) : State :=
  trace d { tkind := 5, value := s.syncId.toNat, aux := peer + link * 2 ^ 16 } s

/-- A mark over one link port. (DEDUCED, log 107) -/
def syncOver (d p : Nat) (s : State) : State :=
  match (link s p).peer with
  | some i =>
    if (link s p).state = 3 then
      syncSent d (linkPeer (link s p) % 2 ^ 16) p
        (sendOn p { syncPacket s.syncId.toNat (die s d).time.toNat with dst := i.module.val } s)
    else s
  | none => s

/-- SYNC_MARK_SEND: to the other die, over every UP link port, and to the parent manager. Which number stands for the parent's
path in AUX is not stated. -/
def syncMarkSend (d : Nat) (s : State) : State :=
  if s.power.pwrGood = false then s
  else
    let s := { s with syncId := s.syncId + 1 }
    let s := syncSent d (identityOf s) 31 s
    let s := (List.range 24).foldl (fun s p => syncOver d p s) s
    let parent := reg s 0x3C00 4
    if effRole s ≠ 0 ∧ parent ≠ 0 then
      let (free, s) := draw s
      let s := emit (.relay (BitVec.ofNat 48 parent) (packetBytes s (syncPacket s.syncId.toNat (die s d).time.toNat) 0 0)) s
      syncSent d (free % 2 ^ 16) (free / 2 ^ 16 % 32) s
    else s

/-- SYNC_MARK_RECEIVE: the receiver's record carries the sender's time. -/
def syncMarkReceive (d link peer id sent : Nat) (s : State) : State :=
  trace d { tkind := 6, postmark := sent, value := id, aux := peer + link * 2 ^ 16 } s

/-! ## Debugger access to memory (R430) -/

/-- One 32-byte burst as a debugger names it. -/
inductive DbgBurst where
  | dev (a : Nat)
  | entry (c off : Nat)
  | table (a : Nat)
  | unmapped
  | absent
  deriving DecidableEq, Repr

/-- The page-table entry of a mapping (Table 13.4). -/
def pteWord (m : Mapping) : Nat :=
  packFields [(63, 1, 1), (62, 1, 1), (61, 1, b2n m.present), (60, 1, b2n m.hosted), (59, 1, b2n m.write), (58, 1, b2n m.read),
    (57, 1, b2n m.pinned), (56, 1, b2n m.retiring), (21, 27, if m.present then m.frame else m.backing), (8, 4, m.age.toNat)]

/-- A page-table entry as it stands, with its poison mark: zero where it maps nothing. -/
def pteOf (m : Option (Nat × Mapping)) : Nat × Bool :=
  match m with
  | some (_, m) => (pteWord m, m.poisoned)
  | none => (0, false)

/-- Level-1 entry i of a context: a 1 GiB page, or the pointer to a level-2 table (R296). (DESIGN CHOICE, log 32) -/
def levelOne (s : State) (c i : Nat) : Nat × Bool :=
  match (context s c).pages.find? fun e => e.2.huge && e.1 / 512 == i with
  | some e => pteOf (some e)
  | none =>
    if (context s c).pages.any fun e => e.1 / 512 == i then
      (packFields [(63, 1, 1), (12, 36, Config.levelTwoTable c i / 4096)], false)
    else (0, false)

/-- Level-2 entry of a context for a 2 MiB page. -/
def levelTwo (s : State) (c p : Nat) : Nat × Bool := pteOf ((context s c).pages.find? fun e => !e.2.huge && e.1 == p)

/-- The page-table entry of a context at a device address. -/
def tableOf (s : State) (c a : Nat) : Option (Nat × Bool) :=
  let root := ctxPtRoot s c
  if root ≤ a ∧ a < root + 8192 then some (levelOne s c ((a - root) / 8))
  else
    let g := ((context s c).pages.map fun e => e.1 / 512).find? fun i =>
      decide (Config.levelTwoTable c i ≤ a ∧ a < Config.levelTwoTable c i + 4096)
    g.map fun i => levelTwo s c (i * 512 + (a - Config.levelTwoTable c i) / 8)

/-- The page-table entry that stands at a device address of the system area (R288, R296). -/
def tableAt (s : State) (a : Nat) : Option (Nat × Bool) :=
  if 2 ^ 30 ≤ a then none
  else (s.contexts.filter fun e => ctxState s e.1 != 0).findSome? fun e => tableOf s e.1 a

/-- A burst of device memory: HBM or a scratchpad; the system area shows the context table and the page tables. -/
def dbgDevice (s : State) (a : Nat) : DbgBurst :=
  if a < flogBase then .entry (a / 256) (a % 256)
  else if (tableAt s a).isSome then .table a
  else if isHbm a || isSp a then .dev a
  else .unmapped

/-- A burst of a context: a mapping is needed and no access right. -/
def dbgContext (s : State) (c a : Nat) : DbgBurst :=
  if ctxState s c = 0 then .unmapped
  else if a < 2 ^ 40 then
    match mappingOf s c (a / 2 ^ 21) with
    | none => .unmapped
    | some (p, m) =>
      if m.poisoned then .unmapped
      else if m.present then dbgDevice s (m.frame * 2 ^ 21 + (a - p * 2 ^ 21)) else .absent
  else if granted s c a then .dev a
  else .unmapped

/-- Bit 63 of DBG_MEM_ADDR. -/
def dbgIsDevice (s : State) : Bool := bit (reg s 0x6020 1) 63

/-- The context of DBG_MEM_ADDR. -/
def dbgCtx (s : State) : Nat := bits (reg s 0x6020 1) 59 48

/-- The burst k of the 256 bytes. -/
def dbgBurst (s : State) (k : Nat) : DbgBurst :=
  let a := bits (reg s 0x6020 1) 47 0 + 32 * k
  if dbgIsDevice s then dbgDevice s a else dbgContext s (dbgCtx s) a

/-- Read one burst: its status and its bytes, zeros unless good. (DEDUCED, log 108) -/
def dbgReadBurst (k : Nat) (s : State) : Nat × List Byte × State :=
  let zeros : List Byte := List.replicate 32 0
  match dbgBurst s k with
  | .unmapped => (2, zeros, s)
  | .absent => (3, zeros, s)
  | .entry c off => if poisonedAt s (256 * c + off) then (1, zeros, s) else (0, toLe 32 (ctxEntryWord s c >>> (8 * off)), s)
  | .table a =>
    let l := (List.range 4).map fun i => (tableAt s (a + 8 * i)).getD (0, false)
    if l.any (fun e => e.2) then (1, zeros, s) else (0, l.flatMap fun e => toLe 8 e.1, s)
  | .dev a =>
    let s := noteRead .read false a 32 s
    if poisonedRange s a 32 then (1, zeros, s) else (0, devBytes s a 32, s)

/-- A read of DBG_MEM_DATA: 256 bytes, and DBG_MEM_STATUS. (DEDUCED, log 108) -/
def dbgRead (s : State) : List Byte × State :=
  let s := if dbgIsDevice s then s else readEntry (dbgCtx s) s
  let r := (List.range 8).foldl (fun (acc : Nat × List Byte × State) k =>
    let x := dbgReadBurst k acc.2.2
    (acc.1 + x.1 * 4 ^ k, acc.2.1 ++ x.2.1, x.2.2)) (0, [], s)
  (r.2.1, { r.2.2 with dbgStatus := BitVec.ofNat 16 r.1 })

/-- A burst may be written by a debugger: a mapping that is present and grants WRITE, or granted scratchpad. -/
def dbgWritable (s : State) (k : Nat) : Bool :=
  let a := bits (reg s 0x6020 1) 47 0 + 32 * k
  ctxState s (dbgCtx s) != 0 &&
    match xlat s (dbgCtx s) true a with
    | .dev _ => true
    | _ => false

/-- A write of DBG_MEM_DATA: whole or nothing. (DEDUCED, log 108) -/
def dbgWriteW (data : List Byte) (s : State) : Nat × State :=
  let a := bits (reg s 0x6020 1) 47 0
  let c := dbgCtx s
  let s := if dbgIsDevice s then s else readEntry c s
  if dbgIsDevice s then (0x15, s)
  else if !((List.range 8).all fun k => dbgWritable s k) then (0x1A, s)
  else if ctxState s c ≠ 2 ∧ anyRunning s c = true then (0x16, s)
  else
    (0, (List.range 8).foldl (fun s k =>
      unitWrite .write false false ((unitPieces s c true (a + 32 * k) 32).getD []) ((data.drop (32 * k)).take 32) (unitUse c (a + 32 * k) 32 s)) s)

/-! ## Envelopes (R432) -/

/-- DBG_MB_ENVELOPE: the envelope that DBG_MB_SELECT names, as it stands. -/
def dbgEnvelope (s : State) : Nat :=
  let v := reg s 0x6020 4
  let x := core s (bits v 22 16)
  let box := bits v 12 8
  let pos := bits v 5 0
  if box < 16 then ((x.mailboxes.getD box {}).queue.getD pos 0).toNat
  else ((tget none (x.offices.getD (box - 16) {}).slots pos).getD 0).toNat

end Sys2Proof.Machine
end

