-- ==== Sys2Proof/Machine/ModTable.lean ====
section
/-! DEFINITION. The modulus table's loader and the chain slots (R41-R49). -/

namespace Sys2Proof.Machine

/-! ## Entry checks (R44) -/

/-- Residue j of granule g of an entry. -/
def entryResidue (w g j : Nat) : Nat := bits w (2304 * g + 36 * j + 35) (2304 * g + 36 * j)

/-- The powers root^(step·i), i = 0 … n − 1, stand in a granule from residue `first`. -/
def rootsOk (w q root step g first n : Nat) : Bool :=
  (List.range n).all fun i => entryResidue w g (first + i) == powMod root (step * i) q

/-- ENTRY_CHECK: CRC-32C over bits 255:0 and granules 1 to 5 (Table 2.8). -/
def entryCheckOk (w : Nat) : Bool :=
  bits w 287 256 == crc32c (toLe 32 w ++ toLe 1440 (w >>> 2304))

/-- Every check of R44 on one entry of an image. -/
def tableEntryOk (w : Nat) : Bool :=
  let p := primeOf w
  decide (2 ^ 35 < p.q ∧ p.q < 2 ^ 36) && p.q % 2 ^ 17 == 1 && p.mu == 2 ^ 72 / p.q
    && powMod p.psi (2 ^ 16) p.q == p.q - 1 && p.psi * p.psiInv % p.q == 1
    && rootsOk w p.q p.psi 2048 1 0 64 && rootsOk w p.q p.psi 32 2 0 64 && rootsOk w p.q p.psi 1 3 0 32
    && rootsOk w p.q p.psiInv 1 3 32 32 && rootsOk w p.q p.psiInv 2048 4 0 64 && rootsOk w p.q p.psiInv 32 5 0 64
    && entryCheckOk w
    && bits w 2303 288 == 0 && bits w 255 228 == 0 && bits w 191 164 == 0 && bits w 127 101 == 0 && bits w 63 36 == 0

/-! ## Pins (R45) -/

/-- Postcodes that a slot's descriptor names, in position order. -/
def chPostcodes (s : State) (k : Nat) : List Nat := (List.range (chD s k + chK s k)).map fun i => chPost s k i

/-- A postcode is pinned: a slot that is not EMPTY names it. -/
def mtPinned (s : State) (p : Nat) : Bool :=
  (List.range 16).any fun k => (chain s k).state ≠ .empty && (chPostcodes s k).contains p

/-! ## Loads and evicts (R45, R46) -/

/-- The end of a load or evict: MT_RESULT is set and MT_DONE moves (Table 2.10). -/
def mtFinish (code p : Nat) (s : State) : State :=
  bumpE 0x3100 4 { s with tableJob := none, mtResult := BitVec.ofNat 16 (code * 256 + p) }

/-- A write to MT_LOAD or MT_EVICT: its value, then an operation under way, then the range (R46). The place of the image is taken with
the write: a later write of MT_IMAGE does not reach a load under way. (DEDUCED, log 136) -/
def mtCommandW (evict : Bool) (v : Nat) (s : State) : Nat × State :=
  let n := bits v 14 8
  let p := bits v 6 0
  if bit v 15 || bit v 7 || decide (95 < p) || n == 0 || decide (96 < n) then (0x1A, s)
  else if s.tableJob.isSome then (0x16, s)
  else if 96 < p + n then (0, mtFinish 1 p s)
  else (0, { s with tableJob := some { evict := evict, first := p, count := n, image := BitVec.ofNat 64 (reg s 0x3100 1) } })

/-- How the reading of an image stands. -/
inductive ImageRead where
  | whole
  | bad (code postcode : Nat)
  | absent (page : Nat)
  deriving DecidableEq, Repr

/-- The next entry of an image (R46): taken as it is read, or its first failure in the order of R46, or a page that is waited for
(R300). -/
def mtReadEntry (ctx a p : Nat) (failed : Option (Nat × Nat)) (s : State) : (Nat ⊕ ImageRead) × State :=
  match unitPieces s ctx false a 1728 with
  | some ps =>
    let r := unitRead .read true ps (unitUse ctx a 1728 s)
    let w := ofLe r.1
    (if r.2.1 then .inr (.bad 5 p) else if tableEntryOk w then .inl w else .inr (.bad 3 p), r.2.2)
  | none =>
    match unitFault s ctx false a 1728 with
    | some (.absent q) => (.inr (if failed.any (fun f => f.1 == q) then .bad 4 p else .absent q), s)
    | _ => (.inr (.bad 4 p), s)

/-- Read the entries of an image that a load has not taken yet, in ascending order (R45). -/
def mtRead (ctx a p : Nat) (failed : Option (Nat × Nat)) : Nat → State → ImageRead × State
  | 0, s => (.whole, s)
  | n + 1, s =>
    match mtReadEntry ctx a p failed s with
    | (.inl w, s) =>
      mtRead ctx (a + 1728) (p + 1) failed n
        { s with tableJob := s.tableJob.map fun j => { j with taken := j.taken ++ [BitVec.ofNat 13824 w] } }
    | (.inr x, s) => (x, s)

/-- Put entries into consecutive postcodes and mark them occupied. -/
def mtStore : Nat → List (BitVec 13824) → State → State
  | _, [], s => s
  | p, w :: r, s =>
    mtStore (p + 1) r { s with modTable := tset s.modTable p w, occupied := nins s.occupied p }

/-- Clear consecutive postcodes. -/
def mtClear : Nat → Nat → State → State
  | _, 0, s => s
  | p, n + 1, s => mtClear (p + 1) n { s with modTable := terase s.modTable p, occupied := ndel s.occupied p }

/-- Target postcodes of a job that are pinned. -/
def mtPinnedTargets (s : State) (j : TableJob) : List Nat :=
  ((List.range j.count).map fun i => j.first + i).filter fun p => mtPinned s p

/-- The end step of a load: the image is read to its end or its first failure, then all or nothing (R45). A page of the image that is
absent is waited for. -/
def mtLoadEnd (s : State) : State :=
  match s.tableJob with
  | some j =>
    if j.evict then s
    else
      let w := j.image.toNat
      let k := j.taken.length
      match mtRead (bits w 59 48) (bits w 47 0 + 1728 * k) (j.first + k) j.failed (j.count - k) s with
      | (.absent q, t) => noteMiss (bits w 59 48) q false t
      | (x, t) =>
        match mtPinnedTargets t j with
        | p :: _ => mtFinish 2 p t
        | [] =>
          match x with
          | .bad code p => mtFinish code p t
          | _ => mtFinish 0 j.first (mtStore j.first ((t.tableJob.map fun j => j.taken).getD []) t)
  | none => s

/-- The end step of an evict. -/
def mtEvictEnd (s : State) : State :=
  match s.tableJob with
  | some j =>
    if j.evict then
      match mtPinnedTargets s j with
      | p :: _ => mtFinish 2 p s
      | [] => mtFinish 0 j.first (mtClear j.first j.count s)
    else s
  | none => s

/-! ## Chain slots (R41, R42, R47-R49) -/

/-- A PSET that Table 2.6 does not reserve. -/
def psetOk (v : Nat) : Bool := v == 1 || v == 2 || v == 0x10 || decide (0x80 ≤ v)

/-- A gate chain: N = 2,048, D = 2, K = 0 (R42). -/
def gateChain (s : State) (k : Nat) : Bool := chLog2N s k == 11 && chD s k == 2 && chK s k == 0

/-- The limits of R41. -/
def chainLimits (s : State) (k : Nat) : Bool :=
  decide (11 ≤ chLog2N s k ∧ chLog2N s k ≤ 16) && decide (1 ≤ chD s k) && decide (chD s k + chK s k ≤ 64)
    && decide (1 ≤ chDigits s k ∧ chDigits s k ≤ 8) && (chK s k == 0 || decide (cdiv (chD s k) (chDigits s k) ≤ chK s k))

/-- The checks of ACTIVATE (R48). -/
def activateOk (s : State) (k : Nat) : Bool :=
  let ps := chPostcodes s k
  psetOk (chPset s k) && chainLimits s k
    && ps.all (fun p => if gateChain s k then decide (80 ≤ p ∧ p ≤ 95) else decide (p ≤ 79))
    && ps.all (fun p => nmem s.occupied p) && ps.Nodup

/-- Default costs of a set, COST_ADD to COST_AUTO (Table 5.2); a set of the host's own costs nothing (R107). -/
def defaultCosts (pset : Nat) : List Nat :=
  if pset = 1 then [0, 8, 16, 32, 112, 16]
  else if pset = 2 then [0, 8, 16, 32, 96, 16]
  else [0, 0, 0, 0, 0, 0]

/-- Load the cost entries of a slot. -/
def loadCosts (k : Nat) (s : State) : State :=
  (List.range 6).foldl (fun s i => setReg (0x3120 + k) (i + 1) ((defaultCosts (chPset s k)).getD i 0) s) s

/-- CH_COMMAND: ACTIVATE and DRAIN (R48, R49). -/
def chainCommandW (k v : Nat) (s : State) : Nat × State :=
  let st := (chain s k).state
  if v = 1 then
    if st ≠ .empty then (0x16, s)
    else if activateOk s k then (0, loadCosts k (setChain k (fun x => { x with state := .activating }) s))
    else (0x1A, s)
  else if v = 2 then
    match st with
    | .active => (0, setChain k (fun x => { x with state := .draining }) s)
    | .activating => (0x16, s)
    | _ => (0, s)
  else (0x1A, s)

/-- CH_FP of a slot: CRC-32C of the moduli, 8 little-endian bytes each, in position order (R48). -/
def chainFp (s : State) (k : Nat) : Nat :=
  crc32c ((List.range (chD s k + chK s k)).flatMap fun i => toLe 8 (chQ s k i))

/-- The fingerprint is computed and the slot becomes ACTIVE (R48). -/
def activateDone (k : Nat) (s : State) : State :=
  if (chain s k).state = .activating then
    setChain k (fun x => { x with state := .active, fp := BitVec.ofNat 32 (chainFp s k) }) s
  else s

/-- A DRAINING slot with nothing in flight becomes EMPTY (R49). -/
def drainComplete (k : Nat) (s : State) : State :=
  if (chain s k).state = .draining && (chain s k).inflight == 0 then
    bumpE (0x3110 + k) 9 (setChain k (fun x => { x with state := .empty }) s)
  else s

/-- CH_STATE codes (Table 2.11). -/
def chainCode : ChainState → Nat
  | .empty => 0
  | .active => 1
  | .draining => 2
  | .activating => 3

/-- A write of a descriptor field: its value, then the slot's state (R47, Table 2.11). -/
def chainFieldW (k sub v : Nat) (s : State) : Nat × State :=
  let ok :=
    if sub = 3 then psetOk v
    else if sub = 4 then decide (11 ≤ v ∧ v ≤ 16)
    else if sub = 7 then decide (1 ≤ v ∧ v ≤ 8)
    else if sub < 0x10 then true
    else decide (v < 96)
  if !ok then (0x1A, s)
  else if (chain s k).state ≠ .empty then (0x16, s)
  else (0, setReg (0x3110 + k) sub v s)

end Sys2Proof.Machine
end

