-- ==== Sys2Proof/Machine/Dictionary.lean ====
section
/-! DEFINITION. The Wenius dictionary: what every entry reads, what a write of it does, and the order of refusals (chapter 17). -/

namespace Sys2Proof.Machine

/-! ## Event counters and attention (R367, R369) -/

/-- Keys of pending counters, ascending. -/
def pendingKeys (s : State) : List Nat := (s.counts.filter fun e => pendingCounter s e.1).foldl (fun l e => nins l e.1) []

/-- ATTN_COUNT. -/
def attnCount (s : State) : Nat := (pendingKeys s).length

/-- ATTN_NEXT: the lowest pending counter above ATTN_AFTER. -/
def attnNext (s : State) : Nat :=
  match (pendingKeys s).find? fun k => decide (reg s 0x1100 2 < k) with
  | some k => 2 ^ 31 + k
  | none => 0

/-- An acknowledgement (R367). -/
def ackW (index sub v : Nat) (s : State) : Nat × State :=
  let k := ekey index sub
  let a := ackedValue s k
  if (v + 2 ^ 32 - a) % 2 ^ 32 ≤ (count s k + 2 ^ 32 - a) % 2 ^ 32 then (0, { s with acked := tset s.acked k v }) else (0x1A, s)

/-! ## The unlock key (R370) -/

/-- An unlocked path locks: LOCK_NONCE moves. -/
def lockPath (p : Path) (s : State) : State :=
  if (pathState s p).unlocked then { setPath p (fun x => { x with unlocked := false }) s with lockNonce := s.lockNonce + 1 } else s

/-- A write of UNLOCK: it always completes. -/
def unlockW (p : Path) (v : Nat) (s : State) : Nat × State :=
  if v = 0xB01A_0000 + s.lockNonce.toNat then (0, setPath p (fun x => { x with unlocked := true }) s)
  else
    (0, bumpE 0x1000 0x12 { setPath p (fun x => { x with unlocked := false }) s with lockNonce := s.lockNonce + 1 })

/-- UNLOCK_EXPIRY. (DESIGN CHOICE, log 4) -/
def unlockExpiry (p : Path) (s : State) : State := lockPath p s

/-! ## What entries read -/

/-- The stream that CP_SELECT of a core names, and its context. -/
def selectedStream (s : State) (c : Nat) : Nat × Stream :=
  let ctx := bits (reg s (0x3680 + c) 1) 11 0
  (ctx, stream s ctx c)

/-- Entries of Table 10.11. -/
def cpView (s : State) (c sub : Nat) : Nat :=
  let (ctx, t) := selectedStream s c
  match sub with
  | 2 => modeCode t.mode
  | 3 => t.next.toNat * 2 ^ 32 + t.retired.toNat
  | 4 => t.head.toNat
  | 5 => packFields [(56, 8, t.haltReason.toNat), (40, 16, t.haltOldGen.toNat), (24, 16, t.haltNewGen.toNat), (0, 24, t.haltBlock.toNat)]
  | 6 => t.haltPm.toNat
  | 9 => (core s c).reloadState.toNat
  | _ =>
    match blockOf (core s c) ctx (t.next.toNat / 256) with
    | some k => ((core s c).imem.getD k {}).gen.toNat
    | none => 0

/-- The seal that SEAL_DBG_SELECT names. -/
def dbgSeal (s : State) : Option Nat := sealOf s (bits (reg s 0x3700 8) 27 16) (bits (reg s 0x3700 8) 15 0)

/-- SEAL_DBG_INFO. -/
def sealInfo (s : State) : Nat :=
  match dbgSeal s with
  | some p => packFields [(32, 12, p), (24, 8, (sealAt s p).gen.toNat), (16, 8, sealSlots s p), (0, 16, sealWaiters s p)]
  | none => 0

/-- SO_STATE. -/
def officeState (x : Core) : Nat :=
  ((List.range 4).map fun o =>
    let f := x.offices.getD o {}
    (b2n f.owner.isSome * 128 + (officeHeld f).length % 128) * 256 ^ o).sum

/-- MB_INFO of the selected mailbox. -/
def mbInfo (s : State) (c : Nat) : Nat :=
  let m := (core s c).mailboxes.getD (reg s (0x3780 + c) 2) {}
  packFields [(16, 12, m.owner.getD 0), (8, 7, m.queue.length), (0, 7, m.reserved)]

/-- The stream of the context that CP_SELECT names is stalled on a core (R260). -/
def stallShown (s : State) (c : Nat) : Bool :=
  let x := core s c
  x.stalled && envCtx x.stallEnv.toNat == (selectedStream s c).1

/-- SEND_STALL. (DEDUCED, log 72) -/
def sendStall (s : State) (c : Nat) : Nat :=
  let x := core s c
  if stallShown s c then 2 ^ 63 + bits x.stallEnv.toNat 51 25 * 2 ^ 32 + min (s.time - x.stallStart) 0xFFFF_FFFF else 0

/-- Entries of Table 11.9. -/
def msgView (s : State) (c sub : Nat) : Nat :=
  let x := core s c
  match sub with
  | 1 => ((List.range 16).map fun b => if (x.mailboxes.getD b {}).owner.isSome then 2 ^ b else 0).sum
  | 3 => mbInfo s c
  | 4 => sendStall s c
  | 5 => if stallShown s c then envPm x.stallEnv.toNat else 0
  | 6 => x.pool
  | _ => officeState x

/-- RETIRE_ENTRY of the selected list entry. -/
def retireEntry (s : State) (k : Nat) : Nat :=
  match (stack s k).retired[reg s (0x3840 + k) 6]? with
  | some f => f * 2 ^ 21 + b2n (nmem (stack s k).pending f) * 2 ^ 63
  | none => 0

/-- Entries of Table 12.11: a stack whose retired list is full reads DEGRADED (R285); what makes one FAILED the spec does not say.
(DESIGN CHOICE, log 139) -/
def stackView (s : State) (k sub : Nat) : Nat :=
  let x := stack s k
  match sub with
  | 1 => if x.state = 0 ∧ 64 ≤ x.retired.length then 2 else x.state.toNat
  | 2 => Config.sensor (16 + k) s.time
  | 5 => x.retired.length
  | 7 => retireEntry s k
  | 0xA => x.tgResult.toNat
  | 0xB => x.tgFail.toNat
  | _ => x.hotRow.toNat

/-- Bits lo to lo + n − 1 of a set as a word. -/
def setWord (t : Nat → Bool) (lo n : Nat) : Nat := ((List.range n).map fun i => if t (lo + i) then 2 ^ i else 0).sum

/-- Entries 0x3100 and 0x3110. -/
def tableView (s : State) (index sub : Nat) : Nat :=
  if index = 0x3100 then
    match sub with
    | 5 => s.mtResult.toNat
    | 6 => setWord (fun p => nmem s.occupied p) 0 64
    | 7 => setWord (fun p => nmem s.occupied p) 64 32
    | 8 => setWord (fun p => mtPinned s p) 0 64
    | _ => setWord (fun p => mtPinned s p) 64 32
  else
    let x := chain s (index - 0x3110)
    match sub with
    | 1 => chainCode x.state
    | 8 => x.fp.toNat
    | _ => x.inflight

/-- Entries 0x3210 (Table 4.10). -/
def engView (s : State) (r sub : Nat) : Nat :=
  let e := engine s r
  match sub with
  | 1 => engState s r
  | 2 => engStream s r
  | 3 => engHeld e
  | 4 => e.parcels.toNat
  | 5 => e.bytes.toNat
  | _ => engNext s r

/-- Entries 0x3900 (Table 13.7). -/
def schedView (s : State) (sub : Nat) : Nat :=
  match sub with
  | 1 => ctxOpen s
  | 2 => (residents s).length
  | 0xB => framesFree s
  | _ => total s 0x3900 sub

/-- Entries 0x3A00 and 0x3B00 to 0x3B11. -/
def portView (s : State) (index sub : Nat) : Nat :=
  if index = 0x3A00 then (if sub = 4 then s.updNext.toNat else total s index sub)
  else if index = 0x3B00 then (if sub = 2 then semState s else resultsFree s)
  else
    let e := eth s (index - 0x3B10)
    if sub = 2 then e.state.toNat else macsecState e

/-- Entries 0x3C00 to 0x3C27 (Tables 16.5, 16.6). -/
def linkView (s : State) (index sub : Nat) : Nat :=
  if index = 0x3C00 then
    match sub with
    | 1 => roleOf s + b2n s.hier.conflict * 128
    | 2 => identityOf s
    | 5 => s.hier.state.toNat
    | _ => peersUp s
  else
    let l := link s (index - 0x3C10)
    match sub with
    | 1 => l.state.toNat
    | 2 => linkPeer l
    | 6 => l.txBytes.toNat
    | _ => l.rxBytes.toNat

/-- Entries 0x1000 and 0x1100 (Table 17.10). (DEDUCED, log 79) -/
def identView (s : State) (index sub : Nat) : Nat :=
  if index = 0x1000 then
    match sub with
    | 1 => Config.vendor.toNat
    | 3 => s.fuses.stepping.toNat
    | 4 => s.fuses.serial.toNat
    | 5 => s.island.fwVersion.toNat
    | 6 => 0x0100
    | 0x11 => s.lockNonce.toNat
    | _ => total s 0x1000 0x16
  else if sub = 1 then attnCount s
  else attnNext s

/-- Entries 0x4000 to 0x4203 (Table 18.10). -/
def islandView (s : State) (index sub : Nat) : Nat :=
  let i := s.island
  match index, sub with
  | 0x4000, 1 => i.state.toNat
  | 0x4000, 2 => i.bootStatus.toNat
  | 0x4000, 3 => fuseSvn s
  | 0x4000, 4 => s.fuses.revoke.toNat
  | 0x4010, 2 => i.fwReason.toNat * 256 + i.fwState.toNat
  | 0x4010, 5 => i.fwVersionStaged.toNat
  | 0x4020, 2 => slotInfo (keySlot s (reg s 0x4020 1))
  | 0x4020, _ => slotsFree s
  | 0x4030, 2 => bnJobs s
  | 0x4030, _ => i.bnBusy.toNat
  | _, 6 => (s.paths.getD (index - 0x4200) {}).kexState.toNat
  | _, _ => (s.paths.getD (index - 0x4200) {}).attest.toNat

/-- Entries 0x5000 to 0x50FF (Tables 19.9, 19.10). -/
def powerView (s : State) (index sub : Nat) : Nat :=
  let p := s.power
  if index = 0x5000 then
    match sub with
    | 1 => pwrState s
    | 6 => b2n p.latched
    | 8 => p.input.toNat
    | 9 => p.vin.toNat
    | 0xA => (die s 1).throttle * 256 + (die s 0).throttle
    | 0xC => (die s 0).temp.toNat
    | 0xD => (die s 1).temp.toNat
    | 0xE => p.plate.toNat
    | 0x11 => p.resetCause.toNat
    | 0x12 => p.pll.toNat
    | _ => p.straps.toNat
  else
    let c := index - 0x5080
    if sub = 2 then (core s c).clkState.toNat else 400 + (Config.fioTrim c).val

/-- Entries 0x6000 to 0x6030 (Table 20.8). -/
def debugView (s : State) (index sub : Nat) : Nat :=
  if index = 0x6000 then s.flogSeq % 2 ^ 32
  else if index = 0x6010 then (die s (sub - 7)).time.toNat
  else s.dbgStatus.toNat

/-- What a RO entry of at most 8 bytes reads. -/
def roValue (s : State) (index sub : Nat) : Nat :=
  match index / 256 with
  | 0x10 => identView s index sub
  | 0x11 => identView s index sub
  | 0x31 => tableView s index sub
  | 0x32 => engView s (index - 0x3210) sub
  | 0x36 => cpView s (index - 0x3680) sub
  | 0x37 => if index = 0x3700 then (match sub with
      | 7 => sealsFree s
      | 9 => (match dbgSeal s with
        | some p => (sealAt s p).count.toNat
        | none => 0)
      | _ => sealInfo s) else msgView s (index - 0x3780) sub
  | 0x38 =>
    if index = 0x3800 then (if sub = 6 then (s.hbm.map fun k => k.pending.length).sum else total s index sub)
    else if index < 0x3880 then stackView s (index - 0x3840) sub
    else if sub = 3 then tornLines s (index - 0x3880)
    else (core s (index - 0x3880)).scrubPasses.toNat
  | 0x39 => if index = 0x3910 then ctxEntryWord s (reg s 0x3900 0xC) >>> (64 * (sub - 1)) else schedView s sub
  | 0x3A => portView s index sub
  | 0x3B => portView s index sub
  | 0x3C => linkView s index sub
  | 0x40 => islandView s index sub
  | 0x42 => islandView s index sub
  | 0x50 => powerView s index sub
  | 0x60 => debugView s index sub
  | _ => total s index sub

/-- PART_NUMBER: "EVN-Z128", zero-padded. -/
def partNumber : List Byte := [0x45, 0x56, 0x4E, 0x2D, 0x5A, 0x31, 0x32, 0x38, 0, 0, 0, 0, 0, 0, 0, 0]

/-- A byte string brought to a length. -/
def fixLen (n : Nat) (bs : List Byte) : List Byte := bs.take n ++ List.replicate (n - bs.length) 0

/-- What an OCTETS entry reads; a read of DBG_MEM_DATA or FLOG_RECORD is a read of memory. -/
def octetsValue (index sub : Nat) (s : State) : List Byte × State :=
  match index, sub with
  | 0x1000, _ => (partNumber, s)
  | 0x4000, 5 => (s.flash.identity, s)
  | 0x4000, 6 => (s.flash.ownerHash, s)
  | 0x4000, _ => (s.flash.sessHash, s)
  | 0x6000, _ => flogRecord s
  | 0x6020, 2 => dbgRead s
  | 0x6020, _ => (toLe 32 (dbgEnvelope s), s)
  | _, 8 => ((s.paths.getD (index - 0x4200) {}).report, s)
  | _, _ => (((s.paths.getD (index - 0x4200) {}).kexBuf.drop (1024 * (sub - 1))).take 1024, s)

/-- ARRAY_BUSY and VEC_BUSY count ACLK cycles of work, which the model does not time: each reading finds them advanced by a free number
of cycles (Tables 6.9, 8.5). (DESIGN CHOICE, log 141) -/
def busyCycles (index sub : Nat) (s : State) : State :=
  if (index = 0x3300 ∨ index = 0x3400) ∧ sub = 4 then addTotal index sub (draw s).1 (draw s).2 else s

/-- The value of an entry, in address order and little-endian (R359). -/
def entryValue (e : Entry) (index sub : Nat) (s : State) : List Byte × State :=
  let n := e.type.bytes
  match e.access, e.type with
  | .wo, _ => (List.replicate n 0, s)
  | _, .octets _ =>
    let r := octetsValue index sub s
    (fixLen n r.1, r.2)
  | .ack, _ => (toLe n (count s (ekey index sub)), s)
  | .ro, _ => (toLe n (roValue (busyCycles index sub s) index sub), busyCycles index sub s)
  | _, _ => (toLe n (if index = 0x4000 then s.fuses.revoke.toNat else reg s index sub), s)

/-! ## Values that an entry admits (R9, R365 step 6) -/

/-- A context and an address of an alignment, with no other bit. -/
def ctxAddr (align v : Nat) : Bool := bits v 63 60 == 0 && bits v 47 0 % align == 0

/-- A ring: RING_LOG2 in a range, an aligned base, no other bit. -/
def ringOk (lo hi align v : Nat) : Bool :=
  bits v 63 53 == 0 && decide (lo ≤ bits v 52 48 ∧ bits v 52 48 ≤ hi) && bits v 47 0 % align == 0

/-- A value in a range. -/
def inRange (lo hi v : Nat) : Bool := decide (lo ≤ v ∧ v ≤ hi)

/-- Key slots 0x00 to 0xEF, or 0xFF for none (R390). -/
def keyField (v : Nat) : Bool := decide (v < 0xF0) || v == 0xFF

/-- A number and a first postcode (Table 2.9). -/
def mtRangeOk (v : Nat) : Bool :=
  bit v 15 == false && bit v 7 == false && inRange 1 96 (bits v 14 8) && inRange 0 95 (bits v 6 0)

/-- BW_SPLIT: no weight of 0, and a sum of 20 (R277). -/
def splitOk (v : Nat) : Bool :=
  bit v 15 == false && inRange 1 20 (bits v 4 0) && inRange 1 20 (bits v 9 5) && inRange 1 20 (bits v 14 10) &&
    bits v 4 0 + bits v 9 5 + bits v 14 10 == 20

/-- Values of entries 0x1000 to 0x3680. -/
def valueLow (index sub v : Nat) : Bool :=
  match index, sub with
  | 0x1100, 2 => inRange 0 0xFF_FFFF v
  | 0x1100, 4 => inRange 1 60000 v
  | 0x1100, 5 => inRange 10 1000000 v
  | 0x1100, 6 => inRange 0 1 v
  | 0x3100, 1 => ctxAddr 32 v
  | 0x3100, _ => mtRangeOk v
  | 0x3600, 1 => inRange 2 8 v
  | _, _ =>
    if index / 16 = 0x111 then (match sub with
      | 1 => inRange 0 3 v
      | 2 => decide (v < 2 ^ 48)
      | 7 => keyField v
      | _ => true)
    else if index / 16 = 0x311 then (match sub with
      | 2 => inRange 1 2 v
      | 3 => psetOk v
      | 4 => inRange 11 16 v
      | 5 => true
      | 6 => true
      | 7 => inRange 1 8 v
      | _ => inRange 0 95 v)
    else if 0x3680 ≤ index ∧ index < 0x3700 then (match sub with
      | 1 => inRange 0 0xFFF v
      | 7 => inRange 1 3 v
      | _ => bits v 63 60 == 0 && bits v 47 41 == 0 && bits v 39 24 == 0)
    else true

/-- Values of entries 0x3700 to 0x3C27. -/
def valueMid (index sub v : Nat) : Bool :=
  match index, sub with
  | 0x3700, 8 => decide (v < 2 ^ 28)
  | 0x3800, 1 => splitOk v
  | 0x3800, 2 => inRange 0 12 (bits v 3 0) && inRange 0 12 (bits v 7 4)
  | 0x3810, _ => inRange 0 2 v
  | 0x3900, 4 => inRange 0 15 v
  | 0x3900, 5 => inRange 0 7 v
  | 0x3900, 0xC => inRange 0 0xFFF v
  | 0x3A00, 1 => bits v 30 28 == 0
  | 0x3A00, 2 => ringOk 2 12 128 v
  | 0x3B00, 1 => inRange 1 3 v
  | 0x3B00, 3 => inRange 100 60000 v
  | 0x3B00, 4 => v == 1
  | 0x3C00, 3 => inRange 0 2 v
  | 0x3C00, 4 => decide (v < 2 ^ 33)
  | 0x3C00, 6 => inRange 1 64 v
  | _, _ =>
    if 0x3780 ≤ index ∧ index < 0x3800 then inRange 0 15 v
    else if 0x3840 ≤ index ∧ index < 0x3848 then (match sub with
      | 8 => tgOk v
      | 9 => inRange 0 2 (bits v 7 4) && inRange 0 5 (bits v 3 0)
      | _ => true)
    else if index / 16 = 0x3B1 then (match sub with
      | 1 => inRange 0 2 v
      | 3 => decide (v < 2 ^ 48)
      | 7 => inRange 0 1 v
      | 9 => ctxAddr 128 v
      | _ => true)
    else if 0x3C10 ≤ index ∧ index < 0x3C28 then inRange 1 2 v
    else true

/-- Values of entries 0x4000 to 0x6030. -/
def valueHigh (index sub v : Nat) : Bool :=
  match index, sub with
  | 0x4000, 4 => inRange 0 15 v
  | 0x4010, 1 => ctxAddr 4096 v
  | 0x4010, _ => v == 1
  | 0x4020, _ => decide (v < 0xF0)
  | 0x4030, _ => ctxAddr 64 v
  | 0x5000, 2 => inRange 0 3 v
  | 0x5000, 4 => inRange 0 3 v
  | 0x5000, 7 => inRange 600 1800 v
  | 0x5000, 0x10 => inRange 1 2 v
  | 0x5001, _ => inRange 0 1 v
  | 0x6010, 1 => bits v 30 28 == 0
  | 0x6010, 2 => ringOk 8 24 4096 v
  | 0x6010, 3 => bit v 0 == false
  | 0x6010, 4 => inRange 0 1 v
  | 0x6010, 5 => inRange 10 1000000 v
  | 0x6020, 1 => bits v 62 60 == 0 && bits v 47 0 % 32 == 0
  | 0x6020, 4 => bits v 31 23 == 0 && bits v 15 13 == 0 && bits v 7 6 == 0 && inRange 0 19 (bits v 12 8)
  | 0x6030, 1 => inRange 1 15 v
  | 0x6030, 2 => inRange 1 65535 v
  | 0x6030, 3 => inRange 60 31536000 v
  | _, _ =>
    if 0x4200 ≤ index ∧ index < 0x4204 ∧ sub = 5 then v == 1
    else if 0x5080 ≤ index ∧ index < 0x5100 then inRange 0 1 v
    else true

/-- The value by itself is admitted. -/
def valueOk (index sub v : Nat) : Bool :=
  if index < 0x3700 then valueLow index sub v else if index < 0x4000 then valueMid index sub v else valueHigh index sub v

/-! ## Writes that meet a rule of the entry's unit (R360, R365 step 7) -/

/-- A plain setting. (DEDUCED, log 106) -/
def settingW (index sub v : Nat) (s : State) : Nat × State := (0, setReg index sub v s)

/-- A setting that only the semaphore's holder or the sideband may write (R340, R358, Table 17.10). -/
def heldSettingW (p : Path) (index sub v : Nat) (s : State) : Nat × State :=
  if holderOrSideband s p then settingW index sub v s else (0x16, s)

/-- A write gated by the semaphore's holder or the sideband. -/
def heldW (p : Path) (f : State → Nat × State) (s : State) : Nat × State :=
  if holderOrSideband s p then f s else (0x16, s)

/-- LINK_COMMAND. -/
def linkCommandW (port v : Nat) (s : State) : Nat × State := (0, if v = 1 then linkTrainW port s else linkDownW port s)

/-- Entries of a port (Table 15.10): MACSEC_SAK_LOAD may also come through the port itself. -/
def ethEntryW (p : Path) (port sub v : Nat) (s : State) : Nat × State :=
  if sub = 9 then (if holderOrSideband s p || portOf p == some port then macsecLoadW port v s else (0x16, s))
  else heldW p (fun s => if sub = 1 then ethSpeedW port v s else settingW (0x3B10 + port) sub v s) s

/-- Settings that may not change while their unit works. -/
def idleSettingW (busy : Bool) (index sub v : Nat) (s : State) : Nat × State :=
  if busy then (0x16, s) else settingW index sub v s

/-- KEX_BUF: not while the exchange runs (R392). -/
def kexBufW (p : Path) (k : Nat) (bs : List Byte) (s : State) : Nat × State :=
  if (pathState s p).kexState.toNat % 256 = 1 then (0x16, s)
  else (0, setPath p (fun x => { x with kexBuf := x.kexBuf.take (1024 * k) ++ bs ++ x.kexBuf.drop (1024 * k + 1024) }) s)

/-- OCTETS entries. OWNER_HASH is the sideband's alone. (DEDUCED, log 109) -/
def octetsW (p : Path) (index sub : Nat) (bs : List Byte) (s : State) : Nat × State :=
  match index, sub with
  | 0x4000, 6 => if p = .sideband then (0, { s with flash := { s.flash with ownerHash := bs } }) else (0x16, s)
  | 0x4000, _ => (0, { s with flash := { s.flash with sessHash := bs } })
  | 0x6020, _ => dbgWriteW bs s
  | _, 7 => attestNonceW p bs s
  | _, _ => kexBufW p (sub - 1) bs s

/-- Scalar entries 0x1000 to 0x37FF. -/
def unitLowW (p : Path) (index sub v : Nat) (s : State) : Nat × State :=
  match index, sub with
  | 0x1000, _ => heldSettingW p index sub v s
  | 0x3100, 2 => mtCommandW false v s
  | 0x3100, 3 => mtCommandW true v s
  | 0x3700, 0xA => sealDbgSet p v s
  | _, _ =>
    if index / 16 = 0x311 then (if sub = 2 then chainCommandW (index - 0x3110) v s else chainFieldW (index - 0x3110) sub v s)
    else if 0x3680 ≤ index ∧ index < 0x3700 then (match sub with
      | 7 => cpCommandW (index - 0x3680) v s
      | 8 => imemReloadW (index - 0x3680) v s
      | _ => settingW index sub v s)
    else settingW index sub v s

/-- Scalar entries 0x3800 to 0x3C27. -/
def unitMidW (p : Path) (index sub v : Nat) (s : State) : Nat × State :=
  match index, sub with
  | 0x3800, 1 => bwSplitW p v s
  | 0x3800, _ => pinWaysW v s
  | 0x3810, _ => spreadW (sub - 1) v s
  | 0x3A00, 1 => idleSettingW (updBusy s) index sub v s
  | 0x3A00, 2 => idleSettingW (updBusy s) index sub v s
  | 0x3A00, 3 => updHeadW v s
  | 0x3B00, 1 => semRequestW p v s
  | 0x3B00, 4 => semBreakW p v s
  | 0x3C00, 3 => heldW p (spareModeW v) s
  | 0x3C00, 4 => heldW p (fun s => (0, hierParentW v s)) s
  | _, _ =>
    if 0x3840 ≤ index ∧ index < 0x3848 ∧ sub = 8 then tgControlW (index - 0x3840) v s
    else if index / 16 = 0x3B1 then ethEntryW p (index - 0x3B10) sub v s
    else if 0x3C10 ≤ index then heldW p (linkCommandW (index - 0x3C10) v) s
    else settingW index sub v s

/-- Scalar entries 0x4000 to 0x6030. (DEDUCED, log 109) -/
def unitHighW (p : Path) (index sub v : Nat) (s : State) : Nat × State :=
  match index, sub with
  | 0x4000, _ => rootRevokeW p v s
  | 0x4010, 1 => fwStageW p v s
  | 0x4010, 3 => fwActivateW p v s
  | 0x4010, _ => fwSvnCommitW p v s
  | 0x4020, 3 => slotEraseW v s
  | 0x4030, _ => bnJobW v s
  | 0x5000, 2 => pwrStateReqW p v s
  | 0x5000, 0x10 => resetCtrlW p v s
  | 0x5001, _ => clkAllW v s
  | 0x6010, 1 => idleSettingW (traceOn s) index sub v s
  | 0x6010, 2 => idleSettingW (traceOn s) index sub v s
  | _, _ =>
    if 0x4200 ≤ index ∧ index < 0x4204 then kexCommandW p v s
    else if 0x5080 ≤ index ∧ index < 0x5100 then coreClkW (index - 0x5080) v s
    else settingW index sub v s

/-- A write of an entry that has passed every earlier check. (DEDUCED, log 90) -/
def unitW (p : Path) (e : Entry) (index sub : Nat) (bs : List Byte) (s : State) : Nat × State :=
  let v := ofLe bs
  match e.type with
  | .octets _ => octetsW p index sub bs s
  | _ =>
    if !(valueOk index sub v) then (0x1A, s)
    else if index < 0x3800 then unitLowW p index sub v s
    else if index < 0x4000 then unitMidW p index sub v s
    else unitHighW p index sub v s

/-! ## Accesses (R361-R365) -/

/-- The path reaches the entry (R361); the exchange entries of a path are its own (R391). -/
def permitted (w : Who) (e : Entry) (index : Nat) : Bool :=
  ((portOf w.path).isNone || w.admin || e.isOpen) && (index / 4 != 0x1080 || index == 0x4200 + pathIdx w.path)

/-- The entry is served: in RUN every entry, in other states the always-on ones, in RECOVERY those of Tables 17.10 and 18.10
(R364, R384). (DEDUCED, log 100) -/
def available (s : State) (e : Entry) (index : Nat) : Bool :=
  if s.island.state = 2 then index / 256 == 0x10 || index / 256 == 0x11 || index / 1024 == 0x10
  else s.power.state == 0 || e.aon

/-- Steps 3 and 4 of R365: 0, or the status. (DEDUCED, log 90) -/
def reachStatus (w : Who) (s : State) (e : Entry) (index : Nat) : Nat :=
  if !(permitted w e index) then 0x15 else if !(available s e index) then 0x43 else 0

/-- A write of an entry of the right type and length: steps 3 to 7 of R365; `fieldsOk` says that the record has no reserved
field. The path's unlock ends with it (R370). -/
def writeEntry (w : Who) (fieldsOk : Bool) (e : Entry) (index sub : Nat) (bs : List Byte) (s : State) : Nat × State :=
  let st := reachStatus w s e index
  let isKey := index == 0x1000 && sub == 0x10
  if isKey && st == 0 && fieldsOk then unlockW w.path (ofLe bs) s
  else
    let r : Nat × State :=
      if st ≠ 0 then (st, s)
      else if e.access = .rwl ∧ (pathState s w.path).unlocked = false then (0x42, s)
      else if !fieldsOk then (0x12, s)
      else match e.access with
        | .ro => (0, s)
        | .ack => ackW index sub (ofLe bs) s
        | _ => unitW w.path e index sub bs s
    if isKey then r else (r.1, lockPath w.path r.2)

/-- An access is counted (DICT_ACCESSES). (DEDUCED, log 91) -/
def countAccess (s : State) : State := addTotal 0x1000 0x16 1 s

/-- A scalar value travels in network order, OCTETS in address order (R359). (DEDUCED, log 92) -/
def travel (t : EntryType) (bs : List Byte) : List Byte :=
  match t with
  | .octets _ => bs
  | _ => bs.reverse

/-- READ: status, value as it travels. -/
def readAccess (w : Who) (fieldsOk : Bool) (index sub type len : Nat) (s : State) : Nat × List Byte × State :=
  match entryOf index sub with
  | none => (0x40, [], countAccess s)
  | some e =>
    if type ≠ e.type.code ∨ len ≠ 0 then (0x41, [], countAccess s)
    else
      let st := reachStatus w s e index
      if st ≠ 0 then (st, [], countAccess s)
      else if !fieldsOk then (0x12, [], countAccess s)
      else
        let r := entryValue e index sub s
        (0, travel e.type r.1, countAccess r.2)

/-- WRITE of a value as it travels. (DEDUCED, log 92) -/
def writeAccess (w : Who) (fieldsOk : Bool) (index sub type : Nat) (value : List Byte) (s : State) : Nat × State :=
  match entryOf index sub with
  | none => (0x40, countAccess s)
  | some e =>
    if type ≠ e.type.code ∨ value.length ≠ e.type.bytes then
      (0x41, countAccess (if index = 0x1000 ∧ sub = 0x10 then s else lockPath w.path s))
    else writeEntry w fieldsOk e index sub (travel e.type value) (countAccess s)

/-- The 16 bytes of DESCRIBE (Table 17.4). (DEDUCED, log 89) -/
def describeValue (s : State) (e : Entry) (index sub : Nat) : List Byte :=
  toBe 16 (packFields [(124, 4, e.type.code), (120, 4, e.access.code), (119, 1, b2n e.aon), (118, 1, b2n e.isOpen),
    (117, 1, b2n e.restricted), (96, 16, e.type.bytes),
    (64, 32, if e.access = .ack then ackedValue s (ekey index sub) else 0),
    (0, 64, match e.type with
      | .octets _ => 0
      | _ => e.default)])

/-- DESCRIBE (R366). -/
def describeAccess (w : Who) (fieldsOk : Bool) (index sub type len : Nat) (s : State) : Nat × List Byte × State :=
  let s := countAccess s
  match entryOf index sub with
  | none => (0x40, [], s)
  | some e =>
    if type ≠ 10 ∨ len ≠ 0 then (0x41, [], s)
    else
      let st := reachStatus w s e index
      if st ≠ 0 then (st, [], s) else if !fieldsOk then (0x12, [], s) else (0, describeValue s e index sub, s)

/-! ## The register window (R379, R380) -/

/-- An address of the window taken apart: slot, index, subindex, offset. -/
structure WinAddr where
  slot   : Nat
  index  : Nat
  sub    : Nat
  offset : Nat
  deriving DecidableEq, Repr

/-- The parts of a window address. -/
def winAddr (a : Nat) : WinAddr :=
  let o := a - winBase
  { slot := o / 16, index := o / 0x1000, sub := o / 16 % 256, offset := o % 16 }

/-- Shadows of another slot are lost (R380). -/
def keepShadows (p : Path) (slot : Nat) (s : State) : State :=
  setPath p (fun x => { x with
    readShadow := x.readShadow.filter fun e => e.1 == slot, writeShadow := x.writeShadow.filter fun e => e.1 == slot }) s

/-- The entry behind a window address, or the status that refuses the access. (DEDUCED, log 92) -/
def winEntry (p : Path) (a : Nat) : Nat ⊕ Entry :=
  let x := winAddr a
  if a < winBase ∨ 2 ^ 48 ≤ a then .inl 0x40
  else if winBase + 0x1000_0000 ≤ a then .inl (if p = .firmware then 0x40 else 0x15)
  else match entryOf x.index x.sub with
    | none => .inl 0x40
    | some e =>
      match e.type with
      | .octets _ => .inl 0x41
      | t => if 8 ≤ x.offset then .inl 0x40 else if x.offset % 4 ≠ 0 then .inl 0x41
             else if x.offset = 4 ∧ t ≠ .u64 then .inl 0x40 else .inr e

/-- RAW_READ: status and word. -/
def rawRead (w : Who) (fieldsOk : Bool) (a : Nat) (s : State) : Nat × Nat × State :=
  let x := winAddr a
  let s := keepShadows w.path x.slot (countAccess s)
  match winEntry w.path a with
  | .inl st => (st, 0, s)
  | .inr e =>
    let st := reachStatus w s e x.index
    if st ≠ 0 then (st, 0, s)
    else if !fieldsOk then (0x12, 0, s)
    else
      let r := entryValue e x.index x.sub s
      let v := ofLe r.1
      if e.type ≠ .u64 then (0, v, r.2)
      else if x.offset = 0 then
        (0, v % 2 ^ 32, setPath w.path (fun y => { y with readShadow := some (x.slot, BitVec.ofNat 32 (v / 2 ^ 32)) }) r.2)
      else match (pathState s w.path).readShadow with
        | some h => (0, h.2.toNat, setPath w.path (fun y => { y with readShadow := none }) s)
        | none => (0, v / 2 ^ 32, bumpE 0x1000 0x13 r.2)

/-- RAW_WRITE: a 64-bit entry is assembled from its two words. -/
def rawWrite (w : Who) (fieldsOk : Bool) (a v : Nat) (s : State) : Nat × State :=
  let x := winAddr a
  let s := keepShadows w.path x.slot (countAccess s)
  match winEntry w.path a with
  | .inl st => (st, s)
  | .inr e =>
    if e.type ≠ .u64 then
      if v < 256 ^ e.type.bytes then writeEntry w fieldsOk e x.index x.sub (toLe e.type.bytes v) s
      else
        let st := reachStatus w s e x.index
        (if st ≠ 0 then st else if e.access = .rwl ∧ (pathState s w.path).unlocked = false then 0x42
         else if !fieldsOk then 0x12 else 0x1A, lockPath w.path s)
    else if x.offset = 0 then
      let st := reachStatus w s e x.index
      if st ≠ 0 then (st, s) else if !fieldsOk then (0x12, s)
      else (0, setPath w.path (fun y => { y with writeShadow := some (x.slot, BitVec.ofNat 32 v) }) s)
    else match (pathState s w.path).writeShadow with
      | some l =>
        writeEntry w fieldsOk e x.index x.sub (toLe 8 (l.2.toNat + v * 2 ^ 32))
          (setPath w.path (fun y => { y with writeShadow := none }) s)
      | none => (0x41, lockPath w.path s)

/-! ## Rows: one access, answered on its path -/

/-- The answer of an access. -/
def answer (w : Who) (r : Nat × List Byte × State) : State := emit (.access w.path (BitVec.ofNat 8 r.1) r.2.1) r.2.2

/-- The dictionary answers while the always-on island has power. -/
def served (s : State) (f : State → State) : State := if s.power.standby then f s else s

/-- DICT_READ. -/
def dictRead (w : Who) (index sub : Nat) (s : State) : State :=
  served s fun s => answer w (readAccess w true index sub (((entryOf index sub).map fun e => e.type.code).getD 0) 0 s)

/-- DICT_WRITE. -/
def dictWrite (w : Who) (index sub type : Nat) (value : List Byte) (s : State) : State :=
  served s fun s =>
    let r := writeAccess w true index sub type value s
    answer w (r.1, [], r.2)

/-- DESCRIBE. -/
def describe (w : Who) (index sub : Nat) (s : State) : State :=
  served s fun s => answer w (describeAccess w true index sub 10 0 s)

/-- RAW_READ. -/
def rawReadRow (w : Who) (a : Nat) (s : State) : State :=
  served s fun s =>
    let r := rawRead w true a s
    answer w (r.1, if r.1 = 0 then toBe 4 r.2.1 else [], r.2.2)

/-- RAW_WRITE. -/
def rawWriteRow (w : Who) (a v : Nat) (s : State) : State :=
  served s fun s =>
    let r := rawWrite w true a v s
    answer w (r.1, [], r.2)

/-- A write of a value to an entry of fixed size under its own type: the form in which the rows of the units' commands
arrive. A value too wide for the entry has the wrong length. -/
def unitRow (w : Who) (index sub v : Nat) (s : State) : State :=
  match entryOf index sub with
  | none => dictWrite w index sub 0 [] s
  | some e =>
    dictWrite w index sub e.type.code
      (travel e.type (if v < 256 ^ e.type.bytes then toLe e.type.bytes v else toLe (e.type.bytes + 1) v)) s

/-- A write of a byte string to an OCTETS entry. -/
def octetsRow (w : Who) (index sub : Nat) (bs : List Byte) (s : State) : State := dictWrite w index sub 10 bs s

/-- The semaphore's requests carry a path alone: they arrive with full rights. -/
def fullRights (p : Path) : Who := { path := p, admin := true }

end Sys2Proof.Machine
end

