-- ==== Sys2Proof/Machine/ExecDebug.lean ====
section
/-! DEFINITION. The meanings of the commands of faults, trace and debug, one definition each. -/

namespace Sys2Proof.Machine

/-- FAULT_LOG_ACCEPT (R426). -/
def execFaultLogAccept (die : Fin 2) (s : State) : Host.Outcome State Fault Refusal :=
  .next (Sys2Proof.Machine.faultLogAccept die.val s)

/-- TRACE_RECORD_WRITE (R428). -/
def execTraceRecordWrite (die : Fin 2) (s : State) : Host.Outcome State Fault Refusal :=
  .next (Sys2Proof.Machine.traceRecordWrite die.val s)

/-- SYNC_MARK_SEND (R429). -/
def execSyncMarkSend (die : Fin 2) (s : State) : Host.Outcome State Fault Refusal :=
  .next (Sys2Proof.Machine.syncMarkSend die.val s)

/-- SYNC_MARK_RECEIVE (R429). -/
def execSyncMarkReceive (die : Fin 2) (link : BitVec 5) (peer : BitVec 16) (syncId : Word32) (sent : Word64)
    (s : State) : Host.Outcome State Fault Refusal :=
  .next (Sys2Proof.Machine.syncMarkReceive die.val link.toNat peer.toNat syncId.toNat sent.toNat s)

/-- DBG_MEM_READ (R430). -/
def execDbgMemRead (w : Who) (s : State) : Host.Outcome State Fault Refusal :=
  .next (Sys2Proof.Machine.dictRead w 0x6020 2 s)

/-- DBG_MEM_WRITE (R430). -/
def execDbgMemWrite (w : Who) (data : List Byte) (s : State) : Host.Outcome State Fault Refusal :=
  .next (octetsRow w 0x6020 2 data s)

/-- DBG_MB_ENVELOPE (R432). -/
def execDbgMbEnvelope (w : Who) (s : State) : Host.Outcome State Fault Refusal :=
  .next (Sys2Proof.Machine.dictRead w 0x6020 5 s)

/-- RETIRE_WINDOW_EXPIRY (R433). -/
def execRetireWindowExpiry (stack : Fin 8) (frame : Nat) (s : State) : Host.Outcome State Fault Refusal :=
  .next (Sys2Proof.Machine.retireWindowExpiry stack.val frame s)

/-- REGISTER_WRITE (R362). -/
def execRegisterWrite (w : Who) (index : BitVec 16) (sub : BitVec 8) (v : Word64)
    (s : State) : Host.Outcome State Fault Refusal :=
  .next (unitRow w index.toNat sub.toNat v.toNat s)

/-- CONTEXT_RESTORE_DONE (R304). -/
def execContextRestoreDone (core : Fin 128) (ctx : Fin 4096) (s : State) : Host.Outcome State Fault Refusal :=
  .next (Sys2Proof.Machine.contextRestoreDone core.val ctx.val s)

/-- LINK_PEER_SEEN (R347). -/
def execLinkPeerSeen (port : Fin 24) (s : State) : Host.Outcome State Fault Refusal :=
  .next (Sys2Proof.Machine.linkPeerSeen port.val s)

/-- PWR_GOOD_ASSERT (R402). -/
def execPwrGoodAssert (s : State) : Host.Outcome State Fault Refusal :=
  .next (Sys2Proof.Machine.pwrGoodAssert s)

/-- INPUT_IN_RANGE (R402). -/
def execInputInRange (s : State) : Host.Outcome State Fault Refusal :=
  .next (Sys2Proof.Machine.inputInRange s)

/-- STANDBY_RAIL_LOSS (R402). -/
def execStandbyRailLoss (s : State) : Host.Outcome State Fault Refusal :=
  .next (Sys2Proof.Machine.standbyRailLoss s)

/-- FW_ACTIVATE_DONE (R387). -/
def execFwActivateDone (s : State) : Host.Outcome State Fault Refusal :=
  .next (Sys2Proof.Machine.fwActivateDone s)

end Sys2Proof.Machine
end

