-- ==== Sys2Proof/Machine/Frames.lean ====
section
/-! DEFINITION. Wenius frames with dictionary records, notifications, and the sideband: MCTP messages and I3C common commands (chapter 17). -/

namespace Sys2Proof.Machine

/-! ## Records of a DICT body (Tables 17.6, 17.7) -/

/-- A record taken apart: its header word and its value. -/
structure DictRec where
  h     : Nat
  value : List Byte
  deriving DecidableEq, Repr

/-- OP. -/
def recOp (r : DictRec) : Nat := bits r.h 63 60
/-- TYPE. -/
def recType (r : DictRec) : Nat := bits r.h 59 56
/-- INDEX. -/
def recIndex (r : DictRec) : Nat := bits r.h 47 32
/-- SUBINDEX. -/
def recSub (r : DictRec) : Nat := bits r.h 31 24
/-- LENGTH, for every operation. -/
def recLen (r : DictRec) : Nat := bits r.h 15 0

/-- The value of a record is padded to a multiple of 8 bytes. -/
def pad8 (n : Nat) : Nat := cdiv n 8 * 8

/-- n records of a body: none where the bytes do not hold exactly these. A RAW record's address takes the bits of LENGTH, so
its length follows from its OP. -/
def parseRecords : Nat → List Byte → Option (List DictRec)
  | 0, bs => if bs.isEmpty then some [] else none
  | n + 1, bs =>
    if bs.length < 8 then none
    else
      let h := ofBe (bs.take 8)
      let len := if bits h 63 60 = 4 then 0 else if bits h 63 60 = 5 then 4 else bits h 15 0
      let rest := bs.drop 8
      if rest.length < pad8 len then none
      else (parseRecords n (rest.drop (pad8 len))).map fun l => { h := h, value := rest.take len } :: l

/-- The reserved fields of a record are zero and its padding does not matter. -/
def recFieldsOk (r : DictRec) : Bool :=
  bits r.h 55 48 == 0 && (recOp r == 4 || recOp r == 5 || bits r.h 23 16 == 0)

/-- A record of the reply: STATUS and LENGTH filled in, the value padded. -/
def replyRecord (r : DictRec) (st : Nat) (value : List Byte) : List Byte :=
  let raw := recOp r == 4 || recOp r == 5
  let h := setBits r.h 55 48 st
  let h := if raw then h else setBits h 15 0 value.length
  toBe 8 h ++ fixLen (pad8 value.length) value

/-- Run one record. (DEDUCED, log 91) -/
def runRecord (w : Who) (r : DictRec) (s : State) : List Byte × State :=
  let ok := recFieldsOk r
  match recOp r with
  | 1 =>
    let x := readAccess w ok (recIndex r) (recSub r) (recType r) (recLen r) s
    (replyRecord r x.1 x.2.1, x.2.2)
  | 2 =>
    let x := writeAccess w ok (recIndex r) (recSub r) (recType r) r.value s
    (replyRecord r x.1 [], x.2)
  | 3 =>
    let x := describeAccess w ok (recIndex r) (recSub r) (recType r) (recLen r) s
    (replyRecord r x.1 x.2.1, x.2.2)
  | 4 =>
    if recType r = 3 then
      let x := rawRead w ok (bits r.h 47 0) s
      (replyRecord r x.1 (if x.1 = 0 then toBe 4 x.2.1 else []), x.2.2)
    else (replyRecord r 0x41 [], countAccess s)
  | 5 =>
    if recType r = 3 then
      let x := rawWrite w ok (bits r.h 47 0) (ofBe r.value) s
      (replyRecord r x.1 [], x.2)
    else (replyRecord r 0x41 [], countAccess s)
  | _ => (replyRecord r 0x12 [], countAccess s)

/-- Run the records of a frame in order (R362). -/
def runRecords (w : Who) : List DictRec → State → List Byte × State
  | [], s => ([], s)
  | r :: l, s =>
    let x := runRecord w r s
    let y := runRecords w l x.2
    (x.1 ++ y.1, y.2)

/-! ## DICT frames (R372-R375) -/

/-- The Wenius header of a frame the device sends. -/
def weniusHead (kind len seq : Nat) : List Byte := toBe 8 (packFields [(60, 4, 1), (56, 4, kind), (32, 16, len), (0, 32, seq)])

/-- A frame that is no Wenius frame of the device: its VERSION, KIND or LENGTH is wrong (R372). -/
def weniusOk (bs : List Byte) : Bool :=
  let h := ofBe (bs.take 8)
  decide (8 ≤ bs.length) && bits h 63 60 == 1 && inRange 1 7 (bits h 59 56) &&
    decide (bits h 47 32 ≤ bs.length - 8 ∧ bits h 47 32 ≤ 8960)

/-- KIND. -/
def weniusKind (bs : List Byte) : Nat := bits (ofBe (bs.take 8)) 59 56

/-- The body that LENGTH names; padding after it is ignored. -/
def weniusBody (bs : List Byte) : List Byte := (bs.drop 8).take (bits (ofBe (bs.take 8)) 47 32)

/-- A reply frame: its tag is zero unless a key is given. -/
def replyFrame (port : Nat) (key : Option (List Byte)) (seq slot records status counter : Nat) (recs : List Byte) : List Byte :=
  let head := toBe 16 (packFields [(120, 8, slot), (112, 8, records), (104, 8, status), (0, 64, counter)])
  let front := weniusHead 2 (24 + recs.length) seq ++ head ++ recs
  front ++ (match key with
    | some k => frameTag k (0x80 + port) counter front
    | none => List.replicate 8 0)

/-- Send a dictionary reply on its path. (DEDUCED, log 91) -/
def sendReply (p : Path) (bs : List Byte) (s : State) : State :=
  if p = .sideband then emit (.mctp (toBe 4 Config.vendor.toNat ++ bs)) s else emit (.frame p bs) s

/-- Keep a reply for its key slot and port (R375). (DEDUCED, log 91) -/
def keepReply (slot port : Nat) (req rep : List Byte) (s : State) : State :=
  let k := keptKey slot port
  { s with replies := s.replies.filter (fun e => e.1 != k) ++ [(k, (req, rep))] }

/-- Check 1 of R374 on a port: 0, AUTH_FAIL or REPLAYED; an unauthenticated frame has a zero tag. -/
def dictAuth (s : State) (p : Path) (slot counter : Nat) (front tag : List Byte) : Nat :=
  if (portOf p).isNone then 0
  else if slot = 0xFF then (if tag.all fun b => b == 0 then 0 else 0x10)
  else authCheck s p slot counter front tag

/-- The stored reply to a frame that comes again byte for byte. -/
def storedReply (s : State) (p : Path) (slot counter : Nat) (frame : List Byte) : Option (List Byte) :=
  match portOf p with
  | none => none
  | some port =>
    if tget 0 s.kept (keptKey slot port) = counter then
      match s.replies.find? fun e => e.1 == keptKey slot port && e.2.1 == frame with
      | some e => some e.2.2
      | none => none
    else none

/-- A DICT frame from its first check to its reply. -/
def dictBody (p : Path) (bs : List Byte) (s : State) : State :=
  let body := weniusBody bs
  let seq := ofBe (bs.take 8) % 2 ^ 32
  let frame := bs.take 8 ++ body
  let h := ofBe (body.take 16)
  let slot := bits h 127 120
  let n := bits h 119 112
  let counter := bits h 63 0
  let front := frame.take (frame.length - 8)
  let tag := frame.drop (frame.length - 8)
  let port := (portOf p).getD 0
  let st := dictAuth s p slot counter front tag
  if body.length < 24 then sendReply p (replyFrame port none seq slot 0 0x12 counter []) s
  else if st ≠ 0 then
    match (if st = 0x11 then storedReply s p slot counter frame else none) with
    | some r => sendReply p r s
    | none => sendReply p (replyFrame port none seq slot 0 st counter []) s
  else
    let signed := (portOf p).isSome && slot != 0xFF
    let s := if signed then keepCounter p slot counter s else s
    let keep := fun (r : List Byte) (s : State) => if signed then keepReply slot port frame r s else s
    let recs := if decide (body.length ≤ 4096) && bits h 111 64 == 0 && bits (ofBe (bs.take 8)) 55 48 == 0 && inRange 1 128 n then
        parseRecords n ((body.drop 16).take (body.length - 24)) else none
    match recs with
    | none =>
      let r := replyFrame port none seq slot 0 0x12 counter []
      sendReply p r (keep r s)
    | some l =>
      let key := if signed then some (keySlot s slot).key else none
      let w : Who := { path := p, admin := signed && (keySlot s slot).role == .admin }
      let x := runRecords w l s
      let r := replyFrame port key seq slot n 0 counter x.1
      sendReply p r (keep r x.2)

/-! ## Commands in low-power states -/

/-- Commands reach the units except in Standby and RECOVERY; traffic of a port may wake the device from DOZE (R416). -/
def payloadRow (p : Path) (bs : List Byte) (s : State) : State :=
  if s.power.state = 3 ∨ s.island.state = 2 then s else trafficWake p bs (payload p bs s)

/-- A RoCE request in RETAIN is answered with a remote-operational-error NAK (Table 19.8); in Standby the port is down. -/
def roceRow (port qpn : Nat) (psn : BitVec 24) (f : State → State) (s : State) : State :=
  if s.power.state = 2 then (if (qpOf s port qpn).isSome then sendNak port qpn psn.toNat nakOperational s else s)
  else if s.power.state = 3 then s
  else f s

/-- What a Wenius frame does by its KIND: DICT, a command payload, or a RELAY frame between managers. Kinds that only the device
sends do nothing. -/
def weniusFrame (p : Path) (bs : List Byte) (s : State) : State :=
  match weniusKind bs with
  | 1 => dictBody p bs s
  | 3 => payloadRow p (weniusBody bs) s
  | 7 => if (portOf p).isSome then relayFrame (weniusBody bs) s else s
  | _ => s

/-- A port takes frames outside Standby and RECOVERY, where it is down. -/
def portsOn (s : State) (p : Path) : Bool := (portOf p).isNone || (s.power.state != 3 && s.island.state != 2)

/-- DICT_FRAME. A frame that R372 refuses is dropped and counted on its port, or on the sideband. -/
def dictFrame (p : Path) (bs : List Byte) (s : State) : State :=
  if !(portsOn s p) || !s.power.standby then s
  else if weniusOk bs then weniusFrame p bs s
  else match portOf p with
    | some port => ethFrameDrop port s
    | none => bumpE 0x1000 0x15 s

/-! ## Notifications (R369, R376) -/

/-- The entries of a NOTIFY: at most 32 pending counters, ascending. -/
def notifyEntries (s : State) : List Nat := (pendingKeys s).take 32

/-- One entry. -/
def notifyEntry (s : State) (k : Nat) : List Byte :=
  toBe 8 (packFields [(48, 16, k / 256), (40, 8, k % 256), (0, 32, count s k)])

/-- The NOTIFY frame of a port: the head, the entries, the tag under NOTIFY_SLOT. FRAME_SEQ is the sender's own number. (DEDUCED, log 95) -/
def notifyFrame (port seq counter : Nat) (s : State) : List Byte :=
  let slot := reg s (0x1110 + port) 7
  let es := notifyEntries s
  let head := toBe 16 (packFields [(120, 8, slot), (112, 8, es.length), (96, 16, attnCount s), (0, 64, counter)])
  let front := weniusHead 6 (24 + 8 * es.length) seq ++ head ++ es.flatMap fun k => notifyEntry s k
  front ++ (if slot = 0xFF ∨ (keySlot s slot).role = .empty then List.replicate 8 0
            else frameTag (keySlot s slot).key (0x80 + port) counter front)

/-- NOTIFY_SEND: a frame on a port whose mode is on, an in-band interrupt on the sideband, while any counter is pending. (DEDUCED, log 95) -/
def notifySend (p : Path) (s : State) : State :=
  if attnCount s = 0 ∨ s.power.standby = false then s
  else
    match p with
    | .sideband => if reg s 0x1100 6 = 1 ∧ s.sideband.ibiOn = true then emit (.ibi (BitVec.ofNat 8 (min (attnCount s) 255))) s else s
    | .firmware => s
    | q =>
      let port := (portOf q).getD 0
      if reg s (0x1110 + port) 1 ≠ 0 ∧ (eth s port).state = 2 then
        let s := setPath q (fun x => { x with notifyCount := x.notifyCount + 1 }) s
        let (seq, s) := draw s
        emit (.notify q (notifyFrame port seq (pathState s q).notifyCount.toNat s)) s
      else s

/-! ## MCTP (R378) -/

/-- MCTP_MESSAGE: a message with a missing or failed packet, or longer than 1,152 bytes, is dropped whole and counted. -/
def mctpMessage (whole : Bool) (bs : List Byte) (s : State) : State :=
  if s.power.standby = false then s
  else if !whole || decide (1152 < bs.length) then bumpE 0x1000 0x15 s
  else if bs.take 4 ≠ toBe 4 Config.vendor.toNat then s
  else
    let f := bs.drop 4
    if !(weniusOk f) then bumpE 0x1000 0x15 s
    else if weniusKind f = 1 then dictBody .sideband f s
    else if weniusKind f = 3 then payloadRow .sideband (weniusBody f) s
    else s

/-- An MCTP control answer: command code, completion code, contents. (PRESUMED, log 93) -/
def mctpControl (code completion : Nat) (body : List Byte) (s : State) : State :=
  served s fun s => emit (.mctp ([BitVec.ofNat 8 code, BitVec.ofNat 8 completion] ++ body)) s

/-- SET_ENDPOINT_ID: 0 and 255 are no endpoint's ID. (PRESUMED, log 93) -/
def setEndpointId (eid : BitVec 8) (s : State) : State :=
  served s fun s =>
    if eid = 0 ∨ eid = 255 then mctpControl 1 2 [] s
    else mctpControl 1 0 [0, eid, 0] { s with sideband := { s.sideband with eid := eid } }

/-- GET_ENDPOINT_ID. -/
def getEndpointId (s : State) : State := mctpControl 2 0 [s.sideband.eid, 0, 0] s

/-- GET_ENDPOINT_UUID. -/
def getEndpointUuid (s : State) : State := mctpControl 3 0 Config.endpointUuid s

/-- The other control messages, whose contents the spec does not print. -/
def mctpSupport (code : Nat) (s : State) : State := mctpControl code 0 (Config.mctpAnswer code) s

/-! ## I3C common commands (R377) -/

/-- Change the sideband's registers. -/
def setSideband (f : Sideband → Sideband) (s : State) : State := served s fun s => { s with sideband := f s.sideband }

/-- Answer a directed read. (PRESUMED, log 93) -/
def i3cAnswer (bs : List Byte) (s : State) : State := served s fun s => emit (.i3c bs) s

/-- ENTDAA: a target without a dynamic address takes the one assigned. (PRESUMED, log 93) -/
def entdaa (a : BitVec 7) (s : State) : State :=
  setSideband (fun x => if x.dynAddr.isNone then { x with dynAddr := some a } else x) s

/-- SETDASA: sent to the static address, it assigns where none is assigned. (PRESUMED, log 93) -/
def setdasa (a : BitVec 7) (s : State) : State :=
  setSideband (fun x => if x.dynAddr.isNone then { x with dynAddr := some a } else x) s

/-- RSTDAA. -/
def rstdaa (s : State) : State := setSideband (fun x => { x with dynAddr := none }) s

/-- ENEC: bit 0 enables in-band interrupts. -/
def enec (mask : BitVec 8) (s : State) : State :=
  setSideband (fun x => { x with ibiOn := x.ibiOn || bit mask.toNat 0 }) s

/-- DISEC. -/
def disec (mask : BitVec 8) (s : State) : State :=
  setSideband (fun x => { x with ibiOn := x.ibiOn && !(bit mask.toNat 0) }) s

/-- GETPID: the provisional ID formed from the serial number. -/
def getpid (s : State) : State := i3cAnswer (toBe 6 (Config.provisionalId s.fuses.serial).toNat) s

/-- GETSTATUS: contents the spec does not print. -/
def getstatus (s : State) : State :=
  let (v, s) := draw s
  i3cAnswer (toBe 2 v) s

/-- SETMRL and SETMWL: at most 69 bytes. (PRESUMED, log 93) -/
def maxLen (v : BitVec 16) : BitVec 16 := if v.toNat ≤ 69 then v else 69

/-- SETMRL. -/
def setmrl (v : BitVec 16) (s : State) : State := setSideband (fun x => { x with mrl := maxLen v }) s

/-- SETMWL. -/
def setmwl (v : BitVec 16) (s : State) : State := setSideband (fun x => { x with mwl := maxLen v }) s

end Sys2Proof.Machine
end

