-- ==== Sys2Proof/Machine/ExecDict.lean ====
section
/-! DEFINITION. The meanings of the commands of the dictionary and the sideband, one definition each. -/

namespace Sys2Proof.Machine

/-- DICT_FRAME (R373). -/
def execDictFrame (p : Path) (bytes : List Byte) (s : State) : Host.Outcome State Fault Refusal :=
  .next (Sys2Proof.Machine.dictFrame p bytes s)

/-- DICT_READ (R362). -/
def execDictRead (w : Who) (index : BitVec 16) (sub : BitVec 8) (s : State) : Host.Outcome State Fault Refusal :=
  .next (Sys2Proof.Machine.dictRead w index.toNat sub.toNat s)

/-- DICT_WRITE (R362). -/
def execDictWrite (w : Who) (index : BitVec 16) (sub : BitVec 8) (type : BitVec 4) (value : List Byte)
    (s : State) : Host.Outcome State Fault Refusal :=
  .next (Sys2Proof.Machine.dictWrite w index.toNat sub.toNat type.toNat value s)

/-- DESCRIBE (R366). -/
def execDescribe (w : Who) (index : BitVec 16) (sub : BitVec 8) (s : State) : Host.Outcome State Fault Refusal :=
  .next (Sys2Proof.Machine.describe w index.toNat sub.toNat s)

/-- RAW_READ (R380). -/
def execRawRead (w : Who) (addr : BitVec 48) (s : State) : Host.Outcome State Fault Refusal :=
  .next (rawReadRow w addr.toNat s)

/-- RAW_WRITE (R380). -/
def execRawWrite (w : Who) (addr : BitVec 48) (v : Word32) (s : State) : Host.Outcome State Fault Refusal :=
  .next (rawWriteRow w addr.toNat v.toNat s)

/-- ACK_WRITE (R367). -/
def execAckWrite (w : Who) (index : BitVec 16) (sub : BitVec 8) (v : Word64) (s : State) : Host.Outcome State Fault Refusal :=
  .next (unitRow w index.toNat sub.toNat v.toNat s)

/-- UNLOCK (R370). -/
def execUnlock (w : Who) (v : Word32) (s : State) : Host.Outcome State Fault Refusal :=
  .next (unitRow w 0x1000 0x10 v.toNat s)

/-- UNLOCK_EXPIRY (R370). -/
def execUnlockExpiry (p : Path) (s : State) : Host.Outcome State Fault Refusal :=
  .next (Sys2Proof.Machine.unlockExpiry p s)

/-- NOTIFY_SEND (R369). -/
def execNotifySend (p : Path) (s : State) : Host.Outcome State Fault Refusal :=
  .next (Sys2Proof.Machine.notifySend p s)

/-- MCTP_MESSAGE (R378). -/
def execMctpMessage (whole : Bool) (bytes : List Byte) (s : State) : Host.Outcome State Fault Refusal :=
  .next (Sys2Proof.Machine.mctpMessage whole bytes s)

/-- SET_ENDPOINT_ID (R378). -/
def execSetEndpointId (eid : BitVec 8) (s : State) : Host.Outcome State Fault Refusal :=
  .next (Sys2Proof.Machine.setEndpointId eid s)

/-- GET_ENDPOINT_ID (R378). -/
def execGetEndpointId (s : State) : Host.Outcome State Fault Refusal :=
  .next (Sys2Proof.Machine.getEndpointId s)

/-- GET_ENDPOINT_UUID (R378). -/
def execGetEndpointUuid (s : State) : Host.Outcome State Fault Refusal :=
  .next (Sys2Proof.Machine.getEndpointUuid s)

/-- GET_MCTP_VERSION_SUPPORT (R378). -/
def execGetMctpVersionSupport (s : State) : Host.Outcome State Fault Refusal :=
  .next (mctpSupport 4 s)

/-- GET_MESSAGE_TYPE_SUPPORT (R378). -/
def execGetMessageTypeSupport (s : State) : Host.Outcome State Fault Refusal :=
  .next (mctpSupport 5 s)

/-- GET_VENDOR_DEFINED_MSG_SUPPORT (R378). -/
def execGetVendorDefinedMsgSupport (s : State) : Host.Outcome State Fault Refusal :=
  .next (mctpSupport 6 s)

/-- ENTDAA (R377). -/
def execEntdaa (addr : BitVec 7) (s : State) : Host.Outcome State Fault Refusal :=
  .next (Sys2Proof.Machine.entdaa addr s)

/-- SETDASA (R377). -/
def execSetdasa (addr : BitVec 7) (s : State) : Host.Outcome State Fault Refusal :=
  .next (Sys2Proof.Machine.setdasa addr s)

/-- RSTDAA (R377). -/
def execRstdaa (s : State) : Host.Outcome State Fault Refusal :=
  .next (Sys2Proof.Machine.rstdaa s)

/-- ENEC (R377). -/
def execEnec (mask : BitVec 8) (s : State) : Host.Outcome State Fault Refusal :=
  .next (Sys2Proof.Machine.enec mask s)

/-- DISEC (R377). -/
def execDisec (mask : BitVec 8) (s : State) : Host.Outcome State Fault Refusal :=
  .next (Sys2Proof.Machine.disec mask s)

/-- GETPID (R377). -/
def execGetpid (s : State) : Host.Outcome State Fault Refusal :=
  .next (Sys2Proof.Machine.getpid s)

/-- GETBCR (R377). -/
def execGetbcr (s : State) : Host.Outcome State Fault Refusal :=
  .next (i3cAnswer [Config.i3cBcr] s)

/-- GETDCR (R377). -/
def execGetdcr (s : State) : Host.Outcome State Fault Refusal :=
  .next (i3cAnswer [Config.i3cDcr] s)

/-- GETSTATUS (R377). -/
def execGetstatus (s : State) : Host.Outcome State Fault Refusal :=
  .next (Sys2Proof.Machine.getstatus s)

/-- GETMXDS (R377). -/
def execGetmxds (s : State) : Host.Outcome State Fault Refusal :=
  .next (i3cAnswer (toBe 2 Config.i3cMxds.toNat) s)

/-- SETMRL (R377). -/
def execSetmrl (v : BitVec 16) (s : State) : Host.Outcome State Fault Refusal :=
  .next (Sys2Proof.Machine.setmrl v s)

/-- GETMRL (R377). -/
def execGetmrl (s : State) : Host.Outcome State Fault Refusal :=
  .next (i3cAnswer (toBe 2 s.sideband.mrl.toNat) s)

/-- SETMWL (R377). -/
def execSetmwl (v : BitVec 16) (s : State) : Host.Outcome State Fault Refusal :=
  .next (Sys2Proof.Machine.setmwl v s)

/-- GETMWL (R377). -/
def execGetmwl (s : State) : Host.Outcome State Fault Refusal :=
  .next (i3cAnswer (toBe 2 s.sideband.mwl.toNat) s)

end Sys2Proof.Machine
end

