-- ==== Sys2Proof/Machine/ExecIsland.lean ====
section
/-! DEFINITION. The meanings of the commands of the security island, one definition each. -/

namespace Sys2Proof.Machine

/-- BOOT (R383). -/
def execBoot (s : State) : Host.Outcome State Fault Refusal :=
  .next (Sys2Proof.Machine.boot s)

/-- FW_STAGE (R385). -/
def execFwStage (w : Who) (v : Word64) (s : State) : Host.Outcome State Fault Refusal :=
  .next (unitRow w 0x4010 1 v.toNat s)

/-- FW_STAGE_DONE (R385). -/
def execFwStageDone (s : State) : Host.Outcome State Fault Refusal :=
  .next (Sys2Proof.Machine.fwStageDone s)

/-- FW_ACTIVATE (R387). -/
def execFwActivate (w : Who) (v : BitVec 8) (s : State) : Host.Outcome State Fault Refusal :=
  .next (unitRow w 0x4010 3 v.toNat s)

/-- FW_SVN_COMMIT (R387). -/
def execFwSvnCommit (w : Who) (v : BitVec 8) (s : State) : Host.Outcome State Fault Refusal :=
  .next (unitRow w 0x4010 4 v.toNat s)

/-- ROOT_REVOKE (R387). -/
def execRootRevoke (w : Who) (v : BitVec 8) (s : State) : Host.Outcome State Fault Refusal :=
  .next (unitRow w 0x4000 4 v.toNat s)

/-- ATTEST_NONCE (R389). -/
def execAttestNonce (w : Who) (nonce : List Byte) (s : State) : Host.Outcome State Fault Refusal :=
  .next (octetsRow w (0x4200 + pathIdx w.path) 7 nonce s)

/-- ATTEST_DONE (R389). -/
def execAttestDone (p : Path) (s : State) : Host.Outcome State Fault Refusal :=
  .next (Sys2Proof.Machine.attestDone p s)

/-- KEX_COMMAND (R392). -/
def execKexCommand (w : Who) (v : BitVec 8) (s : State) : Host.Outcome State Fault Refusal :=
  .next (unitRow w (0x4200 + pathIdx w.path) 5 v.toNat s)

/-- KEX_DONE (R394). -/
def execKexDone (p : Path) (s : State) : Host.Outcome State Fault Refusal :=
  .next (Sys2Proof.Machine.kexDone p s)

/-- SLOT_ERASE (R394). -/
def execSlotErase (w : Who) (v : BitVec 8) (s : State) : Host.Outcome State Fault Refusal :=
  .next (unitRow w 0x4020 3 v.toNat s)

/-- BN_JOB (R395). -/
def execBnJob (w : Who) (v : Word64) (s : State) : Host.Outcome State Fault Refusal :=
  .next (unitRow w 0x4030 1 v.toNat s)

/-- BN_JOB_START (R396). -/
def execBnJobStart (s : State) : Host.Outcome State Fault Refusal :=
  .next (Sys2Proof.Machine.bnJobStart s)

/-- BN_YIELD_POINT (R399). -/
def execBnYieldPoint (s : State) : Host.Outcome State Fault Refusal :=
  .next (Sys2Proof.Machine.bnYieldPoint s)

/-- BN_JOB_END (R400). -/
def execBnJobEnd (s : State) : Host.Outcome State Fault Refusal :=
  .next (Sys2Proof.Machine.bnJobEnd s)

end Sys2Proof.Machine
end

