-- ==== Sys2Proof/Machine/ExecLink.lean ====
section
/-! DEFINITION. The meanings of the commands of the links and the hierarchy, one definition each. -/

namespace Sys2Proof.Machine

/-- LINK_PACKET_RECEIVE (R344). -/
def execLinkPacketReceive (port : Fin 24) (bytes : List Byte) (s : State) : Host.Outcome State Fault Refusal :=
  .next (linkPacket port.val bytes s)

/-- LINK_NAK_RECEIVE (R344). -/
def execLinkNakReceive (port : Fin 24) (seq : BitVec 16) (s : State) : Host.Outcome State Fault Refusal :=
  .next (linkNak port.val seq.toNat s)

/-- LINK_ACK_TIMEOUT (R344). -/
def execLinkAckTimeout (port : Fin 24) (s : State) : Host.Outcome State Fault Refusal :=
  .next (Sys2Proof.Machine.linkAckTimeout port.val s)

/-- LINK_RETRAIN_END (R346). -/
def execLinkRetrainEnd (port : Fin 24) (ok : Bool) (s : State) : Host.Outcome State Fault Refusal :=
  .next (Sys2Proof.Machine.linkRetrainEnd port.val ok s)

/-- LINK_TRAIN_DONE (R347). -/
def execLinkTrainDone (port : Fin 24) (peer : Option PeerIdentity) (s : State) : Host.Outcome State Fault Refusal :=
  .next (Sys2Proof.Machine.linkTrainDone port.val peer s)

/-- LINK_COMMAND_TRAIN (R347). -/
def execLinkCommandTrain (w : Who) (port : Fin 24) (s : State) : Host.Outcome State Fault Refusal :=
  .next (unitRow w (0x3C10 + port.val) 8 1 s)

/-- LINK_COMMAND_DOWN (R358). -/
def execLinkCommandDown (w : Who) (port : Fin 24) (s : State) : Host.Outcome State Fault Refusal :=
  .next (unitRow w (0x3C10 + port.val) 8 2 s)

/-- SPARE_MODE_WRITE (R349). -/
def execSpareModeWrite (w : Who) (v : BitVec 8) (s : State) : Host.Outcome State Fault Refusal :=
  .next (unitRow w 0x3C00 3 v.toNat s)

/-- RELAY_CMD (R354). -/
def execRelayCmd (bytes : List Byte) (s : State) : Host.Outcome State Fault Refusal :=
  .next (Sys2Proof.Machine.relayCmd bytes s)

/-- MANAGER_JOIN (R353). -/
def execManagerJoin (confirmed : Bool) (peerTable : List (Nat × BitVec 48)) (s : State) : Host.Outcome State Fault Refusal :=
  .next (Sys2Proof.Machine.managerJoin confirmed peerTable s)

/-- RELAYED_PAGE (R356). -/
def execRelayedPage (ctx : Fin 4096) (page : Nat) (data : List Byte) (further : List (Fin 8))
    (s : State) : Host.Outcome State Fault Refusal :=
  .next (Sys2Proof.Machine.relayedPage ctx.val page data (further.map fun m => m.val) s)

/-- RELAY_FRAME (R357). -/
def execRelayFrame (bytes : List Byte) (s : State) : Host.Outcome State Fault Refusal :=
  .next (Sys2Proof.Machine.relayFrame bytes s)

end Sys2Proof.Machine
end

