-- ==== Sys2Proof/Machine/ExecMemory.lean ====
section
/-! DEFINITION. The meanings of the commands of the data mover and the memory system, one definition each. -/

namespace Sys2Proof.Machine

/-- COPY (R279). -/
def execCopy (core : Fin 128) (s : State) : Host.Outcome State Fault Refusal :=
  .next (copyRow core.val s)

/-- PREFETCH (R279). -/
def execPrefetch (core : Fin 128) (s : State) : Host.Outcome State Fault Refusal :=
  .next (prefetchRow core.val s)

/-- ZERO (R279). -/
def execZero (core : Fin 128) (s : State) : Host.Outcome State Fault Refusal :=
  .next (zeroRow core.val s)

/-- RELAY_W (R281). -/
def execRelayW (core : Fin 128) (s : State) : Host.Outcome State Fault Refusal :=
  .next (relayWRow core.val s)

/-- SCRUB_READ (R265). -/
def execScrubRead (core : Fin 128) (bank : Fin 16) (s : State) : Host.Outcome State Fault Refusal :=
  .next (Sys2Proof.Machine.scrubRead core.val bank.val s)

/-- HBM_REFRESH (R273). -/
def execHbmRefresh (stack : Fin 8) (targeted : Bool) (s : State) : Host.Outcome State Fault Refusal :=
  .next (Sys2Proof.Machine.hbmRefresh stack.val targeted s)

/-- RETIRED_LIST_COPY (R283). -/
def execRetiredListCopy (s : State) : Host.Outcome State Fault Refusal :=
  .next (Sys2Proof.Machine.retiredListCopy s)

/-- PIN_WAYS_WRITE (R270). -/
def execPinWaysWrite (w : Who) (v : BitVec 8) (s : State) : Host.Outcome State Fault Refusal :=
  .next (unitRow w 0x3800 2 v.toNat s)

/-- BW_SPLIT_WRITE (R277). -/
def execBwSplitWrite (w : Who) (v : BitVec 16) (s : State) : Host.Outcome State Fault Refusal :=
  .next (unitRow w 0x3800 1 v.toNat s)

/-- SPREAD_WRITE (R275). -/
def execSpreadWrite (w : Who) (group : Fin 48) (v : BitVec 8) (s : State) : Host.Outcome State Fault Refusal :=
  .next (unitRow w 0x3810 (group.val + 1) v.toNat s)

/-- TG_START (R286). -/
def execTgStart (w : Who) (stack : Fin 8) (v : Word64) (s : State) : Host.Outcome State Fault Refusal :=
  .next (unitRow w (0x3840 + stack.val) 8 (setBits v.toNat 3 0 1) s)

/-- TG_STOP (R286). -/
def execTgStop (w : Who) (stack : Fin 8) (v : Word64) (s : State) : Host.Outcome State Fault Refusal :=
  .next (unitRow w (0x3840 + stack.val) 8 (setBits v.toNat 3 0 2) s)

/-- TG_ENTER_TEST (R286). -/
def execTgEnterTest (w : Who) (stack : Fin 8) (v : Word64) (s : State) : Host.Outcome State Fault Refusal :=
  .next (unitRow w (0x3840 + stack.val) 8 (setBits v.toNat 3 0 3) s)

/-- TG_LEAVE_TEST (R286). -/
def execTgLeaveTest (w : Who) (stack : Fin 8) (v : Word64) (s : State) : Host.Outcome State Fault Refusal :=
  .next (unitRow w (0x3840 + stack.val) 8 (setBits v.toNat 3 0 4) s)

end Sys2Proof.Machine
end

