-- ==== Sys2Proof/Machine/Offices.lean ====
section
/-! DEFINITION. Sorting offices (R245 to R248): opening, closing, and the addition of a round. -/

namespace Sys2Proof.Machine

/-- TARGET_DESC of an office record (Table 11.4). -/
def soTarget (w : Nat) : Nat := bits w 303 256
/-- OUT_ROUTE. -/
def soRoute (w : Nat) : Nat := bits w 250 224
/-- OUT_TAG. -/
def soTag (w : Nat) : Nat := bits w 31 24
/-- EXPECT. -/
def soExpect (w : Nat) : Nat := bits w 23 17
/-- ZERO_FIRST. -/
def soZero (w : Nat) : Bool := bit w 16

/-- Encodings of an office record. -/
def soEncOk (w : Nat) : Bool :=
  bits w 3 0 == 8 && bits w 7 4 == 1 && bits w 15 8 == 0 && bits w 223 32 == 0 && bits w 255 251 == 0 && bits w 479 304 == 0 &&
    decide (1 ≤ soExpect w ∧ soExpect w ≤ 64)

/-- A target's descriptor, admitted (R245). -/
def openTarget (e : Env) (a : Nat) : Eng Nat := do
  let w ← openPlain e { elems := [0xA, 7, 0xB], write := true } a
  needE (decide (dBase w < 2 ^ 40)) .descNotAdmitted (some (a, false))
  pure w

/-- The checks of SO_OPEN: answers the record and the target's descriptor. -/
def soOpenChecks (c : Nat) (i : Issued) (r : Nat) : Eng (Nat × Nat) := do
  msgIssue i
  let e := envOf c .msg i
  needE (office (← get) c (bits i.word.toNat 52 48)).owner.isNone .officeBusy
  let a := addrOf i r 0
  needE (a % 64 == 0) .alignment (some (a, false))
  let w ← loadWord e a 64
  needE (checkOk 64 w) .headerCheck (some (a, false))
  needE (soEncOk w) .reservedField (some (a, false))
  let t ← openTarget e (soTarget w)
  pure (w, t)

/-- SO_OPEN. -/
def soOpenOne (c : Nat) (i : Issued) (r : Nat) : Eng (List SealMsg) := do
  let (w, t) ← soOpenChecks c i r
  act (setOffice c (bits i.word.toNat 52 48) fun _ => { owner := some i.ctx, record := BitVec.ofNat 512 w, target := BitVec.ofNat 1024 t })
  pure []

/-- SO_CLOSE of an office that adds nothing now. -/
def soCloseOne (c : Nat) (i : Issued) (_r : Nat) : Eng (List SealMsg) := do
  msgIssue i
  let o := bits i.word.toNat 52 48
  needE ((office (← get) c o).owner == some i.ctx) .officeNotOpen
  act (closeOffice false c o)
  pure []

/-- SO_CLOSE: it waits for a round under way (R248). -/
def soCloseRow (c : Nat) (s : State) : State :=
  match readyHead s c .msg 9 with
  | none => s
  | some i =>
    let o := bits i.word.toNat 52 48
    if (office s c o).adding && (office s c o).owner == some i.ctx then setOffice c o (fun x => { x with closing := true }) s
    else runEngine c .msg 9 (soCloseOne c) s

/-- Positions of a tensor, dimension 0 innermost. -/
def positions (w : Nat) : List (List Int) := (walk ((dDims w).map fun d => dExtent w d)).map fun (l : List Nat) => l.map fun (x : Nat) => Int.ofNat x

/-- Set a target to zero. (DEDUCED, log 71) -/
def zeroTarget (e : Env) (t : Nat) : Eng Unit := eachE (fun ps => writePlain e t ps 0 false) (positions t)

/-- Add one contribution to the target, element by element, one atomic addition each; answers whether poison was met. All of it is read,
and the whole target translated, before the first addition: one that faults is not added (R247). -/
def addContribution (e : Env) (t a : Nat) : Eng Bool := do
  let w ← openPlain e { dist := true, elems := [dElem t] } a
  needE (dRank w == dRank t && (dDims t).all fun d => dExtent w d == dExtent t d) .descNotAdmitted (some (a, false))
  let vs ← mapE (fun ps => readPlain e w ps) (positions t)
  eachE (fun ps => once (do
    let p := elemPlace t (moduleOf (← get)) ps
    let _ ← pieces e true p.byte.toNat (elemWidth (dElem t) / 8))) (positions t)
  eachE (fun (x : List Int × Nat × Bool) => do
    let (old, po) ← readPlain e t x.1
    writePlain e t x.1 (addInto (dElem t) false old x.2.1) (x.2.2 || po)
    atomicDone) ((positions t).zip vs)
  pure (vs.any fun v => v.2)

/-- The result envelope of a round (R248). (DEDUCED, log 71) -/
def resultEnvelope (s : State) (c ctx w rounds : Nat) (poison : Bool) : Nat :=
  withCheck 32 (packFields [(221, 3, moduleOf s), (210, 7, c), (192, 12, ctx), (160, 32, rounds), (112, 48, soTarget w),
    (88, 24, soExpect w), (80, 8, soTag w), (70, 1, 1), (69, 1, b2n poison), (52, 12, ctx), (25, 27, soRoute w),
    (19, 6, podOf s), (13, 6, boardOf s), (4, 4, 1), (0, 4, 9)])

/-- Post an envelope that no SEND waits for: it is in flight from a sender of its own. -/
def postEnvelope (c e : Nat) (s : State) : State :=
  let f : EnvFlight := { env := BitVec.ofNat 256 e, srcCore := 256 + c, serial := 0, remote := !(envHere s e) }
  let s := { s with envFlight := s.envFlight ++ [f] }
  if f.remote then routeEnv e s else s

/-- The accesses of an office's round. -/
def officeEnv (c ctx : Nat) (x : Office) : Env := { core := c, ctx := ctx, unit := .msg, failed := x.pageFault }

/-- A round waits: what it has done stands, and a page is fetched, or another module asked. -/
def roundWait (c o ctx : Nat) (stop : Stop) (j : List Ev) (s : State) : State :=
  let s := setOffice c o (fun y => { y with journal := j }) { s with wrote := [], wroteFar := [] }
  match stop with
  | .page k p => noteMiss k p false (setOffice c o (fun y => { y with waitPage := some p }) s)
  | .remote m a n => askRemote c ctx 0 m a n s
  | _ => s

/-- One contribution is dealt with: added or not, poison met or not. -/
def roundNote (c o : Nat) (added poison : Bool) (s : State) : State :=
  setOffice c o (fun y => { y with outcomes := y.outcomes ++ [(added, poison)], journal := [], waitPage := none, pageFault := none })
    { s with wrote := [], wroteFar := [] }

/-- The round is complete (R247, R248): receipts in ascending RANK, DELIVERED for what was added and RETURNED for what was not, the
result envelope, and empty slots. (DEDUCED, log 71) -/
def roundEnd (c o ctx : Nat) (s : State) : State :=
  let x := office s c o
  let rounds := x.rounds + 1
  let poison := x.outcomes.any fun y => !y.1 || y.2
  let s := ((officeHeld x).zip x.outcomes).foldl (fun s y => sendReceipt y.1.2 (if y.2.1 then 1 else 2) s) s
  let s := setOffice c o (fun y => { y with slots := [], adding := false, rounds := rounds, zeroed := false, outcomes := [] }) s
  postEnvelope c (resultEnvelope s c ctx x.record.toNat rounds poison) s

/-- The contributions still to be added, in ascending RANK: one that breaks a rule or faults leaves a record (R247). -/
def roundAdd (c o ctx t : Nat) : List (Nat × Nat) → List Ev → State → State
  | [], _, s => roundEnd c o ctx s
  | x :: r, j, s =>
    match runFrom j false (addContribution (officeEnv c ctx (office s c o)) t (envAddr x.2)) s with
    | .ok p s => roundAdd c o ctx t r [] (roundNote c o true (p || envPoison x.2) s)
    | .error (.fault f, _) s =>
      roundAdd c o ctx t r [] (roundNote c o false true
        (stageRec (dieOf c) { unit := .msg, reason := f.reason, core := c, ctx := ctx, addr := f.addr, postmark := some (envPm x.2) } s))
    | .error (stop, j) s => roundWait c o ctx stop j s

/-- The target is zero, or could not be made so: the additions follow. -/
def roundGo (c o ctx : Nat) (s : State) : State :=
  let x := office s c o
  roundAdd c o ctx x.target.toNat ((officeHeld x).drop x.outcomes.length) x.journal s

/-- The target of a round is zeroed once, before the first addition. -/
def roundZeroed (c o : Nat) (s : State) : State :=
  setOffice c o (fun y => { y with zeroed := true, journal := [], waitPage := none, pageFault := none }) { s with wrote := [], wroteFar := [] }

/-- OFFICE_ROUND_COMPLETE (R247, R248): the target is zeroed where asked, the contributions are added in ascending RANK, the
result envelope is posted and the slots are emptied. A page that is absent holds the round. -/
def officeRoundComplete (c o : Nat) (s : State) : State :=
  let x := office s c o
  match x.owner with
  | none => s
  | some ctx =>
    if !(x.adding && running s) then s
    else if soZero x.record.toNat && !x.zeroed then
      match runFrom x.journal false (zeroTarget (officeEnv c ctx x) x.target.toNat) s with
      | .ok _ s => roundGo c o ctx (roundZeroed c o s)
      | .error (.fault _, _) s => roundGo c o ctx (roundZeroed c o s)
      | .error (stop, j) s => roundWait c o ctx stop j s
    else roundGo c o ctx s

end Sys2Proof.Machine
end

