-- ==== Sys2Proof/Machine/ExecMessage.lean ====
section
/-! DEFINITION. The meanings of the commands of mailboxes, offices, stamps and seals, one definition each. -/

namespace Sys2Proof.Machine

/-- SEND (R234). -/
def execSend (core : Fin 128) (s : State) : Host.Outcome State Fault Refusal :=
  .next (sendRow core.val s)

/-- RECV (R239). -/
def execRecv (core : Fin 128) (s : State) : Host.Outcome State Fault Refusal :=
  .next (runEngine core.val .msg 2 (recvOne false core.val) s)

/-- POLL (R239). -/
def execPoll (core : Fin 128) (s : State) : Host.Outcome State Fault Refusal :=
  .next (runEngine core.val .msg 3 (recvOne true core.val) s)

/-- MB_OPEN (R236). -/
def execMbOpen (core : Fin 128) (s : State) : Host.Outcome State Fault Refusal :=
  .next (runEngine core.val .msg 4 (mbOpenOne core.val) s)

/-- MB_CLOSE (R236). -/
def execMbClose (core : Fin 128) (s : State) : Host.Outcome State Fault Refusal :=
  .next (runEngine core.val .msg 5 (mbCloseOne core.val) s)

/-- SO_OPEN (R245). -/
def execSoOpen (core : Fin 128) (s : State) : Host.Outcome State Fault Refusal :=
  .next (runEngine core.val .msg 8 (soOpenOne core.val) s)

/-- SO_CLOSE (R248). -/
def execSoClose (core : Fin 128) (s : State) : Host.Outcome State Fault Refusal :=
  .next (soCloseRow core.val s)

/-- STAMP_GET (R250). -/
def execStampGet (core : Fin 128) (s : State) : Host.Outcome State Fault Refusal :=
  .next (stampGetRow core.val s)

/-- STAMP_PUT (R252). -/
def execStampPut (core : Fin 128) (s : State) : Host.Outcome State Fault Refusal :=
  .next (runEngine core.val .msg 0x11 (stampPutOne core.val) s)

/-- SEAL_CREATE (R253). -/
def execSealCreate (core : Fin 128) (s : State) : Host.Outcome State Fault Refusal :=
  .next (runEngine core.val .msg 0x18 (sealCreateOne core.val) s)

/-- SEAL_FREE (R253). -/
def execSealFree (core : Fin 128) (s : State) : Host.Outcome State Fault Refusal :=
  .next (runEngine core.val .msg 0x19 (sealFreeOne core.val) s)

/-- SEAL_IMPORT (R253). -/
def execSealImport (core : Fin 128) (s : State) : Host.Outcome State Fault Refusal :=
  .next (sealImportRow core.val s)

/-- SEAL_IMPORT_RESPONSE (R253). -/
def execSealImportResponse (core : Fin 128) (answer : Option (Fin 4096 × BitVec 8))
    (s : State) : Host.Outcome State Fault Refusal :=
  .next (Sys2Proof.Machine.sealImportResponse core.val (answer.map fun a => (a.1.val, a.2.toNat)) s)

/-- SEAL_ADD (R254). -/
def execSealAdd (core : Fin 128) (s : State) : Host.Outcome State Fault Refusal :=
  .next (runEngine core.val .msg 0x1B (sealAddOne core.val) s)

/-- ENVELOPE_ARRIVAL (R237). -/
def execEnvelopeArrival (n : Nat) (received : BitVec 256) (s : State) : Host.Outcome State Fault Refusal :=
  .next (Sys2Proof.Machine.envelopeArrival n received s)

/-- OFFICE_ROUND_COMPLETE (R248). -/
def execOfficeRoundComplete (core : Fin 128) (office : Fin 4) (s : State) : Host.Outcome State Fault Refusal :=
  .next (Sys2Proof.Machine.officeRoundComplete core.val office.val s)

/-- RECEIPT_ARRIVAL (R242). -/
def execReceiptArrival (n : Nat) (s : State) : Host.Outcome State Fault Refusal :=
  .next (Sys2Proof.Machine.receiptArrival n s)

/-- SEND_STALL_EVENT (R240). -/
def execSendStallEvent (core : Fin 128) (s : State) : Host.Outcome State Fault Refusal :=
  .next (Sys2Proof.Machine.sendStallEvent core.val s)

/-- STAMP_GRANT (R250). -/
def execStampGrant (core : Fin 128) (s : State) : Host.Outcome State Fault Refusal :=
  .next (Sys2Proof.Machine.stampGrant core.val s)

/-- REMOTE_BURST_WRITE (R251). -/
def execRemoteBurstWrite (n : Nat) (s : State) : Host.Outcome State Fault Refusal :=
  .next (Sys2Proof.Machine.remoteBurstWrite n s)

/-- STAMP_RETURN (R251). -/
def execStampReturn (n : Nat) (s : State) : Host.Outcome State Fault Refusal :=
  .next (Sys2Proof.Machine.stampReturn n s)

/-- SEAL_UPDATE (R254). -/
def execSealUpdate (n : Nat) (s : State) : Host.Outcome State Fault Refusal :=
  .next (Sys2Proof.Machine.sealUpdate n s)

/-- SEAL_DBG_SET (R257). -/
def execSealDbgSet (w : Who) (v : Word32) (s : State) : Host.Outcome State Fault Refusal :=
  .next (unitRow w 0x3700 0xA v.toNat s)

end Sys2Proof.Machine
end

