-- ==== Sys2Proof/Machine/ExecModuli.lean ====
section
/-! DEFINITION. The meanings of the commands of modulus table and chain slots, one definition each. -/

namespace Sys2Proof.Machine

/-- MT_LOAD (R46). -/
def execMtLoad (w : Who) (v : BitVec 16) (s : State) : Host.Outcome State Fault Refusal :=
  .next (unitRow w 0x3100 2 v.toNat s)

/-- MT_LOAD_END (R45). -/
def execMtLoadEnd (s : State) : Host.Outcome State Fault Refusal :=
  .next (Sys2Proof.Machine.mtLoadEnd s)

/-- MT_EVICT (R46). -/
def execMtEvict (w : Who) (v : BitVec 16) (s : State) : Host.Outcome State Fault Refusal :=
  .next (unitRow w 0x3100 3 v.toNat s)

/-- MT_EVICT_END (R45). -/
def execMtEvictEnd (s : State) : Host.Outcome State Fault Refusal :=
  .next (Sys2Proof.Machine.mtEvictEnd s)

/-- ACTIVATE (R48). -/
def execActivate (w : Who) (slot : Fin 16) (s : State) : Host.Outcome State Fault Refusal :=
  .next (unitRow w (0x3110 + slot.val) 2 1 s)

/-- ACTIVATE_DONE (R48). -/
def execActivateDone (slot : Fin 16) (s : State) : Host.Outcome State Fault Refusal :=
  .next (Sys2Proof.Machine.activateDone slot.val s)

/-- DRAIN (R49). -/
def execDrain (w : Who) (slot : Fin 16) (s : State) : Host.Outcome State Fault Refusal :=
  .next (unitRow w (0x3110 + slot.val) 2 2 s)

/-- DRAIN_COMPLETE (R49). -/
def execDrainComplete (slot : Fin 16) (s : State) : Host.Outcome State Fault Refusal :=
  .next (Sys2Proof.Machine.drainComplete slot.val s)

end Sys2Proof.Machine
end

