-- ==== Sys2Proof/Machine/ExecPoly.lean ====
section
/-! DEFINITION. The meanings of the commands of the polynomial engine and the gate class, one definition each. -/

namespace Sys2Proof.Machine

/-- NTT_FWD (R54). -/
def execNttFwd (core : Fin 128) (s : State) : Host.Outcome State Fault Refusal :=
  .next (polyRow core.val 0x10 (polyRun dataNttFwd) s)

/-- NTT_INV (R54). -/
def execNttInv (core : Fin 128) (s : State) : Host.Outcome State Fault Refusal :=
  .next (polyRow core.val 0x11 (polyRun dataNttInv) s)

/-- AUTO (R57). -/
def execAuto (core : Fin 128) (s : State) : Host.Outcome State Fault Refusal :=
  .next (polyRow core.val 0x14 (polyRun dataAuto) s)

/-- PW_ADD (R59). -/
def execPwAdd (core : Fin 128) (s : State) : Host.Outcome State Fault Refusal :=
  .next (polyRow core.val 0x20 (polyRun dataPwAdd) s)

/-- PW_SUB (R59). -/
def execPwSub (core : Fin 128) (s : State) : Host.Outcome State Fault Refusal :=
  .next (polyRow core.val 0x21 (polyRun dataPwSub) s)

/-- PW_NEG (R59). -/
def execPwNeg (core : Fin 128) (s : State) : Host.Outcome State Fault Refusal :=
  .next (polyRow core.val 0x22 (polyRun dataPwNeg) s)

/-- PW_MUL (R59). -/
def execPwMul (core : Fin 128) (s : State) : Host.Outcome State Fault Refusal :=
  .next (polyRow core.val 0x24 (polyRun dataPwMul) s)

/-- PW_MAC (R59). -/
def execPwMac (core : Fin 128) (s : State) : Host.Outcome State Fault Refusal :=
  .next (polyRow core.val 0x25 (polyRun dataPwMac) s)

/-- PW_MULC (R59). -/
def execPwMulc (core : Fin 128) (s : State) : Host.Outcome State Fault Refusal :=
  .next (polyRow core.val 0x26 (polyRun dataPwMulc) s)

/-- PW_MACC (R59). -/
def execPwMacc (core : Fin 128) (s : State) : Host.Outcome State Fault Refusal :=
  .next (polyRow core.val 0x27 (polyRun dataPwMacc) s)

/-- TENSOR (R59). -/
def execTensor (core : Fin 128) (s : State) : Host.Outcome State Fault Refusal :=
  .next (polyRow core.val 0x28 (polyRun dataTensor) s)

/-- KEY_MAC (R93). -/
def execKeyMac (core : Fin 128) (s : State) : Host.Outcome State Fault Refusal :=
  .next (keyMacRow core.val s)

/-- BCONV (R60). -/
def execBconv (core : Fin 128) (s : State) : Host.Outcome State Fault Refusal :=
  .next (bconvRowCmd core.val s)

/-- RESCALE (R66). -/
def execRescale (core : Fin 128) (s : State) : Host.Outcome State Fault Refusal :=
  .next (polyRow core.val 0x31 (polyRun dataRescale) s)

/-- TRANSPOSE (R62). -/
def execTranspose (core : Fin 128) (s : State) : Host.Outcome State Fault Refusal :=
  .next (polyRow core.val 0x38 (polyRun dataTranspose) s)

/-- OPEN (R71). -/
def execOpenObj (core : Fin 128) (s : State) : Host.Outcome State Fault Refusal :=
  .next (polyRow core.val 0x3C (polyOpen) s)

/-- COMMIT (R71). -/
def execCommit (core : Fin 128) (s : State) : Host.Outcome State Fault Refusal :=
  .next (polyRow core.val 0x3D (polyCommitObj) s)

/-- G_LIN (R115). -/
def execGLin (core : Fin 128) (s : State) : Host.Outcome State Fault Refusal :=
  .next (gateRow core.val 1 gateLin s)

/-- G_KSW (R116). -/
def execGKsw (core : Fin 128) (s : State) : Host.Outcome State Fault Refusal :=
  .next (gKswRow core.val s)

/-- G_REFRESH (R117). -/
def execGRefresh (core : Fin 128) (s : State) : Host.Outcome State Fault Refusal :=
  .next (gRefreshRow core.val s)

/-- G_COMBINE (R120). -/
def execGCombine (core : Fin 128) (s : State) : Host.Outcome State Fault Refusal :=
  .next (gateRow core.val 4 gateCombine s)

/-- G_EXTRACT (R123). -/
def execGExtract (core : Fin 128) (s : State) : Host.Outcome State Fault Refusal :=
  .next (gateRow core.val 8 gateExtract s)

/-- G_PACK (R124). -/
def execGPack (core : Fin 128) (s : State) : Host.Outcome State Fault Refusal :=
  .next (gateRow core.val 9 gatePack s)

end Sys2Proof.Machine
end

