-- ==== Sys2Proof/Machine/ExecPort.lean ====
section
/-! DEFINITION. The meanings of the commands of the host ports and results, one definition each. -/

namespace Sys2Proof.Machine

/-- A dropped frame is counted whatever its cause (R323, R324, R372). -/
def frameDropRow (port : Nat) (_cause : DropCause) (s : State) : State := Sys2Proof.Machine.ethFrameDrop port s

/-- ETH_FRAME_DROP (R323). -/
def execEthFrameDrop (port : Fin 2) (cause : DropCause) (s : State) : Host.Outcome State Fault Refusal :=
  .next (frameDropRow port.val cause s)

/-- ETH_SPEED_WRITE (R322). -/
def execEthSpeedWrite (w : Who) (port : Fin 2) (v : BitVec 8) (s : State) : Host.Outcome State Fault Refusal :=
  .next (unitRow w (0x3B10 + port.val) 1 v.toNat s)

/-- ETH_TRAINING_DONE (R322). -/
def execEthTrainingDone (port : Fin 2) (s : State) : Host.Outcome State Fault Refusal :=
  .next (Sys2Proof.Machine.ethTrainingDone port.val s)

/-- MACSEC_SAK_LOAD (R325). -/
def execMacsecSakLoad (w : Who) (port : Fin 2) (v : Word64) (s : State) : Host.Outcome State Fault Refusal :=
  .next (unitRow w (0x3B10 + port.val) 9 v.toNat s)

/-- ROCE_RDMA_WRITE (R329). -/
def execRoceRdmaWrite (port : Fin 2) (qpn : BitVec 24) (psn : BitVec 24) (rkey : Word32) (addr : Word64) (data : List Byte)
    (s : State) : Host.Outcome State Fault Refusal :=
  .next (roceRow port.val qpn.toNat psn (roceWrite port.val qpn.toNat psn rkey.toNat addr.toNat data) s)

/-- ROCE_RDMA_READ (R328). -/
def execRoceRdmaRead (port : Fin 2) (qpn : BitVec 24) (psn : BitVec 24) (rkey : Word32) (addr : Word64) (len : Nat)
    (s : State) : Host.Outcome State Fault Refusal :=
  .next (roceRow port.val qpn.toNat psn (roceRead port.val qpn.toNat psn rkey.toNat addr.toNat len) s)

/-- ROCE_NAK_RECEIVE (R327). -/
def execRoceNakReceive (port : Fin 2) (qpn : BitVec 24) (psn : BitVec 24) (s : State) : Host.Outcome State Fault Refusal :=
  .next (roceNak port.val qpn.toNat psn s)

/-- ROCE_TIMEOUT (R327). -/
def execRoceTimeout (port : Fin 2) (qpn : BitVec 24) (s : State) : Host.Outcome State Fault Refusal :=
  .next (Sys2Proof.Machine.roceTimeout port.val qpn.toNat s)

/-- ROCE_CNP_RECEIVE (R327). -/
def execRoceCnpReceive (port : Fin 2) (qpn : BitVec 24) (s : State) : Host.Outcome State Fault Refusal :=
  .next (roceCnp port.val qpn.toNat s)

/-- ROCE_RATE_RAISE (R327). -/
def execRoceRateRaise (port : Fin 2) (qpn : BitVec 24) (s : State) : Host.Outcome State Fault Refusal :=
  .next (roceRaise port.val qpn.toNat s)

/-- QP_CREATE (R328). -/
def execQpCreate (p : Path) (s : State) : Host.Outcome State Fault Refusal :=
  .next (Sys2Proof.Machine.qpCreate p s)

/-- QP_DESTROY (R328). -/
def execQpDestroy (p : Path) (s : State) : Host.Outcome State Fault Refusal :=
  .next (Sys2Proof.Machine.qpDestroy p s)

/-- WATCH (R339). -/
def execWatch (p : Path) (s : State) : Host.Outcome State Fault Refusal :=
  .next (Sys2Proof.Machine.watch p s)

/-- WATCH_READY (R339). -/
def execWatchReady (slot : Fin 65536) (s : State) : Host.Outcome State Fault Refusal :=
  .next (Sys2Proof.Machine.watchReady slot.val s)

/-- COMMAND_PAYLOAD (R332). -/
def execCommandPayload (p : Path) (bytes : List Byte) (s : State) : Host.Outcome State Fault Refusal :=
  .next (payloadRow p bytes s)

/-- DOORBELL_PAYLOAD (R333). -/
def execDoorbellPayload (p : Path) (bytes : List Byte) (s : State) : Host.Outcome State Fault Refusal :=
  .next (payloadRow p bytes s)

/-- RESULT_READ (R337). -/
def execResultRead (p : Path) (handle : Word32) (s : State) : Host.Outcome State Fault Refusal :=
  .next (Sys2Proof.Machine.resultRead p handle.toNat s)

/-- RESULT_RELEASE (R337). -/
def execResultRelease (p : Path) (handle : Word32) (s : State) : Host.Outcome State Fault Refusal :=
  .next (Sys2Proof.Machine.resultRelease p handle.toNat s)

/-- RESULT_TTL_EXPIRY (R337). -/
def execResultTtlExpiry (slot : Fin 65536) (s : State) : Host.Outcome State Fault Refusal :=
  .next (Sys2Proof.Machine.resultTtlExpiry slot.val s)

/-- SEM_ACQUIRE (R334). -/
def execSemAcquire (p : Path) (s : State) : Host.Outcome State Fault Refusal :=
  .next (unitRow (fullRights p) 0x3B00 1 1 s)

/-- SEM_RENEW (R334). -/
def execSemRenew (p : Path) (s : State) : Host.Outcome State Fault Refusal :=
  .next (unitRow (fullRights p) 0x3B00 1 2 s)

/-- SEM_RELEASE (R334). -/
def execSemRelease (p : Path) (s : State) : Host.Outcome State Fault Refusal :=
  .next (unitRow (fullRights p) 0x3B00 1 3 s)

/-- SEM_LEASE_EXPIRY (R334). -/
def execSemLeaseExpiry (s : State) : Host.Outcome State Fault Refusal :=
  .next (Sys2Proof.Machine.semLeaseExpiry s)

/-- SEM_BREAK (R335). -/
def execSemBreak (w : Who) (v : BitVec 8) (s : State) : Host.Outcome State Fault Refusal :=
  .next (unitRow w 0x3B00 4 v.toNat s)

end Sys2Proof.Machine
end

