-- ==== Sys2Proof/Machine/ExecPower.lean ====
section
/-! DEFINITION. The meanings of the commands of power, clocks and reset, one definition each. -/

namespace Sys2Proof.Machine

/-- POWER_ON (R408). -/
def execPowerOn (straps : BitVec 17) (s : State) : Host.Outcome State Fault Refusal :=
  .next (Sys2Proof.Machine.powerOn straps s)

/-- PWR_EN_ASSERT (R402). -/
def execPwrEnAssert (s : State) : Host.Outcome State Fault Refusal :=
  .next (Sys2Proof.Machine.pwrEnAssert s)

/-- PWR_EN_DEASSERT (R403). -/
def execPwrEnDeassert (s : State) : Host.Outcome State Fault Refusal :=
  .next (Sys2Proof.Machine.pwrEnDeassert s)

/-- INPUT_FAULT (R403). -/
def execInputFault (s : State) : Host.Outcome State Fault Refusal :=
  .next (Sys2Proof.Machine.inputFault s)

/-- PLL_LOCK (R409). -/
def execPllLock (s : State) : Host.Outcome State Fault Refusal :=
  .next (Sys2Proof.Machine.pllLock s)

/-- PLL_LOSS (R411). -/
def execPllLoss (s : State) : Host.Outcome State Fault Refusal :=
  .next (Sys2Proof.Machine.pllLoss s)

/-- THROTTLE_UPDATE (R404). -/
def execThrottleUpdate (die0 : Fin 65) (die1 : Fin 65) (s : State) : Host.Outcome State Fault Refusal :=
  .next (Sys2Proof.Machine.throttleUpdate die0.val die1.val s)

/-- THERMAL_ALERT (R406). -/
def execThermalAlert (die : Fin 2) (s : State) : Host.Outcome State Fault Refusal :=
  .next (Sys2Proof.Machine.thermalAlert die.val s)

/-- THERMAL_TRIP (R406). -/
def execThermalTrip (die : Fin 2) (s : State) : Host.Outcome State Fault Refusal :=
  .next (Sys2Proof.Machine.thermalTrip die.val s)

/-- RST_N (R412). -/
def execRstN (straps : BitVec 17) (s : State) : Host.Outcome State Fault Refusal :=
  .next (Sys2Proof.Machine.rstN straps s)

/-- RESET_CTRL_COLD (R412). -/
def execResetCtrlCold (w : Who) (s : State) : Host.Outcome State Fault Refusal :=
  .next (unitRow w 0x5000 0x10 1 s)

/-- RESET_CTRL_SHARED (R413). -/
def execResetCtrlShared (w : Who) (s : State) : Host.Outcome State Fault Refusal :=
  .next (unitRow w 0x5000 0x10 2 s)

/-- SHARED_RESET_END (R413). -/
def execSharedResetEnd (s : State) : Host.Outcome State Fault Refusal :=
  .next (Sys2Proof.Machine.sharedResetEnd s)

/-- CORE_CLK (R410). -/
def execCoreClk (w : Who) (core : Fin 128) (v : BitVec 8) (s : State) : Host.Outcome State Fault Refusal :=
  .next (unitRow w (0x5080 + core.val) 1 v.toNat s)

/-- CLK_ALL (R410). -/
def execClkAll (w : Who) (v : BitVec 8) (s : State) : Host.Outcome State Fault Refusal :=
  .next (unitRow w 0x5001 1 v.toNat s)

/-- CLK_SWITCH_DONE (R410). -/
def execClkSwitchDone (core : Fin 128) (s : State) : Host.Outcome State Fault Refusal :=
  .next (Sys2Proof.Machine.clkSwitchDone core.val s)

/-- PWR_STATE_REQ (R414). -/
def execPwrStateReq (w : Who) (v : BitVec 8) (s : State) : Host.Outcome State Fault Refusal :=
  .next (unitRow w 0x5000 2 v.toNat s)

/-- PWR_ENTRY_DONE (R414). -/
def execPwrEntryDone (s : State) : Host.Outcome State Fault Refusal :=
  .next (Sys2Proof.Machine.pwrEntryDone s)

/-- WAKE_EVENT (R416). -/
def execWakeEvent (pin : Bool) (s : State) : Host.Outcome State Fault Refusal :=
  .next (Sys2Proof.Machine.wakeEvent pin s)

/-- PWR_EXIT_DONE (R417). -/
def execPwrExitDone (s : State) : Host.Outcome State Fault Refusal :=
  .next (Sys2Proof.Machine.pwrExitDone s)

end Sys2Proof.Machine
end

