-- ==== Sys2Proof/Machine/ExecStream.lean ====
section
/-! DEFINITION. The meanings of the commands of the command processor, one definition each. -/

namespace Sys2Proof.Machine

/-- A wait is over where it stands: at the head of a queue, or at dispatch. -/
def waitMetRow (c : Nat) (p : WaitPlace) (s : State) : State :=
  match p with
  | .queue q => waitMetAt c q s
  | .ctrl ctx => waitMetCtrl c ctx.val s

/-- DOORBELL (R207). -/
def execDoorbell (ctx : Fin 4096) (gen : BitVec 16) (core : Fin 128) (head : Word32)
    (s : State) : Host.Outcome State Fault Refusal :=
  .next ((Sys2Proof.Machine.doorbell ctx.val gen.toNat core.val head s).2)

/-- BLOCK_LOAD (R210). -/
def execBlockLoad (core : Fin 128) (ctx : Fin 4096) (s : State) : Host.Outcome State Fault Refusal :=
  .next (Sys2Proof.Machine.blockLoad core.val ctx.val s)

/-- DISPATCH (R213). -/
def execDispatch (core : Fin 128) (s : State) : Host.Outcome State Fault Refusal :=
  .next (Sys2Proof.Machine.dispatch core.val s)

/-- WAIT_MET (R215). -/
def execWaitMet (core : Fin 128) (place : WaitPlace) (s : State) : Host.Outcome State Fault Refusal :=
  .next (waitMetRow core.val place s)

/-- INSTRUCTION_RETIRE (R216). -/
def execInstructionRetire (core : Fin 128) (s : State) : Host.Outcome State Fault Refusal :=
  .next (Sys2Proof.Machine.instructionRetire core.val s)

/-- NOP (R223). -/
def execNop (core : Fin 128) (ctx : Fin 4096) (s : State) : Host.Outcome State Fault Refusal :=
  .next (ctrlNop core.val ctx.val s)

/-- AG_SET (R220). -/
def execAgSet (core : Fin 128) (ctx : Fin 4096) (s : State) : Host.Outcome State Fault Refusal :=
  .next (ctrlAgSet core.val ctx.val s)

/-- AG_RESET (R222). -/
def execAgReset (core : Fin 128) (ctx : Fin 4096) (s : State) : Host.Outcome State Fault Refusal :=
  .next (ctrlAgReset core.val ctx.val s)

/-- SEAL_BIND (R223). -/
def execSealBind (core : Fin 128) (ctx : Fin 4096) (s : State) : Host.Outcome State Fault Refusal :=
  .next (ctrlSealBind core.val ctx.val s)

/-- LOOP (R224). -/
def execLoop (core : Fin 128) (ctx : Fin 4096) (s : State) : Host.Outcome State Fault Refusal :=
  .next (ctrlLoop core.val ctx.val s)

/-- LOOP_PIN (R225). -/
def execLoopPin (core : Fin 128) (s : State) : Host.Outcome State Fault Refusal :=
  .next (Sys2Proof.Machine.loopPin core.val s)

/-- FENCE (R223). -/
def execFence (core : Fin 128) (ctx : Fin 4096) (s : State) : Host.Outcome State Fault Refusal :=
  .next (ctrlFence core.val ctx.val s)

/-- MARK (R223). -/
def execMark (core : Fin 128) (ctx : Fin 4096) (s : State) : Host.Outcome State Fault Refusal :=
  .next (ctrlMark core.val ctx.val s)

/-- END (R226). -/
def execEndStream (core : Fin 128) (ctx : Fin 4096) (s : State) : Host.Outcome State Fault Refusal :=
  .next (ctrlEnd core.val ctx.val s)

/-- HALT (R223). -/
def execHalt (core : Fin 128) (ctx : Fin 4096) (s : State) : Host.Outcome State Fault Refusal :=
  .next (ctrlHaltInstr core.val ctx.val s)

/-- STREAM_FINISH (R226). -/
def execStreamFinish (core : Fin 128) (ctx : Fin 4096) (s : State) : Host.Outcome State Fault Refusal :=
  .next (Sys2Proof.Machine.streamFinish core.val ctx.val s)

/-- CP_RESUME (R231). -/
def execCpResume (w : Who) (core : Fin 128) (s : State) : Host.Outcome State Fault Refusal :=
  .next (unitRow w (0x3680 + core.val) 7 1 s)

/-- CP_SKIP (R231). -/
def execCpSkip (w : Who) (core : Fin 128) (s : State) : Host.Outcome State Fault Refusal :=
  .next (unitRow w (0x3680 + core.val) 7 2 s)

/-- DEBUG_HALT (R231). -/
def execDebugHalt (w : Who) (core : Fin 128) (s : State) : Host.Outcome State Fault Refusal :=
  .next (unitRow w (0x3680 + core.val) 7 3 s)

/-- IMEM_RELOAD (R211). -/
def execImemReload (w : Who) (core : Fin 128) (ctx : Fin 4096) (ringBlock : BitVec 24)
    (s : State) : Host.Outcome State Fault Refusal :=
  .next (unitRow w (0x3680 + core.val) 8 (ctx.val * 2 ^ 48 + ringBlock.toNat) s)

/-- IMEM_RELOAD_FORCE (R211). -/
def execImemReloadForce (w : Who) (core : Fin 128) (ctx : Fin 4096) (ringBlock : BitVec 24)
    (s : State) : Host.Outcome State Fault Refusal :=
  .next (unitRow w (0x3680 + core.val) 8 (ctx.val * 2 ^ 48 + 2 ^ 40 + ringBlock.toNat) s)

/-- IMEM_RELOAD_HELD_DONE (R211). -/
def execImemReloadHeldDone (core : Fin 128) (s : State) : Host.Outcome State Fault Refusal :=
  .next (reloadHeldDone core.val s)

end Sys2Proof.Machine
end

