-- ==== Sys2Proof/Machine/ExecTensor.lean ====
section
/-! DEFINITION. The meanings of the commands of the matrix array and the vector engine, one definition each. -/

namespace Sys2Proof.Machine

/-- MM (R141). -/
def execMm (core : Fin 128) (s : State) : Host.Outcome State Fault Refusal :=
  .next (mmRow core.val s)

/-- TILE_PUSH (R138). -/
def execTilePush (core : Fin 128) (s : State) : Host.Outcome State Fault Refusal :=
  .next (Sys2Proof.Machine.tilePush core.val s)

/-- ARRIVAL_CHUNK_MET (R158). -/
def execArrivalChunkMet (core : Fin 128) (s : State) : Host.Outcome State Fault Refusal :=
  .next (Sys2Proof.Machine.arrivalChunkMet core.val s)

/-- VADD (R168). -/
def execVadd (core : Fin 128) (s : State) : Host.Outcome State Fault Refusal :=
  .next (vecRow core.val 0x01 s)

/-- VSUB (R168). -/
def execVsub (core : Fin 128) (s : State) : Host.Outcome State Fault Refusal :=
  .next (vecRow core.val 0x02 s)

/-- VMUL (R168). -/
def execVmul (core : Fin 128) (s : State) : Host.Outcome State Fault Refusal :=
  .next (vecRow core.val 0x03 s)

/-- VFMA (R168). -/
def execVfma (core : Fin 128) (s : State) : Host.Outcome State Fault Refusal :=
  .next (vecRow core.val 0x04 s)

/-- VMAX (R168). -/
def execVmax (core : Fin 128) (s : State) : Host.Outcome State Fault Refusal :=
  .next (vecRow core.val 0x05 s)

/-- VMIN (R168). -/
def execVmin (core : Fin 128) (s : State) : Host.Outcome State Fault Refusal :=
  .next (vecRow core.val 0x06 s)

/-- VNEG (R168). -/
def execVneg (core : Fin 128) (s : State) : Host.Outcome State Fault Refusal :=
  .next (vecRow core.val 0x07 s)

/-- VABS (R168). -/
def execVabs (core : Fin 128) (s : State) : Host.Outcome State Fault Refusal :=
  .next (vecRow core.val 0x08 s)

/-- VCVT (R168). -/
def execVcvt (core : Fin 128) (s : State) : Host.Outcome State Fault Refusal :=
  .next (vecRow core.val 0x09 s)

/-- VCMP (R166). -/
def execVcmp (core : Fin 128) (s : State) : Host.Outcome State Fault Refusal :=
  .next (vecRow core.val 0x0A s)

/-- VSEL (R166). -/
def execVsel (core : Fin 128) (s : State) : Host.Outcome State Fault Refusal :=
  .next (vecRow core.val 0x0B s)

/-- VEXP (R171). -/
def execVexp (core : Fin 128) (s : State) : Host.Outcome State Fault Refusal :=
  .next (vecRow core.val 0x10 s)

/-- VLOG (R171). -/
def execVlog (core : Fin 128) (s : State) : Host.Outcome State Fault Refusal :=
  .next (vecRow core.val 0x11 s)

/-- VRSQRT (R171). -/
def execVrsqrt (core : Fin 128) (s : State) : Host.Outcome State Fault Refusal :=
  .next (vecRow core.val 0x12 s)

/-- VRECIP (R171). -/
def execVrecip (core : Fin 128) (s : State) : Host.Outcome State Fault Refusal :=
  .next (vecRow core.val 0x13 s)

/-- VSQRT (R171). -/
def execVsqrt (core : Fin 128) (s : State) : Host.Outcome State Fault Refusal :=
  .next (vecRow core.val 0x14 s)

/-- VTANH (R171). -/
def execVtanh (core : Fin 128) (s : State) : Host.Outcome State Fault Refusal :=
  .next (vecRow core.val 0x15 s)

/-- VSIGM (R171). -/
def execVsigm (core : Fin 128) (s : State) : Host.Outcome State Fault Refusal :=
  .next (vecRow core.val 0x16 s)

/-- VRELU (R171). -/
def execVrelu (core : Fin 128) (s : State) : Host.Outcome State Fault Refusal :=
  .next (vecRow core.val 0x17 s)

/-- VSILU (R171). -/
def execVsilu (core : Fin 128) (s : State) : Host.Outcome State Fault Refusal :=
  .next (vecRow core.val 0x18 s)

/-- VGELU (R171). -/
def execVgelu (core : Fin 128) (s : State) : Host.Outcome State Fault Refusal :=
  .next (vecRow core.val 0x19 s)

/-- VIADD (R168). -/
def execViadd (core : Fin 128) (s : State) : Host.Outcome State Fault Refusal :=
  .next (vecRow core.val 0x20 s)

/-- VISUB (R168). -/
def execVisub (core : Fin 128) (s : State) : Host.Outcome State Fault Refusal :=
  .next (vecRow core.val 0x21 s)

/-- VIMUL (R168). -/
def execVimul (core : Fin 128) (s : State) : Host.Outcome State Fault Refusal :=
  .next (vecRow core.val 0x22 s)

/-- VSHR (R166). -/
def execVshr (core : Fin 128) (s : State) : Host.Outcome State Fault Refusal :=
  .next (vecRow core.val 0x23 s)

/-- VAND (R166). -/
def execVand (core : Fin 128) (s : State) : Host.Outcome State Fault Refusal :=
  .next (vecRow core.val 0x24 s)

/-- VOR (R166). -/
def execVor (core : Fin 128) (s : State) : Host.Outcome State Fault Refusal :=
  .next (vecRow core.val 0x25 s)

/-- VXOR (R166). -/
def execVxor (core : Fin 128) (s : State) : Host.Outcome State Fault Refusal :=
  .next (vecRow core.val 0x26 s)

/-- VIMAX (R166). -/
def execVimax (core : Fin 128) (s : State) : Host.Outcome State Fault Refusal :=
  .next (vecRow core.val 0x27 s)

/-- VIMIN (R166). -/
def execVimin (core : Fin 128) (s : State) : Host.Outcome State Fault Refusal :=
  .next (vecRow core.val 0x28 s)

/-- VRSUM (R169). -/
def execVrsum (core : Fin 128) (s : State) : Host.Outcome State Fault Refusal :=
  .next (vecRow core.val 0x30 s)

/-- VRMAX (R169). -/
def execVrmax (core : Fin 128) (s : State) : Host.Outcome State Fault Refusal :=
  .next (vecRow core.val 0x31 s)

/-- VRMIN (R169). -/
def execVrmin (core : Fin 128) (s : State) : Host.Outcome State Fault Refusal :=
  .next (vecRow core.val 0x32 s)

/-- VRSSQ (R169). -/
def execVrssq (core : Fin 128) (s : State) : Host.Outcome State Fault Refusal :=
  .next (vecRow core.val 0x33 s)

/-- VRISUM (R169). -/
def execVrisum (core : Fin 128) (s : State) : Host.Outcome State Fault Refusal :=
  .next (vecRow core.val 0x34 s)

/-- VROWFIN (R174). -/
def execVrowfin (core : Fin 128) (s : State) : Host.Outcome State Fault Refusal :=
  .next (vecRow core.val 0x38 s)

/-- VLDR (R166). -/
def execVldr (core : Fin 128) (s : State) : Host.Outcome State Fault Refusal :=
  .next (vecRow core.val 0x3C s)

/-- VSTR (R166). -/
def execVstr (core : Fin 128) (s : State) : Host.Outcome State Fault Refusal :=
  .next (vecRow core.val 0x3D s)

/-- TILE_POP (R172). -/
def execTilePop (core : Fin 128) (s : State) : Host.Outcome State Fault Refusal :=
  .next (Sys2Proof.Machine.tilePop core.val s)

end Sys2Proof.Machine
end

