-- ==== Sys2Proof/Machine/ExecUpdate.lean ====
section
/-! DEFINITION. The meanings of the commands of the parameter update, one definition each. -/

namespace Sys2Proof.Machine

/-- UPD_HEAD_WRITE (R309). -/
def execUpdHeadWrite (w : Who) (v : Word32) (s : State) : Host.Outcome State Fault Refusal :=
  .next (unitRow w 0x3A00 3 v.toNat s)

/-- UPD_JOB_START (R313). -/
def execUpdJobStart (s : State) : Host.Outcome State Fault Refusal :=
  .next (Sys2Proof.Machine.updJobStart s)

/-- JOB_HEADER_RECEIVE (R313). -/
def execJobHeaderReceive (die : Fin 2) (member : Fin 8) (h : Option JobHeader) (s : State) : Host.Outcome State Fault Refusal :=
  .next (Sys2Proof.Machine.jobHeaderReceive die.val member.val h s)

/-- UPD_PEER_TIMEOUT (R313). -/
def execUpdPeerTimeout (die : Fin 2) (s : State) : Host.Outcome State Fault Refusal :=
  .next (Sys2Proof.Machine.updPeerTimeout die.val s)

/-- CHUNK_RECEIVE (R314). -/
def execChunkReceive (die : Fin 2) (k : Nat) (data : List Word32) (poisoned : Bool) (crcOk : Bool)
    (s : State) : Host.Outcome State Fault Refusal :=
  .next (Sys2Proof.Machine.chunkReceive die.val k data poisoned crcOk s)

/-- VERDICT_RECEIVE (R317). -/
def execVerdictReceive (die : Fin 2) (member : Fin 8) (v : Verdict) (sw : Word64) (su : Word64)
    (s : State) : Host.Outcome State Fault Refusal :=
  .next (Sys2Proof.Machine.verdictReceive die.val member.val v sw su s)

/-- UPD_JOB_END (R318). -/
def execUpdJobEnd (die : Fin 2) (s : State) : Host.Outcome State Fault Refusal :=
  .next (Sys2Proof.Machine.updJobEnd die.val s)

/-- ABORT_NOTICE_RECEIVE (R319). -/
def execAbortNoticeReceive (die : Fin 2) (member : Fin 8) (s : State) : Host.Outcome State Fault Refusal :=
  .next (abortNotice die.val member.val s)

end Sys2Proof.Machine
end

