-- ==== Sys2Proof/Machine/Dispatch.lean ====
section
/-! DEFINITION. What each command does: one arm per command, each a call of its meaning. -/

namespace Sys2Proof.Machine

def exec (i : Instr) (s : State) : Host.Outcome State Fault Refusal :=
  match i with
  | .mtLoad w v => Sys2Proof.Machine.execMtLoad w v s
  | .mtLoadEnd => Sys2Proof.Machine.execMtLoadEnd s
  | .mtEvict w v => Sys2Proof.Machine.execMtEvict w v s
  | .mtEvictEnd => Sys2Proof.Machine.execMtEvictEnd s
  | .activate w slot => Sys2Proof.Machine.execActivate w slot s
  | .activateDone slot => Sys2Proof.Machine.execActivateDone slot s
  | .drain w slot => Sys2Proof.Machine.execDrain w slot s
  | .drainComplete slot => Sys2Proof.Machine.execDrainComplete slot s
  | .nttFwd core => Sys2Proof.Machine.execNttFwd core s
  | .nttInv core => Sys2Proof.Machine.execNttInv core s
  | .auto core => Sys2Proof.Machine.execAuto core s
  | .pwAdd core => Sys2Proof.Machine.execPwAdd core s
  | .pwSub core => Sys2Proof.Machine.execPwSub core s
  | .pwNeg core => Sys2Proof.Machine.execPwNeg core s
  | .pwMul core => Sys2Proof.Machine.execPwMul core s
  | .pwMac core => Sys2Proof.Machine.execPwMac core s
  | .pwMulc core => Sys2Proof.Machine.execPwMulc core s
  | .pwMacc core => Sys2Proof.Machine.execPwMacc core s
  | .tensor core => Sys2Proof.Machine.execTensor core s
  | .keyMac core => Sys2Proof.Machine.execKeyMac core s
  | .bconv core => Sys2Proof.Machine.execBconv core s
  | .rescale core => Sys2Proof.Machine.execRescale core s
  | .transpose core => Sys2Proof.Machine.execTranspose core s
  | .openObj core => Sys2Proof.Machine.execOpenObj core s
  | .commit core => Sys2Proof.Machine.execCommit core s
  | .gLin core => Sys2Proof.Machine.execGLin core s
  | .gKsw core => Sys2Proof.Machine.execGKsw core s
  | .gRefresh core => Sys2Proof.Machine.execGRefresh core s
  | .gCombine core => Sys2Proof.Machine.execGCombine core s
  | .gExtract core => Sys2Proof.Machine.execGExtract core s
  | .gPack core => Sys2Proof.Machine.execGPack core s
  | .mm core => Sys2Proof.Machine.execMm core s
  | .tilePush core => Sys2Proof.Machine.execTilePush core s
  | .arrivalChunkMet core => Sys2Proof.Machine.execArrivalChunkMet core s
  | .vadd core => Sys2Proof.Machine.execVadd core s
  | .vsub core => Sys2Proof.Machine.execVsub core s
  | .vmul core => Sys2Proof.Machine.execVmul core s
  | .vfma core => Sys2Proof.Machine.execVfma core s
  | .vmax core => Sys2Proof.Machine.execVmax core s
  | .vmin core => Sys2Proof.Machine.execVmin core s
  | .vneg core => Sys2Proof.Machine.execVneg core s
  | .vabs core => Sys2Proof.Machine.execVabs core s
  | .vcvt core => Sys2Proof.Machine.execVcvt core s
  | .vcmp core => Sys2Proof.Machine.execVcmp core s
  | .vsel core => Sys2Proof.Machine.execVsel core s
  | .vexp core => Sys2Proof.Machine.execVexp core s
  | .vlog core => Sys2Proof.Machine.execVlog core s
  | .vrsqrt core => Sys2Proof.Machine.execVrsqrt core s
  | .vrecip core => Sys2Proof.Machine.execVrecip core s
  | .vsqrt core => Sys2Proof.Machine.execVsqrt core s
  | .vtanh core => Sys2Proof.Machine.execVtanh core s
  | .vsigm core => Sys2Proof.Machine.execVsigm core s
  | .vrelu core => Sys2Proof.Machine.execVrelu core s
  | .vsilu core => Sys2Proof.Machine.execVsilu core s
  | .vgelu core => Sys2Proof.Machine.execVgelu core s
  | .viadd core => Sys2Proof.Machine.execViadd core s
  | .visub core => Sys2Proof.Machine.execVisub core s
  | .vimul core => Sys2Proof.Machine.execVimul core s
  | .vshr core => Sys2Proof.Machine.execVshr core s
  | .vand core => Sys2Proof.Machine.execVand core s
  | .vor core => Sys2Proof.Machine.execVor core s
  | .vxor core => Sys2Proof.Machine.execVxor core s
  | .vimax core => Sys2Proof.Machine.execVimax core s
  | .vimin core => Sys2Proof.Machine.execVimin core s
  | .vrsum core => Sys2Proof.Machine.execVrsum core s
  | .vrmax core => Sys2Proof.Machine.execVrmax core s
  | .vrmin core => Sys2Proof.Machine.execVrmin core s
  | .vrssq core => Sys2Proof.Machine.execVrssq core s
  | .vrisum core => Sys2Proof.Machine.execVrisum core s
  | .vrowfin core => Sys2Proof.Machine.execVrowfin core s
  | .vldr core => Sys2Proof.Machine.execVldr core s
  | .vstr core => Sys2Proof.Machine.execVstr core s
  | .tilePop core => Sys2Proof.Machine.execTilePop core s
  | .keyStream core => Sys2Proof.Machine.execKeyStream core s
  | .streamStart round => Sys2Proof.Machine.execStreamStart round s
  | .parcelForm round => Sys2Proof.Machine.execParcelForm round s
  | .parcelArrival core crcOk => Sys2Proof.Machine.execParcelArrival core crcOk s
  | .relayStall core slot => Sys2Proof.Machine.execRelayStall core slot s
  | .doorbell ctx gen core head => Sys2Proof.Machine.execDoorbell ctx gen core head s
  | .blockLoad core ctx => Sys2Proof.Machine.execBlockLoad core ctx s
  | .dispatch core => Sys2Proof.Machine.execDispatch core s
  | .waitMet core place => Sys2Proof.Machine.execWaitMet core place s
  | .instructionRetire core => Sys2Proof.Machine.execInstructionRetire core s
  | .nop core ctx => Sys2Proof.Machine.execNop core ctx s
  | .agSet core ctx => Sys2Proof.Machine.execAgSet core ctx s
  | .agReset core ctx => Sys2Proof.Machine.execAgReset core ctx s
  | .sealBind core ctx => Sys2Proof.Machine.execSealBind core ctx s
  | .loop core ctx => Sys2Proof.Machine.execLoop core ctx s
  | .loopPin core => Sys2Proof.Machine.execLoopPin core s
  | .fence core ctx => Sys2Proof.Machine.execFence core ctx s
  | .mark core ctx => Sys2Proof.Machine.execMark core ctx s
  | .endStream core ctx => Sys2Proof.Machine.execEndStream core ctx s
  | .halt core ctx => Sys2Proof.Machine.execHalt core ctx s
  | .streamFinish core ctx => Sys2Proof.Machine.execStreamFinish core ctx s
  | .cpResume w core => Sys2Proof.Machine.execCpResume w core s
  | .cpSkip w core => Sys2Proof.Machine.execCpSkip w core s
  | .debugHalt w core => Sys2Proof.Machine.execDebugHalt w core s
  | .imemReload w core ctx ringBlock => Sys2Proof.Machine.execImemReload w core ctx ringBlock s
  | .imemReloadForce w core ctx ringBlock => Sys2Proof.Machine.execImemReloadForce w core ctx ringBlock s
  | .imemReloadHeldDone core => Sys2Proof.Machine.execImemReloadHeldDone core s
  | .send core => Sys2Proof.Machine.execSend core s
  | .recv core => Sys2Proof.Machine.execRecv core s
  | .poll core => Sys2Proof.Machine.execPoll core s
  | .mbOpen core => Sys2Proof.Machine.execMbOpen core s
  | .mbClose core => Sys2Proof.Machine.execMbClose core s
  | .soOpen core => Sys2Proof.Machine.execSoOpen core s
  | .soClose core => Sys2Proof.Machine.execSoClose core s
  | .stampGet core => Sys2Proof.Machine.execStampGet core s
  | .stampPut core => Sys2Proof.Machine.execStampPut core s
  | .sealCreate core => Sys2Proof.Machine.execSealCreate core s
  | .sealFree core => Sys2Proof.Machine.execSealFree core s
  | .sealImport core => Sys2Proof.Machine.execSealImport core s
  | .sealImportResponse core answer => Sys2Proof.Machine.execSealImportResponse core answer s
  | .sealAdd core => Sys2Proof.Machine.execSealAdd core s
  | .envelopeArrival n received => Sys2Proof.Machine.execEnvelopeArrival n received s
  | .officeRoundComplete core office => Sys2Proof.Machine.execOfficeRoundComplete core office s
  | .receiptArrival n => Sys2Proof.Machine.execReceiptArrival n s
  | .sendStallEvent core => Sys2Proof.Machine.execSendStallEvent core s
  | .stampGrant core => Sys2Proof.Machine.execStampGrant core s
  | .remoteBurstWrite n => Sys2Proof.Machine.execRemoteBurstWrite n s
  | .stampReturn n => Sys2Proof.Machine.execStampReturn n s
  | .sealUpdate n => Sys2Proof.Machine.execSealUpdate n s
  | .sealDbgSet w v => Sys2Proof.Machine.execSealDbgSet w v s
  | .copy core => Sys2Proof.Machine.execCopy core s
  | .prefetch core => Sys2Proof.Machine.execPrefetch core s
  | .zero core => Sys2Proof.Machine.execZero core s
  | .relayW core => Sys2Proof.Machine.execRelayW core s
  | .scrubRead core bank => Sys2Proof.Machine.execScrubRead core bank s
  | .hbmRefresh stack targeted => Sys2Proof.Machine.execHbmRefresh stack targeted s
  | .retiredListCopy => Sys2Proof.Machine.execRetiredListCopy s
  | .pinWaysWrite w v => Sys2Proof.Machine.execPinWaysWrite w v s
  | .bwSplitWrite w v => Sys2Proof.Machine.execBwSplitWrite w v s
  | .spreadWrite w group v => Sys2Proof.Machine.execSpreadWrite w group v s
  | .tgStart w stack v => Sys2Proof.Machine.execTgStart w stack v s
  | .tgStop w stack v => Sys2Proof.Machine.execTgStop w stack v s
  | .tgEnterTest w stack v => Sys2Proof.Machine.execTgEnterTest w stack v s
  | .tgLeaveTest w stack v => Sys2Proof.Machine.execTgLeaveTest w stack v s
  | .contextOpen p => Sys2Proof.Machine.execContextOpen p s
  | .contextSet p => Sys2Proof.Machine.execContextSet p s
  | .reopen p => Sys2Proof.Machine.execReopen p s
  | .close p => Sys2Proof.Machine.execClose p s
  | .closeComplete ctx => Sys2Proof.Machine.execCloseComplete ctx s
  | .map p => Sys2Proof.Machine.execMap p s
  | .mapComplete ctx => Sys2Proof.Machine.execMapComplete ctx s
  | .unmap p => Sys2Proof.Machine.execUnmap p s
  | .mapHosted p => Sys2Proof.Machine.execMapHosted p s
  | .suspend ctx => Sys2Proof.Machine.execSuspend ctx s
  | .contextResume ctx => Sys2Proof.Machine.execContextResume ctx s
  | .kill ctx => Sys2Proof.Machine.execKill ctx s
  | .contextHalt ctx => Sys2Proof.Machine.execContextHalt ctx s
  | .priority ctx => Sys2Proof.Machine.execPriority ctx s
  | .expressTakeEffect core ctx => Sys2Proof.Machine.execExpressTakeEffect core ctx s
  | .contextSaveDone core ctx => Sys2Proof.Machine.execContextSaveDone core ctx s
  | .pageFetchStart => Sys2Proof.Machine.execPageFetchStart s
  | .pageFetchComplete n r => Sys2Proof.Machine.execPageFetchComplete n r s
  | .pageFetchTimeout n => Sys2Proof.Machine.execPageFetchTimeout n s
  | .pageAgeTick => Sys2Proof.Machine.execPageAgeTick s
  | .residencyChange => Sys2Proof.Machine.execResidencyChange s
  | .sliceExpiry ctx => Sys2Proof.Machine.execSliceExpiry ctx s
  | .updHeadWrite w v => Sys2Proof.Machine.execUpdHeadWrite w v s
  | .updJobStart => Sys2Proof.Machine.execUpdJobStart s
  | .jobHeaderReceive die member h => Sys2Proof.Machine.execJobHeaderReceive die member h s
  | .updPeerTimeout die => Sys2Proof.Machine.execUpdPeerTimeout die s
  | .chunkReceive die k data poisoned crcOk => Sys2Proof.Machine.execChunkReceive die k data poisoned crcOk s
  | .verdictReceive die member v sw su => Sys2Proof.Machine.execVerdictReceive die member v sw su s
  | .updJobEnd die => Sys2Proof.Machine.execUpdJobEnd die s
  | .abortNoticeReceive die member => Sys2Proof.Machine.execAbortNoticeReceive die member s
  | .ethFrameDrop port cause => Sys2Proof.Machine.execEthFrameDrop port cause s
  | .ethSpeedWrite w port v => Sys2Proof.Machine.execEthSpeedWrite w port v s
  | .ethTrainingDone port => Sys2Proof.Machine.execEthTrainingDone port s
  | .macsecSakLoad w port v => Sys2Proof.Machine.execMacsecSakLoad w port v s
  | .roceRdmaWrite port qpn psn rkey addr data => Sys2Proof.Machine.execRoceRdmaWrite port qpn psn rkey addr data s
  | .roceRdmaRead port qpn psn rkey addr len => Sys2Proof.Machine.execRoceRdmaRead port qpn psn rkey addr len s
  | .roceNakReceive port qpn psn => Sys2Proof.Machine.execRoceNakReceive port qpn psn s
  | .roceTimeout port qpn => Sys2Proof.Machine.execRoceTimeout port qpn s
  | .roceCnpReceive port qpn => Sys2Proof.Machine.execRoceCnpReceive port qpn s
  | .roceRateRaise port qpn => Sys2Proof.Machine.execRoceRateRaise port qpn s
  | .qpCreate p => Sys2Proof.Machine.execQpCreate p s
  | .qpDestroy p => Sys2Proof.Machine.execQpDestroy p s
  | .watch p => Sys2Proof.Machine.execWatch p s
  | .watchReady slot => Sys2Proof.Machine.execWatchReady slot s
  | .commandPayload p bytes => Sys2Proof.Machine.execCommandPayload p bytes s
  | .doorbellPayload p bytes => Sys2Proof.Machine.execDoorbellPayload p bytes s
  | .resultRead p handle => Sys2Proof.Machine.execResultRead p handle s
  | .resultRelease p handle => Sys2Proof.Machine.execResultRelease p handle s
  | .resultTtlExpiry slot => Sys2Proof.Machine.execResultTtlExpiry slot s
  | .semAcquire p => Sys2Proof.Machine.execSemAcquire p s
  | .semRenew p => Sys2Proof.Machine.execSemRenew p s
  | .semRelease p => Sys2Proof.Machine.execSemRelease p s
  | .semLeaseExpiry => Sys2Proof.Machine.execSemLeaseExpiry s
  | .semBreak w v => Sys2Proof.Machine.execSemBreak w v s
  | .linkPacketReceive port bytes => Sys2Proof.Machine.execLinkPacketReceive port bytes s
  | .linkNakReceive port seq => Sys2Proof.Machine.execLinkNakReceive port seq s
  | .linkAckTimeout port => Sys2Proof.Machine.execLinkAckTimeout port s
  | .linkRetrainEnd port ok => Sys2Proof.Machine.execLinkRetrainEnd port ok s
  | .linkTrainDone port peer => Sys2Proof.Machine.execLinkTrainDone port peer s
  | .linkCommandTrain w port => Sys2Proof.Machine.execLinkCommandTrain w port s
  | .linkCommandDown w port => Sys2Proof.Machine.execLinkCommandDown w port s
  | .spareModeWrite w v => Sys2Proof.Machine.execSpareModeWrite w v s
  | .relayCmd bytes => Sys2Proof.Machine.execRelayCmd bytes s
  | .managerJoin confirmed peerTable => Sys2Proof.Machine.execManagerJoin confirmed peerTable s
  | .relayedPage ctx page data further => Sys2Proof.Machine.execRelayedPage ctx page data further s
  | .relayFrame bytes => Sys2Proof.Machine.execRelayFrame bytes s
  | .dictFrame p bytes => Sys2Proof.Machine.execDictFrame p bytes s
  | .dictRead w index sub => Sys2Proof.Machine.execDictRead w index sub s
  | .dictWrite w index sub type value => Sys2Proof.Machine.execDictWrite w index sub type value s
  | .describe w index sub => Sys2Proof.Machine.execDescribe w index sub s
  | .rawRead w addr => Sys2Proof.Machine.execRawRead w addr s
  | .rawWrite w addr v => Sys2Proof.Machine.execRawWrite w addr v s
  | .ackWrite w index sub v => Sys2Proof.Machine.execAckWrite w index sub v s
  | .unlock w v => Sys2Proof.Machine.execUnlock w v s
  | .unlockExpiry p => Sys2Proof.Machine.execUnlockExpiry p s
  | .notifySend p => Sys2Proof.Machine.execNotifySend p s
  | .mctpMessage whole bytes => Sys2Proof.Machine.execMctpMessage whole bytes s
  | .setEndpointId eid => Sys2Proof.Machine.execSetEndpointId eid s
  | .getEndpointId => Sys2Proof.Machine.execGetEndpointId s
  | .getEndpointUuid => Sys2Proof.Machine.execGetEndpointUuid s
  | .getMctpVersionSupport => Sys2Proof.Machine.execGetMctpVersionSupport s
  | .getMessageTypeSupport => Sys2Proof.Machine.execGetMessageTypeSupport s
  | .getVendorDefinedMsgSupport => Sys2Proof.Machine.execGetVendorDefinedMsgSupport s
  | .entdaa addr => Sys2Proof.Machine.execEntdaa addr s
  | .setdasa addr => Sys2Proof.Machine.execSetdasa addr s
  | .rstdaa => Sys2Proof.Machine.execRstdaa s
  | .enec mask => Sys2Proof.Machine.execEnec mask s
  | .disec mask => Sys2Proof.Machine.execDisec mask s
  | .getpid => Sys2Proof.Machine.execGetpid s
  | .getbcr => Sys2Proof.Machine.execGetbcr s
  | .getdcr => Sys2Proof.Machine.execGetdcr s
  | .getstatus => Sys2Proof.Machine.execGetstatus s
  | .getmxds => Sys2Proof.Machine.execGetmxds s
  | .setmrl v => Sys2Proof.Machine.execSetmrl v s
  | .getmrl => Sys2Proof.Machine.execGetmrl s
  | .setmwl v => Sys2Proof.Machine.execSetmwl v s
  | .getmwl => Sys2Proof.Machine.execGetmwl s
  | .boot => Sys2Proof.Machine.execBoot s
  | .fwStage w v => Sys2Proof.Machine.execFwStage w v s
  | .fwStageDone => Sys2Proof.Machine.execFwStageDone s
  | .fwActivate w v => Sys2Proof.Machine.execFwActivate w v s
  | .fwSvnCommit w v => Sys2Proof.Machine.execFwSvnCommit w v s
  | .rootRevoke w v => Sys2Proof.Machine.execRootRevoke w v s
  | .attestNonce w nonce => Sys2Proof.Machine.execAttestNonce w nonce s
  | .attestDone p => Sys2Proof.Machine.execAttestDone p s
  | .kexCommand w v => Sys2Proof.Machine.execKexCommand w v s
  | .kexDone p => Sys2Proof.Machine.execKexDone p s
  | .slotErase w v => Sys2Proof.Machine.execSlotErase w v s
  | .bnJob w v => Sys2Proof.Machine.execBnJob w v s
  | .bnJobStart => Sys2Proof.Machine.execBnJobStart s
  | .bnYieldPoint => Sys2Proof.Machine.execBnYieldPoint s
  | .bnJobEnd => Sys2Proof.Machine.execBnJobEnd s
  | .powerOn straps => Sys2Proof.Machine.execPowerOn straps s
  | .pwrEnAssert => Sys2Proof.Machine.execPwrEnAssert s
  | .pwrEnDeassert => Sys2Proof.Machine.execPwrEnDeassert s
  | .inputFault => Sys2Proof.Machine.execInputFault s
  | .pllLock => Sys2Proof.Machine.execPllLock s
  | .pllLoss => Sys2Proof.Machine.execPllLoss s
  | .throttleUpdate die0 die1 => Sys2Proof.Machine.execThrottleUpdate die0 die1 s
  | .thermalAlert die => Sys2Proof.Machine.execThermalAlert die s
  | .thermalTrip die => Sys2Proof.Machine.execThermalTrip die s
  | .rstN straps => Sys2Proof.Machine.execRstN straps s
  | .resetCtrlCold w => Sys2Proof.Machine.execResetCtrlCold w s
  | .resetCtrlShared w => Sys2Proof.Machine.execResetCtrlShared w s
  | .sharedResetEnd => Sys2Proof.Machine.execSharedResetEnd s
  | .coreClk w core v => Sys2Proof.Machine.execCoreClk w core v s
  | .clkAll w v => Sys2Proof.Machine.execClkAll w v s
  | .clkSwitchDone core => Sys2Proof.Machine.execClkSwitchDone core s
  | .pwrStateReq w v => Sys2Proof.Machine.execPwrStateReq w v s
  | .pwrEntryDone => Sys2Proof.Machine.execPwrEntryDone s
  | .wakeEvent pin => Sys2Proof.Machine.execWakeEvent pin s
  | .pwrExitDone => Sys2Proof.Machine.execPwrExitDone s
  | .faultLogAccept die => Sys2Proof.Machine.execFaultLogAccept die s
  | .traceRecordWrite die => Sys2Proof.Machine.execTraceRecordWrite die s
  | .syncMarkSend die => Sys2Proof.Machine.execSyncMarkSend die s
  | .syncMarkReceive die link peer syncId sent => Sys2Proof.Machine.execSyncMarkReceive die link peer syncId sent s
  | .dbgMemRead w => Sys2Proof.Machine.execDbgMemRead w s
  | .dbgMemWrite w data => Sys2Proof.Machine.execDbgMemWrite w data s
  | .dbgMbEnvelope w => Sys2Proof.Machine.execDbgMbEnvelope w s
  | .retireWindowExpiry stack frame => Sys2Proof.Machine.execRetireWindowExpiry stack frame s
  | .registerWrite w index sub v => Sys2Proof.Machine.execRegisterWrite w index sub v s
  | .contextRestoreDone core ctx => Sys2Proof.Machine.execContextRestoreDone core ctx s
  | .linkPeerSeen port => Sys2Proof.Machine.execLinkPeerSeen port s
  | .pwrGoodAssert => Sys2Proof.Machine.execPwrGoodAssert s
  | .inputInRange => Sys2Proof.Machine.execInputInRange s
  | .standbyRailLoss => Sys2Proof.Machine.execStandbyRailLoss s
  | .fwActivateDone => Sys2Proof.Machine.execFwActivateDone s

end Sys2Proof.Machine
end

