-- ==== Sys2Proof/Machine/Step.lean ====
section
/-! DEFINITION. One step: the command at the front of the queue, or one cycle of the clock. -/

namespace Sys2Proof.Machine

/-- The state with the command that a table word spells at the front of its queue; unchanged where it spells none. (DESIGN CHOICE, log 9) -/
def State.withFetchWord (s : State) (nbits w : Nat) : State :=
  match decodeTableWord nbits w with
  | some c => { s with pending := c :: s.pending }
  | none => s

/-- Run the command at the front of the queue on the state without it. On an empty queue one FCLK cycle passes (DESIGN CHOICE). -/
def step (s : State) : Host.Outcome State Fault Refusal :=
  match s.pending with
  | [] => .next (tick s)
  | c :: rest => exec c { s with pending := rest }

end Sys2Proof.Machine
end

