-- ==== Sys2Proof/Safety.lean ====
section
/-! DEFINITION. What a safe run is. -/

namespace Sys2Proof.Safety

open Sys2Proof.Machine

/-- A step answers a next state. -/
def goesOn (s : State) : Prop := ∃ t, step s = .next t

/-- The memory of a state is in its canonical form. -/
def memoryWf (s : State) : Prop := Memory.wf s.mem = true

/-- The units that the module is built with: their number never changes (R8, R9). -/
structure Shape (s : State) : Prop where
  dies    : s.dies.length = 2
  hbm     : s.hbm.length = 8
  ports   : s.eths.length = 2
  links   : s.links.length = 24
  engines : s.engines.length = 8
  chains  : s.chains.length = 16
  paths   : s.paths.length = 4
  fetches : s.fetches.length = 16
  queues  : s.normalQ.length = 4
  ring    : s.updRing.length = 2

/-- What is burnt in a fuse stays burnt, and the fuses of the identity never change (R381, R384, R385). -/
structure FusesHold (s t : State) : Prop where
  uds      : t.fuses.uds = s.fuses.uds
  serial   : t.fuses.serial = s.fuses.serial
  stepping : t.fuses.stepping = s.fuses.stepping
  roots    : t.fuses.rootHash = s.fuses.rootHash
  svn      : s.fuses.svn &&& t.fuses.svn = s.fuses.svn
  revoke   : s.fuses.revoke &&& t.fuses.revoke = s.fuses.revoke

/-- What every step of a safe run keeps. -/
structure Holds (s : State) : Prop where
  memory : memoryWf s
  shape  : Shape s

/-! ## When an engine's instruction comes to its end -/

/-- Repeats r, r + 1, … of an instruction, n of them, all come to their end, the first from the accesses j made before it waited: the
signals gathered and the state they leave. A context that is to stop lets a repeat under way end, and begins no other (R227). -/
inductive Repeats (c : Nat) (run : Nat → Eng (List SealMsg)) (i : Issued) :
    Nat → Nat → List Ev → List SealMsg → State → List SealMsg → State → Prop where
  | none {r j posts s} : Repeats c run i 0 r j posts s posts s
  | one {n r j posts s p u posts' t} :
      runFrom j (stopping s c i.ctx) (run r) s = .ok p u → (stopping s c i.ctx = true → n = 0) →
      Repeats c run i n (r + 1) [] (posts ++ p) (repeatSignal c i { u with wrote := [], wroteFar := [] }) posts' t →
      Repeats c run i (n + 1) r j posts s posts' t

/-- The head i of a queue is ready, carries the opcode, and every repeat it still has to do comes to its end in state t. -/
structure Finishes (c : Nat) (q : QueueId) (op : Nat) (run : Issued → Nat → Eng (List SealMsg)) (s : State)
    (i : Issued) (posts : List SealMsg) (t : State) : Prop where
  head    : readyHead s c q op = some i
  repeats : Repeats c (run i) i (iRepM1 i.word.toNat + 1 - i.progress) i.progress i.journal i.posts s posts t

/-- Repeats r, r + 1, …, n of them, can each be done at once when its turn comes: the context is not to stop, and what `can` asks of the
repeat holds in the state that the repeats before it leave. -/
def EachCan (c : Nat) (run : Nat → Eng (List SealMsg)) (i : Issued) (can : Nat → State → Prop) : Nat → Nat → State → Prop
  | 0, _, _ => True
  | n + 1, r, s => stopping s c i.ctx = false ∧ can r s ∧ ∀ p u, runFrom [] false (run r) s = .ok p u →
      EachCan c run i can n (r + 1) (repeatSignal c i { u with wrote := [], wroteFar := [] })

/-- The head i of a queue is ready, carries the opcode, has not begun the repeat it stands at, and each repeat it still has to do can be
done at once. -/
structure CanRun (c : Nat) (q : QueueId) (op : Nat) (run : Issued → Nat → Eng (List SealMsg)) (can : Issued → Nat → State → Prop)
    (s : State) (i : Issued) : Prop where
  head    : readyHead s c q op = some i
  fresh   : i.journal = []
  repeats : EachCan c (run i) i (can i) (iRepM1 i.word.toNat + 1 - i.progress) i.progress s

/-- Checks admit an instruction: they come to their end with a value. They read, and change nothing that a program can see. -/
def Passes {α : Type} (x : Eng α) (s : State) (v : α) : Prop := ∃ t, runFrom [] false x s = .ok v t

/-- An engine's row: the command, its opcode and the work of one repeat. -/
abbrev EngineRow := Instr × Nat × (Issued → Nat → Eng (List SealMsg))

/-! ## The rows of the engines -/

/-- The rows of the polynomial engine that compute on limbs, with their opcodes and what they do once checked. -/
def polyJobs (c : Fin 128) : List (Instr × Nat × (PolyJob → Eng Bool)) := [
  (.nttFwd c, 0x10, dataNttFwd), (.nttInv c, 0x11, dataNttInv), (.auto c, 0x14, dataAuto), (.pwAdd c, 0x20, dataPwAdd),
  (.pwSub c, 0x21, dataPwSub), (.pwNeg c, 0x22, dataPwNeg), (.pwMul c, 0x24, dataPwMul), (.pwMac c, 0x25, dataPwMac),
  (.pwMulc c, 0x26, dataPwMulc), (.pwMacc c, 0x27, dataPwMacc), (.tensor c, 0x28, dataTensor), (.bconv c, 0x30, dataBconv),
  (.rescale c, 0x31, dataRescale), (.transpose c, 0x38, dataTranspose)]

/-- The rows of the polynomial engine that run whole, with their opcodes and the work of one repeat. -/
def polyRows (c : Fin 128) : List EngineRow :=
  ((polyJobs c).map fun x => (x.1, x.2.1, polyRun x.2.2 c.val)) ++ [(.openObj c, 0x3C, polyOpen c.val), (.commit c, 0x3D, polyCommitObj c.val)]

/-- The rows of the gate lanes that run whole, with their opcodes and the work of one repeat. -/
def gateRows (c : Fin 128) : List EngineRow := [
  (.gLin c, 1, gateLin c.val), (.gCombine c, 4, gateCombine c.val), (.gExtract c, 8, gateExtract c.val), (.gPack c, 9, gatePack c.val)]

/-- The rows of the vector engine with their opcodes. -/
def vecRowTable (c : Fin 128) : List (Instr × Nat) := [
  (.vadd c, 0x01), (.vsub c, 0x02), (.vmul c, 0x03), (.vfma c, 0x04), (.vmax c, 0x05), (.vmin c, 0x06), (.vneg c, 0x07),
  (.vabs c, 0x08), (.vcvt c, 0x09), (.vcmp c, 0x0A), (.vsel c, 0x0B), (.vexp c, 0x10), (.vlog c, 0x11), (.vrsqrt c, 0x12),
  (.vrecip c, 0x13), (.vsqrt c, 0x14), (.vtanh c, 0x15), (.vsigm c, 0x16), (.vrelu c, 0x17), (.vsilu c, 0x18), (.vgelu c,
  0x19), (.viadd c, 0x20), (.visub c, 0x21), (.vimul c, 0x22), (.vshr c, 0x23), (.vand c, 0x24), (.vor c, 0x25), (.vxor c,
  0x26), (.vimax c, 0x27), (.vimin c, 0x28), (.vrsum c, 0x30), (.vrmax c, 0x31), (.vrmin c, 0x32), (.vrssq c, 0x33),
  (.vrisum c, 0x34), (.vrowfin c, 0x38), (.vldr c, 0x3C), (.vstr c, 0x3D)]

/-- The work of one repeat of a vector instruction that walks tensors and registers. -/
def vecRun (c op : Nat) (i : Issued) (r : Nat) : Eng (List SealMsg) :=
  if op = 0x3C then vldrOne c i r else if op = 0x3D then vstrOne c i r else vecOne c i r

/-- The rows of MSG that run whole, with their opcodes and the work of one repeat. -/
def msgRows (c : Fin 128) : List EngineRow := [
  (.recv c, 2, recvOne false c.val), (.poll c, 3, recvOne true c.val), (.mbOpen c, 4, mbOpenOne c.val),
  (.mbClose c, 5, mbCloseOne c.val), (.soOpen c, 8, soOpenOne c.val), (.stampPut c, 0x11, stampPutOne c.val),
  (.sealCreate c, 0x18, sealCreateOne c.val), (.sealFree c, 0x19, sealFreeOne c.val), (.sealAdd c, 0x1B, sealAddOne c.val)]

/-- The rows of the data mover, with their opcodes and the work of one repeat. -/
def moveRows (c : Fin 128) : List EngineRow := [
  (.copy c, 1, copyOne c.val), (.prefetch c, 2, prefetchOne c.val), (.zero c, 3, zeroOne c.val)]

/-- The rows whose work is a walk over context memory alone: the polynomial engine's, and COPY and ZERO. -/
def plainRows (c : Fin 128) : List EngineRow := polyRows c ++ [(.copy c, 1, copyOne c.val), (.zero c, 3, zeroOne c.val)]

/-- What the run of such a row leaves as it was. -/
structure Untouched (s t : State) : Prop where
  pending  : t.pending = s.pending
  regs     : t.regs = s.regs
  acked    : t.acked = s.acked
  paths    : t.paths = s.paths
  lock     : t.lockNonce = s.lockNonce
  table    : t.modTable = s.modTable
  occupied : t.occupied = s.occupied
  chains   : t.chains = s.chains
  streams  : t.streams = s.streams
  engines  : t.engines = s.engines
  seals    : t.seals = s.seals
  imports  : t.imports = s.imports
  flights  : t.envFlight = s.envFlight
  receipts : t.receipts = s.receipts
  normalQ  : t.normalQ = s.normalQ
  frames   : t.frames = s.frames
  results  : t.results = s.results
  sem      : t.sem = s.sem
  qps      : t.qps = s.qps
  island   : t.island = s.island
  fuses    : t.fuses = s.fuses
  flash    : t.flash = s.flash
  power    : t.power = s.power
  sideband : t.sideband = s.sideband
  registers : ∀ d, (Machine.core t d).vec = (Machine.core s d).vec
  mailboxes : ∀ d, (Machine.core t d).mailboxes = (Machine.core s d).mailboxes

/-! ## Context memory that an engine can use at once -/

/-- The device byte that a context byte translates to (R11, R296). -/
def devOf (s : State) (c : Nat) (w : Bool) (b : Nat) : Nat :=
  match xlat s c w b with
  | .dev d => d
  | _ => 0

/-- Every byte of [a, a + n) translates at once for an engine's context, for a read or a write; what is written lies in HBM or in
the core's own scratchpad, where no stamp is needed (R200, R251, R296). -/
def Served (s : State) (e : Env) (w : Bool) (a n : Nat) : Prop :=
  ∀ b, a ≤ b → b < a + n → ∃ d, xlat s e.ctx w b = .dev d ∧ (w = true → isSp d = true → spCore d = e.core)

/-- The bytes that stand at a context range. -/
def dataAt (s : State) (c a n : Nat) : List Byte := (List.range n).map fun k => memGet s.mem (devOf s c false (a + k))

/-- A device byte behind a context range that is written. -/
def written (s : State) (c a n : Nat) (d : Nat) : Prop := ∃ b, a ≤ b ∧ b < a + n ∧ devOf s c true b = d

/-- The bytes of device memory outside a set are as they were. -/
def SameOutside (P : Nat → Prop) (s t : State) : Prop := ∀ d, ¬ P d → memGet t.mem d = memGet s.mem d

/-! ## Work on granules -/

/-- A granule that is read: its module and address, the modulus its residues are below, and whether all but the first are zero. -/
structure GranRead where
  module : Nat
  addr   : Nat
  q      : Nat
  tail   : Bool := false

/-- One piece of an instruction's work on granules: those it reads with the checks of R24, those it reads as they stand, and then those
it writes, as module and address. -/
structure Work where
  reads  : List GranRead := []
  again  : List (Nat × Nat) := []
  writes : List (Nat × Nat) := []

/-- A granule's address keeps R26. -/
def granOk (a : Nat) : Bool := a % (if isSp a then 8 else 32) == 0

/-- A granule holds what a read of it asks for: canonical residues (R24), and zeros in the tail of a sample (R29). -/
def granHolds (s : State) (c : Nat) (r : GranRead) : Bool :=
  let rs := unpackGran (dataAt s c r.addr 288)
  canonical r.q rs && (!r.tail || (rs.drop 1).all fun x => x == 0)

/-- No byte of the granule read at r is one of the n bytes written at w. -/
def Apart (s : State) (c w n r : Nat) : Prop := ∀ b, r ≤ b → b < r + 288 → ¬ written s c w n (devOf s c false b)

/-- A granule of this module that can be accessed at once. -/
def GranServed (s : State) (e : Env) (w : Bool) (y : Nat × Nat) : Prop :=
  y.1 = moduleOf s ∧ granOk y.2 = true ∧ Served s e w y.2 288

/-- Work that can be done at once: the headers it writes and the granules are served on this module; what is read holds what the reads
ask for, and nothing is written before it is read. -/
structure WorkServed (s : State) (e : Env) (hdrs : List Nat) (l : List Work) : Prop where
  headers : ∀ a ∈ hdrs, Served s e true a 64 ∧ Served s e false a 64
  reads   : ∀ x ∈ l, ∀ r ∈ x.reads, GranServed s e false (r.module, r.addr) ∧ granHolds s e.ctx r = true
  again   : ∀ x ∈ l, ∀ y ∈ x.again, GranServed s e false y
  writes  : ∀ x ∈ l, ∀ y ∈ x.writes, GranServed s e true y
  order   : l.Pairwise fun x y => ∀ w ∈ x.writes, ∀ r ∈ y.reads, Apart s e.ctx w.2 288 r.addr
  apart   : ∀ x ∈ l, ∀ r ∈ x.reads, ∀ h ∈ hdrs, Apart s e.ctx h 64 r.addr

/-- The device bytes that work writes. -/
def workBytes (s : State) (c : Nat) (hdrs : List Nat) (l : List Work) (d : Nat) : Prop :=
  (∃ h ∈ hdrs, written s c h 64 d) ∨ ∃ x ∈ l, ∃ y ∈ x.writes, written s c y.2 288 d

/-- A granule of an object as work reads it, at a position, below the modulus of the chain slot that the object names. -/
def readAt (s : State) (gr : Nat) (o : Obj) (c p g : Nat) : GranRead :=
  { module := (granPlace (moduleOf s) gr o c p g).1, addr := (granPlace (moduleOf s) gr o c p g).2,
    q := (primeAt s (hChain o.h) p).q, tail := gateKind (hKind o.h) && g == 32 }

/-! ### The polynomial engine -/

/-- A destination granule of a job. -/
def destAt (s : State) (j : PolyJob) (c p g : Nat) : Nat × Nat := granPlace (moduleOf s) j.gr j.d (compOf j.d c) p g

/-- The work on whole limbs (R54, R56, R57): a pass, or two in the order of R56. -/
def limbPieces (s : State) (strided : Bool) (j : PolyJob) : List Work :=
  let limbs := (pComps j.w).flatMap fun c => (pPos j.w).map fun p => (c, p)
  if twoPass j.n then
    (passOrder limbs).flatMap fun x => (passBlocks j.n j.gr (if x.1 then !strided else strided)).map fun gs =>
      { reads := if x.1 then [] else gs.map (readAt s j.gr j.a x.2.1 x.2.2),
        again := if x.1 then gs.map (granPlace (moduleOf s) j.gr j.d x.2.1 x.2.2) else [],
        writes := gs.map (destAt s j x.2.1 x.2.2) }
  else limbs.map fun x =>
    { reads := (List.range j.gr).map (readAt s j.gr j.a x.1 x.2), writes := (List.range j.gr).map (destAt s j x.1 x.2) }

/-- The work on granules by position (R59). -/
def pointPieces (s : State) (j : PolyJob) : List Work :=
  (limbRuns (pComps j.w) (pPos j.w) (List.range j.gr)).map fun x =>
    { reads := x.2.2.flatMap fun g => readAt s j.gr j.a x.1 x.2.1 g ::
        ((j.b.toList.map fun o => readAt s j.gr o (compOf o x.1) x.2.1 g) ++
          if readsOld j.op then [readAt s j.gr j.old x.1 x.2.1 g] else []),
      writes := x.2.2.map (destAt s j x.1 x.2.1) }

/-- The work of TENSOR (R59). -/
def tensorPieces (s : State) (j : PolyJob) : List Work :=
  let b := j.b.getD j.a
  (pPos j.w).flatMap fun p => (runsOf (List.range j.gr)).map fun gs =>
    { reads := gs.flatMap fun g => [readAt s j.gr j.a 0 p g, readAt s j.gr j.a 1 p g, readAt s j.gr b 0 p g, readAt s j.gr b 1 p g],
      writes := gs.flatMap fun g => (pComps j.w).map fun c => destAt s j c p g }

/-- The work of BCONV (R60). -/
def bconvPieces (s : State) (j : PolyJob) : List Work :=
  (pComps j.w).flatMap fun c => (pRows j.w).map fun g =>
    { reads := j.tab.src.map fun p => readAt s j.gr j.a (compOf j.a c) p g, writes := j.tab.dst.map fun p => destAt s j c p g }

/-- Granules moved from source A to the destination: TRANSPOSE (R62), the copy of R437. -/
def movePieces (s : State) (j : PolyJob) (cs gs : List Nat) : List Work :=
  (limbRuns cs (pPos j.w) gs).map fun x =>
    { reads := x.2.2.map (readAt s j.gr j.a x.1 x.2.1), writes := x.2.2.map (destAt s j x.1 x.2.1) }

/-- The work of RESCALE (R66): the dropped limb by way of the scratch area, then the others. -/
def rescalePieces (s : State) (j : PolyJob) : List Work :=
  let scratch := fun (k g : Nat) => (moduleOf s, j.scratch + (k * j.gr + g) * 288)
  ((List.range (pComps j.w).length).zip (pComps j.w)).flatMap fun kc =>
    (passBlocks j.n j.gr false).map (fun gs =>
      { reads := gs.map (readAt s j.gr j.a kc.2 (hLevel j.a.h)), writes := gs.map (scratch kc.1) }) ++
    (if twoPass j.n then (passBlocks j.n j.gr true).map fun gs => { writes := gs.map (scratch kc.1) } else []) ++
    (pPos j.w).flatMap fun p => (runsOf (List.range j.gr)).map fun gs =>
      { reads := gs.map (readAt s j.gr j.a kc.2 p), writes := gs.map (destAt s j kc.2 p) }

/-- The components that R437 copies. -/
def copyComps (j : PolyJob) : List Nat :=
  if j.copy then (List.range (nComp (hKind j.a.h))).filter fun c => !((pComps j.w).contains c) else []

/-- The work of a POLY instruction, piece by piece in its order, the copy of R437 last. -/
def polyWork (s : State) (op : Nat) (j : PolyJob) : List Work :=
  (if op = 0x10 ∨ op = 0x14 then limbPieces s true j
   else if op = 0x11 then limbPieces s false j
   else if op = 0x28 then tensorPieces s j
   else if op = 0x30 then bconvPieces s j
   else if op = 0x31 then rescalePieces s j
   else if op = 0x38 then movePieces s j (pComps j.w) (pRows j.w)
   else pointPieces s j) ++ movePieces s j (copyComps j) (List.range j.gr)

/-- A repeat of a POLY instruction on limbs can be done at once: its checks (Tables 2.5, 3.9) pass, and its work is served. -/
def polyCan (c op : Nat) (i : Issued) (r : Nat) (s : State) : Prop :=
  ∃ j, Passes (polyChecks (envOf c .poly i) i r) s j ∧ WorkServed s j.e [j.d.addr] (polyWork s op j)

/-- A repeat of OPEN or COMMIT can be done at once: its checks (R71) pass, and the header it writes, if any, is served. -/
def headerCan (checks : Issued → Nat → Eng (Option (Nat × Nat))) (c : Nat) (i : Issued) (r : Nat) (s : State) : Prop :=
  ∃ h, Passes (checks i r) s h ∧ ∀ x, h = some x → Served s (envOf c .poly i) true x.1 64

/-- The work of a KEY_MAC on one parcel (R93): repeat by repeat. -/
def kmWork (s : State) (gr p g0 : Nat) (init : Bool) (reps : List (Obj × Obj × Bool)) : List Work :=
  reps.map fun x =>
    { reads := (List.range (blockGr gr)).flatMap fun t => readAt s gr x.1 0 p (g0 + t) ::
        if init then [] else [readAt s gr x.2.1 0 p (g0 + t), readAt s gr x.2.1 1 p (g0 + t)],
      writes := (List.range (blockGr gr)).flatMap fun t => [0, 1].map fun c => granPlace (moduleOf s) gr x.2.1 c p (g0 + t) }

/-! ### A parcel at a relay port -/

/-- The parcel that a consumer at a core takes next (R90, R92): its stream is current, open to it, of its context and of its kind. -/
structure ParcelHere (s : State) (c ctx : Nat) (weight : Bool) (d : StreamDesc) (x : Parcel) : Prop where
  left   : (Machine.core s c).relay.left = false
  stream : (Machine.core s c).relay.current = some d
  alive  : d.void = none
  openTo : exhausted (Machine.core s c).relay = false
  owner  : d.ctx = ctx
  kind   : d.weight = weight
  slot   : ((Machine.core s c).relay.slots.find? fun x => !x.applied).map (fun y => y.parcel) = some x

/-- The granules of a half parcel. -/
def halfGrans (bs : List Byte) : List (List Nat) := (chunks 288 bs).map unpackGran

/-- A parcel stands in its place for a KEY_MAC with canonical residues (R24, R93). -/
structure KmParcelOk (s : State) (w ch gr : Nat) (k : KmOps) (x : Parcel) : Prop where
  place : x.pos = ((kmPlan w gr).getD k.done (0, 0)).1 ∧ x.block = ((kmPlan w gr).getD k.done (0, 0)).2
  digit : ((kmPlan w gr).getD k.done (0, 0)).2 = 0 ∨ x.key = k.key ∧ x.beta = k.beta
  valid : ∀ y ∈ (halfGrans x.k0).zip (halfGrans x.k1),
    canonical (primeAt s ch ((kmPlan w gr).getD k.done (0, 0)).1).q y.1 = true ∧
    canonical (primeAt s ch ((kmPlan w gr).getD k.done (0, 0)).1).q y.2 = true

/-! ### The gate class -/

/-- The granules of a sample as they are read. -/
def sampleReads (s : State) (o : Obj) : List GranRead := (List.range 33).map fun g => readAt s 33 o 0 0 g

/-- The granules of a sample as they are written. -/
def sampleWrites (s : State) (o : Obj) : List (Nat × Nat) := (List.range 33).map fun g => granPlace (moduleOf s) 33 o 0 0 g

/-- The four limbs of an accumulator. -/
def accLimbs : List (Nat × Nat) := [(0, 0), (0, 1), (1, 0), (1, 1)]

/-- The granules of an accumulator as they are read. -/
def accReads (s : State) (o : Obj) : List GranRead := accLimbs.flatMap fun x => (List.range 32).map fun g => readAt s 32 o x.1 x.2 g

/-- The granules of an accumulator as they are written. -/
def accWrites (s : State) (o : Obj) : List (Nat × Nat) :=
  accLimbs.flatMap fun x => (List.range 32).map fun g => granPlace (moduleOf s) 32 o x.1 x.2 g

/-- Granules that lie one after another. -/
def runReads (s : State) (q a n : Nat) : List GranRead := (List.range n).map fun g => { module := moduleOf s, addr := a + 288 * g, q := q }

/-- The work of G_LIN (R115). -/
def linPieces (s : State) (j : GateJob) : List Work := [{ reads := j.os.flatMap (sampleReads s), writes := sampleWrites s j.dst }]

/-- The work of G_KSW (R116): the table, then sample by sample, whose granules of the block are read as they stand and written. -/
def kswPieces (s : State) (j : GateJob) : List Work :=
  let q := (primeAt s j.ch 0).q
  let gs := sliceGrans j.w j.gp.nLwe
  { reads := gs.flatMap fun g => (List.range 8).flatMap fun b => ((List.range 1024).map fun k => 1024 * b + k).flatMap fun row =>
      runReads s q (kswRowAddr j g row) 1 } ::
    ((List.range j.os.length).zip j.os).map fun x =>
      { reads := sampleReads s x.2, again := gs.map fun g => (moduleOf s, kswOutAddr j x.1 g),
        writes := gs.map fun g => (moduleOf s, kswOutAddr j x.1 g) }

/-- The work of G_COMBINE (R120). -/
def combinePieces (s : State) (j : GateJob) : List Work :=
  [{ reads := j.os.flatMap (accReads s) ++ accLimbs.flatMap fun x => [0, 1].flatMap fun h =>
       runReads s (primeAt s j.ch (if x.2 = 0 then 0 else 1)).q (relinAddr j x.1 x.2 h) 32,
     writes := if gMode j.w = 1 then sampleWrites s j.dst else accWrites s j.dst }]

/-- The work of G_EXTRACT (R123). -/
def extractPieces (s : State) (j : GateJob) : List Work :=
  let n := 2 ^ chLog2N s j.ch / 64
  [{ reads := [0, 1].flatMap fun c => (List.range n).map fun g => readAt s n j.src c 0 g,
     writes := j.ds.flatMap (sampleWrites s) }]

/-- The work of G_PACK (R124). -/
def packPieces (s : State) (j : GateJob) : List Work :=
  let n := 2 ^ chLog2N s j.ch / 64
  [{ reads := j.os.flatMap (sampleReads s),
     writes := [0, 1].flatMap fun c => (List.range n).map fun g => granPlace (moduleOf s) n j.dst c 0 g }]

/-- The switched sample of a repeat of G_REFRESH as it is read (R117). -/
def switchedReads (s : State) (a sw nLwe : Nat) : List GranRead := runReads s (primeAt s (hChain a) 0).q sw (rowGr nLwe)

/-- The work of a segment of G_REFRESH (R120). -/
def segmentPieces (s : State) (w : Nat) (j : RefreshJob) : List Work :=
  let ch := hChain j.a.h
  [{ reads := switchedReads s j.a.h j.sw j.gp.nLwe ++ (List.range (24 * segSteps w j.gp.nLwe)).flatMap fun k => [0, 1].flatMap fun h =>
       runReads s (primeAt s ch (if (rowIndex k).2.2.2.2 = 0 then 0 else 1)).q (j.gp.br + k * 18432 + 9216 * h) 32,
     writes := accWrites s j.d }]

/-- A gate instruction of the lanes: the command, its opcode, its checks, its work, and the pieces of the work. -/
abbrev GateRow := Instr × Nat × (Issued → Nat → Eng GateJob) × (GateJob → Eng Unit) × (State → GateJob → List Work)

/-- The gate instructions of the lanes that run whole. -/
def gateJobs (c : Fin 128) : List GateRow := [
  (.gLin c, 1, linChecks c.val, linWork, linPieces), (.gCombine c, 4, combineChecks c.val, combineWork, combinePieces),
  (.gExtract c, 8, extractChecks c.val, extractWork, extractPieces), (.gPack c, 9, packChecks c.val, packWork, packPieces)]

/-- A repeat of a gate instruction can be done at once: its checks (Table 5.10) pass, and its work is served. G_KSW writes no header. -/
def gateCan (checks : Issued → Nat → Eng GateJob) (pieces : State → GateJob → List Work) (hdrs : Bool) (i : Issued) (r : Nat)
    (s : State) : Prop :=
  ∃ j, Passes (checks i r) s j ∧ WorkServed s j.e (if hdrs then j.ds.map fun d => d.addr else []) (pieces s j)

/-- Every segment of a G_REFRESH of mode 1 can be done at once. -/
def segmentsCan (c : Nat) (i : Issued) (s : State) : Prop :=
  ∃ js, Passes (mapE (refreshChecks c i) (List.range (repCount i.word.toNat))) s js ∧
    WorkServed s (envOf c .gateLane i) (js.map fun j => j.d.addr) (js.flatMap (segmentPieces s i.word.toNat))

/-- A parcel stands in its place for a streamed G_REFRESH, with canonical residues (R24, R119). -/
structure RefreshParcelOk (s : State) (k : GateOps) (x : Parcel) : Prop where
  pos   : x.pos = (rowIndex k.done).2.2.2.2
  beta  : x.beta = (rowIndex k.done).2.1
  block : x.block = rowLabel k.done
  valid : canonical (primeAt s ((k.reps.head?.map fun g => hChain g.a.h).getD 0) (rowIndex k.done).2.2.2.2).q (unpackGrans x.k0) = true ∧
    canonical (primeAt s ((k.reps.head?.map fun g => hChain g.a.h).getD 0) (rowIndex k.done).2.2.2.2).q (unpackGrans x.k1) = true

/-! ## Work on tensors -/

/-- The stored position that an index tensor copied at issue gives (R189); none where the element is left out. -/
def indexPos (t : Tens) (ps : List Int) : Option (List Int) :=
  match t.index with
  | none => some ps
  | some _ =>
    let x := (t.entries.getD []).getD (ps.getD (dIndexDim t.w) 0).toNat 0
    if !(oor t.w x) then some (ps.set (dIndexDim t.w) x)
    else if dOor t.w = 1 then some (ps.set (dIndexDim t.w) (x % (dIndexRange t.w : Int)))
    else if dOor t.w = 2 then some (ps.set (dIndexDim t.w) (if x < 0 then 0 else (dIndexRange t.w : Int) - 1))
    else none

/-- The stored position that a read of a tensor at logical indices goes to. -/
def readPos (t : Tens) (ix : List Nat) : Option (List Int) :=
  if validPos t.w (storedPos t.w ix) then indexPos t (storedPos t.w ix) else none

/-- The stored position that a write of a tensor at logical indices goes to: padding is left out under SKIP (R195). -/
def writePos (t : Tens) (ix : List Nat) : Option (List Int) :=
  if validPos t.w (storedPos t.w ix) then indexPos t (storedPos t.w ix)
  else if dSkip t.w then none else indexPos t (storedPos t.w ix)

/-- Bytes of an element that are read, and that are written. -/
def elemBytes (w : Nat) (write : Bool) : Nat := if write then elemWidth (dElem w) / 8 else (elemWidth (dElem w) + 7) / 8

/-- An element at a stored position lies on this module and is served. -/
def ElemServed (s : State) (e : Env) (write : Bool) (w : Nat) (ps : List Int) : Prop :=
  (elemPlace w (moduleOf s) ps).module = moduleOf s ∧
    Served s e write (elemPlace w (moduleOf s) ps).byte.toNat (elemBytes w write)

/-- A tensor can be read at once wherever it holds an element, its scales included; its indices were copied at issue. -/
def Readable (s : State) (e : Env) (inner : Nat) (t : Tens) : Prop :=
  (t.index.isSome = true → t.entries.isSome = true) ∧ ∀ ix ps, readPos t ix = some ps →
    ElemServed s e false t.w ps ∧ ∀ v, t.scale = some v →
      ElemServed s e false v ((storedPos t.w ix).set inner ((storedPos t.w ix).getD inner 0 / 32))

/-- A tensor can be written at once at the given logical indices. -/
def Writable (s : State) (e : Env) (t : Tens) (ixs : List (List Nat)) : Prop :=
  (t.index.isSome = true → t.entries.isSome = true) ∧ ∀ ix ∈ ixs, ∀ ps, writePos t ix = some ps →
    ElemServed s e true t.w ps ∧ (dIndexMode t.w = 2 ∧ dAdd t.w = true → ElemServed s e false t.w ps)

/-- The device bytes behind the elements of a tensor at the given logical indices. -/
def tensBytes (s : State) (c : Nat) (t : Tens) (ixs : List (List Nat)) (d : Nat) : Prop :=
  ∃ ix ∈ ixs, ∃ ps, writePos t ix = some ps ∧
    written s c (elemPlace t.w (moduleOf s) ps).byte.toNat (elemBytes t.w true) d

/-- The index vectors at which a vector instruction stores its results. -/
def vecIxs (w : Nat) (o : VecOps) : List (List Nat) :=
  if vReduces (iOpcode w) then lines w o.shape else (vecRows o.shape).flatten

/-- The index vectors at which VROWFIN stores statistics. -/
def statIxs (o : VecOps) : List (List Nat) := (List.range (extAt o.shape 1)).flatMap fun i => [[0, i], [1, i]]

/-- The operands of a vector instruction can be used at once. -/
structure VecServed (s : State) (e : Env) (w : Nat) (o : VecOps) : Prop where
  reads : ∀ t ∈ o.a.toList ++ o.b.toList ++ (if iOpcode w = 0x38 then (o.fuse.bind fun f => f.evec).toList else o.c.toList),
    Readable s e 0 t
  dest  : ∀ t, o.d = some t → Writable s e t (vecIxs w o)
  stats : iOpcode w = 0x38 → ∀ t, o.c = some t → Writable s e t (statIxs o)

/-- The device bytes that a vector instruction writes. -/
def vecBytes (s : State) (c w : Nat) (o : VecOps) (d : Nat) : Prop :=
  (∃ t, o.d = some t ∧ tensBytes s c t (vecIxs w o) d) ∨ (iOpcode w = 0x38 ∧ ∃ t, o.c = some t ∧ tensBytes s c t (statIxs o) d)

/-- A repeat of a vector instruction over tensors and registers can be done at once: its checks (Table 8.4) pass, and its operands are
served; VLDR and VSTR use a row of 256 bytes. -/
def vecCan (c op : Nat) (i : Issued) (r : Nat) (s : State) : Prop :=
  let w := i.word.toNat
  let e := envOf c .vec i
  if op = 0x3C ∨ op = 0x3D then
    let a := addrOf i r (if op = 0x3C then 1 else 0)
    vecEncOk w = true ∧ a % 256 = 0 ∧ Served s e (op == 0x3D) a 256
  else ∃ o, Passes (vecIssue c i r) s o ∧ VecServed s e w o

/-- The index vectors at which the elements of a popped entry stand. -/
def popIxs (t : Tile) : List (List Nat) :=
  let g := t.tag.toNat
  let cols := bits g 52 46 + 1
  (List.range t.data.length).map fun k =>
    [bits g 77 60 * tileCols (bits g 45 44) t.bf16 + k % cols, bits g 95 78 * tileRows (bits g 45 44) + k / cols]

/-- An entry can be popped at once: it is whole and of a type the instruction takes, and the operands of its elements are served; the
last one's results too where they are stored at the end (R172). -/
structure PopServed (s : State) (e : Env) (w : Nat) (o : VecOps) (t : Tile) : Prop where
  whole : bit t.tag.toNat 38 = false
  type  : (bit t.tag.toNat 39 && popIsInt w o (bit t.tag.toNat 39)) = false
  reads : vReduces (iOpcode w) = false → ∀ x ∈ o.b.toList ++ o.c.toList, ∀ again, Readable s { e with again := again } 0 x
  dest  : ∀ x, o.d = some x → if vReduces (iOpcode w) then bit t.tag.toNat 34 = true → Writable s e x (lines w o.shape)
    else ∀ again, Writable s { e with again := again } x (popIxs t)

/-- Tiles of an MM along its columns. -/
def mmTiles (o : MmOps) : Nat := cdiv o.n (tileCols (mmShape o.word) (mmFmtA o.word == 7))

/-- The index vectors at which an MM of ROUTE 1 stores its results. -/
def mmIxs (o : MmOps) : List (List Nat) := (List.range o.m).flatMap fun i => (List.range o.n).map fun j => [j, i]

/-- The index vectors at which a row or PART entry stores statistics: a pair per row, or per row and tile. -/
def mmStatIxs (o : MmOps) (t : Tens) : List (List Nat) :=
  (List.range o.m).flatMap fun i => (List.range (if partEntry (mmEpi o.word) then mmTiles o else 1)).flatMap fun k =>
    [statAt t 0 k i, statAt t 1 k i]

/-- The operands of an MM can be used at once. -/
structure MmServed (s : State) (e : Env) (o : MmOps) : Prop where
  left  : Readable s e 0 o.a
  right : ∀ t, o.b = some t → Readable s e 1 t
  reads : ∀ t ∈ o.c.toList ++ (o.fuse.toList.flatMap fun f => f.pvec.toList ++ f.pstat.toList ++ f.evec.toList ++ f.resid.toList ++
    (if mmEpi o.word = 2 ∨ mmEpi o.word = 3 then f.estat.toList else [])), Readable s e 0 t
  dest  : mmRoute o.word ≠ 0 → ∀ t, o.d = some t → Writable s e t (mmIxs o)
  stats : mmRoute o.word ≠ 0 → rowEntry (mmEpi o.word) = true ∨ partEntry (mmEpi o.word) = true →
    ∀ f t, o.fuse = some f → f.estat = some t → Writable s e t (mmStatIxs o t)
  group : mmRoute o.word ≠ 0 → rowEntry (mmEpi o.word) = true → ∀ w,
    Served s e w ((o.fuse.map fun f => fuGroup f.w).getD 0) (4 * (tileRows (mmShape o.word) * o.n))

/-- An MM issued from descriptors alone can be done at once (Table 6.8): it waits for no stream and no arriving operand. -/
def mmCan (c : Nat) (i : Issued) (s : State) (o : MmOps) : Prop :=
  Passes (do
    let o ← mmIssue c i i.progress
    arrSealBound (envOf c .mm i) o
    pure o) s o ∧ mmRelay o.word = false ∧ arrChunks o = 0 ∧ MmServed s (envOf c .mm i) o

/-- The tensor whose rows a weight stream carries (R281), without its scales. -/
def weightTens (x : StreamEngine) : Tens := { addr := 0, w := x.listing.getD 0 0 }

/-- The bytes that the next parcel of an engine needs can be read at once (R87, R281): the elements of a weight parcel's rows and the
scale bytes of its blocks, the body granules of a bootstrapping key, or the limbs of a key that are not held. -/
def FormServed (s : State) (e : Env) (x : StreamEngine) (d : StreamDesc) (p : Parcel) : Prop :=
  if d.weight then
    Readable s e 1 (weightTens x) ∧ (x.listing.getD 1 0 = 1 → ∀ i j : Nat, j < d.params.getD 2 0 →
      ElemServed s e false (x.listing.getD 2 0) [(j : Int), (i : Int) / 32])
  else
    let w := x.listing.getD (5 * p.key + 1) 0
    let gr := chG s (hChain d.header.toNat)
    if kdRole w = 3 then
      let idx := 24 * x.listing.getD (5 * p.key + 4) 0 - (x.todo.filter fun y => y.key == p.key).length
      Served s e false (x.listing.getD (5 * p.key + 2 + p.beta) 0 + (idx / 24 * 12 + idx % 12) * 18432) 18432
    else ∀ half ∈ keyHalves w, x.limbs.any (isLimb p half) = true ∨
      Served s e false (x.listing.getD (5 * p.key) 0 + p.beta * keyStride gr w + 64 +
        (limbIndex (kdMap w) p.pos * (keyHalves w).length + half) * gr * 288) (gr * 288)

/-- n parts of an MM's work, one after another from the accesses j that the first had made before it waited, none of them waiting: the
operands and the state they lead to. -/
inductive MmWorks (c : Nat) (i : Issued) : Nat → MmOps → List Ev → State → MmOps → State → Prop where
  | none {o j s} : MmWorks c i 0 o j s o s
  | part {n o j s o1 u o' t} : mmDone o = false → (j ≠ [] ∨ mmWaits s c o = false) → stopping s c i.ctx = false →
      runFrom j false (mmPart (envOf c .mm i) o) s = .ok o1 u →
      MmWorks c i n o1 [] { u with wrote := [], wroteFar := [] } o' t → MmWorks c i (n + 1) o j s o' t

/-! ## Messages and moves -/

/-- A RECV or POLL of one envelope can be done at once: its mailbox is its context's and holds one (a POLL asks for none), and the place
in its core's scratchpad is served (R233, R239). -/
def recvCan (poll : Bool) (c : Nat) (i : Issued) (r : Nat) (s : State) : Prop :=
  let b := mailbox s c (bits i.word.toNat 52 48)
  let a := addrOf i r 0
  msgFieldsOk i.word.toNat = true ∧ b.owner = some i.ctx ∧ a % 32 = 0 ∧ isSp a = true ∧ spCore a = c ∧
    (poll = true ∨ b.queue ≠ []) ∧ Served s (envOf c .msg i) true a 32

/-- A SEND of one envelope can be done at once: the envelope at its address in its core's scratchpad is read, its fields are good, and
the receipt it asks for has a place in its reply mailbox (R234, R242). -/
def sendCan (c : Nat) (i : Issued) (r : Nat) (s : State) (v : Nat) : Prop :=
  let a := addrOf i r 0
  msgFieldsOk i.word.toNat = true ∧ a % 32 = 0 ∧ isSp a = true ∧ spCore a = c ∧ Passes (loadWord (envOf c .msg i) a 32) s v ∧
    envFieldsOk v = true ∧
    (envRcpt v = true → (mailbox s c (envReply v)).owner = some i.ctx ∧ 0 < mbFree (mailbox s c (envReply v)))

/-- A contribution to an office's round can be added at once (R247): its descriptor is admitted and has the target's extents, and the
elements of both are served. -/
def ContributionServed (s : State) (e : Env) (t a : Nat) : Prop :=
  ∃ w, Passes (openPlain e { dist := true, elems := [dElem t] } a) s w ∧ dRank w = dRank t ∧
    (∀ d ∈ dDims t, dExtent w d = dExtent t d) ∧
    ∀ ps ∈ positions t, ElemServed s e false w ps ∧ ElemServed s e false t ps ∧ ElemServed s e true t ps

/-- The contributions still to be added to a round can each be added when its turn comes. -/
def AddsCan (c o ctx t : Nat) : List (Nat × Nat) → State → Prop
  | [], _ => True
  | x :: r, s =>
    let e := officeEnv c ctx (office s c o)
    ContributionServed s e t (envAddr x.2) ∧ ∀ p u, runFrom [] false (addContribution e t (envAddr x.2)) s = .ok p u →
      AddsCan c o ctx t r (roundNote c o true (p || envPoison x.2) u)

/-- The contributions still to be added, from the accesses j that the first had made before it waited: each is added, or fails with a
record, and none waits; the state they leave (R247). -/
inductive Adds (c o ctx t : Nat) : List (Nat × Nat) → List Ev → State → State → Prop where
  | none {j s} : Adds c o ctx t [] j s s
  | added {x r j s p s1 u} :
      runFrom j false (addContribution (officeEnv c ctx (office s c o)) t (envAddr x.2)) s = .ok p s1 →
      Adds c o ctx t r [] (roundNote c o true (p || envPoison x.2) s1) u → Adds c o ctx t (x :: r) j s u
  | failed {x r j s f j' s1 u} :
      runFrom j false (addContribution (officeEnv c ctx (office s c o)) t (envAddr x.2)) s = .error (.fault f, j') s1 →
      Adds c o ctx t r [] (roundNote c o false true
        (stageRec (dieOf c) { unit := .msg, reason := f.reason, core := c, ctx := ctx, addr := f.addr, postmark := some (envPm x.2) } s1)) u →
      Adds c o ctx t (x :: r) j s u

/-- An address of a MOVE keeps checks 2 and 3 of R279. -/
def moveAddrOk (i : Issued) (a : Nat) : Prop := a % 8 = 0 ∧ a + mvLen i.word.toNat ≤ 2 ^ 48

/-- A COPY can be done at once (R279). -/
def copyCan (c : Nat) (i : Issued) (r : Nat) (s : State) : Prop :=
  moveEncOk i.word.toNat = true ∧ moveAddrOk i (addrOf i r 0) ∧ moveAddrOk i (addrOf i r 1) ∧
    Served s (envOf c .move i) false (addrOf i r 1) (mvLen i.word.toNat) ∧
    Served s (envOf c .move i) true (addrOf i r 0) (mvLen i.word.toNat)

/-- A ZERO can be done at once (R279). -/
def zeroCan (c : Nat) (i : Issued) (r : Nat) (s : State) : Prop :=
  moveEncOk i.word.toNat = true ∧ moveAddrOk i (addrOf i r 0) ∧
    Served s (envOf c .move i) true (addrOf i r 0) (mvLen i.word.toNat)

/-- A PREFETCH can be done at once (R279, R280): every page of its range is absent, or present and readable. -/
def prefetchCan (c : Nat) (i : Issued) (r : Nat) (s : State) : Prop :=
  let a := addrOf i r 1
  let n := mvLen i.word.toNat
  moveEncOk i.word.toNat = true ∧ a % 8 = 0 ∧ a + n ≤ 2 ^ 40 ∧
    ∀ b, a ≤ b → b < a + n → (∃ p, xlat s (envOf c .move i).ctx false b = .absent p) ∨ ∃ d, xlat s (envOf c .move i).ctx false b = .dev d

/-! ## When a dictionary write is admitted -/

/-- A write of a value passes every check but its unit's own (R361, R364, R365): the always-on island has power, the entry
exists, the path reaches it, it is served in this state, it is unlocked where it has to be, and the value fits; an acknowledgement has
no other limit than R367's. -/
def opens (w : Who) (index sub v : Nat) (s : State) : Bool :=
  match entryOf index sub with
  | none => false
  | some e =>
    s.power.standby && permitted w e index && available s e index &&
      (e.access != .rwl || (pathState s w.path).unlocked) && decide (v < 256 ^ e.type.bytes) &&
      (e.access == .ack || valueOk index sub v)

/-- A write that was carried out: it is answered DONE, and the path's unlock ends with it (R370). -/
def wrote (w : Who) (t : State) : State := emit (.access w.path 0 []) (lockPath w.path t)

/-- A write that its unit refused with a status. -/
def refusedWith (w : Who) (status : Nat) (t : State) : State :=
  emit (.access w.path (BitVec.ofNat 8 status) []) (lockPath w.path t)

end Sys2Proof.Safety
end

