-- ==== Sys2Proof/Certificates/Slice0/Obligations.lean ====
section
/-! DEFINITION. The statements for the provers. Completion statements say, for the conditions under which the spec lets a command have
its own effect, that `exec` answers a next state, and which. -/

open Sys2Proof Sys2Proof.Machine Sys2Proof.Safety

/-! ## The machine -/

/-- A step runs the command at the front of the queue, on the state with the rest of the queue. -/
def Obligations.StepRunsFrontCommand : Prop :=
  ∀ (c : Instr) (rest : List Instr) (s : State), s.pending = c :: rest → step s = exec c { s with pending := rest }

/-- On an empty queue one FCLK cycle passes: the module's clock moves, and DIE_TIME of both dies while the PLL is locked (R427);
the rest stays. The idle step is the model's choice (log 2). -/
def Obligations.EmptyQueuePassesOneCycle : Prop :=
  ∀ s : State, s.pending = [] →
    step s = .next { s with
      time := s.time + 1
      dies := if s.power.pll = 2 then s.dies.map fun d => { d with time := d.time + 1 } else s.dies }

/-- The state after reset is well formed, nothing waits in its queue and nothing has been sent. What a cold reset leaves (Table
19.6): event counters and running totals zero (R367), every chain slot EMPTY (R47), every context FREE, every seal unbound, no
stream known, DIE_TIME zero (R427), every path locked (R370), the links down, and settings at the Reset column of their tables.
That the power state is RUN and the island in BOOT at this moment is the model's choice (log 8). -/
def Obligations.ResetLeavesTheTables : Prop :=
  (Holds State.reset ∧ State.reset.pending = [] ∧ State.reset.outbox = []) ∧
  ((∀ k, count State.reset k = 0 ∧ ackedValue State.reset k = 0) ∧
  (∀ index sub, total State.reset index sub = 0 ∧ reg State.reset index sub = entryDefault index sub) ∧
  (∀ k, (chain State.reset k).state = .empty) ∧
  (∀ c, ctxState State.reset c = 0) ∧
  (∀ p, (sealAt State.reset p).owner = none ∧ (sealAt State.reset p).count = 0) ∧
  (∀ ctx c, (stream State.reset ctx c).mode = .idle ∧ (stream State.reset ctx c).known = false) ∧
  (∀ d, (die State.reset d).time = 0 ∧ (die State.reset d).flogStage = []) ∧
  (∀ p, (pathState State.reset p).unlocked = false) ∧
  (∀ p, (link State.reset p).state = 0) ∧
  (∀ a, memGet State.reset.mem a = 0) ∧
  State.reset.sem.holder = none ∧ State.reset.tableJob = none ∧ State.reset.updRing = [none, none])

/-- Every step keeps the memory in its canonical form and the number of every unit the module is built with (R8, R9). -/
def Obligations.StepKeepsHolds : Prop :=
  ∀ s t : State, Holds s → step s = .next t → Holds t

/-- Every step takes exactly the front command off the queue, and burns fuses only from 0 to 1, leaving those of the identity
alone (R381): whatever the state. -/
def Obligations.StepKeepsQueueAndFuses : Prop :=
  ∀ s t : State, step s = .next t → t.pending = s.pending.tail ∧ FusesHold s t

/-! ## Arithmetic (chapters 2 and 3) -/

/-- Barrett reduction is exact (R52): for a modulus and its μ, and x below 2^72, the lane's `reduce` is the remainder. The lane
functions are arithmetic modulo q on canonical residues, and write canonical residues (R52). -/
def Obligations.LanesAreExact : Prop :=
  (∀ (p : Prime) (x : Nat), 2 ^ 35 < p.q → p.q < 2 ^ 36 → p.mu = 2 ^ 72 / p.q → x < 2 ^ 72 →
    reduce p x = x % p.q ∧ (x - ((x >>> 35) * p.mu >>> 37) * p.q) % 2 ^ 38 < 3 * p.q) ∧
  (∀ (p : Prime) (a b : Nat), 2 ^ 35 < p.q → p.q < 2 ^ 36 → p.mu = 2 ^ 72 / p.q → a < p.q → b < p.q →
    mulmod p a b = a * b % p.q ∧ addmod p a b = (a + b) % p.q ∧ submod p a b = (a + p.q - b) % p.q ∧
    negmod p a = (p.q - a) % p.q ∧ mulmod p a b < p.q ∧ addmod p a b < p.q ∧ submod p a b < p.q ∧ negmod p a < p.q)

/-- NTT_INV is the exact inverse of NTT_FWD (R54): for the constants of a modulus with 2^17 dividing q − 1, ψ a root with ψ^(2^16)
= −1 and its inverse, a limb of canonical residues comes back. -/
def Obligations.NttInvUndoesNttFwd : Prop :=
  ∀ (p : Prime) (n : Nat) (a : List Nat), 2 ^ 35 < p.q → p.q < 2 ^ 36 → p.mu = 2 ^ 72 / p.q → p.q % 2 ^ 17 = 1 →
    powMod p.psi (2 ^ 16) p.q = p.q - 1 → p.psi * p.psiInv % p.q = 1 → 11 ≤ n → n ≤ 16 → a.length = 2 ^ n →
    (∀ x ∈ a, x < p.q) → nttInvLimb p n false (nttFwdLimb p n a) = a

/-- BCONV's two sums (R60): y is the product with the first section, z the sum of products with a row of the second, modulo p. -/
def Obligations.BconvSums : Prop :=
  (∀ (src : List Prime) (ta xs : List Nat),
    (∀ p ∈ src, 2 ^ 35 < p.q ∧ p.q < 2 ^ 36 ∧ p.mu = 2 ^ 72 / p.q) →
    (∀ z ∈ src.zip (xs.zip ta), z.2.1 < z.1.q ∧ z.2.2 < z.1.q) →
      bconvY src ta xs = (src.zip (xs.zip ta)).map fun z => z.2.1 * z.2.2 % z.1.q) ∧
  ∀ (p : Prime) (row ys : List Nat), 0 < p.q → bconvZ p row ys = ((row.zip ys).map fun z => z.1 * z.2).sum % p.q

/-- A granule's packing (R25): residue j of its 64 lies at bits 36j+35:36j of its 288 bytes, and every bit belongs to a residue:
packing and unpacking undo each other, both ways. -/
def Obligations.GranulePackingIsFaithful : Prop :=
  (∀ l : List Nat, l.length = 64 → (∀ x ∈ l, x < 2 ^ 36) →
    (packGran l).length = 288 ∧ (∀ j < 64, ofLe (packGran l) / 2 ^ (36 * j) % 2 ^ 36 = l.getD j 0) ∧ unpackGran (packGran l) = l) ∧
  ∀ bs : List Byte, bs.length = 288 → packGran (unpackGran bs) = bs

/-- AUTO in coefficient form (R57): for odd g, coefficient j goes to j·g mod 2N, negated where that is N or more. -/
def Obligations.AutoMovesCoefficients : Prop :=
  ∀ (p : Prime) (n g : Nat) (a : List Nat) (j : Nat), g % 2 = 1 → a.length = 2 ^ n → j < 2 ^ n →
    let e := j * g % 2 ^ (n + 1)
    (autoCoeff p n g a).getD (if e < 2 ^ n then e else e - 2 ^ n) 0 = if e < 2 ^ n then a.getD j 0 else negmod p (a.getD j 0)

/-! ## Memory (chapter 12) -/

/-- A write to device memory changes exactly its bytes: in a memory of canonical form they read back, every other address reads as
before, and so do all registers and the queue (R11). -/
def Obligations.DeviceWriteFrame : Prop :=
  ∀ (cls : Machine.Class) (alloc : Bool) (a : Nat) (bs : List Byte) (p : Bool) (s : State),
    let t := devWrite cls alloc a bs p s
    (∀ b, (b < a ∨ a + bs.length ≤ b) → memGet t.mem b = memGet s.mem b) ∧
    (Memory.wf s.mem = true → Memory.wf t.mem = true ∧ devBytes t a bs.length = bs) ∧
    t.regs = s.regs ∧ t.cores = s.cores ∧ t.streams = s.streams ∧ t.seals = s.seals ∧ t.chains = s.chains ∧ t.pending = s.pending

/-! ## Event counters and locks (chapter 17) -/

/-- A held counter (R368): where an increment would bring the count to 2^32 − 1 past the acknowledged value, the count stays and
EVENTS_LOST moves, unless it is itself held; otherwise the count moves by one modulo 2^32. Nothing else changes. -/
def Obligations.CounterIncrements : Prop :=
  ∀ (k : Nat) (s : State),
    let d := fun (k : Nat) => ((count s k + 1) % 2 ^ 32 + 2 ^ 32 - ackedValue s k) % 2 ^ 32
    (d k ≠ 2 ^ 32 - 1 → bump k s = { s with counts := tset s.counts k ((count s k + 1) % 2 ^ 32) }) ∧
    (d k = 2 ^ 32 - 1 → d kEventsLost ≠ 2 ^ 32 - 1 →
      bump k s = { s with counts := tset s.counts kEventsLost ((count s kEventsLost + 1) % 2 ^ 32) }) ∧
    (d k = 2 ^ 32 - 1 → d kEventsLost = 2 ^ 32 - 1 → bump k s = s)

/-! ## Modulus table and chain slots (chapter 2) -/

/-- MT_LOAD and MT_EVICT are admitted with no operation under way and a range that ends by postcode 95: the job begins (R46). The
end of a load whose image is whole and good, and of an evict, with no target pinned: the entries are there with their postcodes
occupied, or are gone, MT_RESULT holds outcome 0 and the first postcode, and MT_DONE has moved (R45, R46). A load that meets an absent
page of its image notes the miss and waits (R300). -/
def Obligations.TableCommands : Prop :=
  (∀ (w : Who) (v : BitVec 16) (s : State),
    let n := bits v.toNat 14 8
    let p := bits v.toNat 6 0
    s.tableJob = none → bit v.toNat 15 = false → bit v.toNat 7 = false → p ≤ 95 → 1 ≤ n → p + n ≤ 96 →
    (opens w 0x3100 2 v.toNat s = true →
      exec (.mtLoad w v) s = .next (wrote w { countAccess s with
        tableJob := some { evict := false, first := p, count := n, image := BitVec.ofNat 64 (reg s 0x3100 1) } })) ∧
    (opens w 0x3100 3 v.toNat s = true →
      exec (.mtEvict w v) s = .next (wrote w { countAccess s with
        tableJob := some { evict := true, first := p, count := n, image := BitVec.ofNat 64 (reg s 0x3100 1) } }))) ∧
  (∀ (s s1 : State) (j : TableJob), s.tableJob = some j →
    (j.evict = false → j.taken.length ≤ j.count →
      let ctx := bits j.image.toNat 59 48
      let k := j.taken.length
      let l := (s1.tableJob.map fun j => j.taken).getD []
      (mtRead ctx (bits j.image.toNat 47 0 + 1728 * k) (j.first + k) j.failed (j.count - k) s = (.whole, s1) →
        mtPinnedTargets s j = [] →
        exec .mtLoadEnd s = .next (mtFinish 0 j.first (mtStore j.first l s1)) ∧ l.length = j.count ∧ j.taken <+: l ∧
        (∀ w ∈ l.drop k, tableEntryOk w.toNat = true) ∧
        ∀ i < j.count, nmem (mtStore j.first l s1).occupied (j.first + i) = true ∧
          tget 0 (mtStore j.first l s1).modTable (j.first + i) = l.getD i 0) ∧
      ∀ q, mtRead ctx (bits j.image.toNat 47 0 + 1728 * k) (j.first + k) j.failed (j.count - k) s = (.absent q, s1) →
        exec .mtLoadEnd s = .next (noteMiss ctx q false s1)) ∧
    (j.evict = true → mtPinnedTargets s j = [] →
      exec .mtEvictEnd s = .next (mtFinish 0 j.first (mtClear j.first j.count s)) ∧
      ∀ i < j.count, nmem (mtClear j.first j.count s).occupied (j.first + i) = false))

/-- ACTIVATE of an EMPTY slot whose descriptor passes Table 2.12's checks: ACTIVATING, with the set's default costs; its end is
ACTIVE with the fingerprint of its moduli (R48, R107). -/
def Obligations.ActivateTakesTheDescriptor : Prop :=
  ∀ (w : Who) (k : Fin 16) (s : State),
    (opens w (0x3110 + k.val) 2 1 s = true → (chain s k.val).state = .empty → activateOk (countAccess s) k.val = true →
      exec (.activate w k) s = .next (wrote w (loadCosts k.val
        (setChain k.val (fun x => { x with state := .activating }) (countAccess s))))) ∧
    ((chain s k.val).state = .activating →
      exec (.activateDone k) s = .next (setChain k.val
        (fun x => { x with state := .active, fp := BitVec.ofNat 32 (chainFp s k.val) }) s))

/-- DRAIN (R49): an ACTIVE slot becomes DRAINING, one that is DRAINING or EMPTY stays, an ACTIVATING one refuses with BUSY; a
DRAINING slot with nothing in flight becomes EMPTY, its descriptor fields unchanged, and CH_DRAINED moves. ACTIVATE of a slot that
is not EMPTY is refused with BUSY. -/
def Obligations.DrainEmptiesTheSlot : Prop :=
  ∀ (w : Who) (k : Fin 16) (s : State),
    (opens w (0x3110 + k.val) 2 2 s = true →
      exec (.drain w k) s = .next (match (chain s k.val).state with
        | .active => wrote w (setChain k.val (fun x => { x with state := .draining }) (countAccess s))
        | .activating => refusedWith w 0x16 (countAccess s)
        | _ => wrote w (countAccess s))) ∧
    (opens w (0x3110 + k.val) 2 1 s = true → (chain s k.val).state ≠ .empty →
      exec (.activate w k) s = .next (refusedWith w 0x16 (countAccess s))) ∧
    ((chain s k.val).state = .draining → (chain s k.val).inflight = 0 → ∃ t,
      exec (.drainComplete k) s = .next t ∧
      t = bumpE (0x3110 + k.val) 9 (setChain k.val (fun x => { x with state := .empty }) s) ∧ t.regs = s.regs)

/-! ## Polynomial engine and key streams (chapters 3 and 4) -/

/-- A POLY instruction at the head of its queue whose repeats all come to their end leaves the queue and waits to retire: NTT_FWD,
NTT_INV, AUTO, the pointwise instructions, TENSOR, BCONV with its claim on the matrix array (R65), RESCALE, TRANSPOSE, OPEN, COMMIT
(R50, R217). Each of them comes to its end where the checks of each repeat pass (Tables 2.5, 3.9) and its granules hold canonical
residues, translate at once on this module, and are not written before they are read. -/
def Obligations.PolyInstructionsEnd : Prop :=
  (∀ (c : Fin 128) (s : State) (i : Issued) (posts : List SealMsg) (t : State), ∀ row ∈ polyRows c,
    (row.2.1 = 0x30 → begun i = true ∨ arrayClosed s c.val i.serial = false) →
    Finishes c.val .poly row.2.1 row.2.2 s i posts t → exec row.1 s = .next (endOk c.val .poly i posts t)) ∧
  ∀ (c : Fin 128) (s : State) (i : Issued),
    (∀ row ∈ polyJobs c, (row.2.1 = 0x30 → begun i = true ∨ arrayClosed s c.val i.serial = false) →
      CanRun c.val .poly row.2.1 (polyRun row.2.2 c.val) (polyCan c.val row.2.1) s i →
      ∃ posts t, exec row.1 s = .next (endOk c.val .poly i posts t)) ∧
    (CanRun c.val .poly 0x3C (polyOpen c.val) (headerCan (openChecks c.val) c.val) s i →
      ∃ posts t, exec (.openObj c) s = .next (endOk c.val .poly i posts t)) ∧
    (CanRun c.val .poly 0x3D (polyCommitObj c.val) (headerCan (commitChecks c.val) c.val) s i →
      ∃ posts t, exec (.commit c) s = .next (endOk c.val .poly i posts t))

/-! ## Gate class (chapter 6) -/

/-- The gate instructions of the lanes, with their claim on the vector engine, and G_KSW with its claim on the matrix array (R121,
R122, R137, R175): one whose repeats all come to their end leaves the queue and waits to retire; each comes to its end where its checks
pass (Table 5.10) and its granules are served. A G_REFRESH of mode 1 runs its repeats whole, and does so where their checks pass and
their granules are served. -/
def Obligations.GateInstructionsEnd : Prop :=
  (∀ (c : Fin 128) (s : State) (i : Issued),
    (∀ posts t, ∀ row ∈ gateRows c, gateHead s c.val row.2.1 = some i →
      Finishes c.val .gateLane row.2.1 row.2.2 s i posts t → exec row.1 s = .next (endOk c.val .gateLane i posts t)) ∧
    (∀ row ∈ (gateRows c).zip (gateJobs c), gateHead s c.val row.1.2.1 = some i →
      CanRun c.val .gateLane row.1.2.1 row.1.2.2 (gateCan row.2.2.2.1 row.2.2.2.2.2 true) s i →
      ∃ posts t, exec row.1.1 s = .next (endOk c.val .gateLane i posts t)) ∧
    (begun i = true ∨ arrayClosed s c.val i.serial = false ∧ bconvHolds s c.val = false →
      (∀ posts t, Finishes c.val .gateArray 2 (gateKsw c.val) s i posts t →
        exec (.gKsw c) s = .next (endOk c.val .gateArray i posts t)) ∧
      (CanRun c.val .gateArray 2 (gateKsw c.val) (gateCan (kswChecks c.val) kswPieces false) s i →
        ∃ posts t, exec (.gKsw c) s = .next (endOk c.val .gateArray i posts t)))) ∧
  ∀ (c : Fin 128) (s : State) (i : Issued), gateHead s c.val 3 = some i → i.gate = none → gMode i.word.toNat ≠ 0 →
    (∀ t, runFrom i.journal (stopping s c.val i.ctx) (refreshSegments c.val i) s = .ok () t →
      exec (.gRefresh c) s = .next (refreshEnd c.val i t)) ∧
    (stopping s c.val i.ctx = false → i.journal = [] → segmentsCan c.val i s →
      ∃ t, exec (.gRefresh c) s = .next (refreshEnd c.val i t))

/-- The consumers of a key stream. KEY_MAC (R92, R93) and a streamed G_REFRESH (R117, R119, R120, R125) are checked over every repeat,
then against their stream, and then take one parcel a step: a parcel in its place with canonical residues, of a stream that is the
core's, is applied to every repeat; an earlier parcel leaves the instruction at the head with one parcel more done. The last ends a
KEY_MAC with the signals of its repeats; with every parcel taken a G_REFRESH writes its samples and ends. -/
def Obligations.StreamConsumersTakeParcels : Prop :=
  (∀ (c : Fin 128) (s : State) (i : Issued), readyHead s c.val .poly 0x2C = some i →
    (∀ (k : KmOps) (t : State), i.km = none → runFrom i.journal false (kmIssue c.val i) s = .ok k t →
      k.checked = false ∧ k.done = 0 ∧ exec (.keyMac c) s = .next (kmHold c.val k t)) ∧
    ∀ k : KmOps, i.km = some k →
      (∀ (k' : KmOps) (t : State), k.checked = false → runFrom i.journal false (kmStart c.val i k) s = .ok k' t →
        k'.checked = true ∧ k'.done = k.done ∧ exec (.keyMac c) s = .next (kmHold c.val k' t)) ∧
      let w := i.word.toNat
      let ch := hChain ((k.reps.head?.map fun r => r.1.h).getD 0)
      let gr := chG s ch
      let at_ := (kmPlan w gr).getD k.done (0, 0)
      let answer := fun (k' : KmOps) (t : State) => if (kmPlan w gr).length ≤ k.done + 1 then
          endOk c.val .poly i [] ((List.range (iRepM1 w + 1)).foldl (fun s _ => repeatSignal c.val i s) t)
        else kmHold c.val k' t
      (∀ (k' : KmOps) (last : Bool) (t : State), k.checked = true → runFrom i.journal false (kmParcel c.val i k) s = .ok (k', last) t →
        k'.done = k.done + 1 ∧ exec (.keyMac c) s = .next (answer k' t)) ∧
      ∀ (d : StreamDesc) (x : Parcel), k.checked = true → i.journal = [] → ParcelHere s c.val i.ctx false d x →
        KmParcelOk s w ch gr k x →
        WorkServed s (envOf c.val .poly i) (k.reps.map fun r => r.2.1.addr)
          (kmWork s gr at_.1 (at_.2 * blockGr gr) x.init k.reps) →
          ∃ k' t, k'.done = k.done + 1 ∧ exec (.keyMac c) s = .next (answer k' t)) ∧
  ∀ (c : Fin 128) (s : State) (i : Issued), gateHead s c.val 3 = some i →
    (∀ (k : GateOps) (t : State), i.gate = none → gMode i.word.toNat = 0 →
      runFrom i.journal (stopping s c.val i.ctx) (refreshIssue c.val i) s = .ok k t →
      k.checked = false ∧ k.done = 0 ∧ exec (.gRefresh c) s = .next (gateHold c.val k t)) ∧
    ∀ k : GateOps, i.gate = some k →
      (∀ (k' : GateOps) (t : State), k.checked = false →
        runFrom i.journal (stopping s c.val i.ctx) (refreshStart c.val i k) s = .ok k' t →
        k'.checked = true ∧ k'.done = k.done ∧ exec (.gRefresh c) s = .next (gateHold c.val k' t)) ∧
      (∀ (d : StreamDesc) (x : Parcel), k.checked = true → allParcels k = false → i.journal = [] → stopping s c.val i.ctx = false →
        ParcelHere s c.val i.ctx false d x → RefreshParcelOk s k x →
          exec (.gRefresh c) s = .next (gateHold c.val { k with
            done := k.done + 1
            reps := k.reps.map fun g => refreshApply s k.done (unpackGrans x.k0) (unpackGrans x.k1) x.poison g }
            (parcelApplied c.val (settled s)))) ∧
      (k.checked = true → allParcels k = true → i.journal = [] → stopping s c.val i.ctx = false →
        WorkServed s (envOf c.val .gateLane i) (k.reps.map fun g => g.d.addr)
          [{ writes := k.reps.flatMap fun g => sampleWrites s g.d }] →
          ∃ t, exec (.gRefresh c) s = .next (refreshEnd c.val i t))

/-! ## Matrix array and vector engine (chapters 7 and 8) -/

/-- MM (R138, R142, R143, R158, R282): issued, and the array not taken by a BCONV or G_KSW (R137), it works part by part until it is
done, or waits for a bank or a chunk: a ROUTE 1 or 2 repeat that is done is complete, a ROUTE 0 one waits for its tiles to enter the
queue. One issued from descriptors alone whose operands are served comes to its end. The last repeat of an MM ends the instruction; an
earlier one leaves it at the head with one repeat more done (R216, R217). -/
def Obligations.MmRuns : Prop :=
  (∀ (c : Fin 128) (s s0 t : State) (i : Issued) (o o' : MmOps) (j : List Ev) (n : Nat), readyHead s c.val .mm 1 = some i →
    (i.mm = some o ∧ mmDone o = false ∧ s0 = s ∧ j = i.journal ∨
      i.mm = none ∧ (arrayTaken s c.val = false ∨ begun i = true) ∧ j = [] ∧ runFrom i.journal false (do
        let o ← mmIssue c.val i i.progress
        arrSealBound (envOf c.val .mm i) o
        pure o) s = .ok o s0) →
    MmWorks c.val i n o j s0 o' t → n < mmFuel o →
    (mmDone o' = true → mmRoute o'.word ≠ 0 → ∃ i', (i' = i ∨ i' = { i with journal := [] }) ∧
      exec (.mm c) s = .next (mmRepeatDone c.val i' t)) ∧
    (mmDone o' = true → mmRoute o'.word = 0 → exec (.mm c) s = .next (mmKeep c.val o' [] t)) ∧
    (mmDone o' = false → mmWaits t c.val o' = true → (n ≠ 0 ∨ j = []) → exec (.mm c) s = .next (mmKeep c.val o' [] t))) ∧
  (∀ (c : Fin 128) (s : State) (i : Issued) (o : MmOps), readyHead s c.val .mm 1 = some i → i.mm = none → i.journal = [] →
    (arrayTaken s c.val = false ∨ begun i = true) → stopping s c.val i.ctx = false → mmCan c.val i s o →
    (mmRoute o.word ≠ 0 → ∃ t, exec (.mm c) s = .next (mmRepeatDone c.val i t)) ∧
    (mmRoute o.word = 0 → ∃ o' t, (mmDone o' = true ∨ mmWaits t c.val o' = true) ∧ exec (.mm c) s = .next (mmKeep c.val o' [] t))) ∧
  (∀ (c : Fin 128) (i : Issued) (s : State),
    let s1 := repeatSignal c.val i { s with wrote := [], wroteFar := [] }
    (iRepM1 i.word.toNat ≤ i.progress → mmRepeatDone c.val i s = endOk c.val .mm i [] s1) ∧
    (i.progress < iRepM1 i.word.toNat → mmRepeatDone c.val i s =
      setHead c.val .mm (fun x => { x with progress := x.progress + 1, mm := none, journal := [] }) s1))

/-- TILE_PUSH (R138, R139): with room, the oldest finished tile is drained from its bank, becomes the queue's last entry and counts;
with the last tile of a repeat the MM goes on. ARRIVAL_CHUNK_MET (R158): the MM may use one chunk more. An instruction whose operand A
is the finished-tile queue starts, is issued once, and takes entries of its context one by one until the last of the MM (R172), each
where its elements' operands are served; entries of a faulted consumer are discarded up to the last, and those of a killed context
(R173). -/
def Obligations.TilesTravel : Prop :=
  (∀ (c : Fin 128) (s : State),
    (∀ (b : Bank) (r : List Bank), (core s c.val).array.finished = b :: r → queueUsed (core s c.val) < 4 →
      let t := tileOf b
      let s1 := tileDone (bit t.tag.toNat 35) (bit t.tag.toNat 36)
        (setCore c.val (fun x => { x with array := { x.array with finished := r, queue := x.array.queue ++ [t] } }) s)
      (r ≠ [] → exec (.tilePush c) s = .next s1) ∧
      ∀ i, r = [] → headOf s1 c.val .mm = some i → mmRoute i.word.toNat = 0 → i.ctx = b.ctx → i.mm.any mmDone = true →
        exec (.tilePush c) s = .next (mmRepeatDone c.val i s1)) ∧
    ∀ (i : Issued) (o : MmOps) (f : FuseTens) (p : Nat), readyHead s c.val .mm 1 = some i → i.mm = some o → o.fuse = some f →
      sealOf s i.ctx (fuArrSeal f.w) = some p → o.chunks < arrChunks o →
      waitMet s (p, BitVec.ofNat 32 (fuArrBase f.w + o.chunks + 1)) = true →
        exec (.arrivalChunkMet c) s =
          .next (setHead c.val .mm (fun i => { i with mm := some { o with chunks := o.chunks + 1 } }) s)) ∧
  (∀ (c : Fin 128) (s : State) (i : Issued) (o : VecOps),
    (∀ s1, ∀ row ∈ vecRowTable c, vecPops i.word.toNat = true → (vecClaimed s c.val = false ∨ begun i = true) →
      readyHead s c.val .vec row.2 = some i → i.vec = none → (core s c.val).vec.discard ≠ some i.ctx →
      runFrom i.journal false (vecIssue c.val i i.progress) s = .ok o s1 →
        exec row.1 s = .next (setHead c.val .vec (fun x => { x with vec := some o, journal := [] }) s1)) ∧
    ((core s c.val).array.queue.any (deadTile s) = false →
      (∀ t : Tile, (core s c.val).vec.discard = none → headOf s c.val .vec = some i → ready s c.val i = true →
        i.vec = some o → firstTile (core s c.val) i.ctx = some t →
        let e := envOf c.val .vec i
        let last := bit t.tag.toNat 34
        let answer := fun (o' : VecOps) (s1 : State) =>
          let s2 := popTile c.val (fun t => t.ctx == i.ctx) { s1 with wrote := [], wroteFar := [] }
          if last then popDone c.val i s2 else setHead c.val .vec (fun x => { x with vec := some o', journal := [] }) s2
        (∀ o' s1, runFrom i.journal (stopping s c.val i.ctx) (do
            let o ← popElems e i.word.toNat o t
            if last then popFinish e i.word.toNat o
            pure o) s = .ok o' s1 → exec (.tilePop c) s = .next (answer o' s1)) ∧
        (i.journal = [] → stopping s c.val i.ctx = false → PopServed s e i.word.toNat o t →
          ∃ o' s1, exec (.tilePop c) s = .next (answer o' s1))) ∧
      ∀ (ctx : Nat) (t : Tile), (core s c.val).vec.discard = some ctx → firstTile (core s c.val) ctx = some t →
        exec (.tilePop c) s = .next (discardTile c.val ctx t s)) ∧
    ((core s c.val).array.queue.any (deadTile s) = true → exec (.tilePop c) s = .next (popTile c.val (deadTile s) s)))

/-- Every vector instruction over tensors and registers, with the engine not claimed by a gate instruction or its work begun (R175):
when its repeats all come to their end, it leaves the queue and waits to retire. It comes to its end where its checks pass (Table 8.4)
and its operands are served. -/
def Obligations.VectorRowsEnd : Prop :=
  ∀ (c : Fin 128) (s : State) (i : Issued), (vecClaimed s c.val = false ∨ begun i = true) → vecPops i.word.toNat = false →
    ∀ row ∈ vecRowTable c,
      (∀ posts t, Finishes c.val .vec row.2 (vecRun c.val row.2) s i posts t →
        exec row.1 s = .next (endOk c.val .vec i posts t)) ∧
      (CanRun c.val .vec row.2 (vecRun c.val row.2) (vecCan c.val row.2) s i →
        ∃ posts t, exec row.1 s = .next (endOk c.val .vec i posts t))

/-- An element-wise instruction from registers to a register (R162, R167, R168): lane l of VD is the operation on lane l of A, and
on lane l or lane 0 of B and C as their sources say; poison goes along. Nothing but the register, the event counters and the queue
changes. -/
def Obligations.VectorRegisterForm : Prop :=
  ∀ (c : Fin 128) (s : State) (i : Issued), ∀ row ∈ vecRowTable c, row.2 < 0x30 → row.2 ≠ 0x0B →
    vecClaimed s c.val = false → readyHead s c.val .vec row.2 = some i → iRepM1 i.word.toNat = 0 → i.progress = 0 →
    i.journal = [] → stopping s c.val i.ctx = false →
    vecEncOk i.word.toNat = true → vASrc i.word.toNat = 1 → vDReg i.word.toNat = true →
    (vecUsesB row.2 = true → vBSrc i.word.toNat = 1 ∨ vBSrc i.word.toNat = 2) →
    (vecUsesC row.2 = true → vCSrc i.word.toNat = 1 ∨ vCSrc i.word.toNat = 2) →
      let w := i.word.toNat
      let b := fun l => if vecUsesB row.2 then vLane s c.val i.ctx (vVB w) (if vBSrc w = 2 then 0 else l) else (0, false)
      let d := fun l => if vecUsesC row.2 then vLane s c.val i.ctx (vVC w) (if vCSrc w = 2 then 0 else l) else (0, false)
      let v := fun l => vecFn w (vLane s c.val i.ctx (vVA w) l).1 (b l).1 (d l).1
      let p := fun l => (vLane s c.val i.ctx (vVA w) l).2 || (b l).2 || (d l).2
      exec row.1 s = .next (endOk c.val .vec i i.posts (repeatSignal c.val i { setVReg c.val i.ctx (vVD w)
        ((List.range 64).map fun l => ((v l).val, p l))
        (rowEvents ((List.range 64).map v) (settled s)) with wrote := [], wroteFar := [] }))

/-! ## The courier (chapter 4) -/

/-- KEY_STREAM and RELAY_W with good fields, and a place for each request at the engine of the core's round, which holds 4: the
requests stand at the engine and the instruction ends (R81, R281). STREAM_START (R81, R85): an engine whose last stream is gone
takes its next request; with the checks passed the stream's descriptor and parcels stand at the engine, under the next serial
number. PARCEL_FORM (R80, R87): the next parcel leaves the list, filled, for the first core, where its bytes can be read at once.
PARCEL_ARRIVAL (R90, R96): a core with a free slot takes its neighbour's parcel, marked poisoned when its CRC fails; a new stream's
descriptor comes before its parcels. RELAY_STALL (R97): a parcel that has waited in a slot longer than the limit is reported once,
counted twice, with a record. The order of the two counters is the model's (log 4). -/
def Obligations.StreamsTravel : Prop :=
  (∀ (c : Fin 128) (s : State) (i : Issued),
    (let t := fun (weight : Bool) => repeatSignal c.val i { setEngine (roundOf c.val) (fun e => { e with
        queue := e.queue ++ [{ weight := weight, core := c.val, instr := { i with progress := 0 } }] })
        (settled s) with wrote := [], wroteFar := [] };
      iRepM1 i.word.toNat = 0 → i.progress = 0 → i.journal = [] → engHeld (engine s (roundOf c.val)) < 4 →
      (readyHead s c.val .courier 1 = some i → keyStreamEncOk i.word.toNat = true →
        exec (.keyStream c) s = .next (endOk c.val .courier i i.posts (t false))) ∧
      (readyHead s c.val .move 8 = some i → relayWEncOk i.word.toNat = true →
        exec (.relayW c) s = .next (endOk c.val .move i i.posts (t true)))) ∧
    (CanRun c.val .courier 1 (submit false keyStreamEncOk c.val) (fun i _ s => keyStreamEncOk i.word.toNat = true ∧
        engHeld (engine s (roundOf c.val)) < 4) s i →
      ∃ posts t, exec (.keyStream c) s = .next (endOk c.val .courier i posts t)) ∧
    (CanRun c.val .move 8 (submit true relayWEncOk c.val) (fun i _ s => relayWEncOk i.word.toNat = true ∧
        engHeld (engine s (roundOf c.val)) < 4) s i →
      ∃ posts t, exec (.relayW c) s = .next (endOk c.val .move i posts t))) ∧
  (∀ (r : Fin 8) (s s1 : State) (q : StreamReq) (rest : List StreamReq) (p : StreamPlan),
    let x := engine s r.val
    let n := x.serial + 1
    let e : Env := { core := q.core, ctx := q.instr.ctx, unit := .courier, failed := x.pageFault, alloc := false }
    running s = true → mayStart s r.val = true → x.queue = q :: rest → streamLive s q.instr.ctx = true →
    runFrom x.journal false (if q.weight = true then weightChecks e n q.instr else keyChecks e r.val n q.instr) s = .ok p s1 →
      exec (.streamStart r) s = .next (setEngine r.val (fun x => { forgetWait x with
        queue := rest, serving := some q, serial := n, current := some p.desc, todo := p.todo, limbs := [],
        listing := p.listing }) s1)) ∧
  ((∀ (r : Fin 8) (s : State) (p : Parcel) (rest : List Parcel) (d : StreamDesc),
    let x := engine s r.val
    let e : Env := { core := (x.serving.map (·.core)).getD (firstCore r.val), ctx := d.ctx, unit := .courier, failed := x.pageFault,
                     alloc := false }
    x.todo = p :: rest → x.current = some d → running s = true → streamLive s d.ctx = true → x.out.length < 4 →
    x.journal = [] → FormServed s e x d p →
      ∃ q l s1, q.pos = p.pos ∧ q.block = p.block ∧ q.key = p.key ∧ q.beta = p.beta ∧
        exec (.parcelForm r) s = .next (readAhead { e with failed := none } r.val 4 (setEngine r.val (fun x =>
          dropLimbs { forgetWait x with todo := rest, out := x.out ++ [q], limbs := l }) s1))) ∧
  ∀ (c : Fin 128) (ok : Bool) (s : State) (d : StreamDesc), upstream s c.val = some d →
    ((core s c.val).relay.current.map (·.stream) ≠ some d.stream → mayAdvance s c.val = true →
      exec (.parcelArrival c ok) s = .next (setRelay c.val (fun _ => { current := some d }) s)) ∧
    ∀ x, (core s c.val).relay.current.map (·.stream) = some d.stream → offered s c.val = some x →
      (core s c.val).relay.slots.length < 2 → (c.val % 16 ≠ 0 ∨ streamLive s d.ctx = true) →
      exec (.parcelArrival c ok) s = .next (setRelay c.val (fun p => freeSlots { p with
          slots := p.slots ++ [{
            parcel := { x with poison := x.poison || !ok }, forwarded := lastOfRound c.val,
            applied := !(consumes d c.val) || (core s c.val).relay.left ||
              decide ((core s c.val).relay.got < (core s c.val).relay.skip),
            stallSeen := false, since := s.time }],
          got := p.got + 1 })
        (if ok = true then handOn c.val s else bumpE 0x6000 8 (handOn c.val s)))) ∧
  (∀ (c : Fin 128) (k : Fin 2) (s : State) (x : RelaySlot), (core s c.val).relay.slots[k.val]? = some x →
    reg s 0x3200 1 ≠ 0 → x.stallSeen = false → reg s 0x3200 1 < s.time - x.since →
      exec (.relayStall c k) s = .next (stageRec (dieOf c.val)
        { unit := .relay, reason := .relayStall, core := c.val, ctx := ((core s c.val).relay.current.map (·.ctx)).getD 0,
          detail := labelWord x.parcel + roundField (roundOf c.val) }
        (bumpE 0x3200 2 (bumpE (0x3210 + roundOf c.val) 7 (setRelay c.val (fun p => { p with
          slots := lmod p.slots k.val fun x => { x with stallSeen := true } }) s)))))

/-! ## The command processor (chapter 10) -/

/-- A doorbell for a known stream of a context in a session, once the context's entry is read (R207, R289): a HEAD not behind the present one and at most 2^RING_LOG2
ahead of RETIRED is taken, unless the stream is FINISHED; any other is refused, the stream left unchanged, counted at 0x3600.03
and recorded with RING_RANGE. -/
def Obligations.DoorbellsMoveHead : Prop :=
  ∀ (ctx : Fin 4096) (gen : BitVec 16) (c : Fin 128) (head : Word32) (s0 : State),
    let s := readEntry ctx.val s0
    let t := stream s ctx.val c.val
    (ctxState s ctx.val = 1 ∨ ctxState s ctx.val = 2) → ctxGen s ctx.val = gen.toNat → t.known = true →
    (0 ≤ sdiff32 head.toNat t.head.toNat ∧ sdiff32 head.toNat t.retired.toNat ≤ ((2 ^ t.ringLog2 : Nat) : Int) ∧
        t.mode ≠ .finished →
      exec (.doorbell ctx gen c head) s0 = .next (setStream ctx.val c.val (fun t => { t with head := head }) s)) ∧
    (sdiff32 head.toNat t.head.toNat < 0 ∨ ((2 ^ t.ringLog2 : Nat) : Int) < sdiff32 head.toNat t.retired.toNat ∨
        t.mode = .finished → ∃ u,
      exec (.doorbell ctx gen c head) s0 = .next u ∧ stream u ctx.val c.val = t ∧
      u = stageRec (dieOf c.val) { unit := .cp, reason := .ringRange, core := c.val, ctx := ctx.val } (bumpE 0x3600 3 s))

/-- BLOCK_LOAD (R210): the next block of a running stream that is not loaded, or is short of HEAD, is filled from the ring; one
already held is extended in place, its generation kept. A reload of a block of instruction memory (R211) whose ring page is there: at
once when the block is not occupied or the reload is forced, held until it is left otherwise; it reads the block's words again under a
new generation. -/
def Obligations.BlocksAreHeld : Prop :=
  (∀ (c : Fin 128) (ctx : Fin 4096) (s s1 : State) (rb k : Nat) (ws : List Nat) (ms : List Bool),
    inSlot s c.val ctx.val = true → running s = true → stopped s c.val ctx.val = false →
    (stream s ctx.val c.val).mode = .running → wantedBlock s c.val ctx.val = some rb → readFailed (stream s ctx.val c.val) rb = false →
    (blockOf (core s c.val) ctx.val rb = some k →
      ringWords c.val ctx.val rb ((core s c.val).imem.getD k {}).fill s = (some (ws, ms), s1) →
      blockOf (core s1 c.val) ctx.val rb = some k →
        exec (.blockLoad c ctx) s = .next (setBlock c.val k (fillBlock ((core s c.val).imem.getD k {}).fill ws ms) s1)) ∧
    (blockOf (core s c.val) ctx.val rb = none → mayTake s c.val ctx.val = true →
      ringWords c.val ctx.val rb 0 s = (some (ws, ms), s1) → blockOf (core (takeBlock c.val ctx.val rb s1) c.val) ctx.val rb = some k →
        exec (.blockLoad c ctx) s = .next (setBlock c.val k (fillBlock 0 ws ms) (takeBlock c.val ctx.val rb s1)))) ∧
  (∀ (w : Who) (c : Fin 128) (ctx : Fin 4096) (rb : BitVec 24) (s : State),
    let u := countAccess s
    let r := fun (force : Bool) => ({ ctx := ctx.val, ringBlock := rb.toNat, force := force } : HeldReload)
    reloadAbsent s c.val (r false) = none →
    (opens w (0x3680 + c.val) 8 (ctx.val * 2 ^ 48 + rb.toNat) s = true →
      exec (.imemReload w c ctx rb) s = .next (wrote w (if occupied s c.val ctx.val rb.toNat = false then carryReload c.val (r false) u
        else setReloadState c.val 1 (setCore c.val (fun x => { x with reload := x.reload ++ [r false] }) u)))) ∧
    (opens w (0x3680 + c.val) 8 (ctx.val * 2 ^ 48 + 2 ^ 40 + rb.toNat) s = true →
      exec (.imemReloadForce w c ctx rb) s = .next (wrote w (carryReload c.val (r true) u)))) ∧
  (∀ (c : Fin 128) (s : State) (r : HeldReload), (core s c.val).reload.find? (fun r => reloadReady s c.val r) = some r →
    exec (.imemReloadHeldDone c) s = .next (carryReload c.val r s)) ∧
  ∀ (c ctx rb k : Nat) (s s1 : State) (ws : List Nat) (ms : List Bool), blockOf (core s c) ctx rb = some k →
    ringWords c ctx rb 0 s = (some (ws, ms), s1) →
      reloadBlock c ctx rb s =
        setBlock c k (fun b => fillBlock 0 ws ms { ctx := some ctx, ringBlock := rb, gen := b.gen + 1 }) s1

/-- DISPATCH (R213, R214, R222): the word at NEXT of the stream whose turn it is, with no reason to stop and room in its class's
queue, enters that queue with its addresses, wait target and signal seal resolved; NEXT, the generators it used and its wait
target move on; a CTRL instruction is held instead. WAIT_MET (R215): the instruction at the head of a queue, or held at dispatch,
whose seal meets its target may start. INSTRUCTION_RETIRE (R205, R216): the first ended instruction whose bursts are all complete
retires with its signals. -/
def Obligations.InstructionsIssueAndRetire : Prop :=
  (∀ (c : Fin 128) (s : State) (k : Nat) (ks : List Nat) (ctx w slot : Nat),
    let s1 := match blockOf (core (eccReload c.val ctx s) c.val) ctx ((stream (eccReload c.val ctx s) ctx c.val).next.toNat / 256) with
      | some k => setStream ctx c.val (recordGen ((stream (eccReload c.val ctx s) ctx c.val).next.toNat / 256)
          ((core (eccReload c.val ctx s) c.val).imem.getD k {}).gen) (eccReload c.val ctx s)
      | none => eccReload c.val ctx s
    let t := stream s1 ctx c.val
    slotOrder s c.val = k :: ks → (core s c.val).slots.getD k none = some ctx → mayDispatch s c.val ctx = true →
    (stream s ctx c.val).fetched = none → fetchAt (eccReload c.val ctx s) c.val ctx = .word w slot →
    dispatchFault s1 t w = none →
    (∀ q, queueOf w = some q → (queue (core s1 c.val) q).length < 8 →
      exec (.dispatch c) s = .next (setCore c.val (fun x => { x with lastSlot := k })
        (dispatchTo c.val ctx q (issuedOf s1 c.val ctx t w slot) s1))) ∧
    (queueOf w = none →
      exec (.dispatch c) s = .next (setCore c.val (fun x => { x with lastSlot := k })
        (setCore c.val (fun x => { x with serial := x.serial + 1 })
          (setStream ctx c.val (fun t => { t with held := some (issuedOf s1 c.val ctx t w slot), fetched := none }) s1))))) ∧
  (∀ (c : Fin 128) (s : State), running s = true →
    (∀ (q : QueueId) (i : Issued) (w : Nat × Word32), headOf s c.val q = some i → i.wait = some w → waitMet s w = true →
      stopped s c.val i.ctx = false →
        exec (.waitMet c (.queue q)) s = .next (setHead c.val q (fun i => { i with started := true }) s)) ∧
    (∀ (ctx : Fin 4096) (i : Issued) (w : Nat × Word32), (stream s ctx.val c.val).held = some i → i.wait = some w →
      waitMet s w = true → stopped s c.val ctx.val = false →
        exec (.waitMet c (.ctrl ctx)) s =
          .next (setStream ctx.val c.val (fun t => { t with held := some { i with started := true } }) s)) ∧
    ∀ (k : Nat) (e : Ended), (core s c.val).retiring.findIdx? (fun e => burstsDone s c.val e) = some k →
      (core s c.val).retiring[k]? = some e →
        exec (.instructionRetire c) s =
          .next (retireOne c.val e (setCore c.val (fun x => { x with retiring := ldrop x.retiring k }) s)))

/-- The CTRL instructions that have their effect at once (Table 10.7): NOP, AG_SET with a good record, AG_RESET, SEAL_BIND of a
known seal, FENCE with nothing in flight, MARK, END outside loops, HALT. LOOP in its place, with HEAD past its body and its pins
to be had, becomes the innermost loop (R224, R225), at once or, after waiting, by LOOP_PIN; STREAM_FINISH of an ended stream with
nothing in flight (R226). -/
def Obligations.ControlInstructions : Prop :=
  (∀ (c : Fin 128) (ctx : Fin 4096) (s : State) (i : Issued),
    let w := i.word.toNat
    let held := fun (op : Nat) => heldCtrl s c.val ctx.val op = some i
    (held 0 → exec (.nop c ctx) s = .next (ctrlDone c.val ctx.val i s)) ∧
    (∀ v s1, held 1 → bits w 47 0 % 64 = 0 →
      runFrom [] false (loadWord { core := c.val, ctx := ctx.val, unit := .cp, failed := i.pageFault } (bits w 47 0) 64) s = .ok v s1 →
      genFault v = none →
        exec (.agSet c ctx) s = .next (setStream ctx.val c.val (fun t => { t with
          gens := lmod t.gens (bits w 51 49) fun _ => genReset { isSet := true, record := BitVec.ofNat 512 v } })
          (ctrlDone c.val ctx.val i s1))) ∧
    (held 2 → exec (.agReset c ctx) s = .next (setStream ctx.val c.val (fun t => { t with
      gens := lmod t.gens (bits w 51 49) fun g => if g.isSet then genReset g else g }) (ctrlDone c.val ctx.val i s))) ∧
    (∀ p, held 4 → sealOf s ctx.val (bits w 47 32) = some p →
      exec (.sealBind c ctx) s = .next (setStream ctx.val c.val (fun t => { t with slots := lmod t.slots (bits w 55 52) fun _ =>
        { sealId := BitVec.ofNat 16 (bits w 47 32),
          bound := some {
            phys := p, gen := (sealAt s p).gen, proxy := (sealAt s p).remote.isSome, sealId := BitVec.ofNat 16 (bits w 47 32) },
          target := BitVec.ofNat 32 (bits w 31 0) } }) (ctrlDone c.val ctx.val i s))) ∧
    (held 0xC → (stream s ctx.val c.val).inflight = [] → exec (.fence c ctx) s = .next (ctrlDone c.val ctx.val i s)) ∧
    (held 0xD → exec (.mark c ctx) s = .next (trace (dieOf c.val)
      { tkind := 1, postmark := i.postmark.toNat, value := bits w 31 0, ctx := ctx.val, core := c.val }
      (ctrlDone c.val ctx.val i s))) ∧
    (held 0xE → (stream s ctx.val c.val).loops = [] →
      exec (.endStream c ctx) s = .next (setStream ctx.val c.val (fun t => { t with ended := true }) (ctrlDone c.val ctx.val i s))) ∧
    (held 0xF → exec (.halt c ctx) s = .next (ctrlHalt c.val ctx.val i .haltInstruction 0 none
      (setStream ctx.val c.val (fun t => { t with next := i.index + 1 }) s)))) ∧
  (∀ (c : Fin 128) (ctx : Fin 4096) (s : State),
    (∀ i, heldCtrl s c.val ctx.val 8 = some i → loopBad (stream s ctx.val c.val) i = false →
      0 < sdiff32 (stream s ctx.val c.val).head.toNat (loopLast i).toNat → (core s c.val).pinWaits = [] →
      pinFits s c.val ctx.val i = true → exec (.loop c ctx) s = .next (startLoop c.val ctx.val i s)) ∧
    (∀ i rest, (core s c.val).pinWaits = ctx.val :: rest → heldCtrl s c.val ctx.val 8 = some i →
      pinFits s c.val ctx.val i = true →
        exec (.loopPin c) s = .next (startLoop c.val ctx.val i (setCore c.val (fun x => { x with pinWaits := x.pinWaits.drop 1 }) s))) ∧
    ((stream s ctx.val c.val).ended = true → (stream s ctx.val c.val).inflight = [] → (stream s ctx.val c.val).mode = .running →
      exec (.streamFinish c ctx) s = .next (closeMailboxes false c.val ctx.val 1 (bumpE 0x3600 5 (writeBack c.val ctx.val
        (setStream ctx.val c.val (fun t => { t with mode := .finished }) s))))))

/-- The debugger's commands on the stream that CP_SELECT names (R231): RESUME and SKIP of a HALTED stream, HALT of a RUNNING one;
any other is refused with BUSY, and so is a command on a stream whose SKIP still waits for its page (log 140). -/
def Obligations.DebuggerCommands : Prop :=
  ∀ (w : Who) (c : Fin 128) (s : State),
    let u := countAccess s
    let ctx := bits (reg s (0x3680 + c.val) 1) 11 0
    let idle := (stream s ctx c.val).skipping = false
    let mode := (stream s ctx c.val).mode
    (opens w (0x3680 + c.val) 7 1 s = true →
      exec (.cpResume w c) s = .next (if idle ∧ mode = .halted then wrote w (resumeStream c.val ctx u) else refusedWith w 0x16 u)) ∧
    (opens w (0x3680 + c.val) 7 2 s = true →
      exec (.cpSkip w c) s = .next (if idle ∧ mode = .halted then wrote w (skipStream c.val ctx u) else refusedWith w 0x16 u)) ∧
    (opens w (0x3680 + c.val) 7 3 s = true →
      exec (.debugHalt w c) s = .next (if idle ∧ mode = .running then wrote w (debugHalt c.val ctx u) else refusedWith w 0x16 u))

/-- An address generator (R221). AFFINE: with its counters below their extents it supplies BASE + Σ j × STRIDE modulo 2^48, and
one advance adds one to the mixed-radix number the counters spell, modulo the number of combinations. AUTOINC: with WRAP the
offset from BASE stays in [0, WRAP) and becomes (d + STEP) mod WRAP; without, A becomes A + STEP modulo 2^48. -/
def Obligations.GeneratorsAdvance : Prop :=
  ∀ g : Gen, genBase g < 2 ^ 48 → g.counters.length = 6 →
    (genAuto g = false → (∀ l < genLevels g + 1, g.counters.getD l 0 ≤ genExtent g l) → genLevels g ≤ 5 →
      let radix := fun (l : Nat) => ((List.range l).map fun m => genExtent g m + 1).prod
      let number := fun (g : Gen) => ((List.range (genLevels g + 1)).map fun l => g.counters.getD l 0 * radix l).sum
      number (genStep g) = (number g + 1) % radix (genLevels g + 1) ∧
      ((genAddr g : Nat) : Int) = (((genBase g : Nat) : Int) + ((List.range (genLevels g + 1)).map fun l =>
        ((g.counters.getD l 0 : Nat) : Int) * genStride g l).sum) % ((2 ^ 48 : Nat) : Int)) ∧
    (genAuto g = true →
      let wrap := bits g.record.toNat 175 136
      let d := (g.reg.toNat + 2 ^ 48 - genBase g) % 2 ^ 48
      (wrap = 0 → (((genStep g).reg.toNat : Nat) : Int) = ((g.reg.toNat : Nat) + genStride g 0) % ((2 ^ 48 : Nat) : Int)) ∧
      (wrap ≠ 0 → d < wrap →
        ((((genStep g).reg.toNat + 2 ^ 48 - genBase g) % 2 ^ 48 : Nat) : Int) = (((d : Nat) : Int) + genStride g 0) % ((wrap : Nat) : Int)))

/-- An ended instruction (R216, R217): it has left its queue and waits to retire; what it still had out of other modules comes to
nothing, and nothing else has changed. -/
def Obligations.EndedInstructionsWait : Prop :=
  ∀ (c : Nat) (q : QueueId) (i : Issued) (posts : List SealMsg) (s : State),
    let t := endOk c q i posts s
    queue (core t c) q = (queue (core s c) q).drop 1 ∧
    (core t c).retiring = (core s c).retiring ++ [{
      instr := i, faulted := false, repeatsOk := iRepM1 i.word.toNat + 1,
      dests := openDests s c i.ctx, posts := posts }] ∧
    (∀ q', q' ≠ q → queue (core t c) q' = queue (core s c) q') ∧ (core t c).vec = (core s c).vec ∧
    (core t c).imem = (core s c).imem ∧ (∀ d, d ≠ c → core t d = core s d) ∧
    { t with cores := s.cores } = { s with
      wrote := []
      wroteFar := []
      reads := s.reads.filter fun r => !(r.core == c && r.ctx == i.ctx && r.serial == i.serial) }

/-! ## Messages, stamps and seals (chapter 11), and the data mover (chapter 12) -/

/-- The MSG rows that run whole, SO_CLOSE of an office that adds nothing now, and the rows of the data mover: when their repeats
all come to their end, the instruction leaves its queue and waits to retire (R259, R278). RECV and POLL do so where their mailbox is
the context's and their place is served, SO_OPEN where the record's checks pass, COPY, ZERO and PREFETCH where the checks of R279 pass
and their ranges are served. -/
def Obligations.MessageAndMoveRowsEnd : Prop :=
  ∀ (c : Fin 128) (s : State) (i : Issued),
    (∀ posts t,
      (∀ row ∈ msgRows c, Finishes c.val .msg row.2.1 row.2.2 s i posts t →
        exec row.1 s = .next (endOk c.val .msg i posts t)) ∧
      (Finishes c.val .msg 9 (soCloseOne c.val) s i posts t → (office s c.val (bits i.word.toNat 52 48)).adding = false →
        exec (.soClose c) s = .next (endOk c.val .msg i posts t)) ∧
      ∀ row ∈ moveRows c, Finishes c.val .move row.2.1 row.2.2 s i posts t → exec row.1 s = .next (endOk c.val .move i posts t)) ∧
    (CanRun c.val .msg 2 (recvOne false c.val) (recvCan false c.val) s i →
      ∃ posts t, exec (.recv c) s = .next (endOk c.val .msg i posts t)) ∧
    (CanRun c.val .msg 3 (recvOne true c.val) (recvCan true c.val) s i →
      ∃ posts t, exec (.poll c) s = .next (endOk c.val .msg i posts t)) ∧
    (CanRun c.val .msg 8 (soOpenOne c.val) (fun i r s => ∃ v, Passes (soOpenChecks c.val i r) s v) s i →
      ∃ posts t, exec (.soOpen c) s = .next (endOk c.val .msg i posts t)) ∧
    (CanRun c.val .move 1 (copyOne c.val) (copyCan c.val) s i →
      ∃ posts t, exec (.copy c) s = .next (endOk c.val .move i posts t)) ∧
    (CanRun c.val .move 2 (prefetchOne c.val) (prefetchCan c.val) s i →
      ∃ posts t, exec (.prefetch c) s = .next (endOk c.val .move i posts t)) ∧
    (CanRun c.val .move 3 (zeroOne c.val) (zeroCan c.val) s i →
      ∃ posts t, exec (.zero c) s = .next (endOk c.val .move i posts t))

/-- SEND (R234): a repeat whose envelope is read, checked and completed is on its way, and keeps the head; answered, it goes on.
STAMP_GET (R250) waits at the destination's pool, or asks another module's; SEAL_IMPORT (R253) takes a proxy and asks the home
device. An envelope that reaches its destination whole (R237, R243, R246): accepted into its mailbox or office, or dead-lettered
with the reason of Table 11.2; either way its SEND goes on. One that must wait stalls its sender (R240), and one whose check fails is
counted, recorded and sent again (R237). A receipt (R242) fills its reserved slot. -/
def Obligations.EnvelopesTravel : Prop :=
  (∀ (c : Fin 128) (s : State) (i : Issued),
    let w := i.word.toNat
    (readyHead s c.val .msg 1 = some i →
      (s.envFlight.find? fun f => f.srcCore == c.val && f.serial == i.serial && envCtx f.env.toNat == i.ctx) = none →
      (i.work = [2] → exec (.send c) s = .next (msgRepeatDone c.val i s)) ∧
      (i.work = [] → (∀ s1 p, runFrom i.journal false (sendOne c.val i i.progress) s = .ok p s1 →
          exec (.send c) s = .next (sendOff c.val (setHead c.val .msg (fun x => { x with journal := [] }) s1))) ∧
        ∀ v, i.journal = [] → sendCan c.val i i.progress s v → ∃ s1, exec (.send c) s = .next (sendOff c.val s1) ∧
          s1.envFlight = s.envFlight ++ [{
            env := BitVec.ofNat 256 (envSeal s i.ctx i.postmark.toNat v), srcCore := c.val, serial := i.serial,
            remote := !(envHere s v) }])) ∧
    (readyHead s c.val .msg 0x10 = some i →
      (i.work = [2] → exec (.stampGet c) s = .next (msgRepeatDone c.val i s)) ∧
      (i.work = [] → msgFieldsOk w = true →
        ((accountOf s c.val i.ctx (stampDest w).1 (stampDest w).2).isSome = true ∨ (core s c.val).accounts.length < 64) →
        ((stampDest w).1 = moduleOf s → bit (ctxSpMask s i.ctx) (stampDest w).2 = true → 0 < ctxSpCount s i.ctx →
          exec (.stampGet c) s = .next (stampAsked c.val i (setCore (stampDest w).2 (fun x => { x with
            poolWaits := x.poolWaits ++ [{ core := c.val, ctx := i.ctx, count := bits w 12 0 }] }) s))) ∧
        ((stampDest w).1 ≠ moduleOf s → reachable s (stampDest w).1 = true →
          exec (.stampGet c) s = .next (stampAsked c.val i (sendPacket {
            type := 5, dst := (stampDest w).1, srcCore := c.val, dstCore := (stampDest w).2, ctx := i.ctx, addr := 4096,
            tag := bits w 12 0, label := 1 } s))))) ∧
    (readyHead s c.val .msg 0x1A = some i →
      (i.work = [2] → exec (.sealImport c) s = .next (msgRepeatDone c.val i s)) ∧
      ∀ p, i.work = [] → msgFieldsOk w = true → sealOf s i.ctx (bits w 47 32) = none → sealsTaken s i.ctx < ctxSealQuota s i.ctx →
        freeSeal s (dieOf c.val) = some p → bits (bits w 31 0) 31 17 ≠ identityOf s % 2 ^ 15 →
        let s1 := setHead c.val .msg (fun x => { x with work := [1] }) s
        let s2 := { s1 with imports := s1.imports ++ [{
          core := c.val, ctx := i.ctx, sealId := BitVec.ofNat 16 (bits w 47 32), value := BitVec.ofNat 32 (bits w 31 0), phys := p }] }
        exec (.sealImport c) s =
          .next (routeTo (bits (bits w 31 0) 31 17) (importPacket s2 c.val i.ctx (bits w 31 0)) s2))) ∧
  ((∀ (n : Nat) (received : BitVec 256) (s : State) (f : EnvFlight), s.envFlight[n]? = some f → channelBehind s n f = false →
    f.remote = false → (f.stalled = false ∨ ctxState s (envCtx f.env.toNat) ≠ 3) →
    let own := f.env.toNat
    let e := received.toNat
    (checkOk 32 e = true →
      (arrivalOf s e = .accepted → exec (.envelopeArrival n received) s = .next (envGone f (acceptEnv e (dropFlight n s)))) ∧
      (∀ r, arrivalOf s e = .dead r →
        exec (.envelopeArrival n received) s = .next (envGone f (deadLetter (envCore own) r e (dropFlight n s)))) ∧
      (arrivalOf s e = .waits → f.stalled = false → f.srcCore < 512 →
        exec (.envelopeArrival n received) s =
          .next (stallWith f.srcCore own (setFlight n (fun f => { f with stalled := true }) s)))) ∧
    (checkOk 32 e = false → f.srcCore < 512 →
      (f.attempts = 0 → exec (.envelopeArrival n received) s =
        .next (setFlight n (fun f => { f with attempts := 1 }) (noteCheckFail own e s))) ∧
      (f.attempts ≠ 0 → exec (.envelopeArrival n received) s = .next (sendFails f (dropFlight n (noteCheckFail own e s)))))) ∧
  ∀ (n : Nat) (s : State) (r : Receipt), s.receipts[n]? = some r → envHere s r.env.toNat = true →
    (mailbox s r.core (envBox r.env.toNat)).owner = some (envCtx r.env.toNat) →
    0 < (mailbox s r.core (envBox r.env.toNat)).reserved →
      exec (.receiptArrival n) s = .next (setMailbox r.core (envBox r.env.toNat)
        (fun m => { m with queue := m.queue ++ [r.env], reserved := m.reserved - 1 }) { s with receipts := ldrop s.receipts n }))

/-- A round of a sorting office (R247, R248): the target zeroed where asked, every contribution added in ascending rank; then
DELIVERED for what was added and RETURNED for what was not, the slots emptied, the round counted and the result envelope posted. It
comes to that where the elements of the target and of the contributions are served. A SEND stalled past its limit is reported once
(R240). -/
def Obligations.OfficeRoundsAndStalls : Prop :=
  (∀ (c : Fin 128) (o : Fin 4) (s : State) (ctx : Nat),
    let x := office s c.val o.val
    let t := x.target.toNat
    let zeroing := soZero x.record.toNat = true ∧ x.zeroed = false
    let left := (officeHeld x).drop x.outcomes.length
    x.owner = some ctx → x.adding = true → running s = true →
    (∀ s1 u, (if zeroing then ∃ v, runFrom x.journal false (zeroTarget (officeEnv c.val ctx x) t) s = .ok () v ∧
        s1 = roundZeroed c.val o.val v ∧ Adds c.val o.val ctx t left [] s1 u
      else s1 = s ∧ Adds c.val o.val ctx t left x.journal s1 u) →
      exec (.officeRoundComplete c o) s = .next (roundEnd c.val o.val ctx u)) ∧
    (x.journal = [] →
      (if zeroing then (∀ ps ∈ positions t, ElemServed s (officeEnv c.val ctx x) true t ps) ∧
          ∀ v, runFrom [] false (zeroTarget (officeEnv c.val ctx x) t) s = .ok () v →
            AddsCan c.val o.val ctx t left (roundZeroed c.val o.val v)
        else AddsCan c.val o.val ctx t left s) →
      ∃ u, exec (.officeRoundComplete c o) s = .next (roundEnd c.val o.val ctx u))) ∧
  (∀ (c : Fin 128) (s : State), (core s c.val).stalled = true → (core s c.val).stallSeen = false → reg s 0x3700 1 ≠ 0 →
    let e := (core s c.val).stallEnv.toNat
    exec (.sendStallEvent c) s = .next (stageRec (dieOf c.val)
      { unit := .msg, reason := .sendStall, core := c.val, ctx := envCtx e, postmark := some (envPm e), detail := e }
      (bumpE (0x3780 + c.val) 8 (bumpE 0x3700 2 (setCore c.val (fun x => { x with stallSeen := true }) s)))))

/-- Stamps (R250, R251): a pool that holds all the stamps of its oldest request grants them; a write from another module takes
effect under its context's own tables, and its stamps go back; stamps that come home enter their account, and signals that waited for
the writes leave. -/
def Obligations.StampsTravel : Prop :=
  (∀ (d : Fin 128) (s : State) (w : StampWait) (rest : List StampWait), (core s d.val).poolWaits = w :: rest →
    w.count ≤ (core s d.val).pool → w.core < 128 →
      exec (.stampGrant d) s = .next (finishGrant w.core w.ctx (moduleOf s) d.val w.count
        (setCore d.val (fun x => { x with pool := x.pool - w.count, poolWaits := x.poolWaits.drop 1 }) s))) ∧
  (∀ (n : Nat) (s : State) (b : RemoteBurst) (ps : List (Nat × Nat)), s.bursts[n]? = some b → burstBehind s n b = false →
    b.op ≠ 2 → unitPieces s b.ctx true b.addr b.data.length = some ps → (banksClosed s = false ∨ isSp b.addr = false) →
      exec (.remoteBurstWrite n) s = .next (burstAnswer b 0 (burstApply ps b { s with bursts := ldrop s.bursts n }))) ∧
  ∀ (n : Nat) (s : State) (b : StampBack), s.stampsBack[n]? = some b →
    exec (.stampReturn n) s =
      .next (flushOwed (stampsHome b.core b.ctx b.module b.dest b.count { s with stampsBack := ldrop s.stampsBack n }))

/-- Seal updates (R254, R255): one on a seal that is still bound under its generation is applied; one on an import leaves for the
home device with the generation the import recorded; a stale one is counted at 0x3700.06 and recorded, and changes no seal. An
import's answer binds its proxy and ends the waiting instruction (R253); a debugger's set replaces the COUNT of the selected seal
of this device and leaves a SEAL_FORCED record (R257). -/
def Obligations.SealsAreSignalled : Prop :=
  (∀ (n : Nat) (s : State) (m : SealMsg), s.sealFlight[n]? = some m →
    let u := { s with sealFlight := ldrop s.sealFlight n }
    let x := sealAt s m.phys
    (x.owner.isSome = true → x.gen = m.gen → x.remote = none → ∃ t,
      exec (.sealUpdate n) s = .next t ∧ t = sealApply m.phys m.amount.toNat u ∧
      (m.phys < 4096 → (sealAt t m.phys).count = x.count + m.amount)) ∧
    (∀ v rp rg, x.owner.isSome = true → x.gen = m.gen → x.remote = some (v, rp, rg) →
      exec (.sealUpdate n) s = .next (routeTo (bits v.toNat 31 17) {
        type := 5, dst := 0, ctx := m.ctx, addr := rp,
        label := m.amount.toNat + rg.toNat * 2 ^ 32 + bits v.toNat 31 17 * 2 ^ 40 } u)) ∧
    (x.owner = none ∨ x.gen ≠ m.gen → ∃ t, exec (.sealUpdate n) s = .next t ∧ t = sealStale m u ∧ t.seals = s.seals)) ∧
  ((∀ (c : Fin 128) (rp : Fin 4096) (rg : BitVec 8) (s : State) (w : ImportWait) (i : Issued),
    let u := { s with imports := s.imports.filter fun x => x != w }
    let v := setSeal w.phys (fun x => { x with
      owner := some w.ctx, sealId := w.sealId, count := 0, remote := some (w.value, rp.val, rg) }) u
    s.imports.find? (fun w => w.core == c.val) = some w → waitingHead s c.val w.ctx 0x1A = some i →
    sealOf s w.ctx w.sealId.toNat = none →
      exec (.sealImportResponse c (some (rp, rg))) s =
        .next (msgRepeatDone c.val i (setCtxF w.ctx 92 80 (ctxSealsUsed v w.ctx + 1) v))) ∧
  ∀ (w : Who) (v : Word32) (s : State) (p : Nat),
    let u := countAccess s
    let sel := reg s 0x3700 8
    opens w 0x3700 0xA v.toNat s = true → sealOf s (bits sel 27 16) (bits sel 15 0) = some p → (sealAt s p).remote = none →
      exec (.sealDbgSet w v) s = .next (wrote w (stageRec (p / 2048)
        { unit := .seals, reason := .sealForced, ctx := bits sel 27 16,
          detail := sealDetail (sealAt s p).sealId.toNat p (sealAt s p).gen.toNat false (pathIdx w.path) }
        (sealApply p 0 (setSeal p (fun x => { x with count := BitVec.ofNat 32 v.toNat }) (setReg 0x3700 0xA v.toNat u))))))

/-! ## Memory (chapter 12) -/

/-- The memory system's own events: a scrub of a bank's next line reads and checks its words (R265), a refresh is emitted and
counted (R273), the retired lists are copied to flash (R283), and a tracker's window ends for one frame (R433). -/
def Obligations.MemoryEvents : Prop :=
  (∀ (c : Fin 128) (b : Fin 16) (s : State), banksClosed s = false → running s = true →
    let n := (core s c.val).scrubLine.getD b.val 0
    exec (.scrubRead c b) s = .next (setCore c.val (fun x =>
      let l := x.scrubLine.set b.val (n + 1)
      { x with scrubLine := l, scrubPasses := BitVec.ofNat 32 (l.foldl (fun m k => min m (k / 2048)) (l.headD 0 / 2048)) })
      ((unitsOf 8 (scrubAddr c.val b.val (n % 2048)) 128).foldl (fun s w => spCheck w s) s))) ∧
  (∀ (k : Fin 8) (targeted : Bool) (s : State),
    exec (.hbmRefresh k targeted) s = .next (emit (.refresh k.val targeted) (setStack k.val (fun x => { x with
      refresh := x.refresh + 1, hotRow := if targeted then x.hotRow + 1 else x.hotRow }) s))) ∧
  (∀ s : State, exec .retiredListCopy s = .next { s with flash := { s.flash with
    retired := (List.range 8).flatMap fun k => (stack s k).retired.map fun f => (k, f) } }) ∧
  ∀ (k : Fin 8) (f : Nat) (s : State),
    exec (.retireWindowExpiry k f) s =
      .next (setStack k.val (fun x => { x with tracker := x.tracker.filter fun e => e.1 != f }) s)

/-- The memory system's entries: PIN_WAYS between pinned jobs (R270), BW_SPLIT by the semaphore's holder before the first context
(R277), SPREAD of a group other than the system area's without an allocated frame (R275, R288); anything else is refused with BUSY. The traffic generator of a stack
(R286): TEST is entered while no allocated frame lies on the stack; in TEST it starts and stops; a stop's results, and what the
generators write and TEST leaves in the stack, are free values (log 36). -/
def Obligations.MemoryCommands : Prop :=
  (∀ (w : Who) (s : State),
    let u := countAccess s
    (∀ v : BitVec 8, opens w 0x3800 2 v.toNat s = true → bits v.toNat 3 0 ≤ 12 → bits v.toNat 7 4 ≤ 12 →
      exec (.pinWaysWrite w v) s = .next (if s.dies.any (fun d => d.pinnedJob) then refusedWith w 0x16 u else
        wrote w ([0, 1].foldl (fun s d => trimSets d (16 - pinWays s d) (die s d).cache.length s) (setReg 0x3800 2 v.toNat u)))) ∧
    (∀ v : BitVec 16, opens w 0x3800 1 v.toNat s = true → bit v.toNat 15 = false →
      0 < bits v.toNat 4 0 → 0 < bits v.toNat 9 5 → 0 < bits v.toNat 14 10 →
      bits v.toNat 4 0 + bits v.toNat 9 5 + bits v.toNat 14 10 = 20 →
      exec (.bwSplitWrite w v) s = .next (if s.opened = false ∧ s.sem.holder = some w.path then
        wrote w (setReg 0x3800 1 v.toNat u) else refusedWith w 0x16 u)) ∧
    ∀ (g : Fin 48) (v : BitVec 8), opens w 0x3810 (g.val + 1) v.toNat s = true → v.toNat ≤ 2 →
      exec (.spreadWrite w g v) s = .next (if g.val = 0 ∨ s.frames.any (fun f => f / 4096 == g.val) = true then refusedWith w 0x16 u else
        wrote w (setReg 0x3810 (g.val + 1) v.toNat u))) ∧
  (∀ (w : Who) (k : Fin 8) (v : Word64) (s : State), bits v.toNat 7 4 ≤ 3 → bits v.toNat 31 9 = 0 →
    let u := countAccess s
    let put := fun (n : Nat) (s : State) => wrote w (setReg (0x3840 + k.val) 8 (setBits v.toNat 3 0 n) s)
    (opens w (0x3840 + k.val) 8 (setBits v.toNat 3 0 3) s = true → s.frames.any (frameOnStack s k.val) = false →
      exec (.tgEnterTest w k v) s = .next (put 3 (setStack k.val (fun x => { x with state := 1 }) u))) ∧
    ((stack s k.val).state = 1 →
      (opens w (0x3840 + k.val) 8 (setBits v.toNat 3 0 1) s = true →
        exec (.tgStart w k v) s = .next (put 1 (setStack k.val (fun x => { x with tgOn := true })
          (if bits v.toNat 7 4 = 1 then u else scrambleStack k.val (bits v.toNat 63 32) u)))) ∧
      (opens w (0x3840 + k.val) 8 (setBits v.toNat 3 0 2) s = true →
        let old := reg s (0x3840 + k.val) 8
        let d := draw u
        let d' := draw d.2
        let d'' := draw d'.2
        let off := setStack k.val (fun x => { x with tgOn := false }) d''.2
        let found := setStack k.val (fun x => { x with tgResult := BitVec.ofNat 64 d.1, tgFail := BitVec.ofNat 64 d'.1 }) off
        exec (.tgStop w k v) s = .next (put 2 (if (stack s k.val).tgOn = false then u else if bits old 7 4 = 2 then off
          else if bits old 8 8 = 1 then found else bumpN (0x3840 + k.val) 3 (d''.1 % 2 ^ 32) found))) ∧
      (opens w (0x3840 + k.val) 8 (setBits v.toNat 3 0 4) s = true →
        exec (.tgLeaveTest w k v) s =
          .next (put 4 (setStack k.val (fun x => { x with state := 0, tgOn := false }) (scrambleStack k.val (2 ^ 32 - 1) u))))))

/-! ## Contexts, scheduling and paging (chapter 13) -/

/-- The normal commands of a context that is in a session (Table 13.3), each at the front of its path's queue: SET of settable
fields with values in range, REOPEN with no stream running, MAP with room under the quota, UNMAP of a suspended or idle context,
MAP_HOSTED of a free range, and WATCH on a known seal. The express commands of a context in a session (R305): SUSPEND stops it on
every core, or at once where no core holds it; RESUME makes a SUSPENDED one OPEN; KILL sends it to CLOSING with KILL_REASON 1;
HALT halts its running streams; PRIORITY sets its priority. Each reads the context's entry first, which passes its check (R289). -/
def Obligations.ContextCommands : Prop :=
  (∀ (p : Path) (s : State) (q : NormalCmd),
    let u := readEntry q.ctx (popCmd p s)
    running s = true → cmdGone u q = false →
    (frontCmd s p 2 = some q →
      let old := ctxEntryWord u q.ctx
      let w := setImage old (ofLe (q.operands.take 32)) (ofLe ((q.operands.drop 32).take 256))
      copyFields ctxSettable w old = w → (bits w 20 16 = bits old 20 16 ∨ ctxState u q.ctx = 2) →
      ctxUsed u q.ctx ≤ bits w 113 96 → ctxSealsUsed u q.ctx ≤ bits w 76 64 → ctxValuesOk w = true →
        exec (.contextSet p) s = .next (endCmd q 0 0 (entryWritten q.ctx (setContext q.ctx (fun x => { x with
          entry := BitVec.ofNat 2048 (copyFields ctxSettable w x.entry.toNat) }) u)))) ∧
    (frontCmd s p 3 = some q → anyRunning u q.ctx = false →
      exec (.reopen p) s = .next (endCmd q 0 0
        (((u.streams.filter fun e => e.1 / 128 == q.ctx && e.2.known).map fun e => e.1 % 128).foldl
          (fun s c => reopenStream q.ctx c s) u))) ∧
    (∀ (fs : List Nat) (s1 : State), frontCmd s p 8 = some q →
      let a := opWord q 0
      let w := opWord q 1
      let n := bits w 31 0
      let huge := bit w 32
      let z := if huge then 512 else 1
      n ≠ 0 → a % (z * 2 ^ 21) = 0 → a + n * z * 2 ^ 21 ≤ 2 ^ 40 → (bits w 35 34 = 1 → bits w 38 36 ≤ 1) →
      mapsIn u q.ctx (a / 2 ^ 21) (n * z) = [] → ctxUsed u q.ctx + n * z ≤ ctxQuota u q.ctx → n * z ≤ framesFree u →
      allocate huge (bits w 35 34) (bits w 38 36) 0 n u = some (fs, s1) →
        exec (.map p) s = .next (chargeFrames q.ctx (ctxUsed s1 q.ctx + n * z) { casSome s1 with
          mapJobs := s1.mapJobs ++ [{
            ctx := q.ctx, result := q.result
            pages := fs.mapIdx fun i f => (a / 2 ^ 21 + i * z,
              { huge := huge, present := true, hosted := false, write := bit w 41, read := bit w 40, pinned := false,
                retiring := false, frame := f, backing := 0, age := 0 }) }] })) ∧
    (frontCmd s p 9 = some q → opWord q 1 ≠ 0 → opWord q 0 % 2 ^ 21 = 0 → opWord q 0 + opWord q 1 * 2 ^ 21 ≤ 2 ^ 40 →
      (ctxState u q.ctx = 2 ∨ anyRunning u q.ctx = false ∧ anyInFlight u q.ctx = false) →
        exec (.unmap p) s = .next (endCmd q 0 0 (dropMaps q.ctx (mapsIn u q.ctx (opWord q 0 / 2 ^ 21) (opWord q 1)) (casSome u)))) ∧
    (frontCmd s p 0xA = some q →
      let a := opWord q 0
      let n := bits (opWord q 1) 31 0
      let o := opWord q 2
      ctxPagerQpn u q.ctx ≠ 0 → n ≠ 0 → a % 2 ^ 21 = 0 → a + n * 2 ^ 21 ≤ 2 ^ 40 → o + n ≤ 2 ^ 27 →
      mapsIn u q.ctx (a / 2 ^ 21) n = [] →
        exec (.mapHosted p) s = .next (endCmd q 0 0 (setContext q.ctx (fun x => { x with
          pages := x.pages ++ (List.range n).map fun i => (a / 2 ^ 21 + i,
            { huge := false, present := false, hosted := true, write := false, read := true, pinned := bit (opWord q 1) 32,
              retiring := false, frame := 0, backing := o + i, age := 0 }) }) u))) ∧
    ∀ k, frontCmd s p 0x20 = some q → opWord q 2 % 8 = 0 → opWord q 2 ≤ 4096 →
      sealOf u q.ctx (bits (opWord q 0) 15 0) = some k →
        exec (.watch p) s = .next (setResult q.result (fun o => { o with
            watch := some { target := BitVec.ofNat 32 (bits (opWord q 0) 63 32), phys := k, gen := (sealAt s k).gen,
                            addr := opWord q 1, len := opWord q 2 } })
          (setContext q.ctx (fun x => if x.normal = some q.result then { x with normal := none } else x) u))) ∧
  (∀ (c : Fin 4096) (s : State) (e : Express), (context s c.val).express = some e → running s = true →
    (ctxState s c.val = 1 ∨ ctxState s c.val = 2) → entryFails s c.val = false →
    let u := readEntry c.val s
    (e.code = 0x10 → ctxState s c.val = 1 →
      exec (.suspend c) s = .next (if (liveCores u c.val).isEmpty then leftAll c.val (noteEffect c.val u) else stopAll c.val u)) ∧
    (e.code = 0x11 → ctxState s c.val = 2 →
      exec (.contextResume c) s = .next (endExpress c.val 0 (noteEffect c.val
        (setContext c.val (fun x => { x with waitSince := u.time }) (setCtxF c.val 10 8 1 u))))) ∧
    (e.code = 0x12 →
      exec (.kill c) s = .next (setContext c.val (fun x => { x with
        express := none, killing := some (x.killing.getD [] ++ e.result.toList) }) (killContext c.val 1 (noteEffect c.val u)))) ∧
    (e.code = 0x13 →
      exec (.contextHalt c) s = .next (endExpress c.val 0
        (((u.streams.filter fun e => e.1 / 128 == c.val && e.2.mode == .running).map fun e => e.1 % 128).foldl
          (fun s k => debugHalt k c.val s) (noteEffect c.val u)))) ∧
    (e.code = 0x14 →
      exec (.priority c) s = .next (endExpress c.val 0 (setCtxF c.val 14 12 e.operand (noteEffect c.val u)))))

/-- OPEN on a module that is no manager (R293): the ID asked, or the lowest FREE one, becomes OPEN with a new GENERATION, and the
result carries both. CLOSE with no stream running: the context goes to CLOSING (R295). What the device does with contexts by
itself: a CLOSING context of which no core holds a tile becomes FREE after the steps of R258 (R295); a MAP's frames are zeroed and its pages mapped (R297); a
WATCH whose seal meets its target copies its region into the result (R339). -/
def Obligations.ContextsComeAndGo : Prop :=
  (∀ (p : Path) (s : State) (q : NormalCmd),
    let u := popCmd p s
    running s = true →
    (∀ id, frontCmd s p 1 = some q → openId s (opWord q 0) = .inl id →
      ctxValuesOk (ofLe ((q.operands.drop 8).take 256)) = true → grantTaken s (ofLe ((q.operands.drop 8).take 256)) = false →
      effRole s = 0 →
        let u := if bit (opWord q 0) 63 then addTotal 0x3800 7 1 u else u
        let v := setResult q.result (fun o => { o with ctx := id })
          (takePlaced id (opWord q 0) (openContext id (ofLe ((q.operands.drop 8).take 256)) u))
        exec (.contextOpen p) s = .next (finishResult q.result 0 (id * 65536 + ctxGen v id) [] v)) ∧
    (frontCmd s p 4 = some q → (ctxState s q.ctx = 1 ∨ ctxState s q.ctx = 2) →
      (result s q.result).cgen.toNat = ctxGen s q.ctx → anyRunning s q.ctx = false →
        exec (.close p) s = .next (setContext q.ctx (fun x => { x with
          killing := some (x.killing.getD [] ++ [q.result]) }) (killContext q.ctx 0 u)))) ∧
  ((∀ (c : Fin 4096) (s : State), ctxState s c.val = 3 → tilesLeft s c.val = false →
    exec (.closeComplete c) s = .next (endCommands c.val (setCtxF c.val 10 8 0 (releaseContext c.val (endSeals c.val
      (onCores (endAccounts c.val) (onCores (endOffices c.val)
        (onCores (fun k s => closeMailboxes true k c.val 2 s) (endSends c.val s))))))))) ∧
  (∀ (c : Fin 4096) (s : State) (j : MapJob), s.mapJobs.find? (fun j => j.ctx == c.val) = some j → ctxState s c.val ≠ 3 →
    exec (.mapComplete c) s = .next (finishResult j.result 0 0 [] (setContext c.val (fun x => { x with
        pages := x.pages ++ j.pages, normal := if x.normal = some j.result then none else x.normal })
      (j.pages.foldl (fun s e => zeroFrames e.2.frame (mapUnits e.2) s)
        { s with mapJobs := s.mapJobs.filter fun x => !(x == j) })))) ∧
  ∀ (k : Fin 65536) (s : State) (w : WatchReq) (ps : List (Nat × Nat)), (result s k.val).watch = some w →
    0 ≤ sdiff32 (sealAt s w.phys).count.toNat w.target.toNat → unitPieces s (result s k.val).ctx false w.addr w.len = some ps →
      let r := unitRead .read true ps (unitUse (result s k.val).ctx w.addr w.len s)
      exec (.watchReady k) s =
        .next (finishResult k.val (if r.2.1 then 0x22 else 0) (sealAt s w.phys).count.toNat r.1 r.2.2))

/-- A context that stops on a core, its parcels there completed (R96), is taken out of it and saved (R228); its save area is written
once nothing of it waits to retire there (R292); a restore that has room and reads the area back goes on (R431). The bytes of the areas whose layout the spec does not
state are the model's free values (log 23). The scheduler (R303, R304): one change at a time, in this order: a resident context
that may not stay begins to leave, a stream gets a free slot, a slot is given up, the best ranked waiting context becomes
resident; at the end of a slice the longest resident makes room for an equal. The order of the kinds is the model's reading (log
22). -/
def Obligations.ResidencyChanges : Prop :=
  (∀ (c : Fin 128) (x : Fin 4096) (s : State),
    (nmem (core s c.val).stopping x.val = true → completesParcels s c.val x.val = false →
      exec (.expressTakeEffect c x) s = .next (setCore c.val (fun y => { y with
          stopping := ndel y.stopping x.val, restoring := ndel y.restoring x.val, saving := nins y.saving x.val })
        (takeOut x.val c.val (recallFlights c.val x.val (noteEffect x.val s))))) ∧
    (∀ (ps : List (Nat × Nat)) (s1 s2 : State), nmem (core s c.val).saving x.val = true →
      (∀ e ∈ (core s c.val).retiring, e.instr.ctx ≠ x.val) → unitPieces s x.val true (saveBase s x.val c.val) 0x10_0000 = some ps →
      s1 = setStream x.val c.val (fun t => { t with savedAt := some s.fresh }) { s with fresh := s.fresh + 0x10_0000 } →
      s2 = setCore c.val (fun y => { y with
            saving := ndel y.saving x.val, slots := y.slots.map fun o => if o = some x.val then none else o })
          (writeAreas x.val (saveBase s1 x.val c.val)
            (saveAreas s.fresh (stream s1 x.val c.val) ++ [(0x1000, vregArea s1 x.val c.val)])
            (unitUse x.val (saveBase s1 x.val c.val) 0x10_0000 s1)) →
        exec (.contextSaveDone c x) s = .next (if leavesAll s2 x.val = false then writeBack c.val x.val s2
          else if (liveCores s2 x.val).isEmpty then leftAll x.val s2 else s2)) ∧
    ∀ (base : Nat) (ps : List (Nat × Nat)) (bs : List Byte) (s1 s2 : State), nmem (core s c.val).restoring x.val = true →
      fitsBack s x.val c.val = true → (stream s x.val c.val).savedAt = some base →
      let u := unitUse x.val (saveBase s x.val c.val) 0x10_0000 s
      unitPieces u x.val false (saveBase u x.val c.val) 0x10_0000 = some ps →
      readArea x.val (saveBase u x.val c.val) 0x1000 0x2104 u = (bs, false, s1) →
      areasOk x.val (saveBase u x.val c.val) (saveAreas base (stream u x.val c.val)) s1 = (true, s2) →
      ofLe (bs.drop 0x2100) = crc32c (bs.take 0x2100) →
        exec (.contextRestoreDone c x) s = .next (putBack x.val c.val (loadVregs x.val c.val bs s2))) ∧
  (∀ s : State, running s = true →
    (∀ k, mustLeave s = some k → exec .residencyChange s = .next (beginLeave k s)) ∧
    (mustLeave s = none →
      (∀ c k x, slotToGive s = some (c, k, x) → exec .residencyChange s = .next (giveSlot c k x s)) ∧
      (slotToGive s = none →
        (∀ c x, slotToTake s = some (c, x) → exec .residencyChange s = .next (stopOn x c s)) ∧
        ∀ w, slotToTake s = none → bestRanked s (waiting s) = some w → (residents s).length < 256 →
          exec .residencyChange s = .next (makeResident w s))) ∧
    ∀ c : Fin 4096, reg s 0x3900 3 ≠ 0 → ctxResident s c.val = true → ctxState s c.val = 1 → (context s c.val).leaving = false →
      (∀ k ∈ residents s, ctxPriority s k = ctxPriority s c.val → (context s c.val).residentAt ≤ (context s k).residentAt) →
      (∃ k ∈ waiting s, ctxPriority s k = ctxPriority s c.val) →
        exec (.sliceExpiry c) s = .next (beginLeave c.val s))

/-- The pager (R300 to R302): a miss that may start takes a free fetch; whole data installs the page; a transport error or a
timeout is tried again while PAGER_RETRIES allows, or given up; every tick ages the pages, up to 15. -/
def Obligations.PagerFetches : Prop :=
  (∀ (s : State) (n : Nat) (m : Miss), running s = true → s.fetches.findIdx? (fun f => f.isNone) = some n →
    s.misses.find? (missReady s) = some m →
      exec .pageFetchStart s = .next (takeMiss n m { s with misses := s.misses.filter fun x => !(x == m) })) ∧
  (∀ (n : Fin 16) (b : List Byte) (s : State) (f : Fetch), s.fetches.getD n.val none = some f → b.length = 2 ^ 21 →
    exec (.pageFetchComplete n (.data b)) s = .next (installPage n.val f b (fetchAnswered f s)) ∧
    exec (.pageFetchComplete n .transportError) s = .next (retryFetch n.val f (fetchAnswered f s)) ∧
    exec (.pageFetchTimeout n) s = .next (retryFetch n.val f s)) ∧
  ∀ s : State, exec .pageAgeTick s = .next { s with contexts := s.contexts.map fun e => (e.1, { e.2 with
    pages := e.2.pages.map fun p => (p.1, { p.2 with age := if p.2.age = 15 then 15 else p.2.age + 1 }) }) }

/-! ## Weight updates (chapter 14) -/

/-- Update jobs (R309 to R319): the head moves forward within a ring of UPD_NEXT, or is refused; a job whose block is good and whose wait
is met begins and advances; a peer's equal header, a chunk of its partial sums and its verdict are taken up, and the job advances; a
timeout or an abort notice before pass B ends it; what a peer says to a job that has not started is kept for it. The end of a job that
has finished or failed (R318): its block is written back, UPD_JOBS moves, UPD_FAILED with it when it failed, the record is written,
DONE_SEAL is signalled, and the die and its window are free. -/
def Obligations.UpdateJobs : Prop :=
  ((∀ (w : Who) (v : Word32) (s : State), opens w 0x3A00 3 v.toNat s = true →
    exec (.updHeadWrite w v) s = .next (if 0 ≤ sdiff32 v.toNat (reg s 0x3A00 3) ∧
        (v.toNat + 2 ^ 32 - s.updNext.toNat) % 2 ^ 32 ≤ 2 ^ bits (reg s 0x3A00 2) 52 48 then
      wrote w (setReg 0x3A00 3 v.toNat (countAccess s)) else refusedWith w 0x1A (countAccess s))) ∧
  (∀ (s : State) (ps : List (Nat × Nat)),
    let u := readEntry (updOwner s) s
    let a := updSlot u u.updNext.toNat
    updEnabled u = true → u.updNext.toNat ≠ reg u 0x3A00 3 → unitPieces u (updOwner u) false a 128 = some ps →
      let r := unitRead .remote true ps (unitUse (updOwner u) a 128 u)
      let b := ofLe r.1
      jobOf u (uDie b) = none → startMet u b = true → r.2.1 = false → (updCheck (updOwner u) b r.2.2).1 = .ok →
        exec .updJobStart s = .next (advanceJob (uDie b) (beginJob a b none (updCheck (updOwner u) b r.2.2).2))) ∧
  (∀ (d : Fin 2) (m : Fin 8) (s : State) (j : UpdJob), jobOf s d.val = some j → j.status = 2 →
    ((jobPeers s j).contains m.val = true → uSource j.block.toNat = false → nmem j.headers m.val = false →
      exec (.jobHeaderReceive d m (some (headerOf j.block.toNat))) s =
        .next (advanceJob d.val (setJob d.val (fun j => { j with headers := nins j.headers m.val }) s))) ∧
    (headersIn s j = false →
      exec (.updPeerTimeout d) s = .next (setJob d.val (fun j => { j with status := 0x14 }) s)) ∧
    (∀ (k : Nat) (data : List Word32) (p ok : Bool), uSource j.block.toNat = false →
      1 < (jobMembers j.block.toNat).length → k < uChunks j.block.toNat → data.length = chunkLen j.block.toNat k →
      nmem j.gathered k = false →
        exec (.chunkReceive d k data p ok) s = .next (advanceJob d.val (setJob d.val (fun j => { j with
          arrived := j.arrived ++ [(k, data, p || !ok)] }) (if ok then s else bumpE 0x6000 9 s)))) ∧
    ((jobPeers s j).contains m.val = true → (∀ x ∈ j.verdicts, x.1 ≠ m.val) →
      uSource j.block.toNat = true ∨ nmem j.headers m.val = true →
      (∀ (v : Verdict) (sw su : Word64), exec (.verdictReceive d m v sw su) s =
        .next (advanceJob d.val (setJob d.val (fun j => { j with verdicts := j.verdicts ++ [(m.val, v, sw, su)] }) s))) ∧
      exec (.abortNoticeReceive d m) s = .next (setJob d.val (fun j => { j with status := 0x15 }) s))) ∧
  ∀ (d : Fin 2) (m : Fin 8) (s : State), jobOf s d.val = none → exec (.abortNoticeReceive d m) s =
    .next { s with updEarly := s.updEarly ++ [(d.val, m.val, .abort)] }) ∧
  (∀ (d : Fin 2) (s : State) (j : UpdJob), jobOf (advanceJob d.val s) d.val = some j → j.status ≠ 2 → j.status ≠ 3 →
    let a := bumpE 0x3A00 5 (jobWrite j.owner j.addr (toLe 128 (blockBack j)) (j.reason == some (Reason.code .poisonControl))
      (advanceJob d.val s))
    let b := jobRecord d.val j (if j.status = 4 ∨ j.status = 5 then a else bumpE 0x3A00 6 a)
    let e := match sealOf b j.owner (bits j.block.toNat 367 352) with
      | some p => sendSeals [{
          phys := p, gen := (sealAt b p).gen, amount := 1, ctx := j.owner, sealId := BitVec.ofNat 16 (bits j.block.toNat 367 352) }] b
      | none => b
    exec (.updJobEnd d) s = .next (setDie d.val (fun x => { x with pinnedJob := false })
      { e with updRing := e.updRing.set d.val none, updPages := [] }))

/-! ## Host ports, queue pairs, results (chapter 15) -/

/-- A payload that is authentic and whole is taken (R331, R332): its counter is kept, and a COMMAND, a DOORBELL, a RESULT_READ or
a RESULT_RELEASE goes to its own checks. Results (R336, R337): a READY result that a path may name is read with its status, value
and data and stays; it is released free; unread past RESULT_TTL it is freed. -/
def Obligations.PayloadsAndResults : Prop :=
  (∀ (p : Path) (bs : List Byte) (s : State),
    let x := payloadOf bs
    let u := keepCounter p (plKey x) (plCounter x) s
    s.power.state = 0 → s.island.state = 1 → 32 ≤ bs.length →
    authCheck s p (plKey x) (plCounter x) (bs.take (bs.length - 8)) x.tag = 0 → encodingsOk u x = true →
    (plType x = 1 → exec (.commandPayload p bs) s = .next (trafficWake p bs (commandChecks p x u))) ∧
    (plType x = 2 → exec (.doorbellPayload p bs) s = .next (trafficWake p bs (doorbellChecks p x u))) ∧
    (plType x = 3 → exec (.commandPayload p bs) s = .next (resultRead p (plWord x 0) u)) ∧
    (plType x = 4 → exec (.commandPayload p bs) s = .next (resultRelease p (plWord x 0) u))) ∧
  (∀ (p : Path) (h : Word32) (s : State) (k : Nat), namedResult s p h.toNat = some k → (result s k).state = .ready →
    let o := result s k
    exec (.resultRead p h) s = .next (emit (.result p (resultHeader 2 o.status.toNat o.code.toNat o.ctx o.cgen.toNat h.toNat
      o.value.toNat o.data.length o.reqTag.toNat ++ o.data)) s) ∧
    exec (.resultRelease p h) s = .next (emit (.result p (resultHeader 3 0 o.code.toNat o.ctx o.cgen.toNat h.toNat 0 0
      o.reqTag.toNat)) (freeResult k s)) ∧
    ∀ m : Fin 65536, k = m.val → reg s 0x3B00 6 ≠ 0 → exec (.resultTtlExpiry m) s = .next (freeResult k s))

/-- The hardware semaphore (R334, R335): a path that may hold it acquires it free, its holder renews and releases it; a port's
lease ends and is counted; the sideband breaks any holding; another request is refused with BUSY. -/
def Obligations.SemaphoreRequests : Prop :=
  ∀ (p : Path) (s : State),
    let w := fullRights p
    let u := countAccess s
    (opens w 0x3B00 1 1 s = true →
      exec (.semAcquire p) s = .next (if p ≠ .firmware ∧ (s.sem.holder = none ∨ s.sem.holder = some p) then
        wrote w { u with sem := { s.sem with holder := some p, deadline := semDeadline s } } else refusedWith w 0x16 u)) ∧
    (opens w 0x3B00 1 2 s = true →
      exec (.semRenew p) s = .next (if p ≠ .firmware ∧ s.sem.holder = some p then
        wrote w { u with sem := { s.sem with deadline := semDeadline s } } else refusedWith w 0x16 u)) ∧
    (opens w 0x3B00 1 3 s = true →
      exec (.semRelease p) s = .next (if p ≠ .firmware ∧ s.sem.holder = some p then wrote w (semEnd u) else refusedWith w 0x16 u)) ∧
    (s.sem.holder = some .port0 ∨ s.sem.holder = some .port1 → s.sem.deferred = false →
      exec .semLeaseExpiry s = .next (semEnd (bumpE 0x3B00 5 s))) ∧
    ∀ x : Who, opens x 0x3B00 4 1 s = true → x.path = .sideband → exec (.semBreak x 1) s = .next (wrote x (semEnd u))

/-- Ports and MACsec (R322 to R326): a dropped frame is counted on its port; ETH_SPEED from the semaphore's holder or the sideband
trains the port again; training ends with the port up; a good SAK record under a session key installs its association. Queue pairs
(R328): created with a number of the port that is free and destroyed by their context; with 16 of a context or 256 of a port the
table is full. The number itself is a free value (log 37). RoCE requests in order (R328, R329), the entry of whose context passes its check (R289): a WRITE inside its context's pages
is written in class REMOTE, the expected number moves and it is acknowledged; a READ is answered. A NAK, a timeout, a CNP and 50
µs without one act on the requester as Table 15.3 says. The wire's own rules are taken from the annex (log 74). -/
def Obligations.PortsAndQueuePairs : Prop :=
  (∀ (w : Who) (p : Fin 2) (s : State),
    let u := countAccess s
    (∀ cause, exec (.ethFrameDrop p cause) s = .next (bumpE (0x3B10 + p.val) 0xB s)) ∧
    (∀ v : BitVec 8, opens w (0x3B10 + p.val) 1 v.toNat s = true → holderOrSideband s w.path = true → v.toNat ≤ 2 →
      exec (.ethSpeedWrite w p v) s =
        .next (wrote w (setEth p.val (fun e => { e with state := 1 }) (setReg (0x3B10 + p.val) 1 v.toNat u)))) ∧
    ((eth s p.val).state = 1 → exec (.ethTrainingDone p) s = .next (setEth p.val (fun e => { e with state := 2 }) s)) ∧
    ∀ (v : Word64) (bs : List Byte) (s1 : State),
      let k := keySlot s1 (bits (ofLe bs) 23 16)
      opens w (0x3B10 + p.val) 9 v.toNat s = true → holderOrSideband s w.path = true →
      bits v.toNat 63 60 = 0 → bits v.toNat 47 0 % 128 = 0 → sakRecord (bits v.toNat 59 48) (bits v.toNat 47 0) u = (some bs, s1) →
      sakFieldsOk (ofLe bs) = true → k.role = .session →
      gcmTag k.key ((bs.drop 68).take 12) (bs.take 80) ((bs.drop 80).take 32) = bs.drop 112 →
        exec (.macsecSakLoad w p v) s = .next (wrote w (installAssoc p.val (bit (ofLe bs) 9) (sakAssoc k.key bs) s1))) ∧
  (∀ (p : Path) (s : State) (q : NormalCmd),
    let u := readEntry q.ctx (popCmd p s)
    running s = true → cmdGone u q = false →
    (∀ mtu, frontCmd s p 0x21 = some q → (opWord q 1 ≠ 0 ∨ opWord q 2 < 2 ^ 32) → mtuOf (bits (opWord q 4) 2 0) = some mtu →
      (if 16 ≤ (u.qps.filter fun e => e.2.ctx == q.ctx).length ∨ 256 ≤ (u.qps.filter fun e => e.1 / 2 ^ 24 == qpPort p).length then
        exec (.qpCreate p) s = .next (endCmd q 0x1D 0 u)
      else ∃ x : QueuePair, x.ctx = q.ctx ∧ x.mtu = mtu ∧ x.epsn = BitVec.ofNat 24 (opWord q 3) ∧
          x.remote = BitVec.ofNat 24 (bits (opWord q 3) 55 32) ∧ x.rate = 2 ^ 32 ∧ x.error = false ∧
        let n := freeQpn (draw u).2 (qpPort p) (draw u).1
        exec (.qpCreate p) s = .next (endCmd q 0 n { (draw u).2 with qps := (draw u).2.qps ++ [(qpKey (qpPort p) n, x)] }))) ∧
    ∀ x, frontCmd s p 0x22 = some q → qpOf u (qpPort p) (bits (opWord q 0) 23 0) = some x → x.ctx = q.ctx →
      exec (.qpDestroy p) s = .next (endCmd q 0 0
        { u with qps := u.qps.filter fun e => e.1 != qpKey (qpPort p) (bits (opWord q 0) 23 0) })) ∧
  (∀ (port : Fin 2) (qpn : BitVec 24) (s : State) (x : QueuePair), qpOf s port.val qpn.toNat = some x → entryFails s x.ctx = false →
    (∀ (rkey : Word32) (addr : Word64) (data : List Byte) (ps : List (Nat × Nat)), s.power.state = 0 →
      requestOk s x rkey.toNat addr.toNat data.length = true → unitPieces s x.ctx true addr.toNat data.length = some ps →
        exec (.roceRdmaWrite port qpn x.epsn rkey addr data) s =
          .next (emit (.rdmaAck port qpn x.epsn) (expectNext port.val qpn.toNat data.length
            (unitWrite .remote true false ps data (unitUse x.ctx addr.toNat data.length s))))) ∧
    (∀ (rkey : Word32) (addr : Word64) (n : Nat), s.power.state = 0 → requestOk s x rkey.toNat addr.toNat n = true →
      unitFault s x.ctx false addr.toNat n = none →
        exec (.roceRdmaRead port qpn x.epsn rkey addr n) s =
          .next (answerRead port.val qpn.toNat x.epsn x addr.toNat n (expectNext port.val qpn.toNat n s))) ∧
    (∀ psn : BitVec 24, exec (.roceNakReceive port qpn psn) s =
      .next (resendFrom port.val qpn.toNat (x.unacked.filter fun p => decide (0 ≤ toSigned 24 (p - psn).toNat)) s)) ∧
    (x.unacked ≠ [] → x.retries < 7 → exec (.roceTimeout port qpn) s = .next (resendFrom port.val qpn.toNat x.unacked
      (setQp port.val qpn.toNat (fun x => { x with retries := x.retries + 1 }) s))) ∧
    exec (.roceCnpReceive port qpn) s = .next (setQp port.val qpn.toNat (fun x => { x with rate := max (x.rate / 2) (2 ^ 26) }) s) ∧
    exec (.roceRateRaise port qpn) s =
      .next (setQp port.val qpn.toNat (fun x => { x with rate := min (x.rate + 2 ^ 27) (2 ^ 32) }) s))

/-! ## Links and the hierarchy (chapter 16) -/

/-- A link port that is UP (R344): a whole packet in sequence for this module is taken, acknowledged and delivered, where no encoding
of it is reserved (log 138); one that fails its CRC is counted and answered with a NAK; a NAK or a missing ACK replays what is unacknowledged. Training (R346 to R349): a
retrain ends UP with everything unacknowledged sent again, or DOWN with a record; training ends UP with a peer the wiring admits,
MISWIRED with another; LINK_COMMAND trains a port or takes it down, SPARE_MODE trains the spare ports; a lost port that sees its
peer trains again. -/
def Obligations.LinksCarryPackets : Prop :=
  (∀ (p : Fin 24) (s : State), (link s p.val).state = 3 →
    (∀ bs : List Byte, packetWhole bs = false →
      exec (.linkPacketReceive p bs) s = .next (sendControl p.val 8 (bumpE (0x3C10 + p.val) 3 s))) ∧
    (∀ bs : List Byte,
      let h := ofBe (bs.take 32)
      let k := packetOf h (bs.drop 32)
      let u := ackTo p.val (bits h 231 216) s
      packetWhole bs = true → headerReserved h = false → k.type ∉ [7, 8, 9] → bits h 247 232 = (link u p.val).rxSeq.toNat →
        let v := sendControl p.val 7 (setLink p.val (fun l => { l with
          rxSeq := l.rxSeq + 1, rxBytes := l.rxBytes + BitVec.ofNat 64 k.data.length }) u)
        exec (.linkPacketReceive p bs) s = .next (if k.dst = moduleOf v then deliver (bits h 205 203) k v else v)) ∧
    (∀ q : BitVec 16, exec (.linkNakReceive p q) s = .next (replay p.val (ackTo p.val q.toNat s))) ∧
    ((link s p.val).replay ≠ [] → exec (.linkAckTimeout p) s = .next (replay p.val s))) ∧
  (∀ (w : Who) (p : Fin 24) (s : State),
    let u := countAccess s
    ((link s p.val).state = 5 →
      exec (.linkRetrainEnd p true) s = .next (flushHeld (resendAll p.val (setLink p.val (fun l => { l with state := 3, replays := 0 }) s))) ∧
      exec (.linkRetrainEnd p false) s = .next (portLeaves p.val 0 (setLink p.val (fun l => { l with lost := true })
        (linkRecord p.val .linkRetrainFail (link s p.val).peer (bumpE (0x3C10 + p.val) 5 s))))) ∧
    (∀ i : PeerIdentity, (link s p.val).state = 1 ∨ (link s p.val).state = 2 →
      let v := roleConflict (setLink p.val (fun l => { l with peer := some i }) s)
      exec (.linkTrainDone p (some i)) s = .next (if identityOk v p.val i = true then
        flushHeld (setLink p.val (fun l => { l with state := 3, txSeq := 0, rxSeq := 0, replay := [], replays := 0 }) v)
        else linkRecord p.val .miswired (some i) (setLink p.val (fun l => { l with state := 4 }) v))) ∧
    (opens w (0x3C10 + p.val) 8 1 s = true → holderOrSideband s w.path = true →
      exec (.linkCommandTrain w p) s = .next (wrote w (startTraining p.val u))) ∧
    (opens w (0x3C10 + p.val) 8 2 s = true → holderOrSideband s w.path = true →
      exec (.linkCommandDown w p) s = .next (wrote w (portLeaves p.val 0 (setLink p.val (fun l => { l with lost := false }) u)))) ∧
    (∀ v : BitVec 8, opens w 0x3C00 3 v.toNat s = true → holderOrSideband s w.path = true → v.toNat ≤ 2 →
      exec (.spareModeWrite w v) s =
        .next (wrote w ([21, 22, 23].foldl (fun s p => startTraining p (portLeaves p 0 s)) (setReg 0x3C00 3 v.toNat u)))) ∧
    ((link s p.val).state = 0 → (link s p.val).lost = true → exec (.linkPeerSeen p) s = .next (startTraining p.val s)))

/-- Managers (R353 to R357): a relayed command for this module takes its place as any command and reports; a join is confirmed
with the peer table or refused; a RELAY frame's whole packets are delivered, one with a
reserved encoding is counted and recorded instead (R9); a page relayed installs and goes on to the next
module. The layout of what managers send is the model's (logs 73, 80). -/
def Obligations.ManagersRelay : Prop :=
  (∀ (bs : List Byte) (s : State),
    let m := relayMsgOf bs
    let x : Payload := {
      h := packFields [(188, 4, 1), (184, 4, 1), (176, 8, m.code), (175, 1, b2n (isExpress m.code)), (160, 12, m.ctx), (144, 16, m.gen)]
      ops := m.ops, tag := [] }
    onBoard s m.dst = true → m.dst % 8 = moduleOf s → m.report = false →
    (m.code = 1 ∨ ctxState s m.ctx ≠ 0 ∧ ctxGen s m.ctx = m.gen) → slotBusy s .sideband x = false →
    ∀ k s1, createResult m.code m.ctx 0 0 s = (some k, s1) →
      exec (.relayCmd bs) s = .next (enqueueCmd .sideband x k { s1 with relayJobs := s1.relayJobs ++
        [{ result := k, code := BitVec.ofNat 8 m.code, ctx := m.ctx, await := [], reported := [], up := some (m.src, m.slot) }] })) ∧
  (∀ (t : List (Nat × BitVec 48)) (s : State), s.hier.state = 1 →
    exec (.managerJoin true t) s = .next (s.hier.held.foldl (fun s e => routeTo e.1 e.2 s)
      { s with hier := { s.hier with state := 2, confirmed := true, peerTable := t, held := [] } }) ∧
    exec (.managerJoin false t) s = .next { s with hier := { s.hier with state := 3, confirmed := false, peerTable := [] } }) ∧
  (∀ (bs : List Byte) (s : State), effRole s ≠ 0 →
    exec (.relayFrame bs) s = .next ((framePackets (bs.length / 32) bs).foldl (fun s b =>
      let h := ofBe (b.take 32)
      if packetWhole b = true ∧ headerReserved h = false ∧ bits h 255 252 ∈ [4, 5, 10] then
        deliver (bits h 205 203) (packetOf h (b.drop 32)) s
      else if packetWhole b = true ∧ headerReserved h = true then stageRec 0 { unit := .link, reason := .reservedField } (bumpE 0x3C00 8 s)
      else s) s)) ∧
  ∀ (c : Fin 4096) (page n : Nat) (data : List Byte) (more : List (Fin 8)) (s : State) (f : Fetch),
    s.fetches.findIdx? (fun f => f.any fun x => x.ctx == c.val && x.page == page && !x.stale) = some n → s.fetches.getD n none = some f →
    data.length = 2 ^ 21 →
      exec (.relayedPage c page data more) s = .next (relayPage c.val page (more.map fun m => m.val) data (installPage n f data s))

/-! ## The dictionary (chapter 17) -/

/-- An access that names an entry by its type and passes every check (R365): READ answers DONE with the entry's value, DESCRIBE
its 16 bytes, and the access is counted; one without an entry is answered NO_ENTRY 0x40. A write of a plain setting that passes
every check (R365) changes that setting, is counted, answered DONE and ends the path's unlock; the dedicated row, the general one
and a 32-bit word in the register window agree. -/
def Obligations.DictionaryAccesses : Prop :=
  (∀ (w : Who) (index : BitVec 16) (sub : BitVec 8) (s : State), s.power.standby = true →
    (∀ e, entryOf index.toNat sub.toNat = some e → permitted w e index.toNat = true → available s e index.toNat = true →
      exec (.dictRead w index sub) s = .next (emit (.access w.path 0 (travel e.type (entryValue e index.toNat sub.toNat s).1))
        (countAccess (entryValue e index.toNat sub.toNat s).2)) ∧
      exec (.describe w index sub) s =
        .next (emit (.access w.path 0 (describeValue (countAccess s) e index.toNat sub.toNat)) (countAccess s))) ∧
    (entryOf index.toNat sub.toNat = none →
      exec (.dictRead w index sub) s = .next (emit (.access w.path 0x40 []) (countAccess s)) ∧
      exec (.describe w index sub) s = .next (emit (.access w.path 0x40 []) (countAccess s)))) ∧
  (∀ (w : Who) (s : State),
    let t := fun (index sub v : Nat) => wrote w (setReg index sub v (countAccess s))
    (∀ v : Word32, opens w 0x3200 1 v.toNat s = true →
      exec (.registerWrite w 0x3200 1 (v.setWidth 64)) s = .next (t 0x3200 1 v.toNat) ∧
      exec (.dictWrite w 0x3200 1 3 (toBe 4 v.toNat)) s = .next (t 0x3200 1 v.toNat)) ∧
    (∀ v : Word32, opens w 0x3200 1 v.toNat s = true →
      exec (.rawWrite w (BitVec.ofNat 48 (winBase + 0x3200010)) v) s =
        .next (wrote w (setReg 0x3200 1 v.toNat (keepShadows w.path 0x320001 (countAccess s))))) ∧
    (opens w 0x3200 1 0 s = true →
      exec (.rawRead w (BitVec.ofNat 48 (winBase + 0x3200010))) s =
        .next (emit (.access w.path 0 (toBe 4 (reg s 0x3200 1))) (keepShadows w.path 0x320001 (countAccess s)))))

/-- An acknowledgement (R367): with (v − a) mod 2^32 at most (c − a) mod 2^32 it sets a to v; any other is refused with BAD_VALUE.
The counter is pending exactly while c differs from a. -/
def Obligations.AcknowledgementsAreChecked : Prop :=
  ∀ (w : Who) (s : State) (v : Word32), opens w 0x3100 4 v.toNat s = true →
    let k := ekey 0x3100 4
    let u := countAccess s
    ((v.toNat + 2 ^ 32 - ackedValue s k) % 2 ^ 32 ≤ (count s k + 2 ^ 32 - ackedValue s k) % 2 ^ 32 →
      exec (.ackWrite w 0x3100 4 (v.setWidth 64)) s = .next (wrote w { u with acked := tset u.acked k v.toNat })) ∧
    ((count s k + 2 ^ 32 - ackedValue s k) % 2 ^ 32 < (v.toNat + 2 ^ 32 - ackedValue s k) % 2 ^ 32 →
      exec (.ackWrite w 0x3100 4 (v.setWidth 64)) s = .next (refusedWith w 0x1A u)) ∧
    (pendingCounter s k = true ↔ count s k ≠ ackedValue s k)

/-- UNLOCK (R370): the key 0xB01A0000 + LOCK_NONCE unlocks the path alone, and LOCK_NONCE stays; any other value locks it, moves
the nonce and counts in LOCK_FAILS; both are answered DONE. The expiry locks an unlocked path and moves the nonce. -/
def Obligations.UnlockNeedsTheKey : Prop :=
  ∀ (w : Who) (v : Word32) (s : State),
    let u := countAccess s
    (opens w 0x1000 0x10 v.toNat s = true →
      exec (.unlock w v) s = .next (emit (.access w.path 0 []) (if v.toNat = 0xB01A_0000 + s.lockNonce.toNat then
        setPath w.path (fun x => { x with unlocked := true }) u else
        bumpE 0x1000 0x12 { setPath w.path (fun x => { x with unlocked := false }) u with lockNonce := s.lockNonce + 1 }))) ∧
    ∀ p : Path, exec (.unlockExpiry p) s = .next (if (pathState s p).unlocked = true then
      { setPath p (fun x => { x with unlocked := false }) s with lockNonce := s.lockNonce + 1 } else s)

/-- Frames and messages (R362, R369, R372, R378): a Wenius frame on a path that takes frames goes by its KIND; one that R372
refuses is dropped and counted; a NOTIFY goes out on a port that is up while a counter is pending; an MCTP message is whole or
dropped. The sideband's own commands while the always-on island has power (R377, R378). What DSP0236 and the I3C specification
alone say is presumed (log 93); contents that no text here gives are constants of the part. -/
def Obligations.FramesAndSideband : Prop :=
  (∀ (p : Path) (bs : List Byte) (s : State), s.power.standby = true → portsOn s p = true →
    (weniusOk bs = true → weniusKind bs = 1 → exec (.dictFrame p bs) s = .next (dictBody p bs s)) ∧
    (weniusOk bs = false → p = .port0 → exec (.dictFrame p bs) s = .next (bumpE 0x3B10 0xB s)) ∧
    (p = .port0 → attnCount s ≠ 0 → reg s 0x1110 1 ≠ 0 → (eth s 0).state = 2 →
      let u := draw (setPath .port0 (fun x => { x with notifyCount := x.notifyCount + 1 }) s)
      exec (.notifySend p) s = .next (emit (.notify .port0 (notifyFrame 0 u.1 (pathState u.2 .port0).notifyCount.toNat u.2)) u.2)) ∧
    (bs.length ≤ 1152 → bs.take 4 = toBe 4 Config.vendor.toNat → weniusOk (bs.drop 4) = true → weniusKind (bs.drop 4) = 1 →
      exec (.mctpMessage true bs) s = .next (dictBody .sideband (bs.drop 4) s)) ∧
    exec (.mctpMessage false bs) s = .next (bumpE 0x1000 0x15 s)) ∧
  (∀ (s : State), s.power.standby = true →
    let mctp := fun (code done : Nat) (body : List Byte) (s : State) => emit (.mctp ([BitVec.ofNat 8 code, BitVec.ofNat 8 done] ++ body)) s
    (∀ e : BitVec 8, e ≠ 0 → e ≠ 255 →
      exec (.setEndpointId e) s = .next (mctp 1 0 [0, e, 0] { s with sideband := { s.sideband with eid := e } })) ∧
    exec .getEndpointId s = .next (mctp 2 0 [s.sideband.eid, 0, 0] s) ∧
    exec .getEndpointUuid s = .next (mctp 3 0 Config.endpointUuid s) ∧
    exec .getMctpVersionSupport s = .next (mctp 4 0 (Config.mctpAnswer 4) s) ∧
    exec .getMessageTypeSupport s = .next (mctp 5 0 (Config.mctpAnswer 5) s) ∧
    exec .getVendorDefinedMsgSupport s = .next (mctp 6 0 (Config.mctpAnswer 6) s) ∧
    (∀ a : BitVec 7,
      let t := if s.sideband.dynAddr = none then { s with sideband := { s.sideband with dynAddr := some a } } else s
      exec (.entdaa a) s = .next t ∧ exec (.setdasa a) s = .next t) ∧
    exec .rstdaa s = .next { s with sideband := { s.sideband with dynAddr := none } } ∧
    (∀ m : BitVec 8,
      exec (.enec m) s = .next { s with sideband := { s.sideband with ibiOn := s.sideband.ibiOn || bit m.toNat 0 } } ∧
      exec (.disec m) s = .next { s with sideband := { s.sideband with ibiOn := s.sideband.ibiOn && !(bit m.toNat 0) } }) ∧
    exec .getpid s = .next (emit (.i3c (toBe 6 (Config.provisionalId s.fuses.serial).toNat)) s) ∧
    exec .getbcr s = .next (emit (.i3c [Config.i3cBcr]) s) ∧ exec .getdcr s = .next (emit (.i3c [Config.i3cDcr]) s) ∧
    exec .getstatus s = .next (emit (.i3c (toBe 2 (draw s).1)) (draw s).2) ∧
    exec .getmxds s = .next (emit (.i3c (toBe 2 Config.i3cMxds.toNat)) s) ∧
    exec .getmrl s = .next (emit (.i3c (toBe 2 s.sideband.mrl.toNat)) s) ∧
    exec .getmwl s = .next (emit (.i3c (toBe 2 s.sideband.mwl.toNat)) s) ∧
    ∀ v : BitVec 16, v.toNat ≤ 69 →
      exec (.setmrl v) s = .next { s with sideband := { s.sideband with mrl := v } } ∧
      exec (.setmwl v) s = .next { s with sideband := { s.sideband with mwl := v } })

/-! ## The security island (chapter 18) -/

/-- Firmware (R384 to R387): BOOT runs the preferred slot where it passes; staging takes the image, checks it and fills the slot
that does not run; activation, once committed, names that slot; the fuses' SVN rises to the running image's, and a root is revoked
unless the running image needs it or none would be left. -/
def Obligations.FirmwareCommands : Prop :=
  ∀ (w : Who) (s : State),
    let u := countAccess s
    (s.island.state = 0 → s.power.pwrGood = true → s.power.pll = 2 →
      slotCheck s (if s.flash.bootPref then s.flash.slotB else s.flash.slotA) = 1 → ∃ t, exec .boot s = .next t ∧
        t.power.state = 0 ∧ t.island.runningB = s.flash.bootPref) ∧
    (∀ v : Word64, opens w 0x4010 1 v.toNat s = true → ctxAddrOk 4096 v.toNat = true → holderOrSideband s w.path = true →
      s.island.fwState ≠ 1 → s.island.fwState ≠ 4 →
        exec (.fwStage w v) s = .next (wrote w (setIsland (fun i => { i with
          fwState := 1, fwReason := 0, fwCtx := bits v.toNat 59 48, fwAddr := bits v.toNat 47 0, fwOwner := some w.path,
          fwWait := none, fwFailed := false }) u))) ∧
    (∀ (hb body : List Byte) (s1 s2 : State), s.island.fwState = 1 → s.island.fwFailed = false →
      islandRead s.island.fwCtx s.island.fwAddr 1024 s = (.bytes hb, s1) →
      headerCheck s1 hb = 0 → islandRead s.island.fwCtx (s.island.fwAddr + 1024) (imgLen (ofLe hb)) s1 = (.bytes body, s2) →
      bodyOk hb body = true →
        exec .fwStageDone s = .next (setIsland (fun i => { i with
          fwState := 2, fwReason := 0, fwOwner := none, fwVersionStaged := BitVec.ofNat 32 (bits (ofLe hb) 95 64) })
          (setStaged { header := hb, body := body, readable := true } s2))) ∧
    (opens w 0x4010 3 1 s = true → holderOrSideband s w.path = true → s.island.fwState = 2 → s.island.activating = false →
      exec (.fwActivate w 1) s = .next (wrote w (semCommit (setIsland (fun i => { i with activating := true }) u)))) ∧
    (s.island.activating = true →
      exec .fwActivateDone s = .next (semUncommit (setIsland (fun i => { i with activating := false, fwState := 4 })
        { s with flash := { s.flash with bootPref := !s.island.runningB } }))) ∧
    (opens w 0x4010 4 1 s = true → holderOrSideband s w.path = true → fuseSvn s < s.island.imgSvn.toNat →
      exec (.fwSvnCommit w 1) s = .next (wrote w { setReg 0x4010 4 1 u with
        fuses := { s.fuses with svn := BitVec.ofNat 64 (2 ^ s.island.imgSvn.toNat - 1) ||| s.fuses.svn } })) ∧
    ∀ v : BitVec 8, opens w 0x4000 4 v.toNat s = true → v.toNat ≤ 15 → holderOrSideband s w.path = true →
      (s.island.state = 1 → bit v.toNat s.island.rootIndex = false) → s.fuses.revoke.toNat ||| v.toNat ≠ 15 →
        exec (.rootRevoke w v) s = .next (wrote w { u with
          fuses := { s.fuses with revoke := BitVec.ofNat 4 (s.fuses.revoke.toNat ||| v.toNat) } })

/-- Attestation and key exchange (R388 to R394): a nonce starts one attestation, whose report is complete when its signing job has
ended; an exchange that passes the early checks claims its slot and has its first job queued, one whose jobs have ended and that
passes the late checks installs a key of 32 bytes under its role; SLOT_ERASE empties a slot that no exchange claims. Random bytes are the source's own (log 98). The big-number engine
(R395 to R400): a job is queued with room for 16; with none running, a parked job resumes unless a lower class waits, else the
oldest of the lowest class starts; a running job yields to a lower class; its end writes output and record, counts, leaves the engine
empty, and queues the next job of an exchange. -/
def Obligations.KeysAndJobs : Prop :=
  (∀ (w : Who) (s : State),
    let u := countAccess s
    let p := w.path
    (∀ nonce : List Byte, opens w (0x4200 + pathIdx p) 7 0 s = true → nonce.length = 32 → (pathState s p).attest ≠ 1 →
      exec (.attestNonce w nonce) s = .next (wrote w (queueIsland p 0 (setPath p (fun x => { x with nonce := nonce, attest := 1 }) u)))) ∧
    ((pathState s p).attest = 1 → islandJob s p false = false →
      let v := setIsland (fun i => { i with reports := i.reports + 1 }) s
      exec (.attestDone p) s = .next (setPath p (fun x => { x with
        report := reportBody v p ++ (identitySign (reportBody v p) v).1, attest := 2 }) (identitySign (reportBody v p) v).2)) ∧
    (opens w (0x4200 + pathIdx p) 5 1 s = true → (pathState s p).kexState.toNat % 256 ≠ 1 →
      let b := (pathState s p).kexBuf
      exec (.kexCommand w 1) s = .next (wrote w (if kexEarly s b = 0 then
        queueIsland p 1 (setKeySlot (b.getD 2 0).toNat (fun x => { x with claimed := true })
          (setPath p (fun x => { x with kexState := 1, kexSlot := some (b.getD 2 0) }) u))
        else kexFails p (kexEarly s b) u))) ∧
    (∀ k, (pathState s p).kexSlot = some k → islandJob s p true = false → kexLate (pathState s p).kexBuf = 0 → ∃ t, exec (.kexDone p) s = .next t ∧
      (keySlot t k.toNat).role = (if (pathState s p).kexBuf.getD 1 0 = 1 then .admin else .session) ∧
      (keySlot t k.toNat).key.length = 32 ∧ (keySlot t k.toNat).claimed = false ∧
      (keySlot t k.toNat).installs = (keySlot s k.toNat).installs + 1 ∧
      ∀ j, j ≠ k.toNat → keySlot t j = keySlot s j) ∧
    ∀ v : BitVec 8, opens w 0x4020 3 v.toNat s = true → v.toNat < 0xF0 → (keySlot s v.toNat).claimed = false →
      exec (.slotErase w v) s = .next (wrote w (setKeySlot v.toNat (fun k => { k with role := .empty, key := [] }) u))) ∧
  (∀ (w : Who) (s : State),
    (∀ v : Word64, opens w 0x4030 1 v.toNat s = true → ctxAddrOk 64 v.toNat = true → s.island.bnQueue.length < 16 →
      exec (.bnJob w v) s = .next (wrote w (setIsland (fun i => { i with
        bnQueue := i.bnQueue ++ [{ ctx := bits v.toNat 59 48, addr := bits v.toNat 47 0, seq := i.bnSeq }], bnSeq := i.bnSeq + 1 })
        (countAccess s)))) ∧
    (s.island.bnRunning = none →
      (s.island.bnParked = [] → exec .bnJobStart s = .next (bnStartQueued s)) ∧
      ∀ p, lowestClass (fun j => j.cls) s.island.bnParked = some p →
        (∀ q, lowestClass (queuedClass s) s.island.bnQueue = some q → p ≤ q) →
          exec .bnJobStart s = .next (setIsland (fun i => { i with
            bnRunning := i.bnParked.find? (fun j => j.cls == p), bnParked := i.bnParked.filter fun j => j.cls != p }) s)) ∧
    (∀ j, s.island.bnRunning = some j → (∃ k ∈ s.island.bnQueue, queuedClass s k < j.cls) →
      let t := bnStartQueued (setIsland (fun i => { i with bnRunning := none, bnParked := i.bnParked ++ [j] }) s)
      t.island.bnRunning.isSome = true → exec .bnYieldPoint s = .next t) ∧
    ∀ j, s.island.bnRunning = some j → (∀ k ∈ s.island.bnParked, k.status ≠ 0x47) → bnAbsent s j = none → ∃ t,
      exec .bnJobEnd s = .next t ∧ t.island.bnRunning = none ∧
      t = bnEnds j (setIsland (fun i => { i with bnRunning := none, bnParked := i.bnParked.filter fun j => j.status != 0x47 }) s))

/-! ## Power, clocks and reset (chapter 19) -/

/-- The input and its pins (R402, R403, R406, R408, R409, R411, R412): power-on, a loss of the input, a trip and a PLL loss reset
the module with their causes, 1, 4, 5 and 6; conversion starts where PWR_EN and the input admit it; a good rail starts the PLL. A
reset keeps fuses, flash and the queue. The throttle (R404): both dies take the fractions it chooses, below 64/64 where the input
would pass PWR_CAP or the die is hot; the input's average is at most PWR_CAP; an update below 64/64 is counted at 0x5000.0B. The
sensors and the limits give free values (log 105). -/
def Obligations.RailsAndSensors : Prop :=
  (∀ (s : State),
    (∀ v, ∃ t, exec (.powerOn v) s = .next t ∧ t.power.resetCause = 1 ∧ t.power.straps = v ∧ t.power.mainOn = false ∧
      t.fuses = s.fuses ∧ t.flash = s.flash ∧ t.pending = s.pending ∧ t.cores = [] ∧ t.mem = []) ∧
    (s.power.pwrEn = false → exec .pwrEnAssert s = .next (startMains (setPower (fun p => { p with pwrEn := true }) s))) ∧
    (s.power.mainOn = true → ∃ t, exec .pwrEnDeassert s = .next t ∧ t.power.mainOn = false ∧
      t.power.resetCause = s.power.resetCause ∧ t.cores = []) ∧
    (s.power.inRange = false → s.power.standby = true →
      exec .inputInRange s = .next (startMains (setPower (fun p => { p with inRange := true }) s))) ∧
    (s.power.mainOn = true → s.power.pwrGood = false →
      exec .pwrGoodAssert s = .next (setPower (fun p => { p with pwrGood := true, pll := 1 }) s)) ∧
    (∃ t, exec .inputFault s = .next t ∧ t.power.resetCause = 4 ∧ t.power.inRange = false ∧ t.power.mainOn = false ∧ t.mem = []) ∧
    (∃ t, exec .standbyRailLoss s = .next t ∧ t.power.standby = false ∧ t.power.mainOn = false ∧ t.mem = []) ∧
    (s.power.pwrGood = true → exec .pllLock s = .next (setPower (fun p => { p with pll := 2 }) s)) ∧
    (s.power.pwrGood = true → ∃ t, exec .pllLoss s = .next t ∧ t.power.resetCause = 6 ∧ t.power.pll = 1 ∧ t.mem = []) ∧
    (∀ v, s.power.standby = true → ∃ t, exec (.rstN v) s = .next t ∧ t.power.resetCause = 2 ∧ t.power.straps = v ∧
      t.fuses = s.fuses ∧ t.pending = s.pending ∧ t.cores = [] ∧ t.mem = []) ∧
    ∀ d : Fin 2, s.dies.length = 2 →
      (∃ t, exec (.thermalTrip d) s = .next t ∧ t.power.resetCause = 5 ∧ t.power.tripped = true ∧ t.power.mainOn = false) ∧
      exec (.thermalAlert d) s = .next (setPower (fun p => { p with alert := true }) (setDie d.val (fun x => { x with temp := 105 }) s))) ∧
  (∀ (d0 d1 : Fin 65) (s : State), s.dies.length = 2 →
    let x := fun (k : Nat) => Config.sensor k (s.fresh + k)
    let high := decide (reg s 0x5000 7 < x 0)
    let hot := fun (k : Nat) => decide (100 ≤ toSigned 16 (x k % 2 ^ 16))
    let e0 := min d0.val (throttleLimit high (hot 3) (x 5) (x 6))
    let e1 := min d1.val (throttleLimit high (hot 4) (x 5) (x 6))
    ∃ t, exec (.throttleUpdate d0 d1) s = .next t ∧ (die t 0).throttle = e0 ∧ (die t 1).throttle = e1 ∧
      t.cores = s.cores ∧ t.mem = s.mem ∧ t.power.input = BitVec.ofNat 16 (min (x 0) (reg s 0x5000 7)) ∧
      count t (ekey 0x5000 0xB) = count (if e0 < 64 ∨ e1 < 64 then bumpE 0x5000 0xB s else s) (ekey 0x5000 0xB))

/-- RESET_CTRL by the semaphore's holder (R412, R413): a cold reset with cause 3, or a shared reset: every context is killed and
the reset is committed; with every context FREE it ends and is counted at 0x5000.14. Core clocks (R410): a write begins the
switch, its end sets the state. Power states (R414 to R417): the semaphore's holder asks for another state from RUN; once nothing
of a context is left in a core the retired list is copied (R283) and the state is entered; a wake that the mask admits begins the exit; the exit ends in RUN with the
cores on FIO. -/
def Obligations.ResetsClocksAndPower : Prop :=
  (∀ (w : Who) (s : State),
    let u := countAccess s
    (opens w 0x5000 0x10 1 s = true → s.sem.holder = some w.path →
      exec (.resetCtrlCold w) s = .next (wrote w (coldReset 3 s.power.straps u))) ∧
    (opens w 0x5000 0x10 2 s = true → s.sem.holder = some w.path →
      exec (.resetCtrlShared w) s = .next (wrote w (sharedReset (setReg 0x5000 0x10 2 u)))) ∧
    (s.power.sharedReset = true → (∀ e ∈ s.contexts, ctxState s e.1 = 0) → ∃ t, exec .sharedResetEnd s = .next t ∧
      t.power.sharedReset = false ∧ t.modTable = [] ∧ t.occupied = [] ∧ t.tableJob = none ∧ t.updRing = [none, none]) ∧
    (∀ (c : Fin 128) (v : BitVec 8), opens w (0x5080 + c.val) 1 v.toNat s = true → v.toNat ≤ 1 → (v.toNat = 1 → s.power.pll = 2) →
      exec (.coreClk w c v) s = .next (wrote w (coreClkTo c.val v.toNat u))) ∧
    (∀ v : BitVec 8, opens w 0x5001 1 v.toNat s = true → v.toNat ≤ 1 → (v.toNat = 1 → s.power.pll = 2) →
      exec (.clkAll w v) s = .next (wrote w ((List.range 128).foldl (fun s c => coreClkTo c v.toNat s) u))) ∧
    ∀ c : Fin 128, (core s c.val).clkState = 1 →
      exec (.clkSwitchDone c) s =
        .next (setCore c.val (fun x => { x with clkState := BitVec.ofNat 8 (2 * reg s (0x5080 + c.val) 1) }) s)) ∧
  (∀ (w : Who) (s : State),
    (∀ v : BitVec 8, opens w 0x5000 2 v.toNat s = true → 1 ≤ v.toNat → v.toNat ≤ 3 → s.sem.holder = some w.path →
      s.power.entering = false → s.power.exiting = false → s.power.state = 0 → (v.toNat = 3 → ctxOpen s = 0) →
        exec (.pwrStateReq w v) s = .next (wrote w (beginEntry v.toNat (countAccess s)))) ∧
    (entryReady s = true → s.power.goal = 1 → s.power.latched = false →
      exec .pwrEntryDone s =
        .next (semUncommit (setPower (fun p => { p with state := 1, entering := false }) (tracePower (retiredListCopy s))))) ∧
    (s.power.entering = false → s.power.state = 1 → s.power.exiting = false → bit (reg s 0x5000 4) 0 = true →
      exec (.wakeEvent true) s =
        .next (tracePower (setPower (fun p => { p with exiting := true, latched := false }) (bumpE 0x5000 5 s)))) ∧
    (s.power.exiting = true → s.power.state = 1 →
      exec .pwrExitDone s =
        .next (flushHeld (tracePower (setPower (fun p => { p with state := 0, exiting := false }) (coresToFio s))))))

/-! ## Integrity, faults and debug (chapter 20) -/

/-- The fault log takes the oldest staged record of a die (R426): numbered, with its check, at 0x100000 + 128 × (n mod 4096); it
is counted, and an overwrite too. Trace and sync marks (R428, R429): a staged record without an owner's ring to go to is dropped;
with one and room in it, it is written at the writer's position; marks are numbered, sent and recorded; a mark that arrives is
recorded with its sender's time. -/
def Obligations.RecordsAndMarks : Prop :=
  (∀ (d : Fin 2) (s : State) (v : BitVec 1024) (rest : List (BitVec 1024)), (die s d.val).flogStage = v :: rest →
    let n := s.flogSeq
    let x := flogFinish v.toNat n (die s d.val).flogDrops
    let a := devWrite .write true (0x10_0000 + 128 * (n % 4096)) (toLe 128 x) false
      (setDie d.val (fun x => { x with flogStage := rest, flogDrops := false }) s)
    let b := bumpE 0x6000 1 { a with flogSeq := n + 1 }
    exec (.faultLogAccept d) s = .next (trace d.val
      { tkind := 4, value := n % 2 ^ 32, ctx := bits x 351 340, core := bits x 339 333 }
      (if 4096 ≤ n then bumpE 0x6000 6 b else b))) ∧
  (∀ (d : Fin 2) (s : State),
    (∀ v rest, (die s d.val).trace = v :: rest → traceOwner (setDie d.val (fun x => { x with trace := rest }) s) = none →
      exec (.traceRecordWrite d) s = .next (traceDrop d.val (setDie d.val (fun x => { x with trace := rest }) s))) ∧
    (∀ (v : BitVec 256) (rest : List (BitVec 256)) (c : Nat) (hp ps : List (Nat × Nat)) (hb : List Byte) (q : Bool) (s1 s2 : State),
      (die s d.val).trace = v :: rest → s1 = setDie d.val (fun x => { x with trace := rest }) s → traceOwner s1 = some c →
      unitPieces s1 c true (traceBase s1) 64 = some hp → unitPieces s1 c true (traceBase s1) (64 + 32 * 2 ^ traceLog2 s1) = some ps →
      unitRead .write true hp (unitUse c (traceBase s1) (64 + 32 * 2 ^ traceLog2 s1) s1) = (hb, q, s2) → reg s2 0x6010 4 ≠ 0 →
        let n := ofLe (hb.take 4)
        let s3 := setDie d.val (fun x => { x with traceLost := false, traceMiss := 0 }) s2
        exec (.traceRecordWrite d) s = .next (unitWrite .write true false hp
          (traceHeader (n + 1) (ofLe ((hb.drop 4).take 4)) (ofLe ((hb.drop 8).take 4) + (die s2 d.val).traceMiss))
          (unitWrite .write true false ((unitPieces s3 c true (traceBase s2 + 64 + 32 * (n % 2 ^ traceLog2 s2)) 32).getD [])
            (toLe 32 (setBits v.toNat 72 72 (b2n (die s2 d.val).traceLost))) s3))) ∧
    (s.power.pwrGood = true → effRole s = 0 → ∃ t, exec (.syncMarkSend d) s = .next t ∧ t.syncId = s.syncId + 1 ∧ t.mem = s.mem ∧
      t = (List.range 24).foldl (fun s p => syncOver d.val p s) (syncSent d.val (identityOf s) 31 { s with syncId := s.syncId + 1 })) ∧
    ∀ (l : BitVec 5) (peer : BitVec 16) (n : Word32) (sent : Word64),
      exec (.syncMarkReceive d l peer n sent) s =
        .next (trace d.val { tkind := 6, postmark := sent.toNat, value := n.toNat, aux := peer.toNat + l.toNat * 2 ^ 16 } s))

/-- A debugger's access (R430, R432), once the context's entry is read (R289): a read of DBG_MEM_DATA answers 256 bytes and sets DBG_MEM_STATUS; a write to a context that
is suspended or runs no stream, where every burst is writable, is carried out whole; an envelope is shown as it stands. -/
def Obligations.DebuggerReadsAndWrites : Prop :=
  ∀ (w : Who) (s : State),
    (opens w 0x6020 2 0 s = true →
      exec (.dbgMemRead w) s = .next (emit (.access w.path 0 (dbgRead s).1) (countAccess (dbgRead s).2)) ∧ (dbgRead s).1.length = 256) ∧
    (∀ data : List Byte, opens w 0x6020 2 0 s = true → data.length = 256 → dbgIsDevice s = false →
      let ctx := dbgCtx s
      let u := readEntry ctx (countAccess s)
      (∀ k < 8, dbgWritable u k = true) → (ctxState u ctx = 2 ∨ anyRunning u ctx = false) →
        let a := bits (reg s 0x6020 1) 47 0
        exec (.dbgMemWrite w data) s = .next (wrote w ((List.range 8).foldl (fun s k =>
          unitWrite .write false false ((unitPieces s ctx true (a + 32 * k) 32).getD []) ((data.drop (32 * k)).take 32)
            (unitUse ctx (a + 32 * k) 32 s)) u))) ∧
    (opens w 0x6020 5 0 s = true →
      exec (.dbgMbEnvelope w) s = .next (emit (.access w.path 0 (toLe 32 (dbgEnvelope s))) (countAccess s)))

/-- The MSG instructions that have their effect at once (R236, R239, R248, R252, R253, R254): MB_OPEN gives the mailbox to the
context, MB_CLOSE closes it, RECV and POLL store its oldest envelope and drop it, POLL of an empty one stores zeros, SO_CLOSE
closes an office, STAMP_PUT gives stamps back, SEAL_CREATE and SEAL_FREE bind and unbind a seal, and SEAL_ADD's addition goes out
when the instruction retires. -/
def Obligations.MessageEffects : Prop :=
  ∀ (c : Fin 128) (s : State) (i : Issued),
    let w := i.word.toNat
    let b := bits w 52 48
    let id := bits w 47 32
    let box := mailbox s c.val b
    let s0 := settled s
    let done := fun (posts : List SealMsg) (u : State) =>
      endOk c.val .msg i (i.posts ++ posts) (repeatSignal c.val i { settled u with wrote := [], wroteFar := [] })
    let head := fun (op : Nat) => readyHead s c.val .msg op = some i
    msgFieldsOk w = true → iRepM1 w = 0 → i.progress = 0 → i.journal = [] → stopping s c.val i.ctx = false →
    (box.owner = none → head 4 → exec (.mbOpen c) s = .next (done [] (setMailbox c.val b (fun _ => { owner := some i.ctx }) s0))) ∧
    (box.owner = some i.ctx →
      (head 4 → exec (.mbOpen c) s = .next (done [] s0)) ∧
      (head 5 → exec (.mbClose c) s = .next (done [] (closeMailbox false c.val b 4 0 s0))) ∧
      ∀ (a : Nat) (s1 : State), a = addrOf i 0 0 → a % 32 = 0 → isSp a = true → spCore a = c.val →
        (∀ v rest, box.queue = v :: rest →
          runFrom [] false (store (envOf c.val .msg i) a (toLe 32 v.toNat) false) s = .ok () s1 →
          let t := setMailbox c.val b (fun m => { m with queue := m.queue.drop 1 }) s1
          (head 2 → exec (.recv c) s = .next (done [] t)) ∧ (head 3 → exec (.poll c) s = .next (done [] t))) ∧
        (box.queue = [] → runFrom [] false (store (envOf c.val .msg i) a (List.replicate 32 0) false) s = .ok () s1 →
          head 3 → exec (.poll c) s = .next (done [] s1))) ∧
    ((office s c.val b).owner = some i.ctx → (office s c.val b).adding = false → head 9 →
      exec (.soClose c) s = .next (done [] (closeOffice false c.val b s0))) ∧
    (∀ a, accountOf s c.val i.ctx (stampDest w).1 (stampDest w).2 = some a → head 0x11 →
      exec (.stampPut c) s = .next (done [] (giveBack c.val a (bits w 12 0) s0))) ∧
    (∀ p, sealOf s i.ctx id = none → sealsTaken s i.ctx < ctxSealQuota s i.ctx → freeSeal s (dieOf c.val) = some p → head 0x18 →
      exec (.sealCreate c) s = .next (done [] (setCtxF i.ctx 92 80 (ctxSealsUsed s i.ctx + 1) (setSeal p (fun x => { x with
        owner := some i.ctx, sealId := BitVec.ofNat 16 id, count := BitVec.ofNat 32 (bits w 31 0), remote := none }) s0)))) ∧
    ∀ p, sealOf s i.ctx id = some p →
      (sealWaiters s p = 0 → sealSlots s p = 0 → head 0x19 → exec (.sealFree c) s = .next (done [] (unbindSeal p s0))) ∧
      (head 0x1B → exec (.sealAdd c) s = .next (done [{
        phys := p, gen := (sealAt s p).gen, amount := BitVec.ofNat 32 (bits w 31 0), ctx := i.ctx,
        sealId := (sealAt s p).sealId, fromImport := (sealAt s p).remote.isSome }] s0))

/-! ## What an engine's instruction leaves alone -/

/-- A run of a POLY instruction, a COPY or a ZERO that comes to its end changes no register of the dictionary, no command stream,
no seal, no mailbox, no context's registers, and nothing of the tables, keys, fuses, power and host ports. -/
def Obligations.EngineRunsLeaveTheRest : Prop :=
  ∀ (c : Fin 128) (s t : State) (i : Issued) (posts : List SealMsg) (q : QueueId), ∀ row ∈ plainRows c,
    Finishes c.val q row.2.1 row.2.2 s i posts t → Untouched s t

/-- The memory that a POLY instruction, a COPY or a ZERO of a context changes is memory that the context's own mappings and grant
let it write (R9, R11, R296): every byte that differs lies at a device address that some context address translates to for a
write. -/
def Obligations.EngineRunsStayInTheirContext : Prop :=
  ∀ (c : Fin 128) (s t : State) (i : Issued) (posts : List SealMsg) (q : QueueId), ∀ row ∈ plainRows c,
    Finishes c.val q row.2.1 row.2.2 s i posts t →
      ∀ a, memGet t.mem a ≠ memGet s.mem a → ∃ v, xlat s i.ctx true v = .dev a
end

