-- ==== Sys2Proof/Laws/Memory.lean ====
section
/-! SUPPORT. The list of bytes: a byte reads as written, every other as before, and the canonical form is kept. -/

namespace Sys2Proof.Machine

theorem memWfFrom_mono {lo lo' : Nat} (h : lo' ≤ lo) : ∀ {m : List Host.Cell}, memWfFrom lo m = true → memWfFrom lo' m = true := by
  intro m
  cases m with
  | nil => simp [memWfFrom]
  | cons c r => obtain ⟨k, v⟩ := c; simp only [memWfFrom, Bool.and_eq_true, decide_eq_true_eq]; intro ⟨⟨h1, h2⟩, h3⟩; exact ⟨⟨by omega, h2⟩, h3⟩

theorem memGet_of_lt {a : Nat} : ∀ {m : List Host.Cell} {lo : Nat}, memWfFrom lo m = true → a < lo → memGet m a = memDefault := by
  intro m
  induction m with
  | nil => intros; rfl
  | cons c r ih =>
    intro lo h ha
    obtain ⟨k, v⟩ := c
    simp only [memWfFrom, Bool.and_eq_true, decide_eq_true_eq] at h
    obtain ⟨⟨h1, h2⟩, h3⟩ := h
    rw [memGet, if_neg (by omega)]
    exact ih h3 (by omega)

theorem memGet_memSet_of_ne {a b : Nat} (h : b ≠ a) (v : Byte) : ∀ m : List Host.Cell, memGet (memSet m a v) b = memGet m b := by
  intro m
  induction m with
  | nil => simp only [memSet]; split <;> simp [memGet, h]
  | cons c r ih =>
    obtain ⟨k, w⟩ := c
    simp only [memSet]
    split
    · rename_i e; subst e; split <;> simp [memGet, h]
    · split
      · split <;> simp [memGet, h]
      · simp [memGet, ih]

theorem memGet_memSet_self (a : Nat) (v : Byte) : ∀ {m : List Host.Cell} {lo : Nat}, memWfFrom lo m = true → memGet (memSet m a v) a = v := by
  intro m
  induction m with
  | nil => intro lo _; simp only [memSet]; split <;> simp [memGet, *]
  | cons c r ih =>
    intro lo h
    obtain ⟨k, w⟩ := c
    simp only [memWfFrom, Bool.and_eq_true, decide_eq_true_eq] at h
    obtain ⟨⟨h1, h2⟩, h3⟩ := h
    simp only [memSet]
    split
    · rename_i e; subst e
      split
      · rename_i e; rw [e]; exact memGet_of_lt h3 (by omega)
      · simp [memGet]
    · split
      · split
        · rename_i hn hlt e; rw [memGet, if_neg hn, e]; exact memGet_of_lt h3 (by omega)
        · simp [memGet]
      · rename_i hn hlt; rw [memGet, if_neg hn]; exact ih h3

theorem memWfFrom_memSet {a : Nat} {v : Byte} : ∀ {m : List Host.Cell} {lo : Nat}, lo ≤ a → memWfFrom lo m = true → memWfFrom lo (memSet m a v) = true := by
  intro m
  induction m with
  | nil => intro lo ha _; simp only [memSet]; split <;> simp [memWfFrom, *]
  | cons c r ih =>
    intro lo ha h
    obtain ⟨k, w⟩ := c
    simp only [memWfFrom, Bool.and_eq_true, decide_eq_true_eq, bne_iff_ne, ne_eq] at h
    obtain ⟨⟨h1, h2⟩, h3⟩ := h
    simp only [memSet]
    split
    · rename_i e; subst e
      split
      · exact memWfFrom_mono (by omega) h3
      · simp [memWfFrom, *]
    · split
      · split
        · simp [memWfFrom, *]
        · simp [memWfFrom, *]
      · simp only [memWfFrom, Bool.and_eq_true, decide_eq_true_eq, bne_iff_ne, ne_eq]
        exact ⟨⟨h1, h2⟩, ih (by omega) h3⟩

theorem wf_memSet {m : List Host.Cell} (h : Memory.wf m = true) (a : Nat) (v : Byte) : Memory.wf (memSet m a v) = true :=
  memWfFrom_memSet (Nat.zero_le a) h

theorem wf_memWrite : ∀ (bs : List Byte) (a : Nat) {m : List Host.Cell}, Memory.wf m = true → Memory.wf (memWrite m a bs) = true := by
  intro bs
  induction bs with
  | nil => intro a m h; exact h
  | cons b r ih => intro a m h; exact ih (a + 1) (wf_memSet h a b)

theorem wf_filter {p : Host.Cell → Bool} : ∀ {m : List Host.Cell} {lo : Nat}, memWfFrom lo m = true → memWfFrom lo (m.filter p) = true := by
  intro m
  induction m with
  | nil => intro lo _; simp [memWfFrom]
  | cons c r ih =>
    intro lo h
    obtain ⟨k, w⟩ := c
    simp only [memWfFrom, Bool.and_eq_true, decide_eq_true_eq] at h
    obtain ⟨⟨h1, h2⟩, h3⟩ := h
    rw [List.filter_cons]
    split
    · simp only [memWfFrom, Bool.and_eq_true, decide_eq_true_eq]; exact ⟨⟨h1, h2⟩, ih h3⟩
    · exact ih (memWfFrom_mono (by omega) h3)

theorem memGet_memWrite_out : ∀ (bs : List Byte) (a : Nat) (m : List Host.Cell) (b : Nat), (b < a ∨ a + bs.length ≤ b) →
    memGet (memWrite m a bs) b = memGet m b := by
  intro bs
  induction bs with
  | nil => intros; rfl
  | cons x r ih =>
    intro a m b h
    simp only [List.length_cons] at h
    rw [memWrite, ih (a + 1) _ b (by omega), memGet_memSet_of_ne (by omega)]

theorem memRead_memWrite : ∀ (bs : List Byte) (a : Nat) {m : List Host.Cell}, Memory.wf m = true → memRead (memWrite m a bs) a bs.length = bs := by
  intro bs
  induction bs with
  | nil => intros; rfl
  | cons x r ih =>
    intro a m h
    rw [memWrite, List.length_cons, memRead, ih (a + 1) (wf_memSet h a x), memGet_memWrite_out _ _ _ _ (by omega),
      memGet_memSet_self a x h]

theorem memRead_eq_map (m : List Host.Cell) : ∀ n a, memRead m a n = (List.range n).map fun k => memGet m (a + k) := by
  intro n
  induction n with
  | zero => intro a; rfl
  | succ n ih =>
    intro a
    rw [memRead, ih, List.range_succ_eq_map, List.map_cons, List.map_map]
    refine congrArg₂ List.cons rfl (List.map_congr_left fun k _ => ?_)
    show memGet m (a + 1 + k) = memGet m (a + (k + 1))
    congr 1; omega

end Sys2Proof.Machine
end

