-- ==== Sys2Proof/Laws/State.lean ====
section
/-! SUPPORT. What each update of the state leaves as it was, field by field; every conjunct is a rewrite rule of its own. -/

namespace Sys2Proof.Machine

/-- `setReg` changes only `regs`. -/
@[simp] theorem setReg_fields (index sub v : Nat) (s : State) :
    (setReg index sub v s).pending = s.pending ∧ (setReg index sub v s).fresh = s.fresh ∧
    (setReg index sub v s).time = s.time ∧ (setReg index sub v s).outbox = s.outbox ∧
    (setReg index sub v s).counts = s.counts ∧ (setReg index sub v s).acked = s.acked ∧
    (setReg index sub v s).totals = s.totals ∧ (setReg index sub v s).paths = s.paths ∧
    (setReg index sub v s).lockNonce = s.lockNonce ∧ (setReg index sub v s).kept = s.kept ∧
    (setReg index sub v s).replies = s.replies ∧ (setReg index sub v s).tableJob = s.tableJob ∧
    (setReg index sub v s).modTable = s.modTable ∧ (setReg index sub v s).occupied = s.occupied ∧
    (setReg index sub v s).mtResult = s.mtResult ∧ (setReg index sub v s).chains = s.chains ∧
    (setReg index sub v s).cores = s.cores ∧ (setReg index sub v s).streams = s.streams ∧
    (setReg index sub v s).engines = s.engines ∧ (setReg index sub v s).seals = s.seals ∧
    (setReg index sub v s).sealFlight = s.sealFlight ∧ (setReg index sub v s).owed = s.owed ∧
    (setReg index sub v s).imports = s.imports ∧ (setReg index sub v s).envFlight = s.envFlight ∧
    (setReg index sub v s).receipts = s.receipts ∧ (setReg index sub v s).bursts = s.bursts ∧
    (setReg index sub v s).stampsBack = s.stampsBack ∧ (setReg index sub v s).contexts = s.contexts ∧
    (setReg index sub v s).opened = s.opened ∧ (setReg index sub v s).normalQ = s.normalQ ∧
    (setReg index sub v s).mapJobs = s.mapJobs ∧ (setReg index sub v s).relayJobs = s.relayJobs ∧
    (setReg index sub v s).misses = s.misses ∧ (setReg index sub v s).fetches = s.fetches ∧
    (setReg index sub v s).frames = s.frames ∧ (setReg index sub v s).mem = s.mem ∧ (setReg index sub v s).poison = s.poison ∧
    (setReg index sub v s).torn = s.torn ∧ (setReg index sub v s).spLatent = s.spLatent ∧
    (setReg index sub v s).hbmLatent = s.hbmLatent ∧ (setReg index sub v s).cacheLatent = s.cacheLatent ∧
    (setReg index sub v s).wrote = s.wrote ∧ (setReg index sub v s).wroteFar = s.wroteFar ∧
    (setReg index sub v s).replay = s.replay ∧ (setReg index sub v s).journal = s.journal ∧
    (setReg index sub v s).stretch = s.stretch ∧ (setReg index sub v s).fabricBad = s.fabricBad ∧
    (setReg index sub v s).hbm = s.hbm ∧ (setReg index sub v s).dies = s.dies ∧ (setReg index sub v s).flogSeq = s.flogSeq ∧
    (setReg index sub v s).syncId = s.syncId ∧ (setReg index sub v s).dbgStatus = s.dbgStatus ∧
    (setReg index sub v s).results = s.results ∧ (setReg index sub v s).sem = s.sem ∧ (setReg index sub v s).eths = s.eths ∧
    (setReg index sub v s).qps = s.qps ∧ (setReg index sub v s).links = s.links ∧ (setReg index sub v s).hier = s.hier ∧
    (setReg index sub v s).reads = s.reads ∧ (setReg index sub v s).readTag = s.readTag ∧
    (setReg index sub v s).asks = s.asks ∧ (setReg index sub v s).linkHeld = s.linkHeld ∧
    (setReg index sub v s).updRing = s.updRing ∧ (setReg index sub v s).updNext = s.updNext ∧
    (setReg index sub v s).updEarly = s.updEarly ∧ (setReg index sub v s).updPages = s.updPages ∧
    (setReg index sub v s).island = s.island ∧ (setReg index sub v s).fuses = s.fuses ∧
    (setReg index sub v s).flash = s.flash ∧ (setReg index sub v s).power = s.power ∧
    (setReg index sub v s).sideband = s.sideband := by
  and_intros <;> rfl

/-- `setCore` changes only `cores`. -/
@[simp] theorem setCore_fields (c : Nat) (f : Core → Core) (s : State) :
    (setCore c f s).pending = s.pending ∧ (setCore c f s).fresh = s.fresh ∧ (setCore c f s).time = s.time ∧
    (setCore c f s).outbox = s.outbox ∧ (setCore c f s).regs = s.regs ∧ (setCore c f s).counts = s.counts ∧
    (setCore c f s).acked = s.acked ∧ (setCore c f s).totals = s.totals ∧ (setCore c f s).paths = s.paths ∧
    (setCore c f s).lockNonce = s.lockNonce ∧ (setCore c f s).kept = s.kept ∧ (setCore c f s).replies = s.replies ∧
    (setCore c f s).tableJob = s.tableJob ∧ (setCore c f s).modTable = s.modTable ∧ (setCore c f s).occupied = s.occupied ∧
    (setCore c f s).mtResult = s.mtResult ∧ (setCore c f s).chains = s.chains ∧ (setCore c f s).streams = s.streams ∧
    (setCore c f s).engines = s.engines ∧ (setCore c f s).seals = s.seals ∧ (setCore c f s).sealFlight = s.sealFlight ∧
    (setCore c f s).owed = s.owed ∧ (setCore c f s).imports = s.imports ∧ (setCore c f s).envFlight = s.envFlight ∧
    (setCore c f s).receipts = s.receipts ∧ (setCore c f s).bursts = s.bursts ∧ (setCore c f s).stampsBack = s.stampsBack ∧
    (setCore c f s).contexts = s.contexts ∧ (setCore c f s).opened = s.opened ∧ (setCore c f s).normalQ = s.normalQ ∧
    (setCore c f s).mapJobs = s.mapJobs ∧ (setCore c f s).relayJobs = s.relayJobs ∧ (setCore c f s).misses = s.misses ∧
    (setCore c f s).fetches = s.fetches ∧ (setCore c f s).frames = s.frames ∧ (setCore c f s).mem = s.mem ∧
    (setCore c f s).poison = s.poison ∧ (setCore c f s).torn = s.torn ∧ (setCore c f s).spLatent = s.spLatent ∧
    (setCore c f s).hbmLatent = s.hbmLatent ∧ (setCore c f s).cacheLatent = s.cacheLatent ∧ (setCore c f s).wrote = s.wrote ∧
    (setCore c f s).wroteFar = s.wroteFar ∧ (setCore c f s).replay = s.replay ∧ (setCore c f s).journal = s.journal ∧
    (setCore c f s).stretch = s.stretch ∧ (setCore c f s).fabricBad = s.fabricBad ∧ (setCore c f s).hbm = s.hbm ∧
    (setCore c f s).dies = s.dies ∧ (setCore c f s).flogSeq = s.flogSeq ∧ (setCore c f s).syncId = s.syncId ∧
    (setCore c f s).dbgStatus = s.dbgStatus ∧ (setCore c f s).results = s.results ∧ (setCore c f s).sem = s.sem ∧
    (setCore c f s).eths = s.eths ∧ (setCore c f s).qps = s.qps ∧ (setCore c f s).links = s.links ∧
    (setCore c f s).hier = s.hier ∧ (setCore c f s).reads = s.reads ∧ (setCore c f s).readTag = s.readTag ∧
    (setCore c f s).asks = s.asks ∧ (setCore c f s).linkHeld = s.linkHeld ∧ (setCore c f s).updRing = s.updRing ∧
    (setCore c f s).updNext = s.updNext ∧ (setCore c f s).updEarly = s.updEarly ∧ (setCore c f s).updPages = s.updPages ∧
    (setCore c f s).island = s.island ∧ (setCore c f s).fuses = s.fuses ∧ (setCore c f s).flash = s.flash ∧
    (setCore c f s).power = s.power ∧ (setCore c f s).sideband = s.sideband := by
  and_intros <;> rfl

/-- `setStream` changes only `streams`. -/
@[simp] theorem setStream_fields (ctx c : Nat) (f : Stream → Stream) (s : State) :
    (setStream ctx c f s).pending = s.pending ∧ (setStream ctx c f s).fresh = s.fresh ∧ (setStream ctx c f s).time = s.time ∧
    (setStream ctx c f s).outbox = s.outbox ∧ (setStream ctx c f s).regs = s.regs ∧ (setStream ctx c f s).counts = s.counts ∧
    (setStream ctx c f s).acked = s.acked ∧ (setStream ctx c f s).totals = s.totals ∧ (setStream ctx c f s).paths = s.paths ∧
    (setStream ctx c f s).lockNonce = s.lockNonce ∧ (setStream ctx c f s).kept = s.kept ∧
    (setStream ctx c f s).replies = s.replies ∧ (setStream ctx c f s).tableJob = s.tableJob ∧
    (setStream ctx c f s).modTable = s.modTable ∧ (setStream ctx c f s).occupied = s.occupied ∧
    (setStream ctx c f s).mtResult = s.mtResult ∧ (setStream ctx c f s).chains = s.chains ∧
    (setStream ctx c f s).cores = s.cores ∧ (setStream ctx c f s).engines = s.engines ∧
    (setStream ctx c f s).seals = s.seals ∧ (setStream ctx c f s).sealFlight = s.sealFlight ∧
    (setStream ctx c f s).owed = s.owed ∧ (setStream ctx c f s).imports = s.imports ∧
    (setStream ctx c f s).envFlight = s.envFlight ∧ (setStream ctx c f s).receipts = s.receipts ∧
    (setStream ctx c f s).bursts = s.bursts ∧ (setStream ctx c f s).stampsBack = s.stampsBack ∧
    (setStream ctx c f s).contexts = s.contexts ∧ (setStream ctx c f s).opened = s.opened ∧
    (setStream ctx c f s).normalQ = s.normalQ ∧ (setStream ctx c f s).mapJobs = s.mapJobs ∧
    (setStream ctx c f s).relayJobs = s.relayJobs ∧ (setStream ctx c f s).misses = s.misses ∧
    (setStream ctx c f s).fetches = s.fetches ∧ (setStream ctx c f s).frames = s.frames ∧ (setStream ctx c f s).mem = s.mem ∧
    (setStream ctx c f s).poison = s.poison ∧ (setStream ctx c f s).torn = s.torn ∧
    (setStream ctx c f s).spLatent = s.spLatent ∧ (setStream ctx c f s).hbmLatent = s.hbmLatent ∧
    (setStream ctx c f s).cacheLatent = s.cacheLatent ∧ (setStream ctx c f s).wrote = s.wrote ∧
    (setStream ctx c f s).wroteFar = s.wroteFar ∧ (setStream ctx c f s).replay = s.replay ∧
    (setStream ctx c f s).journal = s.journal ∧ (setStream ctx c f s).stretch = s.stretch ∧
    (setStream ctx c f s).fabricBad = s.fabricBad ∧ (setStream ctx c f s).hbm = s.hbm ∧ (setStream ctx c f s).dies = s.dies ∧
    (setStream ctx c f s).flogSeq = s.flogSeq ∧ (setStream ctx c f s).syncId = s.syncId ∧
    (setStream ctx c f s).dbgStatus = s.dbgStatus ∧ (setStream ctx c f s).results = s.results ∧
    (setStream ctx c f s).sem = s.sem ∧ (setStream ctx c f s).eths = s.eths ∧ (setStream ctx c f s).qps = s.qps ∧
    (setStream ctx c f s).links = s.links ∧ (setStream ctx c f s).hier = s.hier ∧ (setStream ctx c f s).reads = s.reads ∧
    (setStream ctx c f s).readTag = s.readTag ∧ (setStream ctx c f s).asks = s.asks ∧
    (setStream ctx c f s).linkHeld = s.linkHeld ∧ (setStream ctx c f s).updRing = s.updRing ∧
    (setStream ctx c f s).updNext = s.updNext ∧ (setStream ctx c f s).updEarly = s.updEarly ∧
    (setStream ctx c f s).updPages = s.updPages ∧ (setStream ctx c f s).island = s.island ∧
    (setStream ctx c f s).fuses = s.fuses ∧ (setStream ctx c f s).flash = s.flash ∧ (setStream ctx c f s).power = s.power ∧
    (setStream ctx c f s).sideband = s.sideband := by
  and_intros <;> rfl

/-- `setContext` changes only `contexts`. -/
@[simp] theorem setContext_fields (ctx : Nat) (f : Context → Context) (s : State) :
    (setContext ctx f s).pending = s.pending ∧ (setContext ctx f s).fresh = s.fresh ∧ (setContext ctx f s).time = s.time ∧
    (setContext ctx f s).outbox = s.outbox ∧ (setContext ctx f s).regs = s.regs ∧ (setContext ctx f s).counts = s.counts ∧
    (setContext ctx f s).acked = s.acked ∧ (setContext ctx f s).totals = s.totals ∧ (setContext ctx f s).paths = s.paths ∧
    (setContext ctx f s).lockNonce = s.lockNonce ∧ (setContext ctx f s).kept = s.kept ∧
    (setContext ctx f s).replies = s.replies ∧ (setContext ctx f s).tableJob = s.tableJob ∧
    (setContext ctx f s).modTable = s.modTable ∧ (setContext ctx f s).occupied = s.occupied ∧
    (setContext ctx f s).mtResult = s.mtResult ∧ (setContext ctx f s).chains = s.chains ∧
    (setContext ctx f s).cores = s.cores ∧ (setContext ctx f s).streams = s.streams ∧
    (setContext ctx f s).engines = s.engines ∧ (setContext ctx f s).seals = s.seals ∧
    (setContext ctx f s).sealFlight = s.sealFlight ∧ (setContext ctx f s).owed = s.owed ∧
    (setContext ctx f s).imports = s.imports ∧ (setContext ctx f s).envFlight = s.envFlight ∧
    (setContext ctx f s).receipts = s.receipts ∧ (setContext ctx f s).bursts = s.bursts ∧
    (setContext ctx f s).stampsBack = s.stampsBack ∧ (setContext ctx f s).opened = s.opened ∧
    (setContext ctx f s).normalQ = s.normalQ ∧ (setContext ctx f s).mapJobs = s.mapJobs ∧
    (setContext ctx f s).relayJobs = s.relayJobs ∧ (setContext ctx f s).misses = s.misses ∧
    (setContext ctx f s).fetches = s.fetches ∧ (setContext ctx f s).frames = s.frames ∧ (setContext ctx f s).mem = s.mem ∧
    (setContext ctx f s).poison = s.poison ∧ (setContext ctx f s).torn = s.torn ∧ (setContext ctx f s).spLatent = s.spLatent ∧
    (setContext ctx f s).hbmLatent = s.hbmLatent ∧ (setContext ctx f s).cacheLatent = s.cacheLatent ∧
    (setContext ctx f s).wrote = s.wrote ∧ (setContext ctx f s).wroteFar = s.wroteFar ∧
    (setContext ctx f s).replay = s.replay ∧ (setContext ctx f s).journal = s.journal ∧
    (setContext ctx f s).stretch = s.stretch ∧ (setContext ctx f s).fabricBad = s.fabricBad ∧
    (setContext ctx f s).hbm = s.hbm ∧ (setContext ctx f s).dies = s.dies ∧ (setContext ctx f s).flogSeq = s.flogSeq ∧
    (setContext ctx f s).syncId = s.syncId ∧ (setContext ctx f s).dbgStatus = s.dbgStatus ∧
    (setContext ctx f s).results = s.results ∧ (setContext ctx f s).sem = s.sem ∧ (setContext ctx f s).eths = s.eths ∧
    (setContext ctx f s).qps = s.qps ∧ (setContext ctx f s).links = s.links ∧ (setContext ctx f s).hier = s.hier ∧
    (setContext ctx f s).reads = s.reads ∧ (setContext ctx f s).readTag = s.readTag ∧ (setContext ctx f s).asks = s.asks ∧
    (setContext ctx f s).linkHeld = s.linkHeld ∧ (setContext ctx f s).updRing = s.updRing ∧
    (setContext ctx f s).updNext = s.updNext ∧ (setContext ctx f s).updEarly = s.updEarly ∧
    (setContext ctx f s).updPages = s.updPages ∧ (setContext ctx f s).island = s.island ∧
    (setContext ctx f s).fuses = s.fuses ∧ (setContext ctx f s).flash = s.flash ∧ (setContext ctx f s).power = s.power ∧
    (setContext ctx f s).sideband = s.sideband := by
  and_intros <;> rfl

/-- `setDie` changes only `dies`. -/
@[simp] theorem setDie_fields (d : Nat) (f : Die → Die) (s : State) :
    (setDie d f s).pending = s.pending ∧ (setDie d f s).fresh = s.fresh ∧ (setDie d f s).time = s.time ∧
    (setDie d f s).outbox = s.outbox ∧ (setDie d f s).regs = s.regs ∧ (setDie d f s).counts = s.counts ∧
    (setDie d f s).acked = s.acked ∧ (setDie d f s).totals = s.totals ∧ (setDie d f s).paths = s.paths ∧
    (setDie d f s).lockNonce = s.lockNonce ∧ (setDie d f s).kept = s.kept ∧ (setDie d f s).replies = s.replies ∧
    (setDie d f s).tableJob = s.tableJob ∧ (setDie d f s).modTable = s.modTable ∧ (setDie d f s).occupied = s.occupied ∧
    (setDie d f s).mtResult = s.mtResult ∧ (setDie d f s).chains = s.chains ∧ (setDie d f s).cores = s.cores ∧
    (setDie d f s).streams = s.streams ∧ (setDie d f s).engines = s.engines ∧ (setDie d f s).seals = s.seals ∧
    (setDie d f s).sealFlight = s.sealFlight ∧ (setDie d f s).owed = s.owed ∧ (setDie d f s).imports = s.imports ∧
    (setDie d f s).envFlight = s.envFlight ∧ (setDie d f s).receipts = s.receipts ∧ (setDie d f s).bursts = s.bursts ∧
    (setDie d f s).stampsBack = s.stampsBack ∧ (setDie d f s).contexts = s.contexts ∧ (setDie d f s).opened = s.opened ∧
    (setDie d f s).normalQ = s.normalQ ∧ (setDie d f s).mapJobs = s.mapJobs ∧ (setDie d f s).relayJobs = s.relayJobs ∧
    (setDie d f s).misses = s.misses ∧ (setDie d f s).fetches = s.fetches ∧ (setDie d f s).frames = s.frames ∧
    (setDie d f s).mem = s.mem ∧ (setDie d f s).poison = s.poison ∧ (setDie d f s).torn = s.torn ∧
    (setDie d f s).spLatent = s.spLatent ∧ (setDie d f s).hbmLatent = s.hbmLatent ∧
    (setDie d f s).cacheLatent = s.cacheLatent ∧ (setDie d f s).wrote = s.wrote ∧ (setDie d f s).wroteFar = s.wroteFar ∧
    (setDie d f s).replay = s.replay ∧ (setDie d f s).journal = s.journal ∧ (setDie d f s).stretch = s.stretch ∧
    (setDie d f s).fabricBad = s.fabricBad ∧ (setDie d f s).hbm = s.hbm ∧ (setDie d f s).flogSeq = s.flogSeq ∧
    (setDie d f s).syncId = s.syncId ∧ (setDie d f s).dbgStatus = s.dbgStatus ∧ (setDie d f s).results = s.results ∧
    (setDie d f s).sem = s.sem ∧ (setDie d f s).eths = s.eths ∧ (setDie d f s).qps = s.qps ∧ (setDie d f s).links = s.links ∧
    (setDie d f s).hier = s.hier ∧ (setDie d f s).reads = s.reads ∧ (setDie d f s).readTag = s.readTag ∧
    (setDie d f s).asks = s.asks ∧ (setDie d f s).linkHeld = s.linkHeld ∧ (setDie d f s).updRing = s.updRing ∧
    (setDie d f s).updNext = s.updNext ∧ (setDie d f s).updEarly = s.updEarly ∧ (setDie d f s).updPages = s.updPages ∧
    (setDie d f s).island = s.island ∧ (setDie d f s).fuses = s.fuses ∧ (setDie d f s).flash = s.flash ∧
    (setDie d f s).power = s.power ∧ (setDie d f s).sideband = s.sideband := by
  and_intros <;> rfl

/-- `setStack` changes only `hbm`. -/
@[simp] theorem setStack_fields (k : Nat) (f : Stack → Stack) (s : State) :
    (setStack k f s).pending = s.pending ∧ (setStack k f s).fresh = s.fresh ∧ (setStack k f s).time = s.time ∧
    (setStack k f s).outbox = s.outbox ∧ (setStack k f s).regs = s.regs ∧ (setStack k f s).counts = s.counts ∧
    (setStack k f s).acked = s.acked ∧ (setStack k f s).totals = s.totals ∧ (setStack k f s).paths = s.paths ∧
    (setStack k f s).lockNonce = s.lockNonce ∧ (setStack k f s).kept = s.kept ∧ (setStack k f s).replies = s.replies ∧
    (setStack k f s).tableJob = s.tableJob ∧ (setStack k f s).modTable = s.modTable ∧ (setStack k f s).occupied = s.occupied ∧
    (setStack k f s).mtResult = s.mtResult ∧ (setStack k f s).chains = s.chains ∧ (setStack k f s).cores = s.cores ∧
    (setStack k f s).streams = s.streams ∧ (setStack k f s).engines = s.engines ∧ (setStack k f s).seals = s.seals ∧
    (setStack k f s).sealFlight = s.sealFlight ∧ (setStack k f s).owed = s.owed ∧ (setStack k f s).imports = s.imports ∧
    (setStack k f s).envFlight = s.envFlight ∧ (setStack k f s).receipts = s.receipts ∧ (setStack k f s).bursts = s.bursts ∧
    (setStack k f s).stampsBack = s.stampsBack ∧ (setStack k f s).contexts = s.contexts ∧ (setStack k f s).opened = s.opened ∧
    (setStack k f s).normalQ = s.normalQ ∧ (setStack k f s).mapJobs = s.mapJobs ∧ (setStack k f s).relayJobs = s.relayJobs ∧
    (setStack k f s).misses = s.misses ∧ (setStack k f s).fetches = s.fetches ∧ (setStack k f s).frames = s.frames ∧
    (setStack k f s).mem = s.mem ∧ (setStack k f s).poison = s.poison ∧ (setStack k f s).torn = s.torn ∧
    (setStack k f s).spLatent = s.spLatent ∧ (setStack k f s).hbmLatent = s.hbmLatent ∧
    (setStack k f s).cacheLatent = s.cacheLatent ∧ (setStack k f s).wrote = s.wrote ∧ (setStack k f s).wroteFar = s.wroteFar ∧
    (setStack k f s).replay = s.replay ∧ (setStack k f s).journal = s.journal ∧ (setStack k f s).stretch = s.stretch ∧
    (setStack k f s).fabricBad = s.fabricBad ∧ (setStack k f s).dies = s.dies ∧ (setStack k f s).flogSeq = s.flogSeq ∧
    (setStack k f s).syncId = s.syncId ∧ (setStack k f s).dbgStatus = s.dbgStatus ∧ (setStack k f s).results = s.results ∧
    (setStack k f s).sem = s.sem ∧ (setStack k f s).eths = s.eths ∧ (setStack k f s).qps = s.qps ∧
    (setStack k f s).links = s.links ∧ (setStack k f s).hier = s.hier ∧ (setStack k f s).reads = s.reads ∧
    (setStack k f s).readTag = s.readTag ∧ (setStack k f s).asks = s.asks ∧ (setStack k f s).linkHeld = s.linkHeld ∧
    (setStack k f s).updRing = s.updRing ∧ (setStack k f s).updNext = s.updNext ∧ (setStack k f s).updEarly = s.updEarly ∧
    (setStack k f s).updPages = s.updPages ∧ (setStack k f s).island = s.island ∧ (setStack k f s).fuses = s.fuses ∧
    (setStack k f s).flash = s.flash ∧ (setStack k f s).power = s.power ∧ (setStack k f s).sideband = s.sideband := by
  and_intros <;> rfl

/-- `setSeal` changes only `seals`. -/
@[simp] theorem setSeal_fields (p : Nat) (f : Seal → Seal) (s : State) :
    (setSeal p f s).pending = s.pending ∧ (setSeal p f s).fresh = s.fresh ∧ (setSeal p f s).time = s.time ∧
    (setSeal p f s).outbox = s.outbox ∧ (setSeal p f s).regs = s.regs ∧ (setSeal p f s).counts = s.counts ∧
    (setSeal p f s).acked = s.acked ∧ (setSeal p f s).totals = s.totals ∧ (setSeal p f s).paths = s.paths ∧
    (setSeal p f s).lockNonce = s.lockNonce ∧ (setSeal p f s).kept = s.kept ∧ (setSeal p f s).replies = s.replies ∧
    (setSeal p f s).tableJob = s.tableJob ∧ (setSeal p f s).modTable = s.modTable ∧ (setSeal p f s).occupied = s.occupied ∧
    (setSeal p f s).mtResult = s.mtResult ∧ (setSeal p f s).chains = s.chains ∧ (setSeal p f s).cores = s.cores ∧
    (setSeal p f s).streams = s.streams ∧ (setSeal p f s).engines = s.engines ∧ (setSeal p f s).sealFlight = s.sealFlight ∧
    (setSeal p f s).owed = s.owed ∧ (setSeal p f s).imports = s.imports ∧ (setSeal p f s).envFlight = s.envFlight ∧
    (setSeal p f s).receipts = s.receipts ∧ (setSeal p f s).bursts = s.bursts ∧ (setSeal p f s).stampsBack = s.stampsBack ∧
    (setSeal p f s).contexts = s.contexts ∧ (setSeal p f s).opened = s.opened ∧ (setSeal p f s).normalQ = s.normalQ ∧
    (setSeal p f s).mapJobs = s.mapJobs ∧ (setSeal p f s).relayJobs = s.relayJobs ∧ (setSeal p f s).misses = s.misses ∧
    (setSeal p f s).fetches = s.fetches ∧ (setSeal p f s).frames = s.frames ∧ (setSeal p f s).mem = s.mem ∧
    (setSeal p f s).poison = s.poison ∧ (setSeal p f s).torn = s.torn ∧ (setSeal p f s).spLatent = s.spLatent ∧
    (setSeal p f s).hbmLatent = s.hbmLatent ∧ (setSeal p f s).cacheLatent = s.cacheLatent ∧ (setSeal p f s).wrote = s.wrote ∧
    (setSeal p f s).wroteFar = s.wroteFar ∧ (setSeal p f s).replay = s.replay ∧ (setSeal p f s).journal = s.journal ∧
    (setSeal p f s).stretch = s.stretch ∧ (setSeal p f s).fabricBad = s.fabricBad ∧ (setSeal p f s).hbm = s.hbm ∧
    (setSeal p f s).dies = s.dies ∧ (setSeal p f s).flogSeq = s.flogSeq ∧ (setSeal p f s).syncId = s.syncId ∧
    (setSeal p f s).dbgStatus = s.dbgStatus ∧ (setSeal p f s).results = s.results ∧ (setSeal p f s).sem = s.sem ∧
    (setSeal p f s).eths = s.eths ∧ (setSeal p f s).qps = s.qps ∧ (setSeal p f s).links = s.links ∧
    (setSeal p f s).hier = s.hier ∧ (setSeal p f s).reads = s.reads ∧ (setSeal p f s).readTag = s.readTag ∧
    (setSeal p f s).asks = s.asks ∧ (setSeal p f s).linkHeld = s.linkHeld ∧ (setSeal p f s).updRing = s.updRing ∧
    (setSeal p f s).updNext = s.updNext ∧ (setSeal p f s).updEarly = s.updEarly ∧ (setSeal p f s).updPages = s.updPages ∧
    (setSeal p f s).island = s.island ∧ (setSeal p f s).fuses = s.fuses ∧ (setSeal p f s).flash = s.flash ∧
    (setSeal p f s).power = s.power ∧ (setSeal p f s).sideband = s.sideband := by
  and_intros <;> rfl

/-- `setIsland` changes only `island`. -/
@[simp] theorem setIsland_fields (f : Island → Island) (s : State) :
    (setIsland f s).pending = s.pending ∧ (setIsland f s).fresh = s.fresh ∧ (setIsland f s).time = s.time ∧
    (setIsland f s).outbox = s.outbox ∧ (setIsland f s).regs = s.regs ∧ (setIsland f s).counts = s.counts ∧
    (setIsland f s).acked = s.acked ∧ (setIsland f s).totals = s.totals ∧ (setIsland f s).paths = s.paths ∧
    (setIsland f s).lockNonce = s.lockNonce ∧ (setIsland f s).kept = s.kept ∧ (setIsland f s).replies = s.replies ∧
    (setIsland f s).tableJob = s.tableJob ∧ (setIsland f s).modTable = s.modTable ∧ (setIsland f s).occupied = s.occupied ∧
    (setIsland f s).mtResult = s.mtResult ∧ (setIsland f s).chains = s.chains ∧ (setIsland f s).cores = s.cores ∧
    (setIsland f s).streams = s.streams ∧ (setIsland f s).engines = s.engines ∧ (setIsland f s).seals = s.seals ∧
    (setIsland f s).sealFlight = s.sealFlight ∧ (setIsland f s).owed = s.owed ∧ (setIsland f s).imports = s.imports ∧
    (setIsland f s).envFlight = s.envFlight ∧ (setIsland f s).receipts = s.receipts ∧ (setIsland f s).bursts = s.bursts ∧
    (setIsland f s).stampsBack = s.stampsBack ∧ (setIsland f s).contexts = s.contexts ∧ (setIsland f s).opened = s.opened ∧
    (setIsland f s).normalQ = s.normalQ ∧ (setIsland f s).mapJobs = s.mapJobs ∧ (setIsland f s).relayJobs = s.relayJobs ∧
    (setIsland f s).misses = s.misses ∧ (setIsland f s).fetches = s.fetches ∧ (setIsland f s).frames = s.frames ∧
    (setIsland f s).mem = s.mem ∧ (setIsland f s).poison = s.poison ∧ (setIsland f s).torn = s.torn ∧
    (setIsland f s).spLatent = s.spLatent ∧ (setIsland f s).hbmLatent = s.hbmLatent ∧
    (setIsland f s).cacheLatent = s.cacheLatent ∧ (setIsland f s).wrote = s.wrote ∧ (setIsland f s).wroteFar = s.wroteFar ∧
    (setIsland f s).replay = s.replay ∧ (setIsland f s).journal = s.journal ∧ (setIsland f s).stretch = s.stretch ∧
    (setIsland f s).fabricBad = s.fabricBad ∧ (setIsland f s).hbm = s.hbm ∧ (setIsland f s).dies = s.dies ∧
    (setIsland f s).flogSeq = s.flogSeq ∧ (setIsland f s).syncId = s.syncId ∧ (setIsland f s).dbgStatus = s.dbgStatus ∧
    (setIsland f s).results = s.results ∧ (setIsland f s).sem = s.sem ∧ (setIsland f s).eths = s.eths ∧
    (setIsland f s).qps = s.qps ∧ (setIsland f s).links = s.links ∧ (setIsland f s).hier = s.hier ∧
    (setIsland f s).reads = s.reads ∧ (setIsland f s).readTag = s.readTag ∧ (setIsland f s).asks = s.asks ∧
    (setIsland f s).linkHeld = s.linkHeld ∧ (setIsland f s).updRing = s.updRing ∧ (setIsland f s).updNext = s.updNext ∧
    (setIsland f s).updEarly = s.updEarly ∧ (setIsland f s).updPages = s.updPages ∧ (setIsland f s).fuses = s.fuses ∧
    (setIsland f s).flash = s.flash ∧ (setIsland f s).power = s.power ∧ (setIsland f s).sideband = s.sideband := by
  and_intros <;> rfl

/-- `setPower` changes only `power`. -/
@[simp] theorem setPower_fields (f : Power → Power) (s : State) :
    (setPower f s).pending = s.pending ∧ (setPower f s).fresh = s.fresh ∧ (setPower f s).time = s.time ∧
    (setPower f s).outbox = s.outbox ∧ (setPower f s).regs = s.regs ∧ (setPower f s).counts = s.counts ∧
    (setPower f s).acked = s.acked ∧ (setPower f s).totals = s.totals ∧ (setPower f s).paths = s.paths ∧
    (setPower f s).lockNonce = s.lockNonce ∧ (setPower f s).kept = s.kept ∧ (setPower f s).replies = s.replies ∧
    (setPower f s).tableJob = s.tableJob ∧ (setPower f s).modTable = s.modTable ∧ (setPower f s).occupied = s.occupied ∧
    (setPower f s).mtResult = s.mtResult ∧ (setPower f s).chains = s.chains ∧ (setPower f s).cores = s.cores ∧
    (setPower f s).streams = s.streams ∧ (setPower f s).engines = s.engines ∧ (setPower f s).seals = s.seals ∧
    (setPower f s).sealFlight = s.sealFlight ∧ (setPower f s).owed = s.owed ∧ (setPower f s).imports = s.imports ∧
    (setPower f s).envFlight = s.envFlight ∧ (setPower f s).receipts = s.receipts ∧ (setPower f s).bursts = s.bursts ∧
    (setPower f s).stampsBack = s.stampsBack ∧ (setPower f s).contexts = s.contexts ∧ (setPower f s).opened = s.opened ∧
    (setPower f s).normalQ = s.normalQ ∧ (setPower f s).mapJobs = s.mapJobs ∧ (setPower f s).relayJobs = s.relayJobs ∧
    (setPower f s).misses = s.misses ∧ (setPower f s).fetches = s.fetches ∧ (setPower f s).frames = s.frames ∧
    (setPower f s).mem = s.mem ∧ (setPower f s).poison = s.poison ∧ (setPower f s).torn = s.torn ∧
    (setPower f s).spLatent = s.spLatent ∧ (setPower f s).hbmLatent = s.hbmLatent ∧
    (setPower f s).cacheLatent = s.cacheLatent ∧ (setPower f s).wrote = s.wrote ∧ (setPower f s).wroteFar = s.wroteFar ∧
    (setPower f s).replay = s.replay ∧ (setPower f s).journal = s.journal ∧ (setPower f s).stretch = s.stretch ∧
    (setPower f s).fabricBad = s.fabricBad ∧ (setPower f s).hbm = s.hbm ∧ (setPower f s).dies = s.dies ∧
    (setPower f s).flogSeq = s.flogSeq ∧ (setPower f s).syncId = s.syncId ∧ (setPower f s).dbgStatus = s.dbgStatus ∧
    (setPower f s).results = s.results ∧ (setPower f s).sem = s.sem ∧ (setPower f s).eths = s.eths ∧
    (setPower f s).qps = s.qps ∧ (setPower f s).links = s.links ∧ (setPower f s).hier = s.hier ∧
    (setPower f s).reads = s.reads ∧ (setPower f s).readTag = s.readTag ∧ (setPower f s).asks = s.asks ∧
    (setPower f s).linkHeld = s.linkHeld ∧ (setPower f s).updRing = s.updRing ∧ (setPower f s).updNext = s.updNext ∧
    (setPower f s).updEarly = s.updEarly ∧ (setPower f s).updPages = s.updPages ∧ (setPower f s).island = s.island ∧
    (setPower f s).fuses = s.fuses ∧ (setPower f s).flash = s.flash ∧ (setPower f s).sideband = s.sideband := by
  and_intros <;> rfl

/-- `setPath` changes only `paths`. -/
@[simp] theorem setPath_fields (p : Path) (f : PathState → PathState) (s : State) :
    (setPath p f s).pending = s.pending ∧ (setPath p f s).fresh = s.fresh ∧ (setPath p f s).time = s.time ∧
    (setPath p f s).outbox = s.outbox ∧ (setPath p f s).regs = s.regs ∧ (setPath p f s).counts = s.counts ∧
    (setPath p f s).acked = s.acked ∧ (setPath p f s).totals = s.totals ∧ (setPath p f s).lockNonce = s.lockNonce ∧
    (setPath p f s).kept = s.kept ∧ (setPath p f s).replies = s.replies ∧ (setPath p f s).tableJob = s.tableJob ∧
    (setPath p f s).modTable = s.modTable ∧ (setPath p f s).occupied = s.occupied ∧ (setPath p f s).mtResult = s.mtResult ∧
    (setPath p f s).chains = s.chains ∧ (setPath p f s).cores = s.cores ∧ (setPath p f s).streams = s.streams ∧
    (setPath p f s).engines = s.engines ∧ (setPath p f s).seals = s.seals ∧ (setPath p f s).sealFlight = s.sealFlight ∧
    (setPath p f s).owed = s.owed ∧ (setPath p f s).imports = s.imports ∧ (setPath p f s).envFlight = s.envFlight ∧
    (setPath p f s).receipts = s.receipts ∧ (setPath p f s).bursts = s.bursts ∧ (setPath p f s).stampsBack = s.stampsBack ∧
    (setPath p f s).contexts = s.contexts ∧ (setPath p f s).opened = s.opened ∧ (setPath p f s).normalQ = s.normalQ ∧
    (setPath p f s).mapJobs = s.mapJobs ∧ (setPath p f s).relayJobs = s.relayJobs ∧ (setPath p f s).misses = s.misses ∧
    (setPath p f s).fetches = s.fetches ∧ (setPath p f s).frames = s.frames ∧ (setPath p f s).mem = s.mem ∧
    (setPath p f s).poison = s.poison ∧ (setPath p f s).torn = s.torn ∧ (setPath p f s).spLatent = s.spLatent ∧
    (setPath p f s).hbmLatent = s.hbmLatent ∧ (setPath p f s).cacheLatent = s.cacheLatent ∧ (setPath p f s).wrote = s.wrote ∧
    (setPath p f s).wroteFar = s.wroteFar ∧ (setPath p f s).replay = s.replay ∧ (setPath p f s).journal = s.journal ∧
    (setPath p f s).stretch = s.stretch ∧ (setPath p f s).fabricBad = s.fabricBad ∧ (setPath p f s).hbm = s.hbm ∧
    (setPath p f s).dies = s.dies ∧ (setPath p f s).flogSeq = s.flogSeq ∧ (setPath p f s).syncId = s.syncId ∧
    (setPath p f s).dbgStatus = s.dbgStatus ∧ (setPath p f s).results = s.results ∧ (setPath p f s).sem = s.sem ∧
    (setPath p f s).eths = s.eths ∧ (setPath p f s).qps = s.qps ∧ (setPath p f s).links = s.links ∧
    (setPath p f s).hier = s.hier ∧ (setPath p f s).reads = s.reads ∧ (setPath p f s).readTag = s.readTag ∧
    (setPath p f s).asks = s.asks ∧ (setPath p f s).linkHeld = s.linkHeld ∧ (setPath p f s).updRing = s.updRing ∧
    (setPath p f s).updNext = s.updNext ∧ (setPath p f s).updEarly = s.updEarly ∧ (setPath p f s).updPages = s.updPages ∧
    (setPath p f s).island = s.island ∧ (setPath p f s).fuses = s.fuses ∧ (setPath p f s).flash = s.flash ∧
    (setPath p f s).power = s.power ∧ (setPath p f s).sideband = s.sideband := by
  and_intros <;> rfl

/-- `setEth` changes only `eths`. -/
@[simp] theorem setEth_fields (p : Nat) (f : EthPort → EthPort) (s : State) :
    (setEth p f s).pending = s.pending ∧ (setEth p f s).fresh = s.fresh ∧ (setEth p f s).time = s.time ∧
    (setEth p f s).outbox = s.outbox ∧ (setEth p f s).regs = s.regs ∧ (setEth p f s).counts = s.counts ∧
    (setEth p f s).acked = s.acked ∧ (setEth p f s).totals = s.totals ∧ (setEth p f s).paths = s.paths ∧
    (setEth p f s).lockNonce = s.lockNonce ∧ (setEth p f s).kept = s.kept ∧ (setEth p f s).replies = s.replies ∧
    (setEth p f s).tableJob = s.tableJob ∧ (setEth p f s).modTable = s.modTable ∧ (setEth p f s).occupied = s.occupied ∧
    (setEth p f s).mtResult = s.mtResult ∧ (setEth p f s).chains = s.chains ∧ (setEth p f s).cores = s.cores ∧
    (setEth p f s).streams = s.streams ∧ (setEth p f s).engines = s.engines ∧ (setEth p f s).seals = s.seals ∧
    (setEth p f s).sealFlight = s.sealFlight ∧ (setEth p f s).owed = s.owed ∧ (setEth p f s).imports = s.imports ∧
    (setEth p f s).envFlight = s.envFlight ∧ (setEth p f s).receipts = s.receipts ∧ (setEth p f s).bursts = s.bursts ∧
    (setEth p f s).stampsBack = s.stampsBack ∧ (setEth p f s).contexts = s.contexts ∧ (setEth p f s).opened = s.opened ∧
    (setEth p f s).normalQ = s.normalQ ∧ (setEth p f s).mapJobs = s.mapJobs ∧ (setEth p f s).relayJobs = s.relayJobs ∧
    (setEth p f s).misses = s.misses ∧ (setEth p f s).fetches = s.fetches ∧ (setEth p f s).frames = s.frames ∧
    (setEth p f s).mem = s.mem ∧ (setEth p f s).poison = s.poison ∧ (setEth p f s).torn = s.torn ∧
    (setEth p f s).spLatent = s.spLatent ∧ (setEth p f s).hbmLatent = s.hbmLatent ∧
    (setEth p f s).cacheLatent = s.cacheLatent ∧ (setEth p f s).wrote = s.wrote ∧ (setEth p f s).wroteFar = s.wroteFar ∧
    (setEth p f s).replay = s.replay ∧ (setEth p f s).journal = s.journal ∧ (setEth p f s).stretch = s.stretch ∧
    (setEth p f s).fabricBad = s.fabricBad ∧ (setEth p f s).hbm = s.hbm ∧ (setEth p f s).dies = s.dies ∧
    (setEth p f s).flogSeq = s.flogSeq ∧ (setEth p f s).syncId = s.syncId ∧ (setEth p f s).dbgStatus = s.dbgStatus ∧
    (setEth p f s).results = s.results ∧ (setEth p f s).sem = s.sem ∧ (setEth p f s).qps = s.qps ∧
    (setEth p f s).links = s.links ∧ (setEth p f s).hier = s.hier ∧ (setEth p f s).reads = s.reads ∧
    (setEth p f s).readTag = s.readTag ∧ (setEth p f s).asks = s.asks ∧ (setEth p f s).linkHeld = s.linkHeld ∧
    (setEth p f s).updRing = s.updRing ∧ (setEth p f s).updNext = s.updNext ∧ (setEth p f s).updEarly = s.updEarly ∧
    (setEth p f s).updPages = s.updPages ∧ (setEth p f s).island = s.island ∧ (setEth p f s).fuses = s.fuses ∧
    (setEth p f s).flash = s.flash ∧ (setEth p f s).power = s.power ∧ (setEth p f s).sideband = s.sideband := by
  and_intros <;> rfl

/-- `setLink` changes only `links`. -/
@[simp] theorem setLink_fields (p : Nat) (f : LinkPort → LinkPort) (s : State) :
    (setLink p f s).pending = s.pending ∧ (setLink p f s).fresh = s.fresh ∧ (setLink p f s).time = s.time ∧
    (setLink p f s).outbox = s.outbox ∧ (setLink p f s).regs = s.regs ∧ (setLink p f s).counts = s.counts ∧
    (setLink p f s).acked = s.acked ∧ (setLink p f s).totals = s.totals ∧ (setLink p f s).paths = s.paths ∧
    (setLink p f s).lockNonce = s.lockNonce ∧ (setLink p f s).kept = s.kept ∧ (setLink p f s).replies = s.replies ∧
    (setLink p f s).tableJob = s.tableJob ∧ (setLink p f s).modTable = s.modTable ∧ (setLink p f s).occupied = s.occupied ∧
    (setLink p f s).mtResult = s.mtResult ∧ (setLink p f s).chains = s.chains ∧ (setLink p f s).cores = s.cores ∧
    (setLink p f s).streams = s.streams ∧ (setLink p f s).engines = s.engines ∧ (setLink p f s).seals = s.seals ∧
    (setLink p f s).sealFlight = s.sealFlight ∧ (setLink p f s).owed = s.owed ∧ (setLink p f s).imports = s.imports ∧
    (setLink p f s).envFlight = s.envFlight ∧ (setLink p f s).receipts = s.receipts ∧ (setLink p f s).bursts = s.bursts ∧
    (setLink p f s).stampsBack = s.stampsBack ∧ (setLink p f s).contexts = s.contexts ∧ (setLink p f s).opened = s.opened ∧
    (setLink p f s).normalQ = s.normalQ ∧ (setLink p f s).mapJobs = s.mapJobs ∧ (setLink p f s).relayJobs = s.relayJobs ∧
    (setLink p f s).misses = s.misses ∧ (setLink p f s).fetches = s.fetches ∧ (setLink p f s).frames = s.frames ∧
    (setLink p f s).mem = s.mem ∧ (setLink p f s).poison = s.poison ∧ (setLink p f s).torn = s.torn ∧
    (setLink p f s).spLatent = s.spLatent ∧ (setLink p f s).hbmLatent = s.hbmLatent ∧
    (setLink p f s).cacheLatent = s.cacheLatent ∧ (setLink p f s).wrote = s.wrote ∧ (setLink p f s).wroteFar = s.wroteFar ∧
    (setLink p f s).replay = s.replay ∧ (setLink p f s).journal = s.journal ∧ (setLink p f s).stretch = s.stretch ∧
    (setLink p f s).fabricBad = s.fabricBad ∧ (setLink p f s).hbm = s.hbm ∧ (setLink p f s).dies = s.dies ∧
    (setLink p f s).flogSeq = s.flogSeq ∧ (setLink p f s).syncId = s.syncId ∧ (setLink p f s).dbgStatus = s.dbgStatus ∧
    (setLink p f s).results = s.results ∧ (setLink p f s).sem = s.sem ∧ (setLink p f s).eths = s.eths ∧
    (setLink p f s).qps = s.qps ∧ (setLink p f s).hier = s.hier ∧ (setLink p f s).reads = s.reads ∧
    (setLink p f s).readTag = s.readTag ∧ (setLink p f s).asks = s.asks ∧ (setLink p f s).linkHeld = s.linkHeld ∧
    (setLink p f s).updRing = s.updRing ∧ (setLink p f s).updNext = s.updNext ∧ (setLink p f s).updEarly = s.updEarly ∧
    (setLink p f s).updPages = s.updPages ∧ (setLink p f s).island = s.island ∧ (setLink p f s).fuses = s.fuses ∧
    (setLink p f s).flash = s.flash ∧ (setLink p f s).power = s.power ∧ (setLink p f s).sideband = s.sideband := by
  and_intros <;> rfl

/-- `setChain` changes only `chains`. -/
@[simp] theorem setChain_fields (k : Nat) (f : ChainSlot → ChainSlot) (s : State) :
    (setChain k f s).pending = s.pending ∧ (setChain k f s).fresh = s.fresh ∧ (setChain k f s).time = s.time ∧
    (setChain k f s).outbox = s.outbox ∧ (setChain k f s).regs = s.regs ∧ (setChain k f s).counts = s.counts ∧
    (setChain k f s).acked = s.acked ∧ (setChain k f s).totals = s.totals ∧ (setChain k f s).paths = s.paths ∧
    (setChain k f s).lockNonce = s.lockNonce ∧ (setChain k f s).kept = s.kept ∧ (setChain k f s).replies = s.replies ∧
    (setChain k f s).tableJob = s.tableJob ∧ (setChain k f s).modTable = s.modTable ∧ (setChain k f s).occupied = s.occupied ∧
    (setChain k f s).mtResult = s.mtResult ∧ (setChain k f s).cores = s.cores ∧ (setChain k f s).streams = s.streams ∧
    (setChain k f s).engines = s.engines ∧ (setChain k f s).seals = s.seals ∧ (setChain k f s).sealFlight = s.sealFlight ∧
    (setChain k f s).owed = s.owed ∧ (setChain k f s).imports = s.imports ∧ (setChain k f s).envFlight = s.envFlight ∧
    (setChain k f s).receipts = s.receipts ∧ (setChain k f s).bursts = s.bursts ∧ (setChain k f s).stampsBack = s.stampsBack ∧
    (setChain k f s).contexts = s.contexts ∧ (setChain k f s).opened = s.opened ∧ (setChain k f s).normalQ = s.normalQ ∧
    (setChain k f s).mapJobs = s.mapJobs ∧ (setChain k f s).relayJobs = s.relayJobs ∧ (setChain k f s).misses = s.misses ∧
    (setChain k f s).fetches = s.fetches ∧ (setChain k f s).frames = s.frames ∧ (setChain k f s).mem = s.mem ∧
    (setChain k f s).poison = s.poison ∧ (setChain k f s).torn = s.torn ∧ (setChain k f s).spLatent = s.spLatent ∧
    (setChain k f s).hbmLatent = s.hbmLatent ∧ (setChain k f s).cacheLatent = s.cacheLatent ∧
    (setChain k f s).wrote = s.wrote ∧ (setChain k f s).wroteFar = s.wroteFar ∧ (setChain k f s).replay = s.replay ∧
    (setChain k f s).journal = s.journal ∧ (setChain k f s).stretch = s.stretch ∧ (setChain k f s).fabricBad = s.fabricBad ∧
    (setChain k f s).hbm = s.hbm ∧ (setChain k f s).dies = s.dies ∧ (setChain k f s).flogSeq = s.flogSeq ∧
    (setChain k f s).syncId = s.syncId ∧ (setChain k f s).dbgStatus = s.dbgStatus ∧ (setChain k f s).results = s.results ∧
    (setChain k f s).sem = s.sem ∧ (setChain k f s).eths = s.eths ∧ (setChain k f s).qps = s.qps ∧
    (setChain k f s).links = s.links ∧ (setChain k f s).hier = s.hier ∧ (setChain k f s).reads = s.reads ∧
    (setChain k f s).readTag = s.readTag ∧ (setChain k f s).asks = s.asks ∧ (setChain k f s).linkHeld = s.linkHeld ∧
    (setChain k f s).updRing = s.updRing ∧ (setChain k f s).updNext = s.updNext ∧ (setChain k f s).updEarly = s.updEarly ∧
    (setChain k f s).updPages = s.updPages ∧ (setChain k f s).island = s.island ∧ (setChain k f s).fuses = s.fuses ∧
    (setChain k f s).flash = s.flash ∧ (setChain k f s).power = s.power ∧ (setChain k f s).sideband = s.sideband := by
  and_intros <;> rfl

/-- `setEngine` changes only `engines`. -/
@[simp] theorem setEngine_fields (r : Nat) (f : StreamEngine → StreamEngine) (s : State) :
    (setEngine r f s).pending = s.pending ∧ (setEngine r f s).fresh = s.fresh ∧ (setEngine r f s).time = s.time ∧
    (setEngine r f s).outbox = s.outbox ∧ (setEngine r f s).regs = s.regs ∧ (setEngine r f s).counts = s.counts ∧
    (setEngine r f s).acked = s.acked ∧ (setEngine r f s).totals = s.totals ∧ (setEngine r f s).paths = s.paths ∧
    (setEngine r f s).lockNonce = s.lockNonce ∧ (setEngine r f s).kept = s.kept ∧ (setEngine r f s).replies = s.replies ∧
    (setEngine r f s).tableJob = s.tableJob ∧ (setEngine r f s).modTable = s.modTable ∧
    (setEngine r f s).occupied = s.occupied ∧ (setEngine r f s).mtResult = s.mtResult ∧ (setEngine r f s).chains = s.chains ∧
    (setEngine r f s).cores = s.cores ∧ (setEngine r f s).streams = s.streams ∧ (setEngine r f s).seals = s.seals ∧
    (setEngine r f s).sealFlight = s.sealFlight ∧ (setEngine r f s).owed = s.owed ∧ (setEngine r f s).imports = s.imports ∧
    (setEngine r f s).envFlight = s.envFlight ∧ (setEngine r f s).receipts = s.receipts ∧
    (setEngine r f s).bursts = s.bursts ∧ (setEngine r f s).stampsBack = s.stampsBack ∧
    (setEngine r f s).contexts = s.contexts ∧ (setEngine r f s).opened = s.opened ∧ (setEngine r f s).normalQ = s.normalQ ∧
    (setEngine r f s).mapJobs = s.mapJobs ∧ (setEngine r f s).relayJobs = s.relayJobs ∧ (setEngine r f s).misses = s.misses ∧
    (setEngine r f s).fetches = s.fetches ∧ (setEngine r f s).frames = s.frames ∧ (setEngine r f s).mem = s.mem ∧
    (setEngine r f s).poison = s.poison ∧ (setEngine r f s).torn = s.torn ∧ (setEngine r f s).spLatent = s.spLatent ∧
    (setEngine r f s).hbmLatent = s.hbmLatent ∧ (setEngine r f s).cacheLatent = s.cacheLatent ∧
    (setEngine r f s).wrote = s.wrote ∧ (setEngine r f s).wroteFar = s.wroteFar ∧ (setEngine r f s).replay = s.replay ∧
    (setEngine r f s).journal = s.journal ∧ (setEngine r f s).stretch = s.stretch ∧
    (setEngine r f s).fabricBad = s.fabricBad ∧ (setEngine r f s).hbm = s.hbm ∧ (setEngine r f s).dies = s.dies ∧
    (setEngine r f s).flogSeq = s.flogSeq ∧ (setEngine r f s).syncId = s.syncId ∧ (setEngine r f s).dbgStatus = s.dbgStatus ∧
    (setEngine r f s).results = s.results ∧ (setEngine r f s).sem = s.sem ∧ (setEngine r f s).eths = s.eths ∧
    (setEngine r f s).qps = s.qps ∧ (setEngine r f s).links = s.links ∧ (setEngine r f s).hier = s.hier ∧
    (setEngine r f s).reads = s.reads ∧ (setEngine r f s).readTag = s.readTag ∧ (setEngine r f s).asks = s.asks ∧
    (setEngine r f s).linkHeld = s.linkHeld ∧ (setEngine r f s).updRing = s.updRing ∧ (setEngine r f s).updNext = s.updNext ∧
    (setEngine r f s).updEarly = s.updEarly ∧ (setEngine r f s).updPages = s.updPages ∧ (setEngine r f s).island = s.island ∧
    (setEngine r f s).fuses = s.fuses ∧ (setEngine r f s).flash = s.flash ∧ (setEngine r f s).power = s.power ∧
    (setEngine r f s).sideband = s.sideband := by
  and_intros <;> rfl

/-- `addTotal` changes only `totals`. -/
@[simp] theorem addTotal_fields (index sub n : Nat) (s : State) :
    (addTotal index sub n s).pending = s.pending ∧ (addTotal index sub n s).fresh = s.fresh ∧
    (addTotal index sub n s).time = s.time ∧ (addTotal index sub n s).outbox = s.outbox ∧
    (addTotal index sub n s).regs = s.regs ∧ (addTotal index sub n s).counts = s.counts ∧
    (addTotal index sub n s).acked = s.acked ∧ (addTotal index sub n s).paths = s.paths ∧
    (addTotal index sub n s).lockNonce = s.lockNonce ∧ (addTotal index sub n s).kept = s.kept ∧
    (addTotal index sub n s).replies = s.replies ∧ (addTotal index sub n s).tableJob = s.tableJob ∧
    (addTotal index sub n s).modTable = s.modTable ∧ (addTotal index sub n s).occupied = s.occupied ∧
    (addTotal index sub n s).mtResult = s.mtResult ∧ (addTotal index sub n s).chains = s.chains ∧
    (addTotal index sub n s).cores = s.cores ∧ (addTotal index sub n s).streams = s.streams ∧
    (addTotal index sub n s).engines = s.engines ∧ (addTotal index sub n s).seals = s.seals ∧
    (addTotal index sub n s).sealFlight = s.sealFlight ∧ (addTotal index sub n s).owed = s.owed ∧
    (addTotal index sub n s).imports = s.imports ∧ (addTotal index sub n s).envFlight = s.envFlight ∧
    (addTotal index sub n s).receipts = s.receipts ∧ (addTotal index sub n s).bursts = s.bursts ∧
    (addTotal index sub n s).stampsBack = s.stampsBack ∧ (addTotal index sub n s).contexts = s.contexts ∧
    (addTotal index sub n s).opened = s.opened ∧ (addTotal index sub n s).normalQ = s.normalQ ∧
    (addTotal index sub n s).mapJobs = s.mapJobs ∧ (addTotal index sub n s).relayJobs = s.relayJobs ∧
    (addTotal index sub n s).misses = s.misses ∧ (addTotal index sub n s).fetches = s.fetches ∧
    (addTotal index sub n s).frames = s.frames ∧ (addTotal index sub n s).mem = s.mem ∧
    (addTotal index sub n s).poison = s.poison ∧ (addTotal index sub n s).torn = s.torn ∧
    (addTotal index sub n s).spLatent = s.spLatent ∧ (addTotal index sub n s).hbmLatent = s.hbmLatent ∧
    (addTotal index sub n s).cacheLatent = s.cacheLatent ∧ (addTotal index sub n s).wrote = s.wrote ∧
    (addTotal index sub n s).wroteFar = s.wroteFar ∧ (addTotal index sub n s).replay = s.replay ∧
    (addTotal index sub n s).journal = s.journal ∧ (addTotal index sub n s).stretch = s.stretch ∧
    (addTotal index sub n s).fabricBad = s.fabricBad ∧ (addTotal index sub n s).hbm = s.hbm ∧
    (addTotal index sub n s).dies = s.dies ∧ (addTotal index sub n s).flogSeq = s.flogSeq ∧
    (addTotal index sub n s).syncId = s.syncId ∧ (addTotal index sub n s).dbgStatus = s.dbgStatus ∧
    (addTotal index sub n s).results = s.results ∧ (addTotal index sub n s).sem = s.sem ∧
    (addTotal index sub n s).eths = s.eths ∧ (addTotal index sub n s).qps = s.qps ∧ (addTotal index sub n s).links = s.links ∧
    (addTotal index sub n s).hier = s.hier ∧ (addTotal index sub n s).reads = s.reads ∧
    (addTotal index sub n s).readTag = s.readTag ∧ (addTotal index sub n s).asks = s.asks ∧
    (addTotal index sub n s).linkHeld = s.linkHeld ∧ (addTotal index sub n s).updRing = s.updRing ∧
    (addTotal index sub n s).updNext = s.updNext ∧ (addTotal index sub n s).updEarly = s.updEarly ∧
    (addTotal index sub n s).updPages = s.updPages ∧ (addTotal index sub n s).island = s.island ∧
    (addTotal index sub n s).fuses = s.fuses ∧ (addTotal index sub n s).flash = s.flash ∧
    (addTotal index sub n s).power = s.power ∧ (addTotal index sub n s).sideband = s.sideband := by
  and_intros <;> rfl

/-- `bump` changes at most `counts`. -/
@[simp] theorem bump_fields (k : Nat) (s : State) :
    (bump k s).pending = s.pending ∧ (bump k s).fresh = s.fresh ∧ (bump k s).time = s.time ∧ (bump k s).outbox = s.outbox ∧
    (bump k s).regs = s.regs ∧ (bump k s).acked = s.acked ∧ (bump k s).totals = s.totals ∧ (bump k s).paths = s.paths ∧
    (bump k s).lockNonce = s.lockNonce ∧ (bump k s).kept = s.kept ∧ (bump k s).replies = s.replies ∧
    (bump k s).tableJob = s.tableJob ∧ (bump k s).modTable = s.modTable ∧ (bump k s).occupied = s.occupied ∧
    (bump k s).mtResult = s.mtResult ∧ (bump k s).chains = s.chains ∧ (bump k s).cores = s.cores ∧
    (bump k s).streams = s.streams ∧ (bump k s).engines = s.engines ∧ (bump k s).seals = s.seals ∧
    (bump k s).sealFlight = s.sealFlight ∧ (bump k s).owed = s.owed ∧ (bump k s).imports = s.imports ∧
    (bump k s).envFlight = s.envFlight ∧ (bump k s).receipts = s.receipts ∧ (bump k s).bursts = s.bursts ∧
    (bump k s).stampsBack = s.stampsBack ∧ (bump k s).contexts = s.contexts ∧ (bump k s).opened = s.opened ∧
    (bump k s).normalQ = s.normalQ ∧ (bump k s).mapJobs = s.mapJobs ∧ (bump k s).relayJobs = s.relayJobs ∧
    (bump k s).misses = s.misses ∧ (bump k s).fetches = s.fetches ∧ (bump k s).frames = s.frames ∧ (bump k s).mem = s.mem ∧
    (bump k s).poison = s.poison ∧ (bump k s).torn = s.torn ∧ (bump k s).spLatent = s.spLatent ∧
    (bump k s).hbmLatent = s.hbmLatent ∧ (bump k s).cacheLatent = s.cacheLatent ∧ (bump k s).wrote = s.wrote ∧
    (bump k s).wroteFar = s.wroteFar ∧ (bump k s).replay = s.replay ∧ (bump k s).journal = s.journal ∧
    (bump k s).stretch = s.stretch ∧ (bump k s).fabricBad = s.fabricBad ∧ (bump k s).hbm = s.hbm ∧ (bump k s).dies = s.dies ∧
    (bump k s).flogSeq = s.flogSeq ∧ (bump k s).syncId = s.syncId ∧ (bump k s).dbgStatus = s.dbgStatus ∧
    (bump k s).results = s.results ∧ (bump k s).sem = s.sem ∧ (bump k s).eths = s.eths ∧ (bump k s).qps = s.qps ∧
    (bump k s).links = s.links ∧ (bump k s).hier = s.hier ∧ (bump k s).reads = s.reads ∧ (bump k s).readTag = s.readTag ∧
    (bump k s).asks = s.asks ∧ (bump k s).linkHeld = s.linkHeld ∧ (bump k s).updRing = s.updRing ∧
    (bump k s).updNext = s.updNext ∧ (bump k s).updEarly = s.updEarly ∧ (bump k s).updPages = s.updPages ∧
    (bump k s).island = s.island ∧ (bump k s).fuses = s.fuses ∧ (bump k s).flash = s.flash ∧ (bump k s).power = s.power ∧
    (bump k s).sideband = s.sideband := by
  unfold bump; repeat' split
  all_goals and_intros <;> rfl

/-- `bumpE` changes at most `counts`. -/
@[simp] theorem bumpE_fields (index sub : Nat) (s : State) :
    (bumpE index sub s).pending = s.pending ∧ (bumpE index sub s).fresh = s.fresh ∧ (bumpE index sub s).time = s.time ∧
    (bumpE index sub s).outbox = s.outbox ∧ (bumpE index sub s).regs = s.regs ∧ (bumpE index sub s).acked = s.acked ∧
    (bumpE index sub s).totals = s.totals ∧ (bumpE index sub s).paths = s.paths ∧
    (bumpE index sub s).lockNonce = s.lockNonce ∧ (bumpE index sub s).kept = s.kept ∧
    (bumpE index sub s).replies = s.replies ∧ (bumpE index sub s).tableJob = s.tableJob ∧
    (bumpE index sub s).modTable = s.modTable ∧ (bumpE index sub s).occupied = s.occupied ∧
    (bumpE index sub s).mtResult = s.mtResult ∧ (bumpE index sub s).chains = s.chains ∧ (bumpE index sub s).cores = s.cores ∧
    (bumpE index sub s).streams = s.streams ∧ (bumpE index sub s).engines = s.engines ∧ (bumpE index sub s).seals = s.seals ∧
    (bumpE index sub s).sealFlight = s.sealFlight ∧ (bumpE index sub s).owed = s.owed ∧
    (bumpE index sub s).imports = s.imports ∧ (bumpE index sub s).envFlight = s.envFlight ∧
    (bumpE index sub s).receipts = s.receipts ∧ (bumpE index sub s).bursts = s.bursts ∧
    (bumpE index sub s).stampsBack = s.stampsBack ∧ (bumpE index sub s).contexts = s.contexts ∧
    (bumpE index sub s).opened = s.opened ∧ (bumpE index sub s).normalQ = s.normalQ ∧
    (bumpE index sub s).mapJobs = s.mapJobs ∧ (bumpE index sub s).relayJobs = s.relayJobs ∧
    (bumpE index sub s).misses = s.misses ∧ (bumpE index sub s).fetches = s.fetches ∧ (bumpE index sub s).frames = s.frames ∧
    (bumpE index sub s).mem = s.mem ∧ (bumpE index sub s).poison = s.poison ∧ (bumpE index sub s).torn = s.torn ∧
    (bumpE index sub s).spLatent = s.spLatent ∧ (bumpE index sub s).hbmLatent = s.hbmLatent ∧
    (bumpE index sub s).cacheLatent = s.cacheLatent ∧ (bumpE index sub s).wrote = s.wrote ∧
    (bumpE index sub s).wroteFar = s.wroteFar ∧ (bumpE index sub s).replay = s.replay ∧
    (bumpE index sub s).journal = s.journal ∧ (bumpE index sub s).stretch = s.stretch ∧
    (bumpE index sub s).fabricBad = s.fabricBad ∧ (bumpE index sub s).hbm = s.hbm ∧ (bumpE index sub s).dies = s.dies ∧
    (bumpE index sub s).flogSeq = s.flogSeq ∧ (bumpE index sub s).syncId = s.syncId ∧
    (bumpE index sub s).dbgStatus = s.dbgStatus ∧ (bumpE index sub s).results = s.results ∧ (bumpE index sub s).sem = s.sem ∧
    (bumpE index sub s).eths = s.eths ∧ (bumpE index sub s).qps = s.qps ∧ (bumpE index sub s).links = s.links ∧
    (bumpE index sub s).hier = s.hier ∧ (bumpE index sub s).reads = s.reads ∧ (bumpE index sub s).readTag = s.readTag ∧
    (bumpE index sub s).asks = s.asks ∧ (bumpE index sub s).linkHeld = s.linkHeld ∧ (bumpE index sub s).updRing = s.updRing ∧
    (bumpE index sub s).updNext = s.updNext ∧ (bumpE index sub s).updEarly = s.updEarly ∧
    (bumpE index sub s).updPages = s.updPages ∧ (bumpE index sub s).island = s.island ∧ (bumpE index sub s).fuses = s.fuses ∧
    (bumpE index sub s).flash = s.flash ∧ (bumpE index sub s).power = s.power ∧ (bumpE index sub s).sideband = s.sideband := by
  exact bump_fields _ s

/-- `stageRec` changes at most `dies` and `counts`. -/
@[simp] theorem stageRec_fields (d : Nat) (r : Rec) (s : State) :
    (stageRec d r s).pending = s.pending ∧ (stageRec d r s).fresh = s.fresh ∧ (stageRec d r s).time = s.time ∧
    (stageRec d r s).outbox = s.outbox ∧ (stageRec d r s).regs = s.regs ∧ (stageRec d r s).acked = s.acked ∧
    (stageRec d r s).totals = s.totals ∧ (stageRec d r s).paths = s.paths ∧ (stageRec d r s).lockNonce = s.lockNonce ∧
    (stageRec d r s).kept = s.kept ∧ (stageRec d r s).replies = s.replies ∧ (stageRec d r s).tableJob = s.tableJob ∧
    (stageRec d r s).modTable = s.modTable ∧ (stageRec d r s).occupied = s.occupied ∧ (stageRec d r s).mtResult = s.mtResult ∧
    (stageRec d r s).chains = s.chains ∧ (stageRec d r s).cores = s.cores ∧ (stageRec d r s).streams = s.streams ∧
    (stageRec d r s).engines = s.engines ∧ (stageRec d r s).seals = s.seals ∧ (stageRec d r s).sealFlight = s.sealFlight ∧
    (stageRec d r s).owed = s.owed ∧ (stageRec d r s).imports = s.imports ∧ (stageRec d r s).envFlight = s.envFlight ∧
    (stageRec d r s).receipts = s.receipts ∧ (stageRec d r s).bursts = s.bursts ∧ (stageRec d r s).stampsBack = s.stampsBack ∧
    (stageRec d r s).contexts = s.contexts ∧ (stageRec d r s).opened = s.opened ∧ (stageRec d r s).normalQ = s.normalQ ∧
    (stageRec d r s).mapJobs = s.mapJobs ∧ (stageRec d r s).relayJobs = s.relayJobs ∧ (stageRec d r s).misses = s.misses ∧
    (stageRec d r s).fetches = s.fetches ∧ (stageRec d r s).frames = s.frames ∧ (stageRec d r s).mem = s.mem ∧
    (stageRec d r s).poison = s.poison ∧ (stageRec d r s).torn = s.torn ∧ (stageRec d r s).spLatent = s.spLatent ∧
    (stageRec d r s).hbmLatent = s.hbmLatent ∧ (stageRec d r s).cacheLatent = s.cacheLatent ∧
    (stageRec d r s).wrote = s.wrote ∧ (stageRec d r s).wroteFar = s.wroteFar ∧ (stageRec d r s).replay = s.replay ∧
    (stageRec d r s).journal = s.journal ∧ (stageRec d r s).stretch = s.stretch ∧ (stageRec d r s).fabricBad = s.fabricBad ∧
    (stageRec d r s).hbm = s.hbm ∧ (stageRec d r s).flogSeq = s.flogSeq ∧ (stageRec d r s).syncId = s.syncId ∧
    (stageRec d r s).dbgStatus = s.dbgStatus ∧ (stageRec d r s).results = s.results ∧ (stageRec d r s).sem = s.sem ∧
    (stageRec d r s).eths = s.eths ∧ (stageRec d r s).qps = s.qps ∧ (stageRec d r s).links = s.links ∧
    (stageRec d r s).hier = s.hier ∧ (stageRec d r s).reads = s.reads ∧ (stageRec d r s).readTag = s.readTag ∧
    (stageRec d r s).asks = s.asks ∧ (stageRec d r s).linkHeld = s.linkHeld ∧ (stageRec d r s).updRing = s.updRing ∧
    (stageRec d r s).updNext = s.updNext ∧ (stageRec d r s).updEarly = s.updEarly ∧ (stageRec d r s).updPages = s.updPages ∧
    (stageRec d r s).island = s.island ∧ (stageRec d r s).fuses = s.fuses ∧ (stageRec d r s).flash = s.flash ∧
    (stageRec d r s).power = s.power ∧ (stageRec d r s).sideband = s.sideband := by
  unfold stageRec; split <;> simp

/-- `trace` changes at most `dies` and `counts`. -/
@[simp] theorem trace_fields (d : Nat) (t : TraceRec) (s : State) :
    (trace d t s).pending = s.pending ∧ (trace d t s).fresh = s.fresh ∧ (trace d t s).time = s.time ∧
    (trace d t s).outbox = s.outbox ∧ (trace d t s).regs = s.regs ∧ (trace d t s).acked = s.acked ∧
    (trace d t s).totals = s.totals ∧ (trace d t s).paths = s.paths ∧ (trace d t s).lockNonce = s.lockNonce ∧
    (trace d t s).kept = s.kept ∧ (trace d t s).replies = s.replies ∧ (trace d t s).tableJob = s.tableJob ∧
    (trace d t s).modTable = s.modTable ∧ (trace d t s).occupied = s.occupied ∧ (trace d t s).mtResult = s.mtResult ∧
    (trace d t s).chains = s.chains ∧ (trace d t s).cores = s.cores ∧ (trace d t s).streams = s.streams ∧
    (trace d t s).engines = s.engines ∧ (trace d t s).seals = s.seals ∧ (trace d t s).sealFlight = s.sealFlight ∧
    (trace d t s).owed = s.owed ∧ (trace d t s).imports = s.imports ∧ (trace d t s).envFlight = s.envFlight ∧
    (trace d t s).receipts = s.receipts ∧ (trace d t s).bursts = s.bursts ∧ (trace d t s).stampsBack = s.stampsBack ∧
    (trace d t s).contexts = s.contexts ∧ (trace d t s).opened = s.opened ∧ (trace d t s).normalQ = s.normalQ ∧
    (trace d t s).mapJobs = s.mapJobs ∧ (trace d t s).relayJobs = s.relayJobs ∧ (trace d t s).misses = s.misses ∧
    (trace d t s).fetches = s.fetches ∧ (trace d t s).frames = s.frames ∧ (trace d t s).mem = s.mem ∧
    (trace d t s).poison = s.poison ∧ (trace d t s).torn = s.torn ∧ (trace d t s).spLatent = s.spLatent ∧
    (trace d t s).hbmLatent = s.hbmLatent ∧ (trace d t s).cacheLatent = s.cacheLatent ∧ (trace d t s).wrote = s.wrote ∧
    (trace d t s).wroteFar = s.wroteFar ∧ (trace d t s).replay = s.replay ∧ (trace d t s).journal = s.journal ∧
    (trace d t s).stretch = s.stretch ∧ (trace d t s).fabricBad = s.fabricBad ∧ (trace d t s).hbm = s.hbm ∧
    (trace d t s).flogSeq = s.flogSeq ∧ (trace d t s).syncId = s.syncId ∧ (trace d t s).dbgStatus = s.dbgStatus ∧
    (trace d t s).results = s.results ∧ (trace d t s).sem = s.sem ∧ (trace d t s).eths = s.eths ∧ (trace d t s).qps = s.qps ∧
    (trace d t s).links = s.links ∧ (trace d t s).hier = s.hier ∧ (trace d t s).reads = s.reads ∧
    (trace d t s).readTag = s.readTag ∧ (trace d t s).asks = s.asks ∧ (trace d t s).linkHeld = s.linkHeld ∧
    (trace d t s).updRing = s.updRing ∧ (trace d t s).updNext = s.updNext ∧ (trace d t s).updEarly = s.updEarly ∧
    (trace d t s).updPages = s.updPages ∧ (trace d t s).island = s.island ∧ (trace d t s).fuses = s.fuses ∧
    (trace d t s).flash = s.flash ∧ (trace d t s).power = s.power ∧ (trace d t s).sideband = s.sideband := by
  unfold trace; repeat' split
  all_goals simp

/-- `emit` changes at most `outbox` and `eths` and `counts`. -/
@[simp] theorem emit_fields (o : Output) (s : State) :
    (emit o s).pending = s.pending ∧ (emit o s).fresh = s.fresh ∧ (emit o s).time = s.time ∧ (emit o s).regs = s.regs ∧
    (emit o s).acked = s.acked ∧ (emit o s).totals = s.totals ∧ (emit o s).paths = s.paths ∧
    (emit o s).lockNonce = s.lockNonce ∧ (emit o s).kept = s.kept ∧ (emit o s).replies = s.replies ∧
    (emit o s).tableJob = s.tableJob ∧ (emit o s).modTable = s.modTable ∧ (emit o s).occupied = s.occupied ∧
    (emit o s).mtResult = s.mtResult ∧ (emit o s).chains = s.chains ∧ (emit o s).cores = s.cores ∧
    (emit o s).streams = s.streams ∧ (emit o s).engines = s.engines ∧ (emit o s).seals = s.seals ∧
    (emit o s).sealFlight = s.sealFlight ∧ (emit o s).owed = s.owed ∧ (emit o s).imports = s.imports ∧
    (emit o s).envFlight = s.envFlight ∧ (emit o s).receipts = s.receipts ∧ (emit o s).bursts = s.bursts ∧
    (emit o s).stampsBack = s.stampsBack ∧ (emit o s).contexts = s.contexts ∧ (emit o s).opened = s.opened ∧
    (emit o s).normalQ = s.normalQ ∧ (emit o s).mapJobs = s.mapJobs ∧ (emit o s).relayJobs = s.relayJobs ∧
    (emit o s).misses = s.misses ∧ (emit o s).fetches = s.fetches ∧ (emit o s).frames = s.frames ∧ (emit o s).mem = s.mem ∧
    (emit o s).poison = s.poison ∧ (emit o s).torn = s.torn ∧ (emit o s).spLatent = s.spLatent ∧
    (emit o s).hbmLatent = s.hbmLatent ∧ (emit o s).cacheLatent = s.cacheLatent ∧ (emit o s).wrote = s.wrote ∧
    (emit o s).wroteFar = s.wroteFar ∧ (emit o s).replay = s.replay ∧ (emit o s).journal = s.journal ∧
    (emit o s).stretch = s.stretch ∧ (emit o s).fabricBad = s.fabricBad ∧ (emit o s).hbm = s.hbm ∧ (emit o s).dies = s.dies ∧
    (emit o s).flogSeq = s.flogSeq ∧ (emit o s).syncId = s.syncId ∧ (emit o s).dbgStatus = s.dbgStatus ∧
    (emit o s).results = s.results ∧ (emit o s).sem = s.sem ∧ (emit o s).qps = s.qps ∧ (emit o s).links = s.links ∧
    (emit o s).hier = s.hier ∧ (emit o s).reads = s.reads ∧ (emit o s).readTag = s.readTag ∧ (emit o s).asks = s.asks ∧
    (emit o s).linkHeld = s.linkHeld ∧ (emit o s).updRing = s.updRing ∧ (emit o s).updNext = s.updNext ∧
    (emit o s).updEarly = s.updEarly ∧ (emit o s).updPages = s.updPages ∧ (emit o s).island = s.island ∧
    (emit o s).fuses = s.fuses ∧ (emit o s).flash = s.flash ∧ (emit o s).power = s.power ∧ (emit o s).sideband = s.sideband := by
  unfold emit txCount; repeat' first | split | (dsimp only; split)
  all_goals simp

end Sys2Proof.Machine
end

