-- ==== Sys2Proof/Laws/Tables.lean ====
section
/-! SUPPORT. Reading a sparse table, a finite set or a list of positions after an update, and the accessors of the state that
rest on them. -/

namespace Sys2Proof.Machine

@[simp] theorem tget_tset_self {α : Type} (d v : α) (t : Tab α) (j : Nat) : tget d (tset t j v) j = v := by
  induction t with
  | nil => simp [tset, tget]
  | cons x r ih =>
    unfold tset
    split
    · simp [tget]
    · split <;> simp_all [tget]

theorem tget_tset_of_ne {α : Type} (d v : α) (t : Tab α) {j k : Nat} (h : k ≠ j) : tget d (tset t j v) k = tget d t k := by
  induction t with
  | nil => simp [tset, tget, h]
  | cons x r ih =>
    unfold tset
    split
    · subst_vars; simp [tget, h]
    · split
      · simp [tget, h]
      · simp [tget, ih]

@[simp] theorem core_setCore_self (c : Nat) (f : Core → Core) (s : State) : core (setCore c f s) c = f (core s c) := by
  simp [core, setCore]

theorem core_setCore_of_ne {c d : Nat} (h : d ≠ c) (f : Core → Core) (s : State) : core (setCore c f s) d = core s d := by
  simp [core, setCore, tget_tset_of_ne _ _ _ h]

@[simp] theorem stream_setStream_self (ctx c : Nat) (f : Stream → Stream) (s : State) :
    stream (setStream ctx c f s) ctx c = f (stream s ctx c) := by
  simp [stream, setStream]

theorem stream_setStream_of_ne {ctx c ctx' c' : Nat} (h : skey ctx' c' ≠ skey ctx c) (f : Stream → Stream) (s : State) :
    stream (setStream ctx c f s) ctx' c' = stream s ctx' c' := by
  simp [stream, setStream, tget_tset_of_ne _ _ _ h]

@[simp] theorem context_setContext_self (ctx : Nat) (f : Context → Context) (s : State) :
    context (setContext ctx f s) ctx = f (context s ctx) := by
  simp [context, setContext]

@[simp] theorem sealAt_setSeal_self (p : Nat) (f : Seal → Seal) (s : State) : sealAt (setSeal p f s) p = f (sealAt s p) := by
  simp [sealAt, setSeal]

@[simp] theorem reg_setReg_self (index sub v : Nat) (s : State) : reg (setReg index sub v s) index sub = v := by
  simp [reg, setReg]

theorem reg_setReg_of_ne {i j k l v : Nat} (h : ekey k l ≠ ekey i j) (s : State) : reg (setReg i j v s) k l = reg s k l := by
  simp [reg, setReg, tget_tset_of_ne _ _ _ h]

/-- Reading a list of positions after one has been changed. -/
theorem getD_lmod_self {α : Type} (l : List α) {i : Nat} (h : i < l.length) (f : α → α) (d : α) :
    (lmod l i f).getD i d = f (l.getD i d) := by
  simp [lmod, List.getD_eq_getElem?_getD, h]

theorem getD_lmod_of_ne {α : Type} (l : List α) {i j : Nat} (h : i ≠ j) (f : α → α) (d : α) : (lmod l i f).getD j d = l.getD j d := by
  simp [lmod, List.getD_eq_getElem?_getD, h]

@[simp] theorem length_lmod {α : Type} (l : List α) (i : Nat) (f : α → α) : (lmod l i f).length = l.length := by
  simp [lmod]

end Sys2Proof.Machine
end

