-- ==== Sys2Proof/Laws/Access.lean ====
section
/-! SUPPORT. Loads and stores of the engines: what the memory system's own bookkeeping leaves as it was, and that an access that is
served comes to its end. -/

namespace Sys2Proof.Machine

open Sys2Proof.Safety

/-- Two states differ at most in what the memory system keeps for itself -/
structure Calm (s t : State) : Prop where
  rest : { t with
    poison := s.poison, torn := s.torn, spLatent := s.spLatent, hbmLatent := s.hbmLatent,
    cacheLatent := s.cacheLatent, fabricBad := s.fabricBad, hbm := s.hbm, dies := s.dies, counts := s.counts,
    totals := s.totals, contexts := s.contexts, wrote := s.wrote, wroteFar := s.wroteFar, journal := s.journal,
    fresh := s.fresh } = s
  entry : ∀ c, (context t c).entry = (context s c).entry
  xlat : ∀ c w a, xlat t c w a = xlat s c w a

theorem xlat_congr {s t : State} (h : t.contexts = s.contexts) (c : Nat) (w : Bool) (a : Nat) : xlat t c w a = xlat s c w a := by
  have e : ∀ c, context t c = context s c := fun c => by unfold context; rw [h]
  unfold xlat mappingOf granted ctxSpMask ctxSpFirst ctxSpCount ctxF
  simp only [e]

theorem Calm.refl (s : State) : Calm s s := ⟨rfl, fun _ => rfl, fun _ _ _ => rfl⟩

theorem Calm.trans {s t u : State} (h : Calm s t) (k : Calm t u) : Calm s u where
  rest := by
    have := k.rest
    have e := h.rest
    conv_rhs => rw [← e, ← this]
  entry c := (k.entry c).trans (h.entry c)
  xlat c w a := (k.xlat c w a).trans (h.xlat c w a)

theorem Calm.after {s t u : State} (k : Calm t u) (h : Calm s t) : Calm s u := h.trans k

theorem Calm.mem {s t : State} (h : Calm s t) : t.mem = s.mem := by
  have := congrArg State.mem h.rest
  exact this

theorem Calm.of_rest {s t : State} (h : { t with
    poison := s.poison, torn := s.torn, spLatent := s.spLatent, hbmLatent := s.hbmLatent,
    cacheLatent := s.cacheLatent, fabricBad := s.fabricBad, hbm := s.hbm, dies := s.dies, counts := s.counts,
    totals := s.totals, contexts := s.contexts, wrote := s.wrote, wroteFar := s.wroteFar, journal := s.journal,
    fresh := s.fresh } = s) (hc : t.contexts = s.contexts) : Calm s t :=
  ⟨h, fun c => by unfold context; rw [hc], fun c w a => xlat_congr hc c w a⟩

theorem calm_bump (k : Nat) (s : State) : Calm s (bump k s) := by
  unfold bump; split
  · split
    · exact Calm.refl s
    · exact .of_rest rfl rfl
  · exact .of_rest rfl rfl
theorem calm_bumpE (i j : Nat) (s : State) : Calm s (bumpE i j s) := calm_bump _ s
theorem calm_addTotal (i j n : Nat) (s : State) : Calm s (addTotal i j n s) := .of_rest rfl rfl
theorem calm_setDie (d : Nat) (f : Die → Die) (s : State) : Calm s (setDie d f s) := .of_rest rfl rfl
theorem calm_setStack (d : Nat) (f : Stack → Stack) (s : State) : Calm s (setStack d f s) := .of_rest rfl rfl
theorem calm_stageRec (d : Nat) (r : Rec) (s : State) : Calm s (stageRec d r s) := by
  unfold stageRec; split
  · exact calm_setDie _ _ s
  · exact (calm_setDie _ _ s).trans (calm_bumpE _ _ _)

theorem calm_foldl {β : Type} {f : State → β → State} (h : ∀ s b, Calm s (f s b)) : ∀ (l : List β) (s : State), Calm s (l.foldl f s) := by
  intro l
  induction l with
  | nil => exact fun s => .refl s
  | cons b r ih => exact fun s => (h s b).trans (ih _)

theorem tget_map {α : Type} (f : α → α) (d : α) (hd : f d = d) : ∀ (t : Tab α) (j : Nat), tget d (t.map fun e => (e.1, f e.2)) j = f (tget d t j) := by
  intro t
  induction t with
  | nil => intro j; simp [tget, hd]
  | cons e r ih =>
    intro j
    obtain ⟨k, v⟩ := e
    simp only [List.map_cons, tget]
    split
    · rfl
    · exact ih j

/-- What a translation looks at in a mapping. -/
def mapView (e : Nat × Mapping) : Nat × Bool × Bool × Bool × Bool × Bool × Nat :=
  (e.1, e.2.huge, e.2.poisoned, e.2.write, e.2.read, e.2.present, e.2.frame)

theorem find_view {q : Nat × Mapping → Bool} (hq : ∀ e f, mapView e = mapView f → q e = q f) : ∀ {l l' : List (Nat × Mapping)},
    l'.map mapView = l.map mapView → (l'.find? q).map mapView = (l.find? q).map mapView := by
  intro l
  induction l with
  | nil => intro l' h; cases l' with
    | nil => rfl
    | cons => simp at h
  | cons e r ih =>
    intro l' h
    cases l' with
    | nil => simp at h
    | cons e' r' =>
      simp only [List.map_cons, List.cons.injEq] at h
      obtain ⟨h1, h2⟩ := h
      rw [List.find?_cons, List.find?_cons, hq e' e h1]
      split
      · simp [h1]
      · exact ih h2

/-- Translations look at a context's entry and at the view of its mappings. -/
theorem xlat_of_view {s t : State} (he : ∀ c, (context t c).entry = (context s c).entry)
    (hp : ∀ c, (context t c).pages.map mapView = (context s c).pages.map mapView) (c : Nat) (w : Bool) (a : Nat) :
    xlat t c w a = xlat s c w a := by
  unfold xlat
  split
  · have : (mappingOf t c (a / 2 ^ 21)).map mapView = (mappingOf s c (a / 2 ^ 21)).map mapView := by
      refine find_view (fun e f h => ?_) (hp c)
      simp only [mapView, Prod.mk.injEq] at h
      simp only [h.1, h.2.1]
    revert this
    cases mappingOf t c (a / 2 ^ 21) with
    | none => cases mappingOf s c (a / 2 ^ 21) with
      | none => intro _; rfl
      | some f => intro h; simp at h
    | some e => cases mappingOf s c (a / 2 ^ 21) with
      | none => intro h; simp at h
      | some f =>
        obtain ⟨p, m⟩ := e
        obtain ⟨p', m'⟩ := f
        intro h
        simp only [Option.map_some, mapView, Option.some.injEq, Prod.mk.injEq] at h
        obtain ⟨h1, _, h3, h4, h5, h6, h7⟩ := h
        simp only [h1, h3, h4, h5, h6, h7]
  · unfold granted ctxSpMask ctxSpFirst ctxSpCount ctxF
    simp only [he]

theorem calm_retiring (f : Nat) (u : State) : Calm u { u with contexts := u.contexts.map fun e => (e.1, { e.2 with
    pages := e.2.pages.map fun p => if p.2.present && !p.2.huge && p.2.frame == f then (p.1, { p.2 with retiring := true }) else p }) } := by
  have hc : ∀ c, context { u with contexts := u.contexts.map fun e => (e.1, { e.2 with
      pages := e.2.pages.map fun p => if p.2.present && !p.2.huge && p.2.frame == f then (p.1, { p.2 with retiring := true }) else p }) } c =
      { context u c with pages := (context u c).pages.map fun p => if p.2.present && !p.2.huge && p.2.frame == f then (p.1, { p.2 with retiring := true }) else p } := by
    intro c
    exact tget_map (fun x : Context => { x with
      pages := x.pages.map fun p => if p.2.present && !p.2.huge && p.2.frame == f then (p.1, { p.2 with retiring := true }) else p }) {} rfl _ _
  refine ⟨rfl, fun c => by rw [hc], fun c w a => ?_⟩
  refine xlat_of_view (fun c => by rw [hc]) (fun c => ?_) c w a
  rw [hc]
  simp only [List.map_map]
  refine List.map_congr_left fun e _ => ?_
  simp only [Function.comp]
  split <;> rfl

theorem calm_retireFrame (k f : Nat) (s : State) : Calm s (retireFrame k f s) := by
  unfold retireFrame
  split
  · exact .refl s
  · dsimp only
    split
    · exact Calm.trans (Calm.trans (Calm.trans (calm_setStack k _ s) (calm_retiring f _)) (calm_bumpE _ _ _)) (calm_stageRec _ _ _)
    · exact calm_stageRec _ _ _

theorem calm_noteCorrection (k b : Nat) (s : State) : Calm s (noteCorrection k b s) := by
  unfold noteCorrection
  split
  · exact .refl s
  · dsimp only
    split
    · exact (calm_setStack _ _ s).trans (calm_retireFrame _ _ _)
    · exact calm_setStack _ _ s

theorem calm_hbmCheck (b : Nat) (s : State) : Calm s (hbmCheck b s) := by
  unfold hbmCheck
  split
  · exact .refl s
  · exact (calm_noteCorrection _ _ _).after ((calm_bumpE _ _ _).after (.of_rest rfl rfl))
  · dsimp only
    have : ∀ r, Calm s (stageRec (stackOf s b / 4) r (bumpE (0x3840 + stackOf s b) 4 { s with hbmLatent := terase s.hbmLatent b, poison := nins s.poison b })) :=
      fun r => (calm_stageRec _ _ _).after ((calm_bumpE _ _ _).after (.of_rest rfl rfl))
    split
    · exact this _
    · exact (this _).trans (calm_retireFrame _ _ _)

theorem calm_bwCount (c : Machine.Class) (n : Nat) (s : State) : Calm s (bwCount c n s) := by
  unfold bwCount; cases c <;> exact calm_addTotal _ _ _ s

theorem calm_fetchBursts (cls : Machine.Class) (bs : List Nat) (s : State) : Calm s (fetchBursts cls bs s) :=
  calm_foldl (fun s b => (calm_hbmCheck b s).trans (calm_bwCount _ _ _)) bs s

theorem calm_cacheCheck (cls : Machine.Class) (w : Nat) (s : State) : Calm s (cacheCheck cls w s) := by
  unfold cacheCheck
  split
  · exact .refl s
  · exact (calm_bumpE _ _ _).after (.of_rest rfl rfl)
  · split
    · exact (calm_bumpE _ _ _).after ((calm_fetchBursts _ _ _).after (.of_rest rfl rfl))
    · exact (calm_stageRec _ _ _).after ((calm_bumpE _ _ _).after (.of_rest rfl rfl))

theorem calm_spCheck (w : Nat) (s : State) : Calm s (spCheck w s) := by
  unfold spCheck
  dsimp only
  split
  · exact .refl s
  · exact (calm_bumpE _ _ _).after (.of_rest rfl rfl)
  · exact (calm_stageRec _ _ _).after ((calm_bumpE _ _ _).after (.of_rest rfl rfl))

theorem calm_evictLine (d : Nat) (l : CacheLine) (s : State) : Calm s (evictLine d l s) := by
  unfold evictLine
  dsimp only
  have h := (calm_foldl (fun s w => calm_cacheCheck l.cls w s) ((lineBursts l.line l.dirty).flatMap fun b => unitsOf 8 b 32) s).trans
    (calm_setDie d (fun x => { x with cache := x.cache.filter fun y => y.line != l.line }) _)
  refine (calm_bwCount _ _ _).after (Calm.after ?_ h)
  exact .of_rest rfl rfl

theorem calm_cacheTouch (line : Nat) (s : State) : Calm s (cacheTouch line s) := by
  unfold cacheTouch
  dsimp only
  split
  · exact calm_setDie _ _ s
  · refine Calm.trans ?_ (calm_setDie _ _ _)
    split
    · split
      · exact calm_evictLine _ _ s
      · exact .refl s
    · exact .refl s

theorem calm_setCached (a : Nat) (f : CacheLine → CacheLine) (s : State) : Calm s (setCached a f s) := calm_setDie _ _ s

theorem calm_fillLine (cls : Machine.Class) (line : Nat) (s : State) : Calm s (fillLine cls line s) := by
  unfold fillLine
  split
  · exact (calm_fetchBursts _ _ _).trans (calm_setCached _ _ _)
  · exact .refl s

theorem calm_burstRead (cls : Machine.Class) (b : Nat) (s : State) : Calm s (burstRead cls b s) := by
  unfold burstRead
  split
  · exact calm_foldl (fun s w => calm_cacheCheck _ _ s) _ s
  · exact calm_fetchBursts _ _ _

theorem calm_if {c : Prop} [Decidable c] {s t u : State} (h : Calm s t) (k : Calm s u) : Calm s (if c then t else u) := by
  split
  · exact h
  · exact k

theorem calm_noteRead (cls : Machine.Class) (alloc : Bool) (a n : Nat) (s : State) : Calm s (noteRead cls alloc a n s) := by
  unfold noteRead
  dsimp only
  split
  · refine Calm.trans (calm_if ?_ (.refl s)) (calm_foldl (fun s b => calm_burstRead cls b s) _ _)
    exact calm_foldl (fun s l => (calm_cacheTouch l s).trans (calm_fillLine cls l _)) _ s
  · refine (calm_foldl (fun s b => calm_spCheck b s) _ s).trans (calm_foldl (fun s b => ?_) _ _)
    exact calm_if (calm_bumpE _ _ _) (.refl s)

theorem calm_setMark (a n : Nat) (p : Bool) (g : Nat) (s : State) : Calm s (setMark a n p g s) := by
  unfold setMark
  exact calm_if (.of_rest rfl rfl) (calm_if (.of_rest rfl rfl) (.refl s))

theorem calm_spWrite (a n w : Nat) (s : State) : Calm s (spWrite a n w s) := by
  unfold spWrite
  exact calm_if (.of_rest rfl rfl) (calm_spCheck _ _)

theorem calm_sectorWrite (cls : Machine.Class) (a n b : Nat) (s : State) : Calm s (sectorWrite cls a n b s) := by
  unfold sectorWrite
  dsimp only
  refine Calm.trans (Calm.trans (calm_if (.refl s) (calm_fetchBursts _ _ _)) (calm_foldl (fun s w => ?_) _ _)) (calm_setCached _ _ _)
  exact calm_if (.of_rest rfl rfl) (calm_cacheCheck _ _ _)

theorem calm_burstWrite (cls : Machine.Class) (a n b : Nat) (s : State) : Calm s (burstWrite cls a n b s) := by
  unfold burstWrite
  refine Calm.trans ?_ (calm_bwCount _ _ _)
  exact calm_if (.of_rest rfl rfl) (calm_hbmCheck _ _)

theorem calm_noteWrite (cls : Machine.Class) (alloc : Bool) (a n : Nat) (s : State) : Calm s (noteWrite cls alloc a n s) := by
  unfold noteWrite
  dsimp only
  split
  · refine Calm.trans (calm_if ?_ (.refl s)) (calm_foldl (fun s b => ?_) _ _)
    · exact calm_foldl (fun s l => calm_cacheTouch l s) _ s
    · exact calm_if (calm_sectorWrite _ _ _ _ _) (calm_burstWrite _ _ _ _ _)
  · exact calm_foldl (fun s w => calm_spWrite _ _ _ _) _ s

theorem calm_mem {s t : State} (h : Calm s t) (m : List Host.Cell) : Calm { s with mem := m } { t with mem := m } :=
  ⟨by have := h.rest; exact congrArg (fun u : State => { u with mem := m }) this, h.entry, h.xlat⟩

/-- A write to device memory: the bytes, and the memory system's own bookkeeping. -/
theorem calm_devWrite (cls : Machine.Class) (alloc : Bool) (a : Nat) (bs : List Byte) (p : Bool) (s : State) :
    Calm { s with mem := memWrite s.mem a bs } (devWrite cls alloc a bs p s) := by
  unfold devWrite
  dsimp only
  have h0 := (calm_noteWrite cls alloc a bs.length s).trans
    (calm_foldl (fun s g => calm_setMark a bs.length p g s) (unitsOf (granSize a) a bs.length) _)
  have hm : ((unitsOf (granSize a) a bs.length).foldl (fun s g => setMark a bs.length p g s) (noteWrite cls alloc a bs.length s)).mem = s.mem := h0.mem
  have h := calm_mem h0 (memWrite s.mem a bs)
  rw [hm]
  split
  · exact h
  · refine h.trans ?_
    exact .of_rest rfl rfl

/-! ## Translation -/


theorem map_lreplace {α β : Type} {p : α → Bool} {f : α → α} {v : α → β} (h : ∀ x, v (f x) = v x) : ∀ l, (lreplace p f l).map v = l.map v := by
  intro l
  induction l with
  | nil => rfl
  | cons x r ih => simp only [lreplace]; split <;> simp [h, ih]

/-- The age of a page is no part of its translation. -/
theorem calm_age (c page : Nat) (f : BitVec 4 → BitVec 4) (s : State) : Calm s (setMapping c page (fun m => { m with age := f m.age }) s) := by
  have hc : ∀ d, context (setMapping c page (fun m => { m with age := f m.age }) s) d = if d = c then
      { context s c with pages := lreplace (fun e => e.1 == page) (fun e => (e.1, { e.2 with age := f e.2.age })) (context s c).pages } else context s d := by
    intro d
    unfold setMapping
    split
    · rename_i h; subst h; exact context_setContext_self _ _ _
    · rename_i h; exact tget_tset_of_ne _ _ _ h
  refine ⟨rfl, fun d => ?_, fun d w a => xlat_of_view (fun d => ?_) (fun d => ?_) d w a⟩
  · rw [hc]; split
    · rename_i h; subst h; rfl
    · rfl
  · rw [hc]; split
    · rename_i h; subst h; rfl
    · rfl
  · rw [hc]; split
    · rename_i h; subst h; exact map_lreplace (v := mapView) (f := fun e : Nat × Mapping => (e.1, { e.2 with age := f e.2.age })) (fun x => rfl) _
    · rfl

theorem calm_fabricCheck (e : Env) (a n : Nat) (s : State) : Calm s (fabricCheck e a n s).2 := by
  unfold fabricCheck
  have : ∀ (l : List Nat) (acc : Bool × State), Calm acc.2 (l.foldl (fun (acc : Bool × State) b =>
      match tget 0 acc.2.fabricBad b with
      | 0 => acc
      | 1 => (acc.1, bumpE 0x6000 7 { acc.2 with fabricBad := terase acc.2.fabricBad b })
      | _ =>
        (true, stageRec (dieOf e.core) { unit := e.unit, reason := .fabricCrc, core := e.core, ctx := e.ctx,
                                         addr := some (b, true) }
          (bumpE 0x6000 7 (bumpE 0x6000 7 { acc.2 with fabricBad := terase acc.2.fabricBad b })))) acc).2 := by
    intro l
    induction l with
    | nil => exact fun acc => .refl _
    | cons b r ih =>
      intro acc
      rw [List.foldl_cons]
      refine Calm.trans ?_ (ih _)
      rcases tget 0 acc.2.fabricBad b with _ | _ | k
      · exact .refl _
      · exact (calm_bumpE _ _ _).after (.of_rest rfl rfl)
      · exact (calm_stageRec _ _ _).after ((calm_bumpE _ _ _).after ((calm_bumpE _ _ _).after (.of_rest rfl rfl)))
  exact this _ (false, s)

theorem pageSize_pos (a : Nat) : 0 < pageSize a := by unfold pageSize; split <;> omega

/-- Translation is linear inside a page. -/
theorem xlat_within {s : State} {c : Nat} {w : Bool} {x j d : Nat} (hj : x % pageSize x + j < pageSize x)
    (h : xlat s c w x = .dev d) : xlat s c w (x + j) = .dev (d + j) := by
  unfold pageSize at hj
  unfold xlat at h ⊢
  split at h
  · rename_i hx
    rw [if_pos hx] at hj
    have hd : (x + j) / 2 ^ 21 = x / 2 ^ 21 := by omega
    have hl : x + j < 2 ^ 40 := by omega
    rw [if_pos hl, hd]
    revert h
    cases hm : mappingOf s c (x / 2 ^ 21) with
    | none => intro h; cases h
    | some e =>
      obtain ⟨p, m⟩ := e
      have hp : p ≤ x / 2 ^ 21 := by
        have := List.find?_some hm
        simp only [Bool.or_eq_true, beq_iff_eq, Bool.and_eq_true, decide_eq_true_eq] at this
        omega
      intro h
      dsimp only at h ⊢
      by_cases h1 : m.poisoned = true
      · rw [if_pos h1] at h; cases h
      · rw [if_neg h1] at h ⊢
        by_cases h2 : (if w = true then m.write else m.read) = true
        · rw [if_pos h2] at h ⊢
          by_cases h3 : m.present = true
          · rw [if_pos h3] at h ⊢
            injection h with h
            refine congrArg Xlat.dev ?_
            omega
          · rw [if_neg h3] at h; cases h
        · rw [if_neg h2] at h; cases h
  · rename_i hx
    rw [if_neg hx] at hj
    rw [if_neg (by omega)]
    split at h
    · rename_i hsp
      have hsp' : isSp (x + j) = true := by
        unfold isSp spBase spEnd at hsp ⊢
        simp only [decide_eq_true_eq] at hsp ⊢
        omega
      rw [if_pos hsp']
      split at h
      · rename_i hg
        cases h
        have : granted s c (x + j) = true := by
          unfold granted at hg ⊢
          rw [hsp] at hg
          rw [hsp']
          have h1 : spCore (x + j) = spCore x := by
            unfold isSp spBase spEnd at hsp
            simp only [decide_eq_true_eq] at hsp
            unfold spCore spBase; omega
          have h2 : (x + j - spBase) % 0x40_0000 / 0x1_0000 = (x - spBase) % 0x40_0000 / 0x1_0000 := by
            unfold isSp spBase spEnd at hsp
            simp only [decide_eq_true_eq] at hsp
            unfold spBase; omega
          rw [h1, h2]; exact hg
        rw [if_pos this]
      · cases h
    · cases h

/-- Every piece lies in its range and inside a page. -/
theorem pagePieces_mem : ∀ (f a n x k : Nat), (x, k) ∈ pagePieces f a n →
    a ≤ x ∧ x + k ≤ a + n ∧ 0 < k ∧ x % pageSize x + k ≤ pageSize x := by
  intro f
  induction f with
  | zero => intro a n x k h; simp [pagePieces] at h
  | succ f ih =>
    intro a n x k h
    unfold pagePieces at h
    split at h
    · simp at h
    · rename_i hn
      have hp := pageSize_pos a
      have hm := Nat.mod_lt a hp
      rcases List.mem_cons.1 h with h | h
      · simp only [Prod.mk.injEq] at h
        obtain ⟨rfl, rfl⟩ := h
        omega
      · have := ih _ _ _ _ h
        omega

theorem next_page (a : Nat) : (a + (pageSize a - a % pageSize a)) % 2 ^ 16 = 0 := by
  unfold pageSize; split <;> omega

theorem aligned_piece {a : Nat} (h : a % 2 ^ 16 = 0) : 2 ^ 16 ≤ pageSize a - a % pageSize a := by
  unfold pageSize; split <;> omega

/-- Enough pieces cover a range that starts at a multiple of 64 KiB. -/
theorem pagePieces_flat_aligned {β : Type} (g : Nat → Nat → List β) (v : Nat → β)
    (hg : ∀ x k, g x k = (List.range k).map fun j => v (x + j)) : ∀ (f a n : Nat), a % 2 ^ 16 = 0 → n ≤ f * 2 ^ 16 →
    (pagePieces f a n).flatMap (fun x => g x.1 x.2) = (List.range n).map fun j => v (a + j) := by
  intro f
  induction f with
  | zero => intro a n _ h; obtain rfl : n = 0 := by omega
            simp [pagePieces]
  | succ f ih =>
    intro a n ha hn
    unfold pagePieces
    split
    · rename_i h; subst h; simp
    · have h1 := aligned_piece ha
      have h2 := next_page a
      dsimp only
      rw [List.flatMap_cons, hg]
      by_cases hk : n ≤ pageSize a - a % pageSize a
      · rw [Nat.min_eq_left hk, Nat.sub_self]
        have : pagePieces f (a + n) 0 = [] := by cases f <;> simp [pagePieces]
        rw [this]; simp
      · rw [Nat.min_eq_right (by omega), ih _ _ h2 (by omega)]
        obtain ⟨r, hr⟩ : ∃ r, n = pageSize a - a % pageSize a + r := ⟨n - (pageSize a - a % pageSize a), by omega⟩
        rw [hr, Nat.add_sub_cancel_left, List.range_add, List.map_append, List.map_map]
        refine congrArg₂ List.append rfl (List.map_congr_left fun j _ => ?_)
        show v _ = v _
        rw [Nat.add_assoc]

/-- The pieces of a range cover it. -/
theorem pagePieces_flat {β : Type} (g : Nat → Nat → List β) (v : Nat → β)
    (hg : ∀ x k, g x k = (List.range k).map fun j => v (x + j)) (a n : Nat) :
    (pagePieces (pieceFuel n) a n).flatMap (fun x => g x.1 x.2) = (List.range n).map fun j => v (a + j) := by
  obtain ⟨f, hf⟩ : ∃ f, pieceFuel n = f + 1 := ⟨n / 2 ^ 16 + 1, by unfold pieceFuel; rfl⟩
  have hn : n ≤ f * 2 ^ 16 := by unfold pieceFuel at hf; omega
  rw [hf]
  unfold pagePieces
  split
  · rename_i h; subst h; simp
  · have h2 := next_page a
    dsimp only
    rw [List.flatMap_cons, hg]
    by_cases hk : n ≤ pageSize a - a % pageSize a
    · rw [Nat.min_eq_left hk, Nat.sub_self]
      have : pagePieces f (a + n) 0 = [] := by cases f <;> simp [pagePieces]
      rw [this]; simp
    · rw [Nat.min_eq_right (by omega), pagePieces_flat_aligned g v hg _ _ _ h2 (by omega)]
      obtain ⟨r, hr⟩ : ∃ r, n = pageSize a - a % pageSize a + r := ⟨n - (pageSize a - a % pageSize a), by omega⟩
      rw [hr, Nat.add_sub_cancel_left, List.range_add, List.map_append, List.map_map]
      refine congrArg₂ List.append rfl (List.map_congr_left fun j _ => ?_)
      show v _ = v _
      rw [Nat.add_assoc]

/-! ## Loads and stores -/

theorem calm_noRest {s t : State} (h : Calm s t) : Calm { s with mem := t.mem } t := by
  have := calm_mem h t.mem
  exact this

theorem devOf_calm {s t : State} (h : Calm s t) (c : Nat) (w : Bool) (b : Nat) : devOf t c w b = devOf s c w b := by
  unfold devOf; rw [h.xlat]

theorem calm_useAge (c a : Nat) (s : State) : Calm s (useAge c a s) := by
  unfold useAge
  split
  · cases mappingOf s c (a / 2 ^ 21) with
    | none => exact .refl s
    | some e => exact calm_age _ _ (fun _ => 0) s
  · exact .refl s

/-- A list of pieces whose first bytes all translate. -/
theorem xlatRange_of (e : Env) (w : Bool) : ∀ (l : List (Nat × Nat)) (s : State), (∀ x ∈ l, ∃ d, xlat s e.ctx w x.1 = .dev d) →
    ∃ t, xlatRange e w l s = .ok (l.map fun x => (devOf s e.ctx w x.1, x.2)) t ∧ Calm s t := by
  intro l
  induction l with
  | nil => exact fun s _ => ⟨s, rfl, .refl s⟩
  | cons x r ih =>
    intro s h
    obtain ⟨a, n⟩ := x
    obtain ⟨d, hd⟩ := h (a, n) List.mem_cons_self
    have hd' : xlat s e.ctx w a = .dev d := hd
    have hu := calm_useAge e.ctx a s
    obtain ⟨t, h1, h2⟩ := ih (useAge e.ctx a s) (fun x hx => by
      obtain ⟨d, h⟩ := h x (List.mem_cons_of_mem _ hx); exact ⟨d, by rw [hu.xlat]; exact h⟩)
    refine ⟨t, ?_, hu.trans h2⟩
    unfold xlatRange
    simp only [bind, EStateM.bind, get, getThe, MonadStateOf.get, EStateM.get, hd', modify, modifyGet, MonadStateOf.modifyGet,
      EStateM.modifyGet, h1, pure, EStateM.pure, List.map_cons]
    refine congrArg₂ EStateM.Result.ok (congrArg₂ List.cons ?_ (List.map_congr_left fun x _ => ?_)) rfl
    · simp only [devOf, hd']
    · rw [devOf_calm hu]

/-- A step of work that has come to its end. -/
theorem eng_bind {α β : Type} {x : Eng α} {f : α → Eng β} {s t : State} {v : α} (h : x s = .ok v t) : (x >>= f) s = f v t := by
  simp only [bind, EStateM.bind, h]

/-- A state in which no work goes on from where it waited, and no stop is asked for. -/
structure Idle (s : State) : Prop where
  replay  : s.replay = []
  stretch : s.stretch = false

theorem Calm.idle {s t : State} (h : Calm s t) (k : Idle s) : Idle t where
  replay := (congrArg State.replay h.rest).trans k.replay
  stretch := (congrArg State.stretch h.rest).trans k.stretch

theorem calm_journal (j : List Ev) (s : State) : Calm s { s with journal := j } := .of_rest rfl rfl

/-- A read that comes to its end. -/
theorem noted_of {x : Eng (List Byte × List Nat)} {s t : State} {v : List Byte × List Nat} (hs : Idle s) (h : x s = .ok v t) :
    noted x s = .ok v { t with journal := .data v.1 v.2 :: s.journal } := by
  obtain ⟨b, m⟩ := v
  unfold noted
  rw [hs.replay]; dsimp only; rw [h]

/-- An effect that comes to its end. -/
theorem once_of {x : Eng Unit} {s t : State} (hs : Idle s) (h : x s = .ok () t) : once x s = .ok () { t with journal := .done :: s.journal } := by
  unfold once
  rw [hs.replay]; dsimp only; rw [h]

theorem need_of {c : Bool} (h : c = true) (r : Reason) (ad : Option (Nat × Bool)) (s : State) : needE c r ad s = .ok () s := by
  unfold needE; rw [h]; rfl

theorem devLoads_of (e : Env) (cls : Machine.Class) (alloc : Bool) : ∀ (l : List (Nat × Nat)) (s : State),
    ∃ p t, devLoads e cls alloc l s = .ok (l.flatMap fun x => memRead s.mem x.1 x.2, p) t ∧ Calm s t := by
  intro l
  induction l with
  | nil => exact fun s => ⟨false, s, rfl, .refl s⟩
  | cons x r ih =>
    intro s
    obtain ⟨a, n⟩ := x
    obtain ⟨p0, u, h0, hu⟩ : ∃ p u, devLoad e cls alloc a n s = .ok (memRead s.mem a n, p) u ∧ Calm s u := by
      have hn := calm_noteRead cls alloc a n s
      unfold devLoad
      simp only [bind, EStateM.bind, get, getThe, MonadStateOf.get, EStateM.get, set, MonadStateOf.set, EStateM.set, pure, EStateM.pure]
      split
      · have hf := calm_fabricCheck e a n (noteRead cls alloc a n s)
        have e1 : devBytes (fabricCheck e a n (noteRead cls alloc a n s)).2 a n = memRead s.mem a n := by
          unfold devBytes; rw [hf.mem, hn.mem]
        rw [e1]
        exact ⟨_, _, rfl, hn.trans hf⟩
      · have e1 : devBytes (noteRead cls alloc a n s) a n = memRead s.mem a n := by unfold devBytes; rw [hn.mem]
        rw [e1]
        exact ⟨_, _, rfl, hn⟩
    obtain ⟨p1, t, h1, ht⟩ := ih u
    refine ⟨p0 || p1, t, ?_, hu.trans ht⟩
    unfold devLoads
    simp only [bind, EStateM.bind, h0, h1, pure, EStateM.pure, List.flatMap_cons, hu.mem]

theorem Served.calm {s t : State} {e : Env} {w : Bool} {a n : Nat} (h : Served s e w a n) (hx : ∀ c w a, xlat t c w a = xlat s c w a) :
    Served t e w a n := fun b h1 h2 => by rw [hx]; exact h b h1 h2

theorem pieces_of {s : State} {e : Env} {w : Bool} {a n : Nat} (h : Served s e w a n) :
    ∃ t, pieces e w a n s = .ok ((pagePieces (pieceFuel n) a n).map fun x => (devOf s e.ctx w x.1, x.2)) t ∧ Calm s t := by
  refine xlatRange_of e w _ s fun x hx => ?_
  obtain ⟨x, k⟩ := x
  have := pagePieces_mem _ _ _ _ _ hx
  obtain ⟨d, hd, _⟩ := h x this.1 (by omega)
  exact ⟨d, hd⟩

theorem devOf_within {s : State} {e : Env} {w : Bool} {a n x k j : Nat} (h : Served s e w a n) (hx : (x, k) ∈ pagePieces (pieceFuel n) a n)
    (hj : j < k) : devOf s e.ctx w (x + j) = devOf s e.ctx w x + j := by
  have := pagePieces_mem _ _ _ _ _ hx
  obtain ⟨d, hd, _⟩ := h x this.1 (by omega)
  unfold devOf
  rw [xlat_within (by omega) hd, hd]

theorem loadOn_of {s : State} {e : Env} {a n : Nat} (alloc : Bool) (hs : Idle s) (h : Served s e false a n) :
    ∃ p t, loadOn e alloc (moduleOf s) a n s = .ok (dataAt s e.ctx a n, p) t ∧ Calm s t := by
  obtain ⟨u, h1, hu⟩ := pieces_of h
  obtain ⟨p, t, h2, ht⟩ := devLoads_of e .read alloc ((pagePieces (pieceFuel n) a n).map fun x => (devOf s e.ctx false x.1, x.2)) u
  have h3 : ((pagePieces (pieceFuel n) a n).map fun x => (devOf s e.ctx false x.1, x.2)).flatMap (fun x => memRead u.mem x.1 x.2) = dataAt s e.ctx a n := by
    rw [hu.mem, List.flatMap_map]
    have : ∀ x ∈ pagePieces (pieceFuel n) a n, memRead s.mem (devOf s e.ctx false x.1) x.2 =
        (List.range x.2).map fun j => memGet s.mem (devOf s e.ctx false (x.1 + j)) := by
      intro x hx
      rw [memRead_eq_map]
      refine List.map_congr_left fun j hj => ?_
      rw [devOf_within h (x := x.1) (k := x.2) hx (List.mem_range.1 hj)]
    rw [List.flatMap_congr this]
    exact pagePieces_flat (fun x k => (List.range k).map fun j => memGet s.mem (devOf s e.ctx false (x + j)))
      (fun b => memGet s.mem (devOf s e.ctx false b)) (fun _ _ => rfl) a n
  rw [h3] at h2
  refine ⟨!(wholeMark p).isEmpty, { t with journal := .data (dataAt s e.ctx a n) (wholeMark p) :: s.journal }, ?_,
    (hu.trans ht).trans (calm_journal _ t)⟩
  unfold loadOn
  rw [eng_bind (noted_of (v := (dataAt s e.ctx a n, wholeMark p)) (t := t) hs (by
    simp only [bind, EStateM.bind, get, getThe, MonadStateOf.get, EStateM.get, if_true, h1, h2, pure, EStateM.pure]))]
  rfl

/-- A state and a later one of an engine that has only read and written context memory: the bytes, and the memory system's own
bookkeeping. -/
def Near (s t : State) : Prop := Calm { s with mem := t.mem } t

theorem Calm.near {s t : State} (h : Calm s t) : Near s t := calm_noRest h
theorem Near.refl (s : State) : Near s s := (Calm.refl s).near
theorem Near.trans {s t u : State} (h : Near s t) (k : Near t u) : Near s u := by
  have := calm_mem h u.mem
  exact Calm.trans this k
theorem Near.xlat {s t : State} (h : Near s t) (c : Nat) (w : Bool) (a : Nat) : xlat t c w a = xlat s c w a := by
  rw [Calm.xlat h]; exact xlat_congr rfl c w a
theorem Near.module {s t : State} (h : Near s t) : moduleOf t = moduleOf s := by
  have := congrArg moduleOf h.rest
  exact this

theorem devStore_of (e : Env) (alloc p : Bool) (a ca : Nat) (bs : List Byte) (s : State) (h : isSp a = true → spCore a = e.core) :
    ∃ t, devStore e alloc p a ca bs s = .ok () t ∧ Near s t ∧ SameOutside (fun d => a ≤ d ∧ d < a + bs.length) s t := by
  have hb : (isSp a && spCore a != e.core) = false := by
    cases hsp : isSp a with
    | false => rfl
    | true => simp [h hsp]
  have key : ∀ (fp : Bool) (u : State), Calm s u → ∃ t, (do
      let s := devWrite .write alloc a bs (p || fp) u
      set (if isSp a then { s with wrote := (unitsOf 128 a bs.length).foldl nins s.wrote } else s) : Eng Unit) s = .ok () t ∧ Near s t ∧
      SameOutside (fun d => a ≤ d ∧ d < a + bs.length) s t := by
    intro fp u hu
    have hw := calm_devWrite .write alloc a bs (p || fp) u
    have h1 : Calm { s with mem := memWrite s.mem a bs } (devWrite .write alloc a bs (p || fp) u) := by
      have := (calm_mem hu (memWrite u.mem a bs)).trans hw
      rw [hu.mem] at this
      exact this
    have h2 : Calm { s with mem := memWrite s.mem a bs } (if isSp a then { devWrite .write alloc a bs (p || fp) u with
        wrote := (unitsOf 128 a bs.length).foldl nins (devWrite .write alloc a bs (p || fp) u).wrote } else devWrite .write alloc a bs (p || fp) u) := by
      split
      · refine h1.trans ?_
        exact .of_rest rfl rfl
      · exact h1
    refine ⟨_, rfl, ?_, ?_⟩
    · have := h2.mem
      unfold Near
      rw [this]
      exact h2
    · intro d hd
      rw [h2.mem]
      exact memGet_memWrite_out bs a s.mem d (by omega)
  unfold devStore
  simp only [bind, EStateM.bind, get, getThe, MonadStateOf.get, EStateM.get, hb, Bool.false_eq_true, if_false]
  have hq : Calm s (if crosses e a then fabricCheck e a bs.length s else (false, s)).2 := by
    split
    · exact calm_fabricCheck e a bs.length s
    · exact .refl s
  exact key _ _ hq

theorem Near.idle {s t : State} (h : Near s t) (k : Idle s) : Idle t := Calm.idle h ⟨k.replay, k.stretch⟩

/-- A piece that goes into HBM or the core's own scratchpad stays whole. -/
theorem burstPieces_own {e : Env} {a n : Nat} (h : isSp a = true → spCore a = e.core) : burstPieces e a n = [(a, n)] := by
  unfold burstPieces
  have hb : (isSp a && spCore a != e.core) = false := by
    cases hsp : isSp a with
    | false => rfl
    | true => simp [h hsp]
  rw [hb]; rfl

theorem storePieces_of {e : Env} (alloc p : Bool) : ∀ (l : List (Nat × Nat)) (bs : List Byte) (s : State), Idle s →
    (∀ x ∈ l, ∃ d, xlat s e.ctx true x.1 = .dev d ∧ (isSp d = true → spCore d = e.core)) →
    ∃ t, storePieces e alloc p l bs s = .ok () t ∧ Near s t ∧
      SameOutside (fun d => ∃ x ∈ l, devOf s e.ctx true x.1 ≤ d ∧ d < devOf s e.ctx true x.1 + x.2) s t := by
  intro l
  induction l with
  | nil => exact fun bs s _ _ => ⟨s, rfl, .refl s, fun d _ => rfl⟩
  | cons x r ih =>
    intro bs s hs h
    obtain ⟨a, n⟩ := x
    obtain ⟨d, hd, hown⟩ := h (a, n) List.mem_cons_self
    have hd' : devOf s e.ctx true a = d := by unfold devOf; rw [show xlat s e.ctx true a = _ from hd]
    obtain ⟨u, h1, hu⟩ := xlatRange_of e true [(a, n)] s (fun x hx => by
      rw [List.mem_singleton] at hx; subst hx; exact ⟨d, hd⟩)
    obtain ⟨v, k1, k2, k3⟩ := devStore_of e alloc p d a (bs.take n) u hown
    have hv := hu.near.trans k2
    have e1 := once_of (x := do
      let ps ← xlatRange e true [(a, n)]
      match ps with
      | (d, _) :: _ => devStore e alloc p d a (bs.take n)
      | [] => pure ()) (t := v) hs (by
        rw [eng_bind h1]
        show devStore e alloc p (devOf s e.ctx true a) a (bs.take n) u = _
        rw [hd', k1])
    have hw : Near s { v with journal := .done :: s.journal } := hv.trans (calm_journal _ v).near
    obtain ⟨t, m1, m2, m3⟩ := ih (bs.drop n) { v with journal := .done :: s.journal } (hw.idle hs) (fun x hx => by
      obtain ⟨d, h2, h3⟩ := h x (List.mem_cons_of_mem _ hx)
      exact ⟨d, by rw [hw.xlat]; exact h2, h3⟩)
    refine ⟨t, ?_, hw.trans m2, fun b hb => ?_⟩
    · unfold storePieces
      exact (eng_bind e1).trans m1
    · rw [m3 b ?_]
      · show memGet v.mem b = _
        rw [k3 b ?_, hu.mem]
        rintro ⟨h4, h5⟩
        refine hb ⟨(a, n), List.mem_cons_self, ?_, ?_⟩
        · rw [hd']; exact h4
        · have := List.length_take_le n bs
          dsimp only; rw [hd']; omega
      · rintro ⟨x, hx, h4⟩
        have : devOf { v with journal := .done :: s.journal } e.ctx true x.1 = devOf s e.ctx true x.1 := by
          unfold devOf; rw [hw.xlat]
        rw [this] at h4
        exact hb ⟨x, List.mem_cons_of_mem _ hx, h4⟩

theorem storeOn_of {s : State} {e : Env} {a : Nat} {bs : List Byte} (alloc p : Bool) (hs : Idle s) (h : Served s e true a bs.length) :
    ∃ t, storeOn e alloc (moduleOf s) a bs p s = .ok () t ∧ Near s t ∧ SameOutside (written s e.ctx a bs.length) s t := by
  obtain ⟨u, h1, hu⟩ := pieces_of h
  have hl : ((pagePieces (pieceFuel bs.length) a bs.length).flatMap fun x => burstPieces e x.1 x.2) = pagePieces (pieceFuel bs.length) a bs.length := by
    have : ∀ x ∈ pagePieces (pieceFuel bs.length) a bs.length, burstPieces e x.1 x.2 = [x] := fun x hx => by
      have hm := pagePieces_mem _ _ _ _ _ hx
      obtain ⟨d, h2, h3⟩ := h x.1 hm.1 (by omega)
      refine burstPieces_own fun hsp => ?_
      have : d = x.1 := by
        unfold xlat at h2
        rw [if_neg (by unfold isSp spBase at hsp; simp only [decide_eq_true_eq] at hsp; omega), if_pos hsp] at h2
        split at h2
        · injection h2 with h2; exact h2.symm
        · cases h2
      rw [← this] at hsp ⊢
      exact h3 rfl hsp
    rw [List.flatMap_congr this]
    simp
  have e1 := once_of (x := do let _ ← pieces e true a bs.length) (t := u) hs (by rw [eng_bind h1]; rfl)
  have hw : Near s { u with journal := .done :: s.journal } := hu.near.trans (calm_journal _ u).near
  obtain ⟨t, m1, m2, m3⟩ := storePieces_of (e := e) alloc p (pagePieces (pieceFuel bs.length) a bs.length) bs _ (hw.idle hs) (fun x hx => by
    have := pagePieces_mem _ _ _ _ _ hx
    obtain ⟨d, h2, h3⟩ := h x.1 this.1 (by omega)
    exact ⟨d, by rw [hw.xlat]; exact h2, h3 rfl⟩)
  refine ⟨t, ?_, hw.trans m2, fun d hd => ?_⟩
  · unfold storeOn
    simp only [bind, EStateM.bind, get, getThe, MonadStateOf.get, EStateM.get, if_true] at e1 ⊢
    rw [e1, hl]; exact m1
  · rw [m3 d ?_]
    · show memGet u.mem d = _
      rw [hu.mem]
    rintro ⟨x, hx, h4, h5⟩
    have e2 : devOf { u with journal := .done :: s.journal } e.ctx true x.1 = devOf s e.ctx true x.1 := by unfold devOf; rw [hw.xlat]
    rw [e2] at h4 h5
    have hm := pagePieces_mem _ _ _ _ _ hx
    refine hd ⟨x.1 + (d - devOf s e.ctx true x.1), by omega, by omega, ?_⟩
    rw [devOf_within h (x := x.1) (k := x.2) hx (by omega)]
    omega

end Sys2Proof.Machine
end

