-- ==== Sys2Proof/Laws/Rows.lean ====
section
/-! SUPPORT. Rows: a write of an entry that `opens` admits reaches its unit; an engine's row whose repeats come to their end. -/

namespace Sys2Proof.Machine

open Sys2Proof.Safety

theorem unitRow_opens {w : Who} {index sub v : Nat} {s : State} {e : Entry} (he : entryOf index sub = some e)
    (ho : opens w index sub v s = true) (hro : e.access ≠ .ro) (hack : e.access ≠ .ack) (hkey : ¬ (index = 0x1000 ∧ sub = 0x10)) :
    unitRow w index sub v s =
      answer w ((unitW w.path e index sub (toLe e.type.bytes v) (countAccess s)).1, [],
        lockPath w.path (unitW w.path e index sub (toLe e.type.bytes v) (countAccess s)).2) := by
  have htl : ∀ n v, (toLe n v).length = n := by
    intro n; induction n with
    | zero => intro v; simp [toLe]
    | succ n ih => intro v; simp [toLe, ih]
  simp only [opens, he, Bool.and_eq_true, Bool.or_eq_true, bne_iff_ne, ne_eq, decide_eq_true_eq] at ho
  obtain ⟨⟨⟨⟨⟨hs, hp⟩, ha⟩, hl⟩, hv⟩, hvo⟩ := ho
  have ha' : available (countAccess s) e index = true := ha
  have hps : pathState (countAccess s) w.path = pathState s w.path := rfl
  have htr : travel e.type (travel e.type (toLe e.type.bytes v)) = toLe e.type.bytes v := by
    unfold travel; split <;> simp
  have hlen : (travel e.type (toLe e.type.bytes v)).length = e.type.bytes := by
    unfold travel; split <;> simp [htl]
  have hk : (index == 0x1000 && sub == 0x10) = false := by
    rw [Bool.eq_false_iff]; simpa using hkey
  unfold unitRow
  simp only [he, hv, if_true, dictWrite, served, hs]
  simp only [writeAccess, he, ne_eq, not_true, hlen, or_self, if_false, htr]
  simp only [writeEntry, reachStatus, hp, ha', hk, hps]
  have hl' : ¬ (e.access = .rwl ∧ (pathState s w.path).unlocked = false) := by
    rintro ⟨h1, h2⟩; rcases hl with h | h
    · exact h h1
    · simp [h2] at h
  simp [hl']
  

theorem ofLe_toLe : ∀ n v, v < 256 ^ n → ofLe (toLe n v) = v := by
  intro n; induction n with
  | zero => intro v h; simp at h; simp [toLe, ofLe, h]
  | succ n ih =>
    intro v h
    have : v / 256 < 256 ^ n := by
      rw [Nat.div_lt_iff_lt_mul (by decide)]; rwa [Nat.pow_succ] at h
    simp only [toLe, ofLe, ih _ this, BitVec.toNat_ofNat]; omega

/-- An entry that a unit row writes: not read-only, no ACK, no unlock, and no octet string. -/
def plainEntry (index sub : Nat) : Bool :=
  match entryOf index sub with
  | some e => e.access != .ro && e.access != .ack && !(index == 0x1000 && sub == 0x10) && (match e.type with | .octets _ => false | _ => true)
  | none => false

theorem unitRow_plain {w : Who} {index sub v : Nat} {s : State} (ho : opens w index sub v s = true) (hp : plainEntry index sub = true) :
    unitRow w index sub v s = (fun r : Nat × State => answer w (r.1, [], lockPath w.path r.2))
      (if index < 0x3800 then unitLowW w.path index sub v (countAccess s)
       else if index < 0x4000 then unitMidW w.path index sub v (countAccess s)
       else unitHighW w.path index sub v (countAccess s)) := by
  unfold plainEntry at hp
  cases he : entryOf index sub with
  | none => simp [he] at hp
  | some e =>
    rw [he] at hp
    simp only [Bool.and_eq_true, bne_iff_ne, ne_eq, Bool.not_eq_true'] at hp
    obtain ⟨⟨⟨h1, h2⟩, h3⟩, h4⟩ := hp
    have ht : ∀ n, e.type ≠ .octets n := by intro n hn; simp [hn] at h4
    rw [unitRow_opens he ho h1 h2 (by rintro ⟨a, b⟩; simp [a, b] at h3)]
    have hv : v < 256 ^ e.type.bytes ∧ valueOk index sub v = true := by
      simp only [opens, he, Bool.and_eq_true, Bool.or_eq_true, decide_eq_true_eq, beq_iff_eq] at ho
      exact ⟨ho.1.2, ho.2.resolve_left h2⟩
    have : unitW w.path e index sub (toLe e.type.bytes v) (countAccess s) =
      (if index < 0x3800 then unitLowW w.path index sub v (countAccess s)
       else if index < 0x4000 then unitMidW w.path index sub v (countAccess s)
       else unitHighW w.path index sub v (countAccess s)) := by
      unfold unitW
      rw [ofLe_toLe _ _ hv.1]
      split
      · rename_i n h; exact absurd h (ht n)
      · simp [hv.2]
    rw [this]

theorem wrote_answer (w : Who) (t : State) : answer w (0, [], lockPath w.path t) = wrote w t := rfl
theorem refused_answer (w : Who) (st : Nat) (t : State) : answer w (st, [], lockPath w.path t) = refusedWith w st t := rfl

/-! ## Engines' rows -/

/-- A command whose repeats all come to their end ends the instruction. -/
theorem runRepeats_of {c : Nat} {q : QueueId} {i : Issued} {run : Nat → Eng (List SealMsg)} {n r j posts s posts' t}
    (h : Repeats c run i n r j posts s posts' t) : runRepeats c q i run n r j posts s = endOk c q i posts' t := by
  induction h with
  | none => rfl
  | one he hs _ ih =>
    unfold runRepeats
    rw [he]
    dsimp only
    rw [if_neg]
    · exact ih
    · intro hx
      rw [Bool.and_eq_true, bne_iff_ne] at hx
      exact hx.2 (hs hx.1)

/-- A row whose head finishes ends it. -/
theorem runEngine_of {c : Nat} {q : QueueId} {op : Nat} {run : Issued → Nat → Eng (List SealMsg)} {s i posts t}
    (h : Finishes c q op run s i posts t) : runEngine c q op run s = endOk c q i posts t := by
  unfold runEngine
  rw [h.head]
  exact runRepeats_of h.repeats

/-- Repeats that can each be done come to their end. -/
theorem repeats_of_can {c : Nat} {run : Nat → Eng (List SealMsg)} {i : Issued} {can : Nat → State → Prop}
    (hc : ∀ r s, can r s → ∃ p u, runFrom [] false (run r) s = .ok p u) :
    ∀ n r s posts, EachCan c run i can n r s → ∃ posts' t, Repeats c run i n r [] posts s posts' t
  | 0, _, s, posts, _ => ⟨posts, s, .none⟩
  | n + 1, r, s, posts, h => by
    obtain ⟨hs, hr, hn⟩ := h
    obtain ⟨p, u, hu⟩ := hc r s hr
    obtain ⟨posts', t, ht⟩ := repeats_of_can hc n (r + 1) _ (posts ++ p) (hn p u hu)
    exact ⟨posts', t, .one (by rw [hs]; exact hu) (by simp [hs]) ht⟩

/-- A row whose repeats can each be done comes to its end. -/
theorem finishes_of_can {c : Nat} {q : QueueId} {op : Nat} {run : Issued → Nat → Eng (List SealMsg)}
    {can : Issued → Nat → State → Prop} {s : State} {i : Issued} (h : CanRun c q op run can s i)
    (hc : ∀ r s, can i r s → ∃ p u, runFrom [] false (run i r) s = .ok p u) :
    ∃ posts t, Finishes c q op run s i posts t := by
  obtain ⟨posts, t, ht⟩ := repeats_of_can hc _ _ _ i.posts h.repeats
  exact ⟨posts, t, h.head, by rw [h.fresh]; exact ht⟩

end Sys2Proof.Machine
end

