-- ==== Sys2Proof/Laws/Work.lean ====
section
/-! SUPPORT. Work on granules, access by access: what is served comes to its end and writes nothing but what it names. -/

namespace Sys2Proof.Machine

open Sys2Proof.Safety

/-- One access of work on granules: a read with its checks, a read of what stands there, a write. -/
inductive Access where
  | read (r : GranRead)
  | again (y : Nat × Nat)
  | write (y : Nat × Nat)

/-- The accesses of a piece of work, in their order. -/
def Work.accesses (x : Safety.Work) : List Access := x.reads.map .read ++ (x.again.map .again ++ x.writes.map .write)

/-- An access can be made at once. -/
def accessReady (s : State) (e : Env) (P : Nat → Prop) : Access → Prop
  | .read r => GranServed s e false (r.module, r.addr) ∧ granHolds s e.ctx r = true
  | .again y => GranServed s e false y
  | .write y => GranServed s e true y ∧ ∀ d, written s e.ctx y.2 288 d → P d

/-- No access reads what one before it writes. -/
def apartFrom (s : State) (c : Nat) : Access → Access → Prop
  | .write w, .read r => Apart s c w.2 288 r.addr
  | _, _ => True

/-- What an access reads is no byte of a header that is written. -/
def apartHdrs (s : State) (c : Nat) (hdrs : List Nat) : Access → Prop
  | .read r => ∀ h ∈ hdrs, Apart s c h 64 r.addr
  | _ => True

/-- Accesses can be made in their order in a state s that work which began in s0 has reached, beside writes of headers: what they
read is still what it was, and P holds of every device byte they write. -/
structure Can (s0 : State) (e : Env) (hdrs : List Nat) (P : Nat → Prop) (s : State) (l : List Access) : Prop where
  headers : ∀ a ∈ hdrs, Served s0 e true a 64 ∧ Served s0 e false a 64 ∧ ∀ d, written s0 e.ctx a 64 d → P d
  ready   : ∀ x ∈ l, accessReady s0 e P x
  order   : l.Pairwise (apartFrom s0 e.ctx)
  apart   : ∀ x ∈ l, apartHdrs s0 e.ctx hdrs x
  same    : ∀ r, .read r ∈ l → dataAt s e.ctx r.addr 288 = dataAt s0 e.ctx r.addr 288

theorem Near.devOf {s t : State} (h : Near s t) (c : Nat) (w : Bool) (b : Nat) : devOf t c w b = devOf s c w b := by
  unfold Safety.devOf; rw [h.xlat]

theorem Near.written {s t : State} (h : Near s t) (c a n d : Nat) : written t c a n d ↔ written s c a n d := by
  unfold Safety.written; simp only [h.devOf]

theorem Near.apart {s t : State} (h : Near s t) (c w n r : Nat) : Apart t c w n r ↔ Apart s c w n r := by
  unfold Apart; simp only [h.devOf, h.written]

theorem Near.served {s t : State} (h : Near s t) {e : Env} {w : Bool} {a n : Nat} (k : Served s e w a n) : Served t e w a n :=
  Served.calm k h.xlat

/-- Data whose device bytes are untouched reads as before. -/
theorem dataAt_of {s t : State} (h : Near s t) (c a n : Nat)
    (hm : ∀ b, a ≤ b → b < a + n → memGet t.mem (Safety.devOf s c false b) = memGet s.mem (Safety.devOf s c false b)) :
    dataAt t c a n = dataAt s c a n := by
  unfold dataAt
  refine List.map_congr_left fun k hk => ?_
  rw [h.devOf]
  exact hm _ (by omega) (by have := List.mem_range.1 hk; omega)

section
variable {s0 s t : State} {e : Env} {hdrs : List Nat} {P : Nat → Prop} {l k : List Access}

theorem Can.to (h : Can s0 e hdrs P s l) (hd : ∀ r, .read r ∈ l → dataAt t e.ctx r.addr 288 = dataAt s e.ctx r.addr 288) :
    Can s0 e hdrs P t l := ⟨h.headers, h.ready, h.order, h.apart, fun r hr => (hd r hr).trans (h.same r hr)⟩

theorem Can.drop (h : Can s0 e hdrs P s (l ++ k)) : Can s0 e hdrs P s k :=
  ⟨h.headers, fun y hy => h.ready y (List.mem_append_right _ hy), (List.pairwise_append.1 h.order).2.1,
   fun y hy => h.apart y (List.mem_append_right _ hy), fun r hr => h.same r (List.mem_append_right _ hr)⟩

theorem Can.tail {x : Access} (h : Can s0 e hdrs P s (x :: l)) : Can s0 e hdrs P s l := Can.drop (l := [x]) h

theorem Can.calm (h : Can s0 e hdrs P s l) (k : Calm s t) : Can s0 e hdrs P t l :=
  h.to fun r _ => dataAt_of k.near _ _ _ fun b _ _ => by rw [k.mem]

end

/-- The accesses of a piece of work. -/
theorem mem_accesses {x : Safety.Work} {y : Access} (h : y ∈ Work.accesses x) :
    (∃ r ∈ x.reads, y = .read r) ∨ (∃ g ∈ x.again, y = .again g) ∨ ∃ g ∈ x.writes, y = .write g := by
  unfold Work.accesses at h
  rcases List.mem_append.1 h with h | h
  · obtain ⟨r, hr, rfl⟩ := List.mem_map.1 h; exact .inl ⟨r, hr, rfl⟩
  · rcases List.mem_append.1 h with h | h
    · obtain ⟨r, hr, rfl⟩ := List.mem_map.1 h; exact .inr (.inl ⟨r, hr, rfl⟩)
    · obtain ⟨r, hr, rfl⟩ := List.mem_map.1 h; exact .inr (.inr ⟨r, hr, rfl⟩)

/-- In one piece of work no write goes before a read. -/
theorem pairwise_accesses (s : State) (c : Nat) (x : Safety.Work) : (Work.accesses x).Pairwise (apartFrom s c) := by
  have free : ∀ {l : List Access}, (∀ a ∈ l, ∀ b, apartFrom s c a b) → l.Pairwise (apartFrom s c) := fun {l} h =>
    List.pairwise_iff_getElem.2 fun i j hi hj _ => h _ (List.getElem_mem hi) _
  unfold Work.accesses
  rw [List.pairwise_append]
  refine ⟨free fun a ha b => ?_, ?_, fun a ha b hb => ?_⟩
  · obtain ⟨r, _, rfl⟩ := List.mem_map.1 ha; exact trivial
  · rw [List.pairwise_append]
    refine ⟨free fun a ha b => ?_, List.pairwise_map.2 (List.pairwise_iff_getElem.2 fun i j _ _ _ => trivial), fun a ha b hb => ?_⟩
    · obtain ⟨r, _, rfl⟩ := List.mem_map.1 ha; exact trivial
    · obtain ⟨r, _, rfl⟩ := List.mem_map.1 ha; exact trivial
  · obtain ⟨r, _, rfl⟩ := List.mem_map.1 ha; exact trivial

/-- Work whose accesses can be made. -/
theorem can_of_workServed {s : State} {e : Env} {hdrs : List Nat} {l : List Safety.Work} (h : WorkServed s e hdrs l) :
    Can s e hdrs (workBytes s e.ctx hdrs l) s (l.flatMap Work.accesses) where
  headers a ha := ⟨(h.headers a ha).1, (h.headers a ha).2, fun d hd => .inl ⟨a, ha, hd⟩⟩
  ready y hy := by
    obtain ⟨x, hx, hy⟩ := List.mem_flatMap.1 hy
    rcases mem_accesses hy with ⟨r, hr, rfl⟩ | ⟨g, hg, rfl⟩ | ⟨g, hg, rfl⟩
    · exact h.reads x hx r hr
    · exact h.again x hx g hg
    · exact ⟨h.writes x hx g hg, fun d hd => .inr ⟨x, hx, g, hg, hd⟩⟩
  order := by
    rw [List.pairwise_flatMap]
    refine ⟨fun x _ => pairwise_accesses s e.ctx x, h.order.imp fun {x y} hxy a ha b hb => ?_⟩
    rcases mem_accesses ha with ⟨r, hr, rfl⟩ | ⟨g, hg, rfl⟩ | ⟨g, hg, rfl⟩
    · exact trivial
    · exact trivial
    · rcases mem_accesses hb with ⟨r, hr, rfl⟩ | ⟨k, hk, rfl⟩ | ⟨k, hk, rfl⟩
      · exact hxy g hg r hr
      · exact trivial
      · exact trivial
  apart y hy := by
    obtain ⟨x, hx, hy⟩ := List.mem_flatMap.1 hy
    rcases mem_accesses hy with ⟨r, hr, rfl⟩ | ⟨g, hg, rfl⟩ | ⟨g, hg, rfl⟩
    · exact h.apart x hx r hr
    · exact trivial
    · exact trivial
  same _ _ := rfl

/-! ## Programs that walk accesses -/

/-- A program makes the accesses of a list, in their order, whatever follows them, and answers a value of which Q holds. -/
def WalksTo (s0 : State) (e : Env) (hdrs : List Nat) (P : Nat → Prop) {α : Type} (Q : α → Prop) (x : Eng α) (l : List Access) : Prop :=
  ∀ s rest, Idle s → Near s0 s → Can s0 e hdrs P s (l ++ rest) →
    ∃ v t, x s = .ok v t ∧ Q v ∧ Near s t ∧ SameOutside P s t ∧ Can s0 e hdrs P t rest

/-- A program makes the accesses of a list, in their order, whatever follows them. -/
def Walks (s0 : State) (e : Env) (hdrs : List Nat) (P : Nat → Prop) {α : Type} (x : Eng α) (l : List Access) : Prop :=
  ∀ s rest, Idle s → Near s0 s → Can s0 e hdrs P s (l ++ rest) →
    ∃ v t, x s = .ok v t ∧ Near s t ∧ SameOutside P s t ∧ Can s0 e hdrs P t rest

section
variable {s0 : State} {e : Env} {hdrs : List Nat} {P : Nat → Prop} {α β : Type}

theorem WalksTo.walks {Q : α → Prop} {x : Eng α} {l : List Access} (h : WalksTo s0 e hdrs P Q x l) : Walks s0 e hdrs P x l := by
  intro s rest hi hn hc
  obtain ⟨v, t, h1, _, h2⟩ := h s rest hi hn hc
  exact ⟨v, t, h1, h2⟩

theorem Walks.to {x : Eng α} {l : List Access} (h : Walks s0 e hdrs P x l) : WalksTo s0 e hdrs P (fun _ => True) x l := by
  intro s rest hi hn hc
  obtain ⟨v, t, h1, h2⟩ := h s rest hi hn hc
  exact ⟨v, t, h1, trivial, h2⟩

theorem walksTo_pure {Q : α → Prop} {v : α} (hv : Q v) : WalksTo s0 e hdrs P Q (pure v) [] :=
  fun s _ _ _ h => ⟨v, s, rfl, hv, .refl s, fun _ _ => rfl, h⟩

theorem walks_pure (v : α) : Walks s0 e hdrs P (pure v) [] := (walksTo_pure (Q := fun _ => True) trivial).walks

theorem walksTo_bind {Q : α → Prop} {R : β → Prop} {x : Eng α} {f : α → Eng β} {l k : List Access} (h : WalksTo s0 e hdrs P Q x l)
    (hf : ∀ v, Q v → WalksTo s0 e hdrs P R (f v) k) : WalksTo s0 e hdrs P R (x >>= f) (l ++ k) := by
  intro s rest hi hn hc
  rw [List.append_assoc] at hc
  obtain ⟨v, t, h1, hq, h2, h3, h4⟩ := h s _ hi hn hc
  obtain ⟨w, u, k1, hr, k2, k3, k4⟩ := hf v hq t rest (h2.idle hi) (hn.trans h2) h4
  refine ⟨w, u, ?_, hr, h2.trans k2, fun d hd => (k3 d hd).trans (h3 d hd), k4⟩
  rw [eng_bind h1, k1]

theorem walks_bindTo {Q : α → Prop} {x : Eng α} {f : α → Eng β} {l k : List Access} (h : WalksTo s0 e hdrs P Q x l)
    (hf : ∀ v, Q v → Walks s0 e hdrs P (f v) k) : Walks s0 e hdrs P (x >>= f) (l ++ k) :=
  (walksTo_bind h fun v hv => (hf v hv).to).walks

theorem walks_bind {x : Eng α} {f : α → Eng β} {l k : List Access} (h : Walks s0 e hdrs P x l) (hf : ∀ v, Walks s0 e hdrs P (f v) k) :
    Walks s0 e hdrs P (x >>= f) (l ++ k) := walks_bindTo h.to fun v _ => hf v

/-- A last step that makes no access. -/
theorem walks_last {x : Eng α} {f : α → Eng β} {l : List Access} (h : Walks s0 e hdrs P x l) (hf : ∀ v, Walks s0 e hdrs P (f v) []) :
    Walks s0 e hdrs P (x >>= f) l := by
  have := walks_bind h hf
  rwa [List.append_nil] at this

theorem walksTo_last {Q : α → Prop} {R : β → Prop} {x : Eng α} {f : α → Eng β} {l : List Access} (h : WalksTo s0 e hdrs P Q x l)
    (hf : ∀ v, Q v → WalksTo s0 e hdrs P R (f v) []) : WalksTo s0 e hdrs P R (x >>= f) l := by
  have := walksTo_bind h hf
  rwa [List.append_nil] at this

/-- A first step that makes no access. -/
theorem walks_first {x : Eng α} {f : α → Eng β} {l : List Access} (h : Walks s0 e hdrs P x []) (hf : ∀ v, Walks s0 e hdrs P (f v) l) :
    Walks s0 e hdrs P (x >>= f) l := walks_bind h hf

theorem walksTo_mapE {R : β → α → Prop} {f : β → Eng α} {g : β → List Access} : ∀ (l : List β),
    (∀ x ∈ l, WalksTo s0 e hdrs P (R x) (f x) (g x)) → WalksTo s0 e hdrs P (fun v => List.Forall₂ R l v) (mapE f l) (l.flatMap g) := by
  intro l
  induction l with
  | nil => exact fun _ => walksTo_pure .nil
  | cons x r ih =>
    intro h
    rw [List.flatMap_cons]
    refine walksTo_bind (h x List.mem_cons_self) fun v hv => ?_
    exact walksTo_last (ih fun y hy => h y (List.mem_cons_of_mem _ hy)) fun vs hvs => walksTo_pure (.cons hv hvs)

theorem walks_mapE {f : β → Eng α} {g : β → List Access} (l : List β) (h : ∀ x ∈ l, Walks s0 e hdrs P (f x) (g x)) :
    Walks s0 e hdrs P (mapE f l) (l.flatMap g) :=
  (walksTo_mapE (R := fun _ _ => True) l fun x hx => (h x hx).to).walks

theorem walks_eachE {f : β → Eng Unit} {g : β → List Access} : ∀ (l : List β), (∀ x ∈ l, Walks s0 e hdrs P (f x) (g x)) →
    Walks s0 e hdrs P (eachE f l) (l.flatMap g) := by
  intro l
  induction l with
  | nil => exact fun _ => walks_pure ()
  | cons x r ih =>
    intro h
    rw [List.flatMap_cons]
    exact walks_bind (h x List.mem_cons_self) fun _ => ih fun y hy => h y (List.mem_cons_of_mem _ hy)

theorem walks_foldE {γ : Type} {f : γ → β → Eng γ} {g : β → List Access} : ∀ (l : List β), (∀ x ∈ l, ∀ v, Walks s0 e hdrs P (f v x) (g x)) →
    ∀ v, Walks s0 e hdrs P (foldE f v l) (l.flatMap g) := by
  intro l
  induction l with
  | nil => exact fun _ v => walks_pure v
  | cons x r ih =>
    intro h v
    rw [List.flatMap_cons]
    exact walks_bind (h x List.mem_cons_self v) fun _ => ih (fun y hy => h y (List.mem_cons_of_mem _ hy)) _

/-- A program may leave accesses out. -/
theorem walks_skip {x : Eng α} (l : List Access) (h : Walks s0 e hdrs P x []) : Walks s0 e hdrs P x l :=
  fun s rest hi hn hc => h s rest hi hn hc.drop

theorem walks_eachE_zip {γ : Type} {f : β × γ → Eng Unit} {g : β → List Access} : ∀ (l : List β) (k : List γ),
    (∀ x ∈ l, ∀ y, Walks s0 e hdrs P (f (x, y)) (g x)) → Walks s0 e hdrs P (eachE f (l.zip k)) (l.flatMap g) := by
  intro l
  induction l with
  | nil => exact fun _ _ => walks_pure ()
  | cons x r ih =>
    intro k h
    cases k with
    | nil => exact walks_skip _ (walks_pure ())
    | cons y k =>
      rw [List.flatMap_cons, List.zip_cons_cons]
      exact walks_bind (h x List.mem_cons_self y) fun _ => ih k fun y hy => h y (List.mem_cons_of_mem _ hy)

/-- Work on values that were read for the elements of a list. -/
theorem walks_eachE_of {γ : Type} {R : β → γ → Prop} {f : β × γ → Eng Unit} {g : β → List Access} : ∀ {l : List β} {k : List γ}, List.Forall₂ R l k →
    (∀ x y, R x y → Walks s0 e hdrs P (f (x, y)) (g x)) → Walks s0 e hdrs P (eachE f (l.zip k)) (l.flatMap g) := by
  intro l k h hf
  induction h with
  | nil => exact walks_pure ()
  | cons hx _ ih => rw [List.flatMap_cons, List.zip_cons_cons]; exact walks_bind (hf _ _ hx) fun _ => ih

theorem walks_get {f : State → Eng α} {l : List Access} (h : ∀ s, Near s0 s → Walks s0 e hdrs P (f s) l) : Walks s0 e hdrs P (get >>= f) l := by
  intro s rest hi hn hc
  exact h s hn s rest hi hn hc

theorem walksTo_get {Q : α → Prop} {f : State → Eng α} {l : List Access} (h : ∀ s, Near s0 s → WalksTo s0 e hdrs P Q (f s) l) :
    WalksTo s0 e hdrs P Q (get >>= f) l := by
  intro s rest hi hn hc
  exact h s hn s rest hi hn hc

theorem walksTo_atGran {Q : α → Prop} {x : Eng α} {l : List Access} (r p g : Nat) (h : WalksTo s0 e hdrs P Q x l) :
    WalksTo s0 e hdrs P Q (atGran r p g x) l := by
  intro s rest hi hn hc
  obtain ⟨v, t, h1, h2⟩ := h s rest hi hn hc
  exact ⟨v, t, by unfold atGran; rw [h1], h2⟩

theorem walks_atGran {x : Eng α} {l : List Access} (r p g : Nat) (h : Walks s0 e hdrs P x l) : Walks s0 e hdrs P (atGran r p g x) l :=
  (walksTo_atGran r p g h.to).walks

theorem walks_calm {x : Eng α} (h : ∀ s, Idle s → ∃ v t, x s = .ok v t ∧ Calm s t) : Walks s0 e hdrs P x [] := by
  intro s rest hi hn hc
  obtain ⟨v, t, h1, h2⟩ := h s hi
  exact ⟨v, t, h1, h2.near, fun d _ => by rw [h2.mem], hc.calm h2⟩

theorem walks_act {f : State → State} (h : ∀ s, Calm s (f s)) : Walks s0 e hdrs P (act f) [] :=
  walks_calm fun s hi => ⟨(), _, once_of hi rfl, (h s).trans (calm_journal _ _)⟩

theorem walks_checkpoint : Walks s0 e hdrs P checkpoint [] := walks_calm fun s hi => by
  refine ⟨(), { s with wrote := [], wroteFar := [], journal := .mark :: s.journal }, ?_, .of_rest rfl rfl⟩
  unfold checkpoint; rw [hi.replay]; dsimp only; rw [hi.stretch]; rfl

theorem walks_atomicDone : Walks s0 e hdrs P atomicDone [] := walks_act fun s => calm_addTotal _ _ _ s

theorem walks_draw : Walks s0 e hdrs P drawE [] := walks_calm fun s hi => by
  refine ⟨ofLe (toLe 8 (draw s).1), { (draw s).2 with journal := .data (toLe 8 (draw s).1) [] :: s.journal }, ?_, .of_rest rfl rfl⟩
  unfold drawE
  rw [eng_bind (noted_of (v := (toLe 8 (draw s).1, [])) (t := (draw s).2) hi rfl)]
  rfl

theorem walks_freeGran : Walks s0 e hdrs P freeGran [] := by
  have := walks_mapE (s0 := s0) (e := e) (hdrs := hdrs) (P := P) (f := fun _ => do
    let d ← drawE
    pure (d % 2 ^ 36)) (g := fun _ => []) (List.range 64) fun _ _ => walks_first walks_draw fun _ => walks_pure _
  rwa [List.flatMap_eq_nil_iff.2 fun _ _ => rfl] at this

theorem walks_need {r : Reason} {ad : Option (Nat × Bool)} {c : Bool} (h : c = true) : Walks s0 e hdrs P (needE c r ad) [] :=
  walks_calm fun s _ => ⟨(), s, need_of h r ad s, .refl s⟩

theorem walks_ite {c : Prop} [Decidable c] {x y : Eng α} {l : List Access} (h : c → Walks s0 e hdrs P x l) (k : ¬ c → Walks s0 e hdrs P y l) :
    Walks s0 e hdrs P (if c then x else y) l := by
  split
  · exact h ‹_›
  · exact k ‹_›

theorem walks_pos {c : Prop} [Decidable c] {x y : Eng α} {l : List Access} (h : c) (k : Walks s0 e hdrs P x l) :
    Walks s0 e hdrs P (if c then x else y) l := by
  rwa [if_pos h]

theorem walks_neg {c : Prop} [Decidable c] {x y : Eng α} {l : List Access} (h : ¬ c) (k : Walks s0 e hdrs P y l) :
    Walks s0 e hdrs P (if c then x else y) l := by
  rwa [if_neg h]

/-- Reading a granule as it stands. -/
theorem readRaw_of {s : State} {gr : Nat} {o : Obj} {c p g : Nat} (hi : Idle s) (h : GranServed s e false (granPlace (moduleOf s) gr o c p g)) :
    ∃ bad t, readRaw e gr o c p g s = .ok (unpackGran (dataAt s e.ctx (granPlace (moduleOf s) gr o c p g).2 288), bad) t ∧ Calm s t := by
  obtain ⟨h1, h2, h3⟩ := h
  obtain ⟨p', t, k1, k2⟩ := loadOn_of e.alloc hi h3
  refine ⟨p', t, ?_, k2⟩
  unfold readRaw
  simp only [bind, EStateM.bind, get, getThe, MonadStateOf.get, EStateM.get]
  unfold granAligned
  have ha : ((granPlace (moduleOf s) gr o c p g).2 % (if isSp (granPlace (moduleOf s) gr o c p g).2 then 8 else 32) == 0) = true := h2
  rw [need_of ha, h1]
  dsimp only
  rw [k1]
  rfl

theorem Near.granServed {s t : State} (h : Near s t) {w : Bool} {y : Nat × Nat} (k : GranServed s e w y) : GranServed t e w y :=
  ⟨k.1.trans h.module.symm, k.2.1, h.served k.2.2⟩

/-- Reading a granule again. -/
theorem walks_readRaw {gr : Nat} {o : Obj} {c p g : Nat} :
    Walks s0 e hdrs P (readRaw e gr o c p g) [.again (granPlace (moduleOf s0) gr o c p g)] := by
  intro s rest hi hn hc
  have h1 : GranServed s0 e false (granPlace (moduleOf s0) gr o c p g) := hc.ready (.again _) List.mem_cons_self
  have h2 := hn.granServed h1
  rw [← hn.module] at h2
  obtain ⟨bad, t, k1, k2⟩ := readRaw_of hi h2
  exact ⟨_, t, k1, k2.near, fun d _ => by rw [k2.mem], (hc.tail).calm k2⟩

/-- Reading a granule with its checks. -/
theorem walks_readGran {gr : Nat} {o : Obj} {c p g : Nat} :
    Walks s0 e hdrs P (readGran e gr (primeAt s0 (hChain o.h) p).q o c p g) [.read (readAt s0 gr o c p g)] := by
  intro s rest hi hn hc
  obtain ⟨h1, h2⟩ := hc.ready (.read (readAt s0 gr o c p g)) List.mem_cons_self
  have h5 := hc.same (readAt s0 gr o c p g) List.mem_cons_self
  have h3 := hn.granServed (e := e) h1
  have h4 : GranServed s e false (granPlace (moduleOf s) gr o c p g) := by rw [hn.module]; exact h3
  obtain ⟨bad, t, k1, k2⟩ := readRaw_of hi h4
  refine ⟨(unpackGran (dataAt s0 e.ctx (readAt s0 gr o c p g).addr 288), bad), t, ?_, k2.near, fun d _ => by rw [k2.mem], (hc.tail).calm k2⟩
  unfold readGran
  rw [eng_bind k1]
  have e1 : dataAt s e.ctx (granPlace (moduleOf s) gr o c p g).2 288 = dataAt s0 e.ctx (readAt s0 gr o c p g).addr 288 := by
    rw [hn.module]; exact h5
  rw [e1]
  unfold granHolds at h2
  simp only [Bool.and_eq_true] at h2
  exact (eng_bind (need_of h2.1 _ _ _)).trans ((eng_bind (need_of h2.2 _ _ _)).trans rfl)

theorem length_toLe : ∀ (n v : Nat), (toLe n v).length = n := by
  intro n
  induction n with
  | zero => intro v; rfl
  | succ n ih => intro v; simp [toLe, ih]

/-- A store into bytes that are served, which nothing still to be read holds. -/
theorem walks_store {m a : Nat} {bs : List Byte} {al bad : Bool} {s : State} {l : List Access} (hi : Idle s) (hn : Near s0 s) (hm : m = moduleOf s0)
    (hs : Served s0 e true a bs.length) (hp : ∀ d, written s0 e.ctx a bs.length d → P d) (hc : Can s0 e hdrs P s l)
    (hr : ∀ r, .read r ∈ l → Apart s0 e.ctx a bs.length r.addr) :
    ∃ t, storeOn e al m a bs bad s = .ok () t ∧ Near s t ∧ SameOutside P s t ∧ Can s0 e hdrs P t l := by
  subst hm
  obtain ⟨t, k1, k2, k3⟩ := storeOn_of al bad hi (hn.served hs)
  rw [hn.module] at k1
  refine ⟨t, k1, k2, fun d hd => k3 d fun h => hd (hp d ((hn.written ..).1 h)), hc.to fun r hx => dataAt_of k2 _ _ _ fun b h1 h2 => k3 _ ?_⟩
  rw [hn.written, hn.devOf]
  exact hr r hx b h1 h2

/-- Writing the granule that comes next. -/
theorem walks_write {hd m a : Nat} {rs : List Nat} {al bad : Bool} :
    Walks s0 e hdrs P (do granAligned hd a; storeOn e al m a (packGran rs) bad : Eng Unit) [.write (m, a)] := by
  intro s rest hi hn hc
  obtain ⟨⟨h1, h2, h3⟩, h4⟩ := hc.ready (.write (m, a)) List.mem_cons_self
  dsimp only at h1 h2 h3 h4
  have hl : (packGran rs).length = 288 := length_toLe _ _
  obtain ⟨t, k1, k2⟩ := walks_store (al := al) (bad := bad) (bs := packGran rs) hi hn h1 (by rw [hl]; exact h3) (by rw [hl]; exact h4) hc.tail
    (by intro r hr; rw [hl]; exact (List.pairwise_cons.1 hc.order).1 (.read r) hr)
  refine ⟨(), t, ?_, k2⟩
  rw [eng_bind (show granAligned hd a s = .ok () s from need_of h2 _ _ s), k1]

/-- Writing a granule of this module that comes next. -/
theorem walks_writeHere {hd a : Nat} {rs : List Nat} {bad : Bool} :
    Walks s0 e hdrs P (do granAligned hd a; store e a (packGran rs) bad : Eng Unit) [.write (moduleOf s0, a)] := by
  intro s rest hi hn hc
  obtain ⟨v, t, k1, k2⟩ := walks_write (hd := hd) (m := moduleOf s0) (a := a) (rs := rs) (al := e.alloc) (bad := bad) s rest hi hn hc
  refine ⟨v, t, ?_, k2⟩
  have h2 := (hc.ready (.write (moduleOf s0, a)) List.mem_cons_self).1.2.1
  rw [eng_bind (show granAligned hd a s = .ok () s from need_of h2 _ _ s)] at k1 ⊢
  rw [← k1, ← hn.module]
  rfl

theorem walks_writeGran {gr : Nat} {o : Obj} {c p g : Nat} {rs : List Nat} {bad : Bool} :
    Walks s0 e hdrs P (writeGran e gr o c p g rs bad) [.write (granPlace (moduleOf s0) gr o c p g)] := by
  unfold writeGran
  refine walks_get fun s hn => ?_
  rw [hn.module]
  exact walks_write

theorem walks_loadHdr {a : Nat} (ha : a ∈ hdrs) : Walks s0 e hdrs P (load e a 64) [] := by
  unfold load
  intro s rest hi hn hc
  obtain ⟨p, t, k1, k2⟩ := loadOn_of e.alloc hi (hn.served (hc.headers a ha).2.1)
  exact ⟨_, t, k1, k2.near, fun d _ => by rw [k2.mem], hc.calm k2⟩

theorem walks_writeHdr {a h : Nat} (ha : a ∈ hdrs) : Walks s0 e hdrs P (writeHdr e a h) [] := by
  unfold writeHdr store
  intro s rest hi hn hc
  have hl : (toLe 64 (withCheck 64 h)).length = 64 := length_toLe _ _
  obtain ⟨t, k1, k2⟩ := walks_store (al := e.alloc) (bad := false) (bs := toLe 64 (withCheck 64 h)) hi hn rfl (by rw [hl]; exact (hc.headers a ha).1)
    (by rw [hl]; exact (hc.headers a ha).2.2) hc (by intro r hr; rw [hl]; exact hc.apart (.read r) hr a ha)
  rw [← hn.module] at k1
  exact ⟨(), t, k1, k2⟩

theorem walks_hdrPoison {a : Nat} (ha : a ∈ hdrs) : Walks s0 e hdrs P (hdrPoison e a) [] := by
  unfold hdrPoison
  exact walks_first (walks_loadHdr ha) fun x =>
    walks_ite (fun _ => walks_atomicDone) fun _ => walks_first (walks_writeHdr ha) fun _ => walks_atomicDone

theorem walks_startHdr {a h : Nat} {p : Bool} (ha : a ∈ hdrs) : Walks s0 e hdrs P (startHdr e a h p) [] := walks_writeHdr ha
theorem walks_commitHdr {a h : Nat} {p : Bool} (ha : a ∈ hdrs) : Walks s0 e hdrs P (commitHdr e a h p) [] := walks_writeHdr ha

end

/-! ## The polynomial engine's work -/

section
variable {s0 : State} {j : PolyJob} {hdrs : List Nat} {P : Nat → Prop}

theorem Near.prime {s t : State} (h : Near s t) (ch p : Nat) : primeAt t ch p = primeAt s ch p := by
  have := congrArg (fun u : State => primeAt u ch p) h.rest
  exact this

theorem walks_prime {α : Type} {p : Nat} {f : Prime → Eng α} {l : List Access} (h : Walks s0 j.e hdrs P (f (primeAt s0 j.ch p)) l) :
    Walks s0 j.e hdrs P (jPrime j p >>= f) l := by
  intro s rest hi hn hc
  have : (jPrime j p >>= f) s = f (primeAt s j.ch p) s := rfl
  rw [this, hn.prime]
  exact h s rest hi hn hc

theorem walks_jRead {o : Obj} {c p g : Nat} : Walks s0 j.e hdrs P (jRead j o c p g) [.read (readAt s0 j.gr o c p g)] := by
  unfold jRead
  refine walks_get fun s hn => ?_
  rw [hn.prime]
  exact walks_atGran _ _ _ walks_readGran

theorem walks_jWrite {c p g : Nat} {v : List Nat} {bad : Bool} : Walks s0 j.e hdrs P (jWrite j c p g v bad) [.write (destAt s0 j c p g)] := by
  unfold jWrite
  dsimp only
  exact walks_ite (fun _ => walks_first walks_freeGran fun _ => walks_atGran _ _ _ walks_writeGran) fun _ =>
    walks_first (walks_pure _) fun _ => walks_atGran _ _ _ walks_writeGran

theorem walks_jMark (hd : j.d.addr ∈ hdrs) {was bad : Bool} : Walks s0 j.e hdrs P (jMark j was bad) [] :=
  by unfold jMark; exact walks_ite (fun _ => walks_hdrPoison hd) fun _ => walks_pure _

/-- One run of granules: its reads, and then its writes. -/
theorem walks_runWork (hd : j.d.addr ∈ hdrs) {p : Nat} {gs cs : List Nat} {read : Nat → Eng (List (Nat × List Nat) × Bool)}
    {ra : Nat → List GranRead} {was : Bool}
    (h : ∀ g ∈ gs, WalksTo s0 j.e hdrs P (fun v => v.1.map Prod.fst = cs) (read g) ((ra g).map .read)) :
    Walks s0 j.e hdrs P (runWork j p gs read was) (Work.accesses {
      reads := gs.flatMap ra, writes := gs.flatMap fun g => cs.map fun c => destAt s0 j c p g }) := by
  unfold runWork Work.accesses
  dsimp only
  rw [List.map_flatMap, List.map_nil, List.nil_append, List.map_flatMap]
  refine walks_bindTo (walksTo_mapE gs h) fun l hl => ?_
  refine walks_first (walks_jMark hd) fun _ => ?_
  refine walks_last ?_ fun _ => walks_first walks_checkpoint fun _ => walks_pure _
  refine walks_eachE_of hl fun g v hv => ?_
  rw [List.map_map, ← hv, List.map_map, List.map_eq_flatMap]
  exact walks_eachE v.1 fun y _ => walks_jWrite

/-- A run whose granules each give one result. -/
theorem walks_runOne (hd : j.d.addr ∈ hdrs) {c p : Nat} {gs : List Nat} {read : Nat → Eng (List (Nat × List Nat) × Bool)}
    {ra : Nat → List GranRead} {was : Bool}
    (h : ∀ g ∈ gs, WalksTo s0 j.e hdrs P (fun v => v.1.map Prod.fst = [c]) (read g) ((ra g).map .read)) :
    Walks s0 j.e hdrs P (runWork j p gs read was) (Work.accesses { reads := gs.flatMap ra, writes := gs.map (destAt s0 j c p) }) := by
  have := walks_runWork hd (was := was) (p := p) h
  rwa [show (gs.flatMap fun g => [c].map fun c => destAt s0 j c p g) = gs.map (destAt s0 j c p) by rw [List.map_eq_flatMap]; rfl] at this

/-- A list of pieces of work done one after another. -/
theorem walks_pieces {β γ : Type} {f : γ → β → Eng γ} {g : β → Safety.Work} (l : List β)
    (h : ∀ x ∈ l, ∀ v, Walks s0 j.e hdrs P (f v x) (Work.accesses (g x))) (v : γ) :
    Walks s0 j.e hdrs P (foldE f v l) ((l.map g).flatMap Work.accesses) := by
  rw [List.flatMap_map]
  exact walks_foldE l h v

theorem walks_moves (hd : j.d.addr ∈ hdrs) {cs gs : List Nat} {was : Bool} : Walks s0 j.e hdrs P
    (foldE (fun was (x : Nat × Nat × List Nat) => runWork j x.2.1 x.2.2 (fun g => do
        let (v, bad) ← jRead j j.a x.1 x.2.1 g
        pure ([(x.1, v)], bad)) was) was (limbRuns cs (pPos j.w) gs)) ((movePieces s0 j cs gs).flatMap Work.accesses) := by
  unfold movePieces
  refine walks_pieces _ (fun x _ v => ?_) was
  have := walks_runOne hd (was := v) (c := x.1) (p := x.2.1) (gs := x.2.2) (ra := fun g => [readAt s0 j.gr j.a x.1 x.2.1 g]) (P := P) (s0 := s0) (read := fun g => do
        let (v, bad) ← jRead j j.a x.1 x.2.1 g
        pure ([(x.1, v)], bad)) fun g _ => walksTo_last walks_jRead.to fun v _ => walksTo_pure rfl
  rwa [← List.map_eq_flatMap] at this

theorem walks_jCopy (hd : j.d.addr ∈ hdrs) {was : Bool} :
    Walks s0 j.e hdrs P (jCopy j was) ((movePieces s0 j (copyComps j) (List.range j.gr)).flatMap Work.accesses) := by
  unfold jCopy copyComps
  by_cases h : j.copy = true
  · rw [if_pos h, if_pos h]; exact walks_moves hd
  · rw [if_neg h, if_neg h]; exact walks_pure _

theorem walks_transpose (hd : j.d.addr ∈ hdrs) :
    Walks s0 j.e hdrs P (dataTranspose j) ((movePieces s0 j (pComps j.w) (pRows j.w)).flatMap Work.accesses) := walks_moves hd

theorem walks_pointWork (hd : j.d.addr ∈ hdrs) (f : PolyJob → Prime → Nat → List Nat → List Nat → List Nat → List Nat) :
    Walks s0 j.e hdrs P (pointWork f j) ((pointPieces s0 j).flatMap Work.accesses) := by
  unfold pointWork pointPieces
  refine walks_pieces _ (fun x _ v => ?_) _
  obtain ⟨c, p, gs⟩ := x
  refine walks_prime (walks_runOne hd (c := c) fun g _ => ?_)
  rw [List.map_cons, List.map_append]
  refine walksTo_bind (l := [_]) walks_jRead.to fun va _ => ?_
  by_cases ho : readsOld j.op = true
  · rw [if_pos ho]
    cases j.b with
    | none =>
      refine walksTo_bind (l := []) (walksTo_pure (Q := fun _ => True) trivial) fun vb _ => ?_
      obtain ⟨b, pb⟩ := vb
      dsimp only
      rw [if_pos ho]
      exact walksTo_last (l := [_]) walks_jRead.to fun vd _ => walksTo_pure rfl
    | some o =>
      refine walksTo_bind (l := [_]) walks_jRead.to fun vb _ => ?_
      obtain ⟨b, pb⟩ := vb
      dsimp only
      rw [if_pos ho]
      exact walksTo_last (l := [_]) walks_jRead.to fun vd _ => walksTo_pure rfl
  · rw [if_neg ho]
    cases j.b with
    | none =>
      refine walksTo_bind (l := []) (walksTo_pure (Q := fun _ => True) trivial) fun vb _ => ?_
      obtain ⟨b, pb⟩ := vb
      dsimp only
      rw [if_neg ho]
      exact walksTo_last (l := []) (walksTo_pure (Q := fun _ => True) trivial) fun vd _ => walksTo_pure rfl
    | some o =>
      refine walksTo_bind (l := [_]) walks_jRead.to fun vb _ => ?_
      obtain ⟨b, pb⟩ := vb
      dsimp only
      rw [if_neg ho]
      exact walksTo_last (l := []) (walksTo_pure (Q := fun _ => True) trivial) fun vd _ => walksTo_pure rfl

theorem walks_tensor (hd : j.d.addr ∈ hdrs) : Walks s0 j.e hdrs P (dataTensor j) ((tensorPieces s0 j).flatMap Work.accesses) := by
  unfold dataTensor
  have : ∀ x ∈ (pPos j.w).flatMap (fun p => (runsOf (List.range j.gr)).map fun r => (p, r)), ∀ v : Bool, Walks s0 j.e hdrs P (do
    let (p, gs) := x
    let m ← jPrime j p
    let b := j.b.getD j.a
    runWork j p gs (fun g => do
      let (a0, q0) ← jRead j j.a 0 p g
      let (a1, q1) ← jRead j j.a 1 p g
      let (b0, q2) ← jRead j b 0 p g
      let (b1, q3) ← jRead j b 1 p g
      pure ((pComps j.w).map fun c => (c, tensorOut m a0 a1 b0 b1 c), q0 || q1 || q2 || q3)) v : Eng Bool)
      (Work.accesses {
        reads := x.2.flatMap fun g => [readAt s0 j.gr j.a 0 x.1 g, readAt s0 j.gr j.a 1 x.1 g, readAt s0 j.gr (j.b.getD j.a) 0 x.1 g,
          readAt s0 j.gr (j.b.getD j.a) 1 x.1 g],
        writes := x.2.flatMap fun g => (pComps j.w).map fun c => destAt s0 j c x.1 g }) := by
    intro x _ v
    obtain ⟨p, gs⟩ := x
    refine walks_prime (walks_runWork hd fun g _ => ?_)
    refine walksTo_bind (l := [_]) walks_jRead.to fun _ _ => walksTo_bind (l := [_]) walks_jRead.to fun _ _ =>
      walksTo_bind (l := [_]) walks_jRead.to fun _ _ => walksTo_last (l := [_]) walks_jRead.to fun _ _ => walksTo_pure ?_
    rw [List.map_map]
    exact List.map_id' _
  have := walks_pieces _ this j.poison
  rw [List.map_flatMap, List.flatMap_congr fun x _ => List.map_map] at this
  exact this

theorem walks_bconv (hd : j.d.addr ∈ hdrs) : Walks s0 j.e hdrs P (dataBconv j) ((bconvPieces s0 j).flatMap Work.accesses) := by
  unfold dataBconv
  have hp : ∀ l : List Nat, Walks s0 j.e hdrs P (mapE (jPrime j) l) [] := fun l => by
    have := walks_mapE (s0 := s0) (e := j.e) (hdrs := hdrs) (P := P) l (f := jPrime j) (g := fun _ => []) fun _ _ =>
      walks_calm fun s _ => ⟨_, s, rfl, .refl s⟩
    rwa [List.flatMap_eq_nil_iff.2 fun _ _ => rfl] at this
  refine walks_first (hp _) fun src => walks_first (hp _) fun dst => ?_
  have : ∀ x ∈ (pComps j.w).flatMap (fun c => (pRows j.w).map fun g => (c, g)), ∀ was : Bool, Walks s0 j.e hdrs P (do
    let (c, g) := x
    let l ← mapE (fun p => jRead j j.a (compOf j.a c) p g) j.tab.src
    let bad := l.any (·.2)
    jMark j was bad
    let out := bconvRow src dst j.tab.ta j.tab.tb (l.map (·.1))
    act (addTotal 0x3300 3 (bconvTiles j.tab.dst.length))
    eachE (fun (y : Nat × List Nat) => jWrite j c y.1 g y.2 bad) (j.tab.dst.zip out)
    checkpoint
    pure (was || bad) : Eng Bool) (Work.accesses {
      reads := j.tab.src.map fun p => readAt s0 j.gr j.a (compOf j.a x.1) p x.2,
      writes := j.tab.dst.map fun p => destAt s0 j x.1 p x.2 }) := by
    intro x _ was
    obtain ⟨c, g⟩ := x
    unfold Work.accesses
    dsimp only
    rw [List.map_map, List.map_nil, List.nil_append, List.map_map, List.map_eq_flatMap, List.map_eq_flatMap]
    refine walks_bind (walks_mapE _ fun p _ => walks_jRead) fun l => walks_first (walks_jMark hd) fun _ =>
      walks_first (walks_act fun s => calm_addTotal _ _ _ s) fun _ => ?_
    exact walks_last (walks_eachE_zip _ _ fun p _ v => walks_jWrite) fun _ => walks_first walks_checkpoint fun _ => walks_pure _
  have := walks_pieces _ this j.poison
  rw [List.map_flatMap, List.flatMap_congr fun x _ => List.map_map] at this
  exact this

theorem walks_firstPass (hd : j.d.addr ∈ hdrs) {strided : Bool} {c p : Nat} {was : Bool} : Walks s0 j.e hdrs P (firstPass j strided c p was)
    (((passBlocks j.n j.gr strided).map fun gs =>
      ({ reads := gs.map (readAt s0 j.gr j.a c p), writes := gs.map (destAt s0 j c p) } : Safety.Work)).flatMap Work.accesses) := by
  unfold firstPass
  refine walks_last (walks_pieces _ (fun gs _ st => ?_) _) fun r => walks_pure _
  unfold Work.accesses
  dsimp only
  rw [List.map_map, List.map_nil, List.nil_append, List.map_map, List.map_eq_flatMap, List.map_eq_flatMap]
  refine walks_bind (walks_mapE _ fun g _ => walks_jRead) fun l => walks_first (walks_jMark hd) fun _ => ?_
  exact walks_last (walks_eachE _ fun g _ => walks_first walks_freeGran fun v => walks_jWrite) fun _ =>
    walks_first walks_checkpoint fun _ => walks_pure _

theorem walks_secondPass (hd : j.d.addr ∈ hdrs) {strided : Bool} {c p : Nat} {v : List Nat} {was : Bool} :
    Walks s0 j.e hdrs P (secondPass j strided c p v was)
    (((passBlocks j.n j.gr strided).map fun gs =>
      ({ again := gs.map (granPlace (moduleOf s0) j.gr j.d c p), writes := gs.map (destAt s0 j c p) } : Safety.Work)).flatMap Work.accesses) := by
  unfold secondPass
  refine walks_pieces _ (fun gs _ was => ?_) _
  unfold Work.accesses
  dsimp only
  rw [List.map_nil, List.nil_append, List.map_map, List.map_map, List.map_eq_flatMap, List.map_eq_flatMap]
  refine walks_bind (walks_mapE _ fun g _ => walks_atGran _ _ _ walks_readRaw) fun l => walks_first (walks_jMark hd) fun _ => ?_
  exact walks_last (walks_eachE _ fun g _ => walks_jWrite) fun _ => walks_first walks_checkpoint fun _ => walks_pure _

theorem walks_limbWork (hd : j.d.addr ∈ hdrs) (strided : Bool) (f : PolyJob → Prime → Nat → List Nat → List Nat) :
    Walks s0 j.e hdrs P (limbWork strided f j) ((limbPieces s0 strided j).flatMap Work.accesses) := by
  unfold limbWork limbPieces
  dsimp only
  by_cases h : twoPass j.n = true
  · rw [if_pos h, if_pos h, List.flatMap_assoc]
    refine walks_last (walks_foldE _ (fun x _ st => ?_) _) fun r => walks_pure _
    obtain ⟨second, c, p⟩ := x
    cases second with
    | true => exact walks_prime (walks_last (walks_secondPass hd) fun _ => walks_pure _)
    | false => exact walks_last (walks_firstPass hd) fun _ => walks_pure _
  · rw [if_neg h, if_neg h]
    refine walks_pieces _ (fun x _ was => walks_prime ?_) _
    unfold Work.accesses
    dsimp only
    rw [List.map_map, List.map_nil, List.nil_append, List.map_map, List.map_eq_flatMap, List.map_eq_flatMap]
    refine walks_bind (walks_mapE _ fun g _ => walks_jRead) fun l => walks_first (walks_jMark hd) fun _ => ?_
    exact walks_last (walks_eachE_zip _ _ fun g _ v => walks_jWrite) fun _ => walks_first walks_checkpoint fun _ => walks_pure _

theorem walks_scratchPut {k g : Nat} {bad : Bool} :
    Walks s0 j.e hdrs P (scratchPut j k g bad) [.write (moduleOf s0, j.scratch + (k * j.gr + g) * 288)] := by
  unfold scratchPut
  exact walks_first walks_freeGran fun v => walks_atGran _ _ _ walks_writeHere

/-- The granules of the scratch area that a component writes, block by block. -/
def scratchAt (s : State) (j : PolyJob) (k g : Nat) : Nat × Nat := (moduleOf s, j.scratch + (k * j.gr + g) * 288)

theorem walks_rescaleScratch (hd : j.d.addr ∈ hdrs) {k c : Nat} {was : Bool} : Walks s0 j.e hdrs P (rescaleScratch j k c was)
    (((passBlocks j.n j.gr false).map fun gs =>
        ({ reads := gs.map (readAt s0 j.gr j.a c (hLevel j.a.h)), writes := gs.map (scratchAt s0 j k) } : Safety.Work)).flatMap Work.accesses ++
      (if twoPass j.n then (passBlocks j.n j.gr true).map fun gs => ({ writes := gs.map (scratchAt s0 j k) } : Safety.Work) else []).flatMap
        Work.accesses) := by
  unfold rescaleScratch
  refine walks_prime (walks_bind (walks_pieces _ (fun gs _ st => ?_) _) fun r => ?_)
  · unfold Work.accesses
    dsimp only
    rw [List.map_map, List.map_nil, List.nil_append, List.map_map, List.map_eq_flatMap, List.map_eq_flatMap]
    refine walks_bind (walks_mapE _ fun g _ => walks_jRead) fun l => walks_first (walks_jMark hd) fun _ => ?_
    exact walks_last (walks_eachE _ fun g _ => walks_scratchPut) fun _ => walks_first walks_checkpoint fun _ => walks_pure _
  · dsimp only
    by_cases h : twoPass j.n = true
    · rw [if_pos h, if_pos h, List.flatMap_map]
      refine walks_last (walks_eachE _ fun gs _ => ?_) fun _ => walks_pure _
      unfold Work.accesses
      dsimp only
      rw [List.map_nil, List.map_nil, List.nil_append, List.nil_append, List.map_map, List.map_eq_flatMap]
      exact walks_last (walks_eachE _ fun g _ => walks_scratchPut) fun _ => walks_checkpoint
    · rw [if_neg h, if_neg h]; exact walks_pure _

theorem walks_rescaleYields : Walks s0 j.e hdrs P (rescaleYields j) [] := by
  unfold rescaleYields
  have := walks_eachE (s0 := s0) (e := j.e) (hdrs := hdrs) (P := P) (runsOf (List.range j.gr) ++ passBlocks j.n j.gr true ++
    (if twoPass j.n then passBlocks j.n j.gr false else [])) (f := fun _ => checkpoint) (g := fun _ => []) fun _ _ => walks_checkpoint
  rwa [List.flatMap_eq_nil_iff.2 fun _ _ => rfl] at this

theorem walks_rescale (hd : j.d.addr ∈ hdrs) : Walks s0 j.e hdrs P (dataRescale j) ((rescalePieces s0 j).flatMap Work.accesses) := by
  unfold dataRescale rescalePieces
  dsimp only
  rw [List.flatMap_assoc]
  refine walks_prime (walks_foldE _ (fun kc _ was => ?_) _)
  obtain ⟨k, c⟩ := kc
  rw [List.flatMap_append, List.flatMap_append, List.flatMap_assoc]
  refine walks_bind (walks_rescaleScratch hd) fun v => walks_foldE _ (fun p _ was => walks_prime (walks_first walks_rescaleYields fun _ => ?_)) _
  refine walks_pieces _ (fun gs _ was => ?_) _
  have := walks_runOne hd (was := was) (c := c) (p := p) (gs := gs) (ra := fun g => [readAt s0 j.gr j.a c p g]) (P := P) (s0 := s0) (read := fun g => do
          let (x, bad) ← jRead j j.a c p g
          pure ([(c, (x.zip ((granules (nttFwdLimb (primeAt s0 j.ch p) j.n (v.1.map fun y => centredLift (primeAt s0 j.ch (hLevel j.a.h)).q (primeAt s0 j.ch p).q y))).getD g [])).map fun y =>
            mulmod (primeAt s0 j.ch p) (submod (primeAt s0 j.ch p) y.1 y.2) (constOf j p))], v.2 || bad)) fun g _ => walksTo_last walks_jRead.to fun v _ => walksTo_pure rfl
  rwa [← List.map_eq_flatMap] at this

theorem walks_polyStart (hd : j.d.addr ∈ hdrs) : Walks s0 j.e hdrs P (polyStart j) [] := by
  unfold polyStart
  exact walks_ite (c := pPart j.w = true) (fun _ => walks_ite (c := j.poison = true) (fun _ => walks_hdrPoison hd) fun _ => walks_pure _)
    fun _ => walks_startHdr hd

theorem walks_polyCommit (hd : j.d.addr ∈ hdrs) {bad : Bool} : Walks s0 j.e hdrs P (polyCommit j bad) [] := by
  unfold polyCommit
  exact walks_ite (c := pPart j.w = true) (fun _ => walks_pure _) fun _ => walks_commitHdr hd

theorem polyWork_point {op : Nat} (h : op ∉ [0x10, 0x11, 0x14, 0x28, 0x30, 0x31, 0x38]) :
    polyWork s0 op j = pointPieces s0 j ++ movePieces s0 j (copyComps j) (List.range j.gr) := by
  simp only [List.mem_cons, List.not_mem_nil, or_false, not_or] at h
  unfold polyWork
  rw [if_neg (by omega), if_neg (by omega), if_neg (by omega), if_neg (by omega), if_neg (by omega), if_neg (by omega)]

/-- The work of a POLY instruction but the copy of R437 (R54, R57, R59 to R62, R66). -/
theorem walks_polyJob (hd : j.d.addr ∈ hdrs) (c : Fin 128) : ∀ row ∈ polyJobs c, ∃ l,
    polyWork s0 row.2.1 j = l ++ movePieces s0 j (copyComps j) (List.range j.gr) ∧ Walks s0 j.e hdrs P (row.2.2 j) (l.flatMap Work.accesses) := by
  intro row hrow
  simp only [polyJobs, List.mem_cons, List.not_mem_nil, or_false] at hrow
  rcases hrow with rfl | rfl | rfl | rfl | rfl | rfl | rfl | rfl | rfl | rfl | rfl | rfl | rfl | rfl <;> dsimp only
  · exact ⟨_, by unfold polyWork; rw [if_pos (by decide)], walks_limbWork hd _ _⟩
  · exact ⟨_, by unfold polyWork; rw [if_neg (by decide), if_pos rfl], walks_limbWork hd _ _⟩
  · exact ⟨_, by unfold polyWork; rw [if_pos (by decide)], walks_limbWork hd _ _⟩
  · exact ⟨_, polyWork_point (by decide), walks_pointWork hd _⟩
  · exact ⟨_, polyWork_point (by decide), walks_pointWork hd _⟩
  · exact ⟨_, polyWork_point (by decide), walks_pointWork hd _⟩
  · exact ⟨_, polyWork_point (by decide), walks_pointWork hd _⟩
  · exact ⟨_, polyWork_point (by decide), walks_pointWork hd _⟩
  · exact ⟨_, polyWork_point (by decide), walks_pointWork hd _⟩
  · exact ⟨_, polyWork_point (by decide), walks_pointWork hd _⟩
  · exact ⟨_, by unfold polyWork; rw [if_neg (by decide), if_neg (by decide), if_pos rfl], walks_tensor hd⟩
  · exact ⟨_, by unfold polyWork; rw [if_neg (by decide), if_neg (by decide), if_neg (by decide), if_pos rfl], walks_bconv hd⟩
  · exact ⟨_, by unfold polyWork; rw [if_neg (by decide), if_neg (by decide), if_neg (by decide), if_neg (by decide), if_pos rfl], walks_rescale hd⟩
  · exact ⟨_, by
      unfold polyWork
      rw [if_neg (by decide), if_neg (by decide), if_neg (by decide), if_neg (by decide), if_neg (by decide), if_pos rfl], walks_transpose hd⟩

end

/-- The end of served work. -/
theorem Walks.ends {s : State} {e : Env} {hdrs : List Nat} {α : Type} {x : Eng α} {l : List Safety.Work}
    (h : Walks s e hdrs (workBytes s e.ctx hdrs l) x (l.flatMap Work.accesses)) (hi : Idle s) (hs : WorkServed s e hdrs l) :
    ∃ v t, x s = .ok v t ∧ Near s t ∧ SameOutside (workBytes s e.ctx hdrs l) s t := by
  have hc := can_of_workServed hs
  rw [← List.append_nil (l.flatMap Work.accesses)] at hc
  obtain ⟨v, t, h1, h2, h3, _⟩ := h s [] hi (.refl s) hc
  exact ⟨v, t, h1, h2, h3⟩

/-- What follows the checks of a POLY instruction. -/
def polyRest (data : PolyJob → Eng Bool) (j : PolyJob) : Eng (List SealMsg) := do
  polyStart j
  let p ← data j
  let q ← jCopy j p
  polyCommit j q
  pure []

/-- A POLY instruction whose work can be done at once: everything after its checks comes to its end, and writes its header and its
work's granules alone. -/
theorem polyJob_ends (c : Fin 128) {s : State} {j : PolyJob} {row : Instr × Nat × (PolyJob → Eng Bool)} (hrow : row ∈ polyJobs c)
    (hi : Idle s) (hs : WorkServed s j.e [j.d.addr] (polyWork s row.2.1 j)) : ∃ p t, polyRest row.2.2 j s = .ok p t ∧ Near s t ∧
      SameOutside (workBytes s j.e.ctx [j.d.addr] (polyWork s row.2.1 j)) s t := by
  have hd : j.d.addr ∈ [j.d.addr] := List.mem_singleton_self _
  obtain ⟨l, hl, hw⟩ := walks_polyJob (s0 := s) (P := workBytes s j.e.ctx [j.d.addr] (polyWork s row.2.1 j)) hd c row hrow
  have h : Walks s j.e [j.d.addr] (workBytes s j.e.ctx [j.d.addr] (polyWork s row.2.1 j)) (polyRest row.2.2 j)
      ((polyWork s row.2.1 j).flatMap Work.accesses) := by
    rw [hl, List.flatMap_append]
    rw [hl] at hw
    exact walks_first (walks_polyStart hd) fun _ => walks_bind hw fun p => walks_last (walks_jCopy hd) fun q =>
      walks_first (walks_polyCommit hd) fun _ => walks_pure _
  exact h.ends hi hs

end Sys2Proof.Machine
end

