-- ==== Sys2Proof/WellFormed.lean ====
section
/-! DEFINITION. Well-formed commands: the lengths and ranges that the wire, a frame or an entry's type leaves to a command's operands. -/

namespace Sys2Proof

/-- A field of bytes or words no longer than what carries it. -/
def packetFits (n limit : Nat) : Bool := decide (n ≤ limit)

/-- A page that came is one 2 MiB page (R296, R300). -/
def pageWhole : FetchResult → Bool
  | .data bytes => decide (bytes.length = 2 ^ 21)
  | .transportError => true

/-- The parameter count of a job header is a 31-bit field (Table 14.1). -/
def headerFits : Option JobHeader → Bool
  | some h => decide (h.nParams < 2 ^ 31)
  | none => true

/-- A command's operands are ones that can arrive: frames of at most 9,216 bytes (Table 15.2), one RoCE packet (Table 15.3), link
packets of whole 32-byte units (Table 16.2), boards of Table 16.5, pages of 2 MiB (R296), chunks of 16,384 elements (R314),
entries of their own size (R389, R430), frames of 384 GiB (R283). A command with other operands has its meaning all the
same. -/
def Instr.wellFormed : Instr → Bool
  | .pageFetchComplete _ r => pageWhole r
  | .jobHeaderReceive _ _ h => headerFits h
  | .chunkReceive _ _ data _ _ => packetFits data.length 16384
  | .roceRdmaWrite _ _ _ _ _ data => packetFits data.length 4096
  | .roceRdmaRead _ _ _ _ _ len => decide (len < 2 ^ 32)
  | .commandPayload _ bytes => packetFits bytes.length 9216
  | .doorbellPayload _ bytes => packetFits bytes.length 9216
  | .linkPacketReceive _ bytes => decide (32 ≤ bytes.length) && decide (bytes.length % 32 = 0) && packetFits bytes.length (32 + 128 * 32)
  | .relayCmd bytes => packetFits bytes.length 4096
  | .managerJoin _ peerTable => peerTable.all fun e => decide (e.1 < 4096)
  | .relayedPage _ page data _ => decide (page < 2 ^ 19) && decide (data.length = 2 ^ 21)
  | .relayFrame bytes => packetFits bytes.length 9216
  | .dictFrame _ bytes => packetFits bytes.length 9216
  | .dictWrite _ _ _ _ value => packetFits value.length 4096
  | .attestNonce _ nonce => decide (nonce.length = 32)
  | .dbgMemWrite _ data => decide (data.length = 256)
  | .retireWindowExpiry _ frame => decide (frame < 196608)
  | .mtLoad .. | .mtLoadEnd | .mtEvict .. | .mtEvictEnd | .activate .. | .activateDone .. | .drain .. | .drainComplete ..
  | .nttFwd .. | .nttInv .. | .auto .. | .pwAdd .. | .pwSub .. | .pwNeg .. | .pwMul .. | .pwMac .. | .pwMulc ..
  | .pwMacc .. | .tensor .. | .keyMac .. | .bconv .. | .rescale .. | .transpose .. | .openObj .. | .commit .. | .gLin ..
  | .gKsw .. | .gRefresh .. | .gCombine .. | .gExtract .. | .gPack .. | .mm .. | .tilePush .. | .arrivalChunkMet ..
  | .vadd .. | .vsub .. | .vmul .. | .vfma .. | .vmax .. | .vmin .. | .vneg .. | .vabs .. | .vcvt .. | .vcmp .. | .vsel ..
  | .vexp .. | .vlog .. | .vrsqrt .. | .vrecip .. | .vsqrt .. | .vtanh .. | .vsigm .. | .vrelu .. | .vsilu .. | .vgelu ..
  | .viadd .. | .visub .. | .vimul .. | .vshr .. | .vand .. | .vor .. | .vxor .. | .vimax .. | .vimin .. | .vrsum ..
  | .vrmax .. | .vrmin .. | .vrssq .. | .vrisum .. | .vrowfin .. | .vldr .. | .vstr .. | .tilePop .. | .keyStream ..
  | .streamStart .. | .parcelForm .. | .parcelArrival .. | .relayStall .. | .doorbell .. | .blockLoad .. | .dispatch ..
  | .waitMet .. | .instructionRetire .. | .nop .. | .agSet .. | .agReset .. | .sealBind .. | .loop .. | .loopPin ..
  | .fence .. | .mark .. | .endStream .. | .halt .. | .streamFinish .. | .cpResume .. | .cpSkip .. | .debugHalt ..
  | .imemReload .. | .imemReloadForce .. | .imemReloadHeldDone .. | .send .. | .recv .. | .poll .. | .mbOpen ..
  | .mbClose .. | .soOpen .. | .soClose .. | .stampGet .. | .stampPut .. | .sealCreate .. | .sealFree .. | .sealImport ..
  | .sealImportResponse .. | .sealAdd .. | .envelopeArrival .. | .officeRoundComplete .. | .receiptArrival ..
  | .sendStallEvent .. | .stampGrant .. | .remoteBurstWrite .. | .stampReturn .. | .sealUpdate .. | .sealDbgSet ..
  | .copy .. | .prefetch .. | .zero .. | .relayW .. | .scrubRead .. | .hbmRefresh .. | .retiredListCopy | .pinWaysWrite ..
  | .bwSplitWrite .. | .spreadWrite .. | .tgStart .. | .tgStop .. | .tgEnterTest .. | .tgLeaveTest .. | .contextOpen ..
  | .contextSet .. | .reopen .. | .close .. | .closeComplete .. | .map .. | .mapComplete .. | .unmap .. | .mapHosted ..
  | .suspend .. | .contextResume .. | .kill .. | .contextHalt .. | .priority .. | .expressTakeEffect ..
  | .contextSaveDone .. | .pageFetchStart | .pageFetchTimeout .. | .pageAgeTick | .residencyChange | .sliceExpiry ..
  | .updHeadWrite .. | .updJobStart | .updPeerTimeout .. | .verdictReceive .. | .updJobEnd .. | .abortNoticeReceive ..
  | .ethFrameDrop .. | .ethSpeedWrite .. | .ethTrainingDone .. | .macsecSakLoad .. | .roceNakReceive .. | .roceTimeout ..
  | .roceCnpReceive .. | .roceRateRaise .. | .qpCreate .. | .qpDestroy .. | .watch .. | .watchReady .. | .resultRead ..
  | .resultRelease .. | .resultTtlExpiry .. | .semAcquire .. | .semRenew .. | .semRelease .. | .semLeaseExpiry
  | .semBreak .. | .linkNakReceive .. | .linkAckTimeout .. | .linkRetrainEnd .. | .linkTrainDone .. | .linkCommandTrain ..
  | .linkCommandDown .. | .spareModeWrite .. | .dictRead .. | .describe .. | .rawRead .. | .rawWrite .. | .ackWrite ..
  | .unlock .. | .unlockExpiry .. | .notifySend .. | .mctpMessage .. | .setEndpointId .. | .getEndpointId
  | .getEndpointUuid | .getMctpVersionSupport | .getMessageTypeSupport | .getVendorDefinedMsgSupport | .entdaa ..
  | .setdasa .. | .rstdaa | .enec .. | .disec .. | .getpid | .getbcr | .getdcr | .getstatus | .getmxds | .setmrl ..
  | .getmrl | .setmwl .. | .getmwl | .boot | .fwStage .. | .fwStageDone | .fwActivate .. | .fwSvnCommit .. | .rootRevoke ..
  | .attestDone .. | .kexCommand .. | .kexDone .. | .slotErase .. | .bnJob .. | .bnJobStart | .bnYieldPoint | .bnJobEnd
  | .powerOn .. | .pwrEnAssert | .pwrEnDeassert | .inputFault | .pllLock | .pllLoss | .throttleUpdate .. | .thermalAlert ..
  | .thermalTrip .. | .rstN .. | .resetCtrlCold .. | .resetCtrlShared .. | .sharedResetEnd | .coreClk .. | .clkAll ..
  | .clkSwitchDone .. | .pwrStateReq .. | .pwrEntryDone | .wakeEvent .. | .pwrExitDone | .faultLogAccept ..
  | .traceRecordWrite .. | .syncMarkSend .. | .syncMarkReceive .. | .dbgMemRead .. | .dbgMbEnvelope .. | .registerWrite ..
  | .contextRestoreDone .. | .linkPeerSeen .. | .pwrGoodAssert | .inputInRange | .standbyRailLoss | .fwActivateDone => true

end Sys2Proof
end

