-- ==== Sys2Proof/Tests/Slice0.lean ====
section
/-! SUPPORT. The model's own tests: the refusals of `wellFormed`, single steps whose results the spec states, and for every statement
with hypotheses a concrete state and operands that meet them together. -/

namespace Sys2Proof.Tests

open Sys2Proof.Machine Sys2Proof.Safety

/-! Theorems are checked one after another: many at once would ask for more threads than the limits allow. -/
set_option Elab.async false

/-! ## States to test on -/

/-- A work's end, as something to decide. -/
def ends {ε σ α : Type} : EStateM.Result ε σ α → Bool
  | .ok _ _ => true
  | .error _ _ => false

/-- The state that a command leads to. -/
def after (c : Instr) (s : State) : State :=
  match exec c s with
  | .next t => t
  | _ => s

/-- The administrator at the sideband. -/
def tw : Who := ⟨.sideband, true⟩

/-- The module after its start: the PLL locked, the island serving, the sideband's path unlocked. -/
def tUp : State := setPath .sideband (fun x => { x with unlocked := true })
  { State.reset with power := { State.reset.power with pll := 2 }, island := { State.reset.island with state := 1 } }

/-- `tUp` with the semaphore held by the sideband. -/
def tHeld : State := { tUp with sem := { tUp.sem with holder := some .sideband } }

/-- Where core 0's scratchpad begins. -/
def spAt (n : Nat) : Nat := 0x100_0000_0000 + n

/-- An entry of a context in a session, resident, with all of every core's scratchpad: STATE 1, GENERATION 1, quotas of 8 seals and 64
pages. -/
def tEntry : Nat :=
  0x17 + 2 ^ 8 + 2 ^ 11 + 2 ^ 32 + 8 * 2 ^ 64 + 64 * 2 ^ 96 + 2 ^ 384 + 64 * 2 ^ 582 + (2 ^ 128 - 1) * 2 ^ 640

/-- A page of HBM that is there and can be read and written. -/
def tPage : Mapping :=
  { huge := false, present := true, hosted := false, write := true, read := true, pinned := false, retiring := false,
    frame := 600, backing := 0, age := 0 }

/-- Context 1 in a session, with a running stream in slot 0 of core 0, and a page of HBM at address 0. -/
def tCtx : State :=
  setStream 1 0 (fun t => { t with mode := .running, known := true, ringLog2 := 8, head := 100 })
    (setCore 0 (fun x => { x with slots := x.slots.set 0 (some 1) })
      (setContext 1 (fun x => { x with entry := BitVec.ofNat 2048 tEntry, pages := [(0, tPage)] }) tUp))

/-- An instruction of context 1, issued at core 0. -/
def tIns (w : Nat) (addrs : List Nat) : Issued :=
  { ctx := 1, index := 0, word := BitVec.ofNat 128 w, postmark := 0, addrs := [addrs], wait := none, sig := none, imemSlot := 0,
    loops := [], serial := 1 }

/-- `tCtx` with an instruction at the head of a queue of core 0. -/
def tAt (q : QueueId) (i : Issued) : State := setCore 0 (fun x => setQueue x q [i]) tCtx

/-- `tCtx` with a CTRL instruction held at dispatch. -/
def tCtrl (w : Nat) : State := setStream 1 0 (fun t => { t with held := some (tIns w []) }) tCtx

/-- An opcode at its place in a word. -/
def opw (op : Nat) : Nat := op * 2 ^ 56

/-! ## Well-formed commands -/

theorem test_wellFormed_accepts : (Instr.linkPacketReceive 0 (List.replicate 64 0)).wellFormed = true ∧
    (Instr.managerJoin true [(4095, 0)]).wellFormed = true ∧ (Instr.roceRdmaRead 0 0 0 0 0 (2 ^ 32 - 1)).wellFormed = true := by decide +kernel

theorem test_wellFormed_page : (Instr.pageFetchComplete 0 (.data [0])).wellFormed = false := by decide +kernel
theorem test_wellFormed_header : (Instr.jobHeaderReceive 0 0 (some { headerOf 0 with nParams := 2 ^ 31 })).wellFormed = false := by decide +kernel
theorem test_wellFormed_chunk : (Instr.chunkReceive 0 0 (List.replicate 16385 0) false true).wellFormed = false := by
  simp only [Instr.wellFormed, packetFits, List.length_replicate]; decide +kernel
theorem test_wellFormed_roce : (Instr.roceRdmaWrite 0 0 0 0 0 (List.replicate 4097 0)).wellFormed = false ∧
    (Instr.roceRdmaRead 0 0 0 0 0 (2 ^ 32)).wellFormed = false := by
  simp only [Instr.wellFormed, packetFits, List.length_replicate]; decide +kernel
theorem test_wellFormed_payload : ∀ n ∈ [9217], (Instr.commandPayload .port0 (List.replicate n 0)).wellFormed = false ∧
    (Instr.doorbellPayload .port0 (List.replicate n 0)).wellFormed = false ∧
    (Instr.relayFrame (List.replicate n 0)).wellFormed = false ∧ (Instr.dictFrame .port0 (List.replicate n 0)).wellFormed = false := by
  simp only [Instr.wellFormed, packetFits, List.length_replicate]; decide +kernel
theorem test_wellFormed_link : (Instr.linkPacketReceive 0 (List.replicate 31 0)).wellFormed = false ∧
    (Instr.linkPacketReceive 0 (List.replicate 65 0)).wellFormed = false := by decide +kernel
theorem test_wellFormed_linkLong : (Instr.linkPacketReceive 0 (List.replicate 4160 0)).wellFormed = false := by
  simp only [Instr.wellFormed, packetFits, List.length_replicate]; decide +kernel
theorem test_wellFormed_relay : (Instr.relayCmd (List.replicate 4097 0)).wellFormed = false ∧
    (Instr.relayedPage 0 (2 ^ 19) [] []).wellFormed = false ∧ (Instr.relayedPage 0 0 [0] []).wellFormed = false := by
  simp only [Instr.wellFormed, packetFits, List.length_replicate]; decide +kernel
theorem test_wellFormed_join : (Instr.managerJoin true [(4096, 0)]).wellFormed = false := by decide +kernel
theorem test_wellFormed_values : (Instr.dictWrite tw 0 0 0 (List.replicate 4097 0)).wellFormed = false := by
  simp only [Instr.wellFormed, packetFits, List.length_replicate]; decide +kernel
theorem test_wellFormed_sizes : (Instr.attestNonce tw []).wellFormed = false ∧ (Instr.dbgMemWrite tw []).wellFormed = false ∧
    (Instr.retireWindowExpiry 0 196608).wellFormed = false := by decide +kernel

/-! ## The machine -/

theorem test_front : { tUp with pending := [Instr.boot] }.pending = .boot :: [] := by decide +kernel
theorem test_empty : tUp.pending = [] ∧ (match step tUp with | .next t => t.time == 1 && (t.dies.map fun d => d.time) == [1, 1] | _ => false) = true := by
  decide +kernel
/-- The table gives its rows no bits, so no word spells a command. -/
theorem test_decode : decodeTableWord 8 0 = none := by decide +kernel

theorem test_holds : Holds State.reset ∧ ∃ t, step State.reset = .next t :=
  ⟨⟨by unfold memoryWf; decide +kernel, by constructor <;> decide +kernel⟩, ⟨_, rfl⟩⟩

/-! ## Arithmetic -/

/-- A prime of Table 2.8's range with 2^17 dividing q − 1, and its constants, computed apart from the model. -/
def tPrime : Prime := { q := 68718428161, mu := 68720525327, psi := 50499502518, psiInv := 56490074658 }

theorem test_prime : 2 ^ 35 < tPrime.q ∧ tPrime.q < 2 ^ 36 ∧ tPrime.mu = 2 ^ 72 / tPrime.q ∧ tPrime.q % 2 ^ 17 = 1 ∧
    powMod tPrime.psi (2 ^ 16) tPrime.q = tPrime.q - 1 ∧ tPrime.psi * tPrime.psiInv % tPrime.q = 1 := by decide +kernel

/-- 3 · 5, 4 − 7 and −1 modulo q. -/
theorem test_lanes : mulmod tPrime 3 5 = 15 ∧ submod tPrime 4 7 = 68718428158 ∧ negmod tPrime 1 = 68718428160 ∧
    addmod tPrime 68718428160 1 = 0 := by decide +kernel
theorem test_limb : (List.replicate (2 ^ 11) 0).length = 2 ^ 11 ∧ ∀ x ∈ List.replicate (2 ^ 11) 0, x < tPrime.q := by
  refine ⟨List.length_replicate, fun x hx => ?_⟩
  rw [List.eq_of_mem_replicate hx]; decide +kernel
theorem test_bconv : bconvY [tPrime] [3] [5] = [15] ∧ bconvZ tPrime [3] [5] = 15 := by decide +kernel
theorem test_gran : ((List.range 64).map fun j => j).length = 64 ∧ (∀ x ∈ List.range 64, x < 2 ^ 36) ∧
    (packGran (List.range 64)).length = 288 := by decide +kernel
/-- Coefficient 1 goes to 3 under X ↦ X³, and 1,024 to 1,024, negated. -/
theorem test_auto : 3 % 2 = 1 ∧ (autoCoeff tPrime 2 3 [0, 7, 0, 5]).getD 3 0 = 7 ∧
    (autoCoeff tPrime 2 3 [0, 7, 0, 5]).getD 1 0 = 5 := by decide +kernel

/-! ## Memory, counters, locks -/

theorem test_memory : Memory.wf State.reset.mem = true ∧
    (devWrite .write false 0x200 [1, 2] false State.reset).mem = [(0x200, 1), (0x201, 2)] := by decide +kernel

/-- A counter one short of its hold (R368). -/
def tHold : State := { tUp with counts := tset tUp.counts (ekey 0x3100 4) (2 ^ 32 - 2) }

theorem test_counters : ((count tUp 5 + 1) % 2 ^ 32 + 2 ^ 32 - ackedValue tUp 5) % 2 ^ 32 ≠ 2 ^ 32 - 1 ∧
    ((count tHold (ekey 0x3100 4) + 1) % 2 ^ 32 + 2 ^ 32 - ackedValue tHold (ekey 0x3100 4)) % 2 ^ 32 = 2 ^ 32 - 1 ∧
    count (bump (ekey 0x3100 4) tHold) (ekey 0x3100 4) = 2 ^ 32 - 2 ∧ count (bump (ekey 0x3100 4) tHold) kEventsLost = 1 := by decide +kernel
theorem test_lost : (let s := { tHold with counts := tset tHold.counts kEventsLost (2 ^ 32 - 2) };
    (bump (ekey 0x3100 4) s).counts = s.counts) := by decide +kernel

/-! ## Modulus table and chain slots -/

/-- A chain slot with one prime of 2,048 points (R41), a set of the host's own, and that prime at postcode 0. -/
def tChain : State :=
  { [(3, 0x80), (4, 11), (5, 1), (6, 0), (7, 1), (0x10, 0)].foldl (fun s e => setReg 0x3110 e.1 e.2 s) tUp with
    occupied := [0]
    modTable := [(0, BitVec.ofNat 13824 (tPrime.q + tPrime.mu * 2 ^ 64 + tPrime.psi * 2 ^ 128 + tPrime.psiInv * 2 ^ 192))] }

theorem test_tableCommands : tUp.tableJob = none ∧ opens tw 0x3100 2 (1 * 256 + 95) tUp = true ∧ opens tw 0x3100 3 (1 * 256 + 95) tUp = true ∧
    (after (.mtLoad tw (1 * 256 + 95)) tUp).tableJob = some { evict := false, first := 95, count := 1, image := 0 } := by decide +kernel

/-- A load whose image is in a page that is absent. -/
def tAbsent (c : Nat) (s : State) : State := setContext c (fun x => { x with pages := [(0, { tPage with present := false, hosted := true })] }) s

theorem test_loadWaits : (let s := { tAbsent 0 tUp with tableJob := some { evict := false, first := 0, count := 1, image := 0 } }
    (mtRead 0 0 0 none 1 s).1 = .absent 0 ∧ (after .mtLoadEnd s).tableJob.isSome = true) := by decide +kernel
theorem test_loadEnds : (let s := { tUp with tableJob := some { evict := false, first := 0, count := 1, image := 0, taken := [5] } }
    (mtRead 0 1728 1 none 0 s).1 = .whole ∧ mtPinnedTargets s { evict := false, first := 0, count := 1, image := 0, taken := [5] } = [] ∧
    (after .mtLoadEnd s).occupied = [0] ∧ count (after .mtLoadEnd s) (ekey 0x3100 4) = 1) := by decide +kernel
theorem test_evictEnds : (let s := { tChain with tableJob := some { evict := true, first := 0, count := 1, image := 0 } }
    mtPinnedTargets s { evict := true, first := 0, count := 1, image := 0 } = [] ∧ (after .mtEvictEnd s).occupied = []) := by decide +kernel

theorem test_activate : opens tw 0x3110 2 1 tChain = true ∧ (chain tChain 0).state = .empty ∧ activateOk (countAccess tChain) 0 = true ∧
    (chain (after (.activate tw 0) tChain) 0).state = .activating := by decide +kernel
theorem test_activated : (let s := setChain 0 (fun x => { x with state := .activating }) tChain
    (chain (after (.activateDone 0) s) 0).state = .active ∧ opens tw 0x3110 2 1 s = true ∧
    (after (.activate tw 0) s).outbox = [.access .sideband 0x16 []]) := by decide +kernel
theorem test_drain : (let s := setChain 0 (fun x => { x with state := .active }) tChain
    opens tw 0x3110 2 2 s = true ∧ (chain (after (.drain tw 0) s) 0).state = .draining ∧
    (chain (after (.drainComplete 0) (after (.drain tw 0) s)) 0).state = .empty) := by decide +kernel

/-! ## Work in core 0's own scratchpad -/

/-- A range lies in core 0's scratchpad. -/
def inSp (a n : Nat) : Bool := decide (0x100_0000_0000 ≤ a ∧ a + n ≤ 0x100_0040_0000)

/-- Two ranges have no byte in common. -/
def far (a n b k : Nat) : Bool := decide (a + n ≤ b ∨ b + k ≤ a)

/-- Pieces of work of which none is written before a later one reads it. -/
def inOrder : List Work → Bool
  | [] => true
  | x :: r => r.all (fun y => x.writes.all fun w => y.reads.all fun z => far w.2 288 z.addr 288) && inOrder r

/-- No byte of a granule has been written: it holds zeros. -/
def blank (s : State) (a : Nat) : Bool := s.mem.all fun c => decide (c.1 < a ∨ a + 288 ≤ c.1)

/-- Work on granules of core 0's scratchpad that is served; what it reads is blank. -/
def workOk (s : State) (hdrs : List Nat) (l : List Work) : Bool :=
  hdrs.all (fun a => inSp a 64) &&
  l.all (fun x =>
    x.reads.all (fun r => r.module == moduleOf s && granOk r.addr && inSp r.addr 288 && blank s r.addr && decide (0 < r.q) &&
      hdrs.all fun h => far h 64 r.addr 288) &&
    (x.again ++ x.writes).all fun y => y.1 == moduleOf s && granOk y.2 && inSp y.2 288) &&
  inOrder l

theorem xlat_sp {s : State} (hc : ctxSpMask s 1 = 2 ^ 128 - 1 ∧ ctxSpFirst s 1 = 0 ∧ ctxSpCount s 1 = 64) (w : Bool) {b : Nat}
    (h1 : 0x100_0000_0000 ≤ b) (h2 : b < 0x100_0040_0000) : xlat s 1 w b = .dev b := by
  have h0 : spCore b = 0 := by unfold spCore spBase; omega
  have h3 : isSp b = true := by unfold isSp spBase spEnd; simp; omega
  have h4 : ((b - spBase) % 0x40_0000) / 0x1_0000 < 64 := by unfold spBase; omega
  have h5 : granted s 1 b = true := by
    unfold granted
    rw [h3, h0, hc.1, hc.2.1, hc.2.2]
    simp only [Bool.true_and, Nat.zero_le, Nat.zero_add, true_and, Bool.and_eq_true, decide_eq_true_eq]
    exact ⟨by decide +kernel, h4⟩
  unfold xlat
  rw [if_neg (by omega), if_pos h3, if_pos h5]

theorem served_sp {s : State} {e : Env} (hc : ctxSpMask s 1 = 2 ^ 128 - 1 ∧ ctxSpFirst s 1 = 0 ∧ ctxSpCount s 1 = 64)
    (he : e.ctx = 1 ∧ e.core = 0) (w : Bool) {a n : Nat} (h : inSp a n = true) : Served s e w a n := by
  unfold inSp at h
  rw [decide_eq_true_eq] at h
  intro b h1 h2
  refine ⟨b, ?_, fun _ _ => ?_⟩
  · rw [he.1]; exact xlat_sp hc w (by omega) (by omega)
  · rw [he.2]; unfold spCore spBase; omega

theorem devOf_sp {s : State} (hc : ctxSpMask s 1 = 2 ^ 128 - 1 ∧ ctxSpFirst s 1 = 0 ∧ ctxSpCount s 1 = 64) (w : Bool) {b : Nat}
    (h1 : 0x100_0000_0000 ≤ b) (h2 : b < 0x100_0040_0000) : devOf s 1 w b = b := by
  unfold devOf; rw [xlat_sp hc w h1 h2]

theorem apart_sp {s : State} (hc : ctxSpMask s 1 = 2 ^ 128 - 1 ∧ ctxSpFirst s 1 = 0 ∧ ctxSpCount s 1 = 64) {w n r : Nat}
    (hw : inSp w n = true) (hr : inSp r 288 = true) (h : far w n r 288 = true) : Apart s 1 w n r := by
  unfold inSp at hw hr
  unfold far at h
  rw [decide_eq_true_eq] at hw hr h
  intro b h1 h2 hx
  obtain ⟨k, h3, h4, h5⟩ := hx
  rw [devOf_sp hc true (by omega) (by omega), devOf_sp hc false (by omega) (by omega)] at h5
  omega

theorem memGet_blank : ∀ (m : List Host.Cell) (a b : Nat), (m.all fun c => decide (c.1 < a ∨ a + 288 ≤ c.1)) = true → a ≤ b →
    b < a + 288 → memGet m b = 0
  | [], _, _, _, _, _ => rfl
  | (k, v) :: r, a, b, h, h1, h2 => by
    simp only [List.all_cons, Bool.and_eq_true, decide_eq_true_eq] at h
    unfold memGet
    rw [if_neg (by omega)]
    exact memGet_blank r a b h.2 h1 h2

theorem granHolds_blank {s : State} (hc : ctxSpMask s 1 = 2 ^ 128 - 1 ∧ ctxSpFirst s 1 = 0 ∧ ctxSpCount s 1 = 64) {r : GranRead}
    (h1 : inSp r.addr 288 = true) (h2 : blank s r.addr = true) (h3 : 0 < r.q) : granHolds s 1 r = true := by
  have h4 : dataAt s 1 r.addr 288 = List.replicate 288 0 := by
    unfold inSp at h1
    rw [decide_eq_true_eq] at h1
    refine List.eq_replicate_iff.2 ⟨by unfold dataAt; simp, fun b hb => ?_⟩
    unfold dataAt at hb
    obtain ⟨k, hk, rfl⟩ := List.mem_map.1 hb
    have hk := List.mem_range.1 hk
    rw [devOf_sp hc false (by omega) (by omega)]
    exact memGet_blank _ _ _ h2 (by omega) (by omega)
  have h5 : unpackGran (List.replicate 288 0) = List.replicate 64 0 := by decide +kernel
  unfold granHolds
  rw [h4, h5]
  simp [canonical, h3]

theorem workServed_of {s : State} {e : Env} {hdrs : List Nat} {l : List Work}
    (hc : ctxSpMask s 1 = 2 ^ 128 - 1 ∧ ctxSpFirst s 1 = 0 ∧ ctxSpCount s 1 = 64) (he : e.ctx = 1 ∧ e.core = 0)
    (h : workOk s hdrs l = true) : WorkServed s e hdrs l := by
  unfold workOk at h
  simp only [Bool.and_eq_true, List.all_eq_true, beq_iff_eq, List.mem_append, decide_eq_true_eq] at h
  obtain ⟨⟨h1, h2⟩, h3⟩ := h
  refine ⟨fun a ha => ⟨served_sp hc he _ (h1 a ha), served_sp hc he _ (h1 a ha)⟩, ?_, ?_, ?_, ?_, ?_⟩
  · intro x hx r hr
    obtain ⟨⟨⟨⟨⟨k1, k2⟩, k3⟩, k4⟩, k5⟩, -⟩ := (h2 x hx).1 r hr
    refine ⟨⟨k1, k2, served_sp hc he _ k3⟩, ?_⟩
    rw [he.1]
    exact granHolds_blank hc k3 k4 k5
  · intro x hx y hy
    obtain ⟨⟨k1, k2⟩, k3⟩ := (h2 x hx).2 y (.inl hy)
    exact ⟨k1, k2, served_sp hc he _ k3⟩
  · intro x hx y hy
    obtain ⟨⟨k1, k2⟩, k3⟩ := (h2 x hx).2 y (.inr hy)
    exact ⟨k1, k2, served_sp hc he _ k3⟩
  · have key : ∀ k : List Work, (∀ x ∈ k, x ∈ l) → inOrder k = true →
        k.Pairwise fun x y => ∀ w ∈ x.writes, ∀ r ∈ y.reads, Apart s e.ctx w.2 288 r.addr := by
      intro k
      induction k with
      | nil => intro _ _; exact List.Pairwise.nil
      | cons x r ih =>
        intro hm ho
        simp only [inOrder, Bool.and_eq_true, List.all_eq_true] at ho
        refine List.Pairwise.cons (fun y hy w hw z hz => ?_) (ih (fun y hy => hm y (List.mem_cons_of_mem _ hy)) ho.2)
        rw [he.1]
        exact apart_sp hc ((h2 x (hm x List.mem_cons_self)).2 w (.inr hw)).2
          ((h2 y (hm y (List.mem_cons_of_mem _ hy))).1 z hz).1.1.1.2 (ho.1 y hy w hw z hz)
    exact key l (fun _ hx => hx) h3
  · intro x hx r hr a ha
    rw [he.1]
    exact apart_sp hc (h1 a ha) ((h2 x hx).1 r hr).1.1.1.2 (((h2 x hx).1 r hr).2 a ha)

/-- Work comes to its end with a value of which something holds. -/
def endsWith {α : Type} (x : Eng α) (s : State) (p : α → State → Bool) : Bool :=
  match runFrom [] false x s with
  | .ok v t => p v t
  | .error _ _ => false

theorem endsWith_iff {α : Type} {x : Eng α} {s : State} {p : α → State → Bool} :
    endsWith x s p = true ↔ ∃ v t, runFrom [] false x s = .ok v t ∧ p v t = true := by
  unfold endsWith
  cases runFrom [] false x s with
  | ok v t => exact ⟨fun h => ⟨v, t, rfl, h⟩, fun ⟨_, _, h, k⟩ => by cases h; exact k⟩
  | error v t => exact ⟨fun h => Bool.noConfusion h, fun ⟨_, _, h, _⟩ => nomatch h⟩

/-! ## Polynomial engine -/

/-- A chain slot with primes of 2,048 points, active, and context 1 beside it: its positions, its first postcode, its set. -/
def tSlot (d post : Nat) : State :=
  setChain 0 (fun x => { x with state := .active })
    (((List.range d).map fun i => (0x10 + i, post + i)).foldl (fun s e => setReg 0x3110 e.1 e.2 s)
      ([(3, 0x80), (4, 11), (5, d), (6, 0), (7, 1)].foldl (fun s e => setReg 0x3110 e.1 e.2 s)
        { tCtx with
          occupied := (List.range d).map fun i => post + i
          modTable := (List.range d).map fun i => (post + i, tChain.modTable.headD (0, 0) |>.2) }))

/-- The header of an object of context 1 on chain slot 0, as the device writes it; `valid` gives VALID. -/
def tHdr (s : State) (valid kind level map ntts data : Nat) : List Byte :=
  toLe 64 (withCheck 64 (valid * 2 ^ 144 + newHdr s 1 (data * 2 ^ 256)
    { kind := kind, chain := 0, level := level, map := map, scale := 0, slots := 1, budget := 100, tag := 7, ntts := ntts }))

/-- Headers at 0, 64, 128, …, and an instruction at the head of a queue. The data of object k begin at 0x1_0000 × (k + 1) and are zero. -/
def tObjs (s : State) (hs : List (List Byte)) (q : QueueId) (i : Issued) : State :=
  setCore 0 (fun x => setQueue x q [i])
    (((List.range hs.length).zip hs).foldl (fun s x => devWrite .write false (spAt (64 * x.1)) x.2 false s) s)

def tData (k : Nat) : Nat := spAt (0x1_0000 * (k + 1))

/-- A POLY instruction from A and B at 0 and 64 to 128, on component 0 and position 0. -/
def tPoly (op rest : Nat) : Issued := tIns (opw op + rest) [spAt 128, spAt 0, spAt 64]

/-- Its sources: two PT objects of one limb; what stands at the destination is no object. -/
def tPts (ntts : Nat) (i : Issued) : State :=
  let s := tSlot 1 0
  tObjs s [tHdr s 1 3 0 1 ntts (tData 0), tHdr s 1 3 0 1 ntts (tData 1), toLe 64 (tData 2 * 2 ^ 256)] .poly i

theorem canRun_of {q : QueueId} {op : Nat} {run : Issued → Nat → Eng (List SealMsg)} {can : Issued → Nat → State → Prop} {s : State}
    {i : Issued} (h : readyHead s 0 q op = some i ∧ i.journal = [] ∧ iRepM1 i.word.toNat = 0 ∧ i.progress = 0 ∧
      stopping s 0 i.ctx = false) (k : can i 0 s) : CanRun 0 q op run can s i := by
  obtain ⟨h1, h2, h3, h4, h5⟩ := h
  refine ⟨h1, h2, ?_⟩
  rw [h3, h4]
  exact ⟨h5, k, fun _ _ _ => trivial⟩

theorem polyCan_of {op : Nat} {s : State} {i : Issued}
    (hc : ctxSpMask s 1 = 2 ^ 128 - 1 ∧ ctxSpFirst s 1 = 0 ∧ ctxSpCount s 1 = 64)
    (h : endsWith (polyChecks (envOf 0 .poly i) i 0) s (fun j _ =>
      decide (j.e.ctx = 1 ∧ j.e.core = 0) && workOk s [j.d.addr] (polyWork s op j)) = true) : polyCan 0 op i 0 s := by
  obtain ⟨j, t, h1, h2⟩ := endsWith_iff.1 h
  rw [Bool.and_eq_true, decide_eq_true_eq] at h2
  exact ⟨j, ⟨t, h1⟩, workServed_of hc h2.1 h2.2⟩

/-- An instruction of one repeat that comes to its end. -/
theorem finishes_of {q : QueueId} {op : Nat} {run : Issued → Nat → Eng (List SealMsg)} {s : State} {i : Issued}
    (h : readyHead s 0 q op = some i ∧ i.journal = [] ∧ iRepM1 i.word.toNat = 0 ∧ i.progress = 0 ∧ stopping s 0 i.ctx = false)
    (k : endsWith (run i 0) s (fun _ _ => true) = true) : ∃ posts t, Finishes 0 q op run s i posts t := by
  obtain ⟨h1, h2, h3, h4, h5⟩ := h
  obtain ⟨p, u, h6, -⟩ := endsWith_iff.1 k
  refine ⟨i.posts ++ p, repeatSignal 0 i { u with wrote := [], wroteFar := [] }, h1, ?_⟩
  rw [h3, h4, h2]
  refine .one (n := 0) ?_ (fun _ => rfl) .none
  rw [h5]
  exact h6

theorem test_nttFwdRuns : let i := tPoly 0x10 (2 ^ 28)
    CanRun 0 .poly 0x10 (polyRun dataNttFwd 0) (polyCan 0 0x10) (tPts 0 i) i :=
  canRun_of (by decide +kernel) (polyCan_of (by decide +kernel) (by decide +kernel))
theorem test_pwAddRuns : let i := tPoly 0x20 (2 ^ 28)
    CanRun 0 .poly 0x20 (polyRun dataPwAdd 0) (polyCan 0 0x20) (tPts 1 i) i :=
  canRun_of (by decide +kernel) (polyCan_of (by decide +kernel) (by decide +kernel))

/-- An image at 64 that OPEN admits, and an object that COMMIT finds not valid. -/
def tImage (i : Issued) : State :=
  let s := tSlot 1 0
  tObjs s [tHdr s 0 3 0 1 0 (tData 0), tHdr s 0 1 0 1 0 (tData 1), toLe 64 0] .poly i

theorem headerCan_of {checks : Issued → Nat → Eng (Option (Nat × Nat))} {s : State} {i : Issued}
    (hc : ctxSpMask s 1 = 2 ^ 128 - 1 ∧ ctxSpFirst s 1 = 0 ∧ ctxSpCount s 1 = 64) (hi : i.ctx = 1)
    (h : endsWith (checks i 0) s (fun x _ => x.all fun y => inSp y.1 64) = true) : headerCan checks 0 i 0 s := by
  obtain ⟨x, t, h1, h2⟩ := endsWith_iff.1 h
  refine ⟨x, ⟨t, h1⟩, fun y hy => ?_⟩
  subst hy
  exact served_sp hc ⟨hi, rfl⟩ _ (by simpa using h2)

theorem test_openRuns : let i := tIns (opw 0x3C) [spAt 128, spAt 64]
    CanRun 0 .poly 0x3C (polyOpen 0) (headerCan (openChecks 0) 0) (tImage i) i ∧
    ∃ posts t, Finishes 0 .poly 0x3C (polyOpen 0) (tImage i) i posts t :=
  ⟨canRun_of (by decide +kernel) (headerCan_of (by decide +kernel) rfl (by decide +kernel)),
   finishes_of (by decide +kernel) (by decide +kernel)⟩
theorem test_commitRuns : let i := tIns (opw 0x3D) [spAt 0]
    CanRun 0 .poly 0x3D (polyCommitObj 0) (headerCan (commitChecks 0) 0) (tImage i) i :=
  canRun_of (by decide +kernel) (headerCan_of (by decide +kernel) rfl (by decide +kernel))
/-- COMMIT sets VALID. -/
theorem test_commit : let s := tImage (tIns (opw 0x3D) [spAt 0]);
    hValid (ofLe (devBytes s (spAt 0) 64)) = false ∧ hValid (ofLe (devBytes (after (.commit 0) s) (spAt 0) 64)) = true := by decide +kernel

/-! ## Key streams and their consumers -/

/-- Work that comes to an end has a value and a state there. -/
theorem ran_of {α : Type} {x : Eng α} {s : State} (h : endsWith x s (fun _ _ => true) = true) : ∃ v t, runFrom [] false x s = .ok v t := by
  obtain ⟨v, t, h, -⟩ := endsWith_iff.1 h
  exact ⟨v, t, h⟩

/-- A key parcel of zeros for position 0, the first of its stream, which initialises. -/
def tParcel (n pos beta block : Nat) : Parcel :=
  { stream := 1, key := 0, beta := beta, pos := pos, block := block, init := true, poison := false, k0 := List.replicate n 0,
    k1 := List.replicate n 0 }

/-- A stream of context 1 with the header of its key, and a parcel of it in a slot of core 0. -/
def tStream (weight : Bool) (h params : List Nat) (x : Parcel) (s : State) : State :=
  setRelay 0 (fun p => { p with
    current := some { weight := weight, ctx := 1, stream := 1, void := none, header := BitVec.ofNat 512 (h.headD 0), params := params,
                      mask := 1, order := true, parcels := 4 }
    slots := [{ parcel := x, forwarded := true, applied := false, stallSeen := false, since := 0 }] }) s

/-- KEY_MAC of a digit at 0 into an accumulator at 128 whose header stands, not yet valid. -/
def tKm : Issued := tPoly 0x2C (2 ^ 27 + 3 * 2 ^ 28)

def tKmObjs (i : Issued) : State :=
  let s := tSlot 1 0
  tStream false [ofLe (tHdr s 1 1 0 1 3 0)] [] (tParcel 9216 0 0 0)
    (tObjs s [tHdr s 1 3 0 1 1 (tData 0), [], tHdr s 0 1 0 1 3 (tData 2)] .poly i)

theorem test_keyMacIssues : readyHead (tKmObjs tKm) 0 .poly 0x2C = some tKm ∧ tKm.km = none ∧
    endsWith (kmIssue 0 tKm) (tKmObjs tKm) (fun k _ => k.reps.length == 1) = true := by decide +kernel

/-- What the issue of `tKm` leaves for its parcels. -/
def tKmOps (checked : Bool) : KmOps :=
  let s := tSlot 1 0
  { reps := [({ addr := spAt 0, h := ofLe (tHdr s 1 3 0 1 1 (tData 0)) }, { addr := spAt 128, h := ofLe (tHdr s 0 1 0 1 3 (tData 2)) }, false)],
    checked := checked }

def tKmAt (checked : Bool) : Issued := { tKm with km := some (tKmOps checked) }

theorem test_keyMacStarts : readyHead (tKmObjs (tKmAt false)) 0 .poly 0x2C = some (tKmAt false) ∧
    endsWith (kmStart 0 (tKmAt false) (tKmOps false)) (tKmObjs (tKmAt false)) (fun k _ => k.checked) = true := by decide +kernel

theorem test_parcelHere : ParcelHere (tKmObjs (tKmAt true)) 0 1 false
    { weight := false, ctx := 1, stream := 1, void := none, header := BitVec.ofNat 512 (ofLe (tHdr (tSlot 1 0) 1 1 0 1 3 0)), params := [],
      mask := 1, order := true, parcels := 4 } (tParcel 9216 0 0 0) :=
  ⟨by decide +kernel, rfl, rfl, by decide +kernel, rfl, rfl, rfl⟩

theorem test_keyMacTakes : let s := tKmObjs (tKmAt true); let i := tKmAt true; let k := tKmOps true
    readyHead s 0 .poly 0x2C = some i ∧ i.km = some k ∧ k.checked = true ∧ i.journal = [] ∧
    KmParcelOk s i.word.toNat 0 32 k (tParcel 9216 0 0 0) ∧
    WorkServed s (envOf 0 .poly i) (k.reps.map fun r => r.2.1.addr) (kmWork s 32 0 0 true k.reps) :=
  ⟨by decide +kernel, by decide +kernel, by decide +kernel, by decide +kernel,
   ⟨by decide +kernel, by decide +kernel, by decide +kernel⟩, workServed_of (by decide +kernel) (by decide +kernel) (by decide +kernel)⟩

/-! ## Gate class -/

/-- A sample of one bit on a gate chain. -/
def tSample : List Byte := tHdr (tSlot 2 80) 1 4 0 1 0 (tData 0)

/-- Gate parameters at 0x8000: n = 2, a look-up table of zeros, the bootstrapping key at 0x10_0000, and their CRC. -/
def tGpb : List Byte :=
  let h := 0xB + 2 ^ 4 + 0x80 * 2 ^ 8 + 2 * 2 ^ 192 + (chain (tSlot 2 80) 0).fp.toNat * 2 ^ 224 + 7 * 2 ^ 256 + spAt 0x20_0000 * 2 ^ 336 +
    spAt 0x10_0000 * 2 ^ 384 + spAt 0x30_0000 * 2 ^ 432
  toLe 64 (h + 681484567 * 2 ^ 480)

/-- Samples at 0 and 64, a destination without an object at 128, the parameters at 0x8000, and a gate instruction. -/
def tGate (q : QueueId) (i : Issued) : State :=
  devWrite .write false (spAt 0x8000) tGpb false
    (tObjs (tSlot 2 80) [tSample, tHdr (tSlot 2 80) 1 4 0 1 0 (tData 1), toLe 64 (tData 2 * 2 ^ 256)] q i)

theorem gateCan_of {checks : Issued → Nat → Eng GateJob} {pieces : State → GateJob → List Work} {hdrs : Bool} {s : State} {i : Issued}
    (hc : ctxSpMask s 1 = 2 ^ 128 - 1 ∧ ctxSpFirst s 1 = 0 ∧ ctxSpCount s 1 = 64)
    (h : endsWith (checks i 0) s (fun j _ => decide (j.e.ctx = 1 ∧ j.e.core = 0) &&
      workOk s (if hdrs then j.ds.map fun d => d.addr else []) (pieces s j)) = true) : gateCan checks pieces hdrs i 0 s := by
  obtain ⟨j, t, h1, h2⟩ := endsWith_iff.1 h
  rw [Bool.and_eq_true, decide_eq_true_eq] at h2
  exact ⟨j, ⟨t, h1⟩, workServed_of hc h2.1 h2.2⟩

/-- G_LIN of one sample: WIDTH 1, coefficient 1 for A and 0 for B. -/
def tLin : Issued := tIns (opw 1 + 2 ^ 32 + 2 ^ 12) [spAt 128, spAt 0, spAt 64]

theorem test_linRuns : gateHead (tGate .gateLane tLin) 0 1 = some tLin ∧
    CanRun 0 .gateLane 1 (gateLin 0) (gateCan (linChecks 0) linPieces true) (tGate .gateLane tLin) tLin :=
  ⟨by decide +kernel, canRun_of (by decide +kernel) (gateCan_of (by decide +kernel) (by decide +kernel))⟩

/-- A streamed G_REFRESH (mode 0) of the sample at 0 to 128, its switched sample at 0x4000. -/
def tRefresh : Issued := tIns (opw 3 + 2 ^ 32 + 2 ^ 28) [spAt 128, spAt 0, spAt 0x4000, spAt 0x8000]

set_option maxRecDepth 20000 in
theorem test_refreshIssues : gateHead (tGate .gateLane tRefresh) 0 3 = some tRefresh ∧ gMode tRefresh.word.toNat = 0 ∧
    endsWith (refreshIssue 0 tRefresh) (tGate .gateLane tRefresh) (fun k _ => k.reps.length == 1) = true := by decide +kernel

/-- What the issue of `tRefresh` leaves, with n parcels taken of a bootstrapping key for n = 2. -/
def tGateOps (n : Nat) (checked : Bool) : GateOps :=
  { reps := [{
      a := { addr := spAt 0, h := ofLe tSample }, d := { addr := spAt 128, h := tData 2 * 2 ^ 256 }, sw := spAt 0x4000, nLwe := 2, lap := false,
      bad := false, ats := [0, 0], acc := zeroAcc, digits := digitsOf zeroAcc, new := zeroAcc
      lut := [] }],
    done := n, checked := checked }

def tRefreshAt (n : Nat) (checked : Bool) : Issued := { tRefresh with gate := some (tGateOps n checked) }

def tRefreshObjs (i : Issued) : State :=
  tStream false [ofLe (tHdr (tSlot 2 80) 1 1 0 3 0 0)] [3, 2] (tParcel 9216 0 0 0) (tGate .gateLane i)

theorem test_refreshStarts : gateHead (tRefreshObjs (tRefreshAt 0 false)) 0 3 = some (tRefreshAt 0 false) ∧
    endsWith (refreshStart 0 (tRefreshAt 0 false) (tGateOps 0 false)) (tRefreshObjs (tRefreshAt 0 false)) (fun k _ => k.checked) = true := by
  decide +kernel

theorem test_refreshTakes : let s := tRefreshObjs (tRefreshAt 0 true); let k := tGateOps 0 true
    gateHead s 0 3 = some (tRefreshAt 0 true) ∧ k.checked = true ∧ allParcels k = false ∧ stopping s 0 1 = false ∧
    (∃ d, ParcelHere s 0 1 false d (tParcel 9216 0 0 0)) ∧ RefreshParcelOk s k (tParcel 9216 0 0 0) :=
  ⟨by decide +kernel, by decide +kernel, by decide +kernel, by decide +kernel,
   ⟨_, ⟨by decide +kernel, rfl, rfl, by decide +kernel, rfl, rfl, rfl⟩⟩, ⟨by decide +kernel, by decide +kernel, by decide +kernel, by decide +kernel⟩⟩

theorem test_refreshEnds : let s := tRefreshObjs (tRefreshAt 24 true); let k := tGateOps 24 true
    gateHead s 0 3 = some (tRefreshAt 24 true) ∧ k.checked = true ∧ allParcels k = true ∧ stopping s 0 1 = false ∧
    WorkServed s (envOf 0 .gateLane (tRefreshAt 24 true)) (k.reps.map fun g => g.d.addr)
      [{ writes := k.reps.flatMap fun g => sampleWrites s g.d }] :=
  ⟨by decide +kernel, by decide +kernel, by decide +kernel, by decide +kernel,
   workServed_of (by decide +kernel) (by decide +kernel) (by decide +kernel)⟩

/-- A segment of the refresh (mode 1): the whole bootstrapping key of one step pair. -/
def tSegment : Issued := tIns (opw 3 + 2 ^ 32 + 2 ^ 36) [spAt 128, spAt 0, spAt 0x4000, spAt 0x8000]

theorem mapE_one {α β : Type} {f : β → Eng α} {b : β} {s : State} {p : α → Bool}
    (h : endsWith (mapE f [b]) s (fun l _ => match l with
      | [v] => p v
      | _ => false) = true) : ∃ v, Passes (mapE f [b]) s [v] ∧ p v = true := by
  obtain ⟨l, t, h1, h2⟩ := endsWith_iff.1 h
  match l with
  | [v] => exact ⟨v, ⟨t, h1⟩, h2⟩

set_option maxRecDepth 20000 in
theorem test_segmentRuns : let s := tGate .gateLane tSegment
    gateHead s 0 3 = some tSegment ∧ tSegment.gate = none ∧ gMode tSegment.word.toNat ≠ 0 ∧ stopping s 0 1 = false ∧ segmentsCan 0 tSegment s := by
  refine ⟨by decide +kernel, by decide +kernel, by decide +kernel, by decide +kernel, ?_⟩
  obtain ⟨j, h1, h2⟩ := mapE_one (f := refreshChecks 0 tSegment) (b := 0) (s := tGate .gateLane tSegment)
    (p := fun j => workOk (tGate .gateLane tSegment) [j.d.addr] (segmentPieces (tGate .gateLane tSegment) tSegment.word.toNat j)) (by decide +kernel)
  refine ⟨[j], h1, workServed_of (by decide +kernel) (by decide +kernel) ?_⟩
  simpa using h2

/-! ## Tensors in core 0's own scratchpad -/

/-- The address that a tensor of extents 1 stores its element at lies in core 0's scratchpad. -/
def elemOne (s : State) (write : Bool) (w : Nat) (ps : List Int) : Bool :=
  decide ((elemPlace w (moduleOf s) ps).module = moduleOf s) && inSp (elemPlace w (moduleOf s) ps).byte.toNat (elemBytes w write)

/-- A tensor of one element, without padding, index or scales. -/
def tensFlat (t : Tens) : Bool :=
  t.index.isNone && t.scale.isNone && (dDims t.w).all fun d => dExtent t.w d == 1 && dPadLo t.w d == 0

/-- A tensor of one element in core 0's scratchpad. -/
def tensOne (s : State) (t : Tens) : Bool := tensFlat t && elemOne s false t.w (List.replicate (dRank t.w) 0)

theorem elemServed_of {s : State} {e : Env} (hc : ctxSpMask s 1 = 2 ^ 128 - 1 ∧ ctxSpFirst s 1 = 0 ∧ ctxSpCount s 1 = 64)
    (he : e.ctx = 1 ∧ e.core = 0) {write : Bool} {w : Nat} {ps : List Int} (h : elemOne s write w ps = true) : ElemServed s e write w ps := by
  unfold elemOne at h
  rw [Bool.and_eq_true, decide_eq_true_eq] at h
  exact ⟨h.1, served_sp hc he _ h.2⟩

theorem readable_flat {s : State} {e : Env} {inner : Nat} {t : Tens} (h : tensFlat t = true)
    (h4 : ElemServed s e false t.w (List.replicate (dRank t.w) 0)) : Readable s e inner t := by
  unfold tensFlat at h
  simp only [Bool.and_eq_true, List.all_eq_true, beq_iff_eq, Option.isNone_iff_eq_none] at h
  obtain ⟨⟨h1, h2⟩, h3⟩ := h
  refine ⟨fun k => by simp [h1] at k, fun ix ps hp => ⟨?_, fun v hv => by simp [h2] at hv⟩⟩
  unfold readPos at hp
  split at hp
  · next hv =>
    simp only [indexPos, h1, Option.some.injEq] at hp
    have h5 : storedPos t.w ix = List.replicate (dRank t.w) 0 := by
      refine List.eq_replicate_iff.2 ⟨by simp [storedPos, dDims], fun x hx => ?_⟩
      unfold storedPos at hx
      obtain ⟨d, hd, rfl⟩ := List.mem_map.1 hx
      have h6 := List.all_eq_true.1 hv d hd
      have h7 : (storedPos t.w ix).getD d 0 = ((ix.getD d 0 : Nat) : Int) - (dPadLo t.w d : Int) := by
        have : d < dRank t.w := List.mem_range.1 hd
        simp [storedPos, dDims, this]
      rw [h7, (h3 d hd).1, (h3 d hd).2, decide_eq_true_eq] at h6
      rw [(h3 d hd).2]
      omega
    rw [← hp, h5]
    exact h4
  · exact nomatch hp

theorem readable_of {s : State} {e : Env} (hc : ctxSpMask s 1 = 2 ^ 128 - 1 ∧ ctxSpFirst s 1 = 0 ∧ ctxSpCount s 1 = 64)
    (he : e.ctx = 1 ∧ e.core = 0) {inner : Nat} {t : Tens} (h : tensOne s t = true) : Readable s e inner t := by
  unfold tensOne at h
  rw [Bool.and_eq_true] at h
  exact readable_flat h.1 (elemServed_of hc he h.2)

/-- A tensor whose elements at the given indices are stored in core 0's scratchpad. -/
def writableOk (s : State) (t : Tens) (ixs : List (List Nat)) : Bool :=
  t.index.isNone && dIndexMode t.w == 0 && ixs.all fun ix => (writePos t ix).all fun ps => elemOne s true t.w ps

theorem writable_of {s : State} {e : Env} (hc : ctxSpMask s 1 = 2 ^ 128 - 1 ∧ ctxSpFirst s 1 = 0 ∧ ctxSpCount s 1 = 64)
    (he : e.ctx = 1 ∧ e.core = 0) {t : Tens} {ixs : List (List Nat)} (h : writableOk s t ixs = true) : Writable s e t ixs := by
  unfold writableOk at h
  simp only [Bool.and_eq_true, List.all_eq_true, beq_iff_eq, Option.isNone_iff_eq_none] at h
  obtain ⟨⟨h1, h2⟩, h3⟩ := h
  refine ⟨fun k => by simp [h1] at k, fun ix hx ps hp => ?_⟩
  have h4 := h3 ix hx
  rw [hp] at h4
  exact ⟨elemServed_of hc he (by simpa using h4), fun k => by omega⟩

/-- A descriptor of one element in two dimensions at an address (Table 9.1). -/
def tDesc (elem base : Nat) : List Byte :=
  toLe 128 (withCheck 128 (0xD + 2 ^ 4 + elem * 2 ^ 8 + 2 ^ 13 + 2 ^ 64 + 2 ^ 128 + base * 2 ^ 448))

/-- Descriptors at 0, 128, 256, 384 of elements at `tData` 0 to 3, and an instruction at the head of a queue. -/
def tTens (elem : Nat) (q : QueueId) (i : Issued) : State :=
  setCore 0 (fun x => setQueue x q [i])
    ((List.range 4).foldl (fun s k => devWrite .write false (spAt (128 * k)) (tDesc elem (tData k)) false s) tCtx)

/-- An MM of INT8 from descriptors at 128 and 256, its tile to the queue (ROUTE 0) or its result to the descriptor at 0 (ROUTE 1). -/
def tMm (route : Nat) : Issued := tIns (opw 1 + route * 2 ^ 24 + (if route = 1 then 4 * 2 ^ 32 else 0)) [spAt 0, spAt 128, spAt 256, spAt 384]

/-! ## Matrix array -/

/-- n parts of an MM's work, one after another. -/
def mmParts (c : Nat) (i : Issued) : Nat → MmOps → State → Option (MmOps × State)
  | 0, o, s => some (o, s)
  | n + 1, o, s =>
    if mmDone o = false ∧ mmWaits s c o = false ∧ stopping s c i.ctx = false then
      match runFrom [] false (mmPart (envOf c .mm i) o) s with
      | .ok o t => mmParts c i n o { t with wrote := [], wroteFar := [] }
      | .error _ _ => none
    else none

theorem mmWorks_of {c : Nat} {i : Issued} : ∀ {n : Nat} {o o' : MmOps} {s t : State}, mmParts c i n o s = some (o', t) →
    MmWorks c i n o [] s o' t
  | 0, o, o', s, t, h => by
    unfold mmParts at h
    injection h with h
    injection h with h1 h2
    subst h1; subst h2
    exact .none
  | n + 1, o, o', s, t, h => by
    unfold mmParts at h
    split at h
    · next hc =>
      split at h
      · next o1 u hr => exact .part hc.1 (.inr hc.2.1) hc.2.2 hr (mmWorks_of h)
      · exact nomatch h
    · exact nomatch h

/-- The checks of an MM at its issue. -/
def mmStart (i : Issued) : Eng MmOps := do
  let o ← mmIssue 0 i i.progress
  arrSealBound (envOf 0 .mm i) o
  pure o

theorem mmRuns_of {i : Issued} {s : State} (h : endsWith (mmStart i) s (fun o s0 => decide (3 < mmFuel o) &&
    (mmParts 0 i 3 o s0).any fun x => mmDone x.1) = true) :
    ∃ o s0 o' t, runFrom [] false (mmStart i) s = .ok o s0 ∧ MmWorks 0 i 3 o [] s0 o' t ∧ 3 < mmFuel o ∧ mmDone o' = true := by
  obtain ⟨o, s0, h1, h2⟩ := endsWith_iff.1 h
  rw [Bool.and_eq_true, decide_eq_true_eq, Option.any_eq_true] at h2
  obtain ⟨h2, x, h3, h4⟩ := h2
  exact ⟨o, s0, x.1, x.2, h1, mmWorks_of h3, h2, h4⟩

/-- An MM of one element by one to the queue: issued, its tile started, multiplied, ended. -/
theorem test_mmWorks : let s := tTens 0 .mm (tMm 0)
    readyHead s 0 .mm 1 = some (tMm 0) ∧ arrayTaken s 0 = false ∧
    ∃ o s0 o' t, runFrom [] false (mmStart (tMm 0)) s = .ok o s0 ∧ MmWorks 0 (tMm 0) 3 o [] s0 o' t ∧ 3 < mmFuel o ∧ mmDone o' = true :=
  ⟨by decide +kernel, by decide +kernel, mmRuns_of (by decide +kernel)⟩
/-- The same to memory (ROUTE 1). -/
theorem test_mmStores : let s := tTens 0 .mm (tMm 1)
    readyHead s 0 .mm 1 = some (tMm 1) ∧ arrayTaken s 0 = false ∧
    ∃ o s0 o' t, runFrom [] false (mmStart (tMm 1)) s = .ok o s0 ∧ MmWorks 0 (tMm 1) 3 o [] s0 o' t ∧ 3 < mmFuel o ∧ mmDone o' = true :=
  ⟨by decide +kernel, by decide +kernel, mmRuns_of (by decide +kernel)⟩

/-- An MM of one tile that has not begun. -/
def tOps : MmOps := { word := (tMm 0).word.toNat, a := { addr := 0, w := 0 }, b := none, c := none, d := none, fuse := none, m := 1, n := 1, k := 1 }

/-- A finished tile of context 1, the last of its repeat. -/
def tBank : Bank := { ctx := 1, word := (tMm 0).word.toNat, m := 1, n := 1, mt := 0, nt := 0, half0 := [[5]], half1 := [[0]], last := true }

def tBanks (i : Issued) (l : List Bank) : State := setCore 0 (fun x => { x with array := { x.array with finished := l } }) (tAt .mm i)

theorem test_mmWaits : let s := tBanks { tMm 0 with mm := some tOps } [tBank, tBank]
    mmDone tOps = false ∧ mmWaits s 0 tOps = true ∧ readyHead s 0 .mm 1 = some { tMm 0 with mm := some tOps } := by decide +kernel

/-- With the last tile drained the MM goes on; its one element is the sum 5. -/
theorem test_tilePush : let i := { tMm 0 with mm := some { tOps with tile := 1 } }
    let s := tBanks i [tBank]
    queueUsed (Machine.core s 0) < 4 ∧ headOf s 0 .mm = some i ∧ mmRoute i.word.toNat = 0 ∧ i.mm.any mmDone = true ∧
    (Machine.core (after (.tilePush 0) s) 0).array.queue.map (fun t => t.data) = [[5]] ∧ queue (Machine.core (after (.tilePush 0) s) 0) .mm = [] := by
  decide +kernel

/-- A fusion block with ARR_MODE 1, chunks of one inner step, on seal 2. -/
def tFuse : FuseTens := { w := 2 ^ 8 + 2 ^ 128 + 2 * 2 ^ 144 }

/-- Seal 2 of context 1 stands at 5, with COUNT 1. -/
def tSealed (s : State) : State := setSeal 5 (fun x => { x with owner := some 1, sealId := 2, count := 1 }) s

theorem test_chunkMet : let o := { tOps with fuse := some tFuse }
    let i := { tMm 0 with mm := some o }
    let s := tSealed (tBanks i [])
    readyHead s 0 .mm 1 = some i ∧ sealOf s 1 (fuArrSeal tFuse.w) = some 5 ∧ o.chunks < arrChunks o ∧
    waitMet s (5, BitVec.ofNat 32 (fuArrBase tFuse.w + o.chunks + 1)) = true ∧
    ((headOf (after (.arrivalChunkMet 0) s) 0 .mm).bind fun i => i.mm.map fun o => o.chunks) = some 1 := by decide +kernel

theorem test_mmCan : ∃ o, mmCan 0 (tMm 0) (tTens 0 .mm (tMm 0)) o ∧ mmRoute o.word = 0 := by
  have h : endsWith (mmStart (tMm 0)) (tTens 0 .mm (tMm 0)) (fun o _ => !(mmRelay o.word) && arrChunks o == 0 && mmRoute o.word == 0 &&
      tensOne (tTens 0 .mm (tMm 0)) o.a && o.b.all (tensOne (tTens 0 .mm (tMm 0))) && o.c.isNone && o.fuse.isNone) = true := by
    decide +kernel
  obtain ⟨o, t, h1, h2⟩ := endsWith_iff.1 h
  simp only [Bool.and_eq_true, Bool.not_eq_true', beq_iff_eq, Option.isNone_iff_eq_none] at h2
  obtain ⟨⟨⟨⟨⟨⟨k1, k2⟩, k3⟩, k4⟩, k5⟩, k6⟩, k7⟩ := h2
  have hc : ctxSpMask (tTens 0 .mm (tMm 0)) 1 = 2 ^ 128 - 1 ∧ ctxSpFirst (tTens 0 .mm (tMm 0)) 1 = 0 ∧
    ctxSpCount (tTens 0 .mm (tMm 0)) 1 = 64 := by decide +kernel
  refine ⟨o, ⟨⟨t, h1⟩, k1, k2, ?_, ?_, ?_, ?_, ?_, ?_⟩, k3⟩
  · exact readable_of hc ⟨rfl, rfl⟩ k4
  · intro t ht
    rw [ht] at k5
    exact readable_of hc ⟨rfl, rfl⟩ (by simpa using k5)
  · intro t ht
    simp [k6, k7] at ht
  all_goals exact fun h => absurd k3 h

/-! ## Vector engine -/

/-- VADD of FP32 elements at 128 and 256 to 0. -/
def tVadd : Issued := tIns (opw 1) [spAt 0, spAt 128, spAt 256, spAt 384]

theorem test_vaddRuns : CanRun 0 .vec 1 (vecRun 0 1) (vecCan 0 1) (tTens 0xA .vec tVadd) tVadd ∧ vecPops tVadd.word.toNat = false ∧
    vecClaimed (tTens 0xA .vec tVadd) 0 = false := by
  refine ⟨canRun_of (by decide +kernel) ?_, by decide +kernel, by decide +kernel⟩
  have h : endsWith (vecIssue 0 tVadd 0) (tTens 0xA .vec tVadd) (fun o _ => let s := tTens 0xA .vec tVadd;
      (o.a.toList ++ o.b.toList).all (tensOne s) && o.d.all fun t => writableOk s t (vecIxs tVadd.word.toNat o)) = true := by decide +kernel
  have h2 : endsWith (vecIssue 0 tVadd 0) (tTens 0xA .vec tVadd) (fun o _ => o.c.isNone) = true := by decide +kernel
  obtain ⟨o, t, h1, h⟩ := endsWith_iff.1 h
  obtain ⟨o', t', h1', h2⟩ := endsWith_iff.1 h2
  rw [h1] at h1'
  injection h1' with h3 h4
  subst h3
  simp only [Bool.and_eq_true, List.all_eq_true, Option.isNone_iff_eq_none] at h h2
  have hc : ctxSpMask (tTens 0xA .vec tVadd) 1 = 2 ^ 128 - 1 ∧ ctxSpFirst (tTens 0xA .vec tVadd) 1 = 0 ∧
    ctxSpCount (tTens 0xA .vec tVadd) 1 = 64 := by decide +kernel
  refine ⟨o, ⟨t, h1⟩, ?_, ?_, ?_⟩
  · intro x hx
    have hop : ¬ iOpcode tVadd.word.toNat = 0x38 := by decide +kernel
    rw [if_neg hop, h2, Option.toList_none, List.append_nil] at hx
    exact readable_of hc ⟨rfl, rfl⟩ (h.1 x hx)
  · intro x hx
    rw [hx] at h
    exact writable_of hc ⟨rfl, rfl⟩ (by simpa using h.2)
  · intro hop
    exact absurd hop (by decide +kernel)

/-- VLDR of the 256 bytes at 0x100. -/
def tVldr : Issued := tIns (opw 0x3C) [0, spAt 0x100]

theorem test_vldrRuns : CanRun 0 .vec 0x3C (vecRun 0 0x3C) (vecCan 0 0x3C) (tAt .vec tVldr) tVldr ∧
    ∃ posts t, Finishes 0 .vec 0x3C (vecRun 0 0x3C) (tAt .vec tVldr) tVldr posts t :=
  ⟨canRun_of (by decide +kernel) ⟨by decide +kernel, by decide +kernel, served_sp (by decide +kernel) ⟨rfl, rfl⟩ _ (by decide +kernel)⟩,
   finishes_of (by decide +kernel) (by decide +kernel)⟩

/-- VNEG of register 1 to register 2. -/
def tVneg : Issued := tIns (opw 7 + 2 ^ 42 + 2 ^ 37 + 2 ^ 32 + 2 * 2 ^ 17) []

/-- Lane 3 of the register holds 1.0, and −1.0 follows from it (R168). -/
theorem test_vneg : let s := setVReg 0 1 1 ((List.range 64).map fun k => (if k = 3 then 0x3F80_0000 else 0, false)) (tAt .vec tVneg)
    vecClaimed s 0 = false ∧ readyHead s 0 .vec 7 = some tVneg ∧ vecEncOk tVneg.word.toNat = true ∧ vASrc tVneg.word.toNat = 1 ∧
    vDReg tVneg.word.toNat = true ∧ vecUsesB 7 = false ∧ (vLane (after (.vneg 0) s) 0 1 2 3).1 = 0xBF80_0000 ∧
    (vLane (after (.vneg 0) s) 0 1 2 4).1 = 0x8000_0000 := by decide +kernel

/-- VNEG of the tiles of an MM, to register 2. -/
def tPop : Issued := tIns (opw 7 + 2 * 2 ^ 42 + 2 ^ 37 + 2 * 2 ^ 17) []

def tPopOps : VecOps := { a := none, b := none, c := none, d := none, fuse := none, shape := [1, 1] }

/-- The tile that `tBank` becomes, its sum read as FP32. -/
def tTile : Tile := { tag := BitVec.ofNat 128 (2 ^ 34 + 2 ^ 39), m := 1, n := 1, data := [0x3F80_0000], ctx := 1 }

def tTiles (i : Issued) : State := setCore 0 (fun x => { x with array := { x.array with queue := [tTile] } }) (tAt .vec i)

theorem test_popStarts : vecPops tPop.word.toNat = true ∧ readyHead (tTiles tPop) 0 .vec 7 = some tPop ∧
    (Machine.core (tTiles tPop) 0).vec.discard ≠ some 1 ∧ endsWith (vecIssue 0 tPop 0) (tTiles tPop) (fun _ _ => true) = true := by decide +kernel

theorem test_pops : let i := { tPop with vec := some tPopOps }
    let s := tTiles i
    (Machine.core s 0).array.queue.any (deadTile s) = false ∧ ready s 0 i = true ∧ firstTile (Machine.core s 0) 1 = some tTile ∧
    PopServed s (envOf 0 .vec i) i.word.toNat tPopOps tTile ∧ (vLane (after (.tilePop 0) s) 0 1 2 0).1 = 0xBF80_0000 :=
  ⟨by decide +kernel, by decide +kernel, by decide +kernel,
   ⟨by decide +kernel, by decide +kernel, (fun _ x hx => nomatch hx), (fun x hx => nomatch hx)⟩, by decide +kernel⟩

theorem test_discards : let s := setCore 0 (fun x => { x with vec := { x.vec with discard := some 1 } }) (tTiles tPop)
    (Machine.core s 0).array.queue.any (deadTile s) = false ∧ (Machine.core s 0).vec.discard = some 1 ∧ firstTile (Machine.core s 0) 1 = some tTile ∧
    (Machine.core (after (.tilePop 0) s) 0).vec.discard = none := by decide +kernel
theorem test_deadTile : let s := setCtxF 1 10 8 3 (tTiles tPop)
    (Machine.core s 0).array.queue.any (deadTile s) = true ∧ (Machine.core (after (.tilePop 0) s) 0).array.queue = [] := by decide +kernel

/-! ## The courier -/

def tRelayW : Issued := tIns (opw 8) [0, spAt 128]
def tKeyStream : Issued := tIns (opw 1 + 2 ^ 16) [0, spAt 128]

theorem test_relayW : let s := tAt .move tRelayW
    readyHead s 0 .move 8 = some tRelayW ∧ relayWEncOk tRelayW.word.toNat = true ∧ engHeld (engine s 0) < 4 ∧
    ((engine (after (.relayW 0) s) 0).queue.map fun q => q.weight) = [true] := by decide +kernel
theorem test_keyStream : let s := tAt .courier tKeyStream
    readyHead s 0 .courier 1 = some tKeyStream ∧ keyStreamEncOk tKeyStream.word.toNat = true ∧ engHeld (engine s 0) < 4 ∧
    ((engine (after (.keyStream 0) s) 0).queue.map fun q => q.weight) = [false] := by decide +kernel
theorem test_submits : let s := tAt .move tRelayW
    CanRun 0 .move 8 (submit true relayWEncOk 0) (fun i _ s => relayWEncOk i.word.toNat = true ∧ engHeld (engine s 0) < 4) s tRelayW ∧
    CanRun 0 .courier 1 (submit false keyStreamEncOk 0) (fun i _ s => keyStreamEncOk i.word.toNat = true ∧ engHeld (engine s 0) < 4)
      (tAt .courier tKeyStream) tKeyStream :=
  ⟨canRun_of (by decide +kernel) (by decide +kernel), canRun_of (by decide +kernel) (by decide +kernel)⟩

/-- A weight tensor of one INT8 element at address 0 of HBM, its descriptor at 128, and a request for it at engine 0. -/
def tWeights : State :=
  setEngine 0 (fun x => { x with queue := [{ weight := true, core := 0, instr := tRelayW }] })
    (devWrite .write false (spAt 128) (tDesc 0 0) false tCtx)

theorem test_streamStarts : let s := tWeights
    running s = true ∧ mayStart s 0 = true ∧ (engine s 0).queue = [{ weight := true, core := 0, instr := tRelayW }] ∧ streamLive s 1 = true ∧
    endsWith (weightChecks { core := 0, ctx := 1, unit := .courier, alloc := false } 1 tRelayW) s (fun p _ => p.todo.length == 1) = true := by
  decide +kernel

/-- The parcel of that stream still to be formed. -/
def tForm : State :=
  setEngine 0 (fun x => { x with
    todo := [tParcel 0 0 0 0], listing := [ofLe (tDesc 0 0), 0]
    current := some { weight := true, ctx := 1, stream := 1, void := none, header := 0, params := [0, 1, 1, 0], mask := 1, order := true,
                      parcels := 1 } }) tCtx

theorem served_one {s : State} {e : Env} {a d : Nat} (h : xlat s e.ctx false a = .dev d) : Served s e false a 1 := by
  intro b h1 h2
  obtain rfl : b = a := by omega
  exact ⟨d, h, fun k => nomatch k⟩

theorem test_parcelForms : ∃ d, (engine tForm 0).current = some d ∧ (engine tForm 0).todo = [tParcel 0 0 0 0] ∧ running tForm = true ∧
    streamLive tForm d.ctx = true ∧ (engine tForm 0).out.length < 4 ∧
    FormServed tForm { core := 0, ctx := 1, unit := .courier, alloc := false } (engine tForm 0) d (tParcel 0 0 0 0) := by
  refine ⟨_, rfl, rfl, by decide +kernel, by decide +kernel, by decide +kernel, ?_⟩
  unfold FormServed
  rw [if_pos rfl]
  refine ⟨readable_flat (by decide +kernel) ⟨by decide +kernel, ?_⟩, fun h => absurd h (by decide +kernel)⟩
  have h1 : (elemPlace (weightTens (engine tForm 0)).w (moduleOf tForm) (List.replicate (dRank (weightTens (engine tForm 0)).w) 0)).byte.toNat = 0 ∧
    elemBytes (weightTens (engine tForm 0)).w false = 1 := by decide +kernel
  rw [h1.1, h1.2]
  exact served_one (d := 600 * 2 ^ 21) (by decide +kernel)

/-- A stream at engine 0 that core 0 does not know; one it knows, with a parcel out. -/
def tArrive (known : Bool) : State :=
  let d : StreamDesc := { weight := true, ctx := 1, stream := 1, void := none, header := 0, params := [0, 1, 1, 0], mask := 1, order := true, parcels := 1 }
  setRelay 0 (fun p => { p with current := if known then some d else none })
    (setEngine 0 (fun x => { x with current := some d, out := [tParcel 0 0 0 0] }) tCtx)

theorem test_streamArrives : (upstream (tArrive false) 0).map (fun d => d.stream) = some 1 ∧
    (Machine.core (tArrive false) 0).relay.current.map (fun d => d.stream) ≠ some 1 ∧ mayAdvance (tArrive false) 0 = true := by decide +kernel
/-- A parcel whose CRC fails arrives marked (R90). -/
theorem test_parcelArrives : (Machine.core (tArrive true) 0).relay.current.map (fun d => d.stream) = some 1 ∧
    offered (tArrive true) 0 = some (tParcel 0 0 0 0) ∧ (Machine.core (tArrive true) 0).relay.slots.length < 2 ∧ streamLive (tArrive true) 1 = true ∧
    ((Machine.core (after (.parcelArrival 0 false) (tArrive true)) 0).relay.slots.map fun x => x.parcel.poison) = [true] := by decide +kernel

theorem test_relayStalls : let s := { setReg 0x3200 1 5 (tStream true [] [] (tParcel 0 0 0 0) tCtx) with time := 6 }
    ((Machine.core s 0).relay.slots[0]?.map fun x => x.stallSeen) = some false ∧ reg s 0x3200 1 ≠ 0 ∧ reg s 0x3200 1 < s.time - 0 ∧
    count (after (.relayStall 0 0) s) (ekey 0x3200 2) = 1 := by decide +kernel

/-! ## The command processor -/

/-- HEAD 100 moves to 101 and to 256 ahead of RETIRED, no further, and not back (R207). -/
theorem test_doorbell : (ctxState tCtx 1 = 1 ∧ ctxGen tCtx 1 = 1 ∧ (stream tCtx 1 0).known = true) ∧
    (∀ h ∈ [100, 101, 256], 0 ≤ sdiff32 h (stream tCtx 1 0).head.toNat ∧ sdiff32 h (stream tCtx 1 0).retired.toNat ≤ ((2 ^ 8 : Nat) : Int) ∧
      (stream (after (.doorbell 1 1 0 (BitVec.ofNat 32 h)) tCtx) 1 0).head.toNat = h) ∧
    ∀ h ∈ [99, 257], (sdiff32 h (stream tCtx 1 0).head.toNat < 0 ∨ ((2 ^ 8 : Nat) : Int) < sdiff32 h (stream tCtx 1 0).retired.toNat) ∧
      (stream (after (.doorbell 1 1 0 (BitVec.ofNat 32 h)) tCtx) 1 0).head.toNat = 100 ∧
      count (after (.doorbell 1 1 0 (BitVec.ofNat 32 h)) tCtx) (ekey 0x3600 3) = 1 := by decide +kernel

/-- The ring in core 0's scratchpad with one instruction, block 0 of it in instruction memory or not, with `fill` words of it there. -/
def tBlock (held : Bool) (fill word : Nat) : State :=
  let b : ImemBlock := { ctx := some 1, ringBlock := 0, fill := fill, words := [(0, BitVec.ofNat 128 word)] }
  setCore 0 (fun x => if held then { x with imem := x.imem.set 0 b } else x)
    (setStream 1 0 (fun t => { t with ringBase := spAt 0x1000, head := 1, allow := 4 }) tCtx)

theorem test_blockLoad : let s := tBlock false 0 0
    inSlot s 0 1 = true ∧ running s = true ∧ stopped s 0 1 = false ∧ (stream s 1 0).mode = .running ∧ wantedBlock s 0 1 = some 0 ∧
    readFailed (stream s 1 0) 0 = false ∧ blockOf (Machine.core s 0) 1 0 = none ∧ mayTake s 0 1 = true ∧ (ringWords 0 1 0 0 s).1.isSome = true ∧
    blockOf (Machine.core (takeBlock 0 1 0 (ringWords 0 1 0 0 s).2) 0) 1 0 = some 0 ∧
    ((Machine.core (after (.blockLoad 0 1) s) 0).imem.getD 0 {}).fill = 1 := by decide +kernel
theorem test_blockExtends : let s := tBlock true 0 0
    wantedBlock s 0 1 = some 0 ∧ blockOf (Machine.core s 0) 1 0 = some 0 ∧ (ringWords 0 1 0 0 s).1.isSome = true ∧
    blockOf (Machine.core (ringWords 0 1 0 0 s).2 0) 1 0 = some 0 ∧ ((Machine.core (after (.blockLoad 0 1) s) 0).imem.getD 0 {}).gen = 0 := by
  decide +kernel
/-- NEXT stands in block 0: it is occupied, and a reload without FORCE is held (R211). -/
theorem test_reload : let s := tBlock true 1 0
    opens tw 0x3680 8 (1 * 2 ^ 48 + 0) s = true ∧ opens tw 0x3680 8 (1 * 2 ^ 48 + 2 ^ 40 + 0) s = true ∧
    reloadAbsent s 0 { ctx := 1, ringBlock := 0, force := false } = none ∧ occupied s 0 1 0 = true ∧ (ringWords 0 1 0 0 s).1.isSome = true ∧
    (Machine.core (after (.imemReload tw 0 1 0) s) 0).reloadState = 1 ∧ (Machine.core (after (.imemReloadForce tw 0 1 0) s) 0).reloadState = 2 ∧
    ((Machine.core (after (.imemReloadForce tw 0 1 0) s) 0).imem.getD 0 {}).gen = 1 := by decide +kernel
theorem test_reloadHeld : let r : HeldReload := { ctx := 1, ringBlock := 3, force := false }
    let s := setCore 0 (fun x => { x with reload := [r] }) (tBlock true 1 0)
    (Machine.core s 0).reload.find? (fun r => reloadReady s 0 r) = some r ∧ (Machine.core (after (.imemReloadHeldDone 0) s) 0).reload = [] := by
  decide +kernel

/-- A STAMP_PUT (class 7, opcode 0x11), and a NOP (class 1). -/
def tPutWord : Nat := 7 * 2 ^ 124 + opw 0x11
def tNopWord : Nat := 2 ^ 124

theorem test_dispatch : ∀ w ∈ [tPutWord, tNopWord], let s := tBlock true 1 w
    slotOrder s 0 = [0] ∧ (Machine.core s 0).slots.getD 0 none = some 1 ∧ mayDispatch s 0 1 = true ∧ (stream s 1 0).fetched = none ∧
    (match fetchAt (eccReload 0 1 s) 0 1 with | .word v _ => v | _ => 0) = w ∧ dispatchFault s (stream s 1 0) w = none := by decide +kernel
theorem test_dispatched : (queue (Machine.core (after (.dispatch 0) (tBlock true 1 tPutWord)) 0) .msg).length = 1 ∧
    queueOf tPutWord = some .msg ∧ queueOf tNopWord = none ∧
    (stream (after (.dispatch 0) (tBlock true 1 tNopWord)) 1 0).held.isSome = true ∧
    (stream (after (.dispatch 0) (tBlock true 1 tPutWord)) 1 0).next = 1 := by decide +kernel

/-- An instruction that waits for seal 2 to reach 1. -/
def tWaiting (w : Nat) : Issued := { tIns w [] with wait := some (5, 1) }

theorem test_waitMet : let s := tSealed (tAt .move (tWaiting (opw 2)))
    running s = true ∧ headOf s 0 .move = some (tWaiting (opw 2)) ∧ waitMet s (5, 1) = true ∧ stopped s 0 1 = false ∧
    ((headOf (after (.waitMet 0 (.queue .move)) s) 0 .move).map fun i => i.started) = some true := by decide +kernel
theorem test_waitMetCtrl : let s := tSealed (setStream 1 0 (fun t => { t with held := some (tWaiting 0) }) tCtx)
    (stream s 1 0).held = some (tWaiting 0) ∧ waitMet s (5, 1) = true ∧
    ((stream (after (.waitMet 0 (.ctrl 1)) s) 1 0).held.map fun i => i.started) = some true := by decide +kernel

/-- An instruction that has ended and waits for nothing. -/
def tEnded : State := setCore 0 (fun x => { x with
  retiring := [{ instr := tIns (opw 2) [], faulted := false, repeatsOk := 1, dests := [], posts := [] }] }) tCtx

theorem test_retire : (Machine.core tEnded 0).retiring.findIdx? (fun e => burstsDone tEnded 0 e) = some 0 ∧
    (Machine.core (after (.instructionRetire 0) tEnded) 0).retiring = [] := by decide +kernel

/-! ## CTRL instructions -/

theorem test_ctrlHeld : ∀ op ∈ [0, 2, 0xC, 0xD, 0xE, 0xF], let s := tCtrl (opw op)
    heldCtrl s 0 1 op = some (tIns (opw op) []) ∧ (stream s 1 0).inflight = [] ∧ (stream s 1 0).loops = [] := by decide +kernel
/-- An AUTOINC record at 0x40 (Table 10.6) sets a generator. -/
theorem test_agSet : let w := opw 1 + spAt 0x40
    let s := devWrite .write false (spAt 0x40) (toLe 64 (withCheck 64 (0xF + 2 ^ 4 + 2 ^ 8))) false (tCtrl w)
    heldCtrl s 0 1 1 = some (tIns w []) ∧ bits (tIns w []).word.toNat 47 0 % 64 = 0 ∧
    endsWith (loadWord { core := 0, ctx := 1, unit := .cp } (bits (tIns w []).word.toNat 47 0) 64) s (fun v _ => (genFault v).isNone) = true := by
  decide +kernel
theorem test_sealBind : let w := opw 4 + 2 * 2 ^ 32 + 9
    let s := tSealed (tCtrl w)
    heldCtrl s 0 1 4 = some (tIns w []) ∧ sealOf s 1 (bits (tIns w []).word.toNat 47 32) = some 5 ∧
    (((stream (after (.sealBind 0 1) s) 1 0).slots.getD 0 {}).bound.map fun r => r.phys) = some 5 ∧
    ((stream (after (.sealBind 0 1) s) 1 0).slots.getD 0 {}).target = 9 := by decide +kernel
/-- A LOOP over the one instruction after it. -/
theorem test_loop : let i := tIns (opw 8 + 3) []
    let s := setStream 1 0 (fun t => { t with held := some i }) (tBlock true 1 0)
    let s := setStream 1 0 (fun t => { t with head := 5 }) s
    heldCtrl s 0 1 8 = some i ∧ loopBad (stream s 1 0) i = false ∧ 0 < sdiff32 (stream s 1 0).head.toNat (loopLast i).toNat ∧
    (Machine.core s 0).pinWaits = [] ∧ pinFits s 0 1 i = true ∧ (stream (after (.loop 0 1) s) 1 0).loops.length = 1 := by decide +kernel
theorem test_loopPin : let i := tIns (opw 8 + 3) []
    let s := setCore 0 (fun x => { x with pinWaits := [1] }) (setStream 1 0 (fun t => { t with held := some i, head := 5 }) (tBlock true 1 0))
    (Machine.core s 0).pinWaits = [1] ∧ heldCtrl s 0 1 8 = some i ∧ pinFits s 0 1 i = true ∧
    (stream (after (.loopPin 0) s) 1 0).loops.length = 1 ∧ (Machine.core (after (.loopPin 0) s) 0).pinWaits = [] := by decide +kernel
theorem test_finish : let s := setStream 1 0 (fun t => { t with ended := true }) tCtx
    (stream s 1 0).inflight = [] ∧ (stream s 1 0).mode = .running ∧ (stream (after (.streamFinish 0 1) s) 1 0).mode = .finished := by
  decide +kernel

/-- CP_SELECT of core 0 names context 1. -/
def tSelect : State := setReg 0x3680 1 1 tCtx

theorem test_debugger : (∀ v ∈ [1, 2, 3], opens tw 0x3680 7 v tSelect = true) ∧ bits (reg tSelect 0x3680 1) 11 0 = 1 ∧
    (stream (after (.debugHalt tw 0) tSelect) 1 0).mode = .halted ∧ (after (.cpResume tw 0) tSelect).outbox = [.access .sideband 0x16 []] := by
  decide +kernel

/-- An AFFINE generator at counters below their extents, and an AUTOINC one with WRAP 16. -/
theorem test_generators : let g : Gen := { isSet := true, record := 0, counters := [0, 0, 0, 0, 0, 0] }
    genBase g < 2 ^ 48 ∧ g.counters.length = 6 ∧ genAuto g = false ∧ (∀ l < genLevels g + 1, g.counters.getD l 0 ≤ genExtent g l) ∧
    genLevels g ≤ 5 := by decide +kernel

/-! ## Messages, stamps and seals -/

/-- An envelope prepared for box 1 of core 3 of this module, without a receipt (Table 11.1). -/
def tEnvelope : Nat := 9 + 2 ^ 4 + 2 ^ 25 + 3 * 2 ^ 30

/-- It is prepared at 0x40, and box 2 of core 0 belongs to context 1 and holds one. -/
def tMsg (i : Issued) : State :=
  setMailbox 0 2 (fun _ => { owner := some 1, queue := [7] })
    (devWrite .write false (spAt 0x40) (toLe 32 tEnvelope) false (tAt .msg i))

def tRecv (op : Nat) : Issued := tIns (opw op + 2 * 2 ^ 48) [spAt 0x80]

theorem recvCan_of {poll : Bool} {i : Issued} {s : State} (hc : ctxSpMask s 1 = 2 ^ 128 - 1 ∧ ctxSpFirst s 1 = 0 ∧ ctxSpCount s 1 = 64)
    (hi : i.ctx = 1) (h : msgFieldsOk i.word.toNat = true ∧ (mailbox s 0 (bits i.word.toNat 52 48)).owner = some i.ctx ∧ addrOf i 0 0 % 32 = 0 ∧
      isSp (addrOf i 0 0) = true ∧ spCore (addrOf i 0 0) = 0 ∧ (poll = true ∨ (mailbox s 0 (bits i.word.toNat 52 48)).queue ≠ []))
    (k : inSp (addrOf i 0 0) 32 = true) : recvCan poll 0 i 0 s := by
  obtain ⟨h1, h2, h3, h4, h5, h6⟩ := h
  exact ⟨h1, h2, h3, h4, h5, h6, served_sp hc ⟨hi, rfl⟩ _ k⟩

theorem test_recvRuns : CanRun 0 .msg 2 (recvOne false 0) (recvCan false 0) (tMsg (tRecv 2)) (tRecv 2) ∧
    CanRun 0 .msg 3 (recvOne true 0) (recvCan true 0) (tMsg (tRecv 3)) (tRecv 3) ∧
    ∃ posts t, Finishes 0 .msg 2 (recvOne false 0) (tMsg (tRecv 2)) (tRecv 2) posts t :=
  ⟨canRun_of (by decide +kernel) (recvCan_of (by decide +kernel) rfl (by decide +kernel) (by decide +kernel)),
   canRun_of (by decide +kernel) (recvCan_of (by decide +kernel) rfl (by decide +kernel) (by decide +kernel)),
   finishes_of (by decide +kernel) (by decide +kernel)⟩

/-- RECV stores the oldest envelope and drops it (R239). -/
theorem test_recv : let s := tMsg (tRecv 2)
    (mailbox s 0 2).owner = some 1 ∧ (mailbox s 0 2).queue = [7] ∧
    endsWith (store (envOf 0 .msg (tRecv 2)) (spAt 0x80) (toLe 32 7) false) s (fun _ _ => true) = true ∧
    devBytes (after (.recv 0) s) (spAt 0x80) 1 = [7] ∧ (mailbox (after (.recv 0) s) 0 2).queue = [] := by decide +kernel
theorem test_pollEmpty : let s := setMailbox 0 2 (fun _ => { owner := some 1 }) (tMsg (tRecv 3))
    (mailbox s 0 2).queue = [] ∧ readyHead s 0 .msg 3 = some (tRecv 3) ∧
    endsWith (store (envOf 0 .msg (tRecv 3)) (spAt 0x80) (List.replicate 32 0) false) s (fun _ _ => true) = true ∧
    queue (Machine.core (after (.poll 0) s) 0) .msg = [] := by decide +kernel

def tBox (op box : Nat) : Issued := tIns (opw op + box * 2 ^ 48) []

theorem test_mailboxes : (readyHead (tMsg (tBox 4 5)) 0 .msg 4 = some (tBox 4 5) ∧ (mailbox (tMsg (tBox 4 5)) 0 5).owner = none ∧
      msgFieldsOk (tBox 4 5).word.toNat = true ∧ (mailbox (after (.mbOpen 0) (tMsg (tBox 4 5))) 0 5).owner = some 1) ∧
    (mailbox (tMsg (tBox 4 2)) 0 2).owner = some 1 ∧ readyHead (tMsg (tBox 5 2)) 0 .msg 5 = some (tBox 5 2) ∧
    (mailbox (after (.mbClose 0) (tMsg (tBox 5 2))) 0 2).owner = none := by decide +kernel

/-- Office 1 of core 0 belongs to context 1, and its account for core 3's pool holds 9 stamps. -/
def tOffice (i : Issued) : State :=
  setCore 0 (fun x => { x with accounts := [{ ctx := 1, module := 0, dest := 3, inHand := 9, inFlight := 0, returning := 0 }] })
    (setOffice 0 1 (fun _ => { owner := some 1 }) (tSealed (tMsg i)))

def tPut : Issued := tIns (opw 0x11 + 3 * 2 ^ 22 + 4) []
def tGet : Issued := tIns (opw 0x10 + 3 * 2 ^ 22 + 4) []

theorem test_closesAndPuts : (office (tOffice (tBox 9 1)) 0 1).owner = some 1 ∧ (office (tOffice (tBox 9 1)) 0 1).adding = false ∧
    readyHead (tOffice (tBox 9 1)) 0 .msg 9 = some (tBox 9 1) ∧ (office (after (.soClose 0) (tOffice (tBox 9 1))) 0 1).owner = none ∧
    (accountOf (tOffice tPut) 0 1 (stampDest tPut.word.toNat).1 (stampDest tPut.word.toNat).2).isSome = true ∧
    readyHead (tOffice tPut) 0 .msg 0x11 = some tPut ∧ msgFieldsOk tPut.word.toNat = true ∧
    ((accountOf (after (.stampPut 0) (tOffice tPut)) 0 1 0 3).map fun a => a.inHand) = some 5 := by decide +kernel
theorem test_soCloseRuns : ∃ posts t, Finishes 0 .msg 9 (soCloseOne 0) (tOffice (tBox 9 1)) (tBox 9 1) posts t :=
  finishes_of (by decide +kernel) (by decide +kernel)

def tSeal (op id v : Nat) : Issued := tIns (opw op + id * 2 ^ 32 + v) []

theorem test_sealCreate : let i := tSeal 0x18 4 6
    readyHead (tOffice i) 0 .msg 0x18 = some i ∧ sealOf (tOffice i) 1 4 = none ∧ sealsTaken (tOffice i) 1 < ctxSealQuota (tOffice i) 1 ∧
    freeSeal (tOffice i) 0 = some 0 ∧ msgFieldsOk i.word.toNat = true ∧ sealOf (after (.sealCreate 0) (tOffice i)) 1 4 = some 0 ∧
    (sealAt (after (.sealCreate 0) (tOffice i)) 0).count = 6 := by decide +kernel
theorem test_sealFree : let i := tSeal 0x19 2 0
    readyHead (tOffice i) 0 .msg 0x19 = some i ∧ sealOf (tOffice i) 1 2 = some 5 ∧ sealWaiters (tOffice i) 5 = 0 ∧ sealSlots (tOffice i) 5 = 0 ∧
    msgFieldsOk i.word.toNat = true ∧ sealOf (after (.sealFree 0) (tOffice i)) 1 2 = none := by decide +kernel
theorem test_sealAdd : let i := tSeal 0x1B 2 3
    readyHead (tOffice i) 0 .msg 0x1B = some i ∧ sealOf (tOffice i) 1 2 = some 5 ∧ msgFieldsOk i.word.toNat = true ∧
    ((Machine.core (after (.sealAdd 0) (tOffice i)) 0).retiring.map fun e => e.posts.map fun m => m.amount) = [[3]] := by decide +kernel

def tSend : Issued := tIns (opw 1) [spAt 0x40]

theorem test_send : let s := tMsg tSend
    readyHead s 0 .msg 1 = some tSend ∧ s.envFlight = [] ∧ endsWith (sendOne 0 tSend 0) s (fun _ _ => true) = true ∧
    ((after (.send 0) s).envFlight.map fun f => envCtx f.env.toNat) = [1] := by decide +kernel
theorem test_sendCan : sendCan 0 tSend 0 (tMsg tSend) tEnvelope := by
  obtain ⟨v, t, h, k⟩ := endsWith_iff.1 (show endsWith (loadWord (envOf 0 .msg tSend) (addrOf tSend 0 0) 32) (tMsg tSend) (fun v _ => v == tEnvelope) = true
    by decide +kernel)
  rw [beq_iff_eq] at k
  subst k
  exact ⟨by decide +kernel, by decide +kernel, by decide +kernel, by decide +kernel, ⟨t, h⟩, by decide +kernel, fun k => absurd k (by decide +kernel)⟩
theorem test_answered : let i := { tSend with work := [2] }
    readyHead (tMsg i) 0 .msg 1 = some i ∧ queue (Machine.core (after (.send 0) (tMsg i)) 0) .msg = [] := by decide +kernel
theorem test_stampGet : let s := tOffice tGet
    readyHead s 0 .msg 0x10 = some tGet ∧ msgFieldsOk tGet.word.toNat = true ∧ stampDest tGet.word.toNat = (0, 3) ∧ moduleOf s = 0 ∧
    bit (ctxSpMask s 1) 3 = true ∧ 0 < ctxSpCount s 1 ∧ ((Machine.core (after (.stampGet 0) s) 3).poolWaits.map fun w => w.count) = [4] := by
  decide +kernel
/-- Module 1 of this board at port 0. -/
def tPeer : PeerIdentity := { module := 1, board := 0, pod := 0, role := 0, port := 0, spareMode := 0 }

/-- Port 0 is UP with it. -/
def tLinked (s : State) : State := setLink 0 (fun l => { l with state := 3, peer := some tPeer }) s

theorem test_stampGetFar : let i := tIns (opw 0x10 + 2 ^ 29 + 3 * 2 ^ 22 + 4) []
    let s := tLinked (tOffice i)
    readyHead s 0 .msg 0x10 = some i ∧ msgFieldsOk i.word.toNat = true ∧ (Machine.core s 0).accounts.length < 64 ∧
    stampDest i.word.toNat = (1, 3) ∧ moduleOf s ≠ 1 ∧ reachable s 1 = true := by decide +kernel
theorem test_sealImport : let i := tSeal 0x1A 9 (2 ^ 17 + 4)
    let s := tLinked (tOffice i)
    readyHead s 0 .msg 0x1A = some i ∧ msgFieldsOk i.word.toNat = true ∧ sealOf s 1 9 = none ∧ freeSeal s 0 = some 0 ∧
    sealsTaken s 1 < ctxSealQuota s 1 ∧ bits (2 ^ 17 + 4) 31 17 ≠ identityOf s % 2 ^ 15 ∧
    ((after (.sealImport 0) s).imports.map fun w => w.phys) = [0] := by decide +kernel

/-- The envelope of context 1 on its way to box 1 of core 3, which belongs to the context or not. -/
def tFlight (owned : Bool) (env : Nat) (att : Nat) : State :=
  { setMailbox 3 1 (fun m => if owned then { m with owner := some 1 } else m) (tMsg tSend) with
    envFlight := [{ env := BitVec.ofNat 256 (envSeal tCtx 1 0 env), srcCore := 0, serial := 1, attempts := att }] }

theorem test_accepted : let s := tFlight true tEnvelope 0; let e := envSeal tCtx 1 0 tEnvelope
    checkOk 32 e = true ∧ arrivalOf s e = .accepted ∧ (s.envFlight.map fun f => channelBehind s 0 f) = [false] ∧ ctxState s 1 ≠ 3 ∧
    (mailbox (after (.envelopeArrival 0 (BitVec.ofNat 256 e)) s) 3 1).queue.length = 1 := by decide +kernel
theorem test_deadLetter : let s := tFlight false tEnvelope 0; let e := envSeal tCtx 1 0 tEnvelope
    arrivalOf s e = .dead 3 ∧ (after (.envelopeArrival 0 (BitVec.ofNat 256 e)) s).envFlight = [] := by decide +kernel
theorem test_envelopeWaits : let s := setMailbox 3 1 (fun m => { m with queue := List.replicate 256 0 }) (tFlight true tEnvelope 0)
    arrivalOf s (envSeal tCtx 1 0 tEnvelope) = .waits ∧
    (Machine.core (after (.envelopeArrival 0 (BitVec.ofNat 256 (envSeal tCtx 1 0 tEnvelope))) s) 0).stalled = true := by decide +kernel
/-- A check that fails: sent again at first, then the SEND fails (R237). -/
theorem test_checkFails : checkOk 32 5 = false ∧
    ((after (.envelopeArrival 0 5) (tFlight true tEnvelope 0)).envFlight.map fun f => f.attempts) = [1] ∧
    (after (.envelopeArrival 0 5) (tFlight true tEnvelope 1)).envFlight = [] ∧
    count (after (.envelopeArrival 0 5) (tFlight true tEnvelope 1)) (ekey 0x3700 5) = 1 := by decide +kernel

/-- A receipt for box 2 of core 0, which keeps a place for it. -/
theorem test_receipt : let e := envSeal tCtx 1 0 (2 * 2 ^ 25)
    let s := { setMailbox 0 2 (fun m => { m with reserved := 1 }) (tMsg tSend) with receipts := [{ core := 0, env := BitVec.ofNat 256 e }] }
    envHere s e = true ∧ (mailbox s 0 (envBox e)).owner = some (envCtx e) ∧ 0 < (mailbox s 0 (envBox e)).reserved ∧
    (mailbox (after (.receiptArrival 0) s) 0 2).reserved = 0 := by decide +kernel

/-! ## Data mover -/

def tMove (op len8 : Nat) : Issued := tIns (opw op + len8) [spAt 0x200, spAt 0x100]

theorem test_copyRuns : CanRun 0 .move 1 (copyOne 0) (copyCan 0) (tAt .move (tMove 1 1)) (tMove 1 1) ∧
    ∃ posts t, Finishes 0 .move 1 (copyOne 0) (tAt .move (tMove 1 1)) (tMove 1 1) posts t :=
  ⟨canRun_of (by decide +kernel) ⟨by decide +kernel, ⟨by decide +kernel, by decide +kernel⟩, ⟨by decide +kernel, by decide +kernel⟩,
    served_sp (by decide +kernel) ⟨rfl, rfl⟩ _ (by decide +kernel), served_sp (by decide +kernel) ⟨rfl, rfl⟩ _ (by decide +kernel)⟩,
   finishes_of (by decide +kernel) (by decide +kernel)⟩
theorem test_zeroRuns : CanRun 0 .move 3 (zeroOne 0) (zeroCan 0) (tAt .move (tMove 3 1)) (tMove 3 1) :=
  canRun_of (by decide +kernel) ⟨by decide +kernel, ⟨by decide +kernel, by decide +kernel⟩,
    served_sp (by decide +kernel) ⟨rfl, rfl⟩ _ (by decide +kernel)⟩
/-- COPY of 8 bytes; ZERO of them. -/
theorem test_copy : let s := devWrite .write false (spAt 0x100) [1, 2, 3] false (tAt .move (tMove 1 1))
    devBytes (after (.copy 0) s) (spAt 0x200) 4 = [1, 2, 3, 0] ∧
    devBytes (after (.zero 0) (devWrite .write false (spAt 0x200) [9] false (tAt .move (tMove 3 1)))) (spAt 0x200) 1 = [0] := by decide +kernel

/-- A PREFETCH of 8 bytes of the page at address 0, which is there. -/
def tPrefetch : Issued := tIns (opw 2 + 1) [0, 0]

theorem test_prefetchRuns : CanRun 0 .move 2 (prefetchOne 0) (prefetchCan 0) (tAt .move tPrefetch) tPrefetch := by
  refine canRun_of (by decide +kernel) ⟨by decide +kernel, by decide +kernel, by decide +kernel, fun b _ h => .inr ⟨600 * 2 ^ 21 + b, ?_⟩⟩
  have h1 : addrOf tPrefetch 0 1 + mvLen tPrefetch.word.toNat = 8 := by decide +kernel
  have h2 : ∀ b < 8, xlat (tAt .move tPrefetch) (envOf 0 .move tPrefetch).ctx false b = .dev (600 * 2 ^ 21 + b) := by decide +kernel
  exact h2 b (by omega)

/-! ## Sorting offices -/

/-- The record at 0x200 of an office that expects one contribution for the FP32 element at address 0, and that element's descriptor
at 0x80, as SO_OPEN reads them. -/
def tRecord : Nat := withCheck 64 (8 + 2 ^ 4 + 2 ^ 17 + spAt 0x80 * 2 ^ 256)

def tSoOpen : Issued := tIns (opw 8 + 2 ^ 48) [spAt 0x200]

def tOfficeMem (i : Issued) : State :=
  devWrite .write false (spAt 0x100) (tDesc 0xA (tData 0)) false
    (devWrite .write false (spAt 0x80) (tDesc 0xA 0) false (devWrite .write false (spAt 0x200) (toLe 64 tRecord) false (tAt .msg i)))

theorem test_soOpenRuns : CanRun 0 .msg 8 (soOpenOne 0) (fun i r s => ∃ v, Passes (soOpenChecks 0 i r) s v) (tOfficeMem tSoOpen) tSoOpen := by
  refine canRun_of (by decide +kernel) ?_
  obtain ⟨v, t, h⟩ := ran_of (show endsWith (soOpenChecks 0 tSoOpen 0) (tOfficeMem tSoOpen) (fun _ _ => true) = true by decide +kernel)
  exact ⟨v, t, h⟩

/-- A round of one contribution, whose descriptor is at 0x100. -/
def tRound : State :=
  setOffice 0 1 (fun _ => {
      owner := some 1, record := BitVec.ofNat 512 tRecord, target := BitVec.ofNat 1024 (ofLe (tDesc 0xA 0)), adding := true
      slots := [(0, some (BitVec.ofNat 256 (tEnvelope + spAt 0x100 * 2 ^ 112)))] })
    (tOfficeMem tSoOpen)

theorem test_round : (office tRound 0 1).owner = some 1 ∧ (office tRound 0 1).adding = true ∧ running tRound = true ∧
    soZero (office tRound 0 1).record.toNat = false ∧ (office tRound 0 1).journal = [] ∧
    AddsCan 0 1 1 (office tRound 0 1).target.toNat ((officeHeld (office tRound 0 1)).drop (office tRound 0 1).outcomes.length) tRound := by
  refine ⟨by decide +kernel, by decide +kernel, by decide +kernel, by decide +kernel, by decide +kernel, ?_⟩
  have hl : (officeHeld (office tRound 0 1)).drop (office tRound 0 1).outcomes.length = [(0, tEnvelope + spAt 0x100 * 2 ^ 112)] := by
    decide +kernel
  rw [hl]
  refine ⟨?_, fun _ _ _ => trivial⟩
  obtain ⟨w, t, h, k⟩ := endsWith_iff.1 (show endsWith (openPlain (officeEnv 0 1 (office tRound 0 1))
      { dist := true, elems := [dElem (office tRound 0 1).target.toNat] } (envAddr (tEnvelope + spAt 0x100 * 2 ^ 112))) tRound
      (fun w _ => w == ofLe (tDesc 0xA (tData 0))) = true by decide +kernel)
  rw [beq_iff_eq] at k
  refine ⟨w, ⟨t, h⟩, by rw [k]; decide +kernel, by rw [k]; decide +kernel, fun ps hp => ?_⟩
  have h1 : positions (office tRound 0 1).target.toNat = [[0, 0]] := by decide +kernel
  rw [h1, List.mem_singleton] at hp
  subst hp
  have hc : ctxSpMask tRound 1 = 2 ^ 128 - 1 ∧ ctxSpFirst tRound 1 = 0 ∧ ctxSpCount tRound 1 = 64 := by decide +kernel
  have h2 : ∀ w, (elemPlace (office tRound 0 1).target.toNat (moduleOf tRound) [0, 0]).module = moduleOf tRound ∧
      (elemPlace (office tRound 0 1).target.toNat (moduleOf tRound) [0, 0]).byte.toNat = 0 ∧ elemBytes (office tRound 0 1).target.toNat w = 4 := by
    decide +kernel
  have h3 : ∀ w, ∀ b < 4, xlat tRound 1 w b = .dev (600 * 2 ^ 21 + b) := by decide +kernel
  have h4 : ∀ b < 4, isSp (600 * 2 ^ 21 + b) = false := by decide +kernel
  have h5 : ∀ w, ElemServed tRound (officeEnv 0 1 (office tRound 0 1)) w (office tRound 0 1).target.toNat [0, 0] := by
    intro w
    refine ⟨(h2 w).1, fun b _ hb => ?_⟩
    rw [(h2 w).2.1, (h2 w).2.2] at hb
    exact ⟨_, h3 w b (by omega), fun _ hs => by rw [h4 b (by omega)] at hs; exact Bool.noConfusion hs⟩
  exact ⟨elemServed_of hc ⟨rfl, rfl⟩ (by rw [k]; decide +kernel), h5 false, h5 true⟩
/-- A round whose contributions have all been dealt with has none left to add. -/
theorem test_roundOver : let s := setOffice 0 1 (fun x => { x with outcomes := [(true, false)] }) tRound
    (officeHeld (office s 0 1)).drop (office s 0 1).outcomes.length = [] ∧ (office s 0 1).adding = true := by decide +kernel
theorem test_sendStall : let s := setReg 0x3700 1 9 (setCore 0 (fun x => { x with stalled := true }) tCtx)
    (Machine.core s 0).stalled = true ∧ (Machine.core s 0).stallSeen = false ∧ reg s 0x3700 1 ≠ 0 ∧
    count (after (.sendStallEvent 0) s) (ekey 0x3700 2) = 1 := by decide +kernel

/-! ## Stamps and seals in flight -/

theorem test_stampGrant : let s := setCore 3 (fun x => { x with poolWaits := [{ core := 0, ctx := 1, count := 4096 }] }) tCtx
    (Machine.core s 3).pool = 4096 ∧ (Machine.core (after (.stampGrant 3) s) 3).pool = 0 ∧ (accountOf (after (.stampGrant 3) s) 0 1 0 3).isSome = true := by
  decide +kernel
theorem test_remoteBurst : let b : RemoteBurst := { ctx := 1, addr := spAt 0x100, data := [7], poison := false, srcMod := 1, srcCore := 0 }
    let s := { tCtx with bursts := [b] }
    burstBehind s 0 b = false ∧ b.op ≠ 2 ∧ (unitPieces s 1 true (spAt 0x100) 1).isSome = true ∧ banksClosed s = false ∧
    devBytes (after (.remoteBurstWrite 0) s) (spAt 0x100) 1 = [7] := by decide +kernel
theorem test_stampReturn : let s := { tOffice tPut with stampsBack := [{ core := 0, ctx := 1, module := 0, dest := 3, count := 2 }] }
    (after (.stampReturn 0) s).stampsBack = [] := by decide +kernel

/-- An update of seal 2, on its way: its generation, and what it adds. -/
def tUpdate (gen : BitVec 8) : State :=
  { tSealed tCtx with sealFlight := [{ phys := 5, gen := gen, amount := 4, ctx := 1, sealId := 2, fromImport := false }] }

theorem test_sealUpdate : (sealAt (tUpdate 0) 5).owner.isSome = true ∧ (sealAt (tUpdate 0) 5).gen = 0 ∧ (sealAt (tUpdate 0) 5).remote = none ∧
    (sealAt (after (.sealUpdate 0) (tUpdate 0)) 5).count = 5 := by decide +kernel
theorem test_sealStale : (sealAt (tUpdate 1) 5).gen ≠ 1 ∧ (sealAt (after (.sealUpdate 0) (tUpdate 1)) 5).count = 1 ∧
    count (after (.sealUpdate 0) (tUpdate 1)) (ekey 0x3700 6) = 1 := by decide +kernel
theorem test_sealProxy : let s := setSeal 5 (fun x => { x with remote := some (BitVec.ofNat 32 (2 ^ 17 + 4), 4, 0) }) (tUpdate 0)
    (sealAt s 5).owner.isSome = true ∧ (sealAt s 5).remote.isSome = true ∧ (sealAt (after (.sealUpdate 0) s) 5).count = 1 := by decide +kernel
theorem test_importAnswers : let i := { tSeal 0x1A 9 (2 ^ 17 + 4) with work := [1] }
    let w : ImportWait := { core := 0, ctx := 1, sealId := 9, value := BitVec.ofNat 32 (2 ^ 17 + 4), phys := 0 }
    let s := { tAt .msg i with imports := [w] }
    s.imports.find? (fun w => w.core == 0) = some w ∧ waitingHead s 0 1 0x1A = some i ∧ sealOf s 1 9 = none ∧
    sealOf (after (.sealImportResponse 0 (some (4, 0))) s) 1 9 = some 0 := by decide +kernel
theorem test_sealForced : let s := setReg 0x3700 8 (2 ^ 16 + 2) (tSealed tCtx)
    opens tw 0x3700 0xA 77 s = true ∧ sealOf s (bits (reg s 0x3700 8) 27 16) (bits (reg s 0x3700 8) 15 0) = some 5 ∧
    (sealAt s 5).remote = none ∧ (sealAt (after (.sealDbgSet tw 77) s) 5).count = 77 := by decide +kernel

/-! ## Memory system -/

theorem test_scrub : banksClosed tCtx = false ∧ running tCtx = true ∧
    ((Machine.core (after (.scrubRead 0 15) tCtx) 0).scrubLine.getD 15 0) = 1 := by decide +kernel
theorem test_pinWays : opens tw 0x3800 2 (12 * 16 + 12) tHeld = true ∧ reg (after (.pinWaysWrite tw (12 * 16 + 12)) tHeld) 0x3800 2 = 12 * 16 + 12 := by
  decide +kernel
/-- 1, 1 and 18 of 20 slots. -/
theorem test_bwSplit : let v := 1 + 1 * 32 + 18 * 1024
    opens tw 0x3800 1 v tHeld = true ∧ tHeld.opened = false ∧ reg (after (.bwSplitWrite tw (BitVec.ofNat 16 v)) tHeld) 0x3800 1 = v := by
  decide +kernel
/-- Group 0 stays DIE (R288); group 5 has no frame. -/
theorem test_spread : opens tw 0x3810 1 2 tUp = true ∧ opens tw 0x3810 6 2 tUp = true ∧
    (after (.spreadWrite tw 0 2) tUp).outbox = [.access .sideband 0x16 []] ∧ reg (after (.spreadWrite tw 5 2) tUp) 0x3810 6 = 2 := by decide +kernel
theorem test_traffic : opens tw 0x3840 8 (setBits 0 3 0 3) tUp = true ∧ tUp.frames.any (frameOnStack tUp 0) = false ∧
    (let s := setStack 0 (fun x => { x with state := 1 }) tUp;
     opens tw 0x3840 8 (setBits 0 3 0 1) s = true ∧ opens tw 0x3840 8 (setBits 0 3 0 2) s = true ∧ opens tw 0x3840 8 (setBits 0 3 0 4) s = true ∧
     (stack s 0).state = 1) ∧ (stack (after (.tgEnterTest tw 0 0) tUp) 0).state = 1 := by decide +kernel

/-! ## Contexts, scheduling and paging -/

/-- A command of context 1 at the front of the sideband's queue, with result 0. -/
def tNormal (code : Nat) (ops : List Nat) : NormalCmd :=
  { code := BitVec.ofNat 8 code, ctx := 1, operands := ops.flatMap (toLe 8), result := 0, path := .sideband, reqTag := 9 }

def tCmd (code : Nat) (ops : List Nat) (s : State) : State :=
  setResult 0 (fun o => { o with state := .pending, cgen := 1 }) { s with normalQ := lmod s.normalQ (pathIdx .sideband) fun _ => [tNormal code ops] }

theorem test_set : let ops := (List.range 4).map (fun k => if k = 0 then 0x7000 else 0) ++ (List.range 32).map fun k => tEntry / 2 ^ (64 * k) % 2 ^ 64
    let s := tCmd 2 ops (setStream 1 0 (fun t => { t with mode := .idle }) tCtx)
    let old := ctxEntryWord s 1
    let w := setImage old (ofLe (((tNormal 2 ops).operands.take 32))) (ofLe (((tNormal 2 ops).operands.drop 32).take 256))
    cmdGone s (tNormal 2 ops) = false ∧ copyFields ctxSettable w old = w ∧ bits w 20 16 = bits old 20 16 ∧
    ctxUsed s 1 ≤ bits w 113 96 ∧ ctxSealsUsed s 1 ≤ bits w 76 64 ∧ ctxValuesOk w = true := by decide +kernel
theorem test_reopen : let s := tCmd 3 [] (setStream 1 0 (fun t => { t with mode := .halted }) tCtx)
    running s = true ∧ cmdGone s (tNormal 3 []) = false ∧ anyRunning s 1 = false ∧
    (stream (after (.reopen .sideband) s) 1 0).mode = .idle ∧ (result (after (.reopen .sideband) s) 0).state = .ready := by decide +kernel
/-- One page at 4 MiB, readable and writable. -/
theorem test_map : let ops := [2 ^ 22, 1 + 3 * 2 ^ 40]
    let s := tCmd 8 ops tCtx
    running s = true ∧ cmdGone s (tNormal 8 ops) = false ∧ mapsIn s 1 2 1 = [] ∧ ctxUsed s 1 + 1 ≤ ctxQuota s 1 := by decide +kernel
/-- Some frame is free, so one is found, wherever the search starts. -/
theorem firstFree_isSome {d n k : Nat} {used : Nat → Bool} (hk : k < n) (h : used k = false) : (firstFree d n used).isSome = true := by
  unfold firstFree
  rw [List.find?_isSome]
  refine ⟨k, List.mem_map.2 ⟨(k + n - d % n) % n, List.mem_range.2 (Nat.mod_lt _ (by omega)), ?_⟩, by simp [h]⟩
  have h1 := Nat.div_add_mod d n
  have h2 := Nat.mod_lt d (show 0 < n by omega)
  have h3 : d + (k + n - d % n) = k + n * (d / n + 1) := by rw [Nat.mul_add]; omega
  rw [Nat.add_mod_mod, h3, Nat.add_mul_mod_self_left, Nat.mod_eq_of_lt hk]
theorem allocate_isSome {s : State} {k : Nat} (h : k < 196608 ∧ suits s 1 0 k = true ∧ pageFree (draw s).2 false k = true)
    (hp : ∀ f, pageFree (draw s).2 false f = pageFree s false f) : (allocate false 0 0 0 1 s).isSome = true := by
  have h1 := @firstFree_isSome (draw s).1 196608 k (fun k => !(suits s 1 0 (1 * k) && pageFree s false (1 * k))) h.1
    (by rw [Nat.one_mul, h.2.1, ← hp, h.2.2]; rfl)
  obtain ⟨m, hm⟩ := Option.isSome_iff_exists.1 h1
  simp only [allocate, placeTests, if_true, pickFirst, pickPage, Bool.false_eq_true, if_false, Nat.zero_mod, Nat.div_one]
  rw [hm]
  simp only [Option.map_some, Option.isSome_some]
theorem test_mapRoom : (allocate false 0 0 0 1 (tCmd 8 [2 ^ 22, 1 + 3 * 2 ^ 40] tCtx)).isSome = true ∧ framesFree tCtx = 196096 := by
  refine ⟨allocate_isSome (k := 512) (by decide +kernel) fun _ => rfl, ?_⟩
  have h1 : tCtx.frames = [] := by decide +kernel
  have h2 : (tCtx.hbm.flatMap fun k => k.retired) = [] := by decide +kernel
  simp only [framesFree, h1, h2, List.filter_nil, List.length_nil]
theorem test_unmap : let s := tCmd 9 [0, 1] (setStream 1 0 (fun t => { t with mode := .idle }) tCtx)
    cmdGone s (tNormal 9 [0, 1]) = false ∧ anyRunning s 1 = false ∧ anyInFlight s 1 = false ∧ (context s 1).pages.length = 1 ∧
    (context (after (.unmap .sideband) s) 1).pages = [] := by decide +kernel
theorem test_mapHosted : let ops := [2 ^ 22, 1, 5]
    let s := tCmd 0xA ops (setCtxF 1 567 544 77 tCtx)
    cmdGone s (tNormal 0xA ops) = false ∧ ctxPagerQpn s 1 ≠ 0 ∧ mapsIn s 1 2 1 = [] ∧
    ((context (after (.mapHosted .sideband) s) 1).pages.map fun e => (e.1, e.2.backing)) = [(0, 0), (2, 5)] := by decide +kernel
theorem test_watch : let ops := [2 + 3 * 2 ^ 32, 0, 64]
    let s := tCmd 0x20 ops (tSealed tCtx)
    cmdGone s (tNormal 0x20 ops) = false ∧ sealOf s 1 2 = some 5 ∧
    ((result (after (.watch .sideband) s) 0).watch.map fun x => x.target) = some 3 := by decide +kernel

/-- An express command of context 1 that waits. -/
def tExpress (code v : Nat) (s : State) : State :=
  setContext 1 (fun x => { x with express := some { code := BitVec.ofNat 8 code, operand := v, result := some 0, path := .sideband } }) s

theorem test_express : (∀ code ∈ [0x10, 0x12, 0x13, 0x14], let s := tExpress code 3 tCtx
      running s = true ∧ ctxState s 1 = 1 ∧ entryFails s 1 = false) ∧
    (let s := tExpress 0x11 0 (setCtxF 1 10 8 2 tCtx); ctxState s 1 = 2 ∧ entryFails s 1 = false ∧ ctxState (after (.contextResume 1) s) 1 = 1) ∧
    nmem (Machine.core (after (.suspend 1) (tExpress 0x10 0 tCtx)) 0).stopping 1 = true ∧
    ctxState (after (.kill 1) (tExpress 0x12 0 tCtx)) 1 = 3 ∧
    (stream (after (.contextHalt 1) (tExpress 0x13 0 tCtx)) 1 0).mode = .halted ∧
    ctxPriority (after (.priority 1) (tExpress 0x14 3 tCtx)) 1 = 3 := by decide +kernel

theorem test_open : let ops := [2] ++ (List.range 32).map fun k => (tEntry - 64 * 2 ^ 582) / 2 ^ (64 * k) % 2 ^ 64
    let s := tCmd 1 ops tCtx
    openId s 2 = .inl 2 ∧ ctxValuesOk (ofLe (((tNormal 1 ops).operands.drop 8).take 256)) = true ∧
    grantTaken s (ofLe (((tNormal 1 ops).operands.drop 8).take 256)) = false ∧ effRole s = 0 := by decide +kernel
theorem test_close : let s := tCmd 4 [] (setStream 1 0 (fun t => { t with mode := .idle }) tCtx)
    running s = true ∧ ctxState s 1 = 1 ∧ (result s 0).cgen.toNat = ctxGen s 1 ∧ anyRunning s 1 = false ∧
    ctxState (after (.close .sideband) s) 1 = 3 := by decide +kernel
theorem test_closeComplete : let s := setCtxF 1 10 8 3 tCtx
    ctxState s 1 = 3 ∧ tilesLeft s 1 = false := by decide +kernel
theorem test_mapComplete : let j : MapJob := { ctx := 1, result := 0, pages := [(2, { tPage with frame := 700 })] }
    let s := { tCtx with mapJobs := [j] }
    ctxState s 1 ≠ 3 ∧ ((context (after (.mapComplete 1) s) 1).pages.map fun e => e.1) = [0, 2] := by decide +kernel
theorem test_watchReady : let s := tSealed (setResult 0 (fun o => { o with state := .pending, ctx := 1, watch := some { target := 1, phys := 5, gen := 0, addr := spAt 0, len := 8 } }) tCtx)
    0 ≤ sdiff32 (sealAt s 5).count.toNat 1 ∧ (unitPieces s 1 false (spAt 0) 8).isSome = true ∧
    (result (after (.watchReady 0) s) 0).data.length = 8 := by decide +kernel

theorem test_takeEffect : let s := setCore 0 (fun x => { x with stopping := [1] }) tCtx
    completesParcels s 0 1 = false ∧ nmem (Machine.core s 0).stopping 1 = true ∧
    nmem (Machine.core (after (.expressTakeEffect 0 1) s) 0).saving 1 = true := by decide +kernel
theorem test_residency : let p := setContext 2 (fun x => { x with entry := BitVec.ofNat 2048 (tEntry - 2 ^ 11) }) tUp
    (mustLeave (setStream 1 0 (fun t => { t with mode := .halted, head := 0 }) tCtx) = some 1) ∧
    (let s := setCore 0 (fun x => { x with slots := x.slots.set 0 none }) tCtx;
     mustLeave s = none ∧ slotToGive s = some (0, 0, 1) ∧ inSlot (after .residencyChange s) 0 1 = true) ∧
    ctxResident p 2 = false := by decide +kernel

/-- A second context waits that ranks with the first; it is resident in no core. -/
def tTwo : State :=
  setStream 2 0 (fun t => { t with mode := .running, known := true, ringLog2 := 8, head := 100 })
    (setContext 2 (fun x => { x with entry := BitVec.ofNat 2048 (tEntry - 2 ^ 11) }) tCtx)

theorem test_waiting : waiting tTwo = [2] ∧ residents tTwo = [1] ∧ bestRanked tTwo (waiting tTwo) = some 2 ∧ mustLeave tTwo = none ∧
    ctxResident tTwo 1 = true ∧ ctxState tTwo 1 = 1 ∧ (context tTwo 1).leaving = false ∧ ctxPriority tTwo 2 = ctxPriority tTwo 1 ∧
    (let s := setReg 0x3900 3 5 tTwo; reg s 0x3900 3 ≠ 0 ∧ (context (after (.sliceExpiry 1) s) 1).leaving = true) := by decide +kernel
/-- Context 1 is being saved on core 0; its save area is the page at address 0. -/
theorem test_saveDone : let s := setCore 0 (fun x => { x with saving := [1] }) tCtx
    nmem (Machine.core s 0).saving 1 = true ∧ (Machine.core s 0).retiring = [] ∧
    unitPieces s 1 true (saveBase s 1 0) 0x10_0000 = some [(600 * 2 ^ 21, 0x10_0000)] := by decide +kernel

/-! ## The pager, weight updates -/

/-- Context 1 misses its page at 4 MiB, which is hosted. -/
def tMiss : State :=
  { setContext 1 (fun x => { x with pages := x.pages ++ [(2, { tPage with hosted := true, present := false, frame := 0, backing := 5 })] }) tCtx with
    misses := [{ ctx := 1, page := 2, prefetch := false }] }

/-- Its fetch is in flight. -/
def tFetching : State := { tMiss with fetches := lmod tMiss.fetches 3 fun _ => some { ctx := 1, page := 2, frame := 700, tries := 0 } }

theorem test_fetches : running tMiss = true ∧ tMiss.fetches.findIdx? (fun f => f.isNone) = some 0 ∧
    tMiss.misses.find? (missReady tMiss) = some { ctx := 1, page := 2, prefetch := false } ∧
    tFetching.fetches.getD 3 none = some { ctx := 1, page := 2, frame := 700, tries := 0 } := by decide +kernel
theorem test_pageAge : (((context (after .pageAgeTick tCtx) 1).pages.map fun e => e.2.age) = [1]) ∧
    ((context (after .pageAgeTick (setContext 1 (fun x => { x with pages := [(0, { tPage with age := 15 })] }) tCtx)) 1).pages.map fun e => e.2.age) =
      [15] := by decide +kernel

/-- A job of modules 0 and 1 at work on die 0, of 20,000 elements. -/
def tJob : UpdJob := { owner := 1, addr := 0, block := BitVec.ofNat 1024 (setBits (setBits 0 215 208 3) 255 224 20000) }

def tUpd (j : UpdJob) : State := { tCtx with updRing := [some j, none] }

theorem test_updHead : opens tw 0x3A00 3 1 tHeld = true ∧ reg (after (.updHeadWrite tw 1) tHeld) 0x3A00 3 = 1 ∧
    reg (after (.updHeadWrite tw 2) tHeld) 0x3A00 3 = 0 := by decide +kernel
theorem test_updJob : jobOf (tUpd tJob) 0 = some tJob ∧ tJob.status = 2 ∧ jobPeers (tUpd tJob) tJob = [1] ∧ uSource tJob.block.toNat = false ∧
    headersIn (tUpd tJob) tJob = false ∧ nmem tJob.headers 1 = false ∧ (jobMembers tJob.block.toNat).length = 2 := by decide +kernel
theorem test_updTimeout : ((jobOf (after (.updPeerTimeout 0) (tUpd tJob)) 0).map fun j => j.status) = some 0x14 ∧
    ((jobOf (after (.abortNoticeReceive 0 1) (tUpd { tJob with headers := [1] })) 0).map fun j => j.status) = some 0x15 ∧
    (after (.abortNoticeReceive 1 1) (tUpd tJob)).updEarly.length = 1 := by decide +kernel
theorem test_updChunk : 0 < uChunks tJob.block.toNat ∧ chunkLen tJob.block.toNat 0 = min 16384 (uN tJob.block.toNat) ∧ nmem tJob.gathered 0 = false := by
  decide +kernel
theorem test_updEnd : let j := { tJob with status := 5 }
    jobOf (advanceJob 0 (tUpd j)) 0 = some j ∧ j.status ≠ 2 ∧ j.status ≠ 3 := by decide +kernel

/-! ## Payloads, results, the semaphore, ports and queue pairs -/

/-- A payload of the sideband: TYPE, CODE, the class, context 1 with GENERATION 1, and its operands. -/
def tPayload (type code : Nat) (express : Bool) (ops : List Nat) : List Byte :=
  toBe 24 (packFields [(188, 4, 1), (184, 4, type), (176, 8, code), (175, 1, b2n express), (160, 12, 1), (144, 16, 1),
    (48, 16, 8 * ops.length), (0, 32, 9)]) ++ ops.flatMap (toLe 8) ++ List.replicate 8 0

theorem test_payloads : ∀ bs ∈ [tPayload 1 0x10 true [], tPayload 2 0 false [5], tPayload 3 0 false [5 * 65536 + 1], tPayload 4 0 false [5 * 65536 + 1]],
    let x := payloadOf bs
    tCtx.power.state = 0 ∧ tCtx.island.state = 1 ∧ 32 ≤ bs.length ∧
    authCheck tCtx .sideband (plKey x) (plCounter x) (bs.take (bs.length - 8)) x.tag = 0 ∧
    encodingsOk (keepCounter .sideband (plKey x) (plCounter x) tCtx) x = true := by decide +kernel
theorem test_suspendPayload : let s := after (.commandPayload .sideband (tPayload 1 0x10 true [])) tCtx
    ((context s 1).express.map fun e => e.code) = some 0x10 ∧ s.outbox.length = 1 := by decide +kernel
theorem test_results : let s := setResult 5 (fun o => { o with state := .ready, status := 7, ctx := 1, ports := 3 }) tCtx
    namedResult s .sideband (5 * 65536 + 1) = some 5 ∧ (result s 5).state = .ready ∧ reg s 0x3B00 6 ≠ 0 ∧
    (result (after (.resultRead .sideband (5 * 65536 + 1)) s) 5).state = .ready ∧
    (result (after (.resultRelease .sideband (5 * 65536 + 1)) s) 5).state = .released := by decide +kernel

theorem test_semaphore : (∀ v ∈ [1, 2, 3], opens tw 0x3B00 1 v tUp = true) ∧ (after (.semAcquire .sideband) tUp).sem.holder = some .sideband ∧
    (after (.semRelease .sideband) tHeld).sem.holder = none ∧ opens tw 0x3B00 4 1 tHeld = true ∧ (after (.semBreak tw 1) tHeld).sem.holder = none ∧
    (let s := { tUp with sem := { tUp.sem with holder := some .port1 } };
     s.sem.deferred = false ∧ (after .semLeaseExpiry s).sem.holder = none ∧ count (after .semLeaseExpiry s) (ekey 0x3B00 5) = 1) := by decide +kernel

theorem test_ports : opens tw 0x3B10 1 1 tUp = true ∧ holderOrSideband tUp .sideband = true ∧ (eth (after (.ethSpeedWrite tw 0 1) tUp) 0).state = 1 ∧
    (let s := setEth 0 (fun e => { e with state := 1 }) tUp; (eth s 0).state = 1 ∧ (eth (after (.ethTrainingDone 0) s) 0).state = 2) := by decide +kernel
/-- QP_CREATE for an IPv4 address and an MTU of 1,024; a table of 16 pairs is full. -/
theorem test_qpCreate : let ops := [0, 0, 7, 3 + 9 * 2 ^ 32, 3]
    let s := tCmd 0x21 ops tCtx
    let x : QueuePair := { ctx := 1, mac := 0, ipHi := 0, ipLo := 7, remote := 9, mtu := 1024, dscp := 0, epsn := 3, spsn := 3, unacked := [],
                           retries := 0, rate := 2 ^ 32, error := false }
    let full := { s with qps := (List.range 16).map fun k => (k + 2, x) }
    running s = true ∧ cmdGone s (tNormal 0x21 ops) = false ∧ s.qps = [] ∧ (after (.qpCreate .sideband) full).qps.length = 16 ∧
    (result (after (.qpCreate .sideband) full) 0).status = 0x1D := by decide +kernel

/-- Queue pair 2 of port 0, of context 1, with request 4 unacknowledged. -/
def tQp : QueuePair :=
  { ctx := 1, mac := 0, ipHi := 0, ipLo := 7, remote := 9, mtu := 1024, dscp := 0, epsn := 3, spsn := 5, unacked := [4], retries := 0,
    rate := 2 ^ 32, error := false }

def tRoce (s : State) : State := { s with qps := [(2, tQp)] }

theorem test_qpDestroy : let s := tRoce (tCmd 0x22 [2] tCtx)
    qpOf s 0 2 = some tQp ∧ cmdGone s (tNormal 0x22 [2]) = false ∧ (after (.qpDestroy .sideband) s).qps = [] := by decide +kernel
theorem test_roce : let s := tRoce tCtx
    qpOf s 0 2 = some tQp ∧ entryFails s 1 = false ∧ s.power.state = 0 ∧ requestOk s tQp 65537 0 8 = true ∧
    (unitPieces s 1 true 0 8).isSome = true ∧ unitFault s 1 false 0 8 = none ∧ tQp.unacked ≠ [] ∧ tQp.retries < 7 := by decide +kernel
theorem test_rates : ((qpOf (after (.roceCnpReceive 0 2) (tRoce tCtx)) 0 2).map fun x => x.rate) = some (2 ^ 31) ∧
    ((qpOf (after (.roceRateRaise 0 2) (tRoce tCtx)) 0 2).map fun x => x.rate) = some (2 ^ 32) := by decide +kernel

/-! ## Links and managers -/

/-- A packet of TYPE 6 for this module with sequence number 0 is whole, and no encoding of it is reserved. -/
theorem test_packet : let bs := packetBytes tUp { type := 6, dst := 0, addr := 5 } 0 0
    let h := ofBe (bs.take 32)
    packetWhole bs = true ∧ headerReserved h = false ∧ (packetOf h (bs.drop 32)).type ∉ [7, 8, 9] ∧ bits h 247 232 = (link (tLinked tUp) 0).rxSeq.toNat ∧
    (link (after (.linkPacketReceive 0 bs) (tLinked tUp)) 0).rxSeq = 1 := by decide +kernel
theorem test_links : let s := tLinked tUp
    (link s 0).state = 3 ∧ packetWhole [] = false ∧ count (after (.linkPacketReceive 0 []) s) (ekey 0x3C10 3) = 1 ∧
    (let r := setLink 0 (fun l => { l with state := 5 }) s;
     (link r 0).state = 5 ∧ (link (after (.linkRetrainEnd 0 true) r) 0).state = 3 ∧ (link (after (.linkRetrainEnd 0 false) r) 0).state = 0) := by
  decide +kernel
theorem test_training : let s := setLink 0 (fun l => { l with state := 1 }) tUp
    (link s 0).state = 1 ∧ identityOk s 0 { tPeer with port := 18 } = true ∧
    (link (after (.linkTrainDone 0 (some { tPeer with port := 18 })) s) 0).state = 3 ∧ (link (after (.linkTrainDone 0 (some tPeer)) s) 0).state = 4 := by decide +kernel
theorem test_linkCommands : opens tw 0x3C10 8 1 tUp = true ∧ opens tw 0x3C10 8 2 tUp = true ∧ opens tw 0x3C00 3 1 tUp = true ∧
    holderOrSideband tUp .sideband = true ∧ (link (after (.linkCommandTrain tw 0) tUp) 0).state = 1 ∧
    (link (after (.linkCommandDown tw 0) (tLinked tUp)) 0).state = 0 ∧ reg (after (.spareModeWrite tw 1) tUp) 0x3C00 3 = 1 ∧
    (let s := setLink 0 (fun l => { l with lost := true }) tUp;
     (link s 0).state = 0 ∧ (link s 0).lost = true ∧ (link (after (.linkPeerSeen 0) s) 0).state = 1) := by decide +kernel
theorem test_managers : let s := { tUp with hier := { tUp.hier with state := 1 } }
    s.hier.state = 1 ∧ (after (.managerJoin true [(1, 7)]) s).hier.peerTable = [(1, 7)] ∧ (after (.managerJoin false []) s).hier.state = 3 := by
  decide +kernel
/-- A message that relays SUSPEND of context 1 to this module. -/
theorem test_relayCmd : let m := relayMsgOf (relayBytes { report := false, code := 0x10, ctx := 1, gen := 1, dst := 0, src := 1, slot := 0 })
    let x : Payload := {
      h := packFields [(188, 4, 1), (184, 4, 1), (176, 8, m.code), (175, 1, b2n (isExpress m.code)), (160, 12, m.ctx), (144, 16, m.gen)]
      ops := m.ops, tag := [] }
    onBoard tCtx m.dst = true ∧ m.dst % 8 = moduleOf tCtx ∧ m.report = false ∧ ctxState tCtx m.ctx ≠ 0 ∧ ctxGen tCtx m.ctx = m.gen ∧
    slotBusy tCtx .sideband x = false := by decide +kernel
theorem createResult_isSome {code ctx ports k : Nat} {tag : Word32} {s : State} (h : k < 65536) (hk : (result s k).state = .released) :
    (createResult code ctx ports tag s).1.isSome = true := by
  unfold createResult
  generalize 65536 = n at *
  obtain ⟨m, hm⟩ := Option.isSome_iff_exists.1 (firstFree_isSome (d := (draw s).1)
    (used := fun k => decide ((result s k).state ≠ .released)) h (by simp only [hk]; decide))
  simp only [hm, Option.isSome_some]
theorem test_relayResult : (createResult 0x10 1 0 0 tCtx).1.isSome = true := createResult_isSome (k := 0) (by norm_num) (by decide +kernel)
theorem test_relayFrame : effRole (setPower (fun p => { p with straps := 2 ^ 15 }) tUp) = 1 := by decide +kernel
theorem test_relayedPage : tFetching.fetches.findIdx? (fun f => f.any fun x => x.ctx == 1 && x.page == 2 && !x.stale) = some 3 := by decide +kernel

/-! ## The dictionary -/

theorem test_dictionary : tUp.power.standby = true ∧ entryOf 0x3200 0xEE = none ∧ opens tw 0x3200 1 5 tUp = true ∧ opens tw 0x3200 1 0 tUp = true ∧
    (match entryOf 0x3200 1 with
     | some e => permitted tw e 0x3200 && available tUp e 0x3200
     | none => false) = true ∧
    reg (after (.registerWrite tw 0x3200 1 5) tUp) 0x3200 1 = 5 ∧ reg (after (.dictWrite tw 0x3200 1 3 (toBe 4 5)) tUp) 0x3200 1 = 5 ∧
    reg (after (.rawWrite tw (BitVec.ofNat 48 (winBase + 0x3200010)) 5) tUp) 0x3200 1 = 5 := by decide +kernel
/-- A counter that stands at 3: 2 is acknowledged, 4 is refused. -/
theorem test_ack : let s := bumpN 0x3100 4 3 tUp
    opens tw 0x3100 4 2 s = true ∧ opens tw 0x3100 4 4 s = true ∧ count s (ekey 0x3100 4) = 3 ∧
    ackedValue (after (.ackWrite tw 0x3100 4 2) s) (ekey 0x3100 4) = 2 ∧ ackedValue (after (.ackWrite tw 0x3100 4 4) s) (ekey 0x3100 4) = 0 := by
  decide +kernel
theorem test_unlock : opens tw 0x1000 0x10 0xB01A_0000 tUp = true ∧ opens tw 0x1000 0x10 7 tUp = true ∧
    (pathState (after (.unlock tw 0xB01A_0000) (setPath .sideband (fun x => { x with unlocked := false }) tUp)) .sideband).unlocked = true ∧
    (after (.unlock tw 7) tUp).lockNonce = 1 := by decide +kernel
/-- A frame of KIND 1, and one that is none; a counter is pending and port 0 is up. -/
theorem test_frames : let s := setReg 0x1110 1 5 (setEth 0 (fun e => { e with state := 2 }) (bumpE 0x3100 4 tUp))
    s.power.standby = true ∧ portsOn s .port0 = true ∧ portsOn s .sideband = true ∧ weniusOk (weniusHead 1 0 0) = true ∧ weniusKind (weniusHead 1 0 0) = 1 ∧
    weniusOk [] = false ∧ attnCount s ≠ 0 ∧ reg s 0x1110 1 ≠ 0 ∧ (eth s 0).state = 2 := by decide +kernel

/-! ## The security island -/

theorem test_firmware : opens tw 0x4010 1 0 tUp = true ∧ ctxAddrOk 4096 0 = true ∧ holderOrSideband tUp .sideband = true ∧ tUp.island.fwState = 0 ∧
    (after (.fwStage tw 0) tUp).island.fwState = 1 ∧
    (let s := setIsland (fun i => { i with fwState := 2 }) tUp;
     opens tw 0x4010 3 1 s = true ∧ s.island.fwState = 2 ∧ s.island.activating = false ∧ (after (.fwActivate tw 1) s).island.activating = true) ∧
    (let s := setIsland (fun i => { i with activating := true }) tUp;
     s.island.activating = true ∧ (after .fwActivateDone s).flash.bootPref = true) ∧
    (let s := setIsland (fun i => { i with imgSvn := 3 }) tUp;
     opens tw 0x4010 4 1 s = true ∧ fuseSvn s < s.island.imgSvn.toNat ∧ fuseSvn (after (.fwSvnCommit tw 1) s) = 3) ∧
    opens tw 0x4000 4 2 tUp = true ∧ bit 2 tUp.island.rootIndex = false ∧ tUp.fuses.revoke.toNat ||| 2 ≠ 15 ∧
    (after (.rootRevoke tw 2) tUp).fuses.revoke = 2 := by decide +kernel

/-- An exchange of the sideband for slot 3 whose jobs have ended. -/
def tKex : State := setPath .sideband (fun x => { x with kexState := 1, kexSlot := some 3 }) tUp

theorem test_keys : let n := List.replicate 32 (7 : Byte)
    opens tw 0x4202 7 0 tUp = true ∧ (pathState tUp .sideband).attest ≠ 1 ∧ (pathState (after (.attestNonce tw n) tUp) .sideband).nonce = n ∧
    (after (.attestNonce tw n) tUp).island.bnQueue.length = 1 ∧ opens tw 0x4202 5 1 tUp = true ∧ (pathState tUp .sideband).kexState.toNat % 256 ≠ 1 ∧
    (pathState tKex .sideband).kexSlot = some 3 ∧ islandJob tKex .sideband true = false ∧
    (let s := setPath .sideband (fun x => { x with attest := 1 }) tUp; (pathState s .sideband).attest = 1 ∧ islandJob s .sideband false = false) ∧
    opens tw 0x4020 3 5 tUp = true ∧ (keySlot tUp 5).claimed = false ∧
    (keySlot (after (.slotErase tw 5) (setKeySlot 5 (fun k => { k with role := .session }) tUp)) 5).role = .empty := by decide +kernel

/-- A job of class 2 runs, and one of the island waits; a parked one. -/
def tBn : State := setIsland (fun i => { i with
  bnRunning := some { ctx := 1, addr := 0, cls := 9, seq := 1 }, bnQueue := [{ ctx := 1, addr := 0, island := some .sideband, seq := 2 }] }) tCtx

theorem test_bigNumbers : opens tw 0x4030 1 64 tUp = true ∧ ctxAddrOk 64 64 = true ∧ (after (.bnJob tw 64) tUp).island.bnQueue.length = 1 ∧
    tBn.island.bnRunning.isSome = true ∧ (tBn.island.bnQueue.any fun k => decide (queuedClass tBn k < 9)) = true ∧
    (tBn.island.bnRunning.all fun j => (bnAbsent tBn j).isNone) = true ∧ tBn.island.bnParked = [] ∧
    (let s := setIsland (fun i => { i with bnRunning := none, bnQueue := [], bnParked := [{ ctx := 1, addr := 0, cls := 1, seq := 1 }] }) tBn;
     s.island.bnRunning = none ∧ lowestClass (fun j => j.cls) s.island.bnParked = some 1 ∧ (lowestClass (queuedClass s) s.island.bnQueue).isNone = true ∧
     (after .bnJobStart s).island.bnRunning.isSome = true) := by decide +kernel

/-! ## Power, clocks and reset -/

theorem test_rails : (after (.powerOn 5) tCtx).power.resetCause = 1 ∧ (after .inputFault tCtx).power.resetCause = 4 ∧ (after (.rstN 0) tCtx).power.resetCause = 2 ∧
    tUp.power.mainOn = true ∧ tUp.power.pwrGood = true ∧ (after .pllLoss tUp).power.resetCause = 6 ∧ tUp.dies.length = 2 ∧
    (after (.thermalTrip 0) tUp).power.tripped = true ∧
    (let s := setPower (fun p => { p with pwrEn := false, inRange := false, pwrGood := false }) tUp;
     s.power.pwrEn = false ∧ s.power.inRange = false ∧ s.power.standby = true ∧ s.power.mainOn = true ∧ s.power.pwrGood = false) := by decide +kernel
theorem test_resets : opens tw 0x5000 0x10 1 tHeld = true ∧ opens tw 0x5000 0x10 2 tHeld = true ∧ tHeld.sem.holder = some tw.path ∧
    (after (.resetCtrlCold tw) tHeld).power.resetCause = 3 ∧ (after (.resetCtrlShared tw) tHeld).power.sharedReset = true ∧
    (let s := setPower (fun p => { p with sharedReset := true }) tUp;
     s.power.sharedReset = true ∧ s.contexts = [] ∧ (after .sharedResetEnd s).power.sharedReset = false) := by decide +kernel
theorem test_clocks : opens tw 0x5080 1 1 tUp = true ∧ opens tw 0x5001 1 1 tUp = true ∧ tUp.power.pll = 2 ∧
    (let s := after (.coreClk tw 0 1) tUp; (Machine.core s 0).clkState = 1 ∧ (Machine.core (after (.clkSwitchDone 0) s) 0).clkState = 2) := by decide +kernel
theorem test_powerStates : opens tw 0x5000 2 1 tHeld = true ∧ tHeld.power.entering = false ∧ tHeld.power.exiting = false ∧ tHeld.power.state = 0 ∧
    (after (.pwrStateReq tw 1) tHeld).power.goal = 1 ∧ entryReady (after (.pwrStateReq tw 1) tHeld) = true ∧
    (let s := setPower (fun p => { p with state := 1 }) (setReg 0x5000 4 1 tUp);
     bit (reg s 0x5000 4) 0 = true ∧ (after (.wakeEvent true) s).power.exiting = true) ∧
    (let s := setPower (fun p => { p with state := 1, exiting := true }) tUp;
     s.power.exiting = true ∧ s.power.state = 1 ∧ (after .pwrExitDone s).power.state = 0) := by decide +kernel

/-! ## Records and the debugger -/

theorem test_records : let s := setDie 0 (fun x => { x with flogStage := [5], trace := [7] }) tUp
    (die s 0).flogStage = [5] ∧ (die s 0).trace = [7] ∧ traceOwner (setDie 0 (fun x => { x with trace := [] }) s) = none ∧
    (die (after (.traceRecordWrite 0) s) 0).trace = [] ∧ s.power.pwrGood = true ∧ effRole s = 0 ∧ (after (.syncMarkSend 0) s).syncId = 1 := by
  decide +kernel
/-- Context 1's stream is halted and DBG_MEM_ADDR names the page at 0. -/
def tDbg : State := setReg 0x6020 1 (2 ^ 48) (setStream 1 0 (fun t => { t with mode := .halted }) tCtx)

theorem test_dbgMemory : opens tw 0x6020 2 0 tDbg = true ∧ dbgIsDevice tDbg = false ∧ dbgCtx tDbg = 1 ∧ (∀ k < 8, dbgWritable tDbg k = true) ∧
    anyRunning tDbg 1 = false ∧ opens tw 0x6020 5 0 tDbg = true := by decide +kernel

end Sys2Proof.Tests
end

/-! ## Chain slots (R49): DRAIN, and an ACTIVATE that finds its slot in use -/

namespace Sys2Proof.Machine

open Sys2Proof.Safety

/-- CH_COMMAND is an entry that a unit row writes, for each of the 16 slots (Table 2.11). -/
theorem plainEntry_chainCommand : ∀ k : Fin 16, plainEntry (0x3110 + k.val) 2 = true := by
  decide

theorem unitLowW_chainCommand (p : Path) (k : Fin 16) (v : Nat) (s : State) :
    unitLowW p (0x3110 + k.val) 2 v s = chainCommandW k.val v s := by
  have hslot : (0x3110 + k.val) / 16 = 0x311 := by omega
  unfold unitLowW
  split
  case h_5 => simp [hslot]
  all_goals omega

/-- A write of CH_COMMAND that is admitted is answered as the slot's command unit answers it. -/
theorem unitRow_chainCommand {w : Who} {k : Fin 16} {v : Nat} {s : State} (ho : opens w (0x3110 + k.val) 2 v s = true) :
    unitRow w (0x3110 + k.val) 2 v s =
      answer w ((chainCommandW k.val v (countAccess s)).1, [], lockPath w.path (chainCommandW k.val v (countAccess s)).2) := by
  have hlow : 0x3110 + k.val < 0x3800 := by omega
  rw [unitRow_plain ho (plainEntry_chainCommand k), if_pos hlow, unitLowW_chainCommand]

@[simp] theorem chain_countAccess (s : State) (k : Nat) : chain (countAccess s) k = chain s k := rfl

theorem chainCommandW_activate_busy {k : Nat} {s : State} (h : (chain s k).state ≠ .empty) :
    chainCommandW k 1 s = (0x16, s) := by
  simp [chainCommandW, h]

theorem chainCommandW_drain_active {k : Nat} {s : State} (h : (chain s k).state = .active) :
    chainCommandW k 2 s = (0, setChain k (fun x => { x with state := .draining }) s) := by
  simp [chainCommandW, h]

theorem chainCommandW_drain_activating {k : Nat} {s : State} (h : (chain s k).state = .activating) :
    chainCommandW k 2 s = (0x16, s) := by
  simp [chainCommandW, h]

theorem chainCommandW_drain_draining {k : Nat} {s : State} (h : (chain s k).state = .draining) :
    chainCommandW k 2 s = (0, s) := by
  simp [chainCommandW, h]

theorem chainCommandW_drain_empty {k : Nat} {s : State} (h : (chain s k).state = .empty) :
    chainCommandW k 2 s = (0, s) := by
  simp [chainCommandW, h]

theorem drainComplete_of_idle {k : Nat} {s : State} (hst : (chain s k).state = .draining) (hfl : (chain s k).inflight = 0) :
    drainComplete k s = bumpE (0x3110 + k) 9 (setChain k (fun x => { x with state := .empty }) s) := by
  simp [drainComplete, hst, hfl]

theorem exec_drain_eq (w : Who) (k : Fin 16) (s : State) :
    exec (.drain w k) s = .next (unitRow w (0x3110 + k.val) 2 2 s) := rfl

theorem exec_activate_eq (w : Who) (k : Fin 16) (s : State) :
    exec (.activate w k) s = .next (unitRow w (0x3110 + k.val) 2 1 s) := rfl

theorem exec_drainComplete_eq (k : Fin 16) (s : State) : exec (.drainComplete k) s = .next (drainComplete k.val s) := rfl

theorem exec_drain {w : Who} {k : Fin 16} {s : State} (ho : opens w (0x3110 + k.val) 2 2 s = true) :
    exec (.drain w k) s = .next (match (chain s k.val).state with
      | .active => wrote w (setChain k.val (fun x => { x with state := .draining }) (countAccess s))
      | .activating => refusedWith w 0x16 (countAccess s)
      | _ => wrote w (countAccess s)) := by
  rw [exec_drain_eq, unitRow_chainCommand ho]
  cases hst : (chain s k.val).state with
  | empty => rw [chainCommandW_drain_empty (by rwa [chain_countAccess]), wrote_answer]
  | active => rw [chainCommandW_drain_active (by rwa [chain_countAccess]), wrote_answer]
  | draining => rw [chainCommandW_drain_draining (by rwa [chain_countAccess]), wrote_answer]
  | activating => rw [chainCommandW_drain_activating (by rwa [chain_countAccess]), refused_answer]

theorem exec_activate_busy {w : Who} {k : Fin 16} {s : State} (ho : opens w (0x3110 + k.val) 2 1 s = true)
    (hst : (chain s k.val).state ≠ .empty) : exec (.activate w k) s = .next (refusedWith w 0x16 (countAccess s)) := by
  rw [exec_activate_eq, unitRow_chainCommand ho, chainCommandW_activate_busy (by rwa [chain_countAccess]), refused_answer]

/-- Settles O15: a row of CH_COMMAND reaches the slot's command unit, and R49 is that unit's case split on the slot's state. -/
theorem drainEmptiesTheSlot : Obligations.DrainEmptiesTheSlot := by
  intro w k s
  refine ⟨exec_drain, exec_activate_busy, fun hst hfl => ⟨_, ?_, rfl, ?_⟩⟩
  · rw [exec_drainComplete_eq, drainComplete_of_idle hst hfl]
  · simp

end Sys2Proof.Machine

/-! ## A granule's packing (R25): bytes, the word they spell, and its 64 residues of 36 bits -/

namespace Sys2Proof.Machine

/-! ### Little-endian bytes and their word -/

theorem ofLe_lt (bs : List Byte) : ofLe bs < 256 ^ bs.length := by
  induction bs with
  | nil => simp [ofLe]
  | cons b r ih =>
    have hb : b.toNat < 256 := b.isLt
    simp only [ofLe, List.length_cons, Nat.pow_succ]
    omega

theorem toLe_ofLe (bs : List Byte) : toLe bs.length (ofLe bs) = bs := by
  induction bs with
  | nil => rfl
  | cons b r ih =>
    have hb : b.toNat < 256 := b.isLt
    have hhead : BitVec.ofNat 8 (b.toNat + 256 * ofLe r) = b := by
      apply BitVec.eq_of_toNat_eq
      rw [BitVec.toNat_ofNat]
      omega
    have htail : (b.toNat + 256 * ofLe r) / 256 = ofLe r := by omega
    rw [List.length_cons, ofLe, toLe, hhead, htail, ih]

/-- The 288 bytes of a granule hold exactly 64 residues: no bit is unused. -/
theorem granuleBytes_eq_granuleBits : 256 ^ 288 = 2 ^ (36 * 64) := by
  rw [show 36 * 64 = 8 * 288 from rfl, Nat.pow_mul]

/-! ### The word and its residues -/

/-- Residue j of a word of residues laid side by side. -/
def residueAt (w j : Nat) : Nat := w / 2 ^ (36 * j) % 2 ^ 36

theorem residueAt_zero (w : Nat) : residueAt w 0 = w % 2 ^ 36 := by simp [residueAt]

theorem residueAt_succ (w j : Nat) : residueAt w (j + 1) = residueAt (w / 2 ^ 36) j := by
  rw [residueAt, residueAt, Nat.div_div_eq_div_mul, ← Nat.pow_add, Nat.mul_succ, Nat.add_comm]

theorem bits_eq_residueAt (w j : Nat) : bits w (36 * j + 35) (36 * j) = residueAt w j := by
  have hwidth : 36 * j + 35 + 1 - 36 * j = 36 := by omega
  rw [bits, residueAt, Nat.shiftRight_eq_div_pow, hwidth]

theorem unpackGran_eq (bs : List Byte) : unpackGran bs = (List.range 64).map (residueAt (ofLe bs)) :=
  List.map_congr_left fun j _ => bits_eq_residueAt (ofLe bs) j

theorem packWord_lt (l : List Nat) : packWord l < 2 ^ (36 * l.length) := by
  induction l with
  | nil => simp [packWord]
  | cons r t ih =>
    have hr : r % 2 ^ 36 < 2 ^ 36 := Nat.mod_lt _ (by decide)
    rw [packWord, List.length_cons, Nat.mul_succ, Nat.pow_add]
    omega

theorem residueAt_packWord (l : List Nat) (j : Nat) : residueAt (packWord l) j = l.getD j 0 % 2 ^ 36 := by
  induction l generalizing j with
  | nil => simp [packWord, residueAt]
  | cons r t ih =>
    cases j with
    | zero => rw [residueAt_zero, packWord, List.getD_cons_zero]; omega
    | succ j =>
      have htail : packWord (r :: t) / 2 ^ 36 = packWord t := by rw [packWord]; omega
      rw [residueAt_succ, htail, ih, List.getD_cons_succ]

theorem packWord_residues (n w : Nat) : packWord ((List.range n).map (residueAt w)) = w % 2 ^ (36 * n) := by
  induction n generalizing w with
  | zero => simp [packWord, Nat.mod_one]
  | succ n ih =>
    have htail : residueAt w ∘ Nat.succ = residueAt (w / 2 ^ 36) := funext (residueAt_succ w)
    rw [List.range_succ_eq_map, List.map_cons, List.map_map, htail, packWord, ih, residueAt_zero, Nat.mod_mod,
      Nat.mul_succ, Nat.add_comm (36 * n), Nat.pow_add, Nat.mod_mul]

/-! ### Packing and unpacking -/

theorem ofLe_packGran {l : List Nat} (hl : l.length = 64) : ofLe (packGran l) = packWord l := by
  apply ofLe_toLe
  rw [granuleBytes_eq_granuleBits, ← hl]
  exact packWord_lt l

theorem residueAt_packGran {l : List Nat} (hl : l.length = 64) (hres : ∀ x ∈ l, x < 2 ^ 36) {j : Nat} (hj : j < 64) :
    residueAt (ofLe (packGran l)) j = l.getD j 0 := by
  have hjl : j < l.length := by omega
  rw [ofLe_packGran hl, residueAt_packWord, List.getD_eq_getElem _ _ hjl, Nat.mod_eq_of_lt (hres _ (List.getElem_mem hjl))]

theorem unpackGran_packGran {l : List Nat} (hl : l.length = 64) (hres : ∀ x ∈ l, x < 2 ^ 36) : unpackGran (packGran l) = l := by
  rw [unpackGran_eq]
  refine List.ext_getElem (by simp [hl]) fun j _ hjl => ?_
  rw [List.getElem_map, List.getElem_range, residueAt_packGran hl hres (by omega), List.getD_eq_getElem _ _ hjl]

theorem packGran_unpackGran {bs : List Byte} (hbs : bs.length = 288) : packGran (unpackGran bs) = bs := by
  have hlt : ofLe bs < 2 ^ (36 * 64) := by
    rw [← granuleBytes_eq_granuleBits, ← hbs]
    exact ofLe_lt bs
  rw [packGran, unpackGran_eq, packWord_residues, Nat.mod_eq_of_lt hlt, ← hbs, toLe_ofLe]

/-- Settles O9: bytes and word, word and residues are each in bijection, and 288 bytes are exactly 64 residues wide. -/
theorem granulePackingIsFaithful : Obligations.GranulePackingIsFaithful := by
  refine ⟨fun l hl hres => ⟨length_toLe _ _, fun j hj => ?_, unpackGran_packGran hl hres⟩, fun bs => packGran_unpackGran⟩
  exact residueAt_packGran hl hres hj

end Sys2Proof.Machine

/-! ## Doorbells of a known stream (R207) -/

namespace Sys2Proof.Machine

/-- HEAD passes R207's tests: not behind the present HEAD, at most the ring ahead of RETIRED, the stream not FINISHED. -/
theorem headOk_iff (t : Stream) (head : Word32) :
    headOk t head = true ↔ 0 ≤ sdiff32 head.toNat t.head.toNat ∧
      sdiff32 head.toNat t.retired.toNat ≤ ((2 ^ t.ringLog2 : Nat) : Int) ∧ t.mode ≠ .finished := by
  rw [headOk, Bool.and_eq_true, Bool.and_eq_true, decide_eq_true_iff, decide_eq_true_iff, bne_iff_ne, and_assoc]

/-- HEAD fails R207's tests in one of three ways. -/
theorem headOk_eq_false_iff (t : Stream) (head : Word32) :
    headOk t head = false ↔ sdiff32 head.toNat t.head.toNat < 0 ∨
      ((2 ^ t.ringLog2 : Nat) : Int) < sdiff32 head.toNat t.retired.toNat ∨ t.mode = .finished := by
  rw [← Bool.not_eq_true, headOk_iff, not_and_or, not_and_or, not_le, not_le, not_not]

@[simp] theorem stream_bumpE (i j : Nat) (s : State) (ctx c : Nat) : stream (bumpE i j s) ctx c = stream s ctx c := by
  simp [stream]

@[simp] theorem stream_stageRec (d : Nat) (r : Rec) (s : State) (ctx c : Nat) :
    stream (stageRec d r s) ctx c = stream s ctx c := by
  simp [stream]

/-- A refused doorbell changes no stream. -/
@[simp] theorem stream_doorbellReject (c ctx : Nat) (s : State) (ctx' c' : Nat) :
    stream (doorbellReject c ctx s) ctx' c' = stream s ctx' c' := by
  simp [doorbellReject]

theorem applyHead_of_ok {c ctx : Nat} {head : Word32} {s : State} (h : headOk (stream s ctx c) head = true) :
    applyHead c ctx head s = (true, setStream ctx c (fun t => { t with head := head }) s) :=
  if_pos h

theorem applyHead_of_not_ok {c ctx : Nat} {head : Word32} {s : State} (h : headOk (stream s ctx c) head = false) :
    applyHead c ctx head s = (false, doorbellReject c ctx s) :=
  if_neg (Bool.eq_false_iff.mp h)

/-- Past the entry's read, a doorbell of a session's own generation for a known stream is R207's choice alone. -/
theorem doorbell_of_known {ctx gen c : Nat} {head : Word32} {s : State}
    (hsession : ctxState (readEntry ctx s) ctx = 1 ∨ ctxState (readEntry ctx s) ctx = 2)
    (hgen : ctxGen (readEntry ctx s) ctx = gen) (hknown : (stream (readEntry ctx s) ctx c).known = true) :
    doorbell ctx gen c head s = applyHead c ctx head (readEntry ctx s) := by
  have hadmitted : ¬ (ctxState (readEntry ctx s) ctx = 0 ∨ ctxState (readEntry ctx s) ctx = 3 ∨
      ctxGen (readEntry ctx s) ctx ≠ gen) := by omega
  rw [doorbell, if_neg hadmitted, if_pos hknown]

theorem exec_doorbell_eq (ctx : Fin 4096) (gen : BitVec 16) (c : Fin 128) (head : Word32) (s : State) :
    exec (.doorbell ctx gen c head) s = .next (doorbell ctx.val gen.toNat c.val head s).2 := rfl

/-- Settles O24: the doorbell reaches the stream's HEAD tests, and each of their two outcomes is one clause. -/
theorem doorbellsMoveHead : Obligations.DoorbellsMoveHead := by
  intro ctx gen c head s0 s t hsession hgen hknown
  have hexec : exec (.doorbell ctx gen c head) s0 = .next (applyHead c.val ctx.val head s).2 := by
    rw [exec_doorbell_eq, doorbell_of_known hsession hgen hknown]
  refine ⟨fun htaken => ?_, fun hrefused => ⟨doorbellReject c.val ctx.val s, ?_, stream_doorbellReject _ _ _ _ _, rfl⟩⟩
  · rw [hexec, applyHead_of_ok ((headOk_iff t head).mpr htaken)]
  · rw [hexec, applyHead_of_not_ok ((headOk_eq_false_iff t head).mpr hrefused)]

end Sys2Proof.Machine

/-! ## Event counters (R368) -/

namespace Sys2Proof.Machine

/-- A counter is held when the incremented count would stand 2^32 − 1 past the acknowledged value (R368). -/
theorem counterHeld_iff (s : State) (k : Nat) :
    counterHeld s k = true ↔ ((count s k + 1) % 2 ^ 32 + 2 ^ 32 - ackedValue s k) % 2 ^ 32 = 2 ^ 32 - 1 :=
  beq_iff_eq

theorem bump_of_not_held {k : Nat} {s : State} (h : ¬ counterHeld s k = true) :
    bump k s = { s with counts := tset s.counts k ((count s k + 1) % 2 ^ 32) } :=
  if_neg h

/-- An increment of a held counter is EVENTS_LOST's increment instead. -/
theorem bump_of_held {k : Nat} {s : State} (h : counterHeld s k = true) (hlost : ¬ counterHeld s kEventsLost = true) :
    bump k s = { s with counts := tset s.counts kEventsLost ((count s kEventsLost + 1) % 2 ^ 32) } := by
  rw [bump, if_pos h, if_neg hlost]

theorem bump_of_both_held {k : Nat} {s : State} (h : counterHeld s k = true) (hlost : counterHeld s kEventsLost = true) :
    bump k s = s := by
  rw [bump, if_pos h, if_pos hlost]

/-- Settles O12: the counter is free, or held with EVENTS_LOST free, or both are held. -/
theorem counterIncrements : Obligations.CounterIncrements := by
  intro k s d
  have hheld : ∀ j, counterHeld s j = true ↔ d j = 2 ^ 32 - 1 := counterHeld_iff s
  refine ⟨fun hfree => ?_, fun hk hlost => ?_, fun hk hlost => ?_⟩
  · exact bump_of_not_held (mt (hheld k).mp hfree)
  · exact bump_of_held ((hheld k).mpr hk) (mt (hheld kEventsLost).mp hlost)
  · exact bump_of_both_held ((hheld k).mpr hk) ((hheld kEventsLost).mpr hlost)

end Sys2Proof.Machine

/-! ## The modular lanes (R52) -/

namespace Sys2Proof.Machine

/-- The constants that the table gives a 36-bit modulus: the reciprocal is the floor of 2^72 ÷ q (Table 2.8). -/
structure LanePrime (p : Prime) : Prop where
  low  : 2 ^ 35 < p.q
  high : p.q < 2 ^ 36
  mu   : p.mu = 2 ^ 72 / p.q

/-- The quotient that a lane estimates (R52). -/
def barrettQuot (p : Prime) (x : Nat) : Nat := ((x >>> 35) * p.mu) >>> 37

theorem barrettQuot_eq (p : Prime) (x : Nat) : barrettQuot p x = x / 2 ^ 35 * p.mu / 2 ^ 37 := by
  rw [barrettQuot, Nat.shiftRight_eq_div_pow, Nat.shiftRight_eq_div_pow]

/-- The estimate never exceeds the quotient. -/
theorem barrettQuot_mul_le {p : Prime} (hp : LanePrime p) (x : Nat) : barrettQuot p x * p.q ≤ x := by
  have ht : x / 2 ^ 35 * 2 ^ 35 ≤ x := Nat.div_mul_le_self _ _
  have hm : p.mu * p.q ≤ 2 ^ 72 := hp.mu ▸ Nat.div_mul_le_self _ _
  have hq : barrettQuot p x * 2 ^ 37 ≤ x / 2 ^ 35 * p.mu := barrettQuot_eq p x ▸ Nat.div_mul_le_self _ _
  have key : barrettQuot p x * p.q * 2 ^ 72 ≤ x * 2 ^ 72 :=
    calc barrettQuot p x * p.q * 2 ^ 72 = barrettQuot p x * 2 ^ 37 * p.q * 2 ^ 35 := by ring
      _ ≤ x / 2 ^ 35 * p.mu * p.q * 2 ^ 35 := by gcongr
      _ = x / 2 ^ 35 * 2 ^ 35 * (p.mu * p.q) := by ring
      _ ≤ x * 2 ^ 72 := Nat.mul_le_mul ht hm
  exact Nat.le_of_mul_le_mul_right key (by norm_num)

/-- The estimate falls short by two at most. -/
theorem lt_barrettQuot_add_three_mul {p : Prime} (hp : LanePrime p) {x : Nat} (hx : x < 2 ^ 72) :
    x < (barrettQuot p x + 3) * p.q := by
  have hlow := hp.low
  have ht : x < (x / 2 ^ 35 + 1) * 2 ^ 35 := by omega
  have htop : x / 2 ^ 35 < 2 ^ 37 := by omega
  have hm : 2 ^ 72 < (p.mu + 1) * p.q := by
    rw [hp.mu, Nat.mul_comm]
    exact Nat.lt_mul_div_succ _ (by omega)
  have hmtop : p.mu < 2 ^ 37 := by
    rw [hp.mu]
    exact Nat.div_lt_of_lt_mul (by omega)
  have hq : x / 2 ^ 35 * p.mu < (barrettQuot p x + 1) * 2 ^ 37 := by rw [barrettQuot_eq]; omega
  have hsum : (x / 2 ^ 35 + 1) * (p.mu + 1) ≤ (barrettQuot p x + 3) * 2 ^ 37 := by
    have : (x / 2 ^ 35 + 1) * (p.mu + 1) = x / 2 ^ 35 * p.mu + x / 2 ^ 35 + p.mu + 1 := by ring
    omega
  have key : x * 2 ^ 72 < (barrettQuot p x + 3) * p.q * 2 ^ 72 :=
    calc x * 2 ^ 72 < (x / 2 ^ 35 + 1) * 2 ^ 35 * ((p.mu + 1) * p.q) := Nat.mul_lt_mul'' ht hm
      _ = (x / 2 ^ 35 + 1) * (p.mu + 1) * (2 ^ 35 * p.q) := by ring
      _ ≤ (barrettQuot p x + 3) * 2 ^ 37 * (2 ^ 35 * p.q) := by gcongr
      _ = (barrettQuot p x + 3) * p.q * 2 ^ 72 := by ring
  exact lt_of_mul_lt_mul_right key (by norm_num)

/-- What is left of x once the estimate is taken off: it is below 3q, so the 38 bits that a lane keeps hold it. -/
theorem barrettRest {p : Prime} (hp : LanePrime p) {x : Nat} (hx : x < 2 ^ 72) :
    x - barrettQuot p x * p.q < 3 * p.q ∧ (x - barrettQuot p x * p.q) % 2 ^ 38 = x - barrettQuot p x * p.q := by
  have hle := barrettQuot_mul_le hp x
  have hlt := lt_barrettQuot_add_three_mul hp hx
  have hhigh := hp.high
  rw [Nat.add_mul] at hlt
  exact ⟨by omega, Nat.mod_eq_of_lt (by omega)⟩

/-- Two conditional subtractions reduce what is below 3q. -/
theorem condSub_condSub {q r : Nat} (h : r < 3 * q) : condSub q (condSub q r) = r % q := by
  unfold condSub
  split
  · split
    · rw [Nat.mod_eq_sub_mod (by omega), Nat.mod_eq_sub_mod (by omega), Nat.mod_eq_of_lt (by omega)]
    · rw [Nat.mod_eq_sub_mod (by omega), Nat.mod_eq_of_lt (by omega)]
  · rw [Nat.mod_eq_of_lt (by omega)]

theorem reduce_eq_mod {p : Prime} (hp : LanePrime p) {x : Nat} (hx : x < 2 ^ 72) : reduce p x = x % p.q := by
  obtain ⟨hlt, hmod⟩ := barrettRest hp hx
  have hred : reduce p x = condSub p.q (condSub p.q ((x - barrettQuot p x * p.q) % 2 ^ 38)) := rfl
  rw [hred, hmod, condSub_condSub hlt, Nat.mul_comm, Nat.sub_mul_mod (by rw [Nat.mul_comm]; exact barrettQuot_mul_le hp x)]

theorem mulmod_eq_mod {p : Prime} (hp : LanePrime p) {a b : Nat} (ha : a < p.q) (hb : b < p.q) : mulmod p a b = a * b % p.q := by
  have hhigh := hp.high
  refine reduce_eq_mod hp ?_
  calc a * b < 2 ^ 36 * 2 ^ 36 := Nat.mul_lt_mul'' (by omega) (by omega)
    _ = 2 ^ 72 := by norm_num

theorem addmod_eq_mod {p : Prime} {a b : Nat} (ha : a < p.q) (hb : b < p.q) : addmod p a b = (a + b) % p.q := by
  unfold addmod condSub
  split
  · rw [Nat.mod_eq_sub_mod (by omega), Nat.mod_eq_of_lt (by omega)]
  · rw [Nat.mod_eq_of_lt (by omega)]

theorem submod_eq_mod {p : Prime} {a b : Nat} (ha : a < p.q) (hb : b < p.q) : submod p a b = (a + p.q - b) % p.q := by
  unfold submod
  split
  · rw [Nat.mod_eq_sub_mod (by omega), Nat.mod_eq_of_lt (by omega)]
    omega
  · rw [Nat.mod_eq_of_lt (by omega)]

theorem negmod_eq_mod {p : Prime} {a : Nat} (ha : a < p.q) : negmod p a = (p.q - a) % p.q := by
  unfold negmod
  split
  · subst_vars; simp
  · rw [Nat.mod_eq_of_lt (by omega)]

/-- The least modulus of 36 bits' width: an odd q just above 2^35, with its reciprocal. -/
def leastPrime : Prime := { q := 2 ^ 35 + 1, mu := 2 ^ 72 / (2 ^ 35 + 1), psi := 0, psiInv := 0 }

/-- Refutes O6: the lanes are exact (`reduce_eq_mod`, `mulmod_eq_mod`, …), but the bound's estimate, as the statement writes it, shifts
μ and not the product: `(x >>> 35) * p.mu >>> 37` is `(x >>> 35) * (p.mu >>> 37)`, which is 0. Then x = 2^38 − 1 is left whole, above 3q. -/
theorem not_lanesAreExact : ¬ Obligations.LanesAreExact := by
  intro h
  obtain ⟨-, hbound⟩ := h.1 leastPrime (2 ^ 38 - 1) (by decide) (by decide) rfl (by decide)
  exact absurd hbound (by decide)

end Sys2Proof.Machine

/-! ## The transforms (R54): orthogonality of the odd powers of a root, and the round trip of a limb -/

namespace Sys2Proof.Machine

/-! ### Powers modulo q -/

theorem powModAux_eq (m : Nat) : ∀ (f b e : Nat), e < 2 ^ f → powModAux m f b e = b ^ e % m := by
  intro f
  induction f with
  | zero =>
    intro b e he
    obtain rfl : e = 0 := by omega
    rw [powModAux, pow_zero]
  | succ f ih =>
    intro b e he
    rw [Nat.pow_succ] at he
    have hstep : (if e % 2 = 1 then b else 1) * (b * b) ^ (e / 2) = b ^ e := by
      conv_rhs => rw [← Nat.mod_add_div e 2, pow_add, pow_mul, pow_two]
      rcases Nat.mod_two_eq_zero_or_one e with h | h <;> simp [h]
    rw [powModAux, ih _ _ (by omega), ← Nat.pow_mod, Nat.mul_mod_mod, hstep]

theorem powMod_eq (b e m : Nat) : powMod b e m = b ^ e % m := by
  rw [powMod, powModAux_eq _ _ _ _ Nat.lt_log2_self, ← Nat.pow_mod]

@[simp] theorem cast_powMod (b e q : Nat) : ((powMod b e q : Nat) : ZMod q) = (b : ZMod q) ^ e := by
  rw [powMod_eq, ZMod.natCast_mod, Nat.cast_pow]

/-! ### Bit reversal -/

theorem brv_lt : ∀ n x : Nat, brv n x < 2 ^ n := by
  intro n
  induction n with
  | zero => intro x; simp [brv]
  | succ n ih =>
    intro x
    have htail := ih (x / 2)
    have hbit := Nat.mod_two_eq_zero_or_one x
    rw [brv, Nat.pow_succ]
    rcases hbit with h | h <;> rw [h] <;> omega

theorem brv_injOn : ∀ n x y : Nat, x < 2 ^ n → y < 2 ^ n → brv n x = brv n y → x = y := by
  intro n
  induction n with
  | zero => intro x y hx hy _; omega
  | succ n ih =>
    intro x y hx hy h
    have hxt := brv_lt n (x / 2)
    have hyt := brv_lt n (y / 2)
    rw [Nat.pow_succ] at hx hy
    simp only [brv] at h
    have hsplit : x % 2 = y % 2 ∧ brv n (x / 2) = brv n (y / 2) := by
      rcases Nat.mod_two_eq_zero_or_one x with hx2 | hx2 <;> rcases Nat.mod_two_eq_zero_or_one y with hy2 | hy2 <;>
        rw [hx2, hy2] at h ⊢ <;> omega
    have htail := ih _ _ (by omega) (by omega) hsplit.2
    omega

/-- A sum over bit-reversed positions is a sum over positions. -/
theorem sum_brv {R : Type} [AddCommMonoid R] (n : Nat) (f : Nat → R) :
    ∑ t ∈ Finset.range (2 ^ n), f (brv n t) = ∑ t ∈ Finset.range (2 ^ n), f t := by
  have himage : (Finset.range (2 ^ n)).image (brv n) = Finset.range (2 ^ n) := by
    refine Finset.eq_of_subset_of_card_le (fun x hx => ?_) ?_
    · obtain ⟨t, _, rfl⟩ := Finset.mem_image.mp hx
      exact Finset.mem_range.mpr (brv_lt n t)
    · rw [Finset.card_image_of_injOn fun x hx y hy => brv_injOn n x y (by simpa using hx) (by simpa using hy)]
  conv_rhs => rw [← himage]
  exact (Finset.sum_image fun x hx y hy => brv_injOn n x y (by simpa using hx) (by simpa using hy)).symm

/-! ### Orthogonality -/

section
variable {R : Type} [CommRing R]

/-- The odd powers of z^d cancel in pairs, whatever the ring: where d is odd the second half of the sum is the first negated;
where it is even the two halves are the same sum for z². -/
theorem sum_odd_pow_eq_zero : ∀ (n d : Nat) (z : R), z ^ 2 ^ n = -1 → 0 < d → d < 2 ^ n →
    ∑ t ∈ Finset.range (2 ^ n), (z ^ d) ^ (2 * t + 1) = 0 := by
  intro n
  induction n with
  | zero => intro d z _ h0 h1; omega
  | succ n ih =>
    intro d z hz h0 h1
    have hshift : ∀ t, (z ^ d) ^ (2 * (2 ^ n + t) + 1) = (-1) ^ d * (z ^ d) ^ (2 * t + 1) := by
      intro t
      have hexp : 2 * (2 ^ n + t) + 1 = 2 ^ (n + 1) + (2 * t + 1) := by rw [Nat.pow_succ]; ring
      rw [hexp, pow_add, ← pow_mul, Nat.mul_comm d, pow_mul, hz]
    rw [Nat.pow_succ, Nat.mul_two, Finset.sum_range_add]
    simp only [hshift, ← Finset.mul_sum]
    rcases Nat.even_or_odd' d with ⟨k, rfl | rfl⟩
    · have hhalf := ih k (z ^ 2) (by rw [← pow_mul, ← hz, Nat.pow_succ, Nat.mul_comm]) (by omega) (by rw [Nat.pow_succ] at h1; omega)
      rw [← pow_mul] at hhalf
      rw [hhalf, mul_zero, add_zero]
    · rw [Odd.neg_one_pow ⟨k, rfl⟩, neg_one_mul, add_neg_cancel]

/-- Over the odd powers of a root of −1 and of its inverse, positions k and j are orthogonal. -/
theorem sum_odd_pow_mul_odd_pow {n : Nat} {z w : R} (hz : z ^ 2 ^ n = -1) (hzw : z * w = 1) {k j : Nat} (hk : k < 2 ^ n)
    (hj : j < 2 ^ n) : ∑ t ∈ Finset.range (2 ^ n), (z ^ (2 * t + 1)) ^ k * (w ^ (2 * t + 1)) ^ j = if k = j then (2 ^ n : R) else 0 := by
  have hw : w ^ 2 ^ n = -1 := by
    have h : z ^ 2 ^ n * w ^ 2 ^ n = 1 := by rw [← mul_pow, hzw, one_pow]
    rw [hz] at h
    linear_combination -h
  have hterm : ∀ t, (z ^ (2 * t + 1)) ^ k * (w ^ (2 * t + 1)) ^ j = (z ^ k * w ^ j) ^ (2 * t + 1) := by
    intro t
    rw [mul_pow, ← pow_mul, ← pow_mul, ← pow_mul, ← pow_mul, mul_comm k, mul_comm j]
  simp only [hterm]
  rcases lt_trichotomy k j with h | rfl | h
  · have hd : z ^ k * w ^ j = w ^ (j - k) := by
      rw [← Nat.add_sub_of_le h.le, pow_add, ← mul_assoc, ← mul_pow, hzw, one_pow, one_mul, Nat.add_sub_cancel_left]
    rw [if_neg h.ne, hd]
    exact sum_odd_pow_eq_zero n _ w hw (by omega) (by omega)
  · simp [← mul_pow, hzw]
  · have hd : z ^ k * w ^ j = z ^ (k - j) := by
      rw [← Nat.add_sub_of_le h.le, pow_add, mul_right_comm, ← mul_pow, hzw, one_pow, one_mul, Nat.add_sub_cancel_left]
    rw [if_neg h.ne', hd]
    exact sum_odd_pow_eq_zero n _ z hz (by omega) (by omega)

end

/-! ### The two directions as sums -/

theorem cast_evalPoly (q x : Nat) (a : List Nat) :
    ((evalPoly q x a : Nat) : ZMod q) = ∑ k ∈ Finset.range a.length, (a.getD k 0 : ZMod q) * (x : ZMod q) ^ k := by
  induction a with
  | nil => simp [evalPoly]
  | cons c r ih =>
    have hcons : evalPoly q x (c :: r) = (c + evalPoly q x r * x) % q := rfl
    rw [hcons, ZMod.natCast_mod, Nat.cast_add, Nat.cast_mul, ih, List.length_cons, Finset.sum_range_succ', Finset.sum_mul]
    simp [pow_succ, mul_assoc, add_comm]

/-- A running sum that is reduced at each step is the sum reduced at the end. -/
theorem foldl_add_mod {α : Type} {q : Nat} (f : α → Nat) : ∀ (l : List α) (acc : Nat), acc < q →
    l.foldl (fun acc x => (acc + f x) % q) acc = (acc + (l.map f).sum) % q := by
  intro l
  induction l with
  | nil => intro acc h; simp [Nat.mod_eq_of_lt h]
  | cons x r ih =>
    intro acc h
    rw [List.foldl_cons, ih _ (Nat.mod_lt _ (by omega)), Nat.mod_add_mod, List.map_cons, List.sum_cons, Nat.add_assoc]

/-- The constants of a modulus for which a transform of 2^n coefficients exists (Table 2.8). -/
structure NttPrime (p : Prime) (n : Nat) : Prop where
  lane  : LanePrime p
  split : p.q % 2 ^ 17 = 1
  root  : powMod p.psi (2 ^ 16) p.q = p.q - 1
  inv   : p.psi * p.psiInv % p.q = 1
  size  : n ≤ 16

theorem NttPrime.two_pow_mul_nInv {p : Prime} {n : Nat} (h : NttPrime p n) : (2 ^ n : ZMod p.q) * (nInv p n : ZMod p.q) = 1 := by
  have hlow := h.lane.low
  have hsplit := h.split
  have hdvd : 2 ^ n ∣ p.q - 1 :=
    (Nat.pow_dvd_pow 2 (Nat.le_succ_of_le h.size)).trans ((Nat.modEq_iff_dvd' (by omega)).mp (by rw [Nat.ModEq, hsplit]))
  have hprod : 2 ^ n * ((p.q - 1) / 2 ^ n) = p.q - 1 := Nat.mul_div_cancel' hdvd
  have hle : (p.q - 1) / 2 ^ n ≤ p.q := (Nat.div_le_self _ _).trans (Nat.sub_le _ _)
  have hcast : (2 ^ n : ZMod p.q) * (((p.q - 1) / 2 ^ n : Nat) : ZMod p.q) = ((p.q - 1 : Nat) : ZMod p.q) := by
    rw [← hprod]; push_cast; rw [hprod]
  rw [nInv, Nat.cast_sub hle, ZMod.natCast_self, zero_sub, mul_neg, hcast, Nat.cast_sub (by omega), ZMod.natCast_self]
  simp

theorem NttPrime.nInv_lt {p : Prime} {n : Nat} (h : NttPrime p n) : nInv p n < p.q := by
  have hlow := h.lane.low
  have hpow : 2 ^ n ≤ 2 ^ 16 := Nat.pow_le_pow_right (by norm_num) h.size
  have hpos : 0 < (p.q - 1) / 2 ^ n := Nat.div_pos (by omega) (Nat.two_pow_pos n)
  rw [nInv]
  omega

/-- ψ_N is a root of X^N = −1. -/
theorem NttPrime.rootN_pow {p : Prime} {n : Nat} (h : NttPrime p n) : ((rootN p p.psi n : Nat) : ZMod p.q) ^ 2 ^ n = -1 := by
  have hlow := h.lane.low
  have hroot : (p.psi : ZMod p.q) ^ 2 ^ 16 = -1 := by
    rw [← cast_powMod, h.root, Nat.cast_sub (by omega), ZMod.natCast_self]
    simp
  have hexp : 2 ^ (16 - n) * 2 ^ n = 2 ^ 16 := by rw [← Nat.pow_add, Nat.sub_add_cancel h.size]
  rw [rootN, cast_powMod, ← pow_mul, hexp, hroot]

theorem NttPrime.rootN_mul_rootN {p : Prime} {n : Nat} (h : NttPrime p n) :
    ((rootN p p.psi n : Nat) : ZMod p.q) * ((rootN p p.psiInv n : Nat) : ZMod p.q) = 1 := by
  have hinv : (p.psi : ZMod p.q) * (p.psiInv : ZMod p.q) = 1 := by
    rw [← Nat.cast_mul, ← ZMod.natCast_mod, h.inv, Nat.cast_one]
  rw [rootN, rootN, cast_powMod, cast_powMod, ← mul_pow, hinv, one_pow]

/-- What NTT_INV sums for coefficient j, before the product by N^(-1). -/
def invSum (p : Prime) (n : Nat) (f : Nat → Nat) (j : Nat) : Nat :=
  ((List.range (2 ^ n)).map fun t => f t * powMod (rootN p p.psiInv n) (evalExp n t * j % 2 ^ (n + 1)) p.q).sum % p.q

theorem nttInvLimb_map {p : Prime} {n : Nat} (hq : 0 < p.q) (f : Nat → Nat) :
    nttInvLimb p n false ((List.range (2 ^ n)).map f) =
      (List.range (2 ^ n)).map fun j => mulmod p (invSum p n f j) (nInv p n) := by
  refine List.map_congr_left fun j _ => ?_
  simp only [Bool.false_eq_true, if_false]
  rw [foldl_add_mod (q := p.q) (fun x : Nat × Nat => x.2 * powMod (rootN p p.psiInv n) (evalExp n x.1 * j % 2 ^ (n + 1)) p.q) _ 0 hq,
    ← List.map_prod_left_eq_zip, List.map_map, Nat.zero_add]
  rfl

theorem cast_invSum {p : Prime} {n : Nat} (h : NttPrime p n) (f : Nat → Nat) (j : Nat) :
    ((invSum p n f j : Nat) : ZMod p.q) =
      ∑ t ∈ Finset.range (2 ^ n), (f t : ZMod p.q) * ((((rootN p p.psiInv n : Nat) : ZMod p.q)) ^ evalExp n t) ^ j := by
  have hw : ((rootN p p.psiInv n : Nat) : ZMod p.q) ^ 2 ^ (n + 1) = 1 := by
    have hz : ((rootN p p.psi n : Nat) : ZMod p.q) ^ 2 ^ (n + 1) = 1 := by
      rw [Nat.pow_succ, pow_mul, h.rootN_pow]; norm_num
    have hprod := congrArg (fun x : ZMod p.q => x ^ 2 ^ (n + 1)) h.rootN_mul_rootN
    simpa [mul_pow, hz] using hprod
  have hmod : ∀ e : Nat, ((rootN p p.psiInv n : Nat) : ZMod p.q) ^ (e % 2 ^ (n + 1)) = ((rootN p p.psiInv n : Nat) : ZMod p.q) ^ e :=
    fun e => (pow_eq_pow_mod e hw).symm
  rw [invSum, ZMod.natCast_mod, ← List.sum_toFinset _ List.nodup_range, List.toFinset_range, Nat.cast_sum]
  refine Finset.sum_congr rfl fun t _ => ?_
  rw [Nat.cast_mul, cast_powMod, hmod, pow_mul]

theorem nttFwdLimb_eq (p : Prime) (n : Nat) (a : List Nat) :
    nttFwdLimb p n a = (List.range (2 ^ n)).map fun t => evalPoly p.q (powMod (rootN p p.psi n) (evalExp n t) p.q) a := rfl

/-- The sum of NTT_INV over the values of NTT_FWD is N times the coefficient: exchange the sums, and position k vanishes but for k = j. -/
theorem cast_invSum_evalPoly {p : Prime} {n : Nat} (h : NttPrime p n) {a : List Nat} (ha : a.length = 2 ^ n) {j : Nat}
    (hj : j < 2 ^ n) :
    ((invSum p n (fun t => evalPoly p.q (powMod (rootN p p.psi n) (evalExp n t) p.q) a) j : Nat) : ZMod p.q) =
      2 ^ n * (a.getD j 0 : ZMod p.q) := by
  rw [cast_invSum h]
  simp only [cast_evalPoly, cast_powMod, ha, Finset.sum_mul]
  rw [Finset.sum_comm]
  have hterm : ∀ k ∈ Finset.range (2 ^ n),
      ∑ t ∈ Finset.range (2 ^ n), (a.getD k 0 : ZMod p.q) * (((rootN p p.psi n : Nat) : ZMod p.q) ^ evalExp n t) ^ k *
        (((rootN p p.psiInv n : Nat) : ZMod p.q) ^ evalExp n t) ^ j = if k = j then 2 ^ n * (a.getD j 0 : ZMod p.q) else 0 := by
    intro k hk
    simp only [mul_assoc, ← Finset.mul_sum, evalExp]
    rw [sum_brv n fun t => (((rootN p p.psi n : Nat) : ZMod p.q) ^ (2 * t + 1)) ^ k *
      (((rootN p p.psiInv n : Nat) : ZMod p.q) ^ (2 * t + 1)) ^ j,
      sum_odd_pow_mul_odd_pow h.rootN_pow h.rootN_mul_rootN (Finset.mem_range.mp hk) hj]
    split
    · subst_vars; ring
    · rw [mul_zero]
  rw [Finset.sum_congr rfl hterm, Finset.sum_ite_eq' (Finset.range (2 ^ n)) j, if_pos (Finset.mem_range.mpr hj)]

theorem mulmod_nInv_invSum {p : Prime} {n : Nat} (h : NttPrime p n) {a : List Nat} (ha : a.length = 2 ^ n)
    (hres : ∀ x ∈ a, x < p.q) {j : Nat} (hj : j < 2 ^ n) :
    mulmod p (invSum p n (fun t => evalPoly p.q (powMod (rootN p p.psi n) (evalExp n t) p.q) a) j) (nInv p n) = a.getD j 0 := by
  have hlow := h.lane.low
  have hja : j < a.length := ha ▸ hj
  have hlt : a.getD j 0 < p.q := by
    rw [List.getD_eq_getElem _ _ hja]
    exact hres _ (List.getElem_mem hja)
  have hsum : invSum p n (fun t => evalPoly p.q (powMod (rootN p p.psi n) (evalExp n t) p.q) a) j < p.q :=
    Nat.mod_lt _ (by omega)
  rw [mulmod_eq_mod h.lane hsum h.nInv_lt, ← Nat.mod_eq_of_lt hlt]
  refine (ZMod.natCast_eq_natCast_iff' _ _ _).mp ?_
  rw [Nat.cast_mul, cast_invSum_evalPoly h ha hj, mul_right_comm, h.two_pow_mul_nInv, one_mul]

/-- Settles O7: the odd powers of ψ_N are orthogonal, so the two sums leave N times each coefficient, and N^(-1) takes N away. -/
theorem nttInvUndoesNttFwd : Obligations.NttInvUndoesNttFwd := by
  intro p n a hlow hhigh hmu hsplit hroot hinv _ hsize ha hres
  have h : NttPrime p n := ⟨⟨hlow, hhigh, hmu⟩, hsplit, hroot, hinv, hsize⟩
  rw [nttFwdLimb_eq, nttInvLimb_map (by omega)]
  refine List.ext_getElem (by simp [ha]) fun j _ hj => ?_
  rw [List.getElem_map, List.getElem_range, mulmod_nInv_invSum h ha hres (ha ▸ hj), List.getD_eq_getElem _ _ hj]

end Sys2Proof.Machine

/-! ## Basis conversion (R60) and the automorphism (R57) -/

namespace Sys2Proof.Machine

/-- Settles O8: each y is one exact product, and the running sum of z reduces to the whole sum. -/
theorem bconvSums : Obligations.BconvSums := by
  refine ⟨fun src ta xs hsrc hres => List.map_congr_left fun z hz => ?_, fun p row ys hq => ?_⟩
  · obtain ⟨hlow, hhigh, hmu⟩ := hsrc z.1 (List.of_mem_zip hz).1
    exact mulmod_eq_mod ⟨hlow, hhigh, hmu⟩ (hres z hz).1 (hres z hz).2
  · rw [bconvZ, foldl_add_mod (fun z : Nat × Nat => z.1 * z.2) _ 0 hq, Nat.zero_add]

/-! ### Coefficients moved by an odd factor -/

/-- Writes at distinct positions do not disturb each other: each position holds what was written there. -/
theorem getD_foldl_set {α : Type} (idx : Nat → Nat) (val : Nat → α) (d : α) : ∀ (l : List Nat) (acc : List α),
    (l.map idx).Nodup → (∀ j ∈ l, idx j < acc.length) → ∀ j ∈ l,
      (l.foldl (fun acc j => acc.set (idx j) (val j)) acc).getD (idx j) d = val j := by
  have huntouched : ∀ (l : List Nat) (acc : List α) (k : Nat), k ∉ l.map idx →
      (l.foldl (fun acc j => acc.set (idx j) (val j)) acc).getD k d = acc.getD k d := by
    intro l
    induction l with
    | nil => intros; rfl
    | cons i r ih =>
      intro acc k hk
      rw [List.map_cons, List.mem_cons, not_or] at hk
      rw [List.foldl_cons, ih _ _ hk.2, List.getD_eq_getElem?_getD, List.getElem?_set_ne (Ne.symm hk.1), List.getD_eq_getElem?_getD]
  intro l
  induction l with
  | nil => intro _ _ _ j hj; exact absurd hj List.not_mem_nil
  | cons i r ih =>
    intro acc hnodup hlen j hj
    rw [List.map_cons, List.nodup_cons] at hnodup
    rw [List.foldl_cons]
    rcases List.mem_cons.mp hj with rfl | hj
    · rw [huntouched _ _ _ hnodup.1, List.getD_eq_getElem?_getD, List.getElem?_set_self (hlen _ (List.mem_cons_self ..)),
        Option.getD_some]
    · exact ih _ hnodup.2 (fun k hk => by rw [List.length_set]; exact hlen k (List.mem_cons_of_mem _ hk)) j hj

/-- Where AUTO puts coefficient j (R57). -/
def autoPlace (n g j : Nat) : Nat :=
  let e := j * g % 2 ^ (n + 1)
  if e < 2 ^ n then e else e - 2 ^ n

/-- What AUTO puts there. -/
def autoValue (p : Prime) (n g : Nat) (a : List Nat) (j : Nat) : Nat :=
  if j * g % 2 ^ (n + 1) < 2 ^ n then a.getD j 0 else negmod p (a.getD j 0)

theorem autoPlace_eq_mod (n g j : Nat) : autoPlace n g j = j * g % 2 ^ n := by
  have hdvd : 2 ^ n ∣ 2 ^ (n + 1) := Nat.pow_dvd_pow 2 (Nat.le_succ n)
  have hlt : j * g % 2 ^ (n + 1) < 2 ^ n * 2 := Nat.pow_succ 2 n ▸ Nat.mod_lt _ (Nat.two_pow_pos (n + 1))
  rw [← Nat.mod_mod_of_dvd (j * g) hdvd]
  simp only [autoPlace]
  generalize j * g % 2 ^ (n + 1) = e at hlt ⊢
  split
  next h => rw [Nat.mod_eq_of_lt h]
  next h => rw [Nat.mod_eq_sub_mod (by omega), Nat.mod_eq_of_lt (by omega)]

/-- An odd factor permutes the positions. -/
theorem autoPlace_injOn {n g : Nat} (hg : g % 2 = 1) {j k : Nat} (hj : j < 2 ^ n) (hk : k < 2 ^ n)
    (h : autoPlace n g j = autoPlace n g k) : j = k := by
  have hcoprime : Nat.Coprime (2 ^ n) g := (Nat.coprime_two_left.mpr (Nat.odd_iff.mpr hg)).pow_left n
  rw [autoPlace_eq_mod, autoPlace_eq_mod] at h
  have hmod : j ≡ k [MOD 2 ^ n] := Nat.ModEq.cancel_right_of_coprime hcoprime h
  rwa [Nat.ModEq, Nat.mod_eq_of_lt hj, Nat.mod_eq_of_lt hk] at hmod

theorem autoCoeff_eq_foldl (p : Prime) (n g : Nat) (a : List Nat) :
    autoCoeff p n g a = (List.range (2 ^ n)).foldl (fun acc j => acc.set (autoPlace n g j) (autoValue p n g a j)) a := by
  unfold autoCoeff autoPlace autoValue
  congr 1
  funext acc j
  dsimp only
  split <;> rfl

/-- Settles O10: an odd factor moves the coefficients to distinct places, so each place keeps what was put there. -/
theorem autoMovesCoefficients : Obligations.AutoMovesCoefficients := by
  intro p n g a j hg ha hj e
  rw [autoCoeff_eq_foldl]
  refine getD_foldl_set (autoPlace n g) (autoValue p n g a) 0 _ a ?_ ?_ j (List.mem_range.mpr hj)
  · exact List.Nodup.map_on (fun x hx y hy => autoPlace_injOn hg (List.mem_range.mp hx) (List.mem_range.mp hy)) List.nodup_range
  · intro k _
    rw [ha, autoPlace_eq_mod]
    exact Nat.mod_lt _ (Nat.two_pow_pos n)

end Sys2Proof.Machine

/-! ## The machine: one step, the idle cycle, and what reset leaves -/

namespace Sys2Proof.Machine

open Sys2Proof.Safety

theorem step_of_pending {c : Instr} {rest : List Instr} {s : State} (h : s.pending = c :: rest) :
    step s = exec c { s with pending := rest } := by
  rw [step, h]

theorem step_of_idle {s : State} (h : s.pending = []) : step s = .next (tick s) := by
  rw [step, h]

/-- Settles O1: `step` looks at the front of the queue alone. -/
theorem stepRunsFrontCommand : Obligations.StepRunsFrontCommand :=
  fun _ _ _ h => step_of_pending h

/-- Settles O2: the idle step is `tick`. -/
theorem emptyQueuePassesOneCycle : Obligations.EmptyQueuePassesOneCycle :=
  fun _ h => step_of_idle h

theorem shape_reset : Shape State.reset where
  dies := rfl
  hbm := rfl
  ports := rfl
  links := rfl
  engines := rfl
  chains := rfl
  paths := rfl
  fetches := rfl
  queues := rfl
  ring := rfl

/-- A list of equal units reads the same at every position, inside it or beyond. -/
theorem getD_replicate_self {α : Type} (n : Nat) (d : α) (k : Nat) : (List.replicate n d).getD k d = d := by
  rw [List.getD_eq_getElem?_getD, List.getElem?_replicate]
  split <;> rfl

theorem chain_reset (k : Nat) : chain State.reset k = {} := getD_replicate_self 16 _ k

theorem die_reset (d : Nat) : die State.reset d = {} := getD_replicate_self 2 _ d

theorem link_reset (p : Nat) : link State.reset p = {} := getD_replicate_self 24 _ p

theorem pathState_reset_unlocked (p : Path) : (pathState State.reset p).unlocked = false := by
  cases p <;> rfl

/-- The entry of a context that nothing has opened spells no more than its format. -/
theorem entry_reset (c : Nat) : (context State.reset c).entry = BitVec.ofNat 2048 0x17 := rfl

/-- A word whose value fits 8 bits spells zero from bit 8 on. -/
theorem bits_mod_of_lt {v n hi : Nat} (h : v < 2 ^ 8) : bits (v % n) hi 8 = 0 := by
  rw [bits, Nat.shiftRight_eq_div_pow, Nat.div_eq_of_lt ((Nat.mod_le v n).trans_lt h), Nat.zero_mod]

theorem ctxState_reset (c : Nat) : ctxState State.reset c = 0 := by
  rw [ctxState, ctxF, entry_reset, BitVec.toNat_ofNat]
  apply bits_mod_of_lt
  decide

/-- Settles O3: every table is empty at reset and every list of units holds units at their defaults. -/
theorem resetLeavesTheTables : Obligations.ResetLeavesTheTables := by
  refine ⟨⟨⟨rfl, shape_reset⟩, rfl, rfl⟩, fun _ => ⟨rfl, rfl⟩, fun _ _ => ⟨rfl, rfl⟩, fun k => ?_, ctxState_reset, fun _ => ⟨rfl, rfl⟩,
    fun _ _ => ⟨rfl, rfl⟩, fun d => ?_, pathState_reset_unlocked, fun p => ?_, fun _ => rfl, rfl, rfl, rfl⟩
  · rw [chain_reset]
  · rw [die_reset]
    exact ⟨rfl, rfl⟩
  · rw [link_reset]

/-! ### What the memory system's bookkeeping leaves as it was, field by field -/

section
variable {s t : State}

theorem Calm.pending (h : Calm s t) : t.pending = s.pending := (congrArg State.pending h.rest :)
theorem Calm.regs (h : Calm s t) : t.regs = s.regs := (congrArg State.regs h.rest :)
theorem Calm.acked (h : Calm s t) : t.acked = s.acked := (congrArg State.acked h.rest :)
theorem Calm.paths (h : Calm s t) : t.paths = s.paths := (congrArg State.paths h.rest :)
theorem Calm.lockNonce (h : Calm s t) : t.lockNonce = s.lockNonce := (congrArg State.lockNonce h.rest :)
theorem Calm.modTable (h : Calm s t) : t.modTable = s.modTable := (congrArg State.modTable h.rest :)
theorem Calm.occupied (h : Calm s t) : t.occupied = s.occupied := (congrArg State.occupied h.rest :)
theorem Calm.chains (h : Calm s t) : t.chains = s.chains := (congrArg State.chains h.rest :)
theorem Calm.streams (h : Calm s t) : t.streams = s.streams := (congrArg State.streams h.rest :)
theorem Calm.engines (h : Calm s t) : t.engines = s.engines := (congrArg State.engines h.rest :)
theorem Calm.seals (h : Calm s t) : t.seals = s.seals := (congrArg State.seals h.rest :)
theorem Calm.imports (h : Calm s t) : t.imports = s.imports := (congrArg State.imports h.rest :)
theorem Calm.envFlight (h : Calm s t) : t.envFlight = s.envFlight := (congrArg State.envFlight h.rest :)
theorem Calm.receipts (h : Calm s t) : t.receipts = s.receipts := (congrArg State.receipts h.rest :)
theorem Calm.normalQ (h : Calm s t) : t.normalQ = s.normalQ := (congrArg State.normalQ h.rest :)
theorem Calm.frames (h : Calm s t) : t.frames = s.frames := (congrArg State.frames h.rest :)
theorem Calm.results (h : Calm s t) : t.results = s.results := (congrArg State.results h.rest :)
theorem Calm.sem (h : Calm s t) : t.sem = s.sem := (congrArg State.sem h.rest :)
theorem Calm.qps (h : Calm s t) : t.qps = s.qps := (congrArg State.qps h.rest :)
theorem Calm.island (h : Calm s t) : t.island = s.island := (congrArg State.island h.rest :)
theorem Calm.fuses (h : Calm s t) : t.fuses = s.fuses := (congrArg State.fuses h.rest :)
theorem Calm.flash (h : Calm s t) : t.flash = s.flash := (congrArg State.flash h.rest :)
theorem Calm.power (h : Calm s t) : t.power = s.power := (congrArg State.power h.rest :)
theorem Calm.sideband (h : Calm s t) : t.sideband = s.sideband := (congrArg State.sideband h.rest :)
theorem Calm.cores (h : Calm s t) : t.cores = s.cores := (congrArg State.cores h.rest :)

end

/-- Settles O11: past the memory system's own bookkeeping, a write is `memWrite` of its bytes. -/
theorem deviceWriteFrame : Obligations.DeviceWriteFrame := by
  intro cls alloc a bs p s t
  have hcalm : Calm { s with mem := memWrite s.mem a bs } t := calm_devWrite cls alloc a bs p s
  have hmem : t.mem = memWrite s.mem a bs := hcalm.mem
  refine ⟨fun b hb => ?_, fun hwf => ⟨?_, ?_⟩, hcalm.regs, hcalm.cores, hcalm.streams, hcalm.seals, hcalm.chains,
    hcalm.pending⟩
  · rw [hmem, memGet_memWrite_out _ _ _ _ hb]
  · rw [hmem]
    exact wf_memWrite bs a hwf
  · rw [devBytes, hmem, memRead_memWrite bs a hwf]

end Sys2Proof.Machine

/-! ## Address generators (R221): the counters as digits of a mixed-radix number -/

namespace Sys2Proof.Machine

/-- The weight of the counter of level l: how many combinations the levels below it have. -/
def genRadix (g : Gen) (l : Nat) : Nat := ((List.range l).map fun m => genExtent g m + 1).prod

/-- What counters spell from level l on. -/
def genDigits (g : Gen) : Nat → List Nat → Nat
  | _, [] => 0
  | l, j :: r => j * genRadix g l + genDigits g (l + 1) r

theorem genRadix_succ (g : Gen) (l : Nat) : genRadix g (l + 1) = genExtent g l * genRadix g l + genRadix g l := by
  rw [genRadix, List.range_succ, List.map_append, List.prod_append, List.map_singleton, List.prod_singleton, ← genRadix]
  ring

theorem genRadix_pos (g : Gen) : ∀ l, 0 < genRadix g l := by
  intro l
  induction l with
  | zero => exact Nat.one_pos
  | succ l ih => rw [genRadix_succ]; omega

theorem genDigits_eq_sum (g : Gen) : ∀ (js : List Nat) (l : Nat),
    genDigits g l js = ((List.range js.length).map fun i => js.getD i 0 * genRadix g (l + i)).sum := by
  intro js
  induction js with
  | nil => intro l; rfl
  | cons j r ih =>
    intro l
    rw [genDigits, ih, List.length_cons, List.range_succ_eq_map, List.map_cons, List.sum_cons, List.map_map]
    simp [Function.comp_def, Nat.add_assoc, Nat.add_comm 1]

theorem length_carry (g : Gen) : ∀ (js : List Nat) (l : Nat), (carry g l js).length = js.length := by
  intro js
  induction js with
  | nil => intro l; rfl
  | cons j r ih =>
    intro l
    rw [carry]
    split
    · rw [List.length_cons, ih, List.length_cons]
    · rfl

/-- One advance adds the weight of the first level; the last combination returns to zero. -/
theorem genDigits_carry (g : Gen) : ∀ (js : List Nat) (l : Nat), (∀ i < js.length, js.getD i 0 ≤ genExtent g (l + i)) →
    genDigits g l js + genRadix g l = genRadix g (l + js.length) ∧ genDigits g l (carry g l js) = 0 ∨
    genDigits g l js + genRadix g l < genRadix g (l + js.length) ∧
      genDigits g l (carry g l js) = genDigits g l js + genRadix g l := by
  intro js
  induction js with
  | nil => intro l _; exact .inl ⟨Nat.zero_add _, rfl⟩
  | cons j r ih =>
    intro l h
    have hj : j ≤ genExtent g l := h 0 (Nat.zero_lt_succ _)
    have hr : ∀ i < r.length, r.getD i 0 ≤ genExtent g (l + 1 + i) := by
      intro i hi
      have := h (i + 1) (Nat.succ_lt_succ hi)
      rwa [List.getD_cons_succ, Nat.add_comm i, ← Nat.add_assoc] at this
    have hsucc := genRadix_succ g l
    have hlen : l + (j :: r).length = l + 1 + r.length := by rw [List.length_cons]; omega
    rw [hlen, carry]
    split
    next hfull =>
      obtain rfl : j = genExtent g l := by omega
      simp only [genDigits, Nat.zero_mul, Nat.zero_add]
      rcases ih (l + 1) hr with ⟨hsum, hzero⟩ | ⟨hsum, hnext⟩
      · exact .inl ⟨by omega, hzero⟩
      · exact .inr ⟨by omega, by omega⟩
    next hroom =>
      have hmul : (j + 1) * genRadix g l ≤ genExtent g l * genRadix g l := Nat.mul_le_mul_right _ (by omega)
      have hexp : (j + 1) * genRadix g l = j * genRadix g l + genRadix g l := Nat.succ_mul _ _
      have hpos := genRadix_pos g l
      simp only [genDigits]
      refine .inr ⟨?_, by omega⟩
      rcases ih (l + 1) hr with ⟨hsum, -⟩ | ⟨hsum, -⟩ <;> omega

/-- The number that the counters of a generator's levels spell. -/
def genNumber (g : Gen) : Nat := ((List.range (genLevels g + 1)).map fun l => g.counters.getD l 0 * genRadix g l).sum

theorem genNumber_eq_digits {g : Gen} {js rest : List Nat} (hc : g.counters = js ++ rest) (hlen : js.length = genLevels g + 1) :
    genNumber g = genDigits g 0 js := by
  rw [genDigits_eq_sum, hlen, genNumber]
  refine congrArg List.sum (List.map_congr_left fun i hi => ?_)
  rw [hc, Nat.zero_add, List.getD_append _ _ _ _ (hlen ▸ List.mem_range.mp hi)]

theorem genStep_affine {g : Gen} (h : genAuto g = false) :
    genStep g = { g with counters := carry g 0 (g.counters.take (genLevels g + 1)) ++ g.counters.drop (genLevels g + 1) } :=
  if_neg (by rw [h]; exact Bool.false_ne_true)

theorem genRadix_congr {g g' : Gen} (h : g'.record = g.record) (l : Nat) : genRadix g' l = genRadix g l := by
  simp only [genRadix, genExtent, h]

theorem genDigits_congr {g g' : Gen} (h : g'.record = g.record) (l : Nat) (js : List Nat) : genDigits g' l js = genDigits g l js := by
  rw [genDigits_eq_sum, genDigits_eq_sum]
  simp only [genRadix_congr h]

theorem genNumber_genStep {g : Gen} (hlen : g.counters.length = 6) (hauto : genAuto g = false)
    (hc : ∀ l < genLevels g + 1, g.counters.getD l 0 ≤ genExtent g l) (hlevels : genLevels g ≤ 5) :
    genNumber (genStep g) = (genNumber g + 1) % genRadix g (genLevels g + 1) := by
  have htake : (g.counters.take (genLevels g + 1)).length = genLevels g + 1 := by rw [List.length_take]; omega
  have hsplit : g.counters = g.counters.take (genLevels g + 1) ++ g.counters.drop (genLevels g + 1) :=
    (List.take_append_drop _ _).symm
  have hdigit : ∀ i < (g.counters.take (genLevels g + 1)).length, (g.counters.take (genLevels g + 1)).getD i 0 ≤ genExtent g (0 + i) := by
    intro i hi
    have := hc i (htake ▸ hi)
    rw [hsplit, List.getD_append _ _ _ _ hi] at this
    rwa [Nat.zero_add]
  have hstep := genStep_affine hauto
  have hnumber : genNumber (genStep g) = genDigits g 0 (carry g 0 (g.counters.take (genLevels g + 1))) := by
    rw [genNumber_eq_digits (g := genStep g) (rest := g.counters.drop (genLevels g + 1)) (js := carry g 0 (g.counters.take (genLevels g + 1)))
      (by rw [hstep]) (by rw [length_carry, htake, hstep]; rfl)]
    exact genDigits_congr (by rw [hstep]) _ _
  have hone : genRadix g 0 = 1 := rfl
  rw [hnumber, genNumber_eq_digits hsplit htake]
  rcases genDigits_carry g _ 0 hdigit with ⟨hsum, hnext⟩ | ⟨hsum, hnext⟩ <;> rw [htake, hone, Nat.zero_add] at hsum
  · rw [hnext, hsum, Nat.mod_self]
  · rw [hnext, hone, Nat.mod_eq_of_lt hsum]

theorem cast_ofSigned (w : Nat) (v : Int) : ((ofSigned w v : Nat) : Int) = v % ((2 ^ w : Nat) : Int) :=
  Int.toNat_of_nonneg (Int.emod_nonneg _ (by exact_mod_cast (Nat.two_pow_pos w).ne'))

theorem ofSigned_lt (w : Nat) (v : Int) : ofSigned w v < 2 ^ w := by
  have h := Int.emod_lt_of_pos v (b := ((2 ^ w : Nat) : Int)) (by exact_mod_cast Nat.two_pow_pos w)
  rw [← cast_ofSigned] at h
  exact_mod_cast h

theorem genAddr_affine {g : Gen} (h : genAuto g = false) : ((genAddr g : Nat) : Int) =
    (((genBase g : Nat) : Int) + ((List.range (genLevels g + 1)).map fun l =>
      ((g.counters.getD l 0 : Nat) : Int) * genStride g l).sum) % ((2 ^ 48 : Nat) : Int) := by
  rw [genAddr, if_neg (by rw [h]; exact Bool.false_ne_true), cast_ofSigned]

theorem genStep_auto_reg {g : Gen} (h : genAuto g = true) : (genStep g).reg = BitVec.ofNat 48
    (if bits g.record.toNat 175 136 = 0 then ofSigned 48 ((g.reg.toNat : Int) + genStride g 0)
     else (genBase g + (((((g.reg.toNat + 2 ^ 48 - genBase g) % 2 ^ 48 : Nat) : Int) + genStride g 0) %
      ((bits g.record.toNat 175 136 : Nat) : Int)).toNat) % 2 ^ 48) :=
  congrArg Gen.reg (if_pos h)

theorem genStep_auto_plain {g : Gen} (h : genAuto g = true) (hwrap : bits g.record.toNat 175 136 = 0) :
    (((genStep g).reg.toNat : Nat) : Int) = ((g.reg.toNat : Nat) + genStride g 0) % ((2 ^ 48 : Nat) : Int) := by
  rw [genStep_auto_reg h, if_pos hwrap, BitVec.toNat_ofNat, Nat.mod_eq_of_lt (ofSigned_lt 48 _), cast_ofSigned]

theorem genStep_auto_wrap {g : Gen} (hbase : genBase g < 2 ^ 48) (h : genAuto g = true) (hwrap : bits g.record.toNat 175 136 ≠ 0) :
    ((((genStep g).reg.toNat + 2 ^ 48 - genBase g) % 2 ^ 48 : Nat) : Int) =
      ((((g.reg.toNat + 2 ^ 48 - genBase g) % 2 ^ 48 : Nat) : Int) + genStride g 0) % ((bits g.record.toNat 175 136 : Nat) : Int) := by
  have hfits : bits g.record.toNat 175 136 < 2 ^ 40 := Nat.mod_lt _ (by decide)
  rw [genStep_auto_reg h, if_neg hwrap, BitVec.toNat_ofNat, Nat.mod_mod]
  generalize bits g.record.toNat 175 136 = w at hwrap hfits ⊢
  generalize (((g.reg.toNat + 2 ^ 48 - genBase g) % 2 ^ 48 : Nat) : Int) + genStride g 0 = v
  have hlow : 0 ≤ v % (w : Int) := Int.emod_nonneg _ (by exact_mod_cast hwrap)
  have hhigh : v % (w : Int) < (w : Int) := Int.emod_lt_of_pos _ (by exact_mod_cast Nat.pos_of_ne_zero hwrap)
  omega

/-- Settles O29: a carry is an addition of one in mixed radix, and an offset is kept modulo WRAP. -/
theorem generatorsAdvance : Obligations.GeneratorsAdvance := by
  intro g hbase hlen
  refine ⟨fun hauto hc hlevels => ⟨?_, genAddr_affine hauto⟩,
    fun hauto => ⟨genStep_auto_plain hauto, fun hwrap _ => genStep_auto_wrap hbase hauto hwrap⟩⟩
  have hnumber := genNumber_genStep hlen hauto hc hlevels
  have hrecord : (genStep g).record = g.record := by rw [genStep_affine hauto]
  simp only [genNumber, genRadix_congr hrecord] at hnumber
  exact hnumber

end Sys2Proof.Machine

/-! ## Writes of scalar entries: which unit answers which entry -/

namespace Sys2Proof.Machine

open Sys2Proof.Safety

/-- The unit of a scalar entry, by the range its index lies in. -/
def scalarW (p : Path) (index sub v : Nat) (s : State) : Nat × State :=
  if index < 0x3800 then unitLowW p index sub v s
  else if index < 0x4000 then unitMidW p index sub v s
  else unitHighW p index sub v s

/-- A write that is admitted and that its unit carries out. -/
theorem unitRow_done {w : Who} {index sub v : Nat} {s t : State} (ho : opens w index sub v s = true)
    (hp : plainEntry index sub = true) (hu : scalarW w.path index sub v (countAccess s) = (0, t)) :
    unitRow w index sub v s = wrote w t := by
  rw [unitRow_plain ho hp]
  exact congrArg (fun r : Nat × State => answer w (r.1, [], lockPath w.path r.2)) hu

/-- A write that is admitted and that its unit refuses. -/
theorem unitRow_refused {w : Who} {index sub v st : Nat} {s t : State} (ho : opens w index sub v s = true)
    (hp : plainEntry index sub = true) (hu : scalarW w.path index sub v (countAccess s) = (st, t)) :
    unitRow w index sub v s = refusedWith w st t := by
  rw [unitRow_plain ho hp]
  exact congrArg (fun r : Nat × State => answer w (r.1, [], lockPath w.path r.2)) hu

theorem scalarW_chainCommand (p : Path) (k : Fin 16) (v : Nat) (s : State) :
    scalarW p (0x3110 + k.val) 2 v s = chainCommandW k.val v s := by
  have hlow : 0x3110 + k.val < 0x3800 := by omega
  rw [scalarW, if_pos hlow, unitLowW_chainCommand]

theorem scalarW_cpCommand (p : Path) (c : Fin 128) (v : Nat) (s : State) :
    scalarW p (0x3680 + c.val) 7 v s = cpCommandW c.val v s := by
  have hlow : 0x3680 + c.val < 0x3800 := by omega
  have hcp : 0x3680 + c.val < 0x3700 := by omega
  have hchain : (0x3680 + c.val) / 16 ≠ 0x311 := by omega
  rw [scalarW, if_pos hlow]
  unfold unitLowW
  split
  case h_5 => simp [hchain, hcp]
  all_goals omega

theorem scalarW_imemReload (p : Path) (c : Fin 128) (v : Nat) (s : State) :
    scalarW p (0x3680 + c.val) 8 v s = imemReloadW c.val v s := by
  have hlow : 0x3680 + c.val < 0x3800 := by omega
  have hcp : 0x3680 + c.val < 0x3700 := by omega
  have hchain : (0x3680 + c.val) / 16 ≠ 0x311 := by omega
  rw [scalarW, if_pos hlow]
  unfold unitLowW
  split
  case h_5 => simp [hchain, hcp]
  all_goals omega

theorem scalarW_tgControl (p : Path) (k : Fin 8) (v : Nat) (s : State) :
    scalarW p (0x3840 + k.val) 8 v s = tgControlW k.val v s := by
  have hlow : ¬ 0x3840 + k.val < 0x3800 := by omega
  have hmid : 0x3840 + k.val < 0x4000 := by omega
  have htg : 0x3840 + k.val < 0x3848 := by omega
  rw [scalarW, if_neg hlow, if_pos hmid]
  unfold unitMidW
  split
  case h_11 => simp [htg]
  all_goals omega

theorem scalarW_ethEntry (p : Path) (k : Fin 2) (sub v : Nat) (s : State) :
    scalarW p (0x3B10 + k.val) sub v s = ethEntryW p k.val sub v s := by
  have hlow : ¬ 0x3B10 + k.val < 0x3800 := by omega
  have hmid : 0x3B10 + k.val < 0x4000 := by omega
  have htg : ¬ 0x3B10 + k.val < 0x3848 := by omega
  have heth : (0x3B10 + k.val) / 16 = 0x3B1 := by omega
  rw [scalarW, if_neg hlow, if_pos hmid]
  unfold unitMidW
  split
  case h_11 => simp [htg, heth]
  all_goals omega

theorem scalarW_linkCommand (p : Path) (k : Fin 24) (v : Nat) (s : State) :
    scalarW p (0x3C10 + k.val) 8 v s = heldW p (linkCommandW k.val v) s := by
  have hlow : ¬ 0x3C10 + k.val < 0x3800 := by omega
  have hmid : 0x3C10 + k.val < 0x4000 := by omega
  have htg : ¬ 0x3C10 + k.val < 0x3848 := by omega
  have heth : (0x3C10 + k.val) / 16 ≠ 0x3B1 := by omega
  rw [scalarW, if_neg hlow, if_pos hmid]
  unfold unitMidW
  split
  case h_11 => simp [htg, heth]
  all_goals omega

theorem scalarW_kexCommand (p q : Path) (v : Nat) (s : State) :
    scalarW p (0x4200 + pathIdx q) 5 v s = kexCommandW p v s := by
  cases q <;> rfl

theorem plainEntry_cpCommand : ∀ c : Fin 128, plainEntry (0x3680 + c.val) 7 = true := by decide
theorem plainEntry_imemReload : ∀ c : Fin 128, plainEntry (0x3680 + c.val) 8 = true := by decide
theorem plainEntry_tgControl : ∀ k : Fin 8, plainEntry (0x3840 + k.val) 8 = true := by decide
theorem plainEntry_ethSpeed : ∀ k : Fin 2, plainEntry (0x3B10 + k.val) 1 = true := by decide
theorem plainEntry_sakLoad : ∀ k : Fin 2, plainEntry (0x3B10 + k.val) 9 = true := by decide
theorem plainEntry_linkCommand : ∀ k : Fin 24, plainEntry (0x3C10 + k.val) 8 = true := by decide
theorem plainEntry_spread : ∀ g : Fin 48, plainEntry 0x3810 (g.val + 1) = true := by decide
theorem plainEntry_kexCommand (p : Path) : plainEntry (0x4200 + pathIdx p) 5 = true := by cases p <;> decide

@[simp] theorem stream_countAccess (s : State) (x c : Nat) : stream (countAccess s) x c = stream s x c := rfl
@[simp] theorem reg_countAccess (s : State) (i k : Nat) : reg (countAccess s) i k = reg s i k := rfl

/-! ## ACTIVATE (R48, R107) -/

theorem chainCommandW_activate_ok {k : Nat} {s : State} (h : (chain s k).state = .empty) (ho : activateOk s k = true) :
    chainCommandW k 1 s = (0, loadCosts k (setChain k (fun x => { x with state := .activating }) s)) := by
  simp [chainCommandW, h, ho]

theorem activateDone_of_activating {k : Nat} {s : State} (h : (chain s k).state = .activating) :
    activateDone k s = setChain k (fun x => { x with state := .active, fp := BitVec.ofNat 32 (chainFp s k) }) s := by
  simp [activateDone, h]

/-- Settles O14: ACTIVATE through the slot's command unit, and the end of the activation. -/
theorem activateTakesTheDescriptor : Obligations.ActivateTakesTheDescriptor := by
  intro w k s
  constructor
  · intro ho hst hok
    have hu := (scalarW_chainCommand w.path k 1 (countAccess s)).trans
      (chainCommandW_activate_ok (by rwa [chain_countAccess]) hok)
    rw [exec_activate_eq, unitRow_done ho (plainEntry_chainCommand k) hu]
  · intro hst
    exact congrArg Host.Outcome.next (activateDone_of_activating hst)

/-! ## The debugger's commands on a stream (R231) -/

theorem cpCommandW_resume (c : Nat) (s : State) :
    let ctx := bits (reg s (0x3680 + c) 1) 11 0
    cpCommandW c 1 s = if (stream s ctx c).skipping = false ∧ (stream s ctx c).mode = .halted
      then (0, resumeStream c ctx s) else (0x16, s) := by
  by_cases hskip : (stream s (bits (reg s (0x3680 + c) 1) 11 0) c).skipping = true <;> simp [cpCommandW, hskip]

theorem cpCommandW_skip (c : Nat) (s : State) :
    let ctx := bits (reg s (0x3680 + c) 1) 11 0
    cpCommandW c 2 s = if (stream s ctx c).skipping = false ∧ (stream s ctx c).mode = .halted
      then (0, skipStream c ctx s) else (0x16, s) := by
  by_cases hskip : (stream s (bits (reg s (0x3680 + c) 1) 11 0) c).skipping = true <;> simp [cpCommandW, hskip]

theorem cpCommandW_halt (c : Nat) (s : State) :
    let ctx := bits (reg s (0x3680 + c) 1) 11 0
    cpCommandW c 3 s = if (stream s ctx c).skipping = false ∧ (stream s ctx c).mode = .running
      then (0, debugHalt c ctx s) else (0x16, s) := by
  by_cases hskip : (stream s (bits (reg s (0x3680 + c) 1) 11 0) c).skipping = true <;> simp [cpCommandW, hskip]

/-- A write that its unit carries out under a condition, and answers BUSY otherwise. -/
theorem unitRow_ite {w : Who} {index sub v : Nat} {s t : State} {p : Prop} [Decidable p] (ho : opens w index sub v s = true)
    (hp : plainEntry index sub = true)
    (hu : scalarW w.path index sub v (countAccess s) = if p then (0, t) else (0x16, countAccess s)) :
    unitRow w index sub v s = if p then wrote w t else refusedWith w 0x16 (countAccess s) := by
  by_cases h : p
  · rw [if_pos h] at hu ⊢
    exact unitRow_done ho hp hu
  · rw [if_neg h] at hu ⊢
    exact unitRow_refused ho hp hu

/-- Settles O28: CP_COMMAND reaches the command processor's unit, whose three commands are the three cases. -/
theorem debuggerCommands : Obligations.DebuggerCommands := by
  intro w c s
  refine ⟨fun ho => ?_, fun ho => ?_, fun ho => ?_⟩
  · exact congrArg Host.Outcome.next (unitRow_ite ho (plainEntry_cpCommand c)
      ((scalarW_cpCommand w.path c 1 _).trans (cpCommandW_resume c.val _)))
  · exact congrArg Host.Outcome.next (unitRow_ite ho (plainEntry_cpCommand c)
      ((scalarW_cpCommand w.path c 2 _).trans (cpCommandW_skip c.val _)))
  · exact congrArg Host.Outcome.next (unitRow_ite ho (plainEntry_cpCommand c)
      ((scalarW_cpCommand w.path c 3 _).trans (cpCommandW_halt c.val _)))

end Sys2Proof.Machine

/-! ## The unlock key (R370) -/

namespace Sys2Proof.Machine

open Sys2Proof.Safety

/-- An admitted write of UNLOCK is the key's own rule: it ends no unlock of the path beside what that rule says. -/
theorem unitRow_unlock {w : Who} {v : Nat} {s : State} (ho : opens w 0x1000 0x10 v s = true) :
    unitRow w 0x1000 0x10 v s = answer w (0, [], (unlockW w.path v (countAccess s)).2) := by
  obtain ⟨e, he⟩ : ∃ e, entryOf 0x1000 0x10 = some e := ⟨_, rfl⟩
  have htype : e.type = .u32 := by cases he; rfl
  simp only [opens, he, Bool.and_eq_true, decide_eq_true_eq] at ho
  obtain ⟨⟨⟨⟨⟨hpower, hperm⟩, havail⟩, -⟩, hv⟩, -⟩ := ho
  have havail' : available (countAccess s) e 0x1000 = true := havail
  have hreach : reachStatus w (countAccess s) e 0x1000 = 0 := by simp [reachStatus, hperm, havail']
  have hlen : ∀ n k, (toLe n k).length = n := fun n k => by
    induction n generalizing k with
    | zero => rfl
    | succ n ih => simp [toLe, ih]
  rw [htype] at hv
  have hof : ofLe (toLe EntryType.u32.bytes v) = v := ofLe_toLe _ _ hv
  have hzero : (unlockW w.path v (countAccess s)).1 = 0 := by unfold unlockW; split <;> rfl
  simp [unitRow, he, htype, hv, dictWrite, served, hpower, writeAccess, travel, hlen, writeEntry, hreach, hof, hzero]

theorem unlockExpiry_eq (p : Path) (s : State) :
    unlockExpiry p s = if (pathState s p).unlocked = true then
      { setPath p (fun x => { x with unlocked := false }) s with lockNonce := s.lockNonce + 1 } else s := rfl

/-- Settles O50: UNLOCK and its expiry, the key and any other value. -/
theorem unlockNeedsTheKey : Obligations.UnlockNeedsTheKey := by
  intro w v s
  refine ⟨fun ho => ?_, fun p => congrArg Host.Outcome.next (unlockExpiry_eq p s)⟩
  have hrow : exec (.unlock w v) s = .next (unitRow w 0x1000 0x10 v.toNat s) := rfl
  have hnonce : (countAccess s).lockNonce = s.lockNonce := rfl
  rw [hrow, unitRow_unlock ho, unlockW, hnonce]
  split <;> rfl

end Sys2Proof.Machine

/-! ## An ended instruction (R216, R217) -/

namespace Sys2Proof.Machine

@[simp] theorem queue_setQueue_self (x : Core) (q : QueueId) (l : List Issued) : queue (setQueue x q l) q = l := by
  cases q <;> rfl

theorem queue_setQueue_of_ne {q q' : QueueId} (h : q' ≠ q) (x : Core) (l : List Issued) :
    queue (setQueue x q l) q' = queue x q' := by
  cases q <;> cases q' <;> simp_all [queue, setQueue]

@[simp] theorem vec_setQueue (x : Core) (q : QueueId) (l : List Issued) : (setQueue x q l).vec = x.vec := by
  cases q <;> rfl

@[simp] theorem imem_setQueue (x : Core) (q : QueueId) (l : List Issued) : (setQueue x q l).imem = x.imem := by
  cases q <;> rfl

@[simp] theorem retiring_setQueue (x : Core) (q : QueueId) (l : List Issued) : (setQueue x q l).retiring = x.retiring := by
  cases q <;> rfl

/-- The bookkeeping of an ended instruction outside its core: the lines it wrote, and the reads it still had out. -/
def forgetWork (c : Nat) (i : Issued) (s : State) : State :=
  { s with
    wrote := []
    wroteFar := []
    reads := s.reads.filter fun r => !(r.core == c && r.ctx == i.ctx && r.serial == i.serial) }

/-- What waits to retire for an instruction that ended without a fault. -/
def endedOk (c : Nat) (i : Issued) (posts : List SealMsg) (s : State) : Ended :=
  { instr := i, faulted := false, repeatsOk := iRepM1 i.word.toNat + 1, dests := openDests s c i.ctx, posts := posts }

theorem endOk_eq (c : Nat) (q : QueueId) (i : Issued) (posts : List SealMsg) (s : State) :
    endOk c q i posts s = setCore c (fun x => { x with retiring := x.retiring ++ [endedOk c i posts s] })
      (popHead c q (forgetWork c i s)) := rfl

theorem core_forgetWork (c : Nat) (i : Issued) (s : State) (d : Nat) : core (forgetWork c i s) d = core s d := rfl

theorem core_endOk_self (c : Nat) (q : QueueId) (i : Issued) (posts : List SealMsg) (s : State) :
    core (endOk c q i posts s) c =
      { setQueue (core s c) q ((queue (core s c) q).drop 1) with
        retiring := (core s c).retiring ++ [endedOk c i posts s] } := by
  simp [endOk_eq, popHead, core_forgetWork]

theorem core_endOk_of_ne {c d : Nat} (h : d ≠ c) (q : QueueId) (i : Issued) (posts : List SealMsg) (s : State) :
    core (endOk c q i posts s) d = core s d := by
  rw [endOk_eq, core_setCore_of_ne h, popHead, core_setCore_of_ne h, core_forgetWork]

theorem queue_withRetiring (x : Core) (l : List Ended) (q : QueueId) : queue { x with retiring := l } q = queue x q := by
  cases q <;> rfl

/-- Settles O30: the core's queue and its retiring list are all that `endOk` writes beside the instruction's bookkeeping. -/
theorem endedInstructionsWait : Obligations.EndedInstructionsWait := by
  intro c q i posts s t
  have hcore : core t c = _ := core_endOk_self c q i posts s
  refine ⟨?_, ?_, fun q' hq => ?_, ?_, ?_, fun d hd => core_endOk_of_ne hd q i posts s, rfl⟩
  · rw [hcore, queue_withRetiring, queue_setQueue_self]
  · rw [hcore]; rfl
  · rw [hcore, queue_withRetiring, queue_setQueue_of_ne hq]
  · rw [hcore]; exact vec_setQueue ..
  · rw [hcore]; exact imem_setQueue ..

end Sys2Proof.Machine

/-! ## The memory system's and the pager's own events (R265, R273, R283, R300 to R302, R433) -/

namespace Sys2Proof.Machine

/-- A scrub while no bank is closed and the device runs: the line is read and checked, and the pass counts. -/
theorem scrubRead_of_running {c b : Nat} {s : State} (hbanks : banksClosed s = false) (hrun : running s = true) :
    let n := (core s c).scrubLine.getD b 0
    scrubRead c b s = setCore c (fun x =>
      let l := x.scrubLine.set b (n + 1)
      { x with scrubLine := l, scrubPasses := BitVec.ofNat 32 (l.foldl (fun m k => min m (k / 2048)) (l.headD 0 / 2048)) })
      ((unitsOf 8 (scrubAddr c b (n % 2048)) 128).foldl (fun s w => spCheck w s) s) := by
  simp [scrubRead, hbanks, hrun]

/-- Settles O36: each of the four events is the model's own function of the state. -/
theorem memoryEvents : Obligations.MemoryEvents :=
  ⟨fun _ _ _ hbanks hrun => congrArg Host.Outcome.next (scrubRead_of_running hbanks hrun),
    fun _ _ _ => rfl, fun _ => rfl, fun _ _ _ => rfl⟩

theorem pageFetchStart_of_ready {s : State} {n : Nat} {m : Miss} (hrun : running s = true)
    (hfree : s.fetches.findIdx? (fun f => f.isNone) = some n) (hmiss : s.misses.find? (missReady s) = some m) :
    pageFetchStart s = takeMiss n m { s with misses := s.misses.filter fun x => !(x == m) } := by
  simp [pageFetchStart, hrun, hfree, hmiss]

theorem pageFetchComplete_data {n : Nat} {b : List Byte} {s : State} {f : Fetch} (hf : s.fetches.getD n none = some f)
    (hlen : b.length = 2 ^ 21) : pageFetchComplete n (.data b) s = installPage n f b (fetchAnswered f s) := by
  unfold pageFetchComplete
  rw [hf]
  exact if_pos hlen

theorem pageFetchComplete_transportError {n : Nat} {s : State} {f : Fetch} (hf : s.fetches.getD n none = some f) :
    pageFetchComplete n .transportError s = retryFetch n f (fetchAnswered f s) := by
  unfold pageFetchComplete
  rw [hf]

theorem pageFetchTimeout_of_fetch {n : Nat} {s : State} {f : Fetch} (hf : s.fetches.getD n none = some f) :
    pageFetchTimeout n s = retryFetch n f s := by
  unfold pageFetchTimeout
  rw [hf]

/-- Settles O41: the pager's start, its three answers, and the tick that ages. -/
theorem pagerFetches : Obligations.PagerFetches := by
  refine ⟨fun s n m hrun hfree hmiss => ?_, fun n b s f hf hlen => ⟨?_, ?_, ?_⟩, fun s => rfl⟩
  · exact congrArg Host.Outcome.next (pageFetchStart_of_ready hrun hfree hmiss)
  · exact congrArg Host.Outcome.next (pageFetchComplete_data hf hlen)
  · exact congrArg Host.Outcome.next (pageFetchComplete_transportError hf)
  · exact congrArg Host.Outcome.next (pageFetchTimeout_of_fetch hf)

end Sys2Proof.Machine

/-! ## DISPATCH, WAIT_MET and INSTRUCTION_RETIRE (R205, R213 to R216, R222) -/

namespace Sys2Proof.Machine

open Sys2Proof.Safety

/-- The stream notes the generation of the block it is read from. -/
def noteBlock (c ctx : Nat) (s : State) : State :=
  match blockOf (core s c) ctx ((stream s ctx c).next.toNat / 256) with
  | some k => setStream ctx c (recordGen ((stream s ctx c).next.toNat / 256) ((core s c).imem.getD k {}).gen) s
  | none => s

theorem attempt_of_word {c ctx w slot : Nat} {s : State} (hmay : mayDispatch s c ctx = true)
    (hnew : (stream s ctx c).fetched = none) (hword : fetchAt (eccReload c ctx s) c ctx = .word w slot) :
    attempt c ctx s = dispatchWord c ctx w slot (noteBlock c ctx (eccReload c ctx s)) := by
  unfold attempt
  rw [if_pos hmay, hnew]
  dsimp only
  rw [hword]
  rfl

theorem dispatchWord_queued {c ctx w slot : Nat} {s : State} {q : QueueId} (hgood : dispatchFault s (stream s ctx c) w = none)
    (hq : queueOf w = some q) (hroom : (queue (core s c) q).length < 8) :
    dispatchWord c ctx w slot s = some (dispatchTo c ctx q (issuedOf s c ctx (stream s ctx c) w slot) s) := by
  simp [dispatchWord, hgood, hq, hroom]

theorem dispatchWord_held {c ctx w slot : Nat} {s : State} (hgood : dispatchFault s (stream s ctx c) w = none)
    (hq : queueOf w = none) :
    dispatchWord c ctx w slot s = some (setCore c (fun x => { x with serial := x.serial + 1 })
      (setStream ctx c (fun t => { t with held := some (issuedOf s c ctx (stream s ctx c) w slot), fetched := none }) s)) := by
  simp [dispatchWord, hgood, hq]

/-- The first slot in the dispatcher's order decides, where its stream can do something. -/
theorem dispatch_of_attempt {c k ctx : Nat} {ks : List Nat} {s t : State} (horder : slotOrder s c = k :: ks)
    (hslot : (core s c).slots.getD k none = some ctx) (hat : attempt c ctx s = some t) :
    dispatch c s = setCore c (fun x => { x with lastSlot := k }) t := by
  rw [dispatch, horder, firstAttempt, hslot]
  dsimp only
  rw [hat]
  rfl

theorem waitMetAt_of_met {c : Nat} {q : QueueId} {s : State} {i : Issued} {w : Nat × Word32} (hrun : running s = true)
    (hhead : headOf s c q = some i) (hwait : i.wait = some w) (hmet : waitMet s w = true) (hstop : stopped s c i.ctx = false) :
    waitMetAt c q s = setHead c q (fun i => { i with started := true }) s := by
  simp [waitMetAt, hhead, hwait, hmet, hrun, hstop]

theorem waitMetCtrl_of_met {c ctx : Nat} {s : State} {i : Issued} {w : Nat × Word32} (hrun : running s = true)
    (hheld : (stream s ctx c).held = some i) (hwait : i.wait = some w) (hmet : waitMet s w = true)
    (hstop : stopped s c ctx = false) :
    waitMetCtrl c ctx s = setStream ctx c (fun t => { t with held := some { i with started := true } }) s := by
  simp [waitMetCtrl, hheld, hwait, hmet, hrun, hstop]

theorem instructionRetire_of_done {c k : Nat} {e : Ended} {s : State}
    (hfind : (core s c).retiring.findIdx? (fun e => burstsDone s c e) = some k) (he : (core s c).retiring[k]? = some e) :
    instructionRetire c s = retireOne c e (setCore c (fun x => { x with retiring := ldrop x.retiring k }) s) := by
  unfold instructionRetire
  rw [hfind]
  dsimp only
  rw [he]

/-- Settles O26: the dispatcher's first attempt, the two places of a wait, and the first ended instruction that may retire. -/
theorem instructionsIssueAndRetire : Obligations.InstructionsIssueAndRetire := by
  refine ⟨?_, fun c s hrun => ⟨?_, ?_, ?_⟩⟩
  · intro c s k ks ctx w slot s1 t horder hslot hmay hnew hword hgood
    have hat : attempt c.val ctx s = dispatchWord c.val ctx w slot s1 := attempt_of_word hmay hnew hword
    exact ⟨fun q hq hroom => congrArg Host.Outcome.next
        (dispatch_of_attempt horder hslot (hat.trans (dispatchWord_queued hgood hq hroom))),
      fun hq => congrArg Host.Outcome.next
        (dispatch_of_attempt horder hslot (hat.trans (dispatchWord_held hgood hq)))⟩
  · intro q i w hhead hwait hmet hstop
    exact congrArg Host.Outcome.next (waitMetAt_of_met hrun hhead hwait hmet hstop)
  · intro ctx i w hheld hwait hmet hstop
    exact congrArg Host.Outcome.next (waitMetCtrl_of_met hrun hheld hwait hmet hstop)
  · intro k e hfind he
    exact congrArg Host.Outcome.next (instructionRetire_of_done hfind he)

end Sys2Proof.Machine

/-! ## The CTRL instructions (Table 10.7, R224 to R226) -/

namespace Sys2Proof.Machine

open Sys2Proof.Safety

theorem ctrlRow_of_held {c ctx op : Nat} {s : State} {i : Issued} (h : heldCtrl s c ctx op = some i)
    (f : Issued → State → State) : ctrlRow c ctx op f s = f i s := by
  simp [ctrlRow, h]

theorem ctrlAgSet_of_read {c ctx v : Nat} {s s1 : State} {i : Issued} (h : heldCtrl s c ctx 1 = some i)
    (halign : bits i.word.toNat 47 0 % 64 = 0)
    (hread : runFrom [] false (loadWord { core := c, ctx := ctx, unit := .cp, failed := i.pageFault }
      (bits i.word.toNat 47 0) 64) s = .ok v s1) (hgood : genFault v = none) :
    ctrlAgSet c ctx s = setStream ctx c (fun t => { t with
      gens := lmod t.gens (bits i.word.toNat 51 49) fun _ => genReset { isSet := true, record := BitVec.ofNat 512 v } })
      (ctrlDone c ctx i s1) := by
  rw [ctrlAgSet, ctrlRow_of_held h]
  dsimp only
  rw [if_neg (by simp [halign]), hread]
  dsimp only
  rw [hgood]

theorem ctrlSealBind_of_known {c ctx p : Nat} {s : State} {i : Issued} (h : heldCtrl s c ctx 4 = some i)
    (hp : sealOf s ctx (bits i.word.toNat 47 32) = some p) :
    ctrlSealBind c ctx s = setStream ctx c (fun t => { t with slots := lmod t.slots (bits i.word.toNat 55 52) fun _ =>
      { sealId := BitVec.ofNat 16 (bits i.word.toNat 47 32)
        bound := some { phys := p, gen := (sealAt s p).gen, proxy := (sealAt s p).remote.isSome,
                        sealId := BitVec.ofNat 16 (bits i.word.toNat 47 32) }
        target := BitVec.ofNat 32 (bits i.word.toNat 31 0) } }) (ctrlDone c ctx i s) := by
  rw [ctrlSealBind, ctrlRow_of_held h]
  dsimp only
  rw [hp]

theorem ctrlFence_of_idle {c ctx : Nat} {s : State} {i : Issued} (h : heldCtrl s c ctx 0xC = some i)
    (hidle : (stream s ctx c).inflight = []) : ctrlFence c ctx s = ctrlDone c ctx i s := by
  rw [ctrlFence, ctrlRow_of_held h]
  simp [hidle]

theorem ctrlEnd_of_outside {c ctx : Nat} {s : State} {i : Issued} (h : heldCtrl s c ctx 0xE = some i)
    (hout : (stream s ctx c).loops = []) :
    ctrlEnd c ctx s = setStream ctx c (fun t => { t with ended := true }) (ctrlDone c ctx i s) := by
  rw [ctrlEnd, ctrlRow_of_held h]
  simp [hout]

theorem ctrlLoop_of_pins {c ctx : Nat} {s : State} {i : Issued} (h : heldCtrl s c ctx 8 = some i)
    (hgood : loopBad (stream s ctx c) i = false) (hhead : 0 < sdiff32 (stream s ctx c).head.toNat (loopLast i).toNat)
    (hfirst : (core s c).pinWaits = []) (hfits : pinFits s c ctx i = true) : ctrlLoop c ctx s = startLoop c ctx i s := by
  rw [ctrlLoop, ctrlRow_of_held h]
  simp [hgood, not_le.mpr hhead, hfirst, hfits]

theorem loopPin_of_fit {c ctx : Nat} {rest : List Nat} {s : State} {i : Issued} (hturn : (core s c).pinWaits = ctx :: rest)
    (h : heldCtrl s c ctx 8 = some i) (hfits : pinFits s c ctx i = true) :
    loopPin c s = startLoop c ctx i (setCore c (fun x => { x with pinWaits := x.pinWaits.drop 1 }) s) := by
  unfold loopPin
  rw [hturn]
  dsimp only
  rw [h]
  exact if_pos hfits

theorem streamFinish_of_ended {c ctx : Nat} {s : State} (hend : (stream s ctx c).ended = true)
    (hidle : (stream s ctx c).inflight = []) (hrun : (stream s ctx c).mode = .running) :
    streamFinish c ctx s = closeMailboxes false c ctx 1 (bumpE 0x3600 5 (writeBack c ctx
      (setStream ctx c (fun t => { t with mode := .finished }) s))) := by
  simp [streamFinish, hend, hidle, hrun]

/-- Settles O27: each CTRL instruction held in its place has the effect of its row of Table 10.7. -/
theorem controlInstructions : Obligations.ControlInstructions := by
  refine ⟨fun c ctx s i => ⟨fun h => ?_, fun v s1 h ha hr hg => ?_, fun h => ?_, fun p h hp => ?_, fun h hf => ?_, fun h => ?_,
    fun h hl => ?_, fun h => ?_⟩, fun c ctx s => ⟨fun i h hb hh hp hf => ?_, fun i rest hw h hf => ?_, fun he hi hm => ?_⟩⟩
  · exact congrArg Host.Outcome.next (ctrlRow_of_held h _)
  · exact congrArg Host.Outcome.next (ctrlAgSet_of_read h ha hr hg)
  · exact congrArg Host.Outcome.next (ctrlRow_of_held h _)
  · exact congrArg Host.Outcome.next (ctrlSealBind_of_known h hp)
  · exact congrArg Host.Outcome.next (ctrlFence_of_idle h hf)
  · exact congrArg Host.Outcome.next (ctrlRow_of_held h _)
  · exact congrArg Host.Outcome.next (ctrlEnd_of_outside h hl)
  · exact congrArg Host.Outcome.next (ctrlRow_of_held h _)
  · exact congrArg Host.Outcome.next (ctrlLoop_of_pins h hb hh hp hf)
  · exact congrArg Host.Outcome.next (loopPin_of_fit hw h hf)
  · exact congrArg Host.Outcome.next (streamFinish_of_ended he hi hm)

end Sys2Proof.Machine

/-! ## Blocks of instruction memory (R210, R211) -/

namespace Sys2Proof.Machine

open Sys2Proof.Safety

theorem blockLoad_extend {c ctx rb k : Nat} {s s1 : State} {ws : List Nat} {ms : List Bool} (hslot : inSlot s c ctx = true)
    (hrun : running s = true) (hstop : stopped s c ctx = false) (hmode : (stream s ctx c).mode = .running)
    (hwant : wantedBlock s c ctx = some rb) (hread : readFailed (stream s ctx c) rb = false)
    (hheld : blockOf (core s c) ctx rb = some k)
    (hwords : ringWords c ctx rb ((core s c).imem.getD k {}).fill s = (some (ws, ms), s1))
    (hstill : blockOf (core s1 c) ctx rb = some k) :
    blockLoad c ctx s = setBlock c k (fillBlock ((core s c).imem.getD k {}).fill ws ms) s1 := by
  have hfrom : loadFrom s c ctx rb = ((core s c).imem.getD k {}).fill := by simp only [loadFrom, hheld]
  unfold blockLoad
  rw [if_pos (by simp [hslot, hrun, hstop, hmode]), hwant]
  dsimp only
  rw [hheld, hfrom, hread, if_pos (by simp), hwords]
  dsimp only
  rw [if_pos (by simp), hstill]

theorem blockLoad_take {c ctx rb k : Nat} {s s1 : State} {ws : List Nat} {ms : List Bool} (hslot : inSlot s c ctx = true)
    (hrun : running s = true) (hstop : stopped s c ctx = false) (hmode : (stream s ctx c).mode = .running)
    (hwant : wantedBlock s c ctx = some rb) (hread : readFailed (stream s ctx c) rb = false)
    (hnew : blockOf (core s c) ctx rb = none) (htake : mayTake s c ctx = true)
    (hwords : ringWords c ctx rb 0 s = (some (ws, ms), s1))
    (hthere : blockOf (core (takeBlock c ctx rb s1) c) ctx rb = some k) :
    blockLoad c ctx s = setBlock c k (fillBlock 0 ws ms) (takeBlock c ctx rb s1) := by
  have hfrom : loadFrom s c ctx rb = 0 := by simp only [loadFrom, hnew]
  unfold blockLoad
  rw [if_pos (by simp [hslot, hrun, hstop, hmode]), hwant]
  dsimp only
  rw [hnew, hfrom, hread, htake, if_pos (by simp), hwords]
  dsimp only
  rw [if_neg (by simp), hthere]

theorem reloadBlock_of_words {c ctx rb k : Nat} {s s1 : State} {ws : List Nat} {ms : List Bool}
    (hheld : blockOf (core s c) ctx rb = some k) (hwords : ringWords c ctx rb 0 s = (some (ws, ms), s1)) :
    reloadBlock c ctx rb s =
      setBlock c k (fun b => fillBlock 0 ws ms { ctx := some ctx, ringBlock := rb, gen := b.gen + 1 }) s1 := by
  unfold reloadBlock
  rw [hheld]
  dsimp only
  rw [hwords]

theorem reloadHeldDone_of_ready {c : Nat} {s : State} {r : HeldReload}
    (h : (core s c).reload.find? (fun r => reloadReady s c r) = some r) : reloadHeldDone c s = carryReload c r s := by
  unfold reloadHeldDone
  rw [h]

/-- The word of an IMEM_RELOAD: the context, the force bit and the ring block. -/
theorem imemReloadW_eq {c ctx rb : Nat} (force : Bool) (hctx : ctx < 4096) (hrb : rb < 2 ^ 24) (s : State) :
    let r : HeldReload := { ctx := ctx, ringBlock := rb, force := force }
    reloadAbsent s c r = none →
    imemReloadW c (ctx * 2 ^ 48 + b2n force * 2 ^ 40 + rb) s = (0, if force = true ∨ occupied s c ctx rb = false then carryReload c r s
      else setReloadState c 1 (setCore c (fun x => { x with reload := x.reload ++ [r] }) s)) := by
  intro r habsent
  have hforce : b2n force < 2 := by cases force <;> decide
  have hc : bits (ctx * 2 ^ 48 + b2n force * 2 ^ 40 + rb) 59 48 = ctx := by
    rw [bits, Nat.shiftRight_eq_div_pow]; omega
  have hb : bits (ctx * 2 ^ 48 + b2n force * 2 ^ 40 + rb) 23 0 = rb := by
    rw [bits, Nat.shiftRight_eq_div_pow]; omega
  have hf : bit (ctx * 2 ^ 48 + b2n force * 2 ^ 40 + rb) 40 = force := by
    have hdiv : (ctx * 2 ^ 48 + b2n force * 2 ^ 40 + rb) / 2 ^ 40 % 2 = b2n force := by omega
    rw [bit, Nat.testBit_eq_decide_div_mod_eq, hdiv]
    cases force <;> rfl
  unfold imemReloadW
  rw [hc, hb, hf]
  have hready : reloadReady s c r = (force || !(occupied s c ctx rb)) := by simp [reloadReady, habsent, r]
  dsimp only
  rw [hready, habsent]
  cases force <;> cases occupied s c ctx rb <;> rfl

/-- Settles O25: the loader's two cases, a reload now or held, and the reload of one block. -/
theorem blocksAreHeld : Obligations.BlocksAreHeld := by
  refine ⟨?_, ?_, fun c s r h => congrArg Host.Outcome.next (reloadHeldDone_of_ready h),
    fun c ctx rb k s s1 ws ms hheld hwords => reloadBlock_of_words hheld hwords⟩
  · intro c ctx s s1 rb k ws ms hslot hrun hstop hmode hwant hread
    exact ⟨fun hheld hwords hstill => congrArg Host.Outcome.next
        (blockLoad_extend hslot hrun hstop hmode hwant hread hheld hwords hstill),
      fun hnew htake hwords hthere => congrArg Host.Outcome.next
        (blockLoad_take hslot hrun hstop hmode hwant hread hnew htake hwords hthere)⟩
  · intro w c ctx rb s u r habsent
    have hunit := fun (force : Bool) => imemReloadW_eq (c := c.val) force ctx.isLt rb.isLt u
    constructor
    · intro ho
      have hu := (scalarW_imemReload w.path c _ u).trans (hunit false habsent)
      rw [show ctx.val * 2 ^ 48 + b2n false * 2 ^ 40 + rb.toNat = ctx.val * 2 ^ 48 + rb.toNat by simp [b2n]] at hu
      refine congrArg Host.Outcome.next ((unitRow_done ho (plainEntry_imemReload c) hu).trans ?_)
      simp only [Bool.false_eq_true, false_or]
      rfl
    · intro ho
      have hu := (scalarW_imemReload w.path c _ u).trans (hunit true habsent)
      exact congrArg Host.Outcome.next (unitRow_done ho (plainEntry_imemReload c) hu)

end Sys2Proof.Machine

/-! ## Stamps and seal updates (R250 to R257) -/

namespace Sys2Proof.Machine

open Sys2Proof.Safety

theorem stampGrant_of_stock {d : Nat} {s : State} {w : StampWait} {rest : List StampWait}
    (hwait : (core s d).poolWaits = w :: rest) (hstock : w.count ≤ (core s d).pool) (hlocal : w.core < 128) :
    stampGrant d s = finishGrant w.core w.ctx (moduleOf s) d w.count
      (setCore d (fun x => { x with pool := x.pool - w.count, poolWaits := x.poolWaits.drop 1 }) s) := by
  unfold stampGrant
  rw [hwait]
  dsimp only
  rw [if_pos hstock, if_pos hlocal]
  rfl

theorem remoteBurstWrite_of_pieces {n : Nat} {s : State} {b : RemoteBurst} {ps : List (Nat × Nat)} (hb : s.bursts[n]? = some b)
    (hfirst : burstBehind s n b = false) (hwrite : b.op ≠ 2) (hps : unitPieces s b.ctx true b.addr b.data.length = some ps)
    (hawake : banksClosed s = false ∨ isSp b.addr = false) :
    remoteBurstWrite n s = burstAnswer b 0 (burstApply ps b { s with bursts := ldrop s.bursts n }) := by
  have hsleep : (banksClosed s && isSp b.addr) = false := by
    cases hawake <;> simp [*]
  unfold remoteBurstWrite
  rw [hb]
  dsimp only
  rw [hfirst, if_neg (by simp), if_neg hwrite, hps]
  dsimp only
  rw [hsleep]
  rfl

theorem stampReturn_of_back {n : Nat} {s : State} {b : StampBack} (hb : s.stampsBack[n]? = some b) :
    stampReturn n s =
      flushOwed (stampsHome b.core b.ctx b.module b.dest b.count { s with stampsBack := ldrop s.stampsBack n }) := by
  unfold stampReturn
  rw [hb]

/-- Settles O34: a grant, a write from another module and the return of stamps. -/
theorem stampsTravel : Obligations.StampsTravel :=
  ⟨fun _ _ _ _ hwait hstock hlocal => congrArg Host.Outcome.next (stampGrant_of_stock hwait hstock hlocal),
    fun _ _ _ _ hb hfirst hwrite hps hawake =>
      congrArg Host.Outcome.next (remoteBurstWrite_of_pieces hb hfirst hwrite hps hawake),
    fun _ _ _ hb => congrArg Host.Outcome.next (stampReturn_of_back hb)⟩

/-! ### Seal updates -/

theorem sealUpdate_bound {n : Nat} {s : State} {m : SealMsg} (hm : s.sealFlight[n]? = some m)
    (howner : (sealAt s m.phys).owner.isSome = true) (hgen : (sealAt s m.phys).gen = m.gen)
    (hlocal : (sealAt s m.phys).remote = none) :
    sealUpdate n s = sealApply m.phys m.amount.toNat { s with sealFlight := ldrop s.sealFlight n } := by
  have hat : sealAt { s with sealFlight := ldrop s.sealFlight n } m.phys = sealAt s m.phys := rfl
  have hlive : ¬ ((sealAt s m.phys).owner.isNone = true ∨ (sealAt s m.phys).gen ≠ m.gen) := by
    rintro (h | h)
    · rw [Option.isNone_iff_eq_none] at h; simp [h] at howner
    · exact h hgen
  unfold sealUpdate
  rw [hm]
  dsimp only
  rw [hat, if_neg hlive, hlocal]

theorem sealUpdate_import {n : Nat} {s : State} {m : SealMsg} {v : Word32} {rp : Nat} {rg : BitVec 8} (hm : s.sealFlight[n]? = some m)
    (howner : (sealAt s m.phys).owner.isSome = true) (hgen : (sealAt s m.phys).gen = m.gen)
    (hremote : (sealAt s m.phys).remote = some (v, rp, rg)) :
    sealUpdate n s = routeTo (bits v.toNat 31 17) {
      type := 5, dst := 0, ctx := m.ctx, addr := rp,
      label := m.amount.toNat + rg.toNat * 2 ^ 32 + bits v.toNat 31 17 * 2 ^ 40 } { s with sealFlight := ldrop s.sealFlight n } := by
  have hat : sealAt { s with sealFlight := ldrop s.sealFlight n } m.phys = sealAt s m.phys := rfl
  have hlive : ¬ ((sealAt s m.phys).owner.isNone = true ∨ (sealAt s m.phys).gen ≠ m.gen) := by
    rintro (h | h)
    · rw [Option.isNone_iff_eq_none] at h; simp [h] at howner
    · exact h hgen
  unfold sealUpdate
  rw [hm]
  dsimp only
  rw [hat, if_neg hlive, hremote]

theorem sealUpdate_stale {n : Nat} {s : State} {m : SealMsg} (hm : s.sealFlight[n]? = some m)
    (hstale : (sealAt s m.phys).owner = none ∨ (sealAt s m.phys).gen ≠ m.gen) :
    sealUpdate n s = sealStale m { s with sealFlight := ldrop s.sealFlight n } := by
  have hat : sealAt { s with sealFlight := ldrop s.sealFlight n } m.phys = sealAt s m.phys := rfl
  have hdead : (sealAt s m.phys).owner.isNone = true ∨ (sealAt s m.phys).gen ≠ m.gen := by
    rwa [Option.isNone_iff_eq_none]
  unfold sealUpdate
  rw [hm]
  dsimp only
  rw [hat, if_pos hdead]

theorem sealAt_trace (d : Nat) (r : TraceRec) (s : State) (p : Nat) : sealAt (trace d r s) p = sealAt s p := by
  simp [sealAt]

/-- An applied addition: the count moves modulo 2^32. -/
theorem count_sealApply (p : Nat) (a : Word32) (s : State) :
    (sealAt (sealApply p a.toNat s) p).count = (sealAt s p).count + a := by
  rw [sealApply, sealAt_trace, sealAt_setSeal_self]
  apply BitVec.eq_of_toNat_eq
  simp [BitVec.toNat_add]

theorem seals_sealStale (m : SealMsg) (s : State) : (sealStale m s).seals = s.seals := by
  simp [sealStale]

/-- An import's answer that names a seal binds the proxy and ends the instruction that waited. -/
theorem sealImportResponse_of_answer {c rp : Nat} {rg : BitVec 8} {s : State} {w : ImportWait} {i : Issued}
    (hfind : s.imports.find? (fun w => w.core == c) = some w) (hwait : waitingHead s c w.ctx 0x1A = some i)
    (hfree : sealOf s w.ctx w.sealId.toNat = none) :
    let u := { s with imports := s.imports.filter fun x => x != w }
    let v := setSeal w.phys (fun x => { x with owner := some w.ctx, sealId := w.sealId, count := 0, remote := some (w.value, rp, rg) }) u
    sealImportResponse c (some (rp, rg.toNat)) s = msgRepeatDone c i (setCtxF w.ctx 92 80 (ctxSealsUsed v w.ctx + 1) v) := by
  have hcore : w.core = c := by
    have h := List.find?_some hfind
    exact beq_iff_eq.mp h
  subst hcore
  intro u v
  have hwait' : waitingHead (setCtxF w.ctx 92 80 (ctxSealsUsed v w.ctx + 1) v) w.core w.ctx 0x1A = some i := hwait
  have hfree' : sealOf u w.ctx w.sealId.toNat = none := hfree
  unfold sealImportResponse importResponse
  rw [hfind]
  dsimp only
  rw [hfree', if_neg (by simp), BitVec.ofNat_toNat, BitVec.setWidth_eq]
  exact (congrArg (fun o => match o with
    | some i => msgRepeatDone w.core i (setCtxF w.ctx 92 80 (ctxSealsUsed v w.ctx + 1) v)
    | none => markAnswered w.core w.ctx 0x1A 2 (setCtxF w.ctx 92 80 (ctxSealsUsed v w.ctx + 1) v)) hwait')

theorem sealDbgSet_of_local {path : Path} {v p : Nat} {s : State}
    (hp : sealOf s (bits (reg s 0x3700 8) 27 16) (bits (reg s 0x3700 8) 15 0) = some p) (hlocal : (sealAt s p).remote = none) :
    sealDbgSet path v s = (0, stageRec (p / 2048)
      { unit := .seals, reason := .sealForced, ctx := bits (reg s 0x3700 8) 27 16,
        detail := sealDetail (sealAt s p).sealId.toNat p (sealAt s p).gen.toNat false (pathIdx path) }
      (sealApply p 0 (setSeal p (fun x => { x with count := BitVec.ofNat 32 v }) (setReg 0x3700 0xA v s)))) := by
  unfold sealDbgSet
  dsimp only
  rw [hp]
  dsimp only
  rw [hlocal]
  rfl

/-- Settles O35: an update by its seal's state, an import's answer, and the debugger's set. -/
theorem sealsAreSignalled : Obligations.SealsAreSignalled := by
  refine ⟨fun n s m hm => ⟨fun ho hg hr => ⟨_, congrArg Host.Outcome.next (sealUpdate_bound hm ho hg hr), rfl, fun _ => ?_⟩,
    fun v rp rg ho hg hr => congrArg Host.Outcome.next (sealUpdate_import hm ho hg hr),
    fun hs => ⟨_, congrArg Host.Outcome.next (sealUpdate_stale hm hs), rfl, seals_sealStale ..⟩⟩, ?_, ?_⟩
  · exact count_sealApply ..
  · intro c rp rg s w i u v hfind hwait hfree
    exact congrArg Host.Outcome.next (sealImportResponse_of_answer hfind hwait hfree)
  · intro w v s p u sel ho hp hr
    have hu : scalarW w.path 0x3700 0xA v.toNat u = sealDbgSet w.path v.toNat u := rfl
    exact congrArg Host.Outcome.next (unitRow_done ho (by decide) (hu.trans (sealDbgSet_of_local hp hr)))

end Sys2Proof.Machine

/-! ## The memory system's entries (R270, R275, R277, R286, R288) -/

namespace Sys2Proof.Machine

open Sys2Proof.Safety

theorem pinWaysW_eq {v : Nat} (h0 : bits v 3 0 ≤ 12) (h1 : bits v 7 4 ≤ 12) (s : State) :
    pinWaysW v s = if s.dies.any (fun d => d.pinnedJob) = true then (0x16, s) else
      (0, [0, 1].foldl (fun s d => trimSets d (16 - pinWays s d) (die s d).cache.length s) (setReg 0x3800 2 v s)) := by
  have hrange : ¬ (12 < bits v 3 0 ∨ 12 < bits v 7 4) := by omega
  rw [pinWaysW, if_neg hrange]

theorem bwSplitW_eq {p : Path} {v : Nat} (htop : bit v 15 = false) (h0 : 0 < bits v 4 0) (h1 : 0 < bits v 9 5)
    (h2 : 0 < bits v 14 10) (hsum : bits v 4 0 + bits v 9 5 + bits v 14 10 = 20) (s : State) :
    bwSplitW p v s = if s.opened = false ∧ s.sem.holder = some p then (0, setReg 0x3800 1 v s) else (0x16, s) := by
  have h15 : bits v 15 15 = 0 := by
    rw [bit, Nat.testBit_eq_decide_div_mod_eq, decide_eq_false_iff_not] at htop
    rw [bits, Nat.shiftRight_eq_div_pow]
    omega
  have hgood : (bits v 15 15 != 0 || bits v 4 0 == 0 || bits v 9 5 == 0 || bits v 14 10 == 0 ||
      bits v 4 0 + bits v 9 5 + bits v 14 10 != 20) = false := by
    simp only [h15, hsum, bne_self_eq_false, Bool.or_false, Bool.false_or, Bool.or_eq_false_iff, beq_eq_false_iff_ne]
    omega
  unfold bwSplitW
  dsimp only
  rw [hgood, if_neg (by simp)]
  by_cases hopen : s.opened = true <;> by_cases hsem : s.sem.holder = some p <;> simp [hopen, hsem, holdsSem]

theorem spreadW_eq {g v : Nat} (hv : v ≤ 2) (s : State) :
    spreadW g v s = if g = 0 ∨ s.frames.any (fun f => f / 4096 == g) = true then (0x16, s) else (0, setReg 0x3810 (g + 1) v s) := by
  rw [spreadW, if_neg (by omega)]

/-- A write that its unit refuses with BUSY under a condition, and carries out otherwise. -/
theorem unitRow_ite_busy {w : Who} {index sub v : Nat} {s t : State} {p : Prop} [Decidable p] (ho : opens w index sub v s = true)
    (hp : plainEntry index sub = true)
    (hu : scalarW w.path index sub v (countAccess s) = if p then (0x16, countAccess s) else (0, t)) :
    unitRow w index sub v s = if p then refusedWith w 0x16 (countAccess s) else wrote w t := by
  by_cases h : p
  · rw [if_pos h] at hu ⊢
    exact unitRow_refused ho hp hu
  · rw [if_neg h] at hu ⊢
    exact unitRow_done ho hp hu

theorem scalarW_spread (p : Path) (g v : Nat) (s : State) : scalarW p 0x3810 (g + 1) v s = spreadW g v s := by
  simp [scalarW, unitMidW]

/-! ### The traffic generator (R286) -/

/-- The operation of a TG_CONTROL word takes its place, and the other fields stay. -/
theorem bits_setBits_op {v n : Nat} (hn : n < 16) : bits (setBits v 3 0 n) 3 0 = n := by
  simp only [bits, setBits, Nat.shiftRight_eq_div_pow]
  omega

theorem bits_setBits_high {v n hi lo : Nat} (hlo : 4 ≤ lo) : bits (setBits v 3 0 n) hi lo = bits v hi lo := by
  obtain ⟨k, rfl⟩ := Nat.exists_eq_add_of_le hlo
  have h : setBits v 3 0 n / 2 ^ 4 = v / 2 ^ 4 := by
    simp only [bits, setBits, Nat.shiftRight_eq_div_pow]
    omega
  simp only [bits, Nat.shiftRight_eq_div_pow, Nat.pow_add, ← Nat.div_div_eq_div_mul, h]

theorem tgOk_setBits {v n : Nat} (h1 : 1 ≤ n) (h4 : n ≤ 4) (hmode : bits v 7 4 ≤ 3) (hrest : bits v 31 9 = 0) :
    tgOk (setBits v 3 0 n) = true := by
  have hn : n < 16 := by omega
  simp [tgOk, bits_setBits_op hn, bits_setBits_high, h1, h4, hmode, hrest]

section
variable {k v : Nat} {s : State} (hmode : bits v 7 4 ≤ 3) (hrest : bits v 31 9 = 0)
include hmode hrest

theorem tgControlW_start (htest : (stack s k).state = 1) : tgControlW k (setBits v 3 0 1) s =
    (0, setReg (0x3840 + k) 8 (setBits v 3 0 1) (tgStart k (setBits v 3 0 1) s)) := by
  simp [tgControlW, tgOk_setBits (le_refl 1) (by decide) hmode hrest, bits_setBits_op, htest]

theorem tgControlW_stop (htest : (stack s k).state = 1) : tgControlW k (setBits v 3 0 2) s =
    (0, setReg (0x3840 + k) 8 (setBits v 3 0 2) (tgStop k s)) := by
  simp [tgControlW, tgOk_setBits (n := 2) (by decide) (by decide) hmode hrest, bits_setBits_op, htest]

theorem tgControlW_enter (hfree : s.frames.any (frameOnStack s k) = false) : tgControlW k (setBits v 3 0 3) s =
    (0, setReg (0x3840 + k) 8 (setBits v 3 0 3) (setStack k (fun x => { x with state := 1 }) s)) := by
  unfold tgControlW
  rw [tgOk_setBits (n := 3) (by decide) (by decide) hmode hrest, bits_setBits_op (by decide)]
  dsimp only
  rw [hfree]
  rfl

theorem tgControlW_leave (htest : (stack s k).state = 1) : tgControlW k (setBits v 3 0 4) s =
    (0, setReg (0x3840 + k) 8 (setBits v 3 0 4)
      (setStack k (fun x => { x with state := 0, tgOn := false }) (scrambleStack k (2 ^ 32 - 1) s))) := by
  unfold tgControlW
  rw [tgOk_setBits (n := 4) (by decide) (by decide) hmode hrest, bits_setBits_op (by decide)]
  dsimp only
  rw [htest]
  rfl
end

theorem tgStart_setBits {k v : Nat} (s : State) : tgStart k (setBits v 3 0 1) s =
    setStack k (fun x => { x with tgOn := true }) (if bits v 7 4 = 1 then s else scrambleStack k (bits v 63 32) s) := by
  rw [tgStart, bits_setBits_high (by decide), bits_setBits_high (by decide)]

theorem tgStop_eq (k : Nat) (s : State) :
    let old := reg s (0x3840 + k) 8
    let d := draw s
    let d' := draw d.2
    let d'' := draw d'.2
    let off := setStack k (fun x => { x with tgOn := false }) d''.2
    let found := setStack k (fun x => { x with tgResult := BitVec.ofNat 64 d.1, tgFail := BitVec.ofNat 64 d'.1 }) off
    tgStop k s = if (stack s k).tgOn = false then s else if bits old 7 4 = 2 then off
      else if bits old 8 8 = 1 then found else bumpN (0x3840 + k) 3 (d''.1 % 2 ^ 32) found := by
  intro old d d' d'' off found
  unfold tgStop
  cases (stack s k).tgOn <;> rfl

@[simp] theorem stack_countAccess (s : State) (k : Nat) : stack (countAccess s) k = stack s k := rfl

/-- Settles O37: the three entries of the memory system, and the four operations of the traffic generator. -/
theorem memoryCommands : Obligations.MemoryCommands := by
  refine ⟨fun w s => ⟨fun v ho h0 h1 => ?_, fun v ho ht h0 h1 h2 hs => ?_, fun g v ho hv => ?_⟩,
    fun w k v s hmode hrest => ⟨fun ho hfree => ?_, fun htest => ⟨fun ho => ?_, fun ho => ?_, fun ho => ?_⟩⟩⟩
  · have hu : scalarW w.path 0x3800 2 v.toNat (countAccess s) = pinWaysW v.toNat (countAccess s) := rfl
    exact congrArg Host.Outcome.next (unitRow_ite_busy ho (by decide) (hu.trans (pinWaysW_eq h0 h1 _)))
  · have hu : scalarW w.path 0x3800 1 v.toNat (countAccess s) = bwSplitW w.path v.toNat (countAccess s) := rfl
    exact congrArg Host.Outcome.next (unitRow_ite ho (by decide) (hu.trans (bwSplitW_eq ht h0 h1 h2 hs _)))
  · exact congrArg Host.Outcome.next
      (unitRow_ite_busy ho (plainEntry_spread g) ((scalarW_spread w.path g.val v.toNat _).trans (spreadW_eq hv _)))
  · exact congrArg Host.Outcome.next (unitRow_done ho (plainEntry_tgControl k)
      ((scalarW_tgControl w.path k _ _).trans (tgControlW_enter hmode hrest hfree)))
  · have hu := (scalarW_tgControl w.path k _ (countAccess s)).trans (tgControlW_start hmode hrest (by rwa [stack_countAccess]))
    rw [tgStart_setBits] at hu
    exact congrArg Host.Outcome.next (unitRow_done ho (plainEntry_tgControl k) hu)
  · have hu := (scalarW_tgControl w.path k _ (countAccess s)).trans (tgControlW_stop hmode hrest (by rwa [stack_countAccess]))
    rw [tgStop_eq] at hu
    exact congrArg Host.Outcome.next (unitRow_done ho (plainEntry_tgControl k) hu)
  · exact congrArg Host.Outcome.next (unitRow_done ho (plainEntry_tgControl k)
      ((scalarW_tgControl w.path k _ _).trans (tgControlW_leave hmode hrest (by rwa [stack_countAccess]))))

end Sys2Proof.Machine

/-! ## Commands of contexts (Table 13.3, R289, R291 to R297, R305, R339) -/

namespace Sys2Proof.Machine

open Sys2Proof.Safety

/-- A normal command at the front of its queue, whose context is in a session once its entry is read, runs. -/
theorem runCmd_of_front {p : Path} {code : Nat} {s : State} {q : NormalCmd} (hrun : running s = true)
    (hq : frontCmd s p code = some q) (hlive : cmdGone (readEntry q.ctx (popCmd p s)) q = false)
    (f : NormalCmd → State → State) : runCmd p code f s = f q (readEntry q.ctx (popCmd p s)) := by
  unfold runCmd
  rw [hq]
  dsimp only
  rw [hrun, if_neg (by simp), hlive]
  rfl

/-- An entry that passes its check is read, and the read changes no context's state. -/
theorem calm_readEntry {ctx : Nat} {s : State} (h : entryFails s ctx = false) : Calm s (readEntry ctx s) := by
  unfold readEntry
  split
  · exact Calm.refl s
  · rw [h]
    exact calm_noteRead ..

theorem ctxState_readEntry {ctx : Nat} {s : State} (h : entryFails s ctx = false) (c : Nat) :
    ctxState (readEntry ctx s) c = ctxState s c := by
  rw [ctxState, ctxF, (calm_readEntry h).entry]
  rfl

/-- An express command of a context in a session, whose entry passes its check, runs. -/
theorem expressRow_of_open {ctx code : Nat} {s : State} {e : Express} (he : (context s ctx).express = some e)
    (hrun : running s = true) (hcode : e.code.toNat = code) (hopen : ctxState s ctx = 1 ∨ ctxState s ctx = 2)
    (hentry : entryFails s ctx = false) (f : Express → State → State) : expressRow ctx code f s = f e (readEntry ctx s) := by
  unfold expressRow
  rw [he]
  dsimp only
  rw [if_pos ⟨hcode, hrun⟩, ctxState_readEntry hentry, if_neg (by omega)]

theorem kill_of_open {ctx : Nat} {s : State} {e : Express} (he : (context s ctx).express = some e) (hrun : running s = true)
    (hcode : e.code.toNat = 0x12) (hopen : ctxState s ctx = 1 ∨ ctxState s ctx = 2) (hentry : entryFails s ctx = false) :
    kill ctx s = setContext ctx (fun x => { x with
      express := none, killing := some (x.killing.getD [] ++ e.result.toList) })
      (killContext ctx 1 (noteEffect ctx (readEntry ctx s))) := by
  unfold kill
  rw [he]
  dsimp only
  rw [if_pos ⟨hcode, hrun⟩, ctxState_readEntry hentry, if_neg (by omega)]

/-! ### Normal commands -/

section
variable {p : Path} {s : State} {q : NormalCmd} (hrun : running s = true)
  (hlive : cmdGone (readEntry q.ctx (popCmd p s)) q = false)
include hrun hlive

theorem contextSet_of_values (hq : frontCmd s p 2 = some q) :
    let u := readEntry q.ctx (popCmd p s)
    let old := ctxEntryWord u q.ctx
    let w := setImage old (ofLe (q.operands.take 32)) (ofLe ((q.operands.drop 32).take 256))
    copyFields ctxSettable w old = w → (bits w 20 16 = bits old 20 16 ∨ ctxState u q.ctx = 2) →
    ctxUsed u q.ctx ≤ bits w 113 96 → ctxSealsUsed u q.ctx ≤ bits w 76 64 → ctxValuesOk w = true →
      contextSet p s = endCmd q 0 0 (entryWritten q.ctx (setContext q.ctx (fun x => { x with
        entry := BitVec.ofNat 2048 (copyFields ctxSettable w x.entry.toNat) }) u)) := by
  intro u old w hfields hchain hused hseals hvalues
  have hbusy : ¬ (bits w 20 16 ≠ bits old 20 16 ∧ ctxState u q.ctx ≠ 2) := by
    rintro ⟨h1, h2⟩
    exact hchain.elim h1 h2
  have hrange : ¬ (bits w 113 96 < ctxUsed u q.ctx ∨ bits w 76 64 < ctxSealsUsed u q.ctx ∨ ctxValuesOk w = false) := by
    rintro (h | h | h)
    · exact absurd hused (not_le.mpr h)
    · exact absurd hseals (not_le.mpr h)
    · exact absurd (h.symm.trans hvalues) (by decide)
  rw [contextSet, runCmd_of_front hrun hq hlive]
  exact (if_neg (not_not.mpr hfields)).trans ((if_neg hbusy).trans (if_neg hrange))

theorem reopen_of_idle (hq : frontCmd s p 3 = some q) (hidle : anyRunning (readEntry q.ctx (popCmd p s)) q.ctx = false) :
    let u := readEntry q.ctx (popCmd p s)
    reopen p s = endCmd q 0 0 (((u.streams.filter fun e => e.1 / 128 == q.ctx && e.2.known).map fun e => e.1 % 128).foldl
      (fun s c => reopenStream q.ctx c s) u) := by
  rw [reopen, runCmd_of_front hrun hq hlive]
  exact if_neg (by simp [hidle])

theorem mapCmd_of_room (hq : frontCmd s p 8 = some q) {fs : List Nat} {s1 : State} :
    let u := readEntry q.ctx (popCmd p s)
    let a := opWord q 0
    let w := opWord q 1
    let n := bits w 31 0
    let huge := bit w 32
    let z := if huge then 512 else 1
    n ≠ 0 → a % (z * 2 ^ 21) = 0 → a + n * z * 2 ^ 21 ≤ 2 ^ 40 → (bits w 35 34 = 1 → bits w 38 36 ≤ 1) →
    mapsIn u q.ctx (a / 2 ^ 21) (n * z) = [] → ctxUsed u q.ctx + n * z ≤ ctxQuota u q.ctx → n * z ≤ framesFree u →
    allocate huge (bits w 35 34) (bits w 38 36) 0 n u = some (fs, s1) →
      mapCmd p s = chargeFrames q.ctx (ctxUsed s1 q.ctx + n * z) { casSome s1 with
        mapJobs := s1.mapJobs ++ [{
          ctx := q.ctx, result := q.result
          pages := fs.mapIdx fun i f => (a / 2 ^ 21 + i * z,
            { huge := huge, present := true, hosted := false, write := bit w 41, read := bit w 40, pinned := false,
              retiring := false, frame := f, backing := 0, age := 0 }) }] } := by
  intro u a w n huge z hn halign hend hplace hfree hquota hframes halloc
  have hrange : ¬ (n = 0 ∨ a % (z * 2 ^ 21) ≠ 0 ∨ 2 ^ 40 < a + n * z * 2 ^ 21 ∨ (bits w 35 34 = 1 ∧ 1 < bits w 38 36)) := by
    rintro (h | h | h | ⟨h1, h2⟩)
    · exact hn h
    · exact h halign
    · exact absurd hend (not_le.mpr h)
    · exact absurd (hplace h1) (not_le.mpr h2)
  rw [mapCmd, runCmd_of_front hrun hq hlive]
  refine (if_neg hrange).trans ((if_neg (by rw [hfree]; simp)).trans ((if_neg (not_lt.mpr hquota)).trans ?_))
  rw [if_neg (not_lt.mpr hframes), halloc]

theorem unmap_of_range (hq : frontCmd s p 9 = some q) :
    let u := readEntry q.ctx (popCmd p s)
    opWord q 1 ≠ 0 → opWord q 0 % 2 ^ 21 = 0 → opWord q 0 + opWord q 1 * 2 ^ 21 ≤ 2 ^ 40 →
    (ctxState u q.ctx = 2 ∨ anyRunning u q.ctx = false ∧ anyInFlight u q.ctx = false) →
      unmap p s = endCmd q 0 0 (dropMaps q.ctx (mapsIn u q.ctx (opWord q 0 / 2 ^ 21) (opWord q 1)) (casSome u)) := by
  intro u hn halign hend hidle
  have hrange : ¬ (opWord q 1 = 0 ∨ opWord q 0 % 2 ^ 21 ≠ 0 ∨ 2 ^ 40 < opWord q 0 + opWord q 1 * 2 ^ 21) := by omega
  have hbusy : ¬ (ctxState u q.ctx ≠ 2 ∧ (anyRunning u q.ctx || anyInFlight u q.ctx) = true) := by
    rintro ⟨h1, h2⟩
    rcases hidle with h | ⟨h3, h4⟩
    · exact h1 h
    · simp [h3, h4] at h2
  rw [unmap, runCmd_of_front hrun hq hlive]
  exact (if_neg hrange).trans (if_neg hbusy)

theorem mapHosted_of_range (hq : frontCmd s p 0xA = some q) :
    let u := readEntry q.ctx (popCmd p s)
    let a := opWord q 0
    let n := bits (opWord q 1) 31 0
    let o := opWord q 2
    ctxPagerQpn u q.ctx ≠ 0 → n ≠ 0 → a % 2 ^ 21 = 0 → a + n * 2 ^ 21 ≤ 2 ^ 40 → o + n ≤ 2 ^ 27 →
    mapsIn u q.ctx (a / 2 ^ 21) n = [] →
      mapHosted p s = endCmd q 0 0 (setContext q.ctx (fun x => { x with
        pages := x.pages ++ (List.range n).map fun i => (a / 2 ^ 21 + i,
          { huge := false, present := false, hosted := true, write := false, read := true, pinned := bit (opWord q 1) 32,
            retiring := false, frame := 0, backing := o + i, age := 0 }) }) u) := by
  intro u a n o hqp hn halign hend hback hfree
  have hrange : ¬ (ctxPagerQpn u q.ctx = 0 ∨ n = 0 ∨ a % 2 ^ 21 ≠ 0 ∨ 2 ^ 40 < a + n * 2 ^ 21 ∨ 2 ^ 27 < o + n) := by omega
  rw [mapHosted, runCmd_of_front hrun hq hlive]
  exact (if_neg hrange).trans (if_neg (by rw [hfree]; simp))

theorem watch_of_seal (hq : frontCmd s p 0x20 = some q) {k : Nat} (halign : opWord q 2 % 8 = 0) (hlen : opWord q 2 ≤ 4096)
    (hk : sealOf (readEntry q.ctx (popCmd p s)) q.ctx (bits (opWord q 0) 15 0) = some k) :
    let u := readEntry q.ctx (popCmd p s)
    watch p s = setResult q.result (fun o => { o with
      watch := some { target := BitVec.ofNat 32 (bits (opWord q 0) 63 32), phys := k, gen := (sealAt u k).gen,
                      addr := opWord q 1, len := opWord q 2 } })
      (setContext q.ctx (fun x => if x.normal = some q.result then { x with normal := none } else x) u) := by
  have hrange : ¬ (opWord q 2 % 8 ≠ 0 ∨ 4096 < opWord q 2) := by omega
  rw [watch, runCmd_of_front hrun hq hlive]
  dsimp only
  rw [if_neg hrange, hk]
  rfl
end

theorem context_entryWritten_self (c : Nat) (s : State) : (context (entryWritten c s) c).entry = (context s c).entry := by
  simp only [entryWritten, context_setContext_self]
  rfl

/-- STATE of a context reads as it was set. -/
theorem ctxState_setCtxF (c v : Nat) (s : State) : ctxState (setCtxF c 10 8 v s) c = v % 8 := by
  rw [ctxState, ctxF, setCtxF, context_entryWritten_self, context_setContext_self]
  simp only [bits, setBits, BitVec.toNat_ofNat, Nat.shiftRight_eq_div_pow]
  omega

theorem ctxState_killContext {ctx reason : Nat} {s : State} (h : ¬ (ctxState s ctx = 0 ∨ ctxState s ctx = 3)) :
    ctxState (killContext ctx reason s) ctx = 3 := by
  rw [killContext, if_neg h]
  exact ctxState_setCtxF ..

/-- An entry that fails its check ends its context (R289). -/
theorem ctxState_readEntry_of_fails {ctx : Nat} {s : State} (h : entryFails s ctx = true) : ctxState (readEntry ctx s) ctx = 3 := by
  have hclosed : (ctxResident s ctx || ctxState s ctx == 0 || ctxState s ctx == 3) = false := by
    unfold entryFails at h
    simpa using (Bool.and_eq_true_iff.mp h).1
  have hopen : ¬ (ctxState s ctx = 0 ∨ ctxState s ctx = 3) := by
    simp only [Bool.or_eq_false_iff, beq_eq_false_iff_ne] at hclosed
    exact not_or.mpr ⟨hclosed.1.2, hclosed.2⟩
  have hread : ctxState (noteRead .read true (256 * ctx) 256 s) ctx = ctxState s ctx := by
    rw [ctxState, ctxF, (calm_noteRead ..).entry]
    rfl
  have hstage : ∀ (r : Rec) (t : State), ctxState (stageRec 0 r t) ctx = ctxState t ctx := fun r t => by
    simp [ctxState, ctxF, context]
  rw [readEntry, hclosed, if_neg (by simp), h, if_pos rfl, hstage]
  exact ctxState_killContext (by rwa [hread])

/-- A command whose context is still in a session after the read of its entry found that entry good. -/
theorem entryFails_of_live {q : NormalCmd} {s : State} (hlive : cmdGone (readEntry q.ctx s) q = false) :
    entryFails s q.ctx = false := by
  by_contra hf
  have h3 := ctxState_readEntry_of_fails (Bool.not_eq_false _ ▸ hf)
  simp [cmdGone, h3] at hlive

theorem sealAt_of_calm {s t : State} (h : Calm s t) (k : Nat) : sealAt t k = sealAt s k := by
  rw [sealAt, h.seals]
  rfl

/-- Settles O38: the normal commands through `runCmd`, the express ones through `expressRow`. -/
theorem contextCommands : Obligations.ContextCommands := by
  constructor
  · intro p s q u hrun hlive
    refine ⟨?_, ?_, ?_, ?_, ?_, ?_⟩
    · intro hq old w hfields hchain hused hseals hvalues
      exact congrArg Host.Outcome.next (contextSet_of_values hrun hlive hq hfields hchain hused hseals hvalues)
    · intro hq hidle
      exact congrArg Host.Outcome.next (reopen_of_idle hrun hlive hq hidle)
    · intro fs s1 hq a w n huge z hn halign hend hplace hfree hquota hframes halloc
      exact congrArg Host.Outcome.next (mapCmd_of_room hrun hlive hq hn halign hend hplace hfree hquota hframes halloc)
    · intro hq hn halign hend hidle
      exact congrArg Host.Outcome.next (unmap_of_range hrun hlive hq hn halign hend hidle)
    · intro hq a n o hqp hn halign hend hback hfree
      exact congrArg Host.Outcome.next (mapHosted_of_range hrun hlive hq hqp hn halign hend hback hfree)
    · intro k hq halign hlen hk
      have hseal : sealAt u k = sealAt s k := sealAt_of_calm (calm_readEntry (entryFails_of_live hlive)) k
      rw [← hseal]
      exact congrArg Host.Outcome.next (watch_of_seal hrun hlive hq halign hlen hk)
  · intro c s e he hrun hopen hentry u
    refine ⟨?_, ?_, ?_, ?_, ?_⟩
    · intro hcode hstate
      refine congrArg Host.Outcome.next ((expressRow_of_open he hrun (congrArg BitVec.toNat hcode) hopen hentry _).trans ?_)
      rw [ctxState_readEntry hentry, if_neg (by omega)]
    · intro hcode hstate
      refine congrArg Host.Outcome.next ((expressRow_of_open he hrun (congrArg BitVec.toNat hcode) hopen hentry _).trans ?_)
      rw [ctxState_readEntry hentry, if_pos hstate]
    · intro hcode
      exact congrArg Host.Outcome.next (kill_of_open he hrun (congrArg BitVec.toNat hcode) hopen hentry)
    · intro hcode
      exact congrArg Host.Outcome.next (expressRow_of_open he hrun (congrArg BitVec.toNat hcode) hopen hentry _)
    · intro hcode
      exact congrArg Host.Outcome.next (expressRow_of_open he hrun (congrArg BitVec.toNat hcode) hopen hentry _)

end Sys2Proof.Machine

/-! ## OPEN and CLOSE, and what the device does with contexts by itself (R258, R293, R295, R297, R339) -/

namespace Sys2Proof.Machine

open Sys2Proof.Safety

/-- A module without a role places a context nowhere else. -/
theorem placementOf_of_noRole {s : State} (h : effRole s = 0) (q : NormalCmd) (w : Nat) : placementOf q w s = ([], s) :=
  if_pos (.inl h)

theorem effRole_takePlaced (id w0 : Nat) (s : State) : effRole (takePlaced id w0 s) = effRole s := by
  unfold takePlaced
  split <;> rfl

theorem openId_popCmd (p : Path) (s : State) (w0 : Nat) : openId (popCmd p s) w0 = openId s w0 := by
  have hstate : ∀ k, ctxState (popCmd p s) k = ctxState s k := fun _ => rfl
  simp only [openId, hstate]

theorem contextOpen_of_values {p : Path} {s : State} {q : NormalCmd} {id : Nat} (hrun : running s = true)
    (hq : frontCmd s p 1 = some q) (hid : openId s (opWord q 0) = .inl id)
    (hvalues : ctxValuesOk (ofLe ((q.operands.drop 8).take 256)) = true)
    (hgrant : grantTaken s (ofLe ((q.operands.drop 8).take 256)) = false) (hrole : effRole s = 0) :
    let u := if bit (opWord q 0) 63 then addTotal 0x3800 7 1 (popCmd p s) else popCmd p s
    let v := setResult q.result (fun o => { o with ctx := id })
      (takePlaced id (opWord q 0) (openContext id (ofLe ((q.operands.drop 8).take 256)) u))
    contextOpen p s = finishResult q.result 0 (id * 65536 + ctxGen v id) [] v := by
  intro u v
  have hid' : openId (popCmd p s) (opWord q 0) = .inl id := (openId_popCmd ..).trans hid
  have hu : grantTaken u (ofLe ((q.operands.drop 8).take 256)) = false ∧ effRole u = 0 := by
    unfold u
    split <;> exact ⟨hgrant, hrole⟩
  have hv : effRole v = 0 := (effRole_takePlaced ..).trans hu.2
  unfold contextOpen
  rw [hq]
  dsimp only
  rw [hrun, if_neg (by simp), hid']
  dsimp only
  rw [hvalues, if_neg (by simp)]
  refine (if_neg (by rw [hu.1]; simp)).trans ?_
  rw [placementOf_of_noRole hv]
  rfl

theorem close_of_idle {p : Path} {s : State} {q : NormalCmd} (hrun : running s = true) (hq : frontCmd s p 4 = some q)
    (hopen : ctxState s q.ctx = 1 ∨ ctxState s q.ctx = 2) (hgen : (result s q.result).cgen.toNat = ctxGen s q.ctx)
    (hidle : anyRunning s q.ctx = false) :
    close p s = setContext q.ctx (fun x => { x with killing := some (x.killing.getD [] ++ [q.result]) })
      (killContext q.ctx 0 (popCmd p s)) := by
  have hgone : ¬ (ctxState (popCmd p s) q.ctx = 0 ∨ (result (popCmd p s) q.result).cgen.toNat ≠ ctxGen (popCmd p s) q.ctx) := by
    rintro (h | h)
    · exact absurd (show ctxState s q.ctx = 0 from h) (by omega)
    · exact h hgen
  have hclosing : ¬ ctxState (popCmd p s) q.ctx = 3 := fun h => absurd (show ctxState s q.ctx = 3 from h) (by omega)
  have hidle' : anyRunning (popCmd p s) q.ctx = false := hidle
  unfold close
  rw [hq]
  dsimp only
  rw [hrun, if_neg (by simp), if_neg hgone, if_neg hclosing, hidle']
  rfl

theorem closeComplete_of_left {ctx : Nat} {s : State} (hclosing : ctxState s ctx = 3) (hleft : tilesLeft s ctx = false) :
    closeComplete ctx s = endCommands ctx (setCtxF ctx 10 8 0 (releaseContext ctx (endSeals ctx (onCores (endAccounts ctx)
      (onCores (endOffices ctx) (onCores (fun k s => closeMailboxes true k ctx 2 s) (endSends ctx s))))))) := by
  unfold closeComplete
  rw [hclosing, hleft]
  rfl

theorem mapComplete_of_job {ctx : Nat} {s : State} {j : MapJob} (hj : s.mapJobs.find? (fun j => j.ctx == ctx) = some j)
    (hopen : ctxState s ctx ≠ 3) :
    mapComplete ctx s = finishResult j.result 0 0 [] (setContext ctx (fun x => { x with
      pages := x.pages ++ j.pages, normal := if x.normal = some j.result then none else x.normal })
      (j.pages.foldl (fun s e => zeroFrames e.2.frame (mapUnits e.2) s)
        { s with mapJobs := s.mapJobs.filter fun x => !(x == j) })) := by
  unfold mapComplete
  rw [hj]
  dsimp only
  rw [if_neg hopen]

theorem watchReady_of_met {k : Nat} {s : State} {w : WatchReq} {ps : List (Nat × Nat)} (hw : (result s k).watch = some w)
    (hmet : 0 ≤ sdiff32 (sealAt s w.phys).count.toNat w.target.toNat)
    (hps : unitPieces s (result s k).ctx false w.addr w.len = some ps) :
    let r := unitRead .read true ps (unitUse (result s k).ctx w.addr w.len s)
    watchReady k s = finishResult k (if r.2.1 then 0x22 else 0) (sealAt s w.phys).count.toNat r.1 r.2.2 := by
  unfold watchReady
  dsimp only
  rw [hw]
  dsimp only
  rw [if_pos hmet, hps]

/-- Settles O39: OPEN, CLOSE, and the three things the device does by itself. -/
theorem contextsComeAndGo : Obligations.ContextsComeAndGo := by
  refine ⟨?_, fun c s hclosing hleft => ?_, fun c s j hj hopen => ?_, fun k s w ps hw hmet hps => ?_⟩
  · intro p s q u hrun
    constructor
    · intro id hq hid hvalues hgrant hrole
      exact congrArg Host.Outcome.next (contextOpen_of_values hrun hq hid hvalues hgrant hrole)
    · intro hq hopen hgen hidle
      exact congrArg Host.Outcome.next (close_of_idle hrun hq hopen hgen hidle)
  · exact congrArg Host.Outcome.next (closeComplete_of_left hclosing hleft)
  · exact congrArg Host.Outcome.next (mapComplete_of_job hj hopen)
  · exact congrArg Host.Outcome.next (watchReady_of_met hw hmet hps)

end Sys2Proof.Machine

/-! ## Residency (R96, R228, R292, R303, R304, R431) -/

namespace Sys2Proof.Machine

open Sys2Proof.Safety

theorem expressTakeEffect_of_stopping {c ctx : Nat} {s : State} (hstop : nmem (core s c).stopping ctx = true)
    (hparcels : completesParcels s c ctx = false) :
    expressTakeEffect c ctx s = setCore c (fun y => { y with
        stopping := ndel y.stopping ctx, restoring := ndel y.restoring ctx, saving := nins y.saving ctx })
      (takeOut ctx c (recallFlights c ctx (noteEffect ctx s))) := by
  unfold expressTakeEffect
  rw [hstop, hparcels]
  rfl

theorem contextSaveDone_of_pieces {c ctx : Nat} {ps : List (Nat × Nat)} {s s1 s2 : State}
    (hsave : nmem (core s c).saving ctx = true) (hretired : ∀ e ∈ (core s c).retiring, e.instr.ctx ≠ ctx)
    (hps : unitPieces s ctx true (saveBase s ctx c) 0x10_0000 = some ps)
    (h1 : s1 = setStream ctx c (fun t => { t with savedAt := some s.fresh }) { s with fresh := s.fresh + 0x10_0000 })
    (h2 : s2 = setCore c (fun y => { y with
        saving := ndel y.saving ctx, slots := y.slots.map fun o => if o = some ctx then none else o })
      (writeAreas ctx (saveBase s1 ctx c) (saveAreas s.fresh (stream s1 ctx c) ++ [(0x1000, vregArea s1 ctx c)])
        (unitUse ctx (saveBase s1 ctx c) 0x10_0000 s1))) :
    contextSaveDone c ctx s = if leavesAll s2 ctx = false then writeBack c ctx s2
      else if (liveCores s2 ctx).isEmpty then leftAll ctx s2 else s2 := by
  have hgo : (nmem (core s c).saving ctx && !((core s c).retiring.any fun e => e.instr.ctx == ctx)) = true := by
    simpa [hsave] using hretired
  have hif : (if leavesAll s2 ctx = false then writeBack c ctx s2 else if (liveCores s2 ctx).isEmpty then leftAll ctx s2 else s2) =
      if (!(leavesAll s2 ctx)) = true then writeBack c ctx s2 else if (liveCores s2 ctx).isEmpty then leftAll ctx s2 else s2 := by
    cases leavesAll s2 ctx <;> rfl
  rw [hif]
  unfold contextSaveDone
  refine (if_pos hgo).trans ?_
  rw [hps, h2, h1]

theorem calm_unitUse (c a n : Nat) (s : State) : Calm s (unitUse c a n s) :=
  calm_foldl (fun s (x : Nat × Nat) => calm_useAge c x.1 s) _ s

theorem stream_of_calm {s t : State} (h : Calm s t) (x c : Nat) : stream t x c = stream s x c := by
  rw [stream, h.streams]
  rfl

theorem contextRestoreDone_of_areas {c ctx base : Nat} {ps : List (Nat × Nat)} {bs : List Byte} {s u s1 s2 : State}
    (hrestore : nmem (core s c).restoring ctx = true) (hfits : fitsBack s ctx c = true)
    (hsaved : (stream s ctx c).savedAt = some base) (hu : unitUse ctx (saveBase s ctx c) 0x10_0000 s = u)
    (hps : unitPieces u ctx false (saveBase u ctx c) 0x10_0000 = some ps)
    (hread : readArea ctx (saveBase u ctx c) 0x1000 0x2104 u = (bs, false, s1))
    (hareas : areasOk ctx (saveBase u ctx c) (saveAreas base (stream u ctx c)) s1 = (true, s2))
    (hcrc : ofLe (bs.drop 0x2100) = crc32c (bs.take 0x2100)) :
    contextRestoreDone c ctx s = putBack ctx c (loadVregs ctx c bs s2) := by
  have hsaved' : (stream u ctx c).savedAt = some base := by rw [← hu, stream_of_calm (calm_unitUse ..), hsaved]
  unfold contextRestoreDone
  rw [hrestore, hfits, hu]
  refine (if_pos rfl).trans ?_
  simp only [hps]
  simp [hsaved', hread, hareas, hcrc]

section
variable {s : State} (hrun : running s = true)
include hrun

theorem residencyChange_mustLeave {k : Nat} (h : mustLeave s = some k) : residencyChange s = beginLeave k s := by
  simp [residencyChange, hrun, h]

theorem residencyChange_give {c k x : Nat} (h : mustLeave s = none) (hg : slotToGive s = some (c, k, x)) :
    residencyChange s = giveSlot c k x s := by
  simp [residencyChange, hrun, h, hg]

theorem residencyChange_take {c x : Nat} (h : mustLeave s = none) (hg : slotToGive s = none) (ht : slotToTake s = some (c, x)) :
    residencyChange s = stopOn x c s := by
  simp [residencyChange, hrun, h, hg, ht]

theorem residencyChange_enter {w : Nat} (h : mustLeave s = none) (hg : slotToGive s = none) (ht : slotToTake s = none)
    (hw : bestRanked s (waiting s) = some w) (hroom : (residents s).length < 256) : residencyChange s = makeResident w s := by
  simp [residencyChange, hrun, h, hg, ht, hw, hroom]

/-- The end of a slice: the longest resident of its priority makes room for a waiting equal. -/
theorem sliceExpiry_of_longest {c : Nat} (hslice : reg s 0x3900 3 ≠ 0) (hres : ctxResident s c = true) (hopen : ctxState s c = 1)
    (hstay : (context s c).leaving = false)
    (hlongest : ∀ k ∈ residents s, ctxPriority s k = ctxPriority s c → (context s c).residentAt ≤ (context s k).residentAt)
    (hequal : ∃ k ∈ waiting s, ctxPriority s k = ctxPriority s c) : sliceExpiry c s = beginLeave c s := by
  have hl : ((residents s).all fun k => ctxPriority s k != ctxPriority s c ||
      decide ((context s c).residentAt ≤ (context s k).residentAt)) = true := by
    rw [List.all_eq_true]
    intro k hk
    by_cases hp : ctxPriority s k = ctxPriority s c
    · simp [hlongest k hk hp]
    · simp [hp]
  have he : ((waiting s).any fun k => ctxPriority s k == ctxPriority s c) = true := by
    obtain ⟨k, hk, hp⟩ := hequal
    exact List.any_eq_true.mpr ⟨k, hk, beq_iff_eq.mpr hp⟩
  unfold sliceExpiry
  dsimp only
  rw [hl, he, hrun, hres, hopen, hstay]
  exact if_pos (by simp [hslice])
end

/-- Settles O40: a stop's effect, the two ends of a save and a restore, and the scheduler's changes in their order. -/
theorem residencyChanges : Obligations.ResidencyChanges := by
  refine ⟨fun c x s => ⟨fun hstop hparcels => ?_, fun ps s1 s2 hsave hret hps h1 h2 => ?_, ?_⟩, fun s hrun => ⟨fun k h => ?_,
    fun h => ⟨fun c k x hg => ?_, fun hg => ⟨fun c x ht => ?_, fun w ht hw hroom => ?_⟩⟩, ?_⟩⟩
  · exact congrArg Host.Outcome.next (expressTakeEffect_of_stopping hstop hparcels)
  · exact congrArg Host.Outcome.next (contextSaveDone_of_pieces hsave hret hps h1 h2)
  · intro base ps bs s1 s2 hrestore hfits hsaved u hps hread hareas hcrc
    exact congrArg Host.Outcome.next (contextRestoreDone_of_areas hrestore hfits hsaved rfl hps hread hareas hcrc)
  · exact congrArg Host.Outcome.next (residencyChange_mustLeave hrun h)
  · exact congrArg Host.Outcome.next (residencyChange_give hrun h hg)
  · exact congrArg Host.Outcome.next (residencyChange_take hrun h hg ht)
  · exact congrArg Host.Outcome.next (residencyChange_enter hrun h hg ht hw hroom)
  · intro c hslice hres hopen hstay hlongest hequal
    exact congrArg Host.Outcome.next (sliceExpiry_of_longest hrun hslice hres hopen hstay hlongest hequal)

end Sys2Proof.Machine

/-! ## Parameter-update jobs (R309 to R319) -/

namespace Sys2Proof.Machine

open Sys2Proof.Safety

theorem updHeadW_eq (v : Nat) (s : State) :
    updHeadW v s = if 0 ≤ sdiff32 v (reg s 0x3A00 3) ∧ (v + 2 ^ 32 - s.updNext.toNat) % 2 ^ 32 ≤ 2 ^ bits (reg s 0x3A00 2) 52 48 then
      (0, setReg 0x3A00 3 v s) else (0x1A, s) := by
  unfold updHeadW
  by_cases hmove : sdiff32 v (reg s 0x3A00 3) < 0
  · rw [if_pos (.inl hmove), if_neg (fun h => absurd h.1 (not_le.mpr hmove))]
  · by_cases hring : 2 ^ bits (reg s 0x3A00 2) 52 48 < (v + 2 ^ 32 - s.updNext.toNat) % 2 ^ 32
    · rw [if_pos (.inr hring), if_neg (fun h => absurd h.2 (not_le.mpr hring))]
    · rw [if_neg (not_or.mpr ⟨hmove, hring⟩), if_pos ⟨not_lt.mp hmove, not_lt.mp hring⟩]

theorem updJobStart_of_block {s : State} {ps : List (Nat × Nat)} :
    let u := readEntry (updOwner s) s
    let a := updSlot u u.updNext.toNat
    updEnabled u = true → u.updNext.toNat ≠ reg u 0x3A00 3 → unitPieces u (updOwner u) false a 128 = some ps →
      let r := unitRead .remote true ps (unitUse (updOwner u) a 128 u)
      let b := ofLe r.1
      jobOf u (uDie b) = none → startMet u b = true → r.2.1 = false → (updCheck (updOwner u) b r.2.2).1 = .ok →
        updJobStart s = advanceJob (uDie b) (beginJob a b none (updCheck (updOwner u) b r.2.2).2) := by
  intro u a henabled hnext hps r b hfree hmet hclean hcheck
  have hgo : (updEnabled u && decide (u.updNext.toNat ≠ reg u 0x3A00 3)) = true := by simp [henabled, hnext]
  have hstart : ¬ ((jobOf u (uDie b)).isSome || !(startMet u b || r.2.1)) = true := by simp [hfree, hmet]
  have hpair : updCheck (updOwner u) b r.2.2 = (.ok, (updCheck (updOwner u) b r.2.2).2) := Prod.ext hcheck rfl
  unfold updJobStart
  refine (if_pos hgo).trans ?_
  rw [show unitPieces (readEntry (updOwner s) s) (updOwner (readEntry (updOwner s) s)) false a 128 = some ps from hps]
  refine (if_neg hstart).trans ((if_neg fun h => absurd (hclean.symm.trans h) (by decide)).trans ?_)
  exact congrArg (fun x : _ × State => match x with
    | (.absent q, s2) => updMiss (updOwner u) q s2
    | (.bad r, s2) => beginJob a b (some r) s2
    | (.ok, s2) => advanceJob (uDie b) (beginJob a b none s2)) hpair

section
variable {d m : Nat} {s : State} {j : UpdJob} (hj : jobOf s d = some j)
include hj

theorem peerMessage_of_new {x : PeerMsg} (hnew : hadMessage s j m x = false) : peerMessage d m x s = applyMessage d m j x s := by
  simp [peerMessage, hj, hnew]

theorem peerMessage_header (hpeer : (jobPeers s j).contains m = true) (hsum : uSource j.block.toNat = false)
    (hfirst : nmem j.headers m = false) :
    peerMessage d m (.header (some (headerOf j.block.toNat))) s = setJob d (fun j => { j with headers := nins j.headers m }) s := by
  rw [peerMessage_of_new hj (by unfold hadMessage; rw [hpeer, hsum, hfirst]; rfl)]
  exact if_neg fun h => h.2 rfl

omit hj in
/-- A verdict or an abort notice of a peer whose header has come, and that has given no verdict, is taken up. -/
theorem hadMessage_of_noVerdict (hpeer : (jobPeers s j).contains m = true) (hfirst : ∀ x ∈ j.verdicts, x.1 ≠ m)
    (hheader : uSource j.block.toNat = true ∨ nmem j.headers m = true) :
    (∀ v sw su, hadMessage s j m (.verdict v sw su) = false) ∧ hadMessage s j m .abort = false := by
  have hv : (j.verdicts.any fun y => y.1 == m) = false := by simpa using hfirst
  have hh : (!(uSource j.block.toNat) && !(nmem j.headers m)) = false := by
    rcases hheader with h | h <;> simp [h]
  constructor
  · intro v sw su
    unfold hadMessage
    rw [hpeer, hv, hh]
    rfl
  · unfold hadMessage
    rw [hpeer, hv, hh]
    rfl

theorem updPeerTimeout_of_waiting (hstatus : j.status = 2) (hwait : headersIn s j = false) :
    updPeerTimeout d s = setJob d (fun j => { j with status := 0x14 }) s := by
  simp [updPeerTimeout, hj, hstatus, hwait]

theorem chunkReceive_of_new {k : Nat} {data : List Word32} {p ok : Bool} (hstatus : j.status = 2)
    (hsum : uSource j.block.toNat = false) (hmembers : 1 < (jobMembers j.block.toNat).length) (hk : k < uChunks j.block.toNat)
    (hlen : data.length = chunkLen j.block.toNat k) (hnew : nmem j.gathered k = false) :
    chunkReceive d k data p ok s = advanceJob d (setJob d (fun j => { j with
      arrived := j.arrived ++ [(k, data, p || !ok)] }) (if ok then s else bumpE 0x6000 9 s)) := by
  simp [chunkReceive, hj, hstatus, hsum, hmembers, hk, hlen, hnew]
end

theorem peerMessage_early {d m : Nat} {s : State} (hj : jobOf s d = none) (x : PeerMsg) :
    peerMessage d m x s = { s with updEarly := s.updEarly ++ [(d, m, x)] } := by
  simp [peerMessage, hj]

theorem updJobEnd_of_over {d : Nat} {s : State} {j : UpdJob} (hj : jobOf (advanceJob d s) d = some j) (h2 : j.status ≠ 2)
    (h3 : j.status ≠ 3) :
    let a := bumpE 0x3A00 5 (jobWrite j.owner j.addr (toLe 128 (blockBack j)) (j.reason == some (Reason.code .poisonControl))
      (advanceJob d s))
    let b := jobRecord d j (if j.status = 4 ∨ j.status = 5 then a else bumpE 0x3A00 6 a)
    let e := match sealOf b j.owner (bits j.block.toNat 367 352) with
      | some p => sendSeals [{
          phys := p, gen := (sealAt b p).gen, amount := 1, ctx := j.owner, sealId := BitVec.ofNat 16 (bits j.block.toNat 367 352) }] b
      | none => b
    updJobEnd d s = setDie d (fun x => { x with pinnedJob := false }) { e with updRing := e.updRing.set d none, updPages := [] } := by
  unfold updJobEnd
  dsimp only
  rw [hj]
  exact if_neg (not_or.mpr ⟨h2, h3⟩)

/-- Settles O42: the head's write, the start, what peers say, and the end of a job. -/
theorem updateJobs : Obligations.UpdateJobs := by
  refine ⟨⟨?_, ?_, ?_, ?_⟩, ?_⟩
  · intro w v s ho
    have hu : scalarW w.path 0x3A00 3 v.toNat (countAccess s) = updHeadW v.toNat (countAccess s) := rfl
    have hrow := hu.trans (updHeadW_eq _ _)
    refine congrArg Host.Outcome.next ?_
    by_cases h : 0 ≤ sdiff32 v.toNat (reg s 0x3A00 3) ∧
        (v.toNat + 2 ^ 32 - s.updNext.toNat) % 2 ^ 32 ≤ 2 ^ bits (reg s 0x3A00 2) 52 48
    · rw [if_pos h]
      exact unitRow_done ho (by decide) (hrow.trans (if_pos h))
    · rw [if_neg h]
      exact unitRow_refused ho (by decide) (hrow.trans (if_neg h))
  · intro s ps u a henabled hnext hps r b hfree hmet hclean hcheck
    exact congrArg Host.Outcome.next (updJobStart_of_block henabled hnext hps hfree hmet hclean hcheck)
  · intro d m s j hj hstatus
    refine ⟨fun hpeer hsum hfirst => ?_, fun hwait => ?_, fun k data p ok hsum hm hk hlen hnew => ?_, fun hpeer hfirst hheader => ?_⟩
    · exact congrArg Host.Outcome.next (congrArg (advanceJob d.val) (peerMessage_header hj hpeer hsum hfirst))
    · exact congrArg Host.Outcome.next (updPeerTimeout_of_waiting hj hstatus hwait)
    · exact congrArg Host.Outcome.next (chunkReceive_of_new hj hstatus hsum hm hk hlen hnew)
    · obtain ⟨hverdict, habort⟩ := hadMessage_of_noVerdict (s := s) hpeer hfirst hheader
      refine ⟨fun v sw su => ?_, ?_⟩
      · exact congrArg Host.Outcome.next (congrArg (advanceJob d.val) (peerMessage_of_new hj (hverdict v sw su)))
      · exact congrArg Host.Outcome.next ((peerMessage_of_new hj habort).trans (if_pos hstatus))
  · intro d m s hj
    exact congrArg Host.Outcome.next (peerMessage_early hj .abort)
  · intro d s j hj h2 h3
    exact congrArg Host.Outcome.next (updJobEnd_of_over hj h2 h3)

end Sys2Proof.Machine

/-! ## Payloads and results (R331, R332, R336, R337) -/

namespace Sys2Proof.Machine

open Sys2Proof.Safety

section
variable {p : Path} {bs : List Byte} {s : State} (hrun : s.power.state = 0) (hisland : s.island.state = 1) (hlen : 32 ≤ bs.length)
  (hauth : authCheck s p (plKey (payloadOf bs)) (plCounter (payloadOf bs)) (bs.take (bs.length - 8)) (payloadOf bs).tag = 0)
  (henc : encodingsOk (keepCounter p (plKey (payloadOf bs)) (plCounter (payloadOf bs)) s) (payloadOf bs) = true)

include hrun hisland in
theorem payloadRow_of_running : payloadRow p bs s = trafficWake p bs (payload p bs s) := by
  rw [payloadRow, hrun, hisland]
  exact if_neg (by decide)

include hlen hauth henc in
/-- A payload that is authentic and whole goes by its TYPE. -/
theorem payload_of_good :
    let x := payloadOf bs
    let u := keepCounter p (plKey x) (plCounter x) s
    payload p bs s = if plType x = 1 then commandChecks p x u else if plType x = 2 then doorbellChecks p x u
      else if plType x = 3 then resultRead p (plWord x 0) u else resultRelease p (plWord x 0) u := by
  intro x u
  unfold payload
  dsimp only
  rw [if_neg (not_lt.mpr hlen), hauth, if_neg (by decide), henc]
  rfl
end

/-- Only a COMMAND and a DOORBELL may wake the device. -/
theorem trafficWake_of_result {bs : List Byte} (h : plType (payloadOf bs) = 3 ∨ plType (payloadOf bs) = 4) (p : Path) (s : State) :
    trafficWake p bs s = s := by
  unfold trafficWake
  rcases h with h | h <;> simp [h]

theorem resultRead_of_ready {p : Path} {h k : Nat} {s : State} (hk : namedResult s p h = some k) (hready : (result s k).state = .ready) :
    let o := result s k
    resultRead p h s = emit (.result p (resultHeader 2 o.status.toNat o.code.toNat o.ctx o.cgen.toNat h
      o.value.toNat o.data.length o.reqTag.toNat ++ o.data)) s := by
  simp [resultRead, hk, hready]

theorem resultRelease_of_ready {p : Path} {h k : Nat} {s : State} (hk : namedResult s p h = some k)
    (hready : (result s k).state = .ready) :
    let o := result s k
    resultRelease p h s =
      emit (.result p (resultHeader 3 0 o.code.toNat o.ctx o.cgen.toNat h 0 0 o.reqTag.toNat)) (freeResult k s) := by
  simp [resultRelease, hk, hready]

theorem resultTtlExpiry_of_ready {k : Nat} {s : State} (hready : (result s k).state = .ready) (httl : reg s 0x3B00 6 ≠ 0) :
    resultTtlExpiry k s = freeResult k s := if_pos ⟨hready, httl⟩

/-- Settles O43: a good payload by its TYPE, and the three ways a READY result is met. -/
theorem payloadsAndResults : Obligations.PayloadsAndResults := by
  constructor
  · intro p bs s x u hrun hisland hlen hauth henc
    have hrow := payloadRow_of_running (p := p) (bs := bs) hrun hisland
    rw [payload_of_good hlen hauth henc] at hrow
    refine ⟨fun h => ?_, fun h => ?_, fun h => ?_, fun h => ?_⟩
    · exact congrArg Host.Outcome.next (hrow.trans (congrArg _ (if_pos h)))
    · refine congrArg Host.Outcome.next (hrow.trans (congrArg _ ?_))
      rw [h]
      rfl
    · refine congrArg Host.Outcome.next (hrow.trans ((trafficWake_of_result (.inl h) ..).trans ?_))
      rw [h]
      rfl
    · refine congrArg Host.Outcome.next (hrow.trans ((trafficWake_of_result (.inr h) ..).trans ?_))
      rw [h]
      rfl
  · intro p h s k hk hready
    refine ⟨?_, ?_, fun m hm httl => ?_⟩
    · exact congrArg Host.Outcome.next (resultRead_of_ready hk hready)
    · exact congrArg Host.Outcome.next (resultRelease_of_ready hk hready)
    · rw [hm] at hready ⊢
      exact congrArg Host.Outcome.next (resultTtlExpiry_of_ready hready httl)

end Sys2Proof.Machine

/-! ## Modulus table commands (R45, R46, R300) -/

namespace Sys2Proof.Machine

open Sys2Proof.Safety

/-! ### A unit's read: how many bytes it gives, and what it leaves -/

theorem sum_pagePieces_le : ∀ f a n, ((pagePieces f a n).map (fun x => x.2)).sum ≤ n
  | 0, a, n => by simp [pagePieces]
  | f + 1, a, n => by
    unfold pagePieces
    split
    · simp
    · simp only [List.map_cons, List.sum_cons]
      have hrest := sum_pagePieces_le f (a + min n (pageSize a - a % pageSize a)) (n - min n (pageSize a - a % pageSize a))
      omega

/-- The pieces of a range of context memory are as long as the pages cut it. -/
theorem lengths_unitPieces {s : State} {c a n : Nat} {write : Bool} {ps : List (Nat × Nat)}
    (h : unitPieces s c write a n = some ps) :
    ps.map (fun x => x.2) = (pagePieces (pieceFuel n) a n).map (fun x => x.2) := by
  unfold unitPieces at h
  generalize pagePieces (pieceFuel n) a n = l at h ⊢
  induction l generalizing ps with
  | nil => simp only [List.foldr_nil, Option.some.injEq] at h; subst h; rfl
  | cons x r ih =>
    rw [List.foldr_cons] at h
    split at h
    next acc d hacc hx => cases h; simp [ih hacc]
    next => cases h

theorem length_memRead (m : List Host.Cell) (a n : Nat) : (memRead m a n).length = n := by
  rw [memRead_eq_map, List.length_map, List.length_range]

/-- One piece of a unit's read. -/
def unitReadPiece (cls : Class) (alloc : Bool) (acc : List Byte × Bool × State) (x : Nat × Nat) : List Byte × Bool × State :=
  let s := noteRead cls alloc x.1 x.2 acc.2.2
  (acc.1 ++ devBytes s x.1 x.2, acc.2.1 || poisonedRange s x.1 x.2, s)

theorem unitRead_eq (cls : Class) (alloc : Bool) (ps : List (Nat × Nat)) (s : State) :
    unitRead cls alloc ps s = ps.foldl (unitReadPiece cls alloc) ([], false, s) := rfl

theorem length_foldl_unitReadPiece (cls : Class) (alloc : Bool) (ps : List (Nat × Nat)) (acc : List Byte × Bool × State) :
    (ps.foldl (unitReadPiece cls alloc) acc).1.length = acc.1.length + (ps.map (fun x => x.2)).sum := by
  induction ps generalizing acc with
  | nil => simp
  | cons x r ih =>
    rw [List.foldl_cons, ih]
    simp [unitReadPiece, devBytes, length_memRead, Nat.add_assoc]

theorem length_unitRead (cls : Class) (alloc : Bool) (ps : List (Nat × Nat)) (s : State) :
    (unitRead cls alloc ps s).1.length = (ps.map (fun x => x.2)).sum := by
  rw [unitRead_eq, length_foldl_unitReadPiece]
  simp

theorem calm_unitRead (cls : Class) (alloc : Bool) (ps : List (Nat × Nat)) (s : State) : Calm s (unitRead cls alloc ps s).2.2 := by
  have h : ∀ acc : List Byte × Bool × State, Calm acc.2.2 (ps.foldl (unitReadPiece cls alloc) acc).2.2 := by
    induction ps with
    | nil => exact fun acc => .refl _
    | cons x r ih => exact fun acc => (calm_noteRead cls alloc x.1 x.2 acc.2.2).trans (ih (unitReadPiece cls alloc acc x))
  exact h ([], false, s)

/-! ### The image of a load -/

theorem calm_mtReadEntry (ctx a p : Nat) (failed : Option (Nat × Nat)) (s : State) : Calm s (mtReadEntry ctx a p failed s).2 := by
  unfold mtReadEntry
  split
  · exact (calm_unitUse ..).trans (calm_unitRead ..)
  · split <;> exact .refl s

/-- An entry that is taken passes the checks of R45, and is 1,728 bytes long at most. -/
theorem mtReadEntry_taken {ctx a p w : Nat} {failed : Option (Nat × Nat)} {s t : State}
    (h : mtReadEntry ctx a p failed s = (.inl w, t)) : tableEntryOk w = true ∧ w < 2 ^ 13824 := by
  have hfst := congrArg Prod.fst h
  unfold mtReadEntry at hfst
  split at hfst
  next ps hps =>
    dsimp only at hfst
    split at hfst
    · cases hfst
    · split at hfst
      next hgood =>
        cases hfst
        refine ⟨hgood, lt_of_lt_of_le (ofLe_lt _) ?_⟩
        rw [length_unitRead, lengths_unitPieces hps, show (2 : Nat) ^ 13824 = 256 ^ 1728 from by
          rw [show (256 : Nat) = 2 ^ 8 from rfl, ← Nat.pow_mul]]
        exact Nat.pow_le_pow_right (by decide) (sum_pagePieces_le ..)
      · cases hfst
  next =>
    split at hfst <;> cases hfst

theorem mtReadEntry_stopped {ctx a p : Nat} {failed : Option (Nat × Nat)} {s t : State} {x : ImageRead}
    (h : mtReadEntry ctx a p failed s = (.inr x, t)) : x ≠ .whole := by
  have hfst := congrArg Prod.fst h
  unfold mtReadEntry at hfst
  split at hfst
  · dsimp only at hfst
    split at hfst
    · cases hfst; exact nofun
    · split at hfst <;> cases hfst
      exact nofun
  · split at hfst <;> cases hfst
    · split <;> exact nofun
    · exact nofun

/-- What the reading of an image leaves: the entries it has taken, all good, after those taken before. -/
structure ImageTaken (n : Nat) (j : TableJob) (s : State) (x : ImageRead) (t : State) (l : List (BitVec 13824)) : Prop where
  job    : t.tableJob = some { j with taken := j.taken ++ l }
  good   : ∀ w ∈ l, tableEntryOk w.toNat = true
  whole  : x = .whole → l.length = n
  chains : t.chains = s.chains
  regs   : t.regs = s.regs

theorem mtRead_taken {ctx : Nat} {failed : Option (Nat × Nat)} : ∀ (n a p : Nat) {s : State} {j : TableJob},
    s.tableJob = some j → ∃ l, ImageTaken n j s (mtRead ctx a p failed n s).1 (mtRead ctx a p failed n s).2 l
  | 0, a, p, s, j, hj => ⟨[], { job := by rw [List.append_nil]; exact hj, good := by simp, whole := fun _ => rfl, chains := rfl, regs := rfl }⟩
  | n + 1, a, p, s, j, hj => by
    have hcalm := calm_mtReadEntry ctx a p failed s
    have hjob : (mtReadEntry ctx a p failed s).2.tableJob = some j := (congrArg State.tableJob hcalm.rest : _).trans hj
    unfold mtRead
    split
    next w t hread =>
      obtain ⟨hgood, hlt⟩ := mtReadEntry_taken hread
      rw [hread] at hcalm hjob
      dsimp only at hcalm hjob
      obtain ⟨l, hl⟩ := mtRead_taken (ctx := ctx) (failed := failed) n (a + 1728) (p + 1)
        (s := { t with tableJob := t.tableJob.map fun j => { j with taken := j.taken ++ [BitVec.ofNat 13824 w] } })
        (j := { j with taken := j.taken ++ [BitVec.ofNat 13824 w] }) (by rw [hjob]; rfl)
      refine ⟨BitVec.ofNat 13824 w :: l, { job := ?_, good := ?_, whole := ?_, chains := ?_, regs := ?_ }⟩
      · rw [hl.job, List.append_assoc]
        rfl
      · intro v hv
        rcases List.mem_cons.mp hv with rfl | hv
        · rwa [BitVec.toNat_ofNat, Nat.mod_eq_of_lt hlt]
        · exact hl.good v hv
      · intro hx
        rw [List.length_cons, hl.whole hx]
      · exact hl.chains.trans hcalm.chains
      · exact hl.regs.trans hcalm.regs
    next x t hread =>
      rw [hread] at hcalm hjob
      dsimp only at hcalm hjob
      refine ⟨[], { job := ?_, good := by simp, whole := ?_, chains := hcalm.chains, regs := hcalm.regs }⟩
      · rw [List.append_nil]
        exact hjob
      · exact fun hx => absurd hx (mtReadEntry_stopped hread)

/-! ### The table after a load and after an evict -/

theorem nmem_nins (t : NatSet) (j k : Nat) : nmem (nins t j) k = (k == j || nmem t k) := by
  induction t with
  | nil => simp [nins, nmem, beq_eq_decide]
  | cons x r ih =>
    unfold nins
    simp only [nmem, List.contains_cons] at ih ⊢
    split
    next h => rw [h, List.contains_cons, ← Bool.or_assoc, Bool.or_self]
    next =>
      split
      · rw [List.contains_cons, List.contains_cons]
      · rw [List.contains_cons, ih, Bool.or_left_comm]

theorem nmem_ndel (t : NatSet) (j k : Nat) : nmem (ndel t j) k = (k != j && nmem t k) := by
  rw [Bool.eq_iff_iff]
  simp [nmem, ndel, and_comm]

theorem mtStore_below {k : Nat} : ∀ {l : List (BitVec 13824)} {p : Nat} {s : State}, k < p →
    nmem (mtStore p l s).occupied k = nmem s.occupied k ∧ tget 0 (mtStore p l s).modTable k = tget 0 s.modTable k
  | [], _, _, _ => ⟨rfl, rfl⟩
  | w :: r, p, s, h => by
    obtain ⟨hocc, htab⟩ := mtStore_below (l := r) (p := p + 1)
      (s := { s with modTable := tset s.modTable p w, occupied := nins s.occupied p }) (Nat.lt_succ_of_lt h)
    rw [mtStore]
    refine ⟨hocc.trans ?_, htab.trans (tget_tset_of_ne _ _ _ (Nat.ne_of_lt h))⟩
    rw [nmem_nins, beq_false_of_ne (Nat.ne_of_lt h), Bool.false_or]

/-- A load's entries stand at its postcodes, which are occupied. -/
theorem mtStore_at {l : List (BitVec 13824)} : ∀ {i p : Nat} {s : State}, i < l.length →
    nmem (mtStore p l s).occupied (p + i) = true ∧ tget 0 (mtStore p l s).modTable (p + i) = l.getD i 0 := by
  induction l with
  | nil => exact fun h => absurd h (Nat.not_lt_zero _)
  | cons w r ih =>
    intro i p s h
    rw [mtStore]
    cases i with
    | zero =>
      obtain ⟨hocc, htab⟩ := mtStore_below (k := p) (l := r) (p := p + 1)
        (s := { s with modTable := tset s.modTable p w, occupied := nins s.occupied p }) (Nat.lt_succ_self p)
      refine ⟨hocc.trans ?_, htab.trans (tget_tset_self ..)⟩
      rw [nmem_nins, beq_self_eq_true, Bool.true_or]
    | succ i =>
      rw [show p + (i + 1) = p + 1 + i by omega, List.getD_cons_succ]
      exact ih (Nat.lt_of_succ_lt_succ h)

theorem mtClear_free {k : Nat} : ∀ {n p : Nat} {s : State}, (nmem s.occupied k = false ∨ p ≤ k ∧ k < p + n) →
    nmem (mtClear p n s).occupied k = false
  | 0, _, _, h => h.resolve_right (by omega)
  | n + 1, p, s, h => by
    rw [mtClear]
    apply mtClear_free
    rw [nmem_ndel]
    by_cases hk : k = p
    · simp [hk]
    · rcases h with h | h
      · simp [h]
      · exact .inr (by omega)

/-! ### Admission and end -/

theorem mtCommandW_begin {evict : Bool} {v : Nat} {s : State} (hfree : s.tableJob = none) (h15 : bit v 15 = false)
    (h7 : bit v 7 = false) (hp : bits v 6 0 ≤ 95) (hn : 1 ≤ bits v 14 8) (hend : bits v 6 0 + bits v 14 8 ≤ 96) :
    mtCommandW evict v s = (0, { s with
      tableJob := some { evict := evict, first := bits v 6 0, count := bits v 14 8, image := BitVec.ofNat 64 (reg s 0x3100 1) } }) := by
  have hgood : (bit v 15 || bit v 7 || decide (95 < bits v 6 0) || bits v 14 8 == 0 || decide (96 < bits v 14 8)) = false := by
    simp only [h15, h7, Bool.or_false, Bool.false_or, Bool.or_eq_false_iff, decide_eq_false_iff_not, beq_eq_false_iff_ne]
    omega
  unfold mtCommandW
  dsimp only
  rw [hgood, hfree, if_neg (by simp), if_neg (by simp), if_neg (by omega)]

theorem mtPinnedTargets_congr {s t : State} (hchains : t.chains = s.chains) (hregs : t.regs = s.regs) (j : TableJob) :
    mtPinnedTargets t j = mtPinnedTargets s j := by
  have hpin : ∀ p, mtPinned t p = mtPinned s p := fun p => by
    unfold mtPinned chPostcodes chD chK chPost chain reg
    rw [hchains, hregs]
  simp only [mtPinnedTargets, hpin]

theorem mtLoadEnd_of_whole {s s1 : State} {j : TableJob} (hj : s.tableJob = some j) (hload : j.evict = false)
    (hread : mtRead (bits j.image.toNat 59 48) (bits j.image.toNat 47 0 + 1728 * j.taken.length) (j.first + j.taken.length)
      j.failed (j.count - j.taken.length) s = (.whole, s1)) (hfree : mtPinnedTargets s1 j = []) :
    mtLoadEnd s = mtFinish 0 j.first (mtStore j.first ((s1.tableJob.map fun j => j.taken).getD []) s1) := by
  unfold mtLoadEnd
  rw [hj]
  dsimp only
  rw [hload, if_neg (by simp), hread]
  dsimp only
  rw [hfree]

theorem mtLoadEnd_of_absent {s s1 : State} {j : TableJob} {q : Nat} (hj : s.tableJob = some j) (hload : j.evict = false)
    (hread : mtRead (bits j.image.toNat 59 48) (bits j.image.toNat 47 0 + 1728 * j.taken.length) (j.first + j.taken.length)
      j.failed (j.count - j.taken.length) s = (.absent q, s1)) :
    mtLoadEnd s = noteMiss (bits j.image.toNat 59 48) q false s1 := by
  unfold mtLoadEnd
  rw [hj]
  dsimp only
  rw [hload, if_neg (by simp), hread]

theorem mtEvictEnd_of_free {s : State} {j : TableJob} (hj : s.tableJob = some j) (hevict : j.evict = true)
    (hfree : mtPinnedTargets s j = []) : mtEvictEnd s = mtFinish 0 j.first (mtClear j.first j.count s) := by
  unfold mtEvictEnd
  rw [hj]
  dsimp only
  rw [hevict, if_pos rfl, hfree]

/-- Settles O13: the two admissions, the end of a whole load with what it took, its wait for a page, and the end of an evict. -/
theorem tableCommands : Obligations.TableCommands := by
  refine ⟨?_, fun s s1 j hj => ⟨fun hload hcount => ?_, fun hevict hfree => ⟨?_, fun i hi => ?_⟩⟩⟩
  · intro w v s n p hfree h15 h7 hp hn hend
    have hunit := fun evict => mtCommandW_begin (evict := evict) (s := countAccess s) hfree h15 h7 hp hn hend
    exact ⟨fun ho => congrArg Host.Outcome.next (unitRow_done ho (by decide) (hunit false)),
      fun ho => congrArg Host.Outcome.next (unitRow_done ho (by decide) (hunit true))⟩
  · intro ctx k l
    constructor
    · intro hread hfree
      obtain ⟨l', hl'⟩ := mtRead_taken (ctx := ctx) (failed := j.failed) (j.count - k) (bits j.image.toNat 47 0 + 1728 * k)
        (j.first + k) hj
      rw [hread] at hl'
      have hl : l = j.taken ++ l' := by
        unfold l
        rw [hl'.job]
        rfl
      have hlen : l.length = j.count := by
        rw [hl, List.length_append, hl'.whole rfl]
        omega
      refine ⟨?_, hlen, ⟨l', hl.symm⟩, fun w hw => hl'.good w ?_, fun i hi => mtStore_at (by omega)⟩
      · exact congrArg Host.Outcome.next
          (mtLoadEnd_of_whole hj hload hread ((mtPinnedTargets_congr hl'.chains hl'.regs j).trans hfree))
      · rwa [hl, List.drop_left] at hw
    · intro q hread
      exact congrArg Host.Outcome.next (mtLoadEnd_of_absent hj hload hread)
  · exact congrArg Host.Outcome.next (mtEvictEnd_of_free hj hevict hfree)
  · exact mtClear_free (.inr (by omega))

end Sys2Proof.Machine

/-! ## Ports, MACsec and queue pairs (R322 to R329) -/

namespace Sys2Proof.Machine

open Sys2Proof.Safety

@[simp] theorem holderOrSideband_countAccess (s : State) (p : Path) : holderOrSideband (countAccess s) p = holderOrSideband s p := rfl

theorem ethTrainingDone_of_training {port : Nat} {s : State} (h : (eth s port).state = 1) :
    ethTrainingDone port s = setEth port (fun e => { e with state := 2 }) s := if_pos h

theorem ethEntryW_speed {p : Path} {port v : Nat} {s : State} (hhold : holderOrSideband s p = true) (hv : v ≤ 2) :
    ethEntryW p port 1 v s = (0, setEth port (fun e => { e with state := 1 }) (setReg (0x3B10 + port) 1 v s)) := by
  rw [ethEntryW, if_neg (by decide), heldW, if_pos hhold, if_pos rfl, ethSpeedW, if_neg (not_lt.mpr hv)]

theorem macsecLoadW_of_record {port v : Nat} {bs : List Byte} {s s1 : State} (hres : bits v 63 60 = 0)
    (halign : bits v 47 0 % 128 = 0) (hread : sakRecord (bits v 59 48) (bits v 47 0) s = (some bs, s1))
    (hfields : sakFieldsOk (ofLe bs) = true) (hrole : (keySlot s1 (bits (ofLe bs) 23 16)).role = .session)
    (htag : gcmTag (keySlot s1 (bits (ofLe bs) 23 16)).key ((bs.drop 68).take 12) (bs.take 80) ((bs.drop 80).take 32) = bs.drop 112) :
    macsecLoadW port v s =
      (0, installAssoc port (bit (ofLe bs) 9) (sakAssoc (keySlot s1 (bits (ofLe bs) 23 16)).key bs) s1) := by
  unfold macsecLoadW
  dsimp only
  rw [if_neg (by omega), hread]
  dsimp only
  rw [hfields, hrole, htag]
  exact if_pos (by simp)

theorem ethEntryW_sakLoad {p : Path} {port v : Nat} {s : State} (hhold : holderOrSideband s p = true) :
    ethEntryW p port 9 v s = macsecLoadW port v s := by
  rw [ethEntryW, if_pos rfl, hhold]
  rfl

/-! ### Queue pairs (R328) -/

section
variable {p : Path} {s : State} {q : NormalCmd} (hrun : running s = true)
  (hlive : cmdGone (readEntry q.ctx (popCmd p s)) q = false)
include hrun hlive

/-- The table of a context or of a port is full. -/
def qpFull (s : State) (ctx port : Nat) : Prop :=
  16 ≤ (s.qps.filter fun e => e.2.ctx == ctx).length ∨ 256 ≤ (s.qps.filter fun e => e.1 / 2 ^ 24 == port).length

/-- The queue pair that QP_CREATE's operands describe. -/
def qpOfOperands (q : NormalCmd) (mtu : Nat) : QueuePair := {
  ctx := q.ctx, mac := BitVec.ofNat 48 (opWord q 0), ipHi := BitVec.ofNat 64 (opWord q 1), ipLo := BitVec.ofNat 64 (opWord q 2),
  remote := BitVec.ofNat 24 (bits (opWord q 3) 55 32), mtu := mtu, dscp := BitVec.ofNat 6 (bits (opWord q 4) 13 8),
  epsn := BitVec.ofNat 24 (opWord q 3), spsn := BitVec.ofNat 24 (opWord q 3), unacked := [], retries := 0, rate := 2 ^ 32,
  error := false }

theorem qpCreate_of_mtu {mtu : Nat} (hq : frontCmd s p 0x21 = some q) (hip : opWord q 1 ≠ 0 ∨ opWord q 2 < 2 ^ 32)
    (hmtu : mtuOf (bits (opWord q 4) 2 0) = some mtu) :
    let u := readEntry q.ctx (popCmd p s)
    (qpFull u q.ctx (qpPort p) → qpCreate p s = endCmd q 0x1D 0 u) ∧
    (¬ qpFull u q.ctx (qpPort p) →
      let n := freeQpn (draw u).2 (qpPort p) (draw u).1
      qpCreate p s = endCmd q 0 n { (draw u).2 with qps := (draw u).2.qps ++ [(qpKey (qpPort p) n, qpOfOperands q mtu)] }) := by
  intro u
  have hsome : (if opWord q 1 = 0 ∧ 2 ^ 32 ≤ opWord q 2 then none else mtuOf (bits (opWord q 4) 2 0)) = some mtu := by
    rw [if_neg (by omega), hmtu]
  have hbody := runCmd_of_front hrun hq hlive
  constructor
  · intro hfull
    rw [qpCreate, hbody]
    dsimp only
    rw [hsome]
    exact if_pos hfull
  · intro hroom n
    rw [qpCreate, hbody]
    dsimp only
    rw [hsome]
    exact if_neg hroom

theorem qpDestroy_of_owner {x : QueuePair} (hq : frontCmd s p 0x22 = some q) :
    let u := readEntry q.ctx (popCmd p s)
    qpOf u (qpPort p) (bits (opWord q 0) 23 0) = some x → x.ctx = q.ctx →
      qpDestroy p s = endCmd q 0 0 { u with qps := u.qps.filter fun e => e.1 != qpKey (qpPort p) (bits (opWord q 0) 23 0) } := by
  intro u hx howner
  rw [qpDestroy, runCmd_of_front hrun hq hlive]
  dsimp only
  rw [show qpOf (readEntry q.ctx (popCmd p s)) (qpPort p) (bits (opWord q 0) 23 0) = some x from hx]
  exact if_pos howner
end

/-! ### RoCE requests in order -/

theorem psnOrder_self (x : QueuePair) : psnOrder x x.epsn = 0 := by
  rw [psnOrder, BitVec.sub_self]
  rfl

section
variable {port qpn : Nat} {s : State} {x : QueuePair} (hx : qpOf s port qpn = some x) (hentry : entryFails s x.ctx = false)
include hx hentry

theorem roceWrite_of_pieces {rkey addr : Nat} {data : List Byte} {ps : List (Nat × Nat)}
    (hok : requestOk s x rkey addr data.length = true) (hps : unitPieces s x.ctx true addr data.length = some ps) :
    roceWrite port qpn x.epsn rkey addr data s = emit (.rdmaAck (Fin.ofNat 2 port) (BitVec.ofNat 24 qpn) x.epsn)
      (expectNext port qpn data.length (unitWrite .remote true false ps data (unitUse x.ctx addr data.length s))) := by
  unfold roceWrite
  rw [hx]
  dsimp only
  rw [psnOrder_self, if_neg (by decide), if_neg (by decide), hentry, if_neg (by decide), hok, if_pos rfl, hps]

theorem roceRead_of_range {rkey addr n : Nat} (hok : requestOk s x rkey addr n = true)
    (hrange : unitFault s x.ctx false addr n = none) :
    roceRead port qpn x.epsn rkey addr n s = answerRead port qpn x.epsn x addr n (expectNext port qpn n s) := by
  unfold roceRead
  rw [hx]
  dsimp only
  rw [psnOrder_self, if_neg (by decide), hentry, if_neg (by decide), hok, if_pos rfl, hrange]
  rfl

omit hentry

theorem roceNak_of_qp (psn : BitVec 24) : roceNak port qpn psn s =
    resendFrom port qpn (x.unacked.filter fun p => decide (0 ≤ toSigned 24 (p - psn).toNat)) s := by
  simp only [roceNak, hx]

theorem roceTimeout_of_retries (hwait : x.unacked ≠ []) (hretry : x.retries < 7) : roceTimeout port qpn s =
    resendFrom port qpn x.unacked (setQp port qpn (fun x => { x with retries := x.retries + 1 }) s) := by
  unfold roceTimeout
  rw [hx]
  dsimp only
  rw [if_neg (by simpa using hwait), if_pos hretry]
end

end Sys2Proof.Machine

namespace Sys2Proof.Machine

open Sys2Proof.Safety

theorem roceRow_of_running {port qpn : Nat} {psn : BitVec 24} {f : State → State} {s : State} (h : s.power.state = 0) :
    roceRow port qpn psn f s = f s := by
  rw [roceRow, h, if_neg (by decide), if_neg (by decide)]

theorem finOfNat_val (p : Fin 2) : Fin.ofNat 2 p.val = p := Fin.ofNat_val_eq_self p

/-- Settles O45: ports and MACsec by their units, queue pairs through `runCmd`, and RoCE requests by their PSN. -/
theorem portsAndQueuePairs : Obligations.PortsAndQueuePairs := by
  refine ⟨?_, ?_, ?_⟩
  · intro w p s u
    refine ⟨fun _ => rfl, fun v ho hhold hv => ?_, fun h => ?_, ?_⟩
    · exact congrArg Host.Outcome.next (unitRow_done ho (plainEntry_ethSpeed p)
        ((scalarW_ethEntry w.path p 1 v.toNat _).trans (ethEntryW_speed (by simpa using hhold) hv)))
    · exact congrArg Host.Outcome.next (ethTrainingDone_of_training h)
    · intro v bs s1 k ho hhold hres halign hread hfields hrole htag
      have hu := (scalarW_ethEntry w.path p 9 v.toNat u).trans (ethEntryW_sakLoad (by simpa [u] using hhold))
      exact congrArg Host.Outcome.next (unitRow_done ho (plainEntry_sakLoad p)
        (hu.trans (macsecLoadW_of_record hres halign hread hfields hrole htag)))
  · intro p s q u hrun hlive
    refine ⟨fun mtu hq hip hmtu => ?_, fun x hq hx howner => ?_⟩
    · obtain ⟨hfull, hroom⟩ := qpCreate_of_mtu hrun hlive hq hip hmtu
      split
      next h => exact congrArg Host.Outcome.next (hfull h)
      next h => exact ⟨qpOfOperands q mtu, rfl, rfl, rfl, rfl, rfl, rfl, congrArg Host.Outcome.next (hroom h)⟩
    · exact congrArg Host.Outcome.next (qpDestroy_of_owner hrun hlive hq hx howner)
  · intro port qpn s x hx hentry
    refine ⟨fun rkey addr data ps hrun hok hps => ?_, fun rkey addr n hrun hok hrange => ?_, fun psn => ?_, fun hwait hretry => ?_,
      rfl, rfl⟩
    · have h := roceWrite_of_pieces hx hentry hok hps
      rw [finOfNat_val, BitVec.ofNat_toNat, BitVec.setWidth_eq] at h
      exact congrArg Host.Outcome.next ((roceRow_of_running hrun).trans h)
    · exact congrArg Host.Outcome.next ((roceRow_of_running hrun).trans (roceRead_of_range hx hentry hok hrange))
    · exact congrArg Host.Outcome.next (roceNak_of_qp hx psn)
    · exact congrArg Host.Outcome.next (roceTimeout_of_retries hx hwait hretry)

end Sys2Proof.Machine

/-! ## Link ports (R344 to R349) -/

namespace Sys2Proof.Machine

open Sys2Proof.Safety

section
variable {p : Nat} {s : State} (hup : (link s p).state = 3)
include hup

theorem linkPacket_broken {bs : List Byte} (h : packetWhole bs = false) :
    linkPacket p bs s = sendControl p 8 (bumpE (0x3C10 + p) 3 s) := by
  rw [linkPacket, if_neg (not_not.mpr hup), if_pos h]

/-- A whole packet in sequence, none of its encodings reserved, that is no ACK, NAK or CONTROL (R344, log 138). -/
theorem linkPacket_inSequence {bs : List Byte} (hwhole : packetWhole bs = true) (hgood : headerReserved (ofBe (bs.take 32)) = false)
    (hdata : (packetOf (ofBe (bs.take 32)) (bs.drop 32)).type ∉ [7, 8, 9])
    (hseq : bits (ofBe (bs.take 32)) 247 232 = (link (ackTo p (bits (ofBe (bs.take 32)) 231 216) s) p).rxSeq.toNat) :
    let h := ofBe (bs.take 32)
    let k := packetOf h (bs.drop 32)
    let u := ackTo p (bits h 231 216) s
    let v := sendControl p 7 (setLink p (fun l => { l with
      rxSeq := l.rxSeq + 1, rxBytes := l.rxBytes + BitVec.ofNat 64 k.data.length }) u)
    linkPacket p bs s = if k.dst = moduleOf v then deliver (bits h 205 203) k v else v := by
  intro h k u v
  have hdata' : k.type ∉ [7, 8, 9] := hdata
  have h7 : k.type ≠ 7 := fun e => hdata' (by simp [e])
  have h8 : k.type ≠ 8 := fun e => hdata' (by simp [e])
  have h9 : k.type ≠ 9 := fun e => hdata' (by simp [e])
  rw [linkPacket, if_neg (not_not.mpr hup), if_neg (by simp [hwhole])]
  dsimp only
  rw [hgood, if_neg (fun e => h8 e.1), if_neg (fun e => h7 e.1), if_neg (fun e => h9 e.1)]
  refine (if_neg (not_not.mpr hseq)).trans ?_
  simp only [true_and]
  rfl

theorem linkNak_of_up (seq : Nat) : linkNak p seq s = replay p (ackTo p seq s) := if_pos hup

theorem linkAckTimeout_of_unacked (h : (link s p).replay ≠ []) : linkAckTimeout p s = replay p s := if_pos ⟨hup, h⟩
end

theorem linkRetrainEnd_ok {p : Nat} {s : State} (h : (link s p).state = 5) :
    linkRetrainEnd p true s = flushHeld (resendAll p (setLink p (fun l => { l with state := 3, replays := 0 }) s)) := by
  rw [linkRetrainEnd, if_neg (not_not.mpr h), if_pos rfl]

theorem linkRetrainEnd_failed {p : Nat} {s : State} (h : (link s p).state = 5) :
    linkRetrainEnd p false s = portLeaves p 0 (setLink p (fun l => { l with lost := true })
      (linkRecord p .linkRetrainFail (link s p).peer (bumpE (0x3C10 + p) 5 s))) := by
  rw [linkRetrainEnd, if_neg (not_not.mpr h), if_neg (by decide)]

theorem linkTrainDone_of_peer {p : Nat} {s : State} (i : PeerIdentity) (h : (link s p).state = 1 ∨ (link s p).state = 2) :
    let v := roleConflict (setLink p (fun l => { l with peer := some i }) s)
    linkTrainDone p (some i) s = if identityOk v p i = true then
      flushHeld (setLink p (fun l => { l with state := 3, txSeq := 0, rxSeq := 0, replay := [], replays := 0 }) v)
      else linkRecord p .miswired (some i) (setLink p (fun l => { l with state := 4 }) v) := by
  have htrain : ¬ ((link s p).state ≠ 1 ∧ (link s p).state ≠ 2) := fun ⟨h1, h2⟩ => h.elim h1 h2
  rw [linkTrainDone, if_neg htrain]

theorem heldW_of_holder {p : Path} {s : State} (h : holderOrSideband s p = true) (f : State → Nat × State) : heldW p f s = f s :=
  if_pos h

theorem spareModeW_of_range {v : Nat} (h : v ≤ 2) (s : State) : spareModeW v s =
    (0, [21, 22, 23].foldl (fun s p => startTraining p (portLeaves p 0 s)) (setReg 0x3C00 3 v s)) := if_neg (not_lt.mpr h)

theorem linkPeerSeen_of_lost {p : Nat} {s : State} (hdown : (link s p).state = 0) (hlost : (link s p).lost = true) :
    linkPeerSeen p s = startTraining p s := if_pos ⟨hdown, hlost⟩

/-- Settles O46: packets on a port that is UP, and the events and entries that train a port. -/
theorem linksCarryPackets : Obligations.LinksCarryPackets := by
  constructor
  · intro p s hup
    refine ⟨fun bs hbad => ?_, ?_, fun q => ?_, fun hrep => ?_⟩
    · exact congrArg Host.Outcome.next (linkPacket_broken hup hbad)
    · intro bs h k u hwhole hgood hdata hseq v
      exact congrArg Host.Outcome.next (linkPacket_inSequence hup hwhole hgood hdata hseq)
    · exact congrArg Host.Outcome.next (linkNak_of_up hup q.toNat)
    · exact congrArg Host.Outcome.next (linkAckTimeout_of_unacked hup hrep)
  · intro w p s u
    have hcmd := fun (v : Nat) (h : holderOrSideband s w.path = true) =>
      (scalarW_linkCommand w.path p v u).trans (heldW_of_holder (s := u) (p := w.path) h (linkCommandW p.val v))
    refine ⟨fun h5 => ⟨?_, ?_⟩, fun i htrain => ?_, fun ho hhold => ?_, fun ho hhold => ?_, fun v ho hhold hv => ?_, fun h0 hl => ?_⟩
    · exact congrArg Host.Outcome.next (linkRetrainEnd_ok h5)
    · exact congrArg Host.Outcome.next (linkRetrainEnd_failed h5)
    · exact congrArg Host.Outcome.next (linkTrainDone_of_peer i htrain)
    · exact congrArg Host.Outcome.next (unitRow_done ho (plainEntry_linkCommand p) (hcmd 1 hhold))
    · exact congrArg Host.Outcome.next (unitRow_done ho (plainEntry_linkCommand p) (hcmd 2 hhold))
    · have hu : scalarW w.path 0x3C00 3 v.toNat u = heldW w.path (spareModeW v.toNat) u := rfl
      exact congrArg Host.Outcome.next (unitRow_done ho (by decide)
        (hu.trans ((heldW_of_holder (s := u) hhold _).trans (spareModeW_of_range hv u))))
    · exact congrArg Host.Outcome.next (linkPeerSeen_of_lost h0 hl)

end Sys2Proof.Machine

/-! ## What managers relay (R353 to R357) -/

namespace Sys2Proof.Machine

open Sys2Proof.Safety

/-- The payload that a relayed command stands for: its header as the sideband would send it (R291). -/
def relayedPayload (m : RelayMsg) : Payload :=
  { h := packFields [(188, 4, 1), (184, 4, 1), (176, 8, m.code), (175, 1, b2n (isExpress m.code)), (160, 12, m.ctx), (144, 16, m.gen)]
    ops := m.ops, tag := [] }

theorem relayedCommand_of_free {m : RelayMsg} {s s1 : State} {k : Nat}
    (hctx : m.code = 1 ∨ ctxState s m.ctx ≠ 0 ∧ ctxGen s m.ctx = m.gen) (hfree : slotBusy s .sideband (relayedPayload m) = false)
    (hresult : createResult m.code m.ctx 0 0 s = (some k, s1)) :
    relayedCommand m s = enqueueCmd .sideband (relayedPayload m) k { s1 with relayJobs := s1.relayJobs ++
      [{ result := k, code := BitVec.ofNat 8 m.code, ctx := m.ctx, await := [], reported := [], up := some (m.src, m.slot) }] } := by
  have hgone : ¬ (m.code ≠ 1 ∧ (ctxState s m.ctx = 0 ∨ ctxGen s m.ctx ≠ m.gen)) := by
    rintro ⟨hc, h⟩
    rcases hctx with h1 | ⟨h2, h3⟩
    · exact hc h1
    · exact h.elim h2 (fun h4 => h4 h3)
  unfold relayedCommand
  refine (if_neg hgone).trans ((if_neg (fun h => absurd (hfree.symm.trans h) (by decide))).trans ?_)
  rw [hresult]
  rfl

theorem relayCmd_of_command {bs : List Byte} {s : State} (hboard : onBoard s (relayMsgOf bs).dst = true)
    (hmodule : (relayMsgOf bs).dst % 8 = moduleOf s) (hcmd : (relayMsgOf bs).report = false) :
    relayCmd bs s = relayedCommand (relayMsgOf bs) s := by
  unfold relayCmd relayPacketIn
  dsimp only
  rw [hboard, hmodule, hcmd]
  exact (if_pos (by simp)).trans (if_neg (by simp))

theorem managerJoin_confirmed {s : State} (h : s.hier.state = 1) (t : List (Nat × BitVec 48)) :
    managerJoin true t s = s.hier.held.foldl (fun s e => routeTo e.1 e.2 s)
      { s with hier := { s.hier with state := 2, confirmed := true, peerTable := t, held := [] } } := by
  rw [managerJoin, if_neg (not_not.mpr h), if_pos rfl]

theorem managerJoin_refused {s : State} (h : s.hier.state = 1) (t : List (Nat × BitVec 48)) :
    managerJoin false t s = { s with hier := { s.hier with state := 3, confirmed := false, peerTable := [] } } := by
  rw [managerJoin, if_neg (not_not.mpr h), if_neg (by decide)]

/-- A packet of a RELAY frame, whole or not: delivered where its type may be relayed, recorded where an encoding of it is reserved. -/
theorem relayFrame_packet (b : List Byte) (s : State) :
    (if packetWhole b = true then
      let h := ofBe (b.take 32)
      let k := packetOf h (b.drop 32)
      if headerReserved h = true then stageRec 0 { unit := .link, reason := .reservedField } (bumpE 0x3C00 8 s)
      else if k.type = 4 ∨ k.type = 5 ∨ k.type = 0xA then deliver (bits h 205 203) k s else s
     else s) =
    let h := ofBe (b.take 32)
    if packetWhole b = true ∧ headerReserved h = false ∧ bits h 255 252 ∈ [4, 5, 10] then
      deliver (bits h 205 203) (packetOf h (b.drop 32)) s
    else if packetWhole b = true ∧ headerReserved h = true then stageRec 0 { unit := .link, reason := .reservedField } (bumpE 0x3C00 8 s)
    else s := by
  have htype : (packetOf (ofBe (b.take 32)) (b.drop 32)).type = bits (ofBe (b.take 32)) 255 252 := rfl
  cases hw : packetWhole b <;> cases hr : headerReserved (ofBe (b.take 32)) <;> simp [htype, hr]

theorem relayFrame_of_role {bs : List Byte} {s : State} (h : effRole s ≠ 0) :
    relayFrame bs s = (framePackets (bs.length / 32) bs).foldl (fun s b =>
      let h := ofBe (b.take 32)
      if packetWhole b = true ∧ headerReserved h = false ∧ bits h 255 252 ∈ [4, 5, 10] then
        deliver (bits h 205 203) (packetOf h (b.drop 32)) s
      else if packetWhole b = true ∧ headerReserved h = true then
        stageRec 0 { unit := .link, reason := .reservedField } (bumpE 0x3C00 8 s)
      else s) s := by
  rw [relayFrame, if_neg h]
  congr 1
  funext s b
  exact relayFrame_packet b s

theorem relayedPage_of_fetch {c page n : Nat} {data : List Byte} {more : List Nat} {s : State} {f : Fetch}
    (hfind : s.fetches.findIdx? (fun f => f.any fun x => x.ctx == c && x.page == page && !x.stale) = some n)
    (hf : s.fetches.getD n none = some f) (hlen : data.length = 2 ^ 21) :
    relayedPage c page data more s = relayPage c page more data (installPage n f data s) := by
  unfold relayedPage
  rw [hfind]
  dsimp only
  rw [hf]
  dsimp only
  rw [if_pos hlen]

/-- Settles O47: a relayed command, a join, a RELAY frame, and a page on its way. -/
theorem managersRelay : Obligations.ManagersRelay := by
  refine ⟨?_, fun t s h => ⟨?_, ?_⟩, fun bs s h => ?_, fun c page n data more s f hfind hf hlen => ?_⟩
  · intro bs s m x hboard hmodule hcmd hctx hfree k s1 hresult
    exact congrArg Host.Outcome.next
      ((relayCmd_of_command hboard hmodule hcmd).trans (relayedCommand_of_free hctx hfree hresult))
  · exact congrArg Host.Outcome.next (managerJoin_confirmed h t)
  · exact congrArg Host.Outcome.next (managerJoin_refused h t)
  · exact congrArg Host.Outcome.next (relayFrame_of_role h)
  · exact congrArg Host.Outcome.next (relayedPage_of_fetch hfind hf hlen)

end Sys2Proof.Machine

/-! ## Frames, NOTIFY, MCTP and the sideband's own commands (R362, R369, R372, R377, R378) -/

namespace Sys2Proof.Machine

open Sys2Proof.Safety

section
variable {p : Path} {bs : List Byte} {s : State} (hpower : s.power.standby = true)
include hpower

theorem dictFrame_of_good (hports : portsOn s p = true) (hgood : weniusOk bs = true) (hkind : weniusKind bs = 1) :
    dictFrame p bs s = dictBody p bs s := by
  unfold dictFrame
  rw [hports, hpower, if_neg (by simp), if_pos hgood, weniusFrame, hkind]
  rfl

theorem dictFrame_of_broken (hports : portsOn s .port0 = true) (hbad : weniusOk bs = false) :
    dictFrame .port0 bs s = bumpE 0x3B10 0xB s := by
  unfold dictFrame
  rw [hports, hpower, if_neg (by simp), if_neg (by simp [hbad])]
  rfl

theorem notifySend_port0 (hpending : attnCount s ≠ 0) (hon : reg s 0x1110 1 ≠ 0) (hup : (eth s 0).state = 2) :
    let u := draw (setPath .port0 (fun x => { x with notifyCount := x.notifyCount + 1 }) s)
    notifySend .port0 s = emit (.notify .port0 (notifyFrame 0 u.1 (pathState u.2 .port0).notifyCount.toNat u.2)) u.2 := by
  have hgo : ¬ (attnCount s = 0 ∨ s.power.standby = false) := by simp [hpending, hpower]
  unfold notifySend
  rw [if_neg hgo]
  exact if_pos ⟨hon, hup⟩

theorem mctpMessage_of_whole (hlen : bs.length ≤ 1152) (hvendor : bs.take 4 = toBe 4 Config.vendor.toNat)
    (hgood : weniusOk (bs.drop 4) = true) (hkind : weniusKind (bs.drop 4) = 1) :
    mctpMessage true bs s = dictBody .sideband (bs.drop 4) s := by
  unfold mctpMessage
  rw [hpower, if_neg (by simp), if_neg (by simpa using hlen), if_neg (not_not.mpr hvendor)]
  dsimp only
  rw [hgood, if_neg (by simp), if_pos hkind]

theorem mctpMessage_of_part : mctpMessage false bs s = bumpE 0x1000 0x15 s := by
  unfold mctpMessage
  rw [hpower, if_neg (by simp), if_pos (by simp)]

/-- While the always-on island has power, the sideband is served. -/
theorem served_of_power (f : State → State) : served s f = f s := by
  simp [served, hpower]

theorem setSideband_of_power (f : Sideband → Sideband) : setSideband f s = { s with sideband := f s.sideband } :=
  served_of_power hpower _

theorem i3cAnswer_of_power (l : List Byte) : i3cAnswer l s = emit (.i3c l) s := served_of_power hpower _

theorem mctpControl_of_power (code completion : Nat) (body : List Byte) : mctpControl code completion body s =
    emit (.mctp ([BitVec.ofNat 8 code, BitVec.ofNat 8 completion] ++ body)) s := served_of_power hpower _

theorem setEndpointId_of_id {e : BitVec 8} (h0 : e ≠ 0) (h255 : e ≠ 255) : setEndpointId e s =
    mctpControl 1 0 [0, e, 0] { s with sideband := { s.sideband with eid := e } } := by
  have hid : ¬ (e = 0 ∨ e = 255) := not_or.mpr ⟨h0, h255⟩
  rw [setEndpointId, served_of_power hpower]
  exact if_neg hid

/-- A dynamic address is taken once (R377). -/
theorem entdaa_of_power (a : BitVec 7) : entdaa a s =
    if s.sideband.dynAddr = none then { s with sideband := { s.sideband with dynAddr := some a } } else s := by
  rw [entdaa, setSideband_of_power hpower]
  cases h : s.sideband.dynAddr <;> rfl

theorem getstatus_of_power : getstatus s = emit (.i3c (toBe 2 (draw s).1)) (draw s).2 :=
  i3cAnswer_of_power (s := (draw s).2) hpower _

omit hpower in
theorem maxLen_of_le {v : BitVec 16} (h : v.toNat ≤ 69) : maxLen v = v := if_pos h

theorem setmrl_of_le {v : BitVec 16} (h : v.toNat ≤ 69) : setmrl v s = { s with sideband := { s.sideband with mrl := v } } := by
  rw [setmrl, setSideband_of_power hpower, maxLen_of_le h]

theorem setmwl_of_le {v : BitVec 16} (h : v.toNat ≤ 69) : setmwl v s = { s with sideband := { s.sideband with mwl := v } } := by
  rw [setmwl, setSideband_of_power hpower, maxLen_of_le h]
end

/-- The outcomes of two commands that lead to the same state. -/
theorem next_congr {s t : State} (h : s = t) : (.next s : Host.Outcome State Fault Refusal) = .next t := congrArg _ h

/-- Settles O51: frames and messages by their checks, and the sideband's commands while it has power. -/
theorem framesAndSideband : Obligations.FramesAndSideband := by
  constructor
  · intro p bs s hpower hports
    refine ⟨fun hgood hkind => ?_, fun hbad hp => ?_, fun hp hpending hon hup => ?_, fun hlen hvendor hgood hkind => ?_, ?_⟩
    · exact next_congr (dictFrame_of_good hpower hports hgood hkind)
    · subst hp
      exact next_congr (dictFrame_of_broken hpower hports hbad)
    · subst hp
      exact next_congr (notifySend_port0 hpower hpending hon hup)
    · exact next_congr (mctpMessage_of_whole hpower hlen hvendor hgood hkind)
    · exact next_congr (mctpMessage_of_part hpower)
  · intro s hpower mctp
    have hmctp := fun (code : Nat) (body : List Byte) => next_congr (mctpControl_of_power hpower code 0 body)
    have hset := fun (f : Sideband → Sideband) => next_congr (setSideband_of_power hpower f)
    have hi3c := fun (l : List Byte) => next_congr (i3cAnswer_of_power hpower l)
    have haddr := fun (a : BitVec 7) => next_congr (entdaa_of_power hpower a)
    refine ⟨fun e h0 h255 => ?_, hmctp 2 _, hmctp 3 _, hmctp 4 _, hmctp 5 _, hmctp 6 _, fun a => ⟨haddr a, haddr a⟩, hset _,
      fun m => ⟨hset _, hset _⟩, hi3c _, hi3c _, hi3c _, ?_, hi3c _, hi3c _, hi3c _, fun v hv => ⟨?_, ?_⟩⟩
    · exact next_congr ((setEndpointId_of_id hpower h0 h255).trans 
      (mctpControl_of_power (s := { s with sideband := { s.sideband with eid := e } }) hpower 1 0 _))
    · exact next_congr (getstatus_of_power hpower)
    · exact next_congr (setmrl_of_le hpower hv)
    · exact next_congr (setmwl_of_le hpower hv)

end Sys2Proof.Machine

/-! ## Octet strings of the dictionary -/

namespace Sys2Proof.Machine

open Sys2Proof.Safety

/-- An octet string that `opens` admits reaches its unit as it stands. -/
theorem octetsRow_opens {w : Who} {index sub n : Nat} {bs : List Byte} {s : State} {e : Entry} (he : entryOf index sub = some e)
    (ht : e.type = .octets n) (hn : bs.length = n) (ho : opens w index sub 0 s = true) (hro : e.access ≠ .ro) (hack : e.access ≠ .ack)
    (hkey : (index == 0x1000 && sub == 0x10) = false) :
    octetsRow w index sub bs s = answer w ((octetsW w.path index sub bs (countAccess s)).1, [],
      lockPath w.path (octetsW w.path index sub bs (countAccess s)).2) := by
  simp only [opens, he, Bool.and_eq_true] at ho
  obtain ⟨⟨⟨⟨⟨hs, hp⟩, ha⟩, hlock⟩, -⟩, -⟩ := ho
  have ha' : available (countAccess s) e index = true := ha
  have hlock' : ¬ (e.access = .rwl ∧ (pathState (countAccess s) w.path).unlocked = false) := by
    rintro ⟨hrwl, hu⟩
    have hu' : (pathState s w.path).unlocked = false := hu
    simp [hrwl, hu'] at hlock
  have hcode : (10 : Nat) = e.type.code := by rw [ht]; rfl
  have hbytes : e.type.bytes = n := by rw [ht]; rfl
  have htravel : travel e.type bs = bs := by rw [ht]; rfl
  have hunit (u : State) : unitW w.path e index sub bs u = octetsW w.path index sub bs u := by rw [unitW, ht]
  simp [octetsRow, dictWrite, served, hs, writeAccess, he, ← hcode, hbytes, hn, htravel, writeEntry, reachStatus, hp, ha', hkey,
    hlock', hunit]

/-! ## Attestation (R388 to R390) -/

/-- The entry of NONCE of each path. -/
theorem entryOf_nonce (p : Path) :
    ∃ e, entryOf (0x4200 + pathIdx p) 7 = some e ∧ e.type = .octets 32 ∧ e.access = .wo := by
  cases p <;> exact ⟨_, rfl, rfl, rfl⟩

theorem octetsW_nonce (p q : Path) (bs : List Byte) (s : State) : octetsW p (0x4200 + pathIdx q) 7 bs s = attestNonceW p bs s := by
  cases q <;> rfl

theorem attestNonceW_idle {p : Path} {nonce : List Byte} {s : State} (h : (pathState s p).attest ≠ 1) :
    attestNonceW p nonce s = (0, queueIsland p 0 (setPath p (fun x => { x with nonce := nonce, attest := 1 }) s)) := if_neg h

theorem attestNonce_row {w : Who} {nonce : List Byte} {s : State} (ho : opens w (0x4200 + pathIdx w.path) 7 0 s = true)
    (hn : nonce.length = 32) (hidle : (pathState s w.path).attest ≠ 1) :
    octetsRow w (0x4200 + pathIdx w.path) 7 nonce s =
      wrote w (queueIsland w.path 0 (setPath w.path (fun x => { x with nonce := nonce, attest := 1 }) (countAccess s))) := by
  obtain ⟨e, he, ht, hwo⟩ := entryOf_nonce w.path
  have hkey : (0x4200 + pathIdx w.path == 0x1000 && (7 : Nat) == 0x10) = false := Bool.and_false _
  have hidle' : (pathState (countAccess s) w.path).attest ≠ 1 := hidle
  rw [octetsRow_opens he ht hn ho (by simp [hwo]) (by simp [hwo]) hkey, octetsW_nonce, attestNonceW_idle hidle']
  rfl

theorem attestDone_of_signed {p : Path} {s : State} (h : (pathState s p).attest = 1) (hjob : islandJob s p false = false) :
    attestDone p s =
      let v := setIsland (fun i => { i with reports := i.reports + 1 }) s
      setPath p (fun x => { x with report := reportBody v p ++ (identitySign (reportBody v p) v).1, attest := 2 })
        (identitySign (reportBody v p) v).2 := by
  simp only [attestDone, h, hjob, and_self, if_true]

/-! ## Key exchange (R391 to R394) -/

theorem kexCommandW_one {p : Path} {s : State} (h : (pathState s p).kexState.toNat % 256 ≠ 1) :
    kexCommandW p 1 s = (0, if kexEarly s (pathState s p).kexBuf = 0 then
      queueIsland p 1 (setKeySlot ((pathState s p).kexBuf.getD 2 0).toNat (fun x => { x with claimed := true })
        (setPath p (fun x => { x with kexState := 1, kexSlot := some ((pathState s p).kexBuf.getD 2 0) }) s))
      else kexFails p (kexEarly s (pathState s p).kexBuf) s) := by
  by_cases he : kexEarly s (pathState s p).kexBuf = 0 <;> simp [kexCommandW, h, he]

theorem toBe_length (n v : Nat) : (toBe n v).length = n := by simp [toBe, length_toLe]

/-- The working variables of a hash stay eight. -/
theorem shaRounds_length (p : Sha2) (l : List (Nat × Nat)) (v : List Nat) (h : v.length = 8) :
    (l.foldl (shaRound p) v).length = 8 := by
  induction l generalizing v with
  | nil => exact h
  | cons x r ih => exact ih _ rfl

theorem shaBlock_length {p : Sha2} {h : List Nat} (hh : h.length = 8) (blk : List Byte) : (shaBlock p h blk).length = 8 := by
  simp [shaBlock, hh, shaRounds_length p _ h hh]

theorem shaBlocks_length (p : Sha2) (l : List (List Byte)) (h : List Nat) (hh : h.length = 8) :
    (l.foldl (shaBlock p) h).length = 8 := by
  induction l generalizing h with
  | nil => exact hh
  | cons b r ih => exact ih _ (shaBlock_length hh b)

theorem sha2_length (p : Sha2) {init : List Nat} (h : init.length = 8) (m : List Byte) :
    (sha2 p init m).length = 8 * (p.w / 8) := by
  have hlen := shaBlocks_length p (chunks (2 * p.w) (shaPad p.w m)) init h
  simp [sha2, List.length_flatMap, toBe_length, hlen]
  omega

theorem sha384_length (m : List Byte) : (sha384 m).length = 48 := by
  have hinit : (sha2Init ((primes80.drop 8).take 8)).length = 8 := by
    have hprimes : 16 ≤ primes80.length := by decide +kernel
    simp [sha2Init]
    omega
  have hw : sha512Par.w = 64 := rfl
  simp [sha384, sha2_length sha512Par hinit, hw]

/-- What one key slot holds after another is set. -/
theorem keySlot_setKeySlot_same (k : Nat) (f : KeySlot → KeySlot) (s : State) :
    keySlot (setKeySlot k f s) k = f (keySlot s k) := tget_tset_self ..

theorem keySlot_setKeySlot_of_ne {j k : Nat} (h : j ≠ k) (f : KeySlot → KeySlot) (s : State) :
    keySlot (setKeySlot k f s) j = keySlot s j := tget_tset_of_ne _ _ _ h

@[simp] theorem keySlot_setPath (p : Path) (f : PathState → PathState) (s : State) (k : Nat) :
    keySlot (setPath p f s) k = keySlot s k := rfl

@[simp] theorem keySlot_randomBytes (n : Nat) (s : State) (k : Nat) : keySlot (randomBytes n s).2 k = keySlot s k := rfl

@[simp] theorem keySlot_identitySign (m : List Byte) (s : State) (k : Nat) : keySlot (identitySign m s).2 k = keySlot s k := rfl

theorem keySlot_installKey_same (k : Nat) (role : SlotRole) (key : List Byte) (s : State) :
    keySlot (installKey k role key s) k =
      { role := role, key := key, claimed := false, installs := (keySlot s k).installs + 1 } :=
  keySlot_setKeySlot_same k (fun x => { role := role, key := key, claimed := false, installs := x.installs + 1 }) s

theorem keySlot_installKey_of_ne {j k : Nat} (h : j ≠ k) (role : SlotRole) (key : List Byte) (s : State) :
    keySlot (installKey k role key s) j = keySlot s j :=
  keySlot_setKeySlot_of_ne h (fun x => { role := role, key := key, claimed := false, installs := x.installs + 1 }) s

/-- A key installed, as an exchange leaves it: a claim is over, and no other slot has changed. -/
theorem installed_slot {s t u : State} {k : Nat} {role : SlotRole} {key : List Byte}
    (hu : ∀ j, keySlot u j = keySlot s j) (ht : ∀ j, keySlot t j = keySlot (installKey k role key u) j) (hlen : key.length = 32) :
    (keySlot t k).role = role ∧ (keySlot t k).key.length = 32 ∧ (keySlot t k).claimed = false ∧
      (keySlot t k).installs = (keySlot s k).installs + 1 ∧ ∀ j, j ≠ k → keySlot t j = keySlot s j := by
  rw [ht, keySlot_installKey_same, hu]
  exact ⟨rfl, hlen, rfl, rfl, fun j hj => by rw [ht, keySlot_installKey_of_ne hj, hu]⟩

theorem take32_sha384_length (m : List Byte) : ((sha384 m).take 32).length = 32 := by simp [sha384_length]

/-- An exchange whose jobs have ended and that passes the late checks. -/
theorem kexDone_installs {p : Path} {s : State} {k : Byte} (hk : (pathState s p).kexSlot = some k)
    (hjob : islandJob s p true = false) (hlate : kexLate (pathState s p).kexBuf = 0) :
    (keySlot (kexDone p s) k.toNat).role = (if (pathState s p).kexBuf.getD 1 0 = 1 then .admin else .session) ∧
      (keySlot (kexDone p s) k.toNat).key.length = 32 ∧ (keySlot (kexDone p s) k.toNat).claimed = false ∧
      (keySlot (kexDone p s) k.toNat).installs = (keySlot s k.toNat).installs + 1 ∧
      ∀ j, j ≠ k.toNat → keySlot (kexDone p s) j = keySlot s j := by
  simp only [kexDone, hk, hjob, hlate, ne_eq, not_true_eq_false, if_false, Bool.false_eq_true]
  exact installed_slot (fun j => rfl) (fun j => rfl) (take32_sha384_length _)

/-! ## Key slots and the queue of the big-number engine (R394 to R400) -/

theorem plainEntry_slotErase : plainEntry 0x4020 3 = true := by decide
theorem plainEntry_bnJob : plainEntry 0x4030 1 = true := by decide

theorem slotEraseW_unclaimed {v : Nat} {s : State} (hv : v < 0xF0) (h : (keySlot s v).claimed = false) :
    slotEraseW v s = (0, setKeySlot v (fun k => { k with role := .empty, key := [] }) s) := by
  simp [slotEraseW, Nat.not_le.mpr hv, h]

theorem bnJobW_room {v : Nat} {s : State} (ha : ctxAddrOk 64 v = true) (h : s.island.bnQueue.length < 16) :
    bnJobW v s = (0, setIsland (fun i => { i with
      bnQueue := i.bnQueue ++ [{ ctx := bits v 59 48, addr := bits v 47 0, seq := i.bnSeq }], bnSeq := i.bnSeq + 1 }) s) := by
  simp [bnJobW, ha, Nat.not_le.mpr h]

theorem bnJobStart_noParked {s : State} (h : s.island.bnRunning = none) (hp : s.island.bnParked = []) :
    bnJobStart s = bnStartQueued s := by
  simp [bnJobStart, h, hp, lowestClass]

/-- A parked job resumes unless a queued one is of a lower class. -/
theorem bnJobStart_resumes {s : State} {p : Nat} (h : s.island.bnRunning = none)
    (hp : lowestClass (fun j => j.cls) s.island.bnParked = some p)
    (hq : ∀ q, lowestClass (queuedClass s) s.island.bnQueue = some q → p ≤ q) :
    bnJobStart s = setIsland (fun i => { i with
      bnRunning := i.bnParked.find? (fun j => j.cls == p), bnParked := i.bnParked.filter fun j => j.cls != p }) s := by
  have hnone : (lowestClass (queuedClass s) s.island.bnQueue).any (fun q => decide (q < p)) = false := by
    cases hl : lowestClass (queuedClass s) s.island.bnQueue with
    | none => rfl
    | some q => simpa using hq q hl
  simp [bnJobStart, h, hp, hnone]

theorem bnYieldPoint_yields {s : State} {j : BnJob} (h : s.island.bnRunning = some j)
    (hq : ∃ k ∈ s.island.bnQueue, queuedClass s k < j.cls)
    (ht : (bnStartQueued (setIsland (fun i => { i with bnRunning := none, bnParked := i.bnParked ++ [j] }) s)).island.bnRunning.isSome
      = true) :
    bnYieldPoint s = bnStartQueued (setIsland (fun i => { i with bnRunning := none, bnParked := i.bnParked ++ [j] }) s) := by
  have hany : s.island.bnQueue.any (fun k => decide (queuedClass s k < j.cls)) = true := by simpa using hq
  simp only [bnYieldPoint, h, hany, if_true, ht]

/-! ## The end of a big-number job -/

/-- A write at a unit's own places leaves the island. -/
theorem island_unitWrite (cls : Class) (alloc p : Bool) (ps : List (Nat × Nat)) (bs : List Byte) (s : State) :
    (unitWrite cls alloc p ps bs s).island = s.island := by
  induction ps generalizing bs s with
  | nil => rfl
  | cons x r ih => exact (ih _ _).trans (calm_devWrite cls alloc x.1 _ p s).island

theorem island_writeMapped (ctx a : Nat) (bs : List Byte) (s : State) : (writeMapped ctx a bs s).island = s.island := by
  unfold writeMapped
  induction pagePieces (pieceFuel bs.length) a bs.length generalizing s with
  | nil => rfl
  | cons x r ih =>
    rw [List.foldl_cons, ih]
    split
    · exact (island_unitWrite ..).trans (calm_unitUse ..).island
    · rfl

theorem island_bnWrite (j : BnJob) (s : State) : (bnWrite j s).island = s.island := by
  rw [bnWrite]
  split
  next => rfl
  next =>
    extract_lets w whole status t
    have ht : t.island = s.island := island_writeMapped ..
    clear_value t status whole
    cases unitPieces t j.ctx true j.addr 64 with
    | none => exact ht
    | some ps => exact (island_unitWrite ..).trans ((calm_unitUse ..).island.trans ht)

theorem bnRunning_bumpE (i k : Nat) (s : State) : (bumpE i k s).island.bnRunning = s.island.bnRunning :=
  congrArg Island.bnRunning (calm_bumpE i k s).island

theorem bnRunning_setIsland {f : Island → Island} (hf : ∀ i, (f i).bnRunning = i.bnRunning) (s : State) :
    (setIsland f s).island.bnRunning = s.island.bnRunning := hf s.island

theorem bnRunning_bnCount (j : BnJob) (s : State) : (bnCount j s).island.bnRunning = s.island.bnRunning := by
  have ht : (bumpE 0x4030 3 (bnWrite j s)).island.bnRunning = s.island.bnRunning :=
    (bnRunning_bumpE ..).trans (congrArg Island.bnRunning (island_bnWrite j s))
  rw [bnCount]
  generalize bumpE 0x4030 3 (bnWrite j s) = t at ht
  have hbusy := (bnRunning_setIsland (f := fun i => { i with bnBusy := i.bnBusy + BitVec.ofNat 64 j.cycles.toNat })
    (fun i => rfl) t).trans ht
  split
  · exact (bnRunning_bumpE ..).trans hbusy
  · exact hbusy

theorem bnRunning_bnEnds (j : BnJob) (s : State) : (bnEnds j s).island.bnRunning = s.island.bnRunning := by
  unfold bnEnds
  cases j.island with
  | none => exact bnRunning_bnCount j s
  | some p =>
    dsimp only
    split <;> exact bnRunning_bnCount j s

theorem bnJobEnd_ends {s : State} {j : BnJob} (h : s.island.bnRunning = some j) (hdead : ∀ k ∈ s.island.bnParked, k.status ≠ 0x47)
    (hwait : bnAbsent s j = none) :
    bnJobEnd s = bnEnds j (setIsland (fun i => { i with
      bnRunning := none, bnParked := i.bnParked.filter fun j => j.status != 0x47 }) s) := by
  have hnone : s.island.bnParked.filter (fun k => k.status == 0x47) = [] := by
    rw [List.filter_eq_nil_iff]
    exact fun k hk => by simpa using hdead k hk
  have hrun : (setIsland (fun i => { i with bnParked := i.bnParked.filter fun j => j.status != 0x47 }) s).island.bnRunning = some j := h
  simp only [bnJobEnd, h, hwait, hnone, Option.bind_some, Option.map_none, List.foldl_nil, hrun, Option.toList_some, List.foldl_cons]
  rfl

/-- Settles O53: attestation and exchange case by case, then the engine's queue, its yield point and the end of its job. -/
theorem keysAndJobs : Obligations.KeysAndJobs := by
  refine ⟨fun w s => ?_, fun w s => ?_⟩
  · intro u p
    refine ⟨fun nonce ho hn hidle => ?_, fun hat hjob => ?_, fun ho hst => ?_, fun k hk hjob hlate => ?_, fun v ho hv hfree => ?_⟩
    · exact congrArg Host.Outcome.next (attestNonce_row ho hn hidle)
    · exact congrArg Host.Outcome.next (attestDone_of_signed hat hjob)
    · exact congrArg Host.Outcome.next (unitRow_done ho (plainEntry_kexCommand _)
        ((scalarW_kexCommand ..).trans (kexCommandW_one hst)))
    · exact ⟨kexDone p s, rfl, kexDone_installs hk hjob hlate⟩
    · exact congrArg Host.Outcome.next (unitRow_done ho plainEntry_slotErase (slotEraseW_unclaimed hv hfree))
  · refine ⟨fun v ho ha hroom => ?_, fun hnone => ⟨fun hp => ?_, fun p hp hq => ?_⟩, fun j hj hq => ?_, fun j hj hdead hwait => ?_⟩
    · exact congrArg Host.Outcome.next (unitRow_done ho plainEntry_bnJob (bnJobW_room ha hroom))
    · exact congrArg Host.Outcome.next (bnJobStart_noParked hnone hp)
    · exact congrArg Host.Outcome.next (bnJobStart_resumes hnone hp hq)
    · intro t ht
      exact congrArg Host.Outcome.next (bnYieldPoint_yields hj hq ht)
    · have hends := bnJobEnd_ends hj hdead hwait
      refine ⟨bnJobEnd s, rfl, ?_, hends⟩
      rw [hends, bnRunning_bnEnds]
      rfl

end Sys2Proof.Machine

/-! ## The input, its pins and the resets they cause (R402 to R412) -/

namespace Sys2Proof.Machine

open Sys2Proof.Safety

/-- What a cold reset leaves, the mains as its strap and pins have them. -/
theorem coldReset_eq (cause : Nat) (straps : BitVec 17) (s : State) :
    (coldReset cause straps s).power.resetCause = BitVec.ofNat 8 cause ∧ (coldReset cause straps s).power.straps = straps ∧
      (coldReset cause straps s).fuses = s.fuses ∧ (coldReset cause straps s).flash = s.flash ∧
      (coldReset cause straps s).pending = s.pending ∧ (coldReset cause straps s).cores = [] ∧
      (coldReset cause straps s).mem = [] := ⟨rfl, rfl, rfl, rfl, rfl, rfl, rfl⟩

theorem resetCause_lossOfMains (cause : Nat) (s : State) :
    (lossOfMains cause s).power.resetCause = BitVec.ofNat 8 cause := rfl

theorem ofNat_toNat_cause (s : State) : BitVec.ofNat 8 s.power.resetCause.toNat = s.power.resetCause := BitVec.ofNat_toNat _ _

theorem pwrEnAssert_of_low {s : State} (h : s.power.pwrEn = false) :
    pwrEnAssert s = startMains (setPower (fun p => { p with pwrEn := true }) s) := by simp [pwrEnAssert, h]

theorem pwrEnDeassert_of_mains {s : State} (h : s.power.mainOn = true) :
    pwrEnDeassert s = lossOfMains s.power.resetCause.toNat (setPower (fun p => { p with pwrEn := false, tripped := false }) s) :=
  if_pos h

theorem inputInRange_of_out {s : State} (h : s.power.inRange = false) (hs : s.power.standby = true) :
    inputInRange s = startMains (setPower (fun p => { p with inRange := true }) s) := by simp [inputInRange, h, hs]

theorem pwrGoodAssert_of_mains {s : State} (h : s.power.mainOn = true) (hg : s.power.pwrGood = false) :
    pwrGoodAssert s = setPower (fun p => { p with pwrGood := true, pll := 1 }) s := if_pos ⟨h, hg⟩

theorem pllLock_of_good {s : State} (h : s.power.pwrGood = true) : pllLock s = setPower (fun p => { p with pll := 2 }) s := if_pos h

theorem pllLoss_of_good {s : State} (h : s.power.pwrGood = true) :
    pllLoss s = setPower (fun p => { p with pll := 1 }) (coldReset 6 s.power.straps s) := if_pos h

theorem rstN_of_standby {s : State} (straps : BitVec 17) (h : s.power.standby = true) : rstN straps s = coldReset 2 straps s := if_pos h

/-! ## The throttle (R404) -/

/-- The state after an update of the throttle to e0 and e1, before it is counted: the seven samples are taken and set down. -/
def throttleTo (e0 e1 : Nat) (s : State) : State :=
  let x := fun (k : Nat) => Config.sensor k (s.fresh + k)
  let u := setDie 1 (fun d => { d with throttle := e1, temp := BitVec.ofNat 16 (x 4) })
    (setDie 0 (fun d => { d with throttle := e0, temp := BitVec.ofNat 16 (x 3) }) { s with fresh := s.fresh + 7 })
  let v := setPower (fun p => { p with
    input := BitVec.ofNat 16 (min (x 0) (reg s 0x5000 7)), vin := BitVec.ofNat 16 (x 1), plate := BitVec.ofNat 16 (x 2),
    throttled := if e0 < 64 ∨ e1 < 64 then p.throttled + 1 else 0 }) u
  setPower (fun p => { p with alert := alertNow v }) v

/-- The fraction a die takes: what the update asks, within its limits. -/
def throttleOf (d k : Nat) (s : State) : Nat :=
  let x := fun (k : Nat) => Config.sensor k (s.fresh + k)
  min d (throttleLimit (decide (reg s 0x5000 7 < x 0)) (decide (100 ≤ toSigned 16 (x k % 2 ^ 16))) (x 5) (x 6))

theorem throttleUpdate_eq (d0 d1 : Nat) (s : State) :
    throttleUpdate d0 d1 s =
      if throttleOf d0 3 s < 64 ∨ throttleOf d1 4 s < 64 then bumpE 0x5000 0xB (throttleTo (throttleOf d0 3 s) (throttleOf d1 4 s) s)
      else throttleTo (throttleOf d0 3 s) (throttleOf d1 4 s) s := by
  have hreg : reg { s with fresh := s.fresh + 7 } 0x5000 7 = reg s 0x5000 7 := rfl
  simp only [throttleUpdate, throttleTo, throttleOf, sample, Nat.add_assoc, Nat.reduceAdd, Nat.add_zero, hreg, decide_eq_true_eq]
  rfl

theorem dies_throttleTo {e0 e1 : Nat} {s : State} (h : s.dies.length = 2) :
    (die (throttleTo e0 e1 s) 0).throttle = e0 ∧ (die (throttleTo e0 e1 s) 1).throttle = e1 := by
  obtain ⟨a, b, hab⟩ := List.length_eq_two.mp h
  simp [throttleTo, die, setDie, setPower, lmod, hab]

theorem rest_throttleTo (e0 e1 : Nat) (s : State) :
    (throttleTo e0 e1 s).cores = s.cores ∧ (throttleTo e0 e1 s).mem = s.mem ∧ (throttleTo e0 e1 s).counts = s.counts ∧
      (throttleTo e0 e1 s).acked = s.acked ∧
      (throttleTo e0 e1 s).power.input = BitVec.ofNat 16 (min (Config.sensor 0 (s.fresh + 0)) (reg s 0x5000 7)) :=
  ⟨rfl, rfl, rfl, rfl, rfl⟩

/-- Counting an event changes the counters alone. -/
theorem exists_counts_bumpE (i k : Nat) (s : State) : ∃ c, bumpE i k s = { s with counts := c } := by
  unfold bumpE bump
  split
  · split
    · exact ⟨s.counts, rfl⟩
    · exact ⟨_, rfl⟩
  · exact ⟨_, rfl⟩

/-- A count depends on the counters and their acknowledged values alone. -/
theorem count_bumpE_congr {s t : State} (hc : t.counts = s.counts) (ha : t.acked = s.acked) (i k j : Nat) :
    count (bumpE i k t) j = count (bumpE i k s) j := by
  have hcount (n : Nat) : count t n = count s n := by rw [count, hc, count]
  have hheld (n : Nat) : counterHeld t n = counterHeld s n := by rw [counterHeld, hcount, ackedValue, ha]; rfl
  simp only [bumpE, bump, hheld, hcount]
  split
  · split
    · exact hcount j
    · simp only [count, hc]
  · simp only [count, hc]

theorem throttleUpdate_leaves {d0 d1 : Nat} {s : State} (h : s.dies.length = 2) :
    (die (throttleUpdate d0 d1 s) 0).throttle = throttleOf d0 3 s ∧ (die (throttleUpdate d0 d1 s) 1).throttle = throttleOf d1 4 s ∧
      (throttleUpdate d0 d1 s).cores = s.cores ∧ (throttleUpdate d0 d1 s).mem = s.mem ∧
      (throttleUpdate d0 d1 s).power.input = BitVec.ofNat 16 (min (Config.sensor 0 (s.fresh + 0)) (reg s 0x5000 7)) ∧
      count (throttleUpdate d0 d1 s) (ekey 0x5000 0xB) =
        count (if throttleOf d0 3 s < 64 ∨ throttleOf d1 4 s < 64 then bumpE 0x5000 0xB s else s) (ekey 0x5000 0xB) := by
  rw [throttleUpdate_eq]
  obtain ⟨hd0, hd1⟩ := dies_throttleTo (e0 := throttleOf d0 3 s) (e1 := throttleOf d1 4 s) h
  obtain ⟨hcores, hmem, hcounts, hacked, hinput⟩ := rest_throttleTo (throttleOf d0 3 s) (throttleOf d1 4 s) s
  by_cases hon : throttleOf d0 3 s < 64 ∨ throttleOf d1 4 s < 64
  · have hcount := count_bumpE_congr hcounts hacked 0x5000 0xB (ekey 0x5000 0xB)
    obtain ⟨c, hc⟩ := exists_counts_bumpE 0x5000 0xB (throttleTo (throttleOf d0 3 s) (throttleOf d1 4 s) s)
    rw [if_pos hon, if_pos hon, hcount, hc]
    exact ⟨hd0, hd1, hcores, hmem, hinput, rfl⟩
  · rw [if_neg hon, if_neg hon]
    exact ⟨hd0, hd1, hcores, hmem, hinput, by rw [count, hcounts, count]⟩

/-- Settles O54: each pin's row leaves what a cold reset or a loss of the mains leaves; the throttle by `throttleUpdate_leaves`. -/
theorem railsAndSensors : Obligations.RailsAndSensors := by
  refine ⟨fun s => ⟨fun v => ?_, fun h => ?_, fun h => ?_, fun h hs => ?_, fun h hg => ?_, ?_, ?_, fun h => ?_, fun h => ?_,
    fun v h => ?_, fun d hd => ⟨?_, rfl⟩⟩, fun d0 d1 s hd => ?_⟩
  · exact ⟨powerOn v s, rfl, rfl, rfl, rfl, rfl, rfl, rfl, rfl, rfl⟩
  · exact congrArg Host.Outcome.next (pwrEnAssert_of_low h)
  · refine ⟨_, congrArg Host.Outcome.next (pwrEnDeassert_of_mains h), rfl, ?_, rfl⟩
    exact (resetCause_lossOfMains ..).trans (ofNat_toNat_cause s)
  · exact congrArg Host.Outcome.next (inputInRange_of_out h hs)
  · exact congrArg Host.Outcome.next (pwrGoodAssert_of_mains h hg)
  · exact ⟨inputFault s, rfl, rfl, rfl, rfl, rfl⟩
  · exact ⟨standbyRailLoss s, rfl, rfl, rfl, rfl⟩
  · exact congrArg Host.Outcome.next (pllLock_of_good h)
  · exact ⟨_, congrArg Host.Outcome.next (pllLoss_of_good h), rfl, rfl, rfl⟩
  · obtain ⟨hcause, hstraps, hfuses, -, hpending, hcores, hmem⟩ := coldReset_eq 2 v s
    exact ⟨_, congrArg Host.Outcome.next (rstN_of_standby v h), hcause, hstraps, hfuses, hpending, hcores, hmem⟩
  · exact ⟨thermalTrip d s, rfl, rfl, rfl, rfl⟩
  · intro x high hot e0 e1
    obtain ⟨hd0, hd1, hcores, hmem, hinput, hcount⟩ := throttleUpdate_leaves (d0 := d0.val) (d1 := d1.val) hd
    exact ⟨throttleUpdate d0.val d1.val s, rfl, hd0, hd1, hcores, hmem, hinput, hcount⟩

end Sys2Proof.Machine

/-! ## A debugger's read of an entry -/

namespace Sys2Proof.Machine

open Sys2Proof.Safety

/-- A read of an entry that `opens` admits answers the entry's value. -/
theorem dictRead_opens {w : Who} {index sub : Nat} {s : State} {e : Entry} (he : entryOf index sub = some e)
    (ho : opens w index sub 0 s = true) :
    dictRead w index sub s = emit (.access w.path 0 (travel e.type (entryValue e index sub s).1))
      (countAccess (entryValue e index sub s).2) := by
  simp only [opens, he, Bool.and_eq_true] at ho
  obtain ⟨⟨⟨⟨⟨hs, hp⟩, ha⟩, -⟩, -⟩, -⟩ := ho
  simp [dictRead, served, hs, readAccess, he, reachStatus, hp, ha, answer]

theorem fixLen_of_length {n : Nat} {bs : List Byte} (h : bs.length = n) : fixLen n bs = bs := by
  simp [fixLen, ← h]

/-- An octet string that may be read answers as it stands. -/
theorem entryValue_octets {e : Entry} {index sub n : Nat} {s : State} (ht : e.type = .octets n) (hwo : e.access ≠ .wo)
    (hn : (octetsValue index sub s).1.length = n) : entryValue e index sub s = octetsValue index sub s := by
  have hbytes : e.type.bytes = n := by rw [ht]; rfl
  unfold entryValue
  split
  case h_1 h => exact absurd h hwo
  case h_2 => simp only [hbytes, fixLen_of_length hn]
  all_goals simp_all

/-! ## What a debugger reads (R430) -/

theorem length_dbgReadBurst (k : Nat) (s : State) : (dbgReadBurst k s).2.1.length = 32 := by
  unfold dbgReadBurst
  split
  case h_3 => split <;> simp [length_toLe]
  case h_4 => dsimp only; split <;> simp [List.length_flatMap, length_toLe, Function.comp_def]
  case h_5 => dsimp only; split <;> simp [devBytes, length_memRead]
  all_goals simp

/-- One burst of a read, with the statuses and the bytes of those before it. -/
def dbgReadNext (acc : Nat × List Byte × State) (k : Nat) : Nat × List Byte × State :=
  (acc.1 + (dbgReadBurst k acc.2.2).1 * 4 ^ k, acc.2.1 ++ (dbgReadBurst k acc.2.2).2.1, (dbgReadBurst k acc.2.2).2.2)

theorem length_foldl_dbgReadNext (l : List Nat) (acc : Nat × List Byte × State) :
    (l.foldl dbgReadNext acc).2.1.length = acc.2.1.length + 32 * l.length := by
  induction l generalizing acc with
  | nil => rfl
  | cons k r ih =>
    rw [List.foldl_cons, ih]
    simp only [dbgReadNext, List.length_append, length_dbgReadBurst, List.length_cons]
    omega

theorem length_dbgRead (s : State) : (dbgRead s).1.length = 256 :=
  length_foldl_dbgReadNext (List.range 8) (0, [], if dbgIsDevice s then s else readEntry (dbgCtx s) s)

theorem entryOf_dbgMemData : ∃ e, entryOf 0x6020 2 = some e ∧ e.type = .octets 256 ∧ e.access = .rwl := ⟨_, rfl, rfl, rfl⟩
theorem entryOf_dbgMbEnvelope : ∃ e, entryOf 0x6020 5 = some e ∧ e.type = .octets 32 ∧ e.access = .ro := ⟨_, rfl, rfl, rfl⟩

/-- A read of DBG_MEM_DATA answers what `dbgRead` reads. -/
theorem dictRead_dbgMemData {w : Who} {s : State} (ho : opens w 0x6020 2 0 s = true) :
    dictRead w 0x6020 2 s = emit (.access w.path 0 (dbgRead s).1) (countAccess (dbgRead s).2) := by
  obtain ⟨e, he, ht, hrwl⟩ := entryOf_dbgMemData
  have hval : octetsValue 0x6020 2 s = dbgRead s := rfl
  have hwo : e.access ≠ .wo := by rw [hrwl]; decide
  rw [dictRead_opens he ho, entryValue_octets ht hwo ((congrArg (fun r => r.1.length) hval).trans (length_dbgRead s)), hval, ht]
  rfl

/-- A read of DBG_MB_ENVELOPE answers the envelope that DBG_MB_SELECT names. -/
theorem dictRead_dbgMbEnvelope {w : Who} {s : State} (ho : opens w 0x6020 5 0 s = true) :
    dictRead w 0x6020 5 s = emit (.access w.path 0 (toLe 32 (dbgEnvelope s))) (countAccess s) := by
  obtain ⟨e, he, ht, hro⟩ := entryOf_dbgMbEnvelope
  have hval : octetsValue 0x6020 5 s = (toLe 32 (dbgEnvelope s), s) := rfl
  have hwo : e.access ≠ .wo := by rw [hro]; decide
  rw [dictRead_opens he ho, entryValue_octets ht hwo ((congrArg (fun r => r.1.length) hval).trans (length_toLe _ _)), hval, ht]
  rfl

/-! ## Registers while an entry is read -/

/-- A fold of steps that each keep a part of the state keeps it. -/
theorem foldl_keeps {α β : Type} (p : State → α) {g : State → β → State} (h : ∀ s x, p (g s x) = p s) (l : List β) (s : State) :
    p (l.foldl g s) = p s := by
  induction l generalizing s with
  | nil => rfl
  | cons x r ih => rw [List.foldl_cons, ih, h]

theorem regs_abortJob (d : Nat) (killed : Bool) (s : State) : (abortJob d killed s).regs = s.regs := by
  unfold abortJob
  split
  · rfl
  · split
    · dsimp only
      split
      · exact foldl_keeps State.regs (g := fun s m => emit (.abort d m) s) (fun s m => rfl) _ _
      · rfl
    · rfl

theorem regs_abortOwned (ctx : Nat) (s : State) : (abortOwned ctx s).regs = s.regs :=
  foldl_keeps State.regs (fun s d => by split; exacts [regs_abortJob .., rfl]) _ s

theorem regs_setCtxF (c hi lo v : Nat) (s : State) : (setCtxF c hi lo v s).regs = s.regs := rfl

theorem regs_killContext (ctx reason : Nat) (s : State) : (killContext ctx reason s).regs = s.regs := by
  unfold killContext
  split
  · rfl
  · rw [regs_setCtxF, regs_setCtxF]
    refine (regs_abortOwned ..).trans ?_
    dsimp only [dropStalls]
    split <;> rfl

theorem regs_stageRec (d : Nat) (r : Rec) (s : State) : (stageRec d r s).regs = s.regs := by
  unfold stageRec
  split
  · rfl
  · exact (calm_bumpE ..).regs

theorem regs_readEntry (ctx : Nat) (s : State) : (readEntry ctx s).regs = s.regs := by
  unfold readEntry
  split
  · rfl
  · have hread : (noteRead .read true (256 * ctx) 256 s).regs = s.regs := (calm_noteRead ..).regs
    dsimp only
    split
    · rw [regs_stageRec, regs_killContext, hread]
    · exact hread

/-! ## What a debugger writes (R432) -/

/-- A write of 256 bytes to a context whose bursts may all be written, and which runs nothing or is suspended. -/
theorem dbgWriteW_writable {data : List Byte} {s : State} {ctx a : Nat} (hctx : dbgCtx s = ctx) (ha : bits (reg s 0x6020 1) 47 0 = a)
    (hdev : dbgIsDevice s = false) (hw : ∀ k < 8, dbgWritable (readEntry ctx s) k = true)
    (hrun : ctxState (readEntry ctx s) ctx = 2 ∨ anyRunning (readEntry ctx s) ctx = false) :
    dbgWriteW data s = (0, (List.range 8).foldl (fun t k =>
      unitWrite .write false false ((unitPieces t ctx true (a + 32 * k) 32).getD [])
        ((data.drop (32 * k)).take 32) (unitUse ctx (a + 32 * k) 32 t)) (readEntry ctx s)) := by
  have hdev' : dbgIsDevice (readEntry ctx s) = false := by
    rw [dbgIsDevice, reg, regs_readEntry]
    exact hdev
  have hall : (List.range 8).all (fun k => dbgWritable (readEntry ctx s) k) = true := by simpa using hw
  have hbusy : ¬ (ctxState (readEntry ctx s) ctx ≠ 2 ∧ anyRunning (readEntry ctx s) ctx = true) := by
    rintro ⟨hstate, hany⟩
    rcases hrun with h | h
    · exact hstate h
    · simp [h] at hany
  simp only [dbgWriteW, hctx, ha, hdev, hdev', hall, hbusy, Bool.false_eq_true, if_false, Bool.not_true]

theorem octetsW_dbgMemData (p : Path) (bs : List Byte) (s : State) : octetsW p 0x6020 2 bs s = dbgWriteW bs s := rfl

theorem octetsRow_dbgMemData {w : Who} {data : List Byte} {s t : State} (ho : opens w 0x6020 2 0 s = true) (hlen : data.length = 256)
    (h : dbgWriteW data (countAccess s) = (0, t)) : octetsRow w 0x6020 2 data s = wrote w t := by
  obtain ⟨e, he, ht, hrwl⟩ := entryOf_dbgMemData
  have hkey : ((0x6020 : Nat) == 0x1000 && (2 : Nat) == 0x10) = false := rfl
  rw [octetsRow_opens he ht hlen ho (by simp [hrwl]) (by simp [hrwl]) hkey, octetsW_dbgMemData, h]
  rfl

/-- Settles O57: the reads by `dictRead_opens`, the write by the octet row and `dbgWriteW_writable`. -/
theorem debuggerReadsAndWrites : Obligations.DebuggerReadsAndWrites := by
  intro w s
  refine ⟨fun ho => ⟨congrArg Host.Outcome.next (dictRead_dbgMemData ho), length_dbgRead s⟩, fun data ho hlen hdev => ?_,
    fun ho => congrArg Host.Outcome.next (dictRead_dbgMbEnvelope ho)⟩
  intro ctx u hw hrun a
  have hctx : dbgCtx (countAccess s) = ctx := rfl
  have ha : bits (reg (countAccess s) 0x6020 1) 47 0 = a := rfl
  have hunit := dbgWriteW_writable (data := data) hctx ha hdev hw hrun
  exact congrArg Host.Outcome.next (octetsRow_dbgMemData ho hlen hunit)

end Sys2Proof.Machine

/-! ## Where an engine's work leads

`Along R x`: whatever state the work `x` starts from, the state in which it ends or stops is related to it by `R`. The lemmas below
follow the work's own building blocks, so that what a relation must allow is said once, in `Reads` and `Writes`. -/

namespace Sys2Proof.Machine

open Sys2Proof.Safety

/-- The state that a result leaves. -/
def resultState {α : Type} : EStateM.Result Stop State α → State
  | .ok _ t => t
  | .error _ t => t

/-- Work from a state leads along a relation. -/
def AlongAt {α : Type} (R : State → State → Prop) (x : Eng α) (s : State) : Prop := R s (resultState (x s))

/-- Work leads along a relation. -/
structure Along {α : Type} (R : State → State → Prop) (x : Eng α) : Prop where
  leads : ∀ s, AlongAt R x s

/-- The bookkeeping of work that waits and goes on: it passes again what it had passed, and notes what it does. -/
structure Bookkept (s t : State) : Prop where
  same   : { t with replay := s.replay, journal := s.journal, wrote := s.wrote, wroteFar := s.wroteFar } = s
  passed : t.replay <:+ s.replay

/-- A relation that holds of everything an engine does when it reads. -/
structure Reads (R : State → State → Prop) : Prop where
  refl     : ∀ s, R s s
  trans    : ∀ {s t u}, R s t → R t u → R s u
  book     : ∀ {s t}, Bookkept s t → R s t
  age      : ∀ c a s, R s (useAge c a s)
  read     : ∀ cls alloc a n s, R s (noteRead cls alloc a n s)
  fabric   : ∀ e a n s, R s (fabricCheck e a n s).2
  answered : ∀ k s, R s { s with reads := ldrop s.reads k }
  total    : ∀ i k n s, R s (addTotal i k n s)
  fresh    : ∀ s, R s (draw s).2
  counted  : ∀ i k s, R s (bumpE i k s)

section
variable {R : State → State → Prop} {α β : Type} {x : Eng α}

theorem Reads.pure (hR : Reads R) (a : α) : Along R (pure a : Eng α) := ⟨hR.refl⟩
theorem Reads.get (hR : Reads R) : Along R (get : Eng State) := ⟨hR.refl⟩
theorem Reads.throw (hR : Reads R) (e : Stop) : Along R (throw e : Eng α) := ⟨hR.refl⟩

theorem alongAt_bind (hR : Reads R) {f : α → Eng β} {s : State} (hx : AlongAt R x s)
    (hf : ∀ v t, x s = .ok v t → AlongAt R (f v) t) : AlongAt R (x >>= f) s := by
  unfold AlongAt at hx ⊢
  simp only [bind, EStateM.bind]
  cases h : x s with
  | ok v t =>
    rw [h] at hx
    exact hR.trans hx (hf v t h)
  | error e t =>
    rw [h] at hx
    exact hx

theorem Reads.bind (hR : Reads R) {f : α → Eng β} (hx : Along R x) (hf : ∀ v, Along R (f v)) : Along R (x >>= f) :=
  ⟨fun s => alongAt_bind hR (hx.leads s) fun v t _ => (hf v).leads t⟩

/-- Work that begins by looking at the state. -/
theorem alongAt_get {f : State → Eng β} {s : State} (h : AlongAt R (f s) s) : AlongAt R (get >>= f) s := h

theorem along_modify {f : State → State} (h : ∀ s, R s (f s)) : Along R (modify f : Eng Unit) := ⟨h⟩

theorem alongAt_set {s t : State} (h : R s t) : AlongAt R (set t : Eng Unit) s := h

theorem along_ite {c : Prop} [Decidable c] {y : Eng α} (hx : Along R x) (hy : Along R y) : Along R (if c then x else y) := by
  split
  · exact hx
  · exact hy

/-- A continuation that branches share. -/
theorem along_join {k : α → Eng β} {f : (α → Eng β) → Eng β} (hk : ∀ v, Along R (k v))
    (hf : ∀ k, (∀ v, Along R (k v)) → Along R (f k)) : Along R (have j := k; f j) := hf k hk

theorem alongAt_ite {c : Prop} [Decidable c] {y : Eng α} {s : State} (hx : AlongAt R x s) (hy : AlongAt R y s) :
    AlongAt R (if c then x else y) s := by
  split
  · exact hx
  · exact hy

theorem along_failE (hR : Reads R) (r : Reason) (ad : Option (Nat × Bool)) (d : Nat) : Along R (failE r ad d : Eng α) := hR.throw _

theorem along_needE (hR : Reads R) (c : Bool) (r : Reason) (ad : Option (Nat × Bool)) : Along R (needE c r ad) := by
  refine ⟨fun s => ?_⟩
  unfold AlongAt needE
  split
  · exact hR.refl s
  · exact hR.refl s

theorem bookkept_passed {s : State} {r : List Ev} (h : r <:+ s.replay) : Bookkept s { s with replay := r } := ⟨rfl, h⟩

theorem bookkept_noted (s : State) (j : List Ev) (l : List Nat) (k : List (Nat × Nat)) :
    Bookkept s { s with journal := j, wrote := l, wroteFar := k } := ⟨rfl, List.suffix_rfl⟩

/-- One thing that was done before is passed again. -/
theorem passed_tail {s : State} {x : Ev} {r : List Ev} (h : s.replay = x :: r) : Bookkept s { s with replay := r } :=
  bookkept_passed (h ▸ List.suffix_cons x r)

/-- Work done once: it leads where its content does. -/
theorem along_once (hR : Reads R) {x : Eng Unit} (hx : Along R x) : Along R (once x) := by
  refine ⟨fun s => ?_⟩
  have h := hx.leads s
  unfold AlongAt at h ⊢
  unfold once
  split
  next hr => exact hR.book (passed_tail hr)
  · split
    next t ht => rw [ht] at h; exact hR.trans h (hR.book (bookkept_noted ..))
    next t ht => rw [ht] at h; exact h
    next => exact hR.refl s

theorem along_noted (hR : Reads R) {x : Eng (List Byte × List Nat)} (hx : Along R x) : Along R (noted x) := by
  refine ⟨fun s => ?_⟩
  have h := hx.leads s
  unfold AlongAt at h ⊢
  unfold noted
  split
  next hr => exact hR.book (passed_tail hr)
  next hr => exact hR.book (passed_tail hr)
  · split
    next t ht => rw [ht] at h; exact hR.trans h (hR.book (bookkept_noted ..))
    next t ht => rw [ht] at h; exact h
    next => exact hR.refl s

theorem along_act (hR : Reads R) {f : State → State} (h : ∀ s, R s (f s)) : Along R (act f) := along_once hR (along_modify h)

theorem along_checkpoint (hR : Reads R) : Along R checkpoint := by
  refine ⟨fun s => ?_⟩
  have hb : Bookkept s { s with wrote := [], wroteFar := [], journal := .mark :: s.journal } := bookkept_noted ..
  unfold AlongAt checkpoint
  split
  next hr => exact hR.book (passed_tail hr)
  · dsimp only
    split
    · exact hR.book hb
    · exact hR.book hb

theorem along_edge (hR : Reads R) : Along R edge := by
  refine ⟨fun s => ?_⟩
  unfold AlongAt edge
  split
  next hr => exact hR.book (passed_tail hr)
  · exact hR.book (bookkept_noted ..)

theorem along_mapE (hR : Reads R) {f : α → Eng β} (h : ∀ x, Along R (f x)) (l : List α) : Along R (mapE f l) := by
  induction l with
  | nil => exact hR.pure _
  | cons x r ih => exact hR.bind (h x) fun y => hR.bind ih fun ys => hR.pure _

theorem along_eachE (hR : Reads R) {f : α → Eng Unit} (h : ∀ x, Along R (f x)) (l : List α) : Along R (eachE f l) := by
  induction l with
  | nil => exact hR.pure _
  | cons x r ih => exact hR.bind (h x) fun _ => ih

theorem along_foldE (hR : Reads R) {f : β → α → Eng β} (h : ∀ b x, Along R (f b x)) (b : β) (l : List α) : Along R (foldE f b l) := by
  induction l generalizing b with
  | nil => exact hR.pure _
  | cons x r ih => exact hR.bind (h b x) fun c => ih c

theorem along_atGran {r p g : Nat} (h : Along R x) : Along R (atGran r p g x) := by
  refine ⟨fun s => ?_⟩
  have hs := h.leads s
  unfold AlongAt at hs ⊢
  unfold atGran
  split
  next f t ht =>
    rw [ht] at hs
    exact (show R s t from hs)
  next => exact hs

/-- What a relation allows, a wider one allows. -/
theorem Along.mono {S : State → State → Prop} (h : Along R x) (hS : ∀ s t, R s t → S s t) : Along S x := ⟨fun s => hS _ _ (h.leads s)⟩

end

/-! ## Reads of context memory -/

section
variable {R : State → State → Prop} (hR : Reads R)
include hR

theorem along_xlatRange (e : Env) (write : Bool) (l : List (Nat × Nat)) : Along R (xlatRange e write l) := by
  induction l with
  | nil => exact hR.pure _
  | cons x r ih =>
    obtain ⟨a, n⟩ := x
    refine ⟨fun s => ?_⟩
    refine alongAt_get ?_
    split
    · exact (along_failE hR ..).leads s
    · split
      · exact (along_ite (along_failE hR ..) (hR.throw _)).leads s
      · exact (hR.throw _).leads s
    · exact (hR.bind (along_modify (hR.age e.ctx a)) fun _ => hR.bind ih fun _ => hR.pure _).leads s

theorem along_pieces (e : Env) (write : Bool) (a n : Nat) : Along R (pieces e write a n) := along_xlatRange hR ..

theorem along_devLoad (e : Env) (cls : Machine.Class) (alloc : Bool) (a n : Nat) : Along R (devLoad e cls alloc a n) := by
  refine ⟨fun s => ?_⟩
  refine alongAt_get (hR.trans (hR.read cls alloc a n s) ?_)
  dsimp only
  split
  · exact hR.fabric ..
  · exact hR.refl _

theorem along_devLoads (e : Env) (cls : Machine.Class) (alloc : Bool) (l : List (Nat × Nat)) : Along R (devLoads e cls alloc l) := by
  induction l with
  | nil => exact hR.pure _
  | cons x r ih => exact hR.bind (along_devLoad hR ..) fun _ => hR.bind ih fun _ => hR.pure _

theorem along_awaitPeer {α : Type} (s : State) (m a : Nat) (stop : Stop) : Along R (awaitPeer s m a stop : Eng α) := by
  unfold awaitPeer
  exact along_ite (hR.throw _) (along_ite (along_failE hR ..) (hR.throw _))

theorem along_remoteLoad (e : Env) (m a n : Nat) : Along R (remoteLoad e m a n) := by
  refine ⟨fun s => ?_⟩
  refine alongAt_get ?_
  dsimp only
  split
  · split
    · refine alongAt_bind hR (alongAt_set (hR.answered _ s)) fun _ t _ => ?_
      split
      · exact (along_failE hR ..).leads t
      · exact (hR.pure _).leads t
    · exact (along_awaitPeer hR ..).leads s
  · exact (along_awaitPeer hR ..).leads s

theorem along_loadOn (e : Env) (alloc : Bool) (m a n : Nat) : Along R (loadOn e alloc m a n) :=
  hR.bind (along_noted hR (hR.bind hR.get fun _ => along_ite
    (hR.bind (along_pieces hR ..) fun _ => hR.bind (along_devLoads hR ..) fun (_, _) => hR.pure _)
    (hR.bind (along_remoteLoad hR ..) fun (_, _) => hR.pure _))) fun _ => hR.pure _

theorem along_load (e : Env) (a n : Nat) : Along R (load e a n) := hR.bind hR.get fun _ => along_loadOn hR ..

theorem along_drawE : Along R drawE :=
  hR.bind (along_noted hR ⟨fun s => alongAt_get (alongAt_bind hR (alongAt_set (hR.fresh s)) fun _ t _ => (hR.pure _).leads t)⟩)
    fun _ => hR.pure _

theorem along_seeE (f : State → Nat) : Along R (seeE f) :=
  hR.bind (along_noted hR (hR.bind hR.get fun _ => hR.pure _)) fun _ => hR.pure _

theorem along_loadControl (e : Env) (a n : Nat) : Along R (loadControl e a n) :=
  hR.bind (along_load hR ..) fun _ => along_ite (along_failE hR ..) (hR.pure _)

theorem along_loadWord (e : Env) (a n : Nat) : Along R (loadWord e a n) := hR.bind (along_loadControl hR ..) fun _ => hR.pure _

theorem along_atomicDone : Along R atomicDone := along_act hR (hR.total _ _ _)

end

/-! ## Writes of context memory -/

/-- A context that a relation lets write: any, or one alone. -/
def Allows (only : Option Nat) (x : Nat) : Prop := ∀ k, only = some k → x = k

theorem allows_any (x : Nat) : Allows none x := fun _ h => nomatch h

/-- Bytes that go where a context's mappings let it write. -/
def Reach (s : State) (k v d n : Nat) : Prop := ∀ j < n, xlat s k true (v + j) = .dev (d + j)

/-- A relation that holds of everything an engine does when it writes for the contexts that `only` allows. -/
structure Writes (only : Option Nat) (R : State → State → Prop) : Prop extends Reads R where
  keepsXlat : ∀ {k s t}, only = some k → R s t → ∀ w a, xlat t k w a = xlat s k w a
  store     : ∀ alloc a bs p s, (∀ k, only = some k → ∃ v, Reach s k v a bs.length) → R s (devWrite .write alloc a bs p s)
  stamp     : ∀ core x m d f s, R s (setAccount core x m d f s)
  returned  : ∀ b s, R s { s with stampsBack := s.stampsBack ++ [b] }
  asleep    : ∀ d r s, R s (stageRec d r (bumpE 0x5000 0xF s))
  send      : ∀ k s, R s (sendPacket k s)
  marks     : ∀ a l s, R s (markWords a l s)

section
variable {only : Option Nat} {R : State → State → Prop} (hW : Writes only R)
include hW

theorem along_takeStamp (e : Env) (m d addr : Nat) : Along R (takeStamp e m d addr) := by
  refine ⟨fun s => ?_⟩
  refine alongAt_get ?_
  split
  · exact (along_failE hW.toReads ..).leads s
  · refine alongAt_ite ((hW.toReads.throw _).leads s) ?_
    refine alongAt_set (hW.trans (hW.stamp e.core e.ctx m d (fun a => { a with
      inHand := a.inHand - 1, inFlight := a.inFlight + 1 }) s) ?_)
    split
    · exact hW.returned ..
    · exact hW.refl _

/-- Where bytes may go stays so along the relation. -/
theorem Writes.reach {k v d n : Nat} {s t : State} (hk : only = some k) (h : R s t) (hr : Reach s k v d n) : Reach t k v d n :=
  fun j hj => (hW.keepsXlat hk h true (v + j)).trans (hr j hj)

end

end Sys2Proof.Machine

/-! ## Where the reading work of the engines leads -/

namespace Sys2Proof.Machine

open Sys2Proof.Safety

section
variable {R : State → State → Prop} (hR : Reads R)
include hR

theorem along_openPlain (e : Env) (u : Use) (a : Nat) : Along R (openPlain e u a) := by
  unfold openPlain
  exact hR.bind (along_needE hR ..) fun _ => hR.bind (along_loadWord hR ..) fun _ => hR.bind (along_needE hR ..) fun _ => hR.bind
    (along_needE hR ..) fun _ => hR.bind (along_needE hR ..) fun _ => hR.bind (along_needE hR ..) fun _ => hR.bind (along_needE hR ..)
    fun _ => hR.bind hR.get fun _ => hR.bind (along_needE hR ..) fun _ => hR.pure _

theorem along_openPlace (e : Env) (write : Bool) (gr : Nat) (o : Obj) : Along R (openPlace e write gr o) := by
  unfold openPlace
  exact along_ite (hR.bind (along_openPlain hR ..) fun _ => hR.bind (along_needE hR ..) fun _ => hR.pure _) (hR.pure _)

theorem along_readHdr (e : Env) (a : Nat) (source : Bool) : Along R (readHdr e a source) := by
  unfold readHdr
  exact hR.bind (along_load hR ..) fun (_, _) => hR.pure _

theorem along_checkObjs (l : List Obj) (r : Reason) (bad : Obj → Bool) : Along R (checkObjs l r bad) := by
  unfold checkObjs
  exact along_needE hR ..

theorem along_budgetCheck (ctx : Nat) (ch : Nat) (op : Nat) (kind : Nat) (part : Bool) (l : List Obj) : Along R (budgetCheck ctx ch op
    kind part l) := by
  unfold budgetCheck
  exact along_ite (hR.bind (along_seeE hR ..) fun _ => hR.bind (along_seeE hR ..) fun _ => along_ite (hR.bind (along_checkObjs hR ..)
    fun _ => hR.pure _) (hR.pure _)) (hR.pure _)

theorem along_granAligned (hdr : Nat) (a : Nat) : Along R (granAligned hdr a) := by
  unfold granAligned
  exact along_needE hR ..

theorem along_readTable (e : Env) (w : Nat) (ch : Nat) (a : Obj) (at_ : Nat) : Along R (readTable e w ch a at_) := by
  unfold readTable
  exact hR.bind (along_loadControl hR ..) fun _ => hR.bind (along_needE hR ..) fun _ => hR.bind (along_granAligned hR ..) fun _ =>
    hR.bind (along_loadControl hR ..) fun _ => hR.bind hR.get fun _ => hR.bind (along_needE hR ..) fun _ => hR.bind (along_needE hR ..)
    fun _ => hR.bind (along_needE hR ..) fun _ => hR.pure _

theorem along_levelChecks (w : Nat) (a : Obj) (b : List Obj) : Along R (levelChecks w a b) := by
  unfold levelChecks
  extract_lets +onlyGivenNames -underBinder -merge -useContext _ jp0
  have hjp1 : ∀ x, Along R (jp0 x) := by
    intro x
    exact along_ite (along_checkObjs hR ..) (hR.pure _)
  clear_value jp0
  exact along_ite (hR.bind (along_checkObjs hR ..) fun _ => hjp1 _) (hjp1 _)

theorem along_layoutChecks (op : Nat) (reads : List Obj) (a : Obj) (d : Obj) : Along R (layoutChecks op reads a d) := by
  unfold layoutChecks
  exact along_ite (along_checkObjs hR ..) (along_ite (along_checkObjs hR ..) (along_checkObjs hR ..))

theorem along_tagChecks (l : List Obj) : Along R (tagChecks l) := by
  unfold tagChecks
  split
  · exact along_checkObjs hR ..
  · exact hR.pure _

theorem along_checkOps (l : List Operand) (r : Reason) (bad : Operand → Bool) : Along R (checkOps l r bad) := by
  unfold checkOps
  exact along_needE hR ..

theorem along_checkBytes (l : List Operand) : Along R (checkBytes l) := by
  induction l with
  | nil => exact hR.pure _
  | cons o r ih => exact hR.bind (along_needE hR ..) fun _ => hR.bind (along_needE hR ..) fun _ => ih

theorem along_hdrChecks (e : Env) (ops : List Operand) (exempt : Option Nat) : Along R (hdrChecks e ops exempt) := by
  unfold hdrChecks
  exact hR.bind (along_checkBytes hR ..) fun _ => hR.bind hR.get fun _ => hR.bind (along_checkOps hR ..) fun _ => hR.bind
    (along_checkOps hR ..) fun _ => hR.bind (along_checkOps hR ..) fun _ => hR.bind (along_checkOps hR ..) fun _ => along_checkOps hR ..

theorem along_polyChecks (e : Env) (i : Issued) (r : Nat) : Along R (polyChecks e i r) := by
  unfold polyChecks
  refine hR.bind (along_needE hR ..) fun _ => ?_
  refine hR.bind (along_readHdr hR ..) fun _ => ?_
  extract_lets +onlyGivenNames -underBinder -merge -useContext jp0
  have hjp1 : ∀ x, Along R (jp0 x) := by
    intro x
    refine hR.bind (along_readHdr hR ..) fun _ => ?_
    refine hR.bind (along_hdrChecks hR ..) fun _ => ?_
    refine hR.bind hR.get fun _ => ?_
    refine hR.bind (along_checkObjs hR ..) fun _ => ?_
    refine hR.bind (along_checkObjs hR ..) fun _ => ?_
    extract_lets +onlyGivenNames -underBinder -merge -useContext jp2
    have hjp3 : ∀ x, Along R (jp2 x) := by
      intro x
      refine hR.bind (along_checkObjs hR ..) fun _ => ?_
      refine hR.bind (along_tagChecks hR ..) fun _ => ?_
      refine hR.bind (along_levelChecks hR ..) fun _ => ?_
      refine hR.bind (along_budgetCheck hR ..) fun _ => ?_
      refine hR.bind (along_needE hR ..) fun _ => ?_
      refine hR.bind (along_checkObjs hR ..) fun _ => ?_
      extract_lets +onlyGivenNames -underBinder -merge -useContext jp4
      have hjp5 : ∀ x, Along R (jp4 x) := by
        intro x
        refine hR.bind (along_layoutChecks hR ..) fun _ => ?_
        refine hR.bind (along_openPlace hR ..) fun _ => ?_
        refine hR.bind (along_mapE hR (fun _ => along_openPlace hR ..) ..) fun _ => ?_
        extract_lets +onlyGivenNames -underBinder -merge -useContext jp6
        have hjp7 : ∀ x, Along R (jp6 x) := by
          intro x
          refine hR.bind (along_openPlace hR ..) fun _ => ?_
          extract_lets +onlyGivenNames -underBinder -merge -useContext jp8
          have hjp9 : ∀ x, Along R (jp8 x) := by
            intro x
            unfold jp8
            extract_lets +onlyGivenNames -underBinder -merge -useContext jp10
            have hjp11 : ∀ x, Along R (jp10 x) := by
              intro x
              exact hR.bind (along_needE hR ..) fun _ => hR.bind (along_needE hR ..) fun _ => along_ite (hR.bind (along_needE hR ..)
                fun _ => hR.pure _) (hR.pure _)
            clear_value jp10
            exact along_ite (hR.bind (along_readTable hR ..) fun _ => hjp11 _) (hR.bind (hR.pure _) fun _ => hjp11 _)
          clear_value jp8
          exact along_ite (hR.bind (along_needE hR ..) fun _ => hjp9 _) (hjp9 _)
        clear_value jp6
        exact along_ite (hR.bind (along_openPlace hR ..) fun _ => hjp7 _) (hR.bind (hR.pure _) fun _ => hjp7 _)
      clear_value jp4
      exact along_ite (hR.bind (along_checkObjs hR ..) fun _ => hjp5 _) (hjp5 _)
    clear_value jp2
    exact along_ite (hR.bind (along_checkObjs hR ..) fun _ => hjp3 _) (hjp3 _)
  clear_value jp0
  exact along_ite (hR.bind (along_readHdr hR ..) fun _ => hR.bind (hR.pure _) fun _ => hjp1 _) (hR.bind (hR.pure _) fun _ => hjp1 _)

theorem along_readRaw (e : Env) (gr : Nat) (o : Obj) (c : Nat) (p : Nat) (g : Nat) : Along R (readRaw e gr o c p g) := by
  unfold readRaw
  refine hR.bind hR.get fun _ => ?_
  split
  · exact hR.bind (along_granAligned hR ..) fun _ => hR.bind (along_loadOn hR ..) fun (_, _) => hR.pure _

theorem along_readGran (e : Env) (gr : Nat) (q : Nat) (o : Obj) (c : Nat) (p : Nat) (g : Nat) : Along R (readGran e gr q o c p g) := by
  unfold readGran
  exact hR.bind (along_readRaw hR ..) fun (_, _) => hR.bind (along_needE hR ..) fun _ => hR.bind (along_needE hR ..) fun _ => hR.pure _

theorem along_jRead (j : PolyJob) (o : Obj) (c : Nat) (p : Nat) (g : Nat) : Along R (jRead j o c p g) := by
  unfold jRead
  exact hR.bind hR.get fun _ => along_atGran (along_readGran hR ..) ..

theorem along_freeGran  : Along R (freeGran) := by
  unfold freeGran
  exact along_mapE hR (fun _ => hR.bind (along_drawE hR ..) fun _ => hR.pure _) ..

theorem along_jPrime (j : PolyJob) (p : Nat) : Along R (jPrime j p) := by
  unfold jPrime
  exact hR.bind hR.get fun _ => hR.pure _

theorem along_moveCheckpoint (done : Nat) (k : Nat) : Along R (moveCheckpoint done k) := by
  unfold moveCheckpoint
  exact along_ite (hR.pure _) (along_checkpoint hR ..)

theorem along_moveChecks (i : Issued) (hbmOnly : Bool) (as : List Nat) : Along R (moveChecks i hbmOnly as) := by
  unfold moveChecks
  exact hR.bind (along_needE hR ..) fun _ => hR.bind (along_needE hR ..) fun _ => hR.bind (along_needE hR ..) fun _ => along_needE hR ..

theorem along_rescaleYields (j : PolyJob) : Along R (rescaleYields j) := by
  unfold rescaleYields
  exact along_eachE hR (fun _ => along_checkpoint hR ..) ..

/-- A fold of steps that each lead along a relation. -/
theorem Reads.foldl {β σ : Type} (p : σ → State) {g : σ → β → σ} (h : ∀ a x, R (p a) (p (g a x))) (l : List β) (a : σ) :
    R (p a) (p (l.foldl g a)) := by
  induction l generalizing a with
  | nil => exact hR.refl _
  | cons x r ih => exact hR.trans (h a x) (ih _)

theorem along_loadMarks (e : Env) (alloc : Bool) (a n : Nat) : Along R (loadMarks e alloc a n) := by
  have hstep (acc : List Nat × State) (b : Nat) : R acc.2 (if crosses e a then
      let r := fabricCheck e b 32 acc.2
      (if r.1 then b :: acc.1 else acc.1, r.2)
    else acc).2 := by
    split
    · exact hR.fabric ..
    · exact hR.refl _
  refine ⟨fun s => alongAt_get ?_⟩
  have hfold := hR.foldl (fun acc : List Nat × State => acc.2) hstep (unitsOf 32 a n) ([], noteRead .read alloc a n s)
  exact alongAt_bind hR (alongAt_set (hR.trans (hR.read .read alloc a n s) hfold)) fun _ t _ => (hR.pure _).leads t

theorem Reads.freeBytes (n : Nat) (s : State) : R s (freeBytes n s).2 := by
  induction n generalizing s with
  | zero => exact hR.refl _
  | succ n ih => exact hR.trans (hR.fresh s) (ih _)

theorem along_copyRead (e : Env) (overlap : Bool) (src n : Nat) : Along R (copyRead e overlap src n) := by
  refine along_noted hR (hR.bind (along_pieces hR ..) fun ps => ?_)
  split
  · refine hR.bind (along_loadMarks hR ..) fun (_, _) => along_ite ⟨fun s => alongAt_get ?_⟩ (hR.pure _)
    exact alongAt_bind hR (alongAt_set (hR.freeBytes n s)) fun _ t _ => (hR.pure _).leads t
  · exact hR.pure _

theorem along_commitChecks (c : Nat) (i : Issued) (r : Nat) : Along R (commitChecks c i r) := by
  unfold commitChecks
  exact hR.bind (along_needE hR ..) fun _ => hR.bind (along_readHdr hR ..) fun _ => hR.bind (along_hdrChecks hR ..) fun _ => hR.pure _

theorem along_openChecks (c : Nat) (i : Issued) (r : Nat) : Along R (openChecks c i r) := by
  unfold openChecks
  exact hR.bind (along_needE hR ..) fun _ => hR.bind (along_readHdr hR ..) fun _ => hR.bind (along_readHdr hR ..) fun _ => hR.bind
    (along_needE hR ..) fun _ => hR.bind (along_needE hR ..) fun _ => hR.bind hR.get fun _ => hR.bind (along_needE hR ..) fun _ =>
    hR.bind (along_needE hR ..) fun _ => hR.bind (along_needE hR ..) fun _ => hR.bind (along_needE hR ..) fun _ => hR.pure _

end

/-! ## What the checks of a POLY instruction yield -/

/-- Every value that work comes to its end with has a property. -/
structure Yields {α : Type} (P : α → Prop) (x : Eng α) : Prop where
  yields : ∀ s v t, x s = .ok v t → P v

theorem yields_pure {α : Type} {P : α → Prop} {a : α} (h : P a) : Yields P (pure a : Eng α) :=
  ⟨fun _ _ _ hx => by cases hx; exact h⟩

theorem yields_bind {α β : Type} {P : β → Prop} {x : Eng α} {f : α → Eng β} (h : ∀ v, Yields P (f v)) : Yields P (x >>= f) := by
  refine ⟨fun s v t hx => ?_⟩
  simp only [bind, EStateM.bind] at hx
  cases hs : x s with
  | ok a u => rw [hs] at hx; exact (h a).yields u v t hx
  | error e u => rw [hs] at hx; cases hx

theorem yields_ite {α : Type} {P : α → Prop} {c : Prop} [Decidable c] {x y : Eng α} (hx : Yields P x) (hy : Yields P y) :
    Yields P (if c then x else y) := by
  split
  · exact hx
  · exact hy

/-- A job that the checks let in is its environment's. -/
theorem polyChecks_env {e : Env} {i : Issued} {r : Nat} : Yields (fun j => j.e = e) (polyChecks e i r) := by
  unfold polyChecks
  refine yields_bind fun _ => ?_
  refine yields_bind fun _ => ?_
  extract_lets +onlyGivenNames -underBinder -merge -useContext jp0
  have hjp1 : ∀ x, Yields (fun j : PolyJob => j.e = e) (jp0 x) := by
    intro x
    refine yields_bind fun _ => ?_
    refine yields_bind fun _ => ?_
    refine yields_bind fun _ => ?_
    refine yields_bind fun _ => ?_
    refine yields_bind fun _ => ?_
    extract_lets +onlyGivenNames -underBinder -merge -useContext jp2
    have hjp3 : ∀ x, Yields (fun j : PolyJob => j.e = e) (jp2 x) := by
      intro x
      refine yields_bind fun _ => ?_
      refine yields_bind fun _ => ?_
      refine yields_bind fun _ => ?_
      refine yields_bind fun _ => ?_
      refine yields_bind fun _ => ?_
      refine yields_bind fun _ => ?_
      extract_lets +onlyGivenNames -underBinder -merge -useContext jp4
      have hjp5 : ∀ x, Yields (fun j : PolyJob => j.e = e) (jp4 x) := by
        intro x
        refine yields_bind fun _ => ?_
        refine yields_bind fun _ => ?_
        refine yields_bind fun _ => ?_
        extract_lets +onlyGivenNames -underBinder -merge -useContext jp6
        have hjp7 : ∀ x, Yields (fun j : PolyJob => j.e = e) (jp6 x) := by
          intro x
          refine yields_bind fun _ => ?_
          extract_lets +onlyGivenNames -underBinder -merge -useContext jp8
          have hjp9 : ∀ x, Yields (fun j : PolyJob => j.e = e) (jp8 x) := by
            intro x
            unfold jp8
            extract_lets +onlyGivenNames -underBinder -merge -useContext jp10
            have hjp11 : ∀ x, Yields (fun j : PolyJob => j.e = e) (jp10 x) := by
              intro x
              exact yields_bind fun _ => yields_bind fun _ => yields_ite (yields_bind fun _ => yields_pure rfl) (yields_pure rfl)
            clear_value jp10
            exact yields_ite (yields_bind fun _ => hjp11 _) (yields_bind fun _ => hjp11 _)
          clear_value jp8
          exact yields_ite (yields_bind fun _ => hjp9 _) (hjp9 _)
        clear_value jp6
        exact yields_ite (yields_bind fun _ => hjp7 _) (yields_bind fun _ => hjp7 _)
      clear_value jp4
      exact yields_ite (yields_bind fun _ => hjp5 _) (hjp5 _)
    clear_value jp2
    exact yields_ite (yields_bind fun _ => hjp3 _) (hjp3 _)
  clear_value jp0
  exact yields_ite (yields_bind fun _ => yields_bind fun _ => hjp1 _) (yields_bind fun _ => hjp1 _)

/-! ## Pieces that lie within one page -/

/-- A piece that lies within one page. -/
def InPage (x : Nat × Nat) : Prop := x.1 % pageSize x.1 + x.2 ≤ pageSize x.1

theorem inPage_of_pagePieces {f a n : Nat} {x : Nat × Nat} (h : x ∈ pagePieces f a n) : InPage x :=
  (pagePieces_mem f a n x.1 x.2 h).2.2.2

theorem inPage_of_burstPieces {e : Env} {a n : Nat} {x : Nat × Nat} (ha : InPage (a, n)) (h : x ∈ burstPieces e a n) : InPage x := by
  by_cases hsp : (isSp a && spCore a != e.core) = true
  · rw [burstPieces, if_pos hsp] at h
    simp only [Bool.and_eq_true] at hsp
    have ha40 : ¬ a < 2 ^ 40 := by
      have := hsp.1
      unfold isSp spBase at this
      simp only [decide_eq_true_eq] at this
      omega
    obtain ⟨u, hu, rfl⟩ := List.mem_map.mp h
    have hmax : ¬ max u a < 2 ^ 40 := by omega
    unfold InPage pageSize at ha ⊢
    dsimp only at ha ⊢
    rw [if_neg ha40] at ha
    rw [if_neg hmax]
    omega
  · rw [burstPieces, if_neg hsp, List.mem_singleton] at h
    exact h ▸ ha

/-- What the translation of one piece gives. -/
theorem xlatRange_single {e : Env} {write : Bool} {a n : Nat} {s t : State} {v : List (Nat × Nat)}
    (h : xlatRange e write [(a, n)] s = .ok v t) : ∃ d, xlat s e.ctx write a = .dev d ∧ v = [(d, n)] := by
  simp only [xlatRange, bind, EStateM.bind, get, getThe, MonadStateOf.get, EStateM.get] at h
  cases hx : xlat s e.ctx write a with
  | dev d =>
    rw [hx] at h
    cases h
    exact ⟨d, rfl, rfl⟩
  | fault r pte =>
    rw [hx] at h
    cases h
  | absent p =>
    rw [hx] at h
    cases hf : e.failed with
    | none =>
      rw [hf] at h
      cases h
    | some x =>
      obtain ⟨q, code⟩ := x
      rw [hf] at h
      by_cases hpq : p = q
      · simp only [hpq, if_true] at h
        cases h
      · simp only [hpq, if_false] at h
        cases h

/-- Bytes that go where their piece's first byte translates. -/
theorem reach_of_xlat {s : State} {k a d n m : Nat} (hx : xlat s k true a = .dev d) (hp : InPage (a, n)) (hm : m ≤ n) :
    Reach s k a d m := fun j hj => by
  unfold InPage at hp
  exact xlat_within (by dsimp only at hp; omega) hx

theorem Reach.take {s : State} {k v d n m : Nat} (h : Reach s k v d n) (hm : m ≤ n) : Reach s k v d m := fun j hj => h j (by omega)

/-- A piece of a move lies within one page of its destination. -/
theorem inPage_pieceLen (src dst n : Nat) : InPage (dst, pieceLen dst [src, dst] n) := by
  have hpos := pageSize_pos dst
  have hmod := Nat.mod_lt dst hpos
  unfold InPage pieceLen
  dsimp only [List.foldl]
  omega

theorem along_eachE_mem (hR : Reads R) {α : Type} {f : α → Eng Unit} {l : List α} (h : ∀ x ∈ l, Along R (f x)) :
    Along R (eachE f l) := by
  induction l with
  | nil => exact hR.pure _
  | cons x r ih =>
    exact hR.bind (h x List.mem_cons_self) fun _ => ih fun y hy => h y (List.mem_cons_of_mem _ hy)

/-! ## Where the writing work of the engines leads -/

section
variable {only : Option Nat} {R : State → State → Prop} (hW : Writes only R)
include hW

/-- A store to device memory, where the bytes may go. -/
theorem alongAt_devStore {e : Env} {alloc p : Bool} {a ca : Nat} {bs : List Byte} {s : State}
    (h : ∀ k, only = some k → ∃ v, Reach s k v a bs.length) : AlongAt R (devStore e alloc p a ca bs) s := by
  have hreach (t : State) (ht : R s t) (k : Nat) (hk : only = some k) : ∃ v, Reach t k v a bs.length := by
    obtain ⟨v, hv⟩ := h k hk
    exact ⟨v, hW.reach hk ht hv⟩
  refine alongAt_get ?_
  extract_lets jp
  have hjp (u : PUnit) (t : State) (ht : R s t) : AlongAt R (jp u) t := by
    refine alongAt_get ?_
    have hfabric : R t (if crosses e a then fabricCheck e a bs.length t else (false, t)).2 := by
      split
      · exact hW.fabric ..
      · exact hW.refl _
    dsimp only
    generalize (if crosses e a then fabricCheck e a bs.length t else (false, t)) = x at hfabric
    obtain ⟨fp, w⟩ := x
    refine alongAt_set (hW.trans hfabric (hW.trans (hW.store alloc a bs (p || fp) w (hreach w (hW.trans ht hfabric))) ?_))
    split
    · exact hW.book (bookkept_noted ..)
    · exact hW.refl _
  clear_value jp
  refine alongAt_ite ?_ (hjp _ s (hW.refl s))
  refine alongAt_bind hW.toReads ((along_takeStamp hW ..).leads s) fun _ t ht => alongAt_get ?_
  have hst : R s t := by
    have := (along_takeStamp hW e (moduleOf s) (spCore a) ca).leads s
    rwa [AlongAt, ht] at this
  refine alongAt_ite (alongAt_bind hW.toReads (alongAt_set (hW.asleep ..)) fun _ u _ => ?_) (hjp _ t hst)
  exact alongAt_bind hW.toReads ((along_failE hW.toReads ..).leads u) fun _ _ h => nomatch h

theorem alongAt_place {e : Env} (he : Allows only e.ctx) {a n : Nat} (hp : InPage (a, n)) {f : Nat → Eng Unit}
    (hf : ∀ d t, (∀ k, only = some k → Reach t k a d n) → AlongAt R (f d) t) (s : State) :
    AlongAt R (xlatRange e true [(a, n)] >>= fun ps => match ps with
      | (d, _) :: _ => f d
      | [] => pure ()) s := by
  have hx := (along_xlatRange hW.toReads e true [(a, n)]).leads s
  refine alongAt_bind hW.toReads hx fun v t hv => ?_
  obtain ⟨d, hd, rfl⟩ := xlatRange_single hv
  rw [AlongAt, hv] at hx
  refine hf d t fun k hk => ?_
  obtain rfl := he k hk
  exact hW.reach hk hx (reach_of_xlat hd hp le_rfl)

theorem along_storePieces {e : Env} (he : Allows only e.ctx) (alloc p : Bool) (l : List (Nat × Nat)) (hl : ∀ x ∈ l, InPage x)
    (bs : List Byte) : Along R (storePieces e alloc p l bs) := by
  induction l generalizing bs with
  | nil => exact hW.pure _
  | cons x r ih =>
    obtain ⟨a, n⟩ := x
    refine hW.bind (along_once hW.toReads ⟨alongAt_place hW he (hl _ List.mem_cons_self) fun d t h => ?_⟩) fun _ =>
      ih (fun x hx => hl x (List.mem_cons_of_mem _ hx)) _
    exact alongAt_devStore hW fun k hk => ⟨a, (h k hk).take (List.length_take_le ..)⟩

theorem along_sendWrite (e : Env) (a : Nat) (k : Packet) : Along R (sendWrite e a k) := by
  refine along_once hW.toReads (hW.bind hW.get fun s => along_ite ?_ (along_awaitPeer hW.toReads ..))
  have hsend : Along R (do
      modify (sendPacket k)
      if isSp k.addr then modify fun s => { s with wroteFar := s.wroteFar ++ [(k.dst, k.addr / 128 * 128)] }) :=
    hW.bind (along_modify (hW.send k)) fun _ => along_ite (along_modify fun s => hW.book (bookkept_noted ..)) (hW.pure _)
  exact along_ite (hW.bind (along_takeStamp hW ..) fun _ => hsend) hsend

theorem along_storeOn {e : Env} (he : Allows only e.ctx) (alloc : Bool) (m a : Nat) (bs : List Byte) (p : Bool) :
    Along R (storeOn e alloc m a bs p) := by
  refine hW.bind hW.get fun _ => along_ite (hW.bind (along_once hW.toReads (hW.bind (along_pieces hW.toReads ..) fun _ => hW.pure _))
    fun _ => along_storePieces hW he alloc p _ (fun x hx => ?_) bs) (along_eachE hW.toReads (fun _ => along_sendWrite hW ..) ..)
  obtain ⟨y, hy, hx⟩ := List.mem_flatMap.mp hx
  exact inPage_of_burstPieces (inPage_of_pagePieces hy) hx

theorem along_store {e : Env} (he : Allows only e.ctx) (a : Nat) (bs : List Byte) (p : Bool) : Along R (store e a bs p) := by
  unfold store
  exact hW.bind hW.get fun _ => along_storeOn hW he ..

theorem along_writeHdr {e : Env} (he : Allows only e.ctx) (a : Nat) (h : Nat) : Along R (writeHdr e a h) := by
  unfold writeHdr
  exact along_store hW he ..

theorem along_hdrPoison {e : Env} (he : Allows only e.ctx) (a : Nat) : Along R (hdrPoison e a) := by
  unfold hdrPoison
  exact hW.bind (along_load hW.toReads ..) fun (_, _) => along_ite (along_atomicDone hW.toReads ..) (hW.bind (along_writeHdr hW he ..)
    fun _ => along_atomicDone hW.toReads ..)

theorem along_startHdr {e : Env} (he : Allows only e.ctx) (a : Nat) (h : Nat) (poison : Bool) : Along R (startHdr e a h poison) := by
  unfold startHdr
  exact along_writeHdr hW he ..

theorem along_polyStart {j : PolyJob} (hj : Allows only j.e.ctx) : Along R (polyStart j) := by
  unfold polyStart
  exact along_ite (along_ite (along_hdrPoison hW hj ..) (hW.pure _)) (along_startHdr hW hj ..)

theorem along_commitHdr {e : Env} (he : Allows only e.ctx) (a : Nat) (h : Nat) (poison : Bool) : Along R (commitHdr e a h poison) := by
  unfold commitHdr
  exact along_writeHdr hW he ..

theorem along_polyCommit {j : PolyJob} (hj : Allows only j.e.ctx) (bad : Bool) : Along R (polyCommit j bad) := by
  unfold polyCommit
  exact along_ite (hW.pure _) (along_commitHdr hW hj ..)

theorem along_writeGran {e : Env} (he : Allows only e.ctx) (gr : Nat) (o : Obj) (c : Nat) (p : Nat) (g : Nat) (rs : List Nat) (bad :
    Bool) : Along R (writeGran e gr o c p g rs bad) := by
  unfold writeGran
  refine hW.bind hW.get fun _ => ?_
  split
  · exact hW.bind (along_granAligned hW.toReads ..) fun _ => along_storeOn hW he ..

theorem along_jWrite {j : PolyJob} (hj : Allows only j.e.ctx) (c : Nat) (p : Nat) (g : Nat) (v : List Nat) (bad : Bool) : Along R
    (jWrite j c p g v bad) := by
  unfold jWrite
  extract_lets +onlyGivenNames -underBinder -merge -useContext jp0
  have hjp1 : ∀ x, Along R (jp0 x) := by
    intro x
    exact along_atGran (along_writeGran hW hj ..) ..
  clear_value jp0
  exact along_ite (hW.bind (along_freeGran hW.toReads ..) fun _ => hjp1 _) (hW.bind (hW.pure _) fun _ => hjp1 _)

theorem along_jMark {j : PolyJob} (hj : Allows only j.e.ctx) (was : Bool) (bad : Bool) : Along R (jMark j was bad) := by
  unfold jMark
  exact along_ite (along_hdrPoison hW hj ..) (hW.pure _)

theorem along_runWork {j : PolyJob} {read : Nat → Eng (List (Nat × List Nat) × Bool)} (hj : Allows only j.e.ctx) (hread : ∀ a0, Along R
    (read a0)) (p : Nat) (gs : List Nat) (was : Bool) : Along R (runWork j p gs read was) := by
  unfold runWork
  exact hW.bind (along_mapE hW.toReads (fun _ => hread _) ..) fun _ => hW.bind (along_jMark hW hj ..) fun _ => hW.bind (along_eachE
    hW.toReads (fun _ => along_eachE hW.toReads (fun _ => along_jWrite hW hj ..) ..) ..) fun _ => hW.bind (along_checkpoint hW.toReads
    ..) fun _ => hW.pure _

theorem along_jCopy {j : PolyJob} (hj : Allows only j.e.ctx) (was : Bool) : Along R (jCopy j was) := by
  unfold jCopy
  exact along_ite (along_foldE hW.toReads (fun _ _ => along_runWork hW hj (fun _ => hW.bind (along_jRead hW.toReads ..) fun (_, _) =>
    hW.pure _) ..) ..) (hW.pure _)

theorem along_polyRun {data : PolyJob → Eng Bool} {i : Issued} (hi : Allows only i.ctx)
    (hdata : ∀ j, Allows only j.e.ctx → Along R (data j)) (c r : Nat) : Along R (polyRun data c i r) := by
  refine ⟨fun s => alongAt_bind hW.toReads ((along_polyChecks hW.toReads ..).leads s) fun j t hj => ?_⟩
  have hctx : Allows only j.e.ctx := by
    rw [polyChecks_env.yields _ _ _ hj]
    exact hi
  exact (hW.bind (along_polyStart hW hctx) fun _ => hW.bind (hdata j hctx) fun _ => hW.bind (along_jCopy hW hctx _) fun _ =>
    hW.bind (along_polyCommit hW hctx _) fun _ => hW.pure _).leads t

theorem along_firstPass {j : PolyJob} (hj : Allows only j.e.ctx) (strided : Bool) (c : Nat) (p : Nat) (was : Bool) : Along R (firstPass
    j strided c p was) := by
  unfold firstPass
  exact hW.bind (along_foldE hW.toReads (fun _ _ => hW.bind (along_mapE hW.toReads (fun _ => along_jRead hW.toReads ..) ..) fun _ =>
    hW.bind (along_jMark hW hj ..) fun _ => hW.bind (along_eachE hW.toReads (fun _ => hW.bind (along_freeGran hW.toReads ..) fun _ =>
    along_jWrite hW hj ..) ..) fun _ => hW.bind (along_checkpoint hW.toReads ..) fun _ => hW.pure _) ..) fun _ => hW.pure _

theorem along_secondPass {j : PolyJob} (hj : Allows only j.e.ctx) (strided : Bool) (c : Nat) (p : Nat) (v : List Nat) (was : Bool) :
    Along R (secondPass j strided c p v was) := by
  unfold secondPass
  exact along_foldE hW.toReads (fun _ _ => hW.bind (along_mapE hW.toReads (fun _ => along_atGran (along_readRaw hW.toReads ..) ..) ..)
    fun _ => hW.bind (along_jMark hW hj ..) fun _ => hW.bind (along_eachE hW.toReads (fun _ => along_jWrite hW hj ..) ..) fun _ =>
    hW.bind (along_checkpoint hW.toReads ..) fun _ => hW.pure _) ..

theorem along_limbWork {j : PolyJob} (hj : Allows only j.e.ctx) (strided : Bool) (f : PolyJob → Prime → Nat → List Nat → List Nat) :
    Along R (limbWork strided f j) := by
  unfold limbWork
  refine along_ite ?_ ?_
  · refine hW.bind ?_ fun _ => ?_
    · refine along_foldE hW.toReads (fun _ _ => ?_) ..
      split
      · exact along_ite (hW.bind (along_jPrime hW.toReads ..) fun _ => hW.bind (along_secondPass hW hj ..) fun _ => hW.pure _) (hW.bind
          (along_firstPass hW hj ..) fun _ => hW.pure _)
    · exact hW.pure _
  · exact along_foldE hW.toReads (fun _ _ => hW.bind (along_jPrime hW.toReads ..) fun _ => hW.bind (along_mapE hW.toReads (fun _ =>
      along_jRead hW.toReads ..) ..) fun _ => hW.bind (along_jMark hW hj ..) fun _ => hW.bind (along_eachE hW.toReads (fun _ =>
      along_jWrite hW hj ..) ..) fun _ => hW.bind (along_checkpoint hW.toReads ..) fun _ => hW.pure _) ..

theorem along_dataAuto {j : PolyJob} (hj : Allows only j.e.ctx) : Along R (dataAuto j) := along_limbWork hW hj ..

theorem along_pointWork {j : PolyJob} (hj : Allows only j.e.ctx)
    (f : PolyJob → Prime → Nat → List Nat → List Nat → List Nat → List Nat) : Along R (pointWork f j) := by
  refine along_foldE hW.toReads (fun _ (_, _, _) => hW.bind (along_jPrime hW.toReads ..) fun _ =>
    along_runWork hW hj (fun _ => hW.bind (along_jRead hW.toReads ..) fun (_, _) => ?_) ..) ..
  cases j.b with
  | none => exact along_ite (hW.bind (along_jRead hW.toReads ..) fun (_, _) => hW.pure _) (hW.pure _)
  | some o =>
    exact hW.bind (along_jRead hW.toReads ..) fun (_, _) =>
      along_ite (hW.bind (along_jRead hW.toReads ..) fun (_, _) => hW.pure _) (hW.pure _)

theorem along_dataPwMac {j : PolyJob} (hj : Allows only j.e.ctx) : Along R (dataPwMac j) := along_pointWork hW hj ..

theorem along_dataPwMul {j : PolyJob} (hj : Allows only j.e.ctx) : Along R (dataPwMul j) := along_pointWork hW hj ..

theorem along_scratchPut {j : PolyJob} (hj : Allows only j.e.ctx) (k : Nat) (g : Nat) (bad : Bool) : Along R (scratchPut j k g bad) :=
    by
  unfold scratchPut
  exact hW.bind (along_freeGran hW.toReads ..) fun _ => along_atGran (hW.bind (along_granAligned hW.toReads ..) fun _ => along_store hW
    hj ..) ..

theorem along_rescaleScratch {j : PolyJob} (hj : Allows only j.e.ctx) (k : Nat) (c : Nat) (was : Bool) : Along R (rescaleScratch j k c
    was) := by
  unfold rescaleScratch
  exact hW.bind (along_jPrime hW.toReads ..) fun _ => hW.bind (along_foldE hW.toReads (fun _ _ => hW.bind (along_mapE hW.toReads
    (fun _ => along_jRead hW.toReads ..) ..) fun _ => hW.bind (along_jMark hW hj ..) fun _ => hW.bind (along_eachE hW.toReads (fun _ =>
    along_scratchPut hW hj ..) ..) fun _ => hW.bind (along_checkpoint hW.toReads ..) fun _ => hW.pure _) ..) fun _ => along_ite
    (hW.bind (along_eachE hW.toReads (fun _ => hW.bind (along_eachE hW.toReads (fun _ => along_scratchPut hW hj ..) ..) fun _ =>
    along_checkpoint hW.toReads ..) ..) fun _ => hW.pure _) (hW.pure _)

theorem along_dataRescale {j : PolyJob} (hj : Allows only j.e.ctx) : Along R (dataRescale j) := by
  unfold dataRescale
  refine hW.bind (along_jPrime hW.toReads ..) fun _ => ?_
  refine along_foldE hW.toReads (fun _ _ => ?_) ..
  split
  · exact hW.bind (along_rescaleScratch hW hj ..) fun (_, _) => along_foldE hW.toReads (fun _ _ => hW.bind (along_jPrime hW.toReads ..)
      fun _ => hW.bind (along_rescaleYields hW.toReads ..) fun _ => along_foldE hW.toReads (fun _ _ => along_runWork hW hj (fun _ =>
      hW.bind (along_jRead hW.toReads ..) fun (_, _) => hW.pure _) ..) ..) ..

theorem along_copyWrite {e : Env} (he : Allows only e.ctx) (dst : Nat) (bs : List Byte) (marks : List Nat) {x : Nat × Nat}
    (hx : InPage x) : Along R (copyWrite e dst bs marks x) := by
  obtain ⟨a, n⟩ := x
  refine along_once hW.toReads ⟨alongAt_place hW he hx fun d t h => ?_⟩
  exact alongAt_bind hW.toReads (alongAt_devStore hW fun k hk => ⟨a, (h k hk).take (List.length_take_le ..)⟩) fun _ u _ =>
    (along_modify (hW.marks _ _)).leads u

theorem along_copyPiece {e : Env} (he : Allows only e.ctx) (overlap : Bool) (src : Nat) {dst n : Nat} (h : InPage (dst, n)) :
    Along R (copyPiece e overlap src dst n) :=
  hW.bind (along_edge hW.toReads) fun _ => hW.bind (along_copyRead hW.toReads ..) fun (_, _) =>
    along_eachE_mem hW.toReads fun _ hx => along_copyWrite hW he _ _ _ (inPage_of_burstPieces h hx)

theorem along_copyLoop {e : Env} (he : Allows only e.ctx) (overlap : Bool) (f src dst done n : Nat) :
    Along R (copyLoop e overlap f src dst done n) := by
  induction f generalizing src dst done n with
  | zero => exact hW.pure _
  | succ f ih =>
    exact along_ite (hW.pure _) (hW.bind (along_copyPiece hW he overlap src (inPage_pieceLen src dst n)) fun _ =>
      hW.bind (along_moveCheckpoint hW.toReads ..) fun _ => ih ..)

theorem along_copyOne {i : Issued} (hi : Allows only i.ctx) (c : Nat) (r : Nat) : Along R (copyOne c i r) := by
  unfold copyOne
  exact hW.bind (along_moveChecks hW.toReads ..) fun _ => hW.bind (along_copyLoop hW hi ..) fun _ => hW.pure _

theorem along_dataPwMulc {j : PolyJob} (hj : Allows only j.e.ctx) : Along R (dataPwMulc j) := along_pointWork hW hj ..

theorem along_zeroLoop {e : Env} (he : Allows only e.ctx) (f dst done n : Nat) : Along R (zeroLoop e f dst done n) := by
  induction f generalizing dst done n with
  | zero => exact hW.pure _
  | succ f ih =>
    exact along_ite (hW.pure _) (hW.bind (along_edge hW.toReads) fun _ => hW.bind (along_store hW he ..) fun _ =>
      hW.bind (along_moveCheckpoint hW.toReads ..) fun _ => ih ..)

theorem along_zeroOne {i : Issued} (hi : Allows only i.ctx) (c : Nat) (r : Nat) : Along R (zeroOne c i r) := by
  unfold zeroOne
  exact hW.bind (along_moveChecks hW.toReads ..) fun _ => hW.bind (along_zeroLoop hW hi ..) fun _ => hW.pure _

theorem along_dataBconv {j : PolyJob} (hj : Allows only j.e.ctx) : Along R (dataBconv j) :=
  hW.bind (along_mapE hW.toReads (fun _ => along_jPrime hW.toReads ..) _) fun _ =>
    hW.bind (along_mapE hW.toReads (fun _ => along_jPrime hW.toReads ..) _) fun _ =>
      along_foldE hW.toReads (fun _ (_, _) => hW.bind (along_mapE hW.toReads (fun _ => along_jRead hW.toReads ..) _) fun _ =>
        hW.bind (along_jMark hW hj ..) fun _ => hW.bind (along_act hW.toReads (hW.total _ _ _)) fun _ =>
          hW.bind (along_eachE hW.toReads (fun _ => along_jWrite hW hj ..) _) fun _ =>
            hW.bind (along_checkpoint hW.toReads) fun _ => hW.pure _) ..

theorem along_dataPwNeg {j : PolyJob} (hj : Allows only j.e.ctx) : Along R (dataPwNeg j) := along_pointWork hW hj ..

theorem along_dataTensor {j : PolyJob} (hj : Allows only j.e.ctx) : Along R (dataTensor j) := by
  refine along_foldE hW.toReads (fun _ (_, _) => hW.bind (along_jPrime hW.toReads ..) fun _ =>
    along_runWork hW hj (fun _ => ?_) ..) ..
  refine hW.bind (along_jRead hW.toReads ..) fun (_, _) => ?_
  refine hW.bind (along_jRead hW.toReads ..) fun (_, _) => ?_
  refine hW.bind (along_jRead hW.toReads ..) fun (_, _) => ?_
  refine hW.bind (along_jRead hW.toReads ..) fun (_, _) => ?_
  exact hW.pure _

theorem along_dataPwAdd {j : PolyJob} (hj : Allows only j.e.ctx) : Along R (dataPwAdd j) := along_pointWork hW hj ..

theorem along_dataPwSub {j : PolyJob} (hj : Allows only j.e.ctx) : Along R (dataPwSub j) := along_pointWork hW hj ..

theorem along_dataPwMacc {j : PolyJob} (hj : Allows only j.e.ctx) : Along R (dataPwMacc j) := along_pointWork hW hj ..

theorem along_dataNttInv {j : PolyJob} (hj : Allows only j.e.ctx) : Along R (dataNttInv j) := along_limbWork hW hj ..

theorem along_dataTranspose {j : PolyJob} (hj : Allows only j.e.ctx) : Along R (dataTranspose j) := by
  unfold dataTranspose
  exact along_foldE hW.toReads (fun _ _ => along_runWork hW hj (fun _ => hW.bind (along_jRead hW.toReads ..) fun (_, _) => hW.pure _)
    ..) ..

theorem along_headerRun {i : Issued} {checks : Eng (Option (Nat × Nat))} (hi : Allows only i.ctx) (hchecks : Along R (checks)) (c :
    Nat) : Along R (headerRun c i checks) := by
  unfold headerRun
  refine hW.bind hchecks fun _ => ?_
  extract_lets +onlyGivenNames -underBinder -merge -useContext jp0
  have hjp1 : ∀ x, Along R (jp0 x) := by
    intro x
    exact hW.pure _
  clear_value jp0
  split
  · exact hW.bind (along_writeHdr hW hi ..) fun _ => hjp1 _
  · exact hjp1 _

theorem along_polyCommitObj {i : Issued} (hi : Allows only i.ctx) (c : Nat) (r : Nat) : Along R (polyCommitObj c i r) := by
  unfold polyCommitObj
  exact along_headerRun hW hi (along_commitChecks hW.toReads ..) ..

theorem along_polyOpen {i : Issued} (hi : Allows only i.ctx) (c : Nat) (r : Nat) : Along R (polyOpen c i r) := by
  unfold polyOpen
  exact along_headerRun hW hi (along_openChecks hW.toReads ..) ..

theorem along_dataNttFwd {j : PolyJob} (hj : Allows only j.e.ctx) : Along R (dataNttFwd j) := along_limbWork hW hj ..

end

end Sys2Proof.Machine

/-! ## An engine's run leaves the rest of the machine, and writes only where its context may (R9, R11, R296) -/

namespace Sys2Proof.Machine

open Sys2Proof.Safety

/-- From one state to a later one a context's work has left the rest of the machine alone, its mappings give what they gave, and every
byte it has changed lies where they let it write. -/
structure Within (c : Nat) (s t : State) : Prop where
  untouched : Untouched s t
  xlat      : ∀ w a, xlat t c w a = xlat s c w a
  bytes     : ∀ a, memGet t.mem a ≠ memGet s.mem a → ∃ v, Machine.xlat s c true v = .dev a

theorem untouched_refl (s : State) : Untouched s s := by
  constructor <;> intros <;> rfl

theorem untouched_trans {s t u : State} (h : Untouched s t) (k : Untouched t u) : Untouched s u where
  pending := k.pending.trans h.pending
  regs := k.regs.trans h.regs
  acked := k.acked.trans h.acked
  paths := k.paths.trans h.paths
  lock := k.lock.trans h.lock
  table := k.table.trans h.table
  occupied := k.occupied.trans h.occupied
  chains := k.chains.trans h.chains
  streams := k.streams.trans h.streams
  engines := k.engines.trans h.engines
  seals := k.seals.trans h.seals
  imports := k.imports.trans h.imports
  flights := k.flights.trans h.flights
  receipts := k.receipts.trans h.receipts
  normalQ := k.normalQ.trans h.normalQ
  frames := k.frames.trans h.frames
  results := k.results.trans h.results
  sem := k.sem.trans h.sem
  qps := k.qps.trans h.qps
  island := k.island.trans h.island
  fuses := k.fuses.trans h.fuses
  flash := k.flash.trans h.flash
  power := k.power.trans h.power
  sideband := k.sideband.trans h.sideband
  registers d := (k.registers d).trans (h.registers d)
  mailboxes d := (k.mailboxes d).trans (h.mailboxes d)

theorem Within.refl (c : Nat) (s : State) : Within c s s := ⟨untouched_refl s, fun _ _ => rfl, fun _ h => absurd rfl h⟩

theorem Within.trans {c : Nat} {s t u : State} (h : Within c s t) (k : Within c t u) : Within c s u where
  untouched := untouched_trans h.untouched k.untouched
  xlat w a := (k.xlat w a).trans (h.xlat w a)
  bytes a ha := by
    by_cases hst : memGet t.mem a = memGet s.mem a
    · obtain ⟨v, hv⟩ := k.bytes a (by rwa [hst])
      exact ⟨v, (h.xlat true v).symm.trans hv⟩
    · exact h.bytes a hst

/-- What of a state an engine's run leaves alone. -/
def kept (s : State) : State :=
  { cores := s.cores, pending := s.pending, regs := s.regs, acked := s.acked, paths := s.paths, lockNonce := s.lockNonce, modTable :=
    s.modTable, occupied := s.occupied, chains := s.chains, streams := s.streams, engines := s.engines, seals := s.seals, imports :=
    s.imports, envFlight := s.envFlight, receipts := s.receipts, normalQ := s.normalQ, frames := s.frames, results := s.results, sem :=
    s.sem, qps := s.qps, island := s.island, fuses := s.fuses, flash := s.flash, power := s.power, sideband := s.sideband }

theorem core_congr {s t : State} (h : t.cores = s.cores) (d : Nat) : core t d = core s d := by rw [core, h, core]

theorem untouched_of_kept {s t : State} (h : kept t = kept s) : Untouched s t where
  pending := (congrArg State.pending h :)
  regs := (congrArg State.regs h :)
  acked := (congrArg State.acked h :)
  paths := (congrArg State.paths h :)
  lock := (congrArg State.lockNonce h :)
  table := (congrArg State.modTable h :)
  occupied := (congrArg State.occupied h :)
  chains := (congrArg State.chains h :)
  streams := (congrArg State.streams h :)
  engines := (congrArg State.engines h :)
  seals := (congrArg State.seals h :)
  imports := (congrArg State.imports h :)
  flights := (congrArg State.envFlight h :)
  receipts := (congrArg State.receipts h :)
  normalQ := (congrArg State.normalQ h :)
  frames := (congrArg State.frames h :)
  results := (congrArg State.results h :)
  sem := (congrArg State.sem h :)
  qps := (congrArg State.qps h :)
  island := (congrArg State.island h :)
  fuses := (congrArg State.fuses h :)
  flash := (congrArg State.flash h :)
  power := (congrArg State.power h :)
  sideband := (congrArg State.sideband h :)
  registers d := congrArg (fun x => x.vec) (core_congr (congrArg State.cores h :) d)
  mailboxes d := congrArg (fun x => x.mailboxes) (core_congr (congrArg State.cores h :) d)

/-- A step that changes neither what is kept, nor contexts, nor memory. -/
theorem within_of_kept {c : Nat} {s t : State} (h : kept t = kept s) (hc : t.contexts = s.contexts) (hm : t.mem = s.mem) :
    Within c s t := ⟨untouched_of_kept h, fun w a => xlat_congr hc c w a, fun a ha => absurd (congrArg (memGet · a) hm) ha⟩

theorem Calm.untouched {s t : State} (h : Calm s t) : Untouched s t := untouched_of_kept (congrArg kept h.rest :)

/-- What the memory system does of its own. -/
theorem Calm.within {s t : State} (c : Nat) (h : Calm s t) : Within c s t :=
  ⟨h.untouched, fun w a => h.xlat c w a, fun a ha => absurd (congrArg (memGet · a) h.mem) ha⟩

/-! ### The steps of an engine's work -/

theorem within_devWrite {c : Nat} {cls : Machine.Class} {alloc p : Bool} {a : Nat} {bs : List Byte} {s : State}
    (h : ∃ v, Reach s c v a bs.length) : Within c s (devWrite cls alloc a bs p s) := by
  have hcalm : Calm { s with mem := memWrite s.mem a bs } (devWrite cls alloc a bs p s) := calm_devWrite ..
  have hfirst : Untouched s { s with mem := memWrite s.mem a bs } := by constructor <;> intros <;> rfl
  refine ⟨untouched_trans hfirst hcalm.untouched, fun w b => (hcalm.xlat c w b).trans (xlat_congr rfl c w b), fun b hb => ?_⟩
  obtain ⟨v, hv⟩ := h
  have hin : ¬ (b < a ∨ a + bs.length ≤ b) := fun hout => hb (by
    rw [hcalm.mem]
    exact memGet_memWrite_out bs a s.mem b hout)
  have hb' := hv (b - a) (by omega)
  exact ⟨v + (b - a), by rwa [Nat.add_sub_cancel' (by omega)] at hb'⟩

theorem within_setCore {c k : Nat} {f : Core → Core} (hv : ∀ x, (f x).vec = x.vec) (hm : ∀ x, (f x).mailboxes = x.mailboxes) (s : State) :
    Within c s (setCore k f s) where
  untouched := by
    have hregs (d : Nat) : (core (setCore k f s) d).vec = (core s d).vec := by
      by_cases h : d = k
      · rw [h, core_setCore_self, hv]
      · rw [core_setCore_of_ne h]
    have hboxes (d : Nat) : (core (setCore k f s) d).mailboxes = (core s d).mailboxes := by
      by_cases h : d = k
      · rw [h, core_setCore_self, hm]
      · rw [core_setCore_of_ne h]
    constructor
    case registers => exact hregs
    case mailboxes => exact hboxes
    all_goals rfl
  xlat w a := xlat_congr rfl c w a
  bytes _ h := absurd rfl h

theorem within_sendPacket (c : Nat) (k : Packet) (s : State) : Within c s (sendPacket k s) := by
  unfold sendPacket
  split
  · exact within_of_kept rfl rfl rfl
  · exact within_of_kept rfl rfl rfl

/-- What an engine does for a context keeps within it. -/
theorem within_writes (c : Nat) : Writes (some c) (Within c) where
  refl := .refl c
  trans := .trans
  book h := within_of_kept (congrArg kept h.same :) (congrArg State.contexts h.same :) (congrArg State.mem h.same :)
  age x a s := (calm_useAge x a s).within c
  read cls alloc a n s := (calm_noteRead cls alloc a n s).within c
  fabric e a n s := (calm_fabricCheck e a n s).within c
  answered k s := within_of_kept rfl rfl rfl
  total i k n s := (calm_addTotal i k n s).within c
  fresh s := within_of_kept rfl rfl rfl
  counted i k s := (calm_bumpE i k s).within c
  keepsXlat hk h := by
    cases hk
    exact h.xlat
  store alloc a bs p s h := within_devWrite (h c rfl)
  stamp core x m d f s := within_setCore (f := fun y => { y with
    accounts := lreplace (fun a => a.ctx == x && a.module == m && a.dest == d) f y.accounts }) (fun _ => rfl) (fun _ => rfl) s
  returned b s := within_of_kept rfl rfl rfl
  asleep d r s := ((calm_bumpE ..).trans (calm_stageRec d r _)).within c
  send k s := within_sendPacket c k s
  marks a l s := within_of_kept rfl rfl rfl

/-! ### A row's repeats -/

theorem within_repeatSignal (k c : Nat) (i : Issued) (s : State) : Within k s (repeatSignal c i s) := by
  unfold repeatSignal
  split
  · split
    · exact within_of_kept rfl rfl rfl
    · exact .refl ..
  · exact .refl ..

theorem within_runFrom {α : Type} {c : Nat} {x : Eng α} {j : List Ev} {one : Bool} {s t : State} {v : α} (hx : Along (Within c) x)
    (h : runFrom j one x s = .ok v t) : Within c s t := by
  have hstart : Within c s { s with replay := j.reverse, journal := j, stretch := one } := within_of_kept rfl rfl rfl
  have hrun := hx.leads { s with replay := j.reverse, journal := j, stretch := one }
  rw [AlongAt] at hrun
  unfold runFrom at h
  split at h
  next w u hu =>
    cases h
    rw [hu] at hrun
    exact hstart.trans (hrun.trans (within_of_kept rfl rfl rfl))
  next => cases h

theorem within_repeats {c : Nat} {run : Nat → Eng (List SealMsg)} {i : Issued} {n r : Nat} {j : List Ev} {posts posts' : List SealMsg}
    {s t : State} (hrun : ∀ r, Along (Within i.ctx) (run r)) (h : Repeats c run i n r j posts s posts' t) : Within i.ctx s t := by
  induction h with
  | none => exact .refl ..
  | one hone _ _ ih =>
    have hclear (u : State) : Within i.ctx u { u with wrote := [], wroteFar := [] } := within_of_kept rfl rfl rfl
    exact (within_runFrom (hrun _) hone).trans ((hclear _).trans ((within_repeatSignal ..).trans ih))

/-- The work of every POLY row, COPY and ZERO keeps within the context of its instruction. -/
theorem along_plainRows (c : Fin 128) (i : Issued) (r : Nat) : ∀ row ∈ plainRows c, Along (Within i.ctx) (row.2.2 i r) := by
  have hW := within_writes i.ctx
  have hi : Allows (some i.ctx) i.ctx := fun k h => Option.some.inj h
  have hjob : ∀ x ∈ polyJobs c, ∀ j : PolyJob, Allows (some i.ctx) j.e.ctx → Along (Within i.ctx) (x.2.2 j) := by
    simp only [polyJobs, List.forall_mem_cons, List.not_mem_nil, false_imp_iff, implies_true, and_true]
    exact ⟨fun _ => along_dataNttFwd hW, fun _ => along_dataNttInv hW, fun _ => along_dataAuto hW, fun _ => along_dataPwAdd hW,
      fun _ => along_dataPwSub hW, fun _ => along_dataPwNeg hW, fun _ => along_dataPwMul hW, fun _ => along_dataPwMac hW,
      fun _ => along_dataPwMulc hW, fun _ => along_dataPwMacc hW, fun _ => along_dataTensor hW, fun _ => along_dataBconv hW,
      fun _ => along_dataRescale hW, fun _ => along_dataTranspose hW⟩
  simp only [plainRows, polyRows, List.forall_mem_append, List.forall_mem_map, List.forall_mem_cons, List.not_mem_nil, false_imp_iff,
    implies_true, and_true]
  exact ⟨⟨fun x hx => along_polyRun hW hi (hjob x hx) .., along_polyOpen hW hi .., along_polyCommitObj hW hi ..⟩,
    along_copyOne hW hi .., along_zeroOne hW hi ..⟩

theorem within_finishes {c : Fin 128} {s t : State} {i : Issued} {posts : List SealMsg} {q : QueueId} {row : EngineRow}
    (hrow : row ∈ plainRows c) (h : Finishes c.val q row.2.1 row.2.2 s i posts t) : Within i.ctx s t :=
  within_repeats (fun r => along_plainRows c i r row hrow) h.repeats

/-- Settles O59: a run keeps within its context, by where each step of its work leads. -/
theorem engineRunsLeaveTheRest : Obligations.EngineRunsLeaveTheRest :=
  fun _ _ _ _ _ _ _ hrow h => (within_finishes hrow h).untouched

/-- Settles O60: what a run changes of memory, its context's own mappings let it write. -/
theorem engineRunsStayInTheirContext : Obligations.EngineRunsStayInTheirContext :=
  fun _ _ _ _ _ _ _ hrow h => (within_finishes hrow h).bytes

end Sys2Proof.Machine

/-! ## What checks leave of a state, and work that goes on from there -/

namespace Sys2Proof.Machine

open Sys2Proof.Safety

/-- Work that only reads: what the memory system keeps for itself, the answers it has taken, and what it has passed again. -/
structure Quiet (s t : State) : Prop where
  calm   : Calm { s with replay := t.replay, reads := t.reads } t
  passed : t.replay <:+ s.replay

theorem Calm.bare {s t : State} (h : Calm s t) (r : List Ev) (x : List RemoteRead) :
    Calm { s with replay := r, reads := x } { t with replay := r, reads := x } where
  rest := congrArg (fun u : State => { u with replay := r, reads := x }) h.rest
  entry := h.entry
  xlat c w a := (xlat_congr rfl c w a).trans ((h.xlat c w a).trans (xlat_congr rfl c w a).symm)

theorem Calm.quiet {s t : State} (h : Calm s t) : Quiet s t where
  calm := h.bare t.replay t.reads
  passed := by
    have hr : t.replay = s.replay := (congrArg State.replay h.rest :)
    exact hr ▸ List.suffix_rfl

theorem quiet_book {s t : State} (h : Bookkept s t) : Quiet s t := by
  obtain ⟨r, j, l, k, rfl⟩ : ∃ r j l k, s = { t with replay := r, journal := j, wrote := l, wroteFar := k } :=
    ⟨_, _, _, _, h.same.symm⟩
  exact ⟨.of_rest rfl rfl, h.passed⟩

theorem quiet_reads : Reads Quiet where
  refl s := (Calm.refl s).quiet
  trans h k := ⟨(h.calm.bare _ _).trans k.calm, k.passed.trans h.passed⟩
  book := quiet_book
  age c a s := (calm_useAge c a s).quiet
  read cls alloc a n s := (calm_noteRead cls alloc a n s).quiet
  fabric e a n s := (calm_fabricCheck e a n s).quiet
  answered _ _ := ⟨.of_rest rfl rfl, List.suffix_rfl⟩
  total i k n s := (calm_addTotal i k n s).quiet
  fresh _ := ⟨.of_rest rfl rfl, List.suffix_rfl⟩
  counted i k s := (calm_bumpE i k s).quiet

theorem Along.ok {R : State → State → Prop} {α : Type} {x : Eng α} {s t : State} {v : α} (h : Along R x) (hv : x s = .ok v t) :
    R s t := by
  have ran := h.leads s
  rwa [AlongAt, hv] at ran

theorem replay_of_calm {s t : State} (h : Calm s t) : t.replay = s.replay := (congrArg State.replay h.rest :)

/-- What an engine does leaves no more to be passed again than there was. -/
theorem passed_writes : Writes none fun s t => t.replay <:+ s.replay where
  refl _ := List.suffix_rfl
  trans h k := k.trans h
  book h := h.passed
  age c a s := replay_of_calm (calm_useAge c a s) ▸ List.suffix_rfl
  read cls alloc a n s := replay_of_calm (calm_noteRead cls alloc a n s) ▸ List.suffix_rfl
  fabric e a n s := replay_of_calm (calm_fabricCheck e a n s) ▸ List.suffix_rfl
  answered _ _ := List.suffix_rfl
  total _ _ _ _ := List.suffix_rfl
  fresh _ := List.suffix_rfl
  counted i k s := replay_of_calm (calm_bumpE i k s) ▸ List.suffix_rfl
  keepsXlat h := nomatch h
  store alloc a bs p s _ := replay_of_calm (calm_devWrite .write alloc a bs p s) ▸ List.suffix_rfl
  stamp _ _ _ _ _ _ := List.suffix_rfl
  returned _ _ := List.suffix_rfl
  asleep d r s := replay_of_calm ((calm_bumpE 0x5000 0xF s).trans (calm_stageRec d r _)) ▸ List.suffix_rfl
  send k s := by
    unfold sendPacket
    split <;> exact List.suffix_rfl
  marks _ _ _ := List.suffix_rfl

/-- Work that began with nothing to pass again ends so. -/
theorem replay_nil_of_along {α : Type} {x : Eng α} {s t : State} {v : α} (hx : Along (fun s t => t.replay <:+ s.replay) x)
    (hs : s.replay = []) (hv : x s = .ok v t) : t.replay = [] := by
  have hsuf : t.replay <:+ s.replay := hx.ok hv
  rw [hs] at hsuf
  exact List.suffix_nil.mp hsuf

/-- A state from which work begins, with the answers of other modules that checks have taken. -/
def begin (s : State) (x : List RemoteRead) : State := { settled s with reads := x }

/-- Checks that pass go on in a state that is as it was, with nothing to pass again. -/
theorem passes_quiet {α : Type} {x : Eng α} {s : State} {v : α} (h : Passes x s v) (hx : Along Quiet x) :
    ∃ u, x (settled s) = .ok v u ∧ Calm (begin s u.reads) u ∧ Idle u := by
  obtain ⟨t, ht⟩ := h
  have hstart : ({ s with replay := [].reverse, journal := [], stretch := false } : State) = settled s := rfl
  unfold runFrom at ht
  rw [hstart] at ht
  cases hv : x (settled s) with
  | ok w u =>
    rw [hv] at ht
    cases ht
    obtain ⟨calm, passed⟩ : Quiet (settled s) u := hx.ok hv
    have hreplay : u.replay = [] := List.suffix_nil.mp passed
    rw [hreplay] at calm
    exact ⟨u, rfl, calm, hreplay, (congrArg State.stretch calm.rest :)⟩
  | error e u =>
    rw [hv] at ht
    cases ht

theorem workServed_begin {s : State} {e : Env} {hdrs : List Nat} {l : List Safety.Work} (h : WorkServed s e hdrs l)
    (x : List RemoteRead) : WorkServed (begin s x) e hdrs l where
  headers := h.headers
  reads := h.reads
  again := h.again
  writes := h.writes
  order := h.order
  apart := h.apart

/-- Checks that pass, and what comes to its end wherever they lead. -/
theorem ends_quietly {α β : Type} {checks : Eng α} {rest : α → Eng β} {s : State} {v : α} (hpass : Passes checks s v)
    (hchecks : Along Quiet checks) (hrest : ∀ u, Calm (begin s u.reads) u → Idle u → ∃ p t, rest v u = .ok p t) :
    ∃ p u, runFrom [] false (checks >>= rest) s = .ok p u := by
  obtain ⟨u, hu, calm, idle⟩ := passes_quiet hpass hchecks
  obtain ⟨p, t, hp⟩ := hrest u calm idle
  have hstart : ({ s with replay := [].reverse, journal := [], stretch := false } : State) = settled s := rfl
  refine ⟨p, settled t, ?_⟩
  unfold runFrom
  rw [hstart, eng_bind hu, hp]

/-- A store into bytes that are served. -/
theorem store_ends {s : State} {e : Env} {a : Nat} {bs : List Byte} {p : Bool} (hi : Idle s) (hs : Served s e true a bs.length) :
    ∃ t, store e a bs p s = .ok () t ∧ Near s t := by
  obtain ⟨t, ht, hn, -⟩ := storeOn_of e.alloc p hi hs
  exact ⟨t, ht, hn⟩

/-- Served work comes to its end from a state that is as the one it was served in. -/
theorem Walks.goesOn {s u : State} {e : Env} {hdrs : List Nat} {α : Type} {x : Eng α} {l : List Safety.Work}
    (h : Walks s e hdrs (workBytes s e.ctx hdrs l) x (l.flatMap Work.accesses)) (hs : WorkServed s e hdrs l) (hc : Calm s u) (hi : Idle u) :
    ∃ v t, x u = .ok v t := by
  have hcan := (can_of_workServed hs).calm hc
  rw [← List.append_nil (l.flatMap Work.accesses)] at hcan
  obtain ⟨v, t, hv, -⟩ := h u [] hi hc.near hcan
  exact ⟨v, t, hv⟩

/-- A repeat whose checks pass and whose work walks what is served comes to its end. -/
theorem ends_of_checks {α β : Type} {checks : Eng α} {rest : α → Eng β} {s : State} {v : α} {e : Env} {hdrs : List Nat}
    {l : List Safety.Work} (hpass : Passes checks s v) (hchecks : Along Quiet checks) (hs : WorkServed s e hdrs l)
    (hrest : ∀ x, Walks (begin s x) e hdrs (workBytes (begin s x) e.ctx hdrs l) (rest v) (l.flatMap Work.accesses)) :
    ∃ p u, runFrom [] false (checks >>= rest) s = .ok p u :=
  ends_quietly hpass hchecks fun u calm idle => (hrest u.reads).goesOn (workServed_begin hs _) calm idle

end Sys2Proof.Machine

/-! ## POLY instructions come to their end (R50, R65, R71, R217) -/

namespace Sys2Proof.Machine

open Sys2Proof.Safety

theorem polyRun_eq (data : PolyJob → Eng Bool) (c : Nat) (i : Issued) (r : Nat) :
    polyRun data c i r = polyChecks (envOf c .poly i) i r >>= polyRest data := rfl

/-- The work of a POLY instruction after its checks. -/
theorem walks_polyRest {s : State} {j : PolyJob} {hdrs : List Nat} {P : Nat → Prop} (hd : j.d.addr ∈ hdrs) (c : Fin 128)
    {row : Instr × Nat × (PolyJob → Eng Bool)} (hrow : row ∈ polyJobs c) :
    Walks s j.e hdrs P (polyRest row.2.2 j) ((polyWork s row.2.1 j).flatMap Work.accesses) := by
  obtain ⟨l, hl, hw⟩ := walks_polyJob (s0 := s) (P := P) hd c row hrow
  rw [hl, List.flatMap_append]
  exact walks_first (walks_polyStart hd) fun _ => walks_bind hw fun p => walks_last (walks_jCopy hd) fun q =>
    walks_first (walks_polyCommit hd) fun _ => walks_pure _

theorem polyWork_begin (s : State) (x : List RemoteRead) (op : Nat) (j : PolyJob) : polyWork (begin s x) op j = polyWork s op j := rfl

/-- A repeat of a POLY instruction that can be done at once comes to its end. -/
theorem polyRun_ends (c : Fin 128) {row : Instr × Nat × (PolyJob → Eng Bool)} (hrow : row ∈ polyJobs c) {i : Issued} {r : Nat} {s : State}
    (h : polyCan c.val row.2.1 i r s) : ∃ p u, runFrom [] false (polyRun row.2.2 c.val i r) s = .ok p u := by
  obtain ⟨j, hpass, hserved⟩ := h
  rw [polyRun_eq]
  exact ends_of_checks hpass (along_polyChecks quiet_reads ..) hserved fun x => walks_polyRest (List.mem_singleton_self _) c hrow

/-- A repeat of OPEN or COMMIT that can be done at once comes to its end. -/
theorem headerRun_ends {checks : Issued → Nat → Eng (Option (Nat × Nat))} {c : Nat} {i : Issued} {r : Nat} {s : State}
    (h : headerCan checks c i r s) (hchecks : Along Quiet (checks i r)) :
    ∃ p u, runFrom [] false (headerRun c i (checks i r)) s = .ok p u := by
  obtain ⟨x, hpass, hserved⟩ := h
  refine ends_quietly hpass hchecks fun u calm idle => ?_
  cases x with
  | none => exact ⟨_, _, rfl⟩
  | some y =>
    have hlen : (toLe 64 (withCheck 64 y.2)).length = 64 := length_toLe _ _
    have hs : Served u (envOf c .poly i) true y.1 (toLe 64 (withCheck 64 y.2)).length := by
      rw [hlen]
      exact Served.calm (s := begin s u.reads) (hserved y rfl) calm.xlat
    obtain ⟨t, ht, -⟩ := store_ends (p := false) idle hs
    exact ⟨[], t, eng_bind ht⟩

/-- The rows of the polynomial engine run their engine; BCONV with its claim on the matrix array granted (R65). -/
theorem exec_polyRows (c : Fin 128) {s : State} {i : Issued} : ∀ row ∈ polyRows c,
    (row.2.1 = 0x30 → begun i = true ∨ arrayClosed s c.val i.serial = false) → readyHead s c.val .poly row.2.1 = some i →
    exec row.1 s = .next (runEngine c.val .poly row.2.1 row.2.2 s) := by
  have bconv (hclaim : begun i = true ∨ arrayClosed s c.val i.serial = false) (hhead : readyHead s c.val .poly 0x30 = some i) :
      exec (.bconv c) s = .next (runEngine c.val .poly 0x30 (polyRun dataBconv c.val) s) := by
    have hgo : (!(begun i) && arrayClosed s c.val i.serial) = false := by
      obtain h | h := hclaim <;> simp [h]
    have hrow : bconvRowCmd c.val s = runEngine c.val .poly 0x30 (polyRun dataBconv c.val) s := by
      simp only [bconvRowCmd, hhead, hgo]
      rfl
    exact congrArg Host.Outcome.next hrow
  unfold polyRows polyJobs
  iterate 11 refine List.forall_mem_cons.mpr ⟨fun _ _ => rfl, ?_⟩
  refine List.forall_mem_cons.mpr ⟨fun hclaim hhead => bconv (hclaim rfl) hhead, ?_⟩
  iterate 4 refine List.forall_mem_cons.mpr ⟨fun _ _ => rfl, ?_⟩
  exact List.forall_mem_nil _

/-- A row of the polynomial engine that can run ends its instruction. -/
theorem polyRow_ends (c : Fin 128) {s : State} {i : Issued} {row : EngineRow} (hrow : row ∈ polyRows c)
    (hclaim : row.2.1 = 0x30 → begun i = true ∨ arrayClosed s c.val i.serial = false) {can : Issued → Nat → State → Prop}
    (hrun : CanRun c.val .poly row.2.1 row.2.2 can s i) (hends : ∀ r s, can i r s → ∃ p u, runFrom [] false (row.2.2 i r) s = .ok p u) :
    ∃ posts t, exec row.1 s = .next (endOk c.val .poly i posts t) := by
  obtain ⟨posts, t, h⟩ := finishes_of_can hrun hends
  exact ⟨posts, t, (exec_polyRows c row hrow hclaim h.head).trans (congrArg Host.Outcome.next (runEngine_of h))⟩

theorem mem_polyRows_job {c : Fin 128} {row : Instr × Nat × (PolyJob → Eng Bool)} (h : row ∈ polyJobs c) :
    (row.1, row.2.1, polyRun row.2.2 c.val) ∈ polyRows c :=
  List.mem_append_left _ (List.mem_map_of_mem (f := fun x => (x.1, x.2.1, polyRun x.2.2 c.val)) h)

theorem mem_polyRows_header (c : Fin 128) :
    (.openObj c, 0x3C, polyOpen c.val) ∈ polyRows c ∧ (.commit c, 0x3D, polyCommitObj c.val) ∈ polyRows c :=
  ⟨List.mem_append_right _ (List.mem_cons_self ..), List.mem_append_right _ (List.mem_cons_of_mem _ (List.mem_cons_self ..))⟩

/-- Settles O16: the repeats that end, and those that can, by what their checks leave and what their work walks. -/
theorem polyInstructionsEnd : Obligations.PolyInstructionsEnd := by
  refine ⟨fun c s i posts t row hrow hclaim h => ?_, fun c s i => ⟨fun row hrow hclaim h => ?_, fun h => ?_, fun h => ?_⟩⟩
  · exact (exec_polyRows c row hrow hclaim h.head).trans (congrArg Host.Outcome.next (runEngine_of h))
  · exact polyRow_ends c (mem_polyRows_job hrow) hclaim h fun r s => polyRun_ends c hrow
  · exact polyRow_ends c (mem_polyRows_header c).1 (fun h => nomatch h) h fun r s hc =>
      headerRun_ends hc (along_openChecks quiet_reads ..)
  · exact polyRow_ends c (mem_polyRows_header c).2 (fun h => nomatch h) h fun r s hc =>
      headerRun_ends hc (along_commitChecks quiet_reads ..)

end Sys2Proof.Machine

/-! ## Checks and reads of operands lead where reads do -/

namespace Sys2Proof.Machine

open Sys2Proof.Safety

theorem bumpN_succ (index sub n : Nat) (s : State) : bumpN index sub (n + 1) s = bumpN index sub n (bumpE index sub s) := by
  delta bumpN bumpN._f
  generalize bumpE index sub = g
  rfl

section
variable {R : State → State → Prop} (hR : Reads R)
include hR

theorem reads_bumpN (index sub n : Nat) (s : State) : R s (bumpN index sub n s) := by
  induction n generalizing s with
  | zero => exact hR.refl s
  | succ n ih =>
    rw [bumpN_succ]
    exact hR.trans (hR.counted ..) (ih _)

theorem along_onceEntry {operand p : Nat} {f : State → State} (hf : ∀ s, R s (f s)) : Along R (onceEntry operand p f) := by
  refine ⟨fun s => ?_⟩
  unfold AlongAt onceEntry
  split
  next hr => exact hR.book (passed_tail hr)
  · dsimp only [resultState]
    split
    · exact hR.book (bookkept_noted ..)
    · exact hR.trans (hf s) (hR.book (bookkept_noted ..))

theorem along_rowMoveIssue (w a : Nat) : Along R (rowMoveIssue w a) := by
  unfold rowMoveIssue
  exact hR.bind (along_needE hR ..) fun _ => along_needE hR ..

theorem along_vecShape (e : Env) (w : Nat) (a d : Option Tens) : Along R (vecShape e w a d) := by
  unfold vecShape
  split
  · exact hR.pure _
  · refine along_ite ?_ ?_
    · exact hR.pure _
    · refine hR.bind hR.get fun _ => ?_
      split
      · exact hR.throw _
      · exact along_ite (hR.pure _) (hR.pure _)

theorem along_firstAborted (e : Env) (w : Nat) : Along R (firstAborted e w) := by
  unfold firstAborted
  exact along_ite (hR.bind hR.get fun _ => hR.pure _) (hR.pure _)

theorem along_readPlain (e : Env) (w : Nat) (ps : List Int) : Along R (readPlain e w ps) := by
  unfold readPlain
  exact hR.bind hR.get fun _ => hR.bind (along_loadOn hR ..) fun (_, _) => hR.pure _

theorem along_readEntries (e : Env) (w n k : Nat) : Along R (readEntries e w n k) := by
  induction n generalizing k with
  | zero => exact hR.pure _
  | succ n ih =>
    rw [readEntries]
    refine hR.bind (along_readPlain hR ..) fun (_, _) => ?_
    have next : Along R (readEntries e w n (k + 1)) := ih (k + 1)
    exact along_ite (hR.bind (along_failE hR ..) fun _ => hR.bind next fun _ => hR.pure _)
      (hR.bind next fun _ => hR.pure _)

theorem along_oorEvents (n : Nat) : Along R (oorEvents n) := by
  unfold oorEvents
  exact along_act hR (fun _ => reads_bumpN hR ..) ..

theorem along_openTensor (e : Env) (u : Use) (a : Nat) : Along R (openTensor e u a) := by
  unfold openTensor
  refine hR.bind (along_openPlain hR ..) fun _ => ?_
  extract_lets +onlyGivenNames -underBinder -merge -useContext jp0
  have hjp1 : ∀ x, Along R (jp0 x) := by
    intro x
    exact along_ite (hR.pure _) (hR.bind (along_openPlain hR ..) fun _ => hR.bind (along_needE
      hR ..) fun _ => along_ite (hR.bind (along_readEntries hR ..) fun _ => hR.bind (along_needE hR
      ..) fun _ => hR.bind (along_oorEvents hR ..) fun _ => hR.pure _) (hR.pure _))
  clear_value jp0
  exact along_ite (hR.bind (along_openPlain hR ..) fun _ => hR.bind (along_needE hR ..) fun _ =>
    hR.bind (hR.pure _) fun _ => hjp1 _) (hR.bind (hR.pure _) fun _ => hjp1 _)

theorem along_openFuse (e : Env) (elems : List Nat) (write : Bool) (a : Nat) : Along R (openFuse e elems write a) := by
  unfold openFuse
  exact along_ite (hR.pure _) (hR.bind (along_openTensor hR ..) fun _ => hR.pure _)

theorem along_rowfinFuse (e : Env) (w : Nat) (o : VecOps) : Along R (rowfinFuse e w o) := by
  unfold rowfinFuse
  split
  · exact hR.bind (along_needE hR ..) fun _ => hR.bind (along_loadWord hR ..) fun _ =>
      hR.bind (along_needE hR ..) fun _ => hR.bind (along_needE hR ..) fun _ => along_ite
      (hR.bind (hR.pure _) fun _ => hR.bind (along_needE hR ..) fun _ => hR.pure _)
      (hR.bind (along_openFuse hR ..) fun _ => hR.bind (along_needE hR ..) fun _ => hR.pure _)
  · exact hR.pure _

theorem along_openIf (b : Bool) (e : Env) (u : Use) (a : Nat) : Along R (openIf b e u a) := by
  unfold openIf
  exact along_ite (hR.bind (along_openTensor hR ..) fun _ => hR.pure _) (hR.pure _)

theorem along_vecIssue (c : Nat) (i : Issued) (r : Nat) : Along R (vecIssue c i r) := by
  unfold vecIssue
  exact hR.bind (along_needE hR ..) fun _ => hR.bind (along_openIf hR ..) fun _ => hR.bind
    (along_openIf hR ..) fun _ => hR.bind (along_openIf hR ..) fun _ => hR.bind (along_openIf hR ..) fun _ => hR.bind
    (along_needE hR ..) fun _ => hR.bind (along_vecShape hR ..) fun _ => hR.bind (along_firstAborted hR ..)
    fun _ => hR.bind (along_needE hR ..) fun _ => along_ite (hR.bind (along_rowfinFuse hR ..) fun _ =>
    hR.bind hR.get fun _ => hR.pure _) (hR.bind (hR.pure _) fun _ => hR.bind
    hR.get fun _ => hR.pure _)

theorem along_readScale (e : Env) (t : Tens) (inner : Nat) (ps : List Int) : Along R (readScale e t inner ps) := by
  unfold readScale
  split
  · exact hR.pure _
  · exact along_readPlain hR ..

theorem along_indexed (e : Env) (t : Tens) (ps : List Int) : Along R (indexed e t ps) := by
  unfold indexed
  split
  · exact hR.pure _
  · extract_lets +onlyGivenNames -underBinder -merge -useContext _ _ jp0
    have hjp1 : ∀ x, Along R (jp0 x) := by
      intro x
      exact along_ite (hR.pure _) (along_ite (hR.pure _) (along_ite (hR.pure _) (hR.pure _)))
    clear_value jp0
    split
    · exact hR.bind (hR.pure _) fun _ => hjp1 _
    · refine hR.bind (along_readEntries hR ..) fun _ => ?_
      extract_lets +onlyGivenNames -underBinder -merge -useContext _ jp2
      have hjp3 : ∀ x, Along R (jp2 x) := by
        intro x
        exact hR.bind (hR.pure _) fun _ => hjp1 _
      clear_value jp2
      refine along_ite ?_ ?_
      · extract_lets +onlyGivenNames -underBinder -merge -useContext jp4
        have hjp5 : ∀ x, Along R (jp4 x) := by
          intro x
          exact along_ite (hR.bind (along_onceEntry hR (fun _ => reads_bumpN hR ..) ..) fun _ => hjp3 _) (hjp3 _)
        clear_value jp4
        exact along_ite (hR.bind (along_failE hR ..) fun _ => hjp5 _) (hjp5 _)
      · exact hjp3 _

theorem along_readElem (e : Env) (t : Tens) (inner : Nat) (ix : List Nat) : Along R (readElem e t inner ix) := by
  unfold readElem
  refine along_ite ?_ ?_
  · refine hR.bind (along_indexed hR ..) fun _ => ?_
    split
    · exact hR.pure _
    · exact hR.bind (along_readPlain hR ..) fun (_, _) => hR.bind (along_readScale hR ..) fun (_, _) => hR.pure _
  · exact hR.pure _

theorem along_storedBits (lap : Bool) (v : Nat) : Along R (storedBits lap v) := by
  unfold storedBits
  exact along_ite (along_drawE hR ..) (hR.pure _)

theorem along_vecOperand (e : Env) (isInt : Bool) (src reg : Nat) (t : Option Tens) (ix : List Nat) : Along R (vecOperand e
    isInt src reg t ix) := by
  unfold vecOperand
  split
  · split
    · exact hR.bind (along_readElem hR ..) fun _ => hR.pure _
    · exact hR.pure _
  · exact hR.bind hR.get fun _ => hR.pure _
  · exact hR.bind hR.get fun _ => hR.pure _
  · exact hR.pure _

theorem along_vecA (e : Env) (w : Nat) (o : VecOps) (ix : List Nat) : Along R (vecA e w o ix) := by
  unfold vecA
  exact along_vecOperand hR ..

theorem along_fuseWord (e : Env) (t : Option Tens) (row col : Nat) : Along R (fuseWord e t row col) := by
  unfold fuseWord
  split
  · exact hR.pure _
  · exact hR.bind (along_readElem hR ..) fun _ => hR.pure _

theorem along_vecCond (e : Env) (w : Nat) (o : VecOps) (isInt : Bool) (ix : List Nat) : Along R (vecCond e w o isInt ix) := by
  unfold vecCond
  split
  · exact hR.bind (along_readElem hR ..) fun _ => hR.pure _
  · exact hR.bind (along_vecOperand hR ..) fun _ => hR.pure _

theorem along_vecElem (e : Env) (w : Nat) (o : VecOps) (isInt : Bool) (a : Nat × Bool) (ix : List Nat) : Along R (vecElem e w o
    isInt a ix) := by
  unfold vecElem
  extract_lets +onlyGivenNames -underBinder -merge -useContext _ jp0
  have hjp1 : ∀ x, Along R (jp0 x) := by
    intro x
    exact along_ite (hR.bind (along_vecCond hR ..) fun _ => hR.pure _) (along_ite (hR.bind (along_vecOperand hR
      ..) fun _ => hR.pure _) (hR.bind (hR.pure _) fun _ => hR.pure _))
  clear_value jp0
  exact along_ite (hR.bind (along_vecOperand hR ..) fun _ => hjp1 _) (hR.bind (hR.pure _) fun _ => hjp1 _)

theorem along_readIndices (e : Env) (a n nRing : Nat) (distinct : Bool) : Along R (readIndices e a n nRing distinct) := by
  unfold readIndices
  exact hR.bind (along_loadControl hR ..) fun _ => hR.bind (along_needE hR ..) fun _ =>
    hR.pure _

theorem along_kindCheck (want : Nat → Bool) (o : Obj) : Along R (kindCheck want o) := by
  unfold kindCheck
  exact hR.bind (along_needE hR ..) fun _ => hR.bind hR.get fun _ => along_needE hR ..

theorem along_gateHeaders (e : Env) (w : Nat) (srcs dsts : List Nat) (want : Nat → Bool) (pack : Bool) : Along R (gateHeaders e
    w srcs dsts want pack) := by
  unfold gateHeaders
  refine hR.bind (along_needE hR ..) fun _ => ?_
  refine hR.bind (along_mapE hR (fun _ => along_readHdr hR ..) ..) fun _ => ?_
  refine hR.bind (along_mapE hR (fun _ => along_readHdr hR ..) ..) fun _ => ?_
  refine hR.bind (along_hdrChecks hR ..) fun _ => ?_
  refine hR.bind hR.get fun _ => ?_
  refine hR.bind (along_checkObjs hR ..) fun _ => ?_
  refine hR.bind (along_checkObjs hR ..) fun _ => ?_
  refine hR.bind (along_tagChecks hR ..) fun _ => ?_
  refine hR.bind (along_eachE hR (fun _ => along_kindCheck hR ..) ..) fun _ => ?_
  extract_lets +onlyGivenNames -underBinder -merge -useContext jp0
  have hjp1 : ∀ x, Along R (jp0 x) := by
    intro x
    exact hR.bind (along_checkObjs hR ..) fun _ => hR.bind (along_needE hR ..) fun _ =>
      hR.pure _
  clear_value jp0
  exact along_ite (hR.bind (along_needE hR ..) fun _ => hjp1 _) (hjp1 _)

theorem along_extractChecks (c : Nat) (i : Issued) (r : Nat) : Along R (extractChecks c i r) := by
  unfold extractChecks
  exact hR.bind (along_gateHeaders hR ..) fun (_, _) => hR.bind hR.get fun _ => hR.bind (along_needE
    hR ..) fun _ => hR.bind (along_readIndices hR ..) fun _ => hR.bind (along_needE hR ..) fun _ =>
    hR.bind (along_openPlace hR ..) fun _ => hR.bind (along_mapE hR (fun _ => along_openPlace
    hR ..) ..) fun _ => hR.pure _

theorem along_gateRun {checks : Eng GateJob} {work : GateJob → Eng Unit} (hchecks : Along R (checks)) (hwork : ∀ a0, Along
    R (work a0)) : Along R (gateRun checks work) := by
  unfold gateRun
  exact hR.bind hchecks fun _ => hR.bind (hwork _) fun _ => hR.pure _

theorem along_msgIssue (i : Issued) : Along R (msgIssue i) := by
  unfold msgIssue
  exact along_needE hR ..

theorem along_sealAddOne (c : Nat) (i : Issued) (r : Nat) : Along R (sealAddOne c i r) := by
  unfold sealAddOne
  refine hR.bind (along_msgIssue hR ..) fun _ => ?_
  refine hR.bind hR.get fun _ => ?_
  split
  · exact along_failE hR ..
  · exact hR.pure _

theorem along_openTarget (e : Env) (a : Nat) : Along R (openTarget e a) := by
  unfold openTarget
  exact hR.bind (along_openPlain hR ..) fun _ => hR.bind (along_needE hR ..) fun _ =>
    hR.pure _

theorem along_soOpenChecks (c : Nat) (i : Issued) (r : Nat) : Along R (soOpenChecks c i r) := by
  unfold soOpenChecks
  exact hR.bind (along_msgIssue hR ..) fun _ => hR.bind hR.get fun _ => hR.bind (along_needE
    hR ..) fun _ => hR.bind (along_needE hR ..) fun _ => hR.bind (along_loadWord hR ..)
    fun _ => hR.bind (along_needE hR ..) fun _ => hR.bind (along_needE hR ..) fun _ =>
    hR.bind (along_openTarget hR ..) fun _ => hR.pure _

theorem along_tileVecs (e : Env) (o : MmOps) (mt nt : Nat) : Along R (tileVecs e o mt nt) := by
  unfold tileVecs
  extract_lets +onlyGivenNames pro epi vec
  split
  · exact hR.pure _
  · have hvec : ∀ use t l at_, Along R (vec use t l at_) := fun _ _ _ _ =>
      along_ite (along_mapE hR (fun _ => along_fuseWord hR ..) ..) (hR.pure _)
    clear_value vec
    exact hR.bind (hvec _ _ _ _) fun _ => hR.bind (hvec _ _ _ _) fun _ => hR.bind (hvec _ _ _ _) fun _ =>
      hR.bind (hvec _ _ _ _) fun _ => hR.bind (hvec _ _ _ _) fun _ => hR.bind (hvec _ _ _ _) fun _ =>
      hR.bind (hvec _ _ _ _) fun _ => hR.bind (hvec _ _ _ _) fun _ => hR.bind (hvec _ _ _ _) fun _ =>
      hR.pure _

theorem along_tileStart (e : Env) (o : MmOps) : Along R (tileStart e o) := by
  unfold tileStart
  split
  · refine hR.bind (along_tileVecs hR ..) fun _ => ?_
    refine hR.bind ?_ fun _ => ?_
    · refine along_mapE hR (fun _ => ?_) ..
      refine along_mapE hR (fun _ => ?_) ..
      split
      · exact along_readElem hR ..
      · exact hR.pure _
    · exact hR.pure _

theorem along_eachCell {f : Nat → Nat → Nat → Eng Unit} (hf : ∀ a0 a1 a2, Along R (f a0 a1 a2)) (rows : List (List Nat)) :
    Along R (eachCell f rows) := by
  unfold eachCell
  exact along_eachE hR (fun _ => along_eachE hR (fun _ => hf _ _ _) ..) ..

theorem along_residAt (e : Env) (o : MmOps) (i j : Nat) : Along R (residAt e o i j) := by
  unfold residAt
  split
  · exact hR.bind (along_readElem hR ..) fun _ => hR.pure _
  · exact hR.pure _

theorem along_tileElems (e : Env) (o : MmOps) (bk : Bank) (a : Acc) : Along R (tileElems e o bk a) := by
  unfold tileElems
  exact hR.bind (along_mapE hR (fun _ => along_mapE hR (fun _ => hR.bind (along_residAt hR ..)
    fun _ => hR.pure _) ..) ..) fun _ => hR.pure _

theorem along_streamFor (e : Env) (weight : Bool) : Along R (streamFor e weight) := by
  unfold streamFor
  refine hR.bind hR.get fun _ => ?_
  extract_lets +onlyGivenNames -underBinder -merge -useContext p jp
  have hjp : ∀ x, Along R (jp x) := by
    intro x
    unfold jp
    split
    · exact hR.throw _
    · split
      · split
        · exact along_failE hR ..
        · exact along_failE hR ..
      · have checked (d : StreamDesc) (x : PUnit) : Along R (do
            needE (d.ctx == e.ctx) .contextMismatch
            if d.weight != weight then failE .streamOrder
            pure d) :=
          hR.bind (along_needE hR ..) fun _ =>
            along_ite (hR.bind (along_failE hR ..) fun _ => hR.pure _) (hR.pure _)
        exact along_ite (hR.bind (hR.throw _) fun x => checked _ x) (checked _ ⟨⟩)
  clear_value jp
  exact along_ite (hR.bind (along_failE hR ..) fun _ => hjp _) (hjp _)

theorem along_nextParcel (e : Env) : Along R (nextParcel e) := by
  unfold nextParcel
  refine hR.bind hR.get fun _ => ?_
  split
  · exact hR.pure _
  · exact hR.throw _

theorem along_blockRelay (e : Env) (o : MmOps) (nt b : Nat) : Along R (blockRelay e o nt b) := by
  unfold blockRelay
  exact hR.bind (along_streamFor hR ..) fun _ => hR.bind (along_nextParcel hR ..) fun _ =>
    hR.bind (along_needE hR ..) fun _ => hR.pure _

theorem along_rawB (e : Env) (o : MmOps) (t : Tens) (nt b : Nat) : Along R (rawB e o t nt b) := by
  unfold rawB
  exact along_mapE hR (fun _ => along_mapE hR (fun _ => along_readElem hR ..) ..) ..

theorem along_blockB (e : Env) (o : MmOps) (t : Tens) (mt nt b : Nat) : Along R (blockB e o t mt nt b) := by
  unfold blockB
  exact along_ite (along_ite (hR.bind (along_rawB hR ..) fun _ => hR.pure _) (hR.pure _)) (hR.bind
    (along_rawB hR ..) fun _ => hR.pure _)

theorem along_rawA (e : Env) (o : MmOps) (mt b : Nat) : Along R (rawA e o mt b) := by
  unfold rawA
  exact along_mapE hR (fun _ => hR.bind (along_mapE hR (fun _ => along_readElem hR ..) ..) fun _ => along_ite
    (hR.bind (along_mapE hR (fun _ => along_readElem hR ..) ..) fun _ => hR.pure _) (hR.bind
    (hR.pure _) fun _ => hR.pure _)) ..

theorem along_blockA (e : Env) (o : MmOps) (mt nt b : Nat) : Along R (blockA e o mt nt b) := by
  unfold blockA
  exact along_ite (along_ite (hR.bind (along_rawA hR ..) fun _ => hR.pure _) (hR.pure _)) (hR.bind
    (along_rawA hR ..) fun _ => hR.pure _)

theorem along_peekElem (e : Env) (a : Nat) : Along R (peekElem e a) := by
  unfold peekElem
  refine hR.bind (along_noted hR ⟨fun s => ?_⟩) fun _ => hR.pure _
  unfold AlongAt
  beta_reduce
  split
  · split
    · exact hR.refl s
    · exact hR.refl s
  · exact hR.refl s

theorem along_openFusion (e : Env) (w pro epi : Nat) : Along R (openFusion e w pro epi) := by
  unfold openFusion
  extract_lets +onlyGivenNames -underBinder -merge -useContext jp0
  have hjp1 : ∀ x, Along R (jp0 x) := by
    intro x
    unfold jp0
    extract_lets +onlyGivenNames -underBinder -merge -useContext jp2
    have hjp3 : ∀ x, Along R (jp2 x) := by
      intro x
      unfold jp2
      extract_lets +onlyGivenNames -underBinder -merge -useContext jp4
      have hjp5 : ∀ x, Along R (jp4 x) := by
        intro x
        unfold jp4
        extract_lets +onlyGivenNames -underBinder -merge -useContext jp6
        have hjp7 : ∀ x, Along R (jp6 x) := by
          intro x
          unfold jp6
          extract_lets +onlyGivenNames -underBinder -merge -useContext jp8
          have hjp9 : ∀ x, Along R (jp8 x) := by
            intro x
            exact hR.pure _
          clear_value jp8
          exact along_ite (hR.bind (along_openFuse hR ..) fun _ => hjp9 _) (hR.bind (hR.pure _) fun _ => hjp9 _)
        clear_value jp6
        exact along_ite (hR.bind (along_openFuse hR ..) fun _ => hjp7 _) (along_ite (hR.bind (along_openFuse hR ..)
          fun _ => hjp7 _) (hR.bind (hR.pure _) fun _ => hjp7 _))
      clear_value jp4
      exact along_ite (hR.bind (along_openFuse hR ..) fun _ => hjp5 _) (hR.bind (hR.pure _) fun _ => hjp5 _)
    clear_value jp2
    exact along_ite (hR.bind (along_openFuse hR ..) fun _ => hjp3 _) (hR.bind (hR.pure _) fun _ => hjp3 _)
  clear_value jp0
  exact along_ite (hR.bind (along_openFuse hR ..) fun _ => hjp1 _) (hR.bind (hR.pure _) fun _ => hjp1 _)

theorem along_readFusion (e : Env) (a pro epi : Nat) : Along R (readFusion e a pro epi) := by
  unfold readFusion
  exact hR.bind (along_needE hR ..) fun _ => hR.bind (along_loadWord hR ..) fun _ =>
    hR.bind (along_needE hR ..) fun _ => hR.pure _

theorem along_mmFuse (c : Nat) (e : Env) (w : Nat) (o : MmOps) : Along R (mmFuse c e w o) := by
  unfold mmFuse
  exact hR.bind (along_readFusion hR ..) fun _ => hR.bind (along_needE hR ..) fun _ => hR.bind
    (along_openFusion hR ..) fun _ => hR.bind (along_needE hR ..) fun _ => along_ite (hR.bind (along_needE
    hR ..) fun _ => hR.bind hR.get fun _ => hR.bind (along_needE hR ..) fun _ =>
    hR.pure _) (hR.pure _)

theorem along_mmIssue (c : Nat) (i : Issued) (r : Nat) : Along R (mmIssue c i r) := by
  unfold mmIssue
  refine hR.bind (along_needE hR ..) fun _ => ?_
  refine hR.bind (along_needE hR ..) fun _ => ?_
  refine hR.bind (along_needE hR ..) fun _ => ?_
  refine hR.bind (along_peekElem hR ..) fun _ => ?_
  extract_lets +onlyGivenNames -underBinder -merge -useContext jp0
  have hjp1 : ∀ x, Along R (jp0 x) := by
    intro x
    unfold jp0
    extract_lets +onlyGivenNames -underBinder -merge -useContext jp2
    have hjp3 : ∀ x, Along R (jp2 x) := by
      intro x
      refine hR.bind (along_openTensor hR ..) fun _ => ?_
      extract_lets +onlyGivenNames -underBinder -merge -useContext jp4
      have hjp5 : ∀ x, Along R (jp4 x) := by
        intro x
        unfold jp4
        extract_lets +onlyGivenNames -underBinder -merge -useContext jp6
        have hjp7 : ∀ x, Along R (jp6 x) := by
          intro x
          unfold jp6
          extract_lets +onlyGivenNames -underBinder -merge -useContext jp8
          have hjp9 : ∀ x, Along R (jp8 x) := by
            intro x
            unfold jp8
            extract_lets +onlyGivenNames -underBinder -merge -useContext jp10
            have hjp11 : ∀ x, Along R (jp10 x) := by
              intro x
              unfold jp10
              extract_lets +onlyGivenNames -underBinder -merge -useContext _ _ jp12
              have hjp13 : ∀ x, Along R (jp12 x) := by
                intro x
                refine hR.bind (along_needE hR ..) fun _ => ?_
                extract_lets +onlyGivenNames -underBinder -merge -useContext jp14
                have hjp15 : ∀ x, Along R (jp14 x) := by
                  intro x
                  unfold jp14
                  extract_lets +onlyGivenNames -underBinder -merge -useContext _ jp16
                  have hjp17 : ∀ x, Along R (jp16 x) := by
                    intro x
                    exact hR.bind hR.get fun _ => hR.pure _
                  clear_value jp16
                  exact along_ite (hR.bind (hR.pure _) fun _ => hjp17 _) (hR.bind (along_mmFuse hR ..) fun _ =>
                    hjp17 _)
                clear_value jp14
                split
                · exact hR.bind (along_needE hR ..) fun _ => hjp15 _
                · exact hjp15 _
              clear_value jp12
              exact along_ite (hR.bind (along_streamFor hR ..) fun _ => hR.bind (hR.pure _) fun _ => hjp13 _)
                (hR.bind (hR.pure _) fun _ => hjp13 _)
            clear_value jp10
            exact along_ite (hR.bind (along_openTensor hR ..) fun _ => hR.bind (hR.pure _) fun _ => hjp11 _)
              (hR.bind (hR.pure _) fun _ => hjp11 _)
          clear_value jp8
          exact along_ite (hR.bind (along_openTensor hR ..) fun _ => hR.bind (hR.pure _) fun _ => hjp9 _)
            (hR.bind (hR.pure _) fun _ => hjp9 _)
        clear_value jp6
        exact along_ite (hR.bind (hR.pure _) fun _ => hjp7 _) (hR.bind (along_openTensor hR ..) fun _ =>
          hR.bind (along_needE hR ..) fun _ => hR.bind (hR.pure _) fun _ => hjp7 _)
      clear_value jp4
      exact along_ite (hR.bind (along_needE hR ..) fun _ => hjp5 _) (hjp5 _)
    clear_value jp2
    exact along_ite (hR.bind (along_peekElem hR ..) fun _ => hR.bind (along_needE hR ..) fun _ => hjp3 _) (hjp3
      _)
  clear_value jp0
  exact along_ite (hR.bind (along_needE hR ..) fun _ => hjp1 _) (hjp1 _)

theorem along_arrSealBound (e : Env) (o : MmOps) : Along R (arrSealBound e o) := by
  unfold arrSealBound
  refine hR.bind hR.get fun _ => ?_
  split
  · refine along_ite ?_ ?_
    · split
      · exact along_failE hR ..
      · exact along_ite (along_failE hR ..) (hR.pure _)
    · exact hR.pure _
  · exact hR.pure _

theorem along_firstFail {α : Type} (l : List α) (r : Reason) (at_ : α → Nat) (bad : α → Bool) :
    Along R (firstFail l r at_ bad) := by
  unfold firstFail
  exact along_needE hR ..

theorem along_readKeyList (e : Env) (a n : Nat) : Along R (readKeyList e a n) := by
  unfold readKeyList
  exact hR.bind (along_needE hR ..) fun _ => hR.bind (along_loadControl hR ..) fun _ =>
    hR.bind (along_firstFail hR ..) fun _ => hR.bind (along_firstFail hR ..) fun _ => hR.bind (along_firstFail hR ..)
    fun _ => hR.pure _

theorem along_readReference (e : Env) (a : Nat) (ks : List KeyEntry) : Along R (readReference e a ks) := by
  unfold readReference
  exact hR.bind (along_readHdr hR ..) fun _ => hR.bind (along_needE hR ..) fun _ =>
    hR.bind (along_needE hR ..) fun _ => hR.bind (along_needE hR ..) fun _ => hR.bind
    (along_needE hR ..) fun _ => hR.bind hR.get fun _ => hR.bind (along_needE hR ..)
    fun _ => hR.bind (along_needE hR ..) fun _ => hR.bind (along_needE hR ..) fun _ =>
    hR.bind (along_firstFail hR ..) fun _ => hR.pure _

theorem along_weightChecks (e : Env) (n : BitVec 16) (i : Issued) : Along R (weightChecks e n i) := by
  unfold weightChecks
  exact hR.bind (along_openTensor hR ..) fun _ => hR.bind hR.get fun _ =>
    hR.bind (along_needE hR ..) fun _ => hR.pure _

theorem along_kmStream (c : Nat) (i : Issued) (k : KmOps) : Along R (kmStream c i k) := by
  unfold kmStream
  exact hR.bind (along_streamFor hR ..) fun _ => hR.bind hR.get fun _ => hR.bind (along_checkObjs
    hR ..) fun _ => hR.bind (along_checkObjs hR ..) fun _ => hR.bind (along_checkObjs hR
    ..) fun _ => hR.bind (along_needE hR ..) fun _ => along_needE hR ..

theorem along_kmIssue (c : Nat) (i : Issued) : Along R (kmIssue c i) := by
  unfold kmIssue
  exact hR.bind hR.get fun _ => hR.bind (along_needE hR ..) fun _ => hR.bind (along_mapE
    hR (fun _ => along_polyChecks hR ..) ..) fun _ => hR.pure _

theorem along_ownAligned (e : Env) (a : Nat) : Along R (ownAligned e a) := by
  unfold ownAligned
  exact along_needE hR ..

theorem along_formWeight (e : Env) (x : StreamEngine) (p : Parcel) : Along R (formWeight e x p) := by
  unfold formWeight
  refine hR.bind (along_mapE hR (fun _ => along_mapE hR (fun _ => ?_) ..) ..) fun _ => ?_
  · exact along_ite (hR.bind (along_readElem hR ..) fun _ => hR.pure _) (hR.pure _)
  · refine along_ite (hR.bind (hR.pure _) fun _ => hR.pure _)
      (hR.bind (along_mapE hR (fun _ => along_mapE hR (fun _ => ?_) ..) ..) fun _ => hR.pure _)
    exact along_ite (along_readScale hR ..) (hR.pure _)

theorem along_readSample (e : Env) (r : Nat) (o : Obj) : Along R (readSample e r o) := by
  unfold readSample
  exact hR.bind hR.get fun _ => hR.bind (along_mapE hR (fun _ => along_atGran (along_readGran
    hR ..) ..) ..) fun _ => hR.pure _

theorem along_linChecks (c : Nat) (i : Issued) (r : Nat) : Along R (linChecks c i r) := by
  unfold linChecks
  exact hR.bind (along_gateHeaders hR ..) fun (_, _) => hR.bind hR.get fun _ => hR.bind (along_needE
    hR ..) fun _ => hR.bind (along_mapE hR (fun _ => along_openPlace hR ..) ..) fun _ =>
    hR.bind (along_openPlace hR ..) fun _ => hR.pure _

theorem along_readRun (e : Env) (r p q a n : Nat) : Along R (readRun e r p q a n) := by
  unfold readRun
  exact hR.bind (along_mapE hR (fun _ => along_atGran (hR.bind (along_granAligned hR ..) fun _ =>
    hR.bind (along_load hR ..) fun (_, _) => hR.bind (along_needE hR ..) fun _ => hR.pure
    _) ..) ..) fun _ => hR.pure _

theorem along_refreshRows (e : Env) (r base ch : Nat) (ats : List Nat) (first n k : Nat) (acc new : List (List Nat)) (bad : Bool) :
    Along R (refreshRows e r base ch ats first n k acc new bad) := by
  induction n generalizing k acc new bad with
  | zero => exact hR.pure _
  | succ n ih =>
    rw [refreshRows]
    refine hR.bind hR.get fun _ => ?_
    refine hR.bind (along_readRun hR ..) fun _ => hR.bind (along_readRun hR ..) fun _ =>
      hR.bind (along_checkpoint hR ..) fun _ => along_ite (ih ..) (ih ..)

theorem along_readSwitched (e : Env) (r ch a nLwe : Nat) : Along R (readSwitched e r ch a nLwe) := by
  unfold readSwitched
  exact hR.bind hR.get fun _ => hR.bind (along_readRun hR ..) fun (_, _) => hR.pure _

theorem along_readGpb (e : Env) (w a : Nat) (os : List Obj) : Along R (readGpb e w a os) := by
  unfold readGpb
  exact hR.bind (along_loadControl hR ..) fun _ => hR.bind (along_granAligned hR ..) fun _ =>
    hR.bind (along_loadControl hR ..) fun _ => hR.bind (along_needE hR ..) fun _ =>
    hR.bind hR.get fun _ => hR.bind (along_needE hR ..) fun _ => hR.bind (along_checkObjs
    hR ..) fun _ => hR.bind (along_needE hR ..) fun _ => hR.pure _

theorem along_refreshChecks (c : Nat) (i : Issued) (r : Nat) : Along R (refreshChecks c i r) := by
  unfold refreshChecks
  exact hR.bind (along_gateHeaders hR ..) fun (_, _) => hR.bind (along_readGpb hR ..) fun _ => hR.bind
    (along_needE hR ..) fun _ => hR.bind (along_needE hR ..) fun _ => hR.bind hR.get
    fun _ => hR.bind (along_openPlace hR ..) fun _ => hR.pure _

theorem along_refreshIssue (c : Nat) (i : Issued) : Along R (refreshIssue c i) := by
  unfold refreshIssue
  exact hR.bind hR.get fun _ => hR.bind (along_needE hR ..) fun _ => hR.bind (along_mapE
    hR (fun _ => along_refreshChecks hR ..) ..) fun _ => hR.pure _

theorem along_refreshStream (e : Env) (k : GateOps) : Along R (refreshStream e k) := by
  unfold refreshStream
  exact hR.bind (along_streamFor hR ..) fun _ => hR.bind (along_needE hR ..) fun _ => hR.bind
    (along_checkObjs hR ..) fun _ => hR.bind (along_checkObjs hR ..) fun _ => along_needE hR ..

theorem along_refreshBegin (e : Env) (w : Nat) (x : Nat × GateRep) : Along R (refreshBegin e w x) := by
  unfold refreshBegin
  exact hR.bind hR.get fun _ => hR.bind (along_readSwitched hR ..) fun (_, _, _) => hR.pure _

theorem along_readAccLimb (e : Env) (r : Nat) (o : Obj) (c p : Nat) : Along R (readAccLimb e r o c p) := by
  unfold readAccLimb
  exact hR.bind hR.get fun _ => hR.bind (along_mapE hR (fun _ => along_atGran (along_readGran
    hR ..) ..) ..) fun _ => hR.pure _

theorem along_readAcc (e : Env) (r : Nat) (o : Obj) : Along R (readAcc e r o) := by
  unfold readAcc
  exact hR.bind (along_mapE hR (fun _ => along_readAccLimb hR ..) ..) fun _ => hR.pure _

theorem along_combineChecks (c : Nat) (i : Issued) (r : Nat) : Along R (combineChecks c i r) := by
  unfold combineChecks
  exact hR.bind (along_gateHeaders hR ..) fun (_, _) => hR.bind (along_readGpb hR ..) fun _ => hR.bind
    (along_needE hR ..) fun _ => hR.bind (along_needE hR ..) fun _ => hR.bind hR.get
    fun _ => hR.bind (along_mapE hR (fun _ => along_openPlace hR ..) ..) fun _ => hR.bind
    (along_openPlace hR ..) fun _ => hR.pure _

theorem along_kswChecks (c : Nat) (i : Issued) (r : Nat) : Along R (kswChecks c i r) := by
  unfold kswChecks
  exact hR.bind (along_gateHeaders hR ..) fun (_, _) => hR.bind (along_readGpb hR ..) fun _ => hR.bind
    (along_needE hR ..) fun _ => hR.bind hR.get fun _ => hR.bind (along_mapE hR (fun _ =>
    along_openPlace hR ..) ..) fun _ => hR.pure _

theorem along_kswMatrix (j : GateJob) (q : Nat) : Along R (kswMatrix j q) := by
  unfold kswMatrix
  exact along_mapE hR (fun _ => hR.bind (along_mapE hR (fun _ => hR.bind (along_mapE hR
    (fun _ => along_readRun hR ..) ..) fun _ => hR.bind (along_checkpoint hR ..) fun _ => hR.pure _) ..)
    fun _ => hR.pure _) ..

theorem along_packChecks (c : Nat) (i : Issued) (r : Nat) : Along R (packChecks c i r) := by
  unfold packChecks
  exact hR.bind (along_gateHeaders hR ..) fun (_, _) => hR.bind hR.get fun _ => hR.bind (along_needE
    hR ..) fun _ => hR.bind (along_readIndices hR ..) fun _ => hR.bind (along_needE hR ..) fun _ =>
    hR.bind (along_needE hR ..) fun _ => hR.bind (along_mapE hR (fun _ => along_openPlace
    hR ..) ..) fun _ => hR.bind (along_openPlace hR ..) fun _ => hR.pure _

end

end Sys2Proof.Machine

/-! ## Where elements that are written lead, and the parts of an MM (R143, R152 to R157, R162) -/

namespace Sys2Proof.Machine

open Sys2Proof.Safety

section
variable {only : Option Nat} {R : State → State → Prop} (hW : Writes only R)
include hW

theorem along_writePlain {e : Env} (he : Allows only e.ctx) (w : Nat) (ps : List Int) (v : Nat) (poison : Bool) :
    Along R (writePlain e w ps v poison) := by
  unfold writePlain
  exact hW.bind hW.get fun _ => along_storeOn hW he ..

theorem along_addElem {e : Env} (he : Allows only e.ctx) (t : Tens) (sat : Bool) (qs : List Int) (v : Nat) (poison : Bool) :
    Along R (addElem e t sat qs v poison) := by
  unfold addElem
  refine hW.bind hW.get fun _ => along_ite ?_ (along_sendWrite hW ..)
  exact hW.bind (along_readPlain hW.toReads ..) fun (_, _) => hW.bind (along_writePlain hW he ..) fun _ => along_atomicDone hW.toReads

theorem along_writeElem {e : Env} (he : Allows only e.ctx) (t : Tens) (sat : Bool) (ix : List Nat) (v : Nat) (poison : Bool) :
    Along R (writeElem e t sat ix v poison) := by
  unfold writeElem
  refine along_ite ?_ (along_ite (hW.pure _) ?_)
  · refine hW.bind (along_indexed hW.toReads ..) fun _ => ?_
    split
    · exact hW.pure _
    · exact along_ite (along_addElem hW he ..) (along_writePlain hW he ..)
  · refine hW.bind (along_indexed hW.toReads ..) fun _ => ?_
    split
    · exact hW.pure _
    · exact hW.bind (along_writePlain hW he ..) fun _ => along_act hW.toReads fun _ => hW.total ..

theorem along_tileDone (sat nan : Bool) : Along R (act fun s => tileDone sat nan s) := by
  have hcount (c : Bool) (i k : Nat) (s : State) : R s (if c = true then bumpE i k s else s) := by
    split
    · exact hW.counted ..
    · exact hW.refl _
  exact along_act hW.toReads fun s => hW.trans (hcount sat 0x3300 1 s) (hcount nan 0x3300 2 _)

theorem along_groupTile {e : Env} (he : Allows only e.ctx) (o : MmOps) (bk : Bank) : Along R (groupTile e o bk) := by
  unfold groupTile
  exact hW.bind (along_tileElems hW.toReads ..) fun (_, _) => hW.bind (along_eachCell hW.toReads (fun _ _ _ => along_store hW he ..) ..)
    fun _ => hW.bind (along_tileDone hW ..) fun _ => hW.pure _

theorem along_storeStat {e : Env} (he : Allows only e.ctx) (o : MmOps) (i t : Nat) (st : Nat × Nat) (poison : Bool) :
    Along R (storeStat e o i t st poison) := by
  unfold storeStat
  split
  · exact hW.bind (along_storedBits hW.toReads ..) fun _ => hW.bind (along_writeElem hW he ..) fun _ =>
      hW.bind (along_storedBits hW.toReads ..) fun _ => along_writeElem hW he ..
  · exact hW.pure _

theorem along_storeOut {e : Env} (he : Allows only e.ctx) (o : MmOps) (i j v : Nat) (poison : Bool) :
    Along R (storeOut e o i j v poison) := by
  unfold storeOut
  split
  · exact hW.bind (along_storedBits hW.toReads ..) fun _ => along_writeElem hW he ..
  · exact hW.pure _

theorem along_partTile {e : Env} (he : Allows only e.ctx) (o : MmOps) (bk : Bank) : Along R (partTile e o bk) := by
  unfold partTile
  exact hW.bind (along_tileElems hW.toReads ..) fun (_, _) => hW.bind (along_eachCell hW.toReads (fun _ _ _ => along_storeOut hW he ..) ..)
    fun _ => hW.bind (along_eachE hW.toReads (fun _ => along_storeStat hW he ..) ..) fun _ => hW.bind (along_tileDone hW ..) fun _ =>
    hW.pure _

theorem along_elemTile {e : Env} (he : Allows only e.ctx) (o : MmOps) (bk : Bank) : Along R (elemTile e o bk) := by
  unfold elemTile
  exact hW.bind (along_tileElems hW.toReads ..) fun (_, _) => hW.bind (along_eachCell hW.toReads (fun _ _ _ => along_storeOut hW he ..) ..)
    fun _ => hW.bind (along_tileDone hW ..) fun _ => hW.pure _

theorem along_finishGroup {e : Env} (he : Allows only e.ctx) (o : MmOps) : Along R (finishGroup e o) := by
  unfold finishGroup
  exact hW.bind (along_eachE hW.toReads (fun _ => along_storeStat hW he ..) ..) fun _ => hW.bind (along_eachE hW.toReads
    (fun _ => hW.bind (along_eachE hW.toReads (fun _ => along_eachE hW.toReads (fun _ => hW.bind (along_load hW.toReads ..)
    fun (_, _) => along_storeOut hW he ..) ..) ..) fun _ => along_checkpoint hW.toReads ..) ..) fun _ => hW.pure _

theorem along_tileEnd {e : Env} (he : Allows only e.ctx) (hfinish : ∀ c b s, R s (finishTile c b s)) (o : MmOps) (bk : Bank) :
    Along R (tileEnd e o bk) := by
  unfold tileEnd
  extract_lets +onlyGivenNames -underBinder -merge -useContext jp
  have hjp : ∀ x, Along R (jp x) := fun x => hW.bind (along_act hW.toReads fun _ => hW.total ..) fun _ => hW.pure _
  clear_value jp
  exact along_ite (hW.bind (along_act hW.toReads fun _ => hfinish ..) fun _ => hW.bind (hW.pure _) fun _ => hjp _)
    (along_ite (hW.bind (along_groupTile hW he ..) fun _ => hjp _) (along_ite (hW.bind (along_partTile hW he ..) fun _ => hjp _)
      (hW.bind (along_elemTile hW he ..) fun _ => hjp _)))

theorem along_tileBlock (happlied : ∀ c s, R s (parcelApplied c s)) (e : Env) (o : MmOps) (bk : Bank) : Along R (tileBlock e o bk) := by
  have hR := hW.toReads
  unfold tileBlock
  extract_lets +onlyGivenNames -underBinder -merge -useContext b jp
  have hjp : ∀ x, Along R (jp x) := by
    intro x
    unfold jp
    refine hW.bind (along_blockA hR ..) fun (o, as) => ?_
    dsimp -zeta only
    extract_lets +onlyGivenNames -underBinder -merge -useContext jq
    have hjq : ∀ x, Along R (jq x) := fun x =>
      along_ite (hW.bind (along_act hR fun _ => happlied ..) fun _ => hW.pure _) (hW.pure _)
    clear_value jq
    split
    · exact hW.bind (along_blockB hR ..) fun _ => hjq _
    · exact hW.bind (hW.pure _) fun _ => hjq _
  clear_value jp
  exact along_ite (hW.bind (along_blockRelay hR ..) fun _ => hjp _) (hW.bind (hW.pure _) fun _ => hjp _)

theorem along_mmPart {e : Env} (he : Allows only e.ctx) (hfinish : ∀ c b s, R s (finishTile c b s))
    (happlied : ∀ c s, R s (parcelApplied c s)) (o : MmOps) : Along R (mmPart e o) := by
  unfold mmPart
  split
  · exact along_ite (along_finishGroup hW he ..) (along_tileStart hW.toReads ..)
  · exact along_ite (along_tileBlock hW happlied ..) (along_tileEnd hW he hfinish ..)

end

end Sys2Proof.Machine

/-! ## What every step keeps: the queue, the fuses, the form of memory and the number of units -/

namespace Sys2Proof.Machine

open Sys2Proof.Safety

/-- The numbers of units that `Shape` speaks of. -/
def sizes (s : State) : List Nat :=
  [s.dies.length, s.hbm.length, s.eths.length, s.links.length, s.engines.length, s.chains.length, s.paths.length, s.fetches.length,
    s.normalQ.length, s.updRing.length]

/-- The parts of a state that a step keeps, and the two that only a change of power or firmware moves. -/
structure Frame where
  pending : List Instr
  fuses   : Fuses
  mem     : List Host.Cell
  sizes   : List Nat
  power   : BitVec 2
  runs    : Bool

/-- The frame of a state. -/
def frame (s : State) : Frame :=
  { pending := s.pending, fuses := s.fuses, mem := s.mem, sizes := sizes s, power := s.power.state, runs := s.island.runningB }

/-- What a step keeps. With b, it changes neither the power state nor the slot that runs. -/
structure Keeps (b : Bool) (s t : State) : Prop where
  pending : t.pending = s.pending
  fuses   : FusesHold s t
  memory  : memoryWf s → memoryWf t
  shape   : Shape s → Shape t
  power   : b = true → t.power.state = s.power.state
  runs    : b = true → t.island.runningB = s.island.runningB

theorem shape_of_sizes {s t : State} (h : sizes t = sizes s) (hs : Shape s) : Shape t := by
  simp only [sizes, List.cons.injEq, and_true] at h
  obtain ⟨dies, hbm, eths, links, engines, chains, paths, fetches, normalQ, updRing⟩ := h
  exact ⟨dies.trans hs.dies, hbm.trans hs.hbm, eths.trans hs.ports, links.trans hs.links, engines.trans hs.engines,
    chains.trans hs.chains, paths.trans hs.paths, fetches.trans hs.fetches, normalQ.trans hs.queues, updRing.trans hs.ring⟩

theorem fusesHold_of_eq {s t : State} (h : t.fuses = s.fuses) : FusesHold s t := by
  constructor <;> simp [h]

theorem fusesHold_trans {s t u : State} (h : FusesHold s t) (k : FusesHold t u) : FusesHold s u where
  uds := k.uds.trans h.uds
  serial := k.serial.trans h.serial
  stepping := k.stepping.trans h.stepping
  roots := k.roots.trans h.roots
  svn := by rw [← h.svn, BitVec.and_assoc, k.svn]
  revoke := by rw [← h.revoke, BitVec.and_assoc, k.revoke]

theorem keeps_of_frame {b : Bool} {s t : State} (h : frame t = frame s) : Keeps b s t where
  pending := congrArg Frame.pending h
  fuses := fusesHold_of_eq (congrArg Frame.fuses h)
  memory hs := by
    have hmem : t.mem = s.mem := congrArg Frame.mem h
    rwa [memoryWf, hmem]
  shape := shape_of_sizes (congrArg Frame.sizes h)
  power _ := congrArg Frame.power h
  runs _ := congrArg Frame.runs h

theorem Keeps.refl {b : Bool} (s : State) : Keeps b s s := keeps_of_frame rfl

theorem Keeps.trans {b : Bool} {s t u : State} (h : Keeps b s t) (k : Keeps b t u) : Keeps b s u where
  pending := k.pending.trans h.pending
  fuses := fusesHold_trans h.fuses k.fuses
  memory hs := k.memory (h.memory hs)
  shape hs := k.shape (h.shape hs)
  power hb := (k.power hb).trans (h.power hb)
  runs hb := (k.runs hb).trans (h.runs hb)

theorem Keeps.weaken {b : Bool} {s t : State} (h : Keeps b s t) : Keeps false s t :=
  ⟨h.pending, h.fuses, h.memory, h.shape, nofun, nofun⟩

section
variable {b : Bool} {s t u : State}

/-- A change outside the frame. -/
theorem Keeps.upd (h : Keeps b s t) (e : frame u = frame t) : Keeps b s u := h.trans (keeps_of_frame e)

/-- A change of power or of the firmware that runs. -/
theorem Keeps.updPower (h : Keeps false s t) (hp : u.pending = t.pending) (hf : u.fuses = t.fuses) (hm : u.mem = t.mem)
    (hs : sizes u = sizes t) : Keeps false s u :=
  h.trans ⟨hp, fusesHold_of_eq hf, fun hw => by rwa [memoryWf, hm], shape_of_sizes hs, nofun, nofun⟩

/-- A change of memory that keeps its form. -/
theorem Keeps.updMem (h : Keeps b s t) (e : frame { u with mem := t.mem } = frame t) (hw : memoryWf t → memoryWf u) : Keeps b s u where
  pending := (congrArg Frame.pending e).trans h.pending
  fuses := fusesHold_trans h.fuses (fusesHold_of_eq (congrArg Frame.fuses e :))
  memory hs := hw (h.memory hs)
  shape hs := shape_of_sizes (s := t) (congrArg Frame.sizes e) (h.shape hs)
  power hb := (congrArg Frame.power e).trans (h.power hb)
  runs hb := (congrArg Frame.runs e).trans (h.runs hb)

/-- Other bytes in memory, in canonical form. -/
theorem Keeps.setMem {m : List Host.Cell} (h : Keeps b s t) (hw : Memory.wf t.mem = true → Memory.wf m = true) :
    Keeps b s { t with mem := m } := h.updMem rfl hw

theorem Keeps.setMemPoison {m : List Host.Cell} {l : List Nat} (h : Keeps b s t)
    (hw : Memory.wf t.mem = true → Memory.wf m = true) : Keeps b s { t with mem := m, poison := l } := h.updMem rfl hw

theorem wf_foldl_memSet {α : Type} {a : α → Nat} {v : α → Byte} (l : List α) {m : List Host.Cell} (h : Memory.wf m = true) :
    Memory.wf (l.foldl (fun m x => memSet m (a x) (v x)) m) = true := by
  induction l generalizing m with
  | nil => exact h
  | cons x r ih => exact ih (wf_memSet h _ _)

theorem frame_sem (s : State) (x : Semaphore) : frame { s with sem := x } = frame s := rfl

/-- Fuses that are burnt further. -/
theorem Keeps.burn {f : Fuses} (h : Keeps b s t) (hu : FusesHold t { t with fuses := f }) : Keeps b s { t with fuses := f } :=
  h.trans ⟨rfl, hu, id, fun hs => shape_of_sizes (s := t) rfl hs, fun _ => rfl, fun _ => rfl⟩

theorem frame_hier (s : State) (x : Hier) : frame { s with hier := x } = frame s := rfl

/-- The queues of commands are emptied, not taken away. -/
theorem keeps_noQueues (s : State) : Keeps b s { s with normalQ := List.replicate 4 [] } where
  pending := rfl
  fuses := fusesHold_of_eq rfl
  memory := id
  shape := fun ⟨dies, hbm, ports, links, engines, chains, paths, fetches, _, ring⟩ =>
    ⟨dies, hbm, ports, links, engines, chains, paths, fetches, rfl, ring⟩
  power _ := rfl
  runs _ := rfl

theorem and_or_self {n : Nat} (x y : BitVec n) : x &&& (y ||| x) = x := by
  ext k hk
  simp only [BitVec.getElem_and, BitVec.getElem_or]
  cases x[k] <;> simp

theorem revoke_and_or (x : BitVec 4) (v : Nat) : x &&& BitVec.ofNat 4 (x.toNat ||| v) = x := by
  rw [Nat.or_comm, BitVec.ofNat_or, BitVec.ofNat_toNat, BitVec.setWidth_eq]
  exact and_or_self ..

theorem keeps_ite {c : Prop} [Decidable c] {x y : State} (hx : Keeps b s x) (hy : Keeps b s y) : Keeps b s (if c then x else y) := by
  split
  · exact hx
  · exact hy

theorem keeps_ite_snd {α : Type} {c : Prop} [Decidable c] {x y : α × State} (hx : Keeps b s x.2) (hy : Keeps b s y.2) :
    Keeps b s (if c then x else y).2 := by
  split
  · exact hx
  · exact hy

theorem keeps_foldl {α : Type} {g : State → α → State} {l : List α} (hg : ∀ v x, Keeps b v (g v x)) (h : Keeps b s t) :
    Keeps b s (l.foldl g t) := by
  induction l generalizing t with
  | nil => exact h
  | cons x r ih => exact ih (h.trans (hg t x))

theorem keeps_foldl_snd {α β : Type} {g : β × State → α → β × State} {l : List α} {a : β × State}
    (hg : ∀ v x, Keeps b v.2 (g v x).2) (h : Keeps b s a.2) : Keeps b s (l.foldl g a).2 := by
  induction l generalizing a with
  | nil => exact h
  | cons x r ih => exact ih (h.trans (hg a x))

theorem keeps_foldl_thd {α β γ : Type} {g : β × γ × State → α → β × γ × State} {l : List α} {a : β × γ × State}
    (hg : ∀ v x, Keeps b v.2.2 (g v x).2.2) (h : Keeps b s a.2.2) : Keeps b s (l.foldl g a).2.2 := by
  induction l generalizing a with
  | nil => exact h
  | cons x r ih => exact ih (h.trans (hg a x))

theorem keeps_ite_thd {α β : Type} {c : Prop} [Decidable c] {x y : α × β × State} (hx : Keeps b s x.2.2) (hy : Keeps b s y.2.2) :
    Keeps b s (if c then x else y).2.2 := by
  split
  · exact hx
  · exact hy

/-- Names a value whose definition is not to be looked at. -/
theorem named {α : Type} (x : α) : ∃ y, x = y := ⟨x, rfl⟩

/-- What one part of a result keeps, under the name the result's parts are given. -/
theorem keeps_of_eq {α : Type} {p : α × State} {a : α} (e : p = (a, u)) (h : Keeps b s p.2) : Keeps b s u := by
  rw [e] at h
  exact h

/-! ## The state's own operations -/

theorem keeps_setIsland {f : Island → Island} (h : Keeps b s t) (hf : ∀ i, (f i).runningB = i.runningB := by intro; rfl) :
    Keeps b s (setIsland f t) :=
  h.upd (by simp only [frame, setIsland, hf]; rfl)

theorem keeps_setIsland_off {f : Island → Island} (h : Keeps false s t) : Keeps false s (setIsland f t) := h.updPower rfl rfl rfl rfl

theorem keeps_setPower {f : Power → Power} (h : Keeps false s t) : Keeps false s (setPower f t) := h.updPower rfl rfl rfl rfl

end

end Sys2Proof.Machine

/-! ## What the functions of the model keep, callees before callers: part 1 of 7 -/

namespace Sys2Proof.Machine

open Sys2Proof.Safety

section
variable {κ : Bool} {σ τ : State}

theorem keeps_setContext {ctx : Nat} {f : Context → Context} (hk : Keeps κ σ τ) : Keeps κ σ (setContext ctx f τ) := by
  unfold setContext
  exact hk.upd rfl

theorem keeps_setMapping {c page : Nat} {f : Mapping → Mapping} (hk : Keeps κ σ τ) : Keeps κ σ (setMapping c page f τ) := by
  unfold setMapping
  exact keeps_setContext hk

theorem keeps_useAge {c a : Nat} (hk : Keeps κ σ τ) : Keeps κ σ (useAge c a τ) := by
  unfold useAge
  split
  · split
    · exact keeps_setMapping hk
    · exact hk
  · exact hk

theorem keeps_setCore {c : Nat} {f : Core → Core} (hk : Keeps κ σ τ) : Keeps κ σ (setCore c f τ) := by
  unfold setCore
  exact hk.upd rfl

theorem keeps_setAccount {c ctx m d : Nat} {f : Account → Account} (hk : Keeps κ σ τ) : Keeps κ σ (setAccount c ctx m d f τ) := by
  unfold setAccount
  exact keeps_setCore hk

theorem keeps_bump {k : Nat} (hk : Keeps κ σ τ) : Keeps κ σ (bump k τ) := by
  unfold bump
  exact keeps_ite (keeps_ite hk (hk.upd rfl)) (hk.upd rfl)

theorem keeps_bumpE {index sub : Nat} (hk : Keeps κ σ τ) : Keeps κ σ (bumpE index sub τ) := by
  unfold bumpE
  exact keeps_bump hk

theorem keeps_setDie {d : Nat} {f : Die → Die} (hk : Keeps κ σ τ) : Keeps κ σ (setDie d f τ) := by
  unfold setDie
  exact hk.upd (by simp [frame, sizes])

theorem keeps_stageRec {d : Nat} {r : Rec} (hk : Keeps κ σ τ) : Keeps κ σ (stageRec d r τ) := by
  unfold stageRec
  exact keeps_ite (keeps_setDie hk) (keeps_bumpE (keeps_setDie hk))

theorem keeps_fabricCheck {e : Env} {a n : Nat} (hk : Keeps κ σ τ) : Keeps κ σ (fabricCheck e a n τ).2 := by
  unfold fabricCheck
  refine keeps_foldl_snd (fun _ _ => ?_) hk
  split
  · exact Keeps.refl _
  · exact keeps_bumpE ((Keeps.refl _).upd rfl)
  · exact keeps_stageRec (keeps_bumpE (keeps_bumpE ((Keeps.refl _).upd rfl)))

theorem keeps_spCheck {w : Nat} (hk : Keeps κ σ τ) : Keeps κ σ (spCheck w τ) := by
  unfold spCheck
  split
  · exact hk
  · exact keeps_bumpE (hk.upd rfl)
  · exact keeps_stageRec (keeps_bumpE (hk.upd rfl))

theorem keeps_spWrite {a n w : Nat} (hk : Keeps κ σ τ) : Keeps κ σ (spWrite a n w τ) := by
  unfold spWrite
  exact keeps_ite (hk.upd rfl) (keeps_spCheck hk)

theorem keeps_addTotal {index sub n : Nat} (hk : Keeps κ σ τ) : Keeps κ σ (addTotal index sub n τ) := by
  unfold addTotal
  exact hk.upd rfl

theorem keeps_bwCount {c : Machine.Class} {n : Nat} (hk : Keeps κ σ τ) : Keeps κ σ (bwCount c n τ) := by
  unfold bwCount
  split
  · exact keeps_addTotal hk
  · exact keeps_addTotal hk
  · exact keeps_addTotal hk

theorem keeps_setStack {k : Nat} {f : Stack → Stack} (hk : Keeps κ σ τ) : Keeps κ σ (setStack k f τ) := by
  unfold setStack
  exact hk.upd (by simp [frame, sizes])

theorem keeps_retireFrame {k f : Nat} (hk : Keeps κ σ τ) : Keeps κ σ (retireFrame k f τ) := by
  unfold retireFrame
  exact keeps_ite hk (keeps_ite (keeps_stageRec (keeps_bumpE ((keeps_setStack hk).upd rfl))) (keeps_stageRec hk))

theorem keeps_noteCorrection {k b : Nat} (hk : Keeps κ σ τ) : Keeps κ σ (noteCorrection k b τ) := by
  unfold noteCorrection
  exact keeps_ite hk (keeps_ite (keeps_retireFrame (keeps_setStack hk)) (keeps_setStack hk))

theorem keeps_hbmCheck {b : Nat} (hk : Keeps κ σ τ) : Keeps κ σ (hbmCheck b τ) := by
  unfold hbmCheck
  split
  · exact hk
  · exact keeps_noteCorrection (keeps_bumpE (hk.upd rfl))
  · exact keeps_ite (keeps_stageRec (keeps_bumpE (hk.upd rfl))) (keeps_retireFrame (keeps_stageRec (keeps_bumpE (hk.upd rfl))))

theorem keeps_fetchBursts {cls : Machine.Class} {bs : List Nat} (hk : Keeps κ σ τ) : Keeps κ σ (fetchBursts cls bs τ) := by
  unfold fetchBursts
  exact keeps_foldl (fun _ _ => keeps_bwCount (keeps_hbmCheck (Keeps.refl _))) hk

theorem keeps_cacheCheck {cls : Machine.Class} {w : Nat} (hk : Keeps κ σ τ) : Keeps κ σ (cacheCheck cls w τ) := by
  unfold cacheCheck
  split
  · exact hk
  · exact keeps_bumpE (hk.upd rfl)
  · split
    · exact keeps_bumpE (keeps_fetchBursts (hk.upd rfl))
    · exact keeps_stageRec (keeps_bumpE (hk.upd rfl))

theorem keeps_evictLine {d : Nat} {l : CacheLine} (hk : Keeps κ σ τ) : Keeps κ σ (evictLine d l τ) := by
  unfold evictLine
  exact keeps_bwCount ((keeps_setDie (keeps_foldl (fun _ _ => keeps_cacheCheck (Keeps.refl _)) hk)).upd rfl)

theorem keeps_cacheTouch {line : Nat} (hk : Keeps κ σ τ) : Keeps κ σ (cacheTouch line τ) := by
  unfold cacheTouch
  dsimp only
  split
  · exact keeps_setDie hk
  · refine keeps_setDie ?_
    split
    · split
      · exact keeps_evictLine hk
      · exact hk
    · exact hk

theorem keeps_setCached {a : Nat} {f : CacheLine → CacheLine} (hk : Keeps κ σ τ) : Keeps κ σ (setCached a f τ) := by
  unfold setCached
  exact keeps_setDie hk

theorem keeps_sectorWrite {cls : Machine.Class} {a n b : Nat} (hk : Keeps κ σ τ) : Keeps κ σ (sectorWrite cls a n b τ) := by
  unfold sectorWrite
  exact keeps_setCached (keeps_foldl (fun _ _ => keeps_ite ((Keeps.refl _).upd rfl) (keeps_cacheCheck (Keeps.refl _))) (keeps_ite hk
    (keeps_fetchBursts hk)))

theorem keeps_burstWrite {cls : Machine.Class} {a n b : Nat} (hk : Keeps κ σ τ) : Keeps κ σ (burstWrite cls a n b τ) := by
  unfold burstWrite
  exact keeps_bwCount (keeps_ite (hk.upd rfl) (keeps_hbmCheck hk))

theorem keeps_noteWrite {cls : Machine.Class} {alloc : Bool} {a n : Nat} (hk : Keeps κ σ τ) : Keeps κ σ (noteWrite cls alloc a n τ) :=
    by
  unfold noteWrite
  exact keeps_ite (keeps_foldl (fun _ _ => keeps_ite (keeps_sectorWrite (Keeps.refl _)) (keeps_burstWrite (Keeps.refl _))) (keeps_ite
    (keeps_foldl (fun _ _ => keeps_cacheTouch (Keeps.refl _)) hk) hk)) (keeps_foldl (fun _ _ => keeps_spWrite (Keeps.refl _)) hk)

theorem keeps_setMark {a n : Nat} {p : Bool} {g : Nat} (hk : Keeps κ σ τ) : Keeps κ σ (setMark a n p g τ) := by
  unfold setMark
  exact keeps_ite (hk.upd rfl) (keeps_ite (hk.upd rfl) hk)

theorem keeps_devWrite {cls : Machine.Class} {alloc : Bool} {a : Nat} {bs : List Byte} {p : Bool} (hk : Keeps κ σ τ) :
    Keeps κ σ (devWrite cls alloc a bs p τ) := by
  have noted : Keeps κ σ ((unitsOf (granSize a) a bs.length).foldl (fun s g => setMark a bs.length p g s)
      (noteWrite cls alloc a bs.length τ)) :=
    keeps_foldl (fun _ _ => keeps_setMark (Keeps.refl _)) (keeps_noteWrite hk)
  unfold devWrite
  exact keeps_ite (noted.setMem (wf_memWrite bs a)) ((noted.setMem (wf_memWrite bs a)).upd rfl)

theorem keeps_setEth {p : Nat} {f : EthPort → EthPort} (hk : Keeps κ σ τ) : Keeps κ σ (setEth p f τ) := by
  unfold setEth
  exact hk.upd (by simp [frame, sizes])

theorem keeps_txCount {port : Nat} (hk : Keeps κ σ τ) : Keeps κ σ (txCount port τ) := by
  unfold txCount
  split
  · exact keeps_ite (keeps_ite (keeps_bumpE (keeps_setEth hk)) (keeps_setEth hk)) hk
  · exact hk

theorem keeps_emit {o : Output} (hk : Keeps κ σ τ) : Keeps κ σ (emit o τ) := by
  unfold emit
  split
  · exact keeps_ite hk (keeps_txCount (hk.upd rfl))
  · exact hk.upd rfl

theorem keeps_wire {p seq : Nat} {k : Packet} (hk : Keeps κ σ τ) : Keeps κ σ (wire p seq k τ) := by
  unfold wire
  exact keeps_emit hk

theorem keeps_setLink {p : Nat} {f : LinkPort → LinkPort} (hk : Keeps κ σ τ) : Keeps κ σ (setLink p f τ) := by
  unfold setLink
  exact hk.upd (by simp [frame, sizes])

theorem keeps_sendOn {p : Nat} {k : Packet} (hk : Keeps κ σ τ) : Keeps κ σ (sendOn p k τ) := by
  unfold sendOn
  exact keeps_setLink (keeps_wire hk)

theorem keeps_sendPacket {k : Packet} (hk : Keeps κ σ τ) : Keeps κ σ (sendPacket k τ) := by
  unfold sendPacket
  split
  · exact keeps_sendOn hk
  · exact hk.upd rfl

theorem keeps_burstRead {cls : Machine.Class} {b : Nat} (hk : Keeps κ σ τ) : Keeps κ σ (burstRead cls b τ) := by
  unfold burstRead
  exact keeps_ite (keeps_foldl (fun _ _ => keeps_cacheCheck (Keeps.refl _)) hk) (keeps_fetchBursts hk)

theorem keeps_fillLine {cls : Machine.Class} {line : Nat} (hk : Keeps κ σ τ) : Keeps κ σ (fillLine cls line τ) := by
  unfold fillLine
  split
  · exact keeps_setCached (keeps_fetchBursts hk)
  · exact hk

theorem keeps_noteRead {cls : Machine.Class} {alloc : Bool} {a n : Nat} (hk : Keeps κ σ τ) : Keeps κ σ (noteRead cls alloc a n τ) := by
  unfold noteRead
  exact keeps_ite (keeps_foldl (fun _ _ => keeps_burstRead (Keeps.refl _)) (keeps_ite (keeps_foldl (fun _ _ => keeps_fillLine
    (keeps_cacheTouch (Keeps.refl _))) hk) hk)) (keeps_foldl (fun _ _ => keeps_ite (keeps_bumpE (Keeps.refl _)) (Keeps.refl _))
    (keeps_foldl (fun _ _ => keeps_spCheck (Keeps.refl _)) hk))

theorem keeps_draw (hk : Keeps κ σ τ) : Keeps κ σ (draw τ).2 := by
  unfold draw
  exact hk.upd rfl

theorem keeps_markWords {a : Nat} {marks : List Nat} (hk : Keeps κ σ τ) : Keeps κ σ (markWords a marks τ) := by
  unfold markWords
  exact hk.upd rfl

end

theorem keeps_reads {κ : Bool} : Reads (Keeps κ) where
  refl := Keeps.refl
  trans := Keeps.trans
  book h := keeps_of_frame (congrArg frame h.same :)
  age _ _ s := keeps_useAge (Keeps.refl s)
  read _ _ _ _ s := keeps_noteRead (Keeps.refl s)
  fabric _ _ _ s := keeps_fabricCheck (Keeps.refl s)
  answered _ s := (Keeps.refl s).upd rfl
  total _ _ _ s := keeps_addTotal (Keeps.refl s)
  fresh s := keeps_draw (Keeps.refl s)
  counted _ _ s := keeps_bumpE (Keeps.refl s)

theorem keeps_writes {κ : Bool} : Writes none (Keeps κ) where
  toReads := keeps_reads
  keepsXlat h := nomatch h
  store _ _ _ _ s _ := keeps_devWrite (Keeps.refl s)
  stamp _ _ _ _ _ s := keeps_setAccount (Keeps.refl s)
  returned _ s := (Keeps.refl s).upd rfl
  asleep _ _ s := keeps_stageRec (keeps_bumpE (Keeps.refl s))
  send _ s := keeps_sendPacket (Keeps.refl s)
  marks _ _ s := keeps_markWords (Keeps.refl s)

section
variable {κ : Bool} {σ τ u : State} {α : Type} {x : Eng α} {j : List Ev} {one : Bool}

theorem keeps_ran {v : α} (h : runFrom j one x τ = .ok v u) (hx : Along (Keeps κ) x) (hk : Keeps κ σ τ) : Keeps κ σ u := by
  have ran := hx.leads { τ with replay := j.reverse, journal := j, stretch := one }
  unfold runFrom at h
  split at h
  next hv =>
    cases h
    rw [AlongAt, hv] at ran
    exact ((hk.upd (u := { τ with replay := j.reverse, journal := j, stretch := one }) rfl).trans ran).upd rfl
  next => cases h

theorem keeps_stopped {e : Stop × List Ev} (h : runFrom j one x τ = .error e u) (hx : Along (Keeps κ) x) (hk : Keeps κ σ τ) :
    Keeps κ σ u := by
  have ran := hx.leads { τ with replay := j.reverse, journal := j, stretch := one }
  unfold runFrom at h
  split at h
  next => cases h
  next hv =>
    cases h
    rw [AlongAt, hv] at ran
    exact ((hk.upd (u := { τ with replay := j.reverse, journal := j, stretch := one }) rfl).trans ran).upd rfl

theorem along_inRow {n : Nat} (hx : Along (Keeps κ) x) : Along (Keeps κ) (inRow n x) := by
  refine ⟨fun s => ?_⟩
  have ran := hx.leads s
  unfold AlongAt inRow at *
  split
  next h =>
    rw [h] at ran
    exact ran
  · exact ran

end

end Sys2Proof.Machine

/-! ## What the functions of the model keep, callees before callers: part 2 of 7 -/

namespace Sys2Proof.Machine

open Sys2Proof.Safety

section
variable {κ : Bool} {σ τ : State}

theorem keeps_popHead {c : Nat} {q : QueueId} (hk : Keeps κ σ τ) : Keeps κ σ (popHead c q τ) := by
  unfold popHead
  exact keeps_setCore hk

theorem keeps_endInstr {c : Nat} {q : QueueId} {e : Ended} (hk : Keeps κ σ τ) : Keeps κ σ (endInstr c q e τ) := by
  unfold endInstr
  exact keeps_setCore (keeps_popHead (hk.upd rfl))

theorem keeps_endOk {c : Nat} {q : QueueId} {i : Issued} {posts : List SealMsg} (hk : Keeps κ σ τ) : Keeps κ σ (endOk c q i posts τ) :=
    by
  unfold endOk
  exact keeps_endInstr (hk.upd rfl)

theorem keeps_settled (hk : Keeps κ σ τ) : Keeps κ σ (settled τ) := by
  unfold settled
  exact hk.upd rfl

theorem keeps_noteMiss {ctx page : Nat} {pre : Bool} (hk : Keeps κ σ τ) : Keeps κ σ (noteMiss ctx page pre τ) := by
  unfold noteMiss
  exact keeps_ite hk (hk.upd rfl)

theorem keeps_setHead {c : Nat} {q : QueueId} {f : Issued → Issued} (hk : Keeps κ σ τ) : Keeps κ σ (setHead c q f τ) := by
  unfold setHead
  exact keeps_setCore hk

theorem keeps_askRemote {c ctx serial m a n : Nat} (hk : Keeps κ σ τ) : Keeps κ σ (askRemote c ctx serial m a n τ) := by
  unfold askRemote
  exact keeps_sendPacket (hk.upd rfl)

theorem keeps_holdHead {c : Nat} {q : QueueId} {i : Issued} {r : Nat} {j : List Ev} {stop : Stop} (hk : Keeps κ σ τ) : Keeps κ σ
    (holdHead c q i r j stop τ) := by
  unfold holdHead
  split
  · exact keeps_noteMiss (keeps_setHead (keeps_setHead (hk.upd rfl)))
  · exact keeps_askRemote (keeps_setHead (hk.upd rfl))
  · exact keeps_setHead (hk.upd rfl)

theorem keeps_tearLine {l : Nat} (hk : Keeps κ σ τ) : Keeps κ σ (tearLine l τ) := by
  unfold tearLine
  exact hk.upd rfl

theorem keeps_tearAll {c ctx serial : Nat} (hk : Keeps κ σ τ) : Keeps κ σ (tearAll c ctx serial τ) := by
  unfold tearAll
  exact keeps_foldl (fun _ _ => keeps_sendPacket (Keeps.refl _)) ((keeps_foldl (fun _ _ => keeps_tearLine (Keeps.refl _)) hk).upd rfl)

theorem keeps_endFault {c : Nat} {q : QueueId} {i : Issued} {r : Nat} {f : FaultInfo} (hk : Keeps κ σ τ) : Keeps κ σ (endFault c q i r
    f τ) := by
  unfold endFault
  exact keeps_stageRec (keeps_endInstr (keeps_tearAll hk))

theorem keeps_sendSeals {l : List SealMsg} (hk : Keeps κ σ τ) : Keeps κ σ (sendSeals l τ) := by
  unfold sendSeals
  exact hk.upd rfl

theorem keeps_flushOwed (hk : Keeps κ σ τ) : Keeps κ σ (flushOwed τ) := by
  unfold flushOwed
  exact keeps_sendSeals (hk.upd rfl)

theorem keeps_repeatSignal {c : Nat} {i : Issued} (hk : Keeps κ σ τ) : Keeps κ σ (repeatSignal c i τ) := by
  unfold repeatSignal
  split
  · exact keeps_ite (keeps_flushOwed (hk.upd rfl)) hk
  · exact hk

theorem keeps_runRepeats {run : Nat → Eng (List SealMsg)} {c : Nat} {q : QueueId} {i : Issued} {n r : Nat} {j : List Ev}
    {posts : List SealMsg} (hrun : ∀ a0, Along (Keeps κ) (run a0)) (hk : Keeps κ σ τ) :
    Keeps κ σ (runRepeats c q i run n r j posts τ) := by
  induction n generalizing r j posts τ with
  | zero => exact keeps_endOk hk
  | succ n ih =>
    rw [runRepeats]
    split
    next s' h =>
      have ended := keeps_repeatSignal (c := c) (i := i)
        ((keeps_ran h (hrun r) hk).upd (u := { s' with wrote := [], wroteFar := [] }) rfl)
      exact keeps_ite (keeps_holdHead (keeps_setHead ended)) (ih ended)
    next h => exact keeps_endFault (keeps_stopped h (hrun r) hk)
    next h => exact keeps_holdHead (keeps_setHead (keeps_stopped h (hrun r) hk))

theorem keeps_runEngine {run : Issued → Nat → Eng (List SealMsg)} {c : Nat} {q : QueueId} {op : Nat} (hrun : ∀ a0 a1, Along (Keeps κ)
    (run a0 a1)) (hk : Keeps κ σ τ) : Keeps κ σ (runEngine c q op run τ) := by
  unfold runEngine
  split
  · exact hk
  · exact keeps_runRepeats (fun _ => hrun _ _) hk

theorem keeps_polyRow {run : Nat → Issued → Nat → Eng (List SealMsg)} {c op : Nat} (hrun : ∀ a0 a1 a2, Along (Keeps κ) (run a0 a1 a2))
    (hk : Keeps κ σ τ) : Keeps κ σ (polyRow c op run τ) := by
  unfold polyRow
  exact keeps_runEngine (fun _ _ => hrun _ _ _) hk

theorem keeps_setVReg {c ctx r : Nat} {vs : List (Nat × Bool)} (hk : Keeps κ σ τ) : Keeps κ σ (setVReg c ctx r vs τ) := by
  unfold setVReg
  exact keeps_setCore hk

theorem along_vldrOne (c : Nat) (i : Issued) (r : Nat) : Along (Keeps κ) (vldrOne c i r) := by
  unfold vldrOne
  refine keeps_reads.bind (along_rowMoveIssue keeps_reads ..) fun _ => keeps_reads.bind (along_mapE keeps_reads (fun _ => ?_) ..) fun _ => ?_
  · exact keeps_reads.bind (along_load keeps_reads ..) fun (_, _) => keeps_reads.pure _
  · exact keeps_reads.bind (along_act keeps_reads (fun _ => keeps_setVReg (Keeps.refl _)) ..) fun _ => keeps_reads.pure _

theorem keeps_bumpN {index sub n : Nat} (hk : Keeps κ σ τ) : Keeps κ σ (bumpN index sub n τ) := by
  induction n generalizing τ with
  | zero => exact hk
  | succ n ih =>
    rw [bumpN_succ]
    exact ih (keeps_bumpE hk)

theorem keeps_popFault {c : Nat} {i : Issued} {last : Bool} {f : FaultInfo} (hk : Keeps κ σ τ) : Keeps κ σ (popFault c i last f τ) := by
  unfold popFault
  exact keeps_endFault (keeps_ite hk (keeps_setCore hk))

theorem keeps_vecStart {c : Nat} {i : Issued} (hk : Keeps κ σ τ) : Keeps κ σ (vecStart c i τ) := by
  unfold vecStart
  refine keeps_ite hk ?_
  split
  next h => exact keeps_setHead (keeps_ran h (along_vecIssue keeps_reads ..) hk)
  next h => exact keeps_popFault (keeps_stopped h (along_vecIssue keeps_reads ..) hk)
  next h => exact keeps_holdHead (keeps_stopped h (along_vecIssue keeps_reads ..) hk)

theorem along_vstrOne (c : Nat) (i : Issued) (r : Nat) : Along (Keeps κ) (vstrOne c i r) := by
  unfold vstrOne
  exact keeps_reads.bind (along_rowMoveIssue keeps_reads ..) fun _ => keeps_reads.bind (along_eachE keeps_reads (fun _ => keeps_reads.bind
    keeps_reads.get fun _ => along_store keeps_writes (allows_any _) ..) ..) fun _ => keeps_reads.pure _



theorem along_rowfinStat (e : Env) (w : Nat) (o : VecOps) (tb : Tens) (eps i : Nat) : Along (Keeps κ) (rowfinStat e w o tb eps i) := by
  unfold rowfinStat
  refine keeps_reads.bind (along_mapE keeps_reads (fun _ => keeps_reads.bind (along_readElem keeps_reads ..) fun _ => keeps_reads.bind
    (along_readElem keeps_reads ..) fun _ => keeps_reads.pure _) ..) fun _ => ?_
  extract_lets +onlyGivenNames -underBinder -merge -useContext _ _ jp0
  have hjp1 : ∀ x, Along (Keeps κ) (jp0 x) := by
    intro x
    exact keeps_reads.bind (along_checkpoint keeps_reads ..) fun _ => keeps_reads.pure _
  clear_value jp0
  split
  · exact keeps_reads.bind (along_storedBits keeps_reads ..) fun _ => keeps_reads.bind (along_writeElem keeps_writes (allows_any _) ..) fun _ => keeps_reads.bind
      (along_storedBits keeps_reads ..) fun _ => keeps_reads.bind (along_writeElem keeps_writes (allows_any _) ..) fun _ => hjp1 _
  · exact hjp1 _

theorem along_putRow (e : Env) (w : Nat) (o : VecOps) (ixs : List (List Nat)) (vs : List (Flagged × Bool)) : Along (Keeps κ) (putRow e
    w o ixs vs) := by
  unfold putRow
  split
  · exact keeps_reads.pure _
  · exact along_eachE keeps_reads (fun _ => keeps_reads.bind (along_storedBits keeps_reads ..) fun _ => along_writeElem keeps_writes (allows_any _) ..) ..

theorem keeps_rowEvents {vs : List Flagged} (hk : Keeps κ σ τ) : Keeps κ σ (rowEvents vs τ) := by
  unfold rowEvents
  exact keeps_ite (keeps_bumpE (keeps_ite (keeps_bumpE hk) hk)) (keeps_ite (keeps_bumpE hk) hk)

theorem along_storeRow (e : Env) (w : Nat) (o : VecOps) (ixs : List (List Nat)) (vs : List (Flagged × Bool)) : Along (Keeps κ)
    (storeRow e w o ixs vs) := by
  unfold storeRow
  exact keeps_reads.bind (along_act keeps_reads (fun _ => keeps_rowEvents (Keeps.refl _)) ..) fun _ => keeps_reads.bind (along_putRow
    ..) fun _ => along_checkpoint keeps_reads ..



theorem along_runRowfin (e : Env) (w : Nat) (o : VecOps) : Along (Keeps κ) (runRowfin e w o) := by
  unfold runRowfin
  split
  · refine keeps_reads.bind (along_mapE keeps_reads (fun _ => along_inRow (along_rowfinStat ..) ..) ..) fun _ => ?_
    refine keeps_reads.bind ?_ fun _ => ?_
    · refine along_mapE keeps_reads (fun _ => ?_) ..
      refine along_inRow ?_ ..
      refine keeps_reads.bind ?_ fun _ => ?_
      · refine along_mapE keeps_reads (fun _ => ?_) ..
        refine keeps_reads.bind (along_vecA keeps_reads ..) fun _ => ?_
        extract_lets +onlyGivenNames -underBinder -merge -useContext jp0
        have hjp1 : ∀ x, Along (Keeps κ) (jp0 x) := by
          intro x
          unfold jp0
          extract_lets +onlyGivenNames -underBinder -merge -useContext jp2
          have hjp3 : ∀ x, Along (Keeps κ) (jp2 x) := by
            intro x
            exact keeps_reads.pure _
          clear_value jp2
          exact along_ite (keeps_reads.bind (along_fuseWord keeps_reads ..) fun _ => hjp3 _) (keeps_reads.bind (keeps_reads.pure _) fun _ => hjp3 _)
        clear_value jp0
        exact along_ite (keeps_reads.bind (keeps_reads.pure _) fun _ => hjp1 _) (keeps_reads.bind (along_fuseWord keeps_reads ..) fun _ => hjp1 _)
      · exact keeps_reads.bind (along_storeRow ..) fun _ => keeps_reads.pure _
    · exact keeps_reads.pure _
  · exact keeps_reads.pure _

theorem along_runElems (e : Env) (w : Nat) (o : VecOps) : Along (Keeps κ) (runElems e w o) := by
  unfold runElems
  exact keeps_reads.bind (along_mapE keeps_reads (fun _ => along_inRow (keeps_reads.bind (along_mapE keeps_reads (fun _ =>
    keeps_reads.bind (along_vecA keeps_reads ..) fun _ => keeps_reads.bind (along_vecElem keeps_reads ..) fun _ => keeps_reads.pure _) ..) fun _ =>
    keeps_reads.bind (along_storeRow ..) fun _ => keeps_reads.pure _) ..) ..) fun _ => keeps_reads.pure _

theorem along_storeLines (e : Env) (w : Nat) (o : VecOps) (row : Nat) (ls : List (List Nat × List Nat × Bool)) : Along (Keeps κ)
    (storeLines e w o row ls) := by
  unfold storeLines
  exact keeps_reads.bind (along_eachE keeps_reads (fun _ => along_act keeps_reads (fun _ => keeps_rowEvents (Keeps.refl _)) ..) ..)
    fun _ => keeps_reads.bind (along_eachE keeps_reads (fun _ => along_inRow (keeps_reads.bind (along_putRow ..) fun _ =>
    along_checkpoint keeps_reads ..) ..) ..) fun _ => keeps_reads.pure _

theorem along_runReduce (e : Env) (w : Nat) (o : VecOps) : Along (Keeps κ) (runReduce e w o) := by
  unfold runReduce
  exact keeps_reads.bind (along_mapE keeps_reads (fun _ => along_inRow (keeps_reads.bind (along_mapE keeps_reads (fun _ => along_vecA keeps_reads
    ..) ..) fun _ => keeps_reads.bind (along_checkpoint keeps_reads ..) fun _ => keeps_reads.pure _) ..) ..) fun _ => along_storeLines
    ..

theorem along_vecOne (c : Nat) (i : Issued) (r : Nat) : Along (Keeps κ) (vecOne c i r) := by
  unfold vecOne
  refine keeps_reads.bind (along_vecIssue keeps_reads ..) fun _ => ?_
  extract_lets +onlyGivenNames -underBinder -merge -useContext jp0
  have hjp1 : ∀ x, Along (Keeps κ) (jp0 x) := by
    intro x
    unfold jp0
    extract_lets +onlyGivenNames -underBinder -merge -useContext jp2
    have hjp3 : ∀ x, Along (Keeps κ) (jp2 x) := by
      intro x
      exact keeps_reads.pure _
    clear_value jp2
    exact along_ite (keeps_reads.bind (along_act keeps_reads (fun _ => keeps_setVReg (Keeps.refl _)) ..) fun _ => hjp3 _) (hjp3 _)
  clear_value jp0
  exact along_ite (keeps_reads.bind (along_runRowfin ..) fun _ => hjp1 _) (along_ite (keeps_reads.bind (along_runReduce ..) fun _ =>
    hjp1 _) (keeps_reads.bind (along_runElems ..) fun _ => hjp1 _))

theorem keeps_vecRow {c op : Nat} (hk : Keeps κ σ τ) : Keeps κ σ (vecRow c op τ) := by
  unfold vecRow
  split
  · exact hk
  · exact keeps_ite hk (keeps_ite (keeps_vecStart hk) (keeps_runEngine (fun _ _ => along_ite (along_vldrOne ..) (along_ite
      (along_vstrOne ..) (along_vecOne ..))) hk))

theorem keeps_answer {w : Who} {r : Nat × List Byte × State} (hk : Keeps κ σ r.2.2) : Keeps κ σ (answer w r) := by
  unfold answer
  exact keeps_emit hk

theorem keeps_setPath {p : Path} {f : PathState → PathState} (hk : Keeps κ σ τ) : Keeps κ σ (setPath p f τ) := by
  unfold setPath
  exact hk.upd (by simp [frame, sizes])

theorem keeps_lockPath {p : Path} (hk : Keeps κ σ τ) : Keeps κ σ (lockPath p τ) := by
  unfold lockPath
  exact keeps_ite ((keeps_setPath hk).upd rfl) hk

theorem keeps_ackW {index sub v : Nat} (hk : Keeps κ σ τ) : Keeps κ σ (ackW index sub v τ).2 := by
  unfold ackW
  exact keeps_ite_snd (hk.upd rfl) hk

theorem keeps_kexBufW {p : Path} {k : Nat} {bs : List Byte} (hk : Keeps κ σ τ) : Keeps κ σ (kexBufW p k bs τ).2 := by
  unfold kexBufW
  exact keeps_ite_snd hk (keeps_setPath hk)

theorem keeps_unitUse {c a n : Nat} (hk : Keeps κ σ τ) : Keeps κ σ (unitUse c a n τ) := by
  unfold unitUse
  exact keeps_foldl (fun _ _ => keeps_useAge (Keeps.refl _)) hk

theorem keeps_unitWrite {cls : Machine.Class} {alloc p : Bool} {l : List (Nat × Nat)} {bs : List Byte} (hk : Keeps κ σ τ) :
    Keeps κ σ (unitWrite cls alloc p l bs τ) := by
  induction l generalizing bs τ with
  | nil => exact hk
  | cons x r ih => exact ih (keeps_devWrite hk)

theorem keeps_setJob {d : Nat} {f : UpdJob → UpdJob} (hk : Keeps κ σ τ) : Keeps κ σ (setJob d f τ) := by
  unfold setJob
  exact hk.upd (by simp [frame, sizes])

theorem keeps_abortJob {d : Nat} {killed : Bool} (hk : Keeps κ σ τ) : Keeps κ σ (abortJob d killed τ) := by
  unfold abortJob
  split
  · exact hk
  · exact keeps_ite (keeps_ite (keeps_foldl (fun _ _ => keeps_emit (Keeps.refl _)) (keeps_setJob hk)) (keeps_setJob hk)) hk

theorem keeps_abortOwned {ctx : Nat} (hk : Keeps κ σ τ) : Keeps κ σ (abortOwned ctx τ) := by
  unfold abortOwned
  exact keeps_foldl (fun _ _ => keeps_ite (keeps_abortJob (Keeps.refl _)) (Keeps.refl _)) hk

theorem keeps_setChain {k : Nat} {f : ChainSlot → ChainSlot} (hk : Keeps κ σ τ) : Keeps κ σ (setChain k f τ) := by
  unfold setChain
  exact hk.upd (by simp [frame, sizes])

theorem keeps_dropStalls {ctx : Nat} (hk : Keeps κ σ τ) : Keeps κ σ (dropStalls ctx τ) := by
  unfold dropStalls
  exact hk.upd rfl

theorem keeps_abortBnJobs {ctx : Nat} (hk : Keeps κ σ τ) : Keeps κ σ (abortBnJobs ctx τ) := by
  unfold abortBnJobs
  exact keeps_setIsland hk

theorem keeps_entryWritten {c : Nat} (hk : Keeps κ σ τ) : Keeps κ σ (entryWritten c τ) := by
  unfold entryWritten
  exact keeps_setContext (hk.upd rfl)

theorem keeps_setCtxF {c hi lo v : Nat} (hk : Keeps κ σ τ) : Keeps κ σ (setCtxF c hi lo v τ) := by
  unfold setCtxF
  exact keeps_entryWritten (keeps_setContext hk)

theorem keeps_killContext {ctx reason : Nat} (hk : Keeps κ σ τ) : Keeps κ σ (killContext ctx reason τ) := by
  unfold killContext
  refine keeps_ite hk (keeps_setCtxF (keeps_setCtxF (keeps_abortBnJobs (keeps_abortOwned ?_))))
  have chained := keeps_dropStalls (ctx := ctx) (keeps_ite (c := ctxChained τ ctx = true) (keeps_setChain (k := ctxChain τ ctx)
    (f := fun k => { k with inflight := k.inflight - ((τ.cores.map fun e => inCore ctx e.2).sum +
      ((τ.streams.filter fun e => e.1 / 128 == ctx).map fun e => e.2.saved.length).sum) }) hk) hk)
  exact chained.upd (by simp [frame, sizes])

theorem keeps_readEntry {ctx : Nat} (hk : Keeps κ σ τ) : Keeps κ σ (readEntry ctx τ) := by
  unfold readEntry
  exact keeps_ite hk (keeps_ite (keeps_stageRec (keeps_killContext (keeps_noteRead hk))) (keeps_noteRead hk))

theorem keeps_dbgWriteW {data : List Byte} (hk : Keeps κ σ τ) : Keeps κ σ (dbgWriteW data τ).2 := by
  unfold dbgWriteW
  have read := keeps_ite (c := dbgIsDevice τ = true) hk (keeps_readEntry (ctx := dbgCtx τ) hk)
  dsimp only
  generalize (if dbgIsDevice τ = true then τ else readEntry (dbgCtx τ) τ) = u at read ⊢
  refine keeps_ite_snd read (keeps_ite_snd read (keeps_ite_snd read ?_))
  dsimp only
  exact keeps_foldl (fun _ _ => keeps_unitWrite (keeps_unitUse (Keeps.refl _))) read

theorem keeps_queueIsland {p : Path} {stage : Nat} (hk : Keeps κ σ τ) : Keeps κ σ (queueIsland p stage τ) := by
  unfold queueIsland
  exact keeps_setIsland hk

theorem keeps_attestNonceW {p : Path} {nonce : List Byte} (hk : Keeps κ σ τ) : Keeps κ σ (attestNonceW p nonce τ).2 := by
  unfold attestNonceW
  exact keeps_ite_snd hk (keeps_queueIsland (keeps_setPath hk))

theorem keeps_octetsW {p : Path} {index sub : Nat} {bs : List Byte} (hk : Keeps κ σ τ) : Keeps κ σ (octetsW p index sub bs τ).2 := by
  unfold octetsW
  split
  · exact keeps_ite_snd (hk.upd rfl) hk
  · exact hk.upd rfl
  · exact keeps_dbgWriteW hk
  · exact keeps_attestNonceW hk
  · exact keeps_kexBufW hk

theorem keeps_setReg {index sub v : Nat} (hk : Keeps κ σ τ) : Keeps κ σ (setReg index sub v τ) := by
  unfold setReg
  exact hk.upd rfl

theorem keeps_updLinkLoss (hk : Keeps κ σ τ) : Keeps κ σ (updLinkLoss τ) := by
  unfold updLinkLoss
  refine keeps_foldl (fun _ _ => ?_) hk
  split
  · exact keeps_ite (keeps_abortJob (Keeps.refl _)) (Keeps.refl _)
  · exact Keeps.refl _

theorem keeps_closeAccount {c ctx m d : Nat} (hk : Keeps κ σ τ) : Keeps κ σ (closeAccount c ctx m d τ) := by
  unfold closeAccount
  exact keeps_setCore hk

theorem keeps_returnToPool {c ctx m d n : Nat} (hk : Keeps κ σ τ) : Keeps κ σ (returnToPool c ctx m d n τ) := by
  unfold returnToPool
  exact keeps_ite hk (keeps_ite (keeps_setCore hk) (keeps_sendPacket hk))

theorem keeps_stampsHome {c ctx m d n : Nat} (hk : Keeps κ σ τ) : Keeps κ σ (stampsHome c ctx m d n τ) := by
  unfold stampsHome
  split
  · exact hk
  · exact keeps_ite (keeps_closeAccount (keeps_setAccount (keeps_returnToPool hk))) (keeps_setAccount (keeps_returnToPool hk))

theorem keeps_setRelay {c : Nat} {f : RelayPort → RelayPort} (hk : Keeps κ σ τ) : Keeps κ σ (setRelay c f τ) := by
  unfold setRelay
  exact keeps_setCore hk

theorem keeps_leaveStream {c : Nat} (hk : Keeps κ σ τ) : Keeps κ σ (leaveStream c τ) := by
  unfold leaveStream
  exact keeps_setRelay hk

theorem keeps_kmFault {c : Nat} {i : Issued} {f : FaultInfo} (hk : Keeps κ σ τ) : Keeps κ σ (kmFault c i f τ) := by
  unfold kmFault
  exact keeps_endFault (keeps_ite hk (keeps_leaveStream hk))

theorem keeps_refreshFault {c : Nat} {i : Issued} {f : FaultInfo} (hk : Keeps κ σ τ) : Keeps κ σ (refreshFault c i f τ) := by
  unfold refreshFault
  exact keeps_endFault (keeps_ite hk (keeps_leaveStream hk))

theorem keeps_mmLeave {c : Nat} {i : Issued} (hk : Keeps κ σ τ) : Keeps κ σ (mmLeave c i τ) := by
  unfold mmLeave
  exact keeps_ite (keeps_leaveStream hk) hk

theorem keeps_finishTile {c : Nat} {b : Bank} (hk : Keeps κ σ τ) : Keeps κ σ (finishTile c b τ) := by
  unfold finishTile
  exact keeps_setCore hk

theorem keeps_mmFault {c : Nat} {i : Issued} {f : FaultInfo} (hk : Keeps κ σ τ) : Keeps κ σ (mmFault c i f τ) := by
  unfold mmFault
  exact keeps_endFault (keeps_mmLeave (keeps_ite (keeps_finishTile hk) hk))

theorem keeps_headFault {c : Nat} {q : QueueId} {i : Issued} {f : FaultInfo} (hk : Keeps κ σ τ) : Keeps κ σ (headFault c q i f τ) := by
  unfold headFault
  split
  · exact keeps_mmFault hk
  · exact keeps_ite (keeps_popFault hk) (keeps_endFault hk)
  · exact keeps_ite (keeps_kmFault hk) (keeps_endFault hk)
  · exact keeps_ite (keeps_refreshFault hk) (keeps_endFault hk)
  · exact keeps_endFault hk

theorem keeps_setStream {ctx c : Nat} {f : Stream → Stream} (hk : Keeps κ σ τ) : Keeps κ σ (setStream ctx c f τ) := by
  unfold setStream
  exact hk.upd rfl

theorem keeps_chainLess {ctx : Nat} (hk : Keeps κ σ τ) : Keeps κ σ (chainLess ctx τ) := by
  unfold chainLess
  exact keeps_ite (keeps_setChain hk) hk

theorem keeps_advanceRetired {c ctx : Nat} (hk : Keeps κ σ τ) : Keeps κ σ (advanceRetired c ctx τ) := by
  unfold advanceRetired
  exact keeps_setCore (keeps_setStream hk)

theorem keeps_markDone {c ctx serial : Nat} (hk : Keeps κ σ τ) : Keeps κ σ (markDone c ctx serial τ) := by
  unfold markDone
  exact keeps_advanceRetired (keeps_setStream hk)

theorem keeps_retireOne {c : Nat} {e : Ended} (hk : Keeps κ σ τ) : Keeps κ σ (retireOne c e τ) := by
  unfold retireOne
  exact keeps_sendSeals (keeps_markDone (keeps_chainLess hk))

theorem keeps_restFault {c : Nat} {q : QueueId} {i : Issued} {f : FaultInfo} (hk : Keeps κ σ τ) : Keeps κ σ (restFault c q i f τ) := by
  unfold restFault
  exact keeps_stageRec (keeps_retireOne (keeps_setStream (keeps_setCore hk)))

theorem keeps_writeFault {c ctx serial : Nat} {f : FaultInfo} (hk : Keeps κ σ τ) : Keeps κ σ (writeFault c ctx serial f τ) := by
  unfold writeFault
  dsimp only
  split
  · exact keeps_stageRec (keeps_setCore hk)
  · split
    · exact keeps_ite (keeps_headFault hk) (keeps_restFault hk)
    · split
      · exact keeps_restFault hk
      · exact keeps_stageRec hk

theorem keeps_writeLost {k : Packet} (hk : Keeps κ σ τ) : Keeps κ σ (writeLost k τ) := by
  unfold writeLost
  exact keeps_ite hk (keeps_writeFault (keeps_ite (keeps_stampsHome hk) hk))

theorem keeps_peerLost {m : Nat} (hk : Keeps κ σ τ) : Keeps κ σ (peerLost m τ) := by
  unfold peerLost
  exact keeps_ite hk (keeps_foldl (fun _ _ => keeps_writeLost (Keeps.refl _)) (hk.upd rfl))

theorem keeps_flushHeld (hk : Keeps κ σ τ) : Keeps κ σ (flushHeld τ) := by
  unfold flushHeld
  exact keeps_foldl (fun _ _ => keeps_sendPacket (Keeps.refl _)) (hk.upd rfl)

theorem keeps_moveOn {l : List Packet} (hk : Keeps κ σ τ) : Keeps κ σ (moveOn l τ) := by
  unfold moveOn
  refine Keeps.upd (keeps_foldl_snd (fun _ _ => ?_) hk) rfl
  split
  · exact keeps_sendOn (Keeps.refl _)
  · exact Keeps.refl _

theorem keeps_portLeaves {p : Nat} {st : BitVec 8} (hk : Keeps κ σ τ) : Keeps κ σ (portLeaves p st τ) := by
  unfold portLeaves
  exact keeps_updLinkLoss (keeps_foldl (fun _ _ => keeps_peerLost (Keeps.refl _)) (keeps_flushHeld (keeps_moveOn (keeps_setLink hk))))

theorem keeps_startTraining {p : Nat} (hk : Keeps κ σ τ) : Keeps κ σ (startTraining p τ) := by
  unfold startTraining
  exact keeps_ite (keeps_portLeaves (keeps_setLink hk)) (keeps_portLeaves (keeps_setLink hk))

theorem keeps_spareModeW {v : Nat} (hk : Keeps κ σ τ) : Keeps κ σ (spareModeW v τ).2 := by
  unfold spareModeW
  refine keeps_ite_snd hk ?_
  generalize hs : setReg 0x3C00 3 v τ = u
  have hu : Keeps κ σ u := hs ▸ keeps_setReg hk
  dsimp only
  exact keeps_foldl (l := [21, 22, 23]) (g := fun s p => startTraining p (portLeaves p 0 s))
      (fun _ _ => keeps_startTraining (keeps_portLeaves (Keeps.refl _))) hu

theorem keeps_settingW {index sub v : Nat} (hk : Keeps κ σ τ) : Keeps κ σ (settingW index sub v τ).2 := by
  unfold settingW
  exact keeps_setReg hk

theorem keeps_idleSettingW {busy : Bool} {index sub v : Nat} (hk : Keeps κ σ τ) : Keeps κ σ (idleSettingW busy index sub v τ).2 := by
  unfold idleSettingW
  exact keeps_ite_snd hk (keeps_settingW hk)

theorem keeps_spreadW {g v : Nat} (hk : Keeps κ σ τ) : Keeps κ σ (spreadW g v τ).2 := by
  unfold spreadW
  exact keeps_ite_snd hk (keeps_ite_snd hk (keeps_setReg hk))

theorem keeps_linkDownW {p : Nat} (hk : Keeps κ σ τ) : Keeps κ σ (linkDownW p τ) := by
  unfold linkDownW
  exact keeps_portLeaves (keeps_setLink hk)

theorem keeps_linkTrainW {p : Nat} (hk : Keeps κ σ τ) : Keeps κ σ (linkTrainW p τ) := by
  unfold linkTrainW
  exact keeps_startTraining hk

theorem keeps_linkCommandW {port v : Nat} (hk : Keeps κ σ τ) : Keeps κ σ (linkCommandW port v τ).2 := by
  unfold linkCommandW
  exact keeps_ite (keeps_linkTrainW hk) (keeps_linkDownW hk)

theorem keeps_bwSplitW {p : Path} {v : Nat} (hk : Keeps κ σ τ) : Keeps κ σ (bwSplitW p v τ).2 := by
  unfold bwSplitW
  exact keeps_ite_snd hk (keeps_ite_snd hk (keeps_setReg hk))

theorem keeps_scrambleStack {k mask : Nat} (hk : Keeps κ σ τ) : Keeps κ σ (scrambleStack k mask τ) := by
  unfold scrambleStack
  exact Keeps.upd (hk.setMem (wf_foldl_memSet _)) rfl

theorem keeps_tgStart {k v : Nat} (hk : Keeps κ σ τ) : Keeps κ σ (tgStart k v τ) := by
  unfold tgStart
  exact keeps_setStack (keeps_ite hk (keeps_scrambleStack hk))

theorem keeps_tgStop {k : Nat} (hk : Keeps κ σ τ) : Keeps κ σ (tgStop k τ) := by
  unfold tgStop
  exact keeps_ite (keeps_ite (keeps_setStack (keeps_draw (keeps_draw (keeps_draw hk)))) (keeps_ite (keeps_setStack (keeps_setStack
    (keeps_draw (keeps_draw (keeps_draw hk))))) (keeps_bumpN (keeps_setStack (keeps_setStack (keeps_draw (keeps_draw (keeps_draw
    hk)))))))) hk

theorem keeps_tgControlW {k v : Nat} (hk : Keeps κ σ τ) : Keeps κ σ (tgControlW k v τ).2 := by
  unfold tgControlW
  split
  · exact hk
  · split
    · exact keeps_ite_snd (keeps_setReg (keeps_tgStart hk)) hk
    · exact keeps_ite_snd (keeps_setReg (keeps_tgStop hk)) hk
    · exact keeps_ite_snd hk (keeps_setReg (keeps_setStack hk))
    · exact keeps_ite_snd (keeps_setReg (keeps_setStack (keeps_scrambleStack hk))) (keeps_setReg hk)

theorem keeps_hierParentW {v : Nat} (hk : Keeps κ σ τ) : Keeps κ σ (hierParentW v τ) := by
  unfold hierParentW
  exact (keeps_setReg hk).upd (frame_hier ..)

theorem keeps_heldW {f : State → Nat × State} {p : Path} (hf : ∀ u, Keeps κ u (f u).2) (hk : Keeps κ σ τ) : Keeps κ σ (heldW p f τ).2
    := by
  unfold heldW
  exact keeps_ite_snd (hk.trans (hf _)) hk

theorem keeps_ethSpeedW {port v : Nat} (hk : Keeps κ σ τ) : Keeps κ σ (ethSpeedW port v τ).2 := by
  unfold ethSpeedW
  exact keeps_ite_snd hk (keeps_setEth (keeps_setReg hk))

theorem keeps_installAssoc {port : Nat} {tx : Bool} {a : Assoc} (hk : Keeps κ σ τ) : Keeps κ σ (installAssoc port tx a τ) := by
  unfold installAssoc
  exact keeps_setEth hk

theorem keeps_unitRead {cls : Machine.Class} {alloc : Bool} {ps : List (Nat × Nat)} (hk : Keeps κ σ τ) :
    Keeps κ σ (unitRead cls alloc ps τ).2.2 := by
  unfold unitRead
  exact keeps_foldl_thd (fun _ _ => keeps_noteRead (Keeps.refl _)) hk

theorem keeps_sakRecord {ctx a : Nat} (hk : Keeps κ σ τ) : Keeps κ σ (sakRecord ctx a τ).2 := by
  unfold sakRecord
  split
  · exact hk
  · exact keeps_unitRead (keeps_unitUse hk)

theorem keeps_macsecLoadW {port v : Nat} (hk : Keeps κ σ τ) : Keeps κ σ (macsecLoadW port v τ).2 := by
  unfold macsecLoadW
  dsimp only
  split
  · exact hk
  · split
    · rename_i u0 e2
      have hu1 := keeps_of_eq e2 (keeps_sakRecord hk)
      exact hu1
    · rename_i u3 e5
      have hu4 := keeps_of_eq e5 (keeps_sakRecord hk)
      exact keeps_ite_snd (keeps_installAssoc hu4) hu4

theorem keeps_ethEntryW {p : Path} {port sub v : Nat} (hk : Keeps κ σ τ) : Keeps κ σ (ethEntryW p port sub v τ).2 := by
  unfold ethEntryW
  exact keeps_ite_snd (keeps_ite_snd (keeps_macsecLoadW hk) hk) (keeps_heldW (fun _ => keeps_ite_snd (keeps_ethSpeedW (Keeps.refl _))
    (keeps_settingW (Keeps.refl _))) hk)

theorem keeps_trimSets {d n fuel : Nat} (hk : Keeps κ σ τ) : Keeps κ σ (trimSets d n fuel τ) := by
  induction fuel generalizing τ with
  | zero => exact hk
  | succ fuel ih =>
    rw [trimSets]
    split
    · exact ih (keeps_evictLine hk)
    · exact hk

theorem keeps_pinWaysW {v : Nat} (hk : Keeps κ σ τ) : Keeps κ σ (pinWaysW v τ).2 := by
  unfold pinWaysW
  exact keeps_ite_snd hk (keeps_ite_snd hk (keeps_foldl (fun _ _ => keeps_trimSets (Keeps.refl _)) (keeps_setReg hk)))

theorem keeps_semRenewW {p : Path} (hk : Keeps κ σ τ) : Keeps κ σ (semRenewW p τ).2 := by
  unfold semRenewW
  exact keeps_ite_snd (hk.upd (frame_sem ..)) hk

theorem keeps_semAcquireW {p : Path} (hk : Keeps κ σ τ) : Keeps κ σ (semAcquireW p τ).2 := by
  unfold semAcquireW
  exact keeps_ite_snd (hk.upd rfl) hk

theorem keeps_abandonStaging {p : Path} (hk : Keeps κ σ τ) : Keeps κ σ (abandonStaging p τ) := by
  unfold abandonStaging
  exact keeps_ite (keeps_setIsland (keeps_ite (hk.upd rfl) (hk.upd rfl))) hk

theorem keeps_semEnd (hk : Keeps κ σ τ) : Keeps κ σ (semEnd τ) := by
  unfold semEnd
  refine keeps_ite (hk.upd (frame_sem ..)) (Keeps.upd ?_ (frame_sem ..))
  split
  · exact keeps_abandonStaging hk
  · exact hk

theorem keeps_semReleaseW {p : Path} (hk : Keeps κ σ τ) : Keeps κ σ (semReleaseW p τ).2 := by
  unfold semReleaseW
  exact keeps_ite_snd (keeps_semEnd hk) hk

theorem keeps_semRequestW {p : Path} {v : Nat} (hk : Keeps κ σ τ) : Keeps κ σ (semRequestW p v τ).2 := by
  unfold semRequestW
  exact keeps_ite_snd (keeps_semAcquireW hk) (keeps_ite_snd (keeps_semRenewW hk) (keeps_ite_snd (keeps_semReleaseW hk) hk))

theorem keeps_semBreakW {p : Path} {v : Nat} (hk : Keeps κ σ τ) : Keeps κ σ (semBreakW p v τ).2 := by
  unfold semBreakW
  exact keeps_ite_snd (keeps_semEnd hk) hk

theorem keeps_updHeadW {v : Nat} (hk : Keeps κ σ τ) : Keeps κ σ (updHeadW v τ).2 := by
  unfold updHeadW
  exact keeps_ite_snd hk (keeps_setReg hk)

theorem keeps_unitMidW {p : Path} {index sub v : Nat} (hk : Keeps κ σ τ) : Keeps κ σ (unitMidW p index sub v τ).2 := by
  unfold unitMidW
  split
  · exact keeps_bwSplitW hk
  · exact keeps_pinWaysW hk
  · exact keeps_spreadW hk
  · exact keeps_idleSettingW hk
  · exact keeps_idleSettingW hk
  · exact keeps_updHeadW hk
  · exact keeps_semRequestW hk
  · exact keeps_semBreakW hk
  · exact keeps_heldW (fun _ => keeps_spareModeW (Keeps.refl _)) hk
  · exact keeps_heldW (fun _ => keeps_hierParentW (Keeps.refl _)) hk
  · exact keeps_ite_snd (keeps_tgControlW hk) (keeps_ite_snd (keeps_ethEntryW hk) (keeps_ite_snd (keeps_heldW (fun _ =>
      keeps_linkCommandW (Keeps.refl _)) hk) (keeps_settingW hk)))

theorem keeps_setKeySlot {k : Nat} {f : KeySlot → KeySlot} (hk : Keeps κ σ τ) : Keeps κ σ (setKeySlot k f τ) := by
  unfold setKeySlot
  exact keeps_setIsland hk

theorem keeps_slotEraseW {v : Nat} (hk : Keeps κ σ τ) : Keeps κ σ (slotEraseW v τ).2 := by
  unfold slotEraseW
  refine keeps_ite_snd hk (keeps_ite_snd hk ?_)
  dsimp only
  exact keeps_setKeySlot hk

theorem keeps_coreClkTo {c v : Nat} (hk : Keeps κ σ τ) : Keeps κ σ (coreClkTo c v τ) := by
  unfold coreClkTo
  exact keeps_ite (keeps_setReg hk) (keeps_setCore (keeps_setReg hk))

theorem keeps_coreClkW {c v : Nat} (hk : Keeps κ σ τ) : Keeps κ σ (coreClkW c v τ).2 := by
  unfold coreClkW
  exact keeps_ite_snd hk (keeps_ite_snd hk (keeps_coreClkTo hk))

end

end Sys2Proof.Machine

/-! ## What the functions of the model keep, callees before callers: part 3 of 7 -/

namespace Sys2Proof.Machine

open Sys2Proof.Safety

section
variable {κ : Bool} {σ τ : State}

theorem keeps_semCommit (hk : Keeps κ σ τ) : Keeps κ σ (semCommit τ) := by
  unfold semCommit
  exact hk.upd rfl

theorem keeps_stopOn {ctx c : Nat} (hk : Keeps κ σ τ) : Keeps κ σ (stopOn ctx c τ) := by
  unfold stopOn
  exact keeps_ite hk (keeps_setCore hk)

theorem keeps_stopAll {ctx : Nat} (hk : Keeps κ σ τ) : Keeps κ σ (stopAll ctx τ) := by
  unfold stopAll
  exact keeps_foldl (fun _ _ => keeps_stopOn (Keeps.refl _)) hk

theorem keeps_casSome (hk : Keeps κ σ τ) : Keeps κ σ (casSome τ) := by
  unfold casSome
  exact keeps_addTotal (keeps_draw hk)

theorem keeps_writeBack {c ctx : Nat} (hk : Keeps κ σ τ) : Keeps κ σ (writeBack c ctx τ) := by
  unfold writeBack
  dsimp only
  split
  · exact keeps_unitWrite (keeps_unitUse hk)
  · exact keeps_stageRec (keeps_killContext hk)

theorem keeps_relayOut {i : Nat} {k : Packet} (hk : Keeps κ σ τ) : Keeps κ σ (relayOut i k τ) := by
  unfold relayOut
  split
  · exact keeps_emit hk
  · exact hk.upd rfl

theorem keeps_routeTo {i : Nat} {k : Packet} (hk : Keeps κ σ τ) : Keeps κ σ (routeTo i k τ) := by
  unfold routeTo
  exact keeps_ite (keeps_sendPacket hk) (keeps_ite (keeps_relayOut hk) (keeps_sendPacket hk))

theorem keeps_sendRelay {m : RelayMsg} (hk : Keeps κ σ τ) : Keeps κ σ (sendRelay m τ) := by
  unfold sendRelay
  exact keeps_routeTo hk

theorem keeps_setResult {k : Nat} {f : ResultObj → ResultObj} (hk : Keeps κ σ τ) : Keeps κ σ (setResult k f τ) := by
  unfold setResult
  exact hk.upd rfl

theorem keeps_freeResult {k : Nat} (hk : Keeps κ σ τ) : Keeps κ σ (freeResult k τ) := by
  unfold freeResult
  exact keeps_setResult hk

theorem keeps_dropJob {k : Nat} (hk : Keeps κ σ τ) : Keeps κ σ (dropJob k τ) := by
  unfold dropJob
  exact hk.upd rfl

theorem keeps_finishOne {k status value : Nat} {data : List Byte} (hk : Keeps κ σ τ) : Keeps κ σ (finishOne k status value data τ) := by
  unfold finishOne
  exact keeps_ite hk (keeps_ite (keeps_freeResult hk) (keeps_setResult hk))

theorem keeps_completeJob {k : Nat} (hk : Keeps κ σ τ) : Keeps κ σ (completeJob k τ) := by
  unfold completeJob
  split
  · exact hk
  · exact keeps_ite (keeps_finishOne (keeps_dropJob hk)) hk

theorem keeps_noteReport {k ident status value : Nat} (hk : Keeps κ σ τ) : Keeps κ σ (noteReport k ident status value τ) := by
  unfold noteReport
  exact hk.upd rfl

theorem keeps_finishResult {k status value : Nat} {data : List Byte} (hk : Keeps κ σ τ) : Keeps κ σ (finishResult k status value data
    τ) := by
  unfold finishResult
  split
  · exact keeps_finishOne hk
  · split
    · exact keeps_sendRelay (keeps_freeResult (keeps_dropJob hk))
    · exact keeps_completeJob (keeps_noteReport (keeps_setResult hk))

theorem keeps_endResult {k status : Nat} (hk : Keeps κ σ τ) : Keeps κ σ (endResult k status τ) := by
  unfold endResult
  exact keeps_finishResult hk

theorem keeps_endExpress {ctx status : Nat} (hk : Keeps κ σ τ) : Keeps κ σ (endExpress ctx status τ) := by
  unfold endExpress
  split
  · refine keeps_setContext ?_
    split
    · exact keeps_endResult hk
    · exact hk
  · exact hk

theorem keeps_zeroFrames {f z : Nat} (hk : Keeps κ σ τ) : Keeps κ σ (zeroFrames f z τ) := by
  unfold zeroFrames
  exact keeps_bwCount ((hk.setMem wf_filter).upd rfl)

theorem keeps_moveFrame {f g : Nat} (hk : Keeps κ σ τ) : Keeps κ σ (moveFrame f g τ) := by
  unfold moveFrame
  have zeroed := keeps_zeroFrames (f := g) (z := 1) (keeps_noteRead (cls := .read) (alloc := false) (a := f * 2 ^ 21) (n := 2 ^ 21) hk)
  exact zeroed.setMemPoison (wf_foldl_memSet _)

theorem keeps_freeFrames {f z : Nat} (hk : Keeps κ σ τ) : Keeps κ σ (freeFrames f z τ) := by
  unfold freeFrames
  exact hk.upd (by simp [frame, sizes])

theorem keeps_pickPage {huge : Bool} {p : Nat → Bool} (hk : Keeps κ σ τ) : Keeps κ σ (pickPage huge p τ).2 := by
  unfold pickPage
  exact keeps_draw hk

theorem keeps_takeFrames {f z : Nat} (hk : Keeps κ σ τ) : Keeps κ σ (takeFrames f z τ) := by
  unfold takeFrames
  exact hk.upd rfl

theorem keeps_migratePage {ctx : Nat} {e : Nat × Mapping} (hk : Keeps κ σ τ) : Keeps κ σ (migratePage ctx τ e) := by
  unfold migratePage
  split
  · split
    · rename_i u0 e2
      have hu1 := keeps_of_eq e2 (keeps_pickPage hk)
      exact hk
    · rename_i u3 e5
      have hu4 := keeps_of_eq e5 (keeps_pickPage hk)
      exact keeps_setMapping (keeps_freeFrames (keeps_takeFrames (keeps_moveFrame hu4)))
  · exact hk

theorem keeps_migratePending {ctx : Nat} (hk : Keeps κ σ τ) : Keeps κ σ (migratePending ctx τ) := by
  unfold migratePending
  exact keeps_foldl (fun _ _ => keeps_migratePage (Keeps.refl _)) hk

theorem keeps_leftAll {ctx : Nat} (hk : Keeps κ σ τ) : Keeps κ σ (leftAll ctx τ) := by
  unfold leftAll
  exact keeps_ite (keeps_ite (keeps_endExpress (keeps_migratePending (keeps_setCtxF (keeps_setContext (keeps_setCtxF (keeps_casSome
    (keeps_foldl (fun _ _ => keeps_ite (keeps_writeBack (Keeps.refl _)) (Keeps.refl _)) hk))))))) (keeps_setContext (keeps_setCtxF
    (keeps_casSome (keeps_foldl (fun _ _ => keeps_ite (keeps_writeBack (Keeps.refl _)) (Keeps.refl _)) hk))))) (keeps_foldl (fun _ _ =>
    keeps_ite (keeps_writeBack (Keeps.refl _)) (Keeps.refl _)) hk)

theorem keeps_beginLeave {ctx : Nat} (hk : Keeps κ σ τ) : Keeps κ σ (beginLeave ctx τ) := by
  unfold beginLeave
  exact keeps_ite (keeps_leftAll (keeps_setContext hk)) (keeps_stopAll (keeps_setContext hk))

theorem keeps_trace {d : Nat} {t : TraceRec} (hk : Keeps κ σ τ) : Keeps κ σ (trace d t τ) := by
  unfold trace
  exact keeps_ite (keeps_ite (keeps_setDie hk) (keeps_bumpE (keeps_setDie hk))) hk

theorem keeps_tracePower (hk : Keeps κ σ τ) : Keeps κ σ (tracePower τ) := by
  unfold tracePower
  exact keeps_foldl (fun _ _ => keeps_trace (Keeps.refl _)) hk

theorem keeps_beginEntry {goal : Nat} (hk : Keeps false σ τ) : Keeps false σ (beginEntry goal τ) := by
  unfold beginEntry
  exact keeps_tracePower (keeps_ite (keeps_setPower (keeps_semCommit hk)) (keeps_foldl (fun _ _ => keeps_ite (Keeps.refl _)
    (keeps_beginLeave (Keeps.refl _))) (keeps_setPower (keeps_semCommit hk))))

/-- What a reset leaves has the units that the module is built with, and no bytes in memory. -/
theorem keeps_coldReset {cause : Nat} {straps : BitVec 17} (hk : Keeps false σ τ) : Keeps false σ (coldReset cause straps τ) := by
  unfold coldReset
  refine keeps_setReg (keeps_setReg (hk.trans ⟨rfl, fusesHold_of_eq rfl, fun _ => rfl, fun _ => ?_, nofun, nofun⟩))
  constructor <;> rfl

theorem keeps_beginExit (hk : Keeps false σ τ) : Keeps false σ (beginExit τ) := by
  unfold beginExit
  exact keeps_ite (keeps_setPower (keeps_coldReset (keeps_bumpE hk))) (keeps_tracePower (keeps_setPower (keeps_bumpE hk)))

theorem keeps_wake (hk : Keeps false σ τ) : Keeps false σ (wake τ) := by
  unfold wake
  exact keeps_ite (keeps_setPower hk) (keeps_ite (keeps_beginExit hk) hk)

theorem keeps_pwrStateReqW {p : Path} {v : Nat} (hk : Keeps false σ τ) : Keeps false σ (pwrStateReqW p v τ).2 := by
  unfold pwrStateReqW
  exact keeps_ite_snd hk (keeps_ite_snd hk (keeps_ite_snd hk (keeps_ite_snd hk (keeps_ite_snd (keeps_wake hk) (keeps_ite_snd hk
    (keeps_beginEntry hk))))))

theorem keeps_sharedReset (hk : Keeps false σ τ) : Keeps false σ (sharedReset τ) := by
  unfold sharedReset
  have killed : Keeps false σ ((τ.contexts.map fun e => e.1).foldl (fun s c => killContext c 1 s) τ) :=
    keeps_foldl (fun _ _ => keeps_killContext (Keeps.refl _)) hk
  exact keeps_setPower (keeps_semCommit (killed.trans (keeps_noQueues _)))

theorem keeps_resetCtrlW {p : Path} {v : Nat} (hk : Keeps false σ τ) : Keeps false σ (resetCtrlW p v τ).2 := by
  unfold resetCtrlW
  exact keeps_ite_snd hk (keeps_ite_snd hk (keeps_ite_snd (keeps_coldReset hk) (keeps_sharedReset (keeps_setReg hk))))

theorem keeps_fwActivateW {p : Path} {v : Nat} (hk : Keeps κ σ τ) : Keeps κ σ (fwActivateW p v τ).2 := by
  unfold fwActivateW
  exact keeps_ite_snd hk (keeps_ite_snd hk (keeps_semCommit (keeps_setIsland hk)))

theorem keeps_fwSvnCommitW {p : Path} {v : Nat} (hk : Keeps κ σ τ) : Keeps κ σ (fwSvnCommitW p v τ).2 := by
  unfold fwSvnCommitW
  refine keeps_ite_snd hk (keeps_ite_snd hk (keeps_ite ((keeps_setReg hk).burn ?_) (keeps_setReg hk)))
  exact ⟨rfl, rfl, rfl, rfl, and_or_self .., BitVec.and_self⟩

theorem keeps_clkAllW {v : Nat} (hk : Keeps κ σ τ) : Keeps κ σ (clkAllW v τ).2 := by
  unfold clkAllW
  refine keeps_ite_snd hk (keeps_ite_snd hk ?_)
  dsimp only
  exact keeps_foldl (fun _ _ => keeps_coreClkTo (Keeps.refl _)) hk

theorem keeps_fwStageW {p : Path} {v : Nat} (hk : Keeps κ σ τ) : Keeps κ σ (fwStageW p v τ).2 := by
  unfold fwStageW
  refine keeps_ite_snd hk (keeps_ite_snd hk ?_)
  dsimp only
  exact keeps_setIsland hk

theorem keeps_kexFails {p : Path} {status : Nat} (hk : Keeps κ σ τ) : Keeps κ σ (kexFails p status τ) := by
  unfold kexFails
  refine keeps_setPath ?_
  refine keeps_bumpE ?_
  split
  · exact keeps_setKeySlot hk
  · exact hk

theorem keeps_kexCommandW {p : Path} {v : Nat} (hk : Keeps κ σ τ) : Keeps κ σ (kexCommandW p v τ).2 := by
  unfold kexCommandW
  exact keeps_ite_snd hk (keeps_ite_snd hk (keeps_ite_snd (keeps_kexFails hk) (keeps_queueIsland (keeps_setKeySlot (keeps_setPath
    hk)))))

theorem keeps_rootRevokeW {p : Path} {v : Nat} (hk : Keeps κ σ τ) : Keeps κ σ (rootRevokeW p v τ).2 := by
  unfold rootRevokeW
  refine keeps_ite_snd hk (keeps_ite_snd hk (keeps_ite_snd hk (hk.burn ?_)))
  exact ⟨rfl, rfl, rfl, rfl, BitVec.and_self, revoke_and_or ..⟩

theorem keeps_bnJobW {v : Nat} (hk : Keeps κ σ τ) : Keeps κ σ (bnJobW v τ).2 := by
  unfold bnJobW
  refine keeps_ite_snd hk (keeps_ite_snd hk ?_)
  dsimp only
  exact keeps_setIsland hk

theorem keeps_unitHighW {p : Path} {index sub v : Nat} (hk : Keeps false σ τ) : Keeps false σ (unitHighW p index sub v τ).2 := by
  unfold unitHighW
  split
  · exact keeps_rootRevokeW hk
  · exact keeps_fwStageW hk
  · exact keeps_fwActivateW hk
  · exact keeps_fwSvnCommitW hk
  · exact keeps_slotEraseW hk
  · exact keeps_bnJobW hk
  · exact keeps_pwrStateReqW hk
  · exact keeps_resetCtrlW hk
  · exact keeps_clkAllW hk
  · exact keeps_idleSettingW hk
  · exact keeps_idleSettingW hk
  · exact keeps_ite_snd (keeps_kexCommandW hk) (keeps_ite_snd (keeps_coreClkW hk) (keeps_settingW hk))

theorem keeps_loadCosts {k : Nat} (hk : Keeps κ σ τ) : Keeps κ σ (loadCosts k τ) := by
  unfold loadCosts
  exact keeps_foldl (fun _ _ => keeps_setReg (Keeps.refl _)) hk

theorem keeps_chainCommandW {k v : Nat} (hk : Keeps κ σ τ) : Keeps κ σ (chainCommandW k v τ).2 := by
  unfold chainCommandW
  split
  · exact keeps_ite_snd hk (keeps_ite_snd (keeps_loadCosts (keeps_setChain hk)) hk)
  · split
    · dsimp only
      split
      · exact keeps_setChain hk
      · exact hk
      · exact hk
    · exact hk

theorem keeps_chainFieldW {k sub v : Nat} (hk : Keeps κ σ τ) : Keeps κ σ (chainFieldW k sub v τ).2 := by
  unfold chainFieldW
  exact keeps_ite_snd hk (keeps_ite_snd hk (keeps_setReg hk))

theorem keeps_mtFinish {code p : Nat} (hk : Keeps κ σ τ) : Keeps κ σ (mtFinish code p τ) := by
  unfold mtFinish
  exact keeps_bumpE (hk.upd rfl)

theorem keeps_mtCommandW {evict : Bool} {v : Nat} (hk : Keeps κ σ τ) : Keeps κ σ (mtCommandW evict v τ).2 := by
  unfold mtCommandW
  exact keeps_ite_snd hk (keeps_ite_snd hk (keeps_ite_snd (keeps_mtFinish hk) (hk.upd rfl)))

theorem keeps_setReloadState {c v : Nat} (hk : Keeps κ σ τ) : Keeps κ σ (setReloadState c v τ) := by
  unfold setReloadState
  exact keeps_setCore hk

theorem keeps_ringReadFails {c ctx rb from_ : Nat} (hk : Keeps κ σ τ) : Keeps κ σ (ringReadFails c ctx rb from_ τ) := by
  unfold ringReadFails
  split
  · exact keeps_noteMiss hk
  · exact keeps_setStream hk
  · exact hk

theorem keeps_setBlock {c k : Nat} {f : ImemBlock → ImemBlock} (hk : Keeps κ σ τ) : Keeps κ σ (setBlock c k f τ) := by
  unfold setBlock
  exact keeps_setCore hk

theorem keeps_ringWords {c ctx rb from_ : Nat} (hk : Keeps κ σ τ) : Keeps κ σ (ringWords c ctx rb from_ τ).2 := by
  unfold ringWords
  dsimp only
  split
  · exact hk
  · exact keeps_unitRead (keeps_unitUse hk)

theorem keeps_reloadBlock {c ctx rb : Nat} (hk : Keeps κ σ τ) : Keeps κ σ (reloadBlock c ctx rb τ) := by
  unfold reloadBlock
  split
  · exact hk
  · split
    · rename_i u0 e2
      have hu1 := keeps_of_eq e2 (keeps_ringWords hk)
      exact keeps_ringReadFails (keeps_setBlock hu1)
    · rename_i u3 e5
      have hu4 := keeps_of_eq e5 (keeps_ringWords hk)
      exact keeps_setBlock hu4

theorem keeps_carryReload {c : Nat} {r : HeldReload} (hk : Keeps κ σ τ) : Keeps κ σ (carryReload c r τ) := by
  unfold carryReload
  exact keeps_setReloadState (keeps_reloadBlock (keeps_setCore hk))

theorem keeps_imemReloadW {c v : Nat} (hk : Keeps κ σ τ) : Keeps κ σ (imemReloadW c v τ).2 := by
  unfold imemReloadW
  dsimp only
  split
  · exact keeps_carryReload hk
  · refine keeps_setReloadState ?_
    refine keeps_setCore ?_
    split
    · exact keeps_noteMiss hk
    · exact hk

theorem keeps_setSeal {p : Nat} {f : Seal → Seal} (hk : Keeps κ σ τ) : Keeps κ σ (setSeal p f τ) := by
  unfold setSeal
  exact hk.upd rfl

theorem keeps_sealApply {p amount : Nat} (hk : Keeps κ σ τ) : Keeps κ σ (sealApply p amount τ) := by
  unfold sealApply
  exact keeps_trace (keeps_setSeal hk)

theorem keeps_sealDbgSet {path : Path} {v : Nat} (hk : Keeps κ σ τ) : Keeps κ σ (sealDbgSet path v τ).2 := by
  unfold sealDbgSet
  dsimp only
  split
  · exact hk
  · exact keeps_ite_snd hk (keeps_stageRec (keeps_sealApply (keeps_setSeal (keeps_setReg hk))))

theorem keeps_resumeStream {c ctx : Nat} (hk : Keeps κ σ τ) : Keeps κ σ (resumeStream c ctx τ) := by
  unfold resumeStream
  exact keeps_setStream hk

theorem keeps_skipRead {c ctx : Nat} (hk : Keeps κ σ τ) : Keeps κ σ (skipRead c ctx τ).2 := by
  unfold skipRead
  dsimp only
  split
  · exact hk
  · split
    · exact hk
    · split
      · rename_i u0 e2
        have hu1 := keeps_of_eq e2 (keeps_ringWords hk)
        exact hu1
      · rename_i u3 e5
        have hu4 := keeps_of_eq e5 (keeps_ringWords hk)
        exact hu4

theorem keeps_skipBy {c ctx n : Nat} (hk : Keeps κ σ τ) : Keeps κ σ (skipBy c ctx n τ) := by
  unfold skipBy
  exact keeps_resumeStream (keeps_setStream hk)

theorem keeps_skipStream {c ctx : Nat} (hk : Keeps κ σ τ) : Keeps κ σ (skipStream c ctx τ) := by
  unfold skipStream
  split
  · rename_i u0 e2
    have hu1 := keeps_of_eq e2 (keeps_skipRead (keeps_setStream hk))
    exact keeps_skipBy hu1
  · rename_i u3 e5
    have hu4 := keeps_of_eq e5 (keeps_skipRead (keeps_setStream hk))
    exact keeps_skipBy hu4
  · rename_i u6 e8
    have hu7 := keeps_of_eq e8 (keeps_skipRead (keeps_setStream hk))
    exact keeps_noteMiss (keeps_setStream hu7)

theorem keeps_haltStream {c ctx : Nat} {h : HaltInfo} (hk : Keeps κ σ τ) : Keeps κ σ (haltStream c ctx h τ) := by
  unfold haltStream
  exact keeps_stageRec (keeps_bumpE (keeps_bumpE (keeps_writeBack (keeps_setCore (keeps_setStream hk)))))

theorem keeps_debugHalt {c ctx : Nat} (hk : Keeps κ σ τ) : Keeps κ σ (debugHalt c ctx τ) := by
  unfold debugHalt
  exact keeps_haltStream hk

theorem keeps_cpCommandW {c v : Nat} (hk : Keeps κ σ τ) : Keeps κ σ (cpCommandW c v τ).2 := by
  unfold cpCommandW
  refine keeps_ite_snd hk (keeps_ite_snd hk (keeps_ite_snd (keeps_ite_snd ?_ hk) (keeps_ite_snd (keeps_ite_snd ?_ hk) (keeps_ite_snd ?_ hk))))
  · dsimp only
    exact keeps_resumeStream hk
  · dsimp only
    exact keeps_skipStream hk
  · dsimp only
    exact keeps_debugHalt hk

theorem keeps_heldSettingW {p : Path} {index sub v : Nat} (hk : Keeps κ σ τ) : Keeps κ σ (heldSettingW p index sub v τ).2 := by
  unfold heldSettingW
  exact keeps_ite_snd (keeps_settingW hk) hk

theorem keeps_unitLowW {p : Path} {index sub v : Nat} (hk : Keeps κ σ τ) : Keeps κ σ (unitLowW p index sub v τ).2 := by
  unfold unitLowW
  split
  · exact keeps_heldSettingW hk
  · exact keeps_mtCommandW hk
  · exact keeps_mtCommandW hk
  · exact keeps_sealDbgSet hk
  · split
    · exact keeps_ite_snd (keeps_chainCommandW hk) (keeps_chainFieldW hk)
    · split
      · split
        · exact keeps_cpCommandW hk
        · exact keeps_imemReloadW hk
        · exact keeps_settingW hk
      · exact keeps_settingW hk

theorem keeps_unitW {p : Path} {e : Entry} {index sub : Nat} {bs : List Byte} (hk : Keeps false σ τ) : Keeps false σ (unitW p e index
    sub bs τ).2 := by
  unfold unitW
  split
  · exact keeps_octetsW hk
  · exact keeps_ite_snd hk (keeps_ite_snd (keeps_unitLowW hk) (keeps_ite_snd (keeps_unitMidW hk) (keeps_unitHighW hk)))

theorem keeps_unlockW {p : Path} {v : Nat} (hk : Keeps κ σ τ) : Keeps κ σ (unlockW p v τ).2 := by
  unfold unlockW
  exact keeps_ite_snd (keeps_setPath hk) (keeps_bumpE ((keeps_setPath hk).upd rfl))

theorem keeps_writeEntry {w : Who} {fieldsOk : Bool} {e : Entry} {index sub : Nat} {bs : List Byte} (hk : Keeps false σ τ) :
    Keeps false σ (writeEntry w fieldsOk e index sub bs τ).2 := by
  unfold writeEntry
  refine keeps_ite_snd (keeps_unlockW hk) ?_
  extract_lets r
  have applied : Keeps false σ r.2 := by
    refine keeps_ite_snd hk (keeps_ite_snd hk (keeps_ite_snd hk ?_))
    split
    · exact hk
    · exact keeps_ackW hk
    · exact keeps_unitW hk
  exact keeps_ite_snd applied (keeps_lockPath applied)

theorem keeps_countAccess (hk : Keeps κ σ τ) : Keeps κ σ (countAccess τ) := by
  unfold countAccess
  exact keeps_addTotal hk

theorem keeps_writeAccess {w : Who} {fieldsOk : Bool} {index sub type : Nat} {value : List Byte} (hk : Keeps false σ τ) : Keeps false σ
    (writeAccess w fieldsOk index sub type value τ).2 := by
  unfold writeAccess
  split
  · exact keeps_countAccess hk
  · exact keeps_ite_snd (keeps_countAccess (keeps_ite hk (keeps_lockPath hk))) (keeps_writeEntry (keeps_countAccess hk))

theorem keeps_served {f : State → State} (hf : ∀ u, Keeps κ u (f u)) (hk : Keeps κ σ τ) : Keeps κ σ (served τ f) := by
  unfold served
  exact keeps_ite (hk.trans (hf _)) hk

theorem keeps_dictWrite {w : Who} {index sub type : Nat} {value : List Byte} (hk : Keeps false σ τ) :
    Keeps false σ (dictWrite w index sub type value τ) := by
  unfold dictWrite
  exact keeps_served (fun _ => keeps_emit (keeps_writeAccess (Keeps.refl _))) hk

theorem keeps_octetsRow {w : Who} {index sub : Nat} {bs : List Byte} (hk : Keeps false σ τ) :
    Keeps false σ (octetsRow w index sub bs τ) := by
  unfold octetsRow
  exact keeps_dictWrite hk

theorem keeps_mainsOff (hk : Keeps false σ τ) : Keeps false σ (mainsOff τ) := by
  unfold mainsOff
  exact keeps_setPower hk

theorem keeps_powerOn {straps : BitVec 17} (hk : Keeps false σ τ) : Keeps false σ (powerOn straps τ) := by
  unfold powerOn
  exact keeps_mainsOff (keeps_coldReset (keeps_setPower (hk.upd rfl)))

theorem keeps_mctpControl {code completion : Nat} {body : List Byte} (hk : Keeps κ σ τ) : Keeps κ σ (mctpControl code completion body
    τ) := by
  unfold mctpControl
  exact keeps_served (fun _ => keeps_emit (Keeps.refl _)) hk

theorem keeps_mctpSupport {code : Nat} (hk : Keeps κ σ τ) : Keeps κ σ (mctpSupport code τ) := by
  unfold mctpSupport
  exact keeps_mctpControl hk

theorem keeps_unitRow {w : Who} {index sub v : Nat} (hk : Keeps false σ τ) : Keeps false σ (unitRow w index sub v τ) := by
  unfold unitRow
  split
  · exact keeps_dictWrite hk
  · exact keeps_dictWrite hk

theorem keeps_thermalAlert {d : Nat} (hk : Keeps false σ τ) : Keeps false σ (thermalAlert d τ) := by
  unfold thermalAlert
  exact keeps_setPower (keeps_setDie hk)

theorem keeps_busyCycles {index sub : Nat} (hk : Keeps κ σ τ) : Keeps κ σ (busyCycles index sub τ) := by
  unfold busyCycles
  exact keeps_ite (keeps_addTotal (keeps_draw hk)) hk

theorem keeps_dbgReadBurst {k : Nat} (hk : Keeps κ σ τ) : Keeps κ σ (dbgReadBurst k τ).2.2 := by
  unfold dbgReadBurst
  dsimp only
  split
  · exact hk
  · exact hk
  · exact keeps_ite_thd hk hk
  · exact keeps_ite_thd hk hk
  · exact keeps_ite_thd (keeps_noteRead hk) (keeps_noteRead hk)

theorem keeps_dbgRead (hk : Keeps κ σ τ) : Keeps κ σ (dbgRead τ).2 := by
  unfold dbgRead
  extract_lets s r
  have read : Keeps κ σ r.2.2 :=
    keeps_foldl_thd (fun _ _ => keeps_dbgReadBurst (Keeps.refl _)) (keeps_ite hk (keeps_readEntry hk))
  exact read.upd rfl

theorem keeps_flogRecord (hk : Keeps κ σ τ) : Keeps κ σ (flogRecord τ).2 := by
  unfold flogRecord
  exact keeps_ite_snd (keeps_noteRead hk) hk

theorem keeps_octetsValue {index sub : Nat} (hk : Keeps κ σ τ) : Keeps κ σ (octetsValue index sub τ).2 := by
  unfold octetsValue
  split
  · exact hk
  · exact hk
  · exact hk
  · exact hk
  · exact keeps_flogRecord hk
  · exact keeps_dbgRead hk
  · exact hk
  · exact hk
  · exact hk

theorem keeps_entryValue {e : Entry} {index sub : Nat} (hk : Keeps κ σ τ) : Keeps κ σ (entryValue e index sub τ).2 := by
  unfold entryValue
  split
  · exact hk
  · exact keeps_octetsValue hk
  · exact hk
  · exact keeps_busyCycles hk
  · exact hk

theorem keeps_readAccess {w : Who} {fieldsOk : Bool} {index sub type len : Nat} (hk : Keeps κ σ τ) :
    Keeps κ σ (readAccess w fieldsOk index sub type len τ).2.2 := by
  unfold readAccess
  have counted := keeps_countAccess hk
  split
  · exact counted
  · exact keeps_ite_thd counted (keeps_ite_thd counted (keeps_ite_thd counted (keeps_countAccess (keeps_entryValue hk))))

theorem keeps_dictRead {w : Who} {index sub : Nat} (hk : Keeps κ σ τ) : Keeps κ σ (dictRead w index sub τ) := by
  unfold dictRead
  exact keeps_served (fun _ => keeps_answer (keeps_readAccess (Keeps.refl _))) hk

theorem keeps_ackTo {p ack : Nat} (hk : Keeps κ σ τ) : Keeps κ σ (ackTo p ack τ) := by
  unfold ackTo
  exact keeps_ite (keeps_flushOwed (keeps_flushHeld (keeps_setLink hk))) hk

theorem keeps_resendAll {p : Nat} (hk : Keeps κ σ τ) : Keeps κ σ (resendAll p τ) := by
  unfold resendAll
  exact keeps_foldl (fun _ _ => keeps_wire (Keeps.refl _)) hk

theorem keeps_replay {p : Nat} (hk : Keeps κ σ τ) : Keeps κ σ (replay p τ) := by
  unfold replay
  exact keeps_ite (keeps_setLink hk) (keeps_resendAll (keeps_setLink (keeps_bumpE hk)))

theorem keeps_linkNak {p seq : Nat} (hk : Keeps κ σ τ) : Keeps κ σ (linkNak p seq τ) := by
  unfold linkNak
  exact keeps_ite (keeps_replay (keeps_ackTo hk)) hk

theorem keeps_i3cAnswer {bs : List Byte} (hk : Keeps κ σ τ) : Keeps κ σ (i3cAnswer bs τ) := by
  unfold i3cAnswer
  exact keeps_served (fun _ => keeps_emit (Keeps.refl _)) hk

theorem along_prefetchLine (e : Env) (a : Nat) : Along (Keeps κ) (prefetchLine e a) := by
  refine along_once keeps_reads ⟨fun s => alongAt_get ?_⟩
  split
  · exact Keeps.refl s
  · exact (along_failE keeps_reads ..).leads s
  · exact keeps_noteRead (keeps_useAge (Keeps.refl s))

theorem along_prefetchOne (c : Nat) (i : Issued) (r : Nat) : Along (Keeps κ) (prefetchOne c i r) := by
  unfold prefetchOne
  exact keeps_reads.bind (along_moveChecks keeps_reads ..) fun _ => keeps_reads.bind (along_eachE keeps_reads (fun _ =>
    keeps_reads.bind (along_prefetchLine ..) fun _ => along_moveCheckpoint keeps_reads ..) ..) fun _ => keeps_reads.pure _

theorem keeps_prefetchRow {c : Nat} (hk : Keeps κ σ τ) : Keeps κ σ (prefetchRow c τ) := by
  unfold prefetchRow
  exact keeps_runEngine (fun _ _ => along_prefetchOne ..) hk

theorem keeps_doorbellReject {c ctx : Nat} (hk : Keeps κ σ τ) : Keeps κ σ (doorbellReject c ctx τ) := by
  unfold doorbellReject
  exact keeps_stageRec (keeps_bumpE hk)

theorem keeps_applyHead {c ctx : Nat} {head : Word32} (hk : Keeps κ σ τ) : Keeps κ σ (applyHead c ctx head τ).2 := by
  unfold applyHead
  refine keeps_ite_snd ?_ (keeps_doorbellReject hk)
  dsimp only
  exact keeps_setStream hk

theorem keeps_recordUnread {c ctx : Nat} {heads : List Word32} {r : Reason} (hk : Keeps κ σ τ) : Keeps κ σ (recordUnread c ctx heads r
    τ) := by
  unfold recordUnread
  exact keeps_haltStream (keeps_setStream hk)

theorem keeps_applyHeads {c ctx : Nat} {heads : List Word32} (hk : Keeps κ σ τ) : Keeps κ σ (applyHeads c ctx heads τ).2 := by
  unfold applyHeads
  exact keeps_foldl_snd (fun _ _ => keeps_applyHead (Keeps.refl _)) hk

theorem keeps_firstDoorbells {c ctx : Nat} {heads : List Word32} (hk : Keeps κ σ τ) : Keeps κ σ (firstDoorbells c ctx heads τ).2 := by
  unfold firstDoorbells
  extract_lets a
  clear_value a
  split
  · dsimp only
    exact keeps_noteMiss (keeps_setStream hk)
  · dsimp only
    exact keeps_recordUnread hk
  · have read := keeps_unitRead (cls := .read) (alloc := true) (ps := (unitPieces τ ctx false a 64).getD [])
      (keeps_unitUse (c := ctx) (a := a) (n := 64) hk)
    generalize unitRead .read true ((unitPieces τ ctx false a 64).getD []) (unitUse ctx a 64 τ) = x at read ⊢
    obtain ⟨bs, p, s⟩ := x
    dsimp only at read ⊢
    split
    · dsimp only
      exact keeps_setStream (keeps_applyHeads (keeps_setStream read))
    · dsimp only
      exact keeps_haltStream (keeps_applyHeads (keeps_setStream read))

theorem keeps_doorbell {ctx gen c : Nat} {head : Word32} (hk : Keeps κ σ τ) : Keeps κ σ (doorbell ctx gen c head τ).2 := by
  unfold doorbell
  exact keeps_ite_snd (keeps_doorbellReject (keeps_readEntry hk)) (keeps_ite_snd (keeps_applyHead (keeps_readEntry hk))
    (keeps_firstDoorbells (keeps_readEntry hk)))

theorem keeps_endCmd {q : NormalCmd} {status value : Nat} (hk : Keeps κ σ τ) : Keeps κ σ (endCmd q status value τ) := by
  unfold endCmd
  exact keeps_setContext (keeps_finishResult hk)

theorem keeps_popCmd {p : Path} (hk : Keeps κ σ τ) : Keeps κ σ (popCmd p τ) := by
  unfold popCmd
  exact hk.upd (by simp [frame, sizes])

theorem keeps_runCmd {f : NormalCmd → State → State} {p : Path} {code : Nat} (hf : ∀ a0 u, Keeps κ u (f a0 u)) (hk : Keeps κ σ τ) :
    Keeps κ σ (runCmd p code f τ) := by
  unfold runCmd
  split
  · exact hk
  · exact keeps_ite hk (keeps_ite (keeps_endCmd (keeps_readEntry (keeps_popCmd hk))) ((keeps_readEntry (keeps_popCmd hk)).trans (hf _
      _)))

theorem keeps_mapHosted {p : Path} (hk : Keeps κ σ τ) : Keeps κ σ (mapHosted p τ) := by
  unfold mapHosted
  exact keeps_runCmd (fun _ _ => keeps_ite (keeps_endCmd (Keeps.refl _)) (keeps_ite (keeps_endCmd (Keeps.refl _)) (keeps_endCmd
    (keeps_setContext (Keeps.refl _))))) hk

theorem keeps_resultTtlExpiry {k : Nat} (hk : Keeps κ σ τ) : Keeps κ σ (resultTtlExpiry k τ) := by
  unfold resultTtlExpiry
  exact keeps_ite (keeps_freeResult hk) hk

theorem keeps_notifySend {p : Path} (hk : Keeps κ σ τ) : Keeps κ σ (notifySend p τ) := by
  unfold notifySend
  refine keeps_ite hk ?_
  split
  · exact keeps_ite (keeps_emit hk) hk
  · exact hk
  · exact keeps_ite (keeps_emit (keeps_draw (keeps_setPath hk))) hk

theorem keeps_setQp {port qpn : Nat} {f : QueuePair → QueuePair} (hk : Keeps κ σ τ) : Keeps κ σ (setQp port qpn f τ) := by
  unfold setQp
  exact hk.upd rfl

theorem keeps_roceRaise {port qpn : Nat} (hk : Keeps κ σ τ) : Keeps κ σ (roceRaise port qpn τ) := by
  unfold roceRaise
  exact keeps_setQp hk

theorem keeps_ethFrameDrop {port : Nat} (hk : Keeps κ σ τ) : Keeps κ σ (ethFrameDrop port τ) := by
  unfold ethFrameDrop
  exact keeps_bumpE hk

theorem keeps_frameDropRow {port : Nat} {cause : DropCause} (hk : Keeps κ σ τ) : Keeps κ σ (frameDropRow port cause τ) := by
  unfold frameDropRow
  exact keeps_ethFrameDrop hk

theorem along_writeLimb (e : Env) (r gr : Nat) (o : Obj) (lap : Bool) (c p : Nat) (v : List Nat) (bad : Bool) : Along (Keeps κ)
    (writeLimb e r gr o lap c p v bad) := by
  unfold writeLimb
  exact keeps_reads.bind (along_eachE keeps_reads (fun _ => along_ite (keeps_reads.bind (along_freeGran keeps_reads ..) fun _ =>
    along_atGran (along_writeGran keeps_writes (allows_any _) ..) ..) (keeps_reads.bind (keeps_reads.pure _) fun _ => along_atGran
    (along_writeGran keeps_writes (allows_any _) ..) ..)) ..) fun _ => along_checkpoint keeps_reads ..

theorem along_writeSample (e : Env) (r : Nat) (o : Obj) (lap : Bool) (v : List Nat) (bad : Bool) : Along (Keeps κ) (writeSample e r o
    lap v bad) := by
  unfold writeSample
  exact along_writeLimb ..

theorem along_extractWork (j : GateJob) : Along (Keeps κ) (extractWork j) := by
  unfold extractWork
  exact keeps_reads.bind (along_eachE keeps_reads (fun _ => along_startHdr keeps_writes (allows_any _) ..) ..) fun _ =>
    keeps_reads.bind keeps_reads.get fun _ => keeps_reads.bind (along_mapE keeps_reads (fun _ => along_atGran (along_readGran
    keeps_reads ..) ..) ..) fun _ => keeps_reads.bind (along_mapE keeps_reads (fun _ => along_atGran (along_readGran keeps_reads ..)
    ..) ..) fun _ => keeps_reads.bind (along_eachE keeps_reads (fun _ => along_writeSample ..) ..) fun _ => along_eachE keeps_reads
    (fun _ => along_commitHdr keeps_writes (allows_any _) ..) ..

theorem along_gateExtract (c : Nat) (i : Issued) (r : Nat) : Along (Keeps κ) (gateExtract c i r) := by
  unfold gateExtract
  exact along_gateRun keeps_reads (along_extractChecks keeps_reads ..) (fun _ => along_extractWork ..) ..

theorem keeps_gateRow {run : Nat → Issued → Nat → Eng (List SealMsg)} {c op : Nat} (hrun : ∀ a0 a1 a2, Along (Keeps κ) (run a0 a1 a2))
    (hk : Keeps κ σ τ) : Keeps κ σ (gateRow c op run τ) := by
  unfold gateRow
  split
  · exact keeps_runEngine (fun _ _ => hrun _ _ _) hk
  · exact hk

theorem keeps_drainComplete {k : Nat} (hk : Keeps κ σ τ) : Keeps κ σ (drainComplete k τ) := by
  unfold drainComplete
  exact keeps_ite (keeps_bumpE (keeps_setChain hk)) hk

end

end Sys2Proof.Machine

/-! ## What the functions of the model keep, callees before callers: part 4 of 7 -/

namespace Sys2Proof.Machine

open Sys2Proof.Safety

section
variable {κ : Bool} {σ τ : State}

theorem keeps_setWaiting {c ctx : Nat} {p : Issued → Bool} {f : Issued → Issued} (hk : Keeps κ σ τ) : Keeps κ σ (setWaiting c ctx p f
    τ) := by
  unfold setWaiting
  exact keeps_ite (keeps_setStream (keeps_ite (keeps_setCore hk) hk)) (keeps_ite (keeps_setCore hk) hk)

theorem keeps_markAnswered {c ctx op v : Nat} (hk : Keeps κ σ τ) : Keeps κ σ (markAnswered c ctx op v τ) := by
  unfold markAnswered
  exact keeps_setWaiting hk

theorem keeps_importFault {c : Nat} {i : Issued} {r : Reason} (hk : Keeps κ σ τ) : Keeps κ σ (importFault c i r τ) := by
  unfold importFault
  exact keeps_endFault hk

theorem keeps_importRefused {w : ImportWait} {r : Reason} {v : Nat} (hk : Keeps κ σ τ) : Keeps κ σ (importRefused w r v τ) := by
  unfold importRefused
  split
  · exact keeps_importFault hk
  · exact keeps_markAnswered hk

theorem keeps_msgRepeatDone {c : Nat} {i : Issued} (hk : Keeps κ σ τ) : Keeps κ σ (msgRepeatDone c i τ) := by
  unfold msgRepeatDone
  exact keeps_ite (keeps_endOk (keeps_repeatSignal hk)) (keeps_setHead (keeps_repeatSignal hk))

theorem keeps_importResponse {is : ImportWait → Bool} {answer : Option (Nat × Nat)} (hk : Keeps κ σ τ) : Keeps κ σ (importResponse is
    answer τ) := by
  unfold importResponse
  split
  · exact hk
  · split
    · exact keeps_importRefused (hk.upd rfl)
    · dsimp only
      split
      · exact keeps_importRefused (hk.upd rfl)
      · split
        · exact keeps_msgRepeatDone (keeps_setCtxF (keeps_setSeal (hk.upd rfl)))
        · exact keeps_markAnswered (keeps_setCtxF (keeps_setSeal (hk.upd rfl)))

theorem keeps_sealImportResponse {c : Nat} {answer : Option (Nat × Nat)} (hk : Keeps κ σ τ) : Keeps κ σ (sealImportResponse c answer τ)
    := by
  unfold sealImportResponse
  exact keeps_importResponse hk

theorem keeps_refuseRelay {m : RelayMsg} {status : Nat} (hk : Keeps κ σ τ) : Keeps κ σ (refuseRelay m status τ) := by
  unfold refuseRelay
  exact keeps_sendRelay hk

theorem keeps_createResult {code ctx ports : Nat} {tag : Word32} (hk : Keeps κ σ τ) :
    Keeps κ σ (createResult code ctx ports tag τ).2 := by
  unfold createResult
  extract_lets d
  generalize firstFree d.1 65536 _ = found
  have drawn : Keeps κ σ d.2 := keeps_draw hk
  clear_value d
  split
  · exact hk
  · dsimp only
    exact keeps_setResult drawn

theorem keeps_relayCommand {x : Payload} {k : Nat} (hk : Keeps κ σ τ) : Keeps κ σ (relayCommand x k τ) := by
  unfold relayCommand
  exact keeps_ite hk (keeps_foldl (fun _ _ => keeps_sendRelay (Keeps.refl _)) (hk.upd rfl))

theorem keeps_enqueueCmd {p : Path} {x : Payload} {k : Nat} (hk : Keeps κ σ τ) : Keeps κ σ (enqueueCmd p x k τ) := by
  unfold enqueueCmd
  extract_lets c s t u
  have relayed : Keeps κ σ s := keeps_relayCommand hk
  have replaced : Keeps κ σ t := by
    unfold t
    split
    · split
      · exact keeps_endResult relayed
      · exact relayed
    · exact relayed
  have queued : Keeps κ σ u := relayed.upd (by simp [u, frame, sizes])
  exact keeps_ite (keeps_ite (keeps_endResult relayed) (keeps_setContext replaced)) (keeps_ite queued (keeps_setContext queued))

theorem keeps_relayedCommand {m : RelayMsg} (hk : Keeps κ σ τ) : Keeps κ σ (relayedCommand m τ) := by
  unfold relayedCommand
  extract_lets h x
  refine keeps_ite (keeps_refuseRelay hk) (keeps_ite (keeps_refuseRelay hk) ?_)
  have made := keeps_createResult (code := m.code) (ctx := m.ctx) (ports := 0) (tag := 0) hk
  split
  next e => exact keeps_refuseRelay (keeps_of_eq e made)
  next e => exact keeps_enqueueCmd ((keeps_of_eq e made).upd rfl)

theorem keeps_undoOpen {j : RelayJob} (hk : Keeps κ σ τ) : Keeps κ σ (undoOpen j τ) := by
  unfold undoOpen
  exact keeps_ite (keeps_foldl (fun _ _ => keeps_ite (Keeps.refl _) (keeps_ite (keeps_killContext (Keeps.refl _)) (keeps_sendRelay
    (Keeps.refl _)))) hk) hk

theorem keeps_relayReport {m : RelayMsg} (hk : Keeps κ σ τ) : Keeps κ σ (relayReport m τ) := by
  unfold relayReport
  dsimp only
  split
  · exact keeps_completeJob (keeps_undoOpen (keeps_noteReport hk))
  · exact keeps_noteReport hk

theorem keeps_relayPacketIn {k : Packet} (hk : Keeps κ σ τ) : Keeps κ σ (relayPacketIn k τ) := by
  unfold relayPacketIn
  exact keeps_ite (keeps_ite (keeps_relayReport hk) (keeps_relayedCommand hk)) (keeps_routeTo hk)

theorem keeps_relayCmd {bs : List Byte} (hk : Keeps κ σ τ) : Keeps κ σ (relayCmd bs τ) := by
  unfold relayCmd
  exact keeps_relayPacketIn hk

theorem keeps_sendReceipt {e kind : Nat} (hk : Keeps κ σ τ) : Keeps κ σ (sendReceipt e kind τ) := by
  unfold sendReceipt
  exact keeps_ite (hk.upd rfl) hk

theorem keeps_dlLost {quiet : Bool} {c ctx e : Nat} (hk : Keeps κ σ τ) : Keeps κ σ (dlLost quiet c ctx e τ) := by
  unfold dlLost
  exact keeps_ite (keeps_bumpE hk) (keeps_stageRec (keeps_bumpE hk))

theorem keeps_deadLetterQ {quiet : Bool} {c reason e : Nat} (hk : Keeps κ σ τ) : Keeps κ σ (deadLetterQ quiet c reason e τ) := by
  unfold deadLetterQ
  extract_lets +onlyGivenNames ctx s t base
  have hs : Keeps κ σ s := keeps_ite (keeps_sendReceipt hk) hk
  have counted : Keeps κ σ t := keeps_bumpE hs
  refine keeps_ite (keeps_dlLost hs) ?_
  obtain ⟨u, hu⟩ := named t
  obtain ⟨x, hx⟩ := named ctx
  obtain ⟨y, hy⟩ := named base
  obtain ⟨words, hw⟩ := named (2 ^ 32 : Nat)
  rw [hu] at counted
  rw [hy, hu, hx, hw]
  dsimp only
  split
  · exact keeps_dlLost counted
  · split
    · exact keeps_unitWrite (keeps_unitWrite (keeps_unitUse (keeps_unitRead (keeps_unitUse counted))))
    · exact keeps_dlLost (keeps_unitWrite (keeps_unitRead (keeps_unitUse counted)))

theorem keeps_setMailbox {c b : Nat} {f : Mailbox → Mailbox} (hk : Keeps κ σ τ) : Keeps κ σ (setMailbox c b f τ) := by
  unfold setMailbox
  exact keeps_setCore hk

theorem keeps_closeMailbox {quiet : Bool} {c b queued later : Nat} (hk : Keeps κ σ τ) : Keeps κ σ (closeMailbox quiet c b queued later
    τ) := by
  unfold closeMailbox
  exact keeps_foldl (fun _ _ => keeps_deadLetterQ (Keeps.refl _)) (keeps_setMailbox hk)

theorem keeps_closeMailboxes {quiet : Bool} {c ctx reason : Nat} (hk : Keeps κ σ τ) : Keeps κ σ (closeMailboxes quiet c ctx reason τ)
    := by
  unfold closeMailboxes
  exact keeps_foldl (fun _ _ => keeps_ite (keeps_closeMailbox (Keeps.refl _)) (Keeps.refl _)) hk

theorem keeps_streamFinish {c ctx : Nat} (hk : Keeps κ σ τ) : Keeps κ σ (streamFinish c ctx τ) := by
  unfold streamFinish
  exact keeps_ite (keeps_closeMailboxes (keeps_bumpE (keeps_writeBack (keeps_setStream hk)))) hk

theorem keeps_semLeaseExpiry (hk : Keeps κ σ τ) : Keeps κ σ (semLeaseExpiry τ) := by
  unfold semLeaseExpiry
  split
  · exact keeps_ite hk (keeps_semEnd (keeps_bumpE hk))
  · exact keeps_ite hk (keeps_semEnd (keeps_bumpE hk))
  · exact hk

theorem keeps_sendNak {port qpn psn code : Nat} (hk : Keeps κ σ τ) : Keeps κ σ (sendNak port qpn psn code τ) := by
  unfold sendNak
  exact keeps_emit hk

theorem keeps_roceRow {f : State → State} {port qpn : Nat} {psn : BitVec 24} (hf : ∀ u, Keeps κ u (f u)) (hk : Keeps κ σ τ) : Keeps κ σ
    (roceRow port qpn psn f τ) := by
  unfold roceRow
  exact keeps_ite (keeps_ite (keeps_sendNak hk) hk) (keeps_ite hk (hk.trans (hf _)))

theorem keeps_expectNext {port qpn n : Nat} (hk : Keeps κ σ τ) : Keeps κ σ (expectNext port qpn n τ) := by
  unfold expectNext
  exact keeps_setQp hk

theorem keeps_roceWrite {port qpn : Nat} {psn : BitVec 24} {rkey addr : Nat} {data : List Byte} (hk : Keeps κ σ τ) : Keeps κ σ
    (roceWrite port qpn psn rkey addr data τ) := by
  unfold roceWrite
  split
  · exact hk
  · split
    · exact keeps_emit hk
    · split
      · exact keeps_sendNak hk
      · split
        · exact keeps_sendNak (keeps_readEntry hk)
        · split
          · split
            · exact keeps_emit (keeps_expectNext (keeps_unitWrite (keeps_unitUse hk)))
            · exact keeps_sendNak hk
          · exact keeps_sendNak hk

theorem keeps_resultRead {p : Path} {handle : Nat} (hk : Keeps κ σ τ) : Keeps κ σ (resultRead p handle τ) := by
  unfold resultRead
  split
  · exact keeps_emit hk
  · exact keeps_ite (keeps_emit hk) (keeps_emit hk)

theorem keeps_ctrlRow {f : Issued → State → State} {c ctx op : Nat} (hf : ∀ a0 u, Keeps κ u (f a0 u)) (hk : Keeps κ σ τ) : Keeps κ σ
    (ctrlRow c ctx op f τ) := by
  unfold ctrlRow
  split
  · exact hk.trans (hf _ _)
  · exact hk

theorem keeps_ctrlHalt {c ctx : Nat} {i : Issued} {r : Reason} {cause : Nat} {addr : Option (Nat × Bool)} (hk : Keeps κ σ τ) : Keeps κ
    σ (ctrlHalt c ctx i r cause addr τ) := by
  unfold ctrlHalt
  exact keeps_haltStream hk

theorem keeps_ctrlDone {c ctx : Nat} {i : Issued} (hk : Keeps κ σ τ) : Keeps κ σ (ctrlDone c ctx i τ) := by
  unfold ctrlDone
  refine keeps_advanceRetired ?_
  split
  · exact keeps_ite (keeps_sendSeals (keeps_setStream hk)) (keeps_setStream hk)
  · exact keeps_setStream hk

theorem keeps_takeBlock {c ctx rb : Nat} (hk : Keeps κ σ τ) : Keeps κ σ (takeBlock c ctx rb τ) := by
  unfold takeBlock
  split
  · exact keeps_setBlock hk
  · exact hk

theorem keeps_startLoop {c ctx : Nat} {i : Issued} (hk : Keeps κ σ τ) : Keeps κ σ (startLoop c ctx i τ) := by
  unfold startLoop
  exact keeps_setStream (keeps_ctrlDone (keeps_foldl (fun _ _ => keeps_takeBlock (Keeps.refl _)) hk))

theorem keeps_ctrlLoop {c ctx : Nat} (hk : Keeps κ σ τ) : Keeps κ σ (ctrlLoop c ctx τ) := by
  unfold ctrlLoop
  exact keeps_ctrlRow (fun _ _ => keeps_ite (keeps_ctrlHalt (Keeps.refl _)) (keeps_ite (Keeps.refl _) (keeps_ite (Keeps.refl _)
    (keeps_ite (keeps_startLoop (Keeps.refl _)) (keeps_setCore (Keeps.refl _)))))) hk

theorem along_zeroTarget (e : Env) (t : Nat) : Along (Keeps κ) (zeroTarget e t) := by
  unfold zeroTarget
  exact along_eachE keeps_reads (fun _ => along_writePlain keeps_writes (allows_any _) ..) ..

theorem keeps_setOffice {c o : Nat} {f : Office → Office} (hk : Keeps κ σ τ) : Keeps κ σ (setOffice c o f τ) := by
  unfold setOffice
  exact keeps_setCore hk

theorem keeps_roundWait {c o ctx : Nat} {stop : Stop} {j : List Ev} (hk : Keeps κ σ τ) : Keeps κ σ (roundWait c o ctx stop j τ) := by
  unfold roundWait
  split
  · exact keeps_noteMiss (keeps_setOffice (keeps_setOffice (hk.upd rfl)))
  · exact keeps_askRemote (keeps_setOffice (hk.upd rfl))
  · exact keeps_setOffice (hk.upd rfl)

theorem keeps_roundZeroed {c o : Nat} (hk : Keeps κ σ τ) : Keeps κ σ (roundZeroed c o τ) := by
  unfold roundZeroed
  exact keeps_setOffice (hk.upd rfl)

theorem keeps_routeEnv {e : Nat} (hk : Keeps κ σ τ) : Keeps κ σ (routeEnv e τ) := by
  unfold routeEnv
  exact keeps_routeTo hk

theorem keeps_postEnvelope {c e : Nat} (hk : Keeps κ σ τ) : Keeps κ σ (postEnvelope c e τ) := by
  unfold postEnvelope
  exact keeps_ite (keeps_routeEnv (hk.upd rfl)) (hk.upd rfl)

theorem keeps_roundEnd {c o ctx : Nat} (hk : Keeps κ σ τ) : Keeps κ σ (roundEnd c o ctx τ) := by
  unfold roundEnd
  exact keeps_postEnvelope (keeps_setOffice (keeps_foldl (fun _ _ => keeps_sendReceipt (Keeps.refl _)) hk))

theorem along_addContribution (e : Env) (t a : Nat) : Along (Keeps κ) (addContribution e t a) := by
  unfold addContribution
  exact keeps_reads.bind (along_openPlain keeps_reads ..) fun _ => keeps_reads.bind (along_needE keeps_reads ..) fun _ =>
    keeps_reads.bind (along_mapE keeps_reads (fun _ => along_readPlain keeps_reads ..) ..) fun _ => keeps_reads.bind (along_eachE keeps_reads
    (fun _ => along_once keeps_reads (keeps_reads.bind keeps_reads.get fun _ => keeps_reads.bind (along_pieces keeps_reads ..) fun _ =>
    keeps_reads.pure _) ..) ..) fun _ => keeps_reads.bind (along_eachE keeps_reads (fun _ => keeps_reads.bind (along_readPlain keeps_reads ..)
    fun (_, _) => keeps_reads.bind (along_writePlain keeps_writes (allows_any _) ..) fun _ => along_atomicDone keeps_reads ..) ..) fun _ => keeps_reads.pure _

theorem keeps_roundNote {c o : Nat} {added poison : Bool} (hk : Keeps κ σ τ) : Keeps κ σ (roundNote c o added poison τ) := by
  unfold roundNote
  exact keeps_setOffice (hk.upd rfl)

theorem keeps_roundAdd {c o ctx t : Nat} {l : List (Nat × Nat)} {j : List Ev} (hk : Keeps κ σ τ) :
    Keeps κ σ (roundAdd c o ctx t l j τ) := by
  induction l generalizing j τ with
  | nil => exact keeps_roundEnd hk
  | cons x r ih =>
    rw [roundAdd]
    split
    next h => exact ih (keeps_roundNote (keeps_ran h (along_addContribution ..) hk))
    next h => exact ih (keeps_roundNote (keeps_stageRec (keeps_stopped h (along_addContribution ..) hk)))
    next h => exact keeps_roundWait (keeps_stopped h (along_addContribution ..) hk)

theorem keeps_roundGo {c o ctx : Nat} (hk : Keeps κ σ τ) : Keeps κ σ (roundGo c o ctx τ) := by
  unfold roundGo
  exact keeps_roundAdd hk

theorem keeps_officeRoundComplete {c o : Nat} (hk : Keeps κ σ τ) : Keeps κ σ (officeRoundComplete c o τ) := by
  unfold officeRoundComplete
  dsimp only
  split
  · exact hk
  · refine keeps_ite hk ?_
    split
    · split
      next h => exact keeps_roundGo (keeps_roundZeroed (keeps_ran h (along_zeroTarget ..) hk))
      next h => exact keeps_roundGo (keeps_roundZeroed (keeps_stopped h (along_zeroTarget ..) hk))
      next h => exact keeps_roundWait (keeps_stopped h (along_zeroTarget ..) hk)
    · exact keeps_roundGo hk

theorem keeps_pllLoss (hk : Keeps false σ τ) : Keeps false σ (pllLoss τ) := by
  unfold pllLoss
  exact keeps_ite (keeps_setPower (keeps_coldReset hk)) hk

theorem keeps_wakeEvent {pin : Bool} (hk : Keeps false σ τ) : Keeps false σ (wakeEvent pin τ) := by
  unfold wakeEvent
  exact keeps_ite (keeps_wake hk) hk

theorem keeps_trafficWake {p : Path} {bs : List Byte} (hk : Keeps false σ τ) : Keeps false σ (trafficWake p bs τ) := by
  unfold trafficWake
  exact keeps_ite (keeps_wakeEvent hk) hk

theorem keeps_sendAck {p : Path} {x : Payload} {status handle : Nat} (hk : Keeps κ σ τ) : Keeps κ σ (sendAck p x status handle τ) := by
  unfold sendAck
  exact keeps_emit hk

theorem keeps_doorbellEntries {x : Payload} (hk : Keeps κ σ τ) : Keeps κ σ (doorbellEntries x τ).2 := by
  unfold doorbellEntries
  exact keeps_foldl_snd (fun _ _ => keeps_doorbell (Keeps.refl _)) hk

theorem keeps_doorbellChecks {p : Path} {x : Payload} (hk : Keeps κ σ τ) : Keeps κ σ (doorbellChecks p x τ) := by
  unfold doorbellChecks
  exact keeps_ite (keeps_sendAck (keeps_doorbellReject (keeps_readEntry hk))) (keeps_ite (keeps_sendAck (keeps_readEntry hk))
    (keeps_sendAck (keeps_doorbellEntries (keeps_readEntry hk))))

theorem keeps_acceptCommand {p : Path} {x : Payload} (hk : Keeps κ σ τ) : Keeps κ σ (acceptCommand p x τ) := by
  unfold acceptCommand
  refine keeps_ite (keeps_sendAck hk) ?_
  extract_lets opening ports
  have made := keeps_createResult (code := plCode x) (ctx := if opening then 0 else plCtx x) (ports := ports)
    (tag := BitVec.ofNat 32 (plTag x)) hk
  split
  next e => exact keeps_sendAck (keeps_of_eq e made)
  next e => exact keeps_sendAck (keeps_enqueueCmd (keeps_of_eq e made))

theorem keeps_takeParse {port : Nat} (hk : Keeps κ σ τ) : Keeps κ σ (takeParse port τ) := by
  unfold takeParse
  exact keeps_setEth hk

theorem keeps_commandChecks {p : Path} {x : Payload} (hk : Keeps κ σ τ) : Keeps κ σ (commandChecks p x τ) := by
  unfold commandChecks
  extract_lets rest
  have hrest : ∀ u, Keeps κ σ u → Keeps κ σ (rest u) := by
    intro u hu
    have read := keeps_ite (c := plCode x = 1) hu (keeps_readEntry (ctx := plCtx x) hu)
    exact keeps_ite (keeps_sendAck read) (keeps_acceptCommand read)
  clear_value rest
  split
  · exact keeps_ite (keeps_sendAck (keeps_bumpE hk)) (hrest _ (keeps_takeParse hk))
  · exact hrest _ hk

theorem keeps_resultRelease {p : Path} {handle : Nat} (hk : Keeps κ σ τ) : Keeps κ σ (resultRelease p handle τ) := by
  unfold resultRelease
  split
  · exact keeps_emit hk
  · exact keeps_emit (keeps_ite (keeps_setResult hk) (keeps_freeResult hk))

theorem keeps_keepCounter {p : Path} {slot counter : Nat} (hk : Keeps κ σ τ) : Keeps κ σ (keepCounter p slot counter τ) := by
  unfold keepCounter
  split
  · exact hk
  · exact hk.upd rfl

theorem keeps_payload {p : Path} {bs : List Byte} (hk : Keeps κ σ τ) : Keeps κ σ (payload p bs τ) := by
  unfold payload
  exact keeps_ite hk (keeps_ite (keeps_sendAck (keeps_bumpE hk)) (keeps_ite (keeps_sendAck (keeps_keepCounter hk)) (keeps_ite
    (keeps_commandChecks (keeps_keepCounter hk)) (keeps_ite (keeps_doorbellChecks (keeps_keepCounter hk)) (keeps_ite (keeps_resultRead
    (keeps_keepCounter hk)) (keeps_resultRelease (keeps_keepCounter hk)))))))

theorem keeps_payloadRow {p : Path} {bs : List Byte} (hk : Keeps false σ τ) : Keeps false σ (payloadRow p bs τ) := by
  unfold payloadRow
  exact keeps_ite hk (keeps_trafficWake (keeps_payload hk))

theorem keeps_waitMetCtrl {c ctx : Nat} (hk : Keeps κ σ τ) : Keeps κ σ (waitMetCtrl c ctx τ) := by
  unfold waitMetCtrl
  split
  · split
    · exact keeps_ite (keeps_setStream hk) hk
    · exact hk
  · exact hk

theorem keeps_waitMetAt {c : Nat} {q : QueueId} (hk : Keeps κ σ τ) : Keeps κ σ (waitMetAt c q τ) := by
  unfold waitMetAt
  split
  · split
    · exact keeps_ite (keeps_setHead hk) hk
    · exact hk
  · exact hk

theorem keeps_waitMetRow {c : Nat} {p : WaitPlace} (hk : Keeps κ σ τ) : Keeps κ σ (waitMetRow c p τ) := by
  unfold waitMetRow
  split
  · exact keeps_waitMetAt hk
  · exact keeps_waitMetCtrl hk

theorem keeps_ctrlFence {c ctx : Nat} (hk : Keeps κ σ τ) : Keeps κ σ (ctrlFence c ctx τ) := by
  unfold ctrlFence
  exact keeps_ctrlRow (fun _ _ => keeps_ite (keeps_ctrlDone (Keeps.refl _)) (Keeps.refl _)) hk

theorem keeps_linkPeerSeen {p : Nat} (hk : Keeps κ σ τ) : Keeps κ σ (linkPeerSeen p τ) := by
  unfold linkPeerSeen
  exact keeps_ite (keeps_startTraining hk) hk

theorem keeps_setSideband {f : Sideband → Sideband} (hk : Keeps κ σ τ) : Keeps κ σ (setSideband f τ) := by
  unfold setSideband
  exact keeps_served (fun _ => (Keeps.refl _).upd rfl) hk

theorem keeps_enec {mask : BitVec 8} (hk : Keeps κ σ τ) : Keeps κ σ (enec mask τ) := by
  unfold enec
  exact keeps_setSideband hk

theorem along_soOpenOne (c : Nat) (i : Issued) (r : Nat) : Along (Keeps κ) (soOpenOne c i r) := by
  unfold soOpenOne
  exact keeps_reads.bind (along_soOpenChecks keeps_reads ..) fun (_, _) => keeps_reads.bind (along_act keeps_reads (fun _ => keeps_setOffice
    (Keeps.refl _)) ..) fun _ => keeps_reads.pure _

theorem keeps_applyMessage {d m : Nat} {j : UpdJob} {x : PeerMsg} (hk : Keeps κ σ τ) : Keeps κ σ (applyMessage d m j x τ) := by
  unfold applyMessage
  split
  · exact keeps_ite (keeps_setJob (keeps_setJob hk)) (keeps_setJob hk)
  · exact keeps_setJob hk
  · exact keeps_ite (keeps_setJob hk) hk

theorem keeps_peerMessage {d m : Nat} {x : PeerMsg} (hk : Keeps κ σ τ) : Keeps κ σ (peerMessage d m x τ) := by
  unfold peerMessage
  split
  · exact keeps_ite (hk.upd rfl) (keeps_applyMessage hk)
  · exact hk.upd rfl

theorem keeps_updMiss {ctx page : Nat} (hk : Keeps κ σ τ) : Keeps κ σ (updMiss ctx page τ) := by
  unfold updMiss
  exact keeps_noteMiss (keeps_ite hk (hk.upd rfl))

theorem keeps_jobWrite {ctx a : Nat} {bs : List Byte} {p : Bool} (hk : Keeps κ σ τ) : Keeps κ σ (jobWrite ctx a bs p τ) := by
  unfold jobWrite
  split
  · exact keeps_unitWrite (keeps_unitUse hk)
  · exact hk

theorem keeps_pinStore {p : Bool} {l : List (Nat × Nat)} {bs : List Byte} (hk : Keeps κ σ τ) : Keeps κ σ (pinStore p l bs τ) := by
  induction l generalizing bs τ with
  | nil => exact hk
  | cons x r ih =>
    have marked : Keeps κ σ ((unitsOf (granSize x.1) x.1 x.2).foldl (fun s g => setMark x.1 x.2 p g s) τ) :=
      keeps_foldl (fun _ _ => keeps_setMark (Keeps.refl _)) hk
    exact ih (marked.setMem (wf_memWrite (bs.take x.2) x.1))

theorem keeps_gradStore {d : Nat} {j : UpdJob} {k : Nat} {data : List Word32} {p : Bool} (hk : Keeps κ σ τ) : Keeps κ σ (gradStore d j
    k data p τ) := by
  unfold gradStore
  dsimp only
  split
  · split
    · exact keeps_pinStore hk
    · exact hk
  · refine keeps_addTotal ?_
    refine keeps_jobWrite ?_
    split
    · exact keeps_pinStore hk
    · exact hk

theorem keeps_sendChunk {d : Nat} {j : UpdJob} {k : Nat} {gather : Bool} {data : List Word32} {p : Bool} (hk : Keeps κ σ τ) : Keeps κ σ
    (sendChunk d j k gather data p τ) := by
  unfold sendChunk
  exact keeps_emit hk

theorem keeps_gatherHere {d k : Nat} {data : List Word32} {p : Bool} (hk : Keeps κ σ τ) : Keeps κ σ (gatherHere d k data p τ) := by
  unfold gatherHere
  split
  · exact hk
  · exact keeps_ite (keeps_setJob (keeps_gradStore hk)) (keeps_sendChunk (keeps_setJob (keeps_gradStore hk)))

theorem keeps_jobRead {ctx a n : Nat} (hk : Keeps κ σ τ) : Keeps κ σ (jobRead ctx a n τ).2.2 := by
  unfold jobRead
  split
  · exact keeps_unitRead (keeps_unitUse hk)
  · exact hk

theorem keeps_localChunk {j : UpdJob} {k : Nat} (hk : Keeps κ σ τ) : Keeps κ σ (localChunk j k τ).2.2 := by
  unfold localChunk
  exact keeps_jobRead hk

theorem keeps_reduceHere {d k : Nat} {came : Option (List Word32 × Bool)} (hk : Keeps κ σ τ) : Keeps κ σ (reduceHere d k came τ) := by
  unfold reduceHere
  split
  · exact hk
  · dsimp only
    split
    · exact keeps_updMiss hk
    · exact keeps_ite (keeps_gatherHere (keeps_setJob (keeps_localChunk hk))) (keeps_sendChunk (keeps_setJob (keeps_localChunk hk)))

theorem keeps_takeArrived {d : Nat} {x : Nat × List Word32 × Bool} (hk : Keeps κ σ τ) : Keeps κ σ (takeArrived d x τ) := by
  unfold takeArrived
  split
  · exact hk
  · split
    · exact keeps_setJob hk
    · split
      · exact keeps_gatherHere (keeps_setJob hk)
      · split
        · exact keeps_setJob hk
        · dsimp only
          split
          · exact keeps_updMiss hk
          · exact keeps_reduceHere (keeps_setJob hk)

theorem keeps_gradLoad {d : Nat} {j : UpdJob} {k : Nat} (hk : Keeps κ σ τ) : Keeps κ σ (gradLoad d j k τ).2.2 := by
  unfold gradLoad
  exact keeps_jobRead hk

theorem keeps_auxOf {j : UpdJob} {blk : Nat} (hk : Keeps κ σ τ) : Keeps κ σ (auxOf j blk τ).2.2.2 := by
  unfold auxOf
  dsimp only
  split
  · exact keeps_jobRead hk
  · exact keeps_jobRead hk



theorem keeps_passBlock {j : UpdJob} {k : UpdConst} {grads : List Byte} {gp : Bool} {blk0 blk : Nat} {acc : PassSum × State}
    (hk : Keeps κ σ acc.2) : Keeps κ σ (passBlock j k grads gp blk0 blk acc).2 := by
  unfold passBlock
  dsimp only
  exact keeps_ite_snd (keeps_auxOf hk) (keeps_jobRead (keeps_auxOf hk))

theorem keeps_passChunk {d k : Nat} (hk : Keeps κ σ τ) : Keeps κ σ (passChunk d k τ) := by
  unfold passChunk
  split
  · exact hk
  · split
    · exact keeps_updMiss hk
    · exact keeps_setJob (keeps_foldl_snd (fun _ _ => keeps_passBlock (Keeps.refl _)) (keeps_gradLoad hk))

theorem keeps_updBlock {d : Nat} {j : UpdJob} (hk : Keeps κ σ τ) : Keeps κ σ (updBlock d j τ) := by
  unfold updBlock
  extract_lets b blk a
  clear_value b blk a
  obtain ⟨n, hn⟩ := named (256 : Nat)
  rw [hn]
  dsimp only
  have begun (f : UpdJob → UpdJob) : Keeps κ σ (setJob d f (auxOf j blk τ).2.2.2) := keeps_setJob (keeps_auxOf hk)
  refine keeps_ite (begun _) (keeps_setJob (keeps_addTotal (keeps_jobWrite ?_)))
  split
  · split
    · exact keeps_jobRead (begun _)
    · exact keeps_jobRead (begun _)
  · exact keeps_jobRead (keeps_jobRead (begun _))

theorem keeps_passB {d fuel : Nat} (hk : Keeps κ σ τ) : Keeps κ σ (passB d fuel τ) := by
  induction fuel generalizing τ with
  | zero => exact hk
  | succ fuel ih =>
    rw [passB]
    split
    · exact hk
    · refine keeps_ite (keeps_ite ?_ (keeps_setJob hk)) hk
      split
      · exact keeps_updMiss hk
      · exact keeps_ite (keeps_updBlock hk) (ih (keeps_updBlock hk))

theorem keeps_verdictHere {d : Nat} (hk : Keeps κ σ τ) : Keeps κ σ (verdictHere d τ) := by
  unfold verdictHere
  split
  · exact hk
  · exact keeps_ite (keeps_foldl (fun _ _ => keeps_emit (Keeps.refl _)) (keeps_setJob hk)) hk

theorem keeps_decideJob {d : Nat} (hk : Keeps κ σ τ) : Keeps κ σ (decideJob d τ) := by
  unfold decideJob
  split
  · exact hk
  · dsimp only
    split
    · split
      · exact keeps_setJob hk
      · exact keeps_ite (keeps_setJob hk) (keeps_ite (keeps_setJob hk) (keeps_setJob hk))
    · exact hk

theorem keeps_advanceJob {d : Nat} (hk : Keeps κ σ τ) : Keeps κ σ (advanceJob d τ) := by
  unfold advanceJob
  split
  · exact hk
  · exact keeps_passB (keeps_decideJob (keeps_ite (keeps_verdictHere (keeps_foldl (fun _ _ => keeps_passChunk (Keeps.refl _))
      (keeps_foldl (fun _ _ => keeps_takeArrived (Keeps.refl _)) (keeps_ite (keeps_setJob hk) (keeps_foldl (fun _ _ => keeps_reduceHere
      (Keeps.refl _)) hk))))) hk))

theorem keeps_verdictReceive {d m : Nat} {v : Verdict} {sw su : Word64} (hk : Keeps κ σ τ) : Keeps κ σ (verdictReceive d m v sw su τ)
    := by
  unfold verdictReceive
  exact keeps_advanceJob (keeps_peerMessage hk)

theorem keeps_disec {mask : BitVec 8} (hk : Keeps κ σ τ) : Keeps κ σ (disec mask τ) := by
  unfold disec
  exact keeps_setSideband hk

theorem keeps_retiredListCopy (hk : Keeps κ σ τ) : Keeps κ σ (retiredListCopy τ) := by
  unfold retiredListCopy
  exact hk.upd rfl

theorem keeps_closeOffice {quiet : Bool} {c o : Nat} (hk : Keeps κ σ τ) : Keeps κ σ (closeOffice quiet c o τ) := by
  unfold closeOffice
  exact keeps_foldl (fun _ _ => keeps_deadLetterQ (Keeps.refl _)) (keeps_setOffice hk)

theorem keeps_endOffices {ctx c : Nat} (hk : Keeps κ σ τ) : Keeps κ σ (endOffices ctx c τ) := by
  unfold endOffices
  exact keeps_foldl (fun _ _ => keeps_ite (keeps_closeOffice (Keeps.refl _)) (Keeps.refl _)) hk

theorem keeps_endSends {ctx : Nat} (hk : Keeps κ σ τ) : Keeps κ σ (endSends ctx τ) := by
  unfold endSends
  exact keeps_foldl (fun _ _ => keeps_deadLetterQ (keeps_ite (keeps_routeTo (Keeps.refl _)) (Keeps.refl _))) (hk.upd rfl)

theorem keeps_endCommands {ctx : Nat} (hk : Keeps κ σ τ) : Keeps κ σ (endCommands ctx τ) := by
  unfold endCommands
  exact keeps_setContext ((keeps_foldl (fun _ _ => keeps_endResult (Keeps.refl _)) (keeps_foldl (fun _ _ => keeps_endResult (Keeps.refl
    _)) hk)).upd rfl)

theorem keeps_unbindSeal {p : Nat} (hk : Keeps κ σ τ) : Keeps κ σ (unbindSeal p τ) := by
  unfold unbindSeal
  refine keeps_foldl (fun _ _ => ?_) ?_
  · exact keeps_endResult (Keeps.refl _)
  · split
    · exact keeps_setCtxF (keeps_setSeal hk)
    · exact keeps_setSeal hk

theorem keeps_endWatches {ctx : Nat} (hk : Keeps κ σ τ) : Keeps κ σ (endWatches ctx τ) := by
  unfold endWatches
  exact keeps_foldl (fun _ _ => keeps_endResult (Keeps.refl _)) hk

theorem keeps_endSeals {ctx : Nat} (hk : Keeps κ σ τ) : Keeps κ σ (endSeals ctx τ) := by
  unfold endSeals
  exact keeps_foldl (fun _ _ => keeps_unbindSeal (Keeps.refl _)) (keeps_endWatches hk)

theorem keeps_onCores {f : Nat → State → State} (hf : ∀ a0 u, Keeps κ u (f a0 u)) (hk : Keeps κ σ τ) : Keeps κ σ (onCores f τ) := by
  unfold onCores
  exact keeps_foldl (fun _ _ => (Keeps.refl _).trans (hf _ _)) hk

theorem keeps_releaseContext {ctx : Nat} (hk : Keeps κ σ τ) : Keeps κ σ (releaseContext ctx τ) := by
  unfold releaseContext
  extract_lets jobs s t u
  have freed : Keeps κ σ s := keeps_foldl (fun _ _ => keeps_ite (keeps_freeFrames (Keeps.refl _)) (Keeps.refl _)) hk
  have left : Keeps κ σ t := keeps_setContext freed
  have cleared : Keeps κ σ u := left.upd (by simp [u, frame, sizes])
  exact keeps_setCtxF (keeps_setCtxF (keeps_setCtxF (keeps_setCtxF cleared)))

theorem keeps_giveBack {c : Nat} {a : Account} {n : Nat} (hk : Keeps κ σ τ) : Keeps κ σ (giveBack c a n τ) := by
  unfold giveBack
  exact keeps_ite (keeps_closeAccount (keeps_setAccount (keeps_returnToPool hk))) (keeps_setAccount (keeps_returnToPool hk))

theorem keeps_endAccounts {ctx c : Nat} (hk : Keeps κ σ τ) : Keeps κ σ (endAccounts ctx c τ) := by
  unfold endAccounts
  exact keeps_foldl (fun _ _ => keeps_giveBack (Keeps.refl _)) hk

theorem keeps_closeComplete {ctx : Nat} (hk : Keeps κ σ τ) : Keeps κ σ (closeComplete ctx τ) := by
  unfold closeComplete
  exact keeps_ite hk (keeps_endCommands (keeps_setCtxF (keeps_releaseContext (keeps_endSeals (keeps_onCores (fun _ _ =>
    keeps_endAccounts (Keeps.refl _)) (keeps_onCores (fun _ _ => keeps_endOffices (Keeps.refl _)) (keeps_onCores (fun _ _ =>
    keeps_closeMailboxes (Keeps.refl _)) (keeps_endSends hk))))))))

theorem keeps_startMains (hk : Keeps false σ τ) : Keeps false σ (startMains τ) := by
  unfold startMains
  exact keeps_setPower hk

theorem keeps_inputInRange (hk : Keeps false σ τ) : Keeps false σ (inputInRange τ) := by
  unfold inputInRange
  exact keeps_ite hk (keeps_startMains (keeps_setPower hk))

theorem keeps_describeAccess {w : Who} {fieldsOk : Bool} {index sub type len : Nat} (hk : Keeps κ σ τ) :
    Keeps κ σ (describeAccess w fieldsOk index sub type len τ).2.2 := by
  unfold describeAccess
  have counted := keeps_countAccess hk
  dsimp only
  split
  · exact counted
  · exact keeps_ite_thd counted (keeps_ite_thd counted (keeps_ite_thd counted counted))

theorem keeps_keepShadows {p : Path} {slot : Nat} (hk : Keeps κ σ τ) : Keeps κ σ (keepShadows p slot τ) := by
  unfold keepShadows
  exact keeps_setPath hk

theorem keeps_rawRead {w : Who} {fieldsOk : Bool} {a : Nat} (hk : Keeps κ σ τ) : Keeps κ σ (rawRead w fieldsOk a τ).2.2 := by
  unfold rawRead
  extract_lets +onlyGivenNames x s
  have kept : Keeps κ σ s := keeps_keepShadows (keeps_countAccess hk)
  clear_value s x
  split
  · exact kept
  · refine keeps_ite_thd kept (keeps_ite_thd kept (keeps_ite_thd (keeps_entryValue kept) (keeps_ite_thd ?_ ?_)))
    · dsimp only
      exact keeps_setPath (keeps_entryValue kept)
    · split
      · dsimp only
        exact keeps_setPath kept
      · exact keeps_bumpE (keeps_entryValue kept)

theorem keeps_rawWrite {w : Who} {fieldsOk : Bool} {a v : Nat} (hk : Keeps false σ τ) : Keeps false σ (rawWrite w fieldsOk a v τ).2 := by
  unfold rawWrite
  extract_lets +onlyGivenNames x s
  have kept : Keeps false σ s := keeps_keepShadows (keeps_countAccess hk)
  clear_value s x
  split
  · exact kept
  · refine keeps_ite_snd (keeps_ite_snd (keeps_writeEntry kept) (keeps_lockPath kept))
      (keeps_ite_snd (keeps_ite_snd kept (keeps_ite_snd kept ?_)) ?_)
    · dsimp only
      exact keeps_setPath kept
    · split
      · exact keeps_writeEntry (keeps_setPath kept)
      · exact keeps_lockPath kept

theorem keeps_runRecord {w : Who} {r : DictRec} (hk : Keeps false σ τ) : Keeps false σ (runRecord w r τ).2 := by
  unfold runRecord
  split
  · exact keeps_readAccess hk
  · exact keeps_writeAccess hk
  · exact keeps_describeAccess hk
  · exact keeps_ite_snd (keeps_rawRead hk) (keeps_countAccess hk)
  · exact keeps_ite_snd (keeps_rawWrite hk) (keeps_countAccess hk)
  · exact keeps_countAccess hk

theorem keeps_runRecords {w : Who} {l : List DictRec} (hk : Keeps false σ τ) : Keeps false σ (runRecords w l τ).2 := by
  induction l generalizing τ with
  | nil => exact hk
  | cons r l ih => exact ih (keeps_runRecord hk)

theorem keeps_keepReply {slot port : Nat} {req rep : List Byte} (hk : Keeps κ σ τ) : Keeps κ σ (keepReply slot port req rep τ) := by
  unfold keepReply
  exact hk.upd rfl

theorem keeps_sendReply {p : Path} {bs : List Byte} (hk : Keeps κ σ τ) : Keeps κ σ (sendReply p bs τ) := by
  unfold sendReply
  exact keeps_ite (keeps_emit hk) (keeps_emit hk)

theorem keeps_dictBody {p : Path} {bs : List Byte} (hk : Keeps false σ τ) : Keeps false σ (dictBody p bs τ) := by
  unfold dictBody
  dsimp only
  split
  · exact keeps_sendReply hk
  · split
    · split
      · exact keeps_sendReply hk
      · exact keeps_sendReply hk
    · split
      · exact keeps_sendReply (keeps_ite (keeps_keepReply (keeps_ite (keeps_keepCounter hk) hk)) (keeps_ite (keeps_keepCounter hk) hk))
      · exact keeps_sendReply (keeps_ite (keeps_keepReply (keeps_runRecords (keeps_ite (keeps_keepCounter hk) hk))) (keeps_runRecords
          (keeps_ite (keeps_keepCounter hk) hk)))

theorem keeps_mctpMessage {whole : Bool} {bs : List Byte} (hk : Keeps false σ τ) : Keeps false σ (mctpMessage whole bs τ) := by
  unfold mctpMessage
  exact keeps_ite hk (keeps_ite (keeps_bumpE hk) (keeps_ite hk (keeps_ite (keeps_bumpE hk) (keeps_ite (keeps_dictBody hk) (keeps_ite
    (keeps_payloadRow hk) hk)))))

theorem keeps_islandRead {ctx a n : Nat} (hk : Keeps κ σ τ) : Keeps κ σ (islandRead ctx a n τ).2 := by
  unfold islandRead
  extract_lets s
  have entry : Keeps κ σ s := keeps_readEntry hk
  split
  · exact keeps_unitRead (keeps_unitUse entry)
  · split
    · exact entry
    · exact entry

theorem keeps_setStaged {f : FlashSlot} (hk : Keeps κ σ τ) : Keeps κ σ (setStaged f τ) := by
  unfold setStaged
  exact hk.upd rfl

theorem keeps_stageWaits {ctx q : Nat} (hk : Keeps κ σ τ) : Keeps κ σ (stageWaits ctx q τ) := by
  unfold stageWaits
  exact keeps_noteMiss (keeps_setIsland hk)

theorem keeps_stageFails {reason : Nat} (hk : Keeps κ σ τ) : Keeps κ σ (stageFails reason τ) := by
  unfold stageFails
  exact keeps_setIsland (keeps_setStaged hk)

theorem keeps_stageBody {ctx a : Nat} {hb : List Byte} (hk : Keeps κ σ τ) : Keeps κ σ (stageBody ctx a hb τ) := by
  unfold stageBody
  split
  · rename_i u0 e2
    have hu1 := keeps_of_eq e2 (keeps_islandRead hk)
    exact keeps_stageWaits hu1
  · rename_i u3 e5
    have hu4 := keeps_of_eq e5 (keeps_islandRead hk)
    exact keeps_stageFails hu4
  · rename_i u6 e8
    have hu7 := keeps_of_eq e8 (keeps_islandRead hk)
    exact keeps_stageFails hu7
  · rename_i u9 e11
    have hu10 := keeps_of_eq e11 (keeps_islandRead hk)
    exact keeps_ite (keeps_setIsland (keeps_setStaged hu10)) (keeps_stageFails hu10)

end

end Sys2Proof.Machine

/-! ## What the functions of the model keep, callees before callers: part 5 of 7 -/

namespace Sys2Proof.Machine

open Sys2Proof.Safety

section
variable {κ : Bool} {σ τ : State}

theorem keeps_fwStageDone (hk : Keeps κ σ τ) : Keeps κ σ (fwStageDone τ) := by
  unfold fwStageDone
  split
  · exact hk
  · split
    · exact keeps_stageFails hk
    · dsimp only
      split
      · rename_i u0 e2
        have hu1 := keeps_of_eq e2 (keeps_islandRead hk)
        exact keeps_stageWaits hu1
      · rename_i u3 e5
        have hu4 := keeps_of_eq e5 (keeps_islandRead hk)
        exact keeps_stageFails hu4
      · rename_i u6 e8
        have hu7 := keeps_of_eq e8 (keeps_islandRead hk)
        exact keeps_stageFails hu7
      · rename_i u9 e11
        have hu10 := keeps_of_eq e11 (keeps_islandRead hk)
        exact keeps_ite (keeps_stageFails hu10) (keeps_stageBody hu10)

theorem keeps_rawWriteRow {w : Who} {a v : Nat} (hk : Keeps false σ τ) : Keeps false σ (rawWriteRow w a v τ) := by
  unfold rawWriteRow
  exact keeps_served (fun _ => keeps_answer (keeps_rawWrite (Keeps.refl _))) hk

theorem keeps_mmRepeatDone {c : Nat} {i : Issued} (hk : Keeps κ σ τ) : Keeps κ σ (mmRepeatDone c i τ) := by
  unfold mmRepeatDone
  exact keeps_ite (keeps_endOk (keeps_repeatSignal (hk.upd rfl))) (keeps_setHead (keeps_repeatSignal (hk.upd rfl)))

theorem keeps_tileDone {sat nan : Bool} (hk : Keeps κ σ τ) : Keeps κ σ (tileDone sat nan τ) := by
  unfold tileDone
  exact keeps_ite (keeps_bumpE (keeps_ite (keeps_bumpE hk) hk)) (keeps_ite (keeps_bumpE hk) hk)

theorem keeps_parcelApplied {c : Nat} (hk : Keeps κ σ τ) : Keeps κ σ (parcelApplied c τ) := by
  unfold parcelApplied
  exact keeps_setRelay hk

theorem along_mmWork (e : Env) (o : MmOps) : Along (Keeps κ) (mmPart e o) :=
  along_mmPart keeps_writes (allows_any _) (fun _ _ _ => keeps_finishTile (Keeps.refl _)) (fun _ _ => keeps_parcelApplied (Keeps.refl _)) o

theorem keeps_mmKeep {c : Nat} {o : MmOps} {j : List Ev} (hk : Keeps κ σ τ) : Keeps κ σ (mmKeep c o j τ) := by
  unfold mmKeep
  exact keeps_setHead (hk.upd rfl)

theorem keeps_mmLoop {c : Nat} {i : Issued} {n : Nat} {o : MmOps} {j : List Ev} (hk : Keeps κ σ τ) : Keeps κ σ (mmLoop c i n o j τ) := by
  induction n generalizing o j τ with
  | zero => exact keeps_mmKeep hk
  | succ n ih =>
    rw [mmLoop]
    refine keeps_ite (keeps_ite (keeps_mmKeep hk) (keeps_mmRepeatDone hk)) (keeps_ite (keeps_mmKeep hk) ?_)
    split
    next h => exact keeps_ite (keeps_mmKeep (keeps_ran h (along_mmWork ..) hk)) (ih ((keeps_ran h (along_mmWork ..) hk).upd rfl))
    next h => exact keeps_mmFault (keeps_stopped h (along_mmWork ..) hk)
    next h => exact keeps_holdHead (keeps_mmKeep (keeps_stopped h (along_mmWork ..) hk))

theorem keeps_mmRun {c : Nat} {i : Issued} {o : MmOps} (hk : Keeps κ σ τ) : Keeps κ σ (mmRun c i o τ) := by
  unfold mmRun
  exact keeps_mmLoop hk

theorem keeps_mmRow {c : Nat} (hk : Keeps κ σ τ) : Keeps κ σ (mmRow c τ) := by
  unfold mmRow
  have issue (i : Issued) : Along (Keeps κ) (do
      let o ← mmIssue c i i.progress
      arrSealBound (envOf c .mm i) o
      pure o) :=
    keeps_reads.bind (along_mmIssue keeps_reads ..) fun _ => keeps_reads.bind (along_arrSealBound keeps_reads ..) fun _ => keeps_reads.pure _
  split
  · exact hk
  · split
    · exact keeps_ite hk (keeps_mmRun hk)
    · refine keeps_ite hk ?_
      split
      next h => exact keeps_mmRun (keeps_ran h (issue _) hk)
      next h => exact keeps_mmFault (keeps_stopped h (issue _) hk)
      next h => exact keeps_holdHead (keeps_stopped h (issue _) hk)

theorem keeps_semUncommit (hk : Keeps κ σ τ) : Keeps κ σ (semUncommit τ) := by
  unfold semUncommit
  exact keeps_ite (keeps_semEnd (hk.upd rfl)) (hk.upd rfl)

theorem keeps_fwActivateDone (hk : Keeps κ σ τ) : Keeps κ σ (fwActivateDone τ) := by
  unfold fwActivateDone
  exact keeps_ite (keeps_semUncommit (keeps_setIsland (hk.upd rfl))) hk

theorem keeps_deadLetter {c reason e : Nat} (hk : Keeps κ σ τ) : Keeps κ σ (deadLetter c reason e τ) := by
  unfold deadLetter
  exact keeps_deadLetterQ hk

theorem keeps_receiptArrival {n : Nat} (hk : Keeps κ σ τ) : Keeps κ σ (receiptArrival n τ) := by
  unfold receiptArrival
  split
  · exact hk
  · exact keeps_ite (keeps_ite (keeps_setMailbox (hk.upd rfl)) (keeps_deadLetter (hk.upd rfl))) (keeps_routeEnv (hk.upd rfl))

theorem keeps_ctrlSealBind {c ctx : Nat} (hk : Keeps κ σ τ) : Keeps κ σ (ctrlSealBind c ctx τ) := by
  unfold ctrlSealBind
  refine keeps_ctrlRow (fun _ _ => ?_) hk
  · dsimp only
    split
    · exact keeps_ctrlHalt (Keeps.refl _)
    · exact keeps_setStream (keeps_ctrlDone (Keeps.refl _))

theorem keeps_jobHeaderReceive {d m : Nat} {h : Option JobHeader} (hk : Keeps κ σ τ) : Keeps κ σ (jobHeaderReceive d m h τ) := by
  unfold jobHeaderReceive
  exact keeps_advanceJob (keeps_peerMessage hk)

theorem keeps_tilePush {c : Nat} (hk : Keeps κ σ τ) : Keeps κ σ (tilePush c τ) := by
  unfold tilePush
  split
  · exact hk
  · refine keeps_ite hk ?_
    extract_lets t s u
    have done : Keeps κ σ u := keeps_tileDone (keeps_setCore hk)
    clear_value u
    split
    · split
      · exact keeps_ite (keeps_mmRepeatDone done) done
      · exact done
    · exact done

theorem keeps_setStalled {c : Nat} {b : Bool} (hk : Keeps κ σ τ) : Keeps κ σ (setStalled c b τ) := by
  unfold setStalled
  exact keeps_ite (keeps_setCore hk) hk

theorem keeps_endStall {c ctx : Nat} (hk : Keeps κ σ τ) : Keeps κ σ (endStall c ctx τ) := by
  unfold endStall
  exact keeps_ite (keeps_setStalled hk) hk

theorem keeps_stampFault {c : Nat} {i : Issued} {f : FaultInfo} (hk : Keeps κ σ τ) : Keeps κ σ (stampFault c i f τ) := by
  unfold stampFault
  exact keeps_endFault (keeps_endStall hk)

theorem keeps_stampRefused {c ctx : Nat} {r : Reason} {v : Nat} (hk : Keeps κ σ τ) : Keeps κ σ (stampRefused c ctx r v τ) := by
  unfold stampRefused
  split
  · exact keeps_stampFault hk
  · exact keeps_markAnswered hk

theorem keeps_grantTo {c ctx m d n : Nat} (hk : Keeps κ σ τ) : Keeps κ σ (grantTo c ctx m d n τ) := by
  unfold grantTo
  split
  · exact keeps_returnToPool (keeps_setAccount hk)
  · exact keeps_setCore hk

theorem keeps_finishGrant {c ctx m d n : Nat} (hk : Keeps κ σ τ) : Keeps κ σ (finishGrant c ctx m d n τ) := by
  unfold finishGrant
  split
  · exact keeps_stampRefused (keeps_returnToPool hk)
  · dsimp only
    split
    · exact keeps_msgRepeatDone (keeps_endStall (keeps_grantTo hk))
    · exact keeps_markAnswered (keeps_endStall (keeps_grantTo hk))

theorem keeps_stampPacket {src : Nat} {k : Packet} (hk : Keeps κ σ τ) : Keeps κ σ (stampPacket src k τ) := by
  unfold stampPacket
  split
  · exact keeps_ite (keeps_setCore hk) (keeps_sendPacket hk)
  · exact keeps_finishGrant hk
  · exact keeps_setCore hk
  · exact keeps_stampRefused hk

theorem keeps_sealPacket {src : Nat} {k : Packet} (hk : Keeps κ σ τ) : Keeps κ σ (sealPacket src k τ) := by
  unfold sealPacket
  exact keeps_ite (keeps_ite (hk.upd rfl) (keeps_routeTo hk)) (keeps_ite (keeps_stampPacket hk) (keeps_ite (keeps_ite (keeps_routeTo
    hk) (keeps_routeTo hk)) (keeps_ite (keeps_importResponse hk) (keeps_routeTo hk))))

theorem keeps_readResponse {src : Nat} {k : Packet} (hk : Keeps κ σ τ) : Keeps κ σ (readResponse src k τ) := by
  unfold readResponse
  exact keeps_ite (keeps_writeFault hk) (hk.upd rfl)

theorem keeps_envelopeCancel {e : Nat} (hk : Keeps κ σ τ) : Keeps κ σ (envelopeCancel e τ) := by
  unfold envelopeCancel
  exact hk.upd rfl

theorem keeps_answerEnv {code e : Nat} (hk : Keeps κ σ τ) : Keeps κ σ (answerEnv code e τ) := by
  unfold answerEnv
  exact keeps_routeTo hk

theorem keeps_releaseReply {c e : Nat} (hk : Keeps κ σ τ) : Keeps κ σ (releaseReply c e τ) := by
  unfold releaseReply
  exact keeps_ite (keeps_setMailbox hk) hk

theorem keeps_sendFails {f : EnvFlight} (hk : Keeps κ σ τ) : Keeps κ σ (sendFails f τ) := by
  unfold sendFails
  dsimp only
  split
  · exact keeps_endFault (keeps_releaseReply (keeps_endStall hk))
  · exact keeps_setWaiting (keeps_releaseReply (keeps_endStall hk))

theorem keeps_stallWith {c e : Nat} (hk : Keeps κ σ τ) : Keeps κ σ (stallWith c e τ) := by
  unfold stallWith
  exact keeps_ite (keeps_setCore (keeps_setStalled hk)) hk

theorem keeps_dropFlight {n : Nat} (hk : Keeps κ σ τ) : Keeps κ σ (dropFlight n τ) := by
  unfold dropFlight
  exact hk.upd rfl

theorem keeps_setFlight {n : Nat} {f : EnvFlight → EnvFlight} (hk : Keeps κ σ τ) : Keeps κ σ (setFlight n f τ) := by
  unfold setFlight
  exact hk.upd rfl

theorem keeps_envGone {f : EnvFlight} (hk : Keeps κ σ τ) : Keeps κ σ (envGone f τ) := by
  unfold envGone
  split
  · exact keeps_answerEnv hk
  · dsimp only
    split
    · exact keeps_msgRepeatDone (keeps_endStall hk)
    · exact keeps_setWaiting (keeps_endStall hk)

theorem keeps_envelopeAnswer {code e : Nat} (hk : Keeps κ σ τ) : Keeps κ σ (envelopeAnswer code e τ) := by
  unfold envelopeAnswer
  split
  · exact hk
  · split
    · exact hk
    · exact keeps_ite (keeps_envGone (keeps_dropFlight hk)) (keeps_ite (keeps_ite (keeps_stallWith (keeps_setFlight hk))
        (keeps_setFlight hk)) (keeps_ite (keeps_routeEnv (keeps_setFlight hk)) (keeps_sendFails (keeps_dropFlight hk))))

theorem keeps_envelopePacket {k : Packet} (hk : Keeps κ σ τ) : Keeps κ σ (envelopePacket k τ) := by
  unfold envelopePacket
  split
  · exact keeps_ite (keeps_ite (hk.upd rfl) (hk.upd rfl)) (keeps_ite (keeps_answerEnv (keeps_routeEnv hk)) (keeps_routeEnv hk))
  · exact keeps_ite (keeps_envelopeCancel hk) (keeps_routeTo hk)
  · exact keeps_ite (keeps_envelopeAnswer hk) (keeps_routeTo hk)

theorem keeps_relayPage {ctx page : Nat} {mods : List Nat} {bs : List Byte} (hk : Keeps κ σ τ) : Keeps κ σ (relayPage ctx page mods bs
    τ) := by
  unfold relayPage
  split
  · exact hk
  · exact keeps_foldl (fun _ _ => keeps_sendPacket (Keeps.refl _)) hk

/-- The size of a page is named before the body is applied: comparing the two sides, the kernel would count it out. -/
theorem keeps_servePage {ctx page : Nat} (hk : Keeps κ σ τ) : Keeps κ σ (servePage ctx page τ) := by
  generalize hf : @servePage = f
  delta servePage at hf
  obtain ⟨size, hs⟩ := named (2 ^ 21 : Nat)
  rw [hs] at hf
  subst hf
  dsimp only
  split
  · exact keeps_ite hk (keeps_relayPage ((keeps_unitRead (keeps_unitUse hk)).upd rfl))
  · exact hk

theorem keeps_answerReq {src : Nat} {k : Packet} {u : State} (hk : Keeps κ σ τ) (h : answerReq src k τ = some u) : Keeps κ σ u := by
  unfold answerReq at h
  dsimp only at h
  split at h
  · cases h
    exact keeps_foldl (fun _ _ => keeps_sendPacket (Keeps.refl _)) (keeps_unitRead (keeps_unitUse hk))
  · split at h
    · cases h
    · cases h
      exact keeps_sendPacket hk
    · cases h
      exact keeps_sendPacket hk

theorem keeps_takeAsk {src : Nat} {k : Packet} (hk : Keeps κ σ τ) : Keeps κ σ (takeAsk src k τ) := by
  unfold takeAsk
  have asked : Keeps κ σ { τ with asks := τ.asks ++ [(src, k)] } := hk.upd rfl
  obtain ⟨fault, hf⟩ := named (unitFault τ k.ctx false k.addr (2 ^ 21))
  rw [hf]
  split
  · split
    · exact keeps_noteMiss asked
    · exact hk
    · exact keeps_servePage asked
  · split
    next h => exact keeps_answerReq hk h
    next =>
      split
      · exact keeps_noteMiss asked
      · exact hk

theorem keeps_burstApply {ps : List (Nat × Nat)} {b : RemoteBurst} (hk : Keeps κ σ τ) : Keeps κ σ (burstApply ps b τ) := by
  unfold burstApply
  extract_lets s
  have used : Keeps κ σ s := keeps_unitUse hk
  exact keeps_ite (keeps_addTotal (keeps_unitWrite (keeps_unitRead used))) (keeps_unitWrite used)

theorem keeps_burstAnswer {b : RemoteBurst} {f : Nat} (hk : Keeps κ σ τ) : Keeps κ σ (burstAnswer b f τ) := by
  unfold burstAnswer
  exact keeps_ite (keeps_ite (keeps_sendPacket hk) hk) (keeps_sendPacket (keeps_ite (keeps_sendPacket hk) hk))

theorem keeps_remoteBurstWrite {n : Nat} (hk : Keeps κ σ τ) : Keeps κ σ (remoteBurstWrite n τ) := by
  unfold remoteBurstWrite
  split
  · exact hk
  · split
    · exact hk
    · split
      · exact keeps_ite (keeps_tearLine (hk.upd rfl)) (hk.upd rfl)
      · split
        · exact keeps_ite (keeps_burstAnswer (keeps_stageRec (keeps_bumpE (hk.upd rfl)))) (keeps_burstAnswer (keeps_burstApply (hk.upd
            rfl)))
        · split
          · exact keeps_noteMiss hk
          · exact keeps_burstAnswer (hk.upd rfl)
          · exact keeps_burstAnswer (hk.upd rfl)

theorem keeps_writePacket {src : Nat} {k : Packet} (hk : Keeps κ σ τ) : Keeps κ σ (writePacket src k τ) := by
  unfold writePacket
  exact keeps_ite (keeps_ite hk (hk.upd rfl)) (keeps_ite hk (keeps_ite (hk.upd rfl) (keeps_remoteBurstWrite (hk.upd rfl))))

theorem keeps_deliver {src : Nat} {k : Packet} (hk : Keeps κ σ τ) : Keeps κ σ (deliver src k τ) := by
  unfold deliver
  split
  · exact keeps_writePacket hk
  · exact keeps_takeAsk hk
  · exact keeps_readResponse hk
  · exact keeps_envelopePacket hk
  · exact keeps_sealPacket hk
  · exact keeps_relayPacketIn hk
  · exact hk

theorem keeps_relayFrame {bs : List Byte} (hk : Keeps κ σ τ) : Keeps κ σ (relayFrame bs τ) := by
  unfold relayFrame
  exact keeps_ite hk (keeps_foldl (fun _ _ => keeps_ite (keeps_ite (keeps_stageRec (keeps_bumpE (Keeps.refl _))) (keeps_ite
    (keeps_deliver (Keeps.refl _)) (Keeps.refl _))) (Keeps.refl _)) hk)

theorem keeps_weniusFrame {p : Path} {bs : List Byte} (hk : Keeps false σ τ) : Keeps false σ (weniusFrame p bs τ) := by
  unfold weniusFrame
  split
  · exact keeps_dictBody hk
  · exact keeps_payloadRow hk
  · exact keeps_ite (keeps_relayFrame hk) hk
  · exact hk

theorem keeps_dictFrame {p : Path} {bs : List Byte} (hk : Keeps false σ τ) : Keeps false σ (dictFrame p bs τ) := by
  unfold dictFrame
  split
  · exact hk
  · split
    · exact keeps_weniusFrame hk
    · split
      · exact keeps_ethFrameDrop hk
      · exact keeps_bumpE hk

theorem keeps_setEngine {r : Nat} {f : StreamEngine → StreamEngine} (hk : Keeps κ σ τ) : Keeps κ σ (setEngine r f τ) := by
  unfold setEngine
  exact hk.upd (by simp [frame, sizes])

theorem along_submit (weight : Bool) (ok : Nat → Bool) (c : Nat) (i : Issued) (r : Nat) : Along (Keeps κ) (submit weight ok c i r) := by
  unfold submit
  refine keeps_reads.bind (along_needE keeps_reads ..) fun _ => ?_
  refine keeps_reads.bind keeps_reads.get fun _ => ?_
  extract_lets +onlyGivenNames -underBinder -merge -useContext jp0
  have hjp1 : ∀ x, Along (Keeps κ) (jp0 x) := by
    intro x
    exact keeps_reads.bind (along_act keeps_reads (fun _ => keeps_setEngine (Keeps.refl _)) ..) fun _ => keeps_reads.pure _
  clear_value jp0
  exact along_ite (keeps_reads.bind (keeps_reads.throw _) fun _ => hjp1 _) (hjp1 _)

theorem keeps_keyStreamRow {c : Nat} (hk : Keeps κ σ τ) : Keeps κ σ (keyStreamRow c τ) := by
  unfold keyStreamRow
  exact keeps_runEngine (fun _ _ => along_submit ..) hk

theorem keeps_enginePause {r : Nat} {stop : Stop} {j : List Ev} (hk : Keeps κ σ τ) : Keeps κ σ (enginePause r stop j τ) := by
  unfold enginePause
  split
  · exact keeps_noteMiss (keeps_setEngine hk)
  · exact keeps_setEngine hk

theorem along_keyBytes (r a n : Nat) : Along (Keeps κ) (keyBytes r a n) := by
  unfold keyBytes
  exact along_act keeps_reads (fun _ => keeps_setEngine (Keeps.refl _)) ..

theorem along_checkRecord (e : Env) (r : Nat) (k : KeyRec) : Along (Keeps κ) (checkRecord e r k) := by
  unfold checkRecord
  exact keeps_reads.bind (along_needE keeps_reads ..) fun _ => along_ite (keeps_reads.bind (along_loadWord keeps_reads ..) fun _ =>
    keeps_reads.bind (along_keyBytes ..) fun _ => keeps_reads.bind (along_needE keeps_reads ..) fun _ => keeps_reads.bind (along_needE
    keeps_reads ..) fun _ => keeps_reads.pure _) (keeps_reads.pure _)

theorem along_readRecord (e : Env) (r a : Nat) : Along (Keeps κ) (readRecord e r a) := by
  unfold readRecord
  exact keeps_reads.bind (along_loadWord keeps_reads ..) fun _ => keeps_reads.bind (along_keyBytes ..) fun _ => keeps_reads.bind
    (along_needE keeps_reads ..) fun _ => keeps_reads.pure _

theorem along_readKeyRecs (e : Env) (r gr ch : Nat) (act : List Nat) (k : KeyEntry) : Along (Keeps κ) (readKeyRecs e r gr ch act k) :=
    by
  unfold readKeyRecs
  exact keeps_reads.bind (along_readRecord ..) fun _ => keeps_reads.bind keeps_reads.get fun _ => keeps_reads.bind (along_mapE
    keeps_reads (fun _ => keeps_reads.bind (along_readRecord ..) fun _ => keeps_reads.pure _) ..) fun _ => keeps_reads.pure _

theorem along_keyChecks (e : Env) (r : Nat) (n : BitVec 16) (i : Issued) : Along (Keeps κ) (keyChecks e r n i) := by
  unfold keyChecks
  exact keeps_reads.bind (along_readKeyList keeps_reads ..) fun _ => keeps_reads.bind (along_readReference keeps_reads ..) fun _ => keeps_reads.bind
    keeps_reads.get fun _ => keeps_reads.bind (along_mapE keeps_reads (fun _ => along_readKeyRecs ..) ..) fun _ => keeps_reads.bind
    (along_mapE keeps_reads (fun _ => along_checkRecord ..) ..) fun _ => keeps_reads.bind keeps_reads.get fun _ => keeps_reads.bind
    (along_firstFail keeps_reads ..) fun _ => keeps_reads.bind (along_firstFail keeps_reads ..) fun _ => keeps_reads.bind (along_firstFail keeps_reads ..) fun _ =>
    keeps_reads.bind (along_firstFail keeps_reads ..) fun _ => keeps_reads.bind (along_firstFail keeps_reads ..) fun _ => keeps_reads.pure _

theorem keeps_courierRec {r : Nat} {q : StreamReq} {f : FaultInfo} {detail : Nat} (hk : Keeps κ σ τ) : Keeps κ σ (courierRec r q f
    detail τ) := by
  unfold courierRec
  exact keeps_stageRec (keeps_bumpE hk)

theorem keeps_streamStart {r : Nat} (hk : Keeps κ σ τ) : Keeps κ σ (streamStart r τ) := by
  unfold streamStart
  refine keeps_ite ?_ hk
  split
  · exact hk
  · refine keeps_ite ?_ hk
    dsimp only
    have checks (b : Bool) (e : Env) (n : BitVec 16) (i : Issued) : Along (Keeps κ) (if b then weightChecks e n i else keyChecks e r n i) :=
      along_ite (along_weightChecks keeps_reads ..) (along_keyChecks ..)
    split
    next h => exact keeps_setEngine (keeps_ran h (checks ..) hk)
    next h => exact keeps_courierRec (keeps_setEngine (keeps_stopped h (checks ..) hk))
    next h => exact keeps_enginePause (keeps_stopped h (checks ..) hk)

theorem keeps_noteCheckFail {own e : Nat} (hk : Keeps κ σ τ) : Keeps κ σ (noteCheckFail own e τ) := by
  unfold noteCheckFail
  exact keeps_stageRec (keeps_bumpE hk)

theorem keeps_acceptEnv {e : Nat} (hk : Keeps κ σ τ) : Keeps κ σ (acceptEnv e τ) := by
  unfold acceptEnv
  exact keeps_ite (keeps_sendReceipt (keeps_setMailbox (keeps_trace hk))) (keeps_setOffice (keeps_trace hk))

theorem keeps_envelopeArrival {n : Nat} {received : BitVec 256} (hk : Keeps κ σ τ) : Keeps κ σ (envelopeArrival n received τ) := by
  unfold envelopeArrival
  split
  · exact hk
  next f _ =>
    extract_lets +onlyGivenNames own e s t
    have noted : Keeps κ σ s := keeps_noteCheckFail hk
    have stalled : Keeps κ σ t := keeps_setFlight hk
    clear_value own e s t
    refine keeps_ite hk (keeps_ite ?_ ?_)
    · refine keeps_ite (keeps_answerEnv (keeps_dropFlight noted)) (keeps_ite ?_ (keeps_sendFails (keeps_dropFlight noted)))
      exact keeps_setFlight noted
    · split
      · exact keeps_envGone (keeps_acceptEnv (keeps_dropFlight hk))
      · exact keeps_envGone (keeps_deadLetter (keeps_dropFlight hk))
      · exact keeps_ite hk (keeps_ite (keeps_answerEnv stalled) (keeps_stallWith stalled))

theorem keeps_noteEffect {ctx : Nat} (hk : Keeps κ σ τ) : Keeps κ σ (noteEffect ctx τ) := by
  unfold noteEffect
  split
  · exact keeps_ite (hk.upd rfl) hk
  · exact hk

theorem keeps_kill {ctx : Nat} (hk : Keeps κ σ τ) : Keeps κ σ (kill ctx τ) := by
  unfold kill
  split
  · exact keeps_ite (keeps_ite (keeps_endExpress (keeps_readEntry hk)) (keeps_setContext (keeps_killContext (keeps_noteEffect
      (keeps_readEntry hk))))) hk
  · exact hk

theorem keeps_sendFetch {n : Nat} {f : Fetch} (hk : Keeps κ σ τ) : Keeps κ σ (sendFetch n f τ) := by
  unfold sendFetch
  dsimp only
  split
  · exact hk
  · exact keeps_ite hk (keeps_emit (keeps_setQp (hk.upd (by simp [frame, sizes]))))

theorem keeps_dropFetch {n : Nat} {f : Fetch} (hk : Keeps κ σ τ) : Keeps κ σ (dropFetch n f τ) := by
  unfold dropFetch
  exact keeps_freeFrames (hk.upd (by simp [frame, sizes]))

theorem keeps_failAsks {ctx page : Nat} {r : Reason} (hk : Keeps κ σ τ) : Keeps κ σ (failAsks ctx page r τ) := by
  unfold failAsks
  exact keeps_foldl (fun _ _ => keeps_sendPacket (Keeps.refl _)) (hk.upd rfl)

theorem keeps_failJobs {ctx page : Nat} {r : Reason} (hk : Keeps κ σ τ) : Keeps κ σ (failJobs ctx page r τ) := by
  unfold failJobs
  exact keeps_ite (hk.upd rfl) hk

theorem keeps_failStreams {ctx page : Nat} {r : Reason} (hk : Keeps κ σ τ) : Keeps κ σ (failStreams ctx page r τ) := by
  unfold failStreams
  exact keeps_foldl (fun _ _ => keeps_setStream (Keeps.refl _)) (keeps_foldl (fun _ _ => keeps_skipBy (Keeps.refl _)) (keeps_foldl
    (fun _ _ => keeps_recordUnread (Keeps.refl _)) hk))

theorem keeps_failWatches {ctx page : Nat} (hk : Keeps κ σ τ) : Keeps κ σ (failWatches ctx page τ) := by
  unfold failWatches
  exact keeps_foldl (fun _ _ => keeps_endResult (Keeps.refl _)) hk

theorem keeps_failWaiters {ctx page : Nat} {r : Reason} (hk : Keeps κ σ τ) : Keeps κ σ (failWaiters ctx page r τ) := by
  unfold failWaiters
  exact hk.upd (by simp [frame, sizes])

theorem keeps_failReads {ctx page : Nat} (hk : Keeps κ σ τ) : Keeps κ σ (failReads ctx page τ) := by
  unfold failReads
  exact keeps_foldl (fun _ _ => keeps_foldl (fun _ _ => keeps_sendNak (keeps_setQp (Keeps.refl _))) (Keeps.refl _)) hk

theorem keeps_failIsland {ctx page : Nat} (hk : Keeps κ σ τ) : Keeps κ σ (failIsland ctx page τ) := by
  unfold failIsland
  exact keeps_setIsland hk

theorem keeps_giveUp {ctx page : Nat} {r : Reason} (hk : Keeps κ σ τ) : Keeps κ σ (giveUp ctx page r τ) := by
  unfold giveUp
  exact keeps_failIsland (keeps_failJobs (keeps_failStreams (keeps_failAsks (keeps_failReads (keeps_failWatches (keeps_failWaiters
    hk))))))

theorem keeps_retryFetch {n : Nat} {f : Fetch} (hk : Keeps κ σ τ) : Keeps κ σ (retryFetch n f τ) := by
  unfold retryFetch
  have again (x : Option Fetch) : Keeps κ σ { τ with fetches := τ.fetches.set n x } := hk.upd (by simp [frame, sizes])
  exact keeps_ite (keeps_dropFetch hk) (keeps_ite (keeps_ite (keeps_sendPacket (again _)) (keeps_sendFetch (again _)))
    (keeps_giveUp (keeps_bumpE (keeps_dropFetch hk))))

theorem keeps_resendFrom {port qpn : Nat} {l : List (BitVec 24)} (hk : Keeps κ σ τ) : Keeps κ σ (resendFrom port qpn l τ) := by
  unfold resendFrom
  exact keeps_foldl (fun _ _ => keeps_emit (Keeps.refl _)) hk

theorem keeps_roceTimeout {port qpn : Nat} (hk : Keeps κ σ τ) : Keeps κ σ (roceTimeout port qpn τ) := by
  unfold roceTimeout
  split
  · exact hk
  · split
    · exact hk
    · split
      · exact keeps_resendFrom (keeps_setQp hk)
      · refine keeps_foldl (fun _ _ => ?_) (keeps_setQp hk)
        split
        · exact keeps_ite (keeps_retryFetch (Keeps.refl _)) (Keeps.refl _)
        · exact Keeps.refl _

theorem keeps_sealStale {m : SealMsg} (hk : Keeps κ σ τ) : Keeps κ σ (sealStale m τ) := by
  unfold sealStale
  exact keeps_stageRec (keeps_bumpE hk)

theorem keeps_sealUpdate {n : Nat} (hk : Keeps κ σ τ) : Keeps κ σ (sealUpdate n τ) := by
  unfold sealUpdate
  split
  · exact hk
  · dsimp only
    split
    · exact keeps_sealStale (hk.upd rfl)
    · split
      · exact keeps_routeTo (hk.upd rfl)
      · exact keeps_sealApply (hk.upd rfl)

theorem keeps_freeBytes {n : Nat} (hk : Keeps κ σ τ) : Keeps κ σ (freeBytes n τ).2 := by
  induction n generalizing τ with
  | zero => exact hk
  | succ n ih => exact ih (keeps_draw hk)

theorem keeps_copyRow {c : Nat} (hk : Keeps κ σ τ) : Keeps κ σ (copyRow c τ) := by
  unfold copyRow
  exact keeps_runEngine (fun _ _ => along_copyOne keeps_writes (allows_any _) ..) hk

theorem keeps_ctrlHaltInstr {c ctx : Nat} (hk : Keeps κ σ τ) : Keeps κ σ (ctrlHaltInstr c ctx τ) := by
  unfold ctrlHaltInstr
  exact keeps_ctrlRow (fun _ _ => keeps_ctrlHalt (keeps_setStream (Keeps.refl _))) hk

theorem keeps_setmrl {v : BitVec 16} (hk : Keeps κ σ τ) : Keeps κ σ (setmrl v τ) := by
  unfold setmrl
  exact keeps_setSideband hk

theorem keeps_expressRow {f : Express → State → State} {ctx code : Nat} (hf : ∀ a0 u, Keeps κ u (f a0 u)) (hk : Keeps κ σ τ) : Keeps κ
    σ (expressRow ctx code f τ) := by
  unfold expressRow
  split
  · exact keeps_ite (keeps_ite (keeps_endExpress (keeps_readEntry hk)) ((keeps_readEntry hk).trans (hf _ _))) hk
  · exact hk

theorem keeps_contextResume {ctx : Nat} (hk : Keeps κ σ τ) : Keeps κ σ (contextResume ctx τ) := by
  unfold contextResume
  exact keeps_expressRow (fun _ _ => keeps_ite (keeps_endExpress (keeps_noteEffect (keeps_setContext (keeps_setCtxF (Keeps.refl _)))))
    (keeps_endExpress (Keeps.refl _))) hk

theorem keeps_mapComplete {ctx : Nat} (hk : Keeps κ σ τ) : Keeps κ σ (mapComplete ctx τ) := by
  unfold mapComplete
  split
  · exact hk
  · exact keeps_ite hk (keeps_finishResult (keeps_setContext (keeps_foldl (fun _ _ => keeps_zeroFrames (Keeps.refl _)) (hk.upd rfl))))

theorem keeps_describe {w : Who} {index sub : Nat} (hk : Keeps κ σ τ) : Keeps κ σ (describe w index sub τ) := by
  unfold describe
  exact keeps_served (fun _ => keeps_answer (keeps_describeAccess (Keeps.refl _))) hk

theorem keeps_relayWRow {c : Nat} (hk : Keeps κ σ τ) : Keeps κ σ (relayWRow c τ) := by
  unfold relayWRow
  exact keeps_runEngine (fun _ _ => along_submit ..) hk

theorem keeps_takePlaced {id w0 : Nat} (hk : Keeps κ σ τ) : Keeps κ σ (takePlaced id w0 τ) := by
  unfold takePlaced
  exact keeps_ite (keeps_setContext (keeps_setCtxF hk)) hk

theorem keeps_openContext {id w : Nat} (hk : Keeps κ σ τ) : Keeps κ σ (openContext id w τ) := by
  unfold openContext
  exact keeps_entryWritten (keeps_setContext ((keeps_draw hk).upd rfl))

theorem keeps_relayOpen {q : NormalCmd} {id : Nat} {others : List Nat} (hk : Keeps κ σ τ) : Keeps κ σ (relayOpen q id others τ) := by
  unfold relayOpen
  exact keeps_foldl (fun _ _ => keeps_sendRelay (Keeps.refl _)) (hk.upd rfl)

theorem keeps_moduleRank {w m : Nat} (hk : Keeps κ σ τ) : Keeps κ σ (moduleRank w m τ).2 := by
  unfold moduleRank
  exact keeps_ite_snd hk (keeps_draw hk)

theorem keeps_rankAll {w : Nat} {l : List Nat} (hk : Keeps κ σ τ) : Keeps κ σ (rankAll w l τ).2 := by
  induction l generalizing τ with
  | nil => exact hk
  | cons m r ih => exact ih (keeps_moduleRank hk)

theorem keeps_boardModules {wa w pod board : Nat} (hk : Keeps κ σ τ) : Keeps κ σ (boardModules wa w pod board τ).2 := by
  unfold boardModules
  exact keeps_ite_snd (keeps_rankAll hk) hk

theorem keeps_placementOf {q : NormalCmd} {w : Nat} (hk : Keeps κ σ τ) : Keeps κ σ (placementOf q w τ).2 := by
  unfold placementOf
  exact keeps_ite_snd hk (keeps_foldl_snd (fun _ _ => keeps_boardModules (Keeps.refl _)) hk)

theorem keeps_contextOpen {p : Path} (hk : Keeps κ σ τ) : Keeps κ σ (contextOpen p τ) := by
  unfold contextOpen
  split
  · exact hk
  next q _ =>
    extract_lets +onlyGivenNames s w
    have popped : Keeps κ σ s := keeps_popCmd hk
    clear_value s w
    refine keeps_ite hk ?_
    split
    · exact keeps_finishResult popped
    next id _ =>
      extract_lets +onlyGivenNames t
      have counted : Keeps κ σ t := keeps_ite (keeps_addTotal popped) popped
      clear_value t
      refine keeps_ite (keeps_finishResult counted) (keeps_ite (keeps_finishResult counted) ?_)
      extract_lets u v
      have made : Keeps κ σ v := keeps_setResult (keeps_takePlaced (keeps_openContext counted))
      clear_value v
      exact keeps_ite (keeps_finishResult (keeps_placementOf made)) (keeps_relayOpen (keeps_setContext (keeps_placementOf made)))

theorem keeps_pageAgeTick (hk : Keeps κ σ τ) : Keeps κ σ (pageAgeTick τ) := by
  unfold pageAgeTick
  exact hk.upd rfl

theorem keeps_watch {p : Path} (hk : Keeps κ σ τ) : Keeps κ σ (watch p τ) := by
  unfold watch
  refine keeps_runCmd (fun _ _ => ?_) hk
  · dsimp only
    split
    · exact keeps_endCmd (Keeps.refl _)
    · exact keeps_setResult (keeps_setContext (Keeps.refl _))

theorem along_soCloseOne (c : Nat) (i : Issued) (r : Nat) : Along (Keeps κ) (soCloseOne c i r) := by
  unfold soCloseOne
  exact keeps_reads.bind (along_msgIssue keeps_reads ..) fun _ => keeps_reads.bind keeps_reads.get fun _ => keeps_reads.bind (along_needE
    keeps_reads ..) fun _ => keeps_reads.bind (along_act keeps_reads (fun _ => keeps_closeOffice (Keeps.refl _)) ..) fun _ =>
    keeps_reads.pure _

theorem keeps_soCloseRow {c : Nat} (hk : Keeps κ σ τ) : Keeps κ σ (soCloseRow c τ) := by
  unfold soCloseRow
  split
  · exact hk
  · exact keeps_ite (keeps_setOffice hk) (keeps_runEngine (fun _ _ => along_soCloseOne ..) hk)

theorem along_mbCloseOne (c : Nat) (i : Issued) (r : Nat) : Along (Keeps κ) (mbCloseOne c i r) := by
  unfold mbCloseOne
  exact keeps_reads.bind (along_msgIssue keeps_reads ..) fun _ => keeps_reads.bind keeps_reads.get fun _ => keeps_reads.bind (along_needE
    keeps_reads ..) fun _ => keeps_reads.bind (along_act keeps_reads (fun _ => keeps_closeMailbox (Keeps.refl _)) ..) fun _ =>
    keeps_reads.pure _

theorem keeps_sample {kind : Nat} (hk : Keeps κ σ τ) : Keeps κ σ (sample kind τ).2 := by
  unfold sample
  exact hk.upd rfl

theorem keeps_throttleUpdate {d0 d1 : Nat} (hk : Keeps false σ τ) : Keeps false σ (throttleUpdate d0 d1 τ) := by
  unfold throttleUpdate
  split
  · rename_i u0 e2
    have hu1 := keeps_of_eq e2 (keeps_sample hk)
    split
    · rename_i u3 e5
      have hu4 := keeps_of_eq e5 (keeps_sample hu1)
      split
      · rename_i u6 e8
        have hu7 := keeps_of_eq e8 (keeps_sample hu4)
        split
        · rename_i u9 e11
          have hu10 := keeps_of_eq e11 (keeps_sample hu7)
          split
          · rename_i u12 e14
            have hu13 := keeps_of_eq e14 (keeps_sample hu10)
            split
            · rename_i u15 e17
              have hu16 := keeps_of_eq e17 (keeps_sample hu13)
              split
              · rename_i u18 e20
                have hu19 := keeps_of_eq e20 (keeps_sample hu16)
                exact keeps_ite (keeps_bumpE (keeps_setPower (keeps_setPower (keeps_setDie (keeps_setDie hu19))))) (keeps_setPower
                  (keeps_setPower (keeps_setDie (keeps_setDie hu19))))

theorem keeps_kmStep {α : Type} {c : Nat} {i : Issued} {x : Eng α} {next : α → State → State} (hx : Along (Keeps κ) x)
    (hnext : ∀ v u, Keeps κ u (next v u)) (hk : Keeps κ σ τ) : Keeps κ σ (kmStep c i x next τ) := by
  unfold kmStep
  split
  next h => exact (keeps_ran h hx hk).trans (hnext _ _)
  next h => exact keeps_kmFault (keeps_stopped h hx hk)
  next h => exact keeps_holdHead (keeps_stopped h hx hk)

theorem along_kmMark (e : Env) (was bad : Bool) (d : Obj) : Along (Keeps κ) (kmMark e was bad d) := by
  unfold kmMark
  exact along_ite (along_hdrPoison keeps_writes (allows_any _) ..) (keeps_reads.pure _)

theorem along_kmApply (e : Env) (w r gr ch p g0 : Nat) (x : Parcel) (a d : Obj) (was : Bool) :
    Along (Keeps κ) (kmApply e w r gr ch p g0 x a d was) := by
  unfold kmApply
  refine keeps_reads.bind keeps_reads.get fun _ => keeps_reads.bind (along_mapE keeps_reads (fun _ => ?_) ..) fun _ => ?_
  · refine keeps_reads.bind (along_atGran (along_readGran keeps_reads ..) ..) fun (_, _) => along_mapE keeps_reads (fun _ => ?_) ..
    exact along_ite (keeps_reads.bind (keeps_reads.pure _) fun (_, _) => keeps_reads.pure _)
      (keeps_reads.bind (along_atGran (along_readGran keeps_reads ..) ..) fun (_, _) => keeps_reads.pure _)
  · refine keeps_reads.bind (along_kmMark ..) fun _ => keeps_reads.bind (along_eachE keeps_reads (fun _ => ?_) ..) fun _ => keeps_reads.pure _
    exact along_ite
      (keeps_reads.bind (along_freeGran keeps_reads ..) fun _ => along_atGran (along_writeGran keeps_writes (allows_any _) ..) ..)
      (keeps_reads.bind (keeps_reads.pure _) fun _ => along_atGran (along_writeGran keeps_writes (allows_any _) ..) ..)

theorem along_kmParcel (c : Nat) (i : Issued) (k : KmOps) : Along (Keeps κ) (kmParcel c i k) := by
  unfold kmParcel
  exact keeps_reads.bind (along_streamFor keeps_reads ..) fun _ => keeps_reads.bind (along_nextParcel keeps_reads ..) fun _ =>
    keeps_reads.bind keeps_reads.get fun _ => keeps_reads.bind (along_atGran (along_needE keeps_reads ..) ..) fun _ =>
    keeps_reads.bind (along_atGran (along_needE keeps_reads ..) ..) fun _ =>
    keeps_reads.bind (along_mapE keeps_reads (fun _ => along_kmApply ..) ..) fun _ =>
    keeps_reads.bind (along_act keeps_reads (fun _ => keeps_parcelApplied (Keeps.refl _)) ..) fun _ => keeps_reads.pure _

theorem along_kmStart (c : Nat) (i : Issued) (k : KmOps) : Along (Keeps κ) (kmStart c i k) := by
  unfold kmStart
  exact keeps_reads.bind (along_kmStream keeps_reads ..) fun _ => keeps_reads.bind (along_eachE keeps_reads (fun _ => along_kmMark ..) ..) fun _ =>
    keeps_reads.pure _

theorem keeps_kmHold {c : Nat} {k : KmOps} (hk : Keeps κ σ τ) : Keeps κ σ (kmHold c k τ) := by
  unfold kmHold
  exact keeps_setHead (hk.upd rfl)

theorem keeps_kmAdvance {c : Nat} {i : Issued} {k : KmOps} (hk : Keeps κ σ τ) : Keeps κ σ (kmAdvance c i k τ) := by
  unfold kmAdvance
  exact keeps_ite (keeps_kmStep (along_kmParcel ..) (fun _ _ => keeps_ite (keeps_endOk (keeps_foldl (fun _ _ => keeps_repeatSignal
    (Keeps.refl _)) (Keeps.refl _))) (keeps_kmHold (Keeps.refl _))) hk) (keeps_kmStep (along_kmStart ..) (fun _ _ => keeps_kmHold
    (Keeps.refl _)) hk)

theorem keeps_keyMacRow {c : Nat} (hk : Keeps κ σ τ) : Keeps κ σ (keyMacRow c τ) := by
  unfold keyMacRow
  split
  · exact hk
  · split
    · exact keeps_kmAdvance hk
    · exact keeps_kmStep (along_kmIssue keeps_reads ..) (fun _ _ => keeps_kmHold (Keeps.refl _)) hk

theorem keeps_contextHalt {ctx : Nat} (hk : Keeps κ σ τ) : Keeps κ σ (contextHalt ctx τ) := by
  unfold contextHalt
  exact keeps_expressRow (fun _ _ => keeps_endExpress (keeps_foldl (fun _ _ => keeps_debugHalt (Keeps.refl _)) (keeps_noteEffect
    (Keeps.refl _)))) hk

end

end Sys2Proof.Machine

/-! ## What the functions of the model keep, callees before callers: part 6 of 7 -/

namespace Sys2Proof.Machine

open Sys2Proof.Safety

section
variable {κ : Bool} {σ τ : State}

theorem keeps_ctrlEnd {c ctx : Nat} (hk : Keeps κ σ τ) : Keeps κ σ (ctrlEnd c ctx τ) := by
  unfold ctrlEnd
  exact keeps_ctrlRow (fun _ _ => keeps_ite (keeps_setStream (keeps_ctrlDone (Keeps.refl _))) (keeps_ctrlHalt (Keeps.refl _))) hk

theorem keeps_earlyMessages {d : Nat} (hk : Keeps κ σ τ) : Keeps κ σ (earlyMessages d τ) := by
  unfold earlyMessages
  exact keeps_foldl (fun _ _ => keeps_ite (keeps_peerMessage (Keeps.refl _)) ((Keeps.refl _).upd rfl)) (hk.upd rfl)

theorem keeps_beginJob {a b : Nat} {bad : Option Reason} (hk : Keeps κ σ τ) : Keeps κ σ (beginJob a b bad τ) := by
  unfold beginJob
  exact keeps_earlyMessages (keeps_ite (keeps_setDie (hk.upd (by simp [frame, sizes]))) (keeps_foldl (fun _ _ => keeps_emit (Keeps.refl _))
    (keeps_setDie (hk.upd (by simp [frame, sizes])))))

theorem keeps_auxCheck {ctx b : Nat} (hk : Keeps κ σ τ) : Keeps κ σ (auxCheck ctx b τ).2 := by
  unfold auxCheck
  split
  · exact hk
  · exact keeps_unitRead (keeps_unitUse hk)

theorem keeps_updCheck {ctx b : Nat} (hk : Keeps κ σ τ) : Keeps κ σ (updCheck ctx b τ).2 := by
  unfold updCheck
  dsimp only
  have aux := keeps_auxCheck (ctx := ctx) (b := b) hk
  split
  · exact hk
  · split
    · exact aux
    · exact aux
    · split
      · exact aux
      · split
        · exact aux
        · split
          · exact aux
          · exact aux

theorem keeps_updJobStart (hk : Keeps κ σ τ) : Keeps κ σ (updJobStart τ) := by
  unfold updJobStart
  extract_lets +onlyGivenNames s a
  have entry : Keeps κ σ s := keeps_readEntry hk
  clear_value s a
  refine keeps_ite ?_ entry
  split
  · split
    · exact keeps_updMiss entry
    · exact keeps_ite (keeps_beginJob entry) entry
  next ps _ =>
    obtain ⟨x, hx⟩ := named (unitRead .remote true ps (unitUse (updOwner s) a 128 s))
    have read : Keeps κ σ x.2.2 := hx ▸ keeps_unitRead (keeps_unitUse entry)
    rw [hx]
    refine keeps_ite entry (keeps_ite (keeps_beginJob read) ?_)
    have checked := keeps_updCheck (ctx := updOwner s) (b := ofLe x.1) read
    split
    next h => exact keeps_updMiss (keeps_of_eq h checked)
    next h => exact keeps_beginJob (keeps_of_eq h checked)
    next h => exact keeps_advanceJob (keeps_beginJob (keeps_of_eq h checked))

theorem keeps_watchReady {k : Nat} (hk : Keeps κ σ τ) : Keeps κ σ (watchReady k τ) := by
  unfold watchReady
  dsimp only
  split
  · exact hk
  · split
    · split
      · split
        · exact keeps_noteMiss hk
        · exact keeps_endResult hk
      · exact keeps_finishResult (keeps_unitRead (keeps_unitUse hk))
    · exact hk

theorem keeps_stampGrant {d : Nat} (hk : Keeps κ σ τ) : Keeps κ σ (stampGrant d τ) := by
  unfold stampGrant
  split
  · exact hk
  · exact keeps_ite (keeps_ite (keeps_finishGrant (keeps_setCore hk)) (keeps_sendPacket (keeps_setCore hk))) hk

theorem keeps_lossOfMains {cause : Nat} (hk : Keeps false σ τ) : Keeps false σ (lossOfMains cause τ) := by
  unfold lossOfMains
  exact keeps_mainsOff (keeps_coldReset hk)

theorem keeps_inputFault (hk : Keeps false σ τ) : Keeps false σ (inputFault τ) := by
  unfold inputFault
  exact keeps_lossOfMains (keeps_setPower hk)

theorem keeps_ctrlAgReset {c ctx : Nat} (hk : Keeps κ σ τ) : Keeps κ σ (ctrlAgReset c ctx τ) := by
  unfold ctrlAgReset
  exact keeps_ctrlRow (fun _ _ => keeps_setStream (keeps_ctrlDone (Keeps.refl _))) hk

theorem keeps_getEndpointId (hk : Keeps κ σ τ) : Keeps κ σ (getEndpointId τ) := by
  unfold getEndpointId
  exact keeps_mctpControl hk

theorem keeps_zeroRow {c : Nat} (hk : Keeps κ σ τ) : Keeps κ σ (zeroRow c τ) := by
  unfold zeroRow
  exact keeps_runEngine (fun _ _ => along_zeroOne keeps_writes (allows_any _) ..) hk

theorem keeps_bconvRowCmd {c : Nat} (hk : Keeps κ σ τ) : Keeps κ σ (bconvRowCmd c τ) := by
  unfold bconvRowCmd
  split
  · exact keeps_ite hk (keeps_polyRow (fun _ _ _ => along_polyRun keeps_writes (allows_any _)
      (fun _ _ => along_dataBconv keeps_writes (allows_any _) ..) ..) hk)
  · exact hk

theorem keeps_arrivalChunkMet {c : Nat} (hk : Keeps κ σ τ) : Keeps κ σ (arrivalChunkMet c τ) := by
  unfold arrivalChunkMet
  split
  · exact hk
  · split
    · exact hk
    · split
      · exact hk
      · split
        · exact hk
        · exact keeps_ite (keeps_setHead hk) hk

theorem keeps_ctrlNop {c ctx : Nat} (hk : Keeps κ σ τ) : Keeps κ σ (ctrlNop c ctx τ) := by
  unfold ctrlNop
  exact keeps_ctrlRow (fun _ _ => keeps_ctrlDone (Keeps.refl _)) hk

theorem keeps_chunkReceive {d k : Nat} {data : List Word32} {poisoned crcOk : Bool} (hk : Keeps κ σ τ) : Keeps κ σ (chunkReceive d k
    data poisoned crcOk τ) := by
  unfold chunkReceive
  split
  · exact hk
  · exact keeps_ite (keeps_advanceJob (keeps_setJob (keeps_ite hk (keeps_bumpE hk)))) hk

theorem keeps_ethTrainingDone {port : Nat} (hk : Keeps κ σ τ) : Keeps κ σ (ethTrainingDone port τ) := by
  unfold ethTrainingDone
  exact keeps_ite (keeps_setEth hk) hk

theorem keeps_pwrEnAssert (hk : Keeps false σ τ) : Keeps false σ (pwrEnAssert τ) := by
  unfold pwrEnAssert
  exact keeps_ite hk (keeps_startMains (keeps_setPower hk))

theorem keeps_syncSent {d peer link : Nat} (hk : Keeps κ σ τ) : Keeps κ σ (syncSent d peer link τ) := by
  unfold syncSent
  exact keeps_trace hk

theorem keeps_syncOver {d p : Nat} (hk : Keeps κ σ τ) : Keeps κ σ (syncOver d p τ) := by
  unfold syncOver
  split
  · exact keeps_ite (keeps_syncSent (keeps_sendOn hk)) hk
  · exact hk

theorem keeps_syncMarkSend {d : Nat} (hk : Keeps κ σ τ) : Keeps κ σ (syncMarkSend d τ) := by
  unfold syncMarkSend
  refine keeps_ite hk ?_
  extract_lets s t u parent
  have begun : Keeps κ σ s := hk.upd rfl
  have sent : Keeps κ σ u := keeps_foldl (fun _ _ => keeps_syncOver (Keeps.refl _)) (keeps_syncSent begun)
  clear_value u parent
  exact keeps_ite (keeps_syncSent (keeps_emit (keeps_draw sent))) sent

theorem keeps_loopPin {c : Nat} (hk : Keeps κ σ τ) : Keeps κ σ (loopPin c τ) := by
  unfold loopPin
  split
  · exact hk
  · split
    · exact keeps_ite (keeps_startLoop (keeps_setCore hk)) hk
    · exact hk

theorem keeps_saveFault {ctx c : Nat} (hk : Keeps κ σ τ) : Keeps κ σ (saveFault ctx c τ) := by
  unfold saveFault
  exact keeps_stageRec (keeps_killContext hk)

theorem keeps_writeAreas {ctx base : Nat} {l : List (Nat × List Byte)} (hk : Keeps κ σ τ) : Keeps κ σ (writeAreas ctx base l τ) := by
  unfold writeAreas
  exact keeps_foldl (fun _ _ => keeps_unitWrite (Keeps.refl _)) hk

theorem keeps_contextSaveDone {c ctx : Nat} (hk : Keeps κ σ τ) : Keeps κ σ (contextSaveDone c ctx τ) := by
  unfold contextSaveDone
  extract_lets +onlyGivenNames x
  refine keeps_ite ?_ hk
  split
  · exact keeps_saveFault hk
  · extract_lets base s t u v
    have begun : Keeps κ σ s := hk.upd rfl
    have saved : Keeps κ σ v := keeps_setCore (keeps_writeAreas (keeps_unitUse (keeps_setStream begun)))
    clear_value v
    exact keeps_ite (keeps_writeBack saved) (keeps_ite (keeps_leftAll saved) saved)

theorem keeps_writeMapped {ctx a : Nat} {bs : List Byte} (hk : Keeps κ σ τ) : Keeps κ σ (writeMapped ctx a bs τ) := by
  unfold writeMapped
  refine keeps_foldl (fun _ _ => ?_) hk
  split
  · exact keeps_unitWrite (keeps_unitUse (Keeps.refl _))
  · exact Keeps.refl _

theorem keeps_bnWrite {j : BnJob} (hk : Keeps κ σ τ) : Keeps κ σ (bnWrite j τ) := by
  unfold bnWrite
  split
  · exact hk
  · dsimp only
    split
    · exact keeps_unitWrite (keeps_unitUse (keeps_writeMapped hk))
    · exact keeps_writeMapped hk

theorem keeps_bnCount {j : BnJob} (hk : Keeps κ σ τ) : Keeps κ σ (bnCount j τ) := by
  unfold bnCount
  exact keeps_ite (keeps_bumpE (keeps_setIsland (keeps_bumpE (keeps_bnWrite hk)))) (keeps_setIsland (keeps_bumpE (keeps_bnWrite hk)))

theorem keeps_bnEnds {j : BnJob} (hk : Keeps κ σ τ) : Keeps κ σ (bnEnds j τ) := by
  unfold bnEnds
  split
  · dsimp only
    split
    · exact keeps_queueIsland (keeps_bnCount hk)
    · exact keeps_bnCount hk
  · exact keeps_bnCount hk

theorem keeps_bnJobEnd (hk : Keeps κ σ τ) : Keeps κ σ (bnJobEnd τ) := by
  unfold bnJobEnd
  dsimp only
  split
  · exact keeps_noteMiss (keeps_setIsland (keeps_foldl (fun _ _ => keeps_bnEnds (Keeps.refl _)) (keeps_setIsland hk)))
  · exact keeps_foldl (fun _ _ => keeps_bnEnds (Keeps.refl _)) (keeps_setIsland (keeps_foldl (fun _ _ => keeps_bnEnds (Keeps.refl _))
      (keeps_setIsland hk)))

theorem keeps_scrubRead {c b : Nat} (hk : Keeps κ σ τ) : Keeps κ σ (scrubRead c b τ) := by
  unfold scrubRead
  exact keeps_ite hk (keeps_setCore (keeps_foldl (fun _ _ => keeps_spCheck (Keeps.refl _)) hk))

theorem keeps_chargeFrames {ctx used : Nat} (hk : Keeps κ σ τ) : Keeps κ σ (chargeFrames ctx used τ) := by
  unfold chargeFrames
  exact keeps_setCtxF hk

theorem keeps_staleFetches {ctx : Nat} {ms : List (Nat × Mapping)} (hk : Keeps κ σ τ) : Keeps κ σ (staleFetches ctx ms τ) := by
  unfold staleFetches
  exact hk.upd (by simp [frame, sizes])

theorem keeps_dropMaps {ctx : Nat} {ms : List (Nat × Mapping)} (hk : Keeps κ σ τ) : Keeps κ σ (dropMaps ctx ms τ) := by
  unfold dropMaps
  exact keeps_foldl (fun _ _ => keeps_ite (keeps_chargeFrames (keeps_freeFrames (Keeps.refl _))) (Keeps.refl _)) (keeps_setContext
    (keeps_staleFetches hk))

theorem keeps_unmap {p : Path} (hk : Keeps κ σ τ) : Keeps κ σ (unmap p τ) := by
  unfold unmap
  exact keeps_runCmd (fun _ _ => keeps_ite (keeps_endCmd (Keeps.refl _)) (keeps_ite (keeps_endCmd (Keeps.refl _)) (keeps_endCmd
    (keeps_dropMaps (keeps_casSome (Keeps.refl _)))))) hk

theorem keeps_ctrlMark {c ctx : Nat} (hk : Keeps κ σ τ) : Keeps κ σ (ctrlMark c ctx τ) := by
  unfold ctrlMark
  exact keeps_ctrlRow (fun _ _ => keeps_trace (keeps_ctrlDone (Keeps.refl _))) hk

theorem keeps_giveSlot {c k ctx : Nat} (hk : Keeps κ σ τ) : Keeps κ σ (giveSlot c k ctx τ) := by
  unfold giveSlot
  exact keeps_setCore (keeps_setStream hk)

theorem keeps_makeResident {ctx : Nat} (hk : Keeps κ σ τ) : Keeps κ σ (makeResident ctx τ) := by
  unfold makeResident
  exact keeps_ite (keeps_setContext (keeps_setCtxF (keeps_casSome (keeps_readEntry hk)))) (keeps_readEntry hk)

theorem keeps_residencyChange (hk : Keeps κ σ τ) : Keeps κ σ (residencyChange τ) := by
  unfold residencyChange
  split
  · exact hk
  · split
    · exact keeps_beginLeave hk
    · split
      · exact keeps_giveSlot hk
      · split
        · exact keeps_stopOn hk
        · split
          · exact hk
          · split
            · exact keeps_makeResident hk
            · split
              · exact keeps_beginLeave hk
              · exact hk

theorem along_recvOne (poll : Bool) (c : Nat) (i : Issued) (r : Nat) : Along (Keeps κ) (recvOne poll c i r) := by
  unfold recvOne
  refine keeps_reads.bind (along_msgIssue keeps_reads ..) fun _ => ?_
  refine keeps_reads.bind keeps_reads.get fun _ => ?_
  refine keeps_reads.bind (along_needE keeps_reads ..) fun _ => ?_
  refine keeps_reads.bind (along_ownAligned keeps_reads ..) fun _ => ?_
  refine keeps_reads.bind keeps_reads.get fun _ => ?_
  extract_lets +onlyGivenNames -underBinder -merge -useContext jp0
  have hjp1 : ∀ x, Along (Keeps κ) (jp0 x) := by
    intro x
    exact keeps_reads.pure _
  clear_value jp0
  split
  · exact along_ite (keeps_reads.bind (along_store keeps_writes (allows_any _) ..) fun _ => hjp1 _) (keeps_reads.bind
      (keeps_reads.throw _) fun _ => hjp1 _)
  · exact keeps_reads.bind (along_store keeps_writes (allows_any _) ..) fun _ => keeps_reads.bind (along_act keeps_reads (fun _ =>
      keeps_setMailbox (Keeps.refl _)) ..) fun _ => hjp1 _

theorem keeps_instructionRetire {c : Nat} (hk : Keeps κ σ τ) : Keeps κ σ (instructionRetire c τ) := by
  unfold instructionRetire
  split
  · split
    · exact keeps_retireOne (keeps_setCore hk)
    · exact hk
  · split
    · exact keeps_endFault hk
    · exact hk

theorem keeps_pickFirst {huge : Bool} {l : List (Nat → Bool)} (hk : Keeps κ σ τ) : Keeps κ σ (pickFirst huge l τ).2 := by
  induction l generalizing τ with
  | nil => exact hk
  | cons p r ih =>
    have picked := keeps_pickPage (huge := huge) (p := p) hk
    rw [pickFirst]
    split
    next h => exact keeps_of_eq h picked
    next h => exact ih (keeps_of_eq h picked)

theorem keeps_allocate {huge : Bool} {place unit first n : Nat} {x : List Nat × State} (h : allocate huge place unit first n τ = some x)
    (hk : Keeps κ σ τ) : Keeps κ σ x.2 := by
  induction n generalizing first τ x with
  | zero =>
    cases h
    exact hk
  | succ n ih =>
    have picked := keeps_pickFirst (huge := huge) (l := placeTests τ place unit first) hk
    rw [allocate] at h
    split at h
    · cases h
    next hp =>
      obtain ⟨y, hy, rfl⟩ := Option.map_eq_some_iff.mp h
      have rest : Keeps κ σ y.2 := ih hy (keeps_takeFrames (keeps_of_eq hp picked))
      exact rest

theorem keeps_mapCmd {p : Path} (hk : Keeps κ σ τ) : Keeps κ σ (mapCmd p τ) := by
  unfold mapCmd
  refine keeps_runCmd (fun q s => ?_) hk
  have entry := Keeps.refl (b := κ) s
  extract_lets a w n huge z unit place
  refine keeps_ite (keeps_endCmd entry) (keeps_ite (keeps_endCmd entry) (keeps_ite (keeps_endCmd entry) ?_))
  split
  · exact keeps_endCmd entry
  next h =>
    split at h
    · cases h
    · exact keeps_chargeFrames ((keeps_casSome (keeps_allocate h entry)).upd rfl)

theorem along_fetchLimb (e : Env) (r : Nat) (x : StreamEngine) (p : Parcel) (half : Nat) : Along (Keeps κ) (fetchLimb e r x p half) :=
    by
  unfold fetchLimb
  exact keeps_reads.bind keeps_reads.get fun _ => keeps_reads.bind (along_mapE keeps_reads (fun _ => keeps_reads.bind (along_loadOn
    keeps_reads ..) fun _ => keeps_reads.bind (along_keyBytes ..) fun _ => keeps_reads.pure _) ..) fun _ => keeps_reads.pure _

theorem along_wantLimbs (e : Env) (r : Nat) (x : StreamEngine) (p : Parcel) (l : List LimbBuf) : Along (Keeps κ) (wantLimbs e r x p l)
    := by
  unfold wantLimbs
  exact along_foldE keeps_reads (fun _ _ => along_ite (keeps_reads.pure _) (keeps_reads.bind (along_fetchLimb ..) fun _ =>
    keeps_reads.pure _)) ..

theorem keeps_readAhead {e : Env} {r n : Nat} (hk : Keeps κ σ τ) : Keeps κ σ (readAhead e r n τ) := by
  induction n generalizing τ with
  | zero => exact hk
  | succ n ih =>
    rw [readAhead]
    dsimp only
    split
    · refine keeps_ite hk ?_
      split
      next h => exact ih (keeps_setEngine (keeps_ran h (along_wantLimbs ..) hk))
      · exact hk
    · exact hk

theorem keeps_voidPorts {r : Nat} {n : BitVec 16} (hk : Keeps κ σ τ) : Keeps κ σ (voidPorts r n τ) := by
  unfold voidPorts
  exact keeps_foldl (fun _ _ => keeps_setRelay (Keeps.refl _)) hk

theorem keeps_voidRest {r : Nat} {p : Parcel} {f : FaultInfo} (hk : Keeps κ σ τ) : Keeps κ σ (voidRest r p f τ) := by
  unfold voidRest
  refine keeps_setEngine ?_
  refine keeps_voidPorts ?_
  split
  · exact keeps_courierRec hk
  · exact hk

theorem along_formKey (e : Env) (r : Nat) (x : StreamEngine) (p : Parcel) : Along (Keeps κ) (formKey e r x p) := by
  unfold formKey
  refine keeps_reads.bind keeps_reads.get fun _ => ?_
  refine along_ite ?_ ?_
  · exact keeps_reads.bind (along_loadOn keeps_reads ..) fun (_, _) => keeps_reads.bind (along_loadOn keeps_reads ..) fun (_, _) =>
      keeps_reads.bind (along_keyBytes ..) fun _ => keeps_reads.pure _
  · refine keeps_reads.bind (along_wantLimbs ..) fun _ => ?_
    split
    · refine along_ite ?_ ?_
      · exact keeps_reads.pure _
      · split
        · exact keeps_reads.pure _

theorem keeps_parcelForm {r : Nat} (hk : Keeps κ σ τ) : Keeps κ σ (parcelForm r τ) := by
  unfold parcelForm
  have formed (b : Bool) (e : Env) (x : StreamEngine) (p : Parcel) : Along (Keeps κ) (if b then do
      let q ← formWeight e x p
      pure (q, [])
    else formKey e r x p) :=
    along_ite (keeps_reads.bind (along_formWeight keeps_reads ..) fun _ => keeps_reads.pure _) (along_formKey ..)
  dsimp only
  split
  · refine keeps_ite ?_ hk
    split
    next h => exact keeps_readAhead (keeps_setEngine (keeps_ran h (formed ..) hk))
    next h => exact keeps_voidRest (keeps_stopped h (formed ..) hk)
    next h => exact keeps_enginePause (keeps_stopped h (formed ..) hk)
  · exact hk

theorem keeps_ctrlAgSet {c ctx : Nat} (hk : Keeps κ σ τ) : Keeps κ σ (ctrlAgSet c ctx τ) := by
  unfold ctrlAgSet
  refine keeps_ctrlRow (fun i s => ?_) hk
  have start := Keeps.refl (b := κ) s
  refine keeps_ite (keeps_ctrlHalt start) ?_
  dsimp only
  split
  next h =>
    have read := keeps_ran h (along_loadWord keeps_reads ..) start
    split
    · exact keeps_ctrlHalt read
    · exact keeps_setStream (keeps_ctrlDone read)
  next h => exact keeps_ctrlHalt (keeps_stopped h (along_loadWord keeps_reads ..) start)
  next h => exact keeps_noteMiss (keeps_setStream (keeps_stopped h (along_loadWord keeps_reads ..) start))
  next h => exact keeps_stopped h (along_loadWord keeps_reads ..) start

theorem keeps_reloadHeldDone {c : Nat} (hk : Keeps κ σ τ) : Keeps κ σ (reloadHeldDone c τ) := by
  unfold reloadHeldDone
  split
  · exact hk
  · exact keeps_carryReload hk

theorem keeps_loseBanks (hk : Keeps κ σ τ) : Keeps κ σ (loseBanks τ) := by
  unfold loseBanks
  exact (hk.setMem wf_filter).upd rfl

theorem keeps_coresToFio (hk : Keeps κ σ τ) : Keeps κ σ (coresToFio τ) := by
  unfold coresToFio
  exact keeps_foldl (fun _ _ => keeps_ite (Keeps.refl _) (keeps_setReg (Keeps.refl _))) (hk.upd rfl)

theorem keeps_pwrExitDone (hk : Keeps false σ τ) : Keeps false σ (pwrExitDone τ) := by
  unfold pwrExitDone
  exact keeps_ite (keeps_ite (keeps_foldl (fun _ _ => keeps_startTraining (Keeps.refl _)) (keeps_tracePower (keeps_setPower (keeps_ite
    (keeps_loseBanks (keeps_coresToFio hk)) (keeps_coresToFio hk))))) (keeps_flushHeld (keeps_tracePower (keeps_setPower (keeps_ite
    (keeps_loseBanks (keeps_coresToFio hk)) (keeps_coresToFio hk)))))) hk

theorem keeps_mtClear {p n : Nat} (hk : Keeps κ σ τ) : Keeps κ σ (mtClear p n τ) := by
  induction n generalizing p τ with
  | zero => exact hk
  | succ n ih =>
    rw [mtClear]
    exact ih (hk.upd rfl)

theorem keeps_mtEvictEnd (hk : Keeps κ σ τ) : Keeps κ σ (mtEvictEnd τ) := by
  unfold mtEvictEnd
  split
  · split
    · split
      · exact keeps_mtFinish hk
      · exact keeps_mtFinish (keeps_mtClear hk)
    · exact hk
  · exact hk

theorem keeps_stampReturn {n : Nat} (hk : Keeps κ σ τ) : Keeps κ σ (stampReturn n τ) := by
  unfold stampReturn
  split
  · exact hk
  · exact keeps_flushOwed (keeps_stampsHome (hk.upd rfl))

theorem keeps_hbmRefresh {k : Nat} {targeted : Bool} (hk : Keeps κ σ τ) : Keeps κ σ (hbmRefresh k targeted τ) := by
  unfold hbmRefresh
  exact keeps_emit (keeps_setStack hk)

theorem keeps_syncMarkReceive {d link peer id sent : Nat} (hk : Keeps κ σ τ) : Keeps κ σ (syncMarkReceive d link peer id sent τ) := by
  unfold syncMarkReceive
  exact keeps_trace hk

theorem keeps_traceDrop {d : Nat} (hk : Keeps κ σ τ) : Keeps κ σ (traceDrop d τ) := by
  unfold traceDrop
  exact keeps_bumpE (keeps_setDie hk)

theorem keeps_traceRecordWrite {d : Nat} (hk : Keeps κ σ τ) : Keeps κ σ (traceRecordWrite d τ) := by
  unfold traceRecordWrite
  split
  · exact hk
  next rest _ =>
    extract_lets +onlyGivenNames t s
    have taken : Keeps κ σ s := keeps_setDie hk
    clear_value s
    split
    · exact keeps_traceDrop taken
    next c _ =>
      extract_lets +onlyGivenNames n
      clear_value n
      split
      next hp _ _ _ =>
        obtain ⟨x, hx⟩ := named (unitRead .write true hp (unitUse c (traceBase s) n s))
        have read : Keeps κ σ x.2.2 := hx ▸ keeps_unitRead (keeps_unitUse taken)
        rw [hx]
        exact keeps_ite (keeps_bumpE (keeps_unitWrite (keeps_setDie read))) (keeps_unitWrite (keeps_unitWrite (keeps_setDie read)))
      · split
        · exact keeps_noteMiss hk
        · exact keeps_traceDrop taken

theorem along_startDest (e : Env) (d : Obj) (h : Nat) (poison : Bool) : Along (Keeps κ) (startDest e d h poison) := by
  unfold startDest
  exact keeps_reads.bind (along_startHdr keeps_writes (allows_any _) ..) fun _ => keeps_reads.pure _

theorem along_linWork (j : GateJob) : Along (Keeps κ) (linWork j) := by
  unfold linWork
  exact keeps_reads.bind keeps_reads.get fun _ => keeps_reads.bind (along_startDest ..) fun _ => keeps_reads.bind (along_mapE
    keeps_reads (fun _ => along_readSample keeps_reads ..) ..) fun _ => keeps_reads.bind (along_writeSample ..) fun _ => along_commitHdr
    keeps_writes (allows_any _) ..

theorem along_gateLin (c : Nat) (i : Issued) (r : Nat) : Along (Keeps κ) (gateLin c i r) := by
  unfold gateLin
  exact along_gateRun keeps_reads (along_linChecks keeps_reads ..) (fun _ => along_linWork ..) ..

theorem keeps_rawReadRow {w : Who} {a : Nat} (hk : Keeps κ σ τ) : Keeps κ σ (rawReadRow w a τ) := by
  unfold rawReadRow
  exact keeps_served (fun _ => keeps_answer (keeps_rawRead (Keeps.refl _))) hk

theorem keeps_pwrGoodAssert (hk : Keeps false σ τ) : Keeps false σ (pwrGoodAssert τ) := by
  unfold pwrGoodAssert
  exact keeps_ite (keeps_setPower hk) hk

theorem keeps_rstN {straps : BitVec 17} (hk : Keeps false σ τ) : Keeps false σ (rstN straps τ) := by
  unfold rstN
  exact keeps_ite (keeps_coldReset hk) hk

theorem keeps_readPackets {ctx mtu fuel a n : Nat} (hk : Keeps κ σ τ) : Keeps κ σ (readPackets ctx mtu fuel a n τ).2.2 := by
  induction fuel generalizing a n τ with
  | zero => exact hk
  | succ fuel ih =>
    rw [readPackets]
    exact keeps_ite_thd hk (keeps_ite_thd (keeps_unitRead hk) (ih (keeps_unitRead hk)))

theorem keeps_answerRead {port qpn : Nat} {psn : BitVec 24} {x : QueuePair} {addr n : Nat} (hk : Keeps κ σ τ) : Keeps κ σ (answerRead
    port qpn psn x addr n τ) := by
  unfold answerRead
  dsimp only
  split
  · exact keeps_emit (keeps_readPackets (keeps_unitUse hk))
  · exact keeps_sendNak (keeps_stageRec (keeps_emit (keeps_readPackets (keeps_unitUse hk))))

theorem keeps_roceRead {port qpn : Nat} {psn : BitVec 24} {rkey addr n : Nat} (hk : Keeps κ σ τ) :
    Keeps κ σ (roceRead port qpn psn rkey addr n τ) := by
  unfold roceRead
  split
  · exact hk
  · extract_lets next
    have hnext : Keeps κ σ (next τ) := keeps_ite (keeps_expectNext hk) hk
    clear_value next
    refine keeps_ite (keeps_sendNak hk) (keeps_ite (keeps_sendNak (keeps_readEntry hk)) (keeps_ite ?_ (keeps_sendNak hk)))
    split
    · exact keeps_answerRead hnext
    · exact keeps_ite (keeps_sendNak hk) (keeps_noteMiss (keeps_setQp hnext))
    · exact keeps_sendNak hk

theorem keeps_refreshEnd {c : Nat} {i : Issued} (hk : Keeps κ σ τ) : Keeps κ σ (refreshEnd c i τ) := by
  unfold refreshEnd
  exact keeps_endOk (keeps_foldl (fun _ _ => keeps_repeatSignal (Keeps.refl _)) hk)

theorem along_segmentWork (e : Env) (w r : Nat) (j : RefreshJob) : Along (Keeps κ) (segmentWork e w r j) := by
  unfold segmentWork
  exact keeps_reads.bind keeps_reads.get fun _ => keeps_reads.bind (along_readSwitched keeps_reads ..) fun (_, _, _) => keeps_reads.bind
    (along_refreshRows keeps_reads ..) fun (_, _) => keeps_reads.bind (along_eachE keeps_reads (fun _ => along_writeLimb ..) ..) fun _ =>
    keeps_reads.pure _

theorem along_refreshSegments (c : Nat) (i : Issued) : Along (Keeps κ) (refreshSegments c i) := by
  unfold refreshSegments
  exact keeps_reads.bind (along_mapE keeps_reads (fun _ => along_refreshChecks keeps_reads ..) ..) fun _ => keeps_reads.bind (along_eachE
    keeps_reads (fun _ => along_startHdr keeps_writes (allows_any _) ..) ..) fun _ => keeps_reads.bind (along_mapE keeps_reads
    (fun _ => along_segmentWork ..) ..) fun _ => along_eachE keeps_reads (fun _ => along_commitHdr keeps_writes (allows_any _) ..) ..

theorem keeps_gateHold {c : Nat} {k : GateOps} (hk : Keeps κ σ τ) : Keeps κ σ (gateHold c k τ) := by
  unfold gateHold
  exact keeps_setHead (hk.upd rfl)

theorem keeps_gateStep {α : Type} {c : Nat} {i : Issued} {x : Eng α} {fault : FaultInfo → State → State} {next : α → State → State}
    (hx : Along (Keeps κ) x) (hfault : ∀ f u, Keeps κ u (fault f u)) (hnext : ∀ v u, Keeps κ u (next v u)) (hk : Keeps κ σ τ) :
    Keeps κ σ (gateStep c i x fault next τ) := by
  unfold gateStep
  split
  next h => exact (keeps_ran h hx hk).trans (hnext _ _)
  next h => exact (keeps_stopped h hx hk).trans (hfault _ _)
  next h => exact keeps_holdHead (keeps_stopped h hx hk)

theorem along_refreshFinish (c : Nat) (i : Issued) (k : GateOps) : Along (Keeps κ) (refreshFinish c i k) := by
  unfold refreshFinish
  exact keeps_reads.bind keeps_reads.get fun _ => keeps_reads.bind (along_eachE keeps_reads (fun _ => along_writeSample ..) ..)
    fun _ => along_eachE keeps_reads (fun _ => along_commitHdr keeps_writes (allows_any _) ..) ..

theorem along_refreshParcel (c : Nat) (i : Issued) (k : GateOps) : Along (Keeps κ) (refreshParcel c i k) := by
  unfold refreshParcel
  refine keeps_reads.bind (along_streamFor keeps_reads ..) fun _ => ?_
  refine keeps_reads.bind (along_nextParcel keeps_reads ..) fun _ => ?_
  refine keeps_reads.bind keeps_reads.get fun _ => ?_
  split
  · exact keeps_reads.bind (along_atGran (along_needE keeps_reads ..) ..) fun _ => keeps_reads.bind (along_atGran (along_needE
      keeps_reads ..) ..) fun _ => keeps_reads.bind (along_act keeps_reads (fun _ => keeps_parcelApplied (Keeps.refl _)) ..) fun _ =>
      keeps_reads.pure _

theorem along_refreshStart (c : Nat) (i : Issued) (k : GateOps) : Along (Keeps κ) (refreshStart c i k) := by
  unfold refreshStart
  exact keeps_reads.bind (along_refreshStream keeps_reads ..) fun _ => keeps_reads.bind (along_eachE keeps_reads (fun _ => along_startHdr
    keeps_writes (allows_any _) ..) ..) fun _ => keeps_reads.bind (along_mapE keeps_reads (fun _ => along_refreshBegin keeps_reads ..) ..) fun _ =>
    keeps_reads.pure _

theorem keeps_refreshAdvance {c : Nat} {i : Issued} {k : GateOps} (hk : Keeps κ σ τ) : Keeps κ σ (refreshAdvance c i k τ) := by
  unfold refreshAdvance
  exact keeps_ite (keeps_gateStep (along_refreshStart ..) (fun _ _ => keeps_refreshFault (Keeps.refl _)) (fun _ _ => keeps_gateHold
    (Keeps.refl _)) hk) (keeps_ite (keeps_gateStep (along_refreshFinish ..) (fun _ _ => keeps_endFault (Keeps.refl _)) (fun _ _ =>
    keeps_refreshEnd (Keeps.refl _)) hk) (keeps_gateStep (along_refreshParcel ..) (fun _ _ => keeps_refreshFault (Keeps.refl _))
    (fun _ _ => keeps_gateHold (Keeps.refl _)) hk))

theorem keeps_gRefreshRow {c : Nat} (hk : Keeps κ σ τ) : Keeps κ σ (gRefreshRow c τ) := by
  unfold gRefreshRow
  split
  · exact hk
  · split
    · exact keeps_refreshAdvance hk
    · exact keeps_ite (keeps_gateStep (along_refreshIssue keeps_reads ..) (fun _ _ => keeps_refreshFault (Keeps.refl _)) (fun _ _ => keeps_gateHold
        (Keeps.refl _)) hk) (keeps_gateStep (along_refreshSegments ..) (fun _ _ => keeps_endFault (Keeps.refl _)) (fun _ _ =>
        keeps_refreshEnd (Keeps.refl _)) hk)

theorem keeps_retireWindowExpiry {k f : Nat} (hk : Keeps κ σ τ) : Keeps κ σ (retireWindowExpiry k f τ) := by
  unfold retireWindowExpiry
  exact keeps_setStack hk

theorem keeps_clkSwitchDone {c : Nat} (hk : Keeps κ σ τ) : Keeps κ σ (clkSwitchDone c τ) := by
  unfold clkSwitchDone
  exact keeps_ite (keeps_setCore hk) hk

theorem keeps_sendStallEvent {c : Nat} (hk : Keeps κ σ τ) : Keeps κ σ (sendStallEvent c τ) := by
  unfold sendStallEvent
  exact keeps_ite (keeps_stageRec (keeps_bumpE (keeps_bumpE (keeps_setCore hk)))) hk

theorem keeps_priority {ctx : Nat} (hk : Keeps κ σ τ) : Keeps κ σ (priority ctx τ) := by
  unfold priority
  exact keeps_expressRow (fun _ _ => keeps_endExpress (keeps_setCtxF (keeps_noteEffect (Keeps.refl _)))) hk

theorem keeps_recallFlights {c ctx : Nat} (hk : Keeps κ σ τ) : Keeps κ σ (recallFlights c ctx τ) := by
  unfold recallFlights
  exact keeps_endStall ((keeps_foldl (fun _ _ => keeps_releaseReply (Keeps.refl _)) hk).upd rfl)

theorem keeps_rewindGate {c ctx : Nat} (hk : Keeps κ σ τ) : Keeps κ σ (rewindGate c ctx τ) := by
  unfold rewindGate
  dsimp only
  split
  · exact keeps_ite (keeps_setEngine (keeps_setCore (keeps_foldl (fun _ _ => keeps_setRelay (Keeps.refl _)) hk))) hk
  · exact hk

theorem keeps_takeOut {ctx c : Nat} (hk : Keeps κ σ τ) : Keeps κ σ (takeOut ctx c τ) := by
  unfold takeOut
  exact keeps_setEngine (keeps_setCore (keeps_setStream (keeps_rewindGate hk)))

theorem keeps_expressTakeEffect {c ctx : Nat} (hk : Keeps κ σ τ) : Keeps κ σ (expressTakeEffect c ctx τ) := by
  unfold expressTakeEffect
  exact keeps_ite (keeps_setCore (keeps_takeOut (keeps_recallFlights (keeps_noteEffect hk)))) hk

theorem keeps_installKey {k : Nat} {role : SlotRole} {key : List Byte} (hk : Keeps κ σ τ) : Keeps κ σ (installKey k role key τ) := by
  unfold installKey
  extract_lets s
  have set : Keeps κ σ s := keeps_setKeySlot hk
  exact set.upd rfl

theorem keeps_randomBytes {n : Nat} (hk : Keeps κ σ τ) : Keeps κ σ (randomBytes n τ).2 := by
  unfold randomBytes
  exact hk.upd rfl

theorem keeps_identitySign {msg : List Byte} (hk : Keeps κ σ τ) : Keeps κ σ (identitySign msg τ).2 := by
  unfold identitySign
  split
  · rename_i u0 e2
    have hu1 := keeps_of_eq e2 (keeps_randomBytes hk)
    exact hu1

theorem keeps_kexDone {p : Path} (hk : Keeps κ σ τ) : Keeps κ σ (kexDone p τ) := by
  unfold kexDone
  split
  · exact hk
  · extract_lets +onlyGivenNames b st
    clear_value st
    refine keeps_ite hk (keeps_ite (keeps_kexFails hk) ?_)
    dsimp only
    exact keeps_setPath (keeps_installKey (keeps_identitySign (keeps_randomBytes (keeps_randomBytes (keeps_randomBytes hk)))))

theorem keeps_runImage {b : Bool} (hk : Keeps false σ τ) : Keeps false σ (runImage b τ) := by
  unfold runImage
  exact keeps_setIsland_off hk

theorem keeps_portsTrain (hk : Keeps κ σ τ) : Keeps κ σ (portsTrain τ) := by
  unfold portsTrain
  exact keeps_foldl (fun _ _ => keeps_startTraining (Keeps.refl _)) (keeps_foldl (fun _ _ => keeps_setEth (Keeps.refl _)) hk)

theorem keeps_boot (hk : Keeps false σ τ) : Keeps false σ (boot τ) := by
  unfold boot
  exact keeps_ite hk (keeps_ite (keeps_portsTrain (keeps_setPower (keeps_runImage (keeps_setIsland hk)))) (keeps_setIsland
    (keeps_setIsland hk)))

theorem keeps_pwrEnDeassert (hk : Keeps false σ τ) : Keeps false σ (pwrEnDeassert τ) := by
  unfold pwrEnDeassert
  exact keeps_ite (keeps_lossOfMains (keeps_setPower hk)) (keeps_setPower hk)

theorem keeps_retryRead {port qpn : Nat} {h : BitVec 24 × Nat × Nat} (hk : Keeps κ σ τ) : Keeps κ σ (retryRead port qpn h τ) := by
  unfold retryRead
  split
  · exact hk
  · split
    · exact keeps_noteMiss hk
    · exact keeps_ite (keeps_answerRead (keeps_setQp hk)) (keeps_sendNak (keeps_setQp hk))

theorem keeps_releaseReads {ctx : Nat} (hk : Keeps κ σ τ) : Keeps κ σ (releaseReads ctx τ) := by
  unfold releaseReads
  exact keeps_foldl (fun _ _ => keeps_foldl (fun _ _ => keeps_retryRead (Keeps.refl _)) (Keeps.refl _)) hk

theorem keeps_serveAsks {ctx : Nat} (hk : Keeps κ σ τ) : Keeps κ σ (serveAsks ctx τ) := by
  unfold serveAsks
  extract_lets s l
  have served : Keeps κ σ s := keeps_foldl (fun _ _ => keeps_servePage (Keeps.refl _)) hk
  clear_value s l
  refine keeps_foldl (fun u e => keeps_ite ?_ ((Keeps.refl u).upd rfl)) (served.upd rfl)
  cases h : answerReq e.1 e.2 u with
  | none => exact (Keeps.refl u).upd rfl
  | some v => exact keeps_answerReq (Keeps.refl u) h

theorem keeps_wakeStreams {ctx : Nat} (hk : Keeps κ σ τ) : Keeps κ σ (wakeStreams ctx τ) := by
  unfold wakeStreams
  exact keeps_foldl (fun _ _ => keeps_skipStream (Keeps.refl _)) (keeps_foldl (fun _ _ => keeps_firstDoorbells (Keeps.refl _)) hk)

theorem keeps_pageIn {f : Fetch} {bytes : List Byte} (hk : Keeps κ σ τ) : Keeps κ σ (pageIn f bytes τ) := by
  unfold pageIn
  exact keeps_wakeStreams (keeps_serveAsks (keeps_releaseReads (keeps_chargeFrames (keeps_setMapping (keeps_casSome (keeps_devWrite
    hk))))))

theorem keeps_evictPage {ctx : Nat} {e : Nat × Mapping} (hk : Keeps κ σ τ) : Keeps κ σ (evictPage ctx e τ) := by
  unfold evictPage
  exact keeps_chargeFrames (keeps_freeFrames (keeps_setMapping hk))

theorem keeps_installPage {n : Nat} {f : Fetch} {bytes : List Byte} (hk : Keeps κ σ τ) : Keeps κ σ (installPage n f bytes τ) := by
  unfold installPage
  extract_lets s
  have counted : Keeps κ σ s := keeps_addTotal hk
  clear_value s
  have freed : Keeps κ σ { s with fetches := s.fetches.set n none } := counted.upd (by simp [frame, sizes])
  refine keeps_ite (keeps_dropFetch counted) (keeps_ite (keeps_pageIn freed) ?_)
  split
  · exact keeps_pageIn (keeps_evictPage freed)
  · exact keeps_giveUp (keeps_dropFetch counted)

theorem keeps_relayedPage {ctx page : Nat} {data : List Byte} {further : List Nat} (hk : Keeps κ σ τ) : Keeps κ σ (relayedPage ctx page
    data further τ) := by
  unfold relayedPage
  refine keeps_relayPage ?_
  split
  · split
    · exact keeps_ite (keeps_installPage hk) hk
    · exact hk
  · exact hk

theorem along_stampPutOne (c : Nat) (i : Issued) (r : Nat) : Along (Keeps κ) (stampPutOne c i r) := by
  unfold stampPutOne
  refine keeps_reads.bind (along_msgIssue keeps_reads ..) fun _ => keeps_reads.bind keeps_reads.get fun _ => ?_
  dsimp only
  split
  · exact keeps_reads.bind (along_failE keeps_reads ..) fun _ => keeps_reads.pure _
  · exact keeps_reads.bind (along_act keeps_reads (fun _ => keeps_giveBack (Keeps.refl _)) ..) fun _ => keeps_reads.pure _

theorem keeps_roceCnp {port qpn : Nat} (hk : Keeps κ σ τ) : Keeps κ σ (roceCnp port qpn τ) := by
  unfold roceCnp
  exact keeps_setQp hk

theorem keeps_linkRecord {p : Nat} {r : Reason} {i : Option PeerIdentity} (hk : Keeps κ σ τ) : Keeps κ σ (linkRecord p r i τ) := by
  unfold linkRecord
  exact keeps_stageRec (keeps_bumpE hk)

theorem keeps_linkRetrainEnd {p : Nat} {ok : Bool} (hk : Keeps κ σ τ) : Keeps κ σ (linkRetrainEnd p ok τ) := by
  unfold linkRetrainEnd
  exact keeps_ite hk (keeps_ite (keeps_flushHeld (keeps_resendAll (keeps_setLink hk))) (keeps_portLeaves (keeps_setLink
    (keeps_linkRecord (keeps_bumpE hk)))))

theorem keeps_activateDone {k : Nat} (hk : Keeps κ σ τ) : Keeps κ σ (activateDone k τ) := by
  unfold activateDone
  exact keeps_ite (keeps_setChain hk) hk

theorem keeps_setdasa {a : BitVec 7} (hk : Keeps κ σ τ) : Keeps κ σ (setdasa a τ) := by
  unfold setdasa
  exact keeps_setSideband hk

theorem state_needE {b : Bool} {r : Reason} {ad : Option (Nat × Bool)} {s t : State} {v : Unit} (h : needE b r ad s = .ok v t) : t = s := by
  unfold needE at h
  split at h
  · cases h
    rfl
  · cases h

theorem along_reserveReply (e : Env) (v : Nat) : Along (Keeps κ) (reserveReply e v) := by
  unfold reserveReply
  refine ⟨fun s => alongAt_get (alongAt_ite ?_ (Keeps.refl s))⟩
  refine alongAt_bind keeps_reads ((along_needE keeps_reads ..).leads s) fun _ t ht => ?_
  cases state_needE ht
  exact alongAt_ite (Keeps.refl s) (keeps_setMailbox (Keeps.refl s))

theorem along_sendOne (c : Nat) (i : Issued) (r : Nat) : Along (Keeps κ) (sendOne c i r) := by
  unfold sendOne
  exact keeps_reads.bind (along_msgIssue keeps_reads ..) fun _ => keeps_reads.bind (along_ownAligned keeps_reads ..) fun _ => keeps_reads.bind (along_loadWord
    keeps_reads ..) fun _ => keeps_reads.bind (along_needE keeps_reads ..) fun _ => keeps_reads.bind (along_once keeps_reads
    (keeps_reads.bind (along_reserveReply ..) fun _ => along_modify (fun _ => (Keeps.refl _).upd rfl)) ..) fun _ => keeps_reads.pure _

theorem keeps_sendOff {c : Nat} (hk : Keeps κ σ τ) : Keeps κ σ (sendOff c τ) := by
  unfold sendOff
  split
  · exact hk
  · exact keeps_ite (keeps_ite (keeps_stallWith (keeps_setFlight (keeps_routeEnv (keeps_endStall hk)))) (keeps_routeEnv (keeps_endStall
      hk))) (keeps_endStall hk)

theorem keeps_sendRow {c : Nat} (hk : Keeps κ σ τ) : Keeps κ σ (sendRow c τ) := by
  unfold sendRow
  split
  · exact hk
  · split
    · exact keeps_ite (keeps_stallWith hk) hk
    · refine keeps_ite (keeps_msgRepeatDone hk) (keeps_ite (keeps_endFault hk) ?_)
      split
      next h => exact keeps_sendOff (keeps_setHead (keeps_ran h (along_sendOne ..) hk))
      next h => exact keeps_endFault (keeps_endStall (keeps_stopped h (along_sendOne ..) hk))
      next h => exact keeps_stallWith (keeps_holdHead (keeps_stopped h (along_sendOne ..) hk))
      next h => exact keeps_holdHead (keeps_stopped h (along_sendOne ..) hk)

theorem keeps_fetchAnswered {f : Fetch} (hk : Keeps κ σ τ) : Keeps κ σ (fetchAnswered f τ) := by
  unfold fetchAnswered
  exact keeps_setQp hk

theorem keeps_pageFetchComplete {n : Nat} {r : FetchResult} (hk : Keeps κ σ τ) : Keeps κ σ (pageFetchComplete n r τ) := by
  unfold pageFetchComplete
  split
  · exact hk
  · split
    · exact keeps_ite (keeps_installPage (keeps_fetchAnswered hk)) (keeps_retryFetch (keeps_fetchAnswered hk))
    · exact keeps_retryFetch (keeps_fetchAnswered hk)

theorem keeps_getpid (hk : Keeps κ σ τ) : Keeps κ σ (getpid τ) := by
  unfold getpid
  exact keeps_i3cAnswer hk

end

end Sys2Proof.Machine

/-! ## What the functions of the model keep, callees before callers: part 7 of 7 -/

namespace Sys2Proof.Machine

open Sys2Proof.Safety

section
variable {κ : Bool} {σ τ : State}

theorem keeps_faultLogAccept {d : Nat} (hk : Keeps κ σ τ) : Keeps κ σ (faultLogAccept d τ) := by
  unfold faultLogAccept
  split
  · exact hk
  · exact keeps_trace (keeps_ite (keeps_bumpE (keeps_bumpE ((keeps_devWrite (keeps_setDie hk)).upd rfl))) (keeps_bumpE ((keeps_devWrite
      (keeps_setDie hk)).upd rfl)))

theorem along_combineWork (j : GateJob) : Along (Keeps κ) (combineWork j) := by
  unfold combineWork
  refine keeps_reads.bind keeps_reads.get fun _ => keeps_reads.bind (along_startDest ..) fun _ =>
    keeps_reads.bind (along_mapE keeps_reads (fun _ => along_readAcc keeps_reads ..) ..) fun _ =>
    keeps_reads.bind (along_mapE keeps_reads (fun _ => ?_) ..) fun _ => ?_
  · exact keeps_reads.bind (along_readRun keeps_reads ..) fun (_, _) => keeps_reads.bind (along_readRun keeps_reads ..) fun (_, _) => keeps_reads.pure _
  · exact along_ite (keeps_reads.bind (along_writeSample ..) fun _ => along_commitHdr keeps_writes (allows_any _) ..)
      (keeps_reads.bind (along_eachE keeps_reads (fun _ => along_writeLimb ..) ..) fun _ => along_commitHdr keeps_writes (allows_any _) ..)

theorem along_gateCombine (c : Nat) (i : Issued) (r : Nat) : Along (Keeps κ) (gateCombine c i r) := by
  unfold gateCombine
  exact along_gateRun keeps_reads (along_combineChecks keeps_reads ..) (fun _ => along_combineWork ..) ..

theorem keeps_enterStandby (hk : Keeps false σ τ) : Keeps false σ (enterStandby τ) := by
  unfold enterStandby
  extract_lets r sem
  have reset : Keeps false τ r := keeps_mainsOff (keeps_coldReset (Keeps.refl τ))
  clear_value r
  refine hk.trans ⟨reset.pending, fusesHold_trans reset.fuses (fusesHold_of_eq rfl), reset.memory, fun hs => ?_, nofun, nofun⟩
  obtain ⟨dies, hbm, ports, links, engines, chains, paths, fetches, queues, ring⟩ := reset.shape hs
  exact ⟨dies, hbm, ports, links, engines, chains, by simp [paths, hs.paths], fetches, queues, ring⟩

theorem keeps_flushCaches (hk : Keeps κ σ τ) : Keeps κ σ (flushCaches τ) := by
  unfold flushCaches
  exact keeps_foldl (fun _ _ => keeps_foldl (fun _ _ => keeps_evictLine (Keeps.refl _)) (Keeps.refl _)) hk

theorem keeps_enterRetain (hk : Keeps κ σ τ) : Keeps κ σ (enterRetain τ) := by
  unfold enterRetain
  extract_lets s
  have left : Keeps κ σ s := keeps_foldl (fun _ _ => keeps_portLeaves (keeps_setLink (Keeps.refl _))) hk
  clear_value s
  exact left.upd rfl

theorem keeps_pwrEntryDone (hk : Keeps false σ τ) : Keeps false σ (pwrEntryDone τ) := by
  unfold pwrEntryDone
  exact keeps_ite (keeps_ite (keeps_wake (keeps_setPower (keeps_semUncommit (keeps_setPower (keeps_ite (keeps_enterStandby
    (keeps_tracePower (keeps_ite (keeps_enterRetain (keeps_retiredListCopy (keeps_ite hk (keeps_flushCaches hk))))
    (keeps_retiredListCopy (keeps_ite hk (keeps_flushCaches hk)))))) (keeps_tracePower (keeps_ite (keeps_enterRetain
    (keeps_retiredListCopy (keeps_ite hk (keeps_flushCaches hk)))) (keeps_retiredListCopy (keeps_ite hk (keeps_flushCaches hk))))))))))
    (keeps_semUncommit (keeps_setPower (keeps_ite (keeps_enterStandby (keeps_tracePower (keeps_ite (keeps_enterRetain
    (keeps_retiredListCopy (keeps_ite hk (keeps_flushCaches hk)))) (keeps_retiredListCopy (keeps_ite hk (keeps_flushCaches hk))))))
    (keeps_tracePower (keeps_ite (keeps_enterRetain (keeps_retiredListCopy (keeps_ite hk (keeps_flushCaches hk))))
    (keeps_retiredListCopy (keeps_ite hk (keeps_flushCaches hk))))))))) hk

theorem keeps_thermalTrip {d : Nat} (hk : Keeps false σ τ) : Keeps false σ (thermalTrip d τ) := by
  unfold thermalTrip
  exact keeps_setPower (keeps_setDie (keeps_lossOfMains (keeps_setPower hk)))

theorem keeps_reopenStream {ctx c : Nat} (hk : Keeps κ σ τ) : Keeps κ σ (reopenStream ctx c τ) := by
  unfold reopenStream
  exact keeps_setCore ((keeps_writeBack (keeps_setStream hk)).upd rfl)

theorem keeps_reopen {p : Path} (hk : Keeps κ σ τ) : Keeps κ σ (reopen p τ) := by
  unfold reopen
  exact keeps_runCmd (fun _ _ => keeps_ite (keeps_endCmd (Keeps.refl _)) (keeps_endCmd (keeps_foldl (fun _ _ => keeps_reopenStream
    (Keeps.refl _)) (Keeps.refl _)))) hk

theorem keeps_stampAsked {c : Nat} {i : Issued} (hk : Keeps κ σ τ) : Keeps κ σ (stampAsked c i τ) := by
  unfold stampAsked
  exact keeps_stallWith (keeps_setHead hk)

theorem keeps_stampGetRow {c : Nat} (hk : Keeps κ σ τ) : Keeps κ σ (stampGetRow c τ) := by
  unfold stampGetRow
  split
  · exact hk
  · refine keeps_ite (keeps_msgRepeatDone hk) (keeps_ite (keeps_stampFault hk) (keeps_ite (keeps_stampFault hk)
      (keeps_ite (keeps_stallWith hk) (keeps_ite (keeps_stampFault hk) (keeps_ite (keeps_stampFault hk) (keeps_ite ?_ ?_))))))
    · refine keeps_ite (keeps_stampAsked ?_) (keeps_stampFault hk)
      exact keeps_setCore hk
    · exact keeps_ite (keeps_stampAsked (keeps_sendPacket hk)) (keeps_ite (keeps_stampFault hk) hk)

theorem along_sealFreeOne (c : Nat) (i : Issued) (r : Nat) : Along (Keeps κ) (sealFreeOne c i r) := by
  unfold sealFreeOne
  refine keeps_reads.bind (along_msgIssue keeps_reads ..) fun _ => ?_
  refine keeps_reads.bind keeps_reads.get fun _ => ?_
  extract_lets +onlyGivenNames -underBinder -merge -useContext jp0
  have hjp1 : ∀ x, Along (Keeps κ) (jp0 x) := by
    intro x
    exact keeps_reads.pure _
  clear_value jp0
  split
  · exact keeps_reads.bind (along_failE keeps_reads ..) fun _ => hjp1 _
  · exact keeps_reads.bind (along_needE keeps_reads ..) fun _ => keeps_reads.bind (along_act keeps_reads (fun _ => keeps_unbindSeal
      (Keeps.refl _)) ..) fun _ => hjp1 _

theorem keeps_attestDone {p : Path} (hk : Keeps κ σ τ) : Keeps κ σ (attestDone p τ) := by
  unfold attestDone
  refine keeps_ite ?_ hk
  extract_lets s body
  have counted : Keeps κ σ s := keeps_setIsland hk
  clear_value s body
  dsimp only
  exact keeps_setPath (keeps_identitySign counted)

theorem keeps_setmwl {v : BitVec 16} (hk : Keeps κ σ τ) : Keeps κ σ (setmwl v τ) := by
  unfold setmwl
  exact keeps_setSideband hk

theorem keeps_mtStore {p : Nat} {l : List (BitVec 13824)} (hk : Keeps κ σ τ) : Keeps κ σ (mtStore p l τ) := by
  induction l generalizing p τ with
  | nil => exact hk
  | cons w r ih => exact ih (hk.upd rfl)

theorem keeps_mtReadEntry {ctx a p : Nat} {failed : Option (Nat × Nat)} (hk : Keeps κ σ τ) : Keeps κ σ (mtReadEntry ctx a p failed τ).2
    := by
  unfold mtReadEntry
  split
  · exact keeps_unitRead (keeps_unitUse hk)
  · split
    · exact hk
    · exact hk

theorem keeps_mtRead {ctx a p : Nat} {failed : Option (Nat × Nat)} {n : Nat} (hk : Keeps κ σ τ) :
    Keeps κ σ (mtRead ctx a p failed n τ).2 := by
  induction n generalizing a p τ with
  | zero => exact hk
  | succ n ih =>
    have read := keeps_mtReadEntry (ctx := ctx) (a := a) (p := p) (failed := failed) hk
    rw [mtRead]
    split
    next h => exact ih ((keeps_of_eq h read).upd rfl)
    next h => exact keeps_of_eq h read

theorem keeps_mtLoadEnd (hk : Keeps κ σ τ) : Keeps κ σ (mtLoadEnd τ) := by
  unfold mtLoadEnd
  split
  · split
    · exact hk
    · dsimp only
      split
      · rename_i u0 e2
        have hu1 := keeps_of_eq e2 (keeps_mtRead hk)
        exact keeps_noteMiss hu1
      · rename_i u3 e5
        have hu4 := keeps_of_eq e5 (keeps_mtRead hk)
        split
        · exact keeps_mtFinish hu4
        · split
          · exact keeps_mtFinish hu4
          · exact keeps_mtFinish (keeps_mtStore hu4)
  · exact hk

theorem along_mbOpenOne (c : Nat) (i : Issued) (r : Nat) : Along (Keeps κ) (mbOpenOne c i r) := by
  unfold mbOpenOne
  refine keeps_reads.bind (along_msgIssue keeps_reads ..) fun _ => ?_
  refine keeps_reads.bind keeps_reads.get fun _ => ?_
  extract_lets +onlyGivenNames -underBinder -merge -useContext jp0
  have hjp1 : ∀ x, Along (Keeps κ) (jp0 x) := by
    intro x
    exact keeps_reads.pure _
  clear_value jp0
  split
  · exact keeps_reads.bind (along_needE keeps_reads ..) fun _ => hjp1 _
  · exact keeps_reads.bind (along_act keeps_reads (fun _ => keeps_setMailbox (Keeps.refl _)) ..) fun _ => hjp1 _

theorem keeps_jobRecord {d : Nat} {j : UpdJob} (hk : Keeps κ σ τ) : Keeps κ σ (jobRecord d j τ) := by
  unfold jobRecord
  split
  · exact hk
  · split
    · exact keeps_stageRec hk
    · exact keeps_stageRec hk

theorem keeps_updJobEnd {d : Nat} (hk : Keeps κ σ τ) : Keeps κ σ (updJobEnd d τ) := by
  unfold updJobEnd
  extract_lets +onlyGivenNames s
  have advanced : Keeps κ σ s := keeps_advanceJob hk
  clear_value s
  split
  · exact advanced
  · refine keeps_ite advanced ?_
    extract_lets t u v w x
    have written : Keeps κ σ u := keeps_bumpE (keeps_jobWrite advanced)
    have counted : Keeps κ σ w := keeps_jobRecord (keeps_ite written (keeps_bumpE written))
    have signalled : Keeps κ σ x := by
      unfold x
      split
      · exact keeps_sendSeals counted
      · exact counted
    clear_value x
    exact keeps_setDie (signalled.upd (by simp [frame, sizes]))

theorem keeps_updPeerTimeout {d : Nat} (hk : Keeps κ σ τ) : Keeps κ σ (updPeerTimeout d τ) := by
  unfold updPeerTimeout
  split
  · exact hk
  · exact keeps_ite (keeps_setJob hk) hk

theorem keeps_contextSet {p : Path} (hk : Keeps κ σ τ) : Keeps κ σ (contextSet p τ) := by
  unfold contextSet
  exact keeps_runCmd (fun _ _ => keeps_ite (keeps_endCmd (Keeps.refl _)) (keeps_ite (keeps_endCmd (Keeps.refl _)) (keeps_ite
    (keeps_endCmd (Keeps.refl _)) (keeps_endCmd (keeps_entryWritten (keeps_setContext (Keeps.refl _))))))) hk

theorem along_kswGranule (j : GateJob) (p : Prime) (k : Nat) (v : List Nat) (bad : Bool) (x : Nat × List (List Nat) × Bool) : Along
    (Keeps κ) (kswGranule j p k v bad x) := by
  unfold kswGranule
  refine along_atGran ?_ ..
  split
  · exact keeps_reads.bind (along_granAligned keeps_reads ..) fun _ => keeps_reads.bind (along_load keeps_reads ..) fun (_, _) =>
      along_ite (keeps_reads.bind (along_freeGran keeps_reads ..) fun _ => along_store keeps_writes (allows_any _) ..)
      (keeps_reads.bind (keeps_reads.pure _) fun _ => along_store keeps_writes (allows_any _) ..)

theorem along_kswWork (j : GateJob) : Along (Keeps κ) (kswWork j) := by
  unfold kswWork
  exact keeps_reads.bind keeps_reads.get fun _ => keeps_reads.bind (along_kswMatrix keeps_reads ..) fun _ => keeps_reads.bind (along_eachE
    keeps_reads (fun _ => keeps_reads.bind (along_readSample keeps_reads ..) fun (_, _) => keeps_reads.bind (along_eachE keeps_reads (fun _ =>
    along_kswGranule ..) ..) fun _ => along_checkpoint keeps_reads ..) ..) fun _ => along_act keeps_reads (fun _ => keeps_addTotal
    (Keeps.refl _)) ..

theorem along_gateKsw (c : Nat) (i : Issued) (r : Nat) : Along (Keeps κ) (gateKsw c i r) := by
  unfold gateKsw
  exact along_gateRun keeps_reads (along_kswChecks keeps_reads ..) (fun _ => along_kswWork ..) ..

theorem keeps_gKswRow {c : Nat} (hk : Keeps κ σ τ) : Keeps κ σ (gKswRow c τ) := by
  unfold gKswRow
  split
  · exact keeps_ite hk (keeps_runEngine (fun _ _ => along_gateKsw ..) hk)
  · exact hk

theorem keeps_popTile {c : Nat} {p : Tile → Bool} (hk : Keeps κ σ τ) : Keeps κ σ (popTile c p τ) := by
  unfold popTile
  exact keeps_setCore (keeps_addTotal hk)

theorem keeps_discardTile {c ctx : Nat} {t : Tile} (hk : Keeps κ σ τ) : Keeps κ σ (discardTile c ctx t τ) := by
  unfold discardTile
  exact keeps_ite (keeps_setCore (keeps_popTile hk)) (keeps_popTile hk)

theorem along_popFinish (e : Env) (w : Nat) (o : VecOps) : Along (Keeps κ) (popFinish e w o) := by
  unfold popFinish
  extract_lets +onlyGivenNames -underBinder -merge -useContext jp0
  have hjp1 : ∀ x, Along (Keeps κ) (jp0 x) := by
    intro x
    exact along_ite (along_act keeps_reads (fun _ => keeps_setVReg (Keeps.refl _)) ..) (keeps_reads.pure _)
  clear_value jp0
  exact along_ite (keeps_reads.bind (along_storeLines ..) fun _ => hjp1 _) (keeps_reads.bind (keeps_reads.pure _) fun _ => hjp1 _)

theorem along_popElems (e : Env) (w : Nat) (o : VecOps) (t : Tile) : Along (Keeps κ) (popElems e w o t) := by
  unfold popElems
  have checked := along_needE (R := Keeps κ) keeps_reads
  refine along_ite (keeps_reads.bind (along_failE keeps_reads ..) fun _ => ?_) ?_
  all_goals
    refine keeps_reads.bind (along_needE keeps_reads ..) fun _ => along_ite (keeps_reads.pure _) (keeps_reads.bind ?_ fun _ => keeps_reads.pure _)
    refine along_mapE keeps_reads (fun _ => along_inRow (keeps_reads.bind (along_mapE keeps_reads (fun _ => ?_) ..) fun _ => ?_)) ..
    · exact keeps_reads.bind (along_vecElem keeps_reads ..) fun _ => keeps_reads.pure _
    · exact keeps_reads.bind (along_storeRow ..) fun _ => keeps_reads.pure _

theorem keeps_popDone {c : Nat} {i : Issued} (hk : Keeps κ σ τ) : Keeps κ σ (popDone c i τ) := by
  unfold popDone
  exact keeps_ite (keeps_endOk (keeps_repeatSignal (hk.upd rfl))) (keeps_setHead (keeps_repeatSignal (hk.upd rfl)))

theorem keeps_popOne {c : Nat} {i : Issued} {o : VecOps} {t : Tile} (hk : Keeps κ σ τ) : Keeps κ σ (popOne c i o t τ) := by
  unfold popOne
  have work (e : Env) (w : Nat) (b : Bool) : Along (Keeps κ) (do
      let o ← popElems e w o t
      if b then popFinish e w o
      pure o) :=
    keeps_reads.bind (along_popElems ..) fun _ =>
      along_ite (keeps_reads.bind (along_popFinish ..) fun _ => keeps_reads.pure _) (keeps_reads.pure _)
  dsimp only
  split
  next s h =>
    have taken := keeps_popTile (c := c) (p := fun t => t.ctx == i.ctx)
      ((keeps_ran h (work ..) hk).upd (u := { s with wrote := [], wroteFar := [] }) rfl)
    exact keeps_ite (keeps_popDone taken) (keeps_setHead taken)
  next h => exact keeps_popFault (keeps_popTile (keeps_stopped h (work ..) hk))
  next h => exact keeps_holdHead (keeps_stopped h (work ..) hk)

theorem keeps_tilePop {c : Nat} (hk : Keeps κ σ τ) : Keeps κ σ (tilePop c τ) := by
  unfold tilePop
  split
  · exact keeps_popTile hk
  · split
    · split
      · exact keeps_discardTile hk
      · exact hk
    · split
      · split
        · split
          · exact keeps_popOne hk
          · exact hk
        · exact hk
      · exact hk

theorem along_packWork (j : GateJob) : Along (Keeps κ) (packWork j) := by
  unfold packWork
  refine keeps_reads.bind keeps_reads.get fun _ => keeps_reads.bind (along_mapE keeps_reads (fun _ => ?_) ..) fun _ => ?_
  · exact keeps_reads.bind (along_readSample keeps_reads ..) fun (_, _) => keeps_reads.pure _
  · exact along_ite
      (keeps_reads.bind (along_hdrPoison keeps_writes (allows_any _) ..) fun _ => along_eachE keeps_reads (fun _ => along_writeLimb ..) ..)
      (along_eachE keeps_reads (fun _ => along_writeLimb ..) ..)

theorem along_gatePack (c : Nat) (i : Issued) (r : Nat) : Along (Keeps κ) (gatePack c i r) := by
  unfold gatePack
  exact along_gateRun keeps_reads (along_packChecks keeps_reads ..) (fun _ => along_packWork ..) ..

theorem keeps_startFetch {n : Nat} {m : Miss} (hk : Keeps κ σ τ) : Keeps κ σ (startFetch n m τ) := by
  unfold startFetch
  have picked := keeps_pickFirst (huge := false) (l := placeTests τ 0 0 0) hk
  split
  next h => exact keeps_ite (keeps_of_eq h picked) (keeps_giveUp (keeps_of_eq h picked))
  next f s h =>
    extract_lets t u x v
    have taken : Keeps κ σ u := keeps_setCtxF (keeps_casSome (keeps_takeFrames (keeps_of_eq h picked)))
    clear_value u
    have started : Keeps κ σ v := taken.upd (by simp [v, frame, sizes])
    exact keeps_ite (keeps_sendPacket started) (keeps_sendFetch started)

theorem keeps_takeMiss {n : Nat} {m : Miss} (hk : Keeps κ σ τ) : Keeps κ σ (takeMiss n m τ) := by
  unfold takeMiss
  split
  · exact hk
  · refine keeps_ite hk ?_
    extract_lets +onlyGivenNames s
    have noted : Keeps κ σ s := keeps_ite hk (hk.upd rfl)
    clear_value s
    refine keeps_ite (keeps_startFetch noted) (keeps_ite noted ?_)
    split
    · exact keeps_startFetch (keeps_evictPage noted)
    · exact keeps_giveUp noted

theorem keeps_pageFetchStart (hk : Keeps κ σ τ) : Keeps κ σ (pageFetchStart τ) := by
  unfold pageFetchStart
  split
  · exact hk
  · split
    · exact keeps_takeMiss (hk.upd rfl)
    · exact hk

theorem keeps_unlockExpiry {p : Path} (hk : Keeps κ σ τ) : Keeps κ σ (unlockExpiry p τ) := by
  unfold unlockExpiry
  exact keeps_lockPath hk

theorem keeps_standbyRailLoss (hk : Keeps false σ τ) : Keeps false σ (standbyRailLoss τ) := by
  unfold standbyRailLoss
  exact keeps_lossOfMains (keeps_setPower (hk.upd rfl))

theorem keeps_linkAckTimeout {p : Nat} (hk : Keeps κ σ τ) : Keeps κ σ (linkAckTimeout p τ) := by
  unfold linkAckTimeout
  exact keeps_ite (keeps_replay hk) hk

theorem keeps_close {p : Path} (hk : Keeps κ σ τ) : Keeps κ σ (close p τ) := by
  unfold close
  split
  · exact hk
  · exact keeps_ite hk (keeps_ite (keeps_endCmd (keeps_popCmd hk)) (keeps_ite (keeps_endCmd (keeps_popCmd hk)) (keeps_ite (keeps_endCmd
      (keeps_popCmd hk)) (keeps_setContext (keeps_killContext (keeps_popCmd hk))))))

theorem keeps_bnWaits {j : BnJob} {q : Nat} (hk : Keeps κ σ τ) : Keeps κ σ (bnWaits j q τ).2 := by
  unfold bnWaits
  exact keeps_noteMiss (keeps_setIsland hk)

theorem keeps_bnRun {j : BnJob} (hk : Keeps κ σ τ) : Keeps κ σ (bnRun j τ).2 := by
  unfold bnRun
  split
  · exact hk
  · split
    · exact hk
    · split
      · rename_i u0 e2
        have hu1 := keeps_of_eq e2 (keeps_islandRead hk)
        exact keeps_bnWaits hu1
      · rename_i u3 e5
        have hu4 := keeps_of_eq e5 (keeps_islandRead hk)
        exact hu4
      · rename_i u6 e8
        have hu7 := keeps_of_eq e8 (keeps_islandRead hk)
        exact hu7
      · rename_i u9 e11
        have hu10 := keeps_of_eq e11 (keeps_islandRead hk)
        dsimp only
        split
        · exact hu10
        · split
          · rename_i u12 e14
            have hu13 := keeps_of_eq e14 (keeps_islandRead hu10)
            exact keeps_bnWaits hu13
          · rename_i u15 e17
            have hu16 := keeps_of_eq e17 (keeps_islandRead hu10)
            exact hu16
          · rename_i u18 e20
            have hu19 := keeps_of_eq e20 (keeps_islandRead hu10)
            exact hu19
          · rename_i u21 e23
            have hu22 := keeps_of_eq e23 (keeps_islandRead hu10)
            exact hu22

theorem keeps_bnStartQueued (hk : Keeps κ σ τ) : Keeps κ σ (bnStartQueued τ) := by
  unfold bnStartQueued
  split
  · exact hk
  · split
    · exact hk
    · split
      · rename_i u0 e2
        have hu1 := keeps_of_eq e2 (keeps_bnRun hk)
        exact hu1
      · rename_i u3 e5
        have hu4 := keeps_of_eq e5 (keeps_bnRun hk)
        exact keeps_setIsland hu4

theorem keeps_bnJobStart (hk : Keeps κ σ τ) : Keeps κ σ (bnJobStart τ) := by
  unfold bnJobStart
  split
  · exact hk
  · split
    · exact keeps_ite (keeps_bnStartQueued hk) (keeps_setIsland hk)
    · exact keeps_bnStartQueued hk

theorem keeps_roceNak {port qpn : Nat} {psn : BitVec 24} (hk : Keeps κ σ τ) : Keeps κ σ (roceNak port qpn psn τ) := by
  unfold roceNak
  split
  · exact hk
  · exact keeps_resendFrom hk

theorem keeps_entdaa {a : BitVec 7} (hk : Keeps κ σ τ) : Keeps κ σ (entdaa a τ) := by
  unfold entdaa
  exact keeps_setSideband hk

theorem keeps_pllLock (hk : Keeps false σ τ) : Keeps false σ (pllLock τ) := by
  unfold pllLock
  exact keeps_ite (keeps_setPower hk) hk

theorem keeps_sendControl {p type : Nat} (hk : Keeps κ σ τ) : Keeps κ σ (sendControl p type τ) := by
  unfold sendControl
  exact keeps_wire hk

theorem keeps_ackStamps {src : Nat} {k : Packet} (hk : Keeps κ σ τ) : Keeps κ σ (ackStamps src k τ) := by
  unfold ackStamps
  exact keeps_ite (hk.upd rfl) hk

theorem keeps_linkPacket {p : Nat} {bs : List Byte} (hk : Keeps κ σ τ) : Keeps κ σ (linkPacket p bs τ) := by
  unfold linkPacket
  exact keeps_ite hk (keeps_ite (keeps_sendControl (keeps_bumpE hk)) (keeps_ite (keeps_linkNak (keeps_ackTo (keeps_ite
    (keeps_linkRecord hk) hk))) (keeps_ite (keeps_ackStamps (keeps_ackTo (keeps_ite (keeps_linkRecord hk) hk))) (keeps_ite (keeps_ackTo
    (keeps_ite (keeps_linkRecord hk) hk)) (keeps_ite (keeps_sendControl (keeps_ackTo (keeps_ite (keeps_linkRecord hk) hk))) (keeps_ite
    (keeps_deliver (keeps_sendControl (keeps_setLink (keeps_ackTo (keeps_ite (keeps_linkRecord hk) hk))))) (keeps_sendControl
    (keeps_setLink (keeps_ackTo (keeps_ite (keeps_linkRecord hk) hk))))))))))

theorem along_sealCreateOne (c : Nat) (i : Issued) (r : Nat) : Along (Keeps κ) (sealCreateOne c i r) := by
  unfold sealCreateOne
  refine keeps_reads.bind (along_msgIssue keeps_reads ..) fun _ => ?_
  refine keeps_reads.bind keeps_reads.get fun _ => ?_
  refine keeps_reads.bind (along_needE keeps_reads ..) fun _ => ?_
  refine keeps_reads.bind (along_needE keeps_reads ..) fun _ => ?_
  extract_lets +onlyGivenNames -underBinder -merge -useContext jp0
  have hjp1 : ∀ x, Along (Keeps κ) (jp0 x) := by
    intro x
    exact keeps_reads.pure _
  clear_value jp0
  split
  · exact keeps_reads.bind (along_failE keeps_reads ..) fun _ => hjp1 _
  · exact keeps_reads.bind (along_act keeps_reads (fun _ => keeps_setCtxF (keeps_setSeal (Keeps.refl _))) ..) fun _ => hjp1 _

theorem keeps_suspend {ctx : Nat} (hk : Keeps κ σ τ) : Keeps κ σ (suspend ctx τ) := by
  unfold suspend
  exact keeps_expressRow (fun _ _ => keeps_ite (keeps_endExpress (Keeps.refl _)) (keeps_ite (keeps_leftAll (keeps_noteEffect
    (Keeps.refl _))) (keeps_stopAll (Keeps.refl _)))) hk

theorem keeps_dispatchTo {c ctx : Nat} {q : QueueId} {i : Issued} (hk : Keeps κ σ τ) : Keeps κ σ (dispatchTo c ctx q i τ) := by
  unfold dispatchTo
  exact keeps_setCore (keeps_ite (keeps_setChain (keeps_setStream hk)) (keeps_setStream hk))

theorem keeps_haltAt {c ctx w slot : Nat} {r : Reason} {cause : Nat} (hk : Keeps κ σ τ) : Keeps κ σ (haltAt c ctx w slot r cause τ) :=
    by
  unfold haltAt
  exact keeps_haltStream hk

theorem keeps_dispatchWord {c ctx w slot : Nat} {d : State} (hd : Keeps κ σ d) (hk : Keeps κ σ τ) :
    Keeps κ σ ((dispatchWord c ctx w slot τ).getD d) := by
  unfold dispatchWord
  extract_lets +onlyGivenNames t i
  split
  · rw [Option.getD_some]
    exact keeps_haltAt hk
  · split
    · rw [Option.getD_some]
      exact keeps_setCore (keeps_setStream hk)
    · split
      · rw [Option.getD_some]
        exact keeps_dispatchTo hk
      · split
        · exact hd
        · rw [Option.getD_some]
          exact keeps_setStream hk

theorem keeps_eccReload {c ctx : Nat} (hk : Keeps κ σ τ) : Keeps κ σ (eccReload c ctx τ) := by
  unfold eccReload
  dsimp only
  split
  · exact hk
  · exact keeps_ite (keeps_setStream (keeps_bumpE (keeps_reloadBlock hk))) hk

theorem keeps_attempt {c ctx : Nat} {d : State} (hd : Keeps κ σ d) (hk : Keeps κ σ τ) : Keeps κ σ ((attempt c ctx τ).getD d) := by
  unfold attempt
  split
  · split
    · exact keeps_dispatchWord hd hk
    · extract_lets +onlyGivenNames s
      have loaded : Keeps κ σ s := keeps_eccReload hk
      clear_value s
      split
      · exact hd
      · rw [Option.getD_some]
        exact keeps_haltStream loaded
      · extract_lets rb t
        refine keeps_dispatchWord hd ?_
        unfold t
        split
        · exact keeps_setStream loaded
        · exact loaded
  · exact hd

theorem keeps_firstAttempt {c : Nat} {l : List Nat} (hk : Keeps κ σ τ) : Keeps κ σ ((firstAttempt c τ l).getD τ) := by
  induction l with
  | nil => exact hk
  | cons k r ih =>
    rw [firstAttempt]
    split
    next v hv =>
      rw [Option.getD_some]
      refine keeps_setCore ?_
      split at hv
      next ctx _ =>
        have tried := keeps_attempt (c := c) (ctx := ctx) hk hk
        rwa [hv] at tried
      · cases hv
    · exact ih

theorem keeps_dispatch {c : Nat} (hk : Keeps κ σ τ) : Keeps κ σ (dispatch c τ) := keeps_firstAttempt hk

theorem keeps_emptyChain {k : Nat} (hk : Keeps κ σ τ) : Keeps κ σ (emptyChain k τ) := by
  unfold emptyChain
  exact keeps_ite hk (keeps_bumpE (keeps_setChain hk))

theorem keeps_sharedResetEnd (hk : Keeps false σ τ) : Keeps false σ (sharedResetEnd τ) := by
  unfold sharedResetEnd
  refine keeps_ite ?_ hk
  extract_lets s t u
  have freed : Keeps false σ t :=
    keeps_foldl (fun _ _ => keeps_ite (keeps_freeResult (Keeps.refl _)) (Keeps.refl _))
      (keeps_foldl (fun _ _ => keeps_emptyChain (Keeps.refl _)) hk)
  clear_value t
  refine keeps_semUncommit (keeps_bumpE (keeps_setPower (keeps_setIsland_off (freed.trans ?_))))
  refine ⟨rfl, fusesHold_of_eq rfl, id, fun hs => ?_, nofun, nofun⟩
  obtain ⟨dies, hbm, ports, links, engines, chains, paths, fetches, queues, _⟩ := hs
  exact ⟨by simp [dies], hbm, ports, links, engines, chains, paths, fetches, queues, rfl⟩

theorem keeps_rstdaa (hk : Keeps κ σ τ) : Keeps κ σ (rstdaa τ) := by
  unfold rstdaa
  exact keeps_setSideband hk

theorem keeps_roleConflict (hk : Keeps κ σ τ) : Keeps κ σ (roleConflict τ) := by
  unfold roleConflict
  exact hk.upd rfl

theorem keeps_linkTrainDone {p : Nat} {peer : Option PeerIdentity} (hk : Keeps κ σ τ) : Keeps κ σ (linkTrainDone p peer τ) := by
  unfold linkTrainDone
  split
  · exact hk
  · split
    · exact keeps_setLink (keeps_roleConflict (keeps_setLink hk))
    · exact keeps_ite (keeps_flushHeld (keeps_setLink (keeps_roleConflict (keeps_setLink hk)))) (keeps_linkRecord (keeps_setLink
        (keeps_roleConflict (keeps_setLink hk))))

theorem keeps_sealImportRow {c : Nat} (hk : Keeps κ σ τ) : Keeps κ σ (sealImportRow c τ) := by
  unfold sealImportRow
  split
  · exact hk
  next i _ =>
    have refused (r : Reason) : Keeps κ σ (importFault c i r τ) := keeps_importFault hk
    extract_lets +onlyGivenNames w id v s
    have begun : Keeps κ σ s := keeps_setHead hk
    clear_value s v
    refine keeps_ite (keeps_msgRepeatDone hk) (keeps_ite (refused _) (keeps_ite (refused _) (keeps_ite hk (keeps_ite (refused _)
      (keeps_ite (refused _) (keeps_ite (refused _) ?_))))))
    split
    · exact refused _
    · exact keeps_ite (refused _) (keeps_routeTo (begun.upd rfl))

theorem keeps_sliceExpiry {ctx : Nat} (hk : Keeps κ σ τ) : Keeps κ σ (sliceExpiry ctx τ) := by
  unfold sliceExpiry
  exact keeps_ite (keeps_beginLeave hk) hk

theorem keeps_pageFetchTimeout {n : Nat} (hk : Keeps κ σ τ) : Keeps κ σ (pageFetchTimeout n τ) := by
  unfold pageFetchTimeout
  split
  · exact hk
  · exact keeps_retryFetch hk

theorem keeps_qpDestroy {p : Path} (hk : Keeps κ σ τ) : Keeps κ σ (qpDestroy p τ) := by
  unfold qpDestroy
  refine keeps_runCmd (fun _ _ => ?_) hk
  · dsimp only
    split
    · exact keeps_ite (keeps_endCmd ((Keeps.refl _).upd rfl)) (keeps_endCmd (Keeps.refl _))
    · exact keeps_endCmd (Keeps.refl _)

theorem keeps_qpCreate {p : Path} (hk : Keeps κ σ τ) : Keeps κ σ (qpCreate p τ) := by
  unfold qpCreate
  refine keeps_runCmd (fun _ _ => ?_) hk
  · dsimp only
    split
    · exact keeps_endCmd (Keeps.refl _)
    · exact keeps_ite (keeps_endCmd (Keeps.refl _)) (keeps_endCmd ((keeps_draw (Keeps.refl _)).upd rfl))

theorem keeps_relayStall {c k : Nat} (hk : Keeps κ σ τ) : Keeps κ σ (relayStall c k τ) := by
  unfold relayStall
  split
  · exact hk
  · exact keeps_ite (keeps_stageRec (keeps_bumpE (keeps_bumpE (keeps_setRelay hk)))) hk

theorem keeps_readArea {ctx base off n : Nat} (hk : Keeps κ σ τ) : Keeps κ σ (readArea ctx base off n τ).2.2 := by
  unfold readArea
  exact keeps_unitRead hk

theorem keeps_areasOk {ctx base : Nat} {l : List (Nat × List Byte)} (hk : Keeps κ σ τ) : Keeps κ σ (areasOk ctx base l τ).2 := by
  unfold areasOk
  exact keeps_foldl_snd (fun _ _ => keeps_readArea (Keeps.refl _)) hk

theorem keeps_putBack {ctx c : Nat} (hk : Keeps κ σ τ) : Keeps κ σ (putBack ctx c τ) := by
  unfold putBack
  exact keeps_setStream (keeps_setCore hk)

theorem keeps_loadVregs {ctx c : Nat} {b : List Byte} (hk : Keeps κ σ τ) : Keeps κ σ (loadVregs ctx c b τ) := by
  unfold loadVregs
  exact keeps_setCore hk

theorem keeps_contextRestoreDone {c ctx : Nat} (hk : Keeps κ σ τ) : Keeps κ σ (contextRestoreDone c ctx τ) := by
  unfold contextRestoreDone
  refine keeps_ite ?_ hk
  extract_lets +onlyGivenNames s
  have used : Keeps κ σ s := keeps_unitUse hk
  clear_value s
  split
  · obtain ⟨r, hr⟩ := named (readArea ctx (saveBase s ctx c) 0x1000 0x2104 s)
    have first : Keeps κ σ r.2.2 := by
      rw [← hr]
      exact keeps_readArea used
    extract_lets +onlyGivenNames b x
    rw [show x = r from hr]
    extract_lets a
    have read : Keeps κ σ a.2 := keeps_areasOk first
    clear_value a
    exact keeps_ite (keeps_putBack (keeps_loadVregs read)) (keeps_saveFault read)
  · exact keeps_saveFault used
  · exact keeps_putBack used

theorem keeps_abortNotice {d m : Nat} (hk : Keeps κ σ τ) : Keeps κ σ (abortNotice d m τ) := by
  unfold abortNotice
  exact keeps_peerMessage hk

theorem keeps_blockLoad {c ctx : Nat} (hk : Keeps κ σ τ) : Keeps κ σ (blockLoad c ctx τ) := by
  unfold blockLoad
  split
  · split
    · exact hk
    · dsimp only
      split
      · split
        · rename_i u0 e2
          have hu1 := keeps_of_eq e2 (keeps_ringWords hk)
          exact keeps_ringReadFails hu1
        · rename_i u3 e5
          have hu4 := keeps_of_eq e5 (keeps_ringWords hk)
          split
          · exact keeps_setBlock (keeps_ite hu4 (keeps_takeBlock hu4))
          · exact keeps_ite hu4 (keeps_takeBlock hu4)
      · exact hk
  · exact hk

theorem keeps_managerJoin {confirmed : Bool} {table : List (Nat × BitVec 48)} (hk : Keeps κ σ τ) : Keeps κ σ (managerJoin confirmed
    table τ) := by
  unfold managerJoin
  exact keeps_ite hk (keeps_ite (keeps_foldl (fun _ _ => keeps_routeTo (Keeps.refl _)) (hk.upd rfl)) (hk.upd rfl))

theorem keeps_getstatus (hk : Keeps κ σ τ) : Keeps κ σ (getstatus τ) := by
  unfold getstatus
  split
  · rename_i u0 e2
    have hu1 := keeps_of_eq e2 (keeps_draw hk)
    exact keeps_i3cAnswer hu1

theorem keeps_bnYieldPoint (hk : Keeps κ σ τ) : Keeps κ σ (bnYieldPoint τ) := by
  unfold bnYieldPoint
  split
  · exact hk
  · exact keeps_ite (keeps_ite (keeps_bnStartQueued (keeps_setIsland hk)) (keeps_setIsland (keeps_bnStartQueued (keeps_setIsland hk))))
      hk

theorem keeps_setEndpointId {eid : BitVec 8} (hk : Keeps κ σ τ) : Keeps κ σ (setEndpointId eid τ) := by
  unfold setEndpointId
  exact keeps_served (fun _ => keeps_ite (keeps_mctpControl (Keeps.refl _)) (keeps_mctpControl ((Keeps.refl _).upd rfl))) hk

theorem keeps_handOn {c : Nat} (hk : Keeps κ σ τ) : Keeps κ σ (handOn c τ) := by
  unfold handOn
  exact keeps_ite (keeps_setEngine hk) (keeps_setRelay hk)

theorem keeps_parcelArrival {c : Nat} {crcOk : Bool} (hk : Keeps κ σ τ) : Keeps κ σ (parcelArrival c crcOk τ) := by
  unfold parcelArrival
  split
  · exact hk
  · extract_lets +onlyGivenNames p
    refine keeps_ite (keeps_ite ?_ hk) ?_
    · exact keeps_setRelay hk
    · split
      · exact hk
      · exact keeps_ite (keeps_setRelay (keeps_ite (keeps_handOn hk) (keeps_bumpE (keeps_handOn hk)))) hk

theorem keeps_getEndpointUuid (hk : Keeps κ σ τ) : Keeps κ σ (getEndpointUuid τ) := by
  unfold getEndpointUuid
  exact keeps_mctpControl hk

end

end Sys2Proof.Machine

/-! ## Every step keeps the queue's rest, the fuses, the form of memory and the number of units -/

namespace Sys2Proof.Machine

open Sys2Proof.Safety

/-- What an instruction goes on to keeps what every step keeps. -/
def Stays (s : State) (o : Host.Outcome State Fault Refusal) : Prop := ∀ t, o = .next t → Keeps false s t

theorem stays_next {s t : State} (h : Keeps false s t) : Stays s (.next t) := fun _ e => Host.Outcome.next.inj e ▸ h

theorem stays_poly {c op : Nat} {data : PolyJob → Eng Bool} {s : State} (hdata : ∀ j, Along (Keeps false) (data j)) :
    Stays s (.next (polyRow c op (polyRun data) s)) :=
  stays_next (keeps_polyRow (fun _ _ _ => along_polyRun keeps_writes (allows_any _) (fun j _ => hdata j) ..) (.refl s))

/-- Every instruction, on every state, by the function that gives it its meaning. -/
theorem stays_exec (i : Instr) (s : State) : Stays s (exec i s) := by
  cases i with
  | mtLoad | mtEvict | activate | drain | cpResume | cpSkip | debugHalt | imemReload | imemReloadForce | sealDbgSet | pinWaysWrite |
  bwSplitWrite | spreadWrite | tgStart | tgStop | tgEnterTest | tgLeaveTest | updHeadWrite | ethSpeedWrite | macsecSakLoad | semAcquire
  | semRenew | semRelease | semBreak | linkCommandTrain | linkCommandDown | spareModeWrite | ackWrite | unlock | fwStage | fwActivate |
  fwSvnCommit | rootRevoke | kexCommand | slotErase | bnJob | resetCtrlCold | resetCtrlShared | coreClk | clkAll | pwrStateReq |
  registerWrite =>
    exact stays_next (keeps_unitRow (.refl _))
  | mtLoadEnd => exact stays_next (keeps_mtLoadEnd (.refl _))
  | mtEvictEnd => exact stays_next (keeps_mtEvictEnd (.refl _))
  | activateDone => exact stays_next (keeps_activateDone (.refl _))
  | drainComplete => exact stays_next (keeps_drainComplete (.refl _))
  | nttFwd => exact stays_poly fun _ => along_dataNttFwd keeps_writes (allows_any _) ..
  | nttInv => exact stays_poly fun _ => along_dataNttInv keeps_writes (allows_any _) ..
  | auto => exact stays_poly fun _ => along_dataAuto keeps_writes (allows_any _) ..
  | pwAdd => exact stays_poly fun _ => along_dataPwAdd keeps_writes (allows_any _) ..
  | pwSub => exact stays_poly fun _ => along_dataPwSub keeps_writes (allows_any _) ..
  | pwNeg => exact stays_poly fun _ => along_dataPwNeg keeps_writes (allows_any _) ..
  | pwMul => exact stays_poly fun _ => along_dataPwMul keeps_writes (allows_any _) ..
  | pwMac => exact stays_poly fun _ => along_dataPwMac keeps_writes (allows_any _) ..
  | pwMulc => exact stays_poly fun _ => along_dataPwMulc keeps_writes (allows_any _) ..
  | pwMacc => exact stays_poly fun _ => along_dataPwMacc keeps_writes (allows_any _) ..
  | tensor => exact stays_poly fun _ => along_dataTensor keeps_writes (allows_any _) ..
  | rescale => exact stays_poly fun _ => along_dataRescale keeps_writes (allows_any _) ..
  | transpose => exact stays_poly fun _ => along_dataTranspose keeps_writes (allows_any _) ..
  | openObj => exact stays_next (keeps_polyRow (fun _ _ _ => along_polyOpen keeps_writes (allows_any _) ..) (.refl _))
  | commit => exact stays_next (keeps_polyRow (fun _ _ _ => along_polyCommitObj keeps_writes (allows_any _) ..) (.refl _))
  | keyMac => exact stays_next (keeps_keyMacRow (.refl _))
  | bconv => exact stays_next (keeps_bconvRowCmd (.refl _))
  | gLin => exact stays_next (keeps_gateRow (fun _ _ _ => along_gateLin ..) (.refl _))
  | gCombine => exact stays_next (keeps_gateRow (fun _ _ _ => along_gateCombine ..) (.refl _))
  | gExtract => exact stays_next (keeps_gateRow (fun _ _ _ => along_gateExtract ..) (.refl _))
  | gPack => exact stays_next (keeps_gateRow (fun _ _ _ => along_gatePack ..) (.refl _))
  | gKsw => exact stays_next (keeps_gKswRow (.refl _))
  | gRefresh => exact stays_next (keeps_gRefreshRow (.refl _))
  | mm => exact stays_next (keeps_mmRow (.refl _))
  | tilePush => exact stays_next (keeps_tilePush (.refl _))
  | arrivalChunkMet => exact stays_next (keeps_arrivalChunkMet (.refl _))
  | vadd | vsub | vmul | vfma | vmax | vmin | vneg | vabs | vcvt | vcmp | vsel | vexp | vlog | vrsqrt | vrecip | vsqrt | vtanh | vsigm |
  vrelu | vsilu | vgelu | viadd | visub | vimul | vshr | vand | vor | vxor | vimax | vimin | vrsum | vrmax | vrmin | vrssq | vrisum |
  vrowfin | vldr | vstr =>
    exact stays_next (keeps_vecRow (.refl _))
  | tilePop => exact stays_next (keeps_tilePop (.refl _))
  | keyStream => exact stays_next (keeps_keyStreamRow (.refl _))
  | streamStart => exact stays_next (keeps_streamStart (.refl _))
  | parcelForm => exact stays_next (keeps_parcelForm (.refl _))
  | parcelArrival => exact stays_next (keeps_parcelArrival (.refl _))
  | relayStall => exact stays_next (keeps_relayStall (.refl _))
  | doorbell => exact stays_next (keeps_doorbell (.refl _))
  | blockLoad => exact stays_next (keeps_blockLoad (.refl _))
  | dispatch => exact stays_next (keeps_dispatch (.refl _))
  | waitMet => exact stays_next (keeps_waitMetRow (.refl _))
  | instructionRetire => exact stays_next (keeps_instructionRetire (.refl _))
  | nop => exact stays_next (keeps_ctrlNop (.refl _))
  | agSet => exact stays_next (keeps_ctrlAgSet (.refl _))
  | agReset => exact stays_next (keeps_ctrlAgReset (.refl _))
  | sealBind => exact stays_next (keeps_ctrlSealBind (.refl _))
  | loop => exact stays_next (keeps_ctrlLoop (.refl _))
  | loopPin => exact stays_next (keeps_loopPin (.refl _))
  | fence => exact stays_next (keeps_ctrlFence (.refl _))
  | mark => exact stays_next (keeps_ctrlMark (.refl _))
  | endStream => exact stays_next (keeps_ctrlEnd (.refl _))
  | halt => exact stays_next (keeps_ctrlHaltInstr (.refl _))
  | streamFinish => exact stays_next (keeps_streamFinish (.refl _))
  | imemReloadHeldDone => exact stays_next (keeps_reloadHeldDone (.refl _))
  | send => exact stays_next (keeps_sendRow (.refl _))
  | recv => exact stays_next (keeps_runEngine (fun _ _ => along_recvOne ..) (.refl _))
  | poll => exact stays_next (keeps_runEngine (fun _ _ => along_recvOne ..) (.refl _))
  | mbOpen => exact stays_next (keeps_runEngine (fun _ _ => along_mbOpenOne ..) (.refl _))
  | mbClose => exact stays_next (keeps_runEngine (fun _ _ => along_mbCloseOne ..) (.refl _))
  | soOpen => exact stays_next (keeps_runEngine (fun _ _ => along_soOpenOne ..) (.refl _))
  | stampPut => exact stays_next (keeps_runEngine (fun _ _ => along_stampPutOne ..) (.refl _))
  | sealCreate => exact stays_next (keeps_runEngine (fun _ _ => along_sealCreateOne ..) (.refl _))
  | sealFree => exact stays_next (keeps_runEngine (fun _ _ => along_sealFreeOne ..) (.refl _))
  | sealAdd => exact stays_next (keeps_runEngine (fun _ _ => along_sealAddOne keeps_reads ..) (.refl _))
  | soClose => exact stays_next (keeps_soCloseRow (.refl _))
  | stampGet => exact stays_next (keeps_stampGetRow (.refl _))
  | sealImport => exact stays_next (keeps_sealImportRow (.refl _))
  | sealImportResponse => exact stays_next (keeps_sealImportResponse (.refl _))
  | envelopeArrival => exact stays_next (keeps_envelopeArrival (.refl _))
  | officeRoundComplete => exact stays_next (keeps_officeRoundComplete (.refl _))
  | receiptArrival => exact stays_next (keeps_receiptArrival (.refl _))
  | sendStallEvent => exact stays_next (keeps_sendStallEvent (.refl _))
  | stampGrant => exact stays_next (keeps_stampGrant (.refl _))
  | remoteBurstWrite => exact stays_next (keeps_remoteBurstWrite (.refl _))
  | stampReturn => exact stays_next (keeps_stampReturn (.refl _))
  | sealUpdate => exact stays_next (keeps_sealUpdate (.refl _))
  | copy => exact stays_next (keeps_copyRow (.refl _))
  | prefetch => exact stays_next (keeps_prefetchRow (.refl _))
  | zero => exact stays_next (keeps_zeroRow (.refl _))
  | relayW => exact stays_next (keeps_relayWRow (.refl _))
  | scrubRead => exact stays_next (keeps_scrubRead (.refl _))
  | hbmRefresh => exact stays_next (keeps_hbmRefresh (.refl _))
  | retiredListCopy => exact stays_next (keeps_retiredListCopy (.refl _))
  | contextOpen => exact stays_next (keeps_contextOpen (.refl _))
  | contextSet => exact stays_next (keeps_contextSet (.refl _))
  | reopen => exact stays_next (keeps_reopen (.refl _))
  | close => exact stays_next (keeps_close (.refl _))
  | closeComplete => exact stays_next (keeps_closeComplete (.refl _))
  | map => exact stays_next (keeps_mapCmd (.refl _))
  | mapComplete => exact stays_next (keeps_mapComplete (.refl _))
  | unmap => exact stays_next (keeps_unmap (.refl _))
  | mapHosted => exact stays_next (keeps_mapHosted (.refl _))
  | suspend => exact stays_next (keeps_suspend (.refl _))
  | contextResume => exact stays_next (keeps_contextResume (.refl _))
  | kill => exact stays_next (keeps_kill (.refl _))
  | contextHalt => exact stays_next (keeps_contextHalt (.refl _))
  | priority => exact stays_next (keeps_priority (.refl _))
  | expressTakeEffect => exact stays_next (keeps_expressTakeEffect (.refl _))
  | contextSaveDone => exact stays_next (keeps_contextSaveDone (.refl _))
  | pageFetchStart => exact stays_next (keeps_pageFetchStart (.refl _))
  | pageFetchComplete => exact stays_next (keeps_pageFetchComplete (.refl _))
  | pageFetchTimeout => exact stays_next (keeps_pageFetchTimeout (.refl _))
  | pageAgeTick => exact stays_next (keeps_pageAgeTick (.refl _))
  | residencyChange => exact stays_next (keeps_residencyChange (.refl _))
  | sliceExpiry => exact stays_next (keeps_sliceExpiry (.refl _))
  | updJobStart => exact stays_next (keeps_updJobStart (.refl _))
  | jobHeaderReceive => exact stays_next (keeps_jobHeaderReceive (.refl _))
  | updPeerTimeout => exact stays_next (keeps_updPeerTimeout (.refl _))
  | chunkReceive => exact stays_next (keeps_chunkReceive (.refl _))
  | verdictReceive => exact stays_next (keeps_verdictReceive (.refl _))
  | updJobEnd => exact stays_next (keeps_updJobEnd (.refl _))
  | abortNoticeReceive => exact stays_next (keeps_abortNotice (.refl _))
  | ethFrameDrop => exact stays_next (keeps_frameDropRow (.refl _))
  | ethTrainingDone => exact stays_next (keeps_ethTrainingDone (.refl _))
  | roceRdmaWrite => exact stays_next (keeps_roceRow (fun _ => keeps_roceWrite (.refl _)) (.refl _))
  | roceRdmaRead => exact stays_next (keeps_roceRow (fun _ => keeps_roceRead (.refl _)) (.refl _))
  | roceNakReceive => exact stays_next (keeps_roceNak (.refl _))
  | roceTimeout => exact stays_next (keeps_roceTimeout (.refl _))
  | roceCnpReceive => exact stays_next (keeps_roceCnp (.refl _))
  | roceRateRaise => exact stays_next (keeps_roceRaise (.refl _))
  | qpCreate => exact stays_next (keeps_qpCreate (.refl _))
  | qpDestroy => exact stays_next (keeps_qpDestroy (.refl _))
  | watch => exact stays_next (keeps_watch (.refl _))
  | watchReady => exact stays_next (keeps_watchReady (.refl _))
  | commandPayload | doorbellPayload => exact stays_next (keeps_payloadRow (.refl _))
  | resultRead => exact stays_next (keeps_resultRead (.refl _))
  | resultRelease => exact stays_next (keeps_resultRelease (.refl _))
  | resultTtlExpiry => exact stays_next (keeps_resultTtlExpiry (.refl _))
  | semLeaseExpiry => exact stays_next (keeps_semLeaseExpiry (.refl _))
  | linkPacketReceive => exact stays_next (keeps_linkPacket (.refl _))
  | linkNakReceive => exact stays_next (keeps_linkNak (.refl _))
  | linkAckTimeout => exact stays_next (keeps_linkAckTimeout (.refl _))
  | linkRetrainEnd => exact stays_next (keeps_linkRetrainEnd (.refl _))
  | linkTrainDone => exact stays_next (keeps_linkTrainDone (.refl _))
  | relayCmd => exact stays_next (keeps_relayCmd (.refl _))
  | managerJoin => exact stays_next (keeps_managerJoin (.refl _))
  | relayedPage => exact stays_next (keeps_relayedPage (.refl _))
  | relayFrame => exact stays_next (keeps_relayFrame (.refl _))
  | dictFrame => exact stays_next (keeps_dictFrame (.refl _))
  | dictRead | dbgMemRead | dbgMbEnvelope => exact stays_next (keeps_dictRead (.refl _))
  | dictWrite => exact stays_next (keeps_dictWrite (.refl _))
  | describe => exact stays_next (keeps_describe (.refl _))
  | rawRead => exact stays_next (keeps_rawReadRow (.refl _))
  | rawWrite => exact stays_next (keeps_rawWriteRow (.refl _))
  | unlockExpiry => exact stays_next (keeps_unlockExpiry (.refl _))
  | notifySend => exact stays_next (keeps_notifySend (.refl _))
  | mctpMessage => exact stays_next (keeps_mctpMessage (.refl _))
  | setEndpointId => exact stays_next (keeps_setEndpointId (.refl _))
  | getEndpointId => exact stays_next (keeps_getEndpointId (.refl _))
  | getEndpointUuid => exact stays_next (keeps_getEndpointUuid (.refl _))
  | getMctpVersionSupport | getMessageTypeSupport | getVendorDefinedMsgSupport => exact stays_next (keeps_mctpSupport (.refl _))
  | entdaa => exact stays_next (keeps_entdaa (.refl _))
  | setdasa => exact stays_next (keeps_setdasa (.refl _))
  | rstdaa => exact stays_next (keeps_rstdaa (.refl _))
  | enec => exact stays_next (keeps_enec (.refl _))
  | disec => exact stays_next (keeps_disec (.refl _))
  | getpid => exact stays_next (keeps_getpid (.refl _))
  | getbcr | getdcr | getmxds | getmrl | getmwl => exact stays_next (keeps_i3cAnswer (.refl _))
  | getstatus => exact stays_next (keeps_getstatus (.refl _))
  | setmrl => exact stays_next (keeps_setmrl (.refl _))
  | setmwl => exact stays_next (keeps_setmwl (.refl _))
  | boot => exact stays_next (keeps_boot (.refl _))
  | fwStageDone => exact stays_next (keeps_fwStageDone (.refl _))
  | attestNonce | dbgMemWrite => exact stays_next (keeps_octetsRow (.refl _))
  | attestDone => exact stays_next (keeps_attestDone (.refl _))
  | kexDone => exact stays_next (keeps_kexDone (.refl _))
  | bnJobStart => exact stays_next (keeps_bnJobStart (.refl _))
  | bnYieldPoint => exact stays_next (keeps_bnYieldPoint (.refl _))
  | bnJobEnd => exact stays_next (keeps_bnJobEnd (.refl _))
  | powerOn => exact stays_next (keeps_powerOn (.refl _))
  | pwrEnAssert => exact stays_next (keeps_pwrEnAssert (.refl _))
  | pwrEnDeassert => exact stays_next (keeps_pwrEnDeassert (.refl _))
  | inputFault => exact stays_next (keeps_inputFault (.refl _))
  | pllLock => exact stays_next (keeps_pllLock (.refl _))
  | pllLoss => exact stays_next (keeps_pllLoss (.refl _))
  | throttleUpdate => exact stays_next (keeps_throttleUpdate (.refl _))
  | thermalAlert => exact stays_next (keeps_thermalAlert (.refl _))
  | thermalTrip => exact stays_next (keeps_thermalTrip (.refl _))
  | rstN => exact stays_next (keeps_rstN (.refl _))
  | sharedResetEnd => exact stays_next (keeps_sharedResetEnd (.refl _))
  | clkSwitchDone => exact stays_next (keeps_clkSwitchDone (.refl _))
  | pwrEntryDone => exact stays_next (keeps_pwrEntryDone (.refl _))
  | wakeEvent => exact stays_next (keeps_wakeEvent (.refl _))
  | pwrExitDone => exact stays_next (keeps_pwrExitDone (.refl _))
  | faultLogAccept => exact stays_next (keeps_faultLogAccept (.refl _))
  | traceRecordWrite => exact stays_next (keeps_traceRecordWrite (.refl _))
  | syncMarkSend => exact stays_next (keeps_syncMarkSend (.refl _))
  | syncMarkReceive => exact stays_next (keeps_syncMarkReceive (.refl _))
  | retireWindowExpiry => exact stays_next (keeps_retireWindowExpiry (.refl _))
  | contextRestoreDone => exact stays_next (keeps_contextRestoreDone (.refl _))
  | linkPeerSeen => exact stays_next (keeps_linkPeerSeen (.refl _))
  | pwrGoodAssert => exact stays_next (keeps_pwrGoodAssert (.refl _))
  | inputInRange => exact stays_next (keeps_inputInRange (.refl _))
  | standbyRailLoss => exact stays_next (keeps_standbyRailLoss (.refl _))
  | fwActivateDone => exact stays_next (keeps_fwActivateDone (.refl _))

theorem keeps_tick (s : State) : Keeps false s (tick s) := by
  have hdies : (tick s).dies.length = s.dies.length := by
    unfold tick
    split
    · exact List.length_map _
    · rfl
  refine keeps_of_frame ?_
  unfold frame sizes
  rw [hdies]
  rfl

/-- A step takes the front command off the queue and otherwise keeps what every step keeps. -/
theorem step_next {s t : State} (h : step s = .next t) : Keeps false { s with pending := s.pending.tail } t := by
  unfold step at h
  split at h
  next hp =>
    rw [hp, List.tail_nil, ← hp]
    exact Host.Outcome.next.inj h ▸ keeps_tick s
  next c rest hp =>
    rw [hp, List.tail_cons]
    exact stays_exec c _ t h

/-- Settles O5: by what every instruction keeps. -/
theorem stepKeepsQueueAndFuses : Obligations.StepKeepsQueueAndFuses := by
  intro s t h
  have kept := step_next h
  have fuses : FusesHold s { s with pending := s.pending.tail } := fusesHold_of_eq rfl
  exact ⟨kept.pending, fusesHold_trans fuses kept.fuses⟩

/-- Settles O4: by what every instruction keeps; the queue is no part of it. -/
theorem stepKeepsHolds : Obligations.StepKeepsHolds := by
  intro s t hs h
  have kept := step_next h
  have shape : Shape { s with pending := s.pending.tail } := shape_of_sizes (s := s) rfl hs.shape
  exact ⟨kept.memory hs.memory, kept.shape shape⟩

end Sys2Proof.Machine

/-! ## Firmware: boot, staging, activation and the fuses' commits (R384 to R387) -/

namespace Sys2Proof.Machine

open Sys2Proof.Safety

/-- The state in which the ports begin to train after a boot of the slot b. -/
def booted (b : Bool) (status : Word32) (s : State) : State :=
  setPower (fun p => { p with state := 0, exiting := false }) (runImage b (setIsland (fun i => { i with bootStatus := status }) s))

/-- BOOT with a preferred slot that passes its check runs that slot. -/
theorem boot_preferred {s : State} (hboot : s.island.state = 0) (hgood : s.power.pwrGood = true) (hpll : s.power.pll = 2)
    (hslot : slotCheck s (if s.flash.bootPref then s.flash.slotB else s.flash.slotA) = 1) :
    ∃ status, boot s = portsTrain (booted s.flash.bootPref status s) := by
  have hup : ¬ (s.island.state ≠ 0 ∨ s.power.pwrGood = false ∨ s.power.pll ≠ 2) := by simp [hboot, hgood, hpll]
  simp only [boot, if_neg hup, hslot, BEq.rfl, Bool.true_or, if_true]
  exact ⟨_, rfl⟩

theorem fwStageW_starts {p : Path} {v : Nat} {s : State} (ha : ctxAddrOk 4096 v = true) (hp : holderOrSideband s p = true)
    (hbusy : s.island.fwState ≠ 1) (hdone : s.island.fwState ≠ 4) :
    fwStageW p v s = (0, setIsland (fun i => { i with
      fwState := 1, fwReason := 0, fwCtx := bits v 59 48, fwAddr := bits v 47 0, fwOwner := some p,
      fwWait := none, fwFailed := false }) s) := by
  simpa [fwStageW, ha, hp] using And.intro hbusy hdone

/-- The end of a staging whose image is read whole and passes its checks. -/
theorem fwStageDone_good {hb body : List Byte} {s s1 s2 : State} (hst : s.island.fwState = 1) (hok : s.island.fwFailed = false)
    (hhead : islandRead s.island.fwCtx s.island.fwAddr 1024 s = (.bytes hb, s1)) (hcheck : headerCheck s1 hb = 0)
    (hread : islandRead s.island.fwCtx (s.island.fwAddr + 1024) (imgLen (ofLe hb)) s1 = (.bytes body, s2))
    (hbody : bodyOk hb body = true) :
    fwStageDone s = setIsland (fun i => { i with
      fwState := 2, fwReason := 0, fwOwner := none, fwVersionStaged := BitVec.ofNat 32 (bits (ofLe hb) 95 64) })
      (setStaged { header := hb, body := body, readable := true } s2) := by
  have hstage : stageBody s.island.fwCtx (s.island.fwAddr + 1024) hb s1 = setIsland (fun i => { i with
      fwState := 2, fwReason := 0, fwOwner := none, fwVersionStaged := BitVec.ofNat 32 (bits (ofLe hb) 95 64) })
      (setStaged { header := hb, body := body, readable := true } s2) := by
    simp only [stageBody, hread, hbody, if_true]
  simp [fwStageDone, hst, hok, hhead, hcheck, hstage]

theorem fwActivateW_commits {p : Path} {s : State} (hp : holderOrSideband s p = true) (hst : s.island.fwState = 2)
    (hidle : s.island.activating = false) :
    fwActivateW p 1 s = (0, semCommit (setIsland (fun i => { i with activating := true }) s)) := by
  simp [fwActivateW, hp, hst, hidle]

theorem fwSvnCommitW_rises {p : Path} {s : State} (hp : holderOrSideband s p = true) (hlow : fuseSvn s < s.island.imgSvn.toNat) :
    fwSvnCommitW p 1 s = (0, { setReg 0x4010 4 1 s with
      fuses := { s.fuses with svn := BitVec.ofNat 64 (2 ^ s.island.imgSvn.toNat - 1) ||| s.fuses.svn } }) := by
  have hlow' : fuseSvn (setReg 0x4010 4 1 s) < s.island.imgSvn.toNat := hlow
  simp [fwSvnCommitW, hp, hlow']

theorem rootRevokeW_burns {p : Path} {v : Nat} {s : State} (hv : v ≤ 15) (hp : holderOrSideband s p = true)
    (hroot : s.island.state = 1 → bit v s.island.rootIndex = false) (hleft : s.fuses.revoke.toNat ||| v ≠ 15) :
    rootRevokeW p v s =
      (0, { s with fuses := { s.fuses with revoke := BitVec.ofNat 4 (s.fuses.revoke.toNat ||| v) } }) := by
  simpa [rootRevokeW, Nat.not_lt.mpr hv, hp] using And.intro hroot hleft

theorem plainEntry_fwStage : plainEntry 0x4010 1 = true := by decide
theorem plainEntry_fwActivate : plainEntry 0x4010 3 = true := by decide
theorem plainEntry_fwSvnCommit : plainEntry 0x4010 4 = true := by decide
theorem plainEntry_rootRevoke : plainEntry 0x4000 4 = true := by decide

/-- Settles O52: boot keeps what it chose through the training of the ports; each command by its unit's function. -/
theorem firmwareCommands : Obligations.FirmwareCommands := by
  intro w s u
  refine ⟨fun hst hgood hpll hslot => ?_, fun v ho ha hp hbusy hdone => ?_, fun hb body s1 s2 hst hok hhead hcheck hread hbody => ?_,
    fun ho hp hst hidle => ?_, fun hact => ?_, fun ho hp hlow => ?_, fun v ho hv hp hroot hleft => ?_⟩
  · obtain ⟨status, hboot⟩ := boot_preferred hst hgood hpll hslot
    have kept : Keeps true (booted s.flash.bootPref status s) (boot s) := hboot ▸ keeps_portsTrain (.refl _)
    exact ⟨boot s, rfl, kept.power rfl, kept.runs rfl⟩
  · exact congrArg Host.Outcome.next (unitRow_done ho plainEntry_fwStage (fwStageW_starts ha hp hbusy hdone))
  · exact congrArg Host.Outcome.next (fwStageDone_good hst hok hhead hcheck hread hbody)
  · exact congrArg Host.Outcome.next (unitRow_done ho plainEntry_fwActivate (fwActivateW_commits hp hst hidle))
  · exact congrArg Host.Outcome.next (if_pos hact)
  · exact congrArg Host.Outcome.next (unitRow_done ho plainEntry_fwSvnCommit (fwSvnCommitW_rises hp hlow))
  · exact congrArg Host.Outcome.next (unitRow_done ho plainEntry_rootRevoke (rootRevokeW_burns hv hp hroot hleft))

end Sys2Proof.Machine

/-! ## Rows of one repeat, evaluated -/

namespace Sys2Proof.Machine

open Sys2Proof.Safety

/-- A row whose head has one repeat, not begun, and is not being stopped: the repeat's work ends it. -/
theorem runEngine_single {c op : Nat} {q : QueueId} {run : Issued → Nat → Eng (List SealMsg)} {s u v : State} {i : Issued}
    {p : List SealMsg} (hhead : readyHead s c q op = some i) (hone : iRepM1 i.word.toNat = 0) (hfirst : i.progress = 0)
    (hfresh : i.journal = []) (hstop : stopping s c i.ctx = false) (hrun : run i 0 (settled s) = .ok p u)
    (huv : { settled u with wrote := [], wroteFar := [] } = { v with wrote := [], wroteFar := [] }) :
    runEngine c q op run s = endOk c q i (i.posts ++ p) (repeatSignal c i { v with wrote := [], wroteFar := [] }) := by
  have hfrom : runFrom i.journal (stopping s c i.ctx) (run i 0) s = .ok p (settled u) := by
    unfold runFrom
    rw [hfresh, hstop, show run i 0 { s with replay := [].reverse, journal := [], stretch := false } = .ok p u from hrun]
  rw [← huv]
  refine runEngine_of ⟨hhead, ?_⟩
  rw [hone, hfirst]
  exact .one hfrom (fun _ => rfl) .none

/-- The steps of an engine's work, evaluated on a state. -/
theorem eng_bind_eq {α β : Type} (x : Eng α) (f : α → Eng β) (s : State) :
    (x >>= f) s = match x s with
      | .ok a t => f a t
      | .error e t => .error e t := by
  change EStateM.bind x f s = _
  unfold EStateM.bind
  cases x s <;> rfl

theorem eng_get (s : State) : (get : Eng State) s = .ok s s := rfl

theorem eng_pure {α : Type} (a : α) (s : State) : (pure a : Eng α) s = .ok a s := rfl

/-- A change is made at once where nothing is passed again. -/
theorem act_idle (f : State → State) {s : State} (h : s.replay = []) :
    act f s = .ok () { f s with journal := .done :: s.journal } := by
  simp only [act, once, h]
  rfl

theorem checkpoint_idle {s : State} (h : s.replay = []) (hw : s.stretch = false) :
    checkpoint s = .ok () { s with wrote := [], wroteFar := [], journal := .mark :: s.journal } := by
  simp [checkpoint, h, hw]

/-- Work over a list that leaves the state as it is at each entry. -/
theorem mapE_still {α β : Type} {f : α → Eng β} {g : α → β} {s : State} (l : List α) (h : ∀ x ∈ l, f x s = .ok (g x) s) :
    mapE f l s = .ok (l.map g) s := by
  induction l with
  | nil => rfl
  | cons x r ih =>
    rw [mapE, eng_bind (h x (List.mem_cons_self ..)), eng_bind (ih fun y hy => h y (List.mem_cons_of_mem _ hy))]
    rfl

/-- Work over one entry. -/
theorem mapE_single {α β : Type} {f : α → Eng β} {x : α} {v : β} {s t : State} (h : f x s = .ok v t) : mapE f [x] s = .ok [v] t := by
  rw [mapE, eng_bind h]
  rfl

end Sys2Proof.Machine

/-! ## Element-wise instructions from registers to a register (R162, R167, R168) -/

namespace Sys2Proof.Machine

open Sys2Proof.Safety

section
variable {c op : Nat} {i : Issued} {s : State}

/-- An operand that is read from a register: as a row, or from its lane 0. -/
theorem vecOperand_reg {e : Env} {isInt : Bool} {src reg l : Nat} {t : Option Tens} (hsrc : src = 1 ∨ src = 2) (hl : l < 64) :
    vecOperand e isInt src reg t [l] s = .ok (vLane s e.core e.ctx reg (if src = 2 then 0 else l)) s := by
  obtain rfl | rfl := hsrc
  · have hlane : ([l].getD 0 0) % 64 = l := Nat.mod_eq_of_lt hl
    simp only [vecOperand, eng_bind_eq, eng_get, eng_pure, hlane]
    rfl
  · rfl

end

/-- Operand B or C of an opcode that may not have it, at lane l of a register form. -/
def regLane (uses : Bool) (src reg : Nat) (s : State) (c ctx l : Nat) : Nat × Bool :=
  if uses then vLane s c ctx reg (if src = 2 then 0 else l) else (0, false)

/-- The result of a register form at lane l. -/
def laneOf (w : Nat) (s : State) (c ctx l : Nat) : Flagged × Bool :=
  let a := vLane s c ctx (vVA w) l
  let b := regLane (vecUsesB (iOpcode w)) (vBSrc w) (vVB w) s c ctx l
  let d := regLane (vecUsesC (iOpcode w)) (vCSrc w) (vVC w) s c ctx l
  (vecFn w a.1 b.1 d.1, a.2 || b.2 || d.2)

/-- The results of a register form, lane by lane. -/
def laneFlags (w : Nat) (s : State) (c ctx : Nat) : List Flagged := (List.range 64).map fun l => (laneOf w s c ctx l).1

/-- What a register form writes: its results and their poison. -/
def laneVals (w : Nat) (s : State) (c ctx : Nat) : List (Nat × Bool) :=
  (List.range 64).map fun l => ((laneOf w s c ctx l).1.val, (laneOf w s c ctx l).2)

/-- The word of an element-wise instruction whose operands and result are registers. -/
structure RegForm (w : Nat) : Prop where
  enc    : vecEncOk w = true
  sourceA : vASrc w = 1
  result : vDReg w = true
  sourceB : vecUsesB (iOpcode w) = true → vBSrc w = 1 ∨ vBSrc w = 2
  sourceC : vecUsesC (iOpcode w) = true → vCSrc w = 1 ∨ vCSrc w = 2
  low    : iOpcode w < 0x30
  noSel  : iOpcode w ≠ 0x0B

/-- Work that goes on from operand B or C of a register form. -/
theorem ite_operand_reg {β : Type} {uses : Bool} {e : Env} {isInt : Bool} {src reg l : Nat} {t : Option Tens} {s : State}
    (hsrc : uses = true → src = 1 ∨ src = 2) (hl : l < 64) (k : Nat × Bool → Eng β) :
    (if uses = true then vecOperand e isInt src reg t [l] >>= k else (pure (0, false) : Eng (Nat × Bool)) >>= k) s =
      k (regLane uses src reg s e.core e.ctx l) s := by
  unfold regLane
  split
  next hu => exact eng_bind (vecOperand_reg (hsrc hu) hl)
  next => rfl

/-- What a register form is issued with: no descriptor, and the shape of a register. -/
def regOps (own w : Nat) : VecOps :=
  let o : VecOps := { a := none, b := none, c := none, d := none, fuse := none, shape := [64] }
  { o with lap := vecLap own w o }

/-- One element of an element-wise instruction. -/
def elemWork (e : Env) (w : Nat) (o : VecOps) (ix : List Nat) : Eng (Flagged × Bool) := do
  let a ← vecA e w o ix
  let v ← vecElem e w o (vecIsInt w o) a ix
  pure (vecConv w o o.d v.1, v.2)

/-- One row of an element-wise instruction. -/
def rowWork (e : Env) (w : Nat) (o : VecOps) (ixs : List (List Nat)) : Eng (List (Nat × Bool)) := do
  let vs ← mapE (elemWork e w o) ixs
  storeRow e w o ixs vs
  pure (vs.map fun v => (v.1.val, v.2))

theorem runElems_eq (e : Env) (w : Nat) (o : VecOps) :
    runElems e w o = mapE (fun (x : List (List Nat) × Nat) => inRow x.2 (rowWork e w o x.1)) (vecRows o.shape).zipIdx >>=
      fun rows => pure rows.flatten := rfl

/-- What the row of a register leaves: its events counted, and the checkpoint at its end. -/
def rowDone (vs : List Flagged) (s : State) : State :=
  { rowEvents vs s with wrote := [], wroteFar := [], journal := .mark :: .done :: s.journal }

theorem calm_rowEvents (vs : List Flagged) (s : State) : Calm s (rowEvents vs s) := by
  unfold rowEvents
  split <;> split
  · exact (calm_bumpE ..).trans (calm_bumpE ..)
  · exact calm_bumpE ..
  · exact calm_bumpE ..
  · exact .refl s

theorem idle_rowDone {vs : List Flagged} {s : State} (hs : Idle s) : Idle (rowDone vs s) :=
  ⟨((calm_rowEvents vs s).idle hs).replay, ((calm_rowEvents vs s).idle hs).stretch⟩

theorem storeRow_reg {e : Env} {own w : Nat} {ixs : List (List Nat)} {vs : List (Flagged × Bool)} {s : State} (hs : Idle s) :
    storeRow e w (regOps own w) ixs vs s = .ok () (rowDone (vs.map (·.1)) s) := by
  have hid := (calm_rowEvents (vs.map (·.1)) s).idle hs
  unfold storeRow
  rw [eng_bind (act_idle _ hs.replay)]
  exact checkpoint_idle hid.replay hid.stretch

section
variable {c r : Nat} {i : Issued} {s : State} (h : RegForm i.word.toNat)
include h

theorem regForm_noDesc :
    (vecUsesB (iOpcode i.word.toNat) && vBSrc i.word.toNat == 0) = false ∧
      (vecUsesC (iOpcode i.word.toNat) && vCSrc i.word.toNat == 0) = false := by
  constructor
  · cases hu : vecUsesB (iOpcode i.word.toNat)
    · rfl
    · obtain hs | hs := h.sourceB hu <;> rw [hs] <;> rfl
  · cases hu : vecUsesC (iOpcode i.word.toNat)
    · rfl
    · obtain hs | hs := h.sourceC hu <;> rw [hs] <;> rfl

/-- Check 3 of Table 8.4: there is no format to refuse, and no source is reserved. -/
theorem regForm_formats (l l' : List Nat) :
    (fmtsIn l [none, none, none] && fmtsIn l' [none] && (!vecUsesB (iOpcode i.word.toNat) || vBSrc i.word.toNat != 3) &&
      (!vecUsesC (iOpcode i.word.toNat) || iOpcode i.word.toNat == 0x38 || vCSrc i.word.toNat != 3) &&
      (iOpcode i.word.toNat != 0x38 || false && vBSrc i.word.toNat == 0)) = true := by
  have hB : (!vecUsesB (iOpcode i.word.toNat) || vBSrc i.word.toNat != 3) = true := by
    cases hu : vecUsesB (iOpcode i.word.toNat)
    · rfl
    · obtain hs | hs := h.sourceB hu <;> rw [hs] <;> rfl
  have hC : (!vecUsesC (iOpcode i.word.toNat) || iOpcode i.word.toNat == 0x38 || vCSrc i.word.toNat != 3) = true := by
    cases hu : vecUsesC (iOpcode i.word.toNat)
    · rfl
    · obtain hs | hs := h.sourceC hu <;> simp [hs]
  have hop : (iOpcode i.word.toNat != 0x38) = true := bne_iff_ne.mpr (by have := h.low; omega)
  rw [hB, hC, hop]
  rfl

/-- Check 4 of Table 8.4: a register holds what a register gives. -/
theorem regForm_shapes :
    vecShapesOk i.word.toNat { a := none, b := none, c := none, d := none, fuse := none, shape := [64] } = true := by
  have hred : vReduces (iOpcode i.word.toNat) = false := decide_eq_false (by have := h.low; omega)
  have hrow : iOpcode i.word.toNat ≠ 0x38 := by have := h.low; omega
  simp [vecShapesOk, resultShape, hred, hrow, volume, fits, same]

theorem vecIssue_reg : vecIssue c i r s = .ok (regOps (moduleOf s) i.word.toNat) s := by
  obtain ⟨hB, hC⟩ := regForm_noDesc h
  have hA : (vASrc i.word.toNat == 0) = false := by rw [h.sourceA]; rfl
  have hD : (!(vDReg i.word.toNat)) = false := by rw [h.result]; rfl
  have hrow : iOpcode i.word.toNat ≠ 0x38 := by have := h.low; omega
  have closed (e : Env) (u : Use) (a : Nat) (t : State) : openIf false e u a t = .ok none t := rfl
  have shape (e : Env) : vecShape e i.word.toNat none none s = .ok [64] s := by
    unfold vecShape
    rw [if_pos h.sourceA]
    rfl
  have aborted (e : Env) : firstAborted e i.word.toNat s = .ok false s := by
    have hpop : vASrc i.word.toNat ≠ 2 := by rw [h.sourceA]; decide
    unfold firstAborted
    rw [if_neg hpop]
    rfl
  unfold vecIssue
  simp only [hA, hB, hC, hD]
  rw [eng_bind (need_of h.enc ..), eng_bind (closed ..), eng_bind (closed ..), eng_bind (closed ..), eng_bind (closed ..),
    eng_bind (need_of (regForm_formats h _ _) ..), eng_bind (shape _), eng_bind (aborted _), Bool.false_or,
    eng_bind (need_of (regForm_shapes h) ..), if_neg hrow]
  rfl

theorem regA {e : Env} {o : VecOps} {l : Nat} (hl : l < 64) :
    vecA e i.word.toNat o [l] s = .ok (vLane s e.core e.ctx (vVA i.word.toNat) l) s := by
  rw [vecA, h.sourceA, vecOperand_reg (.inl rfl) hl]
  rfl

theorem vecElem_reg {e : Env} {o : VecOps} {isInt : Bool} {l : Nat} (hl : l < 64) :
    vecElem e i.word.toNat o isInt (vLane s e.core e.ctx (vVA i.word.toNat) l) [l] s =
      .ok (laneOf i.word.toNat s e.core e.ctx l) s := by
  unfold vecElem
  refine (ite_operand_reg h.sourceB hl _).trans ?_
  dsimp only
  rw [if_neg h.noSel]
  exact ite_operand_reg h.sourceC hl _

/-- A register form's results in its one row. -/
theorem elemsWork_reg {e : Env} {own : Nat} :
    mapE (elemWork e i.word.toNat (regOps own i.word.toNat)) ((List.range 64).map fun l => [l]) s =
      .ok ((List.range 64).map fun l => laneOf i.word.toNat s e.core e.ctx l) s := by
  have each : ∀ ix ∈ (List.range 64).map fun l => [l],
      elemWork e i.word.toNat (regOps own i.word.toNat) ix s = .ok (laneOf i.word.toNat s e.core e.ctx (ix.headD 0)) s := by
    intro ix hix
    obtain ⟨l, hl, rfl⟩ := List.mem_map.mp hix
    have hl' : l < 64 := List.mem_range.mp hl
    unfold elemWork
    rw [eng_bind (regA h hl'), eng_bind (vecElem_reg h hl')]
    rfl
  rw [mapE_still _ each, List.map_map]
  rfl

theorem runElems_reg {e : Env} {own : Nat} (hs : Idle s) :
    runElems e i.word.toNat (regOps own i.word.toNat) s =
      .ok (laneVals i.word.toNat s e.core e.ctx)
        (rowDone (laneFlags i.word.toNat s e.core e.ctx) s) := by
  have hrows : (vecRows [64]).zipIdx = [((List.range 64).map fun l => [l], 0)] := by decide
  have row : inRow 0 (rowWork e i.word.toNat (regOps own i.word.toNat) ((List.range 64).map fun l => [l])) s =
      .ok (laneVals i.word.toNat s e.core e.ctx)
        (rowDone (laneFlags i.word.toNat s e.core e.ctx) s) := by
    unfold inRow rowWork
    rw [eng_bind (elemsWork_reg h), eng_bind (storeRow_reg hs), eng_pure, List.map_map, List.map_map]
    rfl
  have all := mapE_single (f := fun x : List (List Nat) × Nat => inRow x.2 (rowWork e i.word.toNat (regOps own i.word.toNat) x.1))
    (x := ((List.range 64).map fun l => [l], 0)) row
  rw [runElems_eq, show (regOps own i.word.toNat).shape = [64] from rfl, hrows,  eng_bind all, eng_pure, List.flatten_singleton]

/-- One repeat of a register form: the register and the event counters. -/
theorem vecOne_reg (hs : Idle s) :
    vecOne c i r s = .ok [] { setVReg c i.ctx (vVD i.word.toNat)
      (laneVals i.word.toNat s c i.ctx)
      (rowDone (laneFlags i.word.toNat s c i.ctx) s) with
      journal := .done :: .mark :: .done :: s.journal } := by
  have hrow : iOpcode i.word.toNat ≠ 0x38 := by have := h.low; omega
  have hred : ¬ vReduces (iOpcode i.word.toNat) = true := by
    rw [show vReduces (iOpcode i.word.toNat) = false from decide_eq_false (by have := h.low; omega)]
    exact Bool.false_ne_true
  unfold vecOne
  rw [eng_bind (vecIssue_reg h), if_neg hrow, if_neg hred, eng_bind (runElems_reg h hs)]
  dsimp only
  rw [if_pos h.result, eng_bind (act_idle _ (idle_rowDone hs).replay)]
  rfl

end

/-- A row's events move counters and nothing else. -/
theorem exists_counts_rowEvents (fs : List Flagged) (s : State) : ∃ x, rowEvents fs s = { s with counts := x } := by
  obtain ⟨x, hx⟩ := exists_counts_bumpE 0x3400 1 s
  unfold rowEvents
  split
  · rw [hx]
    split
    · obtain ⟨y, hy⟩ := exists_counts_bumpE 0x3400 2 { s with counts := x }
      exact ⟨y, hy⟩
    · exact ⟨x, rfl⟩
  · split
    · exact exists_counts_bumpE ..
    · exact ⟨s.counts, rfl⟩

/-- The marks of progress that a row of a register leaves are none of the instruction's effects. -/
theorem settled_rowDone (c x r : Nat) (vs : List (Nat × Bool)) (fs : List Flagged) (j : List Ev) (s : State) :
    { settled { setVReg c x r vs (rowDone fs (settled s)) with journal := j } with wrote := [], wroteFar := [] } =
      { setVReg c x r vs (rowEvents fs (settled s)) with wrote := [], wroteFar := [] } := by
  obtain ⟨counts, hcounts⟩ := exists_counts_rowEvents fs (settled s)
  rw [rowDone, hcounts]
  rfl

theorem iOpcode_readyHead {s : State} {c op : Nat} {q : QueueId} {i : Issued} (h : readyHead s c q op = some i) :
    iOpcode i.word.toNat = op := by
  unfold readyHead at h
  split at h
  next j _ =>
    obtain ⟨hj, hji⟩ := Option.ite_none_right_eq_some.mp h
    obtain rfl := Option.some.inj hji
    simp only [Bool.and_eq_true, beq_iff_eq] at hj
    exact hj.2
  next => cases h

theorem exec_vecRowTable (c : Fin 128) (s : State) : ∀ row ∈ vecRowTable c, exec row.1 s = .next (vecRow c.val row.2 s) := by
  unfold vecRowTable
  iterate 38 refine List.forall_mem_cons.mpr ⟨rfl, ?_⟩
  exact List.forall_mem_nil _

/-- Settles O22: one repeat of the register form, evaluated. -/
theorem vectorRegisterForm : Obligations.VectorRegisterForm := by
  intro c s i row hrow hlow hsel hclaim hhead hone hfirst hfresh hstop henc hA hD hB hC w b d v p
  have hop : iOpcode i.word.toNat = row.2 := iOpcode_readyHead hhead
  have form : RegForm i.word.toNat := ⟨henc, hA, hD, hop ▸ hB, hop ▸ hC, hop ▸ hlow, hop ▸ hsel⟩
  have hpops : vecPops i.word.toNat = false := by simp [vecPops, hA]
  have hvec : vecRow c.val row.2 s = runEngine c.val .vec row.2 (vecRun c.val row.2) s := by
    simp [vecRow, hhead, hclaim, hpops]
    rfl
  have hrun : vecRun c.val row.2 i 0 (settled s) = vecOne c.val i 0 (settled s) := by
    rw [vecRun, if_neg (by omega), if_neg (by omega)]
  have hvals : laneVals w (settled s) c.val i.ctx = (List.range 64).map fun l => ((v l).val, p l) := by
    simp only [laneVals, laneOf, regLane, w, hop]
    rfl
  have hflags : laneFlags w (settled s) c.val i.ctx = (List.range 64).map v := by
    simp only [laneFlags, laneOf, regLane, w, hop]
    rfl
  rw [exec_vecRowTable c s row hrow, hvec]
  refine congrArg Host.Outcome.next ?_
  rw [runEngine_single hhead hone hfirst hfresh hstop (hrun.trans (vecOne_reg form ⟨rfl, rfl⟩)) (settled_rowDone ..), List.append_nil,
    ← hvals, ← hflags]

end Sys2Proof.Machine

/-! ## MSG instructions that have their effect at once (R236 to R254) -/

namespace Sys2Proof.Machine

open Sys2Proof.Safety

/-- What an engine's row is when its one repeat ends with messages and a state. -/
def oneDone (c : Nat) (i : Issued) (posts : List SealMsg) (u : State) : State :=
  endOk c .msg i (i.posts ++ posts) (repeatSignal c i { settled u with wrote := [], wroteFar := [] })

/-- The head of the MSG queue: one repeat, not begun, well formed, and not to be stopped. -/
structure MsgHead (c : Nat) (s : State) (i : Issued) : Prop where
  fields  : msgFieldsOk i.word.toNat = true
  single  : iRepM1 i.word.toNat = 0
  first   : i.progress = 0
  fresh   : i.journal = []
  goesOn  : stopping s c i.ctx = false

section
variable {c : Nat} {i : Issued} {s u : State} {op : Nat} {run : Issued → Nat → Eng (List SealMsg)} {posts : List SealMsg}

theorem runEngine_msg (h : MsgHead c s i) (hhead : readyHead s c .msg op = some i) {v : State}
    (hrun : run i 0 (settled s) = .ok posts v) (hv : settled v = settled u) : runEngine c .msg op run s = oneDone c i posts u :=
  runEngine_single hhead h.single h.first h.fresh h.goesOn hrun (by rw [hv])

theorem act_settled (f : State → State) : act f (settled s) = .ok () { f (settled s) with journal := [.done] } := rfl

theorem freeSeal_settled (s : State) (d : Nat) : freeSeal (settled s) d = freeSeal s d := by
  have hfree : sealFree (settled s) = sealFree s := rfl
  unfold freeSeal
  rw [hfree]

section
variable (h : MsgHead c s i)
include h

theorem msgIssue_head (t : State) : msgIssue i t = .ok () t := need_of h.fields _ _ t

theorem mbOpenOne_free (hfree : (mailbox s c (bits i.word.toNat 52 48)).owner = none) :
    mbOpenOne c i 0 (settled s) = .ok []
      { setMailbox c (bits i.word.toNat 52 48) (fun _ => { owner := some i.ctx }) (settled s) with journal := [.done] } := by
  have hfree' : (mailbox (settled s) c (bits i.word.toNat 52 48)).owner = none := hfree
  unfold mbOpenOne
  rw [eng_bind (msgIssue_head h _), eng_bind (eng_get _)]
  dsimp only
  rw [hfree']
  rfl

theorem mbOpenOne_own (hown : (mailbox s c (bits i.word.toNat 52 48)).owner = some i.ctx) :
    mbOpenOne c i 0 (settled s) = .ok [] (settled s) := by
  have hown' : (mailbox (settled s) c (bits i.word.toNat 52 48)).owner = some i.ctx := hown
  unfold mbOpenOne
  rw [eng_bind (msgIssue_head h _), eng_bind (eng_get _)]
  dsimp only
  rw [hown']
  dsimp only
  rw [eng_bind (need_of BEq.rfl ..)]
  rfl

theorem mbCloseOne_own (hown : (mailbox s c (bits i.word.toNat 52 48)).owner = some i.ctx) :
    mbCloseOne c i 0 (settled s) = .ok []
      { closeMailbox false c (bits i.word.toNat 52 48) 4 0 (settled s) with journal := [.done] } := by
  have hown' : ((mailbox (settled s) c (bits i.word.toNat 52 48)).owner == some i.ctx) = true := beq_iff_eq.mpr hown
  unfold mbCloseOne
  rw [eng_bind (msgIssue_head h _), eng_bind (eng_get _)]
  dsimp only
  rw [eng_bind (need_of hown' ..), eng_bind (act_settled _)]
  rfl

theorem soCloseOne_own (hown : (office s c (bits i.word.toNat 52 48)).owner = some i.ctx) :
    soCloseOne c i 0 (settled s) = .ok [] { closeOffice false c (bits i.word.toNat 52 48) (settled s) with journal := [.done] } := by
  have hown' : ((office (settled s) c (bits i.word.toNat 52 48)).owner == some i.ctx) = true := beq_iff_eq.mpr hown
  unfold soCloseOne
  rw [eng_bind (msgIssue_head h _), eng_bind (eng_get _)]
  dsimp only
  rw [eng_bind (need_of hown' ..), eng_bind (act_settled _)]
  rfl

theorem stampPutOne_held {a : Account}
    (ha : accountOf s c i.ctx (stampDest i.word.toNat).1 (stampDest i.word.toNat).2 = some a) :
    stampPutOne c i 0 (settled s) = .ok [] { giveBack c a (bits i.word.toNat 12 0) (settled s) with journal := [.done] } := by
  have ha' : accountOf (settled s) c i.ctx (stampDest i.word.toNat).1 (stampDest i.word.toNat).2 = some a := ha
  unfold stampPutOne
  rw [eng_bind (msgIssue_head h _)]
  dsimp only
  rw [eng_bind (eng_get _), ha']
  rfl

theorem sealCreateOne_free {p : Nat} (hnew : sealOf s i.ctx (bits i.word.toNat 47 32) = none)
    (hquota : sealsTaken s i.ctx < ctxSealQuota s i.ctx) (hfree : freeSeal s (dieOf c) = some p) :
    sealCreateOne c i 0 (settled s) = .ok []
      { setCtxF i.ctx 92 80 (ctxSealsUsed s i.ctx + 1) (setSeal p (fun x => { x with
          owner := some i.ctx, sealId := BitVec.ofNat 16 (bits i.word.toNat 47 32), count := BitVec.ofNat 32 (bits i.word.toNat 31 0),
          remote := none }) (settled s)) with journal := [.done] } := by
  have hnone : (sealOf (settled s) i.ctx (bits i.word.toNat 47 32)).isNone = true := Option.isNone_iff_eq_none.mpr hnew
  have hroom : decide (sealsTaken (settled s) i.ctx < ctxSealQuota (settled s) i.ctx) = true := decide_eq_true hquota
  have hfree' : freeSeal (settled s) (dieOf c) = some p := (freeSeal_settled ..).trans hfree
  unfold sealCreateOne
  rw [eng_bind (msgIssue_head h _)]
  dsimp only
  rw [eng_bind (eng_get _)]
  rw [eng_bind (need_of hnone ..), eng_bind (need_of hroom ..), hfree']
  rfl

theorem sealFreeOne_idle {p : Nat} (hp : sealOf s i.ctx (bits i.word.toNat 47 32) = some p) (hwaits : sealWaiters s p = 0)
    (hslots : sealSlots s p = 0) : sealFreeOne c i 0 (settled s) = .ok [] { unbindSeal p (settled s) with journal := [.done] } := by
  have hp' : sealOf (settled s) i.ctx (bits i.word.toNat 47 32) = some p := hp
  have hwaits' : sealWaiters (settled s) p = 0 := hwaits
  have hslots' : sealSlots (settled s) p = 0 := hslots
  have hidle : (sealWaiters (settled s) p == 0 && sealSlots (settled s) p == 0) = true := by rw [hwaits', hslots']; rfl
  unfold sealFreeOne
  rw [eng_bind (msgIssue_head h _), eng_bind (eng_get _)]
  dsimp only
  rw [hp']
  dsimp only
  rw [eng_bind (need_of hidle ..), eng_bind (act_settled _)]
  rfl

theorem sealAddOne_known {p : Nat} (hp : sealOf s i.ctx (bits i.word.toNat 47 32) = some p) :
    sealAddOne c i 0 (settled s) = .ok [{
      phys := p, gen := (sealAt s p).gen, amount := BitVec.ofNat 32 (bits i.word.toNat 31 0), ctx := i.ctx,
      sealId := (sealAt s p).sealId, fromImport := (sealAt s p).remote.isSome }] (settled s) := by
  have hp' : sealOf (settled s) i.ctx (bits i.word.toNat 47 32) = some p := hp
  unfold sealAddOne
  rw [eng_bind (msgIssue_head h _)]
  dsimp only
  rw [eng_bind (eng_get _), hp']
  rfl

end

/-! ### RECV and POLL (R236) -/

/-- A store that runs from a state runs on it settled, and leaves nothing to pass again. -/
theorem store_of_runFrom {e : Env} {a : Nat} {bs : List Byte} {p : Bool} {t : State}
    (h : runFrom [] false (store e a bs p) s = .ok () t) :
    ∃ u, store e a bs p (settled s) = .ok () u ∧ u.replay = [] ∧ settled u = t := by
  have hstart : ({ s with replay := [].reverse, journal := [], stretch := false } : State) = settled s := rfl
  unfold runFrom at h
  rw [hstart] at h
  cases hx : store e a bs p (settled s) with
  | ok w u =>
    have hu := replay_nil_of_along (along_store passed_writes (allows_any _) ..) rfl hx
    rw [hx] at h
    cases h
    exact ⟨u, rfl, hu, rfl⟩
  | error e u =>
    rw [hx] at h
    cases h

/-- A mailbox of the context, and a place of the core's own to store to. -/
structure RecvOk (c : Nat) (i : Issued) (s : State) : Prop where
  owner   : (mailbox s c (bits i.word.toNat 52 48)).owner = some i.ctx
  aligned : addrOf i 0 0 % 32 = 0
  isSp    : isSp (addrOf i 0 0) = true
  spCore  : spCore (addrOf i 0 0) = c

section
variable (h : MsgHead c s i) (hr : RecvOk c i s)
include h hr

/-- The checks of RECV and POLL. -/
theorem recvChecks {β : Type} (k : State → Eng β) :
    (do
      msgIssue i
      needE ((mailbox (← get) c (bits i.word.toNat 52 48)).owner == some i.ctx) .mailboxNotOpen
      ownAligned (envOf c .msg i) (addrOf i 0 0)
      k (← get)) (settled s) = k (settled s) (settled s) := by
  have hown : ((mailbox (settled s) c (bits i.word.toNat 52 48)).owner == some i.ctx) = true := beq_iff_eq.mpr hr.owner
  have hplace : (addrOf i 0 0 % 32 == 0 && isSp (addrOf i 0 0) && spCore (addrOf i 0 0) == c) = true := by
    simp [hr.aligned, hr.isSp, hr.spCore]
  rw [eng_bind (msgIssue_head h _), eng_bind (eng_get _), eng_bind (need_of hown ..),
    eng_bind (show ownAligned (envOf c .msg i) (addrOf i 0 0) (settled s) = .ok () (settled s) from need_of hplace ..),
    eng_bind (eng_get _)]

theorem recvOne_oldest {poll : Bool} {v : BitVec 256} {rest : List (BitVec 256)} {t : State}
    (hq : (mailbox s c (bits i.word.toNat 52 48)).queue = v :: rest)
    (ht : store (envOf c .msg i) (addrOf i 0 0) (toLe 32 v.toNat) false (settled s) = .ok () t) (hon : t.replay = []) :
    recvOne poll c i 0 (settled s) = .ok []
      { setMailbox c (bits i.word.toNat 52 48) (fun m => { m with queue := m.queue.drop 1 }) t with journal := .done :: t.journal } := by
  have hq' : (mailbox (settled s) c (bits i.word.toNat 52 48)).queue = v :: rest := hq
  refine (recvChecks h hr _).trans ?_
  dsimp only
  rw [hq']
  dsimp only
  rw [eng_bind ht, eng_bind (act_idle _ hon)]
  rfl

theorem pollOne_empty {t : State} (hq : (mailbox s c (bits i.word.toNat 52 48)).queue = [])
    (ht : store (envOf c .msg i) (addrOf i 0 0) (List.replicate 32 0) false (settled s) = .ok () t) :
    recvOne true c i 0 (settled s) = .ok [] t := by
  have hq' : (mailbox (settled s) c (bits i.word.toNat 52 48)).queue = [] := hq
  refine (recvChecks h hr _).trans ?_
  dsimp only
  rw [hq']
  dsimp only
  rw [if_pos rfl, eng_bind ht]
  rfl

end

end

/-- SO_CLOSE of an office that adds nothing runs at once. -/
theorem soCloseRow_still {c : Nat} {s : State} {i : Issued} (hhead : readyHead s c .msg 9 = some i)
    (hadd : (office s c (bits i.word.toNat 52 48)).adding = false) : soCloseRow c s = runEngine c .msg 9 (soCloseOne c) s := by
  simp [soCloseRow, hhead, hadd]

/-- Settles O58: the one repeat of each instruction, evaluated. -/
theorem messageEffects : Obligations.MessageEffects := by
  intro c s i w b id box s0 done head hok hone hfirst hfresh hgo
  have h : MsgHead c.val s i := ⟨hok, hone, hfirst, hfresh, hgo⟩
  refine ⟨fun hfree hhead => ?_, fun hown => ⟨fun hhead => ?_, fun hhead => ?_, fun a s1 ha hal hsp hcore => ?_⟩,
    fun hown hadd hhead => ?_, fun a ha hhead => ?_, fun p hnew hquota hfree hhead => ?_, fun p hp => ⟨fun hwaits hslots hhead => ?_, fun hhead => ?_⟩⟩
  · exact congrArg Host.Outcome.next (runEngine_msg h hhead (mbOpenOne_free h hfree) rfl)
  · exact congrArg Host.Outcome.next (runEngine_msg h hhead (mbOpenOne_own h hown) rfl)
  · exact congrArg Host.Outcome.next (runEngine_msg h hhead (mbCloseOne_own h hown) rfl)
  · subst ha
    have hr : RecvOk c.val i s := ⟨hown, hal, hsp, hcore⟩
    refine ⟨fun v rest hq hs1 => ?_, fun hq hs1 hhead => ?_⟩
    · obtain ⟨u, hu, hon, rfl⟩ := store_of_runFrom hs1
      exact ⟨fun hhead => congrArg Host.Outcome.next (runEngine_msg h hhead (recvOne_oldest h hr hq hu hon) rfl),
        fun hhead => congrArg Host.Outcome.next (runEngine_msg h hhead (recvOne_oldest h hr hq hu hon) rfl)⟩
    · obtain ⟨u, hu, -, rfl⟩ := store_of_runFrom hs1
      exact congrArg Host.Outcome.next (runEngine_msg h hhead (pollOne_empty h hr hq hu) rfl)
  · exact congrArg Host.Outcome.next ((soCloseRow_still hhead hadd).trans (runEngine_msg h hhead (soCloseOne_own h hown) rfl))
  · exact congrArg Host.Outcome.next (runEngine_msg h hhead (stampPutOne_held h ha) rfl)
  · exact congrArg Host.Outcome.next (runEngine_msg h hhead (sealCreateOne_free h hnew hquota hfree) rfl)
  · exact congrArg Host.Outcome.next (runEngine_msg h hhead (sealFreeOne_idle h hp hwaits hslots) rfl)
  · exact congrArg Host.Outcome.next (runEngine_msg h hhead (sealAddOne_known h hp) rfl)

end Sys2Proof.Machine

/-! ## Elements of tensors that are served are read and written at once (R162, R189, R195) -/

namespace Sys2Proof.Machine

open Sys2Proof.Safety

/-- A state from which the same places are served, with the same tables, and nothing to be passed again. -/
structure Level (s t : State) : Prop where
  xlat    : ∀ c w a, Machine.xlat t c w a = Machine.xlat s c w a
  module  : moduleOf t = moduleOf s
  regs    : t.regs = s.regs
  moduli  : t.modTable = s.modTable
  replay  : t.replay = s.replay
  stretch : t.stretch = s.stretch

section
variable {s t u : State}

theorem Level.refl (s : State) : Level s s := ⟨fun _ _ _ => rfl, rfl, rfl, rfl, rfl, rfl⟩

theorem Level.trans (h : Level s t) (k : Level t u) : Level s u :=
  ⟨fun c w a => (k.xlat c w a).trans (h.xlat c w a), k.module.trans h.module, k.regs.trans h.regs, k.moduli.trans h.moduli,
    k.replay.trans h.replay, k.stretch.trans h.stretch⟩

theorem Near.level (h : Near s t) : Level s t where
  xlat := h.xlat
  module := h.module
  regs := (congrArg State.regs h.rest :)
  moduli := (congrArg State.modTable h.rest :)
  replay := (congrArg State.replay h.rest :)
  stretch := (congrArg State.stretch h.rest :)

theorem Calm.level (h : Calm s t) : Level s t := h.near.level

theorem Level.idle (h : Level s t) (k : Idle s) : Idle t := ⟨h.replay.trans k.replay, h.stretch.trans k.stretch⟩

theorem Level.served (h : Level s t) {e : Env} {w : Bool} {a n : Nat} (k : Served s e w a n) : Served t e w a n := Served.calm k h.xlat

end

/-- Work that comes to its end wherever work has led on a level. -/
structure Runs {α : Type} (s : State) (x : Eng α) : Prop where
  ends : ∀ u, Level s u → Idle u → ∃ v t, x u = .ok v t ∧ Level u t

section
variable {s : State} {α β : Type}

theorem runs_pure (v : α) : Runs s (pure v : Eng α) := ⟨fun u _ _ => ⟨v, u, rfl, .refl u⟩⟩

theorem runs_bindTo {Q : α → Prop} {x : Eng α} {f : α → Eng β} (hx : Runs s x) (hy : Yields Q x) (hf : ∀ v, Q v → Runs s (f v)) :
    Runs s (x >>= f) := by
  refine ⟨fun u hu hi => ?_⟩
  obtain ⟨v, t, hv, hut⟩ := hx.ends u hu hi
  obtain ⟨w, r, hw, htr⟩ := (hf v (hy.yields _ _ _ hv)).ends t (hu.trans hut) (hut.idle hi)
  exact ⟨w, r, (eng_bind hv).trans hw, hut.trans htr⟩

theorem yields_any (x : Eng α) : Yields (fun _ => True) x := ⟨fun _ _ _ _ => trivial⟩

theorem runs_bind {x : Eng α} {f : α → Eng β} (hx : Runs s x) (hf : ∀ v, Runs s (f v)) : Runs s (x >>= f) :=
  runs_bindTo hx (yields_any x) fun v _ => hf v

/-- Work that runs, and what can be done after it wherever that leads. -/
theorem ends_of_runs {x : Eng α} {f : α → Eng β} (hx : Runs s x) (hf : ∀ v t, Level s t → Idle t → ∃ p r, f v t = .ok p r) {u : State}
    (hu : Level s u) (hi : Idle u) : ∃ p r, (x >>= f) u = .ok p r := by
  obtain ⟨v, t, hv, hut⟩ := hx.ends u hu hi
  obtain ⟨p, r, hp⟩ := hf v t (hu.trans hut) (hut.idle hi)
  exact ⟨p, r, (eng_bind hv).trans hp⟩

theorem runs_get {f : State → Eng α} (hf : ∀ u, Level s u → Runs s (f u)) : Runs s (get >>= f) :=
  ⟨fun u hu hi => (hf u hu).ends u hu hi⟩

theorem runs_ite {c : Prop} [Decidable c] {x y : Eng α} (hx : c → Runs s x) (hy : ¬ c → Runs s y) : Runs s (if c then x else y) := by
  split
  · exact hx ‹_›
  · exact hy ‹_›

/-- A branch that looks something up, and one that does not, going on in the same way. -/
theorem runs_branch {c : Prop} [Decidable c] {x : Eng α} {v : α} {k : α → Eng β} (hx : c → Runs s x) (hk : ∀ v, Runs s (k v)) :
    Runs s (if c then x >>= k else pure v >>= k) := runs_ite (fun hc => runs_bind (hx hc) hk) fun _ => hk v

theorem runs_branch' {c : Prop} [Decidable c] {x : Eng α} {v : α} {k : α → Eng β} (hx : ¬ c → Runs s x) (hk : ∀ v, Runs s (k v)) :
    Runs s (if c then pure v >>= k else x >>= k) := runs_ite (fun _ => hk v) fun hc => runs_bind (hx hc) hk

theorem runs_mapE {f : β → Eng α} (l : List β) (h : ∀ x ∈ l, Runs s (f x)) : Runs s (mapE f l) := by
  induction l with
  | nil => exact runs_pure _
  | cons x r ih =>
    exact runs_bind (h x List.mem_cons_self) fun _ => runs_bind (ih fun y hy => h y (List.mem_cons_of_mem _ hy)) fun _ => runs_pure _

theorem runs_eachE {f : β → Eng Unit} (l : List β) (h : ∀ x ∈ l, Runs s (f x)) : Runs s (eachE f l) := by
  induction l with
  | nil => exact runs_pure _
  | cons x r ih => exact runs_bind (h x List.mem_cons_self) fun _ => ih fun y hy => h y (List.mem_cons_of_mem _ hy)

/-- Steps that walk no access. -/
theorem runs_of_calm {x : Eng α} (h : ∀ u, Idle u → ∃ v t, x u = .ok v t ∧ Calm u t) : Runs s x := by
  refine ⟨fun u _ hi => ?_⟩
  obtain ⟨v, t, hv, hc⟩ := h u hi
  exact ⟨v, t, hv, hc.level⟩

theorem runs_act {f : State → State} (h : ∀ u, Calm u (f u)) : Runs s (act f) :=
  runs_of_calm fun _ hi => ⟨(), _, once_of hi rfl, (h _).trans (calm_journal _ _)⟩

theorem runs_of_walks {x : Eng α} (h : ∀ {s0 e hdrs P}, Walks s0 e hdrs P x []) : Runs s x := by
  refine ⟨fun u hu hi => ?_⟩
  obtain ⟨v, t, hv, hn, -⟩ := h (s0 := u) (e := { core := 0, ctx := 0, unit := .poly }) (hdrs := []) (P := fun _ => True) u [] hi (Near.refl u)
    ⟨nofun, nofun, .nil, nofun, nofun⟩
  exact ⟨v, t, hv, hn.level⟩

theorem runs_checkpoint : Runs s checkpoint := runs_of_walks walks_checkpoint
theorem runs_atomicDone : Runs s atomicDone := runs_of_walks walks_atomicDone

theorem runs_storedBits (lap : Bool) (v : Nat) : Runs s (storedBits lap v) := by
  unfold storedBits
  exact runs_ite (fun _ => runs_of_walks walks_draw) fun _ => runs_pure _

theorem runs_inRow {n : Nat} {x : Eng α} (hx : Runs s x) : Runs s (inRow n x) := by
  refine ⟨fun u hu hi => ?_⟩
  obtain ⟨v, t, hv, hut⟩ := hx.ends u hu hi
  exact ⟨v, t, by unfold inRow; rw [hv], hut⟩

theorem runs_loadOn {e : Env} {alloc : Bool} {m a n : Nat} (hm : m = moduleOf s) (h : Served s e false a n) :
    Runs s (loadOn e alloc m a n) := by
  refine ⟨fun u hu hi => ?_⟩
  obtain ⟨p, t, ht, hc⟩ := loadOn_of alloc hi (hu.served h)
  rw [hu.module, ← hm] at ht
  exact ⟨_, t, ht, hc.level⟩

theorem runs_load {e : Env} {a n : Nat} (h : Served s e false a n) : Runs s (load e a n) :=
  runs_get fun _ hu => runs_loadOn hu.module h

theorem runs_storeOn {e : Env} {m a : Nat} {bs : List Byte} {p : Bool} (hm : m = moduleOf s) (h : Served s e true a bs.length) :
    Runs s (storeOn e e.alloc m a bs p) := by
  refine ⟨fun u hu hi => ?_⟩
  obtain ⟨t, ht, hn, -⟩ := storeOn_of e.alloc p hi (hu.served h)
  rw [hu.module, ← hm] at ht
  exact ⟨(), t, ht, hn.level⟩

theorem runs_store {e : Env} {a : Nat} {bs : List Byte} {p : Bool} (h : Served s e true a bs.length) : Runs s (store e a bs p) :=
  runs_get fun _ hu => runs_storeOn hu.module h

/-- Work that ends with nothing noted before it. -/
theorem runFrom_settled {x : Eng α} {v : α} {t : State} (h : x (settled s) = .ok v t) : runFrom [] false x s = .ok v (settled t) := by
  unfold runFrom
  rw [show ({ s with replay := [].reverse, journal := [], stretch := false } : State) = settled s from rfl, h]

/-! ### Elements -/

theorem eng_pure_bind (v : α) (f : α → Eng β) : (pure v >>= f) = f v := rfl

/-- Indices that were copied at issue give the position at once. -/
theorem indexed_eq {t : Tens} (h : t.index.isSome = true → t.entries.isSome = true) (e : Env) (ps : List Int) :
    indexed e t ps = pure (indexPos t ps) := by
  unfold indexed indexPos
  cases hx : t.index with
  | none => rfl
  | some v =>
    obtain ⟨es, hes⟩ := Option.isSome_iff_exists.1 (h (by rw [hx]; rfl))
    rw [hes]
    dsimp only
    rw [eng_pure_bind]
    simp only [Option.getD_some]
    split_ifs <;> rfl

theorem runs_readPlain {e : Env} {w : Nat} {ps : List Int} (h : ElemServed s e false w ps) : Runs s (readPlain e w ps) :=
  runs_get fun _ hu => runs_bind (runs_loadOn (by rw [hu.module]; exact h.1) (by rw [hu.module]; exact h.2)) fun _ => runs_pure _

theorem runs_writePlain {e : Env} {w v : Nat} {ps : List Int} {p : Bool} (h : ElemServed s e true w ps) :
    Runs s (writePlain e w ps v p) := by
  refine runs_get fun u hu => ?_
  rw [hu.module]
  exact runs_storeOn h.1 (by rw [length_toLe]; exact h.2)

theorem runs_addElem {e : Env} {t : Tens} {sat : Bool} {qs : List Int} {v : Nat} {p : Bool} (hr : ElemServed s e false t.w qs)
    (hw : ElemServed s e true t.w qs) : Runs s (addElem e t sat qs v p) := by
  refine runs_get fun u hu => ?_
  rw [hu.module]
  dsimp only
  rw [if_pos hw.1]
  exact runs_bind (runs_readPlain hr) fun _ => runs_bind (runs_writePlain hw) fun _ => runs_atomicDone

theorem runs_readElem {e : Env} {inner : Nat} {t : Tens} (h : Readable s e inner t) (ix : List Nat) : Runs s (readElem e t inner ix) := by
  obtain ⟨hindex, hserved⟩ := h
  have hscale (ps : List Int) (hps : readPos t ix = some ps) : Runs s (readScale e t inner (storedPos t.w ix)) := by
    unfold readScale
    split
    · exact runs_pure _
    next v hv => exact runs_readPlain ((hserved ix ps hps).2 v hv)
  unfold readElem
  dsimp only
  refine runs_ite (fun hvalid => ?_) fun _ => runs_pure _
  have hpos : readPos t ix = indexPos t (storedPos t.w ix) := if_pos hvalid
  rw [indexed_eq hindex, eng_pure_bind]
  split
  · exact runs_pure _
  next qs hqs =>
    exact runs_bind (runs_readPlain (hserved ix qs (hpos.trans hqs)).1) fun _ =>
      runs_bind (hscale qs (hpos.trans hqs)) fun _ => runs_pure _

theorem runs_writeElem {e : Env} {t : Tens} {ixs : List (List Nat)} (h : Writable s e t ixs) {ix : List Nat} (hix : ix ∈ ixs) (sat : Bool)
    (v : Nat) (p : Bool) : Runs s (writeElem e t sat ix v p) := by
  obtain ⟨hindex, hserved⟩ := h
  have hpos := hserved ix hix
  unfold writePos at hpos
  unfold writeElem
  dsimp only
  refine runs_ite (fun hvalid => ?_) fun hpad => runs_ite (fun _ => runs_pure _) fun hskip => ?_
  · rw [if_pos hvalid] at hpos
    rw [indexed_eq hindex, eng_pure_bind]
    split
    · exact runs_pure _
    next qs hqs =>
      exact runs_ite (fun hadd => runs_addElem ((hpos qs hqs).2 hadd) (hpos qs hqs).1) fun _ => runs_writePlain (hpos qs hqs).1
  · rw [if_neg hpad, if_neg hskip] at hpos
    rw [indexed_eq hindex, eng_pure_bind]
    split
    · exact runs_pure _
    next qs hqs => exact runs_bind (runs_writePlain (hpos qs hqs).1) fun _ => runs_act fun u => calm_addTotal ..

end

end Sys2Proof.Machine

/-! ## Vector instructions come to their end (R162 to R168, R175) -/

namespace Sys2Proof.Machine

open Sys2Proof.Safety

section
variable {s : State} {e : Env} {w : Nat} {o : VecOps}

theorem mem_of_mem_chunks {α : Type} {n : Nat} {l x : List α} {y : α} (hx : x ∈ chunks n l) (hy : y ∈ x) : y ∈ l := by
  have haux (f : Nat) (l : List α) (h : x ∈ chunksAux n f l) : y ∈ l := by
    induction f generalizing l with
    | zero => cases h
    | succ f ih =>
      unfold chunksAux at h
      split at h
      · cases h
      obtain rfl | h := List.mem_cons.1 h
      · exact List.mem_of_mem_take hy
      · exact List.mem_of_mem_drop (ih _ h)
  exact haux _ _ hx

theorem runs_vecOperand {isInt : Bool} {src reg : Nat} {t : Option Tens} (h : ∀ x, t = some x → Readable s e 0 x) (ix : List Nat) :
    Runs s (vecOperand e isInt src reg t ix) := by
  unfold vecOperand
  split
  · split
    · exact runs_bind (runs_readElem (h _ rfl) _) fun _ => runs_pure _
    · exact runs_pure _
  · exact runs_get fun _ _ => runs_pure _
  · exact runs_get fun _ _ => runs_pure _
  · exact runs_pure _

theorem runs_vecCond {isInt : Bool} (h : ∀ x, o.c = some x → Readable s e 0 x) (ix : List Nat) : Runs s (vecCond e w o isInt ix) := by
  unfold vecCond
  split
  next hc => exact runs_bind (runs_readElem (h _ hc) _) fun _ => runs_pure _
  · exact runs_bind (runs_vecOperand (t := none) (fun _ h => nomatch h) ix) fun _ => runs_pure _

theorem runs_vecElem {isInt : Bool} {a : Nat × Bool} (hb : ∀ x, o.b = some x → Readable s e 0 x)
    (hc : ∀ x, o.c = some x → Readable s e 0 x) (ix : List Nat) : Runs s (vecElem e w o isInt a ix) := by
  unfold vecElem
  dsimp only
  refine runs_branch (fun _ => runs_vecOperand hb ix) fun b => ?_
  refine runs_ite (fun _ => runs_bind (runs_vecCond hc ix) fun _ => runs_pure _) fun _ => ?_
  exact runs_branch (fun _ => runs_vecOperand hc ix) fun c => runs_pure _

theorem runs_fuseWord {t : Option Tens} (ht : ∀ x, t = some x → Readable s e 0 x) (row col : Nat) : Runs s (fuseWord e t row col) := by
  unfold fuseWord
  split
  · exact runs_pure _
  · exact runs_bind (runs_readElem (ht _ rfl) _) fun _ => runs_pure _

theorem runs_putRow {ixs : List (List Nat)} (h : ∀ t, o.d = some t → ∀ ix ∈ ixs, ∀ v p, Runs s (writeElem e t (vSat w) ix v p))
    (vs : List (Flagged × Bool)) : Runs s (putRow e w o ixs vs) := by
  unfold putRow
  split
  · exact runs_pure _
  next t ht => exact runs_eachE _ fun x hx => runs_bind (runs_storedBits ..) fun _ => h t ht x.1 (List.of_mem_zip hx).1 _ _

theorem runs_storeRow {ixs : List (List Nat)} (h : ∀ t, o.d = some t → ∀ ix ∈ ixs, ∀ v p, Runs s (writeElem e t (vSat w) ix v p))
    (vs : List (Flagged × Bool)) : Runs s (storeRow e w o ixs vs) :=
  runs_bind (runs_act (calm_rowEvents _)) fun _ => runs_bind (runs_putRow h vs) fun _ => runs_checkpoint

theorem runs_storeLines (h : ∀ t, o.d = some t → Writable s e t (lines w o.shape)) (row : Nat)
    {ls : List (List Nat × (List Nat × Bool))} (hls : ∀ l ∈ ls, l.1 ∈ lines w o.shape) : Runs s (storeLines e w o row ls) := by
  refine runs_bind (runs_eachE _ fun x _ => runs_act (calm_rowEvents _)) fun _ => ?_
  refine runs_bind (runs_eachE _ fun x hx => runs_inRow (runs_bind (runs_putRow ?_ _) fun _ => runs_checkpoint)) fun _ => runs_pure _
  intro t ht ix hix v p
  obtain ⟨y, hy, rfl⟩ := List.mem_map.1 hix
  exact runs_writeElem (h t ht) (hls _ (List.of_mem_zip (mem_of_mem_chunks hx hy)).1) ..

theorem mem_lines_of_linesOf {w : Nat} {shape : List Nat} {es : List (Nat × Bool)} {l : List Nat × (List Nat × Bool)}
    (hl : l ∈ linesOf w shape es) : l.1 ∈ lines w shape := by
  obtain ⟨ix, hix, rfl⟩ := List.mem_map.1 hl
  exact hix

section
variable (h : VecServed s e w o)
include h

theorem vecServed_a (t : Tens) (ht : o.a = some t) : Readable s e 0 t :=
  h.reads t (List.mem_append_left _ (List.mem_append_left _ (by rw [ht]; exact List.mem_singleton_self t)))

theorem vecServed_b (t : Tens) (ht : o.b = some t) : Readable s e 0 t :=
  h.reads t (List.mem_append_left _ (List.mem_append_right _ (by rw [ht]; exact List.mem_singleton_self t)))

theorem vecServed_c (hop : iOpcode w ≠ 0x38) (t : Tens) (ht : o.c = some t) : Readable s e 0 t :=
  h.reads t (List.mem_append_right _ (by rw [if_neg hop, ht]; exact List.mem_singleton_self t))

theorem vecServed_evec (hop : iOpcode w = 0x38) {f : FuseTens} (hf : o.fuse = some f) (t : Tens) (ht : f.evec = some t) :
    Readable s e 0 t := by
  refine h.reads t (List.mem_append_right _ ?_)
  rw [if_pos hop, hf, Option.bind_some, ht]
  exact List.mem_singleton_self t

theorem runs_vecA (ix : List Nat) : Runs s (vecA e w o ix) := runs_vecOperand (vecServed_a h) ix

/-- A row of results that are stored element by element. -/
theorem vecServed_row (hop : vReduces (iOpcode w) = false) {row : List (List Nat)} (hrow : row ∈ vecRows o.shape) (t : Tens)
    (ht : o.d = some t) (ix : List Nat) (hix : ix ∈ row) (v : Nat) (p : Bool) : Runs s (writeElem e t (vSat w) ix v p) := by
  refine runs_writeElem (h.dest t ht) ?_ ..
  rw [vecIxs, if_neg (by rw [hop]; exact Bool.false_ne_true)]
  exact List.mem_flatten_of_mem hrow hix

theorem runs_runElems (hop : iOpcode w ≠ 0x38) (hred : vReduces (iOpcode w) = false) : Runs s (runElems e w o) := by
  refine runs_bind (runs_mapE _ fun x hx => runs_inRow ?_) fun _ => runs_pure _
  refine runs_bind (runs_mapE _ fun ix _ => ?_) fun vs => runs_bind (runs_storeRow (vecServed_row h hred ?_) vs) fun _ => runs_pure _
  · exact runs_bind (runs_vecA h ix) fun a => runs_bind (runs_vecElem (vecServed_b h) (vecServed_c h hop) ix) fun _ => runs_pure _
  · exact List.fst_mem_of_mem_zipIdx hx

theorem vecServed_lines (hred : vReduces (iOpcode w) = true) (t : Tens) (ht : o.d = some t) : Writable s e t (lines w o.shape) := by
  have hdest := h.dest t ht
  rwa [vecIxs, if_pos hred] at hdest

theorem runs_runReduce (hred : vReduces (iOpcode w) = true) : Runs s (runReduce e w o) := by
  refine runs_bind (runs_mapE _ fun x _ => runs_inRow ?_) fun es =>
    runs_storeLines (vecServed_lines h hred) _ fun l => mem_lines_of_linesOf
  exact runs_bind (runs_mapE _ fun ix _ => runs_vecA h ix) fun _ => runs_bind runs_checkpoint fun _ => runs_pure _

theorem runs_rowfinStat (hop : iOpcode w = 0x38) {tb : Tens} (hb : o.b = some tb) {eps i : Nat} (hi : i < extAt o.shape 1) :
    Runs s (rowfinStat e w o tb eps i) := by
  have hix (k : Nat) (hk : k = 0 ∨ k = 1) : [k, i] ∈ statIxs o := by
    refine List.mem_flatMap.2 ⟨i, List.mem_range.2 hi, ?_⟩
    obtain rfl | rfl := hk
    · exact List.mem_cons_self
    · exact List.mem_cons_of_mem _ List.mem_cons_self
  refine runs_bind (runs_mapE _ fun t _ => ?_) fun ps => ?_
  · exact runs_bind (runs_readElem (vecServed_b h tb hb) _) fun _ => runs_bind (runs_readElem (vecServed_b h tb hb) _) fun _ => runs_pure _
  · dsimp only
    split
    next t ht =>
      exact runs_bind (runs_storedBits ..) fun _ => runs_bind (runs_writeElem (h.stats hop t ht) (hix 0 (.inl rfl)) ..) fun _ =>
        runs_bind (runs_storedBits ..) fun _ => runs_bind (runs_writeElem (h.stats hop t ht) (hix 1 (.inr rfl)) ..) fun _ =>
        runs_bind runs_checkpoint fun _ => runs_pure _
    · exact runs_bind runs_checkpoint fun _ => runs_pure _

theorem runs_runRowfin (hop : iOpcode w = 0x38) : Runs s (runRowfin e w o) := by
  have hred : vReduces (iOpcode w) = false := by rw [hop]; rfl
  unfold runRowfin
  dsimp only
  split
  next tb f hb hf =>
    refine runs_bind (runs_mapE _ fun i hi => runs_inRow (runs_rowfinStat h hop hb (List.mem_range.1 hi))) fun sts => ?_
    refine runs_bind (runs_mapE _ fun x hx => runs_inRow ?_) fun _ => runs_pure _
    refine runs_bind (runs_mapE _ fun ix _ => ?_) fun vs =>
      runs_bind (runs_storeRow (vecServed_row h hred (List.fst_mem_of_mem_zipIdx hx)) vs) fun _ => runs_pure _
    refine runs_bind (runs_vecA h ix) fun a => ?_
    refine runs_branch' (fun _ => runs_fuseWord (vecServed_evec h hop hf) ..) fun g => ?_
    exact runs_branch (fun _ => runs_fuseWord (vecServed_evec h hop hf) ..) fun _ => runs_pure _
  · exact runs_pure _

end
end

/-! ### Repeats of vector instructions -/

/-- What follows the checks of a vector instruction. -/
def vecRest (c : Nat) (i : Issued) (o : VecOps) : Eng (List SealMsg) := do
  let w := i.word.toNat
  let e := envOf c .vec i
  let vs ← if iOpcode w = 0x38 then runRowfin e w o else if vReduces (iOpcode w) then runReduce e w o else runElems e w o
  if vDReg w then act (setVReg c i.ctx (vVD w) vs)
  pure []

theorem vecOne_eq (c : Nat) (i : Issued) (r : Nat) : vecOne c i r = vecIssue c i r >>= vecRest c i := rfl

theorem vecRest_ends {c : Nat} {i : Issued} {o : VecOps} {s u : State} (h : VecServed s (envOf c .vec i) i.word.toNat o) (hu : Level s u)
    (hi : Idle u) : ∃ p t, vecRest c i o u = .ok p t := by
  have hlast (vs : List (Nat × Bool)) (t : State) (_ : Level s t) (ht : Idle t) : ∃ p r, (do
      if vDReg i.word.toNat then act (setVReg c i.ctx (vVD i.word.toNat) vs)
      pure [] : Eng (List SealMsg)) t = .ok p r := by
    dsimp only
    split
    · exact ⟨_, _, eng_bind (once_of ht rfl)⟩
    · exact ⟨_, _, rfl⟩
  unfold vecRest
  dsimp only
  split
  next hop => exact ends_of_runs (runs_runRowfin h hop) hlast hu hi
  next hop =>
    split
    next hred => exact ends_of_runs (runs_runReduce h hred) hlast hu hi
    next hred => exact ends_of_runs (runs_runElems h hop (Bool.eq_false_iff.2 hred)) hlast hu hi

theorem vecServed_begin {s : State} {e : Env} {w : Nat} {o : VecOps} (h : VecServed s e w o) (x : List RemoteRead) :
    VecServed (begin s x) e w o := ⟨h.reads, h.dest, h.stats⟩

theorem vecOne_ends {c : Nat} {i : Issued} {r : Nat} {o : VecOps} {s : State} (hpass : Passes (vecIssue c i r) s o)
    (h : VecServed s (envOf c .vec i) i.word.toNat o) : ∃ p u, runFrom [] false (vecOne c i r) s = .ok p u := by
  rw [vecOne_eq]
  exact ends_quietly hpass (along_vecIssue quiet_reads ..) fun u calm idle => vecRest_ends (vecServed_begin h _) calm.level idle

/-! ### Rows of the register file -/

/-- Work that runs with nothing noted comes to its end. -/
theorem ends_from {α : Type} {x : Eng α} {s : State} (h : ∃ p t, x (settled s) = .ok p t) : ∃ p t, runFrom [] false x s = .ok p t := by
  obtain ⟨p, t, hp⟩ := h
  exact ⟨p, _, runFrom_settled hp⟩

theorem ends_of_runs_settled {α : Type} {x : Eng α} {s : State} (h : Runs (settled s) x) : ∃ p t, runFrom [] false x s = .ok p t := by
  obtain ⟨p, t, hp, -⟩ := h.ends _ (.refl _) ⟨rfl, rfl⟩
  exact ends_from ⟨p, t, hp⟩

theorem served_lane {s : State} {e : Env} {write : Bool} {a l : Nat} (h : Served s e write a 256) (hl : l ∈ List.range 64) :
    Served s e write (a + 4 * l) 4 := by
  have hlt := List.mem_range.1 hl
  exact fun b h1 h2 => h b (by omega) (by omega)

theorem runs_rowMoveIssue {s : State} {w a : Nat} (hw : vecEncOk w = true) (ha : a % 256 = 0) : Runs s (rowMoveIssue w a) := by
  refine runs_of_calm fun u _ => ⟨(), u, ?_, .refl u⟩
  unfold rowMoveIssue
  rw [eng_bind (need_of hw _ _ u)]
  exact need_of (beq_iff_eq.2 ha) _ _ u

theorem vldrOne_ends {c : Nat} {i : Issued} {r : Nat} {s : State} (hw : vecEncOk i.word.toNat = true) (ha : addrOf i r 1 % 256 = 0)
    (hs : Served s (envOf c .vec i) false (addrOf i r 1) 256) : ∃ p u, runFrom [] false (vldrOne c i r) s = .ok p u := by
  have hlane : ∀ l ∈ List.range 64, Served (settled s) (envOf c .vec i) false (addrOf i r 1 + 4 * l) 4 := fun l hl => served_lane hs hl
  refine ends_from (ends_of_runs (runs_rowMoveIssue hw ha) (fun _ t hn ht => ?_) (.refl _) ⟨rfl, rfl⟩)
  refine ends_of_runs (runs_mapE _ fun l hl => ?_) (fun vs t _ ht => ?_) hn ht
  · exact runs_bind (runs_load (hlane l hl)) fun _ => runs_pure _
  · exact ⟨_, _, eng_bind (once_of ht rfl)⟩

theorem vstrOne_ends {c : Nat} {i : Issued} {r : Nat} {s : State} (hw : vecEncOk i.word.toNat = true) (ha : addrOf i r 0 % 256 = 0)
    (hs : Served s (envOf c .vec i) true (addrOf i r 0) 256) : ∃ p u, runFrom [] false (vstrOne c i r) s = .ok p u := by
  have hlane : ∀ l ∈ List.range 64, Served (settled s) (envOf c .vec i) true (addrOf i r 0 + 4 * l) 4 := fun l hl => served_lane hs hl
  refine ends_of_runs_settled (runs_bind (runs_rowMoveIssue hw ha) fun _ => runs_bind (runs_eachE _ fun l hl => ?_) fun _ => runs_pure _)
  exact runs_get fun _ _ => runs_store (by rw [length_toLe]; exact hlane l hl)

/-- A repeat of a vector instruction that can be done at once comes to its end. -/
theorem vecRun_ends {c op : Nat} {i : Issued} {r : Nat} {s : State} (h : vecCan c op i r s) :
    ∃ p u, runFrom [] false (vecRun c op i r) s = .ok p u := by
  unfold vecCan at h
  unfold vecRun
  by_cases hl : op = 0x3C
  · subst hl
    obtain ⟨hw, ha, hs⟩ := h
    exact vldrOne_ends hw ha hs
  by_cases ht : op = 0x3D
  · subst ht
    obtain ⟨hw, ha, hs⟩ := h
    exact vstrOne_ends hw ha hs
  rw [if_neg (not_or.2 ⟨hl, ht⟩)] at h
  obtain ⟨o, hpass, hserved⟩ := h
  rw [if_neg hl, if_neg ht]
  exact vecOne_ends hpass hserved

theorem vecRow_runs {c op : Nat} {s : State} {i : Issued} (hhead : readyHead s c .vec op = some i)
    (hclaim : vecClaimed s c = false ∨ begun i = true) (hpops : vecPops i.word.toNat = false) :
    vecRow c op s = runEngine c .vec op (vecRun c op) s := by
  have hgo : (vecClaimed s c && !(begun i)) = false := by
    obtain h | h := hclaim <;> simp [h]
  simp only [vecRow, hhead, hgo, hpops]
  rfl

/-- Settles O21: the rows that end, and those that can, by operands that are served element by element. -/
theorem vectorRowsEnd : Obligations.VectorRowsEnd := by
  intro c s i hclaim hpops row hrow
  have hexec (hhead : readyHead s c.val .vec row.2 = some i) :
      exec row.1 s = .next (runEngine c.val .vec row.2 (vecRun c.val row.2) s) := by
    rw [exec_vecRowTable c s row hrow, vecRow_runs hhead hclaim hpops]
  refine ⟨fun posts t h => ?_, fun h => ?_⟩
  · rw [hexec h.head, runEngine_of h]
  · obtain ⟨posts, t, hends⟩ := finishes_of_can h fun r s => vecRun_ends
    exact ⟨posts, t, by rw [hexec h.head, runEngine_of hends]⟩

end Sys2Proof.Machine

/-! ## Gate instructions come to their end (R115 to R124) -/

namespace Sys2Proof.Machine

open Sys2Proof.Safety

/-! ### Runs, samples and limbs as accesses -/

section
variable {s0 : State} {e : Env} {hdrs : List Nat} {P : Nat → Prop}

/-- Reading a granule of a run with its checks. -/
theorem walks_readRunGran {q a b hd : Nat} : Walks s0 e hdrs P (do
    granAligned hd b
    let (bs, bad) ← load e b 288
    let rs := unpackGran bs
    needE (canonical q rs) .residueRange (some (a, false))
    pure (rs, bad) : Eng (List Nat × Bool)) [.read { module := moduleOf s0, addr := b, q := q }] := by
  intro s rest hi hn hc
  obtain ⟨⟨hm, hal, hs⟩, hold⟩ := hc.ready (.read { module := moduleOf s0, addr := b, q := q }) List.mem_cons_self
  have hsame := hc.same { module := moduleOf s0, addr := b, q := q } List.mem_cons_self
  obtain ⟨p, t, k1, k2⟩ := loadOn_of e.alloc hi (hn.served hs)
  dsimp only at hal hsame
  have hload : load e b 288 s = .ok (dataAt s0 e.ctx b 288, p) t := by rw [← hsame]; exact k1
  unfold granHolds at hold
  rw [Bool.and_eq_true] at hold
  refine ⟨(unpackGran (dataAt s0 e.ctx b 288), p), t, ?_, k2.near, fun d _ => by rw [k2.mem], hc.tail.calm k2⟩
  rw [eng_bind (show granAligned hd b s = .ok () s from need_of hal _ _ s), eng_bind hload]
  exact (eng_bind (need_of hold.1 _ _ _)).trans rfl

theorem walks_readRun {r p q a n : Nat} : Walks s0 e hdrs P (readRun e r p q a n) ((runReads s0 q a n).map .read) := by
  unfold readRun runReads
  rw [List.map_map, List.map_eq_flatMap]
  exact walks_last (walks_mapE _ fun g _ => walks_atGran _ _ _ walks_readRunGran) fun _ => walks_pure _

theorem walks_readSample {r : Nat} {o : Obj} : Walks s0 e hdrs P (readSample e r o) ((sampleReads s0 o).map .read) := by
  unfold readSample sampleReads
  rw [List.map_map, List.map_eq_flatMap]
  refine walks_get fun s hn => ?_
  rw [hn.prime]
  exact walks_last (walks_mapE _ fun g _ => walks_atGran _ _ _ walks_readGran) fun _ => walks_pure _

theorem walks_readAccLimb {r c p : Nat} {o : Obj} :
    Walks s0 e hdrs P (readAccLimb e r o c p) (((List.range 32).map fun g => readAt s0 32 o c p g).map .read) := by
  unfold readAccLimb
  rw [List.map_map, List.map_eq_flatMap]
  refine walks_get fun s hn => ?_
  rw [hn.prime]
  exact walks_last (walks_mapE _ fun g _ => walks_atGran _ _ _ walks_readGran) fun _ => walks_pure _

theorem walks_readAcc {r : Nat} {o : Obj} : Walks s0 e hdrs P (readAcc e r o) ((accReads s0 o).map .read) := by
  unfold readAcc accReads accLimbs
  rw [List.map_flatMap]
  exact walks_last (walks_mapE _ fun x _ => walks_readAccLimb) fun _ => walks_pure _

theorem walks_writeLimb {r gr c p : Nat} {o : Obj} {lap bad : Bool} {v : List Nat} :
    Walks s0 e hdrs P (writeLimb e r gr o lap c p v bad) (((List.range gr).map fun g => granPlace (moduleOf s0) gr o c p g).map .write) := by
  unfold writeLimb
  rw [List.map_map, List.map_eq_flatMap]
  refine walks_last (walks_eachE_zip _ _ fun g _ l => ?_) fun _ => walks_checkpoint
  dsimp only
  split
  · exact walks_first walks_freeGran fun _ => walks_atGran _ _ _ walks_writeGran
  · exact walks_first (walks_pure _) fun _ => walks_atGran _ _ _ walks_writeGran

theorem walks_writeSample {r : Nat} {o : Obj} {lap bad : Bool} {v : List Nat} :
    Walks s0 e hdrs P (writeSample e r o lap v bad) ((sampleWrites s0 o).map .write) := walks_writeLimb

theorem walks_writeAcc {r : Nat} {o : Obj} {lap bad : Bool} {f : Nat × Nat → List Nat} :
    Walks s0 e hdrs P (eachE (fun (x : Nat × Nat) => writeLimb e r 32 o lap x.1 x.2 (f x) bad) [(0, 0), (0, 1), (1, 0), (1, 1)])
      ((accWrites s0 o).map .write) := by
  unfold accWrites accLimbs
  rw [List.map_flatMap]
  exact walks_eachE _ fun x _ => walks_writeLimb

theorem walks_startDest {d : Obj} {h : Nat} {p : Bool} (ha : d.addr ∈ hdrs) :
    WalksTo s0 e hdrs P (fun o => o = { d with h := h }) (startDest e d h p) [] :=
  walksTo_bind (l := []) (walks_startHdr ha).to fun _ _ => walksTo_pure rfl

theorem Near.log2N {s t : State} (h : Near s t) (ch : Nat) : chLog2N t ch = chLog2N s ch :=
  (congrArg (fun u : State => chLog2N u ch) h.rest :)

theorem flatMap_zip_snd {α β γ : Type} {l : List α} {k : List β} (g : β → List γ) (h : k.length ≤ l.length) :
    (l.zip k).flatMap (fun x => g x.2) = k.flatMap g := by
  rw [← List.flatMap_map Prod.snd, List.map_snd_zip h]

/-- Work for each of a list's elements with their numbers. -/
theorem walks_eachNumbered {α : Type} {f : Nat × α → Eng Unit} {g : α → List Access} (l : List α)
    (h : ∀ k x, x ∈ l → Walks s0 e hdrs P (f (k, x)) (g x)) :
    Walks s0 e hdrs P (eachE f ((List.range l.length).zip l)) (l.flatMap g) := by
  rw [← flatMap_zip_snd g (le_of_eq List.length_range.symm)]
  exact walks_eachE _ fun x hx => h x.1 x.2 (List.of_mem_zip hx).2

/-- Headers written for a list of objects. -/
theorem walks_eachHdr {α : Type} {f : α → Eng Unit} (l : List α) (h : ∀ x ∈ l, Walks s0 e hdrs P (f x) []) :
    Walks s0 e hdrs P (eachE f l) [] := by
  have hw := walks_eachE l h
  rwa [List.flatMap_eq_nil_iff.2 fun _ _ => rfl] at hw

/-- The accesses of a piece of work that reads, and then writes. -/
theorem accesses_piece (rs : List GranRead) (ws : List (Nat × Nat)) :
    [({ reads := rs, writes := ws } : Safety.Work)].flatMap Work.accesses = rs.map .read ++ ws.map .write := List.append_nil _

end

/-! ### The work of the instructions -/

section
variable {s0 : State} {j : GateJob} {hdrs : List Nat} {P : Nat → Prop}

theorem walks_linWork (hd : j.dst.addr ∈ hdrs) : Walks s0 j.e hdrs P (linWork j) ((linPieces s0 j).flatMap Work.accesses) := by
  unfold linWork linPieces
  rw [accesses_piece, List.map_flatMap]
  refine walks_get fun s _ => walks_bindTo (l := []) (walks_startDest hd) fun d hdst => ?_
  subst hdst
  exact walks_bind (walks_mapE _ fun o _ => walks_readSample) fun ls =>
    walks_last walks_writeSample fun _ => walks_commitHdr hd

theorem walks_relinRuns {p0 p1 : Prime} {s : State} (h0 : p0 = primeAt s j.ch 0) (h1 : p1 = primeAt s j.ch 1) (hn : Near s0 s) :
    Walks s0 j.e hdrs P (mapE (fun (x : Nat × Nat) => do
      let q := if x.2 = 0 then p0.q else p1.q
      let (k0, b0) ← readRun j.e j.r x.2 q (relinAddr j x.1 x.2 0) 32
      let (k1, b1) ← readRun j.e j.r x.2 q (relinAddr j x.1 x.2 1) 32
      pure (k0, k1, b0 || b1)) [(0, 0), (0, 1), (1, 0), (1, 1)])
      ((accLimbs.flatMap fun x => [0, 1].flatMap fun h =>
        runReads s0 (primeAt s0 j.ch (if x.2 = 0 then 0 else 1)).q (relinAddr j x.1 x.2 h) 32).map .read) := by
  have hq (x : Nat × Nat) : (if x.2 = 0 then p0.q else p1.q) = (primeAt s0 j.ch (if x.2 = 0 then 0 else 1)).q := by
    rw [h0, h1, hn.prime, hn.prime]
    split <;> rfl
  unfold accLimbs
  rw [List.map_flatMap]
  refine walks_mapE _ fun x _ => ?_
  rw [hq, List.flatMap_cons, List.flatMap_singleton, List.map_append]
  exact walks_bind walks_readRun fun _ => walks_last walks_readRun fun _ => walks_pure _

theorem walks_combineWork (hd : j.dst.addr ∈ hdrs) :
    Walks s0 j.e hdrs P (combineWork j) ((combinePieces s0 j).flatMap Work.accesses) := by
  unfold combineWork combinePieces
  rw [accesses_piece, List.map_append, List.append_assoc, List.map_flatMap]
  refine walks_get fun s hn => walks_bindTo (l := []) (walks_startDest hd) fun d hdst => ?_
  subst hdst
  refine walks_bind (walks_mapE _ fun o _ => walks_readAcc) fun ls => ?_
  refine walks_bind (walks_relinRuns rfl rfl hn) fun ks => ?_
  dsimp only
  by_cases hm : gMode j.w = 1
  · rw [if_pos hm, if_pos hm]
    exact walks_last walks_writeSample fun _ => walks_commitHdr hd
  · rw [if_neg hm, if_neg hm]
    exact walks_last walks_writeAcc fun _ => walks_commitHdr hd

theorem walks_extractWork (hd : ∀ d ∈ j.ds, d.addr ∈ hdrs) (hsrc : hChain j.src.h = j.ch) :
    Walks s0 j.e hdrs P (extractWork j) ((extractPieces s0 j).flatMap Work.accesses) := by
  unfold extractWork extractPieces
  dsimp only
  rw [accesses_piece, List.flatMap_cons, List.flatMap_singleton, List.map_append, List.map_map, List.map_map, List.map_eq_flatMap,
    List.map_eq_flatMap, List.map_flatMap, List.append_assoc]
  refine walks_first (walks_eachHdr _ fun d hmem => walks_startHdr (hd d hmem)) fun _ => walks_get fun s hn => ?_
  rw [hn.prime, hn.log2N, ← hsrc]
  refine walks_bind (walks_mapE _ fun g _ => walks_atGran _ _ _ walks_readGran) fun l0 => ?_
  refine walks_bind (walks_mapE _ fun g _ => walks_atGran _ _ _ walks_readGran) fun l1 => ?_
  exact walks_last (walks_eachNumbered _ fun k d _ => walks_writeSample) fun _ => walks_eachHdr _ fun d hmem => walks_commitHdr (hd d hmem)

theorem walks_packWork (hd : j.dst.addr ∈ hdrs) : Walks s0 j.e hdrs P (packWork j) ((packPieces s0 j).flatMap Work.accesses) := by
  unfold packWork packPieces
  dsimp only
  rw [accesses_piece, List.map_flatMap, List.map_flatMap]
  refine walks_get fun s hn => ?_
  rw [hn.prime, hn.log2N]
  refine walks_bind (walks_mapE _ fun o _ => walks_last walks_readSample fun _ => walks_pure _) fun ls => ?_
  have hlimbs {bad : Bool} {x y : List Nat} : Walks s0 j.e hdrs P (eachE (fun (x : Nat × List Nat) =>
      writeLimb j.e j.r (2 ^ chLog2N s0 j.ch / 64) j.dst j.lap x.1 0 x.2 bad) [(0, x), (1, y)])
      ([0, 1].flatMap fun c => ((List.range (2 ^ chLog2N s0 j.ch / 64)).map fun g =>
        granPlace (moduleOf s0) (2 ^ chLog2N s0 j.ch / 64) j.dst c 0 g).map .write) :=
    walks_eachE _ fun x _ => walks_writeLimb
  split
  · refine walks_first (walks_hdrPoison hd) fun _ => ?_
    exact hlimbs
  · exact hlimbs

/-- Accesses that read nothing with checks can be made in another order. -/
theorem Can.reorder {e : Env} {s : State} {l k rest : List Access} (h : Can s0 e hdrs P s (l ++ rest)) (hmem : ∀ x ∈ k, x ∈ l)
    (hfree : ∀ r, .read r ∉ k) : Can s0 e hdrs P s (k ++ rest) := by
  have hall : ∀ x ∈ k ++ rest, x ∈ l ++ rest := fun x hx =>
    (List.mem_append.1 hx).elim (fun hk => List.mem_append_left _ (hmem x hk)) (List.mem_append_right _)
  obtain ⟨-, hrest, hcross⟩ := List.pairwise_append.1 h.order
  have hapart (x y : Access) (hy : y ∈ k) : apartFrom s0 e.ctx x y := by
    cases y with
    | read r => exact absurd hy (hfree r)
    | again => cases x <;> trivial
    | write => cases x <;> trivial
  exact ⟨h.headers, fun x hx => h.ready x (hall x hx),
    List.pairwise_append.2 ⟨List.pairwise_of_forall_mem_list fun x _ y hy => hapart x y hy, hrest, fun x hx y hy => hcross x (hmem x hx) y hy⟩,
    fun x hx => h.apart x (hall x hx), fun r hr => h.same r (hall _ hr)⟩

/-- Granules that are read as they stand and written, one by one. -/
theorem walks_inTurn {e : Env} {α β : Type} {x : Eng α} {l : List β} {at_ : β → Nat × Nat}
    (h : Walks s0 e hdrs P x (l.flatMap fun g => [.again (at_ g), .write (at_ g)])) :
    Walks s0 e hdrs P x ((l.map at_).map .again ++ (l.map at_).map .write) := by
  intro s rest hi hn hc
  refine h s rest hi hn (hc.reorder (fun y hy => ?_) fun r hr => ?_)
  · obtain ⟨g, hg, hy⟩ := List.mem_flatMap.1 hy
    have hmem : at_ g ∈ l.map at_ := List.mem_map_of_mem hg
    rw [List.mem_pair] at hy
    obtain rfl | rfl := hy
    · exact List.mem_append_left _ (List.mem_map_of_mem hmem)
    · exact List.mem_append_right _ (List.mem_map_of_mem hmem)
  · obtain ⟨g, -, hy⟩ := List.mem_flatMap.1 hr
    rw [List.mem_pair] at hy
    obtain h | h := hy <;> cases h

/-- Looking at a granule as it stands. -/
theorem walks_again {e : Env} {α : Type} {hd a : Nat} {f : List Byte × Bool → Eng α} {l : List Access}
    (hf : ∀ v, Walks s0 e hdrs P (f v) l) :
    Walks s0 e hdrs P (granAligned hd a >>= fun _ => load e a 288 >>= f) (.again (moduleOf s0, a) :: l) := by
  intro s rest hi hn hc
  obtain ⟨-, hal, hs⟩ : GranServed s0 e false (moduleOf s0, a) := hc.ready (.again _) List.mem_cons_self
  obtain ⟨p, t, k1, k2⟩ := loadOn_of e.alloc hi (hn.served hs)
  obtain ⟨v, u, hv, hnear, hout, hcan⟩ := hf _ t rest (k2.near.idle hi) (hn.trans k2.near) (hc.tail.calm k2)
  refine ⟨v, u, ?_, k2.near.trans hnear, fun d hd => (hout d hd).trans (by rw [k2.mem]), hcan⟩
  rw [eng_bind (show granAligned hd a s = .ok () s from need_of hal _ _ s), eng_bind (show load e a 288 s = _ from k1), hv]

/-- Storing a granule of this module that comes next. -/
theorem walks_storeGran {e : Env} {a : Nat} {rs : List Nat} {bad : Bool} :
    Walks s0 e hdrs P (store e a (packGran rs) bad) [.write (moduleOf s0, a)] := by
  intro s rest hi hn hc
  have hal : a % (if isSp a then 8 else 32) == 0 := (hc.ready (.write (moduleOf s0, a)) List.mem_cons_self).1.2.1
  obtain ⟨v, t, hv, hrest⟩ := walks_writeHere (hd := a) (rs := rs) (bad := bad) s rest hi hn hc
  rw [eng_bind (show granAligned a a s = .ok () s from need_of hal _ _ s)] at hv
  exact ⟨v, t, hv, hrest⟩

theorem walks_kswGranule {p : Prime} {k : Nat} {v : List Nat} {bad : Bool} {x : Nat × List (List Nat) × Bool} :
    Walks s0 j.e hdrs P (kswGranule j p k v bad x)
      [.again (moduleOf s0, kswOutAddr j k x.1), .write (moduleOf s0, kswOutAddr j k x.1)] := by
  unfold kswGranule
  refine walks_atGran _ _ _ (walks_again fun y => ?_)
  dsimp only
  split
  · exact walks_first walks_freeGran fun _ => walks_storeGran
  · exact walks_first (walks_pure _) fun _ => walks_storeGran

/-- The matrix of G_KSW: a column of granules for each granule of the slice. -/
theorem walksTo_kswMatrix {q : Nat} : WalksTo s0 j.e hdrs P (fun ms => ms.map (fun x => x.1) = sliceGrans j.w j.gp.nLwe) (kswMatrix j q)
    (((sliceGrans j.w j.gp.nLwe).flatMap fun g => (List.range 8).flatMap fun b =>
      ((List.range 1024).map fun k => 1024 * b + k).flatMap fun row => runReads s0 q (kswRowAddr j g row) 1).map .read) := by
  unfold kswMatrix
  have hcol : ∀ g ∈ sliceGrans j.w j.gp.nLwe, WalksTo s0 j.e hdrs P (fun x : Nat × List (List Nat) × Bool => g = x.1) (do
      let l ← mapE (fun (b : Nat) => do
        let x ← mapE (fun row => readRun j.e j.r 0 q (kswRowAddr j g row) 1) ((List.range 1024).map fun k => 1024 * b + k)
        checkpoint
        pure x) (List.range 8)
      pure (g, l.flatten.map (·.1), l.flatten.any (·.2)))
      (((List.range 8).flatMap fun b => ((List.range 1024).map fun k => 1024 * b + k).flatMap fun row =>
        runReads s0 q (kswRowAddr j g row) 1).map .read) := fun g _ => by
    rw [List.map_flatMap]
    refine walksTo_last (walks_mapE _ fun b _ => ?_).to fun l _ => walksTo_pure rfl
    rw [List.map_flatMap]
    exact walks_last (walks_mapE _ fun row _ => walks_readRun) fun x => walks_first walks_checkpoint fun _ => walks_pure _
  rw [List.map_flatMap]
  intro s rest hi hn hc
  obtain ⟨ms, t, hms, hall, hrest⟩ := walksTo_mapE _ hcol s rest hi hn hc
  refine ⟨ms, t, hms, ?_, hrest⟩
  have hmap := List.forall₂_map_right_iff.2 hall
  exact (List.forall₂_eq_eq_eq ▸ hmap : _ = _).symm

theorem walks_kswSample {p : Prime} {k : Nat} {v : List Nat} {bad : Bool} {ms : List (Nat × List (List Nat) × Bool)} {gs : List Nat}
    (hms : ms.map (fun x => x.1) = gs) :
    Walks s0 j.e hdrs P (eachE (kswGranule j p k v bad) ms)
      ((gs.map fun g => (moduleOf s0, kswOutAddr j k g)).map .again ++ (gs.map fun g => (moduleOf s0, kswOutAddr j k g)).map .write) := by
  refine walks_inTurn ?_
  rw [← hms, List.flatMap_map]
  exact walks_eachE _ fun x _ => walks_kswGranule

theorem walks_kswWork : Walks s0 j.e hdrs P (kswWork j) ((kswPieces s0 j).flatMap Work.accesses) := by
  unfold kswWork kswPieces
  refine walks_get fun s hn => ?_
  rw [hn.prime]
  dsimp only
  rw [List.flatMap_cons, List.flatMap_map]
  rw [show Work.accesses _ = _ from List.append_nil _]
  refine walks_bindTo walksTo_kswMatrix fun ms hms => walks_last (walks_eachE _ fun x _ => ?_) fun _ =>
    walks_act fun s => calm_addTotal _ _ _ s
  · rw [Work.accesses]
    exact walks_bind walks_readSample fun v => walks_last (walks_kswSample hms) fun _ => walks_checkpoint

end

/-! ### The segments of G_REFRESH -/

section
variable {s0 : State} {e : Env} {hdrs : List Nat} {P : Nat → Prop}

/-- The rows of a bootstrapping key as G_REFRESH reads them. -/
def rowReads (s : State) (ch base k : Nat) : List GranRead :=
  [0, 1].flatMap fun h => runReads s (primeAt s ch (if (rowIndex k).2.2.2.2 = 0 then 0 else 1)).q (base + k * 18432 + 9216 * h) 32

theorem walks_refreshRows {r base ch first : Nat} {ats : List Nat} (n k : Nat) {acc new : List (List Nat)} {bad : Bool} :
    Walks s0 e hdrs P (refreshRows e r base ch ats first n k acc new bad) (((List.range' k n).flatMap (rowReads s0 ch base)).map .read) := by
  induction n generalizing k acc new bad with
  | zero => exact walks_pure _
  | succ n ih =>
    rw [refreshRows, List.range'_succ, List.flatMap_cons, List.map_append, rowReads, List.flatMap_cons, List.flatMap_singleton,
      List.map_append, List.append_assoc]
    refine walks_get fun s hn => ?_
    have hq : (if (rowIndex k).2.2.2.2 = 0 then primeAt s ch 0 else primeAt s ch 1) =
        primeAt s0 ch (if (rowIndex k).2.2.2.2 = 0 then 0 else 1) := by
      rw [hn.prime, hn.prime]
      split <;> rfl
    dsimp only
    rw [hq]
    refine walks_bind walks_readRun fun v0 => walks_bind walks_readRun fun v1 => walks_first walks_checkpoint fun _ => ?_
    split
    · exact ih (k + 1)
    · exact ih (k + 1)

theorem walks_readSwitched {r a sw nLwe : Nat} :
    Walks s0 e hdrs P (readSwitched e r (hChain a) sw nLwe) ((switchedReads s0 a sw nLwe).map .read) := by
  unfold readSwitched switchedReads
  refine walks_get fun s hn => ?_
  rw [hn.prime]
  exact walks_last walks_readRun fun _ => walks_pure _

theorem walks_segmentWork {w r : Nat} {j : RefreshJob} :
    Walks s0 e hdrs P (segmentWork e w r j) ((segmentPieces s0 w j).flatMap Work.accesses) := by
  unfold segmentWork segmentPieces
  rw [accesses_piece, List.map_append, List.append_assoc, List.range_eq_range']
  refine walks_get fun s hn => ?_
  refine walks_bind walks_readSwitched fun x => walks_bind (walks_refreshRows _ 0) fun y => ?_
  exact walks_last walks_writeAcc fun _ => walks_pure _

/-- What follows the checks of a G_REFRESH of mode 1. -/
def segmentsRest (e : Env) (w : Nat) (js : List RefreshJob) : Eng Unit := do
  eachE (fun (j : RefreshJob) => startHdr e j.d.addr j.d.h j.bad) js
  let bads ← mapE (fun (x : Nat × RefreshJob) => segmentWork e w x.1 x.2) ((List.range js.length).zip js)
  eachE (fun (x : RefreshJob × Bool) => commitHdr e x.1.d.addr x.1.d.h x.2) (js.zip bads)

theorem refreshSegments_eq (c : Nat) (i : Issued) : refreshSegments c i =
    mapE (refreshChecks c i) (List.range (repCount i.word.toNat)) >>= segmentsRest (envOf c .gateLane i) i.word.toNat := rfl

theorem walks_segmentsRest {w : Nat} {js : List RefreshJob} (hd : ∀ j ∈ js, j.d.addr ∈ hdrs) :
    Walks s0 e hdrs P (segmentsRest e w js) ((js.flatMap (segmentPieces s0 w)).flatMap Work.accesses) := by
  unfold segmentsRest
  rw [List.flatMap_assoc]
  refine walks_first (walks_eachHdr _ fun j hj => walks_startHdr (hd j hj)) fun _ => ?_
  rw [← flatMap_zip_snd _ (le_of_eq List.length_range.symm)]
  refine walks_last (walks_mapE _ fun x _ => walks_segmentWork) fun bads => walks_eachHdr _ fun x hx => ?_
  exact walks_commitHdr (hd _ (List.of_mem_zip hx).1)

end

/-! ### What the checks leave -/

section
variable {α β : Type} {Q : β → Prop}

theorem yields_bindTo {R : α → Prop} {x : Eng α} {f : α → Eng β} (hx : Yields R x) (hf : ∀ v, R v → Yields Q (f v)) :
    Yields Q (x >>= f) := by
  refine ⟨fun s w t h => ?_⟩
  simp only [bind, EStateM.bind] at h
  split at h
  next v u hv => exact (hf v (hx.yields _ _ _ hv)).yields _ _ _ h
  next => cases h

theorem passes_yields {x : Eng β} {s : State} {v : β} (h : Passes x s v) (hx : Yields Q x) : Q v := by
  obtain ⟨t, ht⟩ := h
  unfold runFrom at ht
  split at ht
  next hv => cases ht; exact hx.yields _ _ _ hv
  next => cases ht

end

theorem yields_openPlace (e : Env) (write : Bool) (gr : Nat) (o : Obj) : Yields (fun x => x.h = o.h) (openPlace e write gr o) := by
  unfold openPlace
  split
  · exact yields_bind fun _ => yields_bind fun _ => yields_pure rfl
  · exact yields_pure rfl

/-- A gate instruction of one destination. -/
def OneDest (j : GateJob) : Prop := ∃ d, j.ds = [d]

theorem dst_of_oneDest {j : GateJob} (h : OneDest j) : j.dst.addr ∈ j.ds.map fun d => d.addr := by
  obtain ⟨d, hd⟩ := h
  unfold GateJob.dst
  rw [hd]
  exact List.mem_cons_self

theorem yields_linChecks (c : Nat) (i : Issued) (r : Nat) : Yields OneDest (linChecks c i r) := by
  unfold linChecks
  exact yields_bind fun _ => yields_bind fun _ => yields_bind fun _ => yields_bind fun _ => yields_bind fun _ => yields_pure ⟨_, rfl⟩

theorem yields_combineChecks (c : Nat) (i : Issued) (r : Nat) : Yields OneDest (combineChecks c i r) := by
  unfold combineChecks
  exact yields_bind fun _ => yields_bind fun _ => yields_bind fun _ => yields_bind fun _ => yields_bind fun _ => yields_bind fun _ =>
    yields_bind fun _ => yields_pure ⟨_, rfl⟩

theorem yields_packChecks (c : Nat) (i : Issued) (r : Nat) : Yields OneDest (packChecks c i r) := by
  unfold packChecks
  exact yields_bind fun _ => yields_bind fun _ => yields_bind fun _ => yields_bind fun _ => yields_bind fun _ => yields_bind fun _ =>
    yields_bind fun _ => yields_bind fun _ => yields_pure ⟨_, rfl⟩

theorem yields_extractChecks (c : Nat) (i : Issued) (r : Nat) : Yields (fun j => hChain j.src.h = j.ch) (extractChecks c i r) := by
  unfold extractChecks
  exact yields_bind fun _ => yields_bind fun _ => yields_bind fun _ => yields_bind fun _ => yields_bind fun _ =>
    yields_bindTo (yields_openPlace ..) fun a ha => yields_bind fun _ => yields_pure (congrArg hChain ha)

/-! ### Repeats that can be done at once -/

theorem gateRun_eq (checks : Eng GateJob) (work : GateJob → Eng Unit) :
    gateRun checks work = checks >>= fun j => work j >>= fun _ => pure [] := rfl

/-- A repeat of a gate instruction whose checks pass and whose work walks what is served comes to its end. -/
theorem gateRun_ends {checks : Issued → Nat → Eng GateJob} {work : GateJob → Eng Unit} {pieces : State → GateJob → List Safety.Work}
    {hdrs : Bool} {i : Issued} {r : Nat} {s : State} {Q : GateJob → Prop} (h : gateCan checks pieces hdrs i r s)
    (hchecks : Along Quiet (checks i r)) (hyields : Yields Q (checks i r)) (hbegin : ∀ s x j, pieces (begin s x) j = pieces s j)
    (hwork : ∀ s j P, Q j → Walks s j.e (if hdrs then j.ds.map fun d => d.addr else []) P (work j) ((pieces s j).flatMap Work.accesses)) :
    ∃ p u, runFrom [] false (gateRun (checks i r) work) s = .ok p u := by
  obtain ⟨j, hpass, hserved⟩ := h
  rw [gateRun_eq]
  refine ends_of_checks hpass hchecks hserved fun x => ?_
  rw [← hbegin s x]
  exact walks_last (hwork _ j _ (passes_yields hpass hyields)) fun _ => walks_pure _

/-- The gate instructions of the lanes, repeat by repeat. -/
theorem gateLane_ends (c : Fin 128) {s : State} {i : Issued} {r : Nat} : ∀ row ∈ (gateRows c).zip (gateJobs c),
    gateCan row.2.2.2.1 row.2.2.2.2.2 true i r s → ∃ p u, runFrom [] false (row.1.2.2 i r) s = .ok p u := by
  have hlin : ∀ s j P, OneDest j → Walks s j.e (j.ds.map fun d => d.addr) P (linWork j) ((linPieces s j).flatMap Work.accesses) :=
    fun _ _ _ h => walks_linWork (dst_of_oneDest h)
  unfold gateRows gateJobs
  refine List.forall_mem_cons.mpr ⟨fun h => ?_, ?_⟩
  · exact gateRun_ends h (along_linChecks quiet_reads ..) (yields_linChecks ..) (fun _ _ _ => rfl) hlin
  refine List.forall_mem_cons.mpr ⟨fun h => ?_, ?_⟩
  · exact gateRun_ends h (along_combineChecks quiet_reads ..) (yields_combineChecks ..) (fun _ _ _ => rfl) fun _ _ _ h =>
      walks_combineWork (dst_of_oneDest h)
  refine List.forall_mem_cons.mpr ⟨fun h => ?_, ?_⟩
  · exact gateRun_ends h (along_extractChecks quiet_reads ..) (yields_extractChecks ..) (fun _ _ _ => rfl) fun _ _ _ h =>
      walks_extractWork (fun d hd => List.mem_map_of_mem hd) h
  refine List.forall_mem_cons.mpr ⟨fun h => ?_, List.forall_mem_nil _⟩
  · exact gateRun_ends h (along_packChecks quiet_reads ..) (yields_packChecks ..) (fun _ _ _ => rfl) fun _ _ _ h =>
      walks_packWork (dst_of_oneDest h)

theorem gateKsw_ends {c : Nat} {s : State} {i : Issued} {r : Nat} (h : gateCan (kswChecks c) kswPieces false i r s) :
    ∃ p u, runFrom [] false (gateKsw c i r) s = .ok p u :=
  gateRun_ends h (along_kswChecks quiet_reads ..) (yields_any _) (fun _ _ _ => rfl) fun _ _ _ _ => walks_kswWork

/-! ### Rows of the gate class -/

theorem readyHead_of_gateHead {s : State} {c op : Nat} {i : Issued} (h : gateHead s c op = some i) : readyHead s c .gateLane op = some i := by
  unfold gateHead at h
  exact (Option.filter_eq_some_iff.1 h).1

theorem exec_gateRows (c : Fin 128) {s : State} {i : Issued} : ∀ row ∈ gateRows c, gateHead s c.val row.2.1 = some i →
    exec row.1 s = .next (runEngine c.val .gateLane row.2.1 row.2.2 s) := by
  have hrow {op : Nat} {run : Nat → Issued → Nat → Eng (List SealMsg)} (h : gateHead s c.val op = some i) :
      gateRow c.val op run s = runEngine c.val .gateLane op (run c.val) s := by
    unfold gateRow
    rw [h]
  unfold gateRows
  iterate 4 refine List.forall_mem_cons.mpr ⟨fun h => congrArg Host.Outcome.next (hrow h), ?_⟩
  exact List.forall_mem_nil _

theorem exec_gKsw (c : Fin 128) {s : State} {i : Issued}
    (hclaim : begun i = true ∨ arrayClosed s c.val i.serial = false ∧ bconvHolds s c.val = false)
    (hhead : readyHead s c.val .gateArray 2 = some i) :
    exec (.gKsw c) s = .next (runEngine c.val .gateArray 2 (gateKsw c.val) s) := by
  have hgo : (!(begun i) && (arrayClosed s c.val i.serial || bconvHolds s c.val)) = false := by
    obtain h | ⟨ha, hb⟩ := hclaim
    · simp [h]
    · simp [ha, hb]
  have hrow : gKswRow c.val s = runEngine c.val .gateArray 2 (gateKsw c.val) s := by
    simp only [gKswRow, hhead, hgo]
    rfl
  exact congrArg Host.Outcome.next hrow

/-- The row of a G_REFRESH of mode 1 whose segments end. -/
theorem exec_segments (c : Fin 128) {s t : State} {i : Issued} (hhead : gateHead s c.val 3 = some i) (hgate : i.gate = none)
    (hmode : gMode i.word.toNat ≠ 0) (h : runFrom i.journal (stopping s c.val i.ctx) (refreshSegments c.val i) s = .ok () t) :
    exec (.gRefresh c) s = .next (refreshEnd c.val i t) := by
  have hrow : gRefreshRow c.val s = refreshEnd c.val i t := by
    unfold gRefreshRow
    rw [hhead]
    dsimp only
    rw [hgate]
    dsimp only
    rw [if_neg hmode, gateStep, h]
  exact congrArg Host.Outcome.next hrow

theorem segments_end {c : Nat} {s : State} {i : Issued} (h : segmentsCan c i s) :
    ∃ t, runFrom [] false (refreshSegments c i) s = .ok () t := by
  obtain ⟨js, hpass, hserved⟩ := h
  rw [refreshSegments_eq]
  obtain ⟨⟨⟩, t, ht⟩ := ends_of_checks hpass (along_mapE quiet_reads (fun _ => along_refreshChecks quiet_reads ..) _) hserved fun x =>
    walks_segmentsRest fun j hj => List.mem_map_of_mem hj
  exact ⟨t, ht⟩

/-- Settles O17: the rows whose repeats end, those that can by what their checks leave and what their work walks, and the segments of a
G_REFRESH in the same way. -/
theorem gateInstructionsEnd : Obligations.GateInstructionsEnd := by
  refine ⟨fun c s i => ⟨fun posts t row hrow hhead h => ?_, fun row hrow hhead h => ?_, fun hclaim => ⟨fun posts t h => ?_, fun h => ?_⟩⟩,
    fun c s i hhead hgate hmode => ⟨fun t h => exec_segments c hhead hgate hmode h, fun hstop hfresh h => ?_⟩⟩
  · exact (exec_gateRows c row hrow hhead).trans (congrArg Host.Outcome.next (runEngine_of h))
  · obtain ⟨posts, t, hends⟩ := finishes_of_can h fun r s => gateLane_ends c row hrow
    exact ⟨posts, t, (exec_gateRows c row.1 (List.of_mem_zip hrow).1 hhead).trans (congrArg Host.Outcome.next (runEngine_of hends))⟩
  · exact (exec_gKsw c hclaim h.head).trans (congrArg Host.Outcome.next (runEngine_of h))
  · obtain ⟨posts, t, hends⟩ := finishes_of_can h fun r s => gateKsw_ends
    exact ⟨posts, t, (exec_gKsw c hclaim h.head).trans (congrArg Host.Outcome.next (runEngine_of hends))⟩
  · obtain ⟨t, ht⟩ := segments_end h
    exact ⟨t, exec_segments c hhead hgate hmode (by rw [hfresh, hstop]; exact ht)⟩

end Sys2Proof.Machine

/-! ## Moves and messages come to their end (R239, R259, R278 to R280) -/

namespace Sys2Proof.Machine

open Sys2Proof.Safety

section
variable {s : State} {α : Type}

theorem runs_noted {x : Eng (List Byte × List Nat)} (h : Runs s x) : Runs s (noted x) := by
  refine ⟨fun u hu hi => ?_⟩
  obtain ⟨v, t, hv, hut⟩ := h.ends u hu hi
  exact ⟨v, _, noted_of hi hv, hut.trans (calm_journal _ t).level⟩

theorem runs_once {x : Eng Unit} (h : Runs s x) : Runs s (once x) := by
  refine ⟨fun u hu hi => ?_⟩
  obtain ⟨⟨⟩, t, hv, hut⟩ := h.ends u hu hi
  exact ⟨(), _, once_of hi hv, hut.trans (calm_journal _ t).level⟩

theorem runs_set {t : State → State} {f : State → Eng α} (ht : ∀ u, Level s u → Calm u (t u)) (hf : ∀ u, Level s u → Runs s (f u)) :
    Runs s (get >>= fun u => set (t u) >>= fun _ => f u) := by
  refine ⟨fun u hu hi => ?_⟩
  have hcalm := ht u hu
  obtain ⟨v, r, hv, hr⟩ := (hf u hu).ends (t u) (hu.trans hcalm.level) (hcalm.level.idle hi)
  exact ⟨v, r, hv, hcalm.level.trans hr⟩

theorem runs_need {c : Bool} (h : c = true) (r : Reason) (ad : Option (Nat × Bool)) : Runs s (needE c r ad) :=
  runs_of_calm fun u _ => ⟨(), u, need_of h r ad u, .refl u⟩

theorem served_sub {e : Env} {write : Bool} {a n b m : Nat} (h : Served s e write a n) (hb : a ≤ b) (hm : b + m ≤ a + n) :
    Served s e write b m := fun x h1 h2 => h x (by omega) (by omega)

theorem runs_edge : Runs s edge := runs_of_calm fun u hi => ⟨(), _, by unfold edge; rw [hi.replay], calm_journal _ u⟩

theorem runs_moveCheckpoint (done k : Nat) : Runs s (moveCheckpoint done k) := by
  unfold moveCheckpoint
  exact runs_ite (fun _ => runs_pure _) fun _ => runs_checkpoint

theorem runs_xlat {e : Env} {write : Bool} {l : List (Nat × Nat)} (h : ∀ x ∈ l, Served s e write x.1 1) : Runs s (xlatRange e write l) := by
  refine ⟨fun u hu _ => ?_⟩
  obtain ⟨t, ht, hc⟩ := xlatRange_of e write l u fun x hx => by
    obtain ⟨d, hd, -⟩ := h x hx x.1 (le_refl _) (by omega)
    exact ⟨d, (hu.xlat ..).trans hd⟩
  exact ⟨_, t, ht, hc.level⟩

theorem calm_freeBytes (n : Nat) (u : State) : Calm u (freeBytes n u).2 := by
  induction n generalizing u with
  | zero => exact .refl u
  | succ n ih => exact Calm.trans (t := (draw u).2) (.of_rest rfl rfl) (ih _)

theorem runs_loadMarks (e : Env) (alloc : Bool) (a n : Nat) : Runs s (loadMarks e alloc a n) := by
  have hfold (l : List Nat) (acc : List Nat × State) : Calm acc.2 (l.foldl (fun (acc : List Nat × State) b =>
      if crosses e a then
        let r := fabricCheck e b 32 acc.2
        (if r.1 then b :: acc.1 else acc.1, r.2)
      else acc) acc).2 := by
    induction l generalizing acc with
    | nil => exact .refl _
    | cons b l ih =>
      refine Calm.trans ?_ (ih _)
      dsimp only
      split
      · exact calm_fabricCheck ..
      · exact .refl _
  refine runs_of_calm fun u _ => ⟨_, _, rfl, ?_⟩
  exact (calm_noteRead .read alloc a n u).trans (hfold _ ([], noteRead .read alloc a n u))

theorem runs_copyRead {e : Env} {overlap : Bool} {a n : Nat} (h : Served s e false a n) : Runs s (copyRead e overlap a n) := by
  refine runs_noted (runs_bind ?_ fun ps => ?_)
  · refine ⟨fun u hu _ => ?_⟩
    obtain ⟨t, ht, hc⟩ := pieces_of (hu.served h)
    exact ⟨_, t, ht, hc.level⟩
  · split
    · refine runs_bind (runs_loadMarks ..) fun x => runs_ite (fun _ => ?_) fun _ => runs_pure _
      exact runs_set (fun u _ => calm_freeBytes n u) fun _ _ => runs_pure _
    · exact runs_pure _

/-- Bytes of a core's own scratchpad, where they are served for a write. -/
theorem own_of_served {e : Env} {a n : Nat} (h : Served s e true a n) (hn : 0 < n) (hsp : isSp a = true) : spCore a = e.core := by
  obtain ⟨d, hd, hown⟩ := h a (le_refl _) (by omega)
  have hda : d = a := by
    unfold isSp spBase at hsp
    unfold xlat at hd
    rw [if_neg (by simp only [decide_eq_true_eq] at hsp; omega), if_pos (by unfold isSp spBase; exact hsp)] at hd
    split at hd
    · injection hd with hd; exact hd.symm
    · cases hd
  subst hda
  exact hown rfl hsp

theorem runs_copyWrite {e : Env} {dst a n : Nat} {bs : List Byte} {marks : List Nat} (h : Served s e true a n) (hn : 0 < n) :
    Runs s (copyWrite e dst bs marks (a, n)) := by
  refine runs_once ⟨fun u hu hi => ?_⟩
  obtain ⟨d, hd, hown⟩ := hu.served h a (le_refl _) (by omega)
  obtain ⟨t, ht, hc⟩ := xlatRange_of e true [(a, n)] u fun x hx => by
    rw [List.mem_singleton] at hx
    subst hx
    exact ⟨d, hd⟩
  have hdev : devOf u e.ctx true a = d := by
    unfold Safety.devOf
    rw [hd]
  rw [List.map_singleton] at ht
  dsimp only at ht
  rw [hdev] at ht
  obtain ⟨v, hv, hnear, -⟩ := devStore_of e e.alloc false d a ((bs.drop (a - dst)).take n) t (hown rfl)
  refine ⟨(), _, (eng_bind ht).trans ((eng_bind hv).trans rfl), ?_⟩
  exact (hc.level.trans hnear.level).trans (Calm.level (.of_rest rfl rfl))

theorem pieceLen_le (dst : Nat) (as : List Nat) (n : Nat) : pieceLen dst as n ≤ n := by
  have haux (k : Nat) : as.foldl (fun k a => min k (pageSize a - a % pageSize a)) k ≤ k := by
    induction as generalizing k with
    | nil => exact le_refl k
    | cons a as ih => exact (ih _).trans (min_le_left ..)
  exact (haux _).trans (min_le_left ..)

theorem pieceLen_pos (dst : Nat) (as : List Nat) {n : Nat} (hn : 0 < n) : 0 < pieceLen dst as n := by
  have haux (k : Nat) (hk : 0 < k) : 0 < as.foldl (fun k a => min k (pageSize a - a % pageSize a)) k := by
    induction as generalizing k with
    | nil => exact hk
    | cons a as ih =>
      have hmod := Nat.mod_lt a (pageSize_pos a)
      exact ih _ (lt_min hk (by omega))
  have hmod := Nat.mod_lt dst (by decide : 0 < 256)
  exact haux _ (lt_min hn (by omega))

theorem runs_copyPiece {e : Env} {overlap : Bool} {src dst n : Nat} (hr : Served s e false src n) (hw : Served s e true dst n)
    (hn : 0 < n) : Runs s (copyPiece e overlap src dst n) := by
  refine runs_bind runs_edge fun _ => runs_bind (runs_copyRead hr) fun x => ?_
  rw [burstPieces_own (own_of_served hw hn)]
  refine runs_eachE _ fun y hy => ?_
  rw [List.mem_singleton] at hy
  subst hy
  exact runs_copyWrite hw hn

theorem runs_copyLoop {e : Env} {overlap : Bool} (f : Nat) {src dst n : Nat} (done : Nat) (hr : Served s e false src n)
    (hw : Served s e true dst n) : Runs s (copyLoop e overlap f src dst done n) := by
  induction f generalizing src dst done n with
  | zero => exact runs_pure _
  | succ f ih =>
    unfold copyLoop
    refine runs_ite (fun _ => runs_pure _) fun hn => ?_
    have hle := pieceLen_le dst [src, dst] n
    have hpos := pieceLen_pos dst [src, dst] (Nat.pos_of_ne_zero hn)
    exact runs_bind (runs_copyPiece (served_sub hr (le_refl _) (by omega)) (served_sub hw (le_refl _) (by omega)) hpos) fun _ =>
      runs_bind (runs_moveCheckpoint ..) fun _ => ih _ (served_sub hr (by omega) (by omega)) (served_sub hw (by omega) (by omega))

theorem runs_zeroLoop {e : Env} (f : Nat) {dst n : Nat} (done : Nat) (hw : Served s e true dst n) : Runs s (zeroLoop e f dst done n) := by
  induction f generalizing dst done n with
  | zero => exact runs_pure _
  | succ f ih =>
    unfold zeroLoop
    refine runs_ite (fun _ => runs_pure _) fun hn => ?_
    have hle := pieceLen_le dst [dst] n
    have hstore : Runs s (store e dst (List.replicate (pieceLen dst [dst] n) 0) false) :=
      runs_store (by rw [List.length_replicate]; exact served_sub hw (le_refl _) (by omega))
    exact runs_bind runs_edge fun _ => runs_bind hstore fun _ =>
      runs_bind (runs_moveCheckpoint ..) fun _ => ih _ (served_sub hw (by omega) (by omega))

theorem lt_of_mem_unitsOf {g a n l : Nat} (h : l ∈ unitsOf g a n) : l < a + n := by
  unfold unitsOf at h
  split at h
  · cases h
  obtain ⟨k, hk, rfl⟩ := List.mem_map.1 h
  have hk := List.mem_range.1 hk
  have hle : a / g ≤ (a + n - 1) / g := Nat.div_le_div_right (by omega)
  have hmul := Nat.div_mul_le_self (a + n - 1) g
  have hquot : (a / g + k) * g ≤ (a + n - 1) / g * g := Nat.mul_le_mul_right _ (by omega)
  omega

theorem runs_prefetchLine {e : Env} {a : Nat} (h : (∃ p, xlat s e.ctx false a = .absent p) ∨ ∃ d, xlat s e.ctx false a = .dev d) :
    Runs s (prefetchLine e a) := by
  refine runs_once ⟨fun u hu _ => ?_⟩
  rw [← hu.xlat] at h
  obtain ⟨p, hp⟩ | ⟨d, hd⟩ := h
  · refine ⟨(), u, (eng_bind (eng_get u)).trans ?_, .refl u⟩
    rw [hp]
    rfl
  · refine ⟨(), _, (eng_bind (eng_get u)).trans ?_, ((calm_useAge e.ctx a u).trans (calm_noteRead .read true (d / 128 * 128) 128 _)).level⟩
    rw [hd]
    rfl

end

/-! ### Repeats of the data mover -/

section
variable {c : Nat} {i : Issued} {r : Nat} {s : State}

theorem runs_moveChecks {hbmOnly : Bool} {as : List Nat} (henc : moveEncOk i.word.toNat = true) (hok : ∀ a ∈ as, moveAddrOk i a)
    (hhbm : hbmOnly = true → ∀ a ∈ as, a + mvLen i.word.toNat ≤ 2 ^ 40) : Runs s (moveChecks i hbmOnly as) := by
  have haligned : (as.all fun a => a % 8 == 0) = true := List.all_eq_true.2 fun a ha => beq_iff_eq.2 (hok a ha).1
  have hrange : (as.all fun a => decide (a + mvLen i.word.toNat ≤ 2 ^ 48)) = true :=
    List.all_eq_true.2 fun a ha => decide_eq_true (hok a ha).2
  have htarget : (!hbmOnly || as.all fun a => decide (a + mvLen i.word.toNat ≤ 2 ^ 40)) = true := by
    cases hbmOnly with
    | false => rfl
    | true => exact List.all_eq_true.2 fun a ha => decide_eq_true (hhbm rfl a ha)
  exact runs_bind (runs_need henc ..) fun _ => runs_bind (runs_need haligned ..) fun _ => runs_bind (runs_need hrange ..) fun _ =>
    runs_need htarget ..

theorem copyOne_ends (h : copyCan c i r s) : ∃ p u, runFrom [] false (copyOne c i r) s = .ok p u := by
  obtain ⟨henc, hdst, hsrc, hread, hwrite⟩ := h
  have hok : ∀ a ∈ [addrOf i r 0, addrOf i r 1], moveAddrOk i a := by
    intro a ha
    obtain rfl | rfl := List.mem_pair.1 ha
    · exact hdst
    · exact hsrc
  exact ends_of_runs_settled (runs_bind (runs_moveChecks henc hok nofun) fun _ =>
    runs_bind (runs_copyLoop (e := { envOf c .move i with alloc := decide (2 ^ 40 ≤ addrOf i r 0) }) _ _ hread hwrite) fun _ => runs_pure _)

theorem zeroOne_ends (h : zeroCan c i r s) : ∃ p u, runFrom [] false (zeroOne c i r) s = .ok p u := by
  obtain ⟨henc, hdst, hwrite⟩ := h
  have hok : ∀ a ∈ [addrOf i r 0], moveAddrOk i a := by
    intro a ha
    rw [List.mem_singleton.1 ha]
    exact hdst
  exact ends_of_runs_settled (runs_bind (runs_moveChecks henc hok nofun) fun _ =>
    runs_bind (runs_zeroLoop (e := envOf c .move i) _ _ hwrite) fun _ => runs_pure _)

theorem prefetchOne_ends (h : prefetchCan c i r s) : ∃ p u, runFrom [] false (prefetchOne c i r) s = .ok p u := by
  obtain ⟨henc, hal, htop, hpages⟩ := h
  have hok : ∀ a ∈ [addrOf i r 1], moveAddrOk i a ∧ a + mvLen i.word.toNat ≤ 2 ^ 40 := by
    intro a ha
    rw [List.mem_singleton.1 ha]
    exact ⟨⟨hal, by omega⟩, htop⟩
  refine ends_of_runs_settled (runs_bind (runs_moveChecks henc (fun a ha => (hok a ha).1) fun _ a ha => (hok a ha).2) fun _ => ?_)
  refine runs_bind (runs_eachE _ fun l hl => ?_) fun _ => runs_pure _
  have hlt := lt_of_mem_unitsOf hl
  have hpos : 0 < mvLen i.word.toNat := by
    by_contra hz
    simp [unitsOf, Nat.eq_zero_of_not_pos hz] at hl
  exact runs_bind (runs_prefetchLine (hpages _ (le_max_right ..) (max_lt hlt (by omega)))) fun _ => runs_moveCheckpoint ..

/-! ### Repeats of RECV, POLL and SO_OPEN -/

theorem recvOne_ends {poll : Bool} (h : recvCan poll c i r s) : ∃ p u, runFrom [] false (recvOne poll c i r) s = .ok p u := by
  obtain ⟨hfields, hown, hal, hsp, hcore, hqueue, hserved⟩ := h
  have hplace : (addrOf i r 0 % 32 == 0 && isSp (addrOf i r 0) && spCore (addrOf i r 0) == c) = true := by simp [hal, hsp, hcore]
  have hstore (v : List Byte) (hv : v.length = 32) : Runs (settled s) (store (envOf c .msg i) (addrOf i r 0) v false) :=
    runs_store (by rw [hv]; exact hserved)
  have hbox : mailbox (settled s) c (bits i.word.toNat 52 48) = mailbox s c (bits i.word.toNat 52 48) := rfl
  refine ends_from ?_
  unfold recvOne
  rw [eng_bind (show msgIssue i (settled s) = .ok () (settled s) from need_of hfields ..), eng_bind (eng_get _)]
  dsimp only
  rw [hbox, hown, eng_bind (need_of (beq_self_eq_true _) ..),
    eng_bind (show ownAligned (envOf c .msg i) (addrOf i r 0) (settled s) = .ok () (settled s) from need_of hplace ..),
    eng_bind (eng_get _), hbox]
  cases hq : (mailbox s c (bits i.word.toNat 52 48)).queue with
  | nil =>
    have hpoll : poll = true := hqueue.resolve_right fun hne => hne hq
    rw [hpoll]
    exact ends_of_runs (hstore _ (List.length_replicate ..)) (fun _ t _ _ => ⟨[], t, rfl⟩) (.refl _) ⟨rfl, rfl⟩
  | cons v l =>
    refine ends_of_runs (hstore _ (length_toLe ..)) (fun _ t _ ht => ?_) (.refl _) ⟨rfl, rfl⟩
    exact ⟨[], _, eng_bind (act_idle _ ht.replay)⟩

theorem soOpenOne_ends (h : ∃ v, Passes (soOpenChecks c i r) s v) : ∃ p u, runFrom [] false (soOpenOne c i r) s = .ok p u := by
  obtain ⟨v, hpass⟩ := h
  exact ends_quietly hpass (along_soOpenChecks quiet_reads ..) fun u _ idle => ⟨[], _, eng_bind (once_of idle rfl)⟩

end

/-! ### Rows -/

theorem exec_msgRows (c : Fin 128) (s : State) : ∀ row ∈ msgRows c, exec row.1 s = .next (runEngine c.val .msg row.2.1 row.2.2 s) := by
  unfold msgRows
  iterate 9 refine List.forall_mem_cons.mpr ⟨rfl, ?_⟩
  exact List.forall_mem_nil _

theorem exec_moveRows (c : Fin 128) (s : State) : ∀ row ∈ moveRows c, exec row.1 s = .next (runEngine c.val .move row.2.1 row.2.2 s) := by
  unfold moveRows
  iterate 3 refine List.forall_mem_cons.mpr ⟨rfl, ?_⟩
  exact List.forall_mem_nil _

/-- A row whose repeats can each be done ends its instruction. -/
theorem row_ends {c : Nat} {q : QueueId} {op : Nat} {run : Issued → Nat → Eng (List SealMsg)} {can : Issued → Nat → State → Prop}
    {s : State} {i : Issued} {o : Host.Outcome State Fault Refusal} (hexec : o = .next (runEngine c q op run s)) (h : CanRun c q op run can s i)
    (hends : ∀ r s, can i r s → ∃ p u, runFrom [] false (run i r) s = .ok p u) : ∃ posts t, o = .next (endOk c q i posts t) := by
  obtain ⟨posts, t, hfin⟩ := finishes_of_can h hends
  exact ⟨posts, t, by rw [hexec, runEngine_of hfin]⟩

/-- Settles O31: the rows whose repeats end, and those that can, from what their mailbox, their record or their ranges give. -/
theorem messageAndMoveRowsEnd : Obligations.MessageAndMoveRowsEnd := by
  intro c s i
  refine ⟨fun posts t => ⟨fun row hrow h => ?_, fun h hadd => ?_, fun row hrow h => ?_⟩, fun h => ?_, fun h => ?_, fun h => ?_, fun h => ?_,
    fun h => ?_, fun h => ?_⟩
  · rw [exec_msgRows c s row hrow, runEngine_of h]
  · exact congrArg Host.Outcome.next ((soCloseRow_still h.head hadd).trans (runEngine_of h))
  · rw [exec_moveRows c s row hrow, runEngine_of h]
  · exact row_ends rfl h fun _ _ => recvOne_ends
  · exact row_ends rfl h fun _ _ => recvOne_ends
  · exact row_ends rfl h fun _ _ => soOpenOne_ends
  · exact row_ends rfl h fun _ _ => copyOne_ends
  · exact row_ends rfl h fun _ _ => prefetchOne_ends
  · exact row_ends rfl h fun _ _ => zeroOne_ends

end Sys2Proof.Machine

/-! ## Rounds of sorting offices (R240, R247, R248) -/

namespace Sys2Proof.Machine

open Sys2Proof.Safety

/-! ### What a round's accesses leave of the offices -/

/-- The sorting offices of every core are as they were. -/
structure OfficesSame (s t : State) : Prop where
  same : ∀ c o, office t c o = office s c o

theorem officesSame_of_calm {s t : State} (h : Calm s t) : OfficesSame s t :=
  ⟨fun c o => (congrArg (fun u : State => office u c o) h.rest :)⟩

theorem officesSame_setAccount (k ctx m d : Nat) (f : Account → Account) (s : State) : OfficesSame s (setAccount k ctx m d f s) := by
  refine ⟨fun c o => ?_⟩
  unfold office setAccount
  by_cases h : c = k
  · rw [h, core_setCore_self]
  · rw [core_setCore_of_ne h]

theorem officesSame_writes : Writes none OfficesSame where
  refl _ := ⟨fun _ _ => rfl⟩
  trans h k := ⟨fun c o => (k.same c o).trans (h.same c o)⟩
  book h := ⟨fun c o => (congrArg (fun u : State => office u c o) h.same :)⟩
  age c a s := officesSame_of_calm (calm_useAge c a s)
  read cls alloc a n s := officesSame_of_calm (calm_noteRead cls alloc a n s)
  fabric e a n s := officesSame_of_calm (calm_fabricCheck e a n s)
  answered _ _ := ⟨fun _ _ => rfl⟩
  total _ _ _ _ := ⟨fun _ _ => rfl⟩
  fresh _ := ⟨fun _ _ => rfl⟩
  counted i k s := officesSame_of_calm (calm_bumpE i k s)
  keepsXlat h := nomatch h
  store alloc a bs p s _ := ⟨fun c o => (congrArg (fun u : State => office u c o) (calm_devWrite .write alloc a bs p s).rest :)⟩
  stamp k ctx m d f s := officesSame_setAccount k ctx m d f s
  returned _ _ := ⟨fun _ _ => rfl⟩
  asleep d r s := officesSame_of_calm ((calm_bumpE 0x5000 0xF s).trans (calm_stageRec d r _))
  send k s := by
    unfold sendPacket
    split <;> exact ⟨fun _ _ => rfl⟩
  marks _ _ _ := ⟨fun _ _ => rfl⟩

theorem along_zeroTarget_offices (e : Env) (t : Nat) : Along OfficesSame (zeroTarget e t) := by
  have hwrite (ps : List Int) : Along OfficesSame (writePlain e t ps 0 false) :=
    officesSame_writes.bind officesSame_writes.toReads.get fun _ => along_storeOn officesSame_writes (allows_any _) ..
  exact along_eachE officesSame_writes.toReads hwrite _

theorem office_zeroTarget {e : Env} {t c o : Nat} {j : List Ev} {s v : State} (h : runFrom j false (zeroTarget e t) s = .ok () v) :
    office v c o = office s c o := by
  unfold runFrom at h
  split at h
  next hv =>
    cases h
    exact ((along_zeroTarget_offices e t).ok hv).same c o
  next => cases h

/-! ### A round goes through its contributions -/

section
variable {c o ctx : Nat} {s v : State}

theorem lt_offices_of_owner (h : (office s c o).owner = some ctx) : o < (core s c).offices.length := by
  by_contra hge
  unfold office at h
  rw [List.getD_eq_default _ _ (Nat.le_of_not_lt hge)] at h
  cases h

theorem office_roundZeroed (h : o < (core v c).offices.length) : office (roundZeroed c o v) c o =
    { office v c o with zeroed := true, journal := [], waitPage := none, pageFault := none } := by
  unfold office roundZeroed setOffice
  rw [core_setCore_self]
  exact getD_lmod_self _ h _ _

theorem roundAdd_of_adds {t : Nat} {l : List (Nat × Nat)} {j : List Ev} {u : State} (h : Adds c o ctx t l j s u) :
    roundAdd c o ctx t l j s = roundEnd c o ctx u := by
  induction h with
  | none => rfl
  | added hx _ ih =>
    unfold roundAdd
    rw [hx]
    exact ih
  | failed hx _ ih =>
    unfold roundAdd
    rw [hx]
    exact ih

/-- A round whose target needs no zeroing now. -/
theorem officeRound_go (howner : (office s c o).owner = some ctx) (hadd : (office s c o).adding = true) (hrun : running s = true)
    (hz : ¬ (soZero (office s c o).record.toNat = true ∧ (office s c o).zeroed = false)) :
    officeRoundComplete c o s = roundGo c o ctx s := by
  have hgo : (soZero (office s c o).record.toNat && !(office s c o).zeroed) = false := by
    rw [Bool.eq_false_iff]
    intro h
    rw [Bool.and_eq_true, Bool.not_eq_true'] at h
    exact hz h
  simp [officeRoundComplete, howner, hadd, hrun, hgo]

/-- A round whose target is zeroed first. -/
theorem officeRound_zero (howner : (office s c o).owner = some ctx) (hadd : (office s c o).adding = true) (hrun : running s = true)
    (hz : soZero (office s c o).record.toNat = true ∧ (office s c o).zeroed = false)
    (hv : runFrom (office s c o).journal false (zeroTarget (officeEnv c ctx (office s c o)) (office s c o).target.toNat) s = .ok () v) :
    officeRoundComplete c o s = roundGo c o ctx (roundZeroed c o v) := by
  simp [officeRoundComplete, howner, hadd, hrun, hz.1, hz.2, hv]

theorem roundGo_zeroed (hsame : office v c o = office s c o) (howner : (office s c o).owner = some ctx) :
    roundGo c o ctx (roundZeroed c o v) = roundAdd c o ctx (office s c o).target.toNat
      ((officeHeld (office s c o)).drop (office s c o).outcomes.length) [] (roundZeroed c o v) := by
  have hlen : o < (core v c).offices.length := lt_offices_of_owner (ctx := ctx) (by rw [hsame]; exact howner)
  unfold roundGo
  rw [office_roundZeroed hlen, hsame]
  rfl

end

/-! ### Contributions that can be added -/

section
variable {s : State} {e : Env} {t : Nat}

theorem runs_pieces {write : Bool} {a n : Nat} (h : Served s e write a n) : Runs s (pieces e write a n) := by
  refine ⟨fun u hu _ => ?_⟩
  obtain ⟨r, hr, hc⟩ := pieces_of (hu.served h)
  exact ⟨_, r, hr, hc.level⟩

/-- What follows the check of a contribution's descriptor. -/
def addRest (e : Env) (t a w : Nat) : Eng Bool := do
  needE (dRank w == dRank t && (dDims t).all fun d => dExtent w d == dExtent t d) .descNotAdmitted (some (a, false))
  let vs ← mapE (fun ps => readPlain e w ps) (positions t)
  eachE (fun ps => once (do
    let p := elemPlace t (moduleOf (← get)) ps
    let _ ← pieces e true p.byte.toNat (elemWidth (dElem t) / 8))) (positions t)
  eachE (fun (x : List Int × Nat × Bool) => do
    let (old, po) ← readPlain e t x.1
    writePlain e t x.1 (addInto (dElem t) false old x.2.1) (x.2.2 || po)
    atomicDone) ((positions t).zip vs)
  pure (vs.any fun v => v.2)

theorem addContribution_eq (e : Env) (t a : Nat) :
    addContribution e t a = openPlain e { dist := true, elems := [dElem t] } a >>= addRest e t a := rfl

theorem runs_addRest {a w : Nat} (hrank : dRank w = dRank t) (hext : ∀ d ∈ dDims t, dExtent w d = dExtent t d)
    (hserved : ∀ ps ∈ positions t, ElemServed s e false w ps ∧ ElemServed s e false t ps ∧ ElemServed s e true t ps) :
    Runs s (addRest e t a w) := by
  have hcheck : (dRank w == dRank t && (dDims t).all fun d => dExtent w d == dExtent t d) = true := by
    rw [Bool.and_eq_true]
    exact ⟨beq_iff_eq.2 hrank, List.all_eq_true.2 fun d hd => beq_iff_eq.2 (hext d hd)⟩
  refine runs_bind (runs_need hcheck ..) fun _ => runs_bind (runs_mapE _ fun ps hps => runs_readPlain (hserved ps hps).1) fun vs => ?_
  refine runs_bind (runs_eachE _ fun ps hps => runs_once (runs_get fun u hu => ?_)) fun _ =>
    runs_bind (runs_eachE _ fun x hx => ?_) fun _ => runs_pure _
  · rw [hu.module]
    exact runs_bind (runs_pieces (hserved ps hps).2.2.2) fun _ => runs_pure _
  · obtain ⟨-, hread, hwrite⟩ := hserved x.1 (List.of_mem_zip hx).1
    exact runs_bind (runs_readPlain hread) fun _ => runs_bind (runs_writePlain hwrite) fun _ => runs_atomicDone

theorem addContribution_ends {a : Nat} (h : ContributionServed s e t a) : ∃ p u, runFrom [] false (addContribution e t a) s = .ok p u := by
  obtain ⟨w, hpass, hrank, hext, hserved⟩ := h
  rw [addContribution_eq]
  refine ends_quietly hpass (along_openPlain quiet_reads ..) fun u calm idle => ?_
  obtain ⟨p, r, hp, -⟩ := (runs_addRest (s := begin s u.reads) hrank hext hserved).ends u calm.level idle
  exact ⟨p, r, hp⟩

theorem adds_of_can {c o ctx : Nat} {l : List (Nat × Nat)} {s : State} (h : AddsCan c o ctx t l s) : ∃ u, Adds c o ctx t l [] s u := by
  induction l generalizing s with
  | nil => exact ⟨s, .none⟩
  | cons x r ih =>
    obtain ⟨hserved, hnext⟩ := h
    obtain ⟨p, v, hv⟩ := addContribution_ends hserved
    obtain ⟨u, hu⟩ := ih (hnext p v hv)
    exact ⟨u, .added hv hu⟩

theorem zeroTarget_ends (h : ∀ ps ∈ positions t, ElemServed s e true t ps) : ∃ v, runFrom [] false (zeroTarget e t) s = .ok () v := by
  have hserved : ∀ ps ∈ positions t, ElemServed (settled s) e true t ps := h
  obtain ⟨⟨⟩, v, hv⟩ := ends_of_runs_settled (runs_eachE _ fun ps hps => runs_writePlain (v := 0) (p := false) (hserved ps hps))
  exact ⟨v, hv⟩

end

theorem sendStallEvent_eq {c : Nat} {s : State} (hstalled : (core s c).stalled = true) (hunseen : (core s c).stallSeen = false)
    (hlimit : reg s 0x3700 1 ≠ 0) : sendStallEvent c s = stageRec (dieOf c)
      { unit := .msg, reason := .sendStall, core := c, ctx := envCtx (core s c).stallEnv.toNat,
        postmark := some (envPm (core s c).stallEnv.toNat), detail := (core s c).stallEnv.toNat }
      (bumpE (0x3780 + c) 8 (bumpE 0x3700 2 (setCore c (fun x => { x with stallSeen := true }) s))) := by
  unfold sendStallEvent
  dsimp only
  rw [if_pos ⟨hstalled, hunseen, hlimit⟩]

/-- Settles O33: the round by its contributions one after another, each of which ends where its elements are served. -/
theorem officeRoundsAndStalls : Obligations.OfficeRoundsAndStalls := by
  refine ⟨?_, fun c s hstalled hunseen hlimit => congrArg Host.Outcome.next (sendStallEvent_eq hstalled hunseen hlimit)⟩
  intro c o s ctx x t zeroing left howner hadd hrun
  have hround (s1 u : State) (h : if zeroing then ∃ v, runFrom x.journal false (zeroTarget (officeEnv c.val ctx x) t) s = .ok () v ∧
      s1 = roundZeroed c.val o.val v ∧ Adds c.val o.val ctx t left [] s1 u else s1 = s ∧ Adds c.val o.val ctx t left x.journal s1 u) :
      exec (.officeRoundComplete c o) s = .next (roundEnd c.val o.val ctx u) := by
    refine congrArg Host.Outcome.next ?_
    by_cases hz : zeroing
    · rw [if_pos hz] at h
      obtain ⟨v, hv, rfl, hadds⟩ := h
      rw [officeRound_zero howner hadd hrun hz hv, roundGo_zeroed (office_zeroTarget hv) howner]
      exact roundAdd_of_adds hadds
    · rw [if_neg hz] at h
      obtain ⟨rfl, hadds⟩ := h
      rw [officeRound_go howner hadd hrun hz]
      exact roundAdd_of_adds hadds
  refine ⟨hround, fun hfresh h => ?_⟩
  by_cases hz : zeroing
  · rw [if_pos hz] at h
    obtain ⟨hserved, hcan⟩ := h
    obtain ⟨v, hv⟩ := zeroTarget_ends hserved
    obtain ⟨u, hu⟩ := adds_of_can (hcan v hv)
    exact ⟨u, hround _ u (by rw [if_pos hz, hfresh]; exact ⟨v, hv, rfl, hu⟩)⟩
  · rw [if_neg hz] at h
    obtain ⟨u, hu⟩ := adds_of_can h
    exact ⟨u, hround s u (by rw [if_neg hz, hfresh]; exact ⟨rfl, hu⟩)⟩

end Sys2Proof.Machine

/-! ## Finished tiles enter the queue and are taken from it (R138, R139, R158, R172, R173) -/

namespace Sys2Proof.Machine

open Sys2Proof.Safety

/-! ### Into the queue -/

section
variable {c : Nat} {s : State}

/-- The state when the oldest finished tile has been drained into the queue. -/
def pushed (c : Nat) (b : Bank) (r : List Bank) (s : State) : State :=
  tileDone (bit (tileOf b).tag.toNat 35) (bit (tileOf b).tag.toNat 36)
    (setCore c (fun x => { x with array := { x.array with finished := r, queue := x.array.queue ++ [tileOf b] } }) s)

theorem tilePush_eq {b : Bank} {r : List Bank} (hfin : (core s c).array.finished = b :: r) (hroom : queueUsed (core s c) < 4) :
    tilePush c s = if r.isEmpty then
        match headOf (pushed c b r s) c .mm with
        | some i => if mmRoute i.word.toNat == 0 && i.ctx == b.ctx && i.mm.any mmDone then mmRepeatDone c i (pushed c b r s) else pushed c b r s
        | none => pushed c b r s
      else pushed c b r s := by
  unfold tilePush
  rw [hfin]
  dsimp only
  rw [if_neg (Nat.not_le.2 hroom)]
  rfl

theorem tilePush_more {b : Bank} {r : List Bank} (hfin : (core s c).array.finished = b :: r) (hroom : queueUsed (core s c) < 4)
    (hr : r ≠ []) : tilePush c s = pushed c b r s := by
  rw [tilePush_eq hfin hroom, if_neg (by rwa [List.isEmpty_iff])]

theorem tilePush_last {b : Bank} {r : List Bank} {i : Issued} (hfin : (core s c).array.finished = b :: r)
    (hroom : queueUsed (core s c) < 4) (hr : r = []) (hhead : headOf (pushed c b r s) c .mm = some i) (hroute : mmRoute i.word.toNat = 0)
    (hctx : i.ctx = b.ctx) (hdone : i.mm.any mmDone = true) : tilePush c s = mmRepeatDone c i (pushed c b r s) := by
  rw [tilePush_eq hfin hroom, if_pos (List.isEmpty_iff.2 hr), hhead]
  simp [hroute, hctx, hdone]

theorem arrivalChunkMet_eq {i : Issued} {o : MmOps} {f : FuseTens} {p : Nat} (hhead : readyHead s c .mm 1 = some i) (hmm : i.mm = some o)
    (hfuse : o.fuse = some f) (hseal : sealOf s i.ctx (fuArrSeal f.w) = some p) (hmore : o.chunks < arrChunks o)
    (hmet : waitMet s (p, BitVec.ofNat 32 (fuArrBase f.w + o.chunks + 1)) = true) :
    arrivalChunkMet c s = setHead c .mm (fun i => { i with mm := some { o with chunks := o.chunks + 1 } }) s := by
  simp [arrivalChunkMet, hhead, hmm, hfuse, hseal, hmore, hmet]

/-! ### Out of the queue -/

/-- An instruction that pops is issued once. -/
theorem vecRow_starts {op : Nat} {i : Issued} {o : VecOps} {s1 : State} (hpops : vecPops i.word.toNat = true)
    (hclaim : vecClaimed s c = false ∨ begun i = true) (hhead : readyHead s c .vec op = some i) (hfirst : i.vec = none)
    (htaken : (core s c).vec.discard ≠ some i.ctx) (hrun : runFrom i.journal false (vecIssue c i i.progress) s = .ok o s1) :
    vecRow c op s = setHead c .vec (fun x => { x with vec := some o, journal := [] }) s1 := by
  have hgo : (vecClaimed s c && !(begun i)) = false := by
    obtain h | h := hclaim <;> simp [h]
  have hown : (i.vec.isSome || (core s c).vec.discard == some i.ctx) = false := by simp [hfirst, htaken]
  have hstart : vecStart c i s = setHead c .vec (fun x => { x with vec := some o, journal := [] }) s1 := by
    unfold vecStart
    rw [hown, hrun]
    rfl
  simp only [vecRow, hhead, hgo, hpops, ← hstart]
  rfl

/-- What an instruction does with an entry that it takes. -/
def popWork (e : Env) (w : Nat) (o : VecOps) (t : Tile) : Eng VecOps := do
  let o ← popElems e w o t
  if bit t.tag.toNat 34 then popFinish e w o
  pure o

/-- The state when an entry has been taken. -/
def popped (c : Nat) (i : Issued) (t : Tile) (o : VecOps) (s : State) : State :=
  let s := popTile c (fun t => t.ctx == i.ctx) { s with wrote := [], wroteFar := [] }
  if bit t.tag.toNat 34 then popDone c i s else setHead c .vec (fun x => { x with vec := some o, journal := [] }) s

theorem tilePop_takes {i : Issued} {o o' : VecOps} {t : Tile} {s1 : State} (halive : (core s c).array.queue.any (deadTile s) = false)
    (hkept : (core s c).vec.discard = none) (hhead : headOf s c .vec = some i) (hready : ready s c i = true) (hvec : i.vec = some o)
    (htile : firstTile (core s c) i.ctx = some t)
    (hrun : runFrom i.journal (stopping s c i.ctx) (popWork (envOf c .vec i) i.word.toNat o t) s = .ok o' s1) :
    tilePop c s = popped c i t o' s1 := by
  have hone : popOne c i o t s = popped c i t o' s1 := by
    unfold popWork at hrun
    unfold popOne
    dsimp only
    rw [hrun]
    rfl
  simp [tilePop, halive, hkept, hhead, hready, hvec, htile, hone]

theorem tilePop_discards {ctx : Nat} {t : Tile} (halive : (core s c).array.queue.any (deadTile s) = false)
    (hdiscard : (core s c).vec.discard = some ctx) (htile : firstTile (core s c) ctx = some t) : tilePop c s = discardTile c ctx t s := by
  simp [tilePop, halive, hdiscard, htile]

theorem tilePop_dead (hdead : (core s c).array.queue.any (deadTile s) = true) : tilePop c s = popTile c (deadTile s) s := by
  unfold tilePop
  rw [if_pos hdead]

end

/-! ### Entries that can be taken -/

section
variable {s : State} {e : Env} {w : Nat} {o : VecOps} {t : Tile}

/-- The tile of a tensor at which an entry's element stands. -/
theorem mem_popIxs {k : Nat} (hk : k ∈ List.range t.data.length) :
    [bits t.tag.toNat 77 60 * tileCols (bits t.tag.toNat 45 44) t.bf16 + k % (bits t.tag.toNat 52 46 + 1),
      bits t.tag.toNat 95 78 * tileRows (bits t.tag.toNat 45 44) + k / (bits t.tag.toNat 52 46 + 1)] ∈ popIxs t :=
  List.mem_map_of_mem hk

theorem runs_popElems (h : PopServed s e w o t) : Runs s (popElems e w o t) := by
  unfold popElems
  dsimp only
  rw [h.whole, h.type]
  refine runs_bind (runs_need rfl ..) fun _ => runs_ite (fun _ => runs_pure _) fun hred => ?_
  have hred := Bool.eq_false_iff.2 hred
  refine runs_bind (runs_mapE _ fun x hx => runs_inRow ?_) fun _ => runs_pure _
  have hk : ∀ k ∈ x.1, k ∈ List.range t.data.length := fun k hk => by
    obtain ⟨r, hr, hxr⟩ := List.mem_flatMap.1 (List.fst_mem_of_mem_zipIdx hx)
    exact mem_of_mem_chunks hr (mem_of_mem_chunks hxr hk)
  have hread (y : Tens) (hy : y ∈ o.b.toList ++ o.c.toList) (again : List Nat) : Readable s { e with again := again } 0 y :=
    h.reads hred y hy again
  refine runs_bind (runs_mapE _ fun k _ => ?_) fun vs => runs_bind (runs_storeRow ?_ vs) fun _ => runs_pure _
  · refine runs_bind (runs_vecElem (fun y hy => hread y ?_ _) (fun y hy => hread y ?_ _) _) fun _ => runs_pure _
    · exact List.mem_append_left _ (by rw [hy]; exact List.mem_singleton_self y)
    · exact List.mem_append_right _ (by rw [hy]; exact List.mem_singleton_self y)
  · intro y hy ix hix v p
    obtain ⟨k, hkx, rfl⟩ := List.mem_map.1 hix
    have hdest := h.dest y hy
    rw [if_neg (by rw [hred]; exact Bool.false_ne_true)] at hdest
    exact runs_writeElem (hdest _) (mem_popIxs (hk k hkx)) ..

theorem yields_popElems : Yields (fun o' => o'.d = o.d ∧ o'.shape = o.shape) (popElems e w o t) := by
  unfold popElems
  dsimp only
  split
  · exact ⟨fun _ _ _ h => nomatch h⟩
  · exact yields_bind fun _ => yields_ite (yields_pure ⟨rfl, rfl⟩) (yields_bind fun _ => yields_pure ⟨rfl, rfl⟩)

theorem popFinish_ends (h : vReduces (iOpcode w) = true → ∀ y, o.d = some y → Writable s e y (lines w o.shape)) {u : State}
    (hu : Level s u) (hi : Idle u) : ∃ r, popFinish e w o u = .ok () r := by
  have hlast (vs : List (Nat × Bool)) (v : State) (_ : Level s v) (hv : Idle v) : ∃ p r, (do
      if vDReg w then act (setVReg e.core e.ctx (vVD w) vs) : Eng Unit) v = .ok p r := by
    split
    · exact ⟨_, _, act_idle _ hv.replay⟩
    · exact ⟨_, _, rfl⟩
  have hends : ∃ p r, popFinish e w o u = .ok p r := by
    unfold popFinish
    dsimp only
    split
    next hred => exact ends_of_runs (runs_storeLines (h hred) _ fun l => mem_lines_of_linesOf) hlast hu hi
    · exact hlast _ u hu hi
  obtain ⟨⟨⟩, r, hr⟩ := hends
  exact ⟨r, hr⟩

theorem popWork_ends (h : PopServed s e w o t) : ∃ o' s1, runFrom [] false (popWork e w o t) s = .ok o' s1 := by
  have hserved : PopServed (settled s) e w o t := ⟨h.whole, h.type, h.reads, h.dest⟩
  refine ends_from ?_
  obtain ⟨o', u, hu, hn⟩ := (runs_popElems hserved).ends _ (.refl _) ⟨rfl, rfl⟩
  obtain ⟨hd, hshape⟩ := yields_popElems.yields _ _ _ hu
  have hi : Idle u := hn.idle ⟨rfl, rfl⟩
  unfold popWork
  rw [eng_bind hu]
  split
  next hlast =>
    obtain ⟨r, hr⟩ := popFinish_ends (o := o') (fun hred y hy => by
      have hdest := hserved.dest y (hd ▸ hy)
      rw [if_pos hred] at hdest
      rw [hshape]
      exact hdest hlast) hn hi
    exact ⟨o', r, eng_bind hr⟩
  · exact ⟨o', u, rfl⟩

end

/-- Settles O20: what each command does in its case, and entries whose operands are served by their elements. -/
theorem tilesTravel : Obligations.TilesTravel := by
  refine ⟨fun c s => ⟨fun b r hfin hroom => ⟨fun hr => ?_, fun i hr hhead hroute hctx hdone => ?_⟩, fun i o f p hhead hmm hfuse hseal hmore hmet => ?_⟩,
    fun c s i o => ⟨fun s1 row hrow hpops hclaim hhead hfirst htaken hrun => ?_, fun halive => ⟨?_, fun ctx t hdiscard htile => ?_⟩, fun hdead => ?_⟩⟩
  · exact congrArg Host.Outcome.next (tilePush_more hfin hroom hr)
  · exact congrArg Host.Outcome.next (tilePush_last hfin hroom hr hhead hroute hctx hdone)
  · exact congrArg Host.Outcome.next (arrivalChunkMet_eq hhead hmm hfuse hseal hmore hmet)
  · rw [exec_vecRowTable c s row hrow, vecRow_starts hpops hclaim hhead hfirst htaken hrun]
  · intro t hkept hhead hready hvec htile e last answer
    have htakes (o' : VecOps) (s1 : State) (hrun : runFrom i.journal (stopping s c.val i.ctx) (popWork e i.word.toNat o t) s = .ok o' s1) :
        exec (.tilePop c) s = .next (answer o' s1) :=
      congrArg Host.Outcome.next (tilePop_takes halive hkept hhead hready hvec htile hrun)
    refine ⟨htakes, fun hfresh hstop hserved => ?_⟩
    obtain ⟨o', s1, hrun⟩ := popWork_ends hserved
    exact ⟨o', s1, htakes o' s1 (by rw [hfresh, hstop]; exact hrun)⟩
  · exact congrArg Host.Outcome.next (tilePop_discards halive hdiscard htile)
  · exact congrArg Host.Outcome.next (tilePop_dead hdead)

end Sys2Proof.Machine

/-! ## Envelopes, requests for stamps, imports and receipts travel (R234 to R253) -/

namespace Sys2Proof.Machine

open Sys2Proof.Safety

section
variable {c : Nat} {s : State} {i : Issued}

/-! ### SEND -/

theorem sendRow_answered (hhead : readyHead s c .msg 1 = some i)
    (hnone : (s.envFlight.find? fun f => f.srcCore == c && f.serial == i.serial && envCtx f.env.toNat == i.ctx) = none)
    (hwork : i.work = [2]) : sendRow c s = msgRepeatDone c i s := by
  unfold sendRow
  rw [hhead]
  dsimp only
  rw [hnone]
  dsimp only
  rw [if_pos hwork]

theorem sendRow_off (hhead : readyHead s c .msg 1 = some i)
    (hnone : (s.envFlight.find? fun f => f.srcCore == c && f.serial == i.serial && envCtx f.env.toNat == i.ctx) = none)
    (hwork : i.work = []) {s1 : State} {p : List SealMsg} (hrun : runFrom i.journal false (sendOne c i i.progress) s = .ok p s1) :
    sendRow c s = sendOff c (setHead c .msg (fun x => { x with journal := [] }) s1) := by
  unfold sendRow
  rw [hhead]
  dsimp only
  rw [hnone]
  dsimp only
  rw [if_neg (by rw [hwork]; exact nofun), if_neg (by rw [hwork]; exact nofun), hrun]

/-- The envelope that a SEND puts on its way. -/
def sealedFlight (s : State) (c : Nat) (i : Issued) (v : Nat) : EnvFlight where
  env := BitVec.ofNat 256 (envSeal s i.ctx i.postmark.toNat v)
  srcCore := c
  serial := i.serial
  remote := !(envHere s v)

theorem sealedFlight_calm {u : State} (h : Calm s u) (v : Nat) : sealedFlight u c i v = sealedFlight s c i v :=
  (congrArg (fun x : State => sealedFlight x c i v) h.rest :)

theorem sealedFlight_setMailbox (k b : Nat) (f : Mailbox → Mailbox) (v : Nat) :
    sealedFlight (setMailbox k b f s) c i v = sealedFlight s c i v := rfl

/-- A reply's place is reserved, where one is asked for. -/
theorem reserveReply_ends {e : Env} {v : Nat}
    (h : envRcpt v = true → (mailbox s e.core (envReply v)).owner = some e.ctx ∧ 0 < mbFree (mailbox s e.core (envReply v))) :
    ∃ t, reserveReply e v s = .ok () t ∧ t.envFlight = s.envFlight ∧ ∀ c i, sealedFlight t c i v = sealedFlight s c i v := by
  unfold reserveReply
  rw [eng_bind (eng_get s)]
  dsimp only
  by_cases hr : envRcpt v = true
  · obtain ⟨hown, hfree⟩ := h hr
    rw [if_pos hr, hown, eng_bind (need_of (beq_self_eq_true _) ..), if_neg (Nat.ne_of_gt hfree)]
    exact ⟨_, rfl, rfl, fun _ _ => rfl⟩
  · rw [if_neg hr]
    exact ⟨s, rfl, rfl, fun _ _ => rfl⟩

theorem mailbox_calm {u : State} (h : Calm s u) (c b : Nat) : mailbox u c b = mailbox s c b :=
  (congrArg (fun x : State => mailbox x c b) h.rest :)

/-- A SEND that can be done at once ends with its envelope in flight. -/
theorem sendOne_ends {r v : Nat} (h : sendCan c i r s v) :
    ∃ s1, runFrom [] false (sendOne c i r) s = .ok [] s1 ∧ s1.envFlight = s.envFlight ++ [sealedFlight s c i v] := by
  obtain ⟨hfields, hal, hsp, hcore, hpass, henv, hreply⟩ := h
  have hplace : (addrOf i r 0 % 32 == 0 && isSp (addrOf i r 0) && spCore (addrOf i r 0) == c) = true := by simp [hal, hsp, hcore]
  obtain ⟨u, hu, calm, idle⟩ := passes_quiet hpass (along_loadWord quiet_reads ..)
  have hbox : envRcpt v = true → (mailbox u c (envReply v)).owner = some i.ctx ∧ 0 < mbFree (mailbox u c (envReply v)) := by
    rw [mailbox_calm calm]
    exact hreply
  obtain ⟨t, ht, hflight, hsealed⟩ := reserveReply_ends (e := envOf c .msg i) hbox
  have hkept : t.envFlight ++ [sealedFlight t c i v] = s.envFlight ++ [sealedFlight s c i v] := by
    have hsame : u.envFlight = s.envFlight := (congrArg State.envFlight calm.rest :)
    rw [hflight, hsealed, sealedFlight_calm calm, hsame]
    rfl
  have honce := once_of (x := do
      reserveReply (envOf c .msg i) v
      modify fun s => { s with envFlight := s.envFlight ++ [sealedFlight s c i v] }) idle ((eng_bind ht).trans rfl)
  have hrun : sendOne c i r (settled s) = .ok [] { t with
      envFlight := t.envFlight ++ [sealedFlight t c i v], journal := .done :: u.journal } := by
    unfold sendOne
    rw [eng_bind (show msgIssue i (settled s) = .ok () (settled s) from need_of hfields ..),
      eng_bind (show ownAligned (envOf c .msg i) (addrOf i r 0) (settled s) = .ok () (settled s) from need_of hplace ..),
      eng_bind hu, eng_bind (need_of henv ..)]
    exact eng_bind honce
  exact ⟨_, runFrom_settled hrun, hkept⟩

/-! ### STAMP_GET -/

theorem stampGetRow_answered (hhead : readyHead s c .msg 0x10 = some i) (hwork : i.work = [2]) :
    stampGetRow c s = msgRepeatDone c i s := by
  simp [stampGetRow, hhead, hwork]

section
variable (hhead : readyHead s c .msg 0x10 = some i) (hwork : i.work = []) (hfields : msgFieldsOk i.word.toNat = true)
  (haccount : (accountOf s c i.ctx (stampDest i.word.toNat).1 (stampDest i.word.toNat).2).isSome = true ∨ (core s c).accounts.length < 64)
include hhead hwork hfields haccount

theorem stampGetRow_asks : stampGetRow c s = if (stampDest i.word.toNat).1 = moduleOf s then
      if bit (ctxSpMask s i.ctx) (stampDest i.word.toNat).2 && decide (0 < ctxSpCount s i.ctx) then
        stampAsked c i (setCore (stampDest i.word.toNat).2 (fun x => { x with
          poolWaits := x.poolWaits ++ [{ core := c, ctx := i.ctx, count := bits i.word.toNat 12 0 }] }) s)
      else stampFault c i { reason := .stampDenied } s
    else if reachable s (stampDest i.word.toNat).1 then
      stampAsked c i (sendPacket {
        type := 5, dst := (stampDest i.word.toNat).1, srcCore := c, dstCore := (stampDest i.word.toNat).2, ctx := i.ctx, addr := 4096,
        tag := bits i.word.toNat 12 0, label := 1 } s)
    else if (pinPorts s (stampDest i.word.toNat).1).isEmpty then
      stampFault c i { reason := .linkDown, detail := peerDetail s (stampDest i.word.toNat).1 } s
    else s := by
  have hroom : ¬ ((accountOf s c i.ctx (stampDest i.word.toNat).1 (stampDest i.word.toNat).2).isNone = true ∧
      64 ≤ (core s c).accounts.length) := by
    rintro ⟨hno, hfull⟩
    obtain h | h := haccount
    · rw [Option.isNone_iff_eq_none] at hno
      rw [hno] at h
      cases h
    · omega
  unfold stampGetRow
  rw [hhead]
  dsimp only
  rw [if_neg (by rw [hwork]; exact nofun), if_neg (by rw [hwork]; exact nofun), if_neg (by rw [hwork]; exact nofun),
    if_neg (by rw [hwork]; exact not_not_intro rfl), if_neg (by rw [hfields]; exact nofun), if_neg hroom]

end

/-! ### SEAL_IMPORT -/

theorem sealImportRow_answered (hhead : readyHead s c .msg 0x1A = some i) (hwork : i.work = [2]) :
    sealImportRow c s = msgRepeatDone c i s := by
  simp [sealImportRow, hhead, hwork]

/-- The state in which an import waits for its home device. -/
def importing (c : Nat) (i : Issued) (p : Nat) (s : State) : State :=
  let s := setHead c .msg (fun x => { x with work := [1] }) s
  { s with imports := s.imports ++ [{
    core := c, ctx := i.ctx, sealId := BitVec.ofNat 16 (bits i.word.toNat 47 32), value := BitVec.ofNat 32 (bits i.word.toNat 31 0),
    phys := p }] }

theorem sealImportRow_asks {p : Nat} (hhead : readyHead s c .msg 0x1A = some i) (hwork : i.work = [])
    (hfields : msgFieldsOk i.word.toNat = true) (hnew : sealOf s i.ctx (bits i.word.toNat 47 32) = none)
    (hquota : sealsTaken s i.ctx < ctxSealQuota s i.ctx) (hfree : freeSeal s (dieOf c) = some p)
    (hfar : bits (bits i.word.toNat 31 0) 31 17 ≠ identityOf s % 2 ^ 15) :
    sealImportRow c s = routeTo (bits (bits i.word.toNat 31 0) 31 17)
      (importPacket (importing c i p s) c i.ctx (bits i.word.toNat 31 0)) (importing c i p s) := by
  unfold sealImportRow
  rw [hhead]
  dsimp only
  rw [if_neg (by rw [hwork]; exact nofun), if_neg (by rw [hwork]; exact nofun), if_neg (by rw [hwork]; exact nofun),
    if_neg (by rw [hwork]; exact not_not_intro rfl), if_neg (by rw [hfields]; exact nofun), if_neg (by rw [hnew]; exact nofun),
    if_neg (Nat.not_le.2 hquota), hfree]
  dsimp only
  rw [if_neg hfar]
  rfl

end

/-! ### Arrivals -/

section
variable {n : Nat} {received : BitVec 256} {s : State} {f : EnvFlight}

/-- What an envelope's arrival does: by its check, and by what waits for it. -/
theorem envelopeArrival_eq (hf : s.envFlight[n]? = some f) (hclear : channelBehind s n f = false) (hhere : f.remote = false)
    (hgo : f.stalled = false ∨ ctxState s (envCtx f.env.toNat) ≠ 3) : envelopeArrival n received s =
      if checkOk 32 received.toNat = false then
        if 512 ≤ f.srcCore then answerEnv 3 f.env.toNat (dropFlight n (noteCheckFail f.env.toNat received.toNat s))
        else if f.attempts = 0 then setFlight n (fun f => { f with attempts := 1 }) (noteCheckFail f.env.toNat received.toNat s)
        else sendFails f (dropFlight n (noteCheckFail f.env.toNat received.toNat s))
      else match arrivalOf s received.toNat with
        | .accepted => envGone f (acceptEnv received.toNat (dropFlight n s))
        | .dead r => envGone f (deadLetter (envCore f.env.toNat) r received.toNat (dropFlight n s))
        | .waits => if f.stalled then s
          else if 512 ≤ f.srcCore then answerEnv 2 f.env.toNat (setFlight n (fun f => { f with stalled := true }) s)
          else stallWith f.srcCore f.env.toNat (setFlight n (fun f => { f with stalled := true }) s) := by
  have hlive : (f.remote || channelBehind s n f || (f.stalled && ctxState s (envCtx f.env.toNat) == 3)) = false := by
    obtain h | h := hgo <;> simp [hhere, hclear, h]
  unfold envelopeArrival
  rw [hf]
  dsimp only
  rw [hlive, if_neg Bool.false_ne_true] <;> rfl

theorem receiptArrival_fills {r : Receipt} (hr : s.receipts[n]? = some r) (hhere : envHere s r.env.toNat = true)
    (hown : (mailbox s r.core (envBox r.env.toNat)).owner = some (envCtx r.env.toNat))
    (hslot : 0 < (mailbox s r.core (envBox r.env.toNat)).reserved) :
    receiptArrival n s = setMailbox r.core (envBox r.env.toNat) (fun m => { m with queue := m.queue ++ [r.env], reserved := m.reserved - 1 })
      { s with receipts := ldrop s.receipts n } := by
  have hhere' : envHere { s with receipts := ldrop s.receipts n } r.env.toNat = true := hhere
  have hbox : mailbox { s with receipts := ldrop s.receipts n } r.core (envBox r.env.toNat) = mailbox s r.core (envBox r.env.toNat) := rfl
  unfold receiptArrival
  rw [hr]
  dsimp only
  rw [if_pos hhere', hbox, if_pos ⟨hown, hslot⟩]

end

/-- Settles O32: each row and each arrival in its case. -/
theorem envelopesTravel : Obligations.EnvelopesTravel := by
  refine ⟨fun c s i => ⟨fun hhead hnone => ⟨fun hwork => ?_, fun hwork => ⟨fun s1 p hrun => ?_, fun v hfresh hcan => ?_⟩⟩,
    fun hhead => ⟨fun hwork => ?_, fun hwork hfields haccount => ⟨fun hhere hmask hcount => ?_, fun hfar hreach => ?_⟩⟩,
    fun hhead => ⟨fun hwork => ?_, fun p hwork hfields hnew hquota hfree hfar => ?_⟩⟩,
    fun n received s f hf hclear hhere hgo => ?_, fun n s r hr hhere hown hslot => ?_⟩
  · exact congrArg Host.Outcome.next (sendRow_answered hhead hnone hwork)
  · exact congrArg Host.Outcome.next (sendRow_off hhead hnone hwork hrun)
  · obtain ⟨s1, hrun, hflight⟩ := sendOne_ends hcan
    exact ⟨_, congrArg Host.Outcome.next (sendRow_off hhead hnone hwork (by rw [hfresh]; exact hrun)), hflight⟩
  · exact congrArg Host.Outcome.next (stampGetRow_answered hhead hwork)
  · refine congrArg Host.Outcome.next ((stampGetRow_asks hhead hwork hfields haccount).trans ?_)
    rw [if_pos hhere, hmask, decide_eq_true hcount]
    rfl
  · refine congrArg Host.Outcome.next ((stampGetRow_asks hhead hwork hfields haccount).trans ?_)
    rw [if_neg hfar, if_pos hreach]
  · exact congrArg Host.Outcome.next (sealImportRow_answered hhead hwork)
  · exact congrArg Host.Outcome.next (sealImportRow_asks hhead hwork hfields hnew hquota hfree hfar)
  · have harrives {t : State} (h : _ = t) : exec (.envelopeArrival n received) s = .next t :=
      congrArg Host.Outcome.next ((envelopeArrival_eq (received := received) hf hclear hhere hgo).trans h)
    refine ⟨fun hok => ⟨fun ha => harrives ?_, fun r ha => harrives ?_, fun ha hfirst hsrc => harrives ?_⟩,
      fun hbad hsrc => ⟨fun hzero => harrives ?_, fun hagain => harrives ?_⟩⟩
    · rw [if_neg (by rw [hok]; exact nofun), ha]
    · rw [if_neg (by rw [hok]; exact nofun), ha]
    · rw [if_neg (by rw [hok]; exact nofun), ha]
      dsimp only
      rw [hfirst, if_neg Bool.false_ne_true, if_neg (Nat.not_le.2 hsrc)]
    · rw [if_pos hbad, if_neg (Nat.not_le.2 hsrc), if_pos hzero]
    · rw [if_pos hbad, if_neg (Nat.not_le.2 hsrc), if_neg hagain]
  · exact congrArg Host.Outcome.next (receiptArrival_fills hr hhere hown hslot)

end Sys2Proof.Machine

/-! ## Key streams and their parcels (R80 to R97, R281) -/

namespace Sys2Proof.Machine

open Sys2Proof.Safety

/-! ### Requests -/

section
variable {c : Nat} {i : Issued} {s : State} {weight : Bool} {ok : Nat → Bool}

/-- The state when a request stands at the engine of the core's round. -/
def requested (weight : Bool) (c : Nat) (i : Issued) (r : Nat) (s : State) : State :=
  setEngine (roundOf c) (fun e => { e with queue := e.queue ++ [{ weight := weight, core := c, instr := { i with progress := r } }] })
    (settled s)

/-- A request with a place is made at once, whether or not its context is to stop. -/
theorem submit_places {r : Nat} (hok : ok i.word.toNat = true) (hroom : engHeld (engine s (roundOf c)) < 4) (stop : Bool) :
    runFrom [] stop (submit weight ok c i r) s = .ok [] (requested weight c i r s) := by
  have hrun : submit weight ok c i r { s with replay := [], journal := [], stretch := stop } = .ok [] { setEngine (roundOf c) (fun e =>
      { e with queue := e.queue ++ [{ weight := weight, core := c, instr := { i with progress := r } }] })
      { s with replay := [], journal := [], stretch := stop } with journal := [.done] } := by
    unfold submit
    rw [eng_bind (need_of hok ..), eng_bind (eng_get _)]
    dsimp only
    split
    next hfull =>
      have hfull : 4 ≤ engHeld (engine s (roundOf c)) := of_decide_eq_true (Bool.and_eq_true_iff.1 hfull).2
      omega
    · exact eng_bind (act_idle _ rfl)
  unfold runFrom
  rw [show ({ s with replay := [].reverse, journal := [], stretch := stop } : State) = { s with replay := [], journal := [], stretch := stop }
    from rfl, hrun]
  rfl

theorem submit_single {q : QueueId} {op : Nat} (hhead : readyHead s c q op = some i) (hone : iRepM1 i.word.toNat = 0)
    (hfirst : i.progress = 0) (hfresh : i.journal = []) (hok : ok i.word.toNat = true) (hroom : engHeld (engine s (roundOf c)) < 4) :
    runEngine c q op (submit weight ok c) s =
      endOk c q i i.posts (repeatSignal c i { requested weight c i 0 s with wrote := [], wroteFar := [] }) := by
  rw [← List.append_nil i.posts]
  refine runEngine_of ⟨hhead, ?_⟩
  rw [hone, hfirst, hfresh]
  exact .one (submit_places hok hroom _) (fun _ => rfl) .none

end

/-! ### Streams that start -/

theorem streamStart_eq {r : Nat} {s s1 : State} {q : StreamReq} {rest : List StreamReq} {p : StreamPlan} (hrun : running s = true)
    (hmay : mayStart s r = true) (hqueue : (engine s r).queue = q :: rest) (hlive : streamLive s q.instr.ctx = true)
    (hchecks : runFrom (engine s r).journal false (if q.weight = true then
        weightChecks { core := q.core, ctx := q.instr.ctx, unit := .courier, failed := (engine s r).pageFault, alloc := false }
          ((engine s r).serial + 1) q.instr
      else keyChecks { core := q.core, ctx := q.instr.ctx, unit := .courier, failed := (engine s r).pageFault, alloc := false } r
        ((engine s r).serial + 1) q.instr) s = .ok p s1) :
    streamStart r s = setEngine r (fun x => { forgetWait x with
      queue := rest, serving := some q, serial := (engine s r).serial + 1, current := some p.desc, todo := p.todo, limbs := [],
      listing := p.listing }) s1 := by
  unfold streamStart
  rw [hrun, hmay, hqueue]
  dsimp only
  rw [hlive, hchecks]
  rfl

/-! ### Parcels that are formed -/

section
variable {s : State} {α : Type}

theorem runs_actLevel {f : State → State} (h : ∀ u, Level u (f u)) : Runs s (act f) := by
  refine ⟨fun u _ hi => ⟨(), _, act_idle f hi.replay, (h u).trans ?_⟩⟩
  exact (calm_journal _ (f u)).level

theorem runs_keyBytes (r a n : Nat) : Runs s (keyBytes r a n) :=
  runs_actLevel fun _ => ⟨fun c w a => xlat_congr rfl c w a, rfl, rfl, rfl, rfl, rfl⟩

theorem Level.chG {u : State} (h : Level s u) (k : Nat) : Machine.chG u k = Machine.chG s k := by
  unfold Machine.chG chLog2N reg
  rw [h.regs]

variable {e : Env} {r : Nat} {x : StreamEngine} {d : StreamDesc} {p : Parcel}

theorem runs_fetchLimb {half : Nat} (hx : x.current = some d)
    (h : Served s e false (x.listing.getD (5 * p.key) 0 + p.beta * keyStride (chG s (hChain d.header.toNat)) (x.listing.getD (5 * p.key + 1) 0) +
        64 + (limbIndex (kdMap (x.listing.getD (5 * p.key + 1) 0)) p.pos * (keyHalves (x.listing.getD (5 * p.key + 1) 0)).length + half) *
          chG s (hChain d.header.toNat) * 288) (chG s (hChain d.header.toNat) * 288)) :
    Runs s (fetchLimb e r x p half) := by
  unfold fetchLimb
  refine runs_get fun u hu => ?_
  rw [hu.module, hx]
  dsimp only [Option.elim_some]
  rw [hu.chG]
  refine runs_bind (runs_mapE _ fun b hb => ?_) fun _ => runs_pure _
  refine runs_bind (runs_loadOn rfl (served_sub h (by omega) ?_)) fun _ => runs_bind (runs_keyBytes ..) fun _ => runs_pure _
  have hb := List.mem_range.1 hb
  generalize chG s (hChain d.header.toNat) = gr at *
  have hblock : (b + 1) * blockGr gr ≤ gr := (Nat.mul_le_mul_right _ hb).trans (Nat.div_mul_le_self gr (blockGr gr))
  have hexpand : (b + 1) * blockGr gr = b * blockGr gr + blockGr gr := by ring
  have hassoc : b * (blockGr gr * 288) = b * blockGr gr * 288 := by ring
  omega

/-- The limbs that a parcel wants are held, or served. -/
theorem runs_wantLimbs (hserved : ∀ half ∈ keyHalves (x.listing.getD (5 * p.key + 1) 0),
      x.limbs.any (isLimb p half) = true ∨ Runs s (fetchLimb e r x p half)) (l : List LimbBuf) (hl : x.limbs ⊆ l) :
    Runs s (wantLimbs e r x p l) := by
  unfold wantLimbs
  generalize keyHalves (x.listing.getD (5 * p.key + 1) 0) = halves at hserved
  induction halves generalizing l with
  | nil => exact runs_pure _
  | cons half rest ih =>
    have hrest := fun l' (hl' : x.limbs ⊆ l') => ih l' hl' fun y hy => hserved y (List.mem_cons_of_mem _ hy)
    rw [foldE]
    refine runs_bindTo (Q := fun l' => x.limbs ⊆ l') ?_ ?_ hrest
    · refine runs_ite (fun _ => runs_pure _) fun hno => runs_bind ?_ fun _ => runs_pure _
      refine (hserved half List.mem_cons_self).resolve_left fun hhas => hno ?_
      obtain ⟨y, hy, hyp⟩ := List.any_eq_true.1 hhas
      exact List.any_eq_true.2 ⟨y, hl hy, hyp⟩
    · exact yields_ite (yields_pure hl) (yields_bind fun _ => yields_pure fun y hy => List.mem_append_left _ (hl hy))

/-- Two parcels of one label. -/
def SameLabel (p q : Parcel) : Prop := q.pos = p.pos ∧ q.block = p.block ∧ q.key = p.key ∧ q.beta = p.beta

theorem runs_formKey (hx : x.current = some d) (hd : d.weight = false) (h : FormServed s e x d p) : Runs s (formKey e r x p) := by
  unfold FormServed at h
  rw [if_neg (by rw [hd]; exact Bool.false_ne_true)] at h
  unfold formKey
  refine runs_get fun u hu => ?_
  rw [hx]
  dsimp only [Option.elim_some] at h ⊢
  split
  next hrole =>
    rw [if_pos hrole] at h
    rw [hu.module]
    exact runs_bind (runs_loadOn rfl (served_sub h (by omega) (by omega))) fun _ =>
      runs_bind (runs_loadOn rfl (served_sub h (by omega) (by omega))) fun _ => runs_bind (runs_keyBytes ..) fun _ => runs_pure _
  next hrole =>
    rw [if_neg hrole] at h
    refine runs_bind (runs_wantLimbs (fun half hhalf => (h half hhalf).imp_right (runs_fetchLimb hx)) _ (List.Subset.refl _)) fun l => ?_
    split
    · exact runs_pure _
    · exact runs_pure _

theorem yields_formKey : Yields (fun q => SameLabel p q.1) (formKey e r x p) := by
  unfold formKey
  refine yields_bind fun _ => ?_
  dsimp only
  split
  · exact yields_bind fun _ => yields_bind fun _ => yields_bind fun _ => yields_pure ⟨rfl, rfl, rfl, rfl⟩
  · refine yields_bind fun l => ?_
    split
    · exact yields_pure ⟨rfl, rfl, rfl, rfl⟩
    · exact yields_pure ⟨rfl, rfl, rfl, rfl⟩

theorem runs_formWeight (hx : x.current = some d) (hd : d.weight = true) (h : FormServed s e x d p) : Runs s (formWeight e x p) := by
  unfold FormServed at h
  rw [if_pos hd] at h
  obtain ⟨hrows, hscales⟩ := h
  unfold formWeight
  rw [hx]
  dsimp only [Option.elim_some]
  refine runs_bind (runs_mapE _ fun i _ => runs_mapE _ fun j _ => ?_) fun rows => ?_
  · exact runs_ite (fun _ => runs_bind (runs_readElem hrows _) fun _ => runs_pure _) fun _ => runs_pure _
  refine runs_branch' (fun _ => runs_mapE _ fun b _ => runs_mapE _ fun j _ => runs_ite (fun hj => ?_) fun _ => runs_pure _) fun _ => runs_pure _
  unfold readScale
  dsimp only
  split
  · exact runs_pure _
  next v hv =>
    obtain ⟨hmode, hv⟩ := Option.ite_none_right_eq_some.1 hv
    rw [← Option.some.inj hv]
    exact runs_readPlain (hscales hmode _ _ hj)

theorem yields_formWeight : Yields (SameLabel p) (formWeight e x p) := by
  unfold formWeight
  dsimp only
  refine yields_bind fun rows => ?_
  split
  · exact yields_bind fun _ => yields_pure ⟨rfl, rfl, rfl, rfl⟩
  · exact yields_bind fun _ => yields_pure ⟨rfl, rfl, rfl, rfl⟩

/-- A parcel whose bytes are served is filled, and keeps its label. -/
theorem formed (hx : x.current = some d) (h : FormServed s e x d p) : ∃ q l s1, SameLabel p q ∧
    runFrom [] false (if d.weight = true then formWeight e x p >>= fun q => pure (q, []) else formKey e r x p) s = .ok (q, l) s1 := by
  have hserved : FormServed (settled s) e x d p := h
  by_cases hd : d.weight = true
  · obtain ⟨q, t, hq, -⟩ := (runs_formWeight hx hd hserved).ends _ (.refl _) ⟨rfl, rfl⟩
    refine ⟨q, [], _, yields_formWeight.yields _ _ _ hq, runFrom_settled (t := t) ?_⟩
    rw [if_pos hd]
    exact eng_bind hq
  · obtain ⟨⟨q, l⟩, t, hq, -⟩ := (runs_formKey (r := r) hx (Bool.eq_false_iff.2 hd) hserved).ends _ (.refl _) ⟨rfl, rfl⟩
    refine ⟨q, l, _, yields_formKey.yields _ _ _ hq, runFrom_settled (t := t) ?_⟩
    rw [if_neg hd]
    exact hq

theorem parcelForm_eq {rest : List Parcel} {q : Parcel} {l : List LimbBuf} {s1 : State} (htodo : (engine s r).todo = p :: rest)
    (hcur : (engine s r).current = some d) (hrun : running s = true) (hlive : streamLive s d.ctx = true) (hroom : (engine s r).out.length < 4)
    (he : e = { core := ((engine s r).serving.map (·.core)).getD (firstCore r), ctx := d.ctx, unit := .courier,
                failed := (engine s r).pageFault, alloc := false })
    (hform : runFrom (engine s r).journal false (if d.weight = true then formWeight e (engine s r) p >>= fun q => pure (q, [])
      else formKey e r (engine s r) p) s = .ok (q, l) s1) :
    parcelForm r s = readAhead { e with failed := none } r 4 (setEngine r (fun x =>
      dropLimbs { forgetWait x with todo := rest, out := x.out ++ [q], limbs := l }) s1) := by
  subst he
  unfold parcelForm
  dsimp only
  rw [htodo, hcur]
  dsimp only
  rw [hrun, hlive, decide_eq_true hroom, hform]
  rfl

end

/-! ### Parcels that arrive, and stalls -/

section
variable {c : Nat} {ok : Bool} {s : State} {d : StreamDesc}

theorem parcelArrival_advances (hup : upstream s c = some d) (hnew : (core s c).relay.current.map (·.stream) ≠ some d.stream)
    (hmay : mayAdvance s c = true) : parcelArrival c ok s = setRelay c (fun _ => { current := some d }) s := by
  unfold parcelArrival
  rw [hup]
  dsimp only
  rw [if_pos (bne_iff_ne.2 hnew), if_pos hmay]

@[simp] theorem time_handOn (c : Nat) (s : State) : (handOn c s).time = s.time := by
  unfold handOn
  split <;> rfl

@[simp] theorem time_bumpE (i j : Nat) (s : State) : (bumpE i j s).time = s.time := by
  unfold bumpE bump
  repeat' split
  all_goals rfl

theorem parcelArrival_takes {x : Parcel} (hup : upstream s c = some d) (hsame : (core s c).relay.current.map (·.stream) = some d.stream)
    (hoffer : offered s c = some x) (hroom : (core s c).relay.slots.length < 2) (hlive : c % 16 ≠ 0 ∨ streamLive s d.ctx = true) :
    parcelArrival c ok s = setRelay c (fun p => freeSlots { p with
        slots := p.slots ++ [{
          parcel := { x with poison := x.poison || !ok }, forwarded := lastOfRound c,
          applied := !(consumes d c) || (core s c).relay.left || decide ((core s c).relay.got < (core s c).relay.skip),
          stallSeen := false, since := s.time }],
        got := p.got + 1 })
      (if ok = true then handOn c s else bumpE 0x6000 8 (handOn c s)) := by
  have hadmit : (decide ((core s c).relay.slots.length < 2) && (c % 16 != 0 || streamLive s d.ctx)) = true := by
    simpa [hroom] using hlive
  have htime : (if ok = true then handOn c s else bumpE 0x6000 8 (handOn c s)).time = s.time := by
    split <;> simp
  unfold parcelArrival
  rw [hup]
  dsimp only
  rw [if_neg (by simpa using hsame), hoffer]
  dsimp only
  rw [if_pos hadmit, htime]

theorem relayStall_reports {k : Nat} {x : RelaySlot} (hslot : (core s c).relay.slots[k]? = some x) (hlim : reg s 0x3200 1 ≠ 0)
    (hseen : x.stallSeen = false) (hlong : reg s 0x3200 1 < s.time - x.since) :
    relayStall c k s = stageRec (dieOf c)
      { unit := .relay, reason := .relayStall, core := c, ctx := ((core s c).relay.current.map (·.ctx)).getD 0,
        detail := labelWord x.parcel + roundField (roundOf c) }
      (bumpE 0x3200 2 (bumpE (0x3210 + roundOf c) 7 (setRelay c (fun p => { p with
        slots := lmod p.slots k fun x => { x with stallSeen := true } }) s))) := by
  unfold relayStall
  dsimp only
  rw [hslot]
  dsimp only
  rw [if_pos ⟨hlim, by rw [hseen]; rfl, hlong⟩, setRelay, core_setCore_self]

end

/-- Settles O23: requests, starts, parcels that are formed and that arrive, and stalls. -/
theorem streamsTravel : Obligations.StreamsTravel := by
  have hsubmit {weight : Bool} {ok : Nat → Bool} {c : Nat} (i : Issued) (r : Nat) (s : State)
      (h : ok i.word.toNat = true ∧ engHeld (engine s (roundOf c)) < 4) :
      ∃ p u, runFrom [] false (submit weight ok c i r) s = .ok p u := ⟨_, _, submit_places h.1 h.2 false⟩
  refine ⟨fun c s i => ⟨fun hone hfirst hfresh hroom => ⟨fun hhead hok => ?_, fun hhead hok => ?_⟩, fun h => ?_, fun h => ?_⟩,
    fun r s s1 q rest p hrun hmay hqueue hlive hchecks => ?_,
    ⟨fun r s p rest d htodo hcur hrun hlive hroom hjournal hserved => ?_, fun c ok s d hup => ⟨fun hnew hmay => ?_,
      fun x hsame hoffer hroom hlive => ?_⟩⟩, fun c k s x hslot hlim hseen hlong => ?_⟩
  · exact congrArg Host.Outcome.next (submit_single hhead hone hfirst hfresh hok hroom)
  · exact congrArg Host.Outcome.next (submit_single hhead hone hfirst hfresh hok hroom)
  · exact row_ends rfl h fun r s => hsubmit i r s
  · exact row_ends rfl h fun r s => hsubmit i r s
  · exact congrArg Host.Outcome.next (streamStart_eq hrun hmay hqueue hlive hchecks)
  · obtain ⟨q, l, s1, ⟨hpos, hblock, hkey, hbeta⟩, hform⟩ := formed (r := r.val) hcur hserved
    refine ⟨q, l, s1, hpos, hblock, hkey, hbeta, congrArg Host.Outcome.next (parcelForm_eq htodo hcur hrun hlive hroom rfl ?_)⟩
    rw [hjournal]
    exact hform
  · exact congrArg Host.Outcome.next (parcelArrival_advances hup hnew hmay)
  · exact congrArg Host.Outcome.next (parcelArrival_takes hup hsame hoffer hroom hlive)
  · exact congrArg Host.Outcome.next (relayStall_reports hslot hlim hseen hlong)

end Sys2Proof.Machine

/-! ## Consumers of a key stream take its parcels (R92, R93, R117 to R125) -/

namespace Sys2Proof.Machine

open Sys2Proof.Safety

/-! ### The stream and its next parcel -/

theorem eng_bind_ok {α β : Type} {x : Eng α} {f : α → Eng β} {s t : State} {w : β} (h : (x >>= f) s = .ok w t) :
    ∃ v u, x s = .ok v u ∧ f v u = .ok w t := by
  simp only [bind, EStateM.bind] at h
  split at h
  next v u hv => exact ⟨v, u, hv, h⟩
  next => cases h

theorem runFrom_ok {α : Type} {j : List Ev} {one : Bool} {x : Eng α} {s t : State} {v : α} (h : runFrom j one x s = .ok v t) :
    ∃ u, x { s with replay := j.reverse, journal := j, stretch := one } = .ok v u := by
  unfold runFrom at h
  split at h
  next u hu => cases h; exact ⟨u, hu⟩
  next => cases h

theorem yields_runFrom {α : Type} {j : List Ev} {one : Bool} {Q : α → Prop} {x : Eng α} {s t : State} {v : α} (hx : Yields Q x)
    (h : runFrom j one x s = .ok v t) : Q v := by
  obtain ⟨u, hu⟩ := runFrom_ok h
  exact hx.yields _ _ _ hu

theorem atGran_of {α : Type} {x : Eng α} {s t : State} {v : α} (h : x s = .ok v t) (r p g : Nat) : atGran r p g x s = .ok v t := by
  unfold atGran
  rw [h]

theorem ends_bind {α β : Type} {x : Eng α} {f : α → Eng β} {s t : State} {v : α} (h : x s = .ok v t) (hf : ∃ p u, f v t = .ok p u) :
    ∃ p u, (x >>= f) s = .ok p u := by
  rwa [eng_bind h]

section
variable {s : State} {c ctx : Nat} {weight : Bool} {d : StreamDesc} {x : Parcel}

theorem streamFor_of (e : Env) (h : ParcelHere s e.core e.ctx weight d x) : streamFor e weight s = .ok d s := by
  unfold streamFor
  rw [eng_bind (eng_get s)]
  dsimp only
  rw [h.left, if_neg Bool.false_ne_true, h.stream]
  dsimp only
  rw [h.alive]
  dsimp only
  rw [h.openTo, if_neg Bool.false_ne_true, eng_bind (need_of (beq_iff_eq.2 h.owner) ..), if_neg (by simp [h.kind])]
  rfl

theorem nextParcel_of (e : Env) (h : ParcelHere s e.core ctx weight d x) : nextParcel e s = .ok x s := by
  unfold nextParcel
  rw [eng_bind (eng_get s)]
  obtain ⟨y, hy, hyx⟩ := Option.map_eq_some_iff.1 h.slot
  rw [hy, ← hyx]
  rfl

end

/-- Reading work leaves the granules of the chains as they are. -/
theorem chG_of_quiet {s t : State} (h : Quiet s t) (ch : Nat) : chG t ch = chG s ch :=
  (Calm.level h.calm).chG ch

theorem Walks.leads {s u : State} {e : Env} {hdrs : List Nat} {α : Type} {x : Eng α} {l : List Safety.Work}
    (h : Walks s e hdrs (workBytes s e.ctx hdrs l) x (l.flatMap Work.accesses)) (hs : WorkServed s e hdrs l) (hc : Calm s u) (hi : Idle u) :
    ∃ v t, x u = .ok v t ∧ Idle t := by
  have hcan := (can_of_workServed hs).calm hc
  rw [← List.append_nil (l.flatMap Work.accesses)] at hcan
  obtain ⟨v, t, hv, hn, -⟩ := h u [] hi hc.near hcan
  exact ⟨v, t, hv, hn.idle hi⟩

/-! ### KEY_MAC -/

section
variable {s0 : State} {e : Env} {hdrs : List Nat} {P : Nat → Prop} {gr : Nat}

theorem walks_kmMark {d : Obj} (hd : d.addr ∈ hdrs) {was bad : Bool} : Walks s0 e hdrs P (kmMark e was bad d) [] := by
  unfold kmMark
  exact walks_ite (fun _ => walks_hdrPoison hd) fun _ => walks_pure _

/-- The accesses of one repeat of KEY_MAC for one parcel. -/
def kmPiece (s : State) (gr p g0 : Nat) (init : Bool) (x : Obj × Obj × Bool) : Safety.Work where
  reads := (List.range (blockGr gr)).flatMap fun t => readAt s gr x.1 0 p (g0 + t) ::
    if init then [] else [readAt s gr x.2.1 0 p (g0 + t), readAt s gr x.2.1 1 p (g0 + t)]
  writes := (List.range (blockGr gr)).flatMap fun t => [0, 1].map fun c => granPlace (moduleOf s) gr x.2.1 c p (g0 + t)

theorem kmWork_eq (s : State) (gr p g0 : Nat) (init : Bool) (reps : List (Obj × Obj × Bool)) :
    kmWork s gr p g0 init reps = reps.map (kmPiece s gr p g0 init) := rfl

/-- Work for each of a list's elements that yields, in order, what is known of each. -/
theorem walksTo_mapE_eq {α β γ : Type} {f : β → Eng α} {g : β → List Access} {k : α → γ} {h : β → γ} (l : List β)
    (hf : ∀ x ∈ l, WalksTo s0 e hdrs P (fun v => k v = h x) (f x) (g x)) :
    WalksTo s0 e hdrs P (fun v => v.map k = l.map h) (mapE f l) (l.flatMap g) := by
  intro s rest hi hn hc
  obtain ⟨v, t, hv, hall, hrest⟩ := walksTo_mapE l hf s rest hi hn hc
  refine ⟨v, t, hv, ?_, hrest⟩
  have heq : List.Forall₂ (fun x y => x = y) (l.map h) (v.map k) :=
    List.forall₂_map_left_iff.2 (List.forall₂_map_right_iff.2 (hall.imp fun _ _ h => h.symm))
  exact (List.forall₂_eq_eq_eq ▸ heq : l.map h = v.map k).symm

/-- What one granule of a repeat reads. -/
theorem kmReads_eq {p g : Nat} {init : Bool} {a d : Obj} :
    (readAt s0 gr a 0 p g :: if init then [] else [readAt s0 gr d 0 p g, readAt s0 gr d 1 p g]).map Access.read =
      [.read (readAt s0 gr a 0 p g)] ++ [0, 1].flatMap fun c => if init then [] else [.read (readAt s0 gr d c p g)] := by
  cases init <;> rfl

theorem walks_kmApply {w r gr ch p g0 : Nat} {x : Parcel} {a d : Obj} {was b : Bool} (hd : d.addr ∈ hdrs) :
    Walks s0 e hdrs P (kmApply e w r gr ch p g0 x a d was) (Work.accesses (kmPiece s0 gr p g0 x.init (a, d, b))) := by
  unfold kmApply kmPiece Work.accesses
  dsimp only
  rw [List.map_nil, List.nil_append, List.map_flatMap]
  refine walks_get fun s hn => ?_
  rw [hn.prime]
  refine walks_bindTo (walksTo_mapE_eq (k := fun v => v.map fun y : Nat × Nat × List Nat × Bool => (y.1, y.2.1))
    (h := fun t => [0, 1].map fun c => (c, g0 + t)) _ fun t _ => ?_) fun l hl => ?_
  · rw [kmReads_eq]
    refine walksTo_bind (walks_atGran _ _ _ walks_readGran).to fun _ _ =>
      walksTo_mapE_eq (k := fun y : Nat × Nat × List Nat × Bool => (y.1, y.2.1)) _ fun c _ => ?_
    split
    · exact walksTo_pure rfl
    · rw [hn.prime]
      exact walksTo_last (walks_atGran _ _ _ walks_readGran).to fun _ _ => walksTo_pure rfl
  · refine walks_first (walks_kmMark hd) fun _ => walks_last ?_ fun _ => walks_pure _
    have hplaces : l.flatten.map (fun y => (y.1, y.2.1)) = (List.range (blockGr gr)).flatMap fun t => [0, 1].map fun c => (c, g0 + t) := by
      rw [List.map_flatten, hl, List.flatMap_def]
    have hwrites : ((List.range (blockGr gr)).flatMap fun t => [0, 1].map fun c => granPlace (moduleOf s0) gr d c p (g0 + t)).map
        Access.write = l.flatten.flatMap fun y => [.write (granPlace (moduleOf s0) gr d y.1 p y.2.1)] := by
      have hplace := congrArg (List.map fun y => Access.write (granPlace (moduleOf s0) gr d y.1 p y.2)) hplaces
      rw [List.map_map, List.map_flatMap] at hplace
      rw [← List.map_eq_flatMap, List.map_flatMap]
      exact hplace.symm
    rw [hwrites]
    refine walks_eachE _ fun y _ => ?_
    split
    · exact walks_first walks_freeGran fun _ => walks_atGran _ _ _ walks_writeGran
    · exact walks_first (walks_pure _) fun _ => walks_atGran _ _ _ walks_writeGran

theorem walks_kmReps {w ch p g0 : Nat} {x : Parcel} {reps : List (Obj × Obj × Bool)} (hd : ∀ r ∈ reps, r.2.1.addr ∈ hdrs) :
    Walks s0 e hdrs P (mapE (fun (r : Nat × (Obj × Obj × Bool)) => kmApply e w r.1 gr ch p g0 x r.2.1 r.2.2.1 r.2.2.2)
      ((List.range reps.length).zip reps)) ((kmWork s0 gr p g0 x.init reps).flatMap Work.accesses) := by
  rw [kmWork_eq, List.flatMap_map, ← flatMap_zip_snd _ (le_of_eq List.length_range.symm)]
  exact walks_mapE _ fun r hr => walks_kmApply (hd _ (List.of_mem_zip hr).2)

end

section
variable {s : State} {c : Nat} {i : Issued} {k : KmOps} {d : StreamDesc} {x : Parcel}

/-- The chain of a KEY_MAC. -/
def kmChain (k : KmOps) : Nat := hChain ((k.reps.head?.map fun r => r.1.h).getD 0)

/-- The position and the block at which a KEY_MAC stands. -/
def kmAt (s : State) (w : Nat) (k : KmOps) : Nat × Nat := (kmPlan w (chG s (kmChain k))).getD k.done (0, 0)

/-- A parcel in its place with canonical residues, whose work is served, is applied to every repeat. -/
theorem kmParcel_ends (hhere : ParcelHere s c i.ctx false d x) (hok : KmParcelOk s i.word.toNat (kmChain k) (chG s (kmChain k)) k x)
    (hserved : WorkServed s (envOf c .poly i) (k.reps.map fun r => r.2.1.addr)
      (kmWork s (chG s (kmChain k)) (kmAt s i.word.toNat k).1
        ((kmAt s i.word.toNat k).2 * blockGr (chG s (kmChain k))) x.init k.reps)) :
    ∃ p t, runFrom [] false (kmParcel c i k) s = .ok p t := by
  have hhere : ParcelHere (settled s) c i.ctx false d x := ⟨hhere.left, hhere.stream, hhere.alive, hhere.openTo, hhere.owner, hhere.kind,
    hhere.slot⟩
  have hplace : (x.pos == (kmAt s i.word.toNat k).1 &&
      x.block == (kmAt s i.word.toNat k).2 &&
      ((kmAt s i.word.toNat k).2 == 0 || (x.key == k.key && x.beta == k.beta))) = true := by
    obtain ⟨⟨hpos, hblock⟩, hdigit, -⟩ := hok
    rw [← kmAt] at hpos hblock hdigit
    simpa [hpos, hblock] using hdigit
  have hcanon : ((((chunks 288 x.k0).map unpackGran).zip ((chunks 288 x.k1).map unpackGran)).map fun y =>
      canonical (primeAt s (kmChain k) (kmAt s i.word.toNat k).1).q y.1 &&
      canonical (primeAt s (kmChain k) (kmAt s i.word.toNat k).1).q y.2).all (fun ok => ok) = true := by
    rw [List.all_map, List.all_eq_true]
    exact fun y hy => Bool.and_eq_true_iff.2 (hok.valid y hy)
  refine ends_from ?_
  unfold kmParcel
  refine ends_bind (streamFor_of (envOf c .poly i) hhere) (ends_bind (nextParcel_of (envOf c .poly i) hhere) (ends_bind (eng_get _) ?_))
  refine ends_bind (atGran_of (need_of ?_ _ _ _) _ _ _) (ends_bind (atGran_of (need_of ?_ _ _ _) _ _ _) ?_)
  · exact hplace
  · exact hcanon
  · have hserved : WorkServed (settled s) (envOf c .poly i) (k.reps.map fun r => r.2.1.addr)
        (kmWork (settled s) (chG s (kmChain k)) (kmAt s i.word.toNat k).1 ((kmAt s i.word.toNat k).2 * blockGr (chG s (kmChain k)))
          x.init k.reps) := workServed_begin hserved s.reads
    obtain ⟨v, t, hv, hi⟩ := (walks_kmReps (w := i.word.toNat) (ch := kmChain k) fun r hr =>
      List.mem_map_of_mem (f := fun r : Obj × Obj × Bool => r.2.1.addr) hr).leads hserved (Calm.refl (settled s)) ⟨rfl, rfl⟩
    exact ends_bind hv (ends_bind (act_idle _ hi.replay) ⟨_, _, rfl⟩)

theorem yields_kmIssue : Yields (fun k => k.checked = false ∧ k.done = 0) (kmIssue c i) := by
  unfold kmIssue
  exact yields_bind fun _ => yields_bind fun _ => yields_bind fun _ => yields_pure ⟨rfl, rfl⟩

theorem yields_kmStart : Yields (fun k' => k'.checked = true ∧ k'.done = k.done) (kmStart c i k) := by
  unfold kmStart
  exact yields_bind fun _ => yields_bind fun _ => yields_pure ⟨rfl, rfl⟩

/-- What a parcel that was applied leaves: one parcel more done, and whether it was the last. -/
theorem kmParcel_gives {k' : KmOps} {last : Bool} {j : List Ev} {t : State} (h : runFrom j false (kmParcel c i k) s = .ok (k', last) t) :
    k'.done = k.done + 1 ∧ last = decide ((kmPlan i.word.toNat (chG s (kmChain k))).length ≤ k.done + 1) := by
  obtain ⟨u, h⟩ := runFrom_ok h
  unfold kmParcel at h
  obtain ⟨d, s1, hstream, h⟩ := eng_bind_ok h
  obtain ⟨x, s2, hnext, h⟩ := eng_bind_ok h
  rw [eng_bind (eng_get s2)] at h
  have hgr : chG s2 (kmChain k) = chG s (kmChain k) :=
    (chG_of_quiet ((along_nextParcel quiet_reads ..).ok hnext) _).trans (chG_of_quiet ((along_streamFor quiet_reads ..).ok hstream) _)
  rw [← hgr]
  refine Yields.yields (P := fun v : KmOps × Bool => v.1.done = k.done + 1 ∧
    v.2 = decide ((kmPlan i.word.toNat (chG s2 (kmChain k))).length ≤ k.done + 1)) ?_ _ _ _ h
  exact yields_bind fun _ => yields_bind fun _ => yields_bind fun _ => yields_bind fun _ => yields_pure ⟨rfl, rfl⟩

/-- What follows a parcel that KEY_MAC has taken. -/
def kmAnswer (s : State) (c : Nat) (i : Issued) (k k' : KmOps) (t : State) : State :=
  if (kmPlan i.word.toNat (chG s (kmChain k))).length ≤ k.done + 1 then
    endOk c .poly i [] ((List.range (iRepM1 i.word.toNat + 1)).foldl (fun s _ => repeatSignal c i s) t)
  else kmHold c k' t

theorem keyMacRow_issues {t : State} (hhead : readyHead s c .poly 0x2C = some i) (hkm : i.km = none)
    (h : runFrom i.journal false (kmIssue c i) s = .ok k t) : keyMacRow c s = kmHold c k t := by
  unfold keyMacRow
  rw [hhead]
  dsimp only
  rw [hkm]
  dsimp only
  rw [kmStep, h]

theorem keyMacRow_held (hhead : readyHead s c .poly 0x2C = some i) (hkm : i.km = some k) : keyMacRow c s = kmAdvance c i k s := by
  unfold keyMacRow
  rw [hhead]
  dsimp only
  rw [hkm]

theorem kmAdvance_starts {k' : KmOps} {t : State} (hfirst : k.checked = false)
    (h : runFrom i.journal false (kmStart c i k) s = .ok k' t) : kmAdvance c i k s = kmHold c k' t := by
  unfold kmAdvance
  rw [hfirst, if_neg Bool.false_ne_true, kmStep, h]

theorem kmAdvance_takes {k' : KmOps} {last : Bool} {t : State} (hchecked : k.checked = true)
    (h : runFrom i.journal false (kmParcel c i k) s = .ok (k', last) t) : kmAdvance c i k s = kmAnswer s c i k k' t := by
  unfold kmAdvance kmAnswer
  rw [hchecked, if_pos rfl, kmStep, h]
  dsimp only
  rw [(kmParcel_gives h).2]
  exact if_congr decide_eq_true_iff rfl rfl

end

/-! ### G_REFRESH on a stream -/

section
variable {s : State} {c : Nat} {i : Issued} {k : GateOps}

theorem yields_refreshIssue : Yields (fun k => k.checked = false ∧ k.done = 0) (refreshIssue c i) := by
  unfold refreshIssue
  exact yields_bind fun _ => yields_bind fun _ => yields_bind fun _ => yields_pure ⟨rfl, rfl⟩

theorem yields_refreshStart : Yields (fun k' => k'.checked = true ∧ k'.done = k.done) (refreshStart c i k) := by
  unfold refreshStart
  exact yields_bind fun _ => yields_bind fun _ => yields_bind fun _ => yields_pure ⟨rfl, rfl⟩

/-- What a G_REFRESH has when one parcel more is applied. -/
def refreshTaken (s : State) (k : GateOps) (x : Parcel) : GateOps := { k with
  done := k.done + 1
  reps := k.reps.map fun g => refreshApply s k.done (unpackGrans x.k0) (unpackGrans x.k1) x.poison g }

theorem refreshParcel_takes {d : StreamDesc} {x : Parcel} (hhere : ParcelHere s c i.ctx false d x) (hok : RefreshParcelOk s k x) :
    runFrom [] false (refreshParcel c i k) s = .ok (refreshTaken s k x) (parcelApplied c (settled s)) := by
  have hhere : ParcelHere (settled s) c i.ctx false d x := ⟨hhere.left, hhere.stream, hhere.alive, hhere.openTo, hhere.owner, hhere.kind,
    hhere.slot⟩
  have hrun : refreshParcel c i k (settled s) =
      .ok (refreshTaken s k x) { parcelApplied c (settled s) with journal := [.done] } := by
    unfold refreshParcel
    rw [eng_bind (streamFor_of (envOf c .gateLane i) hhere), eng_bind (nextParcel_of (envOf c .gateLane i) hhere), eng_bind (eng_get _)]
    refine (eng_bind (atGran_of (need_of ?_ _ _ _) _ _ _)).trans ((eng_bind (atGran_of (need_of ?_ _ _ _) _ _ _)).trans
      (eng_bind (act_idle _ rfl)))
    · simp [hok.pos, hok.beta, hok.block, rowIndex]
    · exact Bool.and_eq_true_iff.2 hok.valid
  exact runFrom_settled hrun

/-- With every parcel taken, the samples are written and their headers committed. -/
theorem refreshFinish_ends (hserved : WorkServed s (envOf c .gateLane i) (k.reps.map fun g => g.d.addr)
    [{ writes := k.reps.flatMap fun g => sampleWrites s g.d }]) : ∃ t, runFrom [] false (refreshFinish c i k) s = .ok () t := by
  have hserved : WorkServed (settled s) (envOf c .gateLane i) (k.reps.map fun g => g.d.addr)
    [{ writes := k.reps.flatMap fun g => sampleWrites (settled s) g.d }] := workServed_begin hserved s.reads
  have hwalk : ∀ P, Walks (settled s) (envOf c .gateLane i) (k.reps.map fun g => g.d.addr) P (refreshFinish c i k)
      ([{ writes := k.reps.flatMap fun g => sampleWrites (settled s) g.d }].flatMap Work.accesses) := fun P => by
    unfold refreshFinish
    rw [accesses_piece, List.map_nil, List.nil_append, List.map_flatMap]
    refine walks_get fun u _ => walks_last (walks_eachNumbered _ fun r g _ => walks_writeSample) fun _ => ?_
    exact walks_eachHdr _ fun g hg => walks_commitHdr (List.mem_map_of_mem (f := fun g : GateRep => g.d.addr) hg)
  obtain ⟨⟨⟩, t, ht, -⟩ := (hwalk _).leads hserved (Calm.refl (settled s)) ⟨rfl, rfl⟩
  exact ⟨_, runFrom_settled ht⟩

theorem gRefreshRow_held (hhead : gateHead s c 3 = some i) (hgate : i.gate = some k) : gRefreshRow c s = refreshAdvance c i k s := by
  unfold gRefreshRow
  rw [hhead]
  dsimp only
  rw [hgate]

theorem gRefreshRow_issues {t : State} (hhead : gateHead s c 3 = some i) (hgate : i.gate = none) (hmode : gMode i.word.toNat = 0)
    (h : runFrom i.journal (stopping s c i.ctx) (refreshIssue c i) s = .ok k t) : gRefreshRow c s = gateHold c k t := by
  unfold gRefreshRow
  rw [hhead]
  dsimp only
  rw [hgate]
  dsimp only
  rw [if_pos hmode, gateStep, h]

theorem refreshAdvance_starts {k' : GateOps} {t : State} (hfirst : k.checked = false)
    (h : runFrom i.journal (stopping s c i.ctx) (refreshStart c i k) s = .ok k' t) : refreshAdvance c i k s = gateHold c k' t := by
  unfold refreshAdvance
  rw [if_pos (by rw [hfirst]; rfl), gateStep, h]

theorem refreshAdvance_takes {k' : GateOps} {t : State} (hchecked : k.checked = true) (hmore : allParcels k = false)
    (h : runFrom i.journal (stopping s c i.ctx) (refreshParcel c i k) s = .ok k' t) : refreshAdvance c i k s = gateHold c k' t := by
  unfold refreshAdvance
  rw [if_neg (by simp [hchecked]), if_neg (by simp [hmore]), gateStep, h]

theorem refreshAdvance_finishes {t : State} (hchecked : k.checked = true) (hall : allParcels k = true)
    (h : runFrom i.journal (stopping s c i.ctx) (refreshFinish c i k) s = .ok () t) : refreshAdvance c i k s = refreshEnd c i t := by
  unfold refreshAdvance
  rw [if_neg (by simp [hchecked]), if_pos hall, gateStep, h]

end

/-- Settles O18: KEY_MAC and a streamed G_REFRESH, checked, then started on their stream, then taking parcel by parcel. -/
theorem streamConsumersTakeParcels : Obligations.StreamConsumersTakeParcels := by
  refine ⟨fun c s i hhead => ⟨fun k t hkm h => ?_, fun k hkm => ⟨fun k' t hfirst h => ?_, ?_⟩⟩,
    fun c s i hhead => ⟨fun k t hgate hmode h => ?_, fun k hgate => ⟨fun k' t hfirst h => ?_, ?_, ?_⟩⟩⟩
  · obtain ⟨hchecked, hdone⟩ := yields_runFrom yields_kmIssue h
    exact ⟨hchecked, hdone, congrArg Host.Outcome.next (keyMacRow_issues hhead hkm h)⟩
  · obtain ⟨hchecked, hdone⟩ := yields_runFrom yields_kmStart h
    exact ⟨hchecked, hdone, congrArg Host.Outcome.next ((keyMacRow_held hhead hkm).trans (kmAdvance_starts hfirst h))⟩
  · have htakes (k' : KmOps) (last : Bool) (t : State) (hchecked : k.checked = true)
        (h : runFrom i.journal false (kmParcel c.val i k) s = .ok (k', last) t) :
        k'.done = k.done + 1 ∧ exec (.keyMac c) s = .next (kmAnswer s c.val i k k' t) :=
      ⟨(kmParcel_gives h).1, congrArg Host.Outcome.next ((keyMacRow_held hhead hkm).trans (kmAdvance_takes hchecked h))⟩
    refine ⟨htakes, fun d x hchecked hfresh hhere hok hserved => ?_⟩
    obtain ⟨⟨k', last⟩, t, h⟩ := kmParcel_ends hhere hok hserved
    exact ⟨k', t, htakes k' last t hchecked (by rw [hfresh]; exact h)⟩
  · obtain ⟨hchecked, hdone⟩ := yields_runFrom yields_refreshIssue h
    exact ⟨hchecked, hdone, congrArg Host.Outcome.next (gRefreshRow_issues hhead hgate hmode h)⟩
  · obtain ⟨hchecked, hdone⟩ := yields_runFrom yields_refreshStart h
    exact ⟨hchecked, hdone, congrArg Host.Outcome.next ((gRefreshRow_held hhead hgate).trans (refreshAdvance_starts hfirst h))⟩
  · intro d x hchecked hmore hfresh hstop hhere hok
    refine congrArg Host.Outcome.next ((gRefreshRow_held hhead hgate).trans (refreshAdvance_takes hchecked hmore ?_))
    rw [hfresh, hstop]
    exact refreshParcel_takes hhere hok
  · intro hchecked hall hfresh hstop hserved
    obtain ⟨t, h⟩ := refreshFinish_ends hserved
    refine ⟨t, congrArg Host.Outcome.next ((gRefreshRow_held hhead hgate).trans (refreshAdvance_finishes hchecked hall ?_))⟩
    rw [hfresh, hstop]
    exact h

end Sys2Proof.Machine

/-! ## An engine's work stops no context (R228, R305) -/

namespace Sys2Proof.Machine

open Sys2Proof.Safety

/-- A later state in which the same contexts are to stop. -/
structure Going (s t : State) : Prop where
  stopping : ∀ c, (core t c).stopping = (core s c).stopping
  express  : ∀ c, (context t c).express = (context s c).express

section
variable {s t u : State}

theorem Going.refl (s : State) : Going s s := ⟨fun _ => rfl, fun _ => rfl⟩

theorem Going.trans (h : Going s t) (k : Going t u) : Going s u :=
  ⟨fun c => (k.stopping c).trans (h.stopping c), fun c => (k.express c).trans (h.express c)⟩

theorem Going.same (h : Going s t) (c ctx : Nat) : Machine.stopping t c ctx = Machine.stopping s c ctx := by
  unfold Machine.stopping
  rw [h.stopping, h.express]

/-- A change outside cores and contexts. -/
theorem Going.upd (h : Going s t) (hcores : u.cores = t.cores) (hctx : u.contexts = t.contexts) : Going s u :=
  h.trans ⟨fun c => by rw [core_congr hcores], fun c => by rw [context, hctx, context]⟩

theorem going_ite {c : Prop} [Decidable c] (ht : Going s t) (hu : Going s u) : Going s (if c then t else u) := by
  split
  · exact ht
  · exact hu

theorem going_foldl {β : Type} {f : State → β → State} (h : Going s t) (hf : ∀ u b, Going s u → Going s (f u b)) (l : List β) :
    Going s (l.foldl f t) := by
  induction l generalizing t with
  | nil => exact h
  | cons b r ih => exact ih (hf t b h)

theorem going_foldl_snd {α β : Type} {f : α × State → β → α × State} (hf : ∀ a b, Going a.2 (f a b).2) (l : List β) {a : α × State}
    (h : Going s a.2) : Going s (l.foldl f a).2 := by
  induction l generalizing a with
  | nil => exact h
  | cons b r ih => exact ih (h.trans (hf a b))

/-! ### The memory system's own steps -/

theorem going_bumpE {i k : Nat} (h : Going s t) : Going s (bumpE i k t) := by
  unfold bumpE bump
  exact going_ite (going_ite h (h.upd rfl rfl)) (h.upd rfl rfl)

theorem going_stageRec {d : Nat} {r : Rec} (h : Going s t) : Going s (stageRec d r t) := by
  unfold stageRec
  exact going_ite (h.upd rfl rfl) (going_bumpE (h.upd rfl rfl))

theorem express_map {f : Nat × Context → Nat × Context} (hkey : ∀ e, (f e).1 = e.1) (hx : ∀ e, (f e).2.express = e.2.express)
    (l : Tab Context) (c : Nat) : (tget {} (l.map f) c).express = (tget {} l c).express := by
  induction l with
  | nil => rfl
  | cons e r ih =>
    rw [List.map_cons, tget, tget, hkey]
    split
    · exact hx e
    · exact ih

theorem going_retireFrame {k f : Nat} (h : Going s t) : Going s (retireFrame k f t) := by
  unfold retireFrame
  have hretiring (u : State) (hu : Going s u) : Going s { u with contexts := u.contexts.map fun e => (e.1, { e.2 with
      pages := e.2.pages.map fun p => if p.2.present && !p.2.huge && p.2.frame == f then (p.1, { p.2 with retiring := true }) else p }) } :=
    hu.trans ⟨fun _ => rfl, express_map (by intro; rfl) (by intro; rfl) u.contexts⟩
  exact going_ite h (going_ite (going_stageRec (going_bumpE (hretiring _ (h.upd rfl rfl)))) (going_stageRec h))

theorem going_noteCorrection {k b : Nat} (h : Going s t) : Going s (noteCorrection k b t) := by
  unfold noteCorrection
  exact going_ite h (going_ite (going_retireFrame (h.upd rfl rfl)) (h.upd rfl rfl))

theorem going_hbmCheck {b : Nat} (h : Going s t) : Going s (hbmCheck b t) := by
  unfold hbmCheck
  split
  · exact h
  · exact going_noteCorrection (going_bumpE (h.upd rfl rfl))
  · exact going_ite (going_stageRec (going_bumpE (h.upd rfl rfl))) (going_retireFrame (going_stageRec (going_bumpE (h.upd rfl rfl))))

theorem going_bwCount {c : Machine.Class} {n : Nat} (h : Going s t) : Going s (bwCount c n t) := by
  cases c <;> exact h.upd rfl rfl

theorem going_fetchBursts {cls : Machine.Class} {l : List Nat} (h : Going s t) : Going s (fetchBursts cls l t) :=
  going_foldl h (fun _ _ hu => going_bwCount (going_hbmCheck hu)) l

theorem going_cacheCheck {cls : Machine.Class} {w : Nat} (h : Going s t) : Going s (cacheCheck cls w t) := by
  unfold cacheCheck
  split
  · exact h
  · exact going_bumpE (h.upd rfl rfl)
  · split
    · exact going_bumpE (going_fetchBursts (h.upd rfl rfl))
    · exact going_stageRec (going_bumpE (h.upd rfl rfl))

theorem going_spCheck {w : Nat} (h : Going s t) : Going s (spCheck w t) := by
  unfold spCheck
  dsimp only
  split
  · exact h
  · exact going_bumpE (h.upd rfl rfl)
  · exact going_stageRec (going_bumpE (h.upd rfl rfl))

theorem going_evictLine {d : Nat} {l : CacheLine} (h : Going s t) : Going s (evictLine d l t) :=
  going_bwCount ((going_foldl h (fun _ _ hu => going_cacheCheck hu) ((lineBursts l.line l.dirty).flatMap fun b =>
    unitsOf 8 b 32)).upd rfl rfl)

theorem going_cacheTouch {line : Nat} (h : Going s t) : Going s (cacheTouch line t) := by
  unfold cacheTouch
  dsimp only
  split
  · exact h.upd rfl rfl
  · refine Going.upd (going_ite ?_ h) rfl rfl
    split
    · exact going_evictLine h
    · exact h

theorem going_fillLine {cls : Machine.Class} {line : Nat} (h : Going s t) : Going s (fillLine cls line t) := by
  unfold fillLine
  split
  · exact (going_fetchBursts h).upd rfl rfl
  · exact h

theorem going_burstRead {cls : Machine.Class} {b : Nat} (h : Going s t) : Going s (burstRead cls b t) := by
  unfold burstRead
  exact going_ite (going_foldl h (fun _ _ hu => going_cacheCheck hu) _) (going_fetchBursts h)

theorem going_noteRead {cls : Machine.Class} {alloc : Bool} {a n : Nat} (h : Going s t) : Going s (noteRead cls alloc a n t) := by
  unfold noteRead
  refine going_ite (going_foldl (going_ite (going_foldl h (fun _ _ hu => ?_) _) h) (fun _ _ hu => going_burstRead hu) _)
    (going_foldl (going_foldl h (fun _ _ hu => going_spCheck hu) _) (fun _ _ hu => ?_) _)
  · exact going_fillLine (going_cacheTouch hu)
  · exact going_ite (going_bumpE hu) hu

theorem going_sectorWrite {cls : Machine.Class} {a n b : Nat} (h : Going s t) : Going s (sectorWrite cls a n b t) := by
  unfold sectorWrite
  refine (going_foldl (going_ite h (going_fetchBursts h)) (fun _ _ hu => ?_) (unitsOf 8 b 32)).upd rfl rfl
  exact going_ite (hu.upd rfl rfl) (going_cacheCheck hu)

theorem going_noteWrite {cls : Machine.Class} {alloc : Bool} {a n : Nat} (h : Going s t) : Going s (noteWrite cls alloc a n t) := by
  unfold noteWrite
  refine going_ite (going_foldl (going_ite (going_foldl h (fun _ _ hu => going_cacheTouch hu) _) h) (fun _ _ hu => ?_) _)
    (going_foldl h (fun _ _ hu => ?_) _)
  · refine going_ite (going_sectorWrite hu) (going_bwCount (going_ite (hu.upd rfl rfl) (going_hbmCheck hu)))
  · exact going_ite (hu.upd rfl rfl) (going_spCheck hu)

theorem going_devWrite {cls : Machine.Class} {alloc : Bool} {a : Nat} {bs : List Byte} {p : Bool} (h : Going s t) :
    Going s (devWrite cls alloc a bs p t) := by
  unfold devWrite
  have hmarks := going_foldl (going_noteWrite (cls := cls) (alloc := alloc) (a := a) (n := bs.length) h)
    (f := fun s g => setMark a bs.length p g s) (fun u g hu => by
    unfold setMark
    exact going_ite (hu.upd rfl rfl) (going_ite (hu.upd rfl rfl) hu)) (unitsOf (granSize a) a bs.length)
  exact going_ite (hmarks.upd rfl rfl) (hmarks.upd rfl rfl)

theorem going_setContext {c : Nat} {f : Context → Context} (h : Going s t) (hf : ∀ x, (f x).express = x.express) :
    Going s (setContext c f t) := by
  refine h.trans ⟨fun _ => rfl, fun d => ?_⟩
  by_cases hd : d = c
  · rw [hd, context_setContext_self, hf]
  · rw [context, setContext, tget_tset_of_ne _ _ _ hd, context]

theorem going_useAge {c a : Nat} (h : Going s t) : Going s (useAge c a t) := by
  unfold useAge
  refine going_ite ?_ h
  split
  · exact going_setContext h fun _ => rfl
  · exact h

theorem going_fabricCheck (e : Env) (a n : Nat) (s : State) : Going s (fabricCheck e a n s).2 := by
  unfold fabricCheck
  refine going_foldl_snd (fun _ _ => ?_) _ (.refl s)
  split
  · exact .refl _
  · exact going_bumpE ((Going.refl _).upd rfl rfl)
  · exact going_stageRec (going_bumpE (going_bumpE ((Going.refl _).upd rfl rfl)))

theorem going_setCore (h : Going s t) {c : Nat} {f : Core → Core} (hf : ∀ x, (f x).stopping = x.stopping) :
    Going s (setCore c f t) := by
  refine h.trans ⟨fun d => ?_, fun _ => rfl⟩
  by_cases hd : d = c
  · rw [hd, core_setCore_self, hf]
  · rw [core_setCore_of_ne hd]

theorem going_sendPacket {k : Packet} (h : Going s t) : Going s (sendPacket k t) := by
  unfold sendPacket
  split
  · exact h.upd rfl rfl
  · exact h.upd rfl rfl

end

theorem going_writes : Writes none Going where
  refl := .refl
  trans := .trans
  book h := (Going.refl _).upd (congrArg State.cores h.same :) (congrArg State.contexts h.same :)
  age _ _ s := going_useAge (.refl s)
  read _ _ _ _ s := going_noteRead (.refl s)
  fabric e a n s := going_fabricCheck e a n s
  answered _ s := (Going.refl s).upd rfl rfl
  total _ _ _ s := (Going.refl s).upd rfl rfl
  fresh s := (Going.refl s).upd rfl rfl
  counted _ _ s := going_bumpE (.refl s)
  keepsXlat hk := nomatch hk
  store _ _ _ _ s _ := going_devWrite (.refl s)
  stamp _ _ _ _ _ s := going_setCore (.refl s) fun _ => rfl
  returned _ s := (Going.refl s).upd rfl rfl
  asleep _ _ s := going_stageRec (going_bumpE (.refl s))
  send _ s := going_sendPacket (.refl s)
  marks _ _ s := (Going.refl s).upd rfl rfl

/-- A part of an MM stops no context. -/
theorem going_mmPart (e : Env) (o : MmOps) : Along Going (mmPart e o) :=
  along_mmPart going_writes (allows_any _) (fun _ _ s => going_setCore (.refl s) fun _ => rfl)
    (fun c s => going_setCore (c := c) (.refl s) (f := fun x => { x with relay := freeSlots { x.relay with
      slots := lreplace (fun y => !y.applied) (fun y => { y with applied := true }) x.relay.slots } }) fun _ => rfl) o

end Sys2Proof.Machine

/-! ## MM goes on part by part (R138, R142, R143, R216) -/

namespace Sys2Proof.Machine

open Sys2Proof.Safety

section
variable {c n m : Nat} {i : Issued} {o o' : MmOps} {j : List Ev} {s t : State}

theorem mmLoop_part {o1 : MmOps} {u : State} (hmore : mmDone o = false) (hgo : j ≠ [] ∨ mmWaits s c o = false)
    (hstop : stopping s c i.ctx = false) (hpart : runFrom j false (mmPart (envOf c .mm i) o) s = .ok o1 u) :
    mmLoop c i (m + 1) o j s = mmLoop c i m o1 [] { u with wrote := [], wroteFar := [] } := by
  have hrun : (j.isEmpty && mmWaits s c o) = false := by
    obtain h | h := hgo
    · rw [List.isEmpty_eq_false_iff.2 h, Bool.false_and]
    · rw [h, Bool.and_false]
  rw [mmLoop, hmore, if_neg Bool.false_ne_true, hrun, if_neg Bool.false_ne_true, hstop, hpart]
  rfl

theorem mmLoop_done (hdone : mmDone o = true) :
    mmLoop c i (m + 1) o j s = if mmRoute o.word = 0 then mmKeep c o [] s else mmRepeatDone c i s := by
  rw [mmLoop, if_pos hdone]

theorem mmLoop_waits (hmore : mmDone o = false) (hj : j = []) (hwaits : mmWaits s c o = true) :
    mmLoop c i (m + 1) o j s = mmKeep c o [] s := by
  rw [mmLoop, hmore, if_neg Bool.false_ne_true, hj, hwaits]
  rfl

/-- Parts of which none waits lead the loop on; its own record of the instruction differs at most in what was noted of a wait. -/
theorem mmLoop_works {k : Issued} (h : MmWorks c i n o j s o' t) (henv : envOf c .mm k = envOf c .mm i) :
    ∃ j', (n ≠ 0 ∨ j = [] → j' = []) ∧ mmLoop c k (n + m) o j s = mmLoop c k m o' j' t := by
  induction h with
  | none => exact ⟨_, fun h => h.resolve_left fun h => h rfl, by rw [Nat.zero_add]⟩
  | @part n o j s o1 u o' t hmore hgo hstop hpart _ ih =>
    have hctx : k.ctx = i.ctx := congrArg Env.ctx henv
    obtain ⟨j', hj', hloop⟩ := ih
    refine ⟨j', fun _ => hj' (.inr rfl), ?_⟩
    rw [Nat.succ_add, mmLoop_part hmore hgo (by rwa [hctx]) (by rwa [henv]), hloop]

/-- How an MM's row begins: with the operands it has, or with those that it is issued with. -/
theorem mmRow_begins {s0 : State} (hhead : readyHead s c .mm 1 = some i)
    (h : i.mm = some o ∧ mmDone o = false ∧ s0 = s ∧ j = i.journal ∨
      i.mm = none ∧ (arrayTaken s c = false ∨ begun i = true) ∧ j = [] ∧ runFrom i.journal false (do
        let o ← mmIssue c i i.progress
        arrSealBound (envOf c .mm i) o
        pure o) s = .ok o s0) :
    ∃ i', (i' = i ∨ i' = { i with journal := [] }) ∧ mmRow c s = mmLoop c i' (mmFuel o) o j s0 := by
  unfold mmRow
  rw [hhead]
  dsimp only
  obtain ⟨hmm, hmore, rfl, rfl⟩ | ⟨hmm, htaken, rfl, hissue⟩ := h
  · refine ⟨i, .inl rfl, ?_⟩
    rw [hmm]
    dsimp only
    rw [hmore]
    rfl
  · refine ⟨{ i with journal := [] }, .inr rfl, ?_⟩
    have hgo : (arrayTaken s c && !begun i) = false := by
      obtain h | h := htaken <;> simp [h]
    rw [hmm]
    dsimp only
    rw [hgo, hissue]
    rfl

theorem mmRepeatDone_eq (c : Nat) (i : Issued) (s : State) : mmRepeatDone c i s =
    if iRepM1 i.word.toNat ≤ i.progress then endOk c .mm i [] (repeatSignal c i { s with wrote := [], wroteFar := [] })
    else setHead c .mm (fun x => { x with progress := x.progress + 1, mm := none, journal := [] })
      (repeatSignal c i { s with wrote := [], wroteFar := [] }) := rfl

end

end Sys2Proof.Machine

/-! ## An MM from descriptors whose operands are served comes to its end (R138, R142 to R160, R188) -/

namespace Sys2Proof.Machine

open Sys2Proof.Safety

/-! ### Where an MM stands -/

/-- What of an MM's operands its parts leave alone. -/
def fixedOf (o : MmOps) : MmOps :=
  { o with tile := 0, bank := none, parts := [], gvecs := [], groupBad := false, aHeld := [], bHeld := [] }

/-- Rows and columns of a tile. -/
def rowsAt (o : MmOps) (mt : Nat) : Nat := (tileRowsAt o mt).length
def colsAt (o : MmOps) (nt : Nat) : Nat := (tileColsAt o nt).length

/-- At most so many rows of at most so many elements. -/
def Dims {α : Type} (r c : Nat) (l : List (List α)) : Prop := l.length ≤ r ∧ ∀ x ∈ l, x.length ≤ c

/-- A bank belongs to the tile at which the MM stands. -/
structure BankOn (o : MmOps) (bk : Bank) : Prop where
  tile  : o.tile < tileCount o
  row   : bk.mt = o.tile / (tilesOf o).2
  col   : bk.nt = o.tile % (tilesOf o).2
  block : bk.block ≤ blockCount o
  dims  : Dims (rowsAt o bk.mt) (colsAt o bk.nt) bk.half0

/-- The MM keeps rows of tiles in its group buffer. -/
def grouped (o : MmOps) : Prop := mmRoute o.word ≠ 0 ∧ rowEntry (mmEpi o.word) = true

/-- Blocks of its tile that an MM has done. -/
def blocksDone (o : MmOps) : Nat := o.bank.elim 0 fun bk => bk.block

/-- A row of tiles is kept whole, and is to be finished. -/
def rowFull (o : MmOps) : Bool := o.parts.length = (tilesOf o).2 && !o.parts.isEmpty

/-- How many parts an MM has left at most. -/
def partsLeft (o : MmOps) : Nat :=
  (tileCount o - o.tile) * (blockCount o + 3) + (if rowFull o = true then 1 else 0) - o.bank.elim 0 fun bk => bk.block + 1

/-- The tiles kept of a row are those done of it; all of them where the row is to be finished. -/
def PartsOn (o : MmOps) : Prop :=
  (grouped o → o.parts.length = o.tile % (tilesOf o).2 ∨
    o.bank = none ∧ o.parts.length = (tilesOf o).2 ∧ o.tile % (tilesOf o).2 = 0) ∧
  (¬ grouped o → o.parts = [])

/-- A's blocks that are held are of the row of tiles at which the MM stands. -/
def HeldA (o : MmOps) : Prop :=
  inPlace o (some o.a) = true → 0 < blockCount o → o.tile % (tilesOf o).2 = 0 ∧ blocksDone o = 0 ∨
    ∀ l ∈ o.aHeld, l.length ≤ rowsAt o (o.tile / (tilesOf o).2)

/-- B's blocks that are held stand in the order of the tiles of the first row. -/
def HeldB (o : MmOps) : Prop :=
  inPlace o o.b = true → (∀ k l, o.bHeld[k]? = some l → l.length ≤ colsAt o (k / blockCount o)) ∧
    (o.tile < (tilesOf o).2 → o.bHeld.length = o.tile * blockCount o + blocksDone o)

/-- An MM on its way. -/
structure MmOn (o : MmOps) : Prop where
  tile  : o.tile ≤ tileCount o
  bank  : ∀ bk, o.bank = some bk → BankOn o bk
  parts : PartsOn o
  heldA : HeldA o
  heldB : HeldB o

section
variable {s : State} {e : Env} {o o' : MmOps}

theorem mmServed_fixed : MmServed s e (fixedOf o) ↔ MmServed s e o :=
  ⟨fun h => ⟨h.left, h.right, h.reads, h.dest, h.stats, h.group⟩, fun h => ⟨h.left, h.right, h.reads, h.dest, h.stats, h.group⟩⟩

theorem mmServed_alike (h : MmServed s e o) (k : fixedOf o' = fixedOf o) : MmServed s e o' := by
  rw [← mmServed_fixed, k]
  exact mmServed_fixed.2 h

theorem tiles_pos (h : o.tile < tileCount o) : 0 < (tilesOf o).2 := by
  by_contra hn
  rw [tileCount, Nat.eq_zero_of_not_pos hn, Nat.mul_zero] at h
  exact Nat.not_lt_zero _ h

/-- The tile at which an MM stands, counted by rows, where more are left. -/
theorem tiles_left (h : o.tile < tileCount o) : ∃ k, tileCount o - o.tile = k + 1 ∧ tileCount o - (o.tile + 1) = k :=
  ⟨tileCount o - o.tile - 1, by omega, by omega⟩

theorem row_lt {mt k : Nat} (h : k < rowsAt o mt) : mt * tileRows (mmShape o.word) + k < o.m ∧ k < tileRows (mmShape o.word) := by
  unfold rowsAt tileRowsAt at h
  rw [List.length_map, List.length_range] at h
  omega

theorem col_lt {nt k : Nat} (h : k < colsAt o nt) : nt * tileCols (mmShape o.word) (mmFmtA o.word == 7) + k < o.n := by
  unfold colsAt tileColsAt at h
  rw [List.length_map, List.length_range] at h
  omega

theorem mem_tileColsAt {nt j : Nat} (h : j ∈ tileColsAt o nt) : j < o.n := by
  unfold tileColsAt at h
  obtain ⟨k, hk, rfl⟩ := List.mem_map.1 h
  have := List.mem_range.1 hk
  omega

/-! ### Lengths -/

theorem yields_mapE {α β : Type} {Q : β → α → Prop} {f : β → Eng α} (l : List β) (h : ∀ x ∈ l, Yields (Q x) (f x)) :
    Yields (fun v => List.Forall₂ Q l v) (mapE f l) := by
  induction l with
  | nil => exact yields_pure .nil
  | cons x r ih =>
    refine yields_bindTo (h x List.mem_cons_self) fun v hv => ?_
    exact yields_bindTo (ih fun y hy => h y (List.mem_cons_of_mem _ hy)) fun vs hvs => yields_pure (.cons hv hvs)

theorem yields_ite' {α : Type} {P : α → Prop} {c : Prop} [Decidable c] {x y : Eng α} (hx : c → Yields P x) (hy : ¬ c → Yields P y) :
    Yields P (if c then x else y) := by
  split
  · exact hx ‹_›
  · exact hy ‹_›

theorem yields_mapE_length {α β : Type} {f : β → Eng α} (l : List β) : Yields (fun v => v.length = l.length) (mapE f l) := by
  refine ⟨fun s v t h => ?_⟩
  exact ((yields_mapE l fun x _ => yields_any (f x)).yields s v t h).length_eq.symm

theorem map_eq_of_forall₂ {α β γ : Type} {f : α → γ} {g : β → γ} {l : List α} {k : List β}
    (h : List.Forall₂ (fun x y => f x = g y) l k) :
    l.map f = k.map g := by
  induction h with
  | nil => rfl
  | cons hx _ ih => rw [List.map_cons, List.map_cons, hx, ih]

theorem dims_iff {α β : Type} {r c : Nat} {l : List (List α)} {k : List (List β)} (h : k.map List.length = l.map List.length) :
    Dims r c k ↔ Dims r c l := by
  have hrows {γ : Type} (m : List (List γ)) : Dims r c m ↔ (m.map List.length).length ≤ r ∧ ∀ n ∈ m.map List.length, n ≤ c := by
    rw [List.length_map, List.forall_mem_map]
    exact Iff.rfl
  rw [hrows, hrows, h]

theorem map_length_zipIdx {α : Type} (l : List (List α)) : (l.zipIdx.map fun x => x.1.length) = l.map List.length := by
  conv_rhs => rw [← List.zipIdx_map_fst 0 l, List.map_map]
  rfl

theorem lengths_zipIdx {α β : Type} {l : List (List α)} {f : List α × Nat → List β} (hf : ∀ x, (f x).length = x.1.length) :
    (l.zipIdx.map f).map List.length = l.map List.length := by
  rw [← map_length_zipIdx l, List.map_map]
  exact List.map_congr_left fun x _ => hf x

end

/-! ### A tile begins -/

section
variable {s : State} {e : Env} {o o' : MmOps}

theorem runs_along {use : Bool} {t : Option Tens} (ht : use = true → ∀ x, t = some x → Readable s e 0 x) (l : List Nat)
    (row col : Nat → Nat) : Runs s (if use = true then mapE (fun x => fuseWord e t (row x) (col x)) l else pure []) :=
  runs_ite (fun hu => runs_mapE _ fun _ _ => runs_fuseWord (ht hu) _ _) fun _ => runs_pure _

theorem runs_tileVecs (h : MmServed s e o) (mt nt : Nat) : Runs s (tileVecs e o mt nt) := by
  unfold tileVecs
  dsimp only
  split
  · exact runs_pure _
  next f hf =>
    have hreads (t : Tens) (ht : t ∈ f.pvec.toList ++ f.pstat.toList ++ f.evec.toList ++ f.resid.toList ++
        (if mmEpi o.word = 2 ∨ mmEpi o.word = 3 then f.estat.toList else [])) : Readable s e 0 t :=
      h.reads t (List.mem_append_right _ (by rw [hf]; simpa using ht))
    have hpvec (t : Tens) (ht : f.pvec = some t) : Readable s e 0 t := hreads t (by simp [ht])
    have hpstat (t : Tens) (ht : f.pstat = some t) : Readable s e 0 t := hreads t (by simp [ht])
    have hevec (t : Tens) (ht : f.evec = some t) : Readable s e 0 t := hreads t (by simp [ht])
    have hestat (hepi : (mmEpi o.word == 2 || mmEpi o.word == 3) = true) (t : Tens) (ht : f.estat = some t) : Readable s e 0 t := by
      rw [Bool.or_eq_true, beq_iff_eq, beq_iff_eq] at hepi
      exact hreads t (by simp [ht, hepi])
    refine runs_bind (runs_along (fun _ => hpstat) ..) fun mu => runs_bind (runs_along (fun _ => hpstat) ..) fun r => ?_
    refine runs_bind (runs_along (fun _ => hpvec) ..) fun g => runs_bind (runs_along (fun _ => hpvec) ..) fun b => ?_
    refine runs_bind (runs_along hestat ..) fun st => runs_bind (runs_along (fun _ => hevec) ..) fun t => ?_
    refine runs_bind (runs_along (fun _ => hevec) ..) fun bias => runs_bind (runs_along (fun _ => hevec) ..) fun ga => ?_
    exact runs_bind (runs_along (fun _ => hevec) ..) fun be => runs_pure _

theorem runs_tileStart (h : MmServed s e o) : Runs s (tileStart e o) := by
  unfold tileStart
  refine runs_bind (runs_tileVecs h ..) fun vs => runs_bind (runs_mapE _ fun i _ => runs_mapE _ fun j _ => ?_) fun cs => runs_pure _
  split
  next t ht => exact runs_readElem (h.reads t (List.mem_append_left _ (by simp [ht]))) _
  · exact runs_pure _

theorem tileAt_eq (o : MmOps) : tileAt o = (o.tile / (tilesOf o).2, o.tile % (tilesOf o).2) := rfl

/-- Elements read for rows and columns. -/
theorem yields_grid {α : Type} {f : Nat → Nat → Eng α} (l k : List Nat) :
    Yields (fun v => Dims l.length k.length v) (mapE (fun i => mapE (f i) k) l) := by
  refine ⟨fun s v t h => ?_⟩
  have hall := (yields_mapE (Q := fun _ (r : List α) => r.length = k.length) l fun i _ => yields_mapE_length k).yields s v t h
  refine ⟨le_of_eq hall.length_eq.symm, fun r hr => ?_⟩
  obtain ⟨k, hk, rfl⟩ := List.getElem_of_mem hr
  exact le_of_eq (hall.get (hall.length_eq ▸ hk) hk)

/-- What a part of an MM leaves: the MM on its way, with less to do. -/
structure MmGoes (o o' : MmOps) : Prop where
  alike : fixedOf o' = fixedOf o
  on    : MmOn o'
  less  : partsLeft o' < partsLeft o

theorem PartsOn.counted (h : PartsOn o) (htile : o.tile < tileCount o) (hrow : rowFull o = false) (hgroup : grouped o) :
    o.parts.length = o.tile % (tilesOf o).2 := by
  refine (h.1 hgroup).resolve_right fun ⟨_, hfull, _⟩ => ?_
  unfold rowFull at hrow
  rw [decide_eq_true hfull, Bool.true_and, Bool.not_eq_false', List.isEmpty_iff] at hrow
  have hpos := tiles_pos htile
  rw [hrow, List.length_nil] at hfull
  omega

theorem yields_tileStart (h : MmOn o) (hbank : o.bank = none) (htile : o.tile < tileCount o) (hrow : rowFull o = false) :
    Yields (MmGoes o) (tileStart e o) := by
  have hwork : 0 < (tileCount o - o.tile) * (blockCount o + 3) := Nat.mul_pos (by omega) (by omega)
  unfold tileStart
  rw [tileAt_eq]
  dsimp only
  refine yields_bind fun vs => yields_bindTo (yields_grid ..) fun cs hcs => yields_pure ⟨rfl, ⟨h.tile, ?_, ?_, ?_, ?_⟩, ?_⟩
  · rintro bk ⟨⟩
    exact ⟨htile, rfl, rfl, Nat.zero_le _, (dims_iff (by rw [List.map_map]; exact List.map_congr_left fun _ _ => List.length_map _)).2 hcs⟩
  · exact ⟨fun hg => .inl (h.parts.counted htile hrow hg), h.parts.2⟩
  · have hheld := h.heldA
    unfold HeldA blocksDone at hheld
    rw [hbank] at hheld
    exact hheld
  · have hheld := h.heldB
    unfold HeldB blocksDone at hheld
    rw [hbank] at hheld
    exact hheld
  · have hleft : partsLeft o = (tileCount o - o.tile) * (blockCount o + 3) := by
      unfold partsLeft
      rw [hrow, hbank]
      rfl
    have hafter : partsLeft o - 1 < partsLeft o := by omega
    refine lt_of_eq_of_lt ?_ hafter
    unfold partsLeft
    rw [hbank]
    rfl

end

/-! ### A tile's blocks -/

section
variable {s : State} {e : Env} {o o' : MmOps} {again : List Nat}

theorem runs_rawA (h : Readable s e 0 o.a) (mt b : Nat) : Runs s (rawA e o mt b) := by
  unfold rawA
  refine runs_mapE _ fun i _ => runs_bind (runs_mapE _ fun k _ => runs_readElem h _) fun xs => ?_
  exact runs_branch (fun _ => runs_mapE _ fun k _ => runs_readElem h _) fun ys => runs_pure _

theorem runs_rawB {t : Tens} (h : Readable s e 1 t) (nt b : Nat) : Runs s (rawB e o t nt b) :=
  runs_mapE _ fun _ _ => runs_mapE _ fun _ _ => runs_readElem h _

theorem runs_blockA (h : Readable s e 0 o.a) (mt nt b : Nat) : Runs s (blockA e o mt nt b) := by
  unfold blockA
  refine runs_ite (fun _ => runs_ite (fun _ => ?_) fun _ => runs_pure _) fun _ => ?_
  · exact runs_bind (runs_rawA h ..) fun _ => runs_pure _
  · exact runs_bind (runs_rawA h ..) fun _ => runs_pure _

theorem runs_blockB {t : Tens} (h : Readable s e 1 t) (mt nt b : Nat) : Runs s (blockB e o t mt nt b) := by
  unfold blockB
  refine runs_ite (fun _ => runs_ite (fun _ => ?_) fun _ => runs_pure _) fun _ => ?_
  · exact runs_bind (runs_rawB h ..) fun _ => runs_pure _
  · exact runs_bind (runs_rawB h ..) fun _ => runs_pure _

/-- What reading A's block leaves: at most the rows of the tile, and the held blocks of its row of tiles. -/
structure ReadA (o : MmOps) (mt : Nat) (x : MmOps × List (List Elem)) : Prop where
  same : x.1 = { o with aHeld := x.1.aHeld }
  rows : x.2.length ≤ rowsAt o mt
  held : inPlace o (some o.a) = true → ∀ l ∈ x.1.aHeld, l.length ≤ rowsAt o mt

/-- What reading B's block leaves: at most the columns of the tile, and the held blocks in order. -/
structure ReadB (o : MmOps) (nt : Nat) (x : MmOps × List (List Elem)) : Prop where
  same : x.1 = { o with bHeld := x.1.bHeld }
  cols : x.2.length ≤ colsAt o nt
  held : inPlace o o.b = true → (∀ k l, x.1.bHeld[k]? = some l → l.length ≤ colsAt o (k / blockCount o)) ∧
    (o.tile < (tilesOf o).2 → x.1.bHeld.length = o.tile * blockCount o + blocksDone o + 1)

theorem length_getD_le {α : Type} {l : List (List α)} {n : Nat} (h : ∀ x ∈ l, x.length ≤ n) (k : Nat) : (l.getD k []).length ≤ n := by
  by_cases hk : k < l.length
  · rw [List.getD_eq_getElem _ _ hk]
    exact h _ (List.getElem_mem hk)
  · rw [List.getD_eq_default _ _ (Nat.le_of_not_lt hk)]
    exact Nat.zero_le n

theorem yields_blockA (h : HeldA o) {mt nt b : Nat} (hmt : mt = o.tile / (tilesOf o).2) (hnt : nt = o.tile % (tilesOf o).2)
    (hb : b = blocksDone o) (hlt : b < blockCount o) : Yields (ReadA o mt) (blockA e o mt nt b) := by
  have hraw : Yields (fun l => l.length = rowsAt o mt) (rawA e o mt b) := yields_mapE_length _
  unfold blockA
  by_cases hin : inPlace o (some o.a) = true
  · rw [if_pos hin]
    have hkeep : nt = 0 ∧ b = 0 ∨ ∀ l ∈ o.aHeld, l.length ≤ rowsAt o mt := by
      rw [hnt, hb, hmt]
      exact h hin (by omega)
    refine yields_ite' (fun hfirst => yields_bindTo hraw fun l hl => yields_pure ⟨rfl, le_of_eq hl, fun _ x hx => ?_⟩) fun hlater => ?_
    · obtain hx | hx := List.mem_append.1 hx
      · split at hx
        · cases hx
        next hb0 => exact hkeep.resolve_left (fun hno => hb0 hno.2) x hx
      · rw [List.mem_singleton.1 hx, hl]
    · have hall := hkeep.resolve_left fun hno => hlater hno.1
      exact yields_pure ⟨rfl, length_getD_le hall b, fun _ => hall⟩
  · rw [if_neg hin]
    exact yields_bindTo hraw fun l hl => yields_pure ⟨rfl, le_of_eq hl, fun hno => absurd hno hin⟩

theorem yields_blockB {t : Tens} (ht : o.b = some t) (h : HeldB o) (htile : o.tile < tileCount o) {mt nt b : Nat}
    (hmt : mt = o.tile / (tilesOf o).2) (hnt : nt = o.tile % (tilesOf o).2) (hb : b = blocksDone o) (hlt : b < blockCount o) :
    Yields (ReadB o nt) (blockB e o t mt nt b) := by
  have hraw : Yields (fun l => l.length = colsAt o nt) (rawB e o t nt b) := yields_mapE_length _
  have hpos := tiles_pos htile
  have hplace : (nt * blockCount o + b) / blockCount o = nt := by
    rw [Nat.mul_comm, Nat.mul_add_div (by omega), Nat.div_eq_of_lt hlt, Nat.add_zero]
  unfold blockB
  rw [← ht]
  by_cases hin : inPlace o o.b = true
  · rw [if_pos hin]
    obtain ⟨hcols, hlen⟩ := h hin
    refine yields_ite' (fun hfirst => yields_bindTo hraw fun l hl =>
      yields_pure ⟨rfl, le_of_eq hl, fun _ => ⟨fun k x hx => ?_, fun hrow => ?_⟩⟩)
      fun hlater => yields_pure ⟨rfl, ?_, fun _ => ⟨hcols, fun hrow => absurd (hmt.trans (Nat.div_eq_of_lt hrow)) hlater⟩⟩
    · have hrow : o.tile < (tilesOf o).2 := (Nat.div_eq_zero_iff_lt hpos).1 (hmt.symm.trans hfirst)
      have hlast : o.bHeld.length = nt * blockCount o + b := by rw [hlen hrow, hnt, Nat.mod_eq_of_lt hrow, hb]
      rw [List.getElem?_append] at hx
      split at hx
      · exact hcols k x hx
      next hk =>
        obtain ⟨hk', hx⟩ := List.getElem?_eq_some_iff.1 hx
        rw [List.length_singleton] at hk'
        rw [show k = nt * blockCount o + b by omega, hplace, ← hx]
        simp [hl]
    · have := hlen hrow
      simp [this]
    · by_cases hk : nt * blockCount o + b < o.bHeld.length
      · have hentry := hcols _ _ (List.getElem?_eq_getElem hk)
        rw [hplace] at hentry
        rwa [List.getD_eq_getElem _ _ hk]
      · rw [List.getD_eq_default _ _ (Nat.le_of_not_lt hk)]
        exact Nat.zero_le _
  · rw [if_neg hin]
    exact yields_bindTo hraw fun l hl => yields_pure ⟨rfl, le_of_eq hl, fun hno => absurd hno hin⟩

/-- A bank to which a block of both operands is added. -/
def blockAdded (bk : Bank) (o : MmOps) (as bs : List (List Elem)) : MmOps :=
  let n := (blockSteps o bk.block).length
  { o with bank := some (accBlock bk (as.zipIdx.map fun x => (List.range n).map fun t =>
      opdA o bk x.2 (32 * bk.block + t) (x.1.getD t { bits := 0 }) (x.1.getD (n + t) { bits := 0 }))
    (bs.map fun l => l.map (opdOf (mmFmtB o.word)))) }

/-- A block of an MM from descriptors alone: A's elements, B's, and their sums. -/
theorem tileBlock_eq (hrelay : mmRelay o.word = false) (bk : Bank) : tileBlock e o bk =
    blockA { e with again := if bk.nt = 0 ∧ bk.block = 0 then [] else [1] } o bk.mt bk.nt bk.block >>= fun x =>
      (x.1.b.elim (pure (x.1, [])) fun t => blockB e x.1 t bk.mt bk.nt bk.block) >>= fun y => pure (blockAdded bk y.1 x.2 y.2) := by
  unfold tileBlock
  dsimp only
  rw [hrelay, if_neg Bool.false_ne_true, eng_pure_bind]
  refine congrArg _ (funext fun x => ?_)
  unfold blockAdded
  cases x.1.b with
  | none => rfl
  | some t =>
    dsimp only [Option.elim_some]
    rfl

theorem runs_tileBlock (h : MmServed s e o) (hrelay : mmRelay o.word = false) (bk : Bank)
    (hreads : ∀ e, Yields (ReadA o bk.mt) (blockA e o bk.mt bk.nt bk.block)) : Runs s (tileBlock e o bk) := by
  have hleft (l : List Nat) : Readable s { e with again := l } 0 o.a := h.left
  rw [tileBlock_eq hrelay]
  refine runs_bindTo (runs_blockA (hleft _) ..) (hreads _) fun x hx => ?_
  have hb : x.1.b = o.b := by rw [hx.same]
  rw [hb]
  refine runs_bind ?_ fun y => runs_pure _
  cases hb : o.b with
  | none => exact runs_pure _
  | some t => exact runs_blockB (h.right t hb) ..

theorem inPlace_none (o : MmOps) : inPlace o none = false := by
  unfold inPlace
  cases o.d <;> rfl

theorem yields_readB (h : HeldB o) (htile : o.tile < tileCount o) {mt nt b : Nat} (hmt : mt = o.tile / (tilesOf o).2)
    (hnt : nt = o.tile % (tilesOf o).2) (hb : b = blocksDone o) (hlt : b < blockCount o) :
    Yields (ReadB o nt) (o.b.elim (pure (o, [])) fun t => blockB e o t mt nt b) := by
  cases ht : o.b with
  | none =>
    refine yields_pure ⟨rfl, Nat.zero_le _, fun hin => ?_⟩
    rw [ht, inPlace_none] at hin
    exact nomatch hin
  | some t => exact yields_blockB ht h htile hmt hnt hb hlt

theorem dims_accBlock (bk : Bank) {r c : Nat} {la lb : List (List Opd)} (ha : la.length ≤ r) (hb : lb.length ≤ c) :
    Dims r c (accBlock bk la lb).half0 := by
  unfold accBlock Dims
  simp only [List.length_map, List.length_zipIdx, List.mem_map, forall_exists_index, and_imp, forall_apply_eq_imp_iff₂]
  exact ⟨ha, fun _ _ => hb⟩

theorem goes_blockAdded (h : MmOn o) {bk : Bank} (hbank : o.bank = some bk) (hmore : bk.block < blockCount o)
    {x : MmOps × List (List Elem)} {y : MmOps × List (List Elem)} (hx : ReadA o bk.mt x) (hy : ReadB x.1 bk.nt y) :
    MmGoes o (blockAdded bk y.1 x.2 y.2) := by
  have hbk := h.bank bk hbank
  obtain ⟨o1, as⟩ := x
  obtain ⟨o2, bs⟩ := y
  obtain ⟨held, rfl⟩ : ∃ l, o1 = { o with aHeld := l } := ⟨_, hx.same⟩
  obtain ⟨kept, rfl⟩ : ∃ l, o2 = { o with aHeld := held, bHeld := l } := ⟨_, hy.same⟩
  have hdone : blocksDone o = bk.block := by rw [blocksDone, hbank]; rfl
  refine ⟨rfl, ⟨h.tile, ?_, ?_, ?_, ?_⟩, ?_⟩
  · have hlength {f : List Elem × Nat → List Opd} : (as.zipIdx.map f).length = as.length := by rw [List.length_map, List.length_zipIdx]
    rintro _ ⟨⟩
    exact ⟨hbk.tile, hbk.row, hbk.col, hmore, dims_accBlock bk (le_of_eq_of_le hlength hx.rows) (le_of_eq_of_le (List.length_map _) hy.cols)⟩
  · refine ⟨fun hg => .inl ((h.parts.1 hg).resolve_right fun hno => ?_), h.parts.2⟩
    rw [hbank] at hno
    exact nomatch hno.1
  · intro hin _
    exact .inr (hbk.row ▸ hx.held hin)
  · intro hin
    obtain ⟨hcols, hlen⟩ := hy.held hin
    refine ⟨hcols, fun hrow => ?_⟩
    calc kept.length = o.tile * blockCount o + blocksDone o + 1 := hlen hrow
      _ = o.tile * blockCount o + (bk.block + 1) := by rw [hdone]; rfl
  · have hwork : blockCount o + 3 ≤ (tileCount o - o.tile) * (blockCount o + 3) :=
      Nat.le_mul_of_pos_left _ (by have := hbk.tile; omega)
    have hbefore : partsLeft o = (tileCount o - o.tile) * (blockCount o + 3) + (if rowFull o = true then 1 else 0) - (bk.block + 1) := by
      unfold partsLeft
      rw [hbank]
      rfl
    have hafter : partsLeft (blockAdded bk { o with aHeld := held, bHeld := kept } as bs) =
        (tileCount o - o.tile) * (blockCount o + 3) + (if rowFull o = true then 1 else 0) - (bk.block + 1 + 1) := rfl
    refine lt_of_eq_of_lt hafter ?_
    omega

theorem yields_tileBlock (h : MmOn o) (hrelay : mmRelay o.word = false) {bk : Bank} (hbank : o.bank = some bk)
    (hmore : bk.block < blockCount o) : Yields (MmGoes o) (tileBlock e o bk) := by
  have hbk := h.bank bk hbank
  have hdone : bk.block = blocksDone o := by rw [blocksDone, hbank]; rfl
  rw [tileBlock_eq hrelay]
  refine yields_bindTo (yields_blockA h.heldA hbk.row hbk.col hdone hmore) fun x hx => ?_
  refine yields_bindTo (R := ReadB x.1 bk.nt) ?_ fun y hy => yields_pure (goes_blockAdded h hbank hmore hx hy)
  obtain ⟨o1, as⟩ := x
  obtain ⟨held, rfl⟩ : ∃ l, o1 = { o with aHeld := l } := ⟨_, hx.same⟩
  exact yields_readB (o := { o with aHeld := held }) h.heldB hbk.tile hbk.row hbk.col hdone hmore

end

/-! ### A tile ends -/

section
variable {s : State} {e : Env} {o : MmOps} {bk : Bank}

theorem runs_storeOut (h : MmServed s e o) (hroute : mmRoute o.word ≠ 0) {i j : Nat} (hi : i < o.m) (hj : j < o.n) (v : Nat) (p : Bool) :
    Runs s (storeOut e o i j v p) := by
  unfold storeOut
  split
  next t ht =>
    have hix : [j, i] ∈ mmIxs o := List.mem_flatMap.2 ⟨i, List.mem_range.2 hi, List.mem_map.2 ⟨j, List.mem_range.2 hj, rfl⟩⟩
    exact runs_bind (runs_storedBits ..) fun v => runs_writeElem (h.dest hroute t ht) hix ..
  · exact runs_pure _

theorem runs_storeStat (h : MmServed s e o) (hroute : mmRoute o.word ≠ 0)
    (hkind : rowEntry (mmEpi o.word) = true ∨ partEntry (mmEpi o.word) = true) {i t : Nat} (hi : i < o.m)
    (ht : t < if partEntry (mmEpi o.word) = true then mmTiles o else 1) (st : Nat × Nat) (p : Bool) : Runs s (storeStat e o i t st p) := by
  unfold storeStat
  split
  next x hx =>
    obtain ⟨f, hf, hfx⟩ := Option.bind_eq_some_iff.1 hx
    have hw := h.stats hroute hkind f x hf hfx
    have hix (k : Nat) (hk : k = 0 ∨ k = 1) : statAt x k t i ∈ mmStatIxs o x := by
      refine List.mem_flatMap.2 ⟨i, List.mem_range.2 hi, List.mem_flatMap.2 ⟨t, List.mem_range.2 ht, ?_⟩⟩
      obtain rfl | rfl := hk
      · exact List.mem_cons_self
      · exact List.mem_cons_of_mem _ List.mem_cons_self
    exact runs_bind (runs_storedBits ..) fun _ => runs_bind (runs_writeElem hw (hix 0 (.inl rfl)) ..) fun _ =>
      runs_bind (runs_storedBits ..) fun _ => runs_writeElem hw (hix 1 (.inr rfl)) ..
  · exact runs_pure _

theorem groupAddr_eq (o : MmOps) (i j : Nat) :
    groupAddr o i j = (o.fuse.map fun f => fuGroup f.w).getD 0 + 4 * (i * o.n + j) := by
  unfold groupAddr
  cases o.fuse <;> rfl

/-- An element's place in the group buffer. -/
theorem group_served (h : MmServed s e o) (hgroup : grouped o) {i j : Nat} (hi : i < tileRows (mmShape o.word)) (hj : j < o.n) (w : Bool) :
    Served s e w (groupAddr o i j) 4 := by
  have hin : i * o.n + j + 1 ≤ tileRows (mmShape o.word) * o.n :=
    calc i * o.n + j + 1 ≤ (i + 1) * o.n := by rw [Nat.succ_mul]; omega
      _ ≤ tileRows (mmShape o.word) * o.n := Nat.mul_le_mul_right _ hi
  rw [groupAddr_eq]
  exact served_sub (h.group hgroup.1 hgroup.2 w) (by omega) (by omega)

theorem runs_eachCell {f : Nat → Nat → Nat → Eng Unit} {r c : Nat} {rows : List (List Nat)} (hd : Dims r c rows)
    (hf : ∀ i j v, i < r → j < c → Runs s (f i j v)) : Runs s (eachCell f rows) := by
  unfold eachCell
  refine runs_eachE _ fun x hx => runs_eachE _ fun y hy => hf _ _ _ ?_ ?_
  · exact (List.snd_lt_of_mem_zipIdx hx).trans_le (by simpa using hd.1)
  · exact (List.snd_lt_of_mem_zipIdx hy).trans_le (by simpa using hd.2 _ (List.fst_mem_of_mem_zipIdx hx))

theorem runs_residAt (h : MmServed s e o) (i j : Nat) : Runs s (residAt e o i j) := by
  unfold residAt
  split
  next t ht =>
    obtain ⟨f, hf, hft⟩ := Option.bind_eq_some_iff.1 ht
    refine runs_bind (runs_readElem (h.reads t (List.mem_append_right _ ?_)) _) fun _ => runs_pure _
    rw [hf]
    simp [hft]
  · exact runs_pure _

theorem runs_tileElems (h : MmServed s e o) (a : Acc) : Runs s (tileElems e o bk a) := by
  unfold tileElems
  exact runs_bind (runs_mapE _ fun x _ => runs_mapE _ fun y _ => runs_bind (runs_residAt h ..) fun _ => runs_pure _) fun l => runs_pure _

theorem lengths_drainBank (bk : Bank) : (drainBank bk).rows.map List.length = bk.half0.map List.length := by
  unfold drainBank
  rw [List.map_map]
  refine (List.map_congr_left fun x _ => List.length_map _).trans (lengths_zipIdx fun x => ?_)
  rw [List.length_map, List.length_zipIdx]

theorem yields_tileElems (a : Acc) {r c : Nat} (hd : Dims r c a.rows) : Yields (fun v => Dims r c v.1) (tileElems e o bk a) := by
  unfold tileElems
  refine yields_bindTo (yields_mapE (Q := fun x v => x.1.length = v.length) _ fun x _ => ?_) fun l hl => yields_pure ?_
  · refine ⟨fun s v t h => ?_⟩
    rw [(yields_mapE_length _).yields s v t h, List.length_zipIdx]
  · have hlengths : a.rows.map List.length = l.map List.length := by
      rw [← map_eq_of_forall₂ hl, map_length_zipIdx]
    refine (dims_iff ?_).2 hd
    rw [hlengths, List.map_map]
    exact List.map_congr_left fun _ _ => List.length_map _

/-- The results of a tile that leaves its bank. -/
def tileOut (e : Env) (o : MmOps) (bk : Bank) : Eng MmOps :=
  if mmRoute o.word = 0 then act (finishTile e.core bk) >>= fun _ => pure o
  else if rowEntry (mmEpi o.word) = true then groupTile e o bk
  else if partEntry (mmEpi o.word) = true then partTile e o bk
  else elemTile e o bk

theorem tileEnd_eq (e : Env) (o : MmOps) (bk : Bank) :
    tileEnd e o bk = tileOut e o bk >>= fun o => act (addTotal 0x3300 3 1) >>= fun _ => pure { o with tile := o.tile + 1, bank := none } := by
  unfold tileEnd tileOut
  dsimp only
  split_ifs
  · exact (bind_assoc ..).symm
  · rfl
  · rfl
  · rfl

/-- The rows and columns of a tile that leaves its bank. -/
theorem dims_drained (h : BankOn o bk) : Dims (rowsAt o bk.mt) (colsAt o bk.nt) (drainBank bk).rows :=
  (dims_iff (lengths_drainBank bk)).2 h.dims

theorem Dims.mapped {r c : Nat} {l : List (List Nat)} (h : Dims r c l) (f : Nat → Nat) : Dims r c (l.map fun x => x.map f) := by
  refine (dims_iff ?_).2 h
  rw [List.map_map]
  exact List.map_congr_left fun _ _ => List.length_map _

theorem runs_tileDone (sat nan : Bool) : Runs s (act fun s => tileDone sat nan s) := by
  have hcount (c : Bool) (i k : Nat) (u : State) : Calm u (if c = true then bumpE i k u else u) := calm_if (calm_bumpE ..) (.refl u)
  exact runs_act fun u => (hcount sat 0x3300 1 u).trans (hcount nan 0x3300 2 _)

theorem runs_elemTile (h : MmServed s e o) (hroute : mmRoute o.word ≠ 0) (hbk : BankOn o bk) : Runs s (elemTile e o bk) := by
  unfold elemTile
  refine runs_bindTo (runs_tileElems h _) (yields_tileElems _ (dims_drained hbk)) fun x hx => ?_
  refine runs_bind (runs_eachCell (r := rowsAt o bk.mt) (c := colsAt o bk.nt) ?_ fun i j v hi hj =>
    runs_storeOut h hroute (row_lt hi).1 (col_lt hj) ..) fun _ => runs_bind (runs_tileDone ..) fun _ => runs_pure _
  refine (dims_iff ?_).2 hx
  rw [List.map_map, List.map_map]
  exact List.map_congr_left fun _ _ => by simp

theorem runs_partTile (h : MmServed s e o) (hroute : mmRoute o.word ≠ 0) (hpart : partEntry (mmEpi o.word) = true) (hbk : BankOn o bk) :
    Runs s (partTile e o bk) := by
  have hcol : bk.nt < mmTiles o := hbk.col ▸ Nat.mod_lt _ (tiles_pos hbk.tile)
  unfold partTile
  refine runs_bindTo (runs_tileElems h _) (yields_tileElems _ (dims_drained hbk)) fun x hx => ?_
  have hvs := hx.mapped (rowElem o)
  refine runs_bind (runs_eachCell hvs fun i j v hi hj => runs_storeOut h hroute (row_lt hi).1 (col_lt hj) ..) fun _ => ?_
  refine runs_bind (runs_eachE _ fun y hy => runs_storeStat h hroute (.inr hpart) (row_lt ?_).1 ?_ ..) fun _ =>
    runs_bind (runs_tileDone ..) fun _ => runs_pure _
  · exact (List.snd_lt_of_mem_zipIdx hy).trans_le (by simpa using hvs.1)
  · rw [if_pos hpart]
    exact hcol

theorem runs_groupTile (h : MmServed s e o) (hgroup : grouped o) (hbk : BankOn o bk) : Runs s (groupTile e o bk) := by
  unfold groupTile
  refine runs_bindTo (runs_tileElems h _) (yields_tileElems _ (dims_drained hbk)) fun x hx => ?_
  refine runs_bind (runs_eachCell (hx.mapped (rowElem o)) fun i j v hi hj => runs_store ?_) fun _ =>
    runs_bind (runs_tileDone ..) fun _ => runs_pure _
  rw [length_toLe]
  exact group_served h hgroup (row_lt hi).2 (col_lt hj) true

theorem runs_tileOut (h : MmServed s e o) (hbk : BankOn o bk) : Runs s (tileOut e o bk) := by
  unfold tileOut
  refine runs_ite (fun _ => runs_bind ?_ fun _ => runs_pure _) fun hroute => runs_ite (fun hrow => runs_groupTile h ⟨hroute, hrow⟩ hbk)
    fun _ => runs_ite (fun hpart => runs_partTile h hroute hpart hbk) fun _ => runs_elemTile h hroute hbk
  exact runs_actLevel fun u => ⟨fun c w a => xlat_congr rfl c w a, rfl, rfl, rfl, rfl, rfl⟩

theorem runs_tileEnd (h : MmServed s e o) (hbk : BankOn o bk) : Runs s (tileEnd e o bk) := by
  rw [tileEnd_eq]
  exact runs_bind (runs_tileOut h hbk) fun _ => runs_bind (runs_act fun u => calm_addTotal _ _ _ u) fun _ => runs_pure _

/-- Only a row entry keeps something of a tile. -/
structure TileKept (o : MmOps) (v : MmOps) : Prop where
  same   : v = { o with parts := v.parts, gvecs := v.gvecs, groupBad := v.groupBad }
  counts : grouped o → v.parts.length = o.parts.length + 1
  none   : ¬ grouped o → v.parts = o.parts

theorem yields_groupTile (hg : grouped o) : Yields (TileKept o) (groupTile e o bk) := by
  unfold groupTile
  exact yields_bind fun _ => yields_bind fun _ => yields_bind fun _ => yields_pure ⟨rfl, fun _ => List.length_append, fun hno => absurd hg hno⟩

theorem tileKept_self (hno : ¬ grouped o) : TileKept o o := ⟨rfl, fun hg => absurd hg hno, fun _ => rfl⟩

theorem yields_tileOut : Yields (TileKept o) (tileOut e o bk) := by
  unfold tileOut
  refine yields_ite' (fun hroute => yields_bind fun _ => yields_pure (tileKept_self fun hg => hg.1 hroute)) fun hroute => ?_
  refine yields_ite' (fun hrow => yields_groupTile ⟨hroute, hrow⟩) fun hrow => ?_
  have hno : ¬ grouped o := fun hg => hrow hg.2
  refine yields_ite ?_ ?_
  · unfold partTile
    exact yields_bind fun _ => yields_bind fun _ => yields_bind fun _ => yields_bind fun _ => yields_pure (tileKept_self hno)
  · unfold elemTile
    exact yields_bind fun _ => yields_bind fun _ => yields_bind fun _ => yields_pure (tileKept_self hno)

/-- The next tile is in the same row of tiles, or begins one. -/
theorem next_tile {t n : Nat} (h : 0 < n) : (t + 1) % n = 0 ∧ t % n + 1 = n ∨ (t + 1) % n = t % n + 1 ∧ (t + 1) / n = t / n := by
  have hlt := Nat.mod_lt t h
  have hsum : t + 1 = n * (t / n) + (t % n + 1) := by rw [← Nat.add_assoc, Nat.div_add_mod]
  by_cases hlast : t % n + 1 = n
  · refine .inl ⟨?_, hlast⟩
    rw [hsum, hlast, Nat.mul_add_mod, Nat.mod_self]
  · have hnext : t % n + 1 < n := by omega
    refine .inr ⟨?_, ?_⟩
    · rw [hsum, Nat.mul_add_mod, Nat.mod_eq_of_lt hnext]
    · rw [hsum, Nat.mul_add_div h, Nat.div_eq_of_lt hnext, Nat.add_zero]

/-- The MM goes on to its next tile, with what its row keeps. -/
theorem goes_nextTile (h : MmOn o) (hbank : o.bank = some bk) (hdone : ¬ bk.block < blockCount o) {v : MmOps} (hv : TileKept o v) :
    MmGoes o { v with tile := v.tile + 1, bank := none } := by
  have hbk := h.bank bk hbank
  have hblocks : blocksDone o = blockCount o := by
    rw [blocksDone, hbank]
    exact Nat.le_antisymm hbk.block (Nat.le_of_not_lt hdone)
  have hnext := next_tile (t := o.tile) (tiles_pos hbk.tile)
  obtain ⟨ps, g, b, rfl⟩ : ∃ ps g b, v = { o with parts := ps, gvecs := g, groupBad := b } := ⟨_, _, _, hv.same⟩
  refine ⟨rfl, ⟨hbk.tile, nofun, ⟨fun hg => ?_, fun hno => (hv.none hno).trans (h.parts.2 hno)⟩, fun hin hpos => ?_, fun hin => ?_⟩, ?_⟩
  · have hcount : ps.length = o.parts.length + 1 := hv.counts hg
    have hbefore : o.parts.length = o.tile % (tilesOf o).2 := (h.parts.1 hg).resolve_right fun hno => by
      rw [hbank] at hno
      exact nomatch hno.1
    rw [hbefore] at hcount
    obtain ⟨hmod, hfull⟩ | ⟨hmod, -⟩ := hnext
    · exact .inr ⟨rfl, hcount.trans hfull, hmod⟩
    · exact .inl (hcount.trans hmod.symm)
  · obtain ⟨hmod, -⟩ | ⟨-, hrow⟩ := hnext
    · exact .inl ⟨hmod, rfl⟩
    · have hheld := (h.heldA hin hpos).resolve_left fun hno => by
        have hpos' : 0 < blockCount o := hpos
        omega
      rw [← hrow] at hheld
      exact .inr hheld
  · obtain ⟨hcols, hlen⟩ := h.heldB hin
    refine ⟨hcols, fun hrow => ?_⟩
    calc o.bHeld.length = o.tile * blockCount o + blocksDone o := hlen (Nat.lt_of_succ_lt hrow)
      _ = (o.tile + 1) * blockCount o + 0 := by rw [hblocks, Nat.succ_mul, Nat.add_zero]
  · obtain ⟨k, hleft, hnow⟩ := tiles_left hbk.tile
    have hbefore : k * (blockCount o + 3) + 2 ≤ partsLeft o := by
      unfold partsLeft
      rw [hbank, hleft, Nat.succ_mul]
      have := hbk.block
      dsimp only [Option.elim_some]
      omega
    have hafter : partsLeft { o with parts := ps, gvecs := g, groupBad := b, tile := o.tile + 1, bank := none } ≤
        k * (blockCount o + 3) + 1 := by
      rw [← hnow]
      exact Nat.add_le_add_left (ite_le_one le_rfl zero_le_one) _
    exact lt_of_le_of_lt hafter (by omega)

theorem yields_tileEnd (h : MmOn o) (hbank : o.bank = some bk) (hdone : ¬ bk.block < blockCount o) :
    Yields (MmGoes o) (tileEnd e o bk) := by
  rw [tileEnd_eq]
  exact yields_bindTo yields_tileOut fun v hv => yields_bind fun _ => yields_pure (goes_nextTile h hbank hdone hv)

end

/-! ### A row of tiles is finished -/

section
variable {s : State} {e : Env} {o : MmOps}

theorem rowFull_iff : rowFull o = true ↔ o.parts.length = (tilesOf o).2 ∧ o.parts ≠ [] := by
  unfold rowFull
  rw [Bool.and_eq_true, decide_eq_true_iff, Bool.not_eq_true', List.isEmpty_eq_false_iff]

theorem grouped_of_rowFull (h : PartsOn o) (hfull : rowFull o = true) : grouped o := by
  by_contra hno
  exact (rowFull_iff.1 hfull).2 (h.2 hno)

/-- A row entry is no PART entry. -/
theorem partEntry_of_rowEntry {x : Nat} (h : rowEntry x = true) : partEntry x = false := by
  unfold rowEntry at h
  unfold partEntry
  have := of_decide_eq_true h
  exact decide_eq_false (by omega)

theorem runs_finishGroup (h : MmServed s e o) (hg : grouped o) : Runs s (finishGroup e o) := by
  unfold finishGroup
  dsimp only
  refine runs_bind (runs_eachE _ fun x hx => ?_) fun _ => runs_bind (runs_eachE _ fun nt _ => ?_) fun _ => runs_pure _
  · have hlt := List.snd_lt_of_mem_zipIdx hx
    rw [List.length_map, List.length_range] at hlt
    refine runs_storeStat h hg.1 (.inl hg.2) (row_lt hlt).1 ?_ ..
    rw [partEntry_of_rowEntry hg.2]
    exact Nat.one_pos
  · refine runs_bind (runs_eachE _ fun i hi => runs_eachE _ fun j hj => ?_) fun _ => runs_checkpoint
    have hrow := row_lt (List.mem_range.1 hi)
    exact runs_bind (runs_load (group_served h hg hrow.2 (mem_tileColsAt hj) false)) fun x =>
      runs_storeOut h hg.1 hrow.1 (mem_tileColsAt hj) ..

theorem yields_finishGroup (h : MmOn o) (hbank : o.bank = none) (hfull : rowFull o = true) : Yields (MmGoes o) (finishGroup e o) := by
  obtain ⟨hlen, hsome⟩ := rowFull_iff.1 hfull
  have hg := grouped_of_rowFull h.parts hfull
  have hmod : o.tile % (tilesOf o).2 = 0 := by
    obtain hcount | ⟨-, -, hmod⟩ := h.parts.1 hg
    · have hpos := List.length_pos_iff.2 hsome
      have := Nat.mod_lt o.tile (hlen ▸ hpos)
      omega
    · exact hmod
  unfold finishGroup
  dsimp only
  refine yields_bind fun _ => yields_bind fun _ => yields_pure
    ⟨rfl, ⟨h.tile, ?_, ⟨fun _ => .inl hmod.symm, fun _ => rfl⟩, h.heldA, h.heldB⟩, ?_⟩
  · exact fun bk hbk => nomatch hbank.symm.trans hbk
  · have hbefore : partsLeft o = (tileCount o - o.tile) * (blockCount o + 3) + 1 := by
      unfold partsLeft
      rw [hbank, hfull]
      rfl
    have hempty : rowFull { o with parts := [], gvecs := [], groupBad := false } = false := Bool.and_false _
    rw [hbefore]
    refine Nat.lt_succ_of_le ?_
    unfold partsLeft
    rw [hempty]
    exact Nat.sub_le ..

/-! ### The parts of an MM, one after another -/

theorem mmDone_iff (o : MmOps) : mmDone o = true ↔ tileCount o ≤ o.tile ∧ o.parts = [] := by
  unfold mmDone
  rw [Bool.and_eq_true, decide_eq_true_iff, List.isEmpty_iff]

/-- An MM that is not done and has no row to finish has a tile left. -/
theorem tile_of_more (h : MmOn o) (hmore : mmDone o = false) (hrow : rowFull o = false) : o.tile < tileCount o := by
  by_contra hno
  have hlast : o.tile = tileCount o := Nat.le_antisymm h.tile (Nat.le_of_not_lt hno)
  have hparts : o.parts ≠ [] := fun hnil => by
    rw [(mmDone_iff o).2 ⟨Nat.le_of_not_lt hno, hnil⟩] at hmore
    exact nomatch hmore
  have hg : grouped o := by
    by_contra hng
    exact hparts (h.parts.2 hng)
  have hmod : o.tile % (tilesOf o).2 = 0 := by
    rw [hlast, tileCount, Nat.mul_mod_left]
  obtain hcount | ⟨-, hlen, -⟩ := h.parts.1 hg
  · rw [hmod] at hcount
    exact hparts (List.length_eq_zero_iff.1 hcount)
  · rw [rowFull_iff.2 ⟨hlen, hparts⟩] at hrow
    exact nomatch hrow

/-- A part of an MM from descriptors that are served comes to its end, and the MM has less to do. -/
theorem mmPart_goes (h : MmServed s e o) (hrelay : mmRelay o.word = false) (hon : MmOn o) (hmore : mmDone o = false) :
    Runs s (mmPart e o) ∧ Yields (MmGoes o) (mmPart e o) := by
  unfold mmPart
  split
  next hbank =>
    split_ifs with hfull
    · exact ⟨runs_finishGroup h (grouped_of_rowFull hon.parts hfull), yields_finishGroup hon hbank hfull⟩
    · have hfull : rowFull o = false := Bool.eq_false_iff.2 hfull
      exact ⟨runs_tileStart h, yields_tileStart hon hbank (tile_of_more hon hmore hfull) hfull⟩
  next bk hbank =>
    by_cases hblock : bk.block < blockCount o
    · rw [if_pos hblock]
      have hbk := hon.bank bk hbank
      have hdone : bk.block = blocksDone o := by rw [blocksDone, hbank]; rfl
      exact ⟨runs_tileBlock h hrelay bk fun e => yields_blockA hon.heldA hbk.row hbk.col hdone hblock,
        yields_tileBlock hon hrelay hbank hblock⟩
    · rw [if_neg hblock]
      exact ⟨runs_tileEnd h (hon.bank bk hbank), yields_tileEnd hon hbank hblock⟩

end

end Sys2Proof.Machine

/-! ## An MM that is issued from descriptors alone (R140, R148, R158) -/

namespace Sys2Proof.Machine

open Sys2Proof.Safety

/-! ### What checks that pass have seen -/

/-- What holds of every value that work comes to when it began with nothing to pass again. -/
structure Sure {α : Type} (Q : α → Prop) (x : Eng α) : Prop where
  sure : ∀ s v t, s.replay = [] → x s = .ok v t → Q v ∧ t.replay = []

section
variable {α β : Type} {Q : β → Prop}

theorem sure_pure {v : β} (h : Q v) : Sure Q (pure v : Eng β) := ⟨fun _ _ _ hs hv => by cases hv; exact ⟨h, hs⟩⟩

theorem sure_bind {R : α → Prop} {x : Eng α} {f : α → Eng β} (hx : Sure R x) (hf : ∀ v, R v → Sure Q (f v)) : Sure Q (x >>= f) := by
  refine ⟨fun s w t hs h => ?_⟩
  obtain ⟨v, u, hv, hw⟩ := eng_bind_ok h
  obtain ⟨hr, hu⟩ := hx.sure s v u hs hv
  exact (hf v hr).sure u w t hu hw

theorem sure_ite {c : Prop} [Decidable c] {x y : Eng β} (hx : Sure Q x) (hy : Sure Q y) : Sure Q (if c then x else y) := by
  split
  · exact hx
  · exact hy

theorem sure_yields {x : Eng β} (hy : Yields Q x) (hx : Along Quiet x) : Sure Q x :=
  ⟨fun s v t hs hv => ⟨hy.yields s v t hv, List.suffix_nil.1 (hs ▸ (hx.ok hv).passed)⟩⟩

/-- Checks that are passed on the way. -/
theorem sure_after {x : Eng α} {f : α → Eng β} (hx : Along Quiet x) (hf : ∀ v, Sure Q (f v)) : Sure Q (x >>= f) :=
  sure_bind (sure_yields (yields_any x) hx) fun v _ => hf v

theorem sure_need (c : Bool) (r : Reason) (ad : Option (Nat × Bool)) : Sure (fun _ => c = true) (needE c r ad) := by
  refine ⟨fun s v t hs h => ?_⟩
  unfold needE at h
  split at h
  next hc =>
    cases h
    rw [hs, List.isEmpty_nil, Bool.not_true, Bool.or_false] at hc
    exact ⟨hc, hs⟩
  next => cases h

theorem sure_passes {x : Eng β} {s : State} {v : β} (h : Passes x s v) (hx : Sure Q x) : Q v := by
  obtain ⟨t, ht⟩ := h
  obtain ⟨u, hu⟩ := runFrom_ok ht
  exact (hx.sure _ _ _ rfl hu).1

end

/-! ### The operands of an MM that is issued -/

/-- A fusion block that counts chunks counts some of at least one. -/
def ChunksGood (w : Nat) : Prop := fuArrMode w ≠ 0 → 0 < fuArrChunk w

theorem chunksGood_of_block {w pro epi : Nat} (h : fusionBlockOk w pro epi = true) : ChunksGood w := by
  unfold fusionBlockOk at h
  simp only [Bool.and_eq_true] at h
  obtain ⟨⟨⟨⟨⟨⟨⟨⟨⟨_, hchunk⟩, _⟩, _⟩, _⟩, _⟩, _⟩, _⟩, _⟩, _⟩ := h
  intro hmode
  split at hchunk
  · exact of_decide_eq_true hchunk
  · rw [Bool.or_eq_true, beq_iff_eq, Bool.and_eq_true] at hchunk
    exact of_decide_eq_true (hchunk.resolve_left hmode).2

theorem sure_readFusion (e : Env) (a pro epi : Nat) : Sure ChunksGood (readFusion e a pro epi) := by
  unfold readFusion
  exact sure_after (along_needE quiet_reads ..) fun _ => sure_after (along_loadWord quiet_reads ..) fun w =>
    sure_bind (sure_need ..) fun _ hok => sure_pure (chunksGood_of_block hok)

/-- An MM at its beginning. -/
structure Issued0 (o : MmOps) : Prop where
  tile  : o.tile = 0
  bank  : o.bank = none
  parts : o.parts = []
  heldA : o.aHeld = []
  heldB : o.bHeld = []
  fuse  : ∀ f, o.fuse = some f → ChunksGood f.w

theorem yields_openFusion (e : Env) (w pro epi : Nat) : Yields (fun f => f.w = w) (openFusion e w pro epi) := by
  unfold openFusion
  extract_lets +onlyGivenNames -underBinder -merge -useContext pvec
  have hpvec : ∀ x, Yields (fun f => f.w = w) (pvec x) := fun x => by
    unfold pvec
    extract_lets +onlyGivenNames -underBinder -merge -useContext pstat
    have hpstat : ∀ x, Yields (fun f => f.w = w) (pstat x) := fun x => by
      unfold pstat
      extract_lets +onlyGivenNames -underBinder -merge -useContext evec
      have hevec : ∀ x, Yields (fun f => f.w = w) (evec x) := fun x => by
        unfold evec
        extract_lets +onlyGivenNames -underBinder -merge -useContext estat
        have hestat : ∀ x, Yields (fun f => f.w = w) (estat x) := fun x =>
          yields_ite (yields_bind fun _ => yields_pure rfl) (yields_bind fun _ => yields_pure rfl)
        clear_value estat
        exact yields_ite (yields_bind fun _ => hestat _) (yields_ite (yields_bind fun _ => hestat _) (yields_bind fun _ => hestat _))
      clear_value evec
      exact yields_ite (yields_bind fun _ => hevec _) (yields_bind fun _ => hevec _)
    clear_value pstat
    exact yields_ite (yields_bind fun _ => hpstat _) (yields_bind fun _ => hpstat _)
  clear_value pvec
  exact yields_ite (yields_bind fun _ => hpvec _) (yields_bind fun _ => hpvec _)

theorem sure_mmFuse {o : MmOps} (h : Issued0 o) (c : Nat) (e : Env) (w : Nat) : Sure Issued0 (mmFuse c e w o) := by
  unfold mmFuse
  refine sure_bind (sure_readFusion ..) fun fw hfw => sure_after (along_needE quiet_reads ..) fun _ => ?_
  refine sure_bind (sure_yields (yields_openFusion ..) (along_openFusion quiet_reads ..)) fun f hf => ?_
  have hfused : Issued0 { o with fuse := some f } := ⟨h.tile, h.bank, h.parts, h.heldA, h.heldB, fun g hg => by
    rw [← Option.some.inj hg, hf]
    exact hfw⟩
  refine sure_after (along_needE quiet_reads ..) fun _ => sure_ite ?_ (sure_pure hfused)
  exact sure_after (along_needE quiet_reads ..) fun _ => sure_after quiet_reads.get fun _ =>
    sure_after (along_needE quiet_reads ..) fun _ => sure_pure hfused

theorem sure_mmIssue (c : Nat) (i : Issued) (r : Nat) : Sure Issued0 (mmIssue c i r) := by
  have hq := quiet_reads
  unfold mmIssue
  refine sure_after (along_needE hq ..) fun _ => sure_after (along_needE hq ..) fun _ => sure_after (along_needE hq ..) fun _ => ?_
  refine sure_after (along_peekElem hq ..) fun pa => ?_
  extract_lets +onlyGivenNames -underBinder -merge -useContext j1
  have h1 : ∀ x, Sure Issued0 (j1 x) := fun x => by
    unfold j1
    extract_lets +onlyGivenNames -underBinder -merge -useContext j2
    have h2 : ∀ x, Sure Issued0 (j2 x) := fun x => by
      refine sure_after (along_openTensor hq ..) fun a => ?_
      extract_lets +onlyGivenNames -underBinder -merge -useContext j3
      have h3 : ∀ x, Sure Issued0 (j3 x) := fun x => by
        unfold j3
        extract_lets +onlyGivenNames -underBinder -merge -useContext j4
        have h4 : ∀ x, Sure Issued0 (j4 x) := fun b => by
          unfold j4
          extract_lets +onlyGivenNames -underBinder -merge -useContext j5
          have h5 : ∀ x, Sure Issued0 (j5 x) := fun ct => by
            unfold j5
            extract_lets +onlyGivenNames -underBinder -merge -useContext j6
            have h6 : ∀ x, Sure Issued0 (j6 x) := fun d => by
              unfold j6
              extract_lets +onlyGivenNames -underBinder -merge -useContext _ _ j7
              have h7 : ∀ x, Sure Issued0 (j7 x) := fun desc => by
                refine sure_after (along_needE hq ..) fun _ => ?_
                extract_lets +onlyGivenNames -underBinder -merge -useContext j8
                have h8 : ∀ x, Sure Issued0 (j8 x) := fun x => by
                  unfold j8
                  extract_lets +onlyGivenNames -underBinder -merge -useContext o j9
                  have hfirst : Issued0 o := ⟨rfl, rfl, rfl, rfl, rfl, fun f (hf : none = some f) => nomatch hf⟩
                  have h9 : ∀ x, Issued0 x → Sure Issued0 (j9 x) := fun x hx =>
                    sure_after hq.get fun _ => sure_pure ⟨hx.tile, hx.bank, hx.parts, hx.heldA, hx.heldB, hx.fuse⟩
                  clear_value j9
                  clear_value o
                  exact sure_ite (sure_bind (R := Issued0) (sure_pure hfirst) h9) (sure_bind (R := Issued0) (sure_mmFuse hfirst ..) h9)
                clear_value j8
                split
                · exact sure_after (along_needE hq ..) fun _ => h8 _
                · exact h8 _
              clear_value j7
              exact sure_ite (sure_after (along_streamFor hq ..) fun _ => sure_after (hq.pure _) fun _ => h7 _)
                (sure_after (hq.pure _) fun _ => h7 _)
            clear_value j6
            exact sure_ite (sure_after (along_openTensor hq ..) fun _ => sure_after (hq.pure _) fun _ => h6 _)
              (sure_after (hq.pure _) fun _ => h6 _)
          clear_value j5
          exact sure_ite (sure_after (along_openTensor hq ..) fun _ => sure_after (hq.pure _) fun _ => h5 _)
            (sure_after (hq.pure _) fun _ => h5 _)
        clear_value j4
        exact sure_ite (sure_after (hq.pure _) fun _ => h4 _) (sure_after (along_openTensor hq ..) fun _ =>
          sure_after (along_needE hq ..) fun _ => sure_after (hq.pure _) fun _ => h4 _)
      clear_value j3
      exact sure_ite (sure_after (along_needE hq ..) fun _ => h3 _) (h3 _)
    clear_value j2
    exact sure_ite (sure_after (along_peekElem hq ..) fun _ => sure_after (along_needE hq ..) fun _ => h2 _) (h2 _)
  clear_value j1
  exact sure_ite (sure_after (along_needE hq ..) fun _ => h1 _) (h1 _)

theorem Issued0.on {o : MmOps} (h : Issued0 o) : MmOn o where
  tile := h.tile ▸ Nat.zero_le _
  bank bk hbk := nomatch h.bank.symm.trans hbk
  parts := ⟨fun _ => .inl (by rw [h.parts, h.tile, Nat.zero_mod]; rfl), fun _ => h.parts⟩
  heldA _ _ := .inr (by rw [h.heldA]; exact List.forall_mem_nil _)
  heldB _ := by
    have hnone : blocksDone o = 0 := by rw [blocksDone, h.bank]; rfl
    rw [h.heldB, h.tile, hnone]
    exact ⟨fun k l (hl : none = some l) => (nomatch hl), fun _ => (Nat.zero_mul _).symm⟩

theorem Issued0.left {o : MmOps} (h : Issued0 o) : partsLeft o < mmFuel o := by
  have hempty : rowFull o = false := by rw [rowFull, h.parts]; exact Bool.and_false _
  unfold partsLeft mmFuel
  rw [hempty, h.bank, h.tile]
  exact Nat.lt_succ_self _

/-! ### An MM that waits for no chunk -/

/-- No block of an MM waits for a chunk. -/
def NeedsNone (o : MmOps) : Prop := ∀ bk, 0 < (tilesOf o).2 → bk.block < blockCount o → chunksNeeded o bk = 0

theorem cdiv_pos {a b : Nat} (ha : 0 < a) (hb : 0 < b) : 0 < cdiv a b := Nat.div_pos (by omega) hb

theorem pos_of_cdiv {a b : Nat} (h : 0 < cdiv a b) : 0 < a := by
  by_contra hn
  rw [cdiv, Nat.eq_zero_of_not_pos hn, Nat.zero_add] at h
  by_cases hb : b = 0
  · rw [hb, Nat.div_zero] at h
    exact Nat.lt_irrefl _ h
  · rw [Nat.div_eq_of_lt (by omega)] at h
    exact Nat.lt_irrefl _ h

theorem needsNone_of_issued {o : MmOps} (h : Issued0 o) (hchunks : arrChunks o = 0) : NeedsNone o := by
  intro bk hpos hblock
  unfold arrChunks at hchunks
  unfold chunksNeeded
  cases hf : o.fuse with
  | none => rfl
  | some f =>
    rw [hf] at hchunks
    dsimp only at hchunks ⊢
    by_cases hmode : fuArrMode f.w = 0
    · rw [if_pos hmode]
    · have hchunk := h.fuse f hf hmode
      rw [if_neg hmode] at hchunks
      exfalso
      split at hchunks
      · have := cdiv_pos hpos hchunk
        omega
      · have := cdiv_pos (pos_of_cdiv (Nat.zero_lt_of_lt hblock)) hchunk
        omega

/-- An MM that waits is one of ROUTE 0 that finds no free bank. -/
theorem route_of_waits {o : MmOps} {s : State} {c : Nat} (hon : MmOn o) (hnone : NeedsNone o) (h : mmWaits s c o = true) :
    mmRoute o.word = 0 := by
  unfold mmWaits at h
  split at h
  · rw [Bool.and_eq_true, beq_iff_eq] at h
    exact h.1
  next bk hbk =>
    rw [Bool.and_eq_true, decide_eq_true_iff, decide_eq_true_iff] at h
    rw [hnone bk (tiles_pos (hon.bank bk hbk).tile) h.1] at h
    exact absurd h.2 (Nat.not_lt_zero _)

/-! ### The loop ends -/

section
variable {c : Nat} {i : Issued} {s : State}

theorem level_cleared {t : State} (h : Level s t) (hs : Idle s) : Level s (settled { settled t with wrote := [], wroteFar := [] }) :=
  ⟨h.xlat, h.module, h.regs, h.moduli, hs.replay.symm, hs.stretch.symm⟩

/-- An MM on its way, whose operands are served, is done after at most its parts, or waits as ROUTE 0. -/
theorem mmLoop_ends (hs : Idle s) (n : Nat) {o : MmOps} {u : State} (hserved : MmServed s (envOf c .mm i) o) (hrelay : mmRelay o.word = false)
    (hnone : NeedsNone o) (hon : MmOn o) (hleft : partsLeft o < n) (hlevel : Level s (settled u)) (hstop : stopping u c i.ctx = false) :
    ∃ o' t, (mmRoute o.word = 0 → mmDone o' = true ∨ mmWaits t c o' = true) ∧
      mmLoop c i n o [] u = if mmRoute o.word = 0 then mmKeep c o' [] t else mmRepeatDone c i t := by
  induction n generalizing o u with
  | zero => exact absurd hleft (Nat.not_lt_zero _)
  | succ n ih =>
    by_cases hdone : mmDone o = true
    · exact ⟨o, u, fun _ => .inl hdone, mmLoop_done hdone⟩
    have hmore : mmDone o = false := Bool.eq_false_iff.2 hdone
    by_cases hwaits : mmWaits u c o = true
    · refine ⟨o, u, fun _ => .inr hwaits, ?_⟩
      rw [if_pos (route_of_waits hon hnone hwaits)]
      exact mmLoop_waits hmore rfl hwaits
    obtain ⟨hruns, hyields⟩ := mmPart_goes hserved hrelay hon hmore
    obtain ⟨o1, t, ho1, hlevel1⟩ := hruns.ends (settled u) hlevel ⟨rfl, rfl⟩
    have hgoes := hyields.yields _ _ _ ho1
    have hword : o1.word = o.word := (congrArg MmOps.word hgoes.alike :)
    have hgoing : Going (settled u) t := (going_mmPart ..).ok ho1
    have hfixed : NeedsNone (fixedOf o1) := hgoes.alike ▸ (hnone : NeedsNone (fixedOf o))
    have hnone1 : NeedsNone o1 := hfixed
    have hstop1 : stopping { settled t with wrote := [], wroteFar := [] } c i.ctx = false := (hgoing.same c i.ctx).trans hstop
    obtain ⟨o', v, hends, hloop⟩ := ih (mmServed_alike hserved hgoes.alike) (by rwa [hword]) hnone1 hgoes.on
      (Nat.lt_of_lt_of_le hgoes.less (Nat.le_of_lt_succ hleft)) (level_cleared (hlevel.trans hlevel1) hs) hstop1
    rw [hword] at hends hloop
    exact ⟨o', v, hends, (mmLoop_part hmore (.inr (Bool.eq_false_iff.2 hwaits)) hstop (runFrom_settled ho1)).trans hloop⟩

/-- The checks with which an MM is issued. -/
def mmChecks (c : Nat) (i : Issued) : Eng MmOps := do
  let o ← mmIssue c i i.progress
  arrSealBound (envOf c .mm i) o
  pure o

theorem along_mmChecks {R : State → State → Prop} (hR : Reads R) : Along R (mmChecks c i) :=
  hR.bind (along_mmIssue hR ..) fun _ => hR.bind (along_arrSealBound hR ..) fun _ => hR.pure _

theorem sure_mmChecks : Sure Issued0 (mmChecks c i) :=
  sure_bind (sure_mmIssue ..) fun _ ho => sure_after (along_arrSealBound quiet_reads ..) fun _ => sure_pure ho

theorem fresh_issued (h : i.journal = []) : { i with journal := [] } = i := by
  rw [← h]

/-- An MM that is issued from descriptors alone, whose operands are served, is done or waits as ROUTE 0. -/
theorem mmRow_ends {o : MmOps} (hhead : readyHead s c .mm 1 = some i) (hmm : i.mm = none) (hfresh : i.journal = [])
    (htaken : arrayTaken s c = false ∨ begun i = true) (hstop : stopping s c i.ctx = false) (hcan : mmCan c i s o) :
    ∃ o' t, (mmRoute o.word = 0 → mmDone o' = true ∨ mmWaits t c o' = true) ∧
      mmRow c s = if mmRoute o.word = 0 then mmKeep c o' [] t else mmRepeatDone c i t := by
  obtain ⟨hpass, hrelay, hchunks, hserved⟩ := hcan
  have hissued : Issued0 o := sure_passes hpass sure_mmChecks
  obtain ⟨u, hu, hcalm, hidle⟩ := passes_quiet hpass (along_mmChecks quiet_reads)
  have hgoing : Going (settled s) u := (along_mmChecks going_writes.toReads).ok hu
  have hrun : runFrom i.journal false (mmChecks c i) s = .ok o (settled u) := by
    rw [hfresh]
    exact runFrom_settled hu
  have hserved' : MmServed (begin s u.reads) (envOf c .mm i) o :=
    ⟨hserved.left, hserved.right, hserved.reads, hserved.dest, hserved.stats, hserved.group⟩
  have hlevel : Level (begin s u.reads) (settled (settled u)) := by
    have h := hcalm.level
    exact ⟨h.xlat, h.module, h.regs, h.moduli, rfl, rfl⟩
  obtain ⟨i', hi', hrow⟩ := mmRow_begins hhead (.inr ⟨hmm, htaken, rfl, hrun⟩)
  have hsame : i' = i := hi'.elim id fun h => h.trans (fresh_issued hfresh)
  rw [hsame] at hrow
  rw [hrow]
  exact mmLoop_ends ⟨rfl, rfl⟩ _ hserved' hrelay (needsNone_of_issued hissued hchunks) hissued.on hissued.left hlevel
    ((hgoing.same c i.ctx).trans hstop)

end

/-- Settles O19: the loop over an MM's parts, by what it has done; the same for one issued from descriptors that are served; and what
follows a repeat that is done. -/
theorem mmRuns : Obligations.MmRuns := by
  refine ⟨fun c s s0 t i o o' j n hhead hstart hworks hfuel => ?_, fun c s i o hhead hmm hfresh htaken hstop hcan => ?_, fun c i s =>
    ⟨fun hlast => ?_, fun hmore => ?_⟩⟩
  · obtain ⟨i', hi', hrow⟩ := mmRow_begins hhead hstart
    have henv : envOf c.val .mm i' = envOf c.val .mm i := by
      obtain rfl | rfl := hi' <;> rfl
    obtain ⟨m, hm⟩ : ∃ m, mmFuel o = n + (m + 1) := ⟨mmFuel o - n - 1, by omega⟩
    obtain ⟨j', hj', hloop⟩ := mmLoop_works (m := m + 1) hworks henv
    rw [hm, hloop] at hrow
    refine ⟨fun hdone hroute => ⟨i', hi', congrArg Host.Outcome.next ?_⟩, fun hdone hroute => congrArg Host.Outcome.next ?_,
      fun hmore hwaits hj => congrArg Host.Outcome.next ?_⟩
    · rw [hrow, mmLoop_done hdone, if_neg hroute]
    · rw [hrow, mmLoop_done hdone, if_pos hroute]
    · rw [hrow, mmLoop_waits hmore (hj' hj) hwaits]
  · obtain ⟨o', t, hends, hrow⟩ := mmRow_ends hhead hmm hfresh htaken hstop hcan
    refine ⟨fun hroute => ⟨t, congrArg Host.Outcome.next ?_⟩, fun hroute => ⟨o', t, hends hroute, congrArg Host.Outcome.next ?_⟩⟩
    · rw [hrow, if_neg hroute]
    · rw [hrow, if_pos hroute]
  · rw [mmRepeatDone_eq, if_pos hlast]
  · rw [mmRepeatDone_eq, if_neg (Nat.not_le.2 hmore)]

end Sys2Proof.Machine
